-- ==== Sys2Proof/Word.lean ====
section
/-! DEFINITION. The word types and the sparse canonical tables that every addressed or indexed piece of
state is held in. A table is a list of (key, value) pairs with strictly rising keys that lists no entry
equal to what an unlisted key reads as, so equal tables are equal data. -/

namespace Sys2Proof

/-- A byte. -/
abbrev Byte := BitVec 8
/-- A 32-bit register or word (R92). -/
abbrev Word := BitVec 32
/-- A 64-bit value. -/
abbrev DWord := BitVec 64

/-- A sparse table: (key, value) pairs, keys strictly rising, default values not listed. -/
abbrev Tbl (α : Type) := List (Nat × α)

namespace Tbl

/-- What key `k` reads as, `d` being what an unlisted key reads as. -/
def get {α : Type} (d : α) : Tbl α → Nat → α
  | [], _ => d
  | (j, v) :: r, k => if j = k then v else get d r k

/-- Write `v` at `k`; writing the default removes the entry. -/
def set {α : Type} [DecidableEq α] (d : α) : Tbl α → Nat → α → Tbl α
  | [], k, v => if v = d then [] else [(k, v)]
  | (j, w) :: r, k, v =>
    if k < j then (if v = d then (j, w) :: r else (k, v) :: (j, w) :: r)
    else if k = j then (if v = d then r else (k, v) :: r)
    else (j, w) :: set d r k v

/-- Change the entry at `k` by `f`. -/
def upd {α : Type} [DecidableEq α] (d : α) (t : Tbl α) (k : Nat) (f : α → α) : Tbl α :=
  set d t k (f (get d t k))

/-- Change every listed entry by `f`, which fixes the default. -/
def mapv {α : Type} [DecidableEq α] (d : α) (f : α → α) (t : Tbl α) : Tbl α :=
  t.filterMap (fun (k, v) => if f v = d then none else some (k, f v))

/-- Keys strictly rising from `lo`, and no entry equal to the default. -/
def wfFrom {α : Type} [DecidableEq α] (d : α) : Nat → Tbl α → Bool
  | _, [] => true
  | lo, (k, v) :: r => decide (lo ≤ k) && decide (v ≠ d) && wfFrom d (k + 1) r

/-- The canonical form of a table. -/
def wf {α : Type} [DecidableEq α] (d : α) (t : Tbl α) : Bool := wfFrom d 0 t

end Tbl

/-- Byte-addressed memory: `Host.Cell` pairs in the canonical form of `Tbl`, unlisted bytes reading 0. -/
abbrev Memory := Tbl Byte

/-- What a byte of memory that nothing has written reads as. DESIGN CHOICE (log 3). -/
def Memory.unlisted : Byte := 0

/-- The canonical form of a memory. -/
def Memory.wf (m : Memory) : Bool := Tbl.wf Memory.unlisted m

/-- Read one byte. -/
def Memory.read (m : Memory) (a : Nat) : Byte := Tbl.get Memory.unlisted m a

/-- Write one byte, keeping the canonical form. -/
def Memory.write (m : Memory) (a : Nat) (b : Byte) : Memory := Tbl.set Memory.unlisted m a b

end Sys2Proof
end

