-- ==== Sys2Proof/Config.lean ====
section
/-! DEFINITION. What a part fixes and what the spec leaves free: opaque constants without a body, so that no
proof can lean on a value. Each names the rule that leaves it open. -/

namespace Sys2Proof.Config

/-- Fresh free values, one for each count of `State.free`: results the spec states no value for. -/
opaque freeValue : Nat → BitVec 64
/-- The error, in units in the last place, of a transcendental of V (R73) by operation and operand; the
meaning clamps it to the bound the rule states. -/
opaque ulpSlip : Nat → Word → Int
/-- HSS/LMS signature verification (R381–R383, RFC 8554): public key, message, signature. -/
opaque hssVerify : List Byte → List Byte → List Byte → Bool
/-- The identity signature (R388): leaf index, report; its first 3,284 bytes are taken. -/
opaque identitySign : Word → List Byte → List Byte
/-- SHA-256 of the firmware signing key (R381, in mask ROM). -/
opaque firmwareAnchor : List Byte
/-- SHA-256 of the licence signing key (R381, in image section 1). -/
opaque licenceAnchor : List Byte
/-- The identity HSS public key of this device, 60 bytes (R386). -/
opaque identityKey : List Byte
/-- The identity certificate of the per-part region, 3,796 bytes (R386). -/
opaque identityCert : List Byte
/-- SHA-256 of the signed defect map (R387). -/
opaque defectMapSha : List Byte
/-- What the scratchpad's codes answer to a pattern beyond what they are sure of (R156, R157), by code (durable or not) and
pattern: whether it is reported uncorrectable, whether it goes undetected, and otherwise what the miscorrected data
differs by. -/
opaque eccReports : Bool → BitVec 294 → Bool
opaque eccSilent : BitVec 294 → Bool
opaque eccResidue : Bool → BitVec 294 → BitVec 256
/-- The words the buffer of a core's remote-write port holds (R172): no size is given. -/
opaque portWords : Nat
/-- The signed defect map (R20, R369): physical rows and columns of a physical core's arrays that are out of use, by core
and array code; its banks; the physical slice of each stack's nine that is; and the crossbar ports. -/
opaque rowsOut : Nat → Nat → List Nat
opaque colsOut : Nat → Nat → List Nat
opaque banksOut : Nat → List Nat
opaque sliceOut : Nat → Nat
opaque portsOut : List Nat
/-- V_fit of a physical core in mV at a frequency step (R323). -/
opaque vfit : Nat → Nat → Nat
/-- Rows of a stack that the signed defect map repairs (R192), as 65,536 times the bank plus the row. -/
opaque mapRows : Nat → List Nat
/-- The phases of a field uncore, transport or management domain, by domain (R337): no count is given. -/
opaque otherPhases : Nat → BitVec 5
/-- Which core domains are physically adjacent (R330): the floor plan is not given. -/
opaque adjacent : Nat → Nat → Bool
/-- Whether Damper's fraction is rounded up to the next 1/1,024 (R326), by fraction, power and cap. -/
opaque bubbleUp : Nat → Nat → Nat → Bool
/-- The guard slack of a core's ageing monitors (R327). -/
opaque guardSlack : Nat → Int
/-- Voxxa's JEP106 code (R394) and the IDCODE version field. -/
opaque jep106 : BitVec 11
opaque idcodeVersion : BitVec 4
/-- PCI configuration-space content other than the Device ID (R287). -/
opaque pciConfig : BitVec 12 → Word
/-- The smoothed round trip (R239, R241) from the last one and a sample: no smoothing rule is given. -/
opaque smoothRtt : Nat → Nat → Nat
/-- A byte of DRAM that a device-level fault left undefined (R280), by fault and address. -/
opaque lostByte : Nat → Nat → Byte
/-- TE_PORT_p_LANE_k by port, lane and time (R221): the powers a lane's monitors read. -/
opaque laneReading : Nat → Nat → Nat → BitVec 16
/-- What an IP header holds that the spec leaves open and a checksum covers (R208): time to live, differentiated services,
identification and flags; and the flags of a neighbour advertisement, by whether it was solicited (R206). -/
opaque ipTtl : Byte
opaque ipDscp : BitVec 6
opaque ip4Id : BitVec 16
opaque ip4Flags : BitVec 16
opaque naFlags : Bool → Byte
/-- Whether PTP is locked on a peer (R240), by node and time: no packet tells. -/
opaque peerLocked : BitVec 18 → Nat → Bool
/-- The calibrated delays of a position, transmit and receive, in ps (R219, R221), by optical engine and position. -/
opaque txDelay : Nat → Nat → BitVec 16
opaque rxDelay : Nat → Nat → BitVec 16
/-- The MAC address MC3 gives a port from the board configuration where none is staged (R221). -/
opaque portMac : Fin 96 → BitVec 48

end Sys2Proof.Config
end

