-- ==== Sys2Proof/Machine/Bits.lean ====
section
/-! DEFINITION. Bit fields, little-endian bytes (R12), saturating counters (R414), ranges of memory, CRC-32C
(R305) and SHA-256. -/

namespace Sys2Proof.Machine

/-- Bits [lo+len-1:lo] of a word. -/
def fld {n : Nat} (w : BitVec n) (lo len : Nat) : Nat := w.toNat / 2 ^ lo % 2 ^ len

/-- Bit `i` of a word. -/
def bit {n : Nat} (w : BitVec n) (i : Nat) : Bool := w.getLsbD i

/-- A bit as a number. -/
def b2n (b : Bool) : Nat := if b then 1 else 0

/-- A word with bit `i` set. -/
def setBit {n : Nat} (w : BitVec n) (i : Nat) : BitVec n := w ||| BitVec.ofNat n (2 ^ i)

/-- A word with bit `i` cleared. -/
def clrBit {n : Nat} (w : BitVec n) (i : Nat) : BitVec n := w &&& ~~~(BitVec.ofNat n (2 ^ i))

/-- A word with bit `i` given a value. -/
def putBit {n : Nat} (w : BitVec n) (i : Nat) (b : Bool) : BitVec n := if b then setBit w i else clrBit w i

/-- ⌈a ÷ b⌉. -/
def ceilDiv (a b : Nat) : Nat := (a + b - 1) / b

/-- A saturating addition in `n` bits (R414). -/
def satAdd {n : Nat} (w : BitVec n) (k : Nat) : BitVec n := BitVec.ofNat n (min (w.toNat + k) (2 ^ n - 1))

/-- Add one, saturating. -/
def satInc {n : Nat} (w : BitVec n) : BitVec n := satAdd w 1

/-- Two's complement value of an `n`-bit field. -/
def sext (n v : Nat) : Int := if v % 2 ^ n ≥ 2 ^ (n - 1) then ((v % 2 ^ n : Nat) : Int) - 2 ^ n else (v % 2 ^ n : Nat)

/-- A little-endian number from its bytes (R12). -/
def leNat : List Byte → Nat
  | [] => 0
  | b :: r => b.toNat + 256 * leNat r

/-- The `k` little-endian bytes of a number. -/
def toLE : Nat → Nat → List Byte
  | 0, _ => []
  | k + 1, n => BitVec.ofNat 8 n :: toLE k (n / 256)

/-- Bytes at an offset, zeros past the end. -/
def bytesAt (b : List Byte) (off n : Nat) : List Byte :=
  let t := (b.drop off).take n
  t ++ List.replicate (n - t.length) 0

/-- A little-endian number of `n` bytes at an offset. -/
def leAt (b : List Byte) (off n : Nat) : Nat := leNat (bytesAt b off n)

/-- Sum of a list. -/
def sumNat (l : List Nat) : Nat := l.foldl (· + ·) 0

/-- Read `n` bytes from address `a`. -/
def Mem.readN (m : Memory) (a : Nat) : Nat → List Byte
  | 0 => []
  | n + 1 => Memory.read m a :: Mem.readN m (a + 1) n

/-- Write bytes from address `a`. -/
def Mem.writeN (m : Memory) (a : Nat) : List Byte → Memory
  | [] => m
  | b :: r => Mem.writeN (Memory.write m a b) (a + 1) r

/-- A list cut into pieces of `n` elements, by fuel. -/
def chunksAux {α : Type} (n : Nat) : Nat → List α → List (List α)
  | 0, _ => []
  | _, [] => []
  | k + 1, l => l.take n :: chunksAux n k (l.drop n)

/-- A list cut into pieces of `n` elements. -/
def chunks {α : Type} (n : Nat) (l : List α) : List (List α) := chunksAux n l.length l

/-- Does a list of naturals hold one twice. -/
def hasDup : List Nat → Bool
  | [] => false
  | a :: r => r.contains a || hasDup r

/-- Insert into an ascending list without repeats. -/
def insertUniq (a : Nat) : List Nat → List Nat
  | [] => [a]
  | b :: r => if a < b then a :: b :: r else if a = b then b :: r else b :: insertUniq a r

/-- Fold over 0 … n−1. -/
def upto {α : Type} (f : α → Nat → α) (a : α) (n : Nat) : α := (List.range n).foldl f a

/-! ### CRC-32C (R305): reflected polynomial 0x82F63B78, initial and final inversion -/

/-- One bit of the CRC. -/
def crcStep (c : Nat) : Nat := if c % 2 = 1 then Nat.xor (c / 2) 0x82F63B78 else c / 2

/-- CRC-32C of a byte string. -/
def crc32c (bs : List Byte) : Nat :=
  Nat.xor (bs.foldl (fun c b =>
    let c := Nat.xor c b.toNat
    crcStep (crcStep (crcStep (crcStep (crcStep (crcStep (crcStep (crcStep c)))))))) 0xFFFFFFFF) 0xFFFFFFFF

/-! ### SHA-256 (FIPS 180-4) -/

/-- The four words of a 128-bit constant, its highest first. -/
def quarters (n : Nat) : List Word := [3, 2, 1, 0].map (fun i => BitVec.ofNat 32 (n / 2 ^ (32 * i)))

/-- The round constants, four to a number: the fractions of the cube roots of the first 64 primes. -/
def shaK : List Word :=
  ([0x428a2f9871374491b5c0fbcfe9b5dba5, 0x3956c25b59f111f1923f82a4ab1c5ed5,
    0xd807aa9812835b01243185be550c7dc3, 0x72be5d7480deb1fe9bdc06a7c19bf174,
    0xe49b69c1efbe47860fc19dc6240ca1cc, 0x2de92c6f4a7484aa5cb0a9dc76f988da,
    0x983e5152a831c66db00327c8bf597fc7, 0xc6e00bf3d5a7914706ca635114292967] ++
   [0x27b70a852e1b21384d2c6dfc53380d13, 0x650a7354766a0abb81c2c92e92722c85,
    0xa2bfe8a1a81a664bc24b8b70c76c51a3, 0xd192e819d6990624f40e3585106aa070,
    0x19a4c1161e376c082748774c34b0bcb5, 0x391c0cb34ed8aa4a5b9cca4f682e6ff3,
    0x748f82ee78a5636f84c878148cc70208, 0x90befffaa4506cebbef9a3f7c67178f2]).flatMap quarters

/-- The initial hash: the fractions of the square roots of the first 8 primes. -/
def shaInit : List Word :=
  [0x6a09e667bb67ae853c6ef372a54ff53a, 0x510e527f9b05688c1f83d9ab5be0cd19].flatMap quarters

/-- The XOR of a word turned right by each of some amounts. -/
def turns (l : List Nat) (x : Word) : Word := (l.map x.rotateRight).foldl (· ^^^ ·) 0

/-- The message schedule, newest word first, taken `n` words further. -/
def shaExtend : Nat → List Word → List Word
  | 0, l => l
  | n + 1, l =>
    let back (i : Nat) := l.getD (i - 1) 0
    let far := turns [7, 18] (back 15) ^^^ back 15 >>> 3
    let near := turns [17, 19] (back 2) ^^^ back 2 >>> 10
    shaExtend n (([back 7, back 16, near, far].foldl (· + ·) 0) :: l)

/-- The eight working words. -/
structure Sha where
  a : Word
  b : Word
  c : Word
  d : Word
  e : Word
  f : Word
  g : Word
  h : Word

/-- One round, by the sum of a round constant and a word of the schedule: where a bit of e is set f's bit is chosen, g's
otherwise; and of a, b and c the bit that two of them have. -/
def Sha.round (x : Sha) (kw : Word) : Sha :=
  let choice := x.g ^^^ (x.e &&& (x.f ^^^ x.g))
  let most := (x.a &&& (x.b ||| x.c)) ||| (x.b &&& x.c)
  let up := kw + choice + turns [6, 11, 25] x.e + x.h
  { a := up + (most + turns [2, 13, 22] x.a), b := x.a, c := x.b, d := x.c, e := x.d + up, f := x.e, g := x.f, h := x.g }

/-- A big-endian word of four bytes. -/
def beWord (b : List Byte) : Word := BitVec.ofNat 32 (b.foldl (fun a x => a * 256 + x.toNat) 0)

/-- One block of 64 bytes. -/
def shaBlock (h : List Word) (blk : List Byte) : List Word :=
  let w := (shaExtend 48 ((chunks 4 blk).map beWord).reverse).reverse
  let i (n : Nat) := h.getD n 0
  let x := (List.zipWith (· + ·) shaK w).foldl Sha.round
    { a := i 0, b := i 1, c := i 2, d := i 3, e := i 4, f := i 5, g := i 6, h := i 7 }
  List.zipWith (· + ·) h [x.a, x.b, x.c, x.d, x.e, x.f, x.g, x.h]

/-- SHA-256 of a byte string: a one bit, zeros and the length in bits fill the last block. -/
def sha256 (m : List Byte) : List Byte :=
  let gap := (119 - m.length % 64) % 64
  let whole := m ++ 0x80 :: (List.replicate gap 0 ++ (toLE 8 (m.length * 8)).reverse)
  ((chunks 64 whole).foldl shaBlock shaInit).flatMap (fun w => (toLE 4 w.toNat).reverse)

end Sys2Proof.Machine
end

