-- ==== Sys2Proof/Machine/Banks.lean ====
section
/-! DEFINITION. The banks of a core's scratchpad (R147, R148), their two codes (R155–R157), and the steering of arrays and
banks round what is out of use (R20). A code word's check field is followed bit for bit as the difference of what is stored
from what was written: the codes are linear, and what they answer depends on that difference alone. -/

namespace Sys2Proof.Machine

/-! ### Where a line lies (R147, R148) -/

/-- The logical bank of a line, of the 64. -/
def lineBank (l : Nat) : Nat := Nat.xor (Nat.xor (l % 64) (l / 64 % 64)) (Nat.xor (l / 4096 % 64) (l / 262144 % 2 * 32))

/-- Its row in the bank, of the 6,144. -/
def lineRow (l : Nat) : Nat := l / 64 % 8192

/-- The line at a bank and row: the inverse of the hash. -/
def lineAt (bank row : Nat) : Nat :=
  64 * row + Nat.xor (Nat.xor bank (row % 64)) (Nat.xor (row / 64 % 64) (row / 4096 % 2 * 32))

/-- The code word at a bank, a row and a half of the line. -/
def codeWordAt (bank row : Nat) (half : Bool) : Nat := 2 * lineAt bank row + half.toNat

/-! ### Steering (R20) -/

/-- The physical row, column, bank or slice that carries logical number `k` where those of a list are out of use: the
working ones in ascending order (log 196). -/
def steered (out : List Nat) (total k : Nat) : Option Nat := ((List.range total).filter (fun p => !out.contains p))[k]?

/-- The logical number a physical one carries. -/
def carried (out : List Nat) (total used p : Nat) : Option Nat :=
  (List.range used).find? (fun k => steered out total k == some p)

/-! ### The codes (R155–R157) -/

/-- How the check field of a code word differs from what was written: data in [255:0], check bits in [287:256], the three
copies of the tag in [290:288] and of the poison bit in [293:291]. -/
abbrev Flips := BitVec 294

/-- The bits a width-`n` field of a pattern differs in. -/
def weight (n x : Nat) : Nat := ((List.range n).filter (fun i => x / 2 ^ i % 2 = 1)).length

/-- Do at least two of three copies differ. -/
def majority (f : Flips) (lo : Nat) : Bool := decide (2 ≤ weight 3 (fld f lo 3))

/-- What decoding a code word comes to: nothing wrong, corrected (the delivered data differing from what was written by
`res`, zero where the correction is right), wrong and unnoticed, or reported uncorrectable. -/
inductive Decoded where
  | clean | corrected (res : BitVec 256) | silent (res : BitVec 256) | uncorrectable
  deriving DecidableEq, Repr

/-- A pattern beyond what a code is sure of: which of its answers it gets is not specified (R156, R157). -/
def beyondCode (durable silent : Bool) (f : Flips) : Decoded :=
  if Config.eccReports durable f then .uncorrectable
  else if silent && Config.eccSilent f then .silent (f.extractLsb' 0 256)
  else .corrected (Config.eccResidue durable f)

/-- The durable code: symbols of 8 bits, two corrected, three and four reported. -/
def decodeDurable (f : Flips) : Decoded :=
  match ((List.range 36).filter (fun i => fld f (8 * i) 8 ≠ 0)).length with
  | 0 => .clean
  | 1 | 2 => .corrected 0
  | 3 | 4 => .uncorrectable
  | _ => beyondCode true false f

/-- The transient code: 256 data bits and the 10 check bits it uses, one corrected, two detected; patterns of even weight may
go undetected. -/
def decodeTransient (f : Flips) : Decoded :=
  match weight 266 (fld f 0 266) with
  | 0 => .clean
  | 1 => .corrected 0
  | 2 => .uncorrectable
  | n => beyondCode false (n % 2 == 0) f

/-- A read decodes under the stored tag as its copies' majority gives it; under the other code's tag nothing is sure. -/
def decodeWord (durable : Bool) (f : Flips) : Decoded :=
  if majority f 288 then beyondCode (!durable) true f else if durable then decodeDurable f else decodeTransient f

end Sys2Proof.Machine
end

