-- ==== Sys2Proof/Machine/Num.lean ====
section
/-! DEFINITION. Number formats and exact arithmetic: decoding every element format of R34 and R99, rounding
to nearest even and stochastically (R47, R49), FP32 arithmetic (R72), the adder-tree group of R40 and R41,
and the reference values the bounds of R73 are taken from. -/

namespace Sys2Proof.Machine

/-- A value of a floating format: a NaN, a signed infinity, or (-1)^neg · m · 2^e exactly. -/
inductive Fp where
  | nan
  | inf (neg : Bool)
  | fin (neg : Bool) (m : Nat) (e : Int)
  deriving DecidableEq, Repr

/-- A floating layout (R34): exponent and mantissa bits, bias, whether the top exponent holds infinity and
NaN as in IEEE 754, and the code of the largest finite value. -/
structure Layout where
  eb : Nat
  mb : Nat
  bias : Nat
  ieee : Bool
  maxCode : Nat
  nanCode : Nat
  deriving DecidableEq, Repr

/-- FP32, binary32. -/
def lFp32 : Layout := ⟨8, 23, 127, true, 0x7F7FFFFF, 0x7FC00000⟩
/-- BF16 (R34, R47). -/
def lBf16 : Layout := ⟨8, 7, 127, true, 0x7F7F, 0x7FC0⟩
/-- FP16 (R34, R47). -/
def lFp16 : Layout := ⟨5, 10, 15, true, 0x7BFF, 0x7E00⟩
/-- FP8-E4M3 (R34): no infinity; S.1111.111 is NaN. -/
def lE4m3 : Layout := ⟨4, 3, 7, false, 0x7E, 0x7F⟩
/-- FP8-E5M2 (R34, R47: canonical NaN 0x7F). -/
def lE5m2 : Layout := ⟨5, 2, 15, true, 0x7B, 0x7F⟩
/-- MXFP6 element E2M3: neither infinity nor NaN. -/
def lE2m3 : Layout := ⟨2, 3, 1, false, 0x1F, 0⟩
/-- MXFP6 element E3M2. -/
def lE3m2 : Layout := ⟨3, 2, 3, false, 0x1F, 0⟩
/-- MXFP4 element E2M1. -/
def lE2m1 : Layout := ⟨2, 1, 1, false, 0x7, 0⟩

/-- The layout of a floating FMT code (R99). -/
def layoutOf : Nat → Layout
  | 0 => lFp32 | 1 => lBf16 | 2 => lFp16 | 3 => lE4m3 | 4 => lE5m2
  | 5 => lE2m3 | 6 => lE3m2 | _ => lE2m1

/-- Is the layout a microscaled element format. -/
def isMx (fmt : Nat) : Bool := fmt == 5 || fmt == 6 || fmt == 7
/-- Is the format an integer or index format. -/
def isInt (fmt : Nat) : Bool := fmt == 8 || fmt == 9 || fmt == 10

/-- Decode an element code of a floating layout to its exact value (R34). -/
def Layout.decode (l : Layout) (code : Nat) : Fp :=
  let mant := code % 2 ^ l.mb
  let ex := code / 2 ^ l.mb % 2 ^ l.eb
  let neg := code / 2 ^ (l.mb + l.eb) % 2 == 1
  if l.ieee && ex == 2 ^ l.eb - 1 then (if mant == 0 then .inf neg else .nan)
  else if l == lE4m3 && code % 128 == 127 then .nan
  else if ex == 0 then .fin neg mant (1 - (l.bias : Int) - l.mb)
  else .fin neg (2 ^ l.mb + mant) ((ex : Int) - l.bias - l.mb)

/-- Two's complement of an integer code of `w` bits. -/
def signedOf (w code : Nat) : Int :=
  let c := code % 2 ^ w
  if c ≥ 2 ^ (w - 1) then (c : Int) - 2 ^ w else c

/-- An integer as an exact value. -/
def Fp.ofInt (i : Int) : Fp := .fin (i < 0) i.natAbs 0

/-- The exact value of an element code of any FMT. IDX32 is unsigned (R99). -/
def decodeFmt (fmt code : Nat) : Fp :=
  if fmt = 8 then Fp.ofInt (signedOf 8 code)
  else if fmt = 9 then Fp.ofInt (signedOf 32 code)
  else if fmt = 10 then .fin false (code % 2 ^ 32) 0
  else (layoutOf fmt).decode code

/-- An exact value as a signed multiple of 2^e for an `e` at or below its own. -/
def scaledTo (neg : Bool) (m : Nat) (e e' : Int) : Int :=
  let k := m * 2 ^ (e - e').toNat
  if neg then -(k : Int) else k

/-- A signed multiple of 2^e as an exact value; an exact zero is +0. -/
def Fp.ofScaled (v : Int) (e : Int) : Fp := .fin (v < 0) v.natAbs e

/-- How a magnitude is rounded: to nearest even, or up when the 16 bits below the last kept one plus `r`
reach 2^16 (R49). -/
inductive Round where
  | rne
  | stoch (r : Nat)
  deriving DecidableEq, Repr

/-- Round the magnitude m·2^e (with a sticky remainder below it) to a multiple of 2^q. -/
def roundMag (mode : Round) (m : Nat) (e q : Int) (sticky : Bool) : Nat :=
  if e ≥ q then m * 2 ^ (e - q).toNat
  else
    let s := (q - e).toNat
    let k := m / 2 ^ s
    let rem := m % 2 ^ s
    match mode with
    | .rne =>
      let half := 2 ^ (s - 1)
      if rem > half || (rem == half && (sticky || k % 2 == 1)) then k + 1 else k
    | .stoch r =>
      let d := if s ≤ 16 then rem * 2 ^ (16 - s) else rem / 2 ^ (s - 16)
      if d + r ≥ 2 ^ 16 then k + 1 else k

/-- The outcome of an encoding: the code, and whether a finite value was replaced by the largest finite one
(`sat`) or overflowed to infinity or NaN (`ovf`). -/
structure Enc where
  code : Nat
  sat : Bool := false
  ovf : Bool := false
  deriving DecidableEq, Repr

/-- Encode an exact value (with a sticky remainder) in a floating layout under a rounding and the saturate
choice of R47. What counts as beyond the largest finite value is the rounded value (DEDUCED, log 179). -/
def Layout.encode (l : Layout) (mode : Round) (satur : Bool) (x : Fp) (sticky : Bool := false) : Enc :=
  let sgn (neg : Bool) : Nat := if neg then 2 ^ (l.mb + l.eb) else 0
  match x with
  | .nan => { code := l.nanCode }
  | .inf neg => { code := if l.ieee then sgn neg + (2 ^ l.eb - 1) * 2 ^ l.mb else l.nanCode }
  | .fin neg 0 _ => { code := sgn neg }
  | .fin neg m e =>
    let top : Int := (Nat.log2 m : Int) + e
    let emin : Int := 1 - (l.bias : Int)
    let q : Int := max top emin - l.mb
    let k := roundMag mode m e q sticky
    let code := if k < 2 ^ l.mb then k
      else
        let (k, q) := if k ≥ 2 ^ (l.mb + 1) then (k / 2, q + 1) else (k, q)
        ((q + l.mb + l.bias).toNat) * 2 ^ l.mb + (k - 2 ^ l.mb)
    if code > l.maxCode then
      if satur then { code := sgn neg + l.maxCode, sat := true }
      else if l.ieee then { code := sgn neg + (2 ^ l.eb - 1) * 2 ^ l.mb, ovf := true }
      else { code := l.nanCode, ovf := true }
    else { code := sgn neg + code }

/-- Round an integer to the range of `w` bits two's complement; `true` when it saturated (R39, R72). -/
def satInt (w : Nat) (i : Int) : Int × Bool :=
  if i ≥ 2 ^ (w - 1) then (2 ^ (w - 1) - 1, true)
  else if i < -(2 ^ (w - 1)) then (-(2 ^ (w - 1)), true)
  else (i, false)

/-- The `w`-bit code of an integer. -/
def intCode (w : Nat) (i : Int) : Nat := (i % 2 ^ w).toNat

/-- Round an exact value to the nearest integer, ties to even (R72). -/
def Fp.toNearest (neg : Bool) (m : Nat) (e : Int) : Int :=
  let k := roundMag .rne m e 0 false
  if neg then -(k : Int) else k

/-- Convert an exact value to any FMT (R47, R72): floating outputs under the saturate choice, integers to
nearest even with saturation, a NaN to 0. -/
def encodeFmt (fmt : Nat) (mode : Round) (satur : Bool) (x : Fp) : Enc :=
  if fmt = 8 ∨ fmt = 9 then
    let w := if fmt = 8 then 8 else 32
    match x with
    | .nan => { code := 0, sat := true }
    | .inf neg => { code := intCode w (if neg then -(2 ^ (w - 1)) else 2 ^ (w - 1) - 1), sat := true }
    | .fin neg m e =>
      let (i, s) := satInt w (Fp.toNearest neg m e)
      { code := intCode w i, sat := s }
  else (layoutOf fmt).encode mode satur x

/-! ### FP32 arithmetic -/

/-- The exact value of an FP32 word. -/
def fp (w : Word) : Fp := lFp32.decode w.toNat

/-- Round an exact value to FP32, to nearest even, overflowing to infinity. -/
def toFp32 (x : Fp) (sticky : Bool := false) : Word := BitVec.ofNat 32 (lFp32.encode .rne false x sticky).code

/-- The exact sum of two values, with IEEE 754's signs of zero. -/
def Fp.add : Fp → Fp → Fp
  | .nan, _ => .nan
  | _, .nan => .nan
  | .inf a, .inf b => if a == b then .inf a else .nan
  | .inf a, .fin _ _ _ => .inf a
  | .fin _ _ _, .inf b => .inf b
  | .fin n m e, .fin n' m' e' =>
    let q := min e e'
    let v := scaledTo n m e q + scaledTo n' m' e' q
    if v = 0 then .fin (n && n' && m == 0 && m' == 0) 0 q else Fp.ofScaled v q

/-- The exact product. -/
def Fp.mul : Fp → Fp → Fp
  | .nan, _ => .nan
  | _, .nan => .nan
  | .inf a, .inf b => .inf (a != b)
  | .inf a, .fin n m _ => if m = 0 then .nan else .inf (a != n)
  | .fin n m _, .inf b => if m = 0 then .nan else .inf (n != b)
  | .fin n m e, .fin n' m' e' => .fin (n != n') (m * m') (e + e')

/-- Change the sign. -/
def Fp.neg : Fp → Fp
  | .nan => .nan
  | .inf a => .inf (!a)
  | .fin n m e => .fin (!n) m e

/-- The magnitude. -/
def Fp.abs : Fp → Fp
  | .nan => .nan
  | .inf _ => .inf false
  | .fin _ m e => .fin false m e

/-- Times a power of two, exactly. -/
def Fp.shift (k : Int) : Fp → Fp
  | .fin n m e => .fin n m (e + k)
  | x => x

/-- Is it a zero. -/
def Fp.isZero : Fp → Bool
  | .fin _ 0 _ => true
  | _ => false

/-- Is it finite. -/
def Fp.isFin : Fp → Bool
  | .fin _ _ _ => true
  | _ => false

/-- Is it a NaN. -/
def Fp.isNan : Fp → Bool
  | .nan => true
  | _ => false

/-- Compare two numbers: `some (a < b)`-style ordering, none when either is a NaN. Zeros compare equal. -/
def Fp.cmp : Fp → Fp → Option Ordering
  | .nan, _ => none
  | _, .nan => none
  | .inf a, .inf b => some (if a == b then .eq else if a then .lt else .gt)
  | .inf a, .fin _ _ _ => some (if a then .lt else .gt)
  | .fin _ _ _, .inf b => some (if b then .gt else .lt)
  | .fin n m e, .fin n' m' e' =>
    let q := min e e'
    some (compare (scaledTo n m e q) (scaledTo n' m' e' q))

/-- a < b on numbers. -/
def Fp.lt (a b : Fp) : Bool := Fp.cmp a b == some .lt

/-- FP32 addition, rounded once (R72). -/
def fadd (a b : Word) : Word := toFp32 (Fp.add (fp a) (fp b))
/-- FP32 multiplication (R72). -/
def fmul (a b : Word) : Word := toFp32 (Fp.mul (fp a) (fp b))
/-- FP32 fused multiply-add, rounded once (R72). -/
def ffma (a b c : Word) : Word := toFp32 (Fp.add (Fp.mul (fp a) (fp b)) (fp c))

/-- +0 in place of any exact zero (R38). -/
def plusZero (w : Word) : Word := if w = 0x80000000 then 0 else w

/-! ### The group sum of R40 and R41 -/

/-- A group sum: the value with its sticky bit, and whether product bits were discarded. -/
structure GroupSum where
  val : Fp
  sticky : Bool := false
  deriving DecidableEq, Repr

/-- The exponent E of a non-zero magnitude: it lies in [2^E, 2^(E+1)). -/
def Fp.exponent? : Fp → Option Int
  | .fin _ 0 _ => none
  | .fin _ m e => some ((Nat.log2 m : Int) + e)
  | _ => none

/-- The larger of two optional exponents. -/
def maxExp : Option Int → Option Int → Option Int
  | none, b => b
  | a, none => a
  | some a, some b => some (max a b)

/-- One product truncated toward zero at 2^q (R41): its signed multiple of 2^q and whether bits went. -/
def truncAt (q : Int) : Fp → Int × Bool
  | .fin n m e =>
    if e ≥ q then (scaledTo n m e q, false)
    else
      let s := (q - e).toNat
      let k := m / 2 ^ s
      (if n then -(k : Int) else k, m % 2 ^ s != 0)
  | _ => (0, false)

/-- The sum of one group of products (R38, R41): NaN and infinity rules, then the 64-bit window anchored at
the largest product. -/
def groupSum (ps : List Fp) : GroupSum :=
  if ps.any Fp.isNan then { val := .nan }
  else if ps.any (· == .inf false) then
    (if ps.any (· == .inf true) then { val := .nan } else { val := .inf false })
  else if ps.any (· == .inf true) then { val := .inf true }
  else
    match ps.foldl (fun a p => maxExp a p.exponent?) none with
    | none => { val := .fin false 0 0 }
    | some top =>
      let q := top - 59
      let ts := ps.map (truncAt q)
      let v := ts.foldl (fun a t => a + t.1) 0
      { val := Fp.ofScaled v q, sticky := ts.any (·.2) }

/-- The group's rounding to FP32 after the block scales (R40, R41): a sticky remainder, smaller than every weight of the
window, lies beyond a non-zero sum away from zero; a zero sum is +0. -/
def GroupSum.round (g : GroupSum) (scale : Int) : Word :=
  match g.val.shift scale with
  | .fin _ 0 _ => 0
  | x => toFp32 x g.sticky

/-! ### References for the transcendentals (R73) -/

/-- Fixed-point fraction bits of the series. -/
def fxP : Nat := 160

/-- ln 2 · 2^128. -/
def ln2c : Nat := 0xb17217f7d1cf79abc9e3b39803f2f6af
/-- π · 2^320. -/
def piC : Nat := 0x3243f6a8885a308d313198a2e03707344a4093822299f31d0082efa98ec4e6c89452821e638d01377

/-- Taylor sum: term(0) = one, term(k+1) = term(k) · x / d(k), n terms. -/
def taylor (one x : Int) (d : Nat → Int) : Nat → Nat → Int → Int
  | 0, _, _ => 0
  | n + 1, k, t => t + taylor one x d n (k + 1) (t * x / one / d k)

/-- e^f · 2^fxP for a fixed-point 0 ≤ f < 1. -/
def expFrac (f : Int) : Int := taylor (2 ^ fxP) f (fun k => (k : Int) + 1) 48 0 (2 ^ fxP)

/-- An exact number as a fixed point of fxP fraction bits, truncated. -/
def toFx (neg : Bool) (m : Nat) (e : Int) : Int :=
  let s := e + fxP
  let k : Nat := if s ≥ 0 then m * 2 ^ s.toNat else m / 2 ^ (-s).toNat
  if neg then -(k : Int) else k

/-- 2^y for a fixed-point y, as an exact number of about fxP bits. -/
def exp2Fx (y : Int) : Fp :=
  let n := y / 2 ^ fxP
  let f := y % 2 ^ fxP
  .fin false (expFrac (f * ln2c / 2 ^ 128)).toNat (n - fxP)

/-- e^x for a fixed-point x. -/
def expFx (x : Int) : Fp := exp2Fx (x * 2 ^ 128 / ln2c)

/-- The quotient of two positive exact numbers to about fxP bits. -/
def Fp.quot (a b : Fp) : Fp :=
  match a, b with
  | .fin _ m e, .fin _ m' e' =>
    let s := fxP + Nat.log2 m' + 1
    .fin false (m * 2 ^ s / m') (e - e' - s)
  | _, _ => .nan

/-- Integer square root by bits: the largest r with r² ≤ n, over `k` bits. -/
def isqrtBits (n : Nat) : Nat → Nat → Nat
  | 0, r => r
  | k + 1, r =>
    let c := r + 2 ^ k
    isqrtBits n k (if c * c ≤ n then c else r)

/-- The square root of an exact non-negative number to `b` bits, with its sticky bit. -/
def sqrtFp (m : Nat) (e : Int) : Fp × Bool :=
  let odd := e % 2
  let m' := (if odd = 1 then m * 2 else m) * 2 ^ 128
  let r := isqrtBits m' (Nat.log2 m' / 2 + 1) 0
  (.fin false r ((e - odd) / 2 - 64), r * r != m')

/-- ln of a positive exact number, in fixed point. -/
def lnFx (m : Nat) (e : Int) : Int :=
  let l := Nat.log2 m
  let one : Int := 2 ^ fxP
  let t : Int := if l ≤ fxP then m * 2 ^ (fxP - l) else m / 2 ^ (l - fxP)
  let z := (t - one) * one / (t + one)
  let z2 := z * z / one
  let rec go : Nat → Nat → Int → Int
    | 0, _, _ => 0
    | n + 1, k, p => p / (2 * k + 1) + go n (k + 1) (p * z2 / one)
  2 * go 56 0 z + ((l : Int) + e) * (ln2c * 2 ^ (fxP - 128))

/-- Reduce an exact magnitude modulo π/2: the quadrant and the remainder in fixed point. -/
def quadrant (m : Nat) (e : Int) : Nat × Int :=
  -- x·2^320 against π/2·2^320
  let half := piC / 2
  let x : Nat := if e + 320 ≥ 0 then m * 2 ^ (e + 320).toNat else m / 2 ^ (-(e + 320)).toNat
  (x / half % 4, ((x % half) / 2 ^ (320 - fxP) : Nat))

/-- sin and cos of a fixed-point angle in [0, π/2]. -/
def sinFx (f : Int) : Int :=
  taylor (2 ^ fxP) (-(f * f / 2 ^ fxP)) (fun k => ((2 * k + 2) * (2 * k + 3) : Nat)) 40 0 f
def cosFx (f : Int) : Int :=
  taylor (2 ^ fxP) (-(f * f / 2 ^ fxP)) (fun k => ((2 * k + 1) * (2 * k + 2) : Nat)) 40 0 (2 ^ fxP)

/-- sin x for an exact x, in fixed point. -/
def sinRef (neg : Bool) (m : Nat) (e : Int) : Int :=
  let (k, f) := quadrant m e
  let v := match k with
    | 0 => sinFx f | 1 => cosFx f | 2 => -sinFx f | _ => -cosFx f
  if neg then -v else v

/-- cos x for an exact x, in fixed point. -/
def cosRef (m : Nat) (e : Int) : Int :=
  let (k, f) := quadrant m e
  match k with
  | 0 => cosFx f | 1 => -sinFx f | 2 => -cosFx f | _ => sinFx f

/-- The FP32 value `n` units in the last place away from a finite one, in the order of the reals. -/
def stepUlps (w : Word) (n : Int) : Word :=
  let v : Int := if w.getMsbD 0 then -((w.toNat % 2 ^ 31 : Nat) : Int) else w.toNat
  let u := v + n
  let m := min u.natAbs 0x7F800000
  BitVec.ofNat 32 (if u < 0 then 2 ^ 31 + m else m)

/-- Clamp a slip to a bound. -/
def clampTo (b : Int) (x : Int) : Int := max (-b) (min b x)

/-- Does a word lie within `b` times 2^`e` of an exact number. -/
def withinOf (b : Nat) (e : Int) (y : Fp) (g : Word) : Bool :=
  match Fp.cmp (Fp.add (fp g) y.neg).abs (.fin false b e) with
  | some .gt => false
  | none => false
  | _ => true

/-- The exponent of an exact number's unit in the last place in FP32. -/
def ulpExp (y : Fp) : Int :=
  match y.exponent? with
  | some t => max t (-126) - 23
  | none => -149

/-- The FP32 result for an exact one: its rounding moved by the part's own error, where that stays within `b` units in the
last place of the exact result (R73). -/
def slipped (op : Nat) (b : Nat) (x : Word) (y : Fp) (sticky : Bool := false) : Word :=
  let ref := toFp32 y sticky
  let g := stepUlps ref (clampTo b (Config.ulpSlip op x))
  if withinOf b (ulpExp y) y g then g else ref

/-- The canonical form of a word: a NaN becomes the canonical NaN (R72). -/
def canonNan (w : Word) : Word := if (fp w).isNan then 0x7FC00000 else w

/-- The operation numbers the free values of R73 are keyed by. -/
def opExp : Nat := 0
def opExp2 : Nat := 1
def opLn : Nat := 2
def opLog2 : Nat := 3
def opRecip : Nat := 4
def opRsqrt : Nat := 5
def opTanh : Nat := 6
def opSigm : Nat := 7
def opSin : Nat := 8
def opCos : Nat := 9
def opSqrt : Nat := 10

/-! Zeros, infinities and operands outside a function's domain give what IEEE 754 gives them (R72, DEDUCED, log 5). -/

/-- An infinity. -/
def infWord (n : Bool) : Word := if n then 0xFF800000 else 0x7F800000
/-- A zero. -/
def zeroWord (n : Bool) : Word := if n then 0x80000000 else 0
/-- One, with a sign. -/
def oneWord (n : Bool) : Word := if n then 0xBF800000 else 0x3F800000

/-- Is a value too large for the series, so that the result under- or overflows. -/
def expTop : Int := 200 * 2 ^ fxP

/-- e^x or 2^x (R73, within 2 units in the last place). -/
def expRef (base2 : Bool) (x : Word) : Word :=
  let op := if base2 then opExp2 else opExp
  match fp x with
  | .nan => 0x7FC00000
  | .inf n => if n then 0 else infWord false
  | .fin n m e =>
    let big : Bool := m ≠ 0 && (Nat.log2 m : Int) + e ≥ 10
    if big then (if n then slipped op 2 x (.fin false 1 (-300)) else 0x7F800000)
    else
      let y := toFx n m e
      slipped op 2 x (if base2 then exp2Fx y else expFx y) (m != 0)

/-- ln x or log₂ x (R73, within 2). -/
def logRef (base2 : Bool) (x : Word) : Word :=
  let op := if base2 then opLog2 else opLn
  match fp x with
  | .nan => 0x7FC00000
  | .inf n => if n then 0x7FC00000 else infWord false
  | .fin n m e =>
    if m = 0 then infWord true
    else if n then 0x7FC00000
    else
      let v := lnFx m e
      let v := if base2 then v * 2 ^ 128 / ln2c else v
      slipped op 2 x (Fp.ofScaled v (-fxP))

/-- 1 ÷ x (R73, within 1). -/
def recipRef (x : Word) : Word :=
  match fp x with
  | .nan => 0x7FC00000
  | .inf n => zeroWord n
  | .fin n m e =>
    if m = 0 then infWord n
    else
      match Fp.quot (.fin false 1 0) (.fin false m e) with
      | .fin _ k j => slipped opRecip 1 x (.fin n k j) true
      | y => toFp32 y

/-- 1 ÷ √x (R73, within 1). -/
def rsqrtRef (x : Word) : Word :=
  match fp x with
  | .nan => 0x7FC00000
  | .inf n => if n then 0x7FC00000 else 0
  | .fin n m e =>
    if m = 0 then infWord n
    else if n then 0x7FC00000
    else slipped opRsqrt 1 x (Fp.quot (.fin false 1 0) (sqrtFp m e).1) true

/-- √x, correctly rounded (R73); a negative operand is IEEE 754's invalid operation, a NaN. -/
def sqrtRef (x : Word) : Word :=
  match fp x with
  | .nan => 0x7FC00000
  | .inf n => if n then 0x7FC00000 else 0x7F800000
  | .fin n m e =>
    if m = 0 then x
    else if n then 0x7FC00000
    else let (r, st) := sqrtFp m e; toFp32 r st

/-- tanh x (R73, within 4). -/
def tanhRef (x : Word) : Word :=
  match fp x with
  | .nan => 0x7FC00000
  | .inf n => oneWord n
  | .fin n m e =>
    if m = 0 then x
    else
      let top := (Nat.log2 m : Int) + e
      let sgn (r : Fp) : Fp := if n then r.neg else r
      if top ≥ 5 then slipped opTanh 4 x (sgn (.fin false 1 0))
      else if top < -14 then
        -- x − x³/3, the next term being beyond any bit that matters
        let third := Fp.quot (.fin false (m * m * m) (3 * e)) (.fin false 3 0)
        slipped opTanh 4 x (sgn (Fp.add (.fin false m e) third.neg))
      else
        let ex := exp2Fx (2 * toFx false m e * 2 ^ 128 / ln2c)
        let one : Fp := .fin false 1 0
        slipped opTanh 4 x (sgn (Fp.quot (Fp.add ex one.neg) (Fp.add ex one)))

/-- 1 ÷ (1 + e^−x) (R73, within 4). -/
def sigmRef (x : Word) : Word :=
  match fp x with
  | .nan => 0x7FC00000
  | .inf n => if n then 0 else oneWord false
  | .fin n m e =>
    let one : Fp := .fin false 1 0
    if m ≠ 0 ∧ (Nat.log2 m : Int) + e ≥ 8 then
      slipped opSigm 4 x (.fin false 1 (if n then -300 else 0))
    else
      let ex := expFx (toFx false m e)
      slipped opSigm 4 x (if n then Fp.quot one (Fp.add one ex) else Fp.quot ex (Fp.add one ex))

/-- sin x or cos x (R73): within 2 units in the last place up to |x| = 65,536, beyond it within 2⁻¹⁶. -/
def sincosRef (cosine : Bool) (x : Word) : Word :=
  let op := if cosine then opCos else opSin
  match fp x with
  | .nan => 0x7FC00000
  | .inf _ => 0x7FC00000
  | .fin n m e =>
    let v := if cosine then cosRef m e else sinRef n m e
    if Fp.lt (.fin false 65536 0) (.fin false m e) then
      let g := toFp32 (Fp.ofScaled (v + clampTo 256 (Config.ulpSlip op x) * 2 ^ (fxP - 24)) (-fxP))
      if withinOf 1 (-16) (Fp.ofScaled v (-fxP)) g then g else toFp32 (Fp.ofScaled v (-fxP))
    else if m = 0 ∧ !cosine then x
    else slipped op 2 x (Fp.ofScaled v (-fxP)) (m != 0)

end Sys2Proof.Machine
end

