-- ==== Sys2Proof/Syntax.lean ====
section
/-! DEFINITION. The commands of the block: one constructor of `Instr` per row of spec/opcode_table.json, in
the table's order, with the operands of each command. An operand carries what the spec leaves to the world
outside the part (a packet's fields, a sensor's reading, whether a training succeeded, the time of a timed
event) or to a choice it gives to firmware; everything else a command needs is read from the state. -/

namespace Sys2Proof

/-- The ten engines of a core that run streams, in the order of the engine codes of R101. -/
inductive Eng where
  | f | g0 | g1 | v | q | d0 | d1 | d2 | d3 | s
  deriving DecidableEq, Repr

/-- The engine code of R101. -/
def Eng.code : Eng → Nat
  | .f => 0 | .g0 => 1 | .g1 => 2 | .v => 3 | .q => 4
  | .d0 => 5 | .d1 => 6 | .d2 => 7 | .d3 => 8 | .s => 9

/-- The array engines (R18). -/
inductive Arr where
  | f | g0 | g1
  deriving DecidableEq, Repr

/-- An array engine as an engine. -/
def Arr.eng : Arr → Eng
  | .f => .f | .g0 => .g0 | .g1 => .g1

/-- What keeps an array from issuing a pass in an array cycle, beyond what the state shows: its stationary tile is still
loading (R30), a Damper bubble falls in it (R326), or the notice of its start is younger than 256 array cycles (R325). -/
inductive PassHold where
  | issue | loading | bubble | notice
  deriving DecidableEq, Repr

/-- The DMA engines (R18). -/
inductive Dma where
  | d0 | d1 | d2 | d3
  deriving DecidableEq, Repr

/-- A DMA engine as an engine. -/
def Dma.eng : Dma → Eng
  | .d0 => .d0 | .d1 => .d1 | .d2 => .d2 | .d3 => .d3

/-- Where a parity error is found (R254). -/
inductive ParityPlace where
  | core (lc : Fin 64) (e : Eng)
  | dmaRead (lc : Fin 64) (d : Dma)
  | crossbar
  | transport (port : Fin 96) (frame : Nat)
  deriving DecidableEq, Repr

/-- The port of the crossbar a request comes from (R174). -/
inductive XPort where
  | core (lc : Fin 64) | te (n : Fin 8) | cxl | mgmt
  deriving DecidableEq, Repr

/-- Which group a tagged access belongs to: a core's own group, or a remote-group handle (R183, R275). -/
inductive GrpKey where
  | loc (lc : Fin 64) (g : BitVec 12)
  | rem (flow : BitVec 20) (core : Fin 64) (g : BitVec 12)
  deriving DecidableEq, Repr

/-- An upset in a scratchpad code word: the physical bank, the row in it and the half of the line it strikes, and the bits of
the stored check field it changes, in `Flips`' places (R147, R155). -/
structure BankHit where
  bank : Fin 66
  row : Fin 6144
  half : Bool
  flips : BitVec 294
  deriving DecidableEq, Repr

/-- What the array or channel finds in stored data it reads: how many bits or symbols are in error, as the
codes of R156, R157, R182 and R187 class them. `miscorrected` carries the wrong contents delivered. -/
inductive Upset where
  | clean | correctable | uncorrectable
  | miscorrected (bytes : List Byte)
  deriving DecidableEq, Repr

/-- The base header fields of an arriving packet that its receiver reads (R226), with the port it came in
on, the CE mark of its IP header (R208) and the node address it came from. -/
structure PktHdr where
  port : Fin 96
  flow : BitVec 20
  psn : BitVec 32
  poison : Bool
  prov : Bool
  last : Bool
  srcCore : BitVec 6
  txTs : BitVec 32
  ce : Bool
  deriving DecidableEq, Repr

/-- The operation header of WRITE_WIN (R228). -/
structure WinHdr where
  core : BitVec 6
  window : BitVec 12
  gen : BitVec 16
  woff : BitVec 23
  fmt : BitVec 4
  rowsM1 : BitVec 18
  colsM1 : BitVec 16
  tmseq : BitVec 24
  grp : BitVec 12
  gv : Bool
  xferLen : BitVec 32
  deriving DecidableEq, Repr

/-- The operation header of WRITE_DRAM and ADD_DRAM (R228). -/
structure DramHdr where
  addr : BitVec 40
  runFmt : BitVec 4
  tmseq : BitVec 24
  grp : BitVec 12
  gv : Bool
  xferLen : BitVec 32
  deriving DecidableEq, Repr

/-- The operation header of ACK (R228). -/
structure AckHdr where
  cumPsn : BitVec 32
  sack : BitVec 64
  echoTs : BitVec 32
  ece : Bool
  nakCode : BitVec 8
  nakPsn : BitVec 32
  deriving DecidableEq, Repr

/-- The payload of SETUP and SETUP_ACK (R228). -/
structure SetupBody where
  node : BitVec 18
  tag : BitVec 32
  senderFlow : BitVec 20
  receiverFlow : BitVec 20
  status : BitVec 8
  boot : BitVec 32
  time : BitVec 64
  deriving DecidableEq, Repr

/-- What a received frame carries, as the acceptance rule R205 reads it. -/
inductive FrameBody where
  | arp
  | nd
  | icmp (csumOk : Bool)
  | ptp
  | oft (v6 : Bool) (dst : BitVec 128) (ver : BitVec 4) (type : BitVec 4) (udpZero : Bool) (csumOk : Bool) (flow : BitVec 20)
      (psn : BitVec 32)
  | udpPtp (v6 : Bool) (udpZero : Bool) (csumOk : Bool)
  | fragment
  | other
  deriving DecidableEq, Repr

/-- A received frame: FCS verdict, length from destination address to FCS, IEEE 802.1Q tags outermost first
as (PCP, VID), destination address, and what it carries. -/
structure Frame where
  fcsOk : Bool
  len : Nat
  tags : List (BitVec 3 × BitVec 12)
  dst : BitVec 48
  body : FrameBody
  deriving DecidableEq, Repr

/-- The PTP event messages (R219) and the general ones MC3 takes. -/
inductive PtpMsg where
  | sync | delayReq | pdelayReq | pdelayResp | general
  deriving DecidableEq, Repr

/-- A PTP message as MC3 receives it (R219, R220, R250): its transport as XPORT numbers it, its domain, what it is, its
sequence number, what an Announce says of its master in the order the best master clock algorithm compares it, and what
the servo finds the offset from master to be, in ns. -/
structure PtpRx where
  xport : Fin 3
  domain : Byte
  m : PtpMsg
  seqId : BitVec 16
  master : Option (List Byte)
  offset : Int
  deriving DecidableEq, Repr

/-- How the host or the link answers an aperture request (R297, R298). -/
inductive AptResult where
  | data (bytes : List Byte) (poison : Bool)
  | go
  | error
  deriving DecidableEq, Repr

/-- The result of an image, bundle or training action the outside decides. -/
inductive FwResult where
  | ok | format | signature | part | flash
  deriving DecidableEq, Repr

/-- A CXL.mem request of the host (R293). -/
inductive HostMem where
  | read
  | write (mask : BitVec 64) (bytes : List Byte) (poison : Bool)
  deriving DecidableEq, Repr

/-- What a start meets in flash and in its tests (R357–R371): which images verify, the version, digest and MINOR_MAX
of the image that runs where no update has recorded them, which flashes answer, the per-part region, the tests of
stages 2 and 3 with the FAIL_CODE of R367, the digest of the DRAM copy, the spare lanes chosen per stack, the
channels whose restored settings fail their read-back (R371), and the optical positions that pass, per engine. -/
structure Boot where
  imgA : Bool
  imgB : Bool
  version : Word
  digest : List Byte
  minorMax : Byte
  flash0 : Bool
  flash1 : Bool
  partOk : Bool
  testsOk : Bool
  fail : BitVec 8
  digestOk : Bool
  lanes : List (BitVec 8)
  unread : List (Fin 128)
  good : List (BitVec 13)
  deriving DecidableEq, Repr

/-- What Geyser and the core self-tests find at stage 5 (R367, R368, R370): the physical cores that fail, the failing
physical rows and columns by core and array, the failing physical banks by core, and whether the start fails for
them (R367, code 0x07). -/
structure Stage5 where
  failed : List (Fin 72)
  rows : List (Fin 72 × Arr × Fin 130)
  cols : List (Fin 72 × Arr × Fin 516)
  banks : List (Fin 72 × Fin 66)
  beyond : Bool
  deriving DecidableEq, Repr

/-- The commands (R1–R435; the table's 229 rows in order). -/
inductive Instr where
  -- Cupoim commands, run from the front of an engine's command queue
  | nop (lc : Fin 64) (e : Eng)
  | stop (lc : Fin 64) (e : Eng)
  | loop (lc : Fin 64) (e : Eng)
  | endloop (lc : Fin 64) (e : Eng)
  | codeSwap (lc : Fin 64) (e : Eng)
  | waitQ (lc : Fin 64) (e : Eng)
  | waitGrp (lc : Fin 64) (e : Eng)
  | waitBar (lc : Fin 64) (e : Eng)
  | waitWin (lc : Fin 64) (e : Eng)
  | barArrive (lc : Fin 64)
  | qCfg (lc : Fin 64)
  | qPush (lc : Fin 64)
  | grpOpen (lc : Fin 64) (e : Eng)
  | grpCommit (lc : Fin 64)
  | grpAbort (lc : Fin 64)
  | winOpen (lc : Fin 64)
  | winClose (lc : Fin 64)
  | mm (lc : Fin 64) (a : Arr)
  | mmWin3d (lc : Fin 64) (a : Arr)
  | mmTongs (lc : Fin 64)
  | tongsPairStart (lc : Fin 64)
  | gatherTile (lc : Fin 64) (a : Arr)
  | vxAdd (lc : Fin 64)
  | vxMul (lc : Fin 64)
  | vxFma (lc : Fin 64)
  | vxMax (lc : Fin 64)
  | vxMin (lc : Fin 64)
  | vxSel (lc : Fin 64)
  | vxCvt (lc : Fin 64)
  | vxExp (lc : Fin 64)
  | vxLog (lc : Fin 64)
  | vxRecip (lc : Fin 64)
  | vxRsqrt (lc : Fin 64)
  | vxSqrt (lc : Fin 64)
  | vxTanh (lc : Fin 64)
  | vxSigm (lc : Fin 64)
  | vxSincos (lc : Fin 64)
  | vxRsum (lc : Fin 64)
  | vxRmax (lc : Fin 64)
  | vxScan (lc : Fin 64)
  | vxQuant (lc : Fin 64)
  | vxSmx (lc : Fin 64)
  | redMax (lc : Fin 64)
  | redMin (lc : Fin 64)
  | redTopk (lc : Fin 64)
  | redHist (lc : Fin 64)
  | chainAdd (lc : Fin 64) (agree : Bool)
  | dmaCopy (lc : Fin 64) (d : Dma)
  -- inside a core
  | commandFetch (lc : Fin 64) (e : Eng) (hit : Option BankHit)
  | arraySwap (lc : Fin 64) (a : Arr) (hold : PassHold) (flip : Option (Nat × Nat × Fin 32))
  | tileDrainStart (lc : Fin 64)
  | tileDrainEnd (lc : Fin 64) (agree : Bool)
  | sequencerMismatch (lc : Fin 64) (e : Eng) (recoverable : Bool)
  | parityError (p : ParityPlace)
  | taskStop (lc : Fin 64) (t : Nat)
  | implicitWaitTimeout (lc : Fin 64) (e : Eng) (t : Nat)
  | explicitWaitTimeout (lc : Fin 64) (e : Eng) (t : Nat)
  | winOpenQuiet (lc : Fin 64) (t : Nat)
  | chainConfirm (lc : Fin 64)
  | slicePrepare (sl : Fin 128) (k : GrpKey)
  | groupCommitPoint (k : GrpKey)
  | sliceCommit (sl : Fin 128) (k : GrpKey)
  | eccWriteback (lc : Fin 64) (cw : Fin 786432)
  | sectionPowerEntry (lc : Fin 64) (sec : Fin 6)
  | sectionWake (lc : Fin 64) (sec : Fin 6)
  | sectionWakeDone (lc : Fin 64) (sec : Fin 6)
  | windowWrite (lc : Fin 64) (node : BitVec 18) (src : BitVec 6) (w : WinHdr) (poison : Bool)
      (data : List Byte)
  -- crossbar, cache and stacks
  | xbarRead (p : XPort) (addr : BitVec 40) (mask : BitVec 256) (k : Option GrpKey) (u : Upset)
  | xbarWrite (p : XPort) (addr : BitVec 40) (mask : BitVec 256) (data : List Byte) (poison : Bool)
      (k : Option GrpKey)
  | sliceMissFill (sl : Fin 128) (u : Upset)
  | parkCopyHome (sl : Fin 128)
  | stackRead (unit : BitVec 40) (u : Upset)
  | stackWrite (unit : BitVec 40) (mask : BitVec 64) (data : List Byte) (poison : Bool) (u : Upset)
  | inPlaceAdd (unit : BitVec 40) (bf16 : Bool) (data : List Byte) (poison : Bool) (u : Upset)
  | stackRefresh (st : Fin 16) (ch : Fin 8) (pc : Fin 2) (bank : Fin 48)
  | patrolScrub (st : Fin 16) (u : Upset)
  | targetedScrub (st : Fin 16) (t : Nat)
  | bisnpResponse (sl : Fin 128) (dirty : Option (List Byte × Bool))
  | hostMemRequest (unit : BitVec 40) (r : HostMem) (caches : Bool)
  | hostSnoop (addr : BitVec 64)
  | apertureCompletion (r : AptResult)
  -- ports
  | frameReceive (p : Fin 96) (fr : Frame)
  | arpRequest (p : Fin 96) (target : BitVec 32) (sender : BitVec 32) (mac : BitVec 48)
  | neighbourSolicitation (p : Fin 96) (target : BitVec 128) (sender : BitVec 128) (mac : BitVec 48)
  | icmpEchoRequest (p : Fin 96) (v6 : Bool) (dst : BitVec 128) (sender : BitVec 128) (mac : BitVec 48) (rest : List Byte)
  | pfcFrameRx (p : Fin 96) (quanta : List (BitVec 16)) (enable : BitVec 8)
  | pauseQuantaExpiry (p : Fin 96) (cls : Fin 8) (t : Nat)
  | lldpTimer (p : Fin 96) (t : Nat)
  | portUp (p : Fin 96)
  | trainingRetry (p : Fin 96) (light : Bool) (t : Nat)
  | lossOfSignal (p : Fin 96) (lanes : BitVec 4)
  | faultReceived (p : Fin 96) (remote : Bool)
  | portRetrain (p : Fin 96) (ok : Bool)
  | hiSerTimer (p : Fin 96) (corrected received : Nat) (corr uncorr : Nat) (t : Nat)
  | laserEol (p : Fin 96) (lane : Fin 4)
  | oeOvertemp (n : Fin 8) (k : Fin 2) (temp : BitVec 11)
  | opticsRailFail (n : Fin 8)
  -- fabric packets
  | writeWin (h : PktHdr) (w : WinHdr) (data : List Byte)
  | writeDram (h : PktHdr) (d : DramHdr) (data : List Byte)
  | addDram (h : PktHdr) (d : DramHdr) (data : List Byte)
  | readReq (h : PktHdr) (addr : BitVec 40) (reqId : BitVec 16) (rlen : BitVec 32)
  | readResp (h : PktHdr) (reqId : BitVec 16) (roff : BitVec 32) (err : Bool) (data : List Byte)
  | ack (h : PktHdr) (a : AckHdr)
  | credit (h : PktHdr) (core : BitVec 6) (window : BitVec 12) (gen : BitVec 16) (req : Bool)
      (granted : BitVec 32)
  | touch (h : PktHdr) (tmseq : BitVec 24)
  | strike (h : PktHdr) (tmseq : BitVec 24)
  | group (h : PktHdr) (core : BitVec 6) (g : BitVec 12) (abort : Bool)
  | barrier (h : PktHdr) (coll : BitVec 20) (release : Bool) (epoch : BitVec 32)
  | setup (h : PktHdr) (b : SetupBody)
  | setupAck (h : PktHdr) (b : SetupBody)
  | teardown (h : PktHdr)
  | contextFetchDone (flow : BitVec 20)
  | ackTimer (flow : BitVec 20) (t : Nat)
  | reorderTimeout (flow : BitVec 20) (psn : BitVec 32) (t : Nat)
  | rtoExpiry (flow : BitVec 20) (t : Nat)
  | retxLimit (flow : BitVec 20) (t : Nat)
  | setupRetry (flow : BitVec 20) (t : Nat)
  | closingTimeout (flow : BitVec 20) (t : Nat)
  | mc3Restart (done : Bool)
  | ptpMessageRx (p : Fin 96) (x : PtpRx) (t : Nat)
  | ptpEventTx (p : Fin 96) (m : PtpMsg) (seqId : BitVec 16) (body : List Byte)
  | ptpSyncLoss (t : Nat)
  -- host attachment
  | cxlPerstAssert
  | cxlPerstRelease
  | hotReset
  | functionLevelReset
  | cxlLinkDown
  | cxlLinkUp (rateMax : Fin 4) (x8 : Bool) (flit256 : Bool) (cxl : Bool)
  | mbxScan (t : Nat)
  | fwInfo (p : Fin 16)
  | heartbeat (t : Nat)
  | hostReturn
  | licenceInstall
  | attestRequest (p : Fin 16) (t : Nat)
  | attestSign (treeReady : Bool)
  | configStage
  | configApply
  | applyAdopt
  | queueCreate (p : Fin 16) (num : Fin 64)
  | queueDestroy (p : Fin 16)
  | contextLoad (p : Fin 16) (idx : Fin 4096) (place : List (Fin 64 × Nat))
  | contextUnload (p : Fin 16)
  | jobSubmit (p : Fin 16)
  | jobCancel (p : Fin 16)
  | jobStart (qn : Fin 64) (t : Nat)
  | preemptSaveDone (lc : Fin 64)
  | jobComplete (idx : Fin 4096) (t : Nat)
  | coreHandover (lc : Fin 64)
  | hostTimeout (t : Nat)
  | hostDrain (t : Nat)
  | heldMessageDelivery (p : Fin 16)
  | mbxReset (p : Fin 16)
  | stageDiscard
  | cfgStart (b : Boot) (t : Nat)
  | fwUpdateGo
  | fwUpdateDone (r : FwResult) (b : Boot) (t : Nat)
  | secUnlockSignature (t : Nat)
  | secUnlockPassword (t : Nat)
  | nonceRead (t : Nat)
  | errlogSelect (seq : BitVec 32)
  | errlogFetchDone
  | loReadLatch (off : BitVec 28)
  | w1cWrite (off : BitVec 28) (v : BitVec 32)
  | registerWrite (off : BitVec 28) (v : BitVec 32)
  | boardConfigRecord (t : Nat)
  | scpCorrLogHourly (t : Nat)
  -- power, heat and clocks
  | damperSample (watts mv : Nat) (tileW : List Nat) (t : Nat)
  | thermalSample (lc : Fin 72) (own : Option Int) (unc : List (Option Int)) (t : Nat)
  | stackThermalSample (st : Fin 16) (temps : List Int) (t : Nat)
  | stepPolicy (d : Fin 72) (t : Nat)
  | parkTimer (d : Fin 72) (t : Nat)
  | corePark (d : Fin 72)
  | unparkTimer (d : Fin 72) (t : Nat)
  | thermalTrip (cmp : Fin 160) (t : Nat)
  | tripRelease (temps : List Int)
  | coolantOkFall (t : Nat)
  | coolantOkRise (t : Nat)
  | quench (t : Nat)
  | coolantRestart (t : Nat)
  | shunt (d : Fin 72) (below : Nat) (t : Nat)
  | clamp (d : Fin 72) (above : Nat)
  | clockStretch (d : Fin 72) (below : Nat) (t : Nat)
  | temperReading (d : Fin 72) (slack : Int) (shortfallMv : Nat) (t : Nat)
  | temperHourly (d : Fin 72) (t : Nat)
  | temperSave (t : Nat)
  | phaseFailure (d : Fin 72) (t : Nat)
  | domainShort (d : Fin 89) (t : Nat)
  | crackCheck (d : Fin 89) (res : BitVec 16) (amps : Nat)
  | tileFailure (tile : Fin 16)
  | stackRailFail (st : Fin 16)
  | alwaysOnFail
  | retentionEntry (d : Fin 72)
  | switchOnGrant (d : Fin 72) (t : Nat)
  | grantTimeout (d : Fin 72) (t : Nat)
  | switchOnDone (d : Fin 72) (t : Nat)
  | stepChange (d : Fin 72) (step : Fin 12) (t : Nat)
  | deferredStepSwitch (d : Fin 72) (t : Nat)
  | refLost (ref : Fin 4) (t : Nat)
  | optHoldoverExpiry (t : Nat)
  | timeBeacon (t : Nat)
  -- starts and faults
  | pwrGoodRise (b : Boot) (strap : BitVec 2) (t : Nat)
  | pwrGoodFall
  | vddioLow (io18 : Bool)
  | vinOutOfRange (mv : Nat)
  | startStage5 (r : Stage5) (t : Nat)
  | bankedRestart (b : Boot) (t : Nat)
  | deviceLevelFault (cause : BitVec 4) (t : Nat)
  | mc0WatchdogExpiry (ok : Bool) (b : Boot) (t : Nat)
  | mcHeartbeatMiss (t : Nat)
  -- access and sideband
  | jtagBypass (tdi : Bool)
  | jtagIdcode
  | jtagSamplePreload (preload : List Bool)
  | jtagExtest
  | jtagUnlock (shiftIn : Option (List Byte)) (t : Nat)
  | smbusOffsetWrite (bytes : List Byte)
  | smbusRead
  | smbusAlertResponse
  | smbusClockTimeout
  | smbusMirrorRefresh (t : Nat)
  | hdmDecoderCommit (n : Fin 2) (hpa dpa size : Nat) (ways : Nat)
  | cacheEnable
  | configurationRequest (off : BitVec 12)
  -- restorations
  | faultCleared (p : Fin 96)
  | refRestored (ref : Fin 4)
  | vddioRestored (io18 : Bool)
  | vin48Restored (mv : Nat)
  | standbyRestartDone
  | gatewayResolved (p : Fin 96) (mac : BitVec 48)
  | secondLevelTreeReady
  deriving DecidableEq, Repr

end Sys2Proof
end

