-- ==== Sys2Proof/Machine/State.lean ====
section
/-! DEFINITION. The state of the part: every register, memory, queue, buffer, counter, mode and pin the spec
names, as plain data. Indexed state is held in sparse tables (`Tbl`) whose unlisted entries read as the
reset value, which every structure below gives as its field defaults. -/

namespace Sys2Proof.Machine

/-- Nothing the part does stops the model: this type has one constructor, which no meaning raises. -/
inductive Fault where
  /-- Raised by nothing; kept so that the type is inhabited. Safe. -/
  | none
  deriving DecidableEq, Repr

/-- Refusals. -/
inductive Refusal where
  /-- Raised by an arm of exec whose command has no meaning yet. Safe: nothing can be proved of it. -/
  | notModelled (mnemonic : String)
  deriving DecidableEq, Repr

/-! ### A core: descriptors, queues, streams -/

/-- A segment's registers (R152). -/
structure Seg where
  base : BitVec 23 := 0
  bound : BitVec 23 := 0
  attr : BitVec 5 := 0
  deriving DecidableEq, Repr

/-- A tile descriptor (R98), its sizes as counts. -/
structure Desc where
  off : Nat := 0
  seg : Nat := 0
  fmt : Nat := 0
  rows : Nat := 1
  cols : Nat := 1
  grp : Option (BitVec 12) := none
  stride : Nat := 0
  deriving DecidableEq, Repr

/-- A gathered moving operand (R82): the index list and tile table it names. -/
structure Gather where
  idx : List Nat := []
  table : Desc := {}
  r : Nat := 16
  trans : Bool := false
  poison : Bool := false
  /-- The held entries (queue, entry) of the list and the table (R112). -/
  held : List (Nat × Nat) := []
  deriving DecidableEq, Repr

/-- The states of a queue entry (R102, R263). Free entries are not listed. -/
inductive EntrySt where
  | reserved | ready | held | awaiting | placed | heldProv
  deriving DecidableEq, Repr

/-- An entry of a queue that is not Free. -/
structure QEntry where
  id : Nat := 0
  slot : Nat := 0
  desc : Desc := {}
  st : EntrySt := .reserved
  holds : Nat := 0
  gather : Option Gather := none
  /-- For a placed provisional entry: the flow, none for this device's own transfers, and the touchmark
  sequence it came under (R263). -/
  prov : Option (Option (BitVec 20) × BitVec 24) := none
  deriving DecidableEq, Repr

/-- A queue (R101). Mode 3 is off, the state at task start. -/
structure Queue where
  mode : Nat := 3
  depth : Nat := 0
  prod : Nat := 0
  cons : Nat := 0
  seg : Nat := 0
  off : Nat := 0
  slotWords : Nat := 0
  entries : List QEntry := []
  /-- Entries made since q.cfg: the next entry's identity. -/
  made : Nat := 0
  /-- The next ring slot to be reserved. -/
  next : Nat := 0
  win : Option (BitVec 12) := none
  deriving DecidableEq, Repr

/-- One open loop (R133): the loop command's word offset, SKIP, the latched count, the iteration index. -/
structure Loop where
  pos : Nat := 0
  skip : Nat := 0
  count : Nat := 0
  iter : Nat := 0
  deriving DecidableEq, Repr

/-- What fetch recorded against a command (R129, R135). -/
inductive FetchFault where
  | poison | loop
  deriving DecidableEq, Repr

/-- A fetched command (R126): its word, its word offset, its fault, and the loops open at it, for a loop its own
among them with its latched count (R133). -/
structure Fetched where
  word : BitVec 256 := 0
  pos : Nat := 0
  fault : Option FetchFault := none
  loops : List Loop := []
  deriving DecidableEq, Repr

/-- A wait in progress (R106, R137): explicit or implicit, for an implicit one the stall cause it counts, when it began,
its limit in ns. -/
structure Wait where
  explicit : Bool := false
  cause : Nat := 0
  since : Nat := 0
  limit : Nat := 0
  deriving DecidableEq, Repr

/-- What a far transfer of a command is (R229, R244, R294). -/
inductive XferKind where
  | win (core : BitVec 6) (window : BitVec 12) (gen : BitVec 16)
  | dram | add | read | apertureRead | apertureWrite
  deriving DecidableEq, Repr

/-- A far transfer in flight: on a flow, or to this device's own windows or aperture (`here`). -/
structure Xfer where
  kind : XferKind := .dram
  here : Bool := false
  flow : BitVec 20 := 0
  addr : Nat := 0
  bytes : Nat := 0
  /-- Bytes put on the wire so far. -/
  sent : Nat := 0
  /-- Bytes acknowledged or received so far. -/
  done : Nat := 0
  lastPsn : BitVec 32 := 0
  tmseq : Option (BitVec 24) := none
  prov : Bool := false
  /-- TOUCH has been sent for it. -/
  touched : Bool := false
  nak : Option (BitVec 8) := none
  deriving DecidableEq, Repr

/-- A begun and unretired command (R126): its word and place, what it popped (queue, entry, KEEP), what it
reserved (queue, entry), the tiles it has still to drain, and its transfer. -/
structure Begun where
  word : BitVec 256 := 0
  pos : Nat := 0
  loops : List Loop := []
  serial : Nat := 0
  ins : List (Nat × Nat × Bool) := []
  outs : List (Nat × Nat) := []
  tilesLeft : Nat := 0
  replayed : Bool := false
  passed : Bool := false
  poison : Bool := false
  /-- Bytes of its result a chain.add has added so far (R263). -/
  added : Nat := 0
  grp : Option (BitVec 12) := none
  xfer : Option Xfer := none
  deriving DecidableEq, Repr

/-- How a stream stands (R146, byte 4 of the engine record). -/
inductive EngStatus where
  | noStream | running | stopped | error | stopCount | waitAbandoned
  deriving DecidableEq, Repr

/-- An engine's stream (R125–R137). -/
structure Engine where
  status : EngStatus := .noStream
  seg : Nat := 0
  off : Nat := 0
  bound : Nat := 0
  fetchPos : Nat := 0
  fetchDone : Bool := true
  fetchLoops : List Loop := []
  fetched : List Fetched := []
  begun : List Begun := []
  begunCount : Nat := 0
  retired : Word := 0
  loops : List Loop := []
  curGrp : Option (BitVec 12) := none
  wait : Option Wait := none
  /-- Held at a boundary for an apply (R408). -/
  applyHold : Bool := false
  /-- The command at the front is being replayed (R259). -/
  replaying : Bool := false
  /-- The command, by the count of begun ones, whose wait under the 32-per-slice cap has been counted (R199). -/
  capFor : Option Nat := none
  deriving DecidableEq, Repr

/-! ### A core: arrays -/

/-- One pass of a begun command (R28, R108, R63): which command, the accumulator tile it fills by that tile's
first row and column, which moving rows, which 128-deep slice; `last` marks the tile's last pass. -/
structure Pass where
  cmd : Nat := 0
  trow : Nat := 0
  tRows : Nat := 0
  row0 : Nat := 0
  rows : Nat := 0
  col0 : Nat := 0
  cols : Nat := 0
  k0 : Nat := 0
  kLen : Nat := 0
  last : Bool := false
  deriving DecidableEq, Repr

/-- The stationary registers of an array (R30): the active or shadow tile, codes row-major. -/
structure StatTile where
  rows : Nat := 0
  cols : Nat := 0
  fmt : Nat := 0
  codes : List (BitVec 16) := []
  scales : List (BitVec 8) := []
  deriving DecidableEq, Repr

/-- The state of an accumulator tile (R46, R48, R108). -/
inductive TileSt where
  | free | filling | kept | ready | draining
  deriving DecidableEq, Repr

/-- An accumulator tile (R46) with its two checker elements per row (R256). -/
structure AccTile where
  st : TileSt := .free
  cmd : Nat := 0
  row0 : Nat := 0
  rows : Nat := 0
  col0 : Nat := 0
  cols : Nat := 0
  int : Bool := false
  g : Nat := 4
  kTotal : Nat := 0
  cells : List Word := []
  chkC : List Int := []
  chkS : List Int := []
  /-- Rows holding a saturated element (R257). -/
  satRows : List Nat := []
  /-- The commands that contributed (R108). -/
  contrib : List Nat := []
  /-- The ring its drain goes to, the engine and serial of the begun command that reserves the entry there, and, while
  none is to be had, since when it waits (R48, R106). -/
  outQ : Nat := 0
  leadEng : Nat := 0
  lead : Nat := 0
  waitAt : Option Nat := none
  deriving DecidableEq, Repr

/-- A block of dY in the tongs buffer (R63): the mm.tongs on G0 it belongs to, its first row and column, its codes as the
shared path read them, and its poison. -/
structure TongsBlock where
  cmd : Nat := 0
  r0 : Nat := 0
  c0 : Nat := 0
  codes : List (List Nat) := []
  poison : Bool := false
  deriving DecidableEq, Repr

/-- One array (R28–R51). -/
structure ArrayU where
  passes : List Pass := []
  /-- Array cycles the last pass took to enter (R36, R57); none since the task's start. -/
  lastPass : Option Nat := none
  active : StatTile := {}
  shadow : StatTile := {}
  tile0 : AccTile := {}
  tile1 : AccTile := {}
  /-- The column generators (R50). -/
  gens : Tbl Word := []
  flags : Word := 0
  /-- A Bellows notice is pending (R325). -/
  notice : Bool := false
  /-- A notice is due but withheld for a neighbour's switch-on (R330). -/
  noticeDue : Bool := false
  deriving DecidableEq, Repr

/-! ### A core: scratchpad, windows, groups -/

/-- The condition of a stored unit's bits (R187–R189). -/
inductive Stored where
  | good | correctable | uncorrectable
  /-- A pattern that the code takes for these bytes (R187). -/
  | wrong (bytes : List Byte)
  deriving DecidableEq, Repr

/-- A pending extent (R168): its group, the words it covers as (first, count), and its queue entry. -/
structure Extent where
  grp : BitVec 12 := 0
  words : List (Nat × Nat) := []
  entry : Option (Nat × Nat) := none
  deriving DecidableEq, Repr

/-- A permitted-source entry (R167). -/
structure SrcSet where
  nodeLo : BitVec 18 := 0
  nodeHi : BitVec 18 := 0
  coreLo : BitVec 6 := 0
  coreHi : BitVec 6 := 0
  valid : Bool := false
  deriving DecidableEq, Repr

/-- A remote window (R161–R167). -/
structure Window where
  isOpen : Bool := false
  seg : Nat := 0
  off : Nat := 0
  len : Nat := 0
  srcset : Nat := 0
  gen : BitVec 16 := 0
  reuse : Nat := 0
  ever : Bool := false
  closedAt : Nat := 0
  watermark : Word := 0
  /-- The extent's first core word, its code, the source entry and the attached queue's slot size, as win.open
  found them: they stand while the task is away (R376). -/
  base : Nat := 0
  durable : Bool := false
  src : SrcSet := {}
  slotWords : Nat := 0
  queue : Option Nat := none
  /-- Slots of the attached queue committed so far, made Ready so far, and released so far (R166, R243). -/
  slots : Nat := 0
  readySlots : Nat := 0
  released : Nat := 0
  sender : Option (BitVec 20) := none
  /-- The shape a sender gave for a slot (R166), by slot count. -/
  shapes : Tbl Desc := []
  deriving DecidableEq, Repr

/-- The state of a commit group (R282). -/
inductive GrpState where
  | never | opened | committing | resolved
  deriving DecidableEq, Repr

/-- A commit group of a core (R267–R276). -/
structure Group where
  st : GrpState := .never
  aborted : Bool := false
  reason : Nat := 0
  /-- Flows that carried tagged transfers (R270). -/
  flows : List (BitVec 20) := []
  /-- Slices that still owe an acknowledgement of PREPARE. -/
  await : List Nat := []
  deriving DecidableEq, Repr

/-- A DRAM range of a task (R199). -/
structure DRange where
  base : BitVec 20 := 0
  len : BitVec 20 := 0
  write : Bool := false
  valid : Bool := false
  deriving DecidableEq, Repr

/-- Why a task stops: the first cause stands (R317). -/
inductive StopCause where
  | error (code : Nat) (eng : Nat) (index : Word)
  | stopCount (eng : Nat)
  | cancel
  | finished
  deriving DecidableEq, Repr

/-- What a core keeps of the running task (R139–R141, R311). -/
structure Task where
  job : Nat := 0
  duncen : Bool := false
  stop : Option StopCause := none
  dumped : Bool := false
  preempting : Bool := false
  deriving DecidableEq, Repr

/-- The task state a preemption saves (R376). -/
structure Saved where
  job : Nat := 0
  duncen : Bool := false
  engines : Tbl Engine := []
  queues : Tbl Queue := []
  groups : Tbl Group := []
  cregs : Tbl Word := []
  /-- Where its resident segments lie (R375). -/
  segs : Tbl Seg := []
  stalls : Tbl DWord := []
  vregs : Memory := []
  bins : Tbl Word := []
  deriving DecidableEq, Repr

/-- The streams, queues and registers of a core's sequencer. -/
structure Sequencer where
  task : Option Task := none
  engines : Tbl Engine := []
  queues : Tbl Queue := []
  cregs : Tbl Word := []
  segs : Tbl Seg := []
  dranges : Tbl DRange := []
  srcsets : Tbl SrcSet := []
  windows : Tbl Window := []
  groups : Tbl Group := []
  /-- SEQ_ERR_INFO and SEQ_ERR_CMD (R97). -/
  errInfo : Word := 0
  errCmd : Word := 0
  duncen : Bool := false
  waitDefault : BitVec 20 := 0xF4240
  stopEnable : Bool := false
  stopEngine : BitVec 4 := 0
  stopHit : Bool := false
  stopN : Word := 0
  dumpBase : BitVec 40 := 0
  dumpValid : Bool := false
  winFirst : BitVec 12 := 0
  winCount : BitVec 13 := 0
  winSel : BitVec 12 := 0
  winDrops : Word := 0
  grpSel : BitVec 12 := 0
  /-- Stall counters, keyed 11 × engine + cause (R142). -/
  stalls : Tbl DWord := []
  /-- The latched high halves of the stall counters, by the same key. -/
  stallHi : Tbl Word := []
  /-- The mm.tongs pair has started (R111). -/
  pairStarted : Bool := false
  /-- The order in which tiles became ready for the drain path (R48): (array code, tile). -/
  drainOrder : List (Nat × Nat) := []
  /-- The tongs buffer, oldest block first (R63). -/
  tongsBuf : List TongsBlock := []
  capHits : Word := 0
  capSlice : BitVec 7 := 0
  saved : List Saved := []
  deriving DecidableEq, Repr

/-- Where a write in a remote-write port comes from: a bare window write, a packet, or a begun command of this device with
its engine and serial, the group it tags with and its touchmark. -/
inductive PortSrc where
  | bare
  | packet (h : PktHdr) (w : WinHdr)
  | own (lc eng serial : Nat) (w : WinHdr) (grp : Option (BitVec 12)) (tm : Option (BitVec 24))
  deriving DecidableEq, Repr

/-- A write accepted into a core's remote-write port that waits there (R164, R169, R172): the code it is stored under, its
byte address, its bytes with their poison marks. -/
structure PortWrite where
  durable : Bool := false
  addr : Nat := 0
  data : List (Byte × Bool) := []
  src : PortSrc := .bare
  deriving DecidableEq, Repr

/-- The scratchpad of a core (R147–R173) and the memories of V and Q. -/
structure Scratch where
  bytes : Memory := []
  durable : Tbl Bool := []
  poison : Tbl Bool := []
  /-- How each code word's stored bits differ from what was written: data [255:0], check bits [287:256], the copies of the
  tag [290:288] and of the poison bit [293:291] (R155). -/
  flips : Tbl (BitVec 294) := []
  /-- Code words whose correction write-back is pending, with what the corrected data differs by (R156, R158). -/
  wbPend : List (Nat × BitVec 256) := []
  pend : List Extent := []
  /-- Pending extents of the preempted tasks saved on the core, with their jobs (R276, R376). -/
  away : List (Nat × Extent) := []
  /-- The remote-write port, oldest write first (R169, R172). -/
  port : List PortWrite := []
  eccCorr : Word := 0
  eccUncorr : Word := 0
  eccLast : BitVec 23 := 0
  eccLastUncorr : Bool := false
  eccLastCode : Bool := false
  /-- Present state of each section: 0 On, 1 Retention, 2 Off (R170). -/
  sect : Tbl Nat := []
  /-- Requested state waiting for the write counter (R171). -/
  sectReq : Tbl (Option Nat) := []
  /-- Sections being woken (R172). -/
  waking : Tbl Bool := []
  vregs : Memory := []
  bins : Tbl Word := []
  deriving DecidableEq, Repr

/-- The integrity registers of a core (R282) and its sticky flags (R51, R91). -/
structure Integrity where
  suspect : Bool := false
  cause : BitVec 2 := 0
  replays : Word := 0
  lastEngine : BitVec 4 := 0
  lastDetector : BitVec 3 := 0
  lastSecond : Bool := false
  replayCmd : Word := 0
  unchecked : Word := 0
  strikesTx : Word := 0
  strikesRx : Word := 0
  /-- Times (ns) of the replays within the last 60 minutes (R261). -/
  recent : List Nat := []
  vecFlags : Word := 0
  redFlags : Word := 0
  deriving DecidableEq, Repr

/-- A logical core. -/
structure Core where
  seq : Sequencer := {}
  scp : Scratch := {}
  arrF : ArrayU := {}
  arrG0 : ArrayU := {}
  arrG1 : ArrayU := {}
  integ : Integrity := {}
  /-- DBG_CORE_MAP_n (R24): physical core and state. -/
  phys : BitVec 7 := 0
  mapState : BitVec 2 := 0
  deriving DecidableEq, Repr

/-! ### Crossbar, cache and stacks -/

/-- A cache line of 128 B (R181): byte-valid and dirty masks, poison per 64 B half. -/
structure Line where
  addr : Nat := 0
  data : Memory := []
  valid : BitVec 128 := 0
  dirty : BitVec 128 := 0
  poison : BitVec 2 := 0
  deriving DecidableEq, Repr

/-- One tagged access a shadow line holds: write data under a byte mask, or an in-place add into a 64 B half
(R89, R183), with the poison marks that came with it. -/
inductive ShadowOp where
  | write (mask : BitVec 128) (data : List Byte) (poison : BitVec 2)
  | add (half : Nat) (bf16 : Bool) (data : List Byte) (poison : Bool)
  deriving DecidableEq, Repr

/-- A shadow line of a group (R183, R184), its accesses in arrival order: `committed` from the commit point on,
`served` once COMMIT has reached its slice and reads are served from the park. -/
structure Shadow where
  line : Nat := 0
  key : GrpKey := .loc 0 0
  ops : List ShadowOp := []
  /-- Its place in the pending-group area where its set had no way left (R184). -/
  slot : Option Nat := none
  committed : Bool := false
  served : Bool := false
  deriving DecidableEq, Repr

/-- A read that missed and waits for its unit (R181). -/
structure Miss where
  port : XPort := .mgmt
  unit : Nat := 0
  mask : BitVec 256 := 0
  key : Option GrpKey := none
  deriving DecidableEq, Repr

/-- An access held by a slice: behind PREPARE (R270) or behind a back-invalidate (R292). -/
inductive HeldReq where
  | read (m : Miss)
  | write (p : XPort) (addr : Nat) (mask : BitVec 256) (data : List Byte) (poison : Bool)
      (k : Option GrpKey)
  | host (addr : Nat) (r : HostMem) (caches : Bool)
  deriving DecidableEq, Repr

/-- A snoop-filter entry (R292): a 64 B line the host may hold, and whether possibly modified. -/
structure Snoop where
  unit : Nat := 0
  modified : Bool := false
  deriving DecidableEq, Repr

/-- A logical slice. -/
structure Slice where
  /-- Lines by set, most recently used first (R181). -/
  sets : Tbl (List Line) := []
  shadows : List Shadow := []
  /-- Shadows of preempted tasks, with their jobs (R276, R376). -/
  away : List (Nat × Shadow) := []
  misses : List Miss := []
  prepared : List GrpKey := []
  /-- Groups whose COMMIT waits for a back-invalidate of a line they write (R292). -/
  commits : List GrpKey := []
  held : List HeldReq := []
  snoops : List Snoop := []
  /-- Back-invalidates waiting for the host: (unit, with data). -/
  bisnp : List (Nat × Bool) := []
  hits : Word := 0
  missCount : Word := 0
  corr : Word := 0
  deriving DecidableEq, Repr

/-- A memory stack (R185–R192, R200). -/
structure Stack where
  corr : Word := 0
  uncorr : Word := 0
  rewrites : Word := 0
  lastUnit : BitVec 30 := 0
  lastKind : BitVec 2 := 0
  lastTime : DWord := 0
  /-- MST_s_SCRUB_TIME_HI as latched by the last LO read (R414). -/
  lastTimeHi : Word := 0
  /-- The 16 units most recently corrected on demand reads, with their counts (R188), oldest first. -/
  table : List (Nat × Nat) := []
  /-- Units due for a targeted scrub, with the time they fell due, and their scrub visits (R188, R192). -/
  due : List (Nat × Nat) := []
  visits : Tbl Nat := []
  /-- The next unit the patrol scrubber visits (stack-local 64 B index). -/
  scrubNext : Nat := 0
  lanes : BitVec 8 := 0
  rowsRepaired : BitVec 16 := 0
  hot : Bool := false
  halfBw : Bool := false
  railFailed : Bool := false
  selfRefresh : Bool := false
  /-- Open rows, keyed 96 × channel + 48 × pseudo-channel + bank; 0 none, row + 1 otherwise (R434). -/
  rows : Tbl Nat := []
  deriving DecidableEq, Repr

/-- The device's memory beyond the cores. -/
structure Mem where
  /-- DRAM by device address (R193). -/
  dram : Memory := []
  /-- Ranges whose contents a device-level fault left undefined (R280): which fault, the first byte, one past the last. -/
  lost : List (Nat × Nat × Nat) := []
  /-- How many such faults there have been, and had been when a 64 B unit was last written. -/
  losses : Nat := 0
  since : Tbl Nat := []
  /-- Poison marks by 64 B unit (R187). -/
  poison : Tbl Bool := []
  /-- Bits in error by 64 B unit. -/
  cond : Tbl Stored := []
  slices : Tbl Slice := []
  stks : Tbl Stack := []
  pendPeak : BitVec 20 := 0
  /-- Requests that wait at their core's port (R179), oldest first. -/
  waiting : List HeldReq := []
  /-- What the part has delivered on crossbar ports: (port, address, bytes, poison). -/
  delivered : List (XPort × Nat × List Byte × Bool) := []
  deriving DecidableEq, Repr

/-! ### Ports -/

/-- The states of a port (R221). -/
inductive PortSt where
  | disabled | training | up | down | quenched | noPosition
  deriving DecidableEq, Repr

/-- A PTP timestamp delivered to MC3 (R219, R220): its port, whether of a transmission, the message, its sequence
number, the region's counter in 2⁻¹⁶ ns, and the calibrated delay in ps that refers it to the connector. -/
structure PtpStamp where
  port : Nat := 0
  tx : Bool := false
  msg : PtpMsg := .sync
  seqId : BitVec 16 := 0
  count : Int := 0
  delayPs : Int := 0
  deriving DecidableEq, Repr

/-- An OFT frame in a receive buffer: its priority, its bytes, and the flow and PSN of its packet. -/
structure RxFrame where
  prio : Nat := 0
  bytes : Nat := 0
  flow : BitVec 20 := 0
  psn : BitVec 32 := 0
  deriving DecidableEq, Repr

/-- What a port sends (R206, R210, R215, R220, R226). -/
inductive Sent where
  | arpReply (sender target : BitVec 32) (mac dst : BitVec 48)
  | gratuitousArp (ip : BitVec 32) (mac : BitVec 48)
  /-- A neighbour advertisement: its ICMPv6 bytes, checksum and all (R206, R208). -/
  | neighbourAdv (target : BitVec 128) (icmp : List Byte)
  /-- An echo reply: its ICMP or ICMPv6 bytes (R206, R208). -/
  | echoReply (icmp : List Byte)
  | lldp (chassis : BitVec 18) (port : Nat)
  | pfc (cls : Nat) (xoff : Bool)
  /-- A PTP message: its bytes as they leave, with the originTimestamp of a one-step Sync (R220). -/
  | ptp (m : PtpMsg) (bytes : List Byte)
  /-- An OFT packet: the peer node, its 48-byte header and payload (R226–R228). -/
  | packet (dst : BitVec 18) (bytes : List Byte)
  | remoteFault
  | localFault
  deriving DecidableEq, Repr

/-- The IP and UDP headers of a sent frame, as far as the spec gives them (R207, R208, R223, R225): addresses (IPv4 in the
low 32 bits), ECN field, IPv4 header checksum, and for UDP its ports and checksum. -/
structure Ip where
  v6 : Bool := false
  src : BitVec 128 := 0
  dst : BitVec 128 := 0
  ecn : BitVec 2 := 0
  hdrSum : BitVec 16 := 0
  udp : Option (BitVec 16 × BitVec 16 × BitVec 16) := none
  deriving DecidableEq, Repr

/-- The Ethernet header of a sent frame: addresses, the tag's PCP and VID, and what IP it carries. -/
structure Eth where
  dst : BitVec 48 := 0
  src : BitVec 48 := 0
  tag : Option (BitVec 3 × BitVec 12) := none
  ip : Option Ip := none
  deriving DecidableEq, Repr

/-- A frame, or a signal outside frames, that a port sends. -/
structure TxFrame where
  eth : Option Eth := none
  what : Sent
  deriving DecidableEq, Repr

/-- A logical port (R205–R221). -/
structure Port where
  st : PortSt := .disabled
  rxLf : Bool := false
  rxRf : Bool := false
  txLf : Bool := false
  los : BitVec 4 := 0
  hiSer : Bool := false
  hiSerSecs : Nat := 0
  /-- When the FEC's symbols were last counted, since the port came Up (R217). -/
  hiSerAt : Option Nat := none
  subst : Bool := false
  pos : BitVec 4 := 0
  laser : Bool := false
  /-- Retrainings of the position since its lanes failed (R213). -/
  retrains : Nat := 0
  /-- The training under way uses the position's saved settings (R212). -/
  saved : Bool := false
  /-- MC3 moves the port onto the spare from this position, for this reason (R213, R214). -/
  substReason : Nat := 0
  substFrom : BitVec 4 := 0
  fecCorr : Word := 0
  fecUncorr : Word := 0
  fcsErr : Word := 0
  rxDrop : Word := 0
  linkDowns : Word := 0
  pfcRx : Word := 0
  pfcTx : Word := 0
  txBytes : DWord := 0
  rxBytes : DWord := 0
  txHi : Word := 0
  rxHi : Word := 0
  /-- OFT frames that wait in the receive buffer for their verdict, oldest first (R210, R237). -/
  rxq : List RxFrame := []
  /-- XOFF has been sent for a priority and not yet XON. -/
  xoff : Tbl Bool := []
  /-- Pause in force on a class until this time in ns; 0 none. -/
  pause : Tbl Nat := []
  /-- Frames queued in an egress class, oldest first, and those its producers hold while it is full (R209), with their
  bytes. -/
  egress : Tbl (List (TxFrame × Nat)) := []
  held : Tbl (List (TxFrame × Nat)) := []
  sent : List TxFrame := []
  gwMac : Option (BitVec 48) := none
  lastLldp : Nat := 0
  deriving DecidableEq, Repr

/-- An optical engine (R222). -/
structure Optic where
  good : BitVec 13 := 0
  spare : BitVec 4 := 0xF
  powered : Bool := false
  logFrom : BitVec 4 := 0
  logTo : BitVec 4 := 0
  logReason : BitVec 3 := 0
  railFailed : Bool := false
  lasersOff : Bool := false
  /-- When the spare was taken at run time (R214, the coincidence of two failures). -/
  substAt : Option Nat := none
  /-- The saved-settings records in flash, by position: the CRC is valid, made on this engine, its temperature in 0.25 °C
  (R212). -/
  records : Tbl (Option (Bool × Bool × Int)) := []
  deriving DecidableEq, Repr

/-! ### Fabric -/

/-- A read request in flight (R244): its engine, where in the destination it lands, its bytes and how many have
come. -/
structure ReadReq where
  lc : Nat := 0
  eng : Nat := 0
  /-- Where in the far bytes of the copy it begins. -/
  off : Nat := 0
  len : Nat := 0
  got : Nat := 0
  deriving DecidableEq, Repr

/-- The states of a flow (R231). -/
inductive FlowSt where
  | free | settingUp | isOpen | closing | failed
  deriving DecidableEq, Repr

/-- A sent and unacknowledged packet (R239, R240). -/
structure TxPkt where
  psn : BitVec 32 := 0
  type : Nat := 0
  op : BitVec 256 := 0
  payload : List Byte := []
  poison : Bool := false
  prov : Bool := false
  last : Bool := false
  srcCore : Nat := 0
  /-- The engine whose command the packet belongs to: logical core, engine code; and where it lies in the transfer, or the
  address of the DRAM it answers with, to be read again at a retransmission (R239). -/
  owner : Option (Nat × Nat) := none
  off : Nat := 0
  dram : Option Nat := none
  firstSent : Nat := 0
  lastSent : Nat := 0
  retx : Bool := false
  /-- Since when it stands as a hole below an acknowledged packet (R239). -/
  holeAt : Option Nat := none
  deriving DecidableEq, Repr

/-- A control packet that waits for its PSN order (R237). -/
inductive Ctl where
  | touch (tmseq : BitVec 24)
  | strike (tmseq : BitVec 24)
  | group (core : BitVec 6) (g : BitVec 12) (abort : Bool)
  | barrier (coll : BitVec 20) (release : Bool) (epoch : BitVec 32)
  | credit (core : BitVec 6) (window : BitVec 12) (gen : BitVec 16) (req : Bool) (granted : BitVec 32)
  | teardown
  deriving DecidableEq, Repr

/-- A transfer into a window seen by its receiver (R242, R263). -/
structure RxXfer where
  core : BitVec 6 := 0
  window : BitVec 12 := 0
  gen : BitVec 16 := 0
  /-- Where the transfer begins in the window, in words; its bytes; bytes placed. -/
  woff : Nat := 0
  len : Nat := 0
  placed : Nat := 0
  lastSeen : Bool := false
  lastPsn : BitVec 32 := 0
  tmseq : BitVec 24 := 0
  prov : Bool := false
  touched : Bool := false
  /-- The PSN of its first packet placed, by which the transfers of a flow are ordered (R242). -/
  psn : BitVec 32 := 0
  /-- Placed packets of a provisional transfer: PSN, word offset in the window, bytes, LAST (R263). -/
  got : List (BitVec 32 × Nat × Nat × Bool) := []
  grp : Option (BitVec 6 × BitVec 12) := none
  /-- The job of its group's task while that is preempted (R276, R376). -/
  away : Option Nat := none
  committed : Bool := false
  deriving DecidableEq, Repr

/-- A read request being answered (R244): its number, address, bytes, and bytes answered so far. -/
structure Answer where
  id : Nat := 0
  addr : Nat := 0
  len : Nat := 0
  sent : Nat := 0
  deriving DecidableEq, Repr

/-- A flow context (R230). -/
structure Flow where
  st : FlowSt := .free
  node : BitVec 18 := 0
  peerFlow : BitVec 20 := 0
  job : Nat := 0
  tag : BitVec 32 := 0
  /-- Setup: SEQs sent, when last sent; the peer's boot count. -/
  tries : Nat := 0
  setupAt : Nat := 0
  peerBoot : BitVec 32 := 0
  clockOff : Int := 0
  /-- Sending: next PSN, unacknowledged packets, next touchmark. -/
  psnNext : BitVec 32 := 0
  unacked : List TxPkt := []
  tmNext : BitVec 24 := 0
  unconfirmed : Nat := 0
  /-- The transfer whose packets are being sent, whose PSNs are consecutive (R229): an engine's, by logical core and code, or
  the answer to a read; the packets that wait for a PSN behind it or for room; and the PSNs that began each instant of
  the last second (R240). -/
  mid : Option (Option (Nat × Nat)) := none
  outq : List TxPkt := []
  paced : List (Nat × BitVec 32) := []
  spray : Nat := 0
  lastAdv : Nat := 0
  rto : Nat := 50000
  srtt : Nat := 0
  /-- The round-trip samples of the last 10 s that are least of all since: (when, sample), rising (R241). -/
  rtts : List (Nat × Nat) := []
  lastDec : Nat := 0
  cwnd : Nat := 1048576
  /-- Receiving: oldest PSN not arrived, later arrivals, what waits for order, what came since an ACK. -/
  cum : BitVec 32 := 0
  sack : List (BitVec 32) := []
  ctl : List (BitVec 32 × Ctl) := []
  sinceAck : Nat := 0
  firstUnacked : Option Nat := none
  ceSeen : Bool := false
  echo : BitVec 32 := 0
  nak : Option (BitVec 8 × BitVec 32) := none
  rx : List RxXfer := []
  /-- Where packets of a transfer into a window were refused: core, window, generation, word offset. -/
  refused : List (BitVec 6 × BitVec 12 × BitVec 16 × Nat) := []
  /-- Read requests of the peer still being answered, oldest first. -/
  answers : List Answer := []
  reqs : Tbl (Option ReadReq) := []
  /-- CREDIT slots this side was granted plus one, and slots it has begun, by window key (R243). -/
  granted : Tbl Nat := []
  slotsSent : Tbl Nat := []
  lastUse : Nat := 0
  cached : Bool := false
  fetching : Bool := false
  closeAt : Nat := 0
  /-- The job has ended: TEARDOWN follows once nothing is unacknowledged (R231). -/
  ending : Bool := false
  deriving DecidableEq, Repr

/-- A collective group context (R245, R246). -/
structure Coll where
  job : Nat := 0
  used : Bool := false
  parent : Option (BitVec 18) := none
  members : BitVec 64 := 0
  children : List (BitVec 18) := []
  /-- The oldest incomplete epoch E. -/
  epoch : BitVec 32 := 0
  arrived : BitVec 64 := 0
  arrivedNext : BitVec 64 := 0
  kids : List (BitVec 18) := []
  kidsNext : List (BitVec 18) := []
  /-- The local part of E is complete and BARRIER has gone to the parent. -/
  up : Bool := false
  /-- BARRIER packets that wait for a flow to open: node, RELEASE, epoch (R231). -/
  owed : List (BitVec 18 × Bool × BitVec 32) := []
  deriving DecidableEq, Repr

/-- A remote-group handle (R275). -/
structure Handle where
  flow : BitVec 20 := 0
  core : BitVec 6 := 0
  grp : BitVec 12 := 0
  committing : Bool := false
  /-- Slices that still owe an acknowledgement of PREPARE. -/
  await : List Nat := []
  deriving DecidableEq, Repr

/-- The transport (R223–R253). -/
structure Fabric where
  flows : Tbl Flow := []
  /-- Transfers into windows of this device's own cores from its own cores that wait for TOUCH or for their
  group, and the next number one takes (R242, R267). -/
  loc : List RxXfer := []
  locNext : BitVec 24 := 0
  colls : Tbl Coll := []
  handles : List Handle := []
  peers : List (BitVec 18) := []
  setupRefused : Word := 0
  evicted : Word := 0
  aged : Word := 0
  /-- Per transport engine: hits, misses, retransmissions, RTO expiries. -/
  hits : Tbl Word := []
  misses : Tbl Word := []
  retx : Tbl Word := []
  rtos : Tbl Word := []
  mc3Restarting : Bool := false
  ptpLocked : Bool := false
  slavePort : BitVec 7 := 0x7F
  holdover : Bool := false
  /-- What the masters on the PTP ports last announced (R250), by port. -/
  masters : Tbl (List Byte) := []
  ptpOffset : Word := 0
  /-- Consecutive offsets within 100 ns (R250). -/
  ptpGood : Nat := 0
  lastSync : Nat := 0
  ptpStamps : List PtpStamp := []
  deriving DecidableEq, Repr

/-! ### Host attachment -/

/-- A message MC1 has found and validated at the head of a ring (R307). -/
structure Found where
  bytes : List Byte := []
  slots : Nat := 0
  deriving DecidableEq, Repr

/-- A mailbox pair (R299–R303). -/
structure Pair where
  h2d : Memory := []
  d2h : Memory := []
  h2dProd : Word := 0
  h2dCons : Word := 0
  d2hProd : Word := 0
  d2hCons : Word := 0
  enable : Bool := false
  irqEn : Bool := false
  halted : Bool := false
  haltCode : BitVec 16 := 0
  seqOut : Word := 0
  minor : Byte := 0
  found : Option Found := none
  /-- MC1 has written messages to the pair since its last vector (R302). -/
  wrote : Bool := false
  deriving DecidableEq, Repr

/-- A held device-to-host message (R319). -/
structure Held where
  pair : Nat := 0
  bytes : List Byte := []
  isFault : Bool := false
  isComplete : Bool := false
  deriving DecidableEq, Repr

/-- An HDM decoder (R291). -/
structure Decoder where
  committed : Bool := false
  error : Bool := false
  hpa : Nat := 0
  dpa : Nat := 0
  size : Nat := 0
  deriving DecidableEq, Repr

/-- What the part sends on the CXL link (R292, R293, R295, R302). -/
inductive CxlOut where
  | memData (unit : Nat) (bytes : List Byte) (poison : Bool)
  | memCmp (unit : Nat)
  | bisnpInv (unit : Nat)
  | bisnpData (unit : Nat)
  | rspIHitI (addr : BitVec 64)
  | rdCurr (hpa : Nat)
  | itoMWr (hpa : Nat)
  | wowrInv (hpa : Nat) (mask : BitVec 64)
  | memRd (hpa n : Nat)
  | memWr (hpa n : Nat)
  | msix (vector : Nat)
  | cfgCrs (off : BitVec 12)
  | cfgData (off : BitVec 12) (v : Word)
  | regData (off : BitVec 28) (v : Word)
  deriving DecidableEq, Repr

/-- An aperture request outstanding (R296): its core and engine, the host address, where in the far bytes of the copy it
begins. -/
structure AptReq where
  lc : Nat := 0
  eng : Nat := 0
  entry : Nat := 0
  hpa : Nat := 0
  off : Nat := 0
  bytes : Nat := 0
  write : Bool := false
  deriving DecidableEq, Repr

/-- The host-facing state (R284–R298, R318–R320). -/
structure HostIf where
  linkUp : Bool := false
  rate : BitVec 2 := 0
  x8 : Bool := false
  flit256 : Bool := false
  pcie : Bool := false
  /-- Cache_Enable of the CXL DVSEC (R289). -/
  cacheEn : Bool := false
  memActive : Bool := false
  dec0 : Decoder := {}
  dec1 : Decoder := {}
  bisnpCount : Word := 0
  msixTable : Tbl Word := []
  msixPend : BitVec 16 := 0
  pairs : Tbl Pair := []
  held : List Held := []
  faultsMerged : Bool := false
  /-- 0 PRESENT, 1 HOST_ABSENT, 2 DRAINING (R318). -/
  hostState : BitVec 2 := 0
  lastMsg : Nat := 0
  absentAt : Nat := 0
  apts : List AptReq := []
  out : List CxlOut := []
  /-- The host's memory, as the host would answer reads of it. -/
  mem : Memory := []
  deriving DecidableEq, Repr

/-! ### Jobs -/

/-- A task record of an image (R311). -/
structure TaskRec where
  lc : Nat := 0
  fixedBase : Bool := false
  winFirst : BitVec 12 := 0
  winCount : BitVec 13 := 0
  stopEnable : Bool := false
  stopEngine : BitVec 4 := 0
  stopN : Word := 0
  segs : List Seg := []
  regions : List (Nat × Nat × Nat) := []
  cregs : List Word := []
  dranges : List DRange := []
  srcsets : List SrcSet := []
  deriving DecidableEq, Repr

/-- Where a job context stands. -/
inductive JobSt where
  | idle | queued | running | stopping | preempting | preempted
  deriving DecidableEq, Repr

/-- A loaded job context (R310–R317). -/
structure Job where
  loaded : Bool := false
  pair : Nat := 0
  tag : BitVec 32 := 0
  mask : BitVec 64 := 0
  duncen : Bool := false
  waitUs : Nat := 1000000
  dump : BitVec 40 := 0
  dumpValid : Bool := false
  tasks : List TaskRec := []
  st : JobSt := .idle
  queue : Nat := 0
  cregSet : Bool := false
  cregs : List Word := []
  start : Nat := 0
  /-- Logical cores whose tasks have still to stop, in R317's sense. -/
  live : BitVec 64 := 0
  stopped : Option StopCause := none
  stopCore : Nat := 0xFF
  dumped : Bool := false
  deriving DecidableEq, Repr

/-- A scheduling queue (R314). -/
structure SQueue where
  live : Bool := false
  pair : Nat := 0
  prio : Nat := 0
  preempt : Bool := false
  mask : BitVec 64 := 0
  jobs : List Nat := []
  deriving DecidableEq, Repr

/-- Scheduling (R374–R377). -/
structure Jobs where
  jobs : Tbl Job := []
  queues : Tbl SQueue := []
  /-- For each priority, the queue served last plus one (R374). -/
  lastServed : Tbl Nat := []
  deriving DecidableEq, Repr

/-! ### Configuration, security and flash -/

/-- An apply between its instant and its response (R409): the values registers had whose units have still to adopt
(R406, R408), whether an unlock attempt has still to be answered, and the start it requests. -/
structure Apply where
  former : Tbl (Option Word) := []
  unlock : Bool := false
  reqSeq : Word := 0
  minor : Byte := 0
  kind : BitVec 2 := 0
  /-- The STATUS of its response: what an unlock attempt came to. -/
  status : Nat := 0
  deriving DecidableEq, Repr

/-- Staged configuration (R403–R412). -/
structure Config where
  /-- Staged and applied copies of the STG registers, by BAR0 offset. -/
  staged : Tbl (Option Word) := []
  applied : Tbl (Option Word) := []
  reason : BitVec 8 := 0
  rejected : Bool := false
  failOff : BitVec 28 := 0
  count : Word := 0
  active : Option Apply := none
  /-- Validated CONFIG_APPLY messages waiting behind the active one: (mask, SEQ, MINOR). -/
  queue : List (BitVec 64 × Word × Byte) := []
  /-- A DISCARD written during an apply (R405). -/
  discardLater : Bool := false
  /-- A start requested by CFG_START, to begin after the response (R363). -/
  startReq : BitVec 2 := 0
  /-- CFG_FW_UPDATE_CTL.GO has been applied and the update has not begun (R378). -/
  goReq : Bool := false
  lastRecord : Option Nat := none
  dirty : Bool := false
  deriving DecidableEq, Repr

/-- A licence (R392). -/
structure Licence where
  tier : BitVec 4 := 0
  number : DWord := 0
  owner : List Byte := []
  salt : List Byte := []
  verifier : List Byte := []
  sha : List Byte := []
  deriving DecidableEq, Repr

/-- An attestation in progress (R387–R391). -/
structure Attest where
  pair : Nat := 0
  reqSeq : Word := 0
  minor : Byte := 0
  addr : Nat := 0
  report : List Byte := []
  deriving DecidableEq, Repr

/-- Identity, licences and access (R381–R399). -/
structure Security where
  level : BitVec 2 := 0
  licence : Option Licence := none
  pwFails : BitVec 3 := 0
  pwLocked : Bool := false
  signReady : Bool := false
  keysErased : Bool := false
  signNext : Word := 0
  signReserved : Word := 0
  /-- The reserved end held in flash, and the highest q used since power came up (R389, R390). -/
  flashReserved : Word := 0
  usedMax : Option Word := none
  treeReady : Bool := true
  attests : List Attest := []
  numHi : Word := 0
  nonce : Tbl Word := []
  nonceMade : Nat := 0
  nonceAt : Option Nat := none
  idHash : List Byte := []
  /-- The JTAG instruction (R394): 0 none yet, 1 BYPASS, 2 IDCODE, 3 SAMPLE/PRELOAD, 4 EXTEST, 5 UNLOCK; its bypass
  register, the boundary cells as preloaded and as driven, and what has left on TDO. -/
  jtag : BitVec 3 := 0
  bypass : Bool := false
  preload : List Bool := []
  pins : List Bool := []
  tdo : List Bool := []
  deriving DecidableEq, Repr

/-- An entry of the field-failure list (R22, R192, R201, R331, R334). -/
inductive FieldFail where
  | core (pc : Nat) | row (st unit : Nat) | port (p pos : Nat) | phase (d n : Nat) | stack (st : Nat)
  deriving DecidableEq, Repr

/-- A training record of a stack channel (R371): its CRC is valid, it was written on this device, the image version that
wrote it, and the stack's temperature then, in 0.25 °C. -/
structure TrainRec where
  crc : Bool := true
  here : Bool := true
  version : Word := 0
  temp : Option Int := none
  deriving DecidableEq, Repr

/-- The flash (R357–R361). -/
structure Flash where
  startCount : Word := 0
  bootB : Bool := false
  fails : List FieldFail := []
  faultCount : Word := 0
  temper : Tbl (Nat × Nat) := []
  rBase : Tbl (BitVec 16) := []
  board : Tbl (Option Word) := []
  boardSet : Bool := false
  /-- The saved training settings of the stack channels, 8 to a stack (R359, R371). -/
  train : Tbl (Option TrainRec) := []
  errlog : Tbl (List Byte) := []
  logNext : Word := 0
  logFirst : Word := 0
  licence : Option Licence := none
  ok0 : Bool := false
  ok1 : Bool := false
  wp : Bool := false
  lastStartFailed : Bool := false
  /-- The physical core whose number a cluster's spare has taken, by cluster (R22, R23). -/
  spareFor : Tbl (Option Nat) := []
  /-- The stack rows listed at the last start (R364). -/
  repairs : Nat := 0
  /-- Version and digest of the images, by slot: 0 A, 1 B (R360). -/
  version : Tbl Word := []
  digest : Tbl (List Byte) := []
  deriving DecidableEq, Repr

/-- A firmware update (R378). -/
structure Update where
  state : BitVec 3 := 0
  version : Word := 0
  digest : List Byte := []
  percent : BitVec 7 := 0
  err : BitVec 8 := 0
  bundle : Bool := false
  deriving DecidableEq, Repr

/-- What is out of use in a physical core: rows and columns as (array code, physical number), banks (R20, R370). -/
structure Steer where
  rows : List (Nat × Nat) := []
  cols : List (Nat × Nat) := []
  banks : List Nat := []
  deriving DecidableEq, Repr

/-- The management complex and starts (R356–R380). -/
structure Mgmt where
  partCode : BitVec 16 := 0
  stepping : BitVec 8 := 0
  tier : BitVec 4 := 0
  kind : BitVec 2 := 0
  stage : BitVec 3 := 0
  imageB : Bool := false
  fallback : Bool := false
  recovery : Bool := false
  failCode : BitVec 8 := 0
  duration : BitVec 16 := 0
  up : BitVec 4 := 0
  primary2 : Bool := false
  standby : Bool := false
  mc0Restarts : BitVec 8 := 0
  takeovers : BitVec 8 := 0
  mc3Restarts : BitVec 8 := 0
  wdFails : Nat := 0
  update : Update := {}
  startedAt : Nat := 0
  /-- Starts in a row that MC0's watchdog ended (R367, R372). -/
  wdStarts : Nat := 0
  /-- A banked restart is to begin (R280, R353); or, as power or two banked restarts failed, a cold one (R365). -/
  bankedDue : Bool := false
  coldNext : Bool := false
  /-- A start that waits for THERM_TRIP_N to release (R353): its kind and what it meets. -/
  waitStart : Option (Nat × Boot) := none
  /-- A banked restart that failed, and when (R365). -/
  bankedFailAt : Option Nat := none
  fwVersion : Word := 0
  fwDigest : List Byte := []
  /-- MINOR_MAX of the firmware (R306). -/
  minorMax : Byte := 0
  faultCause : BitVec 4 := 0
  faultActive : Bool := false
  faultTime : DWord := 0
  faultTimeHi : Word := 0
  /-- Jobs a device-level fault discarded that DEVICE_FAULT has still to report, with their pairs (R280). -/
  faultJobs : List (Nat × Nat) := []
  faultReport : Bool := false
  errSel : Word := 0
  errReady : Bool := false
  errGone : Bool := false
  errPend : Bool := false
  errData : List Byte := []
  defect56 : Bool := false
  /-- The cluster disabled on VXB-5625-L (R3). -/
  defectCluster : Nat := 7
  /-- The signed defect map's spare physical core of a cluster, as 8 less its place 0–8 (R20, R369). -/
  coreSpare : Tbl Nat := []
  /-- The signed defect map's spare positions, by optical engine (R201). -/
  spares : Tbl Nat := []
  /-- The steering in force, by physical core (R20, R369, R370). -/
  steer : Tbl Steer := []
  /-- The physical slice of each stack's nine that carries no logical one, and the crossbar ports out of use (R20, R369). -/
  sliceOut : Tbl Nat := []
  portsOut : List Nat := []
  /-- Scratchpad corrections last logged, by logical core (R415). -/
  corrLogged : Tbl Word := []
  /-- When MC0 last looked at the correction counts. -/
  corrAt : Nat := 0
  deriving DecidableEq, Repr

/-! ### Power, clocks, heat, pins -/

/-- The states of a power domain (R328). -/
inductive DomSt where
  | off | retention | on | dark
  deriving DecidableEq, Repr

/-- A power domain (R321–R337) with a core domain's clock (R340–R344, R354). -/
structure Domain where
  st : DomSt := .off
  /-- The output's target in mV; where it stood, and when, as the target was set: it goes there at 10 mV per µs (R341). -/
  vMv : BitVec 10 := 0
  slewFrom : BitVec 10 := 0
  slewAt : Nat := 0
  amps : BitVec 8 := 0
  phases : BitVec 5 := 0
  crack : Bool := false
  short : Bool := false
  margin : BitVec 6 := 0x28
  vfit : BitVec 10 := 0
  /-- What Temper has added to the defect map's V_fit, in mV (R327). -/
  trim : Nat := 0
  /-- Temper's changes that wait for a Bellows notice to pass: mV of trim and of margin (R327). -/
  oweTrim : Nat := 0
  oweMargin : Nat := 0
  rBase : BitVec 16 := 0
  rNow : BitVec 16 := 0
  /-- Shunt closed, clamp sinking (R324). -/
  shunt : Bool := false
  /-- When the shunt's path closed. -/
  shuntAt : Nat := 0
  clampOn : Bool := false
  /-- Every Temper reading of the hour showed the guard slack; readings in it (R327). -/
  hourOk : Bool := true
  readings : Nat := 0
  /-- When the ageing monitors were last read, and when the hour began (R327). -/
  readAt : Option Nat := none
  hourAt : Nat := 0
  /-- When MC0 last assessed the step (R349). -/
  policyAt : Nat := 0
  /-- Switch-on: asked at, granted, notices of neighbours withheld (R330). -/
  askedAt : Option Nat := none
  granted : Option Nat := none
  withheld : Bool := false
  fstep : BitVec 4 := 0
  ftarget : BitVec 4 := 0
  pending : Bool := false
  /-- The step the clock takes once its raised output is there, and whether the output's way belongs to a change of step
  (R341). -/
  raiseTo : Option (BitVec 4) := none
  stepSlew : Bool := false
  droopAt : Option Nat := none
  stretches : Word := 0
  ffit : BitVec 4 := 0
  bTh : BitVec 10 := 0
  /-- Since when b_th has been above zero, T at or below THROTTLE − 5, at or above HOT_C, at or below
  THROTTLE − 10 (R349, R351). -/
  hotSince : Option Nat := none
  coolSince : Option Nat := none
  parkSince : Option Nat := none
  unparkSince : Option Nat := none
  parkPending : Bool := false
  parked : Bool := false
  deriving DecidableEq, Repr

/-- Device-wide power (R326, R336). -/
structure Power where
  inputW : BitVec 14 := 0
  bubble : BitVec 10 := 0
  peak : Bool := false
  tilesBad : BitVec 16 := 0
  tiles : BitVec 5 := 0
  /-- PWR_TILE_t_STAT.OUT_W by tile. -/
  tileW : Tbl (BitVec 10) := []
  inputMv : BitVec 16 := 0
  /-- Input energy in µJ since start, and µs with b > 0. -/
  energyUj : Nat := 0
  damperUs : DWord := 0
  energyHi : Word := 0
  damperHi : Word := 0
  domains : Tbl Domain := []
  /-- Damper's latest sample and MC0's latest saving of the margins. -/
  sampledAt : Option Nat := none
  savedAt : Nat := 0
  alwaysOn : Bool := true
  deriving DecidableEq, Repr

/-- Clocks and time (R338–R346, R354). -/
structure Clock where
  /-- Device time in ns. -/
  now : Nat := 0
  refLost : BitVec 4 := 0
  everLost : BitVec 4 := 0
  optLostAt : Nat := 0
  /-- CLK_TIME_HI and CLK_TIME_FRAC as latched. -/
  timeHi : Word := 0
  timeFracLatched : BitVec 16 := 0
  maxErr : BitVec 8 := 0
  steps : BitVec 8 := 0
  /-- Each region's counter less the management region's time, in 2⁻¹⁶ ns (R345, R346), by region:
  0–71 cores, 72–79 uncores, 80–87 transport, 88 CXL. -/
  skew : Tbl Int := []
  deriving DecidableEq, Repr

/-- Heat and coolant (R347–R355). -/
structure Thermal where
  /-- THM_SENSE_i: VALID and TEMP. -/
  sense : Tbl (BitVec 12) := []
  calderaMax : BitVec 8 := 0
  stackMax : BitVec 8 := 0
  oeMax : BitVec 8 := 0
  trip : Bool := false
  tripLatched : Bool := false
  coolantOk : Bool := false
  /-- The filter: the deassertion being filtered began then. -/
  fallAt : Option Nat := none
  riseAt : Option Nat := none
  quenched : Bool := false
  quenchActive : Bool := false
  glitch : Word := 0
  /-- Sensors whose invalid reading has been logged (R348). -/
  badLogged : Tbl Bool := []
  /-- Fields that lost their uncore sensors (R348). -/
  blind : BitVec 8 := 0
  deriving DecidableEq, Repr

/-- Pins, supplies and the sideband (R421–R428). -/
structure Pins where
  perstN : Bool := false
  pwrGood : Bool := false
  coolantOk : Bool := false
  vddio33 : Bool := true
  vddio18 : Bool := true
  vinOk : Bool := true
  smbSel : Option (BitVec 32) := none
  smbMirror : Tbl Word := []
  smbMirrorAt : Nat := 0
  smbOut : List Byte := []
  smbNak : Bool := false
  /-- The transaction carries PEC. -/
  smbPec : Bool := false
  smbAddr : BitVec 2 := 0
  deriving DecidableEq, Repr

/-- The whole part, and the commands that wait, first in first out. -/
structure State where
  cores : Tbl Core := []
  mem : Mem := {}
  ports : Tbl Port := []
  optics : Tbl Optic := []
  fab : Fabric := {}
  host : HostIf := {}
  jobs : Jobs := {}
  cfg : Config := {}
  sec : Security := {}
  flash : Flash := {}
  mgmt : Mgmt := {}
  pwr : Power := {}
  clk : Clock := {}
  thm : Thermal := {}
  pins : Pins := {}
  /-- The model's own counter of free values taken (Config). -/
  free : Nat := 0
  pending : List Instr := []
  deriving DecidableEq, Repr

/-- The part right after reset: every register at the reset value its table gives (R13 tables), nothing
listed in any table, no power domain on, no command waiting. -/
def State.reset : State := {}

end Sys2Proof.Machine
end

