-- ==== Sys2Proof/Machine/Ops.lean ====
section
/-! DEFINITION. Named operations over the state: access to cores, engines, queues and segments; reads and
writes of the scratchpad with its error codes, poison marks and refusals (R130, R131, R152–R160); the queue
discipline (R101–R103); stall counters (R142). -/

namespace Sys2Proof.Machine

/-- The outcome type of every meaning. -/
abbrev Res := Host.Outcome State Fault Refusal

/-! ### Access -/

/-- A logical core. -/
def State.core (s : State) (lc : Nat) : Core := Tbl.get {} s.cores lc
/-- Put a logical core. -/
def State.setCore (s : State) (lc : Nat) (c : Core) : State := { s with cores := Tbl.set {} s.cores lc c }
/-- Change a logical core. -/
def State.onCore (s : State) (lc : Nat) (f : Core → Core) : State := s.setCore lc (f (s.core lc))
/-- Change a core's sequencer. -/
def State.onSeq (s : State) (lc : Nat) (f : Sequencer → Sequencer) : State :=
  s.onCore lc (fun c => { c with seq := f c.seq })
/-- Change a core's scratchpad. -/
def State.onScp (s : State) (lc : Nat) (f : Scratch → Scratch) : State :=
  s.onCore lc (fun c => { c with scp := f c.scp })
/-- Change a core's integrity registers. -/
def State.onInteg (s : State) (lc : Nat) (f : Integrity → Integrity) : State :=
  s.onCore lc (fun c => { c with integ := f c.integ })

/-- An engine's stream. -/
def Sequencer.eng (q : Sequencer) (e : Eng) : Engine := Tbl.get {} q.engines e.code
/-- Change an engine's stream. -/
def Sequencer.onEng (q : Sequencer) (e : Eng) (f : Engine → Engine) : Sequencer :=
  { q with engines := Tbl.upd {} q.engines e.code f }
/-- An engine of a core. -/
def State.eng (s : State) (lc : Nat) (e : Eng) : Engine := (s.core lc).seq.eng e
/-- Change an engine of a core. -/
def State.onEng (s : State) (lc : Nat) (e : Eng) (f : Engine → Engine) : State :=
  s.onSeq lc (fun q => q.onEng e f)

/-- A queue. -/
def Sequencer.queue (q : Sequencer) (n : Nat) : Queue := Tbl.get {} q.queues n
/-- Change a queue. -/
def Sequencer.onQueue (q : Sequencer) (n : Nat) (f : Queue → Queue) : Sequencer :=
  { q with queues := Tbl.upd {} q.queues n f }
/-- Change a queue of a core. -/
def State.onQueue (s : State) (lc n : Nat) (f : Queue → Queue) : State := s.onSeq lc (fun q => q.onQueue n f)
/-- A segment's registers. -/
def Sequencer.seg (q : Sequencer) (n : Nat) : Seg := Tbl.get {} q.segs n
/-- A group of a core. -/
def Sequencer.grp (q : Sequencer) (g : BitVec 12) : Group := Tbl.get {} q.groups g.toNat
/-- Change a group. -/
def Sequencer.onGrp (q : Sequencer) (g : BitVec 12) (f : Group → Group) : Sequencer :=
  { q with groups := Tbl.upd {} q.groups g.toNat f }
/-- A window. -/
def Sequencer.win (q : Sequencer) (w : BitVec 12) : Window := Tbl.get {} q.windows w.toNat
/-- Change a window. -/
def Sequencer.onWin (q : Sequencer) (w : BitVec 12) (f : Window → Window) : Sequencer :=
  { q with windows := Tbl.upd {} q.windows w.toNat f }

/-- An array of a core. -/
def Core.array (c : Core) : Arr → ArrayU
  | .f => c.arrF | .g0 => c.arrG0 | .g1 => c.arrG1
/-- Change an array. -/
def Core.onArray (c : Core) (a : Arr) (f : ArrayU → ArrayU) : Core :=
  match a with
  | .f => { c with arrF := f c.arrF }
  | .g0 => { c with arrG0 := f c.arrG0 }
  | .g1 => { c with arrG1 := f c.arrG1 }
/-- Change an array of a core. -/
def State.onArray (s : State) (lc : Nat) (a : Arr) (f : ArrayU → ArrayU) : State :=
  s.onCore lc (fun c => c.onArray a f)

/-- A power domain (R321): 0–71 physical cores, 72–79 field uncores, 80–87 transport, 88 management. -/
def State.dom (s : State) (d : Nat) : Domain := Tbl.get {} s.pwr.domains d
/-- Change a power domain. -/
def State.onDom (s : State) (d : Nat) (f : Domain → Domain) : State :=
  { s with pwr := { s.pwr with domains := Tbl.upd {} s.pwr.domains d f } }
/-- A port. -/
def State.port (s : State) (p : Nat) : Port := Tbl.get {} s.ports p
/-- Change a port. -/
def State.onPort (s : State) (p : Nat) (f : Port → Port) : State := { s with ports := Tbl.upd {} s.ports p f }
/-- A slice. -/
def State.slice (s : State) (n : Nat) : Slice := Tbl.get {} s.mem.slices n
/-- Change a slice. -/
def State.onSlice (s : State) (n : Nat) (f : Slice → Slice) : State :=
  { s with mem := { s.mem with slices := Tbl.upd {} s.mem.slices n f } }
/-- A memory stack. -/
def State.stk (s : State) (n : Nat) : Stack := Tbl.get {} s.mem.stks n
/-- Change a memory stack. -/
def State.onStk (s : State) (n : Nat) (f : Stack → Stack) : State :=
  { s with mem := { s.mem with stks := Tbl.upd {} s.mem.stks n f } }
/-- A flow context. -/
def State.flow (s : State) (n : Nat) : Flow := Tbl.get {} s.fab.flows n
/-- Change a flow context. -/
def State.onFlow (s : State) (n : Nat) (f : Flow → Flow) : State :=
  { s with fab := { s.fab with flows := Tbl.upd {} s.fab.flows n f } }
/-- A mailbox pair. -/
def State.pair (s : State) (n : Nat) : Pair := Tbl.get {} s.host.pairs n
/-- Change a mailbox pair. -/
def State.onPair (s : State) (n : Nat) (f : Pair → Pair) : State :=
  { s with host := { s.host with pairs := Tbl.upd {} s.host.pairs n f } }
/-- A job context. -/
def State.job (s : State) (n : Nat) : Job := Tbl.get {} s.jobs.jobs n
/-- Change a job context. -/
def State.onJob (s : State) (n : Nat) (f : Job → Job) : State :=
  { s with jobs := { s.jobs with jobs := Tbl.upd {} s.jobs.jobs n f } }
/-- A scheduling queue. -/
def State.squeue (s : State) (n : Nat) : SQueue := Tbl.get {} s.jobs.queues n
/-- Change a scheduling queue. -/
def State.onSQueue (s : State) (n : Nat) (f : SQueue → SQueue) : State :=
  { s with jobs := { s.jobs with queues := Tbl.upd {} s.jobs.queues n f } }

/-- The time of an event: device time never runs backwards. -/
def State.at_ (s : State) (t : Nat) : State := { s with clk := { s.clk with now := max s.clk.now t } }

/-- Take a fresh free value. -/
def State.fresh (s : State) : BitVec 64 × State := (Config.freeValue s.free, { s with free := s.free + 1 })

/-! ### Staged registers (R403) -/

/-- The applied copy of a staged register at a BAR0 offset, its reset value given (R403). -/
def State.applied (s : State) (off : Nat) (reset : Word) : Word :=
  (Tbl.get none s.cfg.applied off).getD reset

/-- The value a unit runs on: until it has adopted an apply, the value it had (R406, R409). -/
def State.inForce (s : State) (off : Nat) (reset : Word) : Word :=
  match s.cfg.active with
  | some a => (Tbl.get none a.former off).getD (s.applied off reset)
  | none => s.applied off reset

/-- Has a register been applied whose unit has still to adopt it. -/
def State.toAdopt (s : State) (off : Nat) : Bool :=
  match s.cfg.active with
  | some a => (Tbl.get none a.former off).isSome
  | none => false

/-! ### Errors (R97, R413) -/

/-- The error codes. -/
def eOpcode : Nat := 0x01
def eVersion : Nat := 0x02
def eReserved : Nat := 0x03
def eOperand : Nat := 0x04
def eQueueOwner : Nat := 0x05
def eQueueMode : Nat := 0x06
def eQueueBusy : Nat := 0x07
def eDescriptor : Nat := 0x08
def eBound : Nat := 0x09
def ePerm : Nat := 0x0A
def eShape : Nat := 0x0B
def eFormatPair : Nat := 0x0C
def eNotLicensed : Nat := 0x0D
def eGatherIndex : Nat := 0x0E
def eAlign : Nat := 0x0F
def ePair : Nat := 0x10
def eLoop : Nat := 0x11
def eWaitTimeout : Nat := 0x12
def eCodeModified : Nat := 0x20
def eCodeBound : Nat := 0x21
def eCheckFail : Nat := 0x22
def ePoison : Nat := 0x23
def eAddress : Nat := 0x24
def eWindowClosed : Nat := 0x25
def eWindowSource : Nat := 0x26
def eWindowRange : Nat := 0x27
def eGroupOverflow : Nat := 0x28
def eGroupAborted : Nat := 0x29
def eJobEnded : Nat := 0x2A
def eCoreDark : Nat := 0x2B
def eHostUnreachable : Nat := 0x2C
def eFlowLost : Nat := 0x30
def eFlowTableFull : Nat := 0x31
def ePeerNoJob : Nat := 0x32
def ePeerUnreachable : Nat := 0x33
def eFabricLimit : Nat := 0x34
def eCollTableFull : Nat := 0x35
def eNotReady : Nat := 0x40
def eNoLicence : Nat := 0x41
def eCoreAbsent : Nat := 0x42
def eHostAbsent : Nat := 0x43
def eJobTableFull : Nat := 0x44
def eJobUnknown : Nat := 0x45
def eJobNotOwned : Nat := 0x46
def eJobBusy : Nat := 0x47
def eJobIdle : Nat := 0x48
def eJobTagInUse : Nat := 0x49
def eContextFormat : Nat := 0x4A
def eSegOverlap : Nat := 0x4B
def eQueueTableFull : Nat := 0x4C
def eMbxIndex : Nat := 0x50
def eMbxVersion : Nat := 0x51
def eMbxLength : Nat := 0x52
def eMbxCrc : Nat := 0x53
def eMbxType : Nat := 0x54
def eMbxPriv : Nat := 0x55
def eMbxRange : Nat := 0x56
def eConfigRejected : Nat := 0x58
def eImageFormat : Nat := 0x60
def eImageSignature : Nat := 0x61
def eImagePart : Nat := 0x62
def eFlashWrite : Nat := 0x63
def eLicenceFormat : Nat := 0x68
def eLicenceSignature : Nat := 0x69
def eLicenceBinding : Nat := 0x6A
def eLicenceStale : Nat := 0x6B
def eAccessDenied : Nat := 0x70
def eAccessLocked : Nat := 0x71
def eAccessOpen : Nat := 0x72
def eIdentityExhausted : Nat := 0x73

/-! ### Descriptors and footprints (R98–R100) -/

/-- Bits per element of a FMT code (R99). -/
def fmtBits : Nat → Nat
  | 0 => 32 | 1 => 16 | 2 => 16 | 3 => 8 | 4 => 8 | 5 => 6 | 6 => 6 | 7 => 4 | 8 => 8 | _ => 32

/-- Words of a packed row (R100). -/
def packedWords (fmt cols : Nat) : Nat := ceilDiv (cols * fmtBits fmt) 32

/-- Words of one row of scales (R100). -/
def scaleWords (fmt cols : Nat) : Nat := if isMx fmt then ceilDiv (cols / 32) 4 else 0

/-- Words from one row's start to the next (R98). -/
def Desc.step (d : Desc) : Nat := if d.stride = 0 then packedWords d.fmt d.cols else d.stride

/-- First word of the scale array, relative to the segment (R100). -/
def Desc.scaleOff (d : Desc) : Nat := d.off + d.rows * d.step

/-- The element extent as one run when packed, as a run per row when strided (R100). -/
def Desc.elemRuns (d : Desc) : List (Nat × Nat) :=
  let p := packedWords d.fmt d.cols
  if d.stride = 0 then [(d.off, d.rows * p)] else (List.range d.rows).map (fun r => (d.off + r * d.stride, p))

/-- The scale extent. -/
def Desc.scaleRuns (d : Desc) : List (Nat × Nat) :=
  if isMx d.fmt then [(d.scaleOff, d.rows * scaleWords d.fmt d.cols)] else []

/-- The footprint (R100), in words relative to the segment's base. -/
def Desc.runs (d : Desc) : List (Nat × Nat) := d.elemRuns ++ d.scaleRuns

/-- The end of the footprint, in words relative to the segment's base (R100). -/
def Desc.top (d : Desc) : Nat :=
  let p := packedWords d.fmt d.cols
  let e := if d.stride = 0 then d.off + d.rows * p else d.off + (d.rows - 1) * d.stride + p
  if isMx d.fmt then max e (d.scaleOff + d.rows * scaleWords d.fmt d.cols) else e

/-- Words a packed tile needs (R104). -/
def tileWords (fmt rows cols : Nat) : Nat := rows * packedWords fmt cols + rows * scaleWords fmt cols

/-- Permission bits of SCP_SEG_s_ATTR (R152). -/
def permRead : Nat := 1
def permWrite : Nat := 2
def permExec : Nat := 4
def permWindow : Nat := 8

/-- The check of an extent against its segment: bound before permission (R154). -/
def Sequencer.extentErr (q : Sequencer) (seg top perm : Nat) : Option Nat :=
  let g := q.seg seg
  if top > g.bound.toNat then some eBound
  else if g.attr.toNat &&& perm ≠ perm then some ePerm
  else none

/-- Does a segment use the durable code (R152). -/
def Sequencer.durable (q : Sequencer) (seg : Nat) : Bool := bit (q.seg seg).attr 4

/-- The absolute word runs of a footprint. -/
def Sequencer.absRuns (q : Sequencer) (seg : Nat) (rs : List (Nat × Nat)) : List (Nat × Nat) :=
  rs.map (fun (a, n) => ((q.seg seg).base.toNat + a, n))

/-- Do two word runs overlap. -/
def runsMeet (a b : Nat × Nat) : Bool := a.1 < b.1 + b.2 && b.1 < a.1 + a.2
/-- Do two footprints overlap. -/
def footMeet (a b : List (Nat × Nat)) : Bool := a.any (fun x => b.any (runsMeet x))

/-! ### The scratchpad -/

/-- The code words (of 8 words) that a word run touches (R155). -/
def runCws (r : Nat × Nat) : List Nat :=
  if r.2 = 0 then [] else (List.range ((r.1 + r.2 - 1) / 8 + 1 - r.1 / 8)).map (· + r.1 / 8)

/-- A code word's poison bit, as the majority of its copies gives it (R155). -/
def Scratch.poisoned (m : Scratch) (cw : Nat) : Bool :=
  let f : Flips := Tbl.get 0 m.flips cw
  if f = 0 then Tbl.get false m.poison cw else Tbl.get false m.poison cw != majority f 291

/-- A code word's stored tag. -/
def Scratch.tag (m : Scratch) (cw : Nat) : Bool :=
  let f : Flips := Tbl.get 0 m.flips cw
  if f = 0 then Tbl.get false m.durable cw else Tbl.get false m.durable cw != majority f 288

/-- What a read of a code word decodes. -/
def Scratch.decoded (m : Scratch) (cw : Nat) : Decoded :=
  let f : Flips := Tbl.get 0 m.flips cw
  if f = 0 then .clean else decodeWord (Tbl.get false m.durable cw) f

/-- What a read of a code word delivers differs from what was written by this. -/
def Scratch.residue (m : Scratch) (cw : Nat) : BitVec 256 :=
  match m.wbPend.find? (fun x => x.1 == cw) with
  | some x => x.2
  | none =>
    match m.decoded cw with
    | .clean => 0
    | .corrected r => r
    | .silent r => r
    | .uncorrectable => (Tbl.get (0 : Flips) m.flips cw).extractLsb' 0 256

/-- The 32 bytes of a code word change by a difference. -/
def Scratch.flipBytes (m : Scratch) (cw : Nat) (r : BitVec 256) : Scratch :=
  if r = 0 then m
  else { m with bytes := upto (fun t i => Memory.write t (32 * cw + i) (Memory.read t (32 * cw + i) ^^^ BitVec.ofNat 8 (fld r (8 * i) 8))) m.bytes 32 }

/-- A code word is stored afresh with a tag and a poison bit: its check field is whole again, and a correction that waited is
cancelled (R155, R158). -/
def Scratch.seal (m : Scratch) (cw : Nat) (durable poison : Bool) : Scratch :=
  { m with
    durable := Tbl.set false m.durable cw durable
    poison := Tbl.set false m.poison cw poison
    flips := Tbl.set 0 m.flips cw 0
    wbPend := m.wbPend.filter (fun x => x.1 != cw) }

/-- What a read of a code word delivers is written back under its stored tag (R155, R158). -/
def Scratch.restore (m : Scratch) (cw : Nat) (poison : Bool) : Scratch :=
  (m.flipBytes cw (m.residue cw)).seal cw (m.tag cw) poison

/-- A bank's read of one code word (R158): a correction, its count and its pending write-back, or poisoning in place; answers
whether the word is delivered poisoned. -/
def Scratch.touch (m : Scratch) (cw : Nat) : Scratch × Bool :=
  let last (u : Bool) (m : Scratch) : Scratch :=
    { m with eccLast := BitVec.ofNat 23 (cw * 8), eccLastUncorr := u, eccLastCode := m.tag cw }
  if m.wbPend.any (fun x => x.1 == cw) then (m, m.poisoned cw)
  else
    match m.decoded cw with
    | .clean | .silent _ => (m, m.poisoned cw)
    | .corrected r => (last false { m with eccCorr := satInc m.eccCorr, wbPend := m.wbPend ++ [(cw, r)] }, m.poisoned cw)
    | .uncorrectable => ((last true { m with eccUncorr := satInc m.eccUncorr }).restore cw true, true)

/-- An upset strikes a code word's stored bits. -/
def Scratch.strike (m : Scratch) (cw : Nat) (f : Flips) : Scratch :=
  { m with flips := Tbl.upd 0 m.flips cw (fun (g : Flips) => g ^^^ f) }

/-- Read several code words, in order. -/
def Scratch.touchAll (m : Scratch) (cws : List Nat) : Scratch := cws.foldl (fun m cw => (m.touch cw).1) m

/-- A byte with the poison mark it carries. -/
abbrev MB := Byte × Bool

/-- One byte as the banks deliver it, with its mark. -/
def Scratch.byte (m : Scratch) (a : Nat) : MB :=
  let r := m.residue (a / 32)
  (if r = 0 then Memory.read m.bytes a else Memory.read m.bytes a ^^^ BitVec.ofNat 8 (fld r (8 * (a % 32)) 8), m.poisoned (a / 32))

/-- Read word runs: the data with each byte's mark, and the banks after the read. -/
def Scratch.read (m : Scratch) (rs : List (Nat × Nat)) : List MB × Scratch :=
  let m := m.touchAll (rs.flatMap runCws)
  (rs.flatMap (fun (a, n) => (List.range (4 * n)).map (fun i => m.byte (4 * a + i))), m)

/-- Bytes without their marks. -/
def mbBytes (l : List MB) : List Byte := l.map (·.1)
/-- Is any byte marked. -/
def mbPoison (l : List MB) : Bool := l.any (·.2)
/-- Bytes under one mark. -/
def mbMark (p : Bool) (l : List Byte) : List MB := l.map (fun b => (b, p))

/-- One code word under a write of bytes [a, a+n): whole words take the data's mark, partly written ones are read and merged
first and also keep their own (R155, R158, R159). -/
def Scratch.closeWord (durable : Bool) (a : Nat) (data : List MB) (m : Scratch) (cw : Nat) : Scratch :=
  let mark := ((data.drop (32 * cw - a)).take (32 * cw + 32 - max a (32 * cw))).any (·.2)
  if a ≤ 32 * cw ∧ 32 * cw + 32 ≤ a + data.length then m.seal cw durable mark
  else
    let (m, old) := m.touch cw
    (m.flipBytes cw (m.residue cw)).seal cw durable (old || mark)

/-- Write one run of bytes at byte address `a`. -/
def Scratch.writeRun (durable : Bool) (a : Nat) (data : List MB) (m : Scratch) : Scratch :=
  if data.isEmpty then m
  else
    let cws := (List.range ((a + data.length - 1) / 32 + 1 - a / 32)).map (· + a / 32)
    let m := cws.foldl (Scratch.closeWord durable a data) m
    { m with bytes := Mem.writeN m.bytes a (mbBytes data) }

/-- Poison every code word that word runs touch (R169). -/
def Scratch.poisonRuns (m : Scratch) (rs : List (Nat × Nat)) : Scratch :=
  (rs.flatMap runCws).foldl (fun m cw => m.restore cw true) m

/-- The active code regions of a task's engines in absolute words (R125, R130). -/
def codeRegions (engines : Tbl Engine) (segs : Tbl Seg) : List (Nat × Nat) :=
  (List.range 10).filterMap (fun e =>
    let g : Engine := Tbl.get {} engines e
    if g.status = .noStream ∨ (g.status = .stopped ∧ g.begun = []) then none
    else some ((Tbl.get {} segs g.seg : Seg).base.toNat + g.off, g.bound))

/-- The active code regions of a core: its task's, and those of the preempted tasks it holds, whose fetch has left none. -/
def Sequencer.activeCode (q : Sequencer) : List (Nat × Nat) :=
  codeRegions q.engines q.segs ++ q.saved.flatMap (fun v => codeRegions v.engines v.segs)

/-- The sections word runs lie in (R170). -/
def runSections (rs : List (Nat × Nat)) : List Nat :=
  (List.range 6).filter (fun k => rs.any (fun r => runsMeet r (k * 1048576, 1048576)))

/-- Sections among these that are not On (R172). -/
def Scratch.asleep (m : Scratch) (ks : List Nat) : List Nat :=
  ks.filter (fun k => Tbl.get 0 m.sect k != 0 || Tbl.get false m.waking k)

/-- Begin waking sections (R172). -/
def Scratch.wake (m : Scratch) (ks : List Nat) : Scratch :=
  ks.foldl (fun m k => { m with waking := Tbl.set false m.waking k true }) m

/-- `n` times 8 bytes of V's registers take free values, from a byte on. -/
def State.freeRegs (s : State) (lc base n : Nat) : State :=
  let k := s.free
  { s with free := k + n }.onScp lc (fun m =>
    { m with vregs := (List.range n).foldl (fun v i =>
        Mem.writeN v (base + 8 * i) (toLE 8 (Config.freeValue (k + i)).toNat)) m.vregs })

/-- Pending extents of other groups than `g`, a preempted task's among them, that a footprint overlaps (R169, R376). -/
def Scratch.blocked (m : Scratch) (g : Option (BitVec 12)) (rs : List (Nat × Nat)) : Bool :=
  m.pend.any (fun x => some x.grp != g && footMeet x.words rs) || m.away.any (fun x => footMeet x.2.words rs)

/-! ### Queues (R101–R103) -/

/-- Is a queue off. -/
def Queue.off? (q : Queue) : Bool := q.mode == 3

/-- The entry at the head: the first that no consumer holds. -/
def Queue.head (q : Queue) : Option QEntry :=
  q.entries.find? (fun e => e.st != .held && e.st != .heldProv)

/-- Change the entry with an identity. -/
def Queue.onEntry (q : Queue) (id : Nat) (f : QEntry → QEntry) : Queue :=
  { q with entries := q.entries.map (fun e => if e.id = id then f e else e) }

/-- Can a producer reserve an entry beyond `k` others it is to take first; a ring's slots go in ring order (R102). -/
def Queue.canTake (q : Queue) (k : Nat) : Bool :=
  !q.off? && decide (q.entries.length + k < q.depth)
    && (q.mode != 1 || !(q.entries.any (fun e => e.slot == (q.next + k) % q.depth)))

/-- Can a producer reserve an entry (R102). -/
def Queue.canReserve (q : Queue) : Bool := q.canTake 0

/-- Add an entry in a state; a ring takes its slots in ring order. -/
def Queue.add (q : Queue) (d : Desc) (st : EntrySt) : Queue :=
  { q with
    entries := q.entries ++ [{ id := q.made, slot := q.next, desc := d, st := st }]
    made := q.made + 1
    next := if q.depth = 0 then 0 else (q.next + 1) % q.depth }

/-- The descriptor of a ring's next slot (R104). -/
def Queue.slotDesc (q : Queue) (fmt rows cols : Nat) (g : Option (BitVec 12)) : Desc :=
  { off := q.off + q.next * q.slotWords, seg := q.seg, fmt := fmt, rows := rows, cols := cols, grp := g }

/-- A Reserved entry and every later Reserved one go back to Free (R102). -/
def Queue.unreserve (q : Queue) (id : Nat) : Queue :=
  match q.entries.find? (fun e => e.id == id && e.st == .reserved) with
  | none => q
  | some e =>
    { q with
      entries := q.entries.filter (fun x => !(x.st == .reserved && x.id ≥ id))
      next := if q.mode = 1 then e.slot else q.next }

/-- A consumer pops an entry: it is Held until released. -/
def Queue.pop (q : Queue) (id : Nat) : Queue :=
  q.onEntry id (fun e => { e with st := if e.st = .placed then .heldProv else .held, holds := e.holds + 1 })

/-- A KEEP read places a hold (R103). -/
def Queue.keep (q : Queue) (id : Nat) : Queue := q.onEntry id (fun e => { e with holds := e.holds + 1 })

/-- One hold on an entry clears; a popped entry with none left becomes Free (R102, R103). -/
def Queue.release (q : Queue) (id : Nat) : Queue :=
  let q := q.onEntry id (fun e => { e with holds := e.holds - 1 })
  { q with entries := q.entries.filter (fun e => !(e.id == id && e.st == .held && e.holds == 0)) }

/-- Entries in a state. -/
def Queue.count (q : Queue) (p : EntrySt → Bool) : Nat := (q.entries.filter (fun e => p e.st)).length

/-- Is the entry's tile in a pending extent of a group other than `g` (R169). -/
def Core.hidden (c : Core) (qn : Nat) (e : QEntry) (g : Option (BitVec 12)) : Bool :=
  c.scp.pend.any (fun x => x.entry == some (qn, e.id) && some x.grp != g)

/-! ### Stalls (R142) and where a task stops (R140) -/

/-- Count array cycles under a cause. -/
def Sequencer.stallBy (q : Sequencer) (e : Eng) (cause n : Nat) : Sequencer :=
  { q with stalls := Tbl.upd 0 q.stalls (11 * e.code + cause) (fun w => satAdd w n) }

/-- Count one array cycle under a cause. -/
def Sequencer.stall (q : Sequencer) (e : Eng) (cause : Nat) : Sequencer := q.stallBy e cause 1

/-- A core's time counter in ns, which measures its waits (R343, R345). -/
def State.coreNs (s : State) (lc : Nat) : Nat :=
  (((s.clk.now : Int) * 65536 + Tbl.get 0 s.clk.skew (s.core lc).phys.toNat) / 65536).toNat

/-- A wait with only its remaining time: what a dump shows and a preemption saves (R137, R146). -/
def Wait.left (now : Nat) (w : Wait) : Wait := { w with since := 0, limit := w.since + w.limit - now }

/-- The other engines of a stopping task abandon their waits; the rest finish what they have begun (R140). -/
def Sequencer.abandonWaits (q : Sequencer) (now : Nat) : Sequencer :=
  (List.range 10).foldl (fun q e =>
    let g : Engine := Tbl.get {} q.engines e
    if g.status = .running ∧ g.wait.isSome then
      { q with engines := Tbl.set {} q.engines e { g with status := .waitAbandoned, wait := g.wait.map (Wait.left now) } }
    else q) q

/-- The task stops; the first cause stands (R96, R131, R140, R144). -/
def Sequencer.stopTask (q : Sequencer) (now : Nat) (c : StopCause) : Sequencer :=
  match q.task with
  | none => q
  | some t =>
    let q := { q with task := some { t with stop := some (t.stop.getD c) } }
    q.abandonWaits now

/-- Is an error of the task recorded: the first one, and not after a cancel or the stop count (R97, R317). -/
def Sequencer.recordsError (q : Sequencer) : Bool :=
  !bit q.errInfo 12 &&
    (match q.task with
     | some t =>
       (match t.stop with
        | some .cancel => false
        | some (.stopCount _) => false
        | _ => true)
     | none => true)

/-- A stream stops with an error: SEQ_ERR_INFO and SEQ_ERR_CMD take the first (R97). -/
def Sequencer.failStream (q : Sequencer) (now : Nat) (e : Eng) (code : Nat) (index : Word) : Sequencer :=
  let first := q.recordsError
  let q := q.onEng e (fun g => { g with status := .error, wait := none })
  let q := if first then
      { q with errInfo := BitVec.ofNat 32 (code + 256 * e.code + 4096), errCmd := index }
    else q
  q.stopTask now (.error code e.code index)

/-- A refused fabric write stops the task with E_CODE_MODIFIED, engine code 0xA (R131). -/
def Sequencer.failFabric (q : Sequencer) (now : Nat) (code : Nat) : Sequencer :=
  let first := q.recordsError
  let q := if first then { q with errInfo := BitVec.ofNat 32 (code + 256 * 0xA + 4096), errCmd := 0 } else q
  q.stopTask now (.error code 0xA 0)

/-- The first cause that stops one of a job's tasks stands for the job (R317). -/
def State.noteStop (s : State) (lc : Nat) : State :=
  match (s.core lc).seq.task with
  | none => s
  | some t =>
    match t.stop with
    | none => s
    | some c => s.onJob t.job (fun x => if x.stopped.isNone then { x with stopped := some c, stopCore := lc } else x)

/-- A stream stops with an error at the command whose place in the stream is given (R97). -/
def State.failAt (s : State) (lc : Nat) (e : Eng) (code : Nat) (index : Word) : State :=
  (s.onSeq lc (fun q => q.failStream (s.coreNs lc) e code index)).noteStop lc

/-- A stream stops with an error at the command it has come to: all it has begun stand before it (R97, R136). -/
def State.failStream (s : State) (lc : Nat) (e : Eng) (code : Nat) : State :=
  s.failAt lc e code (satAdd 0 ((s.core lc).seq.eng e).begunCount)

/-- A stream stops with an error of a command it has begun, the last one unless a serial number names another. -/
def State.failBegun (s : State) (lc : Nat) (e : Eng) (code : Nat) (serial : Option Nat) : State :=
  s.failAt lc e code (satAdd 0 (serial.getD (((s.core lc).seq.eng e).begunCount - 1)))

/-- The node identifier of this device (R223): OFT_NODE.NODE, applied copy. -/
def State.nodeId (s : State) : BitVec 18 := BitVec.ofNat 18 (fld (s.applied 0x03040000 0) 0 18)
/-- OFT_NODE.VALID: without it no flow is set up (R253). -/
def State.nodeValid (s : State) : Bool := bit (s.applied 0x03040000 0) 31

/-! ### Licence (R6, R7) -/

/-- Does the tier in force have training features: T or D (R6). -/
def State.training (s : State) : Bool := s.mgmt.tier == 1 || s.mgmt.tier == 3

end Sys2Proof.Machine
end

