-- ==== Sys2Proof/Machine/Frames.lean ====
section
/-! DEFINITION. The frames a port sends: its addresses and the node's (R207, R221, R223), checksums (R208), headers (R207,
R209, R223, R225), and the egress classes (R209). -/

namespace Sys2Proof.Machine

/-! ### Addresses -/

/-- BAR0 offset of a port's block. -/
def portBase (p : Nat) : Nat := 0x03000000 + 0x100 * p

/-- TE_PORT_p_CTL, applied copy, and its reset value (R221). -/
def State.portCtl (s : State) (p : Nat) : Word := s.applied (portBase p + 4) 0x77000005
/-- A port's egress classes (R209). -/
def State.oftClass (s : State) (p : Nat) : Nat := fld (s.portCtl p) 24 3
def State.hkClass (s : State) (p : Nat) : Nat := fld (s.portCtl p) 27 3

/-- OFT_CTL, applied copy (R253). -/
def State.oftCtl (s : State) : Word := s.applied 0x03040020 0x08100607

/-- A port's MAC address. -/
def State.portMac (s : State) (p : Nat) : BitVec 48 :=
  BitVec.ofNat 48 ((s.applied (portBase p + 8) 0).toNat + 2 ^ 32 * fld (s.applied (portBase p + 12) 0) 0 16)
/-- A port's own IPv4 address; zero means none. -/
def State.portIp4 (s : State) (p : Nat) : BitVec 32 := s.applied (portBase p + 0x60) 0
/-- Four words as one 128-bit address. -/
def ip6Words (w : Nat → Word) : BitVec 128 :=
  BitVec.ofNat 128 ((w 0).toNat + 2 ^ 32 * (w 1).toNat + 2 ^ 64 * (w 2).toNat + 2 ^ 96 * (w 3).toNat)
/-- A port's own IPv6 address; zero means none. -/
def State.portIp6 (s : State) (p : Nat) : BitVec 128 := ip6Words (fun i => s.applied (portBase p + 0x70 + 4 * i) 0)
/-- The node address of a node in a family (R223). -/
def State.addr4 (s : State) (node : BitVec 18) : BitVec 32 := s.applied 0x03040008 0 + BitVec.ofNat 32 node.toNat
def State.addr6 (s : State) (node : BitVec 18) : BitVec 128 :=
  ip6Words (fun i => s.applied (0x03040010 + 4 * i) 0) + BitVec.ofNat 128 node.toNat
/-- This device's node address in each family. -/
def State.nodeIp4 (s : State) : BitVec 32 := s.addr4 s.nodeId
def State.nodeIp6 (s : State) : BitVec 128 := s.addr6 s.nodeId
/-- A family's address in 128 bits. -/
def wideIp (a : BitVec 32) : BitVec 128 := BitVec.ofNat 128 a.toNat
/-- The address a port sends from (R207): its own, or the node's where it has none in the family. -/
def State.srcIp (s : State) (p : Nat) (v6 : Bool) : BitVec 128 :=
  if v6 then (if s.portIp6 p = 0 then s.nodeIp6 else s.portIp6 p)
  else wideIp (if s.portIp4 p = 0 then s.nodeIp4 else s.portIp4 p)

/-- The addresses a port answers for (R207): its own, where it has one, and the node's. -/
def State.answers4 (s : State) (p : Nat) (a : BitVec 32) : Bool := a != 0 && (a == s.portIp4 p || a == s.nodeIp4)
def State.answers6 (s : State) (p : Nat) (a : BitVec 128) : Bool := a != 0 && (a == s.portIp6 p || a == s.nodeIp6)

/-! ### Checksums (R208) -/

/-- The big-endian bytes of a number. -/
def toBE (k n : Nat) : List Byte := (toLE k n).reverse

/-- The Internet checksum of some bytes: the complement of their ones' complement sum by 16-bit words. -/
def inetSum (l : List Byte) : BitVec 16 :=
  let n := sumNat ((chunks 2 l).map (fun x => 256 * (x.getD 0 0).toNat + (x.getD 1 0).toNat))
  let n := n / 65536 + n % 65536
  ~~~(BitVec.ofNat 16 (n / 65536 + n % 65536))

/-- An address's bytes in its family. -/
def ipBytes (v6 : Bool) (a : BitVec 128) : List Byte := if v6 then toBE 16 a.toNat else toBE 4 (a.toNat % 2 ^ 32)

/-- The pseudo-header of a datagram. -/
def pseudoHeader (v6 : Bool) (src dst : BitVec 128) (proto len : Nat) : List Byte :=
  ipBytes v6 src ++ ipBytes v6 dst ++ (if v6 then toBE 4 len ++ toBE 4 proto else toBE 2 proto ++ toBE 2 len)

/-- The IP header of `len` payload bytes; an IPv4 header's checksum covers it, an IPv6 one has none. -/
def ipHeader (v6 : Bool) (src dst : BitVec 128) (ecn : BitVec 2) (proto len : Nat) : Ip :=
  let head := [0x45, BitVec.ofNat 8 (4 * Config.ipDscp.toNat + ecn.toNat)] ++ toBE 2 (20 + len) ++ toBE 2 Config.ip4Id.toNat
    ++ toBE 2 Config.ip4Flags.toNat ++ [Config.ipTtl, BitVec.ofNat 8 proto, 0, 0] ++ ipBytes v6 src ++ ipBytes v6 dst
  { v6 := v6, src := src, dst := dst, ecn := ecn, hdrSum := if v6 then 0 else inetSum head }

/-- The headers of a UDP datagram: its checksum covers the pseudo-header, the header and the body, and is never zero. -/
def udpHeader (v6 : Bool) (src dst : BitVec 128) (ecn : BitVec 2) (sport dport : BitVec 16) (body : List Byte) : Ip :=
  let len := 8 + body.length
  let x := inetSum (pseudoHeader v6 src dst 17 len ++ toBE 2 sport.toNat ++ toBE 2 dport.toNat ++ toBE 2 len ++ [0, 0] ++ body)
  { ipHeader v6 src dst ecn 17 len with udp := some (sport, dport, if x = 0 then 0xFFFF else x) }

/-- An ICMP or ICMPv6 message: type and code, the checksum, the rest. -/
def icmpBytes (v6 : Bool) (src dst : BitVec 128) (type code : Byte) (rest : List Byte) : List Byte :=
  let x := inetSum ((if v6 then pseudoHeader v6 src dst 58 (4 + rest.length) else []) ++ [type, code, 0, 0] ++ rest)
  [type, code] ++ toBE 2 x.toNat ++ rest

/-! ### Egress (R209) -/

/-- Can a class queue a frame of some bytes now, none being held before it; a class that nothing pauses sends at once. -/
def Port.room (p : Port) (cls bytes : Nat) : Bool :=
  let q := Tbl.get [] p.egress cls
  Tbl.get [] p.held cls == [] &&
    ((Tbl.get 0 p.pause cls == 0 && q == []) || decide (sumNat (q.map (·.2)) + bytes ≤ 65536))

/-- Hand a frame to a port's egress class: sent at once, queued in order while the class is paused (R210), or held by its
producer while the class is full. -/
def Port.send (p : Port) (cls : Nat) (x : TxFrame) (bytes : Nat) : Port :=
  let q := Tbl.get [] p.egress cls
  if !p.room cls bytes then { p with held := Tbl.upd [] p.held cls (· ++ [(x, bytes)]) }
  else if Tbl.get 0 p.pause cls ≠ 0 ∨ q ≠ [] then { p with egress := Tbl.set [] p.egress cls (q ++ [(x, bytes)]) }
  else { p with sent := p.sent ++ [x], txBytes := satAdd p.txBytes bytes }

/-- Does a class send a frame at once. -/
def Port.clear (p : Port) (cls : Nat) : Bool :=
  Tbl.get 0 p.pause cls == 0 && Tbl.get [] p.egress cls == [] && Tbl.get [] p.held cls == []

/-- The Ethernet header of a frame in a class: from the port's own MAC address, tagged where the port tags, its class as the
PCP. -/
def State.ethOf (s : State) (p cls : Nat) (dst : BitVec 48) (ip : Option Ip) : Eth :=
  { dst := dst, src := s.portMac p, ip := ip
    tag := if bit (s.portCtl p) 1 then some (BitVec.ofNat 3 cls, BitVec.ofNat 12 (fld (s.portCtl p) 3 12)) else none }

/-- Bytes of a frame of `n` untagged bytes, at least the least frame. -/
def State.hkBytes (s : State) (p n : Nat) : Nat := max 64 n + (if bit (s.portCtl p) 1 then 4 else 0)

/-- Send a housekeeping frame of `n` untagged bytes to a MAC address (R209). -/
def State.hkSend (s : State) (p : Nat) (dst : BitVec 48) (ip : Option Ip) (x : Sent) (n : Nat) : State :=
  let c := s.hkClass p
  s.onPort p (fun q => q.send c { eth := some (s.ethOf p c dst ip), what := x } (s.hkBytes p n))

/-- Something a port signals outside frames. -/
def State.signal (s : State) (p : Nat) (x : Sent) : State :=
  s.onPort p (fun q => { q with sent := q.sent ++ [{ what := x }] })

/-! ### OFT frames (R207, R208, R223, R225, R229) -/

/-- Bytes of a frame that carries an IP payload of `n` bytes over UDP (R229). -/
def State.frameBytes (s : State) (p n : Nat) : Nat :=
  n + 8 + (if bit s.oftCtl 2 then 40 else 20) + 14 + (if bit (s.portCtl p) 1 then 4 else 0) + 4

/-- The UDP source port of a packet: its PSN and the peer's node spread it. -/
def spreadPort (psn : BitVec 32) (node : BitVec 18) : BitVec 16 :=
  BitVec.ofNat 16 (0xC000 + Nat.xor (psn.toNat % 2 ^ 14) (node.toNat % 2 ^ 14))

/-- An OFT frame on a port to a node: by the gateway, between node addresses, ECT(0). -/
def State.oftFrame (s : State) (p : Nat) (node : BitVec 18) (psn : BitVec 32) (bytes : List Byte) : TxFrame :=
  let v6 := bit s.oftCtl 2
  let a (n : BitVec 18) : BitVec 128 := if v6 then s.addr6 n else wideIp (s.addr4 n)
  let ip := udpHeader v6 (a s.nodeId) (a node) 2 (spreadPort psn node)
    (BitVec.ofNat 16 (fld (s.applied 0x03040004 0x5546) 0 16)) bytes
  { eth := some (s.ethOf p (s.oftClass p) ((s.port p).gwMac.getD 0) (some ip)), what := .packet node bytes }

end Sys2Proof.Machine
end

