-- ==== Sys2Proof/Machine/Net.lean ====
section
/-! DEFINITION. Sending on the fabric: tier limits (R6, R8), spray sets (R236), packet encoding (R226–R229), contexts on the
die (R233), the order and the limits of sequenced packets (R229, R240), credits (R166, R243). -/

namespace Sys2Proof.Machine

/-- Ports a tier enables (R6, R10). -/
def tierPort (tier : BitVec 4) (p : Nat) : Bool :=
  tier == 1 || tier == 2 || (tier == 3 && (p < 4 || (48 ≤ p && p < 52)))

/-- Fabric size of a tier, self included (R6). -/
def tierPeers (tier : BitVec 4) : Nat :=
  if tier = 1 then 100000 else if tier = 2 then 4096 else if tier = 3 then 16 else 0

/-- Are a core's Bellows notices withheld: a neighbour's domain waits to be switched on (R330). -/
def State.noticeHeld (s : State) (lc : Nat) : Bool :=
  s.pwr.domains.any (fun (d, x) => x.withheld && Config.adjacent d (s.core lc).phys.toNat)

/-- S announces an array start to the regulator (R325), unless BELLOWS_OFF; an array that begins a command has no pass
under way. -/
def State.bellows (s : State) (lc : Nat) (a : Arr) : State :=
  if bit (s.inForce (0x05001004 + 0x10 * (s.core lc).phys.toNat) 0x500) 11 then s
  else if s.noticeHeld lc then s.onArray lc a (fun x => { x with noticeDue := true })
  else s.onArray lc a (fun x => { x with notice := true })

/-- Payload bytes of a full packet (R229). -/
def State.maxPayload (s : State) : Nat := 1024 * 2 ^ fld s.oftCtl 0 2

/-- Is the transport free to send: no MC3 restart, no device-level fault (R235, R280). -/
def State.teRuns (s : State) : Bool := !s.fab.mc3Restarting && !s.mgmt.faultActive

/-- The spray set (R236). -/
def State.sprayPorts (s : State) : List Nat :=
  (List.range 96).filter (fun p =>
    bit (s.applied (0x03040028 + 4 * (p / 32)) 0xFFFFFFFF) (p % 32)
      && (s.port p).st == .up && tierPort s.mgmt.tier p && (s.port p).gwMac.isSome)

/-- A packet's 48-byte header (R226, R228). -/
def packetHeader (type : Nat) (poison prov retx last : Bool) (len : Nat) (dstFlow : BitVec 20) (srcCore : Nat)
    (psn : BitVec 32) (ts : Nat) (op : BitVec 256) : List Byte :=
  toLE 4 (1 + 16 * type + 256 * b2n poison + 512 * b2n prov + 1024 * b2n retx + 2048 * b2n last + 65536 * len)
    ++ toLE 4 (dstFlow.toNat + 2 ^ 20 * srcCore) ++ toLE 4 psn.toNat ++ toLE 4 (ts % 2 ^ 32) ++ toLE 32 op.toNat

/-- The operation header of WRITE_WIN (R228). -/
def opWriteWin (core : BitVec 6) (window : BitVec 12) (gen : BitVec 16) (woff fmt rows cols tmseq grp : Nat)
    (gv : Bool) (len : Nat) : BitVec 256 :=
  BitVec.ofNat 256 (core.toNat + 2 ^ 6 * window.toNat + 2 ^ 18 * gen.toNat + 2 ^ 34 * woff + 2 ^ 64 * fmt
    + 2 ^ 68 * (rows - 1) + 2 ^ 86 * (cols - 1) + 2 ^ 128 * tmseq + 2 ^ 152 * grp + 2 ^ 164 * b2n gv + 2 ^ 192 * len)

/-- The operation header of WRITE_DRAM and ADD_DRAM (R228). -/
def opDram (addr runFmt tmseq grp : Nat) (gv : Bool) (len : Nat) : BitVec 256 :=
  BitVec.ofNat 256 (addr + 2 ^ 64 * runFmt + 2 ^ 128 * tmseq + 2 ^ 152 * grp + 2 ^ 164 * b2n gv + 2 ^ 192 * len)

/-- The operation header of CREDIT. -/
def opCredit (core : BitVec 6) (window : BitVec 12) (gen : BitVec 16) (req : Bool) (granted : Nat) : BitVec 256 :=
  BitVec.ofNat 256 (core.toNat + 2 ^ 6 * window.toNat + 2 ^ 18 * gen.toNat + 2 ^ 34 * b2n req + 2 ^ 64 * (granted % 2 ^ 32))

/-- The operation header of GROUP. -/
def opGroup (core : Nat) (g : BitVec 12) (abort : Bool) : BitVec 256 :=
  BitVec.ofNat 256 (core + 2 ^ 6 * g.toNat + 2 ^ 18 * b2n abort)

/-- The operation header of READ_REQ. -/
def opReadReq (addr reqId rlen : Nat) : BitVec 256 :=
  BitVec.ofNat 256 (addr + 2 ^ 64 * reqId + 2 ^ 96 * rlen)

/-- The operation header of READ_RESP. -/
def opReadResp (reqId roff : Nat) (err : Bool) : BitVec 256 :=
  BitVec.ofNat 256 (2 ^ 64 * reqId + 2 ^ 96 * roff + 2 ^ 128 * b2n err)

/-- The operation header of ACK. -/
def opAck (a : AckHdr) : BitVec 256 :=
  BitVec.ofNat 256 (a.cumPsn.toNat + 2 ^ 32 * a.sack.toNat + 2 ^ 96 * a.echoTs.toNat + 2 ^ 128 * b2n a.ece
    + 2 ^ 136 * a.nakCode.toNat + 2 ^ 144 * a.nakPsn.toNat)

/-- The payload of BARRIER (R228). -/
def barrierBody (coll : BitVec 20) (release : Bool) (epoch : BitVec 32) : List Byte :=
  toLE 4 (coll.toNat + 2 ^ 20 * b2n release) ++ toLE 4 epoch.toNat ++ toLE 8 0

/-- The payload of SETUP and SETUP_ACK (R228). -/
def setupBytes (tag : BitVec 32) (snd rcv : BitVec 20) (status : Nat) (boot : Word) (time : Nat) : List Byte :=
  toLE 12 (tag.toNat + 2 ^ 32 * snd.toNat + 2 ^ 52 * rcv.toNat + 2 ^ 72 * status) ++ toLE 4 boot.toNat
    ++ toLE 8 time ++ toLE 8 0

/-- A region's counter in 2⁻¹⁶ ns (R345). -/
def State.regionCount (s : State) (r : Nat) : Int :=
  (s.clk.now : Int) * 65536 + Tbl.get 0 s.clk.skew r

/-- The nanosecond counter of the transport region a port lies in (R226, R345). -/
def State.portNs (s : State) (p : Nat) : Nat := (s.regionCount (80 + p / 12) / 65536).toNat

/-- The port a flow's next packet goes out on (R236). -/
def State.nextPort (s : State) (fi : Nat) : Option Nat :=
  let ps := s.sprayPorts
  ps[((s.flow fi).spray + fi) % max 1 ps.length]?

/-- Has that port's class room for a packet of `n` bytes: a transport engine holds what a full class cannot take (R209). -/
def State.wireRoom (s : State) (fi n : Nat) : Bool :=
  match s.nextPort fi with
  | some p => (s.port p).room (s.oftClass p) (s.frameBytes p n)
  | none => true

/-- Put a packet on the wire, its TX_TS that of the moment. -/
def State.wire (s : State) (fi : Nat) (psn : BitVec 32) (bytes : Nat → List Byte) : State :=
  if !s.teRuns then s
  else
    match s.nextPort fi with
    | none => s
    | some p =>
      let b := bytes (s.portNs p)
      let s := s.onPort p (fun x => x.send (s.oftClass p) (s.oftFrame p (s.flow fi).node psn b) (s.frameBytes p b.length))
      s.onFlow fi (fun f => { f with spray := f.spray + 1 })

/-- The bytes of a packet that goes out at a time. -/
def State.pktBytes (s : State) (fi : Nat) (k : TxPkt) (ts : Nat) : List Byte :=
  packetHeader k.type k.poison k.prov k.retx k.last k.payload.length (s.flow fi).peerFlow k.srcCore k.psn ts k.op ++ k.payload

/-! ### Contexts on the die (R233) -/

/-- Cached contexts, and outstanding fetches, of a transport engine. -/
def State.cachedOf (s : State) (te : Nat) : List (Nat × Nat) :=
  (s.fab.flows.filter (fun (i, f) => i % 8 == te && f.cached)).map (fun (i, f) => (i, f.lastUse))
def State.fetchesOf (s : State) (te : Nat) : Nat := (s.fab.flows.filter (fun (i, f) => i % 8 == te && f.fetching)).length

/-- The least recently used of a list of (context, last use). -/
def leastUsed : List (Nat × Nat) → Option Nat
  | [] => none
  | x :: r => some (r.foldl (fun b y => if y.2 < b.2 then y else b) x).1

/-- A context is on the die: the least recently used leaves when the home engine holds 16,384. -/
def State.cacheIn (s : State) (fi : Nat) : State :=
  let te := fi % 8
  let s := if (s.cachedOf te).length < 16384 then s
    else
      match leastUsed (s.cachedOf te) with
      | some j => s.onFlow j (fun f => { f with cached := false })
      | none => s
  s.onFlow fi (fun f => { f with cached := true, fetching := false })

/-- Count a hit or a miss of a transport engine. -/
def State.ctxCount (s : State) (te : Nat) (hit : Bool) : State :=
  if hit then { s with fab := { s.fab with hits := Tbl.upd 0 s.fab.hits te satInc } }
  else { s with fab := { s.fab with misses := Tbl.upd 0 s.fab.misses te satInc } }

/-- A packet consults its flow's context: there, or to be fetched, if fewer than 32 fetches are outstanding. -/
def State.ctxUse (s : State) (fi : Nat) : Bool × State :=
  if (s.flow fi).cached then (true, s.ctxCount (fi % 8) true)
  else if (s.flow fi).fetching || s.fetchesOf (fi % 8) ≥ 32 then (false, s)
  else (false, (s.ctxCount (fi % 8) false).onFlow fi (fun f => { f with fetching := true }))

/-! ### Sequenced packets (R227, R229, R240, R241) -/

/-- May the flow take another PSN: at most 65,536 unacknowledged, and fewer than 2^31 PSNs within any second (R240). -/
def Flow.psnRoom (f : Flow) (now : Nat) : Bool :=
  f.unacked.length < 65536 &&
    (match f.paced.find? (fun x => decide (now < x.1 + 1000000000)) with
     | some (_, p) => decide ((f.psnNext - p).toNat + 1 < 2 ^ 31)
     | none => true)

/-- A sequenced packet takes the flow's next PSN, goes out, and stays until acknowledged. -/
def State.emit (s : State) (fi : Nat) (k : TxPkt) : State :=
  let now := s.clk.now
  let k := { k with psn := (s.flow fi).psnNext, firstSent := now, lastSent := now }
  let s := s.onFlow fi (fun f =>
    let marks := f.paced.filter (fun x => decide (now < x.1 + 1000000000))
    { f with
      psnNext := f.psnNext + 1
      unacked := f.unacked ++ [k]
      lastUse := now
      paced := if marks.any (fun x => x.1 == now) then marks else marks ++ [(now, k.psn)] })
  s.wire fi k.psn (s.pktBytes fi k)

/-- What waits for a PSN goes out, in order, unless a transfer is under way on the flow (R229) or there is no room; the fuel
is its number. -/
def State.drainOut (s : State) (fi : Nat) : Nat → State
  | 0 => s
  | n + 1 =>
    let f := s.flow fi
    match f.outq with
    | [] => s
    | k :: r =>
      if f.mid.isSome ∨ !s.teRuns ∨ !f.psnRoom s.clk.now then s
      else
        match s.ctxUse fi with
        | (false, s) => s
        | (true, s) => State.drainOut ((s.onFlow fi (fun f => { f with outq := r })).emit fi k) fi n

/-- A flow's waiting packets go out as far as they may. -/
def State.goOut (s : State) (fi : Nat) : State := s.drainOut fi (s.flow fi).outq.length

/-- Every flow's. -/
def State.goOutAll (s : State) : State := s.fab.flows.foldl (fun s (fi, f) => if f.outq = [] then s else s.goOut fi) s

/-- Send a sequenced packet behind what waits. -/
def State.sendSeq (s : State) (fi : Nat) (k : TxPkt) : State :=
  (s.onFlow fi (fun f => { f with outq := f.outq ++ [k] })).goOut fi

/-- Send an unsequenced packet. -/
def State.sendPlain (s : State) (fi : Nat) (type : Nat) (psn : BitVec 32) (op : BitVec 256) (payload : List Byte) :
    State :=
  s.wire fi psn (fun ts => packetHeader type false false false false payload.length (s.flow fi).peerFlow 0 psn ts op ++ payload)

/-- Send a control packet of a flow: TOUCH, STRIKE, GROUP, CREDIT, BARRIER, TEARDOWN; one that an engine originates names its
logical core (R226). -/
def State.sendCtl (s : State) (fi type : Nat) (op : BitVec 256) (payload : List Byte := []) (src : Nat := 0) : State :=
  s.sendSeq fi { type := type, op := op, payload := payload, srcCore := src }

/-- Sent and unacknowledged payload bytes of a flow (R241). -/
def Flow.inflight (f : Flow) : Nat := sumNat (f.unacked.map (fun k => k.payload.length))

/-- May the transfer `me` put a packet of `n` payload bytes on a flow: no other is under way, nothing waits before its first,
and the limits and the congestion window admit it (R229, R240, R241). -/
def State.admits (s : State) (fi : Nat) (me : Option (Nat × Nat)) (n : Nat) : Bool :=
  let f := s.flow fi
  f.st == .isOpen && s.teRuns && (f.mid == some me || (f.mid.isNone && f.outq == [])) && f.psnRoom s.clk.now
    && (f.inflight + n ≤ f.cwnd || f.inflight == 0) && s.wireRoom fi (48 + n)

/-- A packet of the transfer `me`; behind the last one what waited goes out. Answers false where the context has to be
fetched first. -/
def State.sendData (s : State) (fi : Nat) (me : Option (Nat × Nat)) (k : TxPkt) : Bool × State :=
  match s.ctxUse fi with
  | (false, s) => (false, s)
  | (true, s) =>
    let s := (s.emit fi k).onFlow fi (fun f => { f with mid := if k.last then none else some me })
    (true, if k.last then s.goOut fi else s)

/-! ### Flows -/

/-- The context index of a job's flow to a node, if it has one that is not Closing. -/
def State.findFlow (s : State) (job : Nat) (node : BitVec 18) : Option Nat :=
  (s.fab.flows.find? (fun (_, f) => f.st != .free && f.st != .closing && f.node == node && f.job == job)).map (·.1)

/-- The least Free context of the 2^20 (R230). -/
def State.freeFlow (s : State) : Option Nat :=
  let n := s.fab.flows.length
  match (List.range (n + 1)).find? (fun i => (s.flow i).st == .free) with
  | some i => if i < 2 ^ 20 then some i else none
  | none => none

/-- OFT_FLOW_IDLE in ns (R253). -/
def State.flowIdleNs (s : State) : Nat := fld (s.applied 0x03040024 0x000A) 0 16 * 1000000000

/-- A flow that may be evicted (R234). -/
def Flow.idle (f : Flow) (now limit : Nat) : Bool :=
  f.st == .isOpen && f.lastUse + limit ≤ now && f.unacked.isEmpty && f.outq.isEmpty && f.unconfirmed == 0 && f.rx.isEmpty && f.answers.isEmpty
    && f.granted.all (fun (k, n) => n = 2 ^ 32 || n ≤ Tbl.get 0 f.slotsSent k + 1)

/-- Insert by rising last use. -/
def insertByUse (x : Nat × Nat) : List (Nat × Nat) → List (Nat × Nat)
  | [] => [x]
  | y :: r => if x.2 < y.2 then x :: y :: r else y :: insertByUse x r

/-- Would another peer raise the distinct nodes above the tier's fabric size (R8). -/
def State.fabricFull (s : State) (node : BitVec 18) : Bool :=
  let peers := if s.fab.peers.contains node || node == s.nodeId then s.fab.peers else s.fab.peers ++ [node]
  peers.length + 1 > tierPeers s.mgmt.tier

/-- Peers are the distinct nodes of the contexts not Free (R253, OFT_PEERS). -/
def State.recountPeers (s : State) : State :=
  let ns := s.fab.flows.foldl (fun l (_, f) =>
    if f.st == .free || l.contains f.node then l else l ++ [f.node]) []
  { s with fab := { s.fab with peers := ns } }

/-- Count a refused setup (R253). -/
def State.setupRefused (s : State) : State :=
  { s with fab := { s.fab with setupRefused := satInc s.fab.setupRefused } }

/-! ### Windows on the owner's side (R165, R166, R242, R243) -/

/-- Slots of a window with an attached queue: ⌊LEN_WORDS ÷ SLOT_WORDS⌋. -/
def windowSlots (w : Window) : Nat := if w.slotWords = 0 then 0 else w.len / w.slotWords

/-- Put an entry among a window queue's entries, in slot order. -/
def insertEntry (x : QEntry) : List QEntry → List QEntry
  | [] => [x]
  | y :: r => if x.id < y.id then x :: y :: r else y :: insertEntry x r

/-- The descriptor of a window's slot `k`: the sender's shape at the slot's place (R166). -/
def slotShape (w : Window) (k : Nat) : Desc :=
  let j := if windowSlots w = 0 then 0 else k % windowSlots w
  { Tbl.get {} w.shapes j with off := w.off + j * w.slotWords, seg := w.seg }

/-- The queue of a window of the running task; a preempted task's windows stand without their queues (R376). -/
def Sequencer.winQueue (q : Sequencer) (n : BitVec 12) : Option Nat :=
  if q.winFirst.toNat ≤ n.toNat ∧ n.toNat < q.winFirst.toNat + q.winCount.toNat then (q.win n).queue else none

/-- Committed slots become Ready in order, as the queue has room (R102, R166): a placed entry of the slot turns
Ready, one already popped turns Held. -/
def Sequencer.windowPump (q : Sequencer) (n : BitVec 12) : Nat → Sequencer
  | 0 => q
  | fuel + 1 =>
    let w := q.win n
    match q.winQueue n with
    | none => q
    | some qn =>
      let qu := q.queue qn
      let k := w.readySlots
      if !w.isOpen || k ≥ w.slots then q
      else
        let next (q : Sequencer) : Sequencer := q.onWin n (fun w => { w with readySlots := k + 1 })
        match qu.entries.find? (fun e => e.id == k) with
        | some _ =>
          (next (q.onQueue qn (fun qu => qu.onEntry k (fun e =>
            { e with st := if e.st = .heldProv then .held else .ready, prov := none })))).windowPump n fuel
        | none =>
          if qu.entries.length ≥ qu.depth then q
          else
            let e : QEntry := { id := k, slot := k % windowSlots w, desc := slotShape w k, st := .ready }
            (next (q.onQueue qn (fun qu => { qu with entries := insertEntry e qu.entries }))).windowPump n fuel

/-- A transfer raises a window's committed watermark by its bytes (R165, R242); a closed or reopened window's
stays frozen. -/
def State.raiseMark (s : State) (lc : Nat) (n : BitVec 12) (gen : BitVec 16) (len : Nat) : State :=
  s.onSeq lc (fun q =>
    let w := q.win n
    if w.isOpen && w.gen == gen then
      (q.onWin n (fun w => { w with watermark := w.watermark + BitVec.ofNat 32 len, slots := w.slots + 1 })).windowPump n 64
    else q)

/-- A released slot of a window queue is reported to the sender (R166, R243), and room is taken. -/
def State.creditRelease (s : State) (lc qn : Nat) : State :=
  let sq := (s.core lc).seq
  match sq.windows.find? (fun (n, w) => w.isOpen && sq.winQueue (BitVec.ofNat 12 n) == some qn) with
  | none => s
  | some (wn, w) =>
    let w := { w with released := w.released + 1 }
    let s := s.onSeq lc (fun q =>
      Sequencer.windowPump { q with windows := Tbl.set {} q.windows wn w } (BitVec.ofNat 12 wn) 64)
    match w.sender with
    | none => s
    | some fi =>
      s.sendCtl fi.toNat 0x7 (opCredit (BitVec.ofNat 6 lc) (BitVec.ofNat 12 wn) w.gen false
        (windowSlots w + w.released))

/-! ### Tiles that wait for an entry of their output ring (R48) -/

/-- An accumulator tile of an array, false for the first. -/
def ArrayU.tile (a : ArrayU) (i : Bool) : AccTile := if i then a.tile1 else a.tile0
/-- Put an accumulator tile. -/
def ArrayU.setTile (a : ArrayU) (i : Bool) (t : AccTile) : ArrayU :=
  if i then { a with tile1 := t } else { a with tile0 := t }

/-- The array of an engine code. -/
def arrOfCode (n : Nat) : Arr := if n = 1 then .g0 else if n = 2 then .g1 else .f

/-- A tile named by array code and place. -/
def Core.tileAt (co : Core) (x : Nat × Nat) : AccTile := (co.array (arrOfCode x.1)).tile (x.2 == 1)

/-- The command that reserves a tile's entry, as (engine, serial, queue). -/
def AccTile.claim (t : AccTile) : Nat × Nat × Nat := (t.leadEng, t.lead, t.outQ)

/-- Has the command of a tile its entry already. -/
def Core.reserved (co : Core) (t : AccTile) : Bool :=
  (Tbl.get ({} : Engine) co.seq.engines t.leadEng).begun.any (fun b =>
    b.serial == t.lead && b.outs.any (fun o => o.1 == t.outQ))

/-- Is a Free entry, the next in ring order, available to a tile: its command has it, a tile of the command that became
ready before is to take it, or one is left beside those that the tiles before it are to take (R48). -/
def Core.entryFor (co : Core) (t : AccTile) : Bool :=
  let ahead := (co.seq.drainOrder.map co.tileAt).filter (fun x => x.outQ == t.outQ && !co.reserved x)
  let takers := (ahead.map AccTile.claim).eraseDups
  co.reserved t || takers.contains t.claim || (co.seq.queue t.outQ).canTake takers.length

/-- A tile whose passes are all written takes its place on the drain path once an entry is available to it, and waits
until then (R48). -/
def State.queueTile (s : State) (lc : Nat) (x : Nat × Nat) : State :=
  let co := s.core lc
  let t := co.tileAt x
  let put (w : Option Nat) (s : State) : State :=
    s.onArray lc (arrOfCode x.1) (fun a => a.setTile (x.2 == 1) { t with waitAt := w })
  if t.st ≠ .ready ∨ co.seq.drainOrder.contains x then s
  else if co.entryFor t then (put none s).onSeq lc (fun q => { q with drainOrder := q.drainOrder ++ [x] })
  else if t.waitAt.isSome then s
  else put (some (s.coreNs lc)) s

/-- Every waiting tile of a core, F's first, then G0's, then G1's (R48, R64). -/
def State.drainPump (s : State) (lc : Nat) : State :=
  [(0, 0), (0, 1), (1, 0), (1, 1), (2, 0), (2, 1)].foldl (fun s x => s.queueTile lc x) s

/-- Reserved entries of a ring go back to Free from one on (R102). -/
def State.unreserve (s : State) (lc qn id : Nat) : State := (s.onQueue lc qn (fun q => q.unreserve id)).drainPump lc

/-- A command's reserved outputs go back to Free, and the pending extents of what it had written there with them (R102,
R168). -/
def State.returnOuts (s : State) (lc : Nat) (outs : List (Nat × Nat)) : State :=
  let s := s.onScp lc (fun m => { m with pend := m.pend.filter (fun x => !outs.any (fun o => x.entry == some o)) })
  outs.foldl (fun s (qn, id) => s.unreserve lc qn id) s

/-- One hold on a queue entry clears; a window slot that becomes Free is credited (R102, R166), a ring's goes to a tile
that waits for it. -/
def State.releaseEntry (s : State) (lc qn id : Nat) : State :=
  let q := (s.core lc).seq.queue qn
  let q' := q.release id
  let s := s.onQueue lc qn (fun _ => q')
  if q.mode = 2 ∧ q'.entries.length < q.entries.length then s.creditRelease lc qn else s.drainPump lc

/-! ### Transfers seen by their receiver (R242, R263) -/

/-- May a transfer raise its watermark, its data complete: not provisional or touched, not tagged or its
group committed. -/
def RxXfer.ready (x : RxXfer) : Bool := x.lastSeen && (!x.prov || x.touched) && (x.grp.isNone || x.committed)

/-- The transfers of a list that may raise now, and those that stay: in order for each window. -/
def splitReady (done : RxXfer → Bool) : List RxXfer → List RxXfer → List RxXfer × List RxXfer
  | [], _ => ([], [])
  | x :: r, late =>
    let blocked := late.any (fun y => y.core == x.core && y.window == x.window && y.gen == x.gen)
    if !blocked && done x && x.ready then
      let (a, b) := splitReady done r late
      (x :: a, b)
    else
      let (a, b) := splitReady done r (x :: late)
      (a, x :: b)

/-- Raise what a list of transfers allows. -/
def State.raiseAll (s : State) (xs : List RxXfer) : State :=
  xs.foldl (fun s x => s.raiseMark x.core.toNat x.window x.gen x.len) s

/-- Settle a flow's arrived transfers (R242): every earlier packet of the flow has been placed. -/
def State.settleFlow (s : State) (fi : Nat) : State :=
  let f := s.flow fi
  let below (x : RxXfer) : Bool := 0 < (f.cum - x.lastPsn).toNat && (f.cum - x.lastPsn).toNat < 2 ^ 31
  let (up, stay) := splitReady below f.rx []
  (s.onFlow fi (fun f => { f with rx := stay })).raiseAll up

/-- Settle this device's own transfers into its own windows. -/
def State.settleLoc (s : State) : State :=
  let (up, stay) := splitReady (fun _ => true) s.fab.loc []
  ({ s with fab := { s.fab with loc := stay } }).raiseAll up

/-- The window's words a transfer covers, in absolute words. -/
def RxXfer.words (s : State) (x : RxXfer) : List (Nat × Nat) :=
  let w := (s.core x.core.toNat).seq.win x.window
  [(w.base + x.woff, ceilDiv x.len 4)]

/-- A group's outcome for window transfers (R271, R275): commit lets them raise, abort poisons them in place
and raises past them. -/
def State.resolveRx (s : State) (xs : List RxXfer) (mine : RxXfer → Bool) (abort : Bool) : State × List RxXfer :=
  let s := if abort then
      (xs.filter mine).foldl (fun s x => s.onScp x.core.toNat (fun m => m.poisonRuns (x.words s))) s
    else s
  (s, xs.map (fun x => if mine x then { x with committed := true } else x))

/-- A local group's outcome for its transfers into this device's own windows. -/
def State.resolveLoc (s : State) (lc : Nat) (g : BitVec 12) (abort : Bool) : State :=
  let (s, xs) := s.resolveRx s.fab.loc (fun x => x.grp == some (BitVec.ofNat 6 lc, g) && x.away.isNone) abort
  ({ s with fab := { s.fab with loc := xs } }).settleLoc

end Sys2Proof.Machine
end

