-- ==== Sys2Proof/Machine/Operands.lean ====
section
/-! DEFINITION. Operands: the command header (R93, R94), descriptors (R98, R99), opcodes and their engines
(R105, R124), tiles as codes (R98–R100), and reading and building tiles in the scratchpad. -/

namespace Sys2Proof.Machine

/-- A command word (R92). -/
abbrev Cmd := BitVec 256

/-- OPCODE. -/
def Cmd.op (w : Cmd) : Nat := fld w 0 8
/-- VER. -/
def Cmd.ver (w : Cmd) : Nat := fld w 8 4
/-- A queue-end byte: input slots 0–3, output slots 4 and 5 (R93). -/
def Cmd.slot (w : Cmd) (i : Nat) : Nat := fld w (16 + 8 * i) 8
/-- USED of a queue-end byte (R94). -/
def slotUsed (b : Nat) : Bool := b ≥ 128
/-- KEEP. -/
def slotKeep (b : Nat) : Bool := b / 64 % 2 == 1
/-- QUEUE. -/
def slotQueue (b : Nat) : Nat := b % 64

/-- The engines that execute an opcode (R105); none for an undefined opcode. -/
def opEngines (op : Nat) : List Eng :=
  let all : List Eng := [.f, .g0, .g1, .v, .q, .d0, .d1, .d2, .d3, .s]
  if op ≤ 4 ∨ (8 ≤ op ∧ op ≤ 0xB) ∨ op = 0x14 then all
  else if op = 0xC ∨ op = 0x10 ∨ op = 0x11 ∨ op = 0x15 ∨ op = 0x16 ∨ op = 0x18 ∨ op = 0x19 then [.s]
  else if op = 0x20 ∨ op = 0x21 ∨ op = 0x23 then [.f, .g0, .g1]
  else if op = 0x22 then [.g0, .g1]
  else if (0x30 ≤ op ∧ op ≤ 0x36) ∨ (0x38 ≤ op ∧ op ≤ 0x44) then [.v]
  else if 0x50 ≤ op ∧ op ≤ 0x54 then [.q]
  else if op = 0x60 then [.d0, .d1, .d2, .d3]
  else []

/-- Opcodes the Duncen command set lacks (R124). -/
def duncenAbsent (op : Nat) : Bool :=
  op == 0x22 || op == 0x23 || op == 0x43 || op == 0x44 || op == 0x54 || op == 0x14 || op == 0x15 || op == 0x16
    || op == 0x09

/-- Does a set of fields cover every non-zero bit of the body (R14, R96): fields as (low bit, length). -/
def bodyClean (w : Cmd) (fields : List (Nat × Nat)) : Bool :=
  let mask := fields.foldl (fun m (lo, n) => m ||| ((2 ^ n - 1) * 2 ^ lo)) 0
  Nat.land w.toNat (2 ^ 256 - 2 ^ 64) == Nat.land (Nat.land w.toNat mask) (2 ^ 256 - 2 ^ 64)

/-- A descriptor's fields (R98). -/
def decodeDesc (d : BitVec 128) : Desc :=
  { off := fld d 0 23
    seg := fld d 23 3
    fmt := fld d 26 4
    rows := fld d 32 18 + 1
    cols := fld d 64 16 + 1
    grp := if bit d 92 then some (BitVec.ofNat 12 (fld d 80 12)) else none
    stride := fld d 96 22 }

/-- Non-zero reserved bits of a descriptor (R98). -/
def descReserved (d : BitVec 128) : Bool :=
  fld d 30 2 ≠ 0 || fld d 50 14 ≠ 0 || fld d 93 3 ≠ 0 || fld d 118 10 ≠ 0

/-- The descriptor checks of R99 and R100, before bound and permission. -/
def Desc.err (d : Desc) : Option Nat :=
  if d.fmt > 0xA then some eDescriptor
  else if d.stride ≠ 0 ∧ d.stride < packedWords d.fmt d.cols then some eDescriptor
  else if isMx d.fmt ∧ d.cols % 32 ≠ 0 then some eShape
  else none

/-- The check of an input descriptor: format, shape, then bound and READ (R96, R154); under VER 0x1 also
the formats of R124. -/
def Sequencer.descErr (q : Sequencer) (v1 : Bool) (d : Desc) : Option Nat :=
  match d.err with
  | some e => some e
  | none =>
    if v1 && (isMx d.fmt || d.fmt == 0xA) then some eFormatPair
    else q.extentErr d.seg d.top permRead

/-! ### Tiles -/

/-- A tile's contents: element codes row by row, scale codes row by row for MX formats, and whether any
code word of its footprint is poisoned. -/
structure Tile where
  fmt : Nat := 0
  rows : Nat := 0
  cols : Nat := 0
  codes : List (List Nat) := []
  scales : List (List Nat) := []
  poison : Bool := false
  deriving DecidableEq, Repr

/-- The `n` codes of `b` bits packed from bit 0 of a number. Codes narrower than a byte are packed from the
low bit up (log 6). -/
def unpackCodes (b n v : Nat) : List Nat := (List.range n).map (fun j => v / 2 ^ (b * j) % 2 ^ b)

/-- Pack codes of `b` bits into `k` bytes. -/
def packCodes (b k : Nat) (cs : List Nat) : List Byte :=
  toLE k (cs.foldr (fun c a => c % 2 ^ b + 2 ^ b * a) 0)

/-- A tile's contents from the bytes of its footprint, element rows then scale rows. -/
def tileOfBytes (fmt rows cols : Nat) (bytes : List Byte) (poison : Bool) : Tile :=
  let pw := 4 * packedWords fmt cols
  let sw := 4 * scaleWords fmt cols
  let row (r : Nat) := (bytes.drop (r * pw)).take pw
  let srow (r : Nat) := (bytes.drop (rows * pw + r * sw)).take sw
  { fmt := fmt
    rows := rows
    cols := cols
    codes := (List.range rows).map (fun r => unpackCodes (fmtBits fmt) cols (leNat (row r)))
    scales := if isMx fmt then (List.range rows).map (fun r => unpackCodes 8 (cols / 32) (leNat (srow r))) else []
    poison := poison }

/-- The bytes of a packed tile: element rows, then scale rows (R100). -/
def Tile.bytes (t : Tile) : List Byte :=
  t.codes.flatMap (packCodes (fmtBits t.fmt) (4 * packedWords t.fmt t.cols))
    ++ t.scales.flatMap (packCodes 8 (4 * scaleWords t.fmt t.cols))

/-- Read the tile a descriptor names: the contents, the marks, and the banks after the read. -/
def Core.readTile (c : Core) (d : Desc) : Tile × Core :=
  let (mb, scp) := c.scp.read (c.seq.absRuns d.seg d.runs)
  (tileOfBytes d.fmt d.rows d.cols (mbBytes mb) (mbPoison mb), { c with scp := scp })

/-- The words of `n` columns from `c` of one row, and of their scales. -/
def Desc.rowRuns (d : Desc) (r c n : Nat) : List (Nat × Nat) :=
  if n = 0 then []
  else
    let w0 := c * fmtBits d.fmt / 32
    let s0 := c / 128
    (d.off + r * d.step + w0, ceilDiv ((c + n) * fmtBits d.fmt) 32 - w0) ::
      (if isMx d.fmt then [(d.scaleOff + r * scaleWords d.fmt d.cols + s0, ceilDiv (c + n) 128 - s0)] else [])

/-- The least column of some places and how many columns they span. -/
def spotCols (d : Desc) (ps : List (Nat × Nat)) : Nat × Nat :=
  let lo := (ps.map (·.2)).foldl min d.cols
  (lo, (ps.map (·.2)).foldl (fun a c => max a (c + 1 - lo)) 0)

/-- The rows of some places, ascending. -/
def spotRows (ps : List (Nat × Nat)) : List Nat := ps.foldl (fun l p => insertUniq p.1 l) []

/-- The words that hold some places (row, column) of a tile: of each row named, the columns from the least to the
greatest. -/
def Desc.spotRuns (d : Desc) (ps : List (Nat × Nat)) : List (Nat × Nat) :=
  let (lo, n) := spotCols d ps
  (spotRows ps).flatMap (fun r => d.rowRuns r lo n)

/-- Read the part of a tile that holds some places; the other rows stay empty, and the poison is that of the words
read. -/
def Core.readSpots (co : Core) (d : Desc) (ps : List (Nat × Nat)) : Tile × Core :=
  let (lo, n) := spotCols d ps
  let rows := spotRows ps
  let (mb, scp) := co.scp.read (co.seq.absRuns d.seg (d.spotRuns ps))
  let word (w k : Nat) : Nat :=
    leNat ((List.range (4 * k)).map (fun i => (scp.byte (4 * ((co.seq.seg d.seg).base.toNat + w) + i)).1))
  let cut (b c k : Nat) (run : Nat × Nat) : List Nat :=
    List.replicate c 0 ++ unpackCodes b k (word run.1 run.2 / 2 ^ (c * b % 32))
  let line (r : Nat) : List Nat × List Nat :=
    match d.rowRuns r lo n with
    | [e] => (cut (fmtBits d.fmt) lo n e, [])
    | e :: s :: _ => (cut (fmtBits d.fmt) lo n e, cut 8 (lo / 32) (ceilDiv (lo + n) 32 - lo / 32) s)
    | [] => ([], [])
  let named (r : Nat) : List Nat × List Nat := if rows.contains r then line r else ([], [])
  let top := rows.foldl (fun a r => max a (r + 1)) 0
  ({ fmt := d.fmt
     rows := d.rows
     cols := d.cols
     codes := (List.range top).map (fun r => (named r).1)
     scales := if isMx d.fmt then (List.range top).map (fun r => (named r).2) else []
     poison := mbPoison mb }, { co with scp := scp })

/-- Read the raw marked bytes of a descriptor's footprint. -/
def Core.readRaw (c : Core) (d : Desc) : List MB × Core :=
  let (mb, scp) := c.scp.read (c.seq.absRuns d.seg d.runs)
  (mb, { c with scp := scp })

/-- An element's exact value, its block scale applied (R35). -/
def Tile.val (t : Tile) (r c : Nat) : Fp :=
  let code := (t.codes.getD r []).getD c 0
  if isMx t.fmt then
    let s := (t.scales.getD r []).getD (c / 32) 0
    if s = 0xFF then .nan else (decodeFmt t.fmt code).shift ((s : Int) - 127)
  else decodeFmt t.fmt code

/-- An element's code. -/
def Tile.code (t : Tile) (r c : Nat) : Nat := (t.codes.getD r []).getD c 0

/-- A tile as 32-bit words: FP32 and integers as they stand, BF16 and FP16 and narrower exactly in FP32. -/
def Tile.word (t : Tile) (r c : Nat) : Word :=
  if t.fmt = 0 ∨ t.fmt = 9 ∨ t.fmt = 10 then BitVec.ofNat 32 (t.code r c)
  else if t.fmt = 8 then BitVec.ofInt 32 (signedOf 8 (t.code r c))
  else toFp32 (t.val r c)

/-- Does a write of these absolute word runs touch an active code region (R131). -/
def Core.codeHit (c : Core) (rs : List (Nat × Nat)) : Bool := footMeet rs c.seq.activeCode

end Sys2Proof.Machine
end

