-- ==== Sys2Proof/Machine/Groups.lean ====
section
/-! DEFINITION. Commit groups: pending extents (R168, R169), abort (R271–R273), the shadow lines and flows a
group holds (R183, R270). -/

namespace Sys2Proof.Machine

/-- Send GROUP on every flow that carried tagged transfers (R270, R271). -/
def State.sendGroup (s : State) (lc : Nat) (g : BitVec 12) (abort : Bool) : State :=
  ((s.core lc).seq.grp g).flows.foldl (fun s fi => s.sendCtl fi.toNat 0xA (opGroup lc g abort) [] lc) s

/-- Discard every shadow of a key that is not past its commit point; PREPARE no longer holds (R183, R271). -/
def State.dropShadows (s : State) (k : GrpKey) : State :=
  { s with mem := { s.mem with slices := Tbl.mapv {} (fun sl =>
      { sl with
        shadows := sl.shadows.filter (fun x => x.key != k || x.committed)
        prepared := sl.prepared.filter (· != k) }) s.mem.slices } }

/-- Shadows of a key are past their commit point. -/
def State.commitShadows (s : State) (k : GrpKey) : State :=
  { s with mem := { s.mem with slices := Tbl.mapv {} (fun (sl : Slice) =>
      { sl with shadows := sl.shadows.map (fun x => if x.key = k then { x with committed := true } else x) }) s.mem.slices } }

/-- The pending extents of a group are released, their queue entries kept or freed, their words poisoned or
left (R169). -/
def Core.releaseExtents (c : Core) (g : BitVec 12) (abort : Bool) : Core :=
  let mine := c.scp.pend.filter (fun x => x.grp == g)
  let scp := { c.scp with pend := c.scp.pend.filter (fun x => x.grp != g) }
  if abort then
    let scp := mine.foldl (fun m x => m.poisonRuns x.words) scp
    let seq := mine.foldl (fun q x =>
      match x.entry with
      | none => q
      | some (qn, id) => q.onQueue qn (fun y => { y with entries := y.entries.filter (fun e => !(e.id == id && e.st == .ready)) })) c.seq
    { c with scp := scp, seq := seq }
  else { c with scp := scp }

/-- A group aborts for a reason (R271). A group that is not open is left as it is. -/
def State.abortGroup (s : State) (lc : Nat) (g : BitVec 12) (reason : Nat) : State :=
  let st := ((s.core lc).seq.grp g).st
  if st = .opened ∨ st = .committing then
    let s := s.sendGroup lc g true
    let s := s.onCore lc (fun c => c.releaseExtents g true)
    let s := s.dropShadows (.loc (BitVec.ofNat 6 lc).toFin g)
    let s := s.resolveLoc lc g true
    (s.onSeq lc (fun q => q.onGrp g (fun x =>
      { x with st := .resolved, aborted := true, reason := reason, flows := [], await := [] }))).drainPump lc
  else s

/-- The error a command that would tag a write meets at validation (R272). -/
def Sequencer.tagErr (q : Sequencer) (g : Option (BitVec 12)) : Option Nat :=
  match g with
  | none => none
  | some g => let x := q.grp g; if x.st = .resolved ∧ x.aborted then some x.reason else none

/-- A tagged write of a footprint makes a pending extent; the 257th aborts its group and its words are
poisoned (R168, R272). The write itself has been made. -/
def State.addExtent (s : State) (lc : Nat) (g : BitVec 12) (words : List (Nat × Nat)) (entry : Option (Nat × Nat)) :
    State :=
  let c := s.core lc
  let x := c.seq.grp g
  if x.st = .resolved then
    -- the group was aborted while the command ran: poisoned where it lies
    s.onScp lc (fun m => m.poisonRuns words)
  else if c.scp.pend.length + c.scp.away.length < 256 then
    s.onScp lc (fun m => { m with pend := m.pend ++ [{ grp := g, words := words, entry := entry }] })
  else
    let s := s.onScp lc (fun m => { m with pend := m.pend ++ [{ grp := g, words := words, entry := entry }] })
    s.abortGroup lc g eGroupOverflow

/-! ### The groups of a preempted task (R276, R376) -/

/-- Is a shadow pending for a group of a core of this device. -/
def Shadow.pendsFor (x : Shadow) (lc : Nat) : Bool := !x.committed && (match x.key with
  | .loc c _ => c.val == lc
  | .rem _ _ _ => false)

/-- Transfers into this device's own windows under groups of a core, set aside for a job or taken back. -/
def State.moveXfers (s : State) (lc : Nat) (was now : Option Nat) : State :=
  let mine (x : RxXfer) : Bool := x.away == was && !x.committed && x.grp.any (fun g => g.1.toNat == lc)
  { s with fab := { s.fab with loc := s.fab.loc.map (fun x => if mine x then { x with away := now } else x) } }

/-- What a task's open groups hold stands in place while it is preempted, out of reach of the numbers the core's next task
uses (R276, R376). -/
def State.setAside (s : State) (lc j : Nat) : State :=
  let f (sl : Slice) : Slice :=
    { sl with
      shadows := sl.shadows.filter (fun x => !x.pendsFor lc)
      away := sl.away ++ (sl.shadows.filter (fun x => x.pendsFor lc)).map (fun x => (j, x)) }
  let s := { s with mem := { s.mem with slices := Tbl.mapv {} f s.mem.slices } }
  (s.onScp lc (fun m => { m with pend := [], away := m.away ++ m.pend.map (fun x => (j, x)) })).moveXfers lc none (some j)

/-- Shadows set aside for a job's task on a core leave the slices' store. -/
def State.dropAside (s : State) (lc j : Nat) (keep : Bool) : State :=
  let mine (x : Nat × Shadow) : Bool := x.1 == j && x.2.pendsFor lc
  let f (sl : Slice) : Slice :=
    { sl with
      shadows := if keep then sl.shadows ++ (sl.away.filter mine).map (·.2) else sl.shadows
      away := sl.away.filter (fun x => !mine x) }
  { s with mem := { s.mem with slices := Tbl.mapv {} f s.mem.slices } }

/-- A restored task's groups hold again what they held (R276, R376). -/
def State.takeBack (s : State) (lc j : Nat) : State :=
  ((s.dropAside lc j true).onScp lc (fun m =>
    { m with
      pend := m.pend ++ (m.away.filter (fun x => x.1 == j)).map (·.2)
      away := m.away.filter (fun x => x.1 != j) })).moveXfers lc (some j) none

/-- What the open groups of a preempted task held is dropped with it: shadows go, extents are poisoned and released, its
transfers into windows of this device poisoned in place and raised past (R271, R276). -/
def State.abortAside (s : State) (lc j : Nat) : State :=
  let s := (s.dropAside lc j false).onScp lc (fun m =>
    { (m.away.filter (fun x => x.1 == j)).foldl (fun m x => m.poisonRuns x.2.words) m with
      away := m.away.filter (fun x => x.1 != j) })
  let (s, xs) := s.resolveRx s.fab.loc (fun x => x.away == some j && x.grp.any (fun g => g.1.toNat == lc)) true
  ({ s with fab := { s.fab with loc := xs } }).settleLoc

end Sys2Proof.Machine
end

