-- ==== Sys2Proof/Machine/Setup.lean ====
section
/-! DEFINITION. Free contexts, eviction and the setup of flows on the asking side (R231, R232, R234). -/

namespace Sys2Proof.Machine

/-- A flow's handles go, their groups aborted: shadows discarded, window transfers poisoned (R271, R275). -/
def State.abortHandles (s : State) (fi : Nat) : State :=
  let mine := s.fab.handles.filter (fun h => h.flow.toNat == fi)
  let s := mine.foldl (fun s h =>
    let s := s.dropShadows (.rem h.flow h.core.toFin h.grp)
    let (s, xs) := s.resolveRx (s.flow fi).rx (fun x => x.grp == some (h.core, h.grp)) true
    s.onFlow fi (fun f => { f with rx := xs })) s
  ({ s with fab := { s.fab with handles := s.fab.handles.filter (fun h => h.flow.toNat != fi) } }).settleFlow fi

/-- An idle flow is evicted: it leaves Open, TEARDOWN is sent, and it is Closing. -/
def State.evictFlow (s : State) (fi : Nat) : State :=
  ((s.abortHandles fi).sendCtl fi 0xE 0).onFlow fi (fun f => { f with st := .closing, closeAt := s.clk.now })

/-- What a setup finds: a Free context, flows that are being evicted for it, or a full table. -/
inductive Took where
  | got (fi : Nat)
  | wait (s : State)
  | full

/-- A Free context. Where there is none, up to 1,024 idle flows are torn down, least recently used first, and the setup
takes one of them once it is Free (R234). -/
def State.takeFlow (s : State) : Took :=
  match s.freeFlow with
  | some i => .got i
  | none =>
    if s.fab.flows.any (fun (_, f) => f.st == .closing && !f.ending) then .wait s
    else
      let idle := (s.fab.flows.filter (fun (_, f) => f.idle s.clk.now s.flowIdleNs)).map (fun (i, f) => (i, f.lastUse))
      let order := ((idle.foldl (fun l x => insertByUse x l) []).take 1024).map (·.1)
      if order = [] then .full
      else
        let s := order.foldl State.evictFlow s
        .wait { s with fab := { s.fab with evicted := satAdd s.fab.evicted order.length } }

/-- MC3 sends SETUP (R232): receiver's flow 0xF_FFFF, the boot count and the device's time. -/
def State.sendSetup (s : State) (fi : Nat) : State :=
  let f := s.flow fi
  let s := s.onFlow fi (fun f => { f with tries := f.tries + 1, setupAt := s.clk.now, peerFlow := 0xFFFFF })
  s.sendPlain fi 0xC 0 0 (setupBytes f.tag (BitVec.ofNat 20 fi) 0 0 s.flash.startCount s.clk.now)

/-- Start a flow of a job to a node (R231, R232): the error that refuses it, or the state with SETUP sent; with MC3 in a
restart, or contexts still to become Free, nothing is sent yet. -/
def State.startSetup (s : State) (job : Nat) (node : BitVec 18) : Nat ⊕ State :=
  if !s.nodeValid then .inl ePeerUnreachable
  else if s.fabricFull node then .inl eFabricLimit
  else if !s.teRuns then .inr s
  else
    match s.takeFlow with
    | .full => .inl eFlowTableFull
    | .wait s => .inr s
    | .got i =>
      let s := s.onFlow i (fun _ => { st := .settingUp, node := node, job := job, tag := (s.job job).tag, lastUse := s.clk.now })
      .inr ((s.sendSetup i).recountPeers)

/-- A far access's flow (R231, R232): ready for use, still to wait for, or refused with an error. -/
inductive FarFlow where
  | ready (fi : Nat)
  | wait (s : State)
  | refused (code : Nat)

/-- Find or begin the flow a far access needs. -/
def State.farFlow (s : State) (job : Nat) (node : BitVec 18) : FarFlow :=
  match s.findFlow job node with
  | some i =>
    match (s.flow i).st with
    | .isOpen => .ready i
    | .failed => .refused eFlowLost
    | _ => .wait s
  | none =>
    match s.startSetup job node with
    | .inl e => .refused e
    | .inr s => .wait s

/-- A setup of this side that the fabric limit or the full table refuses is counted (R253). -/
def State.noteRefused (s : State) (code : Nat) : State :=
  if code = eFabricLimit ∨ code = eFlowTableFull then s.setupRefused else s

end Sys2Proof.Machine
end

