-- ==== Sys2Proof/Machine/Runner.lean ====
section
/-! DEFINITION. How an engine handles the command at the front of its stream (R96): the waits of step 1, the
checks of step 2 in their order, and only then the command's effect; retirement (R126), the stop count
(R144), the bound (R128) and pushes (R102, R104, R131, R168). -/

namespace Sys2Proof.Machine

/-- An input slot in use: its number, queue, KEEP, and the entry at the queue's head. -/
structure InRef where
  slot : Nat := 0
  qn : Nat := 0
  keep : Bool := false
  ent : QEntry := {}
  deriving DecidableEq, Repr

/-- A command that has come to the front of its stream. -/
structure Ctx where
  lc : Nat
  e : Eng
  f : Fetched
  v1 : Bool
  ins : List InRef
  outs : List Nat
  grp : Option (BitVec 12)
  deriving DecidableEq, Repr

/-- The command word. -/
def Ctx.w (c : Ctx) : Cmd := c.f.word

/-- The body fields, slots and checks of one opcode. -/
structure Row where
  /-- Body fields as (low bit, length), under VER 0x1 if the flag is set (R124). -/
  fields : Bool → Cmd → List (Nat × Nat)
  /-- Holds the body a reserved encoding (R433). -/
  encErr : Cmd → Bool := fun _ => false
  /-- The number of input slots, and the numbers of output slots that are right (R95, R105). -/
  slots : Cmd → Nat × List Nat
  /-- Further E_OPERAND and like checks of the slots step. -/
  operandErr : Ctx → Option Nat := fun _ => none
  /-- The queue mode an output must have: ring for a command's output (R101). -/
  outMode : Nat := 1
  /-- Shapes, formats, licence and ranges (R96). -/
  check : State → Ctx → Option Nat := fun _ _ => none
  /-- Waits after the checks: the stall cause, and the state the wait leaves. -/
  hold : State → Ctx → Option (Nat × State) := fun _ _ => none
  /-- May the command set up a flow: a refused setup is counted (R253). -/
  setsUp : Bool := false

/-- What becomes of an attempt to begin the command at the front. -/
inductive Adm where
  /-- Nothing to run here: no stream, a stopped one, passes of the last command still to enter (R122), another row's
  command. -/
  | off
  /-- No command is fetched (R127). -/
  | empty
  /-- The stop count holds the engine (R144). -/
  | stopCount
  | fail (code : Nat)
  /-- One array cycle of waiting under a stall cause. -/
  | stall (cause : Nat) (s : State)
  | go (c : Ctx)

/-- The slots in use, in order. -/
def Cmd.inSlots (w : Cmd) : List Nat := (List.range 4).filter (fun i => slotUsed (w.slot i))
/-- The output slots in use. -/
def Cmd.outSlots (w : Cmd) : List Nat := [4, 5].filter (fun i => slotUsed (w.slot i))
/-- Every queue named. -/
def Cmd.queues (w : Cmd) : List Nat := (w.inSlots ++ w.outSlots).map (fun i => slotQueue (w.slot i))

/-- Is a head Ready to this engine: an entry of a pending extent only to engines of its group (R169), a
placed running sum only where `placed` admits it (R86). -/
def headReady (co : Core) (qn : Nat) (g : Option (BitVec 12)) (placed : Bool) : Option QEntry :=
  match (co.seq.queue qn).head with
  | some x =>
    if (x.st == .ready || (placed && x.st == .placed)) && !co.hidden qn x g then some x else none
  | none => none

/-- Step 1 of R96: the stall cause of a wait, if any. -/
def stepOne (co : Core) (w : Cmd) (g : Option (BitVec 12)) : Option Nat :=
  let inWait := w.inSlots.any (fun i =>
    let qn := slotQueue (w.slot i)
    (co.seq.queue qn).off? || (headReady co qn g (w.op == 0x54 && i == 1 && fld w 70 2 != 2)).isNone)
  let outWait := w.outSlots.any (fun i => (co.seq.queue (slotQueue (w.slot i))).off?)
  if inWait then some 0 else if outWait then some 1 else none

/-- The reserved-field step of R96: header bits [15:12], unused slots, KEEP in output slots, the body. -/
def reservedErr (r : Row) (v1 : Bool) (w : Cmd) : Bool :=
  fld w 12 4 ≠ 0
    || (List.range 6).any (fun i => !slotUsed (w.slot i) && w.slot i ≠ 0)
    || [4, 5].any (fun i => slotKeep (w.slot i) && slotUsed (w.slot i))
    || !bodyClean w (r.fields v1 w) || r.encErr w

/-- The use of queue-end slots (R95): each opcode's slots in order, no queue twice; under VER 0x1 no queue
above 31 (R124). -/
def slotsErr (r : Row) (v1 : Bool) (w : Cmd) : Bool :=
  let (n, outs) := r.slots w
  w.inSlots ≠ List.range n || !outs.contains w.outSlots.length || w.outSlots ≠ [4, 5].take w.outSlots.length
    || hasDup w.queues || (v1 && w.queues.any (· ≥ 32))

/-- The checks of step 2 of R96, stopping at the first failure. An output's mode comes before its owner: an output that
names a list or window queue, whose producer no command's engine can be, stops with E_QUEUE_MODE (R101). -/
def checkErr (r : Row) (s : State) (c : Ctx) : Option Nat :=
  let q := (s.core c.lc).seq
  if reservedErr r c.v1 c.w then some eReserved
  else if slotsErr r c.v1 c.w then some eOperand
  else
    match r.operandErr c with
    | some e => some e
    | none =>
      if c.ins.any (fun i => (q.queue i.qn).cons ≠ c.e.code) then some eQueueOwner
      else if c.outs.any (fun o => (q.queue o).mode ≠ r.outMode) then some eQueueMode
      else if c.outs.any (fun o => (q.queue o).prod ≠ c.e.code && r.outMode ≠ 2) then some eQueueOwner
      else
        match c.ins.findSome? (fun i => if i.ent.gather.isSome then none else q.descErr c.v1 i.ent.desc) with
        | some e => some e
        | none => r.check s c

/-- Does an array engine hold a kept tile: preempted, it runs on through the command that drains it (R375). -/
def Core.keepsTile (co : Core) (e : Eng) : Bool :=
  let kept (a : ArrayU) : Bool := a.tile0.st == .kept || a.tile1.st == .kept
  match e with
  | .f => kept co.arrF
  | .g0 => kept co.arrG0
  | .g1 => kept co.arrG1
  | _ => false

/-- Does the engine run: its task is not stopping, being preempted or held by a device-level fault, and the
core is not parked. -/
def engineRuns (s : State) (lc : Nat) (e : Eng) : Bool :=
  let co := s.core lc
  (co.seq.eng e).status == .running && !s.mgmt.faultActive && !(s.dom co.phys.toNat).parked &&
    (match co.seq.task with
     | some t => t.stop.isNone && (!t.preempting || co.keepsTile e)
     | none => false)

/-- Has an array engine passes of its last command still to enter: it begins no further one (R122). -/
def Core.issuing (co : Core) (e : Eng) : Bool :=
  match e with
  | .f => !co.arrF.passes.isEmpty
  | .g0 => !co.arrG0.passes.isEmpty
  | .g1 => !co.arrG1.passes.isEmpty
  | _ => false

/-- The command at the front as a row sees it. -/
def frontCtx (s : State) (lc : Nat) (e : Eng) (f : Fetched) : Ctx :=
  let co := s.core lc
  let w : Cmd := f.word
  let g := (co.seq.eng e).curGrp
  { lc := lc
    e := e
    f := f
    v1 := w.ver == 1
    ins := w.inSlots.map (fun i =>
      { slot := i, qn := slotQueue (w.slot i), keep := slotKeep (w.slot i)
        ent := ((co.seq.queue (slotQueue (w.slot i))).head).getD {} })
    outs := w.outSlots.map (fun i => slotQueue (w.slot i))
    grp := if w.ver == 1 then none else g }

/-- An attempt to begin the front command as opcode `op` (R96). A word whose opcode is another row's is not
this row's to run; an undefined opcode, or one this engine does not execute, stops under any row. -/
def admission (r : Row) (op : Nat) (s : State) (lc : Nat) (e : Eng) : Adm :=
  if !engineRuns s lc e || (s.core lc).issuing e then .off
  else
    let co := s.core lc
    let g := co.seq.eng e
    match g.fetched with
    | [] => .empty
    | f :: _ =>
      let w : Cmd := f.word
      let mine := w.op == op
      let bad := !(opEngines w.op).contains e
      if !mine && !bad && f.fault ≠ some .poison then .off
      else if co.seq.stopEnable && co.seq.stopEngine.toNat == e.code && g.begunCount ≥ co.seq.stopN.toNat then .stopCount
      else if g.applyHold then .stall 9 s
      else if e ≠ .f ∧ e ≠ .g0 ∧ e ≠ .g1 ∧ g.begun ≠ [] then .off
      else if g.begun.length ≥ 128 then .stall 7 s
      else if f.fault = some .poison then .fail ePoison
      else if f.fault = some .loop ∧ w.op ≠ 0x04 then .fail eLoop
      else
        match stepOne co w g.curGrp with
        | some cause => .stall cause s
        | none =>
          let duncen := co.seq.duncen
          if !(w.ver == 2 || (w.ver == 1 && duncen)) then .fail eVersion
          else if bad || (w.ver == 1 && duncenAbsent w.op) then .fail eOpcode
          else
            let c := frontCtx s lc e f
            match checkErr r s c with
            | some code => .fail code
            | none =>
              match r.hold s c with
              | some (cause, s') => .stall cause s'
              | none => .go c

/-- The default wait limit of a task in ns (R106, R137). -/
def Sequencer.defaultLimit (q : Sequencer) : Nat := q.waitDefault.toNat * 1000

/-- An array cycle of waiting: counted under its cause. A wait for an input, a Free entry or a pair half runs against the
default limit from its first cycle (R106, R142); no other wait has a limit. -/
def State.stallNow (s : State) (lc : Nat) (e : Eng) (cause : Nat) : State :=
  s.onSeq lc (fun q =>
    let q := q.stall e cause
    q.onEng e (fun g =>
      { g with wait :=
          if cause > 1 then none
          else match g.wait with
            | some w =>
              if w.explicit || w.cause == cause then some w
              else some { cause := cause, since := s.coreNs lc, limit := q.defaultLimit }
            | none => some { cause := cause, since := s.coreNs lc, limit := q.defaultLimit } }))

/-- An array cycle of an engine that has no fetched command: it counts check hold while the checks of its last mm.tongs
complete (R66, log 193), operand empty while fetch has more to bring (R127), and nothing else. -/
def State.idleStall (s : State) (lc : Nat) (e : Eng) : State :=
  let g := s.eng lc e
  if g.begun.any (fun b => Cmd.op b.word == 0x22) then s.onSeq lc (fun q => q.stall e 7)
  else if g.fetchDone then s
  else s.onSeq lc (fun q => q.stall e 0)

/-- The stop count is reached: HIT is set and the task stops, unless something has stopped it before; an engine that has
executed stop stays at its stop (R141, R144–R146). -/
def State.hitStop (s : State) (lc : Nat) (e : Eng) : State :=
  let stopping : Bool := match (s.core lc).seq.task with
    | some t => t.stop.isSome
    | none => false
  if stopping then s
  else
    (s.onSeq lc (fun q =>
      let q := Sequencer.stopTask { q with stopHit := true } (s.coreNs lc) (.stopCount e.code)
      q.onEng e (fun g =>
        { g with status := if g.status = .stopped then .stopped else .stopCount, wait := none }))).noteStop lc

/-- Run the front command of an engine as a row. -/
def runCmd (r : Row) (op : Nat) (eff : Ctx → State → State) (lc : Nat) (e : Eng) (s : State) : Res :=
  match admission r op s lc e with
  | .off => .next s
  | .empty => .next (s.idleStall lc e)
  | .stopCount => .next (if (s.eng lc e).retired.toNat ≥ (s.core lc).seq.stopN.toNat then s.hitStop lc e else s)
  | .fail code => .next ((if r.setsUp then s.noteRefused code else s).failStream lc e code)
  | .stall cause s' => .next (s'.stallNow lc e cause)
  | .go c => .next (eff c s)

/-! ### Retirement and release -/

/-- After a retirement: the stop count (R144), then the bound (R128). -/
def State.afterRetire (s : State) (lc : Nat) (e : Eng) (ends : Bool) : State :=
  let q := (s.core lc).seq
  let g := q.eng e
  if q.stopEnable ∧ q.stopEngine.toNat = e.code ∧ g.retired.toNat ≥ q.stopN.toNat then s.hitStop lc e
  else if !ends ∧ g.status = .running ∧ g.fetched = [] ∧ g.begun = [] ∧ g.fetchDone ∧ g.fetchPos ≥ g.off + g.bound then
    s.failStream lc e eCodeBound
  else s

/-- A command that completes at once leaves the command queue and counts as begun and retired (R136). -/
def State.leaveFront (s : State) (c : Ctx) (loops : List Loop) : State :=
  s.onEng c.lc c.e (fun g =>
    { g with fetched := g.fetched.drop 1, begunCount := g.begunCount + 1, retired := satInc g.retired
             loops := loops, wait := none, replaying := false })

/-- A command that completes at once retires. -/
def State.retireFront (s : State) (c : Ctx) (loops : List Loop) (ends : Bool := false) : State :=
  (s.leaveFront c loops).afterRetire c.lc c.e ends

/-- The inputs of a command that completes at once are popped and released; a KEEP input stays (R102, R103). -/
def State.consume (s : State) (c : Ctx) : State :=
  c.ins.foldl (fun s i =>
    if i.keep then s
    else (s.onQueue c.lc i.qn (fun q => q.pop i.ent.id)).releaseEntry c.lc i.qn i.ent.id) s

/-- A command that consumed poison: outputs are written poisoned, it retires, and its stream stops with
E_POISON (R278). -/
def State.poisonStop (s : State) (c : Ctx) : State := s.failBegun c.lc c.e ePoison none

/-! ### Outputs -/

/-- Has an output's ring no Free entry: result full (R102). -/
def outputsFull (s : State) (c : Ctx) : Bool :=
  c.outs.any (fun o => !((s.core c.lc).seq.queue o).canReserve)

/-- The error of an output tile: beyond SLOT_WORDS (R104), beyond its segment or without WRITE (R154), or an
aborted group's tag (R272). -/
def outErr (s : State) (c : Ctx) (i fmt rows cols : Nat) : Option Nat :=
  let sq := (s.core c.lc).seq
  let q := sq.queue (c.outs.getD i 0)
  if tileWords fmt rows cols > q.slotWords then some eShape
  else
    let d := q.slotDesc fmt rows cols none
    match sq.extentErr d.seg d.top permWrite with
    | some e => some e
    | none => sq.tagErr c.grp

/-- The absolute words of output slot `i` for a tile. -/
def outRuns (s : State) (c : Ctx) (i fmt rows cols : Nat) : List (Nat × Nat) :=
  let sq := (s.core c.lc).seq
  let d := (sq.queue (c.outs.getD i 0)).slotDesc fmt rows cols none
  sq.absRuns d.seg d.runs

/-- The rows of its tile table that a gathered operand names (R82). -/
def Gather.rows (g : Gather) : List Nat :=
  g.idx.flatMap (fun i => if i = 0xFFFFFFFF then [] else (List.range g.r).map (fun j => i * g.r + j))

/-- The absolute words of the inputs' footprints; of a gathered operand the named rows. -/
def inRuns (s : State) (c : Ctx) : List (Nat × Nat) :=
  let sq := (s.core c.lc).seq
  c.ins.flatMap (fun i => match i.ent.gather with
    | some g => sq.absRuns g.table.seg (g.rows.flatMap (fun r => g.table.rowRuns r 0 g.table.cols))
    | none => sq.absRuns i.ent.desc.seg i.ent.desc.runs)

/-- The waits of an access (R169, R172): words in a section that is not On wake it and count bank conflict;
reads in another group's pending extent count operand empty, writes result full. -/
def accessHold (s : State) (c : Ctx) (reads writes : List (Nat × Nat)) : Option (Nat × State) :=
  let co := s.core c.lc
  if co.scp.blocked c.grp writes then some (1, s)
  else if co.scp.blocked c.grp reads then some (0, s)
  else
    match co.scp.asleep (runSections (reads ++ writes)) with
    | [] => none
    | ks => some (2, s.onScp c.lc (fun m => m.wake ks))

/-- The waits of a command that writes the given output tiles at once: no Free entry, then the accesses. -/
def tileHold (s : State) (c : Ctx) (outs : List (Nat × Nat × Nat)) : Option (Nat × State) :=
  if outputsFull s c then some (1, s)
  else
    accessHold s c (inRuns s c)
      ((List.range outs.length).flatMap (fun i =>
        let (f, r, k) := outs.getD i (0, 0, 0)
        outRuns s c i f r k))

/-- Write marked bytes to output slot `i` and push the entry: refused whole where it touches an active code
region (R131), tagged with the group as a pending extent (R168). -/
def State.pushTile (s : State) (c : Ctx) (i fmt rows cols : Nat) (data : List MB) : Option State :=
  let qn := c.outs.getD i 0
  let co := s.core c.lc
  let q := co.seq.queue qn
  let d := q.slotDesc fmt rows cols c.grp
  let rs := co.seq.absRuns d.seg d.runs
  if co.codeHit rs then none
  else
    let base := 4 * ((co.seq.seg d.seg).base.toNat + d.off)
    let s := s.onScp c.lc (fun m => m.writeRun (co.seq.durable d.seg) base data)
    let s := s.onQueue c.lc qn (fun q => q.add d .ready)
    match c.grp with
    | none => some s
    | some g => some (s.addExtent c.lc g rs (some (qn, q.made)))

/-- Push several tiles in order of output slot. -/
def State.pushTiles (s : State) (c : Ctx) : Nat → List Tile → Option State
  | _, [] => some s
  | i, t :: r =>
    match s.pushTile c i t.fmt t.rows t.cols (mbMark t.poison t.bytes) with
    | none => none
    | some s => State.pushTiles s c (i + 1) r

/-- A V, Q or like command completes: its outputs are pushed, its inputs released, it retires; a refused
output stops the task with E_CODE_MODIFIED and pushes nothing (R131); poison consumed stops the stream as it
retires (R278), before the stop count is looked at (R145). -/
def State.complete (s : State) (c : Ctx) (tiles : List Tile) (poison : Bool) : State :=
  match s.pushTiles c 0 tiles with
  | none => s.failStream c.lc c.e eCodeModified
  | some s =>
    let s := (s.consume c).leaveFront c c.f.loops
    (if poison then s.poisonStop c else s).afterRetire c.lc c.e false

end Sys2Proof.Machine
end

