-- ==== Sys2Proof/Machine/Barriers.lean ====
section
/-! DEFINITION. Barriers on the sending side (R245, R246): arrivals of this device's cores, BARRIER to the
parent, RELEASE to the children, and bar.arrive. -/

namespace Sys2Proof.Machine

/-- A collective group context. -/
def State.coll (s : State) (n : BitVec 20) : Coll := Tbl.get {} s.fab.colls n.toNat
/-- Change a collective group context. -/
def State.onColl (s : State) (n : BitVec 20) (f : Coll → Coll) : State :=
  { s with fab := { s.fab with colls := Tbl.upd {} s.fab.colls n.toNat f } }

/-- Has the group completed an epoch or a later one (R246): C is the epoch before the oldest incomplete one. -/
def Coll.completed (c : Coll) (e : BitVec 32) : Bool := (c.epoch - 1 - e).toNat < 2 ^ 31

/-- Send BARRIER to a node of the group's job: on its Open flow, or owed until a flow to it opens (R231). -/
def State.collSend (s : State) (n : BitVec 20) (node : BitVec 18) (release : Bool) (e : BitVec 32) : State :=
  let job := (s.coll n).job
  let owe (s : State) : State := s.onColl n (fun c => { c with owed := c.owed ++ [(node, release, e)] })
  match s.findFlow job node with
  | some i =>
    if (s.flow i).st = .isOpen then s.sendCtl i 0xB 0 (barrierBody n release e) else owe s
  | none =>
    match s.startSetup job node with
    | .inl c => owe (s.noteRefused c)
    | .inr s => owe s

/-- What the groups of running jobs owe to nodes with no flow any more begins a new setup (R234, log 200). -/
def State.collRetry (s : State) : State :=
  s.fab.colls.foldl (fun s (_, c) =>
    if !c.used || (s.job c.job).st != .running then s
    else
      c.owed.foldl (fun s o =>
        match s.findFlow c.job o.1 with
        | some _ => s
        | none =>
          match s.startSetup c.job o.1 with
          | .inl c => s.noteRefused c
          | .inr s => s) s) s

/-- What a group still owes a node goes out once a flow to it is Open. -/
def State.collFlush (s : State) (fi : Nat) : State :=
  let f := s.flow fi
  s.fab.colls.foldl (fun s (n, c) =>
    if c.job = f.job then
      let mine := c.owed.filter (fun o => o.1 == f.node)
      let s := mine.foldl (fun s o => s.sendCtl fi 0xB 0 (barrierBody (BitVec.ofNat 20 n) o.2.1 o.2.2)) s
      if mine = [] then s
      else s.onColl (BitVec.ofNat 20 n) (fun c => { c with owed := c.owed.filter (fun o => o.1 != f.node) })
    else s) s

/-- Epoch E is complete: RELEASE goes to the children and the arrivals for E + 1 move up (R245, R246). -/
def State.collComplete (s : State) (n : BitVec 20) : State :=
  let c := s.coll n
  let s := c.children.foldl (fun s ch => s.collSend n ch true c.epoch) s
  s.onColl n (fun c =>
    { c with
      epoch := c.epoch + 1
      arrived := c.arrivedNext
      arrivedNext := 0
      kids := c.kidsNext
      kidsNext := []
      up := false })

/-- Is the local part of the oldest incomplete epoch complete: every member core and every child. -/
def Coll.local? (c : Coll) : Bool :=
  c.arrived &&& c.members == c.members && c.children.all (fun k => c.kids.contains k)

/-- Advance a group: BARRIER to the parent, or at the root completion (R245). A root whose next epoch is
complete too completes both. -/
def State.collPump (s : State) (n : BitVec 20) : State :=
  let go (s : State) : State :=
    let c := s.coll n
    if c.used && c.local? && !c.up then
      match c.parent with
      | some p => (s.onColl n (fun c => { c with up := true })).collSend n p false c.epoch
      | none => s.collComplete n
    else s
  go (go s)

/-- A member core's arrival for epoch `e`: none where the epoch lies more than one ahead (R246). -/
def State.collArrive (s : State) (n : BitVec 20) (lc : Nat) (e : BitVec 32) : Option State :=
  let c := s.coll n
  let b := BitVec.ofNat 64 (2 ^ lc)
  if !c.used then none
  else if e = c.epoch then some ((s.onColl n (fun c => { c with arrived := c.arrived ||| b })).collPump n)
  else if e = c.epoch + 1 then some (s.onColl n (fun c => { c with arrivedNext := c.arrivedNext ||| b }))
  else if c.completed e then some s
  else none

/-- COLL and EPOCH of a barrier command (R121). -/
def barColl (w : Cmd) : BitVec 20 := BitVec.ofNat 20 (fld w 64 20)
def barEpoch (w : Cmd) : BitVec 32 := BitVec.ofNat 32 (fld w 96 32)

/-- The row of bar.arrive. An epoch more than one ahead, or a group this device holds no context of, waits as
an implicit wait (R246), counted under operand empty (log 20). -/
def barArriveRow : Row :=
  { fields := fun _ _ => [(64, 20), (96, 32)]
    slots := fun _ => (0, [0])
    hold := fun s c => if (s.collArrive (barColl c.w) c.lc (barEpoch c.w)).isSome then none else some (0, s) }

/-- BAR_ARRIVE (R245): the core's arrival for COLL and EPOCH, without waiting. -/
def execBarArrive (lc : Fin 64) (s : State) : Res :=
  runCmd barArriveRow 0x0C (fun c s =>
    ((s.collArrive (barColl c.w) c.lc (barEpoch c.w)).getD s).retireFront c c.f.loops) lc .s s

end Sys2Proof.Machine
end

