-- ==== Sys2Proof/Machine/Flags.lean ====
section
/-! DEFINITION. The sticky numeric flags (R51, R91): how a result sets them and where they are kept. -/

namespace Sys2Proof.Machine

/-- Flag bits of SEQ_VEC_FLAGS (R91). -/
structure VFlags where
  nan : Bool := false
  inf : Bool := false
  sat : Bool := false
  deriving DecidableEq, Repr

/-- Either set of flags. -/
def VFlags.or (a b : VFlags) : VFlags := { nan := a.nan || b.nan, inf := a.inf || b.inf, sat := a.sat || b.sat }

/-- NAN_SEEN, INF_SEEN and SAT bits of a set of flags. -/
def VFlags.word (f : VFlags) : Word := BitVec.ofNat 32 (b2n f.nan + 2 * b2n f.inf + 4 * b2n f.sat)

/-- V reports flags (R91). -/
def State.vecFlags (s : State) (lc : Nat) (f : VFlags) : State :=
  s.onInteg lc (fun g => { g with vecFlags := g.vecFlags ||| f.word })

/-- Q reports flags: TOPK_SHORT 0, HIST_OOR 1, HIST_SAT 2, CHAIN_NAN 3 (R91). -/
def State.redFlags (s : State) (lc : Nat) (w : Word) : State :=
  s.onInteg lc (fun g => { g with redFlags := g.redFlags ||| w })

/-- An array reports flags: NAN_SEEN 0, INF_SEEN 1, SAT_INT 2, DRAIN_SAT 3, BITS_DISCARDED 4 (R51). -/
def State.arrFlags (s : State) (lc : Nat) (a : Arr) (w : Word) : State :=
  s.onArray lc a (fun x => { x with flags := x.flags ||| w })

end Sys2Proof.Machine
end

