-- ==== Sys2Proof/Machine/Arrays.lean ====
section
/-! DEFINITION. The array engines: mm, mm.win3d, mm.tongs, gather.tile (R28–R67, R82–R84, R107–R112, R431),
the passes, the drain, the checker lane and the replay of array commands (R254–R260). -/

namespace Sys2Proof.Machine

/-! ### Fields (R107, R110, R111) -/

/-- The group size of a G code; VER 0x1 fixes 4 (R107, R124). -/
def groupOf (g : Nat) : Nat := if g = 0 then 4 else if g = 1 then 8 else 16

def mmOutFmt (w : Cmd) : Nat := fld w 66 4
def mmRnd (w : Cmd) : Bool := bit w 70
def mmSat (w : Cmd) : Bool := bit w 71
def mmTransA (w : Cmd) : Bool := w.op == 0x20 && bit w 72
def mmTransB (w : Cmd) : Bool := w.op == 0x20 && bit w 73
def mmAcc (w : Cmd) : Bool := if w.op = 0x20 then bit w 74 else bit w 95
def mmDrain (w : Cmd) : Bool := if w.op = 0x20 then bit w 75 else bit w 159
def mmPass (w : Cmd) : Nat := if w.op = 0x20 then fld w 76 8 + 1 else fld w 72 8 + 1
def mmSeed (w : Cmd) : Nat := fld w 96 32

/-- Parameters of a window gather (R54, R110), each as (t, h, w). -/
structure Win3d where
  kt : Nat
  kh : Nat
  kw : Nat
  st : Nat
  sh : Nat
  sw : Nat
  dt : Nat
  dh : Nat
  dw : Nat
  pt : Nat
  pt' : Nat
  ph : Nat
  ph' : Nat
  pw : Nat
  pw' : Nat
  ot : Nat
  oh : Nat
  ow : Nat
  deriving DecidableEq, Repr

/-- The body of mm.win3d (R110). -/
def win3d (w : Cmd) : Win3d :=
  { kt := fld w 80 3 + 1, kh := fld w 83 3 + 1, kw := fld w 86 3 + 1
    st := fld w 89 2 + 1, sh := fld w 91 2 + 1, sw := fld w 93 2 + 1
    dt := fld w 128 2 + 1, dh := fld w 130 2 + 1, dw := fld w 132 2 + 1
    pt := fld w 134 5, pt' := fld w 139 5, ph := fld w 144 5, ph' := fld w 149 5
    pw := fld w 154 5, pw' := fld w 160 5
    ot := fld w 176 16 + 1, oh := fld w 192 16 + 1, ow := fld w 208 16 + 1 }

/-- An input extent from its output extent (R54, R110). -/
def inExtent (o st k d p p' : Nat) : Int := (o - 1 : Nat) * st + (d * (k - 1) : Nat) + 1 - p - p'

def Win3d.ti (x : Win3d) : Int := inExtent x.ot x.st x.kt x.dt x.pt x.pt'
def Win3d.hi (x : Win3d) : Int := inExtent x.oh x.sh x.kh x.dh x.ph x.ph'
def Win3d.wi (x : Win3d) : Int := inExtent x.ow x.sw x.kw x.dw x.pw x.pw'

/-! ### Operands of the arrays -/

/-- Where an operand's elements are read from: a tile as stored, transposed, gathered tiles, a window
gather, or a tap-shifted tile. -/
inductive Source where
  | tile (d : Desc) (trans : Bool)
  | gathered (g : Gather)
  | window (d : Desc) (x : Win3d)
  | tap (d : Desc) (trans : Bool) (tt th tw : Nat) (ot oh ow : Int)

/-- A product as an array computes it: M × K moving, K × N stationary. -/
structure Prod where
  moving : Source
  stat : Source
  mFmt : Nat
  sFmt : Nat
  m : Nat
  k : Nat
  n : Nat
  g : Nat

/-- The permitted pairs (R36): stationary, moving. -/
def pairOk (st mv : Nat) : Bool :=
  let fp8 (f : Nat) := f == 3 || f == 4
  if fp8 st then fp8 mv || isMx mv || mv == 1 || mv == 2
  else if isMx st then fp8 mv || isMx mv
  else (st == 1 && mv == 1) || (st == 2 && mv == 2) || (st == 8 && mv == 8)

/-- A gathered operand's rows before any transpose (R82). -/
def Gather.rowCount (g : Gather) : Nat := g.idx.length * g.r

/-- M, K of a moving source, K, N of a stationary one (R107, R431, R84). -/
def gatherShape (g : Gather) : Nat × Nat :=
  if g.trans then (g.table.cols, g.rowCount) else (g.rowCount, g.table.cols)

/-- The gathered operand of an input, if it is one. -/
def InRef.gathered (i : InRef) : Option Gather := i.ent.gather

/-- The product of an mm or mm.win3d from its two inputs (R107, R110, R431). -/
def mmProd (w : Cmd) (v1 : Bool) (a b : QEntry) : Prod :=
  let g := if v1 then 4 else groupOf (fld w 64 2)
  let bd := b.desc
  let (kb, n) := if isMx bd.fmt || mmTransB w then (bd.cols, bd.rows) else (bd.rows, bd.cols)
  if w.op = 0x21 then
    let x := win3d w
    { moving := .window a.desc x, stat := .tile bd (isMx bd.fmt), mFmt := a.desc.fmt, sFmt := bd.fmt
      m := x.ot * x.oh * x.ow, k := kb, n := n, g := g }
  else
    match a.gather with
    | some ga =>
      let (m, k) := gatherShape ga
      { moving := .gathered ga, stat := .tile bd (isMx bd.fmt || mmTransB w), mFmt := ga.table.fmt, sFmt := bd.fmt
        m := m, k := if k = kb then k else 0, n := n, g := g }
    | none =>
      let ad := a.desc
      let (m, k) := if mmTransA w then (ad.cols, ad.rows) else (ad.rows, ad.cols)
      { moving := .tile ad (mmTransA w), stat := .tile bd (isMx bd.fmt || mmTransB w), mFmt := ad.fmt, sFmt := bd.fmt
        m := m, k := if k = kb then k else 0, n := n, g := g }

/-- A source read from the scratchpad: its elements by (row, column) with their block scale codes, its
poison, and the banks after the read. -/
structure Loaded where
  tile : Tile := {}
  deriving Repr

/-- The descriptors a source reads. -/
def Source.descs : Source → List Desc
  | .tile d _ => [d]
  | .gathered g => [g.table]
  | .window d _ => [d]
  | .tap d _ _ _ _ _ _ _ => [d]

/-- The tile a source reads from. -/
def Source.desc : Source → Desc
  | .tile d _ => d
  | .gathered g => g.table
  | .window d _ => d
  | .tap d _ _ _ _ _ _ _ => d

/-- An element of a source at (row, column) of the product's operand: its stored place, or none for a zero
generated without a read (R55, R67, R82). -/
def Source.place (s : Source) (r c : Nat) : Option (Nat × Nat) :=
  match s with
  | .tile _ tr => some (if tr then (c, r) else (r, c))
  | .gathered g =>
    let (r, c) := if g.trans then (c, r) else (r, c)
    let i := g.idx.getD (r / g.r) 0xFFFFFFFF
    if i = 0xFFFFFFFF then none else some (i * g.r + r % g.r, c)
  | .window _ x =>
    let ch := (s.desc).cols
    -- output position r: w fastest, then h, then t; K index c: channel fastest, then w, h, t
    let (ow, oh, ot) := (r % x.ow, r / x.ow % x.oh, r / x.ow / x.oh)
    let (cc, q) := (c % ch, c / ch)
    let (kw, kh, kt) := (q % x.kw, q / x.kw % x.kh, q / x.kw / x.kh)
    let t : Int := (ot * x.st + kt * x.dt : Nat) - x.pt
    let h : Int := (oh * x.sh + kh * x.dh : Nat) - x.ph
    let w : Int := (ow * x.sw + kw * x.dw : Nat) - x.pw
    if 0 ≤ t ∧ t < x.ti ∧ 0 ≤ h ∧ h < x.hi ∧ 0 ≤ w ∧ w < x.wi then
      some ((t.toNat * x.hi.toNat + h.toNat) * x.wi.toNat + w.toNat, cc)
    else none
  | .tap _ tr tt th tw ot oh ow =>
    let (r, c) := if tr then (c, r) else (r, c)
    let (w0, h0, t0) := (r % tw, r / tw % th, r / tw / th)
    let t : Int := t0 + ot
    let h : Int := h0 + oh
    let w : Int := w0 + ow
    if 0 ≤ t ∧ t < tt ∧ 0 ≤ h ∧ h < th ∧ 0 ≤ w ∧ w < tw then
      some ((t.toNat * th + h.toNat) * tw + w.toNat, c)
    else none

/-- The stored places of a part of a source, zeros left out. -/
def Source.spots (s : Source) (r0 rn c0 cn : Nat) : List (Nat × Nat) :=
  (List.range rn).flatMap (fun i => (List.range cn).filterMap (fun j => s.place (r0 + i) (c0 + j)))

/-- Is a source delivered through the transpose buffer (R57); MX operands are not (R58). -/
def Source.turned : Source → Nat → Bool
  | .tile _ tr, fmt => tr && !isMx fmt
  | .gathered g, _ => g.trans
  | .window .., _ => false
  | .tap _ tr .., _ => tr

/-- Runs of contiguous channels in the 128 elements of one gathered row (R56). -/
def Source.runsIn (s : Source) (r c0 cn : Nat) : Nat :=
  match s with
  | .window d _ =>
    (((List.range cn).filter (fun j => (s.place r (c0 + j)).isSome)).map (fun j => (c0 + j) / d.cols)).eraseDups.length
  | _ => 0

/-- An element's code and block scale code. -/
def srcElem (s : Source) (t : Tile) (r c : Nat) : Nat × Nat :=
  match s.place r c with
  | none => (0, 127)
  | some (a, b) => (t.code a b, (t.scales.getD a []).getD (b / 32) 127)

/-- An element's value without its scale; a scale of 0xFF makes it NaN (R35). -/
def elemVal (fmt : Nat) (x : Nat × Nat) : Fp :=
  if isMx fmt && x.2 == 0xFF then .nan else decodeFmt fmt x.1

/-- The exponent a block scale gives. -/
def elemScale (fmt : Nat) (x : Nat × Nat) : Int := if isMx fmt then (x.2 : Int) - 127 else 0

/-! ### One pass (R28, R40–R42, R256) -/

/-- A floating running sum with the flags it met: sum, a rounding overflowed, bits discarded. -/
structure Run where
  sum : Word := 0
  inf : Bool := false
  disc : Bool := false
  deriving DecidableEq, Repr

/-- Is a word an infinity. -/
def isInf (w : Word) : Bool := w.toNat % 2 ^ 31 == 0x7F800000
/-- Is a word finite. -/
def isFinW (w : Word) : Bool := w.toNat % 2 ^ 31 < 0x7F800000
/-- Is a word a NaN. -/
def isNanW (w : Word) : Bool := w.toNat % 2 ^ 31 > 0x7F800000

/-- Add into a running sum, noting an overflow from finite operands (R51). -/
def Run.add (a : Run) (x : Word) (xFin : Bool) : Run :=
  let y := plusZero (fadd a.sum x)
  { a with sum := y, inf := a.inf || (isInf y && isFinW a.sum && xFin) }

/-- A slice's column sum: groups in order, each rounded to FP32 (R40, R41). -/
def sliceSum (groups : List (List Fp × Int)) : Run :=
  groups.foldl (fun a (ps, sc) =>
    let g := groupSum ps
    let w := plusZero (g.round sc)
    let a := { a with disc := a.disc || g.sticky, inf := a.inf || (isInf w && g.val.isFin) }
    a.add w (isFinW w)) {}

/-- The K indices of group `j` of a slice. -/
def groupIdx (p : Pass) (g j : Nat) : List Nat :=
  ((List.range g).map (fun i => p.k0 + j * g + i)).filter (fun k => k < p.k0 + p.kLen)

/-- The groups of one output element's slice: products and their scale (R40). Rows beyond K are zero-filled
and add nothing (R42). -/
def elemGroups (pr : Prod) (p : Pass) (mt st : Tile) (r c : Nat) : List (List Fp × Int) :=
  (List.range (128 / pr.g)).map (fun j =>
    let ks := groupIdx p pr.g j
    let pair (k : Nat) := (srcElem pr.moving mt r k, srcElem pr.stat st k c)
    let sc := match ks with
      | [] => 0
      | k :: _ => let (a, b) := pair k; elemScale pr.mFmt a + elemScale pr.sFmt b
    (ks.map (fun k => let (a, b) := pair k; Fp.mul (elemVal pr.mFmt a) (elemVal pr.sFmt b)), sc))

/-- An INT8 element's slice sum. -/
def intSum (pr : Prod) (p : Pass) (mt st : Tile) (r c : Nat) : Int :=
  (List.range p.kLen).foldl (fun a i =>
    let k := p.k0 + i
    a + signedOf 8 (srcElem pr.moving mt r k).1 * signedOf 8 (srcElem pr.stat st k c).1) 0

/-- The checker's w[k] and u[k] of a stationary tile (R256): exact sums, rounded once to FP32. -/
def checkVec (pr : Prod) (p : Pass) (st : Tile) (k : Nat) : Word × Word :=
  let vs := (List.range p.cols).map (fun i =>
    let x := srcElem pr.stat st k (p.col0 + i)
    (elemVal pr.sFmt x).shift (elemScale pr.sFmt x))
  (toFp32 (vs.foldl Fp.add (.fin false 0 0)), toFp32 ((vs.map Fp.abs).foldl Fp.add (.fin false 0 0)))

/-- The checker's groups for a moving row against a vector. -/
def checkGroups (pr : Prod) (p : Pass) (mt : Tile) (vec : List Word) (r : Nat) (mag : Bool) : List (List Fp × Int) :=
  (List.range (128 / pr.g)).map (fun j =>
    let ks := groupIdx p pr.g j
    let sc := match ks with
      | [] => 0
      | k :: _ => elemScale pr.mFmt (srcElem pr.moving mt r k)
    (ks.map (fun k =>
      let a := elemVal pr.mFmt (srcElem pr.moving mt r k)
      Fp.mul (if mag then a.abs else a) (fp (vec.getD (k - p.k0) 0))), sc))

/-- INT8 checker sums of a row: Σ A·w and Σ |A|·u, exact (R256). -/
def checkInt (pr : Prod) (p : Pass) (mt st : Tile) (r : Nat) : Int × Int :=
  (List.range p.kLen).foldl (fun (a : Int × Int) i =>
    let k := p.k0 + i
    let x := signedOf 8 (srcElem pr.moving mt r k).1
    let bs := (List.range p.cols).map (fun j => signedOf 8 (srcElem pr.stat st k (p.col0 + j)).1)
    (a.1 + x * bs.foldl (· + ·) 0, a.2 + (x.natAbs * bs.foldl (fun (s : Nat) b => s + b.natAbs) 0 : Nat))) (0, 0)

/-- Replace element `i` of a list. -/
def setAt {α : Type} (l : List α) (i : Nat) (x : α) : List α := l.set i x

/-- One moving row enters: its column sums are added into row `i` of the tile, its checker elements too
(R28, R40, R42, R256). Answers the tile and the flags of R51; an addition whose result is NaN sets NAN_SEEN whatever the
element was (DEDUCED, log 180). -/
def rowEnter (pr : Prod) (p : Pass) (mt st : Tile) (wu : List (Word × Word)) (acc : AccTile × Word) (i : Nat) :
    AccTile × Word :=
  let (t, fl) := acc
  let r := p.row0 + i
  let tr := r - t.row0
  let base := tr * t.cols
  if t.int then
    let step (a : List Word × Word × Bool) (j : Nat) : List Word × Word × Bool :=
      let (cells, fl, sat) := a
      let (v, b) := satInt 32 ((cells.getD (base + j) 0).toInt + intSum pr p mt st r (p.col0 + j))
      (setAt cells (base + j) (BitVec.ofInt 32 v), if b then fl ||| 4 else fl, sat || b)
    let (cells, fl, sat) := (List.range p.cols).foldl step (t.cells, fl, false)
    let (c, u) := checkInt pr p mt st r
    ({ t with
        cells := cells
        chkC := setAt t.chkC tr (t.chkC.getD tr 0 + c)
        chkS := setAt t.chkS tr (t.chkS.getD tr 0 + u)
        satRows := if sat && !t.satRows.contains tr then t.satRows ++ [tr] else t.satRows }, fl)
  else
    let step (a : List Word × Word) (j : Nat) : List Word × Word :=
      let (cells, fl) := a
      let s := sliceSum (elemGroups pr p mt st r (p.col0 + j))
      let old := cells.getD (base + j) 0
      let y := plusZero (fadd old s.sum)
      let fl := if isNanW y then fl ||| 1 else fl
      let fl := if s.inf || (isInf y && isFinW old && isFinW s.sum) then fl ||| 2 else fl
      (setAt cells (base + j) y, if s.disc then fl ||| 16 else fl)
    let (cells, fl) := (List.range p.cols).foldl step (t.cells, fl)
    let chk (old : Int) (mag : Bool) : Int :=
      let s := sliceSum (checkGroups pr p mt (wu.map (fun x => if mag then x.2 else x.1)) r mag)
      ((fadd (BitVec.ofInt 32 old) s.sum).toNat : Int)
    ({ t with
        cells := cells
        chkC := setAt t.chkC tr (chk (t.chkC.getD tr 0) false)
        chkS := setAt t.chkS tr (chk (t.chkS.getD tr 0) true) }, fl)

/-- A fresh accumulator tile for a pass (R42, R46): every element +0. -/
def freshTile (pr : Prod) (p : Pass) : AccTile :=
  { st := .filling, cmd := p.cmd, row0 := p.trow, rows := p.tRows, col0 := p.col0, cols := p.cols
    int := pr.sFmt == 8, g := pr.g, cells := List.replicate (p.tRows * p.cols) 0
    chkC := List.replicate p.tRows 0, chkS := List.replicate p.tRows 0 }

/-- Array cycles a pass takes to enter: two rows in each at two products per cell, one in every fourth at ¼ (R36). -/
def passCycles (pr : Prod) (rows : Nat) : Nat :=
  if pr.mFmt = 1 ∨ pr.mFmt = 2 then 4 * rows
  else if isMx pr.mFmt && isMx pr.sFmt then ceilDiv rows 2
  else rows

/-- Array cycles a window gather needs beyond one a row (R56). -/
def gatherExtra (pr : Prod) (p : Pass) : Nat :=
  sumNat ((List.range p.rows).map (fun i => ceilDiv (pr.moving.runsIn (p.row0 + i) p.k0 p.kLen) 4 - 1))

/-- Array cycles by which the last pass fell short of the 128 that filling the transpose buffer takes (R57, log 192). -/
def turnShort (au : ArrayU) (turned : Bool) : Nat := if turned then 128 - au.lastPass.getD 128 else 0

/-- The passes of a product in issue order: row blocks outermost, then 512-column blocks, then slices
(R108). With `kept` every row block fills one tile of M rows. -/
def mmPasses (serial : Nat) (pr : Prod) (pass : Nat) (kept : Bool) : List Pass :=
  let nb := ceilDiv pr.m pass
  (List.range nb).flatMap (fun b =>
    let r0 := b * pass
    let rows := min pass (pr.m - r0)
    (List.range (ceilDiv pr.n 512)).flatMap (fun cb =>
      let c0 := cb * 512
      (List.range (ceilDiv pr.k 128)).map (fun sl =>
        let lastSlice : Bool := sl + 1 == ceilDiv pr.k 128
        { cmd := serial
          trow := if kept then 0 else r0
          tRows := if kept then pr.m else rows
          row0 := r0
          rows := rows
          col0 := c0
          cols := min 512 (pr.n - c0)
          k0 := sl * 128
          kLen := min 128 (pr.k - sl * 128)
          last := lastSlice && (!kept || b + 1 == nb) })))

/-- Accumulator tiles a product drains into. -/
def mmTiles (pr : Prod) (pass : Nat) (kept : Bool) : Nat :=
  (if kept then 1 else ceilDiv pr.m pass) * ceilDiv pr.n 512

/-! ### The kept tile (R108) -/

/-- Which tile is in a state. -/
def ArrayU.find (a : ArrayU) (p : AccTile → Bool) : Option Bool :=
  if p a.tile0 then some false else if p a.tile1 then some true else none
/-- The kept tile. -/
def ArrayU.kept (a : ArrayU) : Option AccTile := (a.find (fun t => t.st == .kept)).map a.tile

/-- Put the engine as an array. -/
def arrOf : Eng → Arr
  | .g0 => .g0 | .g1 => .g1 | _ => .f

/-! ### mm and mm.win3d -/

/-- The reserved encodings of mm (R107, R124, R433). -/
def mmEncErr (w : Cmd) : Bool := w.ver ≠ 1 && fld w 64 2 == 3

/-- The body fields of mm; G, RND and SEED are reserved under VER 0x1 (R107, R124). -/
def mmFields (v1 : Bool) (_ : Cmd) : List (Nat × Nat) :=
  if v1 then [(66, 4), (71, 13)] else [(64, 20), (96, 32)]

/-- The body fields of mm.win3d (R110). -/
def win3dFields (v1 : Bool) (_ : Cmd) : List (Nat × Nat) :=
  (if v1 then [(66, 4), (71, 9)] else [(64, 16), (96, 32)]) ++ [(80, 16), (128, 37), (176, 48)]

/-- Window gather parameters outside R54's limits, or an activation tile that does not fit (R54, R110). -/
def win3dErr (w : Cmd) (ad : Desc) (kb : Nat) : Bool :=
  let x := win3d w
  x.pt > x.dt * (x.kt - 1) || x.pt' > x.dt * (x.kt - 1) || x.ph > x.dh * (x.kh - 1) || x.ph' > x.dh * (x.kh - 1)
    || x.pw > x.dw * (x.kw - 1) || x.pw' > x.dw * (x.kw - 1)
    || x.ti < 1 || x.hi < 1 || x.wi < 1
    || (ad.rows : Int) ≠ x.ti * x.hi * x.wi
    || kb ≠ x.kt * x.kh * x.kw * ad.cols
    || (isMx ad.fmt && ad.cols % 32 ≠ 0)

/-- The checks of mm and mm.win3d: formats (R37, R47, R58, R107), shapes (R54, R107, R108, R110), the output
(R104), then the licence (R7). -/
def mmCheck (s : State) (c : Ctx) : Option Nat :=
  let w := c.w
  let ia := c.ins.getD 0 {}
  let ib := c.ins.getD 1 {}
  let pr := mmProd w c.v1 ia.ent ib.ent
  let au := (s.core c.lc).array (arrOf c.e)
  let isInt := pr.sFmt == 8
  let aOut := mmOutFmt w
  let kb := if isMx ib.ent.desc.fmt || mmTransB w then ib.ent.desc.cols else ib.ent.desc.rows
  let badFmt :=
    !pairOk pr.sFmt pr.mFmt
      || (if isInt then aOut ≠ 9 else aOut > 4)
      || (mmTransA w && isMx pr.mFmt) || (mmTransB w && isMx pr.sFmt)
      || (w.op == 0x21 && ia.gathered.isSome)
      || ib.gathered.isSome
  let keptBad :=
    match mmAcc w, au.kept with
    | true, none => true
    | true, some t => t.rows ≠ pr.m || t.cols ≠ pr.n || t.g ≠ pr.g || t.int ≠ isInt
        || (!mmDrain w && t.contrib.length ≥ 127)
    | false, some _ => !mmDrain w
    | false, none => false
  let badShape :=
    (w.op == 0x21 && win3dErr w ia.ent.desc kb)
      || pr.k = 0
      || (mmTransA w && ia.gathered.isSome)
      || ((mmAcc w || !mmDrain w) && (pr.m > 256 || pr.n > 512))
      || keptBad
  if badFmt then some eFormatPair
  else if badShape then some eShape
  else
    match (if mmDrain w then outErr s c 0 aOut pr.m pr.n else none) with
    | some e => some e
    | none => if mmRnd w && mmDrain w && !s.training then some eNotLicensed else none

/-- The row of mm or mm.win3d. -/
def mmRow (win : Bool) : Row where
  fields := if win then win3dFields else mmFields
  encErr := mmEncErr
  slots := fun w => (2, [if mmDrain w then 1 else 0])
  check := mmCheck
  hold := fun s c => accessHold s c (inRuns s c) []

/-- The inputs of a beginning array command are popped, KEEP inputs held (R102, R103). -/
def State.popInputs (s : State) (c : Ctx) : State :=
  c.ins.foldl (fun s i => s.onQueue c.lc i.qn (fun q => if i.keep then q.keep i.ent.id else q.pop i.ent.id)) s

/-- An array engine begins the command at its front (R126). -/
def State.beginArray (s : State) (c : Ctx) (tiles : Nat) (poison : Bool) : State :=
  let s := s.popInputs c
  s.onEng c.lc c.e (fun g =>
    { g with
      fetched := g.fetched.drop 1
      begunCount := g.begunCount + 1
      loops := c.f.loops
      wait := none
      begun := g.begun ++ [{ word := c.w, pos := c.f.pos, loops := c.f.loops, serial := g.begunCount
                             ins := c.ins.map (fun i => (i.qn, i.ent.id, i.keep)), tilesLeft := tiles
                             poison := poison, grp := c.grp }] })

/-- The entry of a queue by identity. -/
def Core.entry (co : Core) (qn id : Nat) : QEntry := ((co.seq.queue qn).entries.find? (fun e => e.id == id)).getD {}

/-- The product of a begun mm or mm.win3d, from its Held inputs. -/
def Core.begunProd (co : Core) (b : Begun) : Prod :=
  let ent (i : Nat) := match b.ins[i]? with
    | some (qn, id, _) => co.entry qn id
    | none => {}
  mmProd b.word (Cmd.ver b.word == 1) (ent 0) (ent 1)

/-- mm's effect (R107, R108): the command begins and its passes stand ready. Notice of the start goes to
the regulator (R325). -/
def mmEff (c : Ctx) (s : State) : State :=
  let w := c.w
  let ia := c.ins.getD 0 {}
  let pr := mmProd w c.v1 ia.ent (c.ins.getD 1 {}).ent
  let kept := mmAcc w || !mmDrain w
  let serial := (s.eng c.lc c.e).begunCount
  let gp := match ia.gathered with
    | some g => g.poison
    | none => false
  let s := s.beginArray c (if mmDrain w then mmTiles pr (mmPass w) kept else 0) gp
  (s.bellows c.lc (arrOf c.e)).onArray c.lc (arrOf c.e) (fun a => { a with passes := mmPasses serial pr (mmPass w) kept })

/-- mm (R107, R108). -/
def execMm (lc : Fin 64) (a : Arr) (s : State) : Res :=
  runCmd (mmRow false) 0x20 mmEff lc a.eng s

/-- mm.win3d (R54–R56, R110). -/
def execMmWin3d (lc : Fin 64) (a : Arr) (s : State) : Res :=
  runCmd (mmRow true) 0x21 mmEff lc a.eng s

/-! ### mm.tongs -/

def tongsTap (w : Cmd) : Bool := bit w 66
def tongsTag (w : Cmd) : Nat := fld w 240 16
def tongsDxFmt (w : Cmd) : Nat := fld w 72 4
def tongsDwFmt (w : Cmd) : Nat := fld w 80 4

/-- dY as a moving operand: as stored or transposed, shifted in tap mode (R60, R67). -/
def tongsDy (w : Cmd) (d : Desc) (tr : Bool) : Source :=
  if tongsTap w then
    .tap d tr (fld w 160 16 + 1) (fld w 176 16 + 1) (fld w 192 16 + 1) (sext 6 (fld w 208 6)) (sext 6 (fld w 214 6))
      (sext 6 (fld w 224 6))
  else .tile d tr

/-- G0's product dX = dY · Wᵀ (R59, R60). -/
def tongsDx (w : Cmd) (dy wd : Desc) : Prod :=
  { moving := tongsDy w dy false, stat := .tile wd true, mFmt := dy.fmt, sFmt := wd.fmt
    m := dy.rows, k := dy.cols, n := wd.rows, g := groupOf (fld w 64 2) }

/-- G1's product dWᵀ = dYᵀ · X (R59, R60). -/
def tongsDw (w : Cmd) (dy xd : Desc) : Prod :=
  { moving := tongsDy w dy true, stat := .tile xd false, mFmt := dy.fmt, sFmt := xd.fmt
    m := dy.cols, k := dy.rows, n := xd.cols, g := groupOf (fld w 64 2) }

/-- G0's passes: per token block of 256, the column slices ascending (R63, R64). -/
def tongsPasses0 (serial : Nat) (pr : Prod) : List Pass := mmPasses serial pr 256 false

/-- G1's passes: per token block the column pairs ascending, in each the token halves; each pair fills one
tile over the whole command (R63, R64). -/
def tongsPasses1 (serial : Nat) (pr : Prod) : List Pass :=
  let nb := ceilDiv pr.k 256
  (List.range nb).flatMap (fun b =>
    (List.range (ceilDiv pr.m 256)).flatMap (fun j =>
      let r0 := j * 256
      let rows := min 256 (pr.m - r0)
      (List.range (ceilDiv (min 256 (pr.k - b * 256)) 128)).map (fun h =>
        let k0 := b * 256 + h * 128
        { cmd := serial, trow := r0, tRows := rows, row0 := r0, rows := rows, col0 := 0, cols := pr.n
          k0 := k0, kLen := min 128 (pr.k - k0), last := k0 + 128 ≥ pr.k })))

/-- The reserved encodings of mm.tongs: G's; without TAP the grid and offsets are zero (R111). -/
def tongsEncErr (w : Cmd) : Bool :=
  fld w 64 2 == 3 || (!tongsTap w && (fld w 160 60 ≠ 0 || fld w 224 16 ≠ 0))

/-- The checks of G0's half (R59–R62, R66, R67, R111). A gathered operand is none that R62 accepts (DEDUCED, log 181); a
kept tile of either array stops the command (DEDUCED, log 182). -/
def tongsCheck (s : State) (c : Ctx) : Option Nat :=
  let w := c.w
  let dy := (c.ins.getD 0 {}).ent.desc
  let wd := (c.ins.getD 1 {}).ent.desc
  let xd := (c.ins.getD 2 {}).ent.desc
  let okDy := dy.fmt == 3 || dy.fmt == 4 || dy.fmt == 1 || dy.fmt == 2
  let fp (f : Nat) := !isMx f && f ≠ 8
  let badFmt := !okDy || !fp wd.fmt || !fp xd.fmt || !pairOk wd.fmt dy.fmt || !pairOk xd.fmt dy.fmt
    || c.ins.any (fun i => i.gathered.isSome)
  let off (lo : Nat) : Int := sext 6 (fld w lo 6)
  let badOff (x : Int) : Bool := x < -28 || x > 28
  let badTap := tongsTap w &&
    ((fld w 160 16 + 1) * (fld w 176 16 + 1) * (fld w 192 16 + 1) ≠ dy.rows
      || badOff (off 208) || badOff (off 214) || badOff (off 224))
  let co := s.core c.lc
  let badShape := wd.cols ≠ dy.cols || xd.rows ≠ dy.rows || xd.cols ≠ wd.rows
    || dy.rows > 262144 || dy.cols > 512 || wd.rows > 512 || badTap || tongsDxFmt w > 4 || tongsDwFmt w > 4
    || co.arrG0.kept.isSome || co.arrG1.kept.isSome
  if badFmt then some eFormatPair
  else if badShape then some eShape
  else
    match outErr s c 0 (tongsDxFmt w) dy.rows wd.rows with
    | some e => some e
    | none =>
      match outErr s c 1 (tongsDwFmt w) wd.rows dy.cols with
      | some e => some e
      | none => if !s.training then some eNotLicensed else none

/-- The row of G0's half. -/
def tongsRow : Row where
  fields := fun _ _ => [(64, 3), (72, 6), (80, 6), (96, 32), (128, 32), (160, 60), (224, 6), (240, 16)]
  encErr := tongsEncErr
  slots := fun _ => (3, [2])
  check := tongsCheck
  hold := fun s c => accessHold s c (inRuns s c) []

/-- The front word of an engine, if it stands before an mm.tongs (R111). -/
def tongsHalf (s : State) (lc : Nat) (e : Eng) : Option Cmd :=
  match (s.eng lc e).fetched with
  | f :: _ => if Cmd.op f.word = 0x22 ∧ f.fault = none then some f.word else none
  | [] => none

/-- The row of G1's half: no slots, a zero body but for PAIR_TAG, under training tiers (R111, R7). -/
def tongsHalfRow : Row where
  fields := fun _ _ => [(240, 16)]
  slots := fun _ => (0, [0])
  check := fun s _ => if s.training then none else some eNotLicensed

/-- A half stands alone at the front: it waits for its inputs and is checked, licence and all (R96, R7), and then waits for
its partner under operand empty (R111). -/
def tongsAlone (r : Row) (lc : Nat) (e : Eng) (s : State) : Res :=
  runCmd r 0x22 (fun c s => s.stallNow c.lc c.e 0) lc e s

/-- Does a half pass its own validation. -/
def tongsReady (r : Row) (s : State) (lc : Nat) (e : Eng) : Bool :=
  match admission r 0x22 s lc e with
  | .go _ => true
  | _ => false

/-- TONGS_PAIR_START (R111): both streams have reached their halves and both pass their checks. Equal tags start the
pair; tags that differ stop both streams with E_PAIR; a half alone, or one that fails its checks, is handled on its
engine. -/
def execTongsPairStart (lc : Fin 64) (s : State) : Res :=
  if (s.core lc).seq.pairStarted then .next s
  else
    match tongsHalf s lc .g0, tongsHalf s lc .g1 with
    | some a, some b =>
      if !tongsReady tongsHalfRow s lc .g1 then tongsAlone tongsHalfRow lc .g1 s
      else if !tongsReady tongsRow s lc .g0 then tongsAlone tongsRow lc .g0 s
      else if tongsTag a ≠ tongsTag b then .next ((s.failStream lc .g0 ePair).failStream lc .g1 ePair)
      else .next (s.onSeq lc (fun q => { q with pairStarted := true }))
    | some _, none => tongsAlone tongsRow lc .g0 s
    | none, some _ => tongsAlone tongsHalfRow lc .g1 s
    | none, none => .next s

/-- mm.tongs begins on both arrays (R59, R63): G0's half pops the inputs, G1's begins beside it. -/
def tongsEff (c : Ctx) (s : State) : State :=
  let w := c.w
  let dy := (c.ins.getD 0 {}).ent.desc
  let wd := (c.ins.getD 1 {}).ent.desc
  let xd := (c.ins.getD 2 {}).ent.desc
  let p0 := tongsDx w dy wd
  let p1 := tongsDw w dy xd
  let n0 := (s.eng c.lc .g0).begunCount
  let n1 := (s.eng c.lc .g1).begunCount
  let c1 : Ctx :=
    { lc := c.lc, e := .g1, f := ((s.eng c.lc .g1).fetched.head?).getD {}, v1 := false, ins := [], outs := [], grp := c.grp }
  let s := s.beginArray c (mmTiles p0 256 false) false
  let s := s.beginArray c1 (ceilDiv p1.m 256) false
  let s := (s.bellows c.lc .g0).onArray c.lc .g0 (fun a => { a with passes := tongsPasses0 n0 p0 })
  let s := (s.bellows c.lc .g1).onArray c.lc .g1 (fun a => { a with passes := tongsPasses1 n1 p1 })
  s.onSeq c.lc (fun q => { q with pairStarted := false })

/-- mm.tongs (R59–R67, R111): once the pair has started, G0's half runs for both. -/
def execMmTongs (lc : Fin 64) (s : State) : Res :=
  if !(s.core lc).seq.pairStarted then execTongsPairStart lc s
  else runCmd tongsRow 0x22 tongsEff lc .g0 s

/-! ### gather.tile -/

def gatherR (w : Cmd) : Nat := 16 * 2 ^ fld w 64 3
def gatherTrans (w : Cmd) : Bool := bit w 67

/-- The index list an input names, as unsigned entries, with its poison. -/
def readList (s : State) (lc : Nat) (d : Desc) : List Nat × Bool :=
  let (t, _) := (s.core lc).readTile d
  (t.codes.flatten, t.poison)

/-- The checks of gather.tile (R83, R84, R112). -/
def gatherCheck (s : State) (c : Ctx) : Option Nat :=
  let w := c.w
  let l := (c.ins.getD 0 {}).ent.desc
  let t := (c.ins.getD 1 {}).ent.desc
  let r := gatherR w
  let (idx, poison) := readList s c.lc l
  if !(l.fmt == 9 || l.fmt == 10) || (gatherTrans w && isMx t.fmt) || c.ins.any (fun i => i.gathered.isSome) then
    some eFormatPair
  else if l.rows ≠ 1 || l.cols > 64 || t.rows % r ≠ 0 || (gatherTrans w && (l.cols * r) % 128 ≠ 0) then some eShape
  else if !poison && idx.any (fun i => i ≥ t.rows / r && i ≠ 0xFFFFFFFF) then some eGatherIndex
  else none

/-- The row of gather.tile. -/
def gatherRow : Row where
  fields := fun _ _ => [(64, 4)]
  encErr := fun w => fld w 64 3 > 4
  slots := fun _ => (2, [1])
  check := gatherCheck
  hold := fun s c =>
    if outputsFull s c then some (1, s)
    else accessHold s c ((s.core c.lc).seq.absRuns (c.ins.getD 0 {}).ent.desc.seg (c.ins.getD 0 {}).ent.desc.runs) []

/-- gather.tile's effect (R82, R112): the list is read, the operand pushed; the list and the table stay
Held until the consuming mm's check passes. -/
def gatherEff (c : Ctx) (s : State) : State :=
  let w := c.w
  let li := (c.ins.getD 0 {}).ent.desc
  let td := (c.ins.getD 1 {}).ent.desc
  let (t, co) := (s.core c.lc).readTile li
  let s := s.setCore c.lc co
  let g : Gather :=
    { idx := t.codes.flatten, table := td, r := gatherR w, trans := gatherTrans w, poison := t.poison
      held := c.ins.map (fun i => (i.qn, i.ent.id)) }
  let (m, k) := gatherShape g
  let s := s.popInputs c
  let qn := c.outs.getD 0 0
  let id := ((s.core c.lc).seq.queue qn).made
  let s := s.onQueue c.lc qn (fun q =>
    (q.add { td with rows := m, cols := k, grp := c.grp } .ready).onEntry id (fun e => { e with gather := some g }))
  s.retireFront c c.f.loops

/-- gather.tile (R82–R84, R112). -/
def execGatherTile (lc : Fin 64) (a : Arr) (s : State) : Res :=
  runCmd gatherRow 0x23 gatherEff lc a.eng s

end Sys2Proof.Machine
end

