-- ==== Sys2Proof/Machine/Log.lean ====
section
/-! DEFINITION. The error log (R415), the field-failure list (R22), suspect cores and replays (R259–R261). -/

namespace Sys2Proof.Machine

/-- Capacity of the error log (R415). -/
def logEntries : Nat := 1572864

/-- MC0 appends an entry to the error log; a full ring loses its oldest sector of 1,024 entries (R359, R415). -/
def State.logErr (s : State) (kind code unit idx : Nat) (detail : List Byte) : State :=
  let seq := s.flash.logNext.toNat
  let body := toLE 8 s.clk.now ++ toLE 4 seq ++ toLE 2 kind ++ toLE 2 code ++ toLE 1 unit ++ toLE 1 0
    ++ toLE 2 idx ++ toLE 4 s.flash.startCount.toNat ++ bytesAt detail 0 36
  let entry := body ++ toLE 4 (crc32c body)
  let first := s.flash.logFirst.toNat
  let (log, first) :=
    if seq - first ≥ logEntries then
      ((List.range 1024).foldl (fun l i => Tbl.set [] l (first + i) []) s.flash.errlog, first + 1024)
    else (s.flash.errlog, first)
  { s with flash := { s.flash with
      errlog := Tbl.set [] log seq entry
      logNext := satInc s.flash.logNext
      logFirst := BitVec.ofNat 32 first } }

/-- An entry joins the field-failure list (R22) and the log (KIND 3); one already listed is not listed twice. -/
def State.fieldFail (s : State) (f : FieldFail) (unit idx reason : Nat) : State :=
  if s.flash.fails.contains f then s
  else ({ s with flash := { s.flash with fails := s.flash.fails ++ [f] } }).logErr 3 0 unit idx (toLE 4 reason)

/-- The core is marked suspect (R260, R261): the first cause stands; its handover is pending (R22, R24), and shows so until
CORE_HANDOVER, whether or not the cluster has a usable spare (DESIGN CHOICE, log 190). -/
def State.markSuspect (s : State) (lc cause : Nat) : State :=
  let c := s.core lc
  if c.integ.suspect then s
  else
    let s := s.onCore lc (fun c =>
      { c with
        integ := { c.integ with suspect := true, cause := BitVec.ofNat 2 cause }
        mapState := if c.mapState = 1 then 2 else c.mapState })
    (s.fieldFail (.core c.phys.toNat) 1 c.phys.toNat cause).logErr 4 0 1 c.phys.toNat (toLE 4 cause)

/-- SUSPECT_REPLAYS of DBG_INTEG_CTL (R283). -/
def State.suspectReplays (s : State) : Nat := fld (s.applied 0x00002010 0x40) 0 8

/-- A replay is counted (R259); at SUSPECT_REPLAYS within 60 minutes MC0 marks the core suspect (R261). -/
def State.countReplay (s : State) (lc : Nat) (e : Eng) (detector : Nat) (index : Word) : State :=
  let now := s.clk.now
  let s := s.onInteg lc (fun g =>
    { g with
      replays := satInc g.replays
      lastEngine := BitVec.ofNat 4 e.code
      lastDetector := BitVec.ofNat 3 detector
      lastSecond := false
      replayCmd := index
      recent := g.recent.filter (fun t => now < t + 3600000000000) ++ [now] })
  let n := (s.core lc).integ.recent.length
  if s.suspectReplays ≠ 0 ∧ n ≥ s.suspectReplays then s.markSuspect lc 2 else s

/-- A second failure within a replay (R260): the core is suspect with CAUSE 1 (3 for the saved sequencer
state), the stream stops with E_CHECK_FAIL. -/
def State.secondFailure (s : State) (lc : Nat) (e : Eng) (detector cause : Nat) (index : Word) : State :=
  let s := s.onInteg lc (fun g =>
    { g with
      lastEngine := BitVec.ofNat 4 e.code
      lastDetector := BitVec.ofNat 3 detector
      lastSecond := true
      replayCmd := index })
  (s.markSuspect lc cause).failAt lc e eCheckFail index

end Sys2Proof.Machine
end

