-- ==== Sys2Proof/Machine/Drain.lean ====
section
/-! DEFINITION. What the arrays do on their own: a pass after the swap (R30, R42), the drain (R46–R50), the
verdict of the check (R256, R257), retirement (R126), and replay (R259, R260). -/

namespace Sys2Proof.Machine

/-- A begun command of an engine by serial. -/
def Engine.begunBy (g : Engine) (serial : Nat) : Option Begun := g.begun.find? (fun b => b.serial == serial)

/-- The mm.tongs commands an engine has begun. -/
def Engine.tongs (g : Engine) : List Begun := g.begun.filter (fun b => Cmd.op b.word == 0x22)

/-- The other array of the gradient pair. -/
def pairArr (a : Arr) : Arr := if a = .g1 then .g0 else .g1

/-- The other half of a begun mm.tongs: the one as far along among its array's. -/
def Core.tongsMate (co : Core) (a : Arr) (serial : Nat) : Option Begun :=
  (co.seq.eng (pairArr a).eng).tongs[((co.seq.eng a.eng).tongs.takeWhile (fun x => x.serial != serial)).length]?

/-- The begun command that holds a product's operands: the command itself, but for G1's half of an mm.tongs, whose
operands G0's half holds. -/
def Core.tongsLead (co : Core) (a : Arr) (serial : Nat) : Option Begun :=
  match (co.seq.eng a.eng).begunBy serial with
  | none => none
  | some b => if a = .g1 ∧ Cmd.op b.word = 0x22 then co.tongsMate .g1 serial else some b

/-- A begun command and the product its array computes. -/
def Core.arrayProd (co : Core) (a : Arr) (serial : Nat) : Option (Begun × Prod) :=
  match (co.seq.eng a.eng).begunBy serial with
  | none => none
  | some b =>
    if Cmd.op b.word = 0x22 then
      match co.tongsLead a serial with
      | none => none
      | some l =>
        let d (i : Nat) : Desc := match l.ins[i]? with
          | some (qn, id, _) => (co.entry qn id).desc
          | none => {}
        some (b, if a = .g1 then tongsDw l.word (d 0) (d 2) else tongsDx l.word (d 0) (d 1))
    else some (b, co.begunProd b)

/-- Change a begun command. -/
def State.onBegun (s : State) (lc : Nat) (e : Eng) (serial : Nat) (f : Begun → Begun) : State :=
  s.onEng lc e (fun g => { g with begun := g.begun.map (fun b => if b.serial = serial then f b else b) })

/-- Does a command drain its tile. -/
def drains (w : Cmd) : Bool := Cmd.op w == 0x22 || mmDrain w

/-- The accumulator tile a pass fills: the one its command is filling, the kept tile, or a Free one made fresh; G1 takes tile
A for column pair 0 of an mm.tongs and tile B for pair 1 (R42, R46, R64, R108). -/
def passTile (a : Arr) (au : ArrayU) (b : Begun) (pr : Prod) (p : Pass) : Option (Bool × AccTile) :=
  match au.find (fun t => t.st == .filling && t.cmd == p.cmd && t.row0 == p.trow && t.col0 == p.col0) with
  | some i => some (i, au.tile i)
  | none =>
    if Cmd.op b.word = 0x22 ∧ a = .g1 then
      let i : Bool := p.trow != 0
      if (au.tile i).st = .free then some (i, freshTile pr p) else none
    else if Cmd.op b.word ≠ 0x22 ∧ mmAcc b.word then
      (au.find (fun t => t.st == .kept)).map (fun i => (i, { au.tile i with st := .filling, cmd := p.cmd }))
    else (au.find (fun t => t.st == .free)).map (fun i => (i, freshTile pr p))

/-- Flip one bit of an accumulator element: an upset (R256). -/
def flipCell (t : AccTile) : Option (Nat × Nat × Fin 32) → AccTile
  | none => t
  | some (r, c, b) =>
    if r < t.rows ∧ c < t.cols then
      { t with cells := t.cells.set (r * t.cols + c) (t.cells.getD (r * t.cols + c) 0 ^^^ BitVec.ofNat 32 (2 ^ b.val)) }
    else t

/-- A DRAIN = 0 command that consumed poison retires and stops its stream (R278). -/
def State.poisonKept (s : State) (lc : Nat) (a : Arr) (b : Begun) : State :=
  let s := b.ins.foldl (fun s (qn, id, _) => s.releaseEntry lc qn id) s
  let s := s.onEng lc a.eng (fun g =>
    { g with begun := g.begun.filter (fun x => x.serial != b.serial), retired := satInc g.retired })
  s.failBegun lc a.eng ePoison (some b.serial)

/-! ### The tongs buffer (R63) -/

/-- A tile laid out from blocks of dY, each row's blocks in ascending columns. -/
def blocksTile (d : Desc) (bs : List TongsBlock) : Tile :=
  let top := bs.foldl (fun a b => max a (b.r0 + b.codes.length)) 0
  let line (r : Nat) : List Nat := bs.foldl (fun l b =>
    if b.r0 ≤ r ∧ r < b.r0 + b.codes.length then l ++ List.replicate (b.c0 - l.length) 0 ++ b.codes.getD (r - b.r0) [] else l) []
  { fmt := d.fmt, rows := d.rows, cols := d.cols, codes := (List.range top).map line, poison := bs.any (·.poison) }

/-- The shared path reads the blocks of dY that a pass of G0 takes, one for each token half, in tap mode shifted. -/
def Core.readBlocks (co : Core) (pr : Prod) (p : Pass) : List TongsBlock × Core :=
  (List.range (ceilDiv p.rows 128)).foldl (fun (acc : List TongsBlock × Core) h =>
    let r0 := p.row0 + 128 * h
    let n := min 128 (p.rows - 128 * h)
    let (t, co) := acc.2.readSpots pr.moving.desc (pr.moving.spots r0 n p.k0 p.kLen)
    let b : TongsBlock :=
      { cmd := p.cmd, r0 := r0, c0 := p.k0, poison := t.poison
        codes := (List.range n).map (fun i => (List.range p.kLen).map (fun j => (srcElem pr.moving t (r0 + i) (p.k0 + j)).1)) }
    (acc.1 ++ [b], co)) ([], co)

/-- Is a buffered block one that a pass of G1 consumes: its token half, in the columns of its pair. -/
def TongsBlock.for (b : TongsBlock) (lead : Nat) (p : Pass) : Bool :=
  b.cmd == lead && b.r0 == p.k0 && p.row0 ≤ b.c0 && b.c0 < p.row0 + p.rows

/-- Does the tongs buffer hold a pass of an mm.tongs back: it has no room for G0's blocks, or G1's have not all come. -/
def Core.tongsShort (co : Core) (a : Arr) (lead : Nat) (p : Pass) : Bool :=
  if a = .g1 then (co.seq.tongsBuf.filter (fun x => x.for lead p)).length < ceilDiv p.rows 128
  else co.seq.tongsBuf.length + ceilDiv p.rows 128 > 4

/-- The moving operand of a pass as it enters: from the scratchpad, or from the tongs buffer, which G0's pass fills and
G1's empties. -/
def Core.movingOf (co : Core) (a : Arr) (b : Begun) (lead : Nat) (pr : Prod) (p : Pass) : Prod × Tile × Core :=
  if Cmd.op b.word = 0x22 then
    let (bs, co) :=
      if a = .g1 then
        (co.seq.tongsBuf.filter (fun x => x.for lead p),
          { co with seq := { co.seq with tongsBuf := co.seq.tongsBuf.filter (fun x => !x.for lead p) } })
      else
        let (bs, co) := co.readBlocks pr p
        (bs, { co with seq := { co.seq with tongsBuf := co.seq.tongsBuf ++ bs } })
    ({ pr with moving := .tile pr.moving.desc (a == .g1) }, blocksTile pr.moving.desc bs, co)
  else
    let (t, co) := co.readSpots pr.moving.desc (pr.moving.spots p.row0 p.rows p.k0 p.kLen)
    (pr, t, co)

/-- The words a pass reads: its stationary tile, and its moving rows unless they come from the tongs buffer. -/
def Core.passRuns (co : Core) (a : Arr) (b : Begun) (pr : Prod) (p : Pass) : List (Nat × Nat) :=
  let part (s : Source) (r rn c cn : Nat) := co.seq.absRuns s.desc.seg (s.desc.spotRuns (s.spots r rn c cn))
  part pr.stat p.k0 p.kLen p.col0 p.cols
    ++ (if Cmd.op b.word = 0x22 ∧ a = .g1 then [] else part pr.moving p.row0 p.rows p.k0 p.kLen)

/-! ### A pass -/

/-- A Damper bubble falls in the cycle; on the gradient pair in both arrays' while an mm.tongs runs (R70, R326). -/
def State.bubbleStall (s : State) (lc : Nat) (a : Arr) : State :=
  let co := s.core lc
  let tongs (x : Arr) : Bool := match (co.array x).passes with
    | p :: _ => (co.seq.eng x.eng).tongs.any (fun b => b.serial == p.cmd)
    | [] => false
  s.onSeq lc (fun q =>
    let q := q.stall a.eng 6
    if tongs .g0 && tongs .g1 then (if a = .f then q else q.stall (pairArr a).eng 6) else q)

/-- Is a bubble fraction in force on a core (R326, R348). -/
def State.bubbling (s : State) (lc : Nat) : Bool := s.pwr.bubble ≠ 0 || (s.dom (s.core lc).phys.toNat).bTh ≠ 0

/-- Poison consumed by a begun command; both outputs of an mm.tongs are poisoned (R70, R278). -/
def State.poisonBegun (s : State) (lc : Nat) (a : Arr) (b : Begun) : State :=
  let mark (x : Arr) (n : Nat) (s : State) : State := s.onBegun lc x.eng n (fun b => { b with poison := true })
  let s := mark a b.serial s
  if Cmd.op b.word = 0x22 then
    match (s.core lc).tongsMate a b.serial with
    | some m => mark (pairArr a) m.serial s
    | none => s
  else s

/-- What a pass does to its accumulator tile, and the flags of R51: its rows enter in order; with poison nothing is
computed (R28, R278). -/
def enterRows (pr : Prod) (p : Pass) (mt st : Tile) (poison : Bool) (t : AccTile) : AccTile × Word :=
  let t := { t with
    kTotal := if p.row0 = p.trow then t.kTotal + p.kLen else t.kTotal
    contrib := if t.contrib.contains p.cmd then t.contrib else t.contrib ++ [p.cmd] }
  if poison then (t, 0)
  else
    let wu := (List.range p.kLen).map (fun k => checkVec pr p st (p.k0 + k))
    (List.range p.rows).foldl (rowEnter pr p mt st wu) (t, 0)

/-- The stationary registers after a swap (R30). -/
def statTile (pr : Prod) (p : Pass) (st : Tile) : StatTile :=
  { rows := p.kLen, cols := p.cols, fmt := pr.sFmt
    codes := (List.range p.kLen).flatMap (fun k => (List.range p.cols).map (fun n =>
      BitVec.ofNat 16 (srcElem pr.stat st (p.k0 + k) (p.col0 + n)).1))
    scales := if isMx pr.sFmt then (List.range (ceilDiv p.kLen 32)).flatMap (fun k => (List.range p.cols).map (fun n =>
      BitVec.ofNat 8 (srcElem pr.stat st (p.k0 + 32 * k) (p.col0 + n)).2)) else [] }

/-- The next pass of an array enters the accumulator tile `i`, found as `t`: the cycles its gather and transposes cost are
counted (R56, R57); the tile of a last pass waits for the drain path or is kept (R48, R108). -/
def State.issuePass (s : State) (lc : Nat) (a : Arr) (b lead : Begun) (pr : Prod) (p : Pass) (i : Bool) (t : AccTile)
    (flip : Option (Nat × Nat × Fin 32)) : State :=
  let co := s.core lc
  let au := co.array a
  let (pm, mt, co) := co.movingOf a b lead.serial pr p
  let (st, co) := co.readSpots pr.stat.desc (pr.stat.spots p.k0 p.kLen p.col0 p.cols)
  let s := s.setCore lc co
  let poison := b.poison || mt.poison || st.poison
  let (t, fl) := enterRows pm p mt st poison t
  let t := flipCell t flip
  let dr := drains b.word
  let qn := slotQueue (Cmd.slot lead.word (if Cmd.op b.word = 0x22 ∧ a = .g1 then 5 else 4))
  let t := if p.last then
      { t with
        st := if dr then .ready else .kept
        outQ := qn
        leadEng := if Cmd.op b.word = 0x22 then 1 else a.eng.code
        lead := lead.serial }
    else t
  let s := s.onArray lc a (fun x =>
    ({ x with
        passes := x.passes.drop 1
        lastPass := some (passCycles pr p.rows)
        shadow := x.active
        active := statTile pr p st
        notice := false
        noticeDue := false
        flags := x.flags ||| fl }).setTile i t)
  let s := s.onSeq lc (fun q =>
    (q.stallBy a.eng 0 (gatherExtra pr p + (if Cmd.op b.word = 0x22 then 0 else turnShort au (pr.moving.turned pr.mFmt)))).stallBy
      a.eng 8 (turnShort au (pr.stat.turned pr.sFmt)))
  let s := if poison then s.poisonBegun lc a b else s
  let s := s.drainPump lc
  if p.last && !dr && poison then s.poisonKept lc a b else s

/-- ARRAY_SWAP (R30): the next pass enters. In an array cycle in which it does not, the first cause that applies is
counted (R143): a Damper bubble, its stationary tile, no accumulator tile (R46), the tongs buffer (R63), what its reads
wait for (R169, R172), and where nothing else holds it the notice of its start (R325, R330). -/
def execArraySwap (lc : Fin 64) (a : Arr) (hold : PassHold) (flip : Option (Nat × Nat × Fin 32)) (s : State) : Res :=
  let co := s.core lc
  let au := co.array a
  let stall (c : Nat) : Res := .next (s.onSeq lc (fun q => q.stall a.eng c))
  match au.passes with
  | [] => .next s
  | p :: _ =>
    if s.mgmt.faultActive ∨ co.seq.task.isNone then .next s
    else if hold = .bubble ∧ s.bubbling lc = true then .next (s.bubbleStall lc a)
    else if hold = .loading then stall 8
    else
      match co.arrayProd a p.cmd, co.tongsLead a p.cmd with
      | some (b, pr), some lead =>
        match passTile a au b pr p with
        | none => stall 1
        | some (i, t) =>
          if Cmd.op b.word = 0x22 && co.tongsShort a lead.serial p then stall 0
          else
            match accessHold s { lc := lc, e := a.eng, f := {}, v1 := false, ins := [], outs := [], grp := b.grp }
                (co.passRuns a b pr p) [] with
            | some (c, s') => .next (s'.onSeq lc (fun q => q.stall a.eng c))
            | none =>
              if (au.noticeDue && s.noticeHeld lc) || (hold == .notice && au.notice) then stall 6
              else .next (s.issuePass lc a b lead pr p i t flip)
      | _, _ => .next s

/-! ### The drain -/

/-- How a tile drains: output slot, format, stochastic, saturate, seed, and whether transposed (R47, R60). -/
structure DrainSpec where
  slot : Nat
  fmt : Nat
  rnd : Bool
  sat : Bool
  seed : Nat
  rows : Nat
  cols : Nat
  trans : Bool
  deriving Repr

/-- The drain of a begun command's tile on an array; `lead` carries the words of an mm.tongs pair. -/
def drainSpec (a : Arr) (lead : Begun) (pr : Prod) : DrainSpec :=
  let w : Cmd := lead.word
  if w.op = 0x22 then
    if a = .g1 then
      { slot := 5, fmt := tongsDwFmt w, rnd := bit w 84, sat := bit w 85, seed := fld w 128 32
        rows := pr.n, cols := pr.m, trans := true }
    else
      { slot := 4, fmt := tongsDxFmt w, rnd := bit w 76, sat := bit w 77, seed := fld w 96 32
        rows := pr.m, cols := pr.n, trans := false }
  else
    { slot := 4, fmt := mmOutFmt w, rnd := mmRnd w, sat := mmSat w, seed := mmSeed w
      rows := pr.m, cols := pr.n, trans := false }

/-- The seed of column c's generator (R50). -/
def genSeed (seed c : Nat) : Word :=
  let x := BitVec.ofNat 32 seed ^^^ BitVec.ofNat 32 ((c + 1) * 0x9E3779B9)
  if x = 0 then 1 else x

/-- One step of a generator (R50). -/
def genStep (x : Word) : Word :=
  let x := x ^^^ (x <<< 13)
  let x := x ^^^ (x >>> 17)
  x ^^^ (x <<< 5)

/-- A generator after n steps. -/
def genAfter : Nat → Word → Word
  | 0, x => x
  | n + 1, x => genAfter n (genStep x)

/-- Convert one accumulator element for the drain (R47, R49). -/
def drainElem (sp : DrainSpec) (int : Bool) (r c : Nat) (v : Word) : Enc :=
  if int then { code := v.toNat }
  else
    let mode : Round := if sp.rnd ∧ sp.fmt ≠ 0 then .stoch ((genAfter (r + 1) (genSeed sp.seed c)).toNat / 2 ^ 16) else .rne
    encodeFmt sp.fmt mode sp.sat (fp v)

/-- The writes of a tile's drain, as (byte address, bytes): one a row (R160); transposed for dW (R60). -/
def drainWrites (sp : DrainSpec) (t : AccTile) (poison : Bool) (base : Nat) : List (Nat × List MB) :=
  let eb := fmtBits sp.fmt / 8
  let pb := 4 * packedWords sp.fmt sp.cols
  let code (r c : Nat) : Nat := (drainElem sp t.int r c (t.cells.getD (r * t.cols + c) 0)).code
  let row (at_ : Nat) (cs : List Nat) (off : Nat) : Nat × List MB :=
    let bs := cs.flatMap (toLE eb)
    (base + at_ * pb + off * eb, mbMark poison (bs ++ List.replicate ((4 - bs.length % 4) % 4) 0))
  if sp.trans then
    (List.range t.cols).map (fun k => row (t.col0 + k) ((List.range t.rows).map (fun n => code n k)) t.row0)
  else
    (List.range t.rows).map (fun r => row (t.row0 + r) ((List.range t.cols).map (fun c => code r c)) t.col0)

/-- Has the core a tile on the drain path. -/
def Core.draining (co : Core) : Option (Arr × Bool) :=
  [Arr.f, .g0, .g1].findSome? (fun a => ((co.array a).find (fun t => t.st == .draining)).map (fun i => (a, i)))

/-- What a waiting tile needs to drain: its command, lead, product. -/
def Core.waiting (co : Core) (x : Nat × Nat) : Option (Arr × Bool × Begun × Begun × Prod) :=
  let a := arrOfCode x.1
  let i := x.2 == 1
  match co.arrayProd a ((co.array a).tile i).cmd with
  | none => none
  | some (b, pr) => (co.tongsLead a b.serial).map (fun l => (a, i, b, l, pr))

/-- The output queue of a drain. -/
def drainQueue (lead : Begun) (sp : DrainSpec) : Nat := slotQueue (Cmd.slot lead.word sp.slot)

/-- An array gives up some commands' passes, tiles and places on the drain path, and for an mm.tongs what the tongs buffer
holds of it. -/
def State.clearArray (s : State) (lc : Nat) (a : Arr) (gone : Nat → Bool) : State :=
  let clear (t : AccTile) : AccTile := if t.st ≠ .free ∧ gone t.cmd then {} else t
  let s := s.onArray lc a (fun x =>
    { x with passes := x.passes.filter (fun p => !gone p.cmd), tile0 := clear x.tile0, tile1 := clear x.tile1 })
  s.onSeq lc (fun q => { q with
    drainOrder := q.drainOrder.filter (fun x => x.1 != a.eng.code || ((s.core lc).tileAt x).st == .ready)
    tongsBuf := if a = .g0 then q.tongsBuf.filter (fun x => !gone x.cmd) else q.tongsBuf })

/-- A command leaves its array without retiring: a refused write or a second failure (R131, R260). Its
reserved outputs go back to Free with every later one (R102). -/
def State.dropArray (s : State) (lc : Nat) (a : Arr) (serial : Nat) : State :=
  match (s.eng lc a.eng).begunBy serial with
  | none => s
  | some b =>
    let s := s.onEng lc a.eng (fun g => { g with begun := g.begun.filter (fun x => x.serial != serial) })
    let s := s.clearArray lc a (fun n => n == serial)
    s.returnOuts lc b.outs

/-- Reserve the output entry of a draining command, if it has none yet (R102). -/
def State.reserveOut (s : State) (lc : Nat) (lead : Begun) (a : Arr) (sp : DrainSpec) : State :=
  let qn := drainQueue lead sp
  if lead.outs.any (fun o => o.1 == qn) then s
  else
    let q := (s.core lc).seq.queue qn
    let d := q.slotDesc sp.fmt sp.rows sp.cols lead.grp
    let s := s.onQueue lc qn (fun q => q.add d .reserved)
    s.onBegun lc (if Cmd.op lead.word = 0x22 then .g0 else a.eng) lead.serial
      (fun b => { b with outs := b.outs ++ [(qn, q.made)] })

/-- Each array with a tile that waits for an entry of its ring counts a cycle under result full (R48). -/
def State.waitingStalls (s : State) (lc : Nat) : State :=
  let co := s.core lc
  let waits (n : Nat) : Bool := [0, 1].any (fun i =>
    (co.tileAt (n, i)).st == .ready && !co.seq.drainOrder.contains (n, i))
  s.onSeq lc (fun q => [0, 1, 2].foldl (fun q n => if waits n then q.stall (arrOfCode n).eng 1 else q) q)

/-- A begun array command leaves for good; of an mm.tongs both halves do. -/
def State.dropBegun (s : State) (lc : Nat) (a : Arr) (serial : Nat) : State :=
  match (s.eng lc a.eng).begunBy serial with
  | none => s
  | some b =>
    if Cmd.op b.word = 0x22 then
      match (s.core lc).tongsMate a serial with
      | some m => (s.dropArray lc a serial).dropArray lc (pairArr a) m.serial
      | none => s.dropArray lc a serial
    else s.dropArray lc a serial

/-- A tile drains: its rows are converted, the generators reseeded for them, and written into its entry (R47, R50, R160). -/
def State.drainTile (s : State) (lc : Nat) (a : Arr) (i : Bool) (b : Begun) (sp : DrainSpec) (ent : Desc) : State :=
  let co := s.core lc
  let t := (co.array a).tile i
  let writes := drainWrites sp t b.poison (4 * ((co.seq.seg ent.seg).base.toNat + ent.off))
  let sat := !b.poison && (List.range t.rows).any (fun r => (List.range t.cols).any (fun k =>
    (drainElem sp t.int r k (t.cells.getD (r * t.cols + k) 0)).sat))
  (s.onScp lc (fun m => writes.foldl (fun m w => m.writeRun (co.seq.durable ent.seg) w.1 w.2) m)).onArray lc a (fun x =>
    { x.setTile i { t with st := .draining } with
      flags := if sat then x.flags ||| 8 else x.flags
      gens := (List.range t.cols).foldl (fun g k => Tbl.set 0 g k (genAfter t.rows (genSeed sp.seed k))) x.gens })

/-- TILE_DRAIN_START (R46–R50): the drain path takes the tile that became ready first. Tiles that wait for an entry count
the cycle, and do not hold the path. -/
def execTileDrainStart (lc : Fin 64) (s : State) : Res :=
  if s.mgmt.faultActive then .next s
  else
    let s := (s.drainPump lc).waitingStalls lc
    let co := s.core lc
    if co.draining.isSome then .next s
    else
      match co.seq.drainOrder.findSome? (fun x => (co.waiting x).map (fun y => (x, y))) with
      | none => .next s
      | some (x, a, i, b, l, pr) =>
        let sp := drainSpec a l pr
        let qn := drainQueue l sp
        let had := l.outs.find? (fun o => o.1 == qn)
        let ent : Desc := match had with
          | some (_, id) => (co.entry qn id).desc
          | none => (co.seq.queue qn).slotDesc sp.fmt sp.rows sp.cols l.grp
        let rs := co.seq.absRuns ent.seg ent.runs
        let c : Ctx := { lc := lc, e := a.eng, f := {}, v1 := false, ins := [], outs := [], grp := l.grp }
        match accessHold s c [] rs with
        | some (cause, s') => .next (s'.onSeq lc (fun q => q.stall a.eng cause))
        | none =>
          let s := s.onSeq lc (fun q => { q with drainOrder := q.drainOrder.filter (fun y => y != x) })
          if co.codeHit rs then .next ((s.dropBegun lc a b.serial).failBegun lc a.eng eCodeModified (some b.serial))
          else
            let s := (s.reserveOut lc l a sp).drainTile lc a i b sp ent
            .next (match l.grp, had with
              | some g, none => s.addExtent lc g rs (some (qn, (co.seq.queue qn).made))
              | _, _ => s)

/-! ### The verdict -/

/-- A row sum by the pairwise tree of depth 9, columns beyond N entering as +0 (R256). -/
def rowTree : Nat → List Word → Word
  | 0, l => l.getD 0 0
  | d + 1, l =>
    let rec up : List Word → List Word
      | a :: b :: r => fadd a b :: up r
      | [a] => [fadd a 0]
      | [] => []
    rowTree d (up l)

/-- A row's verdict (R257): none when it is not compared. K is the length accumulated into the tile, above 262,144 as
below it: no command makes the segments of R44 (DEDUCED, log 191). -/
def rowVerdict (t : AccTile) (r : Nat) : Option Bool :=
  let cells := (t.cells.drop (r * t.cols)).take t.cols
  let c := t.chkC.getD r 0
  let sm := t.chkS.getD r 0
  if t.int then
    if t.satRows.contains r then none
    else some (cells.foldl (fun a x => a + x.toInt) 0 == c)
  else
    let rm := fp (rowTree 9 cells)
    let cm := fp (BitVec.ofInt 32 c)
    let s := fp (BitVec.ofInt 32 sm)
    if !rm.isFin || !cm.isFin || !s.isFin then none
    else
      let beta := 128 / t.g + ceilDiv t.kTotal 128 + 1
      let tau := Fp.mul (.fin false (2 * beta + 12) (-24)) s
      some (!Fp.lt tau (Fp.add rm cm.neg).abs)

/-- Release what a begun command holds: its inputs, and a gathered operand's list and table (R102, R112). -/
def State.releaseBegun (s : State) (lc : Nat) (b : Begun) : State :=
  b.ins.foldl (fun s (qn, id, _) =>
    let g := ((s.core lc).entry qn id).gather
    let s := s.releaseEntry lc qn id
    match g with
    | some g => g.held.foldl (fun s (q, i) => s.releaseEntry lc q i) s
    | none => s) s

/-- A begun command retires (R126): it leaves the command queue and its inputs are released. Poison it consumed stops its
stream then (R278), before the stop count is looked at (R145). -/
def State.retireBegun (s : State) (lc : Nat) (e : Eng) (serial : Nat) (poison : Bool := false) : State :=
  match (s.eng lc e).begunBy serial with
  | none => s
  | some b =>
    let s := s.releaseBegun lc b
    let s := s.onEng lc e (fun g =>
      { g with begun := g.begun.filter (fun x => x.serial != serial), retired := satInc g.retired })
    let s := if poison then s.failBegun lc e ePoison (some serial) else s
    s.afterRetire lc e false

/-- Push a command's reserved outputs: Ready, or back to Free where its group has aborted (R102, R272). With poison every
word of an output is poisoned, also what drained before the poison was met (R278). -/
def State.pushOuts (s : State) (lc : Nat) (b : Begun) (poison : Bool) : State :=
  b.outs.foldl (fun s (qn, id) =>
    let gone : Bool := match b.grp with
      | some g => ((s.core lc).seq.grp g).aborted && ((s.core lc).seq.grp g).st == .resolved
      | none => false
    let d := ((s.core lc).entry qn id).desc
    let s := if poison then s.onCore lc (fun c => { c with scp := c.scp.poisonRuns (c.seq.absRuns d.seg d.runs) }) else s
    if gone then s.unreserve lc qn id
    else s.onQueue lc qn (fun q => q.onEntry id (fun e => { e with st := .ready }))) s

/-- The passes of a begun command on an array, rebuilt from its Held inputs. -/
def Core.rebuild (co : Core) (a : Arr) (b : Begun) : List Pass :=
  match co.arrayProd a b.serial with
  | none => []
  | some (_, pr) =>
    if Cmd.op b.word = 0x22 then (if a = .g1 then tongsPasses1 b.serial pr else tongsPasses0 b.serial pr)
    else mmPasses b.serial pr (mmPass b.word) (mmAcc b.word || !mmDrain b.word)

/-- Tiles a begun command drains into, rebuilt. -/
def Core.rebuildTiles (co : Core) (a : Arr) (b : Begun) : Nat :=
  match co.arrayProd a b.serial with
  | none => 0
  | some (_, pr) =>
    if Cmd.op b.word = 0x22 then (if a = .g1 then ceilDiv pr.m 256 else mmTiles pr 256 false)
    else if mmDrain b.word then mmTiles pr (mmPass b.word) (mmAcc b.word) else 0

/-- One array's replay (R259): from serial `first` on, every begun command re-enters in issue order; its accumulator
contents are discarded, its reserved outputs go back to Free, and the pending extents of its tagged writes go with them,
to be made again. `failing` marks the commands being replayed. -/
def State.replayFrom (s : State) (lc : Nat) (a : Arr) (first : Nat) (failing : List Nat) : State :=
  let co := s.core lc
  let again := (co.seq.eng a.eng).begun.filter (fun b => b.serial ≥ first)
  let outs := again.flatMap (·.outs)
  let s := again.foldl (fun s b => s.onBegun lc a.eng b.serial (fun b =>
    { b with outs := [], tilesLeft := co.rebuildTiles a b, replayed := b.replayed || failing.contains b.serial })) s
  let s := s.clearArray lc a (fun n => decide (n ≥ first))
  let s := s.onArray lc a (fun x => { x with passes := x.passes ++ again.flatMap (co.rebuild a) })
  s.returnOuts lc outs

/-- Every command that contributed with a command to its tile (R108, R259): the tile's contributors. -/
def contributors (au : ArrayU) (serial : Nat) : List Nat :=
  ([au.tile0, au.tile1].filter (fun t => t.st != .free && t.contrib.contains serial)).flatMap (·.contrib) ++ [serial]

/-- Least of a list. -/
def leastOf (d : Nat) (l : List Nat) : Nat := l.foldl min d

/-- An array replays from a command on, and the other of the gradient pair from the half of the first mm.tongs that
re-enters, since both arrays run one (R66, R70). -/
def State.replayBoth (s : State) (lc : Nat) (a : Arr) (first : Nat) (failing : List Nat) : State :=
  let co := s.core lc
  let mate := ((co.seq.eng a.eng).tongs.find? (fun b => b.serial ≥ first)).bind (fun b => co.tongsMate a b.serial)
  let s := s.replayFrom lc a first failing
  match mate with
  | some m =>
    let both := (failing.filterMap (fun n => (co.tongsMate a n).map (·.serial))).filter (fun n => n ≥ m.serial)
    s.replayFrom lc (pairArr a) m.serial both
  | none => s

/-- A failure of an array command: the first replays, one within the replay is a second failure
(R259, R260). Under mm.tongs both halves replay (R66). -/
def State.failArray (s : State) (lc : Nat) (a : Arr) (serial detector : Nat) : State :=
  let co := s.core lc
  match (co.seq.eng a.eng).begunBy serial with
  | none => s
  | some b =>
    let index : Word := satAdd 0 serial
    if b.replayed then (s.dropBegun lc a serial).secondFailure lc a.eng detector 1 index
    else
      let cs := contributors (co.array a) serial
      (s.countReplay lc a.eng detector index).replayBoth lc a (leastOf serial cs) cs

/-- A tile has passed: its command's share is done; with the last one the command, and all that contributed
to its tile, push and retire (R102, R108, R126). Under mm.tongs both halves push and retire together (R66). -/
def State.tilePassed (s : State) (lc : Nat) (a : Arr) (t : AccTile) : State :=
  let s := s.onBegun lc a.eng t.cmd (fun b => { b with tilesLeft := b.tilesLeft - 1, passed := true })
  let co := s.core lc
  match (co.seq.eng a.eng).begunBy t.cmd with
  | none => s
  | some b =>
    if b.tilesLeft ≠ 0 then s
    else if Cmd.op b.word = 0x22 then
      match co.tongsMate a t.cmd with
      | none => s
      | some o =>
        if o.tilesLeft ≠ 0 then s
        else
          let (b0, b1) := if a = .g1 then (o, b) else (b, o)
          let s := s.pushOuts lc b0 b0.poison
          (s.retireBegun lc .g0 b0.serial b0.poison).retireBegun lc .g1 b1.serial
    else
      let s := s.pushOuts lc b b.poison
      let cs := ((co.seq.eng a.eng).begun.map (·.serial)).filter (fun n => t.contrib.contains n && n != t.cmd)
      (cs.foldl (fun s n => s.retireBegun lc a.eng n) s).retireBegun lc a.eng t.cmd b.poison

/-- TILE_DRAIN_END (R256, R257, R126, R259, R260): the checker lane and the duplicated converters give their
verdict; `agree` is the converters'. -/
def execTileDrainEnd (lc : Fin 64) (agree : Bool) (s : State) : Res :=
  let co := s.core lc
  match co.draining with
  | none => .next s
  | some (a, i) =>
    if s.mgmt.faultActive then .next s
    else
      let t := (co.array a).tile i
      let poison := match (co.seq.eng a.eng).begunBy t.cmd with
        | some b => b.poison
        | none => false
      let vs := (List.range t.rows).map (rowVerdict t)
      let un := (vs.filter (·.isNone)).length
      let pass := poison || (agree && vs.all (fun v => v != some false))
      let s := if poison then s else s.onInteg lc (fun g => { g with unchecked := satAdd g.unchecked un })
      if pass then
        let s := s.onArray lc a (fun x => x.setTile i {})
        .next (s.tilePassed lc a t)
      else .next (s.failArray lc a t.cmd 1)

end Sys2Proof.Machine
end

