-- ==== Sys2Proof/Machine/Stream.lean ====
section
/-! DEFINITION. Streams: fetch and its faults (R126–R135), loops, code.swap, waits and their timeouts
(R137, R138), queues, groups and windows as S's commands configure them (R101, R162, R167, R269). -/

namespace Sys2Proof.Machine

/-! ### Fetch -/

/-- One command at a word offset of an engine's region: its word and whether its code word is poisoned. -/
def readCommand (co : Core) (g : Engine) (pos : Nat) : BitVec 256 × Bool × Scratch :=
  let (mb, scp) := co.scp.read [((co.seq.seg g.seg).base.toNat + pos, 8)]
  (BitVec.ofNat 256 (leNat (mbBytes mb)), mbPoison mb, scp)

/-- The run-ahead limit (R126, R139). -/
def runAhead (q : Sequencer) : Nat := if q.duncen then 8 else 384

/-- Fetch one command (R126–R129, R133–R135). A loop whose endloop's code word is poisoned is recorded as a
poisoned command (log 21). -/
def fetchOne (co : Core) (e : Eng) : Core :=
  let g := co.seq.eng e
  let pos := g.fetchPos
  let stop := g.off + g.bound
  let (w, bad, scp) := readCommand co g pos
  let co := { co with scp := scp }
  let put (co : Core) (f : Fetched) (loops : List Loop) (next : Nat) (halt : Bool) : Core :=
    { co with seq := co.seq.onEng e (fun g =>
        { g with
          fetched := g.fetched ++ [f]
          fetchLoops := loops
          fetchPos := next
          fetchDone := halt || decide (next + 8 > stop) }) }
  let loops := g.fetchLoops
  let here : Fetched := { word := w, pos := pos, loops := loops }
  let faulty (co : Core) (k : FetchFault) : Core := put co { here with fault := some k } loops pos true
  if bad then put co { here with word := 0, fault := some .poison } loops pos true
  else if Cmd.op w = 0x01 then put co here loops (pos + 8) true
  else if Cmd.op w = 0x04 then
    if loops = [] then put co here loops (pos + 8) true else faulty co .loop
  else if Cmd.op w = 0x02 then
    let skip := fld w 128 16
    let fin := pos + 8 * (skip + 1)
    if skip = 0 ∨ loops.length ≥ 4 ∨ fin + 8 > stop then faulty co .loop
    else
      let (ew, ebad, scp) := readCommand co g fin
      let co := { co with scp := scp }
      if ebad then faulty co .poison
      else if Cmd.op ew ≠ 0x03 then faulty co .loop
      else
        let c := if bit w 100 then (Tbl.get 0 co.seq.cregs (fld w 96 4)).toNat else fld w 64 32
        if c = 0 then put co here loops (fin + 8) false
        else
          let inner := loops ++ [{ pos := pos, skip := skip, count := c, iter := 0 }]
          put co { here with loops := inner } inner (pos + 8) false
  else if Cmd.op w = 0x03 then
    match loops.getLast? with
    | none => faulty co .loop
    | some l =>
      if pos ≠ l.pos + 8 * (l.skip + 1) then faulty co .loop
      else if l.iter + 1 < l.count then
        let again := loops.dropLast ++ [{ l with iter := l.iter + 1 }]
        put co { here with loops := again } again (l.pos + 8) false
      else put co { here with loops := loops.dropLast } loops.dropLast (pos + 8) false
  else put co here loops (pos + 8) false

/-- May an engine fetch: its stream runs and its command queue has room. -/
def canFetch (s : State) (lc : Nat) (e : Eng) : Bool :=
  let q := (s.core lc).seq
  let g := q.eng e
  engineRuns s lc e && !g.fetchDone && decide (g.fetched.length < runAhead q)

/-- An upset in a physical bank of a core, which strikes the code word that the bank map and the hash put there; a bank out
of use holds none (R20, R148, R155). -/
def State.bankHit (s : State) (lc : Nat) (h : BankHit) : State :=
  match carried (Tbl.get ({} : Steer) s.mgmt.steer (s.core lc).phys.toNat).banks 66 64 h.bank with
  | some b => s.onScp lc (fun m => m.strike (codeWordAt b h.row h.half) h.flips)
  | none => s

/-- One request of a fetch (R127): the two commands of a line or, where the path enters it in the middle or leaves it, one.
A line in a section that sleeps wakes it; one in another group's pending extent waits. An engine with nothing fetched
counts operand empty, or bank conflict for the sleeping section. -/
def State.fetchLine (s : State) (lc : Nat) (e : Eng) : State :=
  if !canFetch s lc e then s
  else
    let co := s.core lc
    let g := co.seq.eng e
    let a := (co.seq.seg g.seg).base.toNat + g.fetchPos
    let rs := [(a, 8)]
    let idle (cause : Nat) (s : State) : State :=
      if g.fetched = [] ∧ g.begun = [] then s.onSeq lc (fun q => q.stall e cause) else s
    if co.scp.blocked g.curGrp rs then idle 0 s
    else
      match co.scp.asleep (runSections rs) with
      | [] =>
        let co := fetchOne co e
        let g' := co.seq.eng e
        let second : Bool := a % 16 == 0 && !g'.fetchDone && g'.fetchPos == g.fetchPos + 8
          && decide (g'.fetched.length < runAhead co.seq)
        s.setCore lc (if second then fetchOne co e else co)
      | ks => idle 2 (s.onScp lc (fun m => m.wake ks))

/-! ### nop, stop, loop, endloop, code.swap -/

/-- A command with no slots and the given body fields. -/
def plainRow (fields : List (Nat × Nat)) : Row :=
  { fields := fun _ _ => fields, slots := fun _ => (0, [0]) }

/-- NOP (R105). -/
def execNop (lc : Fin 64) (e : Eng) (s : State) : Res :=
  runCmd (plainRow []) 0x00 (fun c s => s.retireFront c c.f.loops) lc e s

/-- STOP (R128, R130): the stream ends at it. -/
def execStop (lc : Fin 64) (e : Eng) (s : State) : Res :=
  runCmd (plainRow []) 0x01 (fun c s =>
    (s.onEng c.lc c.e (fun g => { g with status := .stopped })).retireFront c c.f.loops true) lc e s

/-- LOOP (R133–R136): retires once for each entry; its count was latched by fetch. -/
def execLoop (lc : Fin 64) (e : Eng) (s : State) : Res :=
  runCmd (plainRow [(64, 32), (96, 5), (128, 16)]) 0x02 (fun c s => s.retireFront c c.f.loops) lc e s

/-- ENDLOOP (R133, R136). -/
def execEndloop (lc : Fin 64) (e : Eng) (s : State) : Res :=
  runCmd (plainRow []) 0x03 (fun c s => s.retireFront c c.f.loops) lc e s

/-- The refusal of a code region (R125): alignment, then the extent, then EXEC. -/
def regionErr (q : Sequencer) (seg off bound : Nat) : Option Nat :=
  if off % 8 ≠ 0 ∨ bound % 8 ≠ 0 ∨ bound < 8 then some eAlign else q.extentErr seg (off + bound) permExec

/-- The row of code.swap: it waits under check hold until every earlier command has retired (R132). -/
def codeSwapRow : Row :=
  { fields := fun _ _ => [(64, 3), (96, 23), (128, 23)]
    slots := fun _ => (0, [0])
    hold := fun s c => if (s.eng c.lc c.e).begun = [] then none else some (7, s) }

/-- What stops a code.swap once its wait is over: an open loop, then the new region's own checks (R132, R135; their order
log 195). -/
def swapErr (s : State) (c : Ctx) (seg off bound : Nat) : Option Nat :=
  if c.f.fault = some .loop then some eLoop else regionErr (s.core c.lc).seq seg off bound

/-- CODE_SWAP (R132): the new region is checked, then becomes active, and fetch starts at its OFFSET. -/
def execCodeSwap (lc : Fin 64) (e : Eng) (s : State) : Res :=
  runCmd codeSwapRow 0x04 (fun c s =>
    let (seg, off, bound) := (fld c.w 64 3, fld c.w 96 23, fld c.w 128 23)
    match swapErr s c seg off bound with
    | some code => s.failStream c.lc c.e code
    | none =>
      (s.retireFront c [] true).onEng c.lc c.e (fun g =>
        { g with seg := seg, off := off, bound := bound, fetchPos := off, fetchDone := false, fetchLoops := [] }))
    lc e s

/-! ### Explicit waits (R137, R138) -/

/-- A wait's limit in ns: TIMEOUT µs, or the task's default when it is 0. -/
def waitLimit (q : Sequencer) (timeout : Nat) : Nat := if timeout = 0 then q.defaultLimit else timeout * 1000

/-- The command at the front goes on waiting, its clock running from its first cycle. -/
def State.waitOn (s : State) (c : Ctx) (timeout : Nat) : State :=
  s.onSeq c.lc (fun q => q.onEng c.e (fun g =>
    match g.wait with
    | some w =>
      if w.explicit then g else { g with wait := some { explicit := true, since := s.coreNs c.lc, limit := waitLimit q timeout } }
    | none => { g with wait := some { explicit := true, since := s.coreNs c.lc, limit := waitLimit q timeout } }))

/-- Is the command at the front already waiting. -/
def waiting? (s : State) (c : Ctx) : Bool :=
  match (s.eng c.lc c.e).wait with
  | some w => w.explicit
  | none => false

/-- The row of wait.q (R121, R138). -/
def waitQRow : Row :=
  { fields := fun _ _ => [(64, 6), (70, 2), (72, 6), (96, 20)]
    encErr := fun w => fld w 70 2 ≥ 2
    slots := fun _ => (0, [0])
    check := fun s c =>
      let q := (s.core c.lc).seq.queue (fld c.w 64 6)
      if c.v1 && fld c.w 64 6 ≥ 32 then some eOperand
      else if fld c.w 70 2 = 0 && !q.off? && !waiting? s c && fld c.w 72 6 + 1 > q.depth then some eShape
      else none }

/-- WAIT_Q (R138): enough entries Ready to this engine, or every entry Free. -/
def execWaitQ (lc : Fin 64) (e : Eng) (s : State) : Res :=
  runCmd waitQRow 0x08 (fun c s =>
    let co := s.core c.lc
    let qn := fld c.w 64 6
    let q := co.seq.queue qn
    let ready := (q.entries.filter (fun x => x.st == .ready && !co.hidden qn x c.grp)).length
    let done : Bool :=
      if fld c.w 70 2 = 0 then !q.off? && decide (ready ≥ fld c.w 72 6 + 1) else q.off? || q.entries.isEmpty
    if done then s.retireFront c c.f.loops else s.waitOn c (fld c.w 96 20)) lc e s

/-- WAIT_GRP (R138): completes on commit; an abort stops the stream with its reason. -/
def execWaitGrp (lc : Fin 64) (e : Eng) (s : State) : Res :=
  runCmd (plainRow [(64, 12), (96, 20)]) 0x09 (fun c s =>
    let g := (s.core c.lc).seq.grp (BitVec.ofNat 12 (fld c.w 64 12))
    match g.st with
    | .never => s.retireFront c c.f.loops
    | .resolved => if g.aborted then s.failStream c.lc c.e g.reason else s.retireFront c c.f.loops
    | _ => s.waitOn c (fld c.w 96 20)) lc e s

/-- WAIT_BAR (R138, R246). -/
def execWaitBar (lc : Fin 64) (e : Eng) (s : State) : Res :=
  runCmd (plainRow [(64, 20), (96, 32), (128, 20)]) 0x0A (fun c s =>
    let g := s.coll (barColl c.w)
    if g.used && g.completed (barEpoch c.w) then s.retireFront c c.f.loops else s.waitOn c (fld c.w 128 20)) lc e s

/-- WAIT_WIN (R138, R165): the committed watermark has reached BYTES, by serial-number arithmetic. -/
def execWaitWin (lc : Fin 64) (e : Eng) (s : State) : Res :=
  runCmd (plainRow [(64, 12), (96, 32), (128, 20)]) 0x0B (fun c s =>
    let w := (s.core c.lc).seq.win (BitVec.ofNat 12 (fld c.w 64 12))
    if !w.isOpen then s.failStream c.lc c.e eWindowClosed
    else if (w.watermark - BitVec.ofNat 32 (fld c.w 96 32)).toNat < 2 ^ 31 then s.retireFront c c.f.loops
    else s.waitOn c (fld c.w 128 20)) lc e s

/-- Do an engine's time limits run: its task runs on the core, and is not being preempted, but for an array engine that
holds a kept tile and runs on (R137, R375). -/
def limitsRun (s : State) (lc : Nat) (e : Eng) : Bool :=
  let co := s.core lc
  match co.seq.task with
  | some t => t.stop.isNone && (!t.preempting || co.keepsTile e)
  | none => false

/-- Has the wait of an engine's front command reached its limit (R106, R137). -/
def waitOver (s : State) (lc : Nat) (e : Eng) (explicit : Bool) : Bool :=
  let g := s.eng lc e
  match g.wait with
  | some w =>
    w.explicit == explicit && g.status == .running && limitsRun s lc e && decide (w.since + w.limit ≤ s.coreNs lc)
  | none => false

/-- The begun command of an array engine whose tile has waited for an entry of its ring to the limit (R48, R106). -/
def tileWaitOver (s : State) (lc : Nat) (e : Eng) : Option (Arr × Nat) :=
  let co := s.core lc
  let late (t : AccTile) : Bool := t.st == .ready && (match t.waitAt with
    | some w => decide (w + co.seq.defaultLimit ≤ s.coreNs lc)
    | none => false)
  if limitsRun s lc e then
    [Arr.f, .g0, .g1].findSome? (fun a => if a.eng = e then
      ((co.array a).find late).map (fun i => (a, ((co.array a).tile i).cmd)) else none)
  else none

/-- EXPLICIT_WAIT_TIMEOUT (R137); of a grp.commit it aborts the group too (R269). -/
def execExplicitWaitTimeout (lc : Fin 64) (e : Eng) (t : Nat) (s : State) : Res :=
  let s := s.at_ t
  if waitOver s lc e true then
    match (s.eng lc e).fetched with
    | [] => .next s
    | f :: _ =>
      let s := if Cmd.op f.word = 0x15 then s.abortGroup lc (BitVec.ofNat 12 (fld f.word 64 12)) eWaitTimeout else s
      .next (s.failStream lc e eWaitTimeout)
  else .next s

/-- IMPLICIT_WAIT_TIMEOUT (R106): the stream stops at the waiting command, which for a tile that waits for an entry of its
ring is the tile's. -/
def execImplicitWaitTimeout (lc : Fin 64) (e : Eng) (t : Nat) (s : State) : Res :=
  let s := s.at_ t
  if waitOver s lc e false then .next (s.failStream lc e eWaitTimeout)
  else
    match tileWaitOver s lc e with
    | some (a, n) => .next ((s.dropBegun lc a n).failBegun lc e eWaitTimeout (some n))
    | none => .next s

/-! ### Queues -/

/-- The extent of a ring (R101, R154): bound, then READ and WRITE. -/
def ringErr (q : Sequencer) (w : Cmd) : Option Nat :=
  q.extentErr (fld w 119 3) (fld w 96 23 + (fld w 72 6 + 1) * fld w 128 23) (permRead + permWrite)

/-- The row of q.cfg: reserved encodings, producer and consumer against the mode, the queue's state, then the
extent (R101). -/
def qCfgRow : Row :=
  { fields := fun _ _ => [(64, 6), (70, 2), (72, 6), (78, 4), (82, 4), (96, 23), (119, 3), (128, 23)]
    encErr := fun w => fld w 78 4 ≥ 0xB || fld w 82 4 ≥ 0xB
    slots := fun _ => (0, [0])
    operandErr := fun c => if c.v1 && fld c.w 64 6 ≥ 32 then some eOperand else none
    check := fun s c =>
      let (mode, prod, cons) := (fld c.w 70 2, fld c.w 78 4, fld c.w 82 4)
      let q := (s.core c.lc).seq
      if cons = 0xA ∨ (mode = 0 ∧ prod ≠ 9) ∨ (mode = 2 ∧ prod ≠ 0xA) ∨ (mode = 1 ∧ prod = 0xA) then some eQueueMode
      else if (q.queue (fld c.w 64 6)).entries ≠ [] then some eQueueBusy
      else if mode = 1 then ringErr q c.w
      else none }

/-- Q_CFG (R101): the queue takes its mode, depth, producer, consumer and ring extent; a tile that waits for an entry may
have one. -/
def execQCfg (lc : Fin 64) (s : State) : Res :=
  runCmd qCfgRow 0x10 (fun c s =>
    ((s.onQueue c.lc (fld c.w 64 6) (fun _ =>
      { mode := fld c.w 70 2
        depth := fld c.w 72 6 + 1
        prod := fld c.w 78 4
        cons := fld c.w 82 4
        seg := fld c.w 119 3
        off := fld c.w 96 23
        slotWords := fld c.w 128 23 })).drainPump c.lc).retireFront c c.f.loops) lc .s s

/-- The descriptor of a q.push. -/
def pushDesc (w : Cmd) : BitVec 128 := BitVec.ofNat 128 (fld w 64 128)

/-- The row of q.push: a list queue of S's, the descriptor's own checks, then bound and READ (R101, R121,
R154); it waits while the queue has no Free entry (R102). -/
def qPushRow : Row :=
  { fields := fun _ _ => [(64, 128)]
    encErr := fun w => descReserved (pushDesc w)
    slots := fun _ => (0, [1])
    outMode := 0
    check := fun s c => (s.core c.lc).seq.descErr c.v1 (decodeDesc (pushDesc c.w))
    hold := fun s c => if outputsFull s c then some (1, s) else none }

/-- Q_PUSH (R121): the descriptor becomes a Ready entry of the list queue. -/
def execQPush (lc : Fin 64) (s : State) : Res :=
  runCmd qPushRow 0x11 (fun c s =>
    (s.onQueue c.lc (c.outs.getD 0 0) (fun q => q.add (decodeDesc (pushDesc c.w)) .ready)).retireFront c c.f.loops)
    lc .s s

/-! ### Groups (R121, R269–R272) -/

/-- GROUP of a group command. -/
def grpOf (w : Cmd) : BitVec 12 := BitVec.ofNat 12 (fld w 64 12)

/-- The row of grp.open: a number whose group is committing waits until it resolves (log 22). -/
def grpOpenRow : Row :=
  { fields := fun _ _ => [(64, 12), (76, 1)]
    slots := fun _ => (0, [0])
    hold := fun s c =>
      if !bit c.w 76 && ((s.core c.lc).seq.grp (grpOf c.w)).st == .committing then some (0, s) else none }

/-- GRP_OPEN (R121, R272): the engine's current group, opened afresh if no engine has it open; DETACH clears. -/
def execGrpOpen (lc : Fin 64) (e : Eng) (s : State) : Res :=
  runCmd grpOpenRow 0x14 (fun c s =>
    let g := grpOf c.w
    let s := s.onSeq c.lc (fun q =>
      if bit c.w 76 then q.onEng c.e (fun x => { x with curGrp := none })
      else
        let q := if (q.grp g).st = .opened then q else q.onGrp g (fun _ => { st := .opened })
        q.onEng c.e (fun x => { x with curGrp := some g }))
    s.retireFront c c.f.loops) lc e s

/-- May a group commit (R269): no engine holds it, no command that tagged with it is unretired, and no slice
still holds a tagged write of it. -/
def commitReady (s : State) (lc : Nat) (g : BitVec 12) (k : GrpKey) : Bool :=
  let q := (s.core lc).seq
  q.engines.all (fun (_, e) => e.curGrp != some g && e.begun.all (fun b => b.grp != some g))
    && s.mem.waiting.all free && s.mem.slices.all (fun (_, sl) => sl.held.all free)
where
  /-- Not a tagged write of the group. -/
  free : HeldReq → Bool
    | .write _ _ _ _ _ (some k') => k' != k
    | _ => true

/-- The slices that hold shadows of a key. -/
def State.shadowSlices (s : State) (k : GrpKey) : List Nat :=
  (s.mem.slices.filter (fun (_, sl) => sl.shadows.any (fun x => x.key == k && !x.committed))).map (·.1)

/-- The row of grp.commit. -/
def grpCommitRow : Row := plainRow [(64, 12), (96, 20)]

/-- GRP_COMMIT (R269, R270): S's own current group is cleared; once R269 is met PREPARE goes to every slice
that holds shadows, and the command retires at the commit point. A group never opened or already committed
completes at once; an aborted one stops with its reason. -/
def execGrpCommit (lc : Fin 64) (s : State) : Res :=
  runCmd grpCommitRow 0x15 (fun c s =>
    let g := grpOf c.w
    let s := s.onEng c.lc .s (fun x => { x with curGrp := none })
    let x := (s.core c.lc).seq.grp g
    match x.st with
    | .never => s.retireFront c c.f.loops
    | .resolved => if x.aborted then s.failStream c.lc .s x.reason else s.retireFront c c.f.loops
    | .committing => s
    | .opened =>
      let k : GrpKey := .loc lc g
      let s := s.waitOn c (fld c.w 96 20)
      if commitReady s c.lc g k then
        let s := s.onSeq c.lc (fun q => q.onGrp g (fun x => { x with st := .committing, await := s.shadowSlices k }))
        -- TIMEOUT bounds the wait for R269 alone
        s.onEng c.lc .s (fun x => { x with wait := none })
      else s) lc .s s

/-! ### Windows (R161–R167) -/

/-- A window number outside the task's range (R161). -/
def winRangeErr (q : Sequencer) (w : BitVec 12) : Bool :=
  !(q.winFirst.toNat ≤ w.toNat && w.toNat < q.winFirst.toNat + q.winCount.toNat)

/-- Is a window quiet (R163). -/
def Window.quiet (w : Window) (now : Nat) : Bool := !w.isOpen && (!w.ever || w.closedAt + 1000000000 ≤ now)

/-- GEN of a win.open; version 1 opens under generation 0 (R124). -/
def winGen (c : Ctx) : BitVec 16 := if c.v1 then 0 else BitVec.ofNat 16 (fld c.w 80 16)

/-- The reuse count a window would open with, or none where it must wait for quiet (R163). -/
def reuseFor (s : State) (c : Ctx) : Option Nat :=
  let w := (s.core c.lc).seq.win (grpOf c.w)
  if w.quiet s.clk.now then some 0
  else if !c.v1 && winGen c == w.gen + 1 && decide (w.reuse < 65535) then some (w.reuse + 1)
  else none

/-- The row of win.open (R161–R163). -/
def winOpenRow : Row :=
  { fields := fun v1 _ => [(64, 12), (76, 3), (96, 23), (128, 23), (160, 8)] ++ (if v1 then [] else [(80, 16)])
    slots := fun _ => (0, [0, 1])
    outMode := 2
    check := fun s c =>
      let q := (s.core c.lc).seq
      let len := fld c.w 128 23
      if winRangeErr q (grpOf c.w) then some ePerm
      else if (q.win (grpOf c.w)).isOpen then some eShape
      else if len = 0 then some eBound
      else
        match q.extentErr (fld c.w 76 3) (fld c.w 96 23 + len) permWindow with
        | some e => some e
        | none => if (Tbl.get {} q.srcsets (fld c.w 160 8)).valid then none else some ePerm
    hold := fun s c => if (reuseFor s c).isSome then none else some (0, s) }

/-- The opening itself: watermark 0, nothing credited, the queue attached. -/
def openWindow (c : Ctx) (s : State) : State :=
  let n := grpOf c.w
  let reuse := (reuseFor s c).getD 0
  let s := s.onSeq c.lc (fun q =>
    let q := q.onWin n (fun _ =>
      { isOpen := true
        seg := fld c.w 76 3
        off := fld c.w 96 23
        len := fld c.w 128 23
        srcset := fld c.w 160 8
        gen := winGen c
        reuse := reuse
        ever := true
        base := (q.seg (fld c.w 76 3)).base.toNat + fld c.w 96 23
        durable := q.durable (fld c.w 76 3)
        src := Tbl.get {} q.srcsets (fld c.w 160 8)
        slotWords := (c.outs[0]?.map (fun n => (q.queue n).slotWords)).getD 0
        queue := c.outs[0]? })
    match c.outs[0]? with
    | none => q
    | some qn => q.onQueue qn (fun x => { x with win := some n }))
  s.retireFront c c.f.loops

/-- WIN_OPEN (R162, R163). -/
def execWinOpen (lc : Fin 64) (s : State) : Res := runCmd winOpenRow 0x18 openWindow lc .s s

/-- WIN_OPEN_QUIET (R163): a second has passed since the window's last close and the waiting win.open opens. -/
def execWinOpenQuiet (lc : Fin 64) (t : Nat) (s : State) : Res :=
  let s := s.at_ t
  match (s.eng lc .s).fetched with
  | f :: _ =>
    if Cmd.op f.word = 0x18 ∧ (s.eng lc .s).wait.isSome ∧ ((s.core lc).seq.win (grpOf f.word)).quiet s.clk.now then
      runCmd winOpenRow 0x18 openWindow lc .s s
    else .next s
  | [] => .next s

/-- Does a chain.add hold a provisional entry of a window, or one that was struck and that it waits to add again (R167). -/
def holdsProvisional (q : Sequencer) (w : Window) : Bool :=
  match w.queue with
  | none => false
  | some qn => (q.queue qn).entries.any (fun e => e.st == .heldProv || (e.st == .awaiting && e.holds != 0))

/-- A window closes (R167): its time and generation stand, its watermark freezes, entries not yet Ready go. -/
def Sequencer.closeWindow (q : Sequencer) (n : BitVec 12) (now : Nat) : Sequencer :=
  let w := q.win n
  if !w.isOpen then q
  else
    let qn := q.winQueue n
    let q := q.onWin n (fun w => { w with isOpen := false, closedAt := now, queue := none, sender := none, shapes := [] })
    match qn with
    | none => q
    | some qn => q.onQueue qn (fun x =>
        { x with win := none, entries := x.entries.filter (fun e => e.st != .placed && e.st != .awaiting) })

/-- The row of win.close: it waits while a chain.add holds a provisional entry (R167). -/
def winCloseRow : Row :=
  { fields := fun _ _ => [(64, 12)]
    slots := fun _ => (0, [0])
    check := fun s c => if winRangeErr (s.core c.lc).seq (grpOf c.w) then some ePerm else none
    hold := fun s c =>
      let q := (s.core c.lc).seq
      let w := q.win (grpOf c.w)
      if w.isOpen && holdsProvisional q w then some (0, s) else none }

/-- WIN_CLOSE (R167). -/
def execWinClose (lc : Fin 64) (s : State) : Res :=
  runCmd winCloseRow 0x19 (fun c s =>
    (s.onSeq c.lc (fun q => q.closeWindow (grpOf c.w) s.clk.now)).retireFront c c.f.loops) lc .s s

/-! ### A replay at the front (R259, R260) -/

/-- The first failure of a command of V, Q or S, or of the front command of any engine with nothing begun,
replays; one within the replay is a second failure. -/
def State.failFront (s : State) (lc : Nat) (e : Eng) (detector : Nat) : State :=
  let g := s.eng lc e
  if g.replaying then s.secondFailure lc e detector 1 g.retired
  else (s.countReplay lc e detector g.retired).onEng lc e (fun g => { g with replaying := true })

end Sys2Proof.Machine
end

