-- ==== Sys2Proof/Machine/Xbar.lean ====
section
/-! DEFINITION. The crossbar, the memory-side cache and the memory stacks (R174–R200, R434): the address hash,
stack reads, writes and in-place adds, the slices with their shadows, snoop filters and held accesses. -/

namespace Sys2Proof.Machine

/-! ### Addresses (R180, R185, R193) -/

/-- The exclusive or of a number's low eight nibbles. -/
def xorNibs (u : Nat) : Nat := (List.range 8).foldl (fun x i => Nat.xor x (u / 16 ^ i % 16)) 0

/-- Stack, local unit, slot, slice, set and stack-local address of a device address (R180). -/
def stackOf (a : Nat) : Nat := xorNibs (a / 256 % 2 ^ 32)
def localUnit (a : Nat) : Nat := a / 4096 % 2 ^ 28
def slotOf (a : Nat) : Nat :=
  let l := localUnit a
  Nat.xor (Nat.xor (l % 8) (l / 512 % 8)) (l / 262144 % 8)
def sliceOf (a : Nat) : Nat := 8 * stackOf a + slotOf a
def setOf (a : Nat) : Nat := 2 * (localUnit a / 8 % 512) + a / 128 % 2
def localOf (a : Nat) : Nat := localUnit a * 256 + a % 256

/-- The device address of a stack-local address: the inverse of the hash. -/
def deviceOf (st loc : Nat) : Nat :=
  let l := loc / 256
  (16 * l + Nat.xor st (xorNibs (l * 16))) * 256 + loc % 256

/-- The pseudo-channel, bank and row of a device address (R185). -/
def pcOf (a : Nat) : Nat := localUnit a / 8 % 2
def bankOf (a : Nat) : Nat := localUnit a / 16 % 48
def rowOf (a : Nat) : Nat := localUnit a / 16 / 192

/-- The bank's key among a stack's open rows: channel, pseudo-channel, bank. -/
def bankKey (ch pc bank : Nat) : Nat := 96 * ch + 48 * pc + bank

/-- A row of a stack, numbered over its channels, pseudo-channels and banks. -/
def rowId (a : Nat) : Nat := bankKey (slotOf a) (pcOf a) (bankOf a) * 65536 + rowOf a

/-- The first address past user DRAM, the host aperture, and the end of the space (R193). -/
def userTop : Nat := 0xBFE4000000
def apertureBase : Nat := 0xC000000000
def deviceTop : Nat := 0x10000000000

/-- Does a range lie in user DRAM; in the aperture. -/
def inDram (a n : Nat) : Bool := a + n ≤ userTop
def inAperture (a n : Nat) : Bool := apertureBase ≤ a && a + n ≤ deviceTop

/-- Is a range inside a valid DRAM range of the task with the access it needs (R195). -/
def Sequencer.drangeOk (q : Sequencer) (a n : Nat) (write : Bool) : Bool :=
  (List.range 8).any (fun r =>
    let d : DRange := Tbl.get {} q.dranges r
    d.valid && (!write || d.write) && d.base.toNat * 2 ^ 20 ≤ a && a + n ≤ (d.base.toNat + d.len.toNat) * 2 ^ 20)

/-! ### The stacks -/

/-- A byte of DRAM; of one that a device-level fault left undefined and nothing has written since, any value (R280). -/
def Mem.byte (m : Mem) (a : Nat) : Byte :=
  match (m.lost.filter (fun (k, lo, hi) => lo ≤ a && a < hi && Tbl.get 0 m.since (a / 64) < k)).getLast? with
  | some (k, _, _) => Config.lostByte k a
  | none => Memory.read m.dram a
/-- Bytes of DRAM. -/
def State.dramBytes (s : State) (a n : Nat) : List Byte := (List.range n).map (fun i => s.mem.byte (a + i))
/-- Store a 64 B unit of DRAM. -/
def State.setDram (s : State) (a : Nat) (b : List Byte) : State :=
  { s with mem := { s.mem with dram := Mem.writeN s.mem.dram a b, since := Tbl.set 0 s.mem.since (a / 64) s.mem.losses } }
/-- Set a unit's poison mark, by 64 B unit. -/
def State.setUnitPoison (s : State) (un : Nat) (p : Bool) : State :=
  { s with mem := { s.mem with poison := Tbl.set false s.mem.poison un p } }
/-- A unit is marked poisoned by what was written into it: MC0 lists its row (R192). -/
def State.markUnit (s : State) (a : Nat) : State :=
  if Tbl.get false s.mem.poison (a / 64) then s
  else (s.setUnitPoison (a / 64) true).fieldFail (.row (stackOf a) (rowId a)) 2 (stackOf a) 1
/-- Set what a unit's stored bits are. -/
def State.setUnitCond (s : State) (un : Nat) (c : Stored) : State :=
  { s with mem := { s.mem with cond := Tbl.set .good s.mem.cond un c } }

/-- The access opens its row (R434). -/
def State.openRow (s : State) (a : Nat) : State :=
  s.onStk (stackOf a) (fun k => { k with rows := Tbl.set 0 k.rows (bankKey (slotOf a) (pcOf a) (bankOf a)) (rowOf a + 1) })

/-- An upset in a unit's stored bits. -/
def State.upset (s : State) (un : Nat) (u : Upset) : State :=
  if Tbl.get false s.mem.poison un then s
  else
    match u, Tbl.get .good s.mem.cond un with
    | .clean, _ | .correctable, .correctable | .correctable, .wrong _ => s
    | .correctable, .good => s.setUnitCond un .correctable
    | .miscorrected w, .good | .miscorrected w, .correctable | .miscorrected w, .wrong _ =>
      s.setUnitCond un (.wrong (bytesAt w 0 64))
    | .uncorrectable, _ => s.setUnitCond un .uncorrectable
    | _, .uncorrectable => s

/-- A unit is found uncorrectable (R189): its mark is set in place, it is counted, and MC0 lists its row
(R192). -/
def State.foundBad (s : State) (a : Nat) : State :=
  ((s.setUnitCond (a / 64) .good).onStk (stackOf a) (fun k => { k with uncorr := satInc k.uncorr })).markUnit a

/-- A demand read corrected a unit (R188): counted, and entered in the table of the 16 latest; the fourth
makes it due for a scrub out of turn. -/
def State.corrected (s : State) (a : Nat) : State :=
  let st := stackOf a
  let un := localOf a / 64
  let off := bit (s.applied (0x02020018 + 0x100 * st) 0x18) 9
  s.onStk st (fun k =>
    let n := ((k.table.find? (fun x => x.1 == un)).map (·.2)).getD 0 + 1
    let t := k.table.filter (fun x => x.1 != un) ++ [(un, n)]
    { k with
      corr := satInc k.corr
      table := t.drop (t.length - 16)
      due := if n ≥ 4 && !off && !k.due.any (fun x => x.1 == un) then k.due ++ [(un, s.clk.now)] else k.due })

/-- A demand read of a 64 B unit (R187–R189): its bytes, whether they are poisoned, and the stack after it. A
stack whose rail has failed returns poison (R334). -/
def State.demandRead (s : State) (a : Nat) (u : Upset) : (List Byte × Bool) × State :=
  let un := a / 64
  let b := s.dramBytes (64 * un) 64
  if (s.stk (stackOf a)).railFailed then ((b, true), s)
  else
    let s := s.openRow a
    if Tbl.get false s.mem.poison un then ((b, true), s)
    else
      let s := s.upset un u
      match Tbl.get .good s.mem.cond un with
      | .uncorrectable => ((b, true), s.foundBad a)
      | .correctable => ((b, false), s.corrected a)
      | .wrong w => ((w, false), s.corrected a)
      | .good => ((b, false), s)

/-- Bytes under a mask put over others. -/
def maskOver (mask : Nat) (new old : List Byte) : List Byte :=
  (List.range old.length).map (fun i => if mask / 2 ^ i % 2 = 1 then new.getD i 0 else old.getD i 0)

/-- The read step of a partial write or an in-place add (R191, R88): the unit corrected, or marked. -/
def State.mergeRead (s : State) (a : Nat) (u : Upset) : (List Byte × Bool) × State :=
  let un := a / 64
  let b := s.dramBytes (64 * un) 64
  if Tbl.get false s.mem.poison un then ((b, true), s)
  else
    let s := s.upset un u
    let count (s : State) : State := s.onStk (stackOf a) (fun k => { k with corr := satInc k.corr })
    match Tbl.get .good s.mem.cond un with
    | .uncorrectable => ((b, true), s.foundBad a)
    | .correctable => ((b, false), count s)
    | .wrong w => ((w, false), count s)
    | .good => ((b, false), s)

/-- A write of a 64 B unit under a byte mask (R191, R196): whole writes clear the mark, partial ones merge. A
failed stack discards it (R334). -/
def State.stackPut (s : State) (a : Nat) (mask : Nat) (data : List Byte) (poison : Bool) (u : Upset) : State :=
  let un := a / 64
  if (s.stk (stackOf a)).railFailed ∨ mask % 2 ^ 64 = 0 then s
  else
    let s := s.openRow a
    let fin (s : State) (b : List Byte) (p : Bool) : State :=
      let s := (s.setDram (64 * un) b).setUnitCond un .good
      if p then s.markUnit a else s.setUnitPoison un false
    if mask % 2 ^ 64 = 2 ^ 64 - 1 then fin s (bytesAt data 0 64) poison
    else
      let ((old, bad), s) := s.mergeRead a u
      fin s (maskOver mask data old) (poison || bad)

/-- Sums of an in-place add (R85, R88): each stored running sum plus its contribution, rounded once. -/
def addUnit (bf16 : Bool) (old new : List Byte) : List Byte :=
  if bf16 then
    (List.range 32).flatMap (fun i =>
      let x := lBf16.decode (leAt old (2 * i) 2)
      let y := lBf16.decode (leAt new (2 * i) 2)
      let c := (lBf16.encode .rne false (Fp.add x y)).code
      toLE 2 (if c = 0x8000 then 0 else c))
  else
    (List.range 16).flatMap (fun i =>
      toLE 4 (plusZero (fadd (BitVec.ofNat 32 (leAt old (4 * i) 4)) (BitVec.ofNat 32 (leAt new (4 * i) 4)))).toNat)

/-- An in-place add on a stack (R88): read, correct, add, write with fresh check symbols. An uncorrectable
read or a poisoned contribution poisons the unit and adds nothing. -/
def State.stackAdd (s : State) (a : Nat) (bf16 : Bool) (data : List Byte) (poison : Bool) (u : Upset) : State :=
  let un := a / 64
  if (s.stk (stackOf a)).railFailed then s
  else
    let s := s.openRow a
    let ((old, bad), s) := s.mergeRead a u
    if bad then s
    else if poison then s.markUnit a
    else ((s.setDram (64 * un) (addUnit bf16 old data)).setUnitPoison un false).setUnitCond un .good

/-- Does a unit that an in-place add has just written hold a NaN (R91). -/
def State.unitNan (s : State) (a : Nat) (bf16 : Bool) : Bool :=
  !(s.stk (stackOf a)).railFailed && !Tbl.get false s.mem.poison (a / 64) &&
    (List.range (if bf16 then 32 else 16)).any (fun i =>
      let n := if bf16 then 2 else 4
      (decodeFmt (b2n bf16) (leAt (s.dramBytes (a / 64 * 64) 64) (n * i) n)).isNan)

/-! ### Scrubbing (R190, R192) -/

/-- Record a scrub event and log it (R190, R415). -/
def State.scrubbed (s : State) (st un kind : Nat) : State :=
  let s := s.onStk st (fun k =>
    { k with
      rewrites := if kind = 1 then satInc k.rewrites else k.rewrites
      lastUnit := BitVec.ofNat 30 un
      lastKind := BitVec.ofNat 2 kind
      lastTime := BitVec.ofNat 64 s.clk.now })
  s.logErr 2 0 2 st (toLE 4 un ++ toLE 4 kind)

/-- A scrub visit to a stack-local unit. -/
def State.scrub (s : State) (st un : Nat) (u : Upset) : State :=
  let a := deviceOf st (64 * un)
  let s := s.onStk st (fun k =>
    { k with table := k.table.filter (fun x => x.1 != un), due := k.due.filter (fun x => x.1 != un) })
  if Tbl.get false s.mem.poison (a / 64) then s
  else
    let s := (s.openRow a).upset (a / 64) u
    match Tbl.get .good s.mem.cond (a / 64) with
    | .uncorrectable => (s.foundBad a).scrubbed st un 2
    | .correctable => (s.setUnitCond (a / 64) .good).scrubbed st un 1
    | .wrong w => ((s.setDram a w).setUnitCond (a / 64) .good).scrubbed st un 1
    | .good => s

/-- Does a stack run: its rail has not failed, and it is not in self-refresh. -/
def Stack.runs (k : Stack) : Bool := !k.railFailed && !k.selfRefresh

/-- PATROL_SCRUB (R190): the next unit in ascending local address. -/
def execPatrolScrub (st : Fin 16) (u : Upset) (s : State) : Res :=
  let k := s.stk st
  if !k.runs then .next s
  else
    let s := s.onStk st (fun k => { k with scrubNext := (k.scrubNext + 1) % 805306368 })
    .next (s.scrub st k.scrubNext u)

/-- TARGETED_SCRUB (R188, R192): the unit due longest is scrubbed out of turn; its third such visit puts its
row on the field-failure list. -/
def execTargetedScrub (st : Fin 16) (t : Nat) (s : State) : Res :=
  let s := s.at_ t
  let k := s.stk st
  match k.due with
  | [] => .next s
  | (un, _) :: _ =>
    if !k.runs then .next s
    else
      let n := Tbl.get 0 k.visits un + 1
      let s := (s.onStk st (fun k => { k with visits := Tbl.set 0 k.visits un n })).scrub st un .clean
      let a := deviceOf st (64 * un)
      .next (if n ≥ 3 then s.fieldFail (.row st (rowId a)) 2 st 2 else s)

/-- STACK_REFRESH (R434): the bank's refresh closes its open row. -/
def execStackRefresh (st : Fin 16) (ch : Fin 8) (pc : Fin 2) (bank : Fin 48) (s : State) : Res :=
  .next (s.onStk st (fun k => { k with rows := Tbl.set 0 k.rows (bankKey ch pc bank) 0 }))

/-- STACK_READ (R188, R189): a demand read of a unit; what is read goes to the slice that asked, or is delivered
to the management port here. -/
def execStackRead (unit : BitVec 40) (u : Upset) (s : State) : Res :=
  let a := unit.toNat / 64 * 64
  if a ≥ apertureBase then .next s
  else
    let ((b, p), s) := s.demandRead a u
    .next { s with mem := { s.mem with delivered := s.mem.delivered ++ [(.mgmt, a, b, p)] } }

/-- STACK_WRITE (R191). -/
def execStackWrite (unit : BitVec 40) (mask : BitVec 64) (data : List Byte) (poison : Bool) (u : Upset)
    (s : State) : Res :=
  if unit.toNat ≥ apertureBase then .next s
  else .next (s.stackPut (unit.toNat / 64 * 64) mask.toNat data poison u)

/-! ### Slice lines -/

/-- A mask bit. -/
def maskBit (m : BitVec 128) (i : Nat) : Bool := bit m i

/-- A line's bytes. -/
def Line.bytes (l : Line) : List Byte := Mem.readN l.data 0 128

/-- Bits of a half of a 128-bit mask. -/
def halfOf (m : BitVec 128) (h : Nat) : Nat := fld m (64 * h) 64

/-- Put bytes with their marks into a line at an offset: dirty data (R181). -/
def Line.put (l : Line) (off : Nat) (mbs : List MB) : Line :=
  let n := mbs.length
  let m := BitVec.ofNat 128 ((2 ^ n - 1) * 2 ^ off)
  let half (h : Nat) : Bool :=
    let lo := max off (64 * h)
    let hi := min (off + n) (64 * h + 64)
    if lo ≥ hi then bit l.poison h
    else
      let mark := mbPoison ((mbs.drop (lo - off)).take (hi - lo))
      if lo = 64 * h ∧ hi = 64 * h + 64 then mark else bit l.poison h || mark
  { l with
    data := Mem.writeN l.data off (mbBytes mbs)
    valid := l.valid ||| m
    dirty := l.dirty ||| m
    poison := BitVec.ofNat 2 (b2n (half 0) + 2 * b2n (half 1)) }

/-- Put bytes under a mask into a line: dirty data. -/
def Line.putMasked (l : Line) (mask : BitVec 128) (data : List Byte) (poison : BitVec 2) : Line :=
  let kept : BitVec 2 := BitVec.ofNat 2
    (b2n (bit l.poison 0 && halfOf mask 0 ≠ 2 ^ 64 - 1) + 2 * b2n (bit l.poison 1 && halfOf mask 1 ≠ 2 ^ 64 - 1))
  (List.range 128).foldl (fun l i =>
    if maskBit mask i then l.put i [(data.getD i 0, bit poison (i / 64))] else l) { l with poison := kept }

/-- Merge a fetched half under the bytes already valid (R181). -/
def Line.fill (l : Line) (h : Nat) (b : List Byte) (poison : Bool) : Line :=
  let any := halfOf l.valid h ≠ 2 ^ 64 - 1
  { l with
    data := (List.range 64).foldl (fun d i =>
      if maskBit l.valid (64 * h + i) then d else Memory.write d (64 * h + i) (b.getD i 0)) l.data
    valid := l.valid ||| BitVec.ofNat 128 ((2 ^ 64 - 1) * 2 ^ (64 * h))
    poison := if any && poison then setBit l.poison h else l.poison }

/-- A set's lines. -/
def Slice.lines (sl : Slice) (set : Nat) : List Line := Tbl.get [] sl.sets set
/-- Is a line present. -/
def Slice.line? (sl : Slice) (ln : Nat) : Option Line := (sl.lines (setOf (128 * ln))).find? (fun l => l.addr == ln)

/-- Is a shadow parked. -/
def Shadow.parked (x : Shadow) : Bool := x.slot.isSome

/-- The shadows a slice holds, a preempted task's among them. -/
def Slice.kept (sl : Slice) : List Shadow := sl.shadows ++ sl.away.map (·.2)

/-- Pinned ways of a set: its shadows that are not parked (R184). -/
def Slice.pinned (sl : Slice) (set : Nat) : Nat :=
  (sl.kept.filter (fun x => !x.parked && setOf (128 * x.line) == set)).length

/-- Write a line's dirty halves to the stack (R181): a wholly valid half whole, a partly valid one masked. -/
def State.writeBack (s : State) (l : Line) : State :=
  (List.range 2).foldl (fun s h =>
    let d := halfOf l.dirty h
    if d = 0 then s
    else
      let v := halfOf l.valid h
      let mask := if v = 2 ^ 64 - 1 ∨ bit l.poison h then 2 ^ 64 - 1 else d
      s.stackPut (128 * l.addr + 64 * h) mask (Mem.readN l.data (64 * h) 64) (bit l.poison h) .clean) s

/-- Put a changed line at the front of its set, most recently used. -/
def State.putLine (s : State) (l : Line) : State :=
  let a := 128 * l.addr
  s.onSlice (sliceOf a) (fun sl =>
    { sl with sets := Tbl.set [] sl.sets (setOf a) (l :: (sl.lines (setOf a)).filter (fun x => x.addr != l.addr)) })

/-- Remove a line. -/
def State.dropLine (s : State) (ln : Nat) : State :=
  let a := 128 * ln
  s.onSlice (sliceOf a) (fun sl =>
    { sl with sets := Tbl.set [] sl.sets (setOf a) ((sl.lines (setOf a)).filter (fun x => x.addr != ln)) })

/-- Evict least recently used lines until at most `keep` are left in a set. -/
def State.trim (s : State) (n set keep : Nat) : Nat → State
  | 0 => s
  | k + 1 =>
    let ls := (s.slice n).lines set
    if ls.length ≤ keep then s
    else
      match ls.getLast? with
      | none => s
      | some l => State.trim ((s.writeBack l).dropLine l.addr) n set keep k

/-- A line, allocated without fetch if it is not present (R181). -/
def State.allocLine (s : State) (ln : Nat) : Line × State :=
  let a := 128 * ln
  match (s.slice (sliceOf a)).line? ln with
  | some l => (l, s)
  | none => ({ addr := ln }, s.trim (sliceOf a) (setOf a) (15 - (s.slice (sliceOf a)).pinned (setOf a)) 16)

/-- Fetch a 256 B unit and merge it under the valid bytes of its lines (R181). -/
def State.fetchUnit (s : State) (a : Nat) (u : Upset) : State :=
  let base := a / 256 * 256
  (List.range 4).foldl (fun s i =>
    let ua := base + 64 * i
    let ((b, p), s) := s.demandRead ua (if i = 0 then u else .clean)
    let (l, s) := s.allocLine (ua / 128)
    s.putLine (l.fill (i % 2) b p)) s

/-- A served park's bytes lie over the line (R184): what every read sees until the copy home. -/
def overlayOps (ops : List ShadowOp) (mbs : List MB) : List MB :=
  ops.foldl (fun mbs op =>
    match op with
    | .write mask data poison =>
      (List.range mbs.length).map (fun i =>
        if maskBit mask i then (data.getD i 0, bit poison (i / 64)) else mbs.getD i (0, false))
    | .add _ _ _ _ => mbs) mbs

/-- What a request of a group sees of a line whose bytes are valid (R183, R184). -/
def Slice.view (sl : Slice) (l : Line) (k : Option GrpKey) : List MB :=
  let base := (List.range 128).map (fun i => (Memory.read l.data i, bit l.poison (i / 64)))
  sl.shadows.foldl (fun mbs x =>
    if x.line = l.addr ∧ (x.served ∨ (some x.key = k ∧ !x.committed)) then overlayOps x.ops mbs else mbs) base

/-- Bytes of a line the shadows a request sees supply without the line. -/
def Slice.seen (sl : Slice) (ln : Nat) (k : Option GrpKey) : BitVec 128 :=
  sl.shadows.foldl (fun m x =>
    if x.line = ln ∧ (x.served ∨ (some x.key = k ∧ !x.committed)) then
      x.ops.foldl (fun m op =>
        match op with
        | .write mask _ _ => m ||| mask
        | .add _ _ _ _ => m) m
    else m) 0

/-- Is every requested byte of a 256 B unit valid (R181). -/
def State.unitHit (s : State) (a : Nat) (mask : Nat) (k : Option GrpKey) : Bool :=
  let base := a / 256 * 256
  let sl := s.slice (sliceOf base)
  (List.range 2).all (fun j =>
    let ln := base / 128 + j
    let want := mask / 2 ^ (128 * j) % 2 ^ 128
    want == 0 ||
      (let have_ : BitVec 128 := (match sl.line? ln with
        | some l => l.valid
        | none => 0) ||| sl.seen ln k
       Nat.land want have_.toNat == want))

/-- Count a read unit as hit or miss (R181, R198). -/
def State.countRead (s : State) (a : Nat) (hit : Bool) : State :=
  s.onSlice (sliceOf a) (fun sl =>
    if hit then { sl with hits := satInc sl.hits } else { sl with missCount := satInc sl.missCount })

/-- Touch a line: most recently used. -/
def State.useLine (s : State) (ln : Nat) : State :=
  match (s.slice (sliceOf (128 * ln))).line? ln with
  | some l => s.putLine l
  | none => s

/-- What a unit's 256 bytes read as to a request. -/
def State.unitBytes (s : State) (a : Nat) (k : Option GrpKey) : List MB :=
  let base := a / 256 * 256
  let sl := s.slice (sliceOf base)
  (List.range 2).flatMap (fun j => sl.view ((sl.line? (base / 128 + j)).getD { addr := base / 128 + j }) k)

/-- Read a unit under a mask, fetching it on a miss. -/
def State.readUnit (s : State) (a : Nat) (mask : Nat) (k : Option GrpKey) (u : Upset) : List MB × State :=
  let hit := s.unitHit a mask k
  let s := s.countRead a hit
  let s := if hit then s else s.fetchUnit a u
  let base := a / 256 * 256
  let s := (s.useLine (base / 128 + 1)).useLine (base / 128)
  (s.unitBytes a k, s)

/-- The 256 B units a range touches. -/
def unitsOf (a n : Nat) : List Nat :=
  if n = 0 then [] else (List.range ((a + n - 1) / 256 + 1 - a / 256)).map (fun i => (a / 256 + i) * 256)

/-- The byte mask of a range within a unit. -/
def unitMask (base a n : Nat) : Nat :=
  let lo := max a base - base
  let hi := min (a + n) (base + 256) - base
  if hi ≤ lo then 0 else (2 ^ (hi - lo) - 1) * 2 ^ lo

/-- Read a range of device memory through the slices, as a request of a group. -/
def State.readMem (s : State) (a n : Nat) (k : Option GrpKey) : List MB × State :=
  (unitsOf a n).foldl (fun (acc, s) base =>
    let m := unitMask base a n
    let (b, s) := s.readUnit base m k .clean
    (acc ++ (List.range 256).filterMap (fun i => if m / 2 ^ i % 2 = 1 then b[i]? else none), s)) ([], s)

/-! ### Shadows (R183, R184, R274) -/

/-- Shadow lines held by the device. -/
def State.shadowCount (s : State) : Nat := sumNat (s.mem.slices.map (fun (_, sl) => sl.kept.length))

/-- May a slice take a new shadow of a line: the device's limit, and a pinned way or room in the park. -/
def State.shadowRoom (s : State) (ln : Nat) : Bool :=
  let a := 128 * ln
  let sl := s.slice (sliceOf a)
  s.shadowCount < 524288 &&
    (sl.pinned (setOf a) < 12 || (sl.kept.filter (·.parked)).length < 4096)

/-- Has a slice a live shadow of a line for a key. -/
def Slice.shadow? (sl : Slice) (ln : Nat) (k : GrpKey) : Bool :=
  sl.shadows.any (fun x => x.line == ln && x.key == k && !x.committed)

/-- The first free place of a slice's park. -/
def Slice.freeSlot (sl : Slice) : Nat := ((List.range 4096).find? (fun i => !sl.kept.any (fun x => x.slot == some i))).getD 0

/-- What a park entry holds: the shadow's bytes, and its contributions as they came (R184). -/
def parkBytes (ops : List ShadowOp) : List MB :=
  ops.foldl (fun mbs op =>
    match op with
    | .write _ _ _ => overlayOps [op] mbs
    | .add h _ data poison => mbs.take (64 * h) ++ mbMark poison (bytesAt data 0 64) ++ mbs.drop (64 * h + 64))
    (List.replicate 128 (0, false))

/-- The stack-local address of a place in the park of slice 8·s + j. -/
def parkAt (n slot : Nat) : Nat := 0xBFE400000 + n % 8 * 0x80000 + 128 * slot

/-- A parked shadow is stored in the pending-group area of its stack. -/
def State.storePark (s : State) (n : Nat) (x : Shadow) : State :=
  match x.slot with
  | none => s
  | some i =>
    let b := parkBytes x.ops
    (List.range 2).foldl (fun s h =>
      let half := (b.drop (64 * h)).take 64
      s.stackPut (deviceOf (n / 8) (parkAt n i + 64 * h)) (2 ^ 64 - 1) (mbBytes half) (mbPoison half) .clean) s

/-- A line's shadow for a group, in the park if it lies there. -/
def State.repark (s : State) (n ln : Nat) (k : GrpKey) : State :=
  match (s.slice n).shadows.find? (fun x => x.line == ln && x.key == k && !x.committed) with
  | some x => s.storePark n x
  | none => s

/-- Add an access to a line's shadow for a group, making the shadow if there is none: none where it cannot be
held (R184). -/
def State.shadowOp (s : State) (ln : Nat) (k : GrpKey) (op : ShadowOp) : Option State :=
  let a := 128 * ln
  let n := sliceOf a
  if (s.slice n).shadow? ln k then
    some ((s.onSlice n (fun sl => { sl with shadows := sl.shadows.map (fun x =>
      if x.line = ln ∧ x.key = k ∧ !x.committed then { x with ops := x.ops ++ [op] } else x) })).repark n ln k)
  else if s.shadowRoom ln then
    let park := !((s.slice n).pinned (setOf a) < 12)
    let slot := if park then some (s.slice n).freeSlot else none
    let s := s.onSlice n (fun sl => { sl with shadows := sl.shadows ++ [{ line := ln, key := k, ops := [op], slot := slot }] })
    let s := if park then s.repark n ln k else s.trim n (setOf a) (16 - (s.slice n).pinned (setOf a)) 16
    some { s with mem := { s.mem with pendPeak := BitVec.ofNat 20 (max s.mem.pendPeak.toNat s.shadowCount) } }
  else none

/-- Has a key's group been aborted (R272): a local group resolved so. -/
def State.keyAborted (s : State) : GrpKey → Bool
  | .loc lc g => let x := (s.core lc).seq.grp g; x.st == .resolved && x.aborted
  | .rem _ _ _ => false

/-- A shadow that cannot be held aborts its group with E_GROUP_OVERFLOW (R184, R274); of a remote group the shadows held
here go, and the sender hears of it in the packet's answer. -/
def State.overflowKey (s : State) : GrpKey → State
  | .loc lc g => s.abortGroup lc g eGroupOverflow
  | .rem f c g => s.dropShadows (.rem f c g)

/-- Copy a served park home (R184): to the stack, and over a present line's bytes. -/
def State.copyHome (s : State) (x : Shadow) : State :=
  x.ops.foldl (fun s op =>
    match op with
    | .add _ _ _ _ => s
    | .write mask data poison =>
      let s := (List.range 2).foldl (fun s h =>
        s.stackPut (128 * x.line + 64 * h) (halfOf mask h) (bytesAt data (64 * h) 64) (bit poison h) .clean) s
      match (s.slice (sliceOf (128 * x.line))).line? x.line with
      | none => s
      | some l => s.putLine { (l.putMasked mask data poison) with dirty := l.dirty }) s

/-- Served parks of a line are copied home before the line itself changes. -/
def State.settle (s : State) (ln : Nat) : State :=
  let n := sliceOf (128 * ln)
  let mine := (s.slice n).shadows.filter (fun x => x.line == ln && x.served)
  if mine = [] then s
  else
    (mine.foldl State.copyHome s).onSlice n (fun sl =>
      { sl with shadows := sl.shadows.filter (fun x => !(x.line == ln && x.served)) })

/-- A line's tagged write as a shadow operation: bytes at an offset, their marks by half (R183). -/
def shadowWrite (off : Nat) (mbs : List MB) : ShadowOp :=
  let full := List.replicate off (0 : Byte) ++ mbBytes mbs ++ List.replicate (128 - off - mbs.length) 0
  let mark (h : Nat) : Bool := mbPoison ((mbs.drop (64 * h - off)).take (64 * h + 64 - max off (64 * h)))
  .write (BitVec.ofNat 128 ((2 ^ mbs.length - 1) * 2 ^ off)) full (BitVec.ofNat 2 (b2n (mark 0) + 2 * b2n (mark 1)))

/-- Write marked bytes within one line, at once or as a shadow (R181, R183). -/
def State.writeLine (s : State) (a : Nat) (mbs : List MB) (k : Option GrpKey) : State :=
  let ln := a / 128
  let off := a % 128
  match k with
  | none =>
    let s := s.settle ln
    let (l, s) := s.allocLine ln
    s.putLine (l.put off mbs)
  | some k =>
    if s.keyAborted k then s
    else
      match s.shadowOp ln k (shadowWrite off mbs) with
      | some s => s
      | none => s.overflowKey k

/-- A range cut at line boundaries: (address, length). -/
def lineCuts (a n : Nat) : List (Nat × Nat) :=
  if n = 0 then []
  else (List.range ((a + n - 1) / 128 + 1 - a / 128)).map (fun i =>
    let lo := max a ((a / 128 + i) * 128)
    (lo, min (a + n) ((a / 128 + i + 1) * 128) - lo))

/-- Write marked bytes to device memory through the slices; 64 B units take any mark of theirs (R197). -/
def State.writeMem (s : State) (a : Nat) (mbs : List MB) (k : Option GrpKey) : State :=
  (lineCuts a mbs.length).foldl (fun s (lo, n) => s.writeLine lo ((mbs.drop (lo - a)).take n) k) s

/-- An in-place add of one unit through its slice (R89): at once, the slice's copy written back and
invalidated first; or held as pending data of its group. -/
def State.addMem (s : State) (a : Nat) (bf16 : Bool) (data : List Byte) (poison : Bool) (k : Option GrpKey)
    (u : Upset) : State :=
  let ln := a / 128
  match k with
  | none =>
    let s := s.settle ln
    let s := match (s.slice (sliceOf a)).line? ln with
      | some l => (s.writeBack l).dropLine ln
      | none => s
    s.stackAdd (a / 64 * 64) bf16 data poison u
  | some k =>
    if s.keyAborted k then s
    else
      match s.shadowOp ln k (.add (a / 64 % 2) bf16 data poison) with
      | some s => s
      | none => s.overflowKey k

/-- IN_PLACE_ADD (R88, R89): an ungrouped add of a 64 B-aligned unit reaches its stack. -/
def execInPlaceAdd (unit : BitVec 40) (bf16 : Bool) (data : List Byte) (poison : Bool) (u : Upset) (s : State) : Res :=
  if unit.toNat % 64 ≠ 0 ∨ unit.toNat ≥ userTop then .next s
  else .next (s.addMem unit.toNat bf16 (bytesAt data 0 64) poison none u)

/-! ### Accesses a slice holds (R270, R292, R184) -/

/-- Who a request comes from, and the 256 B unit it names. -/
def HeldReq.at_ : HeldReq → XPort × Nat
  | .read m => (m.port, m.unit)
  | .write p a _ _ _ _ => (p, a / 256)
  | .host a _ _ => (.cxl, a / 256)

/-- Does one of some requests come from a port for a unit. -/
def hasReq (hs : List HeldReq) (p : XPort) (unit : Nat) : Bool := hs.any (fun h => h.at_ == (p, unit))

/-- Send a back-invalidate for a tracked unit, once (R292). -/
def State.sendBisnp (s : State) (n unit : Nat) (withData : Bool) : State :=
  if (s.slice n).bisnp.any (fun x => x.1 == unit) then s
  else
    let s := s.onSlice n (fun sl => { sl with bisnp := sl.bisnp ++ [(unit, withData)] })
    { s with host := { s.host with bisnpCount := satInc s.host.bisnpCount, out := s.host.out ++ [if withData then .bisnpData unit else .bisnpInv unit] } }

/-- Must an access to a line wait: behind an earlier one of its port to the unit, which a write also follows where it is a
miss (R177), behind PREPARE, behind a parked line's copy home, or behind a back-invalidate, which is sent. -/
def State.lineWait (s : State) (ln : Nat) (k : Option GrpKey) (p : XPort) (write : Bool) : Option State :=
  let n := sliceOf (128 * ln)
  let sl := s.slice n
  if hasReq sl.held p (ln / 2) || (write && sl.misses.any (fun m => m.port == p && m.unit == ln / 2)) then some s
  else if sl.shadows.any (fun x => x.line == ln && !x.served && sl.prepared.contains x.key && (some x.key != k || x.committed))
  then some s
  else if write && k.isSome && sl.shadows.any (fun x => x.line == ln && x.served) then some s
  else if p = .cxl ∨ (write ∧ k.isSome) then none
  else
    match sl.snoops.filter (fun x => x.unit / 2 == ln && (write || x.modified)) with
    | [] => none
    | xs => some (xs.foldl (fun s x => s.sendBisnp n x.unit (!write)) s)

/-- Must an access to a range wait. -/
def State.memWait (s : State) (a n : Nat) (k : Option GrpKey) (p : XPort) (write : Bool) : Option State :=
  (lineCuts a n).foldl (fun w (lo, _) =>
    match (w.getD s).lineWait (lo / 128) k p write with
    | some s => some s
    | none => w) none

/-! ### Requests of the ports -/

/-- What a port is given. -/
def State.deliver (s : State) (p : XPort) (a : Nat) (mask : Nat) (b : List MB) : State :=
  let got := (List.range 256).filterMap (fun i => if mask / 2 ^ i % 2 = 1 then b[i]? else none)
  { s with mem := { s.mem with delivered := s.mem.delivered ++ [(p, a / 256 * 256, mbBytes got, mbPoison got)] } }

/-- Requests a port has outstanding against a slice: read misses, and what stands there held (R175, R179). -/
def Slice.owed (sl : Slice) (p : XPort) : Nat :=
  (sl.misses.filter (fun m => m.port == p)).length + (sl.held.filter (fun h => h.at_.1 == p)).length

/-- A core's number as a slice's port, and as a group key names it. -/
def coreFin (lc : Nat) : Fin 64 := (BitVec.ofNat 6 lc).toFin

/-- The key of a core's group. -/
def keyOf (lc : Nat) (g : Option (BitVec 12)) : Option GrpKey := g.map (GrpKey.loc (coreFin lc))

/-- Requests a core has outstanding (R199): against the slices, and for the host aperture (R296). -/
def State.outstanding (s : State) (lc : Nat) : Nat :=
  sumNat (s.mem.slices.map (fun (_, sl) => sl.owed (.core (coreFin lc)))) + (s.host.apts.filter (fun r => r.lc == lc)).length

/-- Has a core its 32 requests against the slice of a unit (R179). -/
def State.sliceFull (s : State) (lc : Nat) (a : Nat) : Bool := 32 ≤ (s.slice (sliceOf a)).owed (.core (coreFin lc))

/-- Must a request to a unit wait at its core's port: behind an earlier one to it, or at a limit (R177, R179). -/
def State.portFull (s : State) (p : XPort) (unit : Nat) : Bool :=
  match p with
  | .core lc => hasReq s.mem.waiting p unit || s.sliceFull lc (256 * unit) || 256 ≤ s.outstanding lc
  | _ => false

/-- A request is held by the 32-per-slice cap (R199). -/
def State.capHit (s : State) (lc : Nat) (a : Nat) : State :=
  s.onSeq lc (fun q => { q with capHits := satInc q.capHits, capSlice := BitVec.ofNat 7 (sliceOf a) })

/-- The requests of a copy wait at the core's port (R179): those of the same engine wait behind, and one that meets the
32-per-slice cap counts once. -/
def State.dramFull (s : State) (lc : Nat) (e : Eng) (far : List (Nat × Nat)) : Option State :=
  match (far.flatMap (fun (a, n) => unitsOf a n)).find? (fun a => s.portFull (.core (coreFin lc)) (a / 256)) with
  | none => none
  | some a =>
    let g := s.eng lc e
    if s.sliceFull lc a && g.capFor != some g.begunCount then
      some ((s.capHit lc a).onEng lc e (fun g => { g with capFor := some g.begunCount }))
    else some s

/-- A slice array error in the line a read touches first (R182). -/
def State.sliceEcc (s : State) (a : Nat) (mask : Nat) (u : Upset) : State :=
  let base := a / 256 * 256
  let i := ((List.range 256).find? (fun i => mask / 2 ^ i % 2 = 1)).getD 0
  let ln := (base + i) / 128
  match (s.slice (sliceOf base)).line? ln, u with
  | some _, .correctable => s.onSlice (sliceOf base) (fun sl => { sl with corr := satInc sl.corr })
  | some l, .uncorrectable =>
    if l.dirty = 0 then s.dropLine ln else s.putLine { l with poison := setBit l.poison (i / 64 % 2) }
  | _, _ => s

/-- A read request reaches its slice: held, or a hit delivered, or a miss that waits for its unit. -/
def State.doRead (s : State) (m : Miss) : State :=
  let a := m.unit * 256
  match s.memWait a 256 m.key m.port false with
  | some s => s.onSlice (sliceOf a) (fun sl => { sl with held := sl.held ++ [.read m] })
  | none =>
    if s.unitHit a m.mask.toNat m.key then
      let (b, s) := s.readUnit a m.mask.toNat m.key .clean
      s.deliver m.port a m.mask.toNat b
    else
      (s.countRead a false).onSlice (sliceOf a) (fun sl => { sl with misses := sl.misses ++ [m] })

/-- Runs of set bits of a 256-bit mask, as (first, count). -/
def maskRuns (mask : Nat) : List (Nat × Nat) :=
  (List.range 256).foldl (fun rs i =>
    if mask / 2 ^ i % 2 = 1 then
      match rs.getLast? with
      | some (a, n) => if a + n = i then rs.dropLast ++ [(a, n + 1)] else rs ++ [(i, 1)]
      | none => [(i, 1)]
    else rs) []

/-- A write request reaches its slice: held, or accepted run by run of its mask. -/
def State.doWrite (s : State) (p : XPort) (a : Nat) (mask : BitVec 256) (data : List Byte) (poison : Bool)
    (k : Option GrpKey) : State :=
  match s.memWait a 256 k p true with
  | some s => s.onSlice (sliceOf a) (fun sl => { sl with held := sl.held ++ [.write p a mask data poison k] })
  | none =>
    (maskRuns mask.toNat).foldl (fun s (o, n) => s.writeMem (a + o) (mbMark poison (bytesAt data o n)) k) s

/-! ### Host requests (R292, R293) -/

/-- Record what the host may hold of a unit (R292): the least recently used entry makes room, with BISnpInv;
none where the request must wait for that. -/
def State.track (s : State) (unit : Nat) (modified : Bool) : Option State :=
  let n := sliceOf (64 * unit)
  let sl := s.slice n
  if sl.snoops.any (fun x => x.unit == unit) then
    let was := sl.snoops.any (fun x => x.unit == unit && x.modified)
    let ns := sl.snoops.filter (fun x => x.unit != unit) ++ [{ unit := unit, modified := modified || was }]
    some (s.onSlice n (fun sl => { sl with snoops := ns }))
  else if sl.snoops.length < 32768 then
    some (s.onSlice n (fun sl => { sl with snoops := sl.snoops ++ [{ unit := unit, modified := modified }] }))
  else none

/-- Serve a CXL.mem request at its slice (R293); one behind PREPARE, or for which the snoop filter must first
make room, is held. -/
def State.doHost (s : State) (a : Nat) (r : HostMem) (caches : Bool) : State :=
  let n := sliceOf a
  let unit := a / 64
  let hold (s : State) : State := s.onSlice n (fun sl => { sl with held := sl.held ++ [.host a r caches] })
  let say (s : State) (o : CxlOut) : State := { s with host := { s.host with out := s.host.out ++ [o] } }
  match s.lineWait (a / 128) none .cxl (match r with | .read => false | .write _ _ _ => true) with
  | some s => hold s
  | none =>
    match (if caches then s.track unit (match r with | .read => false | .write _ _ _ => true) else some s) with
    | none =>
      match (s.slice n).snoops with
      | x :: _ => hold (s.sendBisnp n x.unit false)
      | [] => hold s
    | some s =>
      match r with
      | .read =>
        let (b, s) := s.readMem (64 * unit) 64 none
        say s (.memData unit (mbBytes b) (mbPoison b))
      | .write mask data poison =>
        let s := (maskRuns mask.toNat).foldl (fun s (o, k) =>
          s.writeMem (64 * unit + o) (mbMark poison (bytesAt data o k)) none) s
        say s (.memCmp unit)

/-- A request is at its slice. -/
def State.access (s : State) : HeldReq → State
  | .read m => s.doRead m
  | .write p a mask data poison k => s.doWrite p a mask data poison k
  | .host a r c => s.doHost a r c

/-- A request leaves its port, or waits there (R179). -/
def State.submit (s : State) (h : HeldReq) : State :=
  if s.portFull h.at_.1 h.at_.2 then { s with mem := { s.mem with waiting := s.mem.waiting ++ [h] } } else s.access h

/-- The requests that wait at their ports are tried again, in order. -/
def State.pumpWaiting (s : State) : State :=
  if s.mem.waiting = [] then s
  else s.mem.waiting.foldl State.submit { s with mem := { s.mem with waiting := [] } }

/-- Held accesses of a slice are tried again, in order, and what waited for room after them. -/
def State.retryHeld (s : State) (n : Nat) : State :=
  let hs := (s.slice n).held
  if hs = [] then s else (hs.foldl State.access (s.onSlice n (fun sl => { sl with held := [] }))).pumpWaiting

/-- A port's new request for a unit: one that meets the 32-per-slice cap is counted (R179, R199). -/
def State.request (s : State) (h : HeldReq) : State :=
  let s := match h.at_.1 with
    | .core lc => if s.sliceFull lc (256 * h.at_.2) then s.capHit lc (256 * h.at_.2) else s
    | _ => s
  s.submit h

/-- May a port reach a unit (R193): user DRAM is for all; the flow contexts for the transport engines and the management
complex; the firmware region for the management complex alone; the pending-group area for none. The slices take nothing
while a device-level fault halts the device (R280). -/
def sliceServes (s : State) (p : XPort) (a : Nat) : Bool :=
  !s.mgmt.faultActive &&
    (a < userTop ||
      match p with
      | .te _ => 0xBFE8000000 ≤ a && a < 0xBFF0000000
      | .mgmt => 0xBFE8000000 ≤ a && a < apertureBase
      | _ => false)

/-- XBAR_READ (R176, R181, R183): hit or miss in the memory-side cache. -/
def execXbarRead (p : XPort) (addr : BitVec 40) (mask : BitVec 256) (k : Option GrpKey) (u : Upset) (s : State) : Res :=
  let a := addr.toNat / 256 * 256
  if !sliceServes s p a then .next s
  else
    let s := s.retryHeld (sliceOf a)
    let s := if s.portFull p (a / 256) then s else s.sliceEcc a mask.toNat u
    .next (s.request (.read { port := p, unit := a / 256, mask := mask, key := k }))

/-- XBAR_WRITE (R177, R181, R183, R184). -/
def execXbarWrite (p : XPort) (addr : BitVec 40) (mask : BitVec 256) (data : List Byte) (poison : Bool)
    (k : Option GrpKey) (s : State) : Res :=
  let a := addr.toNat / 256 * 256
  if !sliceServes s p a then .next s
  else .next ((s.retryHeld (sliceOf a)).request (.write p a mask data poison k))

/-- SLICE_MISS_FILL (R181): the unit of the oldest miss is merged and delivered; what waited for it goes on. -/
def execSliceMissFill (sl : Fin 128) (u : Upset) (s : State) : Res :=
  let s := s.retryHeld sl
  match (s.slice sl).misses with
  | [] => .next s
  | m :: r =>
    let a := m.unit * 256
    let s := (s.onSlice sl (fun x => { x with misses := r })).fetchUnit a u
    .next (((s.deliver m.port a m.mask.toNat (s.unitBytes a m.key)).retryHeld sl).pumpWaiting)

/-- One committed shadow becomes ordinary data of its line (R183): its writes dirty data, its in-place adds
applied at the stack, in arrival order. -/
def State.applyShadow (s : State) (x : Shadow) : State :=
  x.ops.foldl (fun s op =>
    match op with
    | .write mask data poison =>
      let (l, s) := s.allocLine x.line
      s.putLine (l.putMasked mask data poison)
    | .add h bf16 data poison =>
      let a := 128 * x.line + 64 * h
      let s := s.addMem a bf16 data poison none .clean
      match x.key with
      | .loc lc _ => if s.unitNan a bf16 then s.redFlags lc 8 else s
      | .rem _ _ _ => s) s

/-- Does a shadow hold an add. -/
def Shadow.adds (x : Shadow) : Bool :=
  x.ops.any (fun o => match o with | .add _ _ _ _ => true | .write _ _ _ => false)

/-- The shadows of a group that are past its commit point and not yet turned into data. -/
def Slice.due (sl : Slice) (k : GrpKey) : List Shadow := sl.shadows.filter (fun x => x.key == k && x.committed && !x.served)

/-- A slice has COMMIT of a group (R270, R183, R184): its shadows turn into dirty data at once, parked ones are served from
the park. What the host may hold of a line they change is back-invalidated first, and the rest waits for its answers (R292). -/
def State.sliceCommit (s : State) (n : Nat) (k : GrpKey) : State :=
  let mine := (s.slice n).due k
  let told := (s.slice n).snoops.filter (fun x => mine.any (fun y => y.line == x.unit / 2))
  if told ≠ [] then
    (told.foldl (fun s x => s.sendBisnp n x.unit false) s).onSlice n (fun sl => { sl with commits := sl.commits.filter (· != k) ++ [k] })
  else
    let stay (x : Shadow) : Bool := x.parked && !x.adds
    let s := s.onSlice n (fun y =>
      { y with
        prepared := y.prepared.filter (· != k)
        commits := y.commits.filter (· != k)
        shadows := (y.shadows.filter (fun x => !mine.contains x || stay x)).map (fun x => if mine.contains x then { x with served := true } else x) })
    (mine.filter (fun x => !stay x)).foldl State.applyShadow s

/-- The back-invalidates of a slice have been answered: the commits that waited for them, and then the held accesses, go on. -/
def State.sliceGo (s : State) (n : Nat) : State :=
  ((s.slice n).commits.foldl (fun (s : State) k => s.sliceCommit n k) s).retryHeld n

/-- BISNP_RESPONSE (R292): the host answers the oldest back-invalidate, with what it had modified and CXL's poison on it
(R196); the entry goes, or is no longer modified, and what waited goes on. -/
def execBisnpResponse (sl : Fin 128) (dirty : Option (List Byte × Bool)) (s : State) : Res :=
  match (s.slice sl).bisnp with
  | [] => .next s
  | (unit, withData) :: r =>
    let s := s.onSlice sl (fun x =>
      { x with
        bisnp := r
        snoops := if withData then x.snoops.map (fun e => if e.unit = unit then { e with modified := false } else e)
                  else x.snoops.filter (fun e => e.unit != unit) })
    let s := match dirty with
      | some (b, p) => s.writeMem (64 * unit) (mbMark p (bytesAt b 0 64)) none
      | none => s
    .next (s.sliceGo sl)

/-- Does a committed HDM decoder map a device address (R291). -/
def State.hdmMaps (s : State) (a : Nat) : Bool :=
  [s.host.dec0, s.host.dec1].any (fun d => d.committed && d.dpa ≤ a && a < d.dpa + d.size)

/-- HOST_MEM_REQUEST (R293): a CXL.mem request for a 64 B unit of a mapped range. After a device-level fault
it completes with poison (R280). -/
def execHostMemRequest (unit : BitVec 40) (r : HostMem) (caches : Bool) (s : State) : Res :=
  let a := unit.toNat / 64 * 64
  if !s.host.memActive || !s.host.linkUp || !s.hdmMaps a then .next s
  else if s.mgmt.faultActive then
    let o : CxlOut := match r with
      | .read => .memData (a / 64) (List.replicate 64 0) true
      | .write _ _ _ => .memCmp (a / 64)
    .next { s with host := { s.host with out := s.host.out ++ [o] } }
  else .next ((s.retryHeld (sliceOf a)).doHost a r caches)

/-! ### Commit in the slices (R270, R275) -/

/-- SLICE_PREPARE (R270): the slice holds outside accesses from now on, and acknowledges. -/
def execSlicePrepare (sl : Fin 128) (k : GrpKey) (s : State) : Res :=
  let take (s : State) : State := s.onSlice sl (fun x => { x with prepared := x.prepared ++ [k] })
  match k with
  | .loc lc g =>
    let x := (s.core lc).seq.grp g
    if x.st = .committing ∧ x.await.contains sl.val then
      .next ((take s).onSeq lc (fun q => q.onGrp g (fun x => { x with await := x.await.filter (· != sl.val) })))
    else .next s
  | .rem f c g =>
    let mine (h : Handle) : Bool := h.flow == f && h.core.toNat == c.val && h.grp == g
    if s.fab.handles.any (fun h => mine h && h.committing && h.await.contains sl.val) then
      let hs := s.fab.handles.map (fun h => if mine h then { h with await := h.await.filter (· != sl.val) } else h)
      .next (take { s with fab := { s.fab with handles := hs } })
    else .next s

/-- SLICE_COMMIT (R270, R183, R184). -/
def execSliceCommit (sl : Fin 128) (k : GrpKey) (s : State) : Res :=
  let mine := (s.slice sl).due k
  if mine = [] ∧ !(s.slice sl).prepared.contains k then .next s
  else if (s.slice sl).shadows.any (fun x => x.key == k && !x.committed) && (s.slice sl).prepared.contains k && mine == [] then .next s
  else .next ((s.sliceCommit sl k).retryHeld sl)

/-- PARK_COPY_HOME (R184): the oldest served park entry is copied to its home address and freed. -/
def execParkCopyHome (sl : Fin 128) (s : State) : Res :=
  match (s.slice sl).shadows.find? (·.served) with
  | none => .next s
  | some x => .next ((s.settle x.line).retryHeld sl)

end Sys2Proof.Machine
end

