-- ==== Sys2Proof/Machine/Far.lean ====
section
/-! DEFINITION. Far transfers (R117, R194, R229, R239–R243, R294–R298): addresses and their checks, placing data
in a window, and pumping a begun command's transfer onto its flow or the host aperture. -/

namespace Sys2Proof.Machine

/-! ### Far addresses (R117, R118, R194) -/

/-- Address, node, LOCAL of a DRAM far address. -/
def farAddr (w : Cmd) : Nat := fld w 96 40
def farNode (w : Cmd) : BitVec 18 := BitVec.ofNat 18 (fld w 136 18)
def farLocal (w : Cmd) : Bool := bit w 154
/-- Node, logical core, window, generation and word offset of a window far address. -/
def farWinNode (w : Cmd) : BitVec 18 := BitVec.ofNat 18 (fld w 96 18)
def farWinCore (w : Cmd) : BitVec 6 := BitVec.ofNat 6 (fld w 114 6)
def farWin (w : Cmd) : BitVec 12 := BitVec.ofNat 12 (fld w 120 12)
def farWinGen (w : Cmd) : BitVec 16 := BitVec.ofNat 16 (fld w 132 16)
def farWinOff (w : Cmd) : Nat := fld w 148 23

/-- Does a DRAM far address name this device's memory (R194). -/
def dramHere (s : State) (w : Cmd) : Bool := farLocal w || farNode w == s.nodeId
/-- Does a window far address name this device. -/
def winHere (s : State) (w : Cmd) : Bool := farWinNode w == s.nodeId

/-- The iteration index of the innermost loop open at a command (R118). -/
def iterOf (loops : List Loop) : Nat :=
  match loops.getLast? with
  | some l => l.iter
  | none => 0

/-- An entry of the host aperture (R294): VALID, WRITE and the host address its GiB begins at. -/
structure AptEntry where
  valid : Bool
  write : Bool
  hpa : Nat

/-- The aperture entry a task address goes through. -/
def State.aptEntry (s : State) (a : Nat) : AptEntry :=
  let i := (a - apertureBase) / 2 ^ 30
  let lo := s.inForce (0x04070000 + 8 * i) 0
  let hi := s.inForce (0x04070004 + 8 * i) 0
  { valid := bit lo 0, write := bit lo 1, hpa := hi.toNat * 2 ^ 32 + fld lo 30 2 * 2 ^ 30 }

/-- Is every entry an aperture range goes through usable (R294). -/
def State.aptOk (s : State) (a n : Nat) (write : Bool) : Bool :=
  (List.range ((a + n - 1) / 2 ^ 30 + 1 - a / 2 ^ 30)).all (fun i =>
    let e := s.aptEntry (max a ((a / 2 ^ 30 + i) * 2 ^ 30))
    e.valid && (!write || e.write))

/-- The check of a local DRAM access at validation (R195, R294): E_ADDRESS, or nothing. -/
def localAddrErr (s : State) (lc a n : Nat) (write : Bool) : Option Nat :=
  let q := (s.core lc).seq
  if !q.drangeOk a n write then some eAddress
  else if inDram a n then none
  else if inAperture a n && s.aptOk a n write then none
  else some eAddress

/-! ### Windows as the owner sees a write (R164, R243) -/

/-- The check of an arriving window write, in R164's order: its error, or nothing. `len` is in bytes. -/
def windowErr (s : State) (lc : Nat) (node : BitVec 18) (src : Nat) (w : WinHdr) (len : Nat) : Option Nat :=
  let q := (s.core lc).seq
  let x := q.win w.window
  let e := x.src
  let d := (s.dom (s.core lc).phys.toNat).st
  if !x.isOpen || d == .retention || d == .dark || x.gen != w.gen then some eWindowClosed
  else if !(e.valid && e.nodeLo.toNat ≤ node.toNat && node.toNat ≤ e.nodeHi.toNat && e.coreLo.toNat ≤ src && src ≤ e.coreHi.toNat)
  then some eWindowSource
  else if w.woff.toNat * 4 + len > x.len * 4 then some eWindowRange
  else none

/-- Does a piece of a transfer into a window with a queue show that the transfer does not cover exactly one slot (R243): the
whole must be a slot long, a piece must lie in one slot, the last one and no other must end it, and the others, equally
long from the slot's start, must begin at a multiple of their length. -/
def slotErr (s : State) (lc : Nat) (w : WinHdr) (last : Bool) (len : Nat) : Bool :=
  let q := (s.core lc).seq
  let x := q.win w.window
  match x.queue with
  | none => false
  | some _ =>
    let size := 4 * x.slotWords
    let o := 4 * (w.woff.toNat % x.slotWords)
    size == 0 || w.xferLen.toNat != size || decide (size < o + len) || last != (o + len == size) || (!last && o % len != 0)

/-- What becomes of a write that passed its checks. -/
inductive Placed where
  /-- The buffer of the remote-write port is full: the crossbar holds its sender back (R172). -/
  | full
  /-- It waits in the remote-write port (R169, R172). -/
  | queued (s : State)
  /-- It touches an active code region: refused, the owning task stopped (R131). -/
  | code (s : State)
  | done (s : State)

/-- The words a write in the port covers. -/
def PortWrite.run (x : PortWrite) : Nat × Nat := (x.addr / 4, ceilDiv x.data.length 4)

/-- Does a write at the remote-write port wait: for a pending extent it overlaps (R169), for a section that wakes (R172), or
behind an older write to the same words (log 197). -/
def Core.portHolds (co : Core) (older : List PortWrite) (r : Nat × Nat) : Bool :=
  co.scp.blocked none [r] || co.scp.asleep (runSections [r]) != [] || older.any (fun y => runsMeet y.run r)

/-- Has the port's buffer room for a write; an empty buffer takes any (log 197). -/
def Core.portRoom (co : Core) (x : PortWrite) : Bool :=
  co.scp.port == [] || decide (sumNat (co.scp.port.map (fun y => y.run.2)) + x.run.2 ≤ Config.portWords)

/-- A write that has come through the port is stored, or refused where it touches active code. -/
def State.portStore (s : State) (lc : Nat) (x : PortWrite) : Placed :=
  if (s.core lc).codeHit [x.run] then .code ((s.onSeq lc (fun q => q.failFabric (s.coreNs lc) eCodeModified)).noteStop lc)
  else .done (s.onScp lc (fun m => m.writeRun x.durable x.addr x.data))

/-- Takes a core's remote-write port the write of a packet already (R172, R237). -/
def Core.portTook (co : Core) (h : PktHdr) : Bool :=
  co.scp.port.any (fun x => match x.src with
    | .packet k _ => k.flow == h.flow && k.psn == h.psn
    | _ => false)

/-- A write at the port: stored, or kept there while it must wait. -/
def State.portWrite (s : State) (lc : Nat) (x : PortWrite) : Placed :=
  let co := s.core lc
  if !co.portHolds co.scp.port x.run then s.portStore lc x
  else if !co.portRoom x then .full
  else .queued (s.onScp lc (fun m => { m.wake (m.asleep (runSections [x.run])) with port := m.port ++ [x] }))

/-- An accepted window write goes to its address (R164), poisoned as its packet is (R229). -/
def State.placeWindow (s : State) (lc : Nat) (w : WinHdr) (data : List MB) (src : PortSrc) : Placed :=
  let x := (s.core lc).seq.win w.window
  s.portWrite lc { durable := x.durable, addr := 4 * (x.base + w.woff.toNat), data := data, src := src }

/-- A dropped write is counted (R164). -/
def State.dropWindow (s : State) (lc : Nat) : State := s.onSeq lc (fun q => { q with winDrops := satInc q.winDrops })

/-- The shape a sender gives for a slot is kept with the window (R166). -/
def State.noteShape (s : State) (lc : Nat) (w : WinHdr) : State :=
  s.onSeq lc (fun q =>
    let x := q.win w.window
    match x.queue with
    | none => q
    | some _ =>
      let sw := x.slotWords
      let j := if sw = 0 then 0 else w.woff.toNat / sw
      let d : Desc := { fmt := w.fmt.toNat, rows := w.rowsM1.toNat + 1, cols := w.colsM1.toNat + 1 }
      q.onWin w.window (fun x => { x with shapes := Tbl.set {} x.shapes j d }))

/-- The first packet of a provisional transfer turns its slot Placed (R263); a struck one that was popped stays
popped. -/
def State.placeEntry (s : State) (lc : Nat) (w : WinHdr) (fi : Option (BitVec 20)) : State :=
  s.onSeq lc (fun q =>
    let x := q.win w.window
    match q.winQueue w.window with
    | none => q
    | some qn =>
      let qu := q.queue qn
      let n := windowSlots x
      let j := if x.slotWords = 0 then 0 else w.woff.toNat / x.slotWords
      let k := if n = 0 then 0 else x.released + (j + n - x.released % n) % n
      match qu.entries.find? (fun e => e.id == k) with
      | some e =>
        if e.st = .awaiting then
          q.onQueue qn (fun qu => qu.onEntry k (fun e => { e with st := if e.holds = 0 then .placed else .heldProv }))
        else q
      | none =>
        if qu.entries.length ≥ qu.depth then q
        else
          let e : QEntry := { id := k, slot := k % windowSlots x, desc := slotShape x k, st := .placed, prov := some (fi, w.tmseq) }
          q.onQueue qn (fun qu => { qu with entries := insertEntry e qu.entries }))

/-! ### The sending side -/

/-- The key of a window's credits on a flow (R243). -/
def winKey (core : BitVec 6) (w : BitVec 12) (gen : BitVec 16) : Nat :=
  (core.toNat * 4096 + w.toNat) * 65536 + gen.toNat

/-- Add a flow to those that carried a group's tagged transfers (R274): the 257th aborts the group. -/
def State.tagFlow (s : State) (lc : Nat) (g : Option (BitVec 12)) (fi : Nat) : State :=
  match g with
  | none => s
  | some g =>
    let x := (s.core lc).seq.grp g
    let f := BitVec.ofNat 20 fi
    if x.flows.contains f ∨ x.st = .resolved then s
    else if x.flows.length ≥ 256 then s.abortGroup lc g eGroupOverflow
    else s.onSeq lc (fun q => q.onGrp g (fun x => { x with flows := x.flows ++ [f] }))

/-- May a window transfer begin its slot (R243): none where it waits for credit, the request sent first. -/
def State.creditFor (s : State) (lc fi : Nat) (core : BitVec 6) (w : BitVec 12) (gen : BitVec 16) : Bool × State :=
  let f := s.flow fi
  let k := winKey core w gen
  let g := Tbl.get 0 f.granted k
  if g = 0 then
    (false, (s.onFlow fi (fun f => { f with granted := Tbl.set 0 f.granted k 1 })).sendCtl fi 0x7 (opCredit core w gen true 0) [] lc)
  else (g = 2 ^ 32 || Tbl.get 0 f.slotsSent k + 1 < g, s)

/-- A packet of a begun command's transfer: `off` bytes into it, its bytes and marks. -/
def xferPacket (lc : Nat) (b : Begun) (x : Xfer) (off : Nat) (part : List MB) (shape : Desc) : TxPkt :=
  let tm := match x.tmseq with
    | some t => t.toNat
    | none => 0
  let g := (b.grp.getD 0).toNat
  let gv := b.grp.isSome
  let (type, op) := match x.kind with
    | .win core w gen =>
      (1, opWriteWin core w gen (x.addr + off / 4) shape.fmt shape.rows shape.cols tm g gv x.bytes)
    | .add => (3, opDram (x.addr + off) shape.fmt tm g gv x.bytes)
    | _ => (2, opDram (x.addr + off) 0 tm g gv x.bytes)
  { type := type
    op := op
    payload := mbBytes part
    poison := mbPoison part
    prov := x.prov
    last := off + part.length ≥ x.bytes
    srcCore := lc }

/-- Put as many packets of a transfer on its flow as its limits admit, of the source bytes there are. -/
def State.pumpPackets (s : State) (lc : Nat) (e : Eng) (src : List MB) (shape : Desc) : Nat → State
  | 0 => s
  | fuel + 1 =>
    match (s.eng lc e).begun with
    | [] => s
    | b :: _ =>
      match b.xfer with
      | none => s
      | some x =>
        let fi := x.flow.toNat
        let n := min s.maxPayload (x.bytes - x.sent)
        let me := some (lc, e.code)
        if n = 0 ∨ x.sent + n > src.length ∨ !s.admits fi me n then s
        else
          let k := xferPacket lc b x x.sent ((src.drop x.sent).take n) shape
          let psn := (s.flow fi).psnNext
          match s.sendData fi me { k with owner := me, off := x.sent } with
          | (false, s) => s
          | (true, s) =>
            let s := s.onBegun lc e b.serial (fun b => { b with xfer := some { x with sent := x.sent + n, lastPsn := psn } })
            State.pumpPackets s lc e src shape fuel

/-- The bytes a transfer's source tile holds, element rows packed and then scale rows (R118). -/
def State.sourceBytes (s : State) (lc : Nat) (b : Begun) : List MB × State :=
  let co := s.core lc
  match b.ins with
  | (qn, id, _) :: _ =>
    let (mb, co) := co.readRaw (co.entry qn id).desc
    (mb, s.setCore lc co)
  | [] => ([], s)

/-- The shape of a transfer's source tile. -/
def State.sourceDesc (s : State) (lc : Nat) (b : Begun) : Desc :=
  match b.ins with
  | (qn, id, _) :: _ => ((s.core lc).entry qn id).desc
  | [] => {}

/-! ### Reads of far DRAM (R244) -/

/-- Bytes of requests outstanding on a flow. -/
def Flow.asked (f : Flow) : Nat := sumNat (f.reqs.map (fun (_, r) =>
  match r with
  | some r => r.len - r.got
  | none => 0))

/-- The least request number not in use. -/
def Flow.freeReq (f : Flow) : Option Nat :=
  (List.range (f.reqs.length + 1)).find? (fun i => (Tbl.get none f.reqs i).isNone && decide (i < 65536))

/-- Ask for one piece of far DRAM: READ_REQ of whole 64 B units. -/
def State.askPiece (s : State) (lc : Nat) (e : Eng) (fi addr n off : Nat) : State :=
  match (s.flow fi).freeReq with
  | none => s
  | some id =>
    let s := s.onFlow fi (fun f => { f with reqs := Tbl.set none f.reqs id (some { lc := lc, eng := e.code, off := off, len := n }) })
    s.sendCtl fi 0x4 (opReadReq addr id (ceilDiv n 64 * 64)) [] lc

/-! ### The host aperture (R295–R298) -/

/-- Requests outstanding for the device and for a core (R296). -/
def State.aptRoom (s : State) (lc : Nat) : Bool :=
  s.host.apts.length < 512 && (s.host.apts.filter (fun r => r.lc == lc)).length < 64
    && s.outstanding lc < 256

/-- Are new requests through the entry of a task address held: an apply has changed it and it has still to adopt (R294), or
the link is up and CXL.cache has still to serve (R289, log 231). -/
def State.aptHeld (s : State) (a : Nat) : Bool :=
  let i := (a - apertureBase) / 2 ^ 30
  s.toAdopt (0x04070000 + 8 * i) || s.toAdopt (0x04070004 + 8 * i) || (s.host.linkUp && !s.host.pcie && !s.host.cacheEn)

/-- The line requests of one aperture unit (R295): a read, whole lines, or partial ones. -/
def lineReqs (hpa n : Nat) (write : Bool) : List CxlOut :=
  (List.range ((hpa + n - 1) / 64 + 1 - hpa / 64)).map (fun i =>
    let lo := max hpa ((hpa / 64 + i) * 64)
    let hi := min (hpa + n) ((hpa / 64 + i + 1) * 64)
    let line := lo / 64 * 64
    if !write then .rdCurr line else if hi - lo = 64 then .itoMWr line
    else .wowrInv line (BitVec.ofNat 64 ((2 ^ (hi - lo) - 1) * 2 ^ (lo - line))))

/-- What one aperture unit sends the host: line requests of CXL.cache, or an ordinary read or posted write of PCI Express
(R287, R295). -/
def State.unitReqs (s : State) (hpa n : Nat) (write : Bool) : List CxlOut :=
  if !s.host.pcie then lineReqs hpa n write else if write then [.memWr hpa n] else [.memRd hpa n]

/-- A piece of a far side: its address, its bytes, and where it lies in the tile; `joins` where it follows the piece before it
in the same run of units (R120). -/
structure Piece where
  addr : Nat := 0
  len : Nat := 0
  tile : Nat := 0
  joins : Bool := false

/-- Where the far bytes from one on lie: the address, and how many follow in one run. -/
def farAt : List Piece → Nat → Option (Nat × Nat)
  | [], _ => none
  | x :: r, p =>
    if p < x.len then some (x.addr + p, x.len - p + sumNat ((r.takeWhile (·.joins)).map (·.len))) else farAt r (p - x.len)

/-- The runs of a far side: where each begins in the far bytes, its address, its length. -/
def farRuns (ps : List Piece) : List (Nat × Nat × Nat) :=
  (ps.foldl (fun (acc : Nat × List (Nat × Nat × Nat)) x =>
    (acc.1 + x.len,
      match x.joins, acc.2.getLast? with
      | true, some (o, a, n) => acc.2.dropLast ++ [(o, a, n + x.len)]
      | _, _ => acc.2 ++ [(acc.1, x.addr, x.len)])) (0, [])).2

/-- The parts of the tile, as (offset, bytes), that `n` far bytes from one on fill. -/
def landSpots : List Piece → Nat → Nat → List (Nat × Nat)
  | [], _, _ => []
  | x :: r, off, n =>
    if x.len ≤ off then landSpots r (off - x.len) n
    else
      let k := min n (x.len - off)
      (x.tile + off, k) :: (if n = k then [] else landSpots r 0 (n - k))

/-- Does an aperture unit not reach the host: the link is down or its entry has lost VALID (R298). -/
def State.aptLost (s : State) (entry : Nat) : Bool := !s.host.linkUp || !(s.aptEntry (apertureBase + entry * 2 ^ 30)).valid

/-- A unit of a begun aperture transfer is done, or lost; a write's bytes are in the host's memory. -/
def State.aptDone (s : State) (lc : Nat) (e : Eng) (b : Begun) (q : AptReq) (lost : Bool) : State :=
  let s := if q.write && !lost then
      let (mb, s) := s.sourceBytes lc b
      { s with host := { s.host with mem := Mem.writeN s.host.mem q.hpa (mbBytes ((mb.drop q.off).take q.bytes)) } }
    else s
  s.onBegun lc e b.serial (fun b => { b with xfer := b.xfer.map (fun x =>
    { x with done := x.done + q.bytes, nak := if lost then some 0 else x.nak }) })

/-- Issue an aperture transfer's next units while there is room (R296). A write's bytes reach the host's memory when the host
has observed them, at its completion; a posted write is complete as it is issued (R297). -/
def State.pumpUnits (s : State) (lc : Nat) (e : Eng) (ps : List Piece) : Nat → State
  | 0 => s
  | fuel + 1 =>
    match (s.eng lc e).begun with
    | [] => s
    | b :: _ =>
      match b.xfer with
      | none => s
      | some x =>
        match farAt ps x.sent with
        | none => s
        | some (a, left) =>
          let n := min (256 - a % 256) left
          if !s.aptRoom lc || s.aptHeld a then s
          else
            let write : Bool := match x.kind with
              | .apertureWrite => true
              | _ => false
            let hpa := (s.aptEntry a).hpa + (a - apertureBase) % 2 ^ 30
            let r : AptReq :=
              { lc := lc, eng := e.code, entry := (a - apertureBase) / 2 ^ 30, hpa := hpa, off := x.sent, bytes := n, write := write }
            let lost := s.aptLost r.entry
            let s := if lost then s else { s with host := { s.host with out := s.host.out ++ s.unitReqs hpa n write } }
            let s := s.onBegun lc e b.serial (fun b => { b with xfer := some { x with sent := x.sent + n } })
            let s := if write && s.host.pcie then s.aptDone lc e b r lost
              else { s with host := { s.host with apts := s.host.apts ++ [r] } }
            State.pumpUnits s lc e ps fuel

/-- Ask for a far read's next pieces: at most 16 MiB a request and outstanding on the flow (R244). -/
def State.pumpReads (s : State) (lc : Nat) (e : Eng) (ps : List Piece) : Nat → State
  | 0 => s
  | fuel + 1 =>
    match (s.eng lc e).begun with
    | [] => s
    | b :: _ =>
      match b.xfer with
      | none => s
      | some x =>
        match farAt ps x.sent with
        | none => s
        | some (a, left) =>
          let fi := x.flow.toNat
          let n := min left (2 ^ 24)
          if (s.flow fi).st ≠ .isOpen ∨ (s.flow fi).asked + n > 2 ^ 24 then s
          else
            let s := s.askPiece lc e fi a n x.sent
            let s := s.onBegun lc e b.serial (fun b => { b with xfer := some { x with sent := x.sent + n } })
            State.pumpReads s lc e ps fuel

/-! ### The end of a transfer -/

/-- What is still unacknowledged of an engine's command no longer counts for it, and its transfer is no longer under way on
its flow. -/
def State.disown (s : State) (lc : Nat) (e : Eng) : State :=
  let me := some (lc, e.code)
  State.goOutAll { s with fab := { s.fab with flows := Tbl.mapv {} (fun (f : Flow) =>
      { f with
        mid := if f.mid = some me then none else f.mid
        unacked := f.unacked.map (fun k => if k.owner = me then { k with owner := none } else k) }) s.fab.flows } }

/-- A far transfer fails (R238, R298): its input is released, its reserved outputs go back to Free, and its
stream stops with the error; what it still had to send is not sent. -/
def State.failXfer (s : State) (lc : Nat) (e : Eng) (code : Nat) : State :=
  match (s.eng lc e).begun with
  | [] => s
  | b :: _ =>
    let s := s.returnOuts lc b.outs
    let s := b.ins.foldl (fun s (qn, id, _) => s.releaseEntry lc qn id) s
    let s := s.onEng lc e (fun g => { g with begun := g.begun.filter (fun x => x.serial != b.serial) })
    (s.disown lc e).failBegun lc e code (some b.serial)

/-- The words of a command's reserved output. -/
def State.outWords (s : State) (lc : Nat) (b : Begun) : List (Nat × Nat) :=
  let q := (s.core lc).seq
  b.outs.flatMap (fun (qn, id) =>
    let d := ((s.core lc).entry qn id).desc
    q.absRuns d.seg d.runs)

/-- A tagged command's reserved output becomes a pending extent as it is first written (R168). -/
def State.tagOut (s : State) (lc : Nat) (b : Begun) : State :=
  match b.grp, b.outs with
  | some g, (qn, id) :: _ =>
    if (s.core lc).scp.pend.any (fun x => x.entry == some (qn, id)) then s else s.addExtent lc g (s.outWords lc b) (some (qn, id))
  | _, _ => s

/-- A command with a transfer completes (R102, R126): its output is pushed, its input released, and it retires. -/
def State.endXfer (s : State) (lc : Nat) (e : Eng) : State :=
  match (s.eng lc e).begun with
  | [] => s
  | b :: _ =>
    (s.pushOuts lc b b.poison).retireBegun lc e b.serial

/-- A begun aperture transfer whose units are all done completes, and stops where one did not reach the host (R297, R298). -/
def State.endApt (s : State) (lc : Nat) (e : Eng) : State :=
  match (s.eng lc e).begun with
  | [] => s
  | b :: _ =>
    match b.xfer with
    | none => s
    | some x =>
      if x.done < x.bytes then s
      else
        let s := s.endXfer lc e
        if x.nak.isSome then s.failBegun lc e eHostUnreachable (some b.serial) else s

/-- An aperture transfer goes on; posted writes may complete it. -/
def State.pumpApt (s : State) (lc : Nat) (e : Eng) (ps : List Piece) (fuel : Nat) : State :=
  (s.pumpUnits lc e ps fuel).endApt lc e

/-- The engine of an engine code. -/
def engOf : Nat → Eng
  | 0 => .f | 1 => .g0 | 2 => .g1 | 3 => .v | 4 => .q | 5 => .d0 | 6 => .d1 | 7 => .d2 | 8 => .d3 | _ => .s

/-- Begin a command that holds its inputs and a transfer (R103, R126). -/
def State.beginXfer (s : State) (c : Ctx) (outs : List (Nat × Nat)) (x : Option Xfer) : State :=
  let g := s.eng c.lc c.e
  let s := s.popInputs c
  s.onEng c.lc c.e (fun g' =>
    { g' with
      fetched := g'.fetched.drop 1
      begunCount := g'.begunCount + 1
      loops := c.f.loops
      wait := none
      replaying := false
      begun := g'.begun ++ [{ word := c.w, pos := c.f.pos, loops := c.f.loops, serial := g.begunCount, outs := outs
                              ins := c.ins.map (fun i => (i.qn, i.ent.id, i.keep)), grp := c.grp, xfer := x }] })

/-- Reserve a ring slot for an output tile (R102): the queue and entry. -/
def State.reserveTile (s : State) (c : Ctx) (fmt rows cols : Nat) : (List (Nat × Nat)) × State :=
  match c.outs with
  | [] => ([], s)
  | qn :: _ =>
    let q := (s.core c.lc).seq.queue qn
    ([(qn, q.made)], s.onQueue c.lc qn (fun q => q.add (q.slotDesc fmt rows cols c.grp) .reserved))

/-- What becomes of bytes that land in a begun command's reserved output. -/
inductive Landed where
  /-- They wait: for a pending extent they overlap, counted under the cause, or for a section that wakes (R169, R172). -/
  | wait (cause : Nat) (s : State)
  /-- The output touches an active code region: refused whole (R131). -/
  | code
  | done (s : State)

/-- Write bytes into a begun command's reserved output at a byte offset. Of an output whose group has aborted nothing is
stored: its extents have been poisoned and released (R169). -/
def State.landBytes (s : State) (lc : Nat) (b : Begun) (off : Nat) (data : List MB) : Landed :=
  match b.outs with
  | [] => .done s
  | (qn, id) :: _ =>
    let co := s.core lc
    let d := (co.entry qn id).desc
    let base := (co.seq.seg d.seg).base.toNat + d.off
    let rs := [(base + off / 4, ceilDiv (off % 4 + data.length) 4)]
    let gone : Bool := match b.grp with
      | some g => (co.seq.grp g).aborted && (co.seq.grp g).st == .resolved
      | none => false
    if co.codeHit (s.outWords lc b) then .code
    else if gone then .done s
    else if co.scp.blocked b.grp rs then .wait 1 s
    else
      match co.scp.asleep (runSections rs) with
      | [] => .done (s.onScp lc (fun m => m.writeRun (co.seq.durable d.seg) (4 * base + off) data))
      | ks => .wait 2 (s.onScp lc (fun m => m.wake ks))

/-- Write bytes into the parts of a begun command's output that they fill. -/
def State.landParts (s : State) (lc : Nat) (b : Begun) : List (Nat × Nat) → List MB → Landed
  | [], _ => .done s
  | (o, k) :: r, data =>
    match s.landBytes lc b o (data.take k) with
    | .done s => State.landParts s lc b r (data.drop k)
    | x => x

end Sys2Proof.Machine
end

