-- ==== Sys2Proof/Machine/Dma.lean ====
section
/-! DEFINITION. dma.copy (R117–R120): tile to tile, to and from DRAM here and on other nodes, into windows, and
through the host aperture, with its list form; and the completion of aperture requests (R297, R298). -/

namespace Sys2Proof.Machine

/-! ### Fields (R118) -/

def dmaKind (w : Cmd) : Nat := fld w 64 2
def dmaDir (w : Cmd) : Bool := bit w 66
def dmaList (w : Cmd) : Bool := bit w 67
def dmaFmt (w : Cmd) : Nat := fld w 68 4
def dmaRows (w : Cmd) : Nat := fld w 192 18 + 1
def dmaCols (w : Cmd) : Nat := fld w 224 16 + 1
def dmaStep (w : Cmd) : Nat := fld w 240 16

/-- Far to tile: only DRAM is read. -/
def dmaIn (w : Cmd) : Bool := dmaKind w == 1 && dmaDir w

/-- Reserved encodings of dma.copy (R117, R118, R433): FAR_KIND 3, fields that do not apply to the copy's kind,
a far address's reserved bits, and DIR of a window copy, which has one direction (log 23) unless its list form is in error
already (R119). DIR of a tile-to-tile copy is ignored: R118's list of fields that must be zero leaves it out (DEDUCED, log
189). -/
def dmaEncErr (w : Cmd) : Bool :=
  dmaKind w == 3
    || (dmaKind w == 2 && dmaDir w && !dmaList w)
    || (!dmaIn w && (dmaFmt w ≠ 0 || fld w 192 18 ≠ 0 || fld w 224 16 ≠ 0))
    || (dmaKind w == 0 && (fld w 96 80 ≠ 0 || dmaStep w ≠ 0))
    || (dmaKind w == 1 && fld w 155 21 ≠ 0)
    || (dmaKind w == 2 && fld w 171 5 ≠ 0)

/-- The shape of the tile that is not the input: the destination far to tile, the source's otherwise. -/
def dmaShape (c : Ctx) : Nat × Nat × Nat :=
  if dmaIn c.w then (dmaFmt c.w, dmaRows c.w, dmaCols c.w)
  else
    let d := (c.ins.getD 0 {}).ent.desc
    (d.fmt, d.rows, d.cols)

/-- The far address in use (R118): FAR plus STEP × 4,096 × i. -/
def dmaAddr (w : Cmd) (loops : List Loop) : Nat := farAddr w + dmaStep w * 4096 * iterOf loops
/-- The word offset of a window copy, advanced in the same way. -/
def dmaWinOff (w : Cmd) (loops : List Loop) : Nat := farWinOff w + dmaStep w * 1024 * iterOf loops

/-- Bytes of a packed tile with its scales. -/
def tileBytes (fmt rows cols : Nat) : Nat := 4 * tileWords fmt rows cols

/-- The entries of an index list, row-major, and whether any is poisoned. -/
def listEntries (co : Core) (d : Desc) : List Nat × Bool :=
  let (t, _) := co.readTile d
  (t.codes.flatMap id, t.poison)

/-- The far pieces of a list (R119): for each entry its element rows, then its scale rows, in one run (R120); an entry of
0xFFFF_FFFF has none, its rows being zeros. -/
def listPieces (base : Nat) (es : List Nat) (fmt rows cols : Nat) : List Piece :=
  let r := if es.length = 0 then 0 else rows / es.length
  let pw := 4 * packedWords fmt cols
  let sw := 4 * scaleWords fmt cols
  let tb := r * (pw + sw)
  (List.range es.length).flatMap (fun j =>
    let e := es.getD j 0
    if e = 0xFFFFFFFF then []
    else
      [{ addr := base + e * tb, len := r * pw, tile := j * r * pw }] ++
        (if sw = 0 then [] else [{ addr := base + e * tb + r * pw, len := r * sw, tile := rows * pw + j * r * sw, joins := true }]))

/-- The far pieces of a copy. -/
def dmaPieces (co : Core) (w : Cmd) (loops : List Loop) (list : Desc) (fmt rows cols : Nat) : List Piece :=
  let a := dmaAddr w loops
  if dmaList w then listPieces a (listEntries co list).1 fmt rows cols
  else [{ addr := a, len := tileBytes fmt rows cols, tile := 0 }]

/-- The addresses a list names, tile by tile, for its checks. -/
def listTiles (base : Nat) (es : List Nat) (fmt rows cols : Nat) : List (Nat × Nat) :=
  let r := if es.length = 0 then 0 else rows / es.length
  let tb := r * 4 * (packedWords fmt cols + scaleWords fmt cols)
  (es.filter (· != 0xFFFFFFFF)).map (fun e => (base + e * tb, tb))

/-- The pieces of a begun copy. -/
def begunPieces (co : Core) (b : Begun) : List Piece :=
  let w : Cmd := b.word
  let d := match b.ins with
    | (qn, id, _) :: _ => (co.entry qn id).desc
    | [] => {}
  let (fmt, rows, cols) := if dmaIn w then (dmaFmt w, dmaRows w, dmaCols w) else (d.fmt, d.rows, d.cols)
  dmaPieces co w b.loops d fmt rows cols

/-! ### Checks (R96, R118, R119, R154, R195, R268, R294) -/

/-- The job whose task runs on a core. -/
def State.jobOf (s : State) (lc : Nat) : Nat :=
  match (s.core lc).seq.task with
  | some t => t.job
  | none => 0

/-- The tiles of far DRAM a copy touches: (address, bytes). -/
def dmaFar (s : State) (c : Ctx) : List (Nat × Nat) :=
  let (fmt, rows, cols) := dmaShape c
  let a := dmaAddr c.w c.f.loops
  if dmaList c.w then
    let (es, poison) := listEntries (s.core c.lc) (c.ins.getD 0 {}).ent.desc
    if poison then [] else listTiles a es fmt rows cols
  else [(a, tileBytes fmt rows cols)]

/-- Does any of these lie in the host aperture. -/
def farApt (l : List (Nat × Nat)) : Bool := l.any (fun (a, _) => a ≥ apertureBase)

/-- Shapes and formats of a copy. It takes no gathered operand (DEDUCED, log 181). -/
def dmaShapeErr (s : State) (c : Ctx) : Option Nat :=
  let w := c.w
  let (fmt, rows, cols) := dmaShape c
  if c.ins.any (fun i => i.ent.gather.isSome) then some eFormatPair
  else if dmaList w && !dmaIn w then some eShape
  else
    let dst : Desc := { fmt := fmt, rows := rows, cols := cols }
    let shape := if dmaIn w then dst.err else none
    match shape with
    | some e => some e
    | none =>
      if dmaIn w && c.v1 && (isMx fmt || fmt == 0xA) then some eFormatPair
      else
        let l := (c.ins.getD 0 {}).ent.desc
        if dmaList w && l.fmt ≠ 9 && l.fmt ≠ 0xA then some eFormatPair
        else if dmaList w && rows % (l.rows * l.cols) ≠ 0 then some eShape
        else if dmaKind w = 0 ∨ dmaIn w then outErr s c 0 fmt rows cols
        else (s.core c.lc).seq.tagErr c.grp

/-- The far side of a copy at validation. -/
def dmaFarErr (s : State) (c : Ctx) : Option Nat :=
  let w := c.w
  let far := dmaFar s c
  if dmaKind w = 0 then none
  else if dmaKind w = 1 then
    if dmaAddr w c.f.loops % 64 ≠ 0 ∨ far.any (fun (a, _) => a % 64 ≠ 0) then some eAlign
    else if dramHere s w then
      match far.findSome? (fun (a, n) => localAddrErr s c.lc a n (!dmaIn w)) with
      | some e => some e
      | none => if !dmaIn w && c.grp.isSome && farApt far then some eAddress else none
    else if far.any (fun (a, n) => a + n > deviceTop) then some eAddress
    else
      match s.farFlow (s.jobOf c.lc) (farNode w) with
      | .refused code => some code
      | _ => none
  else if winHere s w then none
  else
    match s.farFlow (s.jobOf c.lc) (farWinNode w) with
    | .refused code => some code
    | _ => none

/-! ### Waits -/

/-- The header of a window transfer of a whole tile. -/
def winHdrOf (w : Cmd) (loops : List Loop) (d : Desc) : WinHdr :=
  { core := farWinCore w
    window := farWin w
    gen := farWinGen w
    woff := BitVec.ofNat 23 (dmaWinOff w loops)
    fmt := BitVec.ofNat 4 d.fmt
    rowsM1 := BitVec.ofNat 18 (d.rows - 1)
    colsM1 := BitVec.ofNat 16 (d.cols - 1)
    tmseq := 0
    grp := 0
    gv := false
    xferLen := BitVec.ofNat 32 (tileBytes d.fmt d.rows d.cols) }

/-- Has a window of this device room for another slot (R166, R243): committed and waiting slots lie below
the credits. -/
def localCredit (s : State) (w : WinHdr) : Bool :=
  let q := (s.core w.core.toNat).seq
  let x := q.win w.window
  match x.queue with
  | none => true
  | some _ =>
    let waiting := (s.fab.loc.filter (fun r => r.core == w.core && r.window == w.window && r.gen == w.gen)).length
    x.slots + waiting < windowSlots x + x.released

/-- The wait of a transfer for a flow to a node (R232), and for a window slot's credit (R243). -/
def flowHold (s : State) (lc : Nat) (node : BitVec 18) (win : Option (BitVec 6 × BitVec 12 × BitVec 16)) :
    Option (Nat × State) :=
  match s.farFlow (s.jobOf lc) node with
  | .wait s => some (5, s)
  | .refused _ => none
  | .ready fi =>
    match win with
    | none => none
    | some (co, n, g) =>
      match s.creditFor lc fi co n g with
      | (true, _) => none
      | (false, s) => some (5, s)

/-- Is the remote-write port of a window's core too full for a transfer that has to wait there (R172). -/
def State.ownFull (s : State) (h : WinHdr) (len : Nat) : Bool :=
  match s.placeWindow h.core.toNat h (mbMark false (List.replicate len 0)) .bare with
  | .full => true
  | _ => false

/-- Waits of a copy after its checks. -/
def dmaHold (s : State) (c : Ctx) : Option (Nat × State) :=
  let w := c.w
  let (fmt, rows, cols) := dmaShape c
  let toTile := dmaKind w == 0 || dmaIn w
  if toTile && outputsFull s c then some (1, s)
  else
    match accessHold s c (inRuns s c) (if toTile then outRuns s c 0 fmt rows cols else []) with
    | some h => some h
    | none =>
      if dmaKind w = 0 then none
      else if dmaKind w = 2 then
        let d := (c.ins.getD 0 {}).ent.desc
        let h := winHdrOf w c.f.loops d
        if winHere s w then
          if (windowErr s h.core.toNat s.nodeId c.lc h (tileBytes fmt rows cols)).isSome then none
          else if !localCredit s h then some (5, s)
          else if s.ownFull h (tileBytes fmt rows cols) then some (3, s)
          else none
        else flowHold s c.lc (farWinNode w) (some (farWinCore w, farWin w, farWinGen w))
      else
        let far := dmaFar s c
        if dramHere s w then
          if farApt far then (if s.aptRoom c.lc then none else some (3, s))
          else
            match s.dramFull c.lc c.e far with
            | some s => some (3, s)
            | none =>
              far.foldl (fun h (a, n) =>
                match h with
                | some h => some h
                | none => (s.memWait a n (keyOf c.lc c.grp) (.core (coreFin c.lc)) (!dmaIn w)).map (fun s => (4, s))) none
        else flowHold s c.lc (farNode w) none

/-- The row of dma.copy. -/
def dmaRow : Row :=
  { fields := fun v1 _ => [(64, 3), (68, 4), (96, 80), (192, 18), (224, 16)] ++ (if v1 then [] else [(67, 1), (240, 16)])
    encErr := dmaEncErr
    slots := fun w =>
      if dmaKind w = 0 then (1, [1])
      else if dmaDir w then (b2n (dmaList w), [1])
      else (1, [0])
    check := fun s c =>
      match dmaShapeErr s c with
      | some e => some e
      | none => dmaFarErr s c
    hold := dmaHold
    setsUp := true }

/-! ### The effect -/

/-- Overlay bytes at an offset. -/
def splice (base : List MB) (off : Nat) (x : List MB) : List MB := base.take off ++ x ++ base.drop (off + x.length)

/-- Overlay bytes part by part. -/
def spread : List MB → List (Nat × Nat) → List MB → List MB
  | base, [], _ => base
  | base, (o, k) :: r, x => spread (splice base o (x.take k)) r (x.drop k)

/-- Push a copy's output tile, release its inputs and retire; a poisoned list was consumed (R278). -/
def State.dmaPush (s : State) (c : Ctx) (data : List MB) (poison : Bool) : State :=
  let (fmt, rows, cols) := dmaShape c
  match s.pushTile c 0 fmt rows cols data with
  | none => s.failStream c.lc c.e eCodeModified
  | some s =>
    let s := (s.consume c).retireFront c c.f.loops
    if poison then s.poisonStop c else s

/-- What its owner's record of a transfer into a window of this device is. -/
def ownXfer (lc : Nat) (h : WinHdr) (len : Nat) (g : Option (BitVec 12)) (tm : Option (BitVec 24)) : RxXfer :=
  { core := h.core, window := h.window, gen := h.gen, woff := h.woff.toNat, len := len, placed := len, lastSeen := true
    tmseq := tm.getD 0, prov := tm.isSome, grp := g.map (fun g => (BitVec.ofNat 6 lc, g)) }

/-- A transfer into a window of this device is placed: its watermark rises once nothing holds it (R242). -/
def State.ownPlaced (s : State) (lc : Nat) (h : WinHdr) (len : Nat) (g : Option (BitVec 12)) (tm : Option (BitVec 24)) : State :=
  let mine (r : RxXfer) : Bool := r.prov && some r.tmseq == tm
  let again := s.fab.loc.any mine
  let loc := if again then s.fab.loc.map (fun r => if mine r then { r with placed := r.len, lastSeen := true } else r)
    else s.fab.loc ++ [ownXfer lc h len g tm]
  let s := ({ s with fab := { s.fab with loc := loc } } : State).settleLoc
  if tm.isSome then s.placeEntry h.core.toNat h none else s

/-- What becomes of a transfer into a window of this device. -/
inductive OwnWin where
  | refused (code : Nat) (s : State)
  | queued (s : State)
  | placed (s : State)

/-- A begun command's transfer into a window of this device: checked, and placed or taken into the remote-write port by the
owner (R164). -/
def State.ownWindow (s : State) (lc : Nat) (e : Eng) (serial : Nat) (h : WinHdr) (data : List MB) (g : Option (BitVec 12))
    (tm : Option (BitVec 24)) : OwnWin :=
  let oc := h.core.toNat
  match windowErr s oc s.nodeId lc h data.length with
  | some c => .refused c (s.dropWindow oc)
  | none =>
    if slotErr s oc h true data.length then .refused eWindowRange (s.dropWindow oc)
    else
      match (s.noteShape oc h).placeWindow oc h data (.own lc e.code serial h g tm) with
      | .full => .queued s
      | .queued s => .queued s
      | .code s => .refused eCodeModified s
      | .done s => .placed (s.ownPlaced lc h data.length g tm)

/-- dma.copy's effect. -/
def dmaEff (c : Ctx) (s : State) : State :=
  let w := c.w
  let (fmt, rows, cols) := dmaShape c
  let d := (c.ins.getD 0 {}).ent.desc
  let total := tileBytes fmt rows cols
  let key := keyOf c.lc c.grp
  if dmaKind w = 0 then
    let (mb, co) := (s.core c.lc).readRaw d
    (s.setCore c.lc co).dmaPush c mb false
  else if dmaKind w = 2 then
    let (mb, co) := (s.core c.lc).readRaw d
    let s := s.setCore c.lc co
    if winHere s w then
      let x : Xfer :=
        { kind := .win (farWinCore w) (farWin w) (farWinGen w), here := true, addr := dmaWinOff w c.f.loops, bytes := total, sent := total }
      let n := (s.eng c.lc c.e).begunCount
      let s := s.beginXfer c [] (some x)
      match s.ownWindow c.lc c.e n (winHdrOf w c.f.loops d) mb c.grp none with
      | .refused e s => s.failXfer c.lc c.e e
      | .queued s => s
      | .placed s => s.endXfer c.lc c.e
    else
      match s.farFlow (s.jobOf c.lc) (farWinNode w) with
      | .ready fi =>
        let k := winKey (farWinCore w) (farWin w) (farWinGen w)
        let s := s.onFlow fi (fun f => { f with slotsSent := Tbl.upd 0 f.slotsSent k (· + 1) })
        let s := s.tagFlow c.lc c.grp fi
        let s := s.beginXfer c [] (some
          { kind := .win (farWinCore w) (farWin w) (farWinGen w), flow := BitVec.ofNat 20 fi, addr := dmaWinOff w c.f.loops, bytes := total })
        s.pumpPackets c.lc c.e mb d (total / 1024 + 1)
      | _ => s
  else
    let poison := dmaList w && (listEntries (s.core c.lc) d).2
    let s := if dmaList w then s.setCore c.lc ((s.core c.lc).readTile d).2 else s
    if poison then s.dmaPush c (mbMark true (List.replicate total 0)) true
    else if dmaIn w && (s.core c.lc).codeHit (outRuns s c 0 fmt rows cols) then s.failStream c.lc c.e eCodeModified
    else
      let ps := dmaPieces (s.core c.lc) w c.f.loops d fmt rows cols
      let far := dmaFar s c
      if dramHere s w && !farApt far then
        if dmaIn w then
          let (data, s) := (farRuns ps).foldl (fun (acc, s) (o, a, n) =>
            let (b, s) := s.readMem a n key
            (spread acc (landSpots ps o n) b, s)) (mbMark false (List.replicate total 0), s)
          s.dmaPush c data false
        else
          let (mb, co) := (s.core c.lc).readRaw d
          let s := (s.setCore c.lc co).writeMem (dmaAddr w c.f.loops) mb key
          (s.consume c).retireFront c c.f.loops
      else
        let bytes := sumNat (ps.map (·.len))
        let (outs, s) := if dmaIn w then s.reserveTile c fmt rows cols else ([], s)
        let zero (s : State) : State :=
          if !dmaIn w then s
          else
            match (s.eng c.lc c.e).begun with
            | b :: _ =>
              (match s.landBytes c.lc b 0 (mbMark false (List.replicate total 0)) with
               | .done s => s.tagOut c.lc b
               | _ => s)
            | [] => s
        if dramHere s w then
          let kind : XferKind := if dmaIn w then .apertureRead else .apertureWrite
          let s := zero (s.beginXfer c outs (some { kind := kind, here := true, bytes := bytes }))
          s.pumpApt c.lc c.e ps (bytes + 1)
        else
          match s.farFlow (s.jobOf c.lc) (farNode w) with
          | .ready fi =>
            let s := s.tagFlow c.lc (if dmaIn w then none else c.grp) fi
            let x : Xfer :=
              { kind := if dmaIn w then .read else .dram, flow := BitVec.ofNat 20 fi, addr := dmaAddr w c.f.loops, bytes := bytes }
            let s := zero (s.beginXfer c outs (some x))
            if bytes = 0 then s.endXfer c.lc c.e
            else if dmaIn w then s.pumpReads c.lc c.e ps (ps.length + bytes / 2 ^ 24 + 1)
            else
              let (mb, co) := (s.core c.lc).readRaw d
              (s.setCore c.lc co).pumpPackets c.lc c.e mb d (total / 1024 + 1)
          | _ => s

/-- A begun copy goes on: what its flow or the aperture now takes is sent. -/
def State.pumpDma (s : State) (lc : Nat) (e : Eng) : State :=
  match (s.eng lc e).begun with
  | [] => s
  | b :: _ =>
    match b.xfer with
    | none => s
    | some x =>
      let co := s.core lc
      match x.kind with
      | .read => s.pumpReads lc e (begunPieces co b) (x.bytes + 1)
      | .apertureRead | .apertureWrite => s.pumpApt lc e (begunPieces co b) (x.bytes + 1)
      | _ =>
        if x.here then s
        else
          let (mb, s) := s.sourceBytes lc b
          s.pumpPackets lc e mb (s.sourceDesc lc b) (x.bytes / 1024 + 1)

/-- DMA_COPY (R118): the copy begins, or a begun one goes on. A begun one that can send nothing counts link
credit, or crossbar back-pressure at the aperture. -/
def execDmaCopy (lc : Fin 64) (d : Dma) (s : State) : Res :=
  let e := d.eng
  match (s.eng lc e).begun with
  | [] => runCmd dmaRow 0x60 dmaEff lc e s
  | b :: _ =>
    if s.mgmt.faultActive then .next s
    else
      let s' := s.pumpDma lc e
      let moved := match (s'.eng lc e).begun with
        | b' :: _ => decide (b'.xfer ≠ b.xfer)
        | [] => true
      if moved then .next (s'.onBegun lc e b.serial (fun b => { b with replayed := false }))
      else
        match b.xfer with
        | some x =>
          if x.sent < x.bytes then .next (s'.onSeq lc (fun q => q.stall e (if x.here then 3 else 5))) else .next s'
        | none => .next s'

/-! ### The aperture's answers (R297, R298) -/

/-- The job's engine whose request the host answers. -/
def State.dropApts (s : State) (lc eng : Nat) : State :=
  State.pumpWaiting { s with host := { s.host with apts := s.host.apts.filter (fun r => !(r.lc == lc && r.eng == eng)) } }

/-- A begun aperture transfer has a unit back: it sends its next, or is complete. -/
def State.settleApt (s : State) (lc : Nat) (e : Eng) : State := State.pumpWaiting (s.pumpDma lc e)

/-- APERTURE_COMPLETION (R297, R298): the oldest outstanding unit is answered: data or a global-observation
response, or a failure, under which a read lands poisoned and a write is dropped. -/
def execApertureCompletion (r : AptResult) (s : State) : Res :=
  match s.host.apts with
  | [] => .next s
  | q :: rest =>
    let e := engOf q.eng
    let s := { s with host := { s.host with apts := rest } }
    match (s.eng q.lc e).begun with
    | [] => .next s
    | b :: _ =>
      let lost : Bool := s.aptLost q.entry || (match r with
        | .error => true
        | _ => false)
      let data : List MB := match r with
        | .data bytes p => if lost then mbMark true (List.replicate q.bytes 0) else mbMark p (bytesAt bytes 0 q.bytes)
        | _ => mbMark lost (bytesAt (Mem.readN s.host.mem q.hpa q.bytes) 0 q.bytes)
      let step (s : State) : State := (s.aptDone q.lc e b q lost).settleApt q.lc e
      if q.write then .next (step s)
      else
        match s.landParts q.lc b (landSpots (begunPieces (s.core q.lc) b) q.off q.bytes) data with
        | .done s => .next (step s)
        | .wait c s => .next ({ s with host := { s.host with apts := q :: rest } }.onSeq q.lc (fun y => y.stall e c))
        | .code => .next ((s.dropApts q.lc q.eng).failXfer q.lc e eCodeModified)

end Sys2Proof.Machine
end

