-- ==== Sys2Proof/Machine/Chain.lean ====
section
/-! DEFINITION. chain.add (R85–R89, R116, R258) and its provisional results (R262–R265). -/

namespace Sys2Proof.Machine

def chainRole (w : Cmd) : Nat := fld w 64 2
def chainFmt (w : Cmd) : Nat := fld w 66 4
def chainDest (w : Cmd) : Nat := fld w 70 2

/-- Reserved encodings (R116, R433): ROLE 3, DEST 3, FAR set under DEST 0 or in its reserved bits. -/
def chainEncErr (w : Cmd) : Bool :=
  chainRole w == 3 || chainDest w == 3
    || (chainDest w == 0 && fld w 96 80 ≠ 0)
    || (chainDest w == 2 && fld w 155 21 ≠ 0)
    || (chainDest w == 1 && fld w 171 5 ≠ 0)

/-- Shapes, formats and the far side of a chain.add (R85, R88, R195, R268). It takes no gathered operand (DEDUCED, log 181). -/
def chainErr (s : State) (c : Ctx) : Option Nat :=
  let w := c.w
  let own := (c.ins.getD 0 {}).ent.desc
  let run := chainFmt w
  let bytes := tileBytes run own.rows own.cols
  let fmts : Bool := (run == 0 && (own.fmt == 0 || own.fmt == 1)) || (run == 1 && own.fmt == 1)
  let inFmt : Bool := match c.ins[1]? with
    | some i => i.ent.desc.fmt == run
    | none => true
  let inShape : Bool := match c.ins[1]? with
    | some i => i.ent.desc.rows == own.rows && i.ent.desc.cols == own.cols
    | none => true
  if !fmts || !inFmt || c.ins.any (fun i => i.ent.gather.isSome) then some eFormatPair
  else if !inShape then some eShape
  else if chainDest w = 0 then outErr s c 0 run own.rows own.cols
  else
    match (s.core c.lc).seq.tagErr c.grp with
    | some e => some e
    | none =>
      let a := farAddr w
      if chainDest w = 1 then
        if winHere s w then none
        else
          match s.farFlow (s.jobOf c.lc) (farWinNode w) with
          | .refused code => some code
          | _ => none
      else if a % 64 ≠ 0 ∨ bytes % 64 ≠ 0 then some eAlign
      else if dramHere s w then
        if !(s.core c.lc).seq.drangeOk a bytes true || !inDram a bytes then some eAddress else none
      else if a + bytes > deviceTop then some eAddress
      else
        match s.farFlow (s.jobOf c.lc) (farNode w) with
        | .refused code => some code
        | _ => none

/-- The words up to which placed packets cover a window from one word on; the fuel is their number. -/
def coveredTo (got : List (BitVec 32 × Nat × Nat × Bool)) : Nat → Nat → Nat
  | 0, w => w
  | k + 1, w =>
    match got.find? (fun x => x.2.1 == w && x.2.2.1 != 0) with
    | some x => coveredTo got k (w + ceilDiv x.2.2.1 4)
    | none => w

/-- Bytes of a transfer that are there in element order (R263). -/
def RxXfer.there (x : RxXfer) : Nat :=
  if x.placed ≥ x.len then x.len else min x.len (4 * (coveredTo x.got x.got.length x.woff - x.woff))

/-- Bytes of an entry's tile that a chain.add can add: of a Placed one those whose packets are placed, in element order
(R263); of any other all. -/
def entryBytes (s : State) (e : QEntry) : Nat :=
  let all := 4 * tileWords e.desc.fmt e.desc.rows e.desc.cols
  match e.prov with
  | none => all
  | some (fi, tm) =>
    let xs := match fi with
      | some fi => (s.flow fi.toNat).rx
      | none => s.fab.loc
    match xs.filter (fun x => x.prov && x.tmseq == tm) with
    | x :: _ => x.there
    | [] => all

/-- The header of a chain member's window transfer. -/
def chainWinHdr (w : Cmd) (own : Desc) (tm : BitVec 24) : WinHdr :=
  { core := farWinCore w
    window := farWin w
    gen := farWinGen w
    woff := BitVec.ofNat 23 (farWinOff w)
    fmt := BitVec.ofNat 4 (chainFmt w)
    rowsM1 := BitVec.ofNat 18 (own.rows - 1)
    colsM1 := BitVec.ofNat 16 (own.cols - 1)
    tmseq := tm
    grp := 0
    gv := false
    xferLen := BitVec.ofNat 32 (tileBytes (chainFmt w) own.rows own.cols) }

/-- The words a chain.add reads as it begins: its contribution, and a running sum that is not provisional. -/
def chainReads (s : State) (c : Ctx) : List (Nat × Nat) :=
  inRuns s { c with ins := c.ins.filter (fun i => i.ent.prov.isNone) }

/-- Waits of a chain.add: 4,096 unconfirmed transfers of a flow wait under link credit (R265). -/
def chainHold (s : State) (c : Ctx) : Option (Nat × State) :=
  let w := c.w
  let own := (c.ins.getD 0 {}).ent.desc
  let run := chainFmt w
  if chainDest w = 0 && outputsFull s c then some (1, s)
  else
    match accessHold s c (chainReads s c) (if chainDest w = 0 then outRuns s c 0 run own.rows own.cols else []) with
    | some h => some h
    | none =>
      let bytes := tileBytes run own.rows own.cols
      if chainDest w = 1 then
        let h := chainWinHdr w own 0
        if winHere s w then
          if (windowErr s h.core.toNat s.nodeId c.lc h bytes).isSome then none
          else if !localCredit s h then some (5, s)
          else if s.ownFull h bytes then some (3, s)
          else none
        else
          match flowHold s c.lc (farWinNode w) (some (farWinCore w, farWin w, farWinGen w)) with
          | some h => some h
          | none =>
            match s.farFlow (s.jobOf c.lc) (farWinNode w) with
            | .ready fi => if (s.flow fi).unconfirmed ≥ 4096 then some (5, s) else none
            | _ => none
      else if chainDest w = 2 then
        if dramHere s w then
          match s.dramFull c.lc c.e [(farAddr w, bytes)] with
          | some s => some (3, s)
          | none => (s.memWait (farAddr w) bytes (keyOf c.lc c.grp) (.core (coreFin c.lc)) true).map (fun s => (4, s))
        else flowHold s c.lc (farNode w) none
      else none

/-- The row of chain.add. IN1 of a middle or last member is a window queue (R116). -/
def chainRow (s : State) : Row :=
  { fields := fun _ _ => [(64, 2), (66, 4), (70, 2), (96, 80)]
    encErr := chainEncErr
    slots := fun w => (if chainRole w = 0 then 1 else 2, [b2n (chainDest w == 0)])
    operandErr := fun c =>
      match c.ins[1]? with
      | some i =>
        let q := (s.core c.lc).seq.queue i.qn
        if q.cons ≠ c.e.code then some eQueueOwner else if q.mode ≠ 2 then some eQueueMode else none
      | none => none
    check := chainErr
    hold := chainHold
    setsUp := true }

/-! ### The sum (R85) -/

/-- A member's result, whether it is poisoned, and whether it holds a NaN. -/
def chainSum (run : Nat) (own : Tile) (inc : Option Tile) : Tile × Bool :=
  let poison := own.poison || (match inc with | some t => t.poison | none => false)
  let el (r k : Nat) : Nat :=
    match inc with
    | none => if run = 0 then (toFp32 (own.val r k)).toNat else own.code r k
    | some t =>
      if run = 0 then (plusZero (fadd (BitVec.ofNat 32 (t.code r k)) (toFp32 (own.val r k)))).toNat
      else
        let c := (lBf16.encode .rne false (Fp.add (t.val r k) (own.val r k))).code
        if c = 0x8000 then 0 else c
  let first := inc.isNone && run = 0 && own.fmt = 0
  let codes := (List.range own.rows).map (fun r => (List.range own.cols).map (fun k => if first then own.code r k else el r k))
  let res : Tile := { fmt := run, rows := own.rows, cols := own.cols, codes := codes, poison := poison }
  (res, !poison && codes.any (fun r => r.any (fun c => (decodeFmt run c).isNan)))

/-- The incoming entry of a begun member. -/
def Core.incoming (co : Core) (b : Begun) : Option QEntry :=
  match b.ins with
  | _ :: (qn, id, _) :: _ => some (co.entry qn id)
  | _ => none

/-- The bytes of a member's result that it can add by now. -/
def chainReady (s : State) (lc : Nat) (b : Begun) (own : Desc) : Nat :=
  match (s.core lc).incoming b with
  | some e => entryBytes s e
  | none => tileBytes (chainFmt b.word) own.rows own.cols

/-- The first `n` bytes of an incoming tile, the rest of it zeros. -/
def Core.readFirst (co : Core) (d : Desc) (n : Nat) : Tile × Core :=
  let (mb, scp) := co.scp.read (co.seq.absRuns d.seg [(d.off, ceilDiv n 4)])
  (tileOfBytes d.fmt d.rows d.cols (mbBytes mb) (mbPoison mb), { co with scp := scp })

/-- The result of a begun member as far as `n` bytes of its running sum are there, from its held contribution and incoming
entry. -/
def State.chainPart (s : State) (lc : Nat) (b : Begun) (n : Nat) : Tile × Bool × State :=
  let co := s.core lc
  match b.ins with
  | [] => ({}, false, s)
  | (q0, i0, _) :: _ =>
    let (own, co) := co.readTile (co.entry q0 i0).desc
    match co.incoming b with
    | some e =>
      let (inc, co) := co.readFirst e.desc n
      let (t, nan) := chainSum (chainFmt b.word) own (some inc)
      (t, nan, s.setCore lc co)
    | none =>
      let (t, nan) := chainSum (chainFmt b.word) own none
      (t, nan, s.setCore lc co)

/-- The whole result of a begun member. -/
def State.chainResult (s : State) (lc : Nat) (b : Begun) : Tile × Bool × State :=
  s.chainPart lc b (4 * ((s.core lc).incoming b).elim 0 (fun e => tileWords e.desc.fmt e.desc.rows e.desc.cols))

/-- Q reports CHAIN_NAN (R91). -/
def State.chainNan (s : State) (lc : Nat) (nan : Bool) : State := if nan then s.redFlags lc 8 else s

/-- Is a begun member's incoming transfer confirmed: none, or its entry covered by the watermark (R264). -/
def incomingOk (co : Core) (b : Begun) : Bool :=
  match b.ins with
  | _ :: (qn, id, _) :: _ =>
    match (co.seq.queue qn).entries.find? (fun e => e.id == id) with
    | some e => e.st != .heldProv && e.st != .placed && e.st != .awaiting
    | none => true
  | _ => true

/-! ### Confirmation and strike (R264, R265) -/

/-- TOUCH for a transfer: on its flow after its last packet, or to this device's own window at once. -/
def State.sendTouch (s : State) (lc : Nat) (x : Xfer) : State :=
  match x.tmseq with
  | none => s
  | some tm =>
    if x.here then
      ({ s with fab := { s.fab with loc := s.fab.loc.map (fun (r : RxXfer) => if r.prov && r.tmseq == tm then { r with touched := true } else r) } }).settleLoc
    else
      let s := s.sendCtl x.flow.toNat 0x8 (BitVec.ofNat 256 tm.toNat) [] lc
      s.onFlow x.flow.toNat (fun f => { f with unconfirmed := f.unconfirmed - 1 })

/-- The begun member of a core that holds a queue entry. -/
def holder (s : State) (lc qn id : Nat) : Option Begun :=
  match (s.eng lc .q).begun with
  | b :: _ => if b.ins.any (fun (q, i, _) => q == qn && i == id) then some b else none
  | [] => none

/-- A struck transfer's entry goes back to Awaiting (R263); the begun member that held it, if any. -/
def State.entryStruck (s : State) (r : RxXfer) (fi : Option (BitVec 20)) : Option (Nat × Begun) × State :=
  let lc := r.core.toNat
  let s := s.onInteg lc (fun g => { g with strikesRx := satInc g.strikesRx })
  let q := (s.core lc).seq
  match q.winQueue r.window with
  | none => (none, s)
  | some qn =>
    match (q.queue qn).entries.find? (fun e => e.prov == some (fi, r.tmseq) && (e.st == .placed || e.st == .heldProv)) with
    | none => (none, s)
    | some e => ((holder s lc qn e.id).map (fun b => (lc, b)), s.onQueue lc qn (fun q => q.onEntry e.id (fun e => { e with st := .awaiting })))

/-- A write of a command that is struck leaves the remote-write ports it waits in. -/
def State.dropPort (s : State) (lc eng serial : Nat) : State :=
  let mine (x : PortWrite) : Bool := match x.src with
    | .own l e n _ _ _ => l == lc && e == eng && n == serial
    | _ => false
  { s with cores := Tbl.mapv {} (fun (c : Core) =>
      { c with scp := { c.scp with port := c.scp.port.filter (fun x => !mine x) } }) s.cores }

/-- A member's result is struck (R264): STRIKE if anything has left, its output back to Free, its adds
abandoned, its contribution and incoming entry still held. A member of this device that was adding it is struck
in turn; the first argument bounds the members met, 64 cores at most. -/
def State.strikeWith : Nat → State → Nat → Begun → State
  | 0, s, _, _ => s
  | n + 1, s, lc, b =>
    let s := match b.xfer with
      | none => s
      | some x =>
        match x.tmseq with
        | none => s
        | some tm =>
          if x.sent = 0 then s
          else
            let s := (s.onInteg lc (fun g => { g with strikesTx := satInc g.strikesTx })).disown lc .q
            if x.here then
              let s := s.dropPort lc 4 b.serial
              let mine (r : RxXfer) : Bool := r.prov && r.tmseq == tm
              let rs := s.fab.loc.filter mine
              let s := { s with fab := { s.fab with loc := s.fab.loc.map (fun r => if mine r then { r with placed := 0, lastSeen := false } else r) } }
              rs.foldl (fun s r =>
                match s.entryStruck r none with
                | (some (lc, b), s) => State.strikeWith n s lc b
                | (none, s) => s) s
            else s.sendCtl x.flow.toNat 0x9 (BitVec.ofNat 256 tm.toNat) [] lc
    let s := (s.disown lc .q).returnOuts lc b.outs
    s.onBegun lc .q b.serial (fun b =>
      { b with
        outs := []
        passed := false
        poison := false
        added := 0
        xfer := b.xfer.map (fun x => { x with sent := 0, done := 0, touched := false }) })

/-- A member's result is struck. -/
def State.strikeChain (s : State) (lc : Nat) (b : Begun) : State := State.strikeWith 65 s lc b

/-- A confirmed member whose transfer is acknowledged, or that has none, pushes and retires; poison it consumed
stops its stream (R264, R278). -/
def State.endChain (s : State) (lc : Nat) (b : Begun) : State :=
  (s.pushOuts lc b b.poison).retireBegun lc .q b.serial b.poison

/-- CHAIN_CONFIRM's effect on a begun member: TOUCH once all of its transfer has left; retirement once the
transfer is acknowledged too. -/
def State.confirmChain (s : State) (lc : Nat) : State :=
  match (s.eng lc .q).begun with
  | [] => s
  | b :: _ =>
    if !b.passed || !incomingOk (s.core lc) b then s
    else
      match b.xfer with
      | none => s.endChain lc b
      | some x =>
        if x.sent < x.bytes then s
        else
          let s := if x.touched || !x.prov then s
            else (s.sendTouch lc x).onBegun lc .q b.serial (fun b => { b with xfer := some { x with touched := true } })
          if x.done ≥ x.bytes then s.endChain lc b else s

/-- CHAIN_CONFIRM (R264). -/
def execChainConfirm (lc : Fin 64) (s : State) : Res :=
  if s.mgmt.faultActive then .next s else .next (s.confirmChain lc)

/-- A begun command leaves without a push (R260): its outputs are Free again, its transfer is not gone on with. -/
def State.dropCommand (s : State) (lc : Nat) (e : Eng) (b : Begun) : State :=
  let s := ((s.disown lc e).dropPort lc e.code b.serial).returnOuts lc b.outs
  s.onEng lc e (fun g => { g with begun := g.begun.filter (fun x => x.serial != b.serial) })

/-- A member fails its check (R254, R255, R258–R260): struck and replayed once, the second failure final. A result that is
confirmed already is not struck (R265). -/
def State.failChain (s : State) (lc : Nat) (b : Begun) (detector : Nat) : State :=
  let idx := (s.eng lc .q).retired
  let touched : Bool := match b.xfer with
    | some x => x.touched
    | none => false
  if b.replayed then ((if touched then s else s.strikeChain lc b).dropCommand lc .q b).secondFailure lc .q detector 1 idx
  else
    ((if touched then s else s.strikeChain lc b).countReplay lc .q detector idx).onBegun lc .q b.serial
      (fun b => { b with replayed := true })

/-- A request of a begun dma.copy, or a unit of a begun DEST 2 chain.add, is taken again; a second failure of it is final. -/
def State.failRequest (s : State) (lc : Nat) (e : Eng) (b : Begun) (detector : Nat) : State :=
  let idx := (s.eng lc e).retired
  if b.replayed then (s.dropCommand lc e b).secondFailure lc e detector 1 idx
  else (s.countReplay lc e detector idx).onBegun lc e b.serial (fun b => { b with replayed := true })

/-- Every begun command of an engine leaves without a push. -/
def State.dropAllBegun (s : State) (lc : Nat) (e : Eng) : State :=
  (s.eng lc e).begun.foldl (fun s b =>
    match e with
    | .f => s.dropBegun lc .f b.serial
    | .g0 => s.dropBegun lc .g0 b.serial
    | .g1 => s.dropBegun lc .g1 b.serial
    | .q => (if chainDest b.word = 2 then s else s.strikeChain lc b).dropCommand lc .q b
    | e => s.dropCommand lc e b) s

/-- A failure of an engine's oldest unretired work: array commands replay under R259, Q's chain.add is struck and added
again, a DMA engine reads its request again, any engine with nothing begun replays its front command. -/
def State.failEngine (s : State) (lc : Nat) (e : Eng) (detector : Nat) : State :=
  let g := s.eng lc e
  match g.begun with
  | [] => if g.status = .running ∧ g.fetched ≠ [] then s.failFront lc e detector else s
  | b :: _ =>
    match e with
    | .f => s.failArray lc .f b.serial detector
    | .g0 => s.failArray lc .g0 b.serial detector
    | .g1 => s.failArray lc .g1 b.serial detector
    | .q => if chainDest b.word = 2 then s.failRequest lc .q b detector else s.failChain lc b detector
    | e => s.failRequest lc e b detector

/-- SEQUENCER_MISMATCH (R255, R259, R260): both copies reload the saved state and the engine's unretired
commands replay; saved state that proves uncorrectable is a second failure of CAUSE 3. -/
def execSequencerMismatch (lc : Fin 64) (e : Eng) (recoverable : Bool) (s : State) : Res :=
  if (s.eng lc e).status = .noStream ∨ s.mgmt.faultActive then .next s
  else if !recoverable then
    .next ((s.dropAllBegun lc e).secondFailure lc e 3 3 (s.eng lc e).retired)
  else .next (s.failEngine lc e 3)

/-! ### The attempt -/

/-- Send, or place, what there is of the result of a begun DEST 1 member: a transfer to this device's own window goes in one
write, once it is complete. -/
def State.forward (s : State) (lc : Nat) (b : Begun) (x : Xfer) (t : Tile) (n : Nat) : State :=
  let data := mbMark t.poison t.bytes
  let shape : Desc := { fmt := t.fmt, rows := t.rows, cols := t.cols }
  if !x.here then s.pumpPackets lc .q (data.take n) shape (x.bytes / 1024 + 1)
  else if n < x.bytes then s
  else
    let h := chainWinHdr b.word shape (x.tmseq.getD 0)
    let done (n : Nat) (s : State) : State :=
      s.onBegun lc .q b.serial (fun b => { b with xfer := some { x with sent := x.bytes, done := n } })
    match s.ownWindow lc .q b.serial h data b.grp x.tmseq with
    | .refused e s => s.failXfer lc .q e
    | .queued s => done 0 s
    | .placed s => done x.bytes s

/-- Put what there is of the result of a begun DEST 0 member in its reserved output. -/
def State.store (s : State) (lc : Nat) (b : Begun) (t : Tile) (n : Nat) : Landed :=
  let qn := slotQueue (Cmd.slot b.word 4)
  let q := (s.core lc).seq.queue qn
  let s := if b.outs = [] then
      (s.onQueue lc qn (fun q => q.add (q.slotDesc t.fmt t.rows t.cols b.grp) .reserved)).onBegun lc .q b.serial
        (fun b => { b with outs := [(qn, q.made)] })
    else s
  let b := { b with outs := if b.outs = [] then [(qn, q.made)] else b.outs }
  match s.landBytes lc b b.added (((mbMark t.poison t.bytes).take n).drop b.added) with
  | .done s => .done (s.tagOut lc b)
  | x => x

/-- A begun DEST 0 or 1 member adds what has come of its running sum, and with the last of it has Q's verdict (R258, R263):
`agree` is Q's comparison. Nothing more to add counts operand empty. -/
def State.attemptChain (s : State) (lc : Nat) (agree : Bool) : State :=
  match (s.eng lc .q).begun with
  | [] => s
  | b :: _ =>
    let own := match b.ins with
      | (qn, id, _) :: _ => ((s.core lc).entry qn id).desc
      | [] => {}
    let all := tileBytes (chainFmt b.word) own.rows own.cols
    let n := min all (chainReady s lc b own)
    if n ≤ b.added then s.onSeq lc (fun q => q.stall .q 0)
    else
      let (t, nan, s) := s.chainPart lc b n
      let t := { t with poison := t.poison || b.poison }
      let res : Landed := match b.xfer with
        | some x => .done (s.forward lc b x t n)
        | none => s.store lc b t n
      match res with
      | .wait c s => s.onSeq lc (fun q => q.stall .q c)
      | .code => s.failXfer lc .q eCodeModified
      | .done s =>
        let s := (s.chainNan lc nan).onBegun lc .q b.serial (fun b => { b with poison := t.poison, added := n })
        match (s.eng lc .q).begun with
        | [] => s
        | b :: _ =>
          if !t.poison && !agree then s.failChain lc b 4
          else if n < all then s
          else (s.onBegun lc .q b.serial (fun b => { b with passed := true })).confirmChain lc

/-- The in-place adds of a DEST 2 member to this device's DRAM, unit by unit, in order (R88, R258). -/
def State.addUnits (s : State) (lc : Nat) (a : Nat) (t : Tile) (k : Option GrpKey) : State :=
  let bytes := t.bytes
  (List.range (ceilDiv bytes.length 64)).foldl (fun s i =>
    let unit := a + 64 * i
    let add := bytesAt bytes (64 * i) 64
    let s := s.addMem unit (t.fmt == 1) add t.poison k .clean
    s.chainNan lc (k.isNone && s.unitNan unit (t.fmt == 1))) s

/-- chain.add's effect. A DEST 2 member whose unit fails its comparison computes it again; nothing has left Q
(R258). -/
def chainEff (agree : Bool) (c : Ctx) (s : State) : State :=
  let w := c.w
  let own := (c.ins.getD 0 {}).ent.desc
  let bytes := tileBytes (chainFmt w) own.rows own.cols
  if chainDest w = 0 then (s.beginXfer c [] none).attemptChain c.lc agree
  else if chainDest w = 1 then
    let x : Xfer := { kind := .win (farWinCore w) (farWin w) (farWinGen w), addr := farWinOff w, bytes := bytes, prov := true }
    if winHere s w then
      match windowErr s (farWinCore w).toNat s.nodeId c.lc (chainWinHdr w own 0) bytes with
      | some e => ((s.dropWindow (farWinCore w).toNat).consume c).failStream c.lc c.e e
      | none =>
        let s := s.beginXfer c [] (some { x with here := true, tmseq := some s.fab.locNext })
        ({ s with fab := { s.fab with locNext := s.fab.locNext + 1 } }).attemptChain c.lc agree
    else
      match s.farFlow (s.jobOf c.lc) (farWinNode w) with
      | .ready fi =>
        let k := winKey (farWinCore w) (farWin w) (farWinGen w)
        let tm := (s.flow fi).tmNext
        let s := s.onFlow fi (fun f =>
          { f with slotsSent := Tbl.upd 0 f.slotsSent k (· + 1), tmNext := f.tmNext + 1, unconfirmed := f.unconfirmed + 1 })
        let s := s.tagFlow c.lc c.grp fi
        (s.beginXfer c [] (some { x with flow := BitVec.ofNat 20 fi, tmseq := some tm })).attemptChain c.lc agree
      | _ => s
  else
    if !agree then s.failFront c.lc c.e 4
    else
      let sum (s : State) : Tile × Bool × State :=
        s.chainResult c.lc { word := c.w, ins := c.ins.map (fun i => (i.qn, i.ent.id, i.keep)) }
      let (t, nan, s) := sum s
      let s := s.chainNan c.lc nan
      if dramHere s w then
        let s := s.addUnits c.lc (farAddr w) t (keyOf c.lc c.grp)
        let s := (s.consume c).retireFront c c.f.loops
        if t.poison then s.poisonStop c else s
      else
        match s.farFlow (s.jobOf c.lc) (farNode w) with
        | .ready fi =>
          let s := s.tagFlow c.lc c.grp fi
          let s := s.beginXfer c [] (some { kind := .add, flow := BitVec.ofNat 20 fi, addr := farAddr w, bytes := bytes })
          let s := s.onEng c.lc .q (fun g => { g with begun := g.begun.map (fun b => { b with passed := true, poison := t.poison }) })
          s.pumpPackets c.lc .q (mbMark t.poison t.bytes) { fmt := t.fmt, rows := t.rows, cols := t.cols } (bytes / 1024 + 1)
        | _ => s

/-- A begun member goes on sending what it has added, as its flow admits. -/
def State.pumpChain (s : State) (lc : Nat) : State :=
  match (s.eng lc .q).begun with
  | [] => s
  | b :: _ =>
    match b.xfer with
    | none => s
    | some x =>
      if x.here ∨ x.sent ≥ x.bytes ∨ (!b.passed && b.added ≤ x.sent) then s
      else
        let n := if b.passed then x.bytes else b.added
        let (t, _, s) := s.chainPart lc b n
        s.pumpPackets lc .q ((mbMark (t.poison || b.poison) t.bytes).take n) { fmt := t.fmt, rows := t.rows, cols := t.cols } (x.bytes / 1024 + 1)

/-- CHAIN_ADD (R85, R258, R263, R264): the member begins; a begun one adds what has come since, a struck or failed one again
from the start; one that has passed goes on sending, and counts link credit while its flow takes nothing (R241). `agree`
is Q's comparison. -/
def execChainAdd (lc : Fin 64) (agree : Bool) (s : State) : Res :=
  match (s.eng lc .q).begun with
  | [] => runCmd (chainRow s) 0x54 (chainEff agree) lc .q s
  | b :: _ =>
    if s.mgmt.faultActive then .next s
    else if !b.passed then .next ((s.pumpChain lc).attemptChain lc agree)
    else
      let s' := s.pumpChain lc
      let moved : Bool := match (s'.eng lc .q).begun with
        | b' :: _ => b'.xfer != b.xfer
        | [] => true
      let owes : Bool := match b.xfer with
        | some x => !x.here && x.sent < x.bytes
        | none => false
      let s' := if owes && !moved then s'.onSeq lc (fun q => q.stall .q 5) else s'
      let s' := if moved && chainDest b.word == 2 then s'.onBegun lc .q b.serial (fun b => { b with replayed := false }) else s'
      .next (s'.confirmChain lc)

end Sys2Proof.Machine
end

