-- ==== Sys2Proof/Machine/Ports.lean ====
section
/-! DEFINITION. Optical ports and Ethernet (R201–R221): accepting frames, what a port answers and sends, priority
flow control, training, faults and spare substitution. -/

namespace Sys2Proof.Machine

/-! ### A port's state -/

/-- Is a port enabled, within its tier (R216). -/
def State.portOn (s : State) (p : Nat) : Bool := bit (s.portCtl p) 0 && tierPort s.mgmt.tier p

/-- An optical engine. -/
def State.optic (s : State) (n : Nat) : Optic := Tbl.get {} s.optics n
/-- Change an optical engine. -/
def State.onOptic (s : State) (n : Nat) (f : Optic → Optic) : State := { s with optics := Tbl.upd {} s.optics n f }

/-- The calibrated delays of the position now in use (R219, R221): transmit and receive, in ps. -/
def State.tsDelay (s : State) (p : Nat) : BitVec 16 × BitVec 16 :=
  let q := s.port p
  if q.st = .disabled ∨ q.st = .noPosition then (0, 0)
  else (Config.txDelay (p / 12) q.pos.toNat, Config.rxDelay (p / 12) q.pos.toNat)

/-- A lane's power readings while its laser is on (R221). -/
def State.laneWord (s : State) (p k : Nat) : BitVec 16 :=
  if (s.port p).laser then Config.laneReading p k s.clk.now else 0x8080

/-! ### The slave port of PTP (R250) -/

/-- OFT_PTP_CTL, applied copy. -/
def State.ptpCtl (s : State) : Word := s.applied 0x03040060 0x30008
/-- The PTP mode: 0 off, 1 ordinary clock, 2 boundary clock. -/
def State.ptpMode (s : State) : Nat := fld s.ptpCtl 0 2
/-- The reset value of OFT_PTP_PORTS_w. -/
def ptpPortsReset (w : Nat) : Word := if w = 0 then 0x01001001 else if w = 1 then 0x10010010 else 0x00100100
/-- Does PTP run on a port. -/
def State.ptpOn (s : State) (p : Nat) : Bool :=
  s.ptpMode != 0 && bit (s.applied (0x03040064 + 4 * (p / 32)) (ptpPortsReset (p / 32))) (p % 32) && (s.port p).st == .up

/-- Is one announced data set better than another: compared byte by byte in the order of the best master clock algorithm. -/
def betterMaster : List Byte → List Byte → Bool
  | _, [] => false
  | [], _ :: _ => true
  | a :: x, b :: y => a.toNat < b.toNat || (a == b && betterMaster x y)

/-- The port whose master is best, 0x7F where no PTP port has heard of one. -/
def State.bestMaster (s : State) : BitVec 7 :=
  match s.fab.masters.filter (fun (p, m) => m != [] && s.ptpOn p) with
  | [] => 0x7F
  | x :: r => BitVec.ofNat 7 (r.foldl (fun b y => if betterMaster y.2 b.2 then y else b) x).1

/-- One port is slave: where that changes, lock is lost, and the last rate is held until a sync comes (R251). -/
def State.electSlave (s : State) : State :=
  let b := s.bestMaster
  if b = s.fab.slavePort then s
  else { s with fab := { s.fab with
      slavePort := b
      ptpLocked := false
      ptpGood := 0
      holdover := s.ptpMode != 0 && (s.fab.holdover || s.fab.slavePort != 0x7F) } }

/-! ### Timestamps (R219, R220) -/

/-- OFT_PTP_CTL's P2P, TWO_STEP, XPORT and DOMAIN. -/
def State.ptpP2p (s : State) : Bool := bit s.ptpCtl 2
def State.ptpTwoStep (s : State) : Bool := bit s.ptpCtl 3
def State.ptpXport (s : State) : Nat := fld s.ptpCtl 4 2
def State.ptpDomain (s : State) : Nat := fld s.ptpCtl 6 8

/-- messageType of the event messages (IEEE 1588-2019). -/
def ptpType : PtpMsg → Nat
  | .sync => 0
  | .delayReq => 1
  | .pdelayReq => 2
  | .pdelayResp => 3
  | .general => 0

/-- The timestamp of an event message on a port: the transport region's counter, and the position's delay. -/
def State.ptpStamp (s : State) (p : Nat) (tx : Bool) (m : PtpMsg) (seqId : BitVec 16) : PtpStamp :=
  { port := p
    tx := tx
    msg := m
    seqId := seqId
    count := s.regionCount (80 + p / 12)
    delayPs := if tx then ((s.tsDelay p).1.toNat : Int) else -((s.tsDelay p).2.toNat : Int) }

/-- A stamp is delivered to MC3. -/
def State.giveStamp (s : State) (x : PtpStamp) : State :=
  { s with fab := { s.fab with ptpStamps := s.fab.ptpStamps ++ [x] } }

/-- The instant a stamp stands for, in ns. -/
def PtpStamp.ns (x : PtpStamp) : Nat := ((x.count * 1000 + x.delayPs * 65536) / 65536000).toNat

/-- Some bytes of a message replaced. -/
def putBytes (l : List Byte) (i : Nat) (x : List Byte) : List Byte := l.take i ++ x ++ l.drop (i + x.length)

/-- A UDP datagram's headers over other bytes: its checksum is computed again. -/
def Ip.resum (ip : Ip) (bytes : List Byte) : Ip :=
  match ip.udp with
  | some (sp, dp, _) => udpHeader ip.v6 ip.src ip.dst ip.ecn sp dp bytes
  | none => ip

/-- A frame meets the wire. A PTP event message is stamped there: a Sync of one-step operation in its originTimestamp, with
its UDP checksum computed again, any other by a stamp for MC3. -/
def State.atWire (s : State) (p : Nat) (x : TxFrame) : TxFrame × State :=
  match x.what with
  | .ptp m bytes =>
    let seqId := BitVec.ofNat 16 (256 * (bytes.getD 30 0).toNat + (bytes.getD 31 0).toNat)
    let k := s.ptpStamp p true m seqId
    if s.ptpTwoStep || m != .sync then (x, s.giveStamp k)
    else
      let bytes := putBytes bytes 34 (toBE 6 (k.ns / 1000000000) ++ toBE 4 (k.ns % 1000000000))
      ({ what := .ptp m bytes, eth := x.eth.map (fun e => { e with ip := e.ip.map (·.resum bytes) }) }, s)
  | _ => (x, s)

/-- What a class queued goes out, and what its producers held after it. -/
def State.flushClass (s : State) (p cls : Nat) : State :=
  let q := s.port p
  let xs := Tbl.get [] q.egress cls ++ Tbl.get [] q.held cls
  let s := s.onPort p (fun q =>
    { q with
      egress := Tbl.set [] q.egress cls []
      held := Tbl.set [] q.held cls []
      txBytes := satAdd q.txBytes (sumNat (xs.map (·.2))) })
  xs.foldl (fun s x =>
    let (f, s) := s.atWire p x.1
    s.onPort p (fun q => { q with sent := q.sent ++ [f] })) s

/-! ### Receiving (R205, R210, R224, R226) -/

/-- PFC_EN of a port for a priority. -/
def State.pfcOn (s : State) (p n : Nat) : Bool := bit (s.portCtl p) (16 + n)

/-- Bytes of a priority in the receive buffer, and of all. -/
def Port.occupied (q : Port) (n : Nat) : Nat := sumNat ((q.rxq.filter (fun x => x.prio == n)).map (·.bytes))
def Port.buffered (q : Port) : Nat := sumNat (q.rxq.map (·.bytes))

/-- XOFF when an enabled priority's occupancy reaches 200 KiB, XON when it has fallen to 100 KiB (R210). -/
def State.pfcCheck (s : State) (p n : Nat) : State :=
  if !s.pfcOn p n then s
  else
    let q := s.port p
    let o := q.occupied n
    let off := Tbl.get false q.xoff n
    let say (x : Bool) : State :=
      s.onPort p (fun q =>
        { q with
          xoff := Tbl.set false q.xoff n x
          pfcTx := satInc q.pfcTx
          txBytes := satAdd q.txBytes 64
          sent := q.sent ++ [{ eth := some { dst := 0x0180C2000001, src := s.portMac p }, what := .pfc n x }] })
    if !off && o ≥ 204800 then say true
    else if off && o ≤ 102400 then say false
    else s

/-- A frame leaves a receive buffer. -/
def State.bufTake (s : State) (p : Nat) (x : RxFrame) : State :=
  (s.onPort p (fun q => { q with rxq := q.rxq.erase x })).pfcCheck p x.prio

/-- The frame of a packet that has its verdict leaves its port's receive buffer (R237). -/
def State.bufRelease (s : State) (h : PktHdr) : State :=
  match (s.port h.port).rxq.find? (fun x => x.flow == h.flow && x.psn == h.psn) with
  | some x => s.bufTake h.port x
  | none => s

/-- A frame whose bytes are damaged in a receive buffer is dropped (R254). -/
def State.bufDrop (s : State) (p i : Nat) : State :=
  match (s.port p).rxq[i]? with
  | some x => s.bufTake p x
  | none => s

/-- The PTP multicast addresses of IEEE 1588-2019 over each transport. -/
def ptpMulticast (a : BitVec 48) : Bool :=
  a == 0x011B19000000 || a == 0x0180C200000E || a == 0x01005E000181 || a == 0x01005E00006B || a == 0x333300000181
    || a == 0x33330000006B

/-- Is a frame addressed to the port for what it carries (R205). -/
def State.frameTo (s : State) (p : Nat) (fr : Frame) : Bool :=
  fr.dst == s.portMac p ||
    (match fr.body with
     | .arp => fr.dst == 0xFFFFFFFFFFFF
     | .nd => fr.dst == 0x333300000001 || fr.dst.toNat / 2 ^ 24 == 0x3333FF
     | .ptp => ptpMulticast fr.dst
     | .udpPtp _ _ _ => ptpMulticast fr.dst
     | _ => false)

/-- Is a frame's payload one of R204's, its checksums right, and for OFT addressed to the node or to the port itself, with a
known version and type (R205, R224, R226, R227). -/
def State.bodyOk (s : State) (p : Nat) : FrameBody → Bool
  | .arp => true
  | .nd => true
  | .icmp c => c
  | .ptp => true
  | .oft v6 dst ver type zero csum _ _ =>
    let mine := if v6 then s.answers6 p dst else dst.toNat < 2 ^ 32 && s.answers4 p (BitVec.ofNat 32 dst.toNat)
    ver == 1 && type != 0 && type != 15 && mine && csum && !(v6 && zero)
  | .udpPtp v6 zero csum => csum && !(v6 && zero)
  | .fragment => false
  | .other => false

/-- Are a frame's tags right (R205). -/
def State.tagsOk (s : State) (p : Nat) (tags : List (BitVec 3 × BitVec 12)) : Bool :=
  match tags with
  | [] => bit (s.portCtl p) 2
  | [(_, vid)] => vid.toNat == fld (s.portCtl p) 3 12
  | _ => false

/-- The priority a frame arrived with. -/
def framePrio (fr : Frame) : Nat :=
  match fr.tags with
  | (pcp, _) :: _ => pcp.toNat
  | [] => 0

/-- FRAME_RECEIVE (R205, R210): accepted, or dropped and counted once. OFT frames wait in the receive buffer; what a full
buffer cannot take is dropped. -/
def execFrameReceive (p : Fin 96) (fr : Frame) (s : State) : Res :=
  let q := s.port p
  let drop : State := s.onPort p (fun q => { q with rxDrop := satInc q.rxDrop })
  if q.st ≠ .up then .next s
  else if !fr.fcsOk then .next (s.onPort p (fun q => { q with fcsErr := satInc q.fcsErr }))
  else if fr.len < 64 ∨ fr.len > 9216 ∨ !s.tagsOk p fr.tags ∨ !s.frameTo p fr ∨ !s.bodyOk p fr.body
      ∨ q.buffered + fr.len > 524288 then .next drop
  else
    let n := framePrio fr
    let s := s.onPort p (fun q => { q with rxBytes := satAdd q.rxBytes fr.len })
    match fr.body with
    | .oft _ _ _ _ _ _ flow psn =>
      .next ((s.onPort p (fun q => { q with rxq := q.rxq ++ [{ prio := n, bytes := fr.len, flow := flow, psn := psn }] })).pfcCheck p n)
    | _ => .next s

/-! ### What a port answers (R206, R207) -/

/-- ARP_REQUEST (R206, R207). -/
def execArpRequest (p : Fin 96) (target sender : BitVec 32) (mac : BitVec 48) (s : State) : Res :=
  if (s.port p).st = .up ∧ s.answers4 p target then
    .next (s.hkSend p mac none (.arpReply target sender (s.portMac p) mac) 64)
  else .next s

/-- Send a neighbour advertisement of one of the port's addresses (R206–R208), with its own MAC address. -/
def State.sendNa (s : State) (p : Nat) (target : BitVec 128) (solicited : Bool) (dst : BitVec 128) (mac : BitVec 48) : State :=
  let src := s.srcIp p true
  let rest := [Config.naFlags solicited, 0, 0, 0] ++ toBE 16 target.toNat ++ [2, 1] ++ toBE 6 (s.portMac p).toNat
  s.hkSend p mac (some (ipHeader true src dst 0 58 (4 + rest.length)))
    (.neighbourAdv target (icmpBytes true src dst 136 0 rest)) (22 + 40 + rest.length)

/-- NEIGHBOUR_SOLICITATION (R206, R207). -/
def execNeighbourSolicitation (p : Fin 96) (target sender : BitVec 128) (mac : BitVec 48) (s : State) : Res :=
  if (s.port p).st = .up ∧ s.answers6 p target then .next (s.sendNa p target true sender mac) else .next s

/-- ICMP_ECHO_REQUEST (R206, R207): for its own address or the node's, answered from the port's. `rest` is what the request
holds after its checksum. -/
def execIcmpEchoRequest (p : Fin 96) (v6 : Bool) (dst sender : BitVec 128) (mac : BitVec 48) (rest : List Byte) (s : State) : Res :=
  let mine := if v6 then s.answers6 p dst else dst.toNat < 2 ^ 32 && s.answers4 p (BitVec.ofNat 32 dst.toNat)
  if (s.port p).st = .up ∧ mine then
    let src := s.srcIp p v6
    .next (s.hkSend p mac (some (ipHeader v6 src sender 0 (if v6 then 58 else 1) (4 + rest.length)))
      (.echoReply (icmpBytes v6 src sender (if v6 then 129 else 0) 0 rest)) (22 + (if v6 then 40 else 20) + rest.length))
  else .next s

/-- Send an LLDP frame (R206): the node identifier and the logical port number. -/
def State.sendLldp (s : State) (p : Nat) : State :=
  if !bit (s.portCtl p) 30 then s
  else (s.hkSend p 0x0180C200000E none (.lldp s.nodeId p) 64).onPort p (fun q => { q with lastLldp := s.clk.now })

/-- LLDP_TIMER (R206): every 30 s while the port is Up. -/
def execLldpTimer (p : Fin 96) (t : Nat) (s : State) : Res :=
  let s := s.at_ t
  let q := s.port p
  if q.st = .up ∧ q.lastLldp + 30000000000 ≤ s.clk.now then .next (s.sendLldp p) else .next s

/-- The all-nodes multicast address, ff02::1. -/
def allNodes : BitVec 128 := 0xFF020000000000000000000000000001

/-- A port announces its own addresses, where it has any, and the node's (R206, R207). -/
def State.announce (s : State) (p : Nat) : State :=
  let arp (s : State) (a : BitVec 32) : State :=
    if a = 0 then s else s.hkSend p 0xFFFFFFFFFFFF none (.gratuitousArp a (s.portMac p)) 64
  let na (s : State) (a : BitVec 128) : State := if a = 0 then s else s.sendNa p a false allNodes 0x333300000001
  na (na (arp (arp s (s.portIp4 p)) s.nodeIp4) (s.portIp6 p)) s.nodeIp6

/-! ### Pause (R210) -/

/-- One quantum is 512 bit times at 400 Gb/s: 1.28 ns. -/
def quantaNs (q : Nat) : Nat := ceilDiv (q * 128) 100

/-- PFC_FRAME_RX (R210): each class named and enabled pauses for its quanta; zero quanta end its pause, class 7 first. A PFC
frame without an enabled priority is none of R204's. -/
def execPfcFrameRx (p : Fin 96) (quanta : List (BitVec 16)) (enable : BitVec 8) (s : State) : Res :=
  let on := (List.range 8).reverse.filter (fun n => bit enable n && s.pfcOn p n)
  if (s.port p).st ≠ .up then .next s
  else if on = [] then .next (s.onPort p (fun q => { q with rxDrop := satInc q.rxDrop }))
  else
    let s := s.onPort p (fun q => { q with pfcRx := satInc q.pfcRx, rxBytes := satAdd q.rxBytes 64 })
    .next (State.goOutAll (on.foldl (fun s n =>
      let k := (quanta.getD n 0).toNat
      let s := s.onPort p (fun q => { q with pause := Tbl.set 0 q.pause n (if k = 0 then 0 else s.clk.now + quantaNs k) })
      if k = 0 then s.flushClass p n else s) s))

/-- PAUSE_QUANTA_EXPIRY (R210): frames go out while the port is Up. -/
def execPauseQuantaExpiry (p : Fin 96) (cls : Fin 8) (t : Nat) (s : State) : Res :=
  let s := s.at_ t
  let u := Tbl.get 0 (s.port p).pause cls
  if u = 0 ∨ s.clk.now < u then .next s
  else
    let s := s.onPort p (fun q => { q with pause := Tbl.set 0 q.pause cls 0 })
    .next (if (s.port p).st = .up then (s.flushClass p cls).goOutAll else s)

/-! ### Up, Down, training (R211–R218) -/

/-- A port leaves whatever state it is in; a departure from Up is counted (R215), its queued frames are discarded (R214,
R218, R236), and PTP has lost the master it knew there (R250). -/
def State.portTo (s : State) (p : Nat) (st : PortSt) : State :=
  let left : Bool := (s.port p).st == .up && st != .up
  let rests : Bool := st == .disabled || st == .quenched || st == .noPosition
  let s := s.onPort p (fun q =>
    { q with
      st := st
      linkDowns := if left then satInc q.linkDowns else q.linkDowns
      egress := if left then [] else q.egress
      held := if left then [] else q.held
      hiSer := q.hiSer && !rests
      hiSerSecs := if rests then 0 else q.hiSerSecs
      hiSerAt := if rests then none else q.hiSerAt })
  if left then ({ s with fab := { s.fab with masters := Tbl.set [] s.fab.masters p [] } } : State).electSlave else s

/-- Has the transport PLL lost its holdover: REFCLK_OPT gone for 1 s (R338). -/
def State.optHoldoverOut (s : State) : Bool := bit s.clk.refLost 1 && s.clk.optLostAt + 1000000000 ≤ s.clk.now

/-- Can a port come Up: enabled, its engine lit and clocked, no fault signalled to it. -/
def State.canRise (s : State) (p : Nat) : Bool :=
  let o := s.optic (p / 12)
  let q := s.port p
  s.portOn p && !s.optHoldoverOut && !o.railFailed && !o.lasersOff && q.los == 0 && !q.rxLf && !q.rxRf && q.st != .quenched
    && q.st != .noPosition

/-- MC3 records a substitution that has come Up (R214). -/
def State.recordSubst (s : State) (p : Nat) : State :=
  let q := s.port p
  if q.substReason = 0 then s
  else
    let s := s.onOptic (p / 12) (fun o =>
      { o with logFrom := q.substFrom, logTo := q.pos, logReason := BitVec.ofNat 3 q.substReason })
    let s := s.onPort p (fun q => { q with substReason := 0 })
    s.fieldFail (.port p q.pos.toNat) 3 (13 * (p / 12) + q.substFrom.toNat) q.substReason

/-- A temperature sensor's valid reading, in 0.25 °C (R347). -/
def State.reading (s : State) (i : Nat) : Option Int :=
  let v : BitVec 12 := Tbl.get 0 s.thm.sense i
  if bit v 11 then some (v.setWidth 11).toInt else none

/-- The present temperature of an optical engine, in 0.25 °C: the higher of its two sensors. -/
def State.oeTemp (s : State) (n : Nat) : Option Int :=
  match s.reading (160 + 2 * n), s.reading (161 + 2 * n) with
  | some a, some b => some (max a b)
  | some a, none => some a
  | none, b => b

/-- May a position use its saved settings (R212): the record's CRC is valid, it was made on this engine, and the engine is
within 10 °C of its temperature. -/
def State.savedOk (s : State) (n pos : Nat) : Bool :=
  match Tbl.get none (s.optic n).records pos, s.oeTemp n with
  | some (crc, here, t), some now => crc && here && decide ((now - t).natAbs ≤ 40)
  | _, _ => false

/-- A position begins to train, with its saved settings where it may use them (R211, R212). -/
def State.train (s : State) (p : Nat) (saved : Bool := true) : State :=
  let ok := saved && s.savedOk (p / 12) (s.port p).pos.toNat
  s.onPort p (fun q => { q with saved := ok })

/-- A saved setting that fails is discarded; the step is repeated in full (R212). -/
def State.dropSaved (s : State) (p : Nat) : State :=
  let k := (s.port p).pos.toNat
  (s.onPort p (fun q => { q with saved := false })).onOptic (p / 12) (fun o => { o with records := Tbl.set none o.records k none })

/-- After a full adaptation that reaches Up the position's record is rewritten (R212). -/
def State.saveRecord (s : State) (p : Nat) : State :=
  let k := (s.port p).pos.toNat
  match (s.port p).saved, s.oeTemp (p / 12) with
  | false, some t => s.onOptic (p / 12) (fun o => { o with records := Tbl.set none o.records k (some (true, true, t)) })
  | _, _ => s

/-- A port comes Up (R211): its record is rewritten after a full adaptation, a substitution is recorded, and it announces
itself (R206). -/
def State.rise (s : State) (p : Nat) : State :=
  let s := (s.portTo p .up).onPort p (fun q => { q with retrains := 0, hiSerAt := some (q.hiSerAt.getD s.clk.now) })
  let s := (s.saveRecord p).recordSubst p
  ((s.announce p).sendLldp p).goOutAll

/-- PORT_UP (R211): training completes. -/
def execPortUp (p : Fin 96) (s : State) : Res :=
  if (s.port p).st = .training ∧ s.canRise p then .next (s.rise p) else .next s

/-- A spare that cannot train leaves its port without a position (R214). -/
def State.noSpare (s : State) (p : Nat) : State :=
  (s.portTo p .noPosition).onPort p (fun q => { q with substReason := 0, laser := false })

/-- TRAINING_RETRY (R211): step 3 again; with light the position trains, without it the port reports Down, and one that was
to take the spare has none (R203, R214). -/
def execTrainingRetry (p : Fin 96) (light : Bool) (t : Nat) (s : State) : Res :=
  let s := s.at_ t
  let q := s.port p
  if (q.st = .training ∨ q.st = .down ∧ q.los = 15) ∧ s.portOn p ∧ q.laser then
    if light then .next ((s.portTo p .training).onPort p (fun q => { q with los := 0, rxLf := false }))
    else
      let s := s.onPort p (fun q => { q with los := 15 })
      .next (if q.substReason ≠ 0 then s.noSpare p else s.portTo p .down)
  else .next s

/-- The substitution of R214, steps 1 to 4, if the spare is unused and substitution is not forbidden. A port that is not Up
and finds the spare used has no position (R214, R221), but two that fail within a second leave the other Down. -/
def State.substitute (s : State) (p reason : Nat) : State :=
  let n := p / 12
  let o := s.optic n
  let q := s.port p
  if bit (s.portCtl p) 31 ∨ !s.portOn p ∨ q.st = .quenched ∨ q.st = .noPosition then s
  else if o.spare = 0xF then
    let fresh : Bool := match o.substAt with
      | some t => decide (s.clk.now < t + 1000000000)
      | none => false
    if q.st = .up ∨ fresh then s else s.noSpare p
  else
    let s := (s.portTo p .training).onPort p (fun q =>
      { q with
        egress := []
        held := []
        substFrom := q.pos
        pos := o.spare
        subst := true
        substReason := reason
        los := 0
        rxLf := false
        rxRf := false
        laser := !o.railFailed && !o.lasersOff
        hiSer := false
        hiSerSecs := 0
        hiSerAt := none
        retrains := 0 })
    (s.onOptic n (fun o => { o with spare := 0xF, substAt := some s.clk.now })).train p

/-- LOSS_OF_SIGNAL (R213, R215): the lanes without signal; a port that loses any goes Down, transmits Remote Fault, and is
retrained, with its saved settings where it may use them. -/
def execLossOfSignal (p : Fin 96) (lanes : BitVec 4) (s : State) : Res :=
  let q := s.port p
  if q.st = .disabled ∨ q.st = .quenched ∨ q.st = .noPosition then .next s
  else
    let s := s.onPort p (fun q => { q with
      los := lanes
      retrains := if q.los = 0 ∨ q.los = 15 then 0 else q.retrains })
    if lanes = 0 then .next s
    else .next ((((s.portTo p .down).onPort p (fun q => { q with rxLf := true })).signal p .remoteFault).train p)

/-- FAULT_RECEIVED (R215): the port shows Down and transmits no frames; against Local Fault it transmits Remote Fault. -/
def execFaultReceived (p : Fin 96) (remote : Bool) (s : State) : Res :=
  let q := s.port p
  if q.st ≠ .up ∧ q.st ≠ .down ∧ q.st ≠ .training then .next s
  else
    let s := if q.st = .up then s.portTo p .down else s
    let s := s.onPort p (fun q => { q with rxRf := q.rxRf || remote, rxLf := q.rxLf || !remote })
    .next (if remote then s else s.signal p .remoteFault)

/-- FAULT_CLEARED (R215): neither fault is present, and a port with its light comes Up. -/
def execFaultCleared (p : Fin 96) (s : State) : Res :=
  let q := s.port p
  if !q.rxLf && !q.rxRf then .next s
  else
    let s := s.onPort p (fun q => { q with rxLf := false, rxRf := false })
    .next (if q.st = .down && s.canRise p then s.rise p else s)

/-- PORT_RETRAIN (R212–R214): success brings the port Up. A saved setting that failed is discarded. A second failure of a
position that has lost some lanes calls for its spare; a spare that fails in full leaves No position. -/
def execPortRetrain (p : Fin 96) (ok : Bool) (s : State) : Res :=
  let q := s.port p
  if q.st ≠ .down ∧ q.st ≠ .training then .next s
  else if ok then
    let s := s.onPort p (fun q => { q with los := 0, rxLf := false })
    .next (if s.canRise p then s.rise p else s)
  else
    let s := if q.saved then s.dropSaved p else s
    if q.substReason ≠ 0 then .next (if q.saved then s else s.noSpare p)
    else
      let s := s.onPort p (fun q => { q with retrains := q.retrains + 1 })
      .next (if q.retrains + 1 ≥ 2 ∧ q.los ≠ 0 ∧ q.los ≠ 15 then s.substitute p 1 else s)

/-- HI_SER_TIMER (R217, R213, R221): each second since the port came Up: corrected symbols above 1 in 10,000 over that second;
ten such seconds call for the spare. The codewords that second corrected, and those it could not, join their counters. -/
def execHiSerTimer (p : Fin 96) (corrected received : Nat) (corr uncorr : Nat) (t : Nat) (s : State) : Res :=
  let s := s.at_ t
  match (s.port p).hiSerAt with
  | none => .next s
  | some t0 =>
    if s.clk.now < t0 + 1000000000 then .next s
    else
      let hi : Bool := corrected * 10000 > received
      let n := if hi then (s.port p).hiSerSecs + 1 else 0
      let s := s.onPort p (fun q => { q with
        hiSer := hi
        hiSerSecs := n
        hiSerAt := some s.clk.now
        fecCorr := satAdd q.fecCorr corr
        fecUncorr := satAdd q.fecUncorr uncorr })
      .next (if n ≥ 10 then s.substitute p 2 else s)

/-- LASER_EOL (R213). -/
def execLaserEol (p : Fin 96) (_lane : Fin 4) (s : State) : Res :=
  let q := s.port p
  if q.st = .up ∨ q.st = .down ∨ q.st = .training then .next (s.substitute p 3) else .next s

/-- GATEWAY_RESOLVED (R223): the port's gateway has an address, and the port may join spray sets. -/
def execGatewayResolved (p : Fin 96) (mac : BitVec 48) (s : State) : Res :=
  let gw := ip6Words (fun i => s.applied (0x03041000 + 0x20 * p + 4 * i) 0)
  if gw = 0 then .next s else .next (s.onPort p (fun q => { q with gwMac := some mac })).goOutAll

/-- Every port that is not Disabled enters Quenched: queues discarded, no frames, Local Fault while the optics rail is up
(R218). -/
def State.quenchPorts (s : State) : State :=
  (List.range 96).foldl (fun s p =>
    if (s.port p).st = .disabled then s
    else
      let rail := !(s.optic (p / 12)).railFailed
      let s := (s.portTo p .quenched).onPort p (fun q => { q with txLf := rail, egress := [], held := [], substReason := 0 })
      if rail then s.signal p .localFault else s) s

/-- An optical engine goes dark: its ports Down, out of every spray set, lasers off. -/
def State.opticDown (s : State) (n : Nat) : State :=
  (List.range 12).foldl (fun s k =>
    let p := 12 * n + k
    let q := s.port p
    let s := if q.st = .up ∨ q.st = .training then s.portTo p .down else s
    s.onPort p (fun q => { q with laser := false, txLf := false, los := if q.st = .down then 15 else q.los })) s

end Sys2Proof.Machine
end

