-- ==== Sys2Proof/Machine/Flows.lean ====
section
/-! DEFINITION. Flows as their receiver and their owner see them (R231–R244, R263–R266, R275, R276): a job's stop,
a flow that leaves Open, arrival and acknowledgement, what takes effect in PSN order, congestion control. -/

namespace Sys2Proof.Machine

/-! ### A job stops (R140, R317) -/

/-- The logical cores of a mask. -/
def maskCores (m : BitVec 64) : List Nat := (List.range 64).filter (fun i => bit m i)

/-- Does a core run a task of a job. -/
def State.runsJob (s : State) (lc j : Nat) : Bool :=
  match (s.core lc).seq.task with
  | some t => t.job == j
  | none => false

/-- MC1 stops a running or preempted job: the first cause stands, every task stops under R140 (R317). -/
def State.stopJob (s : State) (j : Nat) (c : StopCause) : State :=
  let x := s.job j
  if x.st ≠ .running ∧ x.st ≠ .preempting ∧ x.st ≠ .preempted then s
  else
    let cause := x.stopped.getD c
    let s := s.onJob j (fun x => { x with st := .stopping, stopped := some cause })
    (maskCores x.mask).foldl (fun s lc => if s.runsJob lc j then s.onSeq lc (fun q => q.stopTask (s.coreNs lc) cause) else s) s

/-- The job that owns a flow ends with E_FLOW_LOST (R231, R266). -/
def State.loseJob (s : State) (j : Nat) : State := s.stopJob j (.error eFlowLost 0xF 0)

/-! ### Leaving Open (R231, R266, R275) -/

/-- The commands whose far transfers use a flow: (core, engine). -/
def State.flowUsers (s : State) (fi : Nat) : List (Nat × Eng) :=
  s.cores.flatMap (fun (lc, c) =>
    [Eng.q, .d0, .d1, .d2, .d3].filterMap (fun e =>
      match (c.seq.eng e).begun with
      | b :: _ =>
        (match b.xfer with
         | some x => if !x.here && x.flow.toNat == fi then some (lc, e) else none
         | none => none)
      | [] => none))

/-- Everything a flow that leaves Open takes with it: its handles are aborted, its unconfirmed incoming transfers
struck with no resend to come and the job that receives them ended, its own transfers ended (R266, R275). -/
def State.leaveOpen (s : State) (fi : Nat) : State :=
  let s := s.abortHandles fi
  let f := s.flow fi
  let open_ := f.rx.filter (fun x => x.prov && !x.touched)
  let s := open_.foldl (fun s r =>
    match s.entryStruck r (some (BitVec.ofNat 20 fi)) with
    | (some (lc, b), s) => s.strikeChain lc b
    | (none, s) => s) s
  let s := if open_ = [] then s else s.loseJob f.job
  (s.flowUsers fi).foldl (fun s (lc, e) => s.failXfer lc e eFlowLost) s

/-- A flow is Free again; what waited for a context may have one. -/
def State.freeFlowAt (s : State) (fi : Nat) : State := ((s.onFlow fi (fun _ => {})).recountPeers).collRetry

/-- A flow fails (R231): its owning job ends with E_FLOW_LOST. -/
def State.failFlow (s : State) (fi : Nat) : State :=
  let j := (s.flow fi).job
  let s := (s.leaveOpen fi).loseJob j
  s.onFlow fi (fun f => { f with st := .failed, unacked := [], outq := [], mid := none, ctl := [], rx := [], reqs := [], answers := [], ending := false })

/-- TEARDOWN once a flow that is to end has nothing unacknowledged (R231). -/
def State.tryClose (s : State) (fi : Nat) : State :=
  let f := s.flow fi
  if f.st = .isOpen ∧ f.ending ∧ f.unacked = [] ∧ f.outq = [] then
    ((s.leaveOpen fi).sendCtl fi 0xE 0).onFlow fi (fun f => { f with st := .closing, closeAt := s.clk.now })
  else s

/-- A job's flows are torn down (R231, R276): Failed ones go at once, one still Setting up too. -/
def State.closeFlows (s : State) (j : Nat) : State :=
  (s.fab.flows.filter (fun (_, f) => f.job == j && f.st != .free)).foldl (fun s (fi, f) =>
    match f.st with
    | .isOpen => (s.onFlow fi (fun f => { f with ending := true })).tryClose fi
    | .failed => s.freeFlowAt fi
    | .settingUp => s.freeFlowAt fi
    | _ => s) s

/-! ### Acknowledgement by the receiver (R238) -/

/-- The distance of a PSN above the oldest not arrived. -/
def Flow.ahead (f : Flow) (psn : BitVec 32) : Nat := (psn - f.cum).toNat

/-- The SACK bits of what has arrived out of order. -/
def Flow.sackBits (f : Flow) : BitVec 64 :=
  f.sack.foldl (fun b p => let d := f.ahead p; if 1 ≤ d ∧ d ≤ 64 then b ||| BitVec.ofNat 64 (2 ^ (d - 1)) else b) 0

/-- Send an ACK now, with a refusal if there is one; one that cannot leave yet stays due (R235). -/
def State.sendAck (s : State) (fi : Nat) (nak : Option (BitVec 8 × BitVec 32)) : State :=
  let f := s.flow fi
  if !s.teRuns then s else
  let (code, psn) := nak.getD (0, 0)
  let a : AckHdr := { cumPsn := f.cum, sack := f.sackBits, echoTs := f.echo, ece := f.ceSeen, nakCode := code, nakPsn := psn }
  (s.sendPlain fi 0x6 0 (opAck a) []).onFlow fi (fun f => { f with sinceAck := 0, firstUnacked := none, ceSeen := false })

/-- Insert a PSN by distance. -/
def insertPsn (cum p : BitVec 32) : List (BitVec 32) → List (BitVec 32)
  | [] => [p]
  | q :: r => if (p - cum).toNat < (q - cum).toNat then p :: q :: r else q :: insertPsn cum p r

/-- Advance the oldest PSN not arrived over what has arrived. -/
def advance (cum : BitVec 32) : List (BitVec 32) → BitVec 32 × List (BitVec 32)
  | [] => (cum, [])
  | p :: r => if p = cum then advance (cum + 1) r else (cum, p :: r)

/-- A packet counts toward the next ACK: one covering it goes at once when it is the eighth, opens a hole, or was
refused. -/
def State.ackNote (s : State) (h : PktHdr) (atOnce : Bool) (nak : Option (BitVec 8 × BitVec 32)) : State :=
  let fi := h.flow.toNat
  let s := s.onFlow fi (fun f =>
    { f with
      sinceAck := f.sinceAck + 1
      firstUnacked := some (f.firstUnacked.getD s.clk.now)
      ceSeen := f.ceSeen || h.ce
      echo := h.txTs
      lastUse := s.clk.now })
  if atOnce || nak.isSome || (s.flow fi).sinceAck ≥ 8 then s.sendAck fi nak else s

/-- Record a packet's arrival. -/
def State.recordArrival (s : State) (h : PktHdr) (nak : Option (BitVec 8)) : State :=
  let fi := h.flow.toNat
  let f := s.flow fi
  let top := match f.sack.getLast? with
    | some p => f.ahead p + 1
    | none => 0
  let hole : Bool := f.ahead h.psn > top
  let (cum, sack) := advance f.cum (insertPsn f.cum h.psn f.sack)
  let n := nak.map (fun c => (c, h.psn))
  let s := s.onFlow fi (fun f => { f with cum := cum, sack := sack, nak := if n.isSome then n else f.nak })
  s.ackNote h hole n

/-- ACK_TIMER (R238): 2 µs after the first unacknowledged arrival. -/
def execAckTimer (flow : BitVec 20) (t : Nat) (s : State) : Res :=
  let s := s.at_ t
  let f := s.flow flow.toNat
  match f.firstUnacked with
  | some t0 =>
    if (f.st = .isOpen ∨ f.st = .closing) ∧ t0 + 2000 ≤ s.clk.now ∧ s.teRuns then
      match s.ctxUse flow.toNat with
      | (true, s) => .next (s.sendAck flow.toNat none)
      | (false, s) => .next s
    else .next s
  | none => .next s

/-! ### Arrival (R233, R235, R237, R240) -/

/-- A packet's age in ns (R240): against the counter of the port it came in on, or, with PTP not locked on either end, also
against the clock offset its SETUP recorded. -/
def State.ageOf (s : State) (p fi : Nat) (txTs : BitVec 32) : Nat :=
  let locked : Bool := s.fab.ptpLocked && Config.peerLocked (s.flow fi).node s.clk.now
  let d : Int := (s.portNs p : Int) - txTs.toNat - (if locked then 0 else (s.flow fi).clockOff)
  (d % 4294967296).toNat

/-- The verdict of a packet's home engine. -/
inductive Verdict where
  /-- Dropped, waiting for its context, or a duplicate: the state it leaves. -/
  | settled (s : State)
  | fresh (s : State)

/-- The home engine checks a sequenced packet. Data packets are held to their age. -/
def State.verdict (s : State) (h : PktHdr) (data : Bool) : Verdict :=
  let fi := h.flow.toNat
  let f := s.flow fi
  let gone (s : State) : State := s.bufRelease h
  if (s.port h.port).st ≠ .up then .settled s
  else if !s.teRuns ∨ (f.st ≠ .isOpen ∧ f.st ≠ .closing) then .settled (gone s)
  else
    match s.ctxUse fi with
    | (false, s) => .settled s
    | (true, s) =>
    let d := f.ahead h.psn
    if d ≥ 2 ^ 31 ∨ f.sack.contains h.psn then
      let again := match f.nak with
        | some (c, p) => if p = h.psn then some (c, p) else none
        | none => none
      .settled (gone (s.ackNote h false again))
    else if d ≥ 65536 then .settled (gone s)
    else if data && s.ageOf h.port fi h.txTs > 750000000 then
      .settled (gone { s with fab := { s.fab with aged := satInc s.fab.aged } })
    else .fresh s

/-! ### What takes effect in PSN order (R237) -/

/-- A remote-group handle's key. -/
def Handle.key (h : Handle) : GrpKey := .rem h.flow h.core.toFin h.grp

/-- The handle of a flow, sending core and group. -/
def State.handle? (s : State) (fi : Nat) (core : BitVec 6) (g : BitVec 12) : Option Handle :=
  s.fab.handles.find? (fun h => h.flow.toNat == fi && h.core == core && h.grp == g)

/-- A handle is resolved (R275): committed shadows become committed data at their slices' COMMIT, aborted ones
go; window transfers rise; the handle is freed. -/
def State.endHandle (s : State) (h : Handle) (abort : Bool) : State :=
  let fi := h.flow.toNat
  let s := if abort then s.dropShadows h.key else s.commitShadows h.key
  let (s, xs) := s.resolveRx (s.flow fi).rx (fun x => x.grp == some (h.core, h.grp)) abort
  let s := s.onFlow fi (fun f => { f with rx := xs })
  ({ s with fab := { s.fab with handles := s.fab.handles.filter (fun y => y != h) } }).settleFlow fi

/-- GROUP takes effect (R275): commit runs steps 1 to 4 of R270 on this device's slices, abort discards. -/
def State.groupEffect (s : State) (fi : Nat) (core : BitVec 6) (g : BitVec 12) (abort : Bool) : State :=
  match s.handle? fi core g with
  | none => s
  | some h =>
    if abort then s.endHandle h true
    else
      let hs := s.fab.handles.map (fun y => if y = h then { y with committing := true, await := s.shadowSlices h.key } else y)
      { s with fab := { s.fab with handles := hs } }

/-- TOUCH takes effect (R242, R263). -/
def State.touchEffect (s : State) (fi : Nat) (tm : BitVec 24) : State :=
  s.onFlow fi (fun f => { f with rx := f.rx.map (fun x => if x.prov && x.tmseq == tm then { x with touched := true } else x) })

/-- STRIKE takes effect (R263, R264): only packets above its PSN count toward the entry afresh, and what was
derived from the transfer is struck in turn. -/
def State.strikeEffect (s : State) (fi : Nat) (psn : BitVec 32) (tm : BitVec 24) : State :=
  let mine (x : RxXfer) : Bool := x.prov && x.tmseq == tm && !x.touched
  let rs := (s.flow fi).rx.filter mine
  let again (x : RxXfer) : RxXfer :=
    let got := x.got.filter (fun g => (g.1 - psn).toNat < 2 ^ 31)
    let next : BitVec 32 := match got with
      | g :: _ => g.1
      | [] => psn + 1
    { x with got := got, psn := next, placed := sumNat (got.map (fun g => g.2.2.1)), lastSeen := got.any (fun g => g.2.2.2) }
  let s := s.onFlow fi (fun f => { f with rx := f.rx.map (fun x => if mine x then again x else x) })
  rs.foldl (fun s r =>
    let (hit, s) := s.entryStruck r (some (BitVec.ofNat 20 fi))
    let s := match hit with
      | some (lc, b) => s.strikeChain lc b
      | none => s
    -- resent packets that came ahead of the STRIKE have already placed the entry afresh
    if (again r).got = [] then s
    else s.onSeq r.core.toNat (fun q =>
      match q.winQueue r.window with
      | none => q
      | some qn => q.onQueue qn (fun x => { x with entries := x.entries.map (fun e =>
          if e.prov = some (some (BitVec.ofNat 20 fi), tm) ∧ e.st = .awaiting then
            { e with st := if e.holds = 0 then .placed else .heldProv }
          else e) }))) s

/-- CREDIT takes effect (R166, R243). REQ: the first flow to ask becomes the window's sender; a window with no
queue or not open under that generation answers without limit (log 24). An answer sets what this side may send. -/
def State.creditEffect (s : State) (fi : Nat) (core : BitVec 6) (n : BitVec 12) (gen : BitVec 16) (req : Bool)
    (granted : BitVec 32) : State :=
  if !req then s.onFlow fi (fun f => { f with granted := Tbl.set 0 f.granted (winKey core n gen) (granted.toNat + 1) })
  else
    let q := (s.core core.toNat).seq
    let w := q.win n
    let me := BitVec.ofNat 20 fi
    match w.queue with
    | none => s.sendCtl fi 0x7 (opCredit core n gen false 0xFFFFFFFF)
    | some _ =>
      if !w.isOpen || w.gen != gen then s.sendCtl fi 0x7 (opCredit core n gen false 0xFFFFFFFF)
      else if w.sender.isSome && w.sender != some me then s.sendCtl fi 0x7 (opCredit core n gen false 0)
      else
        let s := s.onSeq core.toNat (fun q => q.onWin n (fun w => { w with sender := some me }))
        s.sendCtl fi 0x7 (opCredit core n gen false (windowSlots w + w.released))

/-- BARRIER takes effect (R245, R246): a child's arrival for the oldest incomplete epoch or the next, or a release
from the parent, passed on. -/
def State.barrierEffect (s : State) (fi : Nat) (n : BitVec 20) (release : Bool) (e : BitVec 32) : State :=
  let f := s.flow fi
  let c := s.coll n
  if !c.used || c.job != f.job then s
  else if release then
    if c.parent = some f.node ∧ c.up ∧ e = c.epoch then (s.collComplete n).collPump n else s
  else if !c.children.contains f.node then s
  else if e = c.epoch then
    (s.onColl n (fun c => { c with kids := if c.kids.contains f.node then c.kids else c.kids ++ [f.node] })).collPump n
  else if e = c.epoch + 1 then
    s.onColl n (fun c => { c with kidsNext := if c.kidsNext.contains f.node then c.kidsNext else c.kidsNext ++ [f.node] })
  else s

/-- TEARDOWN takes effect (R231): acknowledged, and the flow Free. -/
def State.teardownEffect (s : State) (fi : Nat) : State := ((s.leaveOpen fi).sendAck fi none).freeFlowAt fi

/-- One control packet takes effect. -/
def State.ctlEffect (s : State) (fi : Nat) (psn : BitVec 32) : Ctl → State
  | .touch tm => (s.touchEffect fi tm).settleFlow fi
  | .strike tm => s.strikeEffect fi psn tm
  | .group core g abort => s.groupEffect fi core g abort
  | .barrier n release e => s.barrierEffect fi n release e
  | .credit core n gen req g => s.creditEffect fi core n gen req g
  | .teardown => s.teardownEffect fi

/-- Insert a control packet by PSN. -/
def insertCtl (cum : BitVec 32) (x : BitVec 32 × Ctl) : List (BitVec 32 × Ctl) → List (BitVec 32 × Ctl)
  | [] => [x]
  | y :: r => if (x.1 - cum).toNat < (y.1 - cum).toNat then x :: y :: r else y :: insertCtl cum x r

/-- Control packets whose every predecessor has arrived take effect, in PSN order; the fuel is their number. -/
def State.runCtl (s : State) (fi : Nat) : Nat → State
  | 0 => s
  | k + 1 =>
    let f := s.flow fi
    match f.ctl with
    | [] => s
    | (p, c) :: r =>
      if 0 < (f.cum - p).toNat ∧ (f.cum - p).toNat < 2 ^ 31 then
        State.runCtl ((s.onFlow fi (fun f => { f with ctl := r })).ctlEffect fi p c) fi k
      else s

/-- What follows every arrival: control packets, watermarks, the receive buffer. -/
def State.afterArrival (s : State) (h : PktHdr) : State :=
  let fi := h.flow.toNat
  (((s.settleFlow fi).runCtl fi ((s.flow fi).ctl.length + 1)).settleFlow fi).bufRelease h

/-- A control packet arrives (R237). -/
def State.receiveCtl (s : State) (h : PktHdr) (c : Ctl) : State :=
  match s.verdict h false with
  | .settled s => s
  | .fresh s =>
    let s := s.onFlow h.flow.toNat (fun f => { f with ctl := insertCtl f.cum (h.psn, c) f.ctl })
    (s.recordArrival h none).afterArrival h

/-- A packet that carries data arrives: placed by `f`, which answers a state in which it waits, or the state with
it placed and a refusal code (0 none). -/
def State.receiveData (s : State) (h : PktHdr) (f : State → Option (BitVec 8) × State) : State :=
  match s.verdict h true with
  | .settled s => s
  | .fresh s =>
    match f s with
    | (none, s) => s
    | (some code, s) => (s.recordArrival h (if code = 0 then none else some code)).afterArrival h

/-! ### Sending: round trips, loss, congestion (R239–R241) -/

/-- A round-trip sample (R241): the samples of 10 s that are least of all since, the least first. -/
def Flow.sample (f : Flow) (now rtt : Nat) : Flow :=
  { f with
    rtts := f.rtts.filter (fun (t, r) => now < t + 10000000000 && r < rtt) ++ [(now, rtt)]
    srtt := Config.smoothRtt f.srtt rtt }

/-- The least round trip of the last 10 s. -/
def Flow.baseRtt (f : Flow) (rtt : Nat) : Nat :=
  match f.rtts with
  | (_, r) :: _ => r
  | [] => rtt

/-- cwnd's bounds. -/
def cwndClamp (n : Nat) : Nat := min 67108864 (max 8192 n)

/-- The congestion window after an ACK of `a` bytes (R241), to the nearest byte. -/
def Flow.congest (f : Flow) (now rtt a : Nat) (ece : Bool) (aiKib targetUs : Nat) : Flow :=
  let target := f.baseRtt rtt + targetUs * 1000
  if !ece && rtt ≤ target then { f with cwnd := cwndClamp (f.cwnd + (2 * aiKib * 1024 * a + f.cwnd) / max 1 (2 * f.cwnd)) }
  else if now - f.lastDec ≥ f.srtt then
    -- f as a fraction: max(1/2, 1 − 0.8 (rtt − target) / rtt), at most 7/10 under ECE
    let (n, d) := if rtt > target then
        let n := 10 * rtt - 8 * (rtt - target)
        let d := 10 * rtt
        if 2 * n < d then (1, 2) else (n, d)
      else (1, 1)
    let (n, d) := if ece && 10 * n > 7 * d then (7, 10) else (n, d)
    { f with cwnd := cwndClamp ((2 * f.cwnd * n + d) / (2 * d)), lastDec := now }
  else f

/-- The retransmission timeout at rest (R239). -/
def Flow.restRto (f : Flow) : Nat := max 50000 (2 * f.srtt)

/-- Answer the peer's read requests as far as the flow admits (R244). -/
def State.pumpAnswers (s : State) (fi : Nat) : Nat → State
  | 0 => s
  | k + 1 =>
    match (s.flow fi).answers with
    | [] => s
    | a :: r =>
      let n := min s.maxPayload (a.len - a.sent)
      if n = 0 then State.pumpAnswers (s.onFlow fi (fun f => { f with answers := r })) fi k
      else if !s.admits fi none n then s
      else
        let (mb, s) := s.readMem (a.addr + a.sent) n none
        match s.sendData fi none { type := 5, op := opReadResp a.id a.sent false, payload := mbBytes mb, poison := mbPoison mb,
                                   last := a.sent + n ≥ a.len, dram := some (a.addr + a.sent) } with
        | (false, s) => s
        | (true, s) =>
          let s := s.onFlow fi (fun f => { f with answers := { a with sent := a.sent + n } :: r })
          State.pumpAnswers s fi k

/-- What waits on a flow's room goes on: its users' transfers, its answers, its end. -/
def State.pumpFlow (s : State) (fi : Nat) : State :=
  let s := s.goOut fi
  let s := (s.flowUsers fi).foldl (fun s (lc, e) => if e = .q then s.pumpChain lc else s.pumpDma lc e) s
  let fuel := sumNat ((s.flow fi).answers.map (fun a => a.len / 1024 + 2))
  (s.pumpAnswers fi fuel).tryClose fi

/-- CONTEXT_FETCH_DONE (R233): the store has answered; what waited to be sent goes on. -/
def execContextFetchDone (flow : BitVec 20) (s : State) : Res :=
  if (s.flow flow.toNat).fetching then .next ((s.cacheIn flow.toNat).pumpFlow flow.toNat) else .next s

/-- A packet of an engine's transfer is acknowledged: a transfer with every packet acknowledged ends its command
(R122, R264). -/
def State.ackOwner (s : State) (k : TxPkt) : State :=
  match k.owner with
  | none => s
  | some (lc, code) =>
    let e := engOf code
    match (s.eng lc e).begun with
    | [] => s
    | b :: _ =>
      let s := s.onBegun lc e b.serial (fun b => { b with xfer := b.xfer.map (fun x => { x with done := x.done + k.payload.length }) })
      if e = .q then s.confirmChain lc
      else
        match b.xfer with
        | some x => if x.sent ≥ x.bytes ∧ x.done + k.payload.length ≥ x.bytes then s.endXfer lc e else s
        | none => s

/-- The error a refusal is at the sender (R238). -/
def nakError (c : BitVec 8) : Nat :=
  match c.toNat with
  | 1 => eWindowClosed | 2 => eWindowSource | 3 => eWindowRange | 4 => eAddress | 5 => eCodeModified | _ => eGroupOverflow

/-- A refusal ends the transfer of the packet it names (R238); one for want of shadows aborts the group (R274). -/
def State.refusedBy (s : State) (fi : Nat) (code : BitVec 8) (psn : BitVec 32) : State :=
  match ((s.flow fi).unacked.find? (fun k => k.psn == psn)).bind (·.owner) with
  | none => s
  | some (lc, ec) =>
    let e := engOf ec
    let g := match (s.eng lc e).begun with
      | b :: _ => b.grp
      | [] => none
    let s := match g with
      | some g => if code = 6 then s.abortGroup lc g eGroupOverflow else s
      | none => s
    s.failXfer lc e (nakError code)

/-- A packet's data read again from its source (R239): the tile a command still holds, or the DRAM it answers with. -/
def State.reread (s : State) (k : TxPkt) : TxPkt × State :=
  let take (mb : List MB) : TxPkt := { k with payload := mbBytes mb, poison := mbPoison mb }
  let n := k.payload.length
  match k.dram, k.owner with
  | some a, _ =>
    let (mb, s) := s.readMem a n none
    (take mb, s)
  | none, some (lc, ec) =>
    (match (s.eng lc (engOf ec)).begun with
     | [] => (k, s)
     | b :: _ =>
       if ec = 4 then
         let (t, _, s) := s.chainPart lc b (if b.passed then k.off + n else b.added)
         (take (((mbMark (t.poison || b.poison) t.bytes).drop k.off).take n), s)
       else
         let (mb, s) := s.sourceBytes lc b
         (take ((mb.drop k.off).take n), s))
  | none, none => (k, s)

/-- Retransmit a packet (R239): RETX, a new TX_TS, counted; cwnd halves (R241). Beyond 500 ms after its first
transmission the flow fails instead (R240). -/
def State.retransmit (s : State) (fi : Nat) (k : TxPkt) : State :=
  if k.firstSent + 500000000 < s.clk.now then (if (s.flow fi).st = .isOpen then s.failFlow fi else s)
  else
    let (k, s) := s.reread k
    let k' := { k with retx := true, lastSent := s.clk.now, holeAt := k.holeAt.map (fun _ => s.clk.now) }
    let s := s.onFlow fi (fun f =>
      { f with cwnd := cwndClamp (f.cwnd / 2), unacked := f.unacked.map (fun x => if x.psn = k.psn then k' else x) })
    let s := { s with fab := { s.fab with retx := Tbl.upd 0 s.fab.retx (fi % 8) satInc } }
    s.wire fi k'.psn (s.pktBytes fi k')

/-- REORDER_US in ns (R239). -/
def State.reorderNs (s : State) : Nat := fld s.oftCtl 24 8 * 1000

/-- REORDER_TIMEOUT (R239): a hole below an acknowledged packet. -/
def execReorderTimeout (flow : BitVec 20) (psn : BitVec 32) (t : Nat) (s : State) : Res :=
  let s := s.at_ t
  let f := s.flow flow.toNat
  if (f.st ≠ .isOpen ∧ f.st ≠ .closing) ∨ !s.teRuns then .next s
  else
    match f.unacked.find? (fun k => k.psn == psn) with
    | none => .next s
    | some k =>
      match k.holeAt with
      | none => .next s
      | some h => if h + s.reorderNs ≤ s.clk.now then .next (s.retransmit flow.toNat k) else .next s

/-- RTO_EXPIRY (R239): no acknowledgement has advanced for the RTO; the oldest packet goes again, and the RTO
doubles up to 12.8 ms. -/
def execRtoExpiry (flow : BitVec 20) (t : Nat) (s : State) : Res :=
  let s := s.at_ t
  let fi := flow.toNat
  let f := s.flow fi
  match f.unacked with
  | [] => .next s
  | k :: _ =>
    if (f.st ≠ .isOpen ∧ f.st ≠ .closing) ∨ !s.teRuns ∨ s.clk.now < max f.lastAdv k.lastSent + f.rto then .next s
    else
      let s := { s with fab := { s.fab with rtos := Tbl.upd 0 s.fab.rtos (fi % 8) satInc } }
      .next ((s.onFlow fi (fun f => { f with rto := min 12800000 (2 * f.rto) })).retransmit fi k)

/-- RETX_LIMIT (R240): the oldest packet was first sent more than 500 ms ago and would go again. -/
def execRetxLimit (flow : BitVec 20) (t : Nat) (s : State) : Res :=
  let s := s.at_ t
  let f := s.flow flow.toNat
  match f.unacked with
  | [] => .next s
  | k :: _ =>
    if f.st = .isOpen ∧ k.firstSent + 500000000 < s.clk.now then .next (s.failFlow flow.toNat) else .next s

/-- CLOSING_TIMEOUT (R231): a second after TEARDOWN. -/
def execClosingTimeout (flow : BitVec 20) (t : Nat) (s : State) : Res :=
  let s := s.at_ t
  let f := s.flow flow.toNat
  if f.st = .closing ∧ f.closeAt + 1000000000 ≤ s.clk.now then .next (s.freeFlowAt flow.toNat) else .next s

end Sys2Proof.Machine
end

