-- ==== Sys2Proof/Machine/Packets.lean ====
section
/-! DEFINITION. The packets of the fabric transport (R226–R246), the flows' setup and timers, and the commit point
of a group (R270, R275). -/

namespace Sys2Proof.Machine

/-! ### Tagged packets (R274, R275) -/

/-- Must a tagged packet wait: its group's GROUP packet has taken effect and the commit is under way, or one
of a lower PSN has still to take effect. -/
def State.groupBusy (s : State) (h : PktHdr) (g : BitVec 12) : Bool :=
  let fi := h.flow.toNat
  (match s.handle? fi h.srcCore g with
   | some y => y.committing
   | none => false)
  || (s.flow fi).ctl.any (fun (p, c) =>
    match c with
    | .group core g' _ => core == h.srcCore && g' == g && decide ((h.psn - p).toNat < 2 ^ 31)
    | _ => false)

/-- The handle of a tagged packet's group, opened at the first (R275): none where there are 16,384 (R274). -/
def State.openHandle (s : State) (h : PktHdr) (g : BitVec 12) : Option State :=
  match s.handle? h.flow.toNat h.srcCore g with
  | some _ => some s
  | none =>
    if s.fab.handles.length ≥ 16384 then none
    else some { s with fab := { s.fab with handles := s.fab.handles ++ [{ flow := h.flow, core := h.srcCore, grp := g }] } }

/-! ### WRITE_WIN (R164, R229, R237, R242, R243, R263) -/

/-- The refusal code of a window error (R238). -/
def nakCode (e : Nat) : BitVec 8 :=
  if e = eWindowClosed then 1 else if e = eWindowSource then 2 else if e = eWindowRange then 3 else if e = eAddress then 4
  else if e = eCodeModified then 5 else 6

/-- A refused packet of a window transfer: its transfer never raises the watermark (R242). -/
def State.spoilXfer (s : State) (fi : Nat) (w : WinHdr) : State :=
  s.onFlow fi (fun f =>
    { f with
      refused := f.refused ++ [(w.core, w.window, w.gen, w.woff.toNat)]
      rx := f.rx.filter (fun x => x.prov || !(x.core == w.core && x.window == w.window && x.gen == w.gen
        && decide (x.woff ≤ w.woff.toNat) && decide (4 * w.woff.toNat < 4 * x.woff + x.len))) })

/-- Insert a transfer by the PSN of its first packet: the transfers of a flow raise the watermark in PSN order (R242). -/
def insertRx (cum : BitVec 32) (x : RxXfer) : List RxXfer → List RxXfer
  | [] => [x]
  | y :: r =>
    if (x.psn - cum + 0x80000000).toNat < (y.psn - cum + 0x80000000).toNat then x :: y :: r else y :: insertRx cum x r

/-- A placed packet counts toward its transfer: a provisional one is kept from its first packet, any other from
its last. -/
def State.noteXfer (s : State) (h : PktHdr) (w : WinHdr) (n : Nat) : State :=
  let fi := h.flow.toNat
  let len := w.xferLen.toNat
  let start := if h.last then w.woff.toNat + n / 4 - len / 4 else
    let x := (s.core w.core.toNat).seq.win w.window
    match x.queue.map (fun _ => x.slotWords) with
    | some sw => if sw = 0 then w.woff.toNat else w.woff.toNat / sw * sw
    | none => w.woff.toNat
  let fresh : RxXfer :=
    { core := w.core, window := w.window, gen := w.gen, woff := start, len := len, psn := h.psn, tmseq := w.tmseq, prov := h.prov
      grp := if w.gv then some (h.srcCore, w.grp) else none }
  if h.prov then
    let mine (x : RxXfer) : Bool := x.prov && x.tmseq == w.tmseq && !x.touched
    let add (x : RxXfer) : RxXfer :=
      { x with
        placed := x.placed + n
        psn := if (x.psn - h.psn).toNat < 2 ^ 31 ∨ x.got = [] then h.psn else x.psn
        got := x.got ++ [(h.psn, w.woff.toNat, n, h.last)]
        lastSeen := x.lastSeen || h.last
        lastPsn := if h.last then h.psn else x.lastPsn }
    s.onFlow fi (fun f =>
      if f.rx.any mine then { f with rx := f.rx.map (fun x => if mine x then add x else x) }
      else { f with rx := insertRx f.cum (add fresh) f.rx })
  else if !h.last then s
  else
    let f := s.flow fi
    let spoilt := f.refused.any (fun (c, win, g, o) =>
      c == w.core && win == w.window && g == w.gen && decide (start ≤ o) && decide (4 * o < 4 * start + len))
    if spoilt then s
    else s.onFlow fi (fun f => { f with rx := insertRx f.cum { fresh with placed := len, lastSeen := true, lastPsn := h.psn } f.rx })

/-- A WRITE_WIN packet's placement: waiting, refused with a code, or placed (0). One that the remote-write port has taken has
left the receive buffer. -/
def State.placeWin (s : State) (h : PktHdr) (w : WinHdr) (data : List Byte) : Option (BitVec 8) × State :=
  let fi := h.flow.toNat
  let lc := w.core.toNat
  if (s.core lc).portTook h then (none, s.bufRelease h) else
  match windowErr s lc (s.flow fi).node h.srcCore.toNat w data.length with
  | some e => (some (nakCode e), (s.dropWindow lc).spoilXfer fi w)
  | none =>
    if slotErr s lc w h.last data.length then (some 3, (s.dropWindow lc).spoilXfer fi w)
    else if w.gv && s.groupBusy h w.grp then (none, s)
    else
      match (if w.gv then s.openHandle h w.grp else some s) with
      | none => (some 6, s.spoilXfer fi w)
      | some s1 =>
        match (s1.noteShape lc w).placeWindow lc w (mbMark h.poison data) (.packet h w) with
        | .full => (none, s)
        | .queued s2 => (none, s2.bufRelease h)
        | .code s2 => (some 5, s2.spoilXfer fi w)
        | .done s2 =>
          let s2 := if h.prov then s2.placeEntry lc w (some h.flow) else s2
          (some 0, s2.noteXfer h w data.length)

/-- WRITE_WIN. -/
def execWriteWin (h : PktHdr) (w : WinHdr) (data : List Byte) (s : State) : Res :=
  .next (s.receiveData h (fun s => s.placeWin h w data))

/-! ### WRITE_DRAM and ADD_DRAM (R194, R237, R238, R267) -/

/-- Does a range of the job that owns a flow cover an access (R194, R195). -/
def State.jobRangeOk (s : State) (j a n : Nat) (write : Bool) : Bool :=
  (s.job j).tasks.any (fun t => t.dranges.any (fun r =>
    r.valid && (!write || r.write) && r.base.toNat * 2 ^ 20 ≤ a && a + n ≤ (r.base.toNat + r.len.toNat) * 2 ^ 20))
  && inDram a n

/-- Tagged operations on lines, all or none (R274). -/
def State.shadowAll (s : State) (k : GrpKey) : List (Nat × ShadowOp) → Option State
  | [] => some s
  | (ln, op) :: r =>
    match s.shadowOp ln k op with
    | some s => State.shadowAll s k r
    | none => none

/-- The crossbar port of the transport engine that serves a fabric port (R174). -/
def teOf (p : Nat) : XPort := .te (BitVec.ofNat 3 (p / 12)).toFin

/-- A data packet for DRAM: checked against the job's ranges; written, or held as shadows of its handle. -/
def State.placeDram (s : State) (h : PktHdr) (d : DramHdr) (data : List Byte) (add : Bool) : Option (BitVec 8) × State :=
  let fi := h.flow.toNat
  let a := d.addr.toNat
  let n := data.length
  let bf16 := d.runFmt == 1
  let units := unitsOf64 a n
  if !s.jobRangeOk (s.flow fi).job a n true || (add && (a % 64 != 0 || n % 64 != 0)) then (some 4, s)
  else if d.gv && s.groupBusy h d.grp then (none, s)
  else
    let k : Option GrpKey := if d.gv then some (.rem h.flow h.srcCore.toFin d.grp) else none
    match s.memWait a n k (teOf h.port) true with
    | some s => (none, s)
    | none =>
      match k with
      | none =>
        if add then (some 0, units.foldl (fun s u => s.addMem u bf16 (bytesAt data (u - a) 64) h.poison none .clean) s)
        else (some 0, s.writeMem a (mbMark h.poison data) none)
      | some k =>
        let ops := if add then units.map (fun u => (u / 128, ShadowOp.add (u / 64 % 2) bf16 (bytesAt data (u - a) 64) h.poison))
          else (lineCuts a n).map (fun (lo, m) => (lo / 128, shadowWrite (lo % 128) (mbMark h.poison ((data.drop (lo - a)).take m))))
        match (s.openHandle h d.grp).bind (fun s => s.shadowAll k ops) with
        | some s => (some 0, s)
        | none => (some 6, s)
where
  /-- The 64 B units of an aligned range. -/
  unitsOf64 (a n : Nat) : List Nat := (List.range (n / 64)).map (fun i => a + 64 * i)

/-- WRITE_DRAM. -/
def execWriteDram (h : PktHdr) (d : DramHdr) (data : List Byte) (s : State) : Res :=
  .next (s.receiveData h (fun s => s.placeDram h d data false))

/-- ADD_DRAM (R88). -/
def execAddDram (h : PktHdr) (d : DramHdr) (data : List Byte) (s : State) : Res :=
  .next (s.receiveData h (fun s => s.placeDram h d data true))

/-! ### Reads (R244) -/

/-- READ_REQ: the responder checks the range with READ permission and answers on its own direction of the flow. -/
def execReadReq (h : PktHdr) (addr : BitVec 40) (reqId : BitVec 16) (rlen : BitVec 32) (s : State) : Res :=
  match s.verdict h false with
  | .settled s => .next s
  | .fresh s =>
    let fi := h.flow.toNat
    let n := rlen.toNat
    let ok : Bool := s.jobRangeOk (s.flow fi).job addr.toNat n false && n % 64 == 0 && 64 ≤ n && n ≤ 2 ^ 24
    if ok then
      match s.memWait addr.toNat n none (teOf h.port) false with
      | some s => .next s
      | none =>
        let s := s.recordArrival h none
        let s := s.onFlow fi (fun f => { f with answers := f.answers ++ [{ id := reqId.toNat, addr := addr.toNat, len := n }] })
        .next ((s.afterArrival h).pumpFlow fi)
    else
      let s := s.recordArrival h none
      .next ((s.sendSeq fi { type := 5, op := opReadResp reqId.toNat 0 true, last := true }).afterArrival h)

/-- READ_RESP: the bytes land in the reading command's output; a failed check stops it with E_ADDRESS. -/
def execReadResp (h : PktHdr) (reqId : BitVec 16) (roff : BitVec 32) (err : Bool) (data : List Byte) (s : State) : Res :=
  .next (s.receiveData h (fun s =>
    let fi := h.flow.toNat
    match Tbl.get none (s.flow fi).reqs reqId.toNat with
    | none => (some 0, s)
    | some r =>
      let e := engOf r.eng
      let drop (s : State) : State := s.onFlow fi (fun f => { f with reqs := Tbl.set none f.reqs reqId.toNat none })
      if err then (some 0, (drop s).failXfer r.lc e eAddress)
      else
        let n := min data.length (r.len - roff.toNat)
        match (s.eng r.lc e).begun with
        | [] => (some 0, drop s)
        | b :: _ =>
          let parts := landSpots (begunPieces (s.core r.lc) b) (r.off + roff.toNat) n
          match s.landParts r.lc b parts (mbMark h.poison (data.take n)) with
          | .code => (some 0, (drop s).failXfer r.lc e eCodeModified)
          | .wait c s => (none, s.onSeq r.lc (fun q => q.stall e c))
          | .done s =>
            let got := r.got + n
            let s := if got ≥ r.len then drop s
              else s.onFlow fi (fun f => { f with reqs := Tbl.set none f.reqs reqId.toNat (some { r with got := got }) })
            let s := s.onBegun r.lc e b.serial (fun b => { b with xfer := b.xfer.map (fun x => { x with done := x.done + n }) })
            match b.xfer with
            | some x =>
              if x.done + n ≥ x.bytes then (some 0, s.endXfer r.lc e) else (some 0, s.pumpDma r.lc e)
            | none => (some 0, s)))

/-! ### ACK (R238, R239, R241) -/

/-- Does an ACK cover a PSN. -/
def acks (a : AckHdr) (p : BitVec 32) : Bool :=
  let below := (a.cumPsn - p).toNat
  let above := (p - a.cumPsn).toNat
  (0 < below && decide (below < 2 ^ 31)) || (1 ≤ above && above ≤ 64 && bit a.sack (above - 1))

/-- What an ACK's round trip and its acknowledged packets do to a flow: samples, congestion, RTO, holes. -/
def State.ackFlow (s : State) (p fi : Nat) (a : AckHdr) : State :=
  let now := s.clk.now
  let rtt := (BitVec.ofNat 32 (s.portNs p) - a.echoTs).toNat
  let ai := fld s.oftCtl 16 8
  let qd := fld s.oftCtl 8 8
  s.onFlow fi (fun f =>
    let got := f.unacked.filter (fun k => acks a k.psn)
    let stay := f.unacked.filter (fun k => !acks a k.psn)
    let below (k : TxPkt) : Bool := got.any (fun g => decide (0 < (g.psn - k.psn).toNat) && decide ((g.psn - k.psn).toNat < 2 ^ 31))
    let bytes := sumNat (got.map (fun k => k.payload.length))
    let f := (f.sample now rtt).congest now rtt bytes a.ece ai qd
    let f := { f with unacked := stay.map (fun k => if below k then { k with holeAt := some (k.holeAt.getD now) } else k) }
    if got = [] then f else { f with lastAdv := now, rto := f.restRto, lastUse := now })

/-- ACK. A reserved refusal code fails the flow; a refusal ends its transfer; what is acknowledged counts toward
its command, and what waited for room goes on. It waits in the receive buffer while its flow's context is fetched. -/
def execAck (h : PktHdr) (a : AckHdr) (s : State) : Res :=
  let fi := h.flow.toNat
  let f := s.flow fi
  if (s.port h.port).st ≠ .up then .next s
  else if !s.teRuns ∨ (f.st ≠ .isOpen ∧ f.st ≠ .closing) then .next (s.bufRelease h)
  else
    match s.ctxUse fi with
    | (false, s) => .next s
    | (true, s) =>
      if a.nakCode.toNat ≥ 7 then .next ((if f.st = .isOpen then s.failFlow fi else s).bufRelease h)
      else
        let s := if a.nakCode = 0 then s else s.refusedBy fi a.nakCode a.nakPsn
        let got := (s.flow fi).unacked.filter (fun k => acks a k.psn)
        let s := s.ackFlow h.port fi a
        let s := got.foldl (fun s k => s.ackOwner k) s
        let s := if (s.flow fi).st = .closing ∧ (s.flow fi).unacked = [] ∧ (s.flow fi).outq = [] then s.freeFlowAt fi else s.pumpFlow fi
        .next (s.bufRelease h)

/-! ### Control packets (R237, R242, R243, R245, R263, R275) -/

/-- CREDIT. -/
def execCredit (h : PktHdr) (core : BitVec 6) (window : BitVec 12) (gen : BitVec 16) (req : Bool) (granted : BitVec 32)
    (s : State) : Res := .next (s.receiveCtl h (.credit core window gen req granted))

/-- TOUCH. -/
def execTouch (h : PktHdr) (tmseq : BitVec 24) (s : State) : Res := .next (s.receiveCtl h (.touch tmseq))

/-- STRIKE. -/
def execStrike (h : PktHdr) (tmseq : BitVec 24) (s : State) : Res := .next (s.receiveCtl h (.strike tmseq))

/-- GROUP. -/
def execGroup (h : PktHdr) (core : BitVec 6) (g : BitVec 12) (abort : Bool) (s : State) : Res :=
  .next (s.receiveCtl h (.group core g abort))

/-- BARRIER. -/
def execBarrier (h : PktHdr) (coll : BitVec 20) (release : Bool) (epoch : BitVec 32) (s : State) : Res :=
  .next (s.receiveCtl h (.barrier coll release epoch))

/-- TEARDOWN. -/
def execTeardown (h : PktHdr) (s : State) : Res := .next (s.receiveCtl h .teardown)

/-! ### Setup (R231, R232, R234) -/

/-- Put a packet of MC3 on the wire that belongs to no context: the first port of the spray set (R236). -/
def State.wireRaw (s : State) (node : BitVec 18) (bytes : Nat → List Byte) : State :=
  match s.sprayPorts with
  | [] => s
  | p :: _ =>
    let b := bytes (s.portNs p)
    s.onPort p (fun x => x.send (s.oftClass p) (s.oftFrame p node 0 b) (s.frameBytes p b.length))

/-- SETUP_ACK: this side's flow, the peer's, a status (R228). -/
def State.sendSetupAck (s : State) (b : SetupBody) (mine : Nat) (status : Nat) : State :=
  let body := setupBytes b.tag (BitVec.ofNat 20 mine) b.senderFlow status s.flash.startCount s.clk.now
  let s := s.wireRaw b.node (fun ts => packetHeader 0xD false false false false 32 b.senderFlow 0 0 ts 0 ++ body)
  if status = 0 then s else s.setupRefused

/-- A flow opens: the peer's context, its boot count, and the clock offset its time shows. -/
def State.openFlow (s : State) (fi : Nat) (b : SetupBody) : State :=
  let s := s.onFlow fi (fun f =>
    { f with
      st := .isOpen
      peerFlow := b.senderFlow
      peerBoot := b.boot
      clockOff := (s.clk.now : Int) - b.time.toNat
      lastUse := s.clk.now
      lastAdv := s.clk.now })
  (s.cacheIn fi).collFlush fi

/-- The loaded context that carries a job tag. -/
def State.jobByTag (s : State) (tag : BitVec 32) : Option Nat :=
  (s.jobs.jobs.find? (fun (_, j) => j.loaded && j.tag == tag)).map (·.1)

/-- SETUP (R232): answered, taken as a duplicate or a crossing setup, or as the sign of a restarted peer. -/
def execSetup (h : PktHdr) (b : SetupBody) (s : State) : Res :=
  if (s.port h.port).st ≠ .up then .next s
  else if !s.teRuns ∨ !s.nodeValid then .next (s.bufRelease h)
  else
    let s := s.bufRelease h
    let old := s.fab.flows.filter (fun (_, f) => f.st == .isOpen && f.node == b.node && f.peerBoot != b.boot)
    let s := old.foldl (fun s (i, _) => s.failFlow i) s
    match s.jobByTag b.tag with
    | none => .next (s.sendSetupAck b 0xFFFFF 1)
    | some j =>
      match s.findFlow j b.node with
      | some i =>
        match (s.flow i).st with
        | .isOpen => .next (s.sendSetupAck b i 0)
        | .settingUp =>
          if s.nodeId.toNat > b.node.toNat then .next ((s.openFlow i b).sendSetupAck b i 0) else .next s
        | .failed => .next (s.sendSetupAck b 0xFFFFF 1)
        | .free | .closing => .next s
      | none =>
        if s.fabricFull b.node then .next (s.sendSetupAck b 0xFFFFF 3)
        else
          match s.takeFlow with
          | .full => .next (s.sendSetupAck b 0xFFFFF 2)
          | .wait s => .next s
          | .got i =>
            let s := s.onFlow i (fun _ => { node := b.node, job := j, tag := b.tag })
            .next (((s.openFlow i b).recountPeers).sendSetupAck b i 0)

/-- The far node a command waits for a flow to. -/
def farNodeOf (w : Cmd) : Option (BitVec 18) :=
  if w.op = 0x60 then (if dmaKind w = 1 then some (farNode w) else if dmaKind w = 2 then some (farWinNode w) else none)
  else if w.op = 0x54 then (if chainDest w = 2 then some (farNode w) else if chainDest w = 1 then some (farWinNode w) else none)
  else none

/-- A setup has failed (R231, R232): the commands that wait for the flow stop without popping, and it is Free. -/
def State.failSetup (s : State) (fi code : Nat) : State :=
  let f := s.flow fi
  let waiting := s.cores.flatMap (fun (lc, c) =>
    [Eng.q, .d0, .d1, .d2, .d3].filterMap (fun e =>
      let g := c.seq.eng e
      match g.fetched with
      | x :: _ => if s.runsJob lc f.job && g.status == .running && g.begun.isEmpty && farNodeOf x.word == some f.node
        then some (lc, e) else none
      | [] => none))
  (waiting.foldl (fun s (lc, e) => s.failStream lc e code) s).freeFlowAt fi

/-- SETUP_ACK (R231, R232): the flow is Open, or refused with a status. -/
def execSetupAck (h : PktHdr) (b : SetupBody) (s : State) : Res :=
  let fi := h.flow.toNat
  let f := s.flow fi
  if (s.port h.port).st ≠ .up then .next s
  else
    let s := s.bufRelease h
    if !s.teRuns ∨ f.st ≠ .settingUp ∨ f.node ≠ b.node ∨ f.tag ≠ b.tag then .next s
    else
      match b.status.toNat with
      | 0 => .next (s.openFlow fi b)
      | 1 => .next (s.setupRefused.failSetup fi ePeerNoJob)
      | 2 => .next (s.setupRefused.failSetup fi eFlowTableFull)
      | 3 => .next (s.setupRefused.failSetup fi eFabricLimit)
      | _ => .next s

/-- SETUP_RETRY (R232): SETUP again every 1 ms; after eight without an answer the peer is unreachable. -/
def execSetupRetry (flow : BitVec 20) (t : Nat) (s : State) : Res :=
  let s := s.at_ t
  let fi := flow.toNat
  let f := s.flow fi
  if f.st ≠ .settingUp ∨ s.clk.now < f.setupAt + 1000000 ∨ !s.teRuns then .next s
  else if f.tries < 8 then .next (s.sendSetup fi)
  else .next (s.failSetup fi ePeerUnreachable)

/-! ### The commit point (R270, R275) -/

/-- S's waiting grp.commit of a group retires (R269, R270). -/
def State.retireCommit (s : State) (lc : Nat) (g : BitVec 12) : State :=
  match (s.eng lc .s).fetched with
  | f :: _ =>
    if Cmd.op f.word = 0x15 ∧ BitVec.ofNat 12 (fld f.word 64 12) = g ∧ engineRuns s lc .s then
      let c := frontCtx s lc .s f
      s.retireFront c f.loops
    else s
  | [] => s

/-! ### MC3 (R235, R372) -/

/-- MC3_RESTART (R235, R372): at its start cached contexts are written back and PTP is in holdover; at its end the
transport resumes from the store. -/
def execMc3Restart (done : Bool) (s : State) : Res :=
  if done then
    if s.fab.mc3Restarting then
      .next (State.goOutAll { s with fab := { s.fab with mc3Restarting := false }, mgmt := { s.mgmt with up := setBit s.mgmt.up 3 } })
    else .next s
  else if s.fab.mc3Restarting ∨ !bit s.mgmt.up 3 then .next s
  else
    let s := s.logErr 0xA 0 6 3 (toLE 4 3 ++ toLE 4 (s.mgmt.mc3Restarts.toNat + 1))
    .next { s with
      fab := { s.fab with
        mc3Restarting := true
        holdover := s.fab.holdover || (s.ptpMode != 0 && s.fab.slavePort != 0x7F)
        flows := Tbl.mapv {} (fun (f : Flow) => { f with cached := false, fetching := false }) s.fab.flows }
      mgmt := { s.mgmt with up := clrBit s.mgmt.up 3, mc3Restarts := satInc s.mgmt.mc3Restarts } }

end Sys2Proof.Machine
end

