-- ==== Sys2Proof/Machine/Ptp.lean ====
section
/-! DEFINITION. PTP on the ports (R219, R220, R250, R251): timestamps, the messages MC3 sends and receives, the servo. -/

namespace Sys2Proof.Machine

/-- The sync interval in ns: 2 to the signed LOG_SYNC seconds. -/
def State.syncNs (s : State) : Nat := 1000000000 / 2 ^ ((16 - fld s.ptpCtl 14 4) % 16)
/-- The management region's time steps by `d` ns; the other regions' counters stand until beacons correct them. -/
def State.stepTime (s : State) (d : Int) : State :=
  let now := ((s.clk.now : Int) + d).toNat
  let moved : Int := (now : Int) - s.clk.now
  { s with clk := { s.clk with
      now := now
      skew := upto (fun t r => Tbl.upd 0 t r (fun k => k - moved * 65536)) s.clk.skew 89 } }

/-- The servo on an offset from master (R250): it steps beyond 1 µs; 16 offsets running within 100 ns lock. -/
def State.servo (s : State) (offset : Int) : State :=
  let good := if offset.natAbs ≤ 100 then s.fab.ptpGood + 1 else 0
  let s := { s with fab := { s.fab with
      ptpOffset := BitVec.ofInt 32 offset
      ptpGood := good
      ptpLocked := s.fab.ptpLocked || good ≥ 16
      holdover := false } }
  let s := if offset.natAbs ≤ 1000 then s else s.stepTime (-offset)
  { s with fab := { s.fab with lastSync := s.clk.now } }

/-- PTP_MESSAGE_RX (R219, R220, R250): a port stamps every event message, and the stamp travels to MC3 with it. On a PTP port,
in the transport and domain set, an Announce takes part in the choice of the slave port, and a Sync on the slave port feeds
the servo. -/
def execPtpMessageRx (p : Fin 96) (x : PtpRx) (t : Nat) (s : State) : Res :=
  let s := s.at_ t
  if (s.port p).st ≠ .up ∨ s.fab.mc3Restarting ∨ s.mgmt.faultActive then .next s
  else
    let s := if x.m = .general then s else s.giveStamp (s.ptpStamp p false x.m x.seqId)
    if !s.ptpOn p ∨ x.xport.val ≠ s.ptpXport ∨ x.domain.toNat ≠ s.ptpDomain then .next s
    else
      match x.m, x.master with
      | .general, some a =>
        .next ({ s with fab := { s.fab with masters := Tbl.set [] s.fab.masters p a } } : State).electSlave
      | .sync, _ => .next (if s.fab.slavePort.toNat = p.val then s.servo x.offset else s)
      | _, _ => .next s

/-- Does MC3 send an event message on a port (R250): Sync from a boundary clock's ports but its slave, Delay_Req from the slave,
peer delay messages in peer-to-peer operation. -/
def State.ptpSends (s : State) (p : Nat) (m : PtpMsg) : Bool :=
  let slave := s.fab.slavePort.toNat == p
  s.ptpOn p && !s.fab.mc3Restarting && !s.mgmt.faultActive &&
    (match m with
     | .sync => s.ptpMode == 2 && !slave
     | .delayReq => !s.ptpP2p && slave
     | .pdelayReq => s.ptpP2p
     | .pdelayResp => s.ptpP2p
     | .general => false)

/-- A PTP event message as it is handed to a port, in the transport set and to that transport's address for it (IEEE
1588-2019). -/
def State.ptpFrame (s : State) (p : Nat) (m : PtpMsg) (bytes : List Byte) : TxFrame × Nat :=
  let peer : Bool := m == .pdelayReq || m == .pdelayResp
  let eth (mac : BitVec 48) (ip : Option Ip) : Option Eth := some (s.ethOf p (s.hkClass p) mac ip)
  if s.ptpXport = 2 then
    ({ eth := eth (if peer then 0x0180C200000E else 0x011B19000000) none, what := .ptp m bytes }, 18 + bytes.length)
  else
    let v6 : Bool := s.ptpXport == 0
    let dst : BitVec 128 :=
      if v6 then (if peer then 0xFF02000000000000000000000000006B else 0xFF0E0000000000000000000000000181)
      else (if peer then 0xE000006B else 0xE0000181)
    let mac : BitVec 48 :=
      if v6 then (if peer then 0x33330000006B else 0x333300000181) else (if peer then 0x01005E00006B else 0x01005E000181)
    ({ eth := eth mac (some (udpHeader v6 (s.srcIp p v6) dst 0 319 319 bytes)), what := .ptp m bytes },
      26 + (if v6 then 40 else 20) + bytes.length)

/-- PTP_EVENT_TX (R219, R220): MC3's event message goes to its port with its type, domain and sequence number, and is stamped
when it leaves. -/
def execPtpEventTx (p : Fin 96) (m : PtpMsg) (seqId : BitVec 16) (body : List Byte) (s : State) : Res :=
  if !s.ptpSends p m then .next s
  else
    let head := body ++ List.replicate (44 - body.length) 0
    let head := putBytes head 0 [BitVec.ofNat 8 (16 * ((head.getD 0 0).toNat / 16) + ptpType m)]
    let head := putBytes (putBytes head 4 [BitVec.ofNat 8 s.ptpDomain]) 30 (toBE 2 seqId.toNat)
    let (x, n) := s.ptpFrame p m head
    let c := s.hkClass p
    let (x, s) := if (s.port p).clear c then s.atWire p x else (x, s)
    .next (s.onPort p (fun q => q.send c x (s.hkBytes p n)))

/-- PTP_SYNC_LOSS (R250, R251): four sync intervals without a sync: LOCKED clears, the last rate is held. -/
def execPtpSyncLoss (t : Nat) (s : State) : Res :=
  let s := s.at_ t
  if s.ptpMode = 0 ∨ s.fab.slavePort = 0x7F ∨ s.clk.now < s.fab.lastSync + 4 * s.syncNs then .next s
  else .next { s with fab := { s.fab with ptpLocked := false, ptpGood := 0, holdover := true } }

end Sys2Proof.Machine
end

