-- ==== Sys2Proof/Machine/Scp.lean ====
section
/-! DEFINITION. The remote-write port of a core (R164, R169, R172), and the banks on their own: write-backs and the power
states of sections (R158, R170–R172). -/

namespace Sys2Proof.Machine

/-! ### The remote-write port -/

/-- A packet's write that waited in the port is placed, or refused with a code: the packet arrives. -/
def State.portPacket (s : State) (lc : Nat) (h : PktHdr) (w : WinHdr) (len : Nat) (code : BitVec 8) : State :=
  let fi := h.flow.toNat
  let f := s.flow fi
  if (f.st ≠ .isOpen ∧ f.st ≠ .closing) ∨ f.ahead h.psn ≥ 2 ^ 31 ∨ f.sack.contains h.psn then s
  else
    let s :=
      if code ≠ 0 then s.spoilXfer fi w
      else (if h.prov then s.placeEntry lc w (some h.flow) else s).noteXfer h w len
    (s.recordArrival h (if code = 0 then none else some code)).afterArrival h

/-- A begun command's write that waited in the port is placed, or refused. -/
def State.portOwn (s : State) (lc eng serial : Nat) (w : WinHdr) (len : Nat) (g : Option (BitVec 12)) (tm : Option (BitVec 24))
    (code : BitVec 8) : State :=
  let e := engOf eng
  let mine : Bool := match (s.eng lc e).begun with
    | b :: _ => b.serial == serial
    | [] => false
  if code ≠ 0 then (if mine then s.failXfer lc e eCodeModified else s)
  else
    let s := s.ownPlaced lc w len g tm
    if !mine then s
    else if e = .q then
      (s.onBegun lc .q serial (fun b => { b with xfer := b.xfer.map (fun x => { x with done := x.bytes }) })).confirmChain lc
    else s.endXfer lc e

/-- What follows the placement, or the refusal, of a write that waited in a core's port. -/
def State.portDone (s : State) (lc : Nat) (x : PortWrite) (code : BitVec 8) : State :=
  match x.src with
  | .bare => s
  | .packet h w => s.portPacket lc h w x.data.length code
  | .own c e n w g tm => s.portOwn c e n w x.data.length g tm code

/-- One write of a core's port is tried again. -/
def State.portTry (s : State) (lc : Nat) (x : PortWrite) : State :=
  let co := s.core lc
  if !co.scp.port.contains x || co.portHolds (co.scp.port.takeWhile (· != x)) x.run then s
  else
    match (s.onScp lc (fun m => { m with port := m.port.erase x })).portStore lc x with
    | .done s => s.portDone lc x 0
    | .code s => s.portDone lc x 5
    | _ => s

/-- The writes in a core's port, oldest first, are placed as far as nothing holds them any more. -/
def State.pumpPort (s : State) (lc : Nat) : State := (s.core lc).scp.port.foldl (fun s x => s.portTry lc x) s

/-- WINDOW_WRITE (R164): checked for window and generation, source and range, then placed, kept in the remote-write port
while it must wait, or dropped. One that finds the port full is held back by the crossbar (R172). -/
def execWindowWrite (lc : Fin 64) (node : BitVec 18) (src : BitVec 6) (w : WinHdr) (poison : Bool) (data : List Byte)
    (s : State) : Res :=
  if s.mgmt.faultActive then .next s
  else
    let s := s.pumpPort lc
    if (windowErr s lc node src.toNat w data.length).isSome || slotErr s lc w true data.length then .next (s.dropWindow lc)
    else
      match s.placeWindow lc w (mbMark poison data) .bare with
      | .full => .next s
      | .queued s => .next s
      | .code s => .next s
      | .done s => .next s

/-- COMMAND_FETCH (R127); an upset that has struck the scratchpad since is in the banks before it (R155, log 198), and
writes that waited in the core's port are tried again first. -/
def execCommandFetch (lc : Fin 64) (e : Eng) (hit : Option BankHit) (s : State) : Res :=
  let s := match hit with
    | some h => s.bankHit lc h
    | none => s
  .next ((if s.mgmt.faultActive then s else s.pumpPort lc).fetchLine lc e)

/-- GRP_ABORT (R271, R272); writes that waited for the group's extents go on (R169). -/
def execGrpAbort (lc : Fin 64) (s : State) : Res :=
  runCmd (plainRow [(64, 12)]) 0x16 (fun c s =>
    ((s.abortGroup c.lc (grpOf c.w) eGroupAborted).retireFront c c.f.loops).pumpPort c.lc) lc .s s

/-- GROUP_COMMIT_POINT (R270): every slice has acknowledged PREPARE; the group is committed, its pending extents
released, grp.commit retired, GROUP sent on every flow that carried tagged transfers. For a remote-group
handle, the receiver's own commit (R275). Writes that waited for the extents go on (R169). -/
def execGroupCommitPoint (k : GrpKey) (s : State) : Res :=
  if s.mgmt.faultActive then .next s
  else
    match k with
    | .loc lc g =>
      let x := (s.core lc).seq.grp g
      if x.st = .committing ∧ x.await = [] then
        let s := s.commitShadows k
        let s := s.onCore lc (fun c => c.releaseExtents g false)
        let s := (s.resolveLoc lc g false).sendGroup lc g false
        let s := s.onSeq lc (fun q => q.onGrp g (fun _ => { st := .resolved }))
        .next ((s.retireCommit lc g).pumpPort lc)
      else .next s
    | .rem f c g =>
      match s.handle? f.toNat (BitVec.ofNat 6 c) g with
      | some h => if h.committing ∧ h.await = [] then .next (s.endHandle h false) else .next s
      | none => .next s

/-! ### The banks (R158, R170–R172) -/

/-- ECC_WRITEBACK (R158): a pending correction is written back. -/
def execEccWriteback (lc : Fin 64) (cw : Fin 786432) (s : State) : Res :=
  let m := (s.core lc).scp
  if m.wbPend.any (fun x => x.1 == cw.val) then .next (s.onScp lc (fun m => m.restore cw (m.poisoned cw))) else .next s

/-- Does a key of a table by code word lie in a section: 131,072 code words each (R170). -/
def cwIn (sec k : Nat) : Bool := k / 131072 == sec

/-- A section's contents are lost (R170). -/
def Scratch.lose (m : Scratch) (sec : Nat) : Scratch :=
  { m with
    bytes := m.bytes.filter (fun (a, _) => !cwIn sec (a / 32))
    durable := m.durable.filter (fun (a, _) => !cwIn sec a)
    poison := m.poison.filter (fun (a, _) => !cwIn sec a)
    flips := m.flips.filter (fun (a, _) => !cwIn sec a) }

/-- The words of writes an engine has begun and that have still to land: the reserved outputs of what D0–D3 and Q have
begun, and those that drain (R171). -/
def State.landing (s : State) (lc : Nat) : List (Nat × Nat) :=
  let co := s.core lc
  let far := [Eng.q, .d0, .d1, .d2, .d3].flatMap (fun e => (co.seq.eng e).begun.flatMap (s.outWords lc))
  let drain := match co.draining with
    | some (a, i) =>
      (match co.tongsLead a ((co.array a).tile i).cmd with
       | some b => s.outWords lc b
       | none => [])
    | none => []
  far ++ drain

/-- Are writes of a section in flight (R171): corrections to write back, its waking, writes in the remote-write port, and
what engines have begun. -/
def State.sectionInFlight (s : State) (lc sec : Nat) : Bool :=
  let m := (s.core lc).scp
  m.wbPend.any (fun x => cwIn sec x.1) || Tbl.get false m.waking sec
    || (runSections (m.port.map PortWrite.run ++ s.landing lc)).contains sec

/-- SECTION_POWER_ENTRY (R171): the section enters its requested state once nothing is in flight; while the domain is in
Retention every section is held as it is (R328). -/
def execSectionPowerEntry (lc : Fin 64) (sec : Fin 6) (s : State) : Res :=
  match Tbl.get none (s.core lc).scp.sectReq sec with
  | none => .next s
  | some t =>
    if s.sectionInFlight lc sec ∨ (s.dom (s.core lc).phys.toNat).st = .retention then .next s
    else
      .next (s.onScp lc (fun m =>
        let m := { m with sect := Tbl.set 0 m.sect sec t, sectReq := Tbl.set none m.sectReq sec none }
        if t = 2 then m.lose sec else m))

/-- SECTION_WAKE (R172): an access to a section that is not On begins its wake. -/
def execSectionWake (lc : Fin 64) (sec : Fin 6) (s : State) : Res :=
  if Tbl.get 0 (s.core lc).scp.sect sec = 0 then .next s
  else .next (s.onScp lc (fun m => m.wake [sec]))

/-- A section is On again; from Off every code word of it is poisoned. -/
def Scratch.woken (m : Scratch) (sec : Nat) : Scratch :=
  let off := Tbl.get 0 m.sect sec == 2
  let m := { m with sect := Tbl.set 0 m.sect sec 0, waking := Tbl.set false m.waking sec false }
  if off then { m with poison := upto (fun p i => Tbl.set false p (131072 * sec + i) true) m.poison 131072 } else m

/-- SECTION_WAKE_DONE (R172): the section is On, and what waited in the port for it is placed. -/
def execSectionWakeDone (lc : Fin 64) (sec : Fin 6) (s : State) : Res :=
  if !Tbl.get false (s.core lc).scp.waking sec then .next s
  else .next ((s.onScp lc (fun m => m.woken sec)).pumpPort lc)

end Sys2Proof.Machine
end

