-- ==== Sys2Proof/Machine/Regs.lean ====
section
/-! DEFINITION. The register map (R400–R407, R412): the STG registers with their blocks, reserved bits and reset
values, their two copies, and what a read of every register returns. -/

namespace Sys2Proof.Machine

/-! ### STG registers (R403, R406, R407) -/

/-- An STG register: its block, reserved bits, whether its fields are expert ones, its reset value. -/
structure Stg where
  block : Nat := 0
  reserved : Word := 0
  expert : Bool := false
  reset : Word := 0
  deriving DecidableEq, Repr

/-- Is `off` one of `n` registers `step` apart from `base`; which. -/
def nth? (off base step n : Nat) : Option Nat :=
  if base ≤ off ∧ (off - base) % step = 0 ∧ (off - base) / step < n then some ((off - base) / step) else none

/-- STG registers of the CFG, DBG, SCP and MEM blocks. -/
def stgLow (off : Nat) : Option Stg :=
  if off = 0x2010 then some { block := 1, reserved := 0xFFFFFE00, expert := true, reset := 0x40 }
  else if off = 0x3008 then some { reserved := 0xFFFFFFFC }
  else if off = 0x3020 then some { reserved := 0xFFFFFFF8 }
  else if off = 0x3024 ∨ off = 0x3028 then some {}
  else if off = 0x302C then some { reserved := 0xFE000000 }
  else if off = 0x4000 then some { reserved := 0xFFFFFFFE }
  else if (nth? off 0x010008B0 0x10000 64).isSome then some { block := 2, reserved := 0xFFFFF000, expert := true }
  else if (nth? off 0x02020018 0x100 16).isSome then some { block := 3, reserved := 0xFFFFFC00, expert := true, reset := 0x18 }
  else if off = 0x02021000 then some { block := 3, reserved := 0xFFFFFF00, reset := 0x18 }
  else none

/-- STG registers of a port, by offset in its block. -/
def stgPort (o : Nat) : Option Stg :=
  if o = 4 then some { block := 4, reserved := 0x8000, expert := true, reset := 0x77000005 }
  else if o = 8 then some { block := 4, expert := true }
  else if o = 0xC then some { block := 4, reserved := 0xFFFF0000, expert := true }
  else if o = 0x60 ∨ (nth? o 0x70 4 4).isSome then some { block := 4, expert := true }
  else none

/-- STG registers of the OFT block. -/
def stgOft (off : Nat) : Option Stg :=
  let r (reserved reset : Word) : Option Stg := some { block := 5, reserved := reserved, expert := true, reset := reset }
  if off = 0x03040000 then r 0x7FFC0000 0
  else if off = 0x03040004 then r 0xFFFF0000 0x5546
  else if off = 0x03040008 ∨ (nth? off 0x03040010 4 4).isSome then r 0 0
  else if off = 0x03040020 then r 0xF8 0x08100607
  else if off = 0x03040024 then r 0xFFFF0000 0xA
  else if (nth? off 0x03040028 4 3).isSome then r 0 0xFFFFFFFF
  else if off = 0x03040060 then r 0xFFFC0000 0x30008
  else if (nth? off 0x03040064 4 3).isSome then r 0 (ptpPortsReset ((off - 0x03040064) / 4))
  else if (nth? off 0x03041000 4 768).isSome ∧ (off - 0x03041000) % 0x20 < 0x10 then r 0 0
  else none

/-- The STG register at a BAR0 offset. -/
def stgReg (off : Nat) : Option Stg :=
  if off < 0x03000000 then stgLow off
  else if off < 0x03006000 then stgPort ((off - 0x03000000) % 0x100)
  else if off < 0x03042000 then stgOft off
  else if off = 0x04040004 then some { block := 6, reset := 0x012C1388 }
  else if (nth? off 0x04070000 8 256).isSome then some { block := 6, reserved := 0x3FFFFFFC }
  else if (nth? off 0x04070004 8 256).isSome then some { block := 6 }
  else if off = 0x05000000 then some { block := 7, reserved := 0xFFFF0000, reset := 0x1838 }
  else if off = 0x05000004 then some { block := 7, reserved := 0xFFFFFFF0, expert := true, reset := 8 }
  else if (nth? off 0x05001004 0x10 72).isSome then some { block := 7, reserved := 0xFFFFE000, expert := true, reset := 0x500 }
  else if (nth? off 0x06001004 0x10 72).isSome then some { block := 8, reserved := 0xFFFFFFF0, expert := true, reset := 0xB }
  else if off = 0x06010000 then some { block := 9, reserved := 0xFFFE0000, expert := true, reset := 0x1665F }
  else if off = 0x07000060 then some { block := 10, reserved := 0xFFFFFFE0 }
  else if off = 0x07000064 ∨ off = 0x07000068 then some { block := 10 }
  else if off = 0x0700006C then some { block := 10, reserved := 0xFFFF0000 }
  else none

/-- `n` offsets `step` apart from `base`. -/
def offs (base step n : Nat) : List Nat := (List.range n).map (fun i => base + step * i)

/-- Every STG register's offset, ascending. -/
def stgOffsets : List Nat :=
  [0x2010, 0x3008, 0x3020, 0x3024, 0x3028, 0x302C, 0x4000] ++ offs 0x010008B0 0x10000 64 ++ offs 0x02020018 0x100 16
    ++ [0x02021000]
    ++ (List.range 96).flatMap (fun p => [4, 8, 0xC, 0x60, 0x70, 0x74, 0x78, 0x7C].map (fun o => 0x03000000 + 0x100 * p + o))
    ++ [0x03040000, 0x03040004, 0x03040008] ++ offs 0x03040010 4 4 ++ [0x03040020, 0x03040024] ++ offs 0x03040028 4 3
    ++ [0x03040060] ++ offs 0x03040064 4 3
    ++ (List.range 96).flatMap (fun p => offs (0x03041000 + 0x20 * p) 4 4)
    ++ [0x04040004] ++ offs 0x04070000 4 512
    ++ [0x05000000, 0x05000004] ++ offs 0x05001004 0x10 72 ++ offs 0x06001004 0x10 72 ++ [0x06010000] ++ offs 0x07000060 4 4

/-- The applied copy of an STG register; zero elsewhere. -/
def State.appliedReg (s : State) (off : Nat) : Word :=
  match stgReg off with
  | some g => (Tbl.get none s.cfg.applied off).getD g.reset
  | none => 0

/-- The staged copy: what was staged since it last equalled the applied copy. -/
def State.stagedReg (s : State) (off : Nat) : Word := (Tbl.get none s.cfg.staged off).getD (s.appliedReg off)

/-- A write of a staged copy (R403); one equal to the applied copy stands as no difference. -/
def State.stage (s : State) (off : Nat) (v : Word) : State :=
  { s with cfg := { s.cfg with staged := Tbl.set none s.cfg.staged off (if v = s.appliedReg off then none else some v) } }

/-- A write of both copies (R9, R411). -/
def State.putBoth (s : State) (off : Nat) (v : Word) : State :=
  { s with cfg := { s.cfg with
      applied := Tbl.set none s.cfg.applied off (some v)
      staged := Tbl.set none s.cfg.staged off none } }

/-- The applied copy takes a value; what software staged stands (R403, R409). -/
def State.adoptReg (s : State) (off : Nat) (v : Word) : State :=
  let old := s.stagedReg off
  { s with cfg := { s.cfg with
      applied := Tbl.set none s.cfg.applied off (some v)
      staged := Tbl.set none s.cfg.staged off (if old = v then none else some old) } }

/-- DISCARD (R405): the staged copies equal the applied ones. -/
def State.discard (s : State) : State := { s with cfg := { s.cfg with staged := [] } }

/-- The registers of blocks in a mask whose staged copy differs. -/
def State.changed (s : State) (mask : BitVec 64) : List (Nat × Word) :=
  s.cfg.staged.filterMap (fun (off, v) =>
    match v, stgReg off with
    | some v, some g => if bit mask g.block ∧ v ≠ s.appliedReg off then some (off, v) else none
    | _, _ => none)

/-- EXPERT_ENABLE, applied copy. -/
def State.expertOn (s : State) : Bool := bit (s.appliedReg 0x4000) 0

/-! ### What a read returns (R13, R401) -/

/-- A register from its fields: (low bit, value). -/
def pack (l : List (Nat × Nat)) : Word := BitVec.ofNat 32 (sumNat (l.map (fun (i, v) => v * 2 ^ i)))

/-- Code of an abort reason and state in SEQ_GRP_INFO. -/
def GrpState.code : GrpState → Nat
  | .never => 0 | .opened => 1 | .committing => 2 | .resolved => 3

/-- Unconfirmed outgoing provisional transfers of a core. -/
def provOut (c : Core) : Nat :=
  sumNat (c.seq.engines.map (fun (_, e) => (e.begun.filter (fun b =>
    match b.xfer with
    | some x => x.prov && !x.touched && x.sent != 0
    | none => false)).length))

/-- CFG_PART_ID (R4). -/
def State.partId (s : State) : Word :=
  pack [(16, s.mgmt.partCode.toNat), (8, s.mgmt.stepping.toNat), (4, s.mgmt.tier.toNat)]

/-- DBG_FAULT_STAT (R283). -/
def State.faultStat (s : State) : Word := pack [(0, s.mgmt.faultCause.toNat), (4, b2n s.mgmt.faultActive)]

/-- CFG_START_STAT (R380). -/
def State.startStat (s : State) : Word :=
  let m := s.mgmt
  pack [(0, m.kind.toNat), (2, m.stage.toNat), (5, b2n m.imageB), (6, b2n m.fallback), (7, b2n m.recovery),
        (8, m.failCode.toNat), (16, m.duration.toNat)]

/-- Is some core throttled (R355). -/
def State.throttled (s : State) : Bool := (List.range 72).any (fun d => (s.dom d).bTh != 0)

/-- THM_STAT (R355). -/
def State.thmStat (s : State) : Word :=
  let m := s.thm
  pack [(0, m.calderaMax.toNat), (8, m.stackMax.toNat), (16, m.oeMax.toNat), (24, b2n s.throttled), (25, b2n m.trip),
        (26, b2n m.coolantOk), (27, b2n m.quenched)]

/-- PWR_STAT (R336). -/
def State.pwrStat (s : State) : Word :=
  let p := s.pwr
  pack [(0, p.inputW.toNat), (14, p.bubble.toNat), (24, b2n p.peak), (25, p.tiles.toNat)]

/-- The low word of a value, and the next. -/
def lo32 (v : Nat) : Word := BitVec.ofNat 32 v
def hi32 (v : Nat) : Word := BitVec.ofNat 32 (v / 2 ^ 32)

/-- The blocks with a staged copy that differs (R412). -/
def State.dirtyBlocks (s : State) : Nat :=
  sumNat ((List.range 11).map (fun b => if s.changed (BitVec.ofNat 64 (2 ^ b)) = [] then 0 else 2 ^ b))

/-- Management registers, below 0x0100_0000. -/
def State.readMgmt (s : State) (off : Nat) : Word :=
  let m := s.mgmt
  match nth? off 0x1000 4 64 with
  | some n => pack [(0, if (s.core n).mapState = 0 then 0 else (s.core n).phys.toNat), (8, (s.core n).mapState.toNat)]
  | none =>
    match nth? off 0x500C 4 16 with
    | some i => BitVec.ofNat 32 (leAt m.errData (4 * i) 4)
    | none =>
      if off = 0 then s.partId
      else if off = 0x2000 then s.faultStat
      else if off = 0x2004 then lo32 m.faultTime.toNat
      else if off = 0x2008 then m.faultTimeHi
      else if off = 0x200C then s.flash.faultCount
      else if off = 0x2014 then lo32 s.fab.handles.length
      else if off = 0x3000 then s.startStat
      else if off = 0x3004 then s.flash.startCount
      else if off = 0x3010 then
        pack [(0, m.up.toNat), (4, b2n m.primary2), (5, b2n m.standby), (6, m.mc0Restarts.toNat), (14, m.takeovers.toNat), (22, m.mc3Restarts.toNat)]
      else if off = 0x3014 then
        pack [(0, b2n s.flash.ok0), (1, b2n s.flash.ok1), (2, b2n (s.flash.ok0 && s.flash.ok1)), (3, b2n s.flash.wp)]
      else if off = 0x3030 then pack [(0, m.update.state.toNat), (3, m.update.percent.toNat), (16, m.update.err.toNat)]
      else if off = 0x4004 then pack [(0, s.cfg.reason.toNat), (8, b2n s.cfg.active.isSome), (9, b2n s.cfg.rejected)]
      else if off = 0x4008 then lo32 s.cfg.failOff.toNat
      else if off = 0x400C then s.cfg.count
      else if off = 0x4014 then lo32 s.dirtyBlocks
      else if off = 0x5000 then s.flash.logNext
      else if off = 0x5004 then m.errSel
      else if off = 0x5008 then pack [(0, b2n m.errReady), (1, b2n m.errGone)]
      else 0

/-- The sequencer part of a core block, below 0x0800 (R51, R91, R97, R141, R142). -/
def Core.readSeq (c : Core) (o : Nat) : Word :=
  let q := c.seq
  match nth? o 0x0240 4 16, nth? o 0x0300 4 10, nth? o 0x0340 4 32 with
  | some n, _, _ => Tbl.get 0 q.cregs n
  | _, some e, _ => (Tbl.get {} q.engines e : Engine).retired
  | _, _, some n =>
    if q.duncen then
      let x := q.queue n
      pack [(0, x.count (· == .ready)), (8, x.entries.length), (31, 1)]
    else 0
  | none, none, none =>
    if o = 0x200 then c.arrF.flags
    else if o = 0x204 then c.arrG0.flags
    else if o = 0x208 then c.arrG1.flags
    else if o = 0x20C then c.integ.vecFlags
    else if o = 0x210 then c.integ.redFlags
    else if o = 0x220 then q.errInfo
    else if o = 0x224 then q.errCmd
    else if o = 0x228 then pack [(0, b2n q.duncen)]
    else if o = 0x22C then lo32 q.waitDefault.toNat
    else if o = 0x280 then pack [(0, b2n q.stopEnable), (4, q.stopEngine.toNat), (8, b2n q.stopHit)]
    else if o = 0x284 then q.stopN
    else if o = 0x288 then lo32 (q.dumpBase.toNat / 4096 * 4096)
    else if o = 0x28C then pack [(0, q.dumpBase.toNat / 2 ^ 32), (31, b2n q.dumpValid)]
    else if 0x400 ≤ o ∧ o < 0x7C0 ∧ o % 4 = 0 then
      let k := (o - 0x400) / 0x60
      let j := (o - 0x400) % 0x60
      if j / 8 ≥ 11 then 0
      else if j % 8 = 0 then lo32 (Tbl.get 0 q.stalls (11 * k + j / 8) : DWord).toNat
      else Tbl.get 0 q.stallHi (11 * k + j / 8)
    else 0

/-- The scratchpad part of a core block (R152, R158, R167, R169, R173). -/
def Core.readScp (c : Core) (now o : Nat) : Word :=
  let q := c.seq
  let m := c.scp
  let w := q.win q.winSel
  if 0x800 ≤ o ∧ o < 0x880 then
    let g := q.seg ((o - 0x800) / 16)
    if o % 16 = 0 then lo32 g.base.toNat else if o % 16 = 4 then lo32 g.bound.toNat else if o % 16 = 8 then lo32 g.attr.toNat else 0
  else if 0x1000 ≤ o ∧ o < 0x2000 then
    let e : SrcSet := Tbl.get {} q.srcsets ((o - 0x1000) / 16)
    if o % 16 = 0 then lo32 e.nodeLo.toNat
    else if o % 16 = 4 then lo32 e.nodeHi.toNat
    else if o % 16 = 8 then pack [(0, e.coreLo.toNat), (8, e.coreHi.toNat), (31, b2n e.valid)]
    else 0
  else if o = 0x880 then pack [(0, q.winFirst.toNat), (12, q.winCount.toNat)]
  else if o = 0x884 then lo32 q.winSel.toNat
  else if o = 0x888 then pack [(0, b2n w.isOpen), (1, w.seg), (4, w.off)]
  else if o = 0x88C then pack [(0, w.len), (23, w.srcset), (31, b2n (w.quiet now))]
  else if o = 0x890 then pack [(0, w.gen.toNat), (16, w.reuse)]
  else if o = 0x894 then w.watermark
  else if o = 0x898 then q.winDrops
  else if o = 0x8A0 then m.eccCorr
  else if o = 0x8A4 then m.eccUncorr
  else if o = 0x8A8 then pack [(0, m.eccLast.toNat), (23, b2n m.eccLastUncorr), (24, b2n m.eccLastCode)]
  else if o = 0x8B4 then
    pack ((List.range 6).map (fun k => (2 * k, Tbl.get 0 m.sect k)) ++ (List.range 6).map (fun k => (12 + k, b2n (Tbl.get none m.sectReq k).isSome)))
  else if o = 0x8B8 then lo32 (m.pend.length + m.away.length)
  else 0

/-- A core block (R402). -/
def State.readCore (s : State) (n o : Nat) : Word :=
  let c := s.core n
  let q := c.seq
  let g := c.integ
  let x := q.grp q.grpSel
  if o < 0x800 then c.readSeq o
  else if o < 0x900 ∨ 0x1000 ≤ o then c.readScp s.clk.now o
  else if o < 0x940 then
    let r : DRange := Tbl.get {} q.dranges ((o - 0x900) / 8)
    if o % 8 = 0 then pack [(0, r.base.toNat), (20, b2n r.write), (21, b2n r.valid)] else if o % 8 = 4 then lo32 r.len.toNat else 0
  else if o = 0x940 then lo32 (s.outstanding n)
  else if o = 0x944 then q.capHits
  else if o = 0x948 then lo32 q.capSlice.toNat
  else if o = 0xA00 then pack [(0, b2n g.suspect), (1, g.cause.toNat)]
  else if o = 0xA04 then g.replays
  else if o = 0xA08 then pack [(0, g.lastEngine.toNat), (4, g.lastDetector.toNat), (7, b2n g.lastSecond)]
  else if o = 0xA0C then g.replayCmd
  else if o = 0xA10 then g.unchecked
  else if o = 0xA20 then lo32 (q.groups.filter (fun (_, y) => y.st == .opened || y.st == .committing)).length
  else if o = 0xA24 then lo32 q.grpSel.toNat
  else if o = 0xA28 then
    let members := sumNat ((List.range 10).map (fun e => if (Tbl.get {} q.engines e : Engine).curGrp = some q.grpSel then 2 ^ e else 0))
    pack [(0, x.st.code), (2, b2n x.aborted), (3, members), (13, x.reason)]
  else if o = 0xA2C then
    let k : GrpKey := .loc (BitVec.ofNat 6 n).toFin q.grpSel
    pack [(0, sumNat (s.mem.slices.map (fun (_, sl) => (sl.shadows.filter (fun y => y.key == k && !y.committed)).length))),
          (20, (c.scp.pend.filter (fun e => e.grp == q.grpSel)).length)]
  else if o = 0xA30 then lo32 (provOut c)
  else if o = 0xA34 then g.strikesTx
  else if o = 0xA38 then g.strikesRx
  else 0

/-- Crossbar, slice and stack registers (R198, R200). -/
def State.readMem' (s : State) (off : Nat) : Word :=
  if off = 0x02000000 then lo32 s.shadowCount
  else if off = 0x02000004 then lo32 (sumNat (s.mem.slices.map (fun (_, sl) => (sl.kept.filter (·.parked)).length)))
  else if off = 0x02000008 then lo32 s.mem.pendPeak.toNat
  else if 0x02010000 ≤ off ∧ off < 0x02011000 then
    let sl := s.slice ((off - 0x02010000) / 0x20)
    let o := off % 0x20
    if o = 0 then sl.hits else if o = 4 then sl.missCount else if o = 8 then sl.corr
    else if o = 0xC then pack [(0, (sl.kept.filter (fun x => !x.parked)).length), (14, (sl.kept.filter (·.parked)).length)]
    else 0
  else if 0x02020000 ≤ off ∧ off < 0x02021000 then
    let k := s.stk ((off - 0x02020000) / 0x100)
    let o := off % 0x100
    if o = 0 then k.corr else if o = 4 then k.uncorr else if o = 8 then k.rewrites
    else if o = 0xC then pack [(0, k.lastUnit.toNat), (30, k.lastKind.toNat)]
    else if o = 0x10 then lo32 k.lastTime.toNat
    else if o = 0x14 then k.lastTimeHi
    else if o = 0x1C then pack [(0, k.lanes.toNat), (8, k.rowsRepaired.toNat)]
    else if o = 0x20 then pack [(0, b2n k.hot)]
    else 0
  else 0

/-- STATE of a port (R221). -/
def PortSt.code : PortSt → Nat
  | .disabled => 0 | .training => 1 | .up => 2 | .down => 3 | .quenched => 4 | .noPosition => 5

/-- Port registers (R221). -/
def State.readPort (s : State) (p o : Nat) : Word :=
  let q := s.port p
  match nth? o 0x40 4 4 with
  | some k => lo32 (s.laneWord p k).toNat
  | none =>
    if o = 0 then
      pack [(0, if (q.rxLf || q.rxRf) && q.st == .training then 3 else q.st.code), (3, b2n q.rxLf), (4, b2n q.rxRf), (5, b2n q.txLf), (6, q.los.toNat), (10, b2n q.hiSer), (11, b2n q.subst), (12, q.pos.toNat)]
    else if o = 0x10 then q.fecCorr
    else if o = 0x14 then q.fecUncorr
    else if o = 0x18 then q.fcsErr
    else if o = 0x1C then q.rxDrop
    else if o = 0x20 then q.linkDowns
    else if o = 0x24 then q.pfcRx
    else if o = 0x28 then q.pfcTx
    else if o = 0x30 then lo32 q.txBytes.toNat
    else if o = 0x34 then q.txHi
    else if o = 0x38 then lo32 q.rxBytes.toNat
    else if o = 0x3C then q.rxHi
    else if o = 0x50 then pack [(0, (s.tsDelay p).1.toNat), (16, (s.tsDelay p).2.toNat)]
    else 0

/-- Optical engine registers (R222). -/
def State.readOptic (s : State) (n o : Nat) : Word :=
  let x := s.optic n
  if o = 0 then pack [(0, x.good.toNat), (13, x.spare.toNat), (17, b2n x.powered)]
  else if o = 4 then pack [(0, x.logFrom.toNat), (4, x.logTo.toNat), (8, x.logReason.toNat)]
  else 0

/-- Transport registers (R253). -/
def State.readOft (s : State) (off : Nat) : Word :=
  let f := s.fab
  if off = 0x03040040 then lo32 (f.flows.filter (fun (_, x) => x.st != .free)).length
  else if off = 0x03040044 then lo32 f.peers.length
  else if off = 0x03040048 then f.setupRefused
  else if off = 0x0304004C then f.evicted
  else if off = 0x03040050 then f.aged
  else if off = 0x03040070 then pack [(0, b2n f.ptpLocked), (1, f.slavePort.toNat), (8, b2n f.holdover)]
  else if off = 0x03040074 then f.ptpOffset
  else if 0x03040100 ≤ off ∧ off < 0x03040180 then
    let n := (off - 0x03040100) / 16
    let o := off % 16
    if o = 0 then Tbl.get 0 f.hits n else if o = 4 then Tbl.get 0 f.misses n else if o = 8 then Tbl.get 0 f.retx n
    else if o = 12 then Tbl.get 0 f.rtos n else 0
  else 0

/-- A device-to-host message's slots. -/
def slotsOf (n : Nat) : Nat := ceilDiv n 64
/-- Occupied slots of the held ring (R319). -/
def heldSlots (h : List Held) : Nat := sumNat (h.map (fun m => slotsOf m.bytes.length))

/-- Mailbox registers of a pair (R299, R303), by offset in the pair. -/
def State.readPair (s : State) (n o : Nat) : Word :=
  let p := s.pair n
  if o < 0x1000 then BitVec.ofNat 32 (leNat (Mem.readN p.h2d o 4))
  else if o < 0x2000 then BitVec.ofNat 32 (leNat (Mem.readN p.d2h (o - 0x1000) 4))
  else if o = 0x2000 then p.h2dProd
  else if o = 0x2004 then p.h2dCons
  else if o = 0x2008 then p.d2hProd
  else if o = 0x200C then p.d2hCons
  else if o = 0x2010 then pack [(0, b2n p.enable), (1, b2n p.irqEn)]
  else if o = 0x2014 then pack [(0, b2n p.halted), (16, p.haltCode.toNat)]
  else if o = 0x2018 then lo32 (s.host.held.filter (fun m => m.pair == n)).length
  else 0

/-- Are the crossbar and slices up: stage 2 of the latest start is complete (R289, R366). -/
def State.crossbarUp (s : State) : Bool := s.mgmt.stage == 5 || s.mgmt.stage == 6

/-- Is CXL.cache in service (R289): Cache_Enable set, under CXL, the crossbar up. -/
def State.cacheServes (s : State) : Bool := s.host.cacheEn && s.host.linkUp && !s.host.pcie && s.crossbarUp

/-- CFG_CXL_STAT (R294). -/
def State.cxlStat (s : State) : Word :=
  let h := s.host
  pack [(0, h.rate.toNat), (2, b2n h.x8), (3, b2n h.flit256), (4, b2n h.pcie), (5, b2n s.cacheServes), (6, b2n h.memActive),
        (7, b2n (h.linkUp && !h.flit256))]

/-- Device-wide host registers. -/
def State.readHost (s : State) (off : Nat) : Word :=
  if off = 0x04040000 then lo32 s.host.hostState.toNat
  else if off = 0x04040008 then pack [(0, heldSlots s.host.held), (31, b2n s.host.faultsMerged)]
  else if off = 0x04061000 then lo32 s.host.msixPend.toNat
  else if off = 0x04071000 then s.cxlStat
  else if off = 0x04071004 then s.host.bisnpCount
  else
    match nth? off 0x04060000 4 64 with
    | some i => Tbl.get 0 s.host.msixTable i
    | none => 0

/-- STATE of a domain (R337). -/
def DomSt.code : DomSt → Nat
  | .off => 0 | .retention => 1 | .on => 2 | .dark => 3

/-- Was a core's clock stretched within the last 10 µs (R354). -/
def Domain.drooped (x : Domain) (now : Nat) : Bool :=
  match x.droopAt with
  | some t => now < t + 10000
  | none => false

/-- A domain's output in mV at a time: on its way to the target at 10 mV per µs (R341). -/
def Domain.output (x : Domain) (now : Nat) : Nat :=
  let k := (now - x.slewAt) / 100
  if x.slewFrom.toNat ≤ x.vMv.toNat then min x.vMv.toNat (x.slewFrom.toNat + k) else max x.vMv.toNat (x.slewFrom.toNat - k)

/-- Has a raised output come within 5 mV of its target, with no period stretched for 10 µs: the clock has switched
(R341, R344). -/
def Domain.raised (x : Domain) (now : Nat) : Bool := decide (x.vMv.toNat ≤ x.output now + 5) && !x.drooped now

/-- The step of a core's clock at a time. -/
def Domain.stepAt (x : Domain) (now : Nat) : BitVec 4 :=
  match x.raiseTo with
  | some k => if x.raised now then k else x.fstep
  | none => x.fstep

/-- A domain with a raise that has come to its end by now. -/
def Domain.settled (x : Domain) (now : Nat) : Domain :=
  if x.raised now then { x with fstep := x.stepAt now, raiseTo := none } else x

/-- PENDING (R341, R344): a change of step waits, or its slew has still to end. -/
def Domain.changing (x : Domain) (now : Nat) : Bool :=
  x.pending || (x.settled now).raiseTo.isSome || (x.stepSlew && x.output now != x.vMv.toNat)

/-- An output that stands at a value. -/
def Domain.setV (x : Domain) (v : BitVec 10) : Domain := { x with vMv := v, slewFrom := v, raiseTo := none, stepSlew := false }

/-- V_fit of a core domain at a frequency step, with what Temper has added (R323, R327). -/
def State.vfitAt (s : State) (d step : Nat) : Nat := Config.vfit d step + (s.dom d).trim

/-- Power registers (R336, R337). -/
def State.readPwr (s : State) (off : Nat) : Word :=
  let p := s.pwr
  if off = 0x05000008 then s.pwrStat
  else if off = 0x0500000C then lo32 p.inputMv.toNat
  else if off = 0x05000010 then lo32 (p.energyUj / 1000)
  else if off = 0x05000014 then p.energyHi
  else if off = 0x05000018 then lo32 p.damperUs.toNat
  else if off = 0x0500001C then p.damperHi
  else
    match nth? off 0x05000100 4 16 with
    | some t => pack [(0, (Tbl.get 0 p.tileW t : BitVec 10).toNat), (10, b2n (bit p.tilesBad t))]
    | none =>
      if 0x05001000 ≤ off ∧ off < 0x05001590 then
        let d := (off - 0x05001000) / 16
        let x := s.dom d
        let o := off % 16
        if o = 0 then
          pack [(0, x.output s.clk.now), (10, x.amps.toNat), (18, x.phases.toNat), (23, x.st.code), (25, b2n x.crack), (26, b2n x.short)]
        else if o = 8 then (if d < 72 then
            let fit : BitVec 10 := if x.st = .on then BitVec.ofNat 10 (s.vfitAt d (x.stepAt s.clk.now).toNat) else x.vfit
            pack [(0, x.margin.toNat), (16, fit.toNat)] else 0)
        else if o = 12 then pack [(0, x.rBase.toNat), (16, x.rNow.toNat)]
        else 0
      else 0

/-- Clock registers (R354). -/
def State.readClk (s : State) (off : Nat) : Word :=
  let c := s.clk
  if off = 0x06000000 then pack [(0, c.refLost.toNat), (4, c.everLost.toNat)]
  else if off = 0x06000004 then lo32 c.now
  else if off = 0x06000008 then c.timeHi
  else if off = 0x0600000C then lo32 c.timeFracLatched.toNat
  else if off = 0x06000010 then pack [(0, c.maxErr.toNat), (8, c.steps.toNat)]
  else if 0x06001000 ≤ off ∧ off < 0x06001480 then
    let x := s.dom ((off - 0x06001000) / 16)
    let o := off % 16
    if o = 0 then
      pack [(0, (x.stepAt c.now).toNat), (4, x.ftarget.toNat), (8, b2n (x.changing c.now)), (9, b2n (x.drooped c.now)), (10, x.ffit.toNat)]
    else if o = 8 then x.stretches
    else 0
  else 0

/-- Thermal registers (R355). -/
def State.readThm (s : State) (off : Nat) : Word :=
  if off = 0x06010004 then s.thmStat
  else if off = 0x06010008 then s.thm.glitch
  else
    match nth? off 0x06010100 4 176, nth? off 0x06011000 4 72 with
    | some i, _ => lo32 (Tbl.get 0 s.thm.sense i : BitVec 12).toNat
    | _, some d => let x := s.dom d; pack [(0, x.bTh.toNat), (10, b2n x.parkPending), (11, b2n x.parked)]
    | none, none => 0

/-- Security registers (R399). -/
def State.readSec (s : State) (off : Nat) : Word :=
  let c := s.sec
  let has (f : Licence → List Byte) : Bool := match c.licence with
    | some l => (f l).any (· != 0)
    | none => false
  if off = 0x07000000 then
    pack [(0, c.level.toNat), (2, b2n (has (·.owner))), (3, b2n (has (·.verifier))), (4, c.pwFails.toNat), (7, b2n c.pwLocked), (8, b2n c.signReady)]
  else if off = 0x07000004 then c.signNext
  else if off = 0x07000008 then c.signReserved
  else if off = 0x0700000C then lo32 ((c.licence.map Licence.number).getD 0).toNat
  else if off = 0x07000010 then c.numHi
  else
    match nth? off 0x07000020 4 8, nth? off 0x07000040 4 8 with
    | some i, _ => Tbl.get 0 c.nonce i
    | _, some i => BitVec.ofNat 32 (leAt c.idHash (4 * i) 4)
    | none, none => 0

/-- The GO bits read back 0 (R380, R399). -/
def noGo (off : Nat) (v : Word) : Word :=
  if off = 0x3020 then clrBit v 2 else if off = 0x07000060 then clrBit v 0 else v

/-- A read of BAR0 (R401, R403), its side effects apart: an STG register reads its staged copy, the mirror reads
applied copies, an offset not listed reads zero. -/
def State.readReg (s : State) (off : Nat) : Word :=
  if off % 4 ≠ 0 then 0
  else if 0x08000000 ≤ off then noGo (off - 0x08000000) (s.appliedReg (off - 0x08000000))
  else if (stgReg off).isSome then noGo off (s.stagedReg off)
  else if off < 0x01000000 then s.readMgmt off
  else if off < 0x01400000 then s.readCore ((off - 0x01000000) / 0x10000) (off % 0x10000)
  else if off < 0x03000000 then s.readMem' off
  else if off < 0x03006000 then s.readPort ((off - 0x03000000) / 0x100) (off % 0x100)
  else if 0x03008000 ≤ off ∧ off < 0x03008200 then s.readOptic ((off - 0x03008000) / 0x40) (off % 0x40)
  else if off < 0x04000000 then s.readOft off
  else if off < 0x04040000 then s.readPair ((off - 0x04000000) / 0x4000) (off % 0x4000)
  else if off < 0x05000000 then s.readHost off
  else if off < 0x06000000 then s.readPwr off
  else if off < 0x06010000 then s.readClk off
  else if off < 0x07000000 then s.readThm off
  else if off < 0x08000000 then s.readSec off
  else 0

end Sys2Proof.Machine
end

