-- ==== Sys2Proof/Machine/Host.lean ====
section
/-! DEFINITION. The host's link and the mailboxes (R284–R309, R318–R320): the CXL link and its resets, decoders,
the scan and its checks, responses and unsolicited messages, the held ring, and the messages about the host
itself. -/

namespace Sys2Proof.Machine

/-! ### The link (R284–R289) -/

/-- The device is in HOST_ABSENT (R318). -/
def State.enterAbsent (s : State) : State :=
  if s.host.hostState = 0 then { s with host := { s.host with hostState := 1, absentAt := s.clk.now } } else s

/-- The applied VALID bit of every aperture entry is cleared (R288). -/
def State.dropAperture (s : State) : State :=
  (List.range 256).foldl (fun s i =>
    let off := 0x04070000 + 8 * i
    let v := s.appliedReg off
    if bit v 0 then s.adoptReg off (clrBit v 0) else s) s

/-- A mailbox pair is reset; the counts of messages on its rings go on (R288, R320). -/
def Pair.resetBy (p : Pair) : Pair := { seqOut := p.seqOut, minor := p.minor }

/-- What CXL_PERST_N, a hot reset, a Function Level Reset or a link down resets (R288), and nothing else. -/
def State.hostReset (s : State) : State :=
  let s := s.dropAperture
  let f (sl : Slice) : Slice :=
    { sl with
      snoops := []
      bisnp := []
      held := sl.held.filter (fun h => h.at_.1 != .cxl) }
  let s := { s with mem := { s.mem with slices := Tbl.mapv {} f s.mem.slices } }
  let s := s.mem.slices.foldl (fun s (n, _) => s.sliceGo n) s
  let s := { s with host := { s.host with
    linkUp := false
    rate := 0
    x8 := false
    flit256 := false
    pcie := false
    cacheEn := false
    dec0 := {}
    dec1 := {}
    msixTable := []
    msixPend := 0
    pairs := Tbl.mapv {} Pair.resetBy s.host.pairs } }
  s.enterAbsent

/-- CXL_PERST_ASSERT (R288). -/
def execCxlPerstAssert (s : State) : Res :=
  if s.pins.perstN then .next (({ s with pins := { s.pins with perstN := false } } : State).hostReset) else .next s

/-- CXL_PERST_RELEASE (R289): the link may train. -/
def execCxlPerstRelease (s : State) : Res :=
  if s.pins.vddio33 then .next { s with pins := { s.pins with perstN := true } } else .next s

/-- HOT_RESET (R288). -/
def execHotReset (s : State) : Res := if s.host.linkUp then .next s.hostReset else .next s

/-- FUNCTION_LEVEL_RESET (R288). -/
def execFunctionLevelReset (s : State) : Res := if s.host.linkUp then .next s.hostReset else .next s

/-- CXL_LINK_DOWN (R288). -/
def execCxlLinkDown (s : State) : Res := if s.host.linkUp then .next s.hostReset else .next s

/-- CXL_LINK_UP (R284, R285, R287): the best both ends support; 64 GT/s always in 256 B flits; a host that trains
no CXL, and anything below 16 GT/s or narrower than x8 (`rateMax` 0), gets PCI Express, whose RATE the table gives
no code below 16 GT/s. -/
def execCxlLinkUp (rateMax : Fin 4) (x8 flit256 cxl : Bool) (s : State) : Res :=
  if !s.pins.perstN || !s.pins.pwrGood || s.host.linkUp || bit s.clk.refLost 3 then .next s
  else
    let fallback : Bool := !cxl || rateMax == 0
    let (v, s) := if rateMax = 0 then s.fresh else (BitVec.ofNat 64 rateMax.val, s)
    .next { s with host := { s.host with
      linkUp := true
      rate := v.setWidth 2
      x8 := x8
      flit256 := !fallback && (rateMax == 3 || flit256)
      pcie := fallback } }

/-- CONFIGURATION_REQUEST (R287, R289): retried until MC0 has written CFG_PART_ID; the Device ID is PART_CODE, the
class code of the fallback 0x12_0000. -/
def execConfigurationRequest (off : BitVec 12) (s : State) : Res :=
  if !s.host.linkUp then .next s
  else
    let v := Config.pciConfig off
    let r : CxlOut :=
      if s.mgmt.partCode = 0 then .cfgCrs off
      else if off = 0 then .cfgData off (BitVec.ofNat 32 (fld v 0 16 + s.mgmt.partCode.toNat * 65536))
      else if off = 8 ∧ s.host.pcie then .cfgData off (BitVec.ofNat 32 (fld v 0 8 + 0x12000000))
      else .cfgData off v
    .next { s with host := { s.host with out := s.host.out ++ [r] } }

/-- CACHE_ENABLE (R289). -/
def execCacheEnable (s : State) : Res :=
  if s.host.linkUp && !s.host.pcie then .next { s with host := { s.host with cacheEn := true } } else .next s

/-- HOST_SNOOP (R295): the device holds no host line. -/
def execHostSnoop (addr : BitVec 64) (s : State) : Res :=
  if s.cacheServes then .next { s with host := { s.host with out := s.host.out ++ [.rspIHitI addr] } } else .next s

/-- Do two ranges meet. -/
def rangesMeet (a n b m : Nat) : Bool := a < b + m && b < a + n

/-- HDM_DECODER_COMMIT (R285, R291): maps the range, or fails with Error Not Committed. The registers hold multiples
of 256 MiB. -/
def execHdmDecoderCommit (n : Fin 2) (hpa dpa size ways : Nat) (s : State) : Res :=
  let h := s.host
  if !h.linkUp || !h.flit256 || !h.memActive then .next s
  else
    let cut (v : Nat) : Nat := v / 2 ^ 28 * 2 ^ 28
    let d : Decoder := { hpa := cut hpa, dpa := cut dpa, size := cut size }
    let o := if n = 0 then h.dec1 else h.dec0
    let bad : Bool := ways != 1 || d.dpa + d.size > 2 ^ 39 ||
      (o.committed && (rangesMeet d.dpa d.size o.dpa o.size || rangesMeet d.hpa d.size o.hpa o.size))
    let d := if bad then { d with error := true } else { d with committed := true }
    .next { s with host := if n = 0 then { h with dec0 := d } else { h with dec1 := d } }

/-! ### Messages (R300, R304, R305) -/

/-- A message with its count and CRC still to come: MAJOR 1, MINOR, TYPE, LEN, JOB, payload. -/
def mkMsg (minor : Byte) (type job : Nat) (payload : List Byte) : List Byte :=
  [1, minor] ++ toLE 2 type ++ toLE 2 (16 + payload.length) ++ toLE 2 job ++ toLE 8 0 ++ payload

/-- A message with its SEQ and CRC (R304, R305). -/
def sealMsg (seq : Word) (m : List Byte) : List Byte :=
  let m := m.take 8 ++ toLE 4 seq.toNat ++ toLE 4 0 ++ m.drop 16
  m.take 12 ++ toLE 4 (crc32c m) ++ m.drop 16

/-- Read `n` bytes of a ring from a slot, round its end. -/
def ringRead (r : Memory) (slot : Word) (n : Nat) : List Byte :=
  (List.range n).map (fun i => Memory.read r ((slot.toNat % 64 * 64 + i) % 4096))

/-- Write bytes of a ring from a slot, round its end. -/
def ringWrite (r : Memory) (slot : Word) (m : List Byte) : Memory :=
  (m.foldl (fun (r, i) b => (Memory.write r ((slot.toNat % 64 * 64 + i) % 4096) b, i + 1)) (r, 0)).1

/-- Free slots of the device-to-host ring. -/
def Pair.freeSlots (p : Pair) : Nat := 64 - (p.d2hProd - p.d2hCons).toNat

/-- Put a message on the device-to-host ring (R300): slots first, index second. -/
def Pair.putMsg (p : Pair) (m : List Byte) : Pair :=
  let m := sealMsg p.seqOut m
  { p with
    d2h := ringWrite p.d2h p.d2hProd m
    d2hProd := p.d2hProd + BitVec.ofNat 32 (slotsOf m.length)
    seqOut := p.seqOut + 1
    wrote := true }

/-! ### The held ring (R318, R319) -/

/-- Slots of the held ring that messages of a kind occupy. -/
def heldOf (h : List Held) (f : Held → Bool) : Nat := heldSlots (h.filter f)

/-- Is a message neither JOB_COMPLETE nor DEVICE_FAULT: outside the reserve. -/
def Held.plain (m : Held) : Bool := !m.isFault && !m.isComplete

/-- Is there room outside the reserve. -/
def heldRoom (h : List Held) (n : Nat) : Bool := heldOf h Held.plain + n ≤ 60384

/-- Does a held DEVICE_FAULT list no job. -/
def Held.empty (m : Held) : Bool := leAt m.bytes 18 2 == 0

/-- Drop the first message that satisfies a test. -/
def dropFirst (f : Held → Bool) : List Held → List Held
  | [] => []
  | m :: r => if f m then r else m :: dropFirst f r

/-- Discard held DEVICE_FAULT reports, those that list no job first, oldest first, until `n` slots fit in the
reserve of 1,056; the fuel is the number held. -/
def mergeFaults (n : Nat) : Nat → List Held → List Held × Bool
  | 0, h => (h, false)
  | k + 1, h =>
    if heldOf h (·.isFault) + n ≤ 1056 then (h, false)
    else
      let f (m : Held) : Bool := m.isFault && m.empty
      (((mergeFaults n k (if h.any f then dropFirst f h else dropFirst (·.isFault) h))).1, true)

/-- A message joins the held ring. -/
def State.hold (s : State) (m : Held) : State :=
  let (h, merged) := if m.isFault then mergeFaults (slotsOf m.bytes.length) s.host.held.length s.host.held
    else (s.host.held, false)
  { s with host := { s.host with held := h ++ [m], faultsMerged := s.host.faultsMerged || merged } }

/-- May a message of `n` slots go straight to a pair's ring: the pair is enabled, nothing is held for it, and its
ring has room. -/
def State.ringOpen (s : State) (n slots : Nat) : Bool :=
  let p := s.pair n
  p.enable && !s.host.held.any (fun m => m.pair == n) && slots ≤ p.freeSlots

/-- Can a message outside the reserve be placed (R308). -/
def State.canPlace (s : State) (n slots : Nat) : Bool := s.ringOpen n slots || heldRoom s.host.held slots

/-- Place a response: in the pair's ring, or else in the held ring (R308). -/
def State.placeResp (s : State) (n : Nat) (m : List Byte) : State :=
  if s.ringOpen n (slotsOf m.length) then s.onPair n (fun p => p.putMsg m)
  else s.hold { pair := n, bytes := m }

/-- Place an unsolicited message: the held ring takes it while the host is absent (R318, R319). -/
def State.placeMsg (s : State) (m : Held) : State :=
  if s.host.hostState = 0 && s.ringOpen m.pair (slotsOf m.bytes.length) then s.onPair m.pair (fun p => p.putMsg m.bytes)
  else s.hold m

/-- HELD_MESSAGE_DELIVERY (R320): the oldest message held for an enabled pair, as its ring has room. -/
def execHeldMessageDelivery (p : Fin 16) (s : State) : Res :=
  match s.host.held.find? (fun m => m.pair == p.val) with
  | none => .next s
  | some m =>
    if s.host.hostState = 0 ∧ (s.pair p).enable ∧ slotsOf m.bytes.length ≤ (s.pair p).freeSlots then
      .next (({ s with host := { s.host with held := dropFirst (fun x => x.pair == p.val) s.host.held } }).onPair p
        (fun q => q.putMsg m.bytes))
    else .next s

/-! ### The scan (R301, R302, R307) -/

/-- Are mailboxes served (R289, R362, R372, R373): by MC0 until the schedulers run, then by the primary. -/
def State.mailboxesServed (s : State) : Bool :=
  s.mgmt.partCode != 0 && !s.mgmt.recovery &&
    (if s.mgmt.stage = 6 then bit s.mgmt.up (if s.mgmt.primary2 then 2 else 1) else bit s.mgmt.up 0)

/-- Does MC0 run. -/
def State.mc0Up (s : State) : Bool := bit s.mgmt.up 0

/-- Whole-message length of a type's response (R309). -/
def respLen (type : Nat) : Nat :=
  if type = 0x01 then 64 else if type = 0x02 then 40
  else if type = 0x03 ∨ type = 0x11 ∨ type = 0x20 ∨ type = 0x40 then 28
  else if type = 0x30 then 25 else 24

/-- Fields of a found message. -/
def Found.minor (f : Found) : Byte := f.bytes.getD 1 0
def Found.type (f : Found) : Nat := leAt f.bytes 2 2
def Found.job (f : Found) : Nat := leAt f.bytes 6 2
def Found.seq (f : Found) : Nat := leAt f.bytes 8 4

/-- A response to a message (R308), the type-specific part filled with zeros to the type's length. -/
def respMsg (f : Found) (status detail : Nat) (job : Nat) (extra : List Byte) : List Byte :=
  mkMsg f.minor (Nat.lor f.type 0x8000) job
    (toLE 4 f.seq ++ toLE 2 status ++ toLE 2 detail ++ bytesAt extra 0 (respLen f.type - 24))

/-- A message is consumed: every message that reaches step 5 is. -/
def Pair.consumeMsg (p : Pair) (f : Found) : Pair :=
  { p with h2dCons := p.h2dCons + BitVec.ofNat 32 f.slots, found := none }

/-- Request types of R309; those of pair 0 alone; those that name a job (R435). -/
def reqTypes : List Nat := [0x01, 0x02, 0x03, 0x10, 0x11, 0x20, 0x21, 0x30, 0x31, 0x40, 0x41, 0x50, 0x51]
def pairZeroTypes : List Nat := [0x02, 0x03, 0x10, 0x20, 0x21]
def jobTypes : List Nat := [0x41, 0x50, 0x51]

/-- Is LEN the type's length. -/
def lenOk (type len : Nat) : Bool :=
  if type = 0x01 ∨ type = 0x03 ∨ type = 0x41 ∨ type = 0x51 then len == 16
  else if type = 0x02 ∨ type = 0x21 then len == 24
  else if type = 0x10 ∨ type = 0x40 then len == 36
  else if type = 0x11 then len == 60
  else if type = 0x20 then 24 ≤ len && len % 8 == 0
  else if type = 0x30 then len == 32
  else if type = 0x31 then len == 17
  else len == 88

/-- Are bytes [a, b) of a message zero. -/
def zeroBytes (m : List Byte) (a b : Nat) : Bool := leAt m a (b - a) == 0

/-- Is a reserved field of a message non-zero (R14, R406). -/
def msgReserved (type : Nat) (m : List Byte) : Bool :=
  if type = 0x10 ∨ type = 0x40 then !zeroBytes m 17 24
  else if type = 0x21 then leAt m 16 8 ≥ 2 ^ 11
  else if type = 0x30 then leAt m 17 1 ≥ 2 || !zeroBytes m 18 24
  else if type = 0x50 then leAt m 17 1 ≥ 2 || !zeroBytes m 18 24
  else false

/-- Does a field of a message lie outside its range (R309, R314, R388, R435). -/
def msgRange (type job : Nat) (m : List Byte) : Bool :=
  let jobBad : Bool := if jobTypes.contains type then job > 4095 else job != 0xFFFF
  jobBad ||
  (if type = 0x10 ∨ type = 0x40 then
    let space := leAt m 16 1
    let a := leAt m 24 8
    let n := leAt m 32 4
    space > 1 || a % 64 != 0 || (space == 0 && !inDram a n) || (type == 0x40 && n > 0x1000000)
  else if type = 0x11 then leAt m 48 8 % 64 != 0 || leAt m 56 4 < 7336
  else if type = 0x30 then leAt m 16 1 > 7
  else if type = 0x31 ∨ type = 0x50 then leAt m 16 1 > 63
  else false)

/-- Steps 5 to 8 of R307: the error a message meets. -/
def msgErr (minorMax : Byte) (pair : Nat) (m : List Byte) : Option Nat :=
  let type := leAt m 2 2
  if (m.getD 1 0).toNat > minorMax.toNat then some eMbxVersion
  else if !reqTypes.contains type then some eMbxType
  else if pair ≠ 0 ∧ pairZeroTypes.contains type then some eMbxPriv
  else if !lenOk type m.length then some eMbxLength
  else if msgReserved type m then some eReserved
  else if msgRange type (leAt m 6 2) m then some eMbxRange
  else none

/-- Steps 1 to 4 of R307: the error that halts a pair. -/
def Pair.haltErr (p : Pair) : Option Nat :=
  let avail := (p.h2dProd - p.h2dCons).toNat
  let hdr := ringRead p.h2d p.h2dCons 16
  let len := leAt hdr 4 2
  if avail > 64 then some eMbxIndex
  else if hdr.getD 0 0 ≠ 1 then some eMbxVersion
  else if len < 16 ∨ len > 1024 ∨ slotsOf len > avail then some eMbxLength
  else
    let m := ringRead p.h2d p.h2dCons len
    if crc32c (m.take 12 ++ toLE 4 0 ++ m.drop 16) ≠ leAt m 12 4 then some eMbxCrc else none

/-- A pair halts and MC1 writes MSG_REJECT (R307). -/
def State.haltPair (s : State) (n code : Nat) : State :=
  let p := s.pair n
  let hdr := ringRead p.h2d p.h2dCons 16
  let m := mkMsg p.minor 0xFF 0xFFFF (bytesAt hdr 8 4 ++ toLE 2 code ++ toLE 2 0 ++ hdr)
  (s.onPair n (fun p => { p with halted := true, haltCode := BitVec.ofNat 16 code })).placeMsg { pair := n, bytes := m }

/-- MC1 looks at the head of a pair's ring: a message that fails a check is answered or halts the pair, one that
passes stands found until its own command runs. A message waits in its slots where its answer has no room. -/
def State.scanPair (n : Nat) : Nat → State → State
  | 0, s => s
  | k + 1, s =>
    let p := s.pair n
    if !p.enable || p.halted || p.found.isSome || p.h2dProd == p.h2dCons || !s.canPlace n 1 then s
    else
      match p.haltErr with
      -- while the host is away MSG_REJECT needs a place in the held ring
      | some code => if s.host.hostState != 0 && !heldRoom s.host.held 1 then s else s.haltPair n code
      | none =>
        let len := leAt (ringRead p.h2d p.h2dCons 16) 4 2
        let f : Found := { bytes := ringRead p.h2d p.h2dCons len, slots := slotsOf len }
        match msgErr s.mgmt.minorMax n f.bytes with
        | some code =>
          State.scanPair n k ((s.onPair n (fun p => p.consumeMsg f)).placeResp n (respMsg f code 0 f.job []))
        | none => s.onPair n (fun p => { p with found := some f })

/-- Is an MSI-X vector masked by its table entry. -/
def State.vectorMasked (s : State) (n : Nat) : Bool := bit (Tbl.get 0 s.host.msixTable (4 * n + 3)) 0

/-- Send a vector, or leave it pending while it is masked. -/
def State.sendVector (s : State) (n : Nat) : State :=
  if s.vectorMasked n then { s with host := { s.host with msixPend := setBit s.host.msixPend n } }
  else { s with host := { s.host with out := s.host.out ++ [.msix n] } }

/-- The vector of a pair that messages were written to (R302). -/
def State.vectorOf (s : State) (n : Nat) : State :=
  let p := s.pair n
  if !p.wrote then s
  else
    let s := s.onPair n (fun p => { p with wrote := false })
    if p.irqEn then s.sendVector n else s

/-- MBX_SCAN (R301, R302, R307). -/
def execMbxScan (t : Nat) (s : State) : Res :=
  let s := s.at_ t
  if !s.mailboxesServed then .next s
  else
    let s := (List.range 16).foldl (fun s n => State.scanPair n 64 s) s
    .next ((List.range 16).foldl State.vectorOf s)

/-! ### Answering (R306, R308, R318) -/

/-- The message of a type found on a pair, its answer's room assured. -/
def State.found? (s : State) (n type : Nat) : Option Found :=
  match (s.pair n).found with
  | some f => if f.type = type ∧ s.mailboxesServed ∧ s.canPlace n 1 then some f else none
  | none => none

/-- A request is accepted: its MINOR becomes the pair's, and on pair 0 the host's timer starts again. -/
def State.accepted (s : State) (n : Nat) (f : Found) : State :=
  let s := s.onPair n (fun p => { p with minor := f.minor })
  if n = 0 then { s with host := { s.host with lastMsg := s.clk.now } } else s

/-- Answer a request, which is consumed. -/
def State.answerWith (s : State) (n : Nat) (f : Found) (status detail job : Nat) (extra : List Byte) : State :=
  let s := s.onPair n (fun p => p.consumeMsg f)
  let s := if status = 0 then s.accepted n f else s
  s.placeResp n (respMsg f status detail job extra)

/-- Accept with the fields a response carries. -/
def State.accept (s : State) (n : Nat) (f : Found) (extra : List Byte) : State := s.answerWith n f 0 0 f.job extra
/-- Refuse with a code. -/
def State.refuse (s : State) (n : Nat) (f : Found) (code : Nat) : State := s.answerWith n f code 0 f.job []

/-- A response written later than its request was consumed. -/
def State.answerLate (s : State) (n type : Nat) (minor : Byte) (reqSeq status detail : Nat) (extra : List Byte) : State :=
  let m := mkMsg minor (type + 0x8000) 0xFFFF
    (toLE 4 reqSeq ++ toLE 2 status ++ toLE 2 detail ++ bytesAt extra 0 (respLen type - 24))
  s.placeResp n m

/-- Is the host away (R318). -/
def State.hostAway (s : State) : Bool := s.host.hostState != 0

/-- FW_INFO (R306, R309, R379). -/
def execFwInfo (p : Fin 16) (s : State) : Res :=
  match s.found? p 0x01 with
  | none => .next s
  | some f =>
    .next (s.accept p f (toLE 4 s.mgmt.fwVersion.toNat ++ [s.mgmt.minorMax, BitVec.ofNat 8 (b2n s.mgmt.imageB), 0, 0]
      ++ bytesAt s.mgmt.fwDigest 0 32))

/-- Jobs on cores. -/
def State.runningJobs (s : State) : Nat :=
  (s.jobs.jobs.filter (fun (_, j) => j.st == .running || j.st == .stopping || j.st == .preempting)).length

/-- HEARTBEAT (R309, R318). -/
def execHeartbeat (t : Nat) (s : State) : Res :=
  let s := s.at_ t
  match s.found? 0 0x02 with
  | none => .next s
  | some f =>
    if s.hostAway then .next (s.refuse 0 f eHostAbsent)
    else
      .next (s.accept 0 f (toLE 8 s.clk.now ++ [BitVec.ofNat 8 s.host.hostState.toNat, 0, 0, 0] ++ toLE 4 s.runningJobs))

/-- HOST_RETURN (R320): PRESENT, with the number of held messages. -/
def execHostReturn (s : State) : Res :=
  match s.found? 0 0x03 with
  | none => .next s
  | some f =>
    let n := s.host.held.length
    .next (({ s with host := { s.host with hostState := 0 } } : State).accept 0 f (toLE 4 n))

/-- MBX_HOST_CFG (R303). -/
def State.hostCfg (s : State) : Word := s.appliedReg 0x04040004

/-- HOST_TIMEOUT (R318): a message of pair 0 that the scan has found counts first. -/
def execHostTimeout (t : Nat) (s : State) : Res :=
  let s := s.at_ t
  if s.mailboxesServed ∧ s.host.hostState = 0 ∧ (s.pair 0).found.isNone ∧ s.host.lastMsg + fld s.hostCfg 0 16 * 1000000 ≤ s.clk.now then
    .next s.enterAbsent
  else .next s

/-- HOST_DRAIN (R318). -/
def execHostDrain (t : Nat) (s : State) : Res :=
  let s := s.at_ t
  if s.host.hostState = 1 ∧ s.host.absentAt + fld s.hostCfg 16 16 * 1000000000 ≤ s.clk.now then
    .next { s with host := { s.host with hostState := 2 } }
  else .next s

/-- A pair's indices are zero, HALTED is clear, and SEQ starts from 0 (R303, R304). -/
def Pair.zero (p : Pair) : Pair :=
  { p with
    h2dProd := 0
    h2dCons := 0
    d2hProd := 0
    d2hCons := 0
    halted := false
    haltCode := 0
    seqOut := 0
    found := none }

/-- MBX_RESET (R303): RESET written 1 while ENABLE is 0. -/
def execMbxReset (p : Fin 16) (s : State) : Res :=
  if !s.host.linkUp || (s.pair p).enable then .next s else .next (s.onPair p Pair.zero)

end Sys2Proof.Machine
end

