-- ==== Sys2Proof/Machine/Image.lean ====
section
/-! DEFINITION. Job images (R310–R313): their header and records, the checks of CONTEXT_LOAD in the order of R313's
table, and where segments are placed (R153, R154). -/

namespace Sys2Proof.Machine

/-- A refusal: error code and image offset of the failing field. -/
abbrev Bad := Nat × Nat

/-- Refuse unless a condition holds. -/
def need (ok : Bool) (code off : Nat) : Except Bad Unit := if ok then .ok () else .error (code, off)

/-- A load record (R312). -/
structure LoadRec where
  host : Bool := false
  lc : Nat := 0
  seg : Nat := 0
  woff : Nat := 0
  src : Nat := 0
  len : Nat := 0
  at_ : Nat := 0

/-- A collective group record (R312). -/
structure CollRec where
  coll : BitVec 20 := 0
  parent : Option (BitVec 18) := none
  members : BitVec 64 := 0
  children : List (BitVec 18) := []

/-- An image as read: tag, mask, task records with their offsets, and the other records. -/
structure Image where
  tag : BitVec 32 := 0
  mask : BitVec 64 := 0
  duncen : Bool := false
  waitUs : Nat := 0
  dump : BitVec 40 := 0
  dumpValid : Bool := false
  tasks : List (TaskRec × Nat) := []
  loads : List LoadRec := []
  peers : List (BitVec 18) := []
  colls : List CollRec := []

/-- Bits set in a mask. -/
def popcount (m : BitVec 64) : Nat := (maskCores m).length

/-- A segment's record (R152). -/
def readSeg (b : List Byte) (o : Nat) : Except Bad Seg := do
  need (leAt b o 4 < 2 ^ 23) eContextFormat o
  need (leAt b (o + 4) 4 < 2 ^ 23) eContextFormat (o + 4)
  need (leAt b (o + 8) 4 < 2 ^ 5) eContextFormat (o + 8)
  need (leAt b (o + 12) 4 == 0) eContextFormat (o + 12)
  .ok { base := BitVec.ofNat 23 (leAt b o 4), bound := BitVec.ofNat 23 (leAt b (o + 4) 4), attr := BitVec.ofNat 5 (leAt b (o + 8) 4) }

/-- A DRAM range's record (R199). -/
def readDRange (b : List Byte) (o : Nat) : Except Bad DRange := do
  let v := leAt b o 4
  need (v < 2 ^ 22) eContextFormat o
  need (leAt b (o + 4) 4 < 2 ^ 20) eContextFormat (o + 4)
  .ok { base := BitVec.ofNat 20 v, len := BitVec.ofNat 20 (leAt b (o + 4) 4), write := v / 2 ^ 20 % 2 == 1, valid := v / 2 ^ 21 % 2 == 1 }

/-- A source-set entry's record (R167). -/
def readSrcSet (b : List Byte) (o : Nat) : Except Bad SrcSet := do
  let c := leAt b (o + 8) 4
  need (leAt b o 4 < 2 ^ 18 && leAt b (o + 4) 4 < 2 ^ 18 && Nat.land c 0x7FFFC0C0 == 0 && leAt b (o + 12) 4 == 0) eContextFormat o
  .ok { nodeLo := BitVec.ofNat 18 (leAt b o 4), nodeHi := BitVec.ofNat 18 (leAt b (o + 4) 4), coreLo := BitVec.ofNat 6 c
        coreHi := BitVec.ofNat 6 (c / 256), valid := c / 2 ^ 31 == 1 }

/-- A task record (R311) at an offset. -/
def readTask (b : List Byte) (o : Nat) (mask : BitVec 64) (seen : List Nat) : Except Bad TaskRec := do
  need (o + 400 ≤ b.length) eContextFormat o
  let lc := leAt b o 1
  need (lc < 64 && bit mask lc && !seen.contains lc) eContextFormat o
  need (leAt b (o + 1) 1 < 2) eContextFormat (o + 1)
  need (leAt b (o + 2) 2 == 0) eContextFormat (o + 2)
  let w := leAt b (o + 4) 4
  need (w < 2 ^ 25 && w % 4096 + w / 4096 ≤ 4096) eContextFormat (o + 4)
  let st := leAt b (o + 8) 4
  need (Nat.land st 0xFFFFFF0E == 0 && st / 16 ≤ 9) eContextFormat (o + 8)
  let segs ← (List.range 8).mapM (fun i => readSeg b (o + 16 + 16 * i))
  let drs ← (List.range 8).mapM (fun i => readDRange b (o + 0x148 + 8 * i))
  let n := leAt b (o + 0x188) 2
  need (n ≤ 256 && zeroBytes b (o + 0x18A) (o + 0x190)) eContextFormat (o + 0x188)
  need (o + 400 + 16 * n ≤ b.length) eContextFormat (o + 0x188)
  let srcs ← (List.range n).mapM (fun i => readSrcSet b (o + 0x190 + 16 * i))
  let word (i : Nat) : Nat := leAt b (o + 0x90 + 4 * i) 4
  .ok { lc := lc
        fixedBase := leAt b (o + 1) 1 == 1
        winFirst := BitVec.ofNat 12 w
        winCount := BitVec.ofNat 13 (w / 4096)
        stopEnable := st % 2 == 1
        stopEngine := BitVec.ofNat 4 (st / 16)
        stopN := BitVec.ofNat 32 (leAt b (o + 12) 4)
        segs := segs
        regions := (List.range 10).map (fun e => (word (3 * e), word (3 * e + 1), word (3 * e + 2)))
        cregs := (List.range 16).map (fun i => BitVec.ofNat 32 (leAt b (o + 0x108 + 4 * i) 4))
        dranges := drs
        srcsets := srcs }

/-- The task records in order, each with its offset. -/
def readTasks (b : List Byte) (mask : BitVec 64) : Nat → Nat → List (TaskRec × Nat) → Except Bad (List (TaskRec × Nat))
  | 0, _, acc => .ok acc
  | n + 1, o, acc => do
    let t ← readTask b o mask (acc.map (fun (t, _) => t.lc))
    readTasks b mask n (o + 400 + 16 * t.srcsets.length) (acc ++ [(t, o)])

/-- A load record (R312). -/
def readLoad (b : List Byte) (mask : BitVec 64) (o : Nat) : Except Bad LoadRec := do
  need (o + 32 ≤ b.length) eContextFormat o
  need (leAt b o 1 < 2) eContextFormat o
  need (leAt b (o + 1) 1 < 64 && bit mask (leAt b (o + 1) 1)) eContextFormat (o + 1)
  need (leAt b (o + 2) 1 < 8) eContextFormat (o + 2)
  need (leAt b (o + 3) 1 == 0) eContextFormat (o + 3)
  need (leAt b (o + 16) 4 % 4 == 0) eContextFormat (o + 16)
  need (zeroBytes b (o + 20) (o + 32)) eContextFormat (o + 20)
  .ok { host := leAt b o 1 == 1, lc := leAt b (o + 1) 1, seg := leAt b (o + 2) 1, woff := leAt b (o + 4) 4, src := leAt b (o + 8) 8
        len := leAt b (o + 16) 4, at_ := o }

/-- A collective group record (R312). -/
def readColl (b : List Byte) (o : Nat) : Except Bad CollRec := do
  need (o + 288 ≤ b.length) eContextFormat o
  need (leAt b o 4 < 2 ^ 20) eContextFormat o
  let p := leAt b (o + 4) 4
  need (p < 2 ^ 18 || p == 0xFFFFFFFF) eContextFormat (o + 4)
  let n := leAt b (o + 16) 1
  need (n ≤ 64) eContextFormat (o + 16)
  need (zeroBytes b (o + 17) (o + 32)) eContextFormat (o + 17)
  need (zeroBytes b (o + 32 + 4 * n) (o + 288)) eContextFormat (o + 32 + 4 * n)
  need ((List.range n).all (fun i => leAt b (o + 32 + 4 * i) 4 < 2 ^ 18)) eContextFormat (o + 32)
  .ok { coll := BitVec.ofNat 20 (leAt b o 4)
        parent := if p = 0xFFFFFFFF then none else some (BitVec.ofNat 18 p)
        members := BitVec.ofNat 64 (leAt b (o + 8) 8)
        children := (List.range n).map (fun i => BitVec.ofNat 18 (leAt b (o + 32 + 4 * i) 4)) }

/-- Read an image: version and layout (R310–R312). -/
def readImage (b : List Byte) : Except Bad Image := do
  need (64 ≤ b.length) eContextFormat 0
  need (leAt b 0 4 == 1) eContextFormat 0
  let mask := BitVec.ofNat 64 (leAt b 8 8)
  need (leAt b 0x10 4 < 2) eContextFormat 0x10
  let wait := leAt b 0x14 4
  need (1 ≤ wait && wait < 2 ^ 20) eContextFormat 0x14
  let dump := leAt b 0x18 8
  need (dump % 4096 == 0 && dump / 2 ^ 40 % 2 ^ 23 == 0) eContextFormat 0x18
  need (leAt b 0x20 4 % 16 == 0 && leAt b 0x24 4 == 0) eContextFormat 0x20
  need (leAt b 0x28 4 % 16 == 0) eContextFormat 0x28
  need (leAt b 0x30 4 % 16 == 0) eContextFormat 0x30
  need (leAt b 0x38 4 % 16 == 0) eContextFormat 0x38
  let tasks ← readTasks b mask (popcount mask) (leAt b 0x20 4) []
  need (leAt b 0x28 4 + 32 * leAt b 0x2C 4 ≤ b.length || leAt b 0x2C 4 == 0) eContextFormat 0x28
  let loads ← (List.range (leAt b 0x2C 4)).mapM (fun i => readLoad b mask (leAt b 0x28 4 + 32 * i))
  let np := leAt b 0x34 4
  let po := leAt b 0x30 4
  need (po + 4 * np ≤ b.length || np == 0) eContextFormat 0x30
  let peers ← (List.range np).mapM (fun i => do
    need (leAt b (po + 4 * i) 4 < 2 ^ 18) eContextFormat (po + 4 * i)
    .ok (BitVec.ofNat 18 (leAt b (po + 4 * i) 4)))
  need (leAt b 0x38 4 + 288 * leAt b 0x3C 4 ≤ b.length || leAt b 0x3C 4 == 0) eContextFormat 0x38
  let colls ← (List.range (leAt b 0x3C 4)).mapM (fun i => readColl b (leAt b 0x38 4 + 288 * i))
  .ok { tag := BitVec.ofNat 32 (leAt b 4 4)
        mask := mask
        duncen := leAt b 0x10 4 == 1
        waitUs := wait
        dump := BitVec.ofNat 40 dump
        dumpValid := dump / 2 ^ 63 == 1
        tasks := tasks
        loads := loads
        peers := peers
        colls := colls }

/-- Loaded contexts, by index. -/
def State.contexts (s : State) : List (Nat × Job) := s.jobs.jobs.filter (fun (_, j) => j.loaded)

/-- May work be given to a logical core: it is in service (R23, R24). -/
def State.coreServes (s : State) (lc : Nat) : Bool := (s.core lc).mapState == 1

/-- A segment and a code region of a task against R125 and R153. -/
def taskErr (t : TaskRec) (o : Nat) : Except Bad Unit := do
  let _ ← (t.segs.zipIdx).mapM (fun (g, i) => do
    let so := o + 16 + 16 * i
    need (g.base.toNat % 1024 == 0) eAlign so
    need (g.bound.toNat % 1024 == 0) eAlign (so + 4)
    need (g.base.toNat + g.bound.toNat ≤ 6291456) eBound so
    need (!(bit g.attr 2 && bit g.attr 3)) ePerm (so + 8))
  let _ ← (t.regions.zipIdx).mapM (fun ((seg, off, bound), e) => do
    let ro := o + 0x90 + 12 * e
    if bound = 0 then .ok ()
    else do
      need (seg < 8) eContextFormat ro
      need (off % 8 == 0) eAlign (ro + 4)
      need (bound % 8 == 0) eAlign (ro + 8)
      let g : Seg := t.segs.getD seg {}
      need (off + bound ≤ g.bound.toNat) eBound ro
      need (bit g.attr 2) ePerm ro)
  .ok ()

/-- The lowest base of a task's segments. -/
def TaskRec.lowest (t : TaskRec) : Nat :=
  match (t.segs.filter (fun g => g.bound != 0)).map (fun g => g.base.toNat) with
  | [] => 0
  | b :: r => r.foldl min b

/-- A task moved by a change of base alone (R154): its lowest segment at word `k`. -/
def TaskRec.moved (t : TaskRec) (k : Nat) : TaskRec :=
  { t with segs := t.segs.map (fun g => if g.bound = 0 then g else { g with base := BitVec.ofNat 23 (g.base.toNat - t.lowest + k) }) }

/-- Word runs of a task's segments. -/
def TaskRec.extents (t : TaskRec) : List (Nat × Nat) :=
  (t.segs.filter (fun g => g.bound != 0)).map (fun g => (g.base.toNat, g.bound.toNat))

/-- The tasks other contexts hold resident on a core. -/
def State.residents (s : State) (lc : Nat) : List TaskRec :=
  s.contexts.flatMap (fun (_, j) => j.tasks.filter (fun t => t.lc == lc))

/-- Do a task's segments, its lowest at word `k`, lie in the scratchpad clear of every other resident task's. -/
def State.fitsAt (s : State) (t : TaskRec) (k : Nat) : Bool :=
  let u := t.moved k
  let others := s.residents t.lc
  k % 1024 == 0 && t.segs.all (fun g => g.bound == 0 || g.base.toNat - t.lowest + k + g.bound.toNat ≤ 6291456) &&
    !(others.any (fun x => footMeet x.extents u.extents))

/-- Place a task (R153, R154, R311): at its own bases; or, without FIXED_BASE, where MC1 chose if it fits there, else
at the first place where it fits. Its window range must be clear of every other resident task's. -/
def State.placeTask (s : State) (place : List (Fin 64 × Nat)) (x : TaskRec × Nat) : Except Bad TaskRec := do
  let (t, o) := x
  let wish := match place.find? (fun y => y.1.val == t.lc) with
    | some y => y.2
    | none => t.lowest
  let at_ := if t.fixedBase then (if s.fitsAt t t.lowest then some t.lowest else none)
    else if s.fitsAt t wish then some wish
    else ((List.range 6144).map (1024 * ·)).find? (fun k => s.fitsAt t k)
  let others := s.residents t.lc
  match at_ with
  | none =>
    let meets (g : Seg) : Bool := g.bound != 0 && others.any (fun u => footMeet u.extents [(g.base.toNat, g.bound.toNat)])
    .error (eSegOverlap, o + 16 + 16 * ((t.segs.zipIdx).findSome? (fun (g, i) => if meets g then some i else none)).getD 0)
  | some k =>
    need (!(others.any (fun u => u.winCount != 0 && t.winCount != 0 &&
      rangesMeet u.winFirst.toNat u.winCount.toNat t.winFirst.toNat t.winCount.toNat))) eSegOverlap (o + 4)
    .ok (t.moved k)

/-- A DRAM range that touches a reserved region or runs past the space (R195). -/
def rangeBad (r : DRange) : Bool :=
  let lo := r.base.toNat * 2 ^ 20
  let hi := lo + r.len.toNat * 2 ^ 20
  r.valid && r.len != 0 && ((lo < apertureBase && hi > userTop) || hi > deviceTop)

/-- The checks of R313 in its table's order; the placed tasks. -/
def State.checkImage (s : State) (im : Image) (place : List (Fin 64 × Nat)) : Except Bad (List TaskRec) := do
  need (!(s.contexts.any (fun (_, j) => j.tag == im.tag))) eJobTagInUse 4
  need ((maskCores im.mask).all (fun lc => s.coreServes lc)) eCoreAbsent 8
  let _ ← im.tasks.mapM (fun (t, o) => taskErr t o)
  let _ ← im.loads.mapM (fun l =>
    let seg : Seg := match im.tasks.find? (fun (t, _) => t.lc == l.lc) with
      | some (t, _) => t.segs.getD l.seg {}
      | none => {}
    need (seg.bound != 0 && l.woff + l.len / 4 ≤ seg.bound.toNat) eBound (l.at_ + 4))
  let ts ← im.tasks.mapM (fun x => s.placeTask place x)
  let _ ← im.tasks.mapM (fun (t, o) => (t.dranges.zipIdx).mapM (fun (r, i) => need (!rangeBad r) eAddress (o + 0x148 + 8 * i)))
  let _ ← im.loads.mapM (fun l => need (l.host || inDram l.src l.len) eAddress (l.at_ + 8))
  need (s.contexts.length < 4096) eJobTableFull 0
  let used := s.fab.colls.filter (fun (_, c) => c.used)
  need (used.length + im.colls.length ≤ 16384 && !(im.colls.any (fun c => used.any (fun (n, _) => n == c.coll.toNat))) &&
    !(hasDup (im.colls.map (fun c => c.coll.toNat)))) eCollTableFull 0x38
  .ok ts

/-- Bytes of an image, a licence or an unlock response: device memory through the slices, or host memory; with the
offset of the first poisoned byte. -/
def State.fetchBytes (s : State) (host : Bool) (a n : Nat) : List Byte × Option Nat × State :=
  if host then (Mem.readN s.host.mem a n, none, s)
  else
    let (mb, s) := s.readMem a n none
    (mbBytes mb, mb.findIdx? (·.2), s)

end Sys2Proof.Machine
end

