-- ==== Sys2Proof/Machine/Sched.lean ====
section
/-! DEFINITION. Jobs (R313–R317, R374–R377): queues and contexts, submission and cancellation, the start and the end of
tasks, their dump (R145, R146), preemption, and the handover of a core (R22). -/

namespace Sys2Proof.Machine

/-! ### Readiness (R289, R307, R318, R367) -/

/-- Does the primary scheduler run (R372, R373). -/
def State.primaryUp (s : State) : Bool := bit s.mgmt.up (if s.mgmt.primary2 then 2 else 1)

/-- Are jobs served: the start is complete and no device-level fault holds the device. -/
def State.jobsReady (s : State) : Bool := s.mgmt.stage == 6 && !s.mgmt.faultActive

/-- Step 9 of R307 before ownership: device state, host state, licence. While the host is away pair 0 takes no job
message, and no pair takes a JOB_SUBMIT or CONTEXT_LOAD (R315, R318). -/
def State.gateErr (s : State) (host licence : Bool) : Option Nat :=
  if !s.jobsReady then some eNotReady
  else if host && s.hostAway then some eHostAbsent
  else if licence && s.mgmt.tier == 0 then some eNoLicence
  else none

/-- The context a message names: not loaded, or another pair's. -/
def State.jobErr (s : State) (p : Fin 16) (f : Found) : Option Nat :=
  let x := s.job f.job
  if !x.loaded then some eJobUnknown else if x.pair ≠ p then some eJobNotOwned else none

/-- The queue a message names (R314). -/
def State.queueErr (s : State) (p : Fin 16) (n : Nat) : Option Nat :=
  let q := s.squeue n
  if !q.live then some eJobUnknown else if q.pair ≠ p then some eJobNotOwned else none

/-! ### Cores (R23, R328, R374) -/

/-- May a task run on a core now: in service, its domain On, not parked. -/
def State.coreAble (s : State) (lc : Nat) : Bool :=
  let d := s.dom (s.core lc).phys.toNat
  s.coreServes lc && d.st == .on && !d.parked && !d.parkPending

/-- Is a core free for a task. -/
def State.coreFree (s : State) (lc : Nat) : Bool := s.coreAble lc && (s.core lc).seq.task.isNone

/-- MC0 asks for a core domain's switch-on (R329, R330): work is to run on it. -/
def State.askOn (s : State) (lc : Nat) : State :=
  let d := (s.core lc).phys.toNat
  if (s.dom d).st = .retention ∧ (s.dom d).askedAt.isNone ∧ !(s.dom d).parked then s.onDom d (fun x => { x with askedAt := some s.clk.now }) else s

/-! ### Preemption (R375) -/

/-- The priority of the queue a job came through. -/
def State.jobPrio (s : State) (j : Nat) : Nat := (s.squeue (s.job j).queue).prio

/-- The jobs that hold cores of a mask. -/
def State.holders (s : State) (m : BitVec 64) : List Nat :=
  ((maskCores m).filterMap (fun lc => (s.core lc).seq.task.map (·.job))).foldl (fun l j => insertUniq j l) []

/-- Would a preemption of a job give a core a ninth preempted task (R376). -/
def State.ninth (s : State) (j : Nat) : Bool :=
  (maskCores (s.job j).mask).any (fun lc => (s.core lc).seq.saved.length ≥ 8)

/-- MC1 preempts every task of a job: waits stand with their remaining time, but for an array engine that holds a kept
tile and runs on. -/
def State.preemptJob (s : State) (j : Nat) : State :=
  let f (lc : Nat) (co : Core) (e : Eng) (q : Sequencer) : Sequencer :=
    if co.keepsTile e then q else q.onEng e (fun g => { g with wait := g.wait.map (Wait.left (s.coreNs lc)) })
  let s := (maskCores (s.job j).mask).foldl (fun s lc =>
    if s.runsJob lc j then
      let co := s.core lc
      s.onSeq lc (fun q =>
        let q := [Eng.f, .g0, .g1, .v, .q, .d0, .d1, .d2, .d3, .s].foldl (fun q e => f lc co e q) q
        { q with task := q.task.map (fun t => { t with preempting := true }) })
    else s) s
  s.onJob j (fun x => { x with st := .preempting })

/-- The preemption a queue's head job asks for: none while DRAINING, none where a holder's priority is not strictly
lower, where a core lies outside the queue's right, or where a core would hold a ninth preempted task. -/
def State.preemptFor (s : State) (qn : Nat) : State :=
  let q := s.squeue qn
  match q.jobs with
  | [] => s
  | j :: _ =>
    let m := (s.job j).mask
    let held := s.holders m
    let busy := (maskCores m).filter (fun lc => (s.core lc).seq.task.isSome)
    if q.live && q.preempt && s.host.hostState != 2 && busy.all (fun lc => bit q.mask lc) &&
        held.all (fun k => s.jobPrio k < q.prio) && !(held.any (fun k => (s.job k).st == .running && s.ninth k)) then
      held.foldl (fun s k => if (s.job k).st = .running then s.preemptJob k else s) s
    else s

/-- MC1 looks at every queue's head. -/
def State.preemptPass (s : State) : State :=
  if s.jobsReady && s.primaryUp then (List.range 64).foldl State.preemptFor s else s

/-! ### Queues (R314) -/

/-- QUEUE_CREATE: `num` is the number MC1 gives the queue. -/
def execQueueCreate (p : Fin 16) (num : Fin 64) (s : State) : Res :=
  match s.found? p 0x30 with
  | none => .next s
  | some f =>
    match s.gateErr (p == 0) true with
    | some e => .next (s.refuse p f e)
    | none =>
      if (List.range 64).all (fun n => (s.squeue n).live) then .next (s.refuse p f eQueueTableFull)
      else if (s.squeue num).live then .next s
      else
        let q : SQueue :=
          { live := true
            pair := p
            prio := leAt f.bytes 16 1
            preempt := leAt f.bytes 17 1 % 2 == 1
            mask := BitVec.ofNat 64 (leAt f.bytes 24 8) }
        .next ((s.onSQueue num (fun _ => q)).accept p f [BitVec.ofNat 8 num.val])

/-- QUEUE_DESTROY: a queue holds the jobs queued in it and those that run from it. -/
def execQueueDestroy (p : Fin 16) (s : State) : Res :=
  match s.found? p 0x31 with
  | none => .next s
  | some f =>
    let n := leAt f.bytes 16 1
    match s.gateErr (p == 0) false, s.queueErr p n with
    | some e, _ => .next (s.refuse p f e)
    | none, some e => .next (s.refuse p f e)
    | none, none =>
      if (s.squeue n).jobs ≠ [] ∨ s.jobs.jobs.any (fun (_, x) => x.st != .idle && x.queue == n) then .next (s.refuse p f eJobBusy)
      else .next ((s.onSQueue n (fun _ => {})).accept p f [])

/-! ### Contexts (R313, R317) -/

/-- The sections the load records write that are not On, by core (R172). -/
def State.sleepers (s : State) (im : Image) (ts : List TaskRec) : List (Nat × List Nat) :=
  im.loads.map (fun l =>
    let g : Seg := match ts.find? (fun t => t.lc == l.lc) with
      | some t => t.segs.getD l.seg {}
      | none => {}
    (l.lc, (s.core l.lc).scp.asleep (runSections [(g.base.toNat + l.woff, l.len / 4)])))

/-- Execute a load record through the core's DMA write port, poison marks with it (R197, R313). -/
def State.runLoad (s : State) (ts : List TaskRec) (l : LoadRec) : State :=
  match ts.find? (fun t => t.lc == l.lc) with
  | none => s
  | some t =>
    let g : Seg := t.segs.getD l.seg {}
    let (data, s) := if l.host then (mbMark false (Mem.readN s.host.mem l.src l.len), s) else s.readMem l.src l.len none
    s.onScp l.lc (fun m => m.writeRun (bit g.attr 4) (4 * (g.base.toNat + l.woff)) data)

/-- Pre-setup of a peer (R231, R313): what fails is tried again on first use. -/
def State.preSetup (s : State) (j : Nat) (node : BitVec 18) : State :=
  match s.findFlow j node with
  | some _ => s
  | none =>
    match s.startSetup j node with
    | .inl c => s.noteRefused c
    | .inr s => s

/-- The context takes its index, its partitions, its loads, its group contexts, and pre-setup begins. -/
def State.loadContext (s : State) (p : Fin 16) (idx : Nat) (im : Image) (ts : List TaskRec) : State :=
  let s := im.loads.foldl (fun s l => s.runLoad ts l) s
  let s := s.onJob idx (fun _ =>
    { loaded := true
      pair := p
      tag := im.tag
      mask := im.mask
      duncen := im.duncen
      waitUs := im.waitUs
      dump := im.dump
      dumpValid := im.dumpValid
      tasks := ts })
  let s := im.colls.foldl (fun s c => s.onColl c.coll (fun _ =>
    { job := idx, used := true, parent := c.parent, members := c.members, children := c.children })) s
  im.peers.foldl (fun s n => s.preSetup idx n) s

/-- CONTEXT_LOAD (R310–R313): `idx` is the index MC1 allocates and `place` where it puts segments it may move. A
refusal carries the image offset of the failing field; a load whose core or section is not On waits for it. -/
def execContextLoad (p : Fin 16) (idx : Fin 4096) (place : List (Fin 64 × Nat)) (s : State) : Res :=
  match s.found? p 0x40 with
  | none => .next s
  | some f =>
    match s.gateErr true true with
    | some e => .next (s.refuse p f e)
    | none =>
      let (b, bad, s) := s.fetchBytes (leAt f.bytes 16 1 == 1) (leAt f.bytes 24 8) (leAt f.bytes 32 4)
      let refuse (x : Bad) : Res := .next (s.answerWith p f x.1 0 f.job (toLE 4 x.2))
      match bad, readImage b with
      | some o, _ => refuse (eContextFormat, o)
      | none, .error x => refuse x
      | none, .ok im =>
        match s.checkImage im place with
        | .error x => refuse x
        | .ok ts =>
          if (s.job idx).loaded then .next s
          else
            let cores := maskCores im.mask
            let sl := s.sleepers im ts
            if !(cores.all (fun lc => (s.dom (s.core lc).phys.toNat).st == .on)) then .next (cores.foldl State.askOn s)
            else if sl.any (fun x => x.2 ≠ []) then .next (sl.foldl (fun s x => s.onScp x.1 (fun m => m.wake x.2)) s)
            else .next ((s.loadContext p idx im ts).answerWith p f 0 0 idx (toLE 4 0))

/-- CONTEXT_UNLOAD (R313, R317). -/
def execContextUnload (p : Fin 16) (s : State) : Res :=
  match s.found? p 0x41 with
  | none => .next s
  | some f =>
    match s.gateErr (p == 0) false, s.jobErr p f with
    | some e, _ => .next (s.refuse p f e)
    | none, some e => .next (s.refuse p f e)
    | none, none =>
      if (s.job f.job).st ≠ .idle then .next (s.refuse p f eJobBusy)
      else
        let s := s.closeFlows f.job
        let s := { s with fab := { s.fab with colls := Tbl.mapv {} (fun (c : Coll) => if c.used ∧ c.job = f.job then {} else c) s.fab.colls } }
        .next ((s.onJob f.job (fun _ => {})).accept p f [])

/-! ### Submission and cancellation (R315, R317) -/

/-- JOB_SUBMIT (R315). -/
def execJobSubmit (p : Fin 16) (s : State) : Res :=
  match s.found? p 0x50 with
  | none => .next s
  | some f =>
    let qn := leAt f.bytes 16 1
    match s.gateErr true true, s.jobErr p f, s.queueErr p qn with
    | some e, _, _ => .next (s.refuse p f e)
    | none, some e, _ => .next (s.refuse p f e)
    | none, none, some e => .next (s.refuse p f e)
    | none, none, none =>
      let x := s.job f.job
      if x.st ≠ .idle then .next (s.refuse p f eJobBusy)
      else if !((maskCores x.mask).all (fun lc => s.coreServes lc)) then .next (s.refuse p f eCoreAbsent)
      else
        let s := s.onJob f.job (fun x =>
          { x with
            st := .queued
            queue := qn
            cregSet := leAt f.bytes 17 1 % 2 == 1
            cregs := (List.range 16).map (fun i => BitVec.ofNat 32 (leAt f.bytes (24 + 4 * i) 4))
            live := 0
            stopped := none
            stopCore := 0xFF
            dumped := false })
        let s := s.onSQueue qn (fun q => { q with jobs := q.jobs ++ [f.job] })
        let s := (maskCores x.mask).foldl State.askOn s
        .next (s.preemptPass.accept p f [])

/-- A job leaves its queue. -/
def State.unqueue (s : State) (j : Nat) : State :=
  s.onSQueue (s.job j).queue (fun q => { q with jobs := q.jobs.filter (· != j) })

/-- JOB_CANCEL (R317, R377): a queued or preempted job ends where it stands, a running one under R140; the first cause
of a stop stands. A job that never started has no start time: a free value. -/
def execJobCancel (p : Fin 16) (s : State) : Res :=
  match s.found? p 0x51 with
  | none => .next s
  | some f =>
    match s.gateErr (p == 0) false, s.jobErr p f with
    | some e, _ => .next (s.refuse p f e)
    | none, some e => .next (s.refuse p f e)
    | none, none =>
      let j := f.job
      match (s.job j).st with
      | .idle => .next (s.refuse p f eJobIdle)
      | .queued =>
        let (v, s) := s.fresh
        let s := (s.unqueue j).onJob j (fun x => { x with st := .stopping, stopped := some .cancel, live := 0, start := v.toNat })
        .next (s.preemptPass.accept p f [])
      | .preempted => .next ((((s.unqueue j).stopJob j .cancel).preemptPass).accept p f [])
      | .running => .next ((s.stopJob j .cancel).accept p f [])
      | .preempting => .next ((s.stopJob j .cancel).accept p f [])
      | .stopping => .next (s.accept p f [])

/-! ### Starting (R125, R139, R141, R173, R374, R377) -/

/-- A table from a list of values. -/
def tblOf {α : Type} [DecidableEq α] (d : α) (l : List α) : Tbl α :=
  (l.zipIdx).foldl (fun t (v, i) => Tbl.set d t i v) []

/-- The head job of a queue, if every core it names is free. -/
def State.ready? (s : State) (qn : Nat) : Option Nat :=
  let q := s.squeue qn
  match q.jobs with
  | j :: _ => if q.live && ((s.job j).st == .queued || (s.job j).st == .preempted) && (maskCores (s.job j).mask).all (fun lc => s.coreFree lc)
      then some j else none
  | [] => none

/-- How soon a queue's turn comes among those of its priority. -/
def State.turn (s : State) (qn : Nat) : Nat := (qn + 64 - Tbl.get 0 s.jobs.lastServed (s.squeue qn).prio) % 64

/-- The queue MC1 serves next (R374): the highest priority, then by turns. -/
def State.pickQueue (s : State) : Option Nat :=
  ((List.range 64).filter (fun n => (s.ready? n).isSome)).foldl (fun best n =>
    match best with
    | none => some n
    | some b =>
      let (pb, pn) := ((s.squeue b).prio, (s.squeue n).prio)
      if pn > pb ∨ (pn = pb ∧ s.turn n < s.turn b) then some n else best) none

/-- An engine's stream at task start. -/
def startEngine (r : Nat × Nat × Nat) : Engine :=
  if r.2.2 = 0 then {}
  else { status := .running, seg := r.1, off := r.2.1, bound := r.2.2, fetchPos := r.2.1, fetchDone := false }

/-- The registers a task context gives, for a start and a restore alike. -/
def Sequencer.context (q : Sequencer) (j : Nat) (x : Job) (t : TaskRec) : Sequencer :=
  { q with
    task := some { job := j, duncen := x.duncen }
    segs := tblOf {} t.segs
    dranges := tblOf {} t.dranges
    srcsets := tblOf {} t.srcsets
    errInfo := 0
    errCmd := 0
    duncen := x.duncen
    waitDefault := BitVec.ofNat 20 x.waitUs
    stopEnable := t.stopEnable
    stopEngine := t.stopEngine
    stopHit := false
    stopN := t.stopN
    dumpBase := x.dump
    dumpValid := x.dumpValid
    winFirst := t.winFirst
    winCount := t.winCount
    pairStarted := false
    drainOrder := []
    tongsBuf := [] }

/-- A task starts from its context. -/
def Sequencer.start (q : Sequencer) (j : Nat) (x : Job) (t : TaskRec) : Sequencer :=
  { (q.context j x t) with
    engines := tblOf {} (t.regions.map startEngine)
    queues := []
    groups := []
    cregs := tblOf 0 (if x.cregSet then x.cregs else t.cregs)
    stalls := []
    winDrops := 0
    capHits := 0 }

/-- Provisional entries of a restored task against what arrived while it was away (R263, R377): a struck one is
Awaiting again, covered slots become Ready, and transfers placed since stand Placed. -/
def State.restoreWindows (s : State) (lc : Nat) : State :=
  let rx (fi : Option (BitVec 20)) : List RxXfer := match fi with
    | some f => (s.flow f.toNat).rx
    | none => s.fab.loc
  let struck (e : QEntry) : Bool := match e.st, e.prov with
    | .placed, some (fi, tm) => (rx fi).any (fun x => x.prov && x.tmseq == tm && x.core.toNat == lc && x.placed == 0)
    | _, _ => false
  let s := s.onSeq lc (fun q => { q with queues := Tbl.mapv {} (fun (x : Queue) =>
    { x with entries := x.entries.map (fun e => if struck e then { e with st := .awaiting } else e) }) q.queues })
  let q := (s.core lc).seq
  let mine := (List.range q.winCount.toNat).map (fun i => BitVec.ofNat 12 (q.winFirst.toNat + i))
  let s := mine.foldl (fun s n => s.onSeq lc (fun q => q.windowPump n 64)) s
  let place (fi : Option (BitVec 20)) (s : State) (x : RxXfer) : State :=
    if x.prov && x.core.toNat == lc && x.placed != 0 && mine.contains x.window && (q.win x.window).gen == x.gen then
      s.placeEntry lc
        { core := x.core, window := x.window, gen := x.gen, woff := BitVec.ofNat 23 x.woff, fmt := 0, rowsM1 := 0, colsM1 := 0
          tmseq := x.tmseq, grp := 0, gv := false, xferLen := BitVec.ofNat 32 x.len } fi
    else s
  let s := s.fab.flows.foldl (fun s (i, f) => f.rx.foldl (place (some (BitVec.ofNat 20 i))) s) s
  s.fab.loc.foldl (place none) s

/-- A preempted task's state is reloaded (R376). -/
def State.restoreTask (s : State) (lc j : Nat) (x : Job) (t : TaskRec) (sv : Saved) : State :=
  let wake (g : Engine) : Engine := { g with wait := g.wait.map (fun w => { w with since := s.coreNs lc }) }
  let s := s.onCore lc (fun co =>
    { co with
      seq := { (co.seq.context j x t) with
        engines := Tbl.mapv {} wake sv.engines
        queues := sv.queues
        groups := sv.groups
        cregs := sv.cregs
        stalls := sv.stalls
        saved := co.seq.saved.filter (fun y => y.job != j) }
      scp := { co.scp with vregs := sv.vregs, bins := sv.bins } })
  (s.takeBack lc j).restoreWindows lc

/-- Does a section hold a word of the resident tasks' segments. -/
def State.sectionUsed (s : State) (lc k : Nat) : Bool :=
  (s.residents lc).any (fun t => t.extents.any (fun r => runsMeet r (k * 1048576, 1048576)))

/-- In basic control MC1 sets the sections (R173): one that holds none of the resident tasks' segments goes to
Retention, every other is On. A section that is Off stays so until it is woken. -/
def State.setSections (s : State) (lc : Nat) : State :=
  if s.expertOn then s
  else
    (List.range 6).foldl (fun s k =>
      if s.sectionUsed lc k then
        s.onScp lc (fun m =>
          let m := { m with sectReq := Tbl.set none m.sectReq k none }
          if Tbl.get 0 m.sect k = 0 then m else m.wake [k])
      else
        s.onScp lc (fun m =>
          if Tbl.get 0 m.sect k = 0 ∧ Tbl.get false m.waking k = false then { m with sectReq := Tbl.set none m.sectReq k (some 1) }
          else m)) s

/-- A task of a job starts, or is restored, on its core. -/
def State.startTask (s : State) (j : Nat) (t : TaskRec) : State :=
  let x := s.job j
  let s := s.setSections t.lc
  match (s.core t.lc).seq.saved.find? (fun y => y.job == j) with
  | some sv => s.restoreTask t.lc j x t sv
  | none => s.onSeq t.lc (fun q => q.start j x t)

/-- The cores that hold a saved task of a job. -/
def State.savedCores (s : State) (j : Nat) : List Nat :=
  (maskCores (s.job j).mask).filter (fun lc => (s.core lc).seq.saved.any (fun y => y.job == j))

/-- JOB_START (R374, R377): MC1 starts or restores the head job of the queue it chooses, on every core of its mask. -/
def execJobStart (qn : Fin 64) (t : Nat) (s : State) : Res :=
  let s := s.at_ t
  if !s.jobsReady || !s.primaryUp || s.pickQueue ≠ some qn.val then .next s
  else
    match s.ready? qn with
    | none => .next s
    | some j =>
      let x := s.job j
      let again : Bool := x.st == .preempted
      let s := s.onSQueue qn (fun q => { q with jobs := q.jobs.drop 1 })
      let s := { s with jobs := { s.jobs with lastServed := Tbl.set 0 s.jobs.lastServed (s.squeue qn).prio (qn.val + 1) } }
      let away := s.savedCores j
      let s := (x.tasks.filter (fun r => !again || away.contains r.lc)).foldl (fun s r => s.startTask j r) s
      let live := if again then away.foldl (fun m lc => setBit m lc) 0 else x.mask
      let s := s.onJob j (fun x => { x with st := .running, live := live, start := if again then x.start else s.clk.now })
      .next s.preemptPass

/-! ### The dump (R145, R146) -/

/-- An engine's record. -/
def Engine.record (g : Engine) (err : Bool) : List Byte :=
  let st := match g.status with
    | .noStream => 0
    | .stopped => 1
    | .waitAbandoned => 4
    | _ => if err then 2 else 3
  let next := match g.fetched with
    | f :: _ => f.pos
    | [] => g.fetchPos
  let wait := match g.wait with
    | some w => w.limit / 1000
    | none => 0
  let grp := match g.curGrp with
    | some x => x.toNat + 0x8000
    | none => 0
  let stack := g.loops.flatMap (fun l => toLE 4 l.pos ++ toLE 4 l.skip ++ toLE 4 l.count ++ toLE 4 l.iter)
  toLE 4 g.retired.toNat ++ [BitVec.ofNat 8 st, BitVec.ofNat 8 g.loops.length] ++ toLE 2 g.begun.length
    ++ toLE 4 (g.seg + 8 * next) ++ toLE 4 g.seg ++ toLE 4 g.off ++ toLE 4 g.bound ++ toLE 2 grp ++ toLE 2 g.fetched.length
    ++ toLE 4 wait ++ bytesAt stack 0 64

/-- The slot of a queue's head, or the one its next entry takes. -/
def Sequencer.headSlot (s : Sequencer) (q : Queue) : Nat :=
  match q.head, q.win with
  | some e, _ => e.slot
  | none, some n => let w := s.win n; if windowSlots w = 0 then 0 else w.readySlots % windowSlots w
  | none, none => q.next

/-- A queue's record; its SEG and OFFSET word has OFFSET in [22:0] and SEG in [25:23]. -/
def Queue.record (q : Queue) (slot : Nat) : List Byte :=
  toLE 2 (q.mode + 4 * (q.depth - 1) + 256 * q.prod + 4096 * q.cons) ++ toLE 2 slot ++ toLE 4 (q.off + 2 ^ 23 * q.seg)
    ++ toLE 4 q.slotWords ++ [BitVec.ofNat 8 (q.count (· == .reserved)), BitVec.ofNat 8 (q.count (· == .ready)),
      BitVec.ofNat 8 (q.count (fun e => e == .held || e == .heldProv)), 0]

/-- Has an error stopped a task: of one of its own streams, or of its job where no stream's error stopped it (R145). -/
def Sequencer.byError (q : Sequencer) : Bool :=
  bit q.errInfo 12 || (match q.task with
    | some t => (match t.stop with
      | some (.error _ e _) => e == 0xF
      | _ => false)
    | none => false)

/-- A core's dump: 4 KiB. -/
def Core.dump (c : Core) (lc now : Nat) : List Byte :=
  let q := c.seq
  let err := q.byError
  let head := toLE 2 2 ++ [BitVec.ofNat 8 (b2n err), BitVec.ofNat 8 lc] ++ toLE 4 q.errInfo.toNat ++ toLE 4 q.errCmd.toNat
    ++ toLE 4 (c.readSeq 0x280).toNat ++ toLE 4 q.stopN.toNat ++ toLE 4 (b2n q.duncen) ++ toLE 8 now
  bytesAt head 0 64
    ++ (List.range 10).flatMap (fun e => (Tbl.get {} q.engines e : Engine).record err)
    ++ (List.range 64).flatMap (fun n => (q.queue n).record (q.headSlot (q.queue n)))
    ++ (List.range 16).flatMap (fun i => toLE 4 (Tbl.get 0 q.cregs i : Word).toNat)
    ++ (List.range 8).flatMap (fun i => let g := q.seg i; toLE 4 g.base.toNat ++ toLE 4 g.bound.toNat ++ toLE 4 g.attr.toNat ++ toLE 4 0)
    ++ (List.range 110).flatMap (fun i => toLE 8 (Tbl.get 0 q.stalls i : DWord).toNat)
    ++ toLE 976 0

/-! ### The end of a task (R140, R161, R276, R317) -/

/-- Can the next pass of an array enter: it has an accumulator tile, the tongs buffer lets it, and no other group's
pending extent holds its reads. -/
def Core.passCan (co : Core) (a : Arr) : Bool :=
  match (co.array a).passes with
  | [] => false
  | p :: _ =>
    match co.arrayProd a p.cmd, co.tongsLead a p.cmd with
    | some (b, pr), some lead =>
      (passTile a (co.array a) b pr p).isSome && !(Cmd.op b.word = 0x22 && co.tongsShort a lead.serial p) &&
        !co.scp.blocked b.grp (co.passRuns a b pr p)
    | _, _ => false

/-- Have the arrays done what their begun commands can do: no tile is on the drain path, no pass can enter, no tile that
waits can have its entry (R140). -/
def Core.arraysQuiet (co : Core) : Bool :=
  co.draining.isNone && [Arr.f, .g0, .g1].all (fun a => !co.passCan a) &&
    !(co.seq.drainOrder.any (fun x => (co.waiting x).isSome)) &&
    [(0, 0), (0, 1), (1, 0), (1, 1), (2, 0), (2, 1)].all (fun x =>
      (co.tileAt x).st != .ready || !co.entryFor (co.tileAt x))

/-- Is a core's task at its end: every stream at its stop, or the task stopping, and every begun command complete but
an array command that cannot go on and a member whose running sum no longer comes. -/
def State.taskOver (s : State) (lc : Nat) (t : Task) : Bool :=
  let co := s.core lc
  let eng (e : Eng) : Engine := co.seq.eng e
  let streams : Bool := t.stop.isSome ||
    [Eng.f, .g0, .g1, .v, .q, .d0, .d1, .d2, .d3, .s].all (fun e => (eng e).status == .stopped || (eng e).status == .noStream)
  let arrays : Bool := if t.stop.isSome then co.arraysQuiet
    else co.draining.isNone && [Arr.f, .g0, .g1].all (fun a =>
      (co.array a).passes.isEmpty && (eng a.eng).begun.all (fun b => !drains b.word))
  let chain : Bool := (eng .q).begun.all (fun b => t.stop.isSome && !incomingOk co b)
  streams && arrays && chain && [Eng.v, .d0, .d1, .d2, .d3, .s].all (fun e => (eng e).begun == []) &&
    !(s.host.apts.any (fun a => a.lc == lc && a.write))

/-- The open groups of a core's task abort with E_JOB_ENDED. -/
def State.endGroups (s : State) (lc : Nat) : State :=
  ((s.core lc).seq.groups).foldl (fun s (g, _) => s.abortGroup lc (BitVec.ofNat 12 g) eJobEnded) s

/-- A task's windows close (R161). -/
def State.endWindows (s : State) (lc : Nat) (t : TaskRec) : State :=
  (List.range t.winCount.toNat).foldl (fun s i =>
    s.onSeq lc (fun q => q.closeWindow (BitVec.ofNat 12 (t.winFirst.toNat + i)) s.clk.now)) s

/-- The core is free: its engines keep their retired counts, its arrays nothing. -/
def Core.vacate (c : Core) : Core :=
  let keep (g : Engine) : Engine := { retired := g.retired }
  let clear (a : ArrayU) : ArrayU :=
    { a with passes := [], lastPass := none, tile0 := {}, tile1 := {}, notice := false, noticeDue := false }
  { c with
    seq := { c.seq with
      task := none
      engines := Tbl.mapv {} keep c.seq.engines
      queues := []
      pairStarted := false
      drainOrder := []
      tongsBuf := [] }
    arrF := clear c.arrF
    arrG0 := clear c.arrG0
    arrG1 := clear c.arrG1 }

/-- With the last task of a preempted job off its core, the job is back at the head of its queue (R377); a job whose
every task ended before its save has run to its end. -/
def State.settlePreempt (s : State) (j : Nat) : State :=
  let x := s.job j
  if x.st ≠ .preempting ∨ x.live ≠ 0 then s
  else if s.savedCores j = [] then s.onJob j (fun x => { x with st := .running })
  else (s.onJob j (fun x => { x with st := .preempted })).onSQueue x.queue (fun q => { q with jobs := j :: q.jobs })

/-- A member that waits for a running sum is struck and goes (R276). -/
def State.endChains (s : State) (lc : Nat) : State :=
  match (s.eng lc .q).begun with
  | [] => s
  | b :: _ => (s.strikeChain lc b).onEng lc .q (fun g => { g with begun := [] })

/-- The task record of a core in a job. -/
def Job.task? (x : Job) (lc : Nat) : TaskRec := (x.tasks.find? (fun t => t.lc == lc)).getD {}

/-- The end of a core's task: the dump, if the task's own error or stop count stopped it, its groups and windows; the
job's other tasks stop with it. -/
def State.endTask (s : State) (lc : Nat) (t : Task) : State :=
  let co := s.core lc
  let dump : Bool := (co.seq.byError || co.seq.stopHit) && co.seq.dumpValid
  let s := if dump then
      s.writeMem (co.seq.dumpBase.toNat + 4096 * lc) (mbMark false (co.dump lc s.clk.now)) none
    else s
  let s := (s.endChains lc).endGroups lc
  let s := s.endWindows lc ((s.job t.job).task? lc)
  let s := s.onCore lc Core.vacate
  let s := s.onJob t.job (fun x => { x with live := clrBit x.live lc, dumped := x.dumped || dump })
  match t.stop with
  | some c => s.stopJob t.job c
  | none => s.settlePreempt t.job

/-- TASK_STOP (R140, R145). -/
def execTaskStop (lc : Fin 64) (t : Nat) (s : State) : Res :=
  let s := s.at_ t
  match (s.core lc).seq.task with
  | none => .next s
  | some k => if !s.mgmt.faultActive && s.taskOver lc k then .next ((s.endTask lc k).pumpPort lc) else .next s

/-! ### The save (R375, R376) -/

/-- A stream as it is saved: what it fetched and had not begun is fetched again, under the loops its last command left
open. -/
def Engine.saved (now : Nat) (g : Engine) : Engine :=
  let g := { g with wait := g.wait.map (fun (w : Wait) => if w.since = 0 then w else w.left now) }
  match g.fetched with
  | [] => g
  | f :: _ =>
    { g with fetched := [], fetchPos := f.pos, fetchLoops := g.loops, fetchDone := false }

/-- May a preempted task be saved: nothing begun, no kept tile. -/
def Core.savable (co : Core) : Bool :=
  [Eng.f, .g0, .g1, .v, .q, .d0, .d1, .d2, .d3, .s].all (fun e => (co.seq.eng e).begun == [] && !co.keepsTile e)

/-- Is a waiting access no tagged write of a core's groups. -/
def untagged (lc : Nat) : HeldReq → Bool
  | .write _ _ _ _ _ (some (.loc c _)) => c.val != lc
  | _ => true

/-- Has a core's task nothing under way in the slices: no group of it commits, and no tagged write of it waits there, for
these belong to commands it has begun (R270, R375). -/
def State.groupsRest (s : State) (lc : Nat) : Bool :=
  (s.core lc).seq.groups.all (fun (_, (g : Group)) => g.st != .committing) && s.mem.waiting.all (untagged lc)
    && s.mem.slices.all (fun (_, (sl : Slice)) => sl.held.all (untagged lc))

/-- The bins of Q take free values. -/
def State.freeBins (s : State) (lc : Nat) : State :=
  let k := s.free
  { s with free := k + 4096 }.onScp lc (fun m =>
    { m with bins := upto (fun b i => Tbl.set 0 b i ((Config.freeValue (k + i)).setWidth 32)) m.bins 4096 })

/-- The saved state of a core's task. -/
def Core.save (co : Core) (now : Nat) (t : Task) : Saved :=
  { job := t.job
    duncen := t.duncen
    engines := Tbl.mapv {} (Engine.saved now) co.seq.engines
    queues := co.seq.queues
    segs := co.seq.segs
    groups := co.seq.groups
    cregs := co.seq.cregs
    stalls := co.seq.stalls
    vregs := co.scp.vregs
    bins := co.scp.bins }

/-- PREEMPT_SAVE_DONE (R375–R377): the core is free; with the last save the job is back at the head of its queue. What the
next task finds in V's registers and Q's bins the spec does not state: nothing of the preempted task's (log 229). -/
def execPreemptSaveDone (lc : Fin 64) (s : State) : Res :=
  let co := s.core lc
  match co.seq.task with
  | none => .next s
  | some t =>
    if !t.preempting || t.stop.isSome || s.mgmt.faultActive || !co.savable || !s.groupsRest lc then .next s
    else
      let sv := co.save (s.coreNs lc) t
      let s := s.onCore lc (fun c =>
        let c := c.vacate
        { c with seq := { c.seq with winCount := 0, groups := [], saved := c.seq.saved ++ [sv] } })
      let s := ((s.setAside lc t.job).freeRegs lc 0 32768).freeBins lc
      let s := s.onJob t.job (fun x => { x with live := clrBit x.live lc })
      .next (s.settlePreempt t.job).preemptPass

/-! ### The end of a job (R276, R316, R317) -/

/-- A saved task of a job that ends: its open groups abort, its windows close, its state goes. -/
def State.endSaved (s : State) (lc : Nat) (t : TaskRec) (sv : Saved) : State :=
  let s := sv.groups.foldl (fun s (n, (g : Group)) =>
    if g.st = .opened then g.flows.foldl (fun s fi => s.sendCtl fi.toNat 0xA (opGroup lc (BitVec.ofNat 12 n) true) [] lc) s
    else s) s
  let s := s.abortAside lc sv.job
  (s.endWindows lc t).onSeq lc (fun q => { q with saved := q.saved.filter (fun y => y.job != sv.job) })

/-- Every saved task of a job ends. -/
def State.endAllSaved (s : State) (j : Nat) : State :=
  (s.job j).tasks.foldl (fun s t =>
    match (s.core t.lc).seq.saved.find? (fun y => y.job == j) with
    | some sv => s.endSaved t.lc t sv
    | none => s) s

/-- KIND, STATUS, engine, core and command index of JOB_COMPLETE (R316). -/
def Job.verdict (x : Job) : Nat × Nat × Nat × Nat × Nat :=
  match x.stopped with
  | some (.error c e i) => (1, c, e, if e = 0xF then 0xFF else x.stopCore, i.toNat)
  | some (.stopCount e) => (2, 0, e, x.stopCore, (x.task? x.stopCore).stopN.toNat)
  | some .cancel => (3, 0, 0xF, 0xFF, 0)
  | _ => (0, 0, 0xF, 0xFF, 0)

/-- The JOB_COMPLETE message. -/
def State.completeMsg (s : State) (j : Nat) : List Byte :=
  let x := s.job j
  let (kind, code, eng, core, idx) := x.verdict
  mkMsg (s.pair x.pair).minor 0x80 j
    (toLE 4 x.tag.toNat ++ toLE 2 code ++ toLE 1 kind ++ toLE 1 eng ++ toLE 1 core ++ toLE 1 (b2n x.dumped) ++ toLE 2 0
      ++ toLE 4 idx ++ toLE 8 x.start ++ toLE 8 s.clk.now ++ toLE 8 0)

/-- JOB_COMPLETE (R276, R316): every task has stopped. -/
def execJobComplete (idx : Fin 4096) (t : Nat) (s : State) : Res :=
  let s := s.at_ t
  let x := s.job idx
  if (x.st ≠ .running ∧ x.st ≠ .stopping) ∨ x.live ≠ 0 ∨ !s.jobsReady ∨ !s.primaryUp then .next s
  else
    let s := ((s.unqueue idx).endAllSaved idx).closeFlows idx
    let s := s.placeMsg { pair := x.pair, bytes := s.completeMsg idx, isComplete := true }
    .next (s.onJob idx (fun x => { x with st := .idle, stopped := none })).preemptPass

/-! ### Handover (R20, R22–R24) -/

/-- The spare physical core of a cluster (R20), from the signed defect map. -/
def State.clusterSpare (s : State) (cl : Nat) : Nat := 9 * cl + (8 - Tbl.get 0 s.mgmt.coreSpare cl)

/-- Is a physical core usable as a spare: it passed self-test and is not in service. -/
def State.spareUsable (s : State) (pc : Nat) : Bool :=
  !s.flash.fails.contains (.core pc) &&
    !((List.range 64).any (fun n => (s.core n).mapState != 0 && (s.core n).phys.toNat == pc))

/-- CORE_HANDOVER (R22–R24): no context holds a partition on the core; its number passes to the spare, or the core
stays absent. -/
def execCoreHandover (lc : Fin 64) (s : State) : Res :=
  let c := s.core lc
  if c.mapState ≠ 2 ∨ c.seq.task.isSome ∨ s.contexts.any (fun (_, x) => bit x.mask lc) then .next s
  else
    let sp := s.clusterSpare (c.phys.toNat / 9)
    if s.spareUsable sp then
      let s := { s with flash := { s.flash with
          spareFor := Tbl.set none s.flash.spareFor (c.phys.toNat / 9) (some c.phys.toNat) } }
      .next (s.setCore lc { phys := BitVec.ofNat 7 sp, mapState := 1 })
    else .next (s.onCore lc (fun c => { c with mapState := 0 }))

end Sys2Proof.Machine
end

