-- ==== Sys2Proof/Machine/Settings.lean ====
section
/-! DEFINITION. Staged configuration (R403–R412): CONFIG_STAGE, the snapshot, the checks of R410, the apply instant,
adoption at safe points, and the board configuration record (R359). -/

namespace Sys2Proof.Machine

/-! ### Limits of the tier (R6, R9) -/

/-- The power ceiling of a tier in W; 6,200 with no licence in force. -/
def tierCeiling (tier : BitVec 4) : Nat := if tier = 3 then 2600 else 6200

/-- PWR_CAP.CAP_W, applied. -/
def State.capW (s : State) : Nat := fld (s.appliedReg 0x05000000) 0 16

/-! ### A core domain's voltage (R323, R335) -/

/-- PWR_DOM_d_CTL as the domain runs on it. -/
def State.domCtl (s : State) (d : Nat) : Word := s.inForce (0x05001004 + 0x10 * d) 0x500

/-- VOFF of a PWR_DOM_d_CTL value, in mV. -/
def voffOf (v : Word) : Int := sext 8 (fld v 0 8)

/-- V_target in mV at a step (R323). -/
def State.vTarget (s : State) (d step : Nat) : Nat :=
  let v : Int := (s.vfitAt d step : Int) + (s.dom d).margin.toNat + voffOf (s.domCtl d)
  min 850 (max 600 v.toNat)

/-- The regulator takes a switched-on core domain to its target: that of the step its clock is raised to, or of the step in
force. -/
def State.regulate (s : State) (d : Nat) : State :=
  let now := s.clk.now
  if (s.dom d).st = .on then
    s.onDom d (fun x =>
      let v := BitVec.ofNat 10 (s.vTarget d (x.raiseTo.getD x.fstep).toNat)
      { x with
        vMv := v
        slewFrom := if v = x.vMv then x.slewFrom else BitVec.ofNat 10 (x.output now)
        slewAt := if v = x.vMv then x.slewAt else now
        vfit := BitVec.ofNat 10 (s.vfitAt d x.fstep.toNat) })
  else s

/-! ### Steps of a core's clock (R340, R341, R344) -/

/-- FCAP of CLK_CORE_d_CTL. -/
def State.fcap (s : State) (d : Nat) : Nat := fld (s.inForce (0x06001004 + 0x10 * d) 0xB) 0 4

/-- FFIT (R340): the highest step whose target does not exceed 0.85 V. -/
def State.ffitOf (s : State) (d : Nat) : Nat :=
  let off := voffOf (s.domCtl d) + ((s.dom d).margin.toNat : Int)
  (List.range 12).foldl (fun best k => if (s.vfitAt d k : Int) + off ≤ 850 then k else best) 0

/-- The step in force for a requested one (R340). -/
def State.stepFor (s : State) (d req : Nat) : Nat := min req (min (s.fcap d) (s.ffitOf d))

/-- A change to the step in force for the request (R341): a lower one at once, with the target after it; for a higher one the
target goes first, and the clock follows. -/
def State.switchStep (s : State) (d : Nat) : State :=
  let fit := s.ffitOf d
  let k := BitVec.ofNat 4 (s.stepFor d (s.dom d).ftarget.toNat)
  let now := s.clk.now
  let s := s.onDom d (fun x =>
    let x := x.settled now
    { x with
      ffit := BitVec.ofNat 4 fit
      fstep := if x.fstep.toNat < k.toNat then x.fstep else k
      raiseTo := if x.fstep.toNat < k.toNat then some k else none
      stepSlew := k != x.fstep || (x.stepSlew && x.output now != x.vMv.toNat)
      pending := false })
  s.regulate d

/-- MC0 requests a step: while the clock has stretched within the last 10 µs, a change of step stays pending, but a raise
that is under way goes on (R344). -/
def State.requestStep (s : State) (d step : Nat) : State :=
  let now := s.clk.now
  let s := s.onDom d (fun x => { x.settled now with ftarget := BitVec.ofNat 4 step, ffit := BitVec.ofNat 4 (s.ffitOf d) })
  let x := s.dom d
  let k := s.stepFor d step
  if x.st ≠ .on then s
  else if x.raiseTo = some (BitVec.ofNat 4 k) then s.regulate d
  else if x.drooped now && k != x.fstep.toNat then
    (s.onDom d (fun x => { x with pending := true, raiseTo := none })).regulate d
  else s.switchStep d

/-! ### CONFIG_STAGE (R404) -/

/-- Stage pairs in order until one names no STG register; how many were staged, and whether all. -/
def State.stagePairs (s : State) : Nat → List (Nat × Word) → Nat × Bool × State
  | n, [] => (n, true, s)
  | n, (off, v) :: r =>
    if off % 4 = 0 ∧ (stgReg off).isSome then (s.stage off v).stagePairs (n + 1) r else (n, false, s)

/-- CONFIG_STAGE (R404, R309). -/
def execConfigStage (s : State) : Res :=
  match s.found? 0 0x20 with
  | none => .next s
  | some f =>
    if s.hostAway then .next (s.refuse 0 f eHostAbsent)
    else
      let pairs := (List.range ((f.bytes.length - 16) / 8)).map (fun i =>
        (leAt f.bytes (16 + 8 * i) 4, BitVec.ofNat 32 (leAt f.bytes (20 + 8 * i) 4)))
      let (n, all, s) := s.stagePairs 0 pairs
      .next (s.answerWith 0 f (if all then 0 else eMbxRange) 0 f.job (toLE 4 n))

/-! ### The checks (R410) -/

/-- Is a reserved field non-zero or a reserved encoding used. -/
def reservedBad (off : Nat) (v : Word) : Bool :=
  (match stgReg off with
   | some g => v &&& g.reserved != 0
   | none => false) ||
  ((nth? off 0x010008B0 0x10000 64).isSome && (List.range 6).any (fun k => fld v (2 * k) 2 == 3)) ||
  (off == 0x03040060 && (fld v 0 2 == 3 || fld v 4 2 == 3))

/-- Does a field lie outside its range. -/
def rangeFails (off : Nat) (v : Word) : Bool :=
  let hours (v : Word) : Bool := fld v 0 8 < 1 || fld v 0 8 > 168
  if (nth? off 0x02020018 0x100 16).isSome || off == 0x02021000 then hours v
  else if off = 0x04040004 then fld v 0 16 < 1000
  else if off = 0x05000000 then fld v 0 16 < 1500
  else if off = 0x05000004 then fld v 0 4 == 0
  else if (nth? off 0x05001004 0x10 72).isSome then fld v 8 3 > 5
  else if (nth? off 0x06001004 0x10 72).isSome then fld v 0 4 > 11
  else if off = 0x06010000 then
    fld v 0 8 < 70 || fld v 0 8 > 95 || fld v 8 8 < fld v 0 8 + 1 || fld v 8 8 > 105
  else if 0x03000000 ≤ off ∧ off < 0x03006000 ∧ off % 0x100 = 4 then
    ((List.range 8).filter (fun n => bit v (16 + n))).length > 2
  else if off = 0x302C then v.toNat > 17 * 2 ^ 20
  else if off = 0x3024 ∨ off = 0x07000064 then fld v 0 6 != 0
  else if off = 0x07000060 then bit v 0 && fld v 2 2 != 1 && fld v 2 2 != 2
  else if off = 0x03040060 then fld v 14 4 != 0 && fld v 14 4 < 9
  else false

/-- Does a change of a value change an expert field (R407): TIMEOUT and the like are basic, and MST_s_SCRUB_CTL and the
rest are expert as wholes. -/
def expertChange (off : Nat) : Bool := match stgReg off with
  | some g => g.expert
  | none => false

/-- Does a section of a core hold an open window, a configured ring, an active code region or a pending extent. -/
def Core.sectionBusy (c : Core) (k : Nat) : Bool :=
  let sec := (k * 1048576, 1048576)
  let q := c.seq
  let ring (segs : Tbl Seg) (x : Queue) : Bool :=
    x.mode == 1 && runsMeet ((Tbl.get {} segs x.seg : Seg).base.toNat + x.off, x.depth * x.slotWords) sec
  q.windows.any (fun (_, w) => w.isOpen && runsMeet (w.base, w.len) sec) ||
    q.queues.any (fun (_, x) => ring q.segs x) || q.saved.any (fun v => v.queues.any (fun (_, x) => ring v.segs x)) ||
    q.activeCode.any (fun r => runsMeet r sec) || c.scp.pend.any (fun x => x.words.any (fun r => runsMeet r sec)) ||
    c.scp.away.any (fun x => x.2.words.any (fun r => runsMeet r sec))

/-- Is an OFT address register one that open flows fix. -/
def flowsFix (off : Nat) (old v : Word) : Bool :=
  off == 0x03040000 || off == 0x03040004 || off == 0x03040008 || (nth? off 0x03040010 4 4).isSome ||
    (off == 0x03040020 && bit old 2 != bit v 2)

/-- Does one changed register fail the check of a reason, `at_` giving the values that will stand. -/
def State.checkFails (s : State) (at_ : Nat → Word) (reason off : Nat) (v : Word) : Bool :=
  let old := s.appliedReg off
  match reason with
  | 1 => reservedBad off v
  | 2 => rangeFails off v
  | 3 => expertChange off && !bit (at_ 0x4000) 0
  | 4 =>
    if off = 0x05000000 then fld v 0 16 > tierCeiling s.mgmt.tier
    else 0x03000000 ≤ off && off < 0x03006000 && off % 0x100 == 4 && bit v 0 && !tierPort s.mgmt.tier ((off - 0x03000000) / 0x100)
  | 5 =>
    (match nth? off 0x05001004 0x10 72 with
     | some d =>
       let m : Int := (s.dom d).margin.toNat
       m + voffOf v < 15 || (s.vfitAt d 0 : Int) + m + voffOf v > 850
     | none => false)
  | 6 =>
    (match nth? off 0x010008B0 0x10000 64 with
     | some lc => (List.range 6).any (fun k => fld v (2 * k) 2 == 2 && (s.core lc).sectionBusy k)
     | none => false)
  | 7 => (off == 0x03040008 || off == 0x03040010) && fld v 0 18 != 0
  | 8 => flowsFix off old v && s.fab.flows.any (fun (_, f) => f.st != .free)
  | 9 =>
    (off == 0x3008 && fld v 0 2 != 0 && bit (at_ 0x3020) 2) ||
      (off == 0x3020 && bit v 2 && 1 ≤ s.mgmt.update.state.toNat && s.mgmt.update.state.toNat ≤ 5)
  | _ => false

/-- A register among others by rising offset. -/
def insertReg (x : Nat × Word) : List (Nat × Word) → List (Nat × Word)
  | [] => [x]
  | y :: r => if x.1 < y.1 then x :: y :: r else y :: insertReg x r

/-- The registers a check looks at, with the values that will stand (R410): those that change, and in a masked block every one
whose check rests on more than its own value: the ports' ENABLE and the cap beside the tier, VOFF beside the present margin,
the sections beside their use. -/
def State.checked (s : State) (mask : BitVec 64) (reason : Nat) : List (Nat × Word) :=
  let ch := s.changed mask
  let after (off : Nat) : Nat × Word := (ch.find? (fun x => x.1 == off)).getD (off, s.appliedReg off)
  let block (b : Nat) (offs : List Nat) : List (Nat × Word) := if bit mask b then offs.map after else []
  match reason with
  | 4 => block 4 ((List.range 96).map (fun p => portBase p + 4)) ++ block 7 [0x05000000]
  | 5 => block 7 ((List.range 72).map (fun d => 0x05001004 + 0x10 * d))
  | 6 => block 2 ((List.range 64).map (fun lc => 0x010008B0 + 0x10000 * lc))
  -- CFG_START.KIND may stand from before beside a GO that is new
  | 9 => if bit mask 0 ∧ (ch.any (fun x => x.1 == 0x3008)) = false then insertReg (0x3008, s.appliedReg 0x3008) ch else ch
  | _ => ch

/-- The first check that fails: its reason and the offset of the first field that failed it (R410). -/
def State.applyErr (s : State) (mask : BitVec 64) : Option (Nat × Nat) :=
  let ch := s.changed mask
  let after (off : Nat) : Word := match ch.find? (fun x => x.1 == off) with
    | some x => x.2
    | none => s.appliedReg off
  [1, 2, 3, 4, 5, 6, 7, 8, 9].findSome? (fun r =>
    ((s.checked mask r).find? (fun x => s.checkFails after r x.1 x.2)).map (fun x => (r, x.1)))

/-! ### Adoption (R294, R406, R408) -/

/-- Has a core reached a boundary: no engine runs a command; an array's drains are not waited for. -/
def Core.boundary (co : Core) : Bool :=
  [Eng.v, .q, .d0, .d1, .d2, .d3, .s].all (fun e => (co.seq.eng e).begun == []) &&
    [Arr.f, .g0, .g1].all (fun a => (co.array a).passes.isEmpty)

/-- The logical core that a physical core carries. -/
def State.coreOf (s : State) (pc : Nat) : Option Nat :=
  (List.range 64).find? (fun n => (s.core n).mapState != 0 && (s.core n).phys.toNat == pc)

/-- The core whose boundary a register's adoption waits for, in service. -/
def State.adopter (s : State) (off : Nat) : Option Nat :=
  match nth? off 0x010008B0 0x10000 64, nth? off 0x05001004 0x10 72 with
  | some lc, _ => if s.coreServes lc then some lc else none
  | none, some d =>
    (match s.coreOf d with
     | some lc => if s.coreServes lc then some lc else none
     | none => none)
  | none, none => none

/-- The aperture entry a register belongs to. -/
def aptOf (off : Nat) : Option Nat :=
  match nth? off 0x04070000 4 512 with
  | some i => some (i / 2)
  | none => none

/-- Is an aperture request outstanding through an entry. -/
def State.aptBusy (s : State) (i : Nat) : Bool := s.host.apts.any (fun a => a.entry == i)

/-- A core requests the states of SCP_SECT_CTL for its sections (R171–R173). An Off section's contents are lost already:
a request for Retention leaves it as it is until it is woken. -/
def Scratch.request (m : Scratch) (v : Word) : Scratch :=
  (List.range 6).foldl (fun m k =>
    let want := fld v (2 * k) 2
    let now := Tbl.get 0 m.sect k
    let req (x : Option Nat) : Scratch := { m with sectReq := Tbl.set none m.sectReq k x }
    if want = now ∧ Tbl.get false m.waking k = false then req none
    else if want = 0 then (req none).wake [k]
    else if want = 1 ∧ now = 2 then req none
    else req (some want)) m

/-- The engines of a core with a stream hold at their boundary, or go on. -/
def State.holdEngines (s : State) (lc : Nat) (h : Bool) : State :=
  s.onSeq lc (fun q => { q with engines := Tbl.mapv {} (fun (g : Engine) =>
    if g.status = .noStream then g else { g with applyHold := h }) q.engines })

/-- A unit adopts a register. -/
def State.adoptOne (s : State) (off : Nat) : State :=
  let s := match s.cfg.active with
    | some a => { s with cfg := { s.cfg with active := some { a with former := Tbl.set none a.former off none } } }
    | none => s
  match nth? off 0x010008B0 0x10000 64, nth? off 0x05001004 0x10 72 with
  | some lc, _ => s.onScp lc (fun m => m.request (s.appliedReg off))
  | none, some d => s.requestStep d (s.dom d).ftarget.toNat
  | none, none => s

/-- May a register be adopted now. -/
def State.mayAdopt (s : State) (off : Nat) : Bool :=
  match s.adopter off, aptOf off with
  | some lc, _ => (s.core lc).boundary
  | none, some i => !s.aptBusy i
  | none, none => true

/-- Every unit at its safe point adopts; a core that has adopted all of its registers holds its engines no longer. -/
def State.adoptAll (s : State) : State :=
  match s.cfg.active with
  | none => s
  | some a =>
    let offs := (a.former.map (·.1)).filter (fun o => s.mayAdopt o)
    let lcs := offs.filterMap (fun o => s.adopter o)
    lcs.foldl (fun s lc => s.holdEngines lc false) (offs.foldl State.adoptOne s)

/-! ### The apply instant (R206, R207, R216, R378, R409) -/

/-- A port is enabled or disabled: it trains, or its laser is off; an engine with no enabled port is in its lowest power. A
quenched device has stopped its transport clocks: no packet boundary comes before the next start (R218, R352). -/
def State.enablePort (s : State) (p : Nat) : State :=
  if s.thm.quenched || s.thm.tripLatched then s else
  let dark := (s.optic (p / 12)).railFailed || (s.optic (p / 12)).lasersOff
  let s :=
    if s.portOn p then
      (if (s.port p).st = .disabled ∧ s.crossbarUp then
        ((s.portTo p (if dark then .down else .training)).onPort p (fun q => { q with laser := !dark })).train p
      else s)
    else
      (s.portTo p .disabled).onPort p (fun q =>
        { q with
          laser := false
          egress := []
          held := []
          los := 0
          rxLf := false
          rxRf := false
          txLf := false
          substReason := 0 })
  s.onOptic (p / 12) (fun o => { o with powered := s.crossbarUp && (List.range 12).any (fun k => s.portOn (12 * (p / 12) + k)) })

/-- The effect of a changed register at the apply instant. -/
def State.applied! (s : State) (off : Nat) : State :=
  if 0x03000000 ≤ off ∧ off < 0x03006000 then
    let p := (off - 0x03000000) / 0x100
    if off % 0x100 = 4 then s.enablePort p else s
  else if (nth? off 0x03041000 4 768).isSome then s.onPort ((off - 0x03041000) / 0x20) (fun q => { q with gwMac := none })
  else
    match nth? off 0x05001004 0x10 72, nth? off 0x06001004 0x10 72 with
    | some d, _ => s.requestStep d (s.dom d).ftarget.toNat
    | none, some d => s.requestStep d (s.dom d).ftarget.toNat
    | none, none => s

/-- Does an apply change a port's MAC address or an IP address of its own (R406). -/
def readdressed (ch : List (Nat × Word)) (p : Nat) : Bool :=
  [8, 0xC, 0x60, 0x70, 0x74, 0x78, 0x7C].any (fun o => ch.any (fun x => x.1 == portBase p + o))

/-- Changed port addresses are announced, once for each port, at the boundary the port adopts them at (R406). -/
def State.announceChanged (s : State) (ch : List (Nat × Word)) : State :=
  (List.range 96).foldl (fun s p => if (s.port p).st = .up && readdressed ch p then s.announce p else s) s

/-- Does a changed register wait for its unit. -/
def State.mustWait (s : State) (off : Nat) : Bool :=
  (s.adopter off).isSome || (match aptOf off with
    | some i => s.aptBusy i
    | none => false)

/-- GO bits are taken and read back 0; the unlock attempt and the update wait for their own events. -/
def State.takeGo (s : State) (mask : BitVec 64) : Bool × State :=
  let fw := s.appliedReg 0x3020
  let un := s.appliedReg 0x07000060
  let s := if bit mask 0 && bit fw 2 then
      (({ s with cfg := { s.cfg with goReq := true } } : State).adoptReg 0x3020 (clrBit fw 2))
    else s
  if bit mask 10 && bit un 0 then (true, s.adoptReg 0x07000060 (clrBit un 0)) else (false, s)

/-- Steps 4 and 5 of R409: the snapshot becomes the applied copies, units that run on older values are noted. -/
def State.commitApply (s : State) (mask : BitVec 64) (seq : Word) (minor : Byte) : State :=
  let ch := s.changed mask
  let wait := ch.filter (fun x => s.mustWait x.1)
  let former := wait.foldl (fun t x => Tbl.set none t x.1 (some (s.appliedReg x.1))) []
  let direct := ch.filter (fun x => !s.mustWait x.1)
  let s := ch.foldl (fun s x => s.adoptReg x.1 x.2) s
  let kind := if bit mask 0 then BitVec.ofNat 2 (fld (s.appliedReg 0x3008) 0 2) else 0
  let (unlock, s) := s.takeGo mask
  let s := { s with cfg := { s.cfg with
    count := satInc s.cfg.count
    rejected := false
    active := some { former := former, unlock := unlock, reqSeq := seq, minor := minor, kind := kind } } }
  let s := (wait.filterMap (fun x => s.adopter x.1)).foldl (fun s lc => s.holdEngines lc true) s
  let s := ((direct.foldl (fun s x => s.applied! x.1) s).announceChanged ch).electSlave
  s.adoptAll

/-- One apply: rejected whole, or committed. -/
def State.runApply (s : State) (mask : BitVec 64) (seq : Word) (minor : Byte) : State :=
  match s.applyErr mask with
  | some (reason, off) =>
    let s := { s with cfg := { s.cfg with reason := BitVec.ofNat 8 reason, rejected := true, failOff := BitVec.ofNat 28 off } }
    s.answerLate 0 0x21 minor seq.toNat eConfigRejected reason []
  | none => s.commitApply mask seq minor

/-- The response of the active apply (R409): the board record is to follow, a DISCARD that waited takes effect, and a
start it requested may begin (R363, R405). -/
def State.endApply (s : State) (a : Apply) : State :=
  let s := s.answerLate 0 0x21 a.minor a.reqSeq.toNat a.status 0 []
  let s := { s with cfg := { s.cfg with active := none, startReq := if a.kind = 0 then s.cfg.startReq else a.kind, dirty := true } }
  if s.cfg.discardLater then ({ s with cfg := { s.cfg with discardLater := false } } : State).discard else s

/-- MC0 serves applies one at a time, in order; the fuel bounds those that wait. -/
def State.serveApplies : Nat → State → State
  | 0, s => s
  | n + 1, s =>
    if !s.mc0Up then s
    else
      match s.cfg.active with
      | some a => if a.former = [] ∧ !a.unlock then State.serveApplies n (s.endApply a) else s
      | none =>
        match s.cfg.queue with
        | [] => s
        | (mask, seq, minor) :: r =>
          if s.cfg.startReq ≠ 0 then s
          else State.serveApplies n (({ s with cfg := { s.cfg with queue := r } } : State).runApply mask seq minor)

/-- MC0 goes on with what it can serve. -/
def State.serve (s : State) : State := State.serveApplies (2 * s.cfg.queue.length + 2) s

/-- CONFIG_APPLY (R409): handed to MC0, which serves applies in order. -/
def execConfigApply (s : State) : Res :=
  match s.found? 0 0x21 with
  | none => .next s
  | some f =>
    if s.hostAway then .next (s.refuse 0 f eHostAbsent)
    else
      let s := (s.onPair 0 (fun p => p.consumeMsg f)).accepted 0 f
      let x := (BitVec.ofNat 64 (leAt f.bytes 16 8), BitVec.ofNat 32 f.seq, f.minor)
      .next (({ s with cfg := { s.cfg with queue := s.cfg.queue ++ [x] } } : State).serve)

/-- APPLY_ADOPT (R406, R408): units at their safe points adopt; with the last, the response is written. -/
def execApplyAdopt (s : State) : Res := .next (s.adoptAll.serve)

/-- STAGE_DISCARD (R405). -/
def State.discardNow (s : State) : State :=
  if s.cfg.active.isSome then { s with cfg := { s.cfg with discardLater := true } } else s.discard

/-- STAGE_DISCARD (R405): CFG_STAGE_CTL.DISCARD is written 1. -/
def execStageDiscard (s : State) : Res := if s.host.linkUp then .next s.discardNow else .next s

/-- BOARD_CONFIG_RECORD (R359, R411): the applied value of every STG register, at most once per 60 s. -/
def execBoardConfigRecord (t : Nat) (s : State) : Res :=
  let s := s.at_ t
  let due : Bool := match s.cfg.lastRecord with
    | none => true
    | some t => t + 60000000000 ≤ s.clk.now
  if s.cfg.dirty && due && s.mc0Up then
    .next { s with
      cfg := { s.cfg with dirty := false, lastRecord := some s.clk.now }
      flash := { s.flash with board := s.cfg.applied, boardSet := true } }
  else .next s

end Sys2Proof.Machine
end

