-- ==== Sys2Proof/Machine/Start.lean ====
section
/-! DEFINITION. Device-level faults (R279, R280), starts (R361–R371), power-good and the supplies (R423–R425), and the
management cores (R372, R373). -/

namespace Sys2Proof.Machine

/-! ### Reporting a device-level fault (R280, R309, R319) -/

/-- Cut a list into parts of `n`, at least one; the fuel bounds the parts. -/
def msgParts {α : Type} (n : Nat) : Nat → List α → List (List α)
  | 0, l => [l]
  | k + 1, l => if l.length ≤ n then [l] else l.take n :: msgParts n k (l.drop n)

/-- A DEVICE_FAULT message. -/
def faultMsg (minor : Byte) (cause time : Nat) (more : Bool) (jobs : List Nat) : List Byte :=
  mkMsg minor 0x81 0xFFFF
    (toLE 1 cause ++ toLE 1 (b2n more) ++ toLE 2 jobs.length ++ toLE 4 0 ++ toLE 8 time ++ jobs.flatMap (toLE 2))

/-- DEVICE_FAULT to one pair, in parts of at most 496 jobs. -/
def State.reportTo (s : State) (p : Nat) (jobs : List Nat) : State :=
  let parts := msgParts 496 (jobs.length / 496) jobs
  parts.zipIdx.foldl (fun s (l, i) =>
    s.placeMsg
      { pair := p
        bytes := faultMsg (s.pair p).minor s.mgmt.faultCause.toNat s.mgmt.faultTime.toNat (i + 1 < parts.length) l
        isFault := true }) s

/-- MC0 writes DEVICE_FAULT: every affected job to pair 0, and each other pair's own to that pair; vectors follow. -/
def State.reportFault (s : State) : State :=
  let all := s.mgmt.faultJobs
  let s := s.reportTo 0 (all.map (·.1))
  let owners := (List.range 16).filter (fun p => p != 0 && all.any (fun x => x.2 == p))
  let s := owners.foldl (fun s p => s.reportTo p ((all.filter (fun x => x.2 == p)).map (·.1))) s
  let s := { s with mgmt := { s.mgmt with faultJobs := [], faultReport := false } }
  (List.range 16).foldl State.vectorOf s

/-! ### The halt (R218, R280, R350, R352) -/

/-- DBG_INTEG_CTL.FAULT_HOLD, applied. -/
def State.faultHold (s : State) : Bool := bit (s.appliedReg 0x2010) 8

/-- A core stops in mid-command: its work, its groups and the tasks saved on it are gone. -/
def Core.halt (c : Core) : Core :=
  let c := c.vacate
  { c with
    seq := { c.seq with groups := [], saved := [] }
    scp := { c.scp with pend := [], away := [], sectReq := [], port := [] } }

/-- A CXL.mem request completed with poison (R280). -/
def poisoned (a : Nat) : HostMem → CxlOut
  | .read => .memData (a / 64) (List.replicate 64 0) true
  | .write _ _ _ => .memCmp (a / 64)

/-- The slices drop every group and every access in flight; a host request that was held is completed with poison. -/
def State.haltSlices (s : State) : State :=
  let out := s.mem.slices.flatMap (fun (_, (sl : Slice)) => sl.held.filterMap (fun h =>
    match h with
    | .host a r _ => some (poisoned a r)
    | _ => none))
  let f (sl : Slice) : Slice := { sl with shadows := [], away := [], misses := [], prepared := [], commits := [], held := [] }
  { s with
    mem := { s.mem with slices := Tbl.mapv {} f s.mem.slices, waiting := [] }
    host := { s.host with out := s.host.out ++ out, apts := [] } }

/-- A core domain enters Retention without quiesce; a change of step is dropped. -/
def Domain.retain (now : Nat) (x : Domain) : Domain :=
  let x := x.settled now
  let x :=
    { x with
      askedAt := none
      granted := none
      withheld := false
      pending := false
      ftarget := x.fstep
      raiseTo := none
      stepSlew := false
      shunt := false
      clampOn := false }
  if x.st = .on then { x.setV 500 with st := .retention } else x

/-- What Quench and a thermal trip stop besides: ports Quenched, core domains in Retention, stacks in self-refresh. -/
def State.quiesceAll (s : State) : State :=
  let s := (List.range 72).foldl (fun s d => s.onDom d (Domain.retain s.clk.now)) s.quenchPorts
  (List.range 16).foldl (fun s n => s.onStk n (fun k => { k with selfRefresh := true })) s

/-- Does a start run: from stage 1 to stage 5. -/
def State.starting (s : State) : Bool := 1 ≤ s.mgmt.stage.toNat && s.mgmt.stage.toNat ≤ 5

/-- A banked restart has failed; a second one within 10 minutes gives way to a cold start (R365). -/
def State.bankedFailed (s : State) : State :=
  let again : Bool := match s.mgmt.bankedFailAt with
    | some t => s.clk.now < t + 600000000000
    | none => false
  { s with mgmt := { s.mgmt with bankedFailAt := some s.clk.now, coldNext := s.mgmt.coldNext || again } }

/-- The affected jobs of a fault, with their pairs: queued, running, stopping or preempted. -/
def State.affected (s : State) : List (Nat × Nat) :=
  (s.jobs.jobs.filter (fun (_, j) => j.loaded && j.st != .idle)).map (fun (n, j) => (n, j.pair))

/-- The DRAM ranges a job could write, in bytes. -/
def Job.writable (j : Job) : List (Nat × Nat) :=
  (j.tasks.flatMap (fun t => t.dranges.filter (fun r => r.valid && r.write))).map (fun r =>
    (r.base.toNat * 2 ^ 20, (r.base.toNat + r.len.toNat) * 2 ^ 20))

/-- What the listed jobs of a device-level fault could write has undefined contents after it, in the stacks and in the
slices (R280). -/
def State.loseRanges (s : State) : State :=
  let rs := s.affected.flatMap (fun (j, _) => (s.job j).writable)
  if rs = [] then s
  else
    let k := s.mem.losses + 1
    let hit (l : Line) : Bool := rs.any (fun (lo, hi) => lo ≤ 128 * l.addr && 128 * l.addr < hi)
    let f (sl : Slice) : Slice := { sl with sets := Tbl.mapv [] (fun ls => ls.filter (fun l => !hit l)) sl.sets }
    { s with mem := { s.mem with
        losses := k
        lost := s.mem.lost ++ rs.map (fun (lo, hi) => (k, lo, hi))
        slices := Tbl.mapv {} f s.mem.slices } }

/-- A device-level fault (R279, R280): counted and logged; the first cause stands, but a Quench that latches with a trip
keeps 0x4. Work stops, contexts are discarded, the fault is reported, after the restart if firmware failed, and a
banked restart is due unless FAULT_HOLD, Quench or a trip hold it. -/
def State.deviceFault (s : State) (cause : Nat) : State :=
  if !s.pins.pwrGood then s
  else
    let s := { s with flash := { s.flash with faultCount := satInc s.flash.faultCount } }
    let s := s.logErr 1 0 0 0 (toLE 4 cause)
    let s := if cause = 4 ∨ cause = 6 then s.quiesceAll else s
    if s.mgmt.faultActive then
      let m := s.mgmt
      let both : Bool := cause == 4 && m.faultCause == 6 && m.faultTime.toNat == s.clk.now
      { s with mgmt := { m with
        faultCause := if both then 4 else m.faultCause
        bankedDue := m.bankedDue && cause != 4 && cause != 6 } }
    else
      let s := if s.starting && s.mgmt.kind == 3 then s.bankedFailed else s
      let s := s.loseRanges
      let s := { s with
        mgmt := { s.mgmt with
          faultCause := BitVec.ofNat 4 cause
          faultActive := true
          faultTime := BitVec.ofNat 64 s.clk.now
          faultJobs := s.affected
          faultReport := true
          bankedDue := !s.faultHold && cause != 4 && cause != 6 }
        cores := Tbl.mapv {} Core.halt s.cores
        jobs := {}
        fab := { s.fab with handles := [], loc := [] } }
      let s := s.haltSlices
      if cause = 3 then s else s.reportFault

/-- DEVICE_LEVEL_FAULT (R279, R280). -/
def execDeviceLevelFault (cause : BitVec 4) (t : Nat) (s : State) : Res :=
  let s := s.at_ t
  if 1 ≤ cause.toNat ∧ cause.toNat ≤ 6 then .next (s.deviceFault cause.toNat) else .next s

/-! ### What a start discards (R365, R411, R414) -/

/-- A start abandons an update; the ERR it leaves has no stated value (R378). -/
def State.abandonUpdate (s : State) : State :=
  let u := s.mgmt.update
  if 1 ≤ u.state.toNat ∧ u.state.toNat ≤ 5 then
    let (v, s) := s.fresh
    { s with mgmt := { s.mgmt with update := { u with state := 7, err := v.setWidth 8 } } }
  else s

/-- A core over a banked restart: its scratchpad, its flags and the marks of R260 stand, its counters and its streams do
not. -/
def Core.restart (c : Core) : Core :=
  let arr (a : ArrayU) : ArrayU := { flags := a.flags, gens := a.gens }
  { phys := c.phys
    scp := { c.scp with
      pend := []
      away := []
      port := []
      eccCorr := 0
      eccUncorr := 0
      eccLast := 0
      eccLastUncorr := false
      eccLastCode := false
      sect := c.scp.waking.foldl (fun t (k, _) => Tbl.set 0 t k 0) c.scp.sect
      sectReq := []
      waking := [] }
    arrF := arr c.arrF
    arrG0 := arr c.arrG0
    arrG1 := arr c.arrG1
    integ := { c.integ with replays := 0, unchecked := 0, strikesTx := 0, strikesRx := 0 } }

/-- A slice over a banked restart: its lines and what it tracks for the host stand. -/
def Slice.restart (x : Slice) : Slice := { sets := x.sets, snoops := x.snoops, bisnp := x.bisnp }

/-- A stack over a start: its repairs, its rail and what its sensors have set stand; over a banked restart also the
state of its scrubber. -/
def Stack.restart (cold : Bool) (k : Stack) : Stack :=
  let base : Stack :=
    { lanes := k.lanes
      rowsRepaired := k.rowsRepaired
      hot := k.hot
      halfBw := k.halfBw
      railFailed := k.railFailed }
  if cold then base
  else { base with table := k.table, due := k.due, visits := k.visits, scrubNext := k.scrubNext }

/-- Memory over a start: a cold start leaves nothing of it. -/
def Mem.restart (cold : Bool) (m : Mem) : Mem :=
  let stks := Tbl.mapv {} (Stack.restart cold) m.stks
  if cold then { stks := stks, delivered := m.delivered }
  else { m with slices := Tbl.mapv {} Slice.restart m.slices, stks := stks, pendPeak := 0, waiting := [] }

/-- The host's side over a start: a banked restart keeps the link, the decoders, the pairs and the held ring (R365). -/
def State.restartHost (s : State) (cold : Bool) : State :=
  let s := if cold then s.hostReset else s
  let scan (p : Pair) : Pair := { p with found := none }
  { s with host := { s.host with
      memActive := false
      bisnpCount := 0
      hostState := 0
      lastMsg := s.clk.now
      held := if cold then [] else s.host.held
      faultsMerged := s.host.faultsMerged && !cold
      apts := []
      pairs := Tbl.mapv {} scan s.host.pairs } }

/-- Is a register an aperture entry's. -/
def isApt (off : Nat) : Bool := 0x04070000 ≤ off && off < 0x04070800

/-- The applied copies a start restores (R411): CFG_START, the GO bits and SEC_UNLOCK at reset, and the aperture entries
too, but that a banked restart keeps them as they are. -/
def State.restored (s : State) (cold : Bool) : Tbl (Option Word) :=
  let board := if s.flash.boardSet then s.flash.board else []
  let board := board.filter (fun (o, _) => o != 0x3008 && !(0x07000060 ≤ o && o < 0x07000070) && !isApt o)
  let board := match Tbl.get none board 0x3020 with
    | some v => Tbl.set none board 0x3020 (some (clrBit v 2))
    | none => board
  if cold then board
  else (s.cfg.applied.filter (fun (o, _) => isApt o)).foldl (fun t (o, v) => Tbl.set none t o v) board

/-- Staged configuration over a start: an apply that stood committed is adopted with the start. -/
def State.restartConfig (s : State) (cold : Bool) : State :=
  let applied := s.restored cold
  let c := s.cfg
  { s with cfg :=
      if cold then { applied := applied, lastRecord := c.lastRecord }
      else
        { c with
          staged := []
          applied := applied
          count := 0
          active := c.active.map (fun a => { a with former := [] })
          startReq := 0
          goReq := false
          dirty := false } }

/-- The security state over a start (R389, R394, R396, R397): the licence read from flash comes into force, signing goes
on at the reserved end. -/
def State.restartSecurity (s : State) (cold : Bool) : State :=
  let c := s.sec
  { s with sec :=
      { c with
        level := 0
        licence := s.flash.licence
        pwFails := if cold then 0 else c.pwFails
        pwLocked := c.pwLocked && !cold
        signReady := true
        keysErased := false
        signNext := c.flashReserved
        signReserved := c.flashReserved
        treeReady := true
        attests := if cold then [] else c.attests
        nonceAt := none
        idHash := sha256 Config.identityKey } }

/-- Nominal output of a domain other than a core's, in mV (R321). -/
def otherMv (d : Nat) : BitVec 10 := if d < 80 then 720 else if d < 88 then 750 else 800

/-- A domain over a start. A cold start finds core domains Off, their failed phases out, margin and trim as saved
(R327, R331); a banked restart finds them as they are, its counters and policies begun afresh. -/
def State.restartDomain (s : State) (cold : Bool) (d : Nat) : State :=
  let f := s.flash
  let base := Tbl.get 0 f.rBase d
  s.onDom d (fun x =>
    if 72 ≤ d then { st := .on, vMv := otherMv d, slewFrom := otherMv d, phases := Config.otherPhases d, rBase := base, amps := x.amps }
    else if cold then
      let bad := (f.fails.filter (fun e => match e with
        | .phase k _ => k == d
        | _ => false)).length
      let (m, tr) := Tbl.get (0, 0) f.temper d
      { phases := BitVec.ofNat 5 (16 - bad)
        short := x.short
        rBase := base
        margin := if m = 0 then 40 else BitVec.ofNat 6 m
        trim := tr
        ftarget := 11 }
    else
      let y := if x.st = .on then x else x.retain s.clk.now
      { y with
        stretches := 0
        pending := false
        droopAt := none
        bTh := 0
        hotSince := none
        coolSince := none
        parkSince := none
        unparkSince := none
        parkPending := false
        parked := false
        askedAt := none
        granted := none
        withheld := false })

/-- A port's counters and queues go at a start; what it has sent has been sent. -/
def Port.restart (q : Port) : Port := { pos := q.pos, subst := q.subst, sent := q.sent }

/-- What every start discards or begins afresh. -/
def State.discardAll (s : State) (kind : Nat) : State :=
  let cold : Bool := kind != 3
  let s := s.abandonUpdate
  let s := ((s.restartHost cold).restartConfig cold).restartSecurity cold
  let s := (List.range 89).foldl (fun s d => s.restartDomain cold d) s
  let m := s.mgmt
  { s with
    cores := if cold then [] else Tbl.mapv {} Core.restart s.cores
    mem := s.mem.restart cold
    ports := Tbl.mapv {} Port.restart s.ports
    fab := {}
    jobs := {}
    mgmt := { m with
      kind := BitVec.ofNat 2 kind
      stage := 1
      fallback := m.fallback && !cold
      recovery := false
      failCode := 0
      up := 1
      primary2 := false
      standby := false
      mc0Restarts := 0
      takeovers := 0
      mc3Restarts := 0
      wdFails := 0
      startedAt := s.clk.now
      bankedDue := false
      waitStart := none
      faultActive := false
      corrLogged := [] }
    pwr := { s.pwr with energyUj := 0, damperUs := 0 }
    clk := { s.clk with everLost := s.clk.refLost, maxErr := 0, steps := 0, skew := if cold then [] else s.clk.skew }
    thm := { s.thm with
      tripLatched := s.thm.trip
      quenched := false
      quenchActive := false
      glitch := 0
      blind := 0 } }

/-! ### The stages (R361–R370) -/

/-- A start fails (R367): only MC0 and the CXL controller stay powered, so memory is lost. -/
def State.failStart (s : State) (code stage : Nat) : State :=
  let s := s.logErr 0xC 0 0 0 (toLE 4 code ++ toLE 4 stage)
  let s := if s.mgmt.kind = 3 then s.bankedFailed else s
  let s := (List.range 96).foldl (fun s p => (s.portTo p .disabled).onPort p (fun q => { q with laser := false, egress := [], held := [] })) s
  let s := (List.range 8).foldl (fun s n => s.onOptic n (fun o => { o with powered := false })) s
  let s := (List.range 88).foldl (fun s d => s.onDom d (fun x => if x.st = .dark then x else { x.setV 0 with st := .off })) s
  let again : Bool := s.mgmt.kind == 3 && s.mgmt.coldNext
  { s with
    cores := []
    host := { s.host with memActive := false }
    flash := { s.flash with lastStartFailed := true }
    mgmt := { s.mgmt with
      stage := 7
      failCode := BitVec.ofNat 8 code
      up := 1
      standby := false
      coldNext := true
      bankedDue := again } }

/-- Recovery (R362): MC0 alone, from the mask ROM. -/
def State.recover (s : State) (code : Nat) : State :=
  let s := s.failStart code 1
  { s with
    mgmt := { s.mgmt with recovery := true, partCode := 0x0025, stepping := 0xB0, tier := 0 }
    sec := { s.sec with licence := none, signReady := false } }

/-- The image a cold start selects (R361): the slot, and whether it is a fallback. -/
def State.pickImage (s : State) (b : Boot) : Option (Bool × Bool) :=
  let ok (slotB : Bool) : Bool := if slotB then b.imgB else b.imgA
  let pref := s.flash.bootB
  if ok pref then some (pref, false) else if ok !pref then some (!pref, true) else none

/-- Version and digest of a slot's image: as the last update recorded them, else as the start finds them. -/
def State.imageId (s : State) (b : Boot) (slotB : Bool) : Word × List Byte :=
  let d := Tbl.get [] s.flash.digest (b2n slotB)
  if d = [] then (b.version, b.digest) else (Tbl.get 0 s.flash.version (b2n slotB), d)

/-- Stage 1 after the image is chosen: CFG_PART_ID, the tier in force (R4, R11), the cap held to its ceiling (R9). -/
def State.stageOne (s : State) (kind : Nat) (slotB fallback : Bool) (b : Boot) : State :=
  let s := if fallback && kind != 3 then s.logErr 5 0 0 0 (toLE 4 (b2n !slotB)) else s
  let (ver, dig) := if kind = 3 then (s.mgmt.fwVersion, s.mgmt.fwDigest) else s.imageId b slotB
  let tier := match s.sec.licence with
    | some l => l.tier
    | none => 0
  let s := { s with mgmt := { s.mgmt with
    partCode := if s.mgmt.defect56 then 0x5625 else 0x6425
    stepping := 0xB0
    tier := tier
    imageB := slotB
    fallback := fallback
    fwVersion := ver
    fwDigest := dig
    minorMax := if kind = 3 then s.mgmt.minorMax else b.minorMax } }
  if s.capW > tierCeiling tier then
    let s := s.putBoth 0x05000000 (BitVec.ofNat 32 (tierCeiling tier))
    { s with flash := { s.flash with board := s.cfg.applied, boardSet := true } }
  else s

/-- The rows of a stack in the field-failure list. -/
def State.listedRows (s : State) (st : Nat) : List Nat :=
  s.flash.fails.filterMap (fun e => match e with
    | .row n u => if n = st then some u else none
    | _ => none)

/-- A cold start's training of one stack: lane repairs chosen, row repairs applied, each bank within its 16 spare rows;
a bank without one keeps its row, which is logged (R192). -/
def State.repairStack (s : State) (b : Boot) (st : Nat) : State :=
  let rows := s.listedRows st
  let fits (i u : Nat) : Bool := ((Config.mapRows st ++ rows.take i).filter (fun v => v / 65536 == u / 65536)).length < 16
  let done := (rows.zipIdx.filter (fun (u, i) => fits i u)).length
  let s := (rows.zipIdx.filter (fun (u, i) => !fits i u)).foldl (fun s (u, _) =>
    s.logErr 9 0 2 st (toLE 4 (u / 65536) ++ toLE 4 (u % 65536))) s
  s.onStk st (fun k =>
    { k with lanes := b.lanes.getD st 0, rowsRepaired := BitVec.ofNat 16 ((Config.mapRows st).length + done) })

/-- The valid readings of a stack's four sensors (R347). -/
def State.stackTemps (s : State) (st : Nat) : List Int := (List.range 4).filterMap (fun k => s.reading (96 + 4 * st + k))

/-- Does a channel restore its saved settings (R371): the record's CRC is valid, it was written on this device, by the running
image version, and every sensor of the stack reads within 15 °C of its temperature. -/
def State.restores (s : State) (ch : Nat) : Bool :=
  match Tbl.get none s.flash.train ch with
  | some r =>
    r.crc && r.here && r.version == s.mgmt.fwVersion && (s.stackTemps (ch / 8)).length == 4
      && (match r.temp with
          | some t => (s.stackTemps (ch / 8)).all (fun x => decide ((x - t).natAbs ≤ 60))
          | none => false)
  | none => false

/-- A channel trained in full has its record rewritten (R359), with the temperature of the stack's hottest sensor. -/
def State.trainChannel (s : State) (ch : Nat) : State :=
  let temp := match s.stackTemps (ch / 8) with
    | [] => none
    | x :: r => some (r.foldl max x)
  { s with flash := { s.flash with
      train := Tbl.set none s.flash.train ch (some { version := s.mgmt.fwVersion, temp := temp }) } }

/-- Stage 3 (R364, R366, R371): a cold start with full tests trains every channel in full; one with saved settings restores
the channels that may be and trains the others, and those whose restored settings fail their read-back, in full; a banked
restart keeps the settings in force. -/
def State.stageThree (s : State) (kind : Nat) (b : Boot) : State :=
  let s := if kind = 3 then s
    else
      let s := (List.range 16).foldl (fun s st => s.repairStack b st) s
      let full := (List.range 128).filter (fun ch => kind == 1 || !s.restores ch || b.unread.any (fun x => x.val == ch))
      let s := full.foldl State.trainChannel s
      { s with flash := { s.flash with repairs := sumNat ((List.range 16).map (fun st => (s.listedRows st).length)) } }
  { s with host := { s.host with memActive := true } }

/-- The position of a logical port (R201): ascending order round the spare, but for a recorded substitution. -/
def State.portPlace (s : State) (p : Nat) : Nat × Bool :=
  let sp := 12 - Tbl.get 0 s.mgmt.spares (p / 12)
  let k := p % 12
  let listed := s.flash.fails.filterMap (fun e => match e with
    | .port q pos => if q = p then some pos else none
    | _ => none)
  match listed.getLast? with
  | some pos => (pos, true)
  | none => (if k < sp then k else k + 1, false)

/-- Stage 4: positions under the map and the list of substitutions (R201, R214), enabled ports in training (R211, R216). -/
def State.stageFour (s : State) (kind : Nat) (b : Boot) : State :=
  let s := (List.range 96).foldl (fun s p =>
    let (pos, sub) := s.portPlace p
    let on := s.portOn p
    let lit : Bool := on && !(s.optic (p / 12)).railFailed
    s.onPort p (fun q =>
      { q with
        pos := BitVec.ofNat 4 pos
        subst := sub
        laser := lit
        st := if !on then .disabled else if lit then .training else .down })
    |>.train p (kind != 1)) s
  (List.range 8).foldl (fun s n =>
    let sp := 12 - Tbl.get 0 s.mgmt.spares n
    let moved := (List.range 12).find? (fun k => (s.portPlace (12 * n + k)).2)
    s.onOptic n (fun o =>
      let o :=
        { o with
          good := if kind = 3 then o.good else b.good.getD n 0
          spare := if moved.isSome then 0xF else BitVec.ofNat 4 sp
          powered := (List.range 12).any (fun k => s.portOn (12 * n + k))
          lasersOff := false
          substAt := none
          logFrom := 0
          logTo := 0
          logReason := 0 }
      match moved with
      | some k =>
        { o with
          logFrom := BitVec.ofNat 4 (if k < sp then k else k + 1)
          logTo := BitVec.ofNat 4 (s.portPlace (12 * n + k)).1
          logReason := 4 }
      | none => o)) s

/-- Is a stack's rail failed, or a stack in the field-failure list (R334). -/
def State.stackLost (s : State) : Bool :=
  (List.range 16).any (fun n => (s.stk n).railFailed || s.flash.fails.contains (.stack n))

/-- A start from its beginning to stage 5, or to its failure (R366, R367); FLASH_WP_N is low from here on (R357). -/
def State.bringUp (s : State) (kind : Nat) (b : Boot) : State :=
  let cold : Bool := kind != 3
  let s := s.discardAll kind
  let s := { s with flash := { s.flash with
    startCount := satInc s.flash.startCount
    ok0 := b.flash0
    ok1 := b.flash1
    wp := true } }
  match (if cold then s.pickImage b else some (s.mgmt.imageB, s.mgmt.fallback)) with
  | none => s.recover 1
  | some (slotB, fb) =>
    if cold && !b.partOk then s.recover 2
    else
      let s := s.stageOne kind slotB fb b
      if bit s.clk.refLost 0 then s.failStart 3 2
      else if cold && !b.testsOk && b.fail == 4 then s.failStart 4 2
      else if cold && !b.testsOk && b.fail == 5 then s.failStart 5 3
      else if s.stackLost then s.failStart 6 3
      else
        let s := { s with mgmt := { s.mgmt with
            sliceOut := (List.range 16).foldl (fun t st => Tbl.set 0 t st (Config.sliceOut st)) []
            portsOut := Config.portsOut } }
        let s := (s.stageThree kind b).stageFour kind b
        let s := { s with mgmt := { s.mgmt with stage := 5 } }
        if s.mgmt.faultReport then s.reportFault else s

/-- A start, or its wait until THERM_TRIP_N has released (R353). -/
def State.beginStart (s : State) (kind : Nat) (b : Boot) : State :=
  if s.thm.trip then { s with mgmt := { s.mgmt with waitStart := some (kind, b), bankedDue := false } }
  else (s.bringUp kind b).serve

/-- A banked restart, or the cold start that replaces it (R365). -/
def State.beginBanked (s : State) (b : Boot) : State :=
  s.beginStart (if s.mgmt.coldNext || !b.digestOk then 2 else 3) b

/-- Does a cold start at power-up call for full tests (R364). -/
def State.fullTests (s : State) (b : Boot) : Bool :=
  let f := s.flash
  let ver := match s.pickImage b with
    | some (slotB, _) => (s.imageId b slotB).1
    | none => b.version
  let good (ch : Nat) : Bool := match Tbl.get none f.train ch with
    | some r => r.crc && r.here && r.version == ver
    | none => false
  !(List.range 128).all good || f.lastStartFailed ||
    f.repairs < sumNat ((List.range 16).map (fun st => (s.listedRows st).length))

/-- MC0 saves every core's margin and trim, and every domain's R_BASE (R327, R359). -/
def State.saveTemper (s : State) : State :=
  let t := (List.range 72).foldl (fun t d => Tbl.set (0, 0) t d ((s.dom d).margin.toNat, (s.dom d).trim)) s.flash.temper
  let r := (List.range 89).foldl (fun t d => Tbl.set 0 t d (s.dom d).rBase) s.flash.rBase
  { s with flash := { s.flash with temper := t, rBase := r } }

/-- CFG_START (R363): the start an apply requested, once its response stands: an orderly restart (R327). -/
def execCfgStart (b : Boot) (t : Nat) (s : State) : Res :=
  let s := s.at_ t
  if s.cfg.startReq = 0 ∨ !s.mc0Up ∨ !s.pins.pwrGood then .next s
  else
    let kind := s.cfg.startReq.toNat
    let s := if s.mgmt.stage = 6 then s.saveTemper else s
    .next (if kind = 3 then s.beginBanked b else s.beginStart kind b)

/-- BANKED_RESTART (R280, R353, R365): one that is due. -/
def execBankedRestart (b : Boot) (t : Nat) (s : State) : Res :=
  let s := s.at_ t
  if s.mgmt.bankedDue && s.pins.pwrGood then .next (s.beginBanked b) else .next s

/-! ### Stage 5 (R22–R24, R330, R366, R368–R370) -/

/-- A core domain is On, its output at its target and its clock at the step in force. -/
def State.switchOn (s : State) (d : Nat) : State :=
  let fit := s.ffitOf d
  let s := s.onDom d (fun x =>
    { x with
      st := .on
      ffit := BitVec.ofNat 4 fit
      fstep := BitVec.ofNat 4 (s.stepFor d x.ftarget.toNat)
      askedAt := none
      granted := none
      withheld := false
      pending := false
      parked := false
      parkPending := false })
  s.onDom d (fun x =>
    { x.setV (BitVec.ofNat 10 (s.vTarget d x.fstep.toNat)) with vfit := BitVec.ofNat 10 (s.vfitAt d x.fstep.toNat) })

/-- A core domain is Dark: its output is off. -/
def State.goDark (s : State) (d : Nat) : State :=
  s.onDom d (fun x => { x.setV 0 with st := .dark, askedAt := none, granted := none, withheld := false, pending := false, shunt := false, clampOn := false })

/-- The enabled clusters, ascending (R3). -/
def State.clusters (s : State) : List Nat :=
  (List.range 8).filter (fun c => !(s.mgmt.defect56 && c == s.mgmt.defectCluster))

/-- The physical cores in the field-failure list, oldest entry first. -/
def State.failedCores (s : State) : List Nat :=
  s.flash.fails.filterMap (fun e => match e with
    | .core pc => some pc
    | _ => none)

/-- The physical core that carries a logical one (R20, R22, R23): the spare takes the number of one failed core of its
cluster, the one it took at run time or the first listed, and no other. -/
def State.carrier (s : State) (lc : Nat) : Option Nat :=
  match s.clusters[lc / 8]? with
  | none => none
  | some cl =>
    let sp := s.clusterSpare cl
    let bad := s.failedCores
    let k := lc % 8
    let pc := if 9 * cl + k < sp then 9 * cl + k else 9 * cl + k + 1
    let taken := match Tbl.get none s.flash.spareFor cl with
      | some x => some x
      | none => bad.find? (fun x => x / 9 == cl && x != sp)
    if !bad.contains pc then some pc
    else if taken == some pc && !bad.contains sp then some sp
    else none

/-- A spare that carries a logical core goes into the list with the number it took (R23). -/
def State.noteSpare (s : State) (lc : Nat) : State :=
  match s.carrier lc, s.clusters[lc / 8]? with
  | some pc, some cl =>
    let own := if 9 * cl + lc % 8 < s.clusterSpare cl then 9 * cl + lc % 8 else 9 * cl + lc % 8 + 1
    if pc = own then s else { s with flash := { s.flash with spareFor := Tbl.set none s.flash.spareFor cl (some own) } }
  | _, _ => s

/-- One entry of the core map (R24): over a banked restart the physical core keeps its scratchpad. -/
def State.loadMap (s : State) (lc : Nat) : State :=
  match s.carrier lc with
  | none => s.setCore lc {}
  | some pc =>
    if (s.core lc).phys.toNat = pc then s.onCore lc (fun c => { c with mapState := 1 })
    else s.setCore lc { phys := BitVec.ofNat 7 pc, mapState := 1 }

/-- What is out of use in a physical core: what the signed defect map names, and what self-test has found (R20, R370). -/
def steerOf (r : Stage5) (pc : Nat) : Steer :=
  { rows := (List.range 3).flatMap (fun a => (Config.rowsOut pc a).map (fun x => (a, x)))
      ++ (r.rows.filter (fun x => x.1.val == pc)).map (fun x => (x.2.1.eng.code, x.2.2.val))
    cols := (List.range 3).flatMap (fun a => (Config.colsOut pc a).map (fun x => (a, x)))
      ++ (r.cols.filter (fun x => x.1.val == pc)).map (fun x => (x.2.1.eng.code, x.2.2.val))
    banks := Config.banksOut pc ++ (r.banks.filter (fun x => x.1.val == pc)).map (·.2.val) }

/-- Do a core's spares suffice: 2 rows and 4 columns in each array, 2 banks (R20). -/
def Steer.fits (x : Steer) : Bool :=
  let many (l : List (Nat × Nat)) (a : Nat) : Nat := (((l.filter (fun y => y.1 == a)).map (·.2)).foldl (fun l y => insertUniq y l) []).length
  (List.range 3).all (fun a => decide (many x.rows a ≤ 2) && decide (many x.cols a ≤ 4))
    && decide ((x.banks.foldl (fun l y => insertUniq y l) []).length ≤ 2)

/-- Steering is applied (R369) to what the map and a cold start's self-test name; a core whose spares do not suffice has failed
(R370). A banked restart runs no self-test and keeps the steering. -/
def State.applySteer (s : State) (r : Stage5) : State :=
  if s.mgmt.kind = 3 then s
  else
    let pcs := s.clusters.flatMap (fun cl => (List.range 9).map (fun k => 9 * cl + k))
    let s := { s with mgmt := { s.mgmt with steer := pcs.foldl (fun t pc => Tbl.set {} t pc (steerOf r pc)) [] } }
    (pcs.filter (fun pc => !(steerOf r pc).fits)).foldl (fun s pc => s.fieldFail (.core pc) 1 pc 0) s

/-- START_STAGE_5 (R366, R368–R370): failures join the list and go Dark, the others are On, the map is loaded, MC1, MC2
and MC3 start. -/
def execStartStage5 (r : Stage5) (t : Nat) (s : State) : Res :=
  let s := s.at_ t
  if s.mgmt.stage ≠ 5 ∨ s.mgmt.faultActive ∨ !s.thm.coolantOk ∨ !s.pins.pwrGood then .next s
  else if r.beyond then .next (s.failStart 7 5)
  else
    let s := r.failed.foldl (fun s pc => s.fieldFail (.core pc) 1 pc 0) (s.applySteer r)
    let bad := s.failedCores
    let s := s.clusters.foldl (fun s cl => (List.range 9).foldl (fun s k =>
      if bad.contains (9 * cl + k) then s.goDark (9 * cl + k) else s.switchOn (9 * cl + k)) s) s
    let s := (List.range 64).foldl (fun s lc => (s.noteSpare lc).loadMap lc) s
    .next { s with
      flash := { s.flash with lastStartFailed := false }
      mgmt := { s.mgmt with
        stage := 6
        up := 15
        primary2 := false
        standby := true
        wdStarts := 0
        coldNext := false
        duration := BitVec.ofNat 16 (min 65535 ((s.clk.now - s.mgmt.startedAt) / 1000000)) } }

/-- Bits set in a 16-bit mask. -/
def popCount16 (m : BitVec 16) : Nat := ((List.range 16).filter (fun i => bit m i)).length

/-! ### Power-good and the supplies (R321, R423–R425) -/

/-- Loss of every domain but the always-on one (R424): work, memory and link are gone, DBG_FAULT_STAT stands. -/
def State.powerOff (s : State) : State :=
  let s := s.hostReset
  let off (x : Domain) : Domain := { x.setV 0 with st := .off, amps := 0, askedAt := none, granted := none, withheld := false }
  let s := (List.range 88).foldl (fun s d => s.onDom d off) s
  let port (q : Port) : Port := { sent := q.sent, pos := q.pos, subst := q.subst }
  let opt (o : Optic) : Optic := { o with powered := false }
  let m := s.mgmt
  { s with
    cores := []
    mem := s.mem.restart true
    ports := Tbl.mapv {} port s.ports
    optics := Tbl.mapv {} opt s.optics
    fab := {}
    jobs := {}
    cfg := { s.cfg with staged := [], active := none, queue := [], startReq := 0, goReq := false, discardLater := false }
    host := { s.host with held := [], faultsMerged := false, memActive := false, apts := [] }
    pins := { s.pins with pwrGood := false }
    mgmt := { m with
      partCode := 0
      stepping := 0
      tier := 0
      stage := 0
      up := 1
      standby := false
      update := {}
      bankedDue := false
      coldNext := true
      waitStart := none
      faultJobs := []
      faultReport := false } }

/-- Loss of the always-on supply too: MC0 stops, and what its domain kept is gone (R334, R390). -/
def State.allOff (s : State) : State :=
  let s := s.powerOff
  { s with
    mgmt := { s.mgmt with up := 0 }
    sec := { s.sec with usedMax := none, signReady := false, attests := [] } }

/-- PWR_GOOD_RISE (R364, R424): a cold start, with full tests where they are called for; SMB_ADDR is sampled. -/
def execPwrGoodRise (b : Boot) (strap : BitVec 2) (t : Nat) (s : State) : Res :=
  let s := s.at_ t
  let p := s.pins
  if p.pwrGood || !p.vddio33 || !p.vddio18 || !p.vinOk || !s.pwr.alwaysOn then .next s
  else
    let s := { s with
      pins := { p with pwrGood := true, smbAddr := strap }
      pwr := { s.pwr with tiles := BitVec.ofNat 5 (16 - popCount16 s.pwr.tilesBad) } }
    .next (s.beginStart (if s.fullTests b then 1 else 2) b)

/-- PWR_GOOD_FALL (R424). -/
def execPwrGoodFall (s : State) : Res := if s.pins.pwrGood then .next s.powerOff else .next s

/-- VDDIO_LOW (R423): below 2.8 V PWR_GOOD, COOLANT_OK and CXL_PERST_N count as deasserted, each through its own
filter; below 1.6 V the flash bus is not driven, and its write protection is on (R427). -/
def execVddioLow (io18 : Bool) (s : State) : Res :=
  if io18 then .next { s with pins := { s.pins with vddio18 := false }, flash := { s.flash with wp := true } }
  else
    let s := if s.pins.perstN then s.hostReset else s
    let fall := if s.pins.coolantOk && s.thm.coolantOk then some s.clk.now else s.thm.fallAt
    .next { s with
      pins := { s.pins with vddio33 := false, perstN := false, coolantOk := false }
      thm := { s.thm with fallAt := fall, riseAt := none } }

/-- VDDIO_RESTORED (R423): the inputs are read again, and their own events follow. -/
def execVddioRestored (io18 : Bool) (s : State) : Res :=
  .next { s with pins := if io18 then { s.pins with vddio18 := true } else { s.pins with vddio33 := true } }

/-- VIN_OUT_OF_RANGE (R321, R425): below 36 V or above 62 V the tiles stop, as at a loss of power. -/
def execVinOutOfRange (mv : Nat) (s : State) : Res :=
  let s := { s with pwr := { s.pwr with inputMv := BitVec.ofNat 16 (min mv 65535) } }
  if 36000 ≤ mv ∧ mv ≤ 62000 then .next s
  else .next (({ s with pins := { s.pins with vinOk := false } } : State).allOff)

/-- VIN_48_RESTORED (R321): within 40–60 V the always-on converter runs, and MC0 starts from its mask ROM. -/
def execVin48Restored (mv : Nat) (s : State) : Res :=
  if s.pins.vinOk ∨ mv < 40000 ∨ 60000 < mv then .next s
  else .next { s with
    pins := { s.pins with vinOk := true }
    pwr := { s.pwr with inputMv := BitVec.ofNat 16 mv }
    mgmt := { s.mgmt with up := if s.pwr.alwaysOn then 1 else 0 } }

/-- ALWAYS_ON_FAIL (R334): MC0 stops; a loss of power. -/
def execAlwaysOnFail (s : State) : Res :=
  if s.pwr.alwaysOn then .next (({ s with pwr := { s.pwr with alwaysOn := false } } : State).allOff) else .next s

/-! ### The management cores (R372, R373) -/

/-- MC0_WATCHDOG_EXPIRY (R367, R372): a start is repeated from stage 1, the third time in a row it fails; otherwise MC0
restarts, and the third failed attempt in a row is fatal firmware. -/
def execMc0WatchdogExpiry (ok : Bool) (b : Boot) (t : Nat) (s : State) : Res :=
  let s := s.at_ t
  if !s.pins.pwrGood || s.mgmt.recovery || (!s.mc0Up && s.mgmt.wdFails == 0) then .next s
  else
    let m := s.mgmt
    let s := s.logErr 0xA 0 6 0 (toLE 4 0 ++ toLE 4 (m.wdFails + 1))
    if s.starting && !m.faultActive then
      let s := { s with mgmt := { m with wdStarts := m.wdStarts + 1 } }
      if m.wdStarts + 1 ≥ 3 then .next (({ s with mgmt := { s.mgmt with wdStarts := 0 } } : State).failStart 8 5)
      else .next (s.beginStart m.kind.toNat b)
    else
      let s := { s with mgmt := { m with mc0Restarts := satInc m.mc0Restarts } }
      if ok then .next (({ s with mgmt := { s.mgmt with up := setBit m.up 0, wdFails := 0 } } : State).serve)
      else
        let s := { s with mgmt := { s.mgmt with up := clrBit m.up 0, wdFails := m.wdFails + 1 } }
        if m.wdFails + 1 = 3 then .next (({ s with mgmt := { s.mgmt with wdFails := 0 } } : State).deviceFault 3) else .next s

/-- MC_HEARTBEAT_MISS (R372, R373): the standby takes over; without one ready, firmware has failed. -/
def execMcHeartbeatMiss (t : Nat) (s : State) : Res :=
  let s := s.at_ t
  let m := s.mgmt
  if m.stage ≠ 6 ∨ !s.primaryUp then .next s
  else
    let n := if m.primary2 then 2 else 1
    let down := clrBit m.up n
    if m.standby then
      let s := s.logErr 0xA 0 6 n (toLE 4 n ++ toLE 4 (m.takeovers.toNat + 1))
      .next { s with mgmt := { m with
        up := down
        primary2 := !m.primary2
        standby := false
        takeovers := satInc m.takeovers } }
    else .next (({ s with mgmt := { m with up := down } } : State).deviceFault 3)

/-- STANDBY_RESTART_DONE (R372): MC0 has restarted the failed scheduler as the new standby. -/
def execStandbyRestartDone (s : State) : Res :=
  let m := s.mgmt
  let n := if m.primary2 then 1 else 2
  if m.stage ≠ 6 ∨ !s.mc0Up ∨ m.standby ∨ bit m.up n ∨ m.faultActive then .next s
  else
    let s := s.logErr 0xA 0 6 n (toLE 4 n ++ toLE 4 1)
    .next { s with mgmt := { m with up := setBit m.up n, standby := true } }

end Sys2Proof.Machine
end

