-- ==== Sys2Proof/Machine/Access.lean ====
section
/-! DEFINITION. Access to the registers through BAR0 (R13, R401–R405, R414), the error log's window (R415, R416), and the
replacement of firmware (R378). -/

namespace Sys2Proof.Machine

/-! ### Writes (R13, R303, R403) -/

/-- The core and the offset in its block of a BAR0 offset. -/
def coreBlock (off : Nat) : Option (Nat × Nat) :=
  if 0x01000000 ≤ off ∧ off < 0x01400000 then some ((off - 0x01000000) / 0x10000, off % 0x10000) else none

/-- A write of ones to a W1C field clears its bits (R51, R91, R303, R354); none where the offset has no such field. -/
def State.w1c? (s : State) (off : Nat) (v : Word) : Option State :=
  let clr (w : Word) : Word := w &&& ~~~v
  match coreBlock off with
  | some (n, o) =>
    if o = 0x200 then some (s.onArray n .f (fun a => { a with flags := clr a.flags }))
    else if o = 0x204 then some (s.onArray n .g0 (fun a => { a with flags := clr a.flags }))
    else if o = 0x208 then some (s.onArray n .g1 (fun a => { a with flags := clr a.flags }))
    else if o = 0x20C then some (s.onInteg n (fun g => { g with vecFlags := clr g.vecFlags }))
    else if o = 0x210 then some (s.onInteg n (fun g => { g with redFlags := clr g.redFlags }))
    else none
  | none =>
    if off = 0x04040008 then some { s with host := { s.host with faultsMerged := s.host.faultsMerged && !bit v 31 } }
    else if off = 0x06000000 then
      some { s with clk := { s.clk with everLost := s.clk.everLost &&& ~~~(BitVec.ofNat 4 (fld v 4 4)) } }
    else none

/-- A write in a mailbox pair (R299, R303). RESET acts where ENABLE stood at 0. -/
def Pair.write (p : Pair) (o : Nat) (v : Word) : Pair :=
  if o < 0x1000 then { p with h2d := Mem.writeN p.h2d o (toLE 4 v.toNat) }
  else if o = 0x2000 then { p with h2dProd := v }
  else if o = 0x200C then { p with d2hCons := v }
  else if o = 0x2010 then
    let p := if bit v 2 && !p.enable then p.zero else p
    { p with enable := bit v 0, irqEn := bit v 1 }
  else p

/-- A write in a core block: the count registers and the two selectors (R141, R167, R282). -/
def Sequencer.write (q : Sequencer) (o : Nat) (v : Word) : Sequencer :=
  match nth? o 0x0240 4 16 with
  | some n => { q with cregs := Tbl.set 0 q.cregs n v }
  | none =>
    if o = 0x884 then { q with winSel := v.setWidth 12 }
    else if o = 0xA24 then { q with grpSel := v.setWidth 12 }
    else q

/-- A write of the MSI-X table (R302); a vector left pending goes out as its entry's mask clears. -/
def State.writeMsix (s : State) (i : Nat) (v : Word) : State :=
  let s := { s with host := { s.host with msixTable := Tbl.set 0 s.host.msixTable i v } }
  if i % 4 = 3 ∧ !bit v 0 ∧ bit s.host.msixPend (i / 4) then
    let s := { s with host := { s.host with msixPend := clrBit s.host.msixPend (i / 4) } }
    s.sendVector (i / 4)
  else s

/-- A write of DBG_ERRLOG_SEL begins a fetch (R416). -/
def State.selectErr (s : State) (seq : Word) : State :=
  { s with mgmt := { s.mgmt with errSel := seq, errReady := false, errGone := false, errPend := true } }

/-- A write of an STG register: the staged copy; in recovery an update register takes effect at once (R362, R403). -/
def State.writeStg (s : State) (off : Nat) (v : Word) : State :=
  if s.mgmt.recovery && 0x3020 ≤ off && off < 0x3030 then
    let s := s.putBoth off (noGo off v)
    if off = 0x3020 ∧ bit v 2 then { s with cfg := { s.cfg with goReq := true } } else s
  else s.stage off v

/-- A 32-bit write of BAR0; an offset that takes none is ignored (R13, R401). -/
def State.writeReg (s : State) (off : Nat) (v : Word) : State :=
  if off % 4 ≠ 0 then s
  else if (stgReg off).isSome then s.writeStg off v
  else if off = 0x4010 then (if bit v 0 then s.discardNow else s)
  else if off = 0x5004 then s.selectErr v
  else
    match s.w1c? off v with
    | some s => s
    | none =>
      match coreBlock off with
      | some (n, o) => s.onSeq n (fun q => q.write o v)
      | none =>
        if 0x04000000 ≤ off ∧ off < 0x04040000 then
          s.onPair ((off - 0x04000000) / 0x4000) (fun p => p.write (off % 0x4000) v)
        else
          match nth? off 0x04060000 4 64 with
          | some i => s.writeMsix i v
          | none => s

/-- REGISTER_WRITE (R401, R403). -/
def execRegisterWrite (off : BitVec 28) (v : BitVec 32) (s : State) : Res :=
  if s.host.linkUp then .next (s.writeReg off.toNat v) else .next s

/-- W1C_WRITE (R13). -/
def execW1cWrite (off : BitVec 28) (v : BitVec 32) (s : State) : Res :=
  if s.host.linkUp then .next ((s.w1c? off.toNat v).getD s) else .next s

/-! ### Reads with an effect (R395, R414) -/

/-- What a read delivers to the host. -/
def State.readOut (s : State) (off : BitVec 28) (v : Word) : State :=
  { s with host := { s.host with out := s.host.out ++ [.regData off v] } }

/-- Latch the high half that goes with a _LO register; none where the offset is not one. -/
def State.latch? (s : State) (off : Nat) : Option State :=
  match coreBlock off with
  | some (n, o) =>
    let k := (o - 0x400) / 0x60
    let j := (o - 0x400) % 0x60
    if 0x400 ≤ o ∧ o < 0x7C0 ∧ j % 8 = 0 ∧ j / 8 < 11 then
      let i := 11 * k + j / 8
      some (s.onSeq n (fun q => { q with stallHi := Tbl.set 0 q.stallHi i (hi32 (Tbl.get 0 q.stalls i : DWord).toNat) }))
    else none
  | none =>
    match nth? off 0x02020010 0x100 16, nth? off 0x03000030 0x100 96, nth? off 0x03000038 0x100 96 with
    | some n, _, _ => some (s.onStk n (fun k => { k with lastTimeHi := hi32 k.lastTime.toNat }))
    | _, some p, _ => some (s.onPort p (fun q => { q with txHi := hi32 q.txBytes.toNat }))
    | _, _, some p => some (s.onPort p (fun q => { q with rxHi := hi32 q.rxBytes.toNat }))
    | none, none, none =>
      if off = 0x2004 then some { s with mgmt := { s.mgmt with faultTimeHi := hi32 s.mgmt.faultTime.toNat } }
      else if off = 0x05000010 then some { s with pwr := { s.pwr with energyHi := hi32 (s.pwr.energyUj / 1000) } }
      else if off = 0x05000018 then some { s with pwr := { s.pwr with damperHi := hi32 s.pwr.damperUs.toNat } }
      else if off = 0x06000004 then
        let (v, s) := s.fresh
        some { s with clk := { s.clk with timeHi := hi32 s.clk.now, timeFracLatched := v.setWidth 16 } }
      else if off = 0x0700000C then
        some { s with sec := { s.sec with numHi := hi32 ((s.sec.licence.map Licence.number).getD 0).toNat } }
      else none

/-- LO_READ_LATCH (R354, R414): the low half is delivered, the high half latched. -/
def execLoReadLatch (off : BitVec 28) (s : State) : Res :=
  if !s.host.linkUp then .next s
  else
    match s.latch? off.toNat with
    | none => .next s
    | some s => .next (s.readOut off (s.readReg off.toNat))

/-- A fresh nonce, which voids the one before (R395): its bytes are free values. -/
def State.newNonce (s : State) : State :=
  let s := (List.range 8).foldl (fun s i =>
    let (v, s) := s.fresh
    { s with sec := { s.sec with nonce := Tbl.set 0 s.sec.nonce i (v.setWidth 32) } }) s
  { s with sec := { s.sec with nonceMade := s.sec.nonceMade + 1, nonceAt := some s.clk.now } }

/-- NONCE_READ (R395). -/
def execNonceRead (t : Nat) (s : State) : Res :=
  let s := s.at_ t
  if s.host.linkUp then
    let s := s.newNonce
    .next (s.readOut 0x07000020 (Tbl.get 0 s.sec.nonce 0))
  else .next s

/-! ### The error log (R415, R416) -/

/-- ERRLOG_SELECT (R416). -/
def execErrlogSelect (seq : BitVec 32) (s : State) : Res := if s.host.linkUp then .next (s.selectErr seq) else .next s

/-- ERRLOG_FETCH_DONE (R416): the entry and READY, or GONE where it has been erased or not yet written. -/
def execErrlogFetchDone (s : State) : Res :=
  let m := s.mgmt
  if !m.errPend || !s.mc0Up then .next s
  else
    let n := m.errSel.toNat
    if s.flash.logFirst.toNat ≤ n ∧ n < s.flash.logNext.toNat then
      .next { s with mgmt := { m with errPend := false, errReady := true, errData := Tbl.get [] s.flash.errlog n } }
    else .next { s with mgmt := { m with errPend := false, errGone := true } }

/-- SCP_CORR_LOG_HOURLY (R415): an entry for each core whose SCP_ECC_CORR has risen. -/
def execScpCorrLogHourly (t : Nat) (s : State) : Res :=
  let s := s.at_ t
  if s.mgmt.corrAt + 3600000000000 > s.clk.now ∨ !s.mc0Up then .next s
  else
    let s := (List.range 64).foldl (fun s n =>
      let c := s.core n
      let was := Tbl.get 0 s.mgmt.corrLogged n
      let now := c.scp.eccCorr
      if was.toNat < now.toNat then
        let s := s.logErr 0xD 0 1 c.phys.toNat (toLE 4 (now.toNat - was.toNat) ++ toLE 4 (c.readScp 0 0x8A8).toNat)
        { s with mgmt := { s.mgmt with corrLogged := Tbl.set 0 s.mgmt.corrLogged n now } }
      else s) s
    .next { s with mgmt := { s.mgmt with corrAt := s.clk.now } }

/-! ### Replacing firmware (R360, R362, R378) -/

/-- Is an update under way. -/
def Update.busy (u : Update) : Bool := 1 ≤ u.state.toNat && u.state.toNat ≤ 5

/-- FW_UPDATE_GO (R378): MC0 reads the image or bundle the registers name; an image's version and digest are those of
R360, a bundle's layout is not given. -/
def execFwUpdateGo (s : State) : Res :=
  if !s.cfg.goReq || !s.mc0Up || s.mgmt.update.busy then .next s
  else
    let s := { s with cfg := { s.cfg with goReq := false } }
    let ctl := s.appliedReg 0x3020
    let a := (s.appliedReg 0x3024).toNat + 2 ^ 32 * (s.appliedReg 0x3028).toNat
    let bundle := bit ctl 1
    let (b, _, s) := s.fetchBytes (bit ctl 0) a (fld (s.appliedReg 0x302C) 0 25)
    let u : Update :=
      { state := 1
        bundle := bundle
        version := if bundle then 0 else BitVec.ofNat 32 (leAt b 4 4)
        digest := if bundle then [] else sha256 (b.take (leAt b 8 4)) }
    .next { s with mgmt := { s.mgmt with update := u } }

/-- ERR of a failed update. -/
def fwErr : FwResult → Nat
  | .ok => 0
  | .format => eImageFormat
  | .signature => eImageSignature
  | .part => eImagePart
  | .flash => eFlashWrite

/-- FW_UPDATE_DONE (R362, R378): the slot that is not running holds the new image and the boot preference names it, or
STATE 7 with ERR; in recovery a bundle that has been written starts the device cold with full tests. -/
def execFwUpdateDone (r : FwResult) (b : Boot) (t : Nat) (s : State) : Res :=
  let s := s.at_ t
  let u := s.mgmt.update
  if !u.busy || !s.mc0Up then .next s
  else if r ≠ .ok then
    .next { s with mgmt := { s.mgmt with update := { u with state := 7, err := BitVec.ofNat 8 (fwErr r) } } }
  else
    let slotB := !s.mgmt.imageB
    let s := { s with
      flash := { s.flash with
        bootB := slotB
        version := Tbl.set 0 s.flash.version (b2n slotB) u.version
        digest := Tbl.set [] s.flash.digest (b2n slotB) u.digest }
      mgmt := { s.mgmt with update := { u with state := 6 } } }
    .next (if s.mgmt.recovery && u.bundle then s.beginStart 1 b else s)

end Sys2Proof.Machine
end

