-- ==== Sys2Proof/Machine/Secure.lean ====
section
/-! DEFINITION. Licences, attestation and field access (R381–R399), the IEEE 1149.1 port (R394) and the sideband
(R428). -/

namespace Sys2Proof.Machine

/-! ### Signatures and licences (R382, R383, R392, R393) -/

/-- The public key and the signature of a signature block. -/
def blockKey (b : List Byte) : List Byte := bytesAt b 4 60
def blockSig (b : List Byte) : List Byte := b.drop 64

/-- A signature block over an object, under an anchor (R383). -/
def signedBy (anchor obj block : List Byte) : Bool :=
  sha256 (blockKey block) == anchor && Config.hssVerify (blockKey block) obj (blockSig block)

/-- A licence from its bytes. -/
def parseLicence (b : List Byte) : Licence :=
  { tier := BitVec.ofNat 4 (leAt b 6 1)
    number := BitVec.ofNat 64 (leAt b 8 8)
    owner := bytesAt b 0x30 32
    salt := bytesAt b 0x50 16
    verifier := bytesAt b 0x60 32
    sha := sha256 b }

/-- The checks of R393 in order, over the bytes read; `bad` where some were poisoned. -/
def State.licenceErr (s : State) (b : List Byte) (bad : Bool) : Option Nat :=
  let tier := leAt b 6 1
  if bad ∨ b.length ≠ 3796 ∨ leAt b 0 4 ≠ 0x4C565842 ∨ leAt b 4 2 ≠ 1 ∨ tier < 1 ∨ 3 < tier ∨ leAt b 7 1 ≠ 0 then
    some eLicenceFormat
  else if !signedBy Config.licenceAnchor (b.take 128) (b.drop 128) then some eLicenceSignature
  else if bytesAt b 0x10 32 ≠ sha256 Config.identityKey then some eLicenceBinding
  else
    match s.sec.licence with
    | some l => if leAt b 8 8 ≤ l.number.toNat then some eLicenceStale else none
    | none => none

/-- LICENCE_INSTALL (R11, R318, R372, R393): written to flash, in force from the next start. -/
def execLicenceInstall (s : State) : Res :=
  match s.found? 0 0x10 with
  | none => .next s
  | some f =>
    if s.hostAway then .next (s.refuse 0 f eHostAbsent)
    else if !s.mc0Up then .next s
    else if leAt f.bytes 32 4 ≠ 3796 then .next (s.refuse 0 f eLicenceFormat)
    else
      let (b, bad, s) := s.fetchBytes (leAt f.bytes 16 1 == 1) (leAt f.bytes 24 8) 3796
      match s.licenceErr b bad.isSome with
      | some e => .next (s.refuse 0 f e)
      | none => .next (({ s with flash := { s.flash with licence := some (parseLicence b) } } : State).accept 0 f [])

/-! ### Attestation (R387–R391) -/

/-- The applied value of every STG register, as the report digests it. -/
def State.configBytes (s : State) : List Byte := stgOffsets.flatMap (fun o => toLE 4 o ++ toLE 4 (s.appliedReg o).toNat)

/-- The report (R387). -/
def State.report (s : State) (nonce : List Byte) : List Byte :=
  let lic := match s.sec.licence with
    | some l => l.sha
    | none => []
  toLE 4 1 ++ toLE 4 s.partId.toNat ++ toLE 8 s.clk.now ++ toLE 4 s.flash.startCount.toNat
    ++ toLE 1 s.sec.level.toNat ++ toLE 1 (b2n s.mgmt.imageB) ++ toLE 10 0 ++ bytesAt nonce 0 32
    ++ bytesAt s.mgmt.fwDigest 0 32 ++ bytesAt lic 0 32 ++ bytesAt Config.defectMapSha 0 32
    ++ bytesAt (sha256 s.configBytes) 0 32 ++ toLE 64 0

/-- The reserved end a signature with the next index needs in flash (R389, R390), and that index. -/
def Security.reserve (c : Security) : Nat × Nat :=
  let q := match c.usedMax with
    | some m => if c.flashReserved.toNat ≤ m.toNat then max c.signNext.toNat (m.toNat + 1) else c.signNext.toNat
    | none => c.signNext.toNat
  (q, if c.flashReserved.toNat ≤ q then q + 1024 else c.flashReserved.toNat)

/-- Can the part sign (R391, R397): the keys are there, and indices are left. -/
def State.attestErr (s : State) : Option Nat :=
  if s.sec.keysErased then some eAccessOpen
  else if s.sec.reserve.1 ≥ 2 ^ 30 then some eIdentityExhausted
  else if !s.sec.signReady then some eNotReady
  else none

/-- ATTEST_REQUEST (R387–R391): the report is formed and waits for its signature. -/
def execAttestRequest (p : Fin 16) (t : Nat) (s : State) : Res :=
  let s := s.at_ t
  match s.found? p 0x11 with
  | none => .next s
  | some f =>
    match s.attestErr with
    | some e => .next (s.refuse p f e)
    | none =>
      let s := (s.onPair p (fun q => q.consumeMsg f)).accepted p f
      let a : Attest :=
        { pair := p
          reqSeq := BitVec.ofNat 32 f.seq
          minor := f.minor
          addr := leAt f.bytes 48 8
          report := s.report (bytesAt f.bytes 16 32) }
      .next { s with sec := { s.sec with attests := s.sec.attests ++ [a] } }

/-- MC0 signs the oldest report and writes report, signature and certificate to the host's buffer (R388, R389); `ready`
says whether the tree after the one that runs out is prepared. -/
def State.signNext (s : State) (ready : Bool) : State :=
  match s.sec.attests with
  | [] => s
  | a :: r =>
    let c := s.sec
    match s.attestErr with
    | some e => ({ s with sec := { c with attests := r } } : State).answerLate a.pair 0x11 a.minor a.reqSeq.toNat e 0 []
    | none =>
      let (q, reserved) := c.reserve
      if !s.mc0Up || !s.host.linkUp || (q % 32768 == 0 && q != 0 && !c.treeReady) then s
      else
        let sig := bytesAt (Config.identitySign (BitVec.ofNat 32 q) a.report) 0 3284
        let all := a.report ++ sig ++ bytesAt Config.identityCert 0 3796
        let s := { s with
          sec := { c with
            attests := r
            signNext := BitVec.ofNat 32 (q + 1)
            signReserved := BitVec.ofNat 32 reserved
            flashReserved := BitVec.ofNat 32 reserved
            usedMax := some (BitVec.ofNat 32 q)
            treeReady := if (q + 1) % 32768 = 0 then ready else c.treeReady }
          host := { s.host with mem := Mem.writeN s.host.mem a.addr all } }
        s.answerLate a.pair 0x11 a.minor a.reqSeq.toNat 0 0 (toLE 4 7336)

/-- ATTEST_SIGN (R388, R389). -/
def execAttestSign (treeReady : Bool) (s : State) : Res := .next (s.signNext treeReady)

/-- SECOND_LEVEL_TREE_READY (R389): the tree is ready, and an attestation that waited for it proceeds. -/
def execSecondLevelTreeReady (s : State) : Res :=
  if !s.mc0Up || s.sec.treeReady then .next s
  else .next (({ s with sec := { s.sec with treeReady := true } } : State).signNext false)

/-! ### Field access (R394–R397) -/

/-- A level opens (R397): entered in the log; at level 2 the identity keys are erased. -/
def State.openLevel (s : State) (level method : Nat) : State :=
  let s := s.logErr 0xB 0 0 0 (toLE 4 level ++ toLE 4 method)
  let c := s.sec
  { s with sec :=
      { c with
        level := BitVec.ofNat 2 (max c.level.toNat level)
        keysErased := c.keysErased || level == 2
        signReady := c.signReady && level != 2 } }

/-- The nonce's bytes. -/
def Security.nonceBytes (c : Security) : List Byte :=
  (List.range 8).flatMap (fun i => toLE 4 (Tbl.get 0 c.nonce i : Word).toNat)

/-- Is the nonce current: one attempt within 60 s (R395). -/
def State.nonceCurrent (s : State) : Bool := match s.sec.nonceAt with
  | some t => s.clk.now ≤ t + 60000000000
  | none => false

/-- The owner's key hash of the licence in force; none in recovery. -/
def State.ownerKey (s : State) : Option (List Byte) := match s.sec.licence with
  | some l => if l.owner.any (· != 0) && !s.mgmt.recovery then some l.owner else none
  | none => none

/-- Does a response answer the challenge for a level (R395). -/
def State.ownerAnswers (s : State) (level : Nat) (resp : List Byte) : Bool :=
  let block := resp.drop 4
  let msg := s.sec.nonceBytes ++ toLE 1 level ++ sha256 Config.identityKey ++ toLE 4 s.flash.startCount.toNat
  match s.ownerKey with
  | none => false
  | some k =>
    s.nonceCurrent && leAt resp 0 1 == level && (level == 1 || level == 2) && sha256 (blockKey block) == k
      && Config.hssVerify (blockKey block) msg (blockSig block)

/-- An attempt with an owner signature: the nonce is void after it. -/
def State.trySignature (s : State) (level : Nat) (resp : List Byte) : Bool × State :=
  let ok := s.ownerAnswers level resp
  let s := { s with sec := { s.sec with nonceAt := none } }
  (ok, if ok then s.openLevel level 0 else s)

/-- h₆₅₅₃₅ of a password (R396). -/
def pwHash (salt pw : List Byte) : List Byte :=
  Nat.repeat (fun h => sha256 (h ++ salt)) 65535 (sha256 (salt ++ pw))

/-- Does a password open a level: level 1 and nothing higher. -/
def State.passwordOpens (s : State) (level : Nat) (pw : List Byte) : Bool := match s.sec.licence with
  | some l =>
    l.verifier.any (· != 0) && !s.mgmt.recovery && level == 1 && 16 ≤ pw.length && pw.length ≤ 64
      && pwHash l.salt pw == l.verifier
  | none => false

/-- An attempt with a password (R396): the STATUS it comes to. -/
def State.tryPassword (s : State) (level : Nat) (pw : List Byte) : Nat × State :=
  if s.sec.pwLocked then (eAccessLocked, s)
  else if s.passwordOpens level pw then (0, s.openLevel 1 1)
  else
    let n := s.sec.pwFails.toNat + 1
    (eAccessDenied, { s with sec := { s.sec with pwFails := BitVec.ofNat 3 n, pwLocked := n ≥ 5 } })

/-- The attempt an apply made waits for MC0 and has its METHOD: what it presents. -/
def State.unlockData (s : State) (password : Bool) : Option (Apply × List Byte × State) :=
  match s.cfg.active with
  | none => none
  | some a =>
    let ctl := s.appliedReg 0x07000060
    if !a.unlock || bit ctl 1 != password || !s.mc0Up then none
    else
      let addr := (s.appliedReg 0x07000064).toNat + 2 ^ 32 * (s.appliedReg 0x07000068).toNat
      let (b, _, s) := s.fetchBytes (bit ctl 4) addr (fld (s.appliedReg 0x0700006C) 0 16)
      some (a, b, s)

/-- The apply takes the attempt's STATUS and goes on. -/
def State.unlockDone (s : State) (a : Apply) (status : Nat) : State :=
  ({ s with cfg := { s.cfg with active := some { a with unlock := false, status := status } } } : State).serve

/-- SEC_UNLOCK_SIGNATURE (R395). -/
def execSecUnlockSignature (t : Nat) (s : State) : Res :=
  let s := s.at_ t
  match s.unlockData false with
  | none => .next s
  | some (a, b, s) =>
    let (ok, s) := s.trySignature (fld (s.appliedReg 0x07000060) 2 2) b
    .next (s.unlockDone a (if ok then 0 else eAccessDenied))

/-- SEC_UNLOCK_PASSWORD (R396). -/
def execSecUnlockPassword (t : Nat) (s : State) : Res :=
  let s := s.at_ t
  match s.unlockData true with
  | none => .next s
  | some (a, b, s) =>
    let (status, s) := s.tryPassword (fld (s.appliedReg 0x07000060) 2 2) b
    .next (s.unlockDone a status)

/-! ### IEEE 1149.1 (R394) -/

/-- Bits leave on TDO. -/
def State.shiftOut (s : State) (instr : Nat) (l : List Bool) : State :=
  { s with sec := { s.sec with jtag := BitVec.ofNat 3 instr, tdo := s.sec.tdo ++ l } }

/-- The bits of a value, least significant first. -/
def bitsLsb (n v : Nat) : List Bool := (List.range n).map (fun i => bit (BitVec.ofNat n v) i)

/-- JTAG_BYPASS: the one-bit register, 0 when the instruction is entered, shifts. -/
def execJtagBypass (tdi : Bool) (s : State) : Res :=
  let was := s.sec.jtag == 1 && s.sec.bypass
  let s := s.shiftOut 1 [was]
  .next { s with sec := { s.sec with bypass := tdi } }

/-- JTAG_IDCODE: version, PART_CODE, Voxxa's JEP106 code, 1. -/
def execJtagIdcode (s : State) : Res :=
  let v := 1 + 2 * Config.jep106.toNat + 2 ^ 12 * s.mgmt.partCode.toNat + 2 ^ 28 * Config.idcodeVersion.toNat
  .next (s.shiftOut 2 (bitsLsb 32 v))

/-- An instruction the level has not opened selects BYPASS. -/
def State.closedInstr (s : State) : State := { s.shiftOut 1 [] with sec := { s.sec with jtag := 1, bypass := false } }

/-- JTAG_SAMPLE_PRELOAD: the input pins are sampled, the boundary cells preloaded. -/
def execJtagSamplePreload (preload : List Bool) (s : State) : Res :=
  if s.sec.level = 0 then .next s.closedInstr
  else
    let s := s.shiftOut 3 [s.pins.perstN, s.pins.pwrGood, s.pins.coolantOk]
    .next { s with sec := { s.sec with preload := preload } }

/-- JTAG_EXTEST: the boundary cells drive. -/
def execJtagExtest (s : State) : Res :=
  if s.sec.level = 0 then .next s.closedInstr
  else
    let s := s.shiftOut 4 []
    .next { s with sec := { s.sec with pins := s.sec.preload } }

/-- JTAG_UNLOCK (R395): reads a fresh nonce, or shifts in a response, whose level byte names the level. -/
def execJtagUnlock (shiftIn : Option (List Byte)) (t : Nat) (s : State) : Res :=
  let s := s.at_ t
  match shiftIn with
  | none =>
    let s := s.newNonce
    .next (s.shiftOut 5 (bitsLsb 256 (leNat s.sec.nonceBytes)))
  | some resp =>
    let s := s.shiftOut 5 []
    if s.mc0Up then .next (s.trySignature (leAt resp 0 1) resp).2 else .next s

/-! ### The sideband (R428) -/

/-- The offsets the target serves. -/
def smbServed (off : Nat) : Bool :=
  [0, 0x2000, 0x3000, 0x04040000, 0x05000008, 0x0500000C, 0x06010004].contains off || (nth? off 0x06010100 4 176).isSome

/-- Have the always-on domain and its 3.3 V pins their supplies: the target answers, the open drains can sink. -/
def State.smbAlive (s : State) : Bool := s.pins.vddio33 && s.pins.vinOk && s.pwr.alwaysOn

/-- The target's address byte: 7-bit address 0x60 + SMB_ADDR, and the direction. -/
def State.smbByte (s : State) (read : Bool) : Byte := BitVec.ofNat 8 (2 * (0x60 + s.pins.smbAddr.toNat) + b2n read)

/-- The packet error code: CRC-8 over x⁸ + x² + x + 1. -/
def pec (m : List Byte) : Byte :=
  m.foldl (fun c b =>
    (List.range 8).foldl (fun (c : Byte) _ => if bit c 7 then (c <<< 1) ^^^ 7 else c <<< 1) (c ^^^ b)) 0

/-- SMBUS_OFFSET_WRITE: a served offset is selected; the last offset byte of any other is not acknowledged. -/
def execSmbusOffsetWrite (bytes : List Byte) (s : State) : Res :=
  if !s.smbAlive then .next s
  else
    let off := leAt bytes 0 4
    let pecOk : Bool := bytes.length == 4 ||
      (bytes.length == 5 && bytes.getD 4 0 == pec (s.smbByte false :: bytes.take 4))
    if pecOk && smbServed off then
      .next { s with pins := { s.pins with
        smbSel := some (BitVec.ofNat 32 off)
        smbPec := bytes.length == 5
        smbNak := false
        smbOut := [] } }
    else .next { s with pins := { s.pins with smbNak := true, smbOut := [] } }

/-- SMBUS_READ: the mirrored value of the selected register, with PEC where the write carried it. -/
def execSmbusRead (s : State) : Res :=
  if !s.smbAlive then .next s
  else
    match s.pins.smbSel with
    | none => .next { s with pins := { s.pins with smbNak := true, smbOut := [] } }
    | some off =>
      let b := toLE 4 (Tbl.get 0 s.pins.smbMirror off.toNat : Word).toNat
      .next { s with pins := { s.pins with
        smbNak := false
        smbOut := if s.pins.smbPec then b ++ [pec (s.smbByte true :: b)] else b } }

/-- SMBUS_ALERT_RESPONSE: the target's own address. -/
def execSmbusAlertResponse (s : State) : Res :=
  if s.smbAlive then .next { s with pins := { s.pins with smbNak := false, smbOut := [s.smbByte false] } } else .next s

/-- SMBUS_CLOCK_TIMEOUT: the interface is reset. -/
def execSmbusClockTimeout (s : State) : Res :=
  .next { s with pins := { s.pins with smbSel := none, smbPec := false, smbNak := false, smbOut := [] } }

/-- SMBUS_MIRROR_REFRESH: every 1 ms the served registers are mirrored. -/
def execSmbusMirrorRefresh (t : Nat) (s : State) : Res :=
  let s := s.at_ t
  if s.pins.smbMirrorAt + 1000000 > s.clk.now ∨ !s.pwr.alwaysOn ∨ !s.pins.vinOk then .next s
  else
    let offsets := [0, 0x2000, 0x3000, 0x04040000, 0x05000008, 0x0500000C, 0x06010004] ++ offs 0x06010100 4 176
    let m := offsets.foldl (fun t o => Tbl.set 0 t o (s.readReg o)) []
    .next { s with pins := { s.pins with smbMirror := m, smbMirrorAt := s.clk.now } }

/-- SMB_ALERT_N, THERM_TRIP_N and FAULT_N asserted (R350, R421, R428): without VDDIO_33 or the always-on
domain the open drains are released. -/
def State.smbAlert (s : State) : Bool := s.smbAlive && (s.throttled || s.thm.trip || s.mgmt.faultActive)
def State.thermTrip (s : State) : Bool := s.smbAlive && s.thm.trip
def State.faultPin (s : State) : Bool := s.smbAlive && (s.mgmt.faultActive || s.mgmt.stage == 7)

end Sys2Proof.Machine
end

