-- ==== Sys2Proof/Machine/Power.lean ====
section
/-! DEFINITION. Power delivery (R321–R337): Damper, the fast loops, Temper, switching a core domain off and on, faults
in delivery; and parity errors (R254). -/

namespace Sys2Proof.Machine

/-! ### Damper (R326) -/

/-- Good tiles. -/
def State.goodTiles (s : State) : Nat := 16 - popCount16 s.pwr.tilesBad

/-- C in half watts: a tile's share of the ceiling is 387.5 W. -/
def State.damperCap (s : State) : Nat := min (2 * min s.capW (tierCeiling s.mgmt.tier)) (775 * s.goodTiles)

/-- The next fraction in 1/1,024: b + K × (P − C) / C, with C in half watts, within 0 to 60/64; what lies between two steps
is rounded as the part rounds it. -/
def damperNext (b k16 p c : Nat) : Nat :=
  if 7600 < p ∨ c = 0 then 960
  else
    let num : Int := (k16 * 64 : Int) * (2 * (p : Int) - c)
    let q := num.fdiv c
    let up : Int := if num.fmod c ≠ 0 ∧ Config.bubbleUp b p c then 1 else 0
    min 960 (max 0 ((b : Int) + q + up)).toNat

/-- DAMPER_SAMPLE (R326): the power of the last µs, with the input voltage and the tiles' outputs, and the next µs's
fraction. -/
def execDamperSample (watts mv : Nat) (tileW : List Nat) (t : Nat) (s : State) : Res :=
  let s := s.at_ t
  let early : Bool := match s.pwr.sampledAt with
    | some a => s.clk.now < a + 1000
    | none => false
  if early || !s.pins.pwrGood then .next s
  else
    let p := s.pwr
    let b := damperNext p.bubble.toNat (fld (s.appliedReg 0x05000004) 0 4) watts s.damperCap
    let out (k : Nat) : BitVec 10 := if bit p.tilesBad k then 0 else BitVec.ofNat 10 (min 1023 (tileW.getD k 0))
    .next { s with pwr := { p with
      inputW := BitVec.ofNat 14 (min 16383 watts)
      bubble := BitVec.ofNat 10 b
      peak := 7600 < watts
      tiles := BitVec.ofNat 5 s.goodTiles
      tileW := (List.range 16).foldl (fun t k => Tbl.set 0 t k (out k)) []
      inputMv := BitVec.ofNat 16 (min 65535 mv)
      energyUj := p.energyUj + watts
      damperUs := if p.bubble = 0 then p.damperUs else satAdd p.damperUs 1
      sampledAt := some s.clk.now } }

/-! ### The fast loops (R324, R342) -/

/-- SHUNT (R324): 15 mV or more below target closes the path; it opens at target, or after 100 ns. SHUNT_LVL 0 keeps it
open. -/
def execShunt (d : Fin 72) (below : Nat) (t : Nat) (s : State) : Res :=
  let s := s.at_ t
  let x := s.dom d
  if x.st ≠ .on then .next s
  else if x.shunt then
    if below = 0 ∨ x.shuntAt + 100 ≤ s.clk.now then .next (s.onDom d (fun x => { x with shunt := false })) else .next s
  else if 15 ≤ below ∧ fld (s.domCtl d) 8 3 ≠ 0 then .next (s.onDom d (fun x => { x with shunt := true, shuntAt := s.clk.now }))
  else .next s

/-- CLAMP (R324): sinks current at 20 mV or more above target. -/
def execClamp (d : Fin 72) (above : Nat) (s : State) : Res :=
  if (s.dom d).st = .on then .next (s.onDom d (fun x => { x with clampOn := 20 ≤ above })) else .next s

/-- CLOCK_STRETCH (R142, R342): one stretched period: DROOP, and the stretch cause of every engine with a stream. -/
def execClockStretch (d : Fin 72) (below : Nat) (t : Nat) (s : State) : Res :=
  let s := s.at_ t
  if (s.dom d).st ≠ .on ∨ below < 25 then .next s
  else
    let now := s.clk.now
    let s := s.onDom d (fun x => { x.settled now with stretches := satInc x.stretches, droopAt := some now })
    match s.coreOf d with
    | none => .next s
    | some lc =>
      .next (s.onSeq lc (fun q =>
        [Eng.f, .g0, .g1, .v, .q, .d0, .d1, .d2, .d3, .s].foldl (fun q e =>
          if (q.eng e).status = .running then q.stall e 10 else q) q))

/-! ### Temper (R327) -/

/-- Has any array of the core a Bellows notice pending. -/
def Core.noticed (c : Core) : Bool := c.arrF.notice || c.arrG0.notice || c.arrG1.notice

/-- Has the core on a domain a Bellows notice pending. -/
def State.domNoticed (s : State) (d : Nat) : Bool := match s.coreOf d with
  | some lc => (s.core lc).noticed
  | none => false

/-- TEMPER_HOLD of a domain. -/
def State.temperHeld (s : State) (d : Nat) : Bool := bit (s.domCtl d) 12

/-- What Temper owes a domain is applied while no notice is pending and TEMPER_HOLD is clear, and the step in force follows
(R340). -/
def State.settleTemper (s : State) (d : Nat) : State :=
  let x := s.dom d
  if (x.oweTrim = 0 ∧ x.oweMargin = 0) ∨ s.domNoticed d ∨ s.temperHeld d then s
  else
    let s := s.onDom d (fun x =>
      { x with
        trim := x.trim + x.oweTrim
        margin := BitVec.ofNat 6 (min 40 (x.margin.toNat + x.oweMargin))
        oweTrim := 0
        oweMargin := 0 })
    s.requestStep d (s.dom d).ftarget.toNat

/-- TEMPER_READING (R327): every 60 s; a slack below the guard slack raises V_fit by the shortfall and M by 5 mV. -/
def execTemperReading (d : Fin 72) (slack : Int) (shortfallMv : Nat) (t : Nat) (s : State) : Res :=
  let s := s.at_ t
  let x := s.dom d
  let early : Bool := match x.readAt with
    | some a => s.clk.now < a + 60000000000
    | none => false
  if x.st ≠ .on ∨ early then .next s
  else
    let ok : Bool := Config.guardSlack d ≤ slack
    let s := s.onDom d (fun x =>
      { x with
        readAt := some s.clk.now
        readings := x.readings + 1
        hourOk := x.hourOk && ok
        oweTrim := if ok || s.temperHeld d then x.oweTrim else x.oweTrim + shortfallMv
        oweMargin := if ok || s.temperHeld d then x.oweMargin else x.oweMargin + 5 })
    .next (s.settleTemper d)

/-- TEMPER_HOURLY (R327): an hour of readings at the guard slack lowers M by 1 mV, never below 15 mV. -/
def execTemperHourly (d : Fin 72) (t : Nat) (s : State) : Res :=
  let s := s.at_ t
  let x := s.dom d
  if x.st ≠ .on ∨ s.clk.now < x.hourAt + 3600000000000 then .next s
  else
    let s := s.settleTemper d
    let lower : Bool := x.hourOk && x.readings != 0 && !s.temperHeld d && 15 < (s.dom d).margin.toNat && !s.domNoticed d
    let s := s.onDom d (fun x =>
      { x with
        margin := if lower then x.margin - 1 else x.margin
        hourOk := true
        readings := 0
        hourAt := s.clk.now })
    .next (if lower then s.requestStep d (s.dom d).ftarget.toNat else s)

/-- TEMPER_SAVE (R327, R359): daily. -/
def execTemperSave (t : Nat) (s : State) : Res :=
  let s := s.at_ t
  if s.clk.now < s.pwr.savedAt + 86400000000000 ∨ !s.mc0Up then .next s
  else .next (({ s with pwr := { s.pwr with savedAt := s.clk.now } } : State).saveTemper)

/-! ### Faults in delivery (R331–R334) -/

/-- What a start alone clears of a scratchpad (R158). -/
def Scratch.counts (m : Scratch) : Scratch :=
  { eccCorr := m.eccCorr
    eccUncorr := m.eccUncorr
    eccLast := m.eccLast
    eccLastUncorr := m.eccLastUncorr
    eccLastCode := m.eccLastCode }

/-- The work of a core is lost: its task stops with E_CORE_DARK and with it its job; its scratchpad is gone, and its number
waits for handover (R22, R331). -/
def State.coreLost (s : State) (d : Nat) : State :=
  match s.coreOf d with
  | none => s.fieldFail (.core d) 1 d 0
  | some lc =>
    let s := s.onSeq lc (fun q => { q with dumpValid := false })
    let s := match (s.core lc).seq.task with
      | none => s
      | some t => s.endTask lc { t with stop := some (t.stop.getD (.error eCoreDark 0xF 0)) }
    let s := s.onCore lc (fun c =>
      { c with scp := c.scp.counts, mapState := if c.mapState = 1 then 2 else c.mapState })
    s.fieldFail (.core d) 1 d 0

/-- A core domain goes Dark under power. -/
def State.darken (s : State) (d : Nat) : State := (s.goDark d).coreLost d

/-- PHASE_FAILURE (R331): the phase is listed; with the third the domain goes Dark. -/
def execPhaseFailure (d : Fin 72) (t : Nat) (s : State) : Res :=
  let s := s.at_ t
  let x := s.dom d
  let n := x.phases.toNat
  if (x.st ≠ .on ∧ x.st ≠ .retention) ∨ n = 0 then .next s
  else
    let s := s.onDom d (fun x => { x with phases := x.phases - 1 })
    let s := s.fieldFail (.phase d (16 - n)) 4 d 0
    .next (if n - 1 < 14 then s.darken d else s)

/-- DOMAIN_SHORT (R332): the isolation switch opens; a core goes Dark, any other domain's short stops the device. -/
def execDomainShort (d : Fin 89) (t : Nat) (s : State) : Res :=
  let s := s.at_ t
  let x := s.dom d
  if x.st = .off ∨ x.st = .dark then .next s
  else
    let s := s.onDom d (fun x => { x with short := true })
    if d.val < 72 then .next (s.darken d)
    else .next ((s.onDom d (fun x => { x.setV 0 with st := .dark })).deviceFault 5)

/-- CRACK_CHECK (R333): the 1 s average; above 20 A the drop resistance, whose first value stays as R_BASE. -/
def execCrackCheck (d : Fin 89) (res : BitVec 16) (amps : Nat) (s : State) : Res :=
  let x := s.dom d
  if x.st ≠ .on then .next s
  else
    let s := s.onDom d (fun x => { x with amps := BitVec.ofNat 8 (min 255 amps) })
    if amps ≤ 20 then .next s
    else if x.rBase = 0 then
      .next { s.onDom d (fun x => { x with rBase := res, rNow := res }) with
        flash := { s.flash with rBase := Tbl.set 0 s.flash.rBase d res } }
    else
      let cracked : Bool := 13 * x.rBase.toNat ≤ 10 * res.toNat
      let s := s.onDom d (fun x => { x with rNow := res, crack := x.crack || cracked })
      .next (if cracked && !x.crack then s.logErr 6 0 4 d (toLE 4 x.rBase.toNat ++ toLE 4 res.toNat) else s)

/-- TILE_FAILURE (R334). -/
def execTileFailure (tile : Fin 16) (s : State) : Res :=
  let s := { s with pwr := { s.pwr with tilesBad := setBit s.pwr.tilesBad tile, tileW := Tbl.set 0 s.pwr.tileW tile 0 } }
  .next { s with pwr := { s.pwr with tiles := BitVec.ofNat 5 s.goodTiles } }

/-- STACK_RAIL_FAIL (R334). -/
def execStackRailFail (st : Fin 16) (s : State) : Res :=
  .next ((s.onStk st (fun k => { k with railFailed := true })).fieldFail (.stack st) 2 st 0)

/-! ### Switching a core domain off and on (R328–R330) -/

/-- Nothing of a core is in flight: its ports are quiesced (R171, R329). -/
def State.quiet (s : State) (lc : Nat) : Bool :=
  s.outstanding lc == 0 && (List.range 6).all (fun k => !s.sectionInFlight lc k)

/-- RETENTION_ENTRY (R329): between tasks, with no resident context. -/
def execRetentionEntry (d : Fin 72) (s : State) : Res :=
  if (s.dom d).st ≠ .on ∨ !s.mc0Up then .next s
  else
    match s.coreOf d with
    | none => .next (s.onDom d (Domain.retain s.clk.now))
    | some lc =>
      if (s.core lc).seq.task.isSome ∨ s.contexts.any (fun (_, x) => bit x.mask lc) ∨ !s.quiet lc then .next s
      else .next (s.onDom d (Domain.retain s.clk.now))

/-- May the field's controller grant a switch-on (R330). -/
def State.grantOk (s : State) (d : Nat) : Bool :=
  let f := d / 9
  (List.range 9).all (fun k => (s.dom (9 * f + k)).granted.isNone) && (s.dom (72 + f)).amps.toNat ≤ 96 &&
    (List.range 72).all (fun k => k == d || !Config.adjacent d k || (!s.domNoticed k && (s.dom k).amps.toNat ≤ 96))

/-- SWITCH_ON_GRANT (R330). -/
def execSwitchOnGrant (d : Fin 72) (t : Nat) (s : State) : Res :=
  let s := s.at_ t
  let x := s.dom d
  if x.askedAt.isSome && x.granted.isNone && x.st == .retention && s.grantOk d then
    .next (s.onDom d (fun x => { x with granted := some s.clk.now }))
  else .next s

/-- GRANT_TIMEOUT (R330): after 50 µs the neighbours' notices are withheld. -/
def execGrantTimeout (d : Fin 72) (t : Nat) (s : State) : Res :=
  let s := s.at_ t
  let x := s.dom d
  let due : Bool := match x.askedAt with
    | some a => a + 50000 ≤ s.clk.now
    | none => false
  if due && x.granted.isNone then .next (s.onDom d (fun x => { x with withheld := true })) else .next s

/-- SWITCH_ON_DONE (R330): 5 µs after the grant the core accepts a task. -/
def execSwitchOnDone (d : Fin 72) (t : Nat) (s : State) : Res :=
  let s := s.at_ t
  match (s.dom d).granted with
  | some a => if a + 5000 ≤ s.clk.now ∧ (s.dom d).st = .retention then .next (s.switchOn d) else .next s
  | none => .next s

/-! ### Parity (R254) -/

/-- PARITY_ERROR (R254, R259, R279): a replay of the engine's command; a DMA request discarded and read again; a crossbar
fault; or a packet dropped. -/
def execParityError (p : ParityPlace) (s : State) : Res :=
  match p with
  | .core lc e => if s.mgmt.faultActive then .next s else .next (s.failEngine lc e 2)
  | .dmaRead lc d => if s.mgmt.faultActive then .next s else .next (s.failEngine lc d.eng 5)
  | .crossbar => .next (s.deviceFault 2)
  | .transport port k => .next (s.bufDrop port k)

end Sys2Proof.Machine
end

