-- ==== Sys2Proof/Machine/Heat.lean ====
section
/-! DEFINITION. Clocks, shared time, heat and coolant (R338–R355), and what heat or a rail does to an optical engine
(R334, R347). Temperatures are in 0.25 °C. -/

namespace Sys2Proof.Machine

/-! ### Sensors (R347, R348, R355) -/

/-- A reading as THM_SENSE_i can hold it: 11 bits, two's complement. -/
def senseClamp (t : Int) : Int := max (-1024) (min 1023 t)

/-- One sensor is sampled: TEMP and VALID; an invalid reading keeps TEMP. -/
def State.sample (s : State) (i : Nat) (r : Option Int) : State :=
  let old : BitVec 12 := Tbl.get 0 s.thm.sense i
  let v : BitVec 12 := match r with
    | some t => (BitVec.ofInt 11 (senseClamp t)).setWidth 12 ||| 0x800#12
    | none => old &&& 0x7FF#12
  { s with thm := { s.thm with sense := Tbl.set 0 s.thm.sense i v } }

/-- MC0 logs an invalid sensor once; a valid reading ends the matter. -/
def State.judgeSensor (s : State) (i : Nat) : State :=
  if (s.reading i).isSome then { s with thm := { s.thm with badLogged := Tbl.set false s.thm.badLogged i false } }
  else if Tbl.get false s.thm.badLogged i ∨ !s.mc0Up then s
  else (({ s with thm := { s.thm with badLogged := Tbl.set false s.thm.badLogged i true } } : State).logErr 7 0 5 i (toLE 4 i))

/-- The hottest valid sensor from `lo` on, in whole °C, as the 8-bit fields of THM_STAT show it. -/
def State.hottest (s : State) (lo n : Nat) : BitVec 8 :=
  match (List.range n).filterMap (fun k => s.reading (lo + k)) with
  | [] => 0
  | t :: r => BitVec.ofInt 8 ((r.foldl max t).fdiv 4)

/-! ### Bubbles from heat (R348), and how long a core has been hot or cool (R349, R351) -/

/-- THM_CFG as it is in force. -/
def State.thmCfg (s : State) : Word := s.inForce 0x06010000 0x1665F
/-- THROTTLE_C. -/
def State.throttleC (s : State) : Int := fld s.thmCfg 0 8
/-- HOT_C. -/
def State.hotC (s : State) : Int := fld s.thmCfg 8 8
/-- PARK_EN. -/
def State.parkEn (s : State) : Bool := bit s.thmCfg 16

/-- b_th × 1,024 from T and THROTTLE_C. -/
def bubbleTh (t throttle : Int) : Nat := if t < throttle then 0 else min 960 (64 * (t - throttle + 1)).toNat

/-- Since when a condition has held. -/
def sinceWhen (now : Nat) (holds : Bool) (was : Option Nat) : Option Nat :=
  if holds then some (was.getD now) else none

/-- The sensors of a core: its own and its field's three. -/
def coreSensors (d : Nat) : List Nat := [d, 72 + 3 * (d / 9), 73 + 3 * (d / 9), 74 + 3 * (d / 9)]

/-- T of a core, in whole °C rounded down; none with no valid sensor. -/
def State.coreTemp (s : State) (d : Nat) : Option Int :=
  match (coreSensors d).filterMap s.reading with
  | [] => none
  | t :: r => some ((r.foldl max t).fdiv 4)

/-- A core's fraction and timers after a sample; one that is neither On nor in Retention forms none. -/
def State.heatCore (s : State) (d : Nat) : State :=
  let th := s.throttleC
  let temp := s.coreTemp d
  let b : Nat := if bit s.thm.blind (d / 9) then 960 else match temp with
    | some t => bubbleTh t th
    | none => 0
  let now := s.clk.now
  s.onDom d (fun x =>
    let b := if x.st = .on ∨ x.st = .retention then b else 0
    { x with
      bTh := BitVec.ofNat 10 b
      hotSince := sinceWhen now (b != 0) x.hotSince
      coolSince := sinceWhen now (temp.any (fun t => t ≤ th - 5)) x.coolSince
      parkSince := sinceWhen now (temp.any (fun t => s.hotC ≤ t)) x.parkSince
      unparkSince := sinceWhen now (temp.any (fun t => t ≤ th - 10)) x.unparkSince })

/-- THERMAL_SAMPLE (R347, R348): a core's sensor and its field's three; a field left with fewer than two valid uncore
sensors holds all its cores at 60/64 until the next start. -/
def execThermalSample (d : Fin 72) (own : Option Int) (unc : List (Option Int)) (t : Nat) (s : State) : Res :=
  let s := s.at_ t
  let f := d.val / 9
  let s := s.sample d own
  let s := (List.range 3).foldl (fun s k => s.sample (72 + 3 * f + k) (unc.getD k none)) s
  let s := (coreSensors d).foldl State.judgeSensor s
  let few : Bool := ((List.range 3).filter (fun k => (s.reading (72 + 3 * f + k)).isSome)).length < 2
  let s := { s with thm := { s.thm with
    calderaMax := s.hottest 0 96
    blind := if few then setBit s.thm.blind f else s.thm.blind } }
  .next (if few then (List.range 9).foldl (fun s k => s.heatCore (9 * f + k)) s else s.heatCore d)

/-- STACK_THERMAL_SAMPLE (R186, R347): refresh halved above 85 °C until below 83 °C; bandwidth halved from 95 °C until
below 93 °C. -/
def execStackThermalSample (st : Fin 16) (temps : List Int) (t : Nat) (s : State) : Res :=
  let s := s.at_ t
  let s := (List.range 4).foldl (fun s k => s.sample (96 + 4 * st + k) temps[k]?) s
  let s := (List.range 4).foldl (fun s k => s.judgeSensor (96 + 4 * st + k)) s
  let s := { s with thm := { s.thm with stackMax := s.hottest 96 64 } }
  let now := (List.range 4).filterMap (fun k => s.reading (96 + 4 * st.val + k))
  match now with
  | [] => .next s
  | _ =>
    let hys (was : Bool) (on off : Int → Bool) : Bool := if now.any on then true else if now.all off then false else was
    .next (s.onStk st (fun k =>
      { k with
        hot := hys k.hot (fun x => 340 < x) (fun x => x < 332)
        halfBw := hys k.halfBw (fun x => 380 ≤ x) (fun x => x < 372) }))

/-! ### MC0's policy on steps (R340, R341, R344, R349) -/

/-- STEP_POLICY (R349): every 10 ms, one step down after 10 ms of bubbles from heat, one step up after 100 ms at or below
THROTTLE_C − 5. -/
def execStepPolicy (d : Fin 72) (t : Nat) (s : State) : Res :=
  let s := s.at_ t
  let x := s.dom d
  let held (since : Option Nat) (ns : Nat) : Bool := since.any (fun a => a + ns ≤ s.clk.now)
  if x.st ≠ .on ∨ !s.mc0Up ∨ s.clk.now < x.policyAt + 10000000 then .next s
  else
    let s := s.onDom d (fun x => { x with policyAt := s.clk.now })
    let k := x.ftarget.toNat
    if held x.hotSince 10000000 then .next (if 0 < k then s.requestStep d (k - 1) else s)
    else if held x.coolSince 100000000 && k < min (s.fcap d) (s.ffitOf d) then .next (s.requestStep d (k + 1))
    else .next s

/-- STEP_CHANGE (R341, R344): MC0 requests a step. -/
def execStepChange (d : Fin 72) (step : Fin 12) (t : Nat) (s : State) : Res :=
  let s := s.at_ t
  if s.mc0Up && (s.dom d).st == .on then .next (s.requestStep d step) else .next s

/-- DEFERRED_STEP_SWITCH (R344): the flag has been clear for 10 µs; a raise that waited has switched. -/
def execDeferredStepSwitch (d : Fin 72) (t : Nat) (s : State) : Res :=
  let s := s.at_ t
  let x := s.dom d
  if x.st ≠ .on ∨ x.drooped s.clk.now then .next s
  else if x.pending then .next (s.switchStep d)
  else .next (s.onDom d (Domain.settled · s.clk.now))

/-! ### Switching a core off for heat (R351) -/

/-- PARK_TIMER: T at or above HOT_C for 1 s, with PARK_EN set. -/
def execParkTimer (d : Fin 72) (t : Nat) (s : State) : Res :=
  let s := s.at_ t
  let x := s.dom d
  if s.parkEn && s.mc0Up && x.st == .on && x.parkSince.any (fun a => a + 1000000000 ≤ s.clk.now) then
    .next (s.onDom d (fun x => { x with parkPending := true }))
  else .next s

/-- CORE_PARK: between tasks, the core's ports quiesced, the domain goes to Retention. -/
def execCorePark (d : Fin 72) (s : State) : Res :=
  let x := s.dom d
  let idle : Bool := match s.coreOf d with
    | some lc => (s.core lc).seq.task.isNone && s.quiet lc
    | none => true
  if x.parkPending && x.st == .on && s.mc0Up && idle then
    .next (s.onDom d (fun x => { Domain.retain s.clk.now x with parkPending := false, parked := true }))
  else .next s

/-- UNPARK_TIMER: T at or below THROTTLE_C − 10 for 1 s; MC0 asks for the core's switch-on (R330). -/
def execUnparkTimer (d : Fin 72) (t : Nat) (s : State) : Res :=
  let s := s.at_ t
  let x := s.dom d
  if x.parked && s.mc0Up && x.askedAt.isNone && x.unparkSince.any (fun a => a + 1000000000 ≤ s.clk.now) then
    .next (s.onDom d (fun x => { x with askedAt := some s.clk.now }))
  else .next s

/-! ### Trips (R350, R353) -/

/-- THERMAL_TRIP (R350): a comparator, independent of sampling and of firmware. -/
def execThermalTrip (_i : Fin 160) (t : Nat) (s : State) : Res :=
  let s := s.at_ t
  .next (({ s with thm := { s.thm with trip := true, tripLatched := true } } : State).deviceFault 6)

/-- TRIP_RELEASE (R350, R353): every Caldera and stack sensor below 100 °C; a start that waited runs. -/
def execTripRelease (temps : List Int) (s : State) : Res :=
  if s.thm.trip && temps.length == 160 && temps.all (fun t => decide (t < 400)) then
    let s := { s with thm := { s.thm with trip := false } }
    match s.mgmt.waitStart with
    | some (kind, b) => .next ((s.bringUp kind b).serve)
    | none => .next s
  else .next s

/-! ### Coolant (R352, R353) -/

/-- The filter expires: Quench begins. -/
def State.quenchNow (s : State) : State :=
  let s := { s with thm := { s.thm with coolantOk := false, fallAt := none } }
  if s.pins.pwrGood then
    (({ s with thm := { s.thm with quenched := true, quenchActive := true } } : State).deviceFault 4)
  else s

/-- COOLANT_OK_FALL (R352): the filter starts. -/
def execCoolantOkFall (t : Nat) (s : State) : Res :=
  let s := s.at_ t
  if !s.pins.coolantOk then .next s
  else
    .next { s with
      pins := { s.pins with coolantOk := false }
      thm := { s.thm with fallAt := if s.thm.coolantOk then some s.clk.now else none, riseAt := none } }

/-- COOLANT_OK_RISE (R352, R353): a deassertion shorter than 10 µs counts as a glitch; one that lasted has begun Quench. -/
def execCoolantOkRise (t : Nat) (s : State) : Res :=
  let s := s.at_ t
  if s.pins.coolantOk ∨ !s.pins.vddio33 then .next s
  else
    let s := match s.thm.fallAt with
      | some a =>
        if s.clk.now < a + 10000 then { s with thm := { s.thm with glitch := satInc s.thm.glitch } } else s.quenchNow
      | none => s
    .next { s with
      pins := { s.pins with coolantOk := true }
      thm := { s.thm with coolantOk := true, fallAt := none, riseAt := some s.clk.now } }

/-- QUENCH (R218, R279, R352): COOLANT_OK has been deasserted for 10 µs. -/
def execQuench (t : Nat) (s : State) : Res :=
  let s := s.at_ t
  if !s.pins.coolantOk && s.thm.fallAt.any (fun a => a + 10000 ≤ s.clk.now) then .next s.quenchNow else .next s

/-- COOLANT_RESTART (R353): 1 s of coolant after a Quench; FAULT_HOLD or a latched trip leaves the device to CFG_START. -/
def execCoolantRestart (t : Nat) (s : State) : Res :=
  let s := s.at_ t
  let h := s.thm
  let held : Bool := h.riseAt.any (fun a => a + 1000000000 ≤ s.clk.now)
  if h.quenchActive && s.pins.coolantOk && held && s.mgmt.faultActive && !s.faultHold && !h.tripLatched then
    .next { s with thm := { h with quenchActive := false }, mgmt := { s.mgmt with bankedDue := true } }
  else .next s

/-! ### References and shared time (R338, R345, R346) -/

/-- REF_LOST (R338): 0 SYS, 1 OPT, 2 MGMT, 3 CXL. The generators hold or switch over; a lost CXL reference takes the link
down (R288). -/
def execRefLost (i : Fin 4) (t : Nat) (s : State) : Res :=
  let s := s.at_ t
  if bit s.clk.refLost i then .next s
  else
    let s := { s with clk := { s.clk with
      refLost := setBit s.clk.refLost i
      everLost := setBit s.clk.everLost i
      optLostAt := if i.val = 1 then s.clk.now else s.clk.optLostAt } }
    let s := if s.mc0Up then s.logErr 8 0 0 0 (toLE 4 (s.readClk 0x06000000).toNat) else s
    .next (if i.val = 3 then s.hostReset else s)

/-- REF_RESTORED (R338). -/
def execRefRestored (i : Fin 4) (s : State) : Res :=
  .next { s with clk := { s.clk with refLost := clrBit s.clk.refLost i } }

/-- OPT_HOLDOVER_EXPIRY (R236, R338): after 1 s without REFCLK_OPT the ports go Down and leave every spray set. -/
def execOptHoldoverExpiry (t : Nat) (s : State) : Res :=
  let s := s.at_ t
  if !s.optHoldoverOut then .next s
  else .next ((List.range 96).foldl (fun s p =>
    if (s.port p).st = .up ∨ (s.port p).st = .training then s.portTo p .down else s) s)

/-- One region's skew after a beacon (R346), in 2⁻¹⁶ ns: slewed out, stepped forward, or slewed back by 64 ns. -/
def beaconNext (skew : Int) : Int := if 64 * 65536 ≤ skew then skew - 64 * 65536 else 0

/-- TIME_BEACON (R346): each region's error e is its skew's negative. -/
def execTimeBeacon (t : Nat) (s : State) : Res :=
  let s := s.at_ t
  let c := s.clk
  let steps := (c.skew.filter (fun (_, k) => k ≤ -(64 * 65536))).length
  let worst := c.skew.foldl (fun m (_, k) => max m (k.natAbs / 65536)) c.maxErr.toNat
  .next { s with clk := { c with
    skew := Tbl.mapv 0 beaconNext c.skew
    maxErr := BitVec.ofNat 8 (min 255 worst)
    steps := satAdd c.steps steps } }

/-! ### Optical engines (R334, R347) -/

/-- OE_OVERTEMP (R347): a sensor of an optical engine; at 85 °C its lasers go off and its ports Down. -/
def execOeOvertemp (n : Fin 8) (k : Fin 2) (temp : BitVec 11) (s : State) : Res :=
  let s := s.sample (160 + 2 * n + k) (some temp.toInt)
  let s := { s with thm := { s.thm with oeMax := s.hottest 160 16 } }
  if 340 ≤ temp.toInt then .next ((s.onOptic n (fun o => { o with lasersOff := true })).opticDown n) else .next s

/-- OPTICS_RAIL_FAIL (R334). -/
def execOpticsRailFail (n : Fin 8) (s : State) : Res :=
  .next ((s.onOptic n (fun o => { o with railFailed := true })).opticDown n)

end Sys2Proof.Machine
end

