-- ==== Sys2Proof/Machine/Vector.lean ====
section
/-! DEFINITION. The vector engine V: the vx commands (R71–R76, R90, R113, R114, R432). -/

namespace Sys2Proof.Machine

/-- A value in V: exact floating, or INT32. -/
inductive Val where
  | f (x : Fp)
  | i (n : Int)
  deriving DecidableEq, Repr

/-- The value as an exact number. -/
def Val.fp : Val → Fp
  | .f x => x
  | .i n => Fp.ofInt n

/-- The value as an integer (of an integer value). -/
def Val.int : Val → Int
  | .f _ => 0
  | .i n => n

/-- Is the value a NaN. -/
def Val.nan : Val → Bool
  | .f x => x.isNan
  | .i _ => false

/-- Is the value finite. -/
def Val.finite : Val → Bool
  | .f x => x.isFin
  | .i _ => true

/-- What distinguishes the vx commands (R73, R113). -/
structure VxKind where
  /-- Operands taken, in the order OPA, OPB, OPC, OPD. -/
  nOps : Nat
  /-- Variants of SUB. -/
  subs : Nat := 1
  /-- A row or column reduction: ACC and AXIS are used. -/
  red : Bool := false
  pad : Bool := false
  /-- Outputs as tiles. -/
  outs : Nat := 1
  /-- Takes floating operands only. -/
  floatOnly : Bool := false
  /-- vx.scan's DT: FP32 or INT32. -/
  scan : Bool := false
  quant : Bool := false
  cvt : Bool := false

/-- The selectors OPA, OPB, OPC, OPD (R113). -/
def vxSel (w : Cmd) (i : Nat) : Nat := if i = 3 then fld w 144 16 else fld w (80 + 16 * i) 16
/-- KIND of a selector. -/
def selKind (x : Nat) : Nat := x / 64 % 8
/-- REG of a selector. -/
def selReg (x : Nat) : Nat := x % 64
/-- DEST. -/
def vxDest (w : Cmd) : Nat := fld w 128 16
def vxSub (w : Cmd) : Nat := fld w 64 4
def vxDt (w : Cmd) : Nat := fld w 68 4
def vxOut (w : Cmd) : Nat := fld w 72 4
def vxSat (w : Cmd) : Bool := bit w 76
def vxAcc (w : Cmd) : Bool := bit w 77
def vxAxis (w : Cmd) : Bool := bit w 78
def vxPad (w : Cmd) : Bool := bit w 79
def vxImm (w : Cmd) : Word := BitVec.ofNat 32 (fld w 160 32)

/-- Tile operands named. -/
def vxTiles (k : VxKind) (w : Cmd) : Nat := ((List.range k.nOps).filter (fun i => selKind (vxSel w i) == 1)).length

/-- Bytes of a register element in a DT (R71). -/
def regSize (dt : Nat) : Nat := if dt = 1 ∨ dt = 2 then 2 else 4

/-- Does a register range of `n` elements from a register run past v63 (R71). -/
def rangePast (dt reg n : Nat) : Bool := reg * 4096 + n * regSize dt > 64 * 4096

/-- Element `i` of a register range. -/
def regGet (m : Memory) (dt reg i : Nat) : Nat :=
  let z := regSize dt
  leNat (Mem.readN m (reg * 4096 + i * z) z)

/-- Write elements from a register on. -/
def regPut (m : Memory) (dt reg : Nat) (codes : List Nat) : Memory :=
  Mem.writeN m (reg * 4096) (codes.flatMap (toLE (regSize dt)))

/-- A code of a format as a value under a DT. -/
def valOf (dt fmt code : Nat) : Val :=
  if dt = 9 then .i (if fmt = 8 then signedOf 8 code else signedOf 32 code) else .f (decodeFmt fmt code)

/-- Operand formats a DT takes (R72). -/
def dtTakes (dt fmt : Nat) : Bool :=
  match dt with
  | 0 => fmt ≤ 4
  | 9 => fmt == 8 || fmt == 9
  | _ => 1 ≤ fmt && fmt ≤ 4

/-- Formats vx.cvt reads and any vx command but vx.quant writes (R72, R73). -/
def plainFmt (fmt : Nat) : Bool := fmt ≤ 4 || fmt == 8 || fmt == 9

/-- Rows and columns a command works over: those of its first tile, or one register's worth (R432). -/
def vxShape (c : Ctx) : Nat × Nat :=
  match c.ins with
  | i :: _ => (i.ent.desc.rows, i.ent.desc.cols)
  | [] => (1, 4096 / regSize (vxDt c.w))

/-- Values a reduction yields (R432). -/
def vxYield (c : Ctx) : Nat := let (r, k) := vxShape c; if vxAxis c.w then k else r

/-- The output tile's rows and columns. -/
def vxOutShape (k : VxKind) (c : Ctx) : Nat × Nat :=
  let (r, n) := vxShape c
  if k.red then (if vxAxis c.w then (1, n) else (r, 1))
  else if k.cvt && vxPad c.w then (r, 32 * ceilDiv n 32)
  else (r, n)

/-- The reserved encodings of the shared vx body (R113, R433). -/
def vxEncErr (k : VxKind) (w : Cmd) : Bool :=
  [0, 1, 2, 3].any (fun i => vxSel w i ≥ 512 || selKind (vxSel w i) ≥ 6)
    || vxDest w ≥ 512 || selKind (vxDest w) ≥ 6
    || vxSub w ≥ k.subs
    || ((vxAcc w || vxAxis w) && !k.red)
    || (vxPad w && !k.pad)
    || (vxImm w ≠ 0 && !([0, 1, 2, 3].any (fun i => selKind (vxSel w i) == 5)))
    || [0, 1, 2, 3].any (fun i => i ≥ k.nOps && selKind (vxSel w i) == 0 && vxSel w i ≠ 0)

/-- The operand selectors and destinations of R113 and R432. vx.sincos on registers has no place for its second result and
stops with E_OPERAND (DEDUCED, log 184). -/
def vxOperandErr (k : VxKind) (c : Ctx) : Option Nat :=
  let w := c.w
  let dk := selKind (vxDest w)
  let tiles := vxTiles k w
  let missing := [0, 1, 2, 3].any (fun i => (i < k.nOps) != (selKind (vxSel w i) != 0))
  let badDest :=
    if k.red then !(dk == 1 || dk == (if vxAxis w then 4 else 3) || (dk == 2 && vxYield c == 1)) || tiles == 0
    else if tiles > 0 then dk != 1
    else !(dk == 3 || dk == 4) || k.outs ≠ 1 || k.scan || k.quant
  if missing || badDest then some eOperand else none

/-- The shapes, formats and ranges of a vx command. DT INT32 is no format a transcendental takes: E_FORMAT_PAIR (DEDUCED, log
183). -/
def vxCheck (k : VxKind) (s : State) (c : Ctx) : Option Nat :=
  let w := c.w
  let dt := vxDt w
  let (rows, cols) := vxShape c
  let flat := c.ins.isEmpty
  let fmts := c.ins.map (fun i => i.ent.desc.fmt)
  let dk := selKind (vxDest w)
  let outFmt := vxOut w
  let badFmt :=
    !(dt == 0 || dt == 1 || dt == 2 || dt == 9)
      || (if k.quant then !(outFmt == 5 || outFmt == 6 || outFmt == 7) else !plainFmt outFmt)
      || (k.floatOnly && dt == 9)
      || (k.scan && !(dt == 0 || dt == 9))
      || (if k.quant then fmts.any (fun f => f > 2 || !dtTakes dt f)
          else if k.cvt then fmts.any (fun f => !plainFmt f)
          else fmts.any (fun f => !dtTakes dt f))
  if badFmt then some eFormatPair
  else
    let badShape :=
      c.ins.any (fun i => i.ent.desc.rows ≠ rows || i.ent.desc.cols ≠ cols || i.ent.gather.isSome)
        || (k.quant && cols % 32 ≠ 0)
        || (List.range k.nOps).any (fun i =>
             let x := vxSel w i
             (selKind x == 3 && rangePast dt (selReg x) (if flat then cols else rows))
               || (selKind x == 4 && rangePast dt (selReg x) cols))
        || (k.red && (dk ≠ 1 || vxAcc w) && rangePast dt (selReg (vxDest w)) (vxYield c))
        || (!k.red && dk ≠ 1 && rangePast dt (selReg (vxDest w)) cols)
    if badShape then some eShape
    else if dk = 1 then
      let (r, n) := vxOutShape k c
      (List.range k.outs).findSome? (fun i => outErr s c i outFmt r n)
    else none

/-- The row of a vx command with the body of R113. -/
def vxRow (k : VxKind) : Row where
  fields := fun _ _ => [(64, 16), (80, 16), (96, 16), (112, 16), (128, 16), (144, 16), (160, 32)]
  encErr := vxEncErr k
  slots := fun w => (vxTiles k w, [if selKind (vxDest w) = 1 then k.outs else 0])
  operandErr := vxOperandErr k
  check := vxCheck k
  hold := fun s c =>
    let (r, n) := vxOutShape k c
    tileHold s c (if selKind (vxDest c.w) = 1 then List.replicate k.outs (vxOut c.w, r, n) else [])

/-- Round an exact result to what the destination format is converted from: FP32 operations round to FP32
first, BF16 and FP16 ones only to the destination (R72). -/
def vxRound (dt : Nat) (x : Fp) : Fp := if dt = 0 then fp (toFp32 x) else x

/-- A result as the destination's code, with the flags it sets (R72, R91). -/
def vxEmit (dt outFmt : Nat) (sat : Bool) (args : List Val) (y : Val) (sticky : Bool := false) : Nat × VFlags :=
  let (y, s0) : Val × Bool := match y with
    | .i n => let (m, b) := satInt 32 n; (.i m, b)
    | .f x => (.f (if sticky then fp (toFp32 x true) else vxRound dt x), false)
  let e := if outFmt = 9 ∧ dt = 9 then ({ code := intCode 32 y.int } : Enc) else encodeFmt outFmt .rne sat y.fp
  let o := decodeFmt outFmt e.code
  (e.code,
    { nan := o.isNan && !(args.any Val.nan)
      inf := !o.isFin && !o.isNan && args.all Val.finite
      sat := s0 || e.sat })

/-- One operand's value at a row and column. -/
def vxArg (m : Memory) (c : Ctx) (tiles : List Tile) (i r col : Nat) : Val :=
  let w := c.w
  let dt := vxDt w
  let x := vxSel w i
  let flat := tiles.isEmpty
  let rv (n : Nat) := valOf dt dt (regGet m dt (selReg x) n)
  match selKind x with
  | 1 =>
    let t := tiles.getD ((List.range i).filter (fun j => selKind (vxSel w j) == 1)).length {}
    valOf (if dt = 9 then 9 else 0) t.fmt (t.code r col)
  | 2 => rv 0
  | 3 => rv (if flat then col else r)
  | 4 => rv col
  | _ => if dt = 9 then .i (vxImm w).toInt else .f (fp (vxImm w))

/-- Elementwise commands: the result of an operation at every element, with flags. -/
def vxMap (c : Ctx) (m : Memory) (tiles : List Tile) (n outFmt : Nat) (op : List Val → Val × Bool) :
    List (List Nat) × VFlags :=
  let (rows, cols) := vxShape c
  let one (r k : Nat) : Nat × VFlags :=
    let args := (List.range n).map (fun i => vxArg m c tiles i r k)
    let (y, st) := op args
    vxEmit (vxDt c.w) outFmt (vxSat c.w) args y st
  let res := (List.range rows).map (fun r => (List.range cols).map (one r))
  (res.map (fun l => l.map (·.1)), (res.flatten).foldl (fun f x => f.or x.2) {})

/-- Read the inputs' tiles in slot order. -/
def readInputs (s : State) (c : Ctx) : List Tile × State :=
  c.ins.foldl (fun (acc : List Tile × State) i =>
    let (t, co) := (acc.2.core c.lc).readTile i.ent.desc
    (acc.1 ++ [t], acc.2.setCore c.lc co)) ([], s)

/-- Finish a vx command: tiles to the output slots, or codes to the destination registers; with poison the
tiles are written poisoned and registers keep their contents (R278, R432). -/
def vxFinish (c : Ctx) (s : State) (poison : Bool) (outFmt rows cols : Nat) (results : List (List (List Nat)))
    (scales : List (List Nat)) (flags : VFlags) : State :=
  let dest := vxDest c.w
  if selKind dest = 1 then
    let tiles := results.map (fun codes =>
      ({ fmt := outFmt, rows := rows, cols := cols, poison := poison
         codes := if poison then List.replicate rows [] else codes
         scales := if poison then List.replicate rows [] else scales } : Tile))
    let s := if poison then s else s.vecFlags c.lc flags
    s.complete c tiles poison
  else
    let s := if poison then s
      else (s.vecFlags c.lc flags).onScp c.lc (fun m =>
        { m with vregs := regPut m.vregs (vxDt c.w) (selReg dest) ((results.getD 0 []).flatten) })
    s.complete c [] poison

/-- The format a command's results take: OUT_FMT for a tile, DT for registers (R72). -/
def vxDestFmt (c : Ctx) : Nat := if selKind (vxDest c.w) = 1 then vxOut c.w else vxDt c.w

/-- An elementwise command of one result. -/
def vxElementwise (k : VxKind) (op : Cmd → List Val → Val × Bool) (c : Ctx) (s : State) : State :=
  let (tiles, s) := readInputs s c
  let poison := tiles.any (·.poison)
  let fmt := vxDestFmt c
  let (codes, fl) := vxMap c (s.core c.lc).scp.vregs tiles k.nOps fmt (op c.w)
  let (r, n) := vxOutShape k c
  let codes := if k.cvt && vxPad c.w then codes.map (fun l => l ++ List.replicate (n - l.length) 0) else codes
  vxFinish c s poison fmt r n [codes] [] fl

/-- An operation exact in both arithmetics. -/
def exactOp (g : List Fp → Fp) (h : List Int → Int) (dt : Nat) (xs : List Val) : Val × Bool :=
  (if dt = 9 then .i (h (xs.map Val.int)) else .f (g (xs.map Val.fp)), false)

/-- The larger or smaller of two numbers (R72): NaN if either is; +0 above −0. -/
def fpPick (big : Bool) (a b : Fp) : Fp :=
  match Fp.cmp a b with
  | none => .nan
  | some .eq =>
    match a, b with
    | .fin n m e, .fin n' _ _ =>
      if m = 0 then .fin (if big then n && n' else n || n') 0 0 else .fin n m e
    | x, _ => x
  | some .lt => if big then b else a
  | some .gt => if big then a else b

def vxKindAdd : VxKind := { nOps := 2 }
def vxKindFma : VxKind := { nOps := 3 }
def vxKindSel : VxKind := { nOps := 4, subs := 4 }
def vxKindCvt : VxKind := { nOps := 1, pad := true, cvt := true }
def vxKindTr : VxKind := { nOps := 1, floatOnly := true }
def vxKindTr2 : VxKind := { nOps := 1, subs := 2, floatOnly := true }
def vxKindSc : VxKind := { nOps := 1, floatOnly := true, outs := 2 }
def vxKindRsum : VxKind := { nOps := 1, subs := 2, red := true }
def vxKindRmax : VxKind := { nOps := 1, red := true }
def vxKindScan : VxKind := { nOps := 1, scan := true }
def vxKindQuant : VxKind := { nOps := 1, floatOnly := true, quant := true }

/-- vx.add (R72, R105): the sum, exact and rounded once. -/
def execVxAdd (lc : Fin 64) (s : State) : Res :=
  runCmd (vxRow vxKindAdd) 0x30 (vxElementwise vxKindAdd (fun w =>
    exactOp (fun l => Fp.add (l.getD 0 .nan) (l.getD 1 .nan)) (fun l => l.getD 0 0 + l.getD 1 0) (vxDt w))) lc .v s

/-- vx.mul (R72, R105). -/
def execVxMul (lc : Fin 64) (s : State) : Res :=
  runCmd (vxRow vxKindAdd) 0x31 (vxElementwise vxKindAdd (fun w =>
    exactOp (fun l => Fp.mul (l.getD 0 .nan) (l.getD 1 .nan)) (fun l => l.getD 0 0 * l.getD 1 0) (vxDt w))) lc .v s

/-- vx.fma (R72): OPA × OPB + OPC, rounded once. -/
def execVxFma (lc : Fin 64) (s : State) : Res :=
  runCmd (vxRow vxKindFma) 0x32 (vxElementwise vxKindFma (fun w =>
    exactOp (fun l => Fp.add (Fp.mul (l.getD 0 .nan) (l.getD 1 .nan)) (l.getD 2 .nan))
      (fun l => l.getD 0 0 * l.getD 1 0 + l.getD 2 0) (vxDt w))) lc .v s

/-- vx.max (R72). -/
def execVxMax (lc : Fin 64) (s : State) : Res :=
  runCmd (vxRow vxKindAdd) 0x33 (vxElementwise vxKindAdd (fun w =>
    exactOp (fun l => fpPick true (l.getD 0 .nan) (l.getD 1 .nan)) (fun l => max (l.getD 0 0) (l.getD 1 0)) (vxDt w))) lc .v s

/-- vx.min (R72). -/
def execVxMin (lc : Fin 64) (s : State) : Res :=
  runCmd (vxRow vxKindAdd) 0x34 (vxElementwise vxKindAdd (fun w =>
    exactOp (fun l => fpPick false (l.getD 0 .nan) (l.getD 1 .nan)) (fun l => min (l.getD 0 0) (l.getD 1 0)) (vxDt w))) lc .v s

/-- vx.sel's comparison (R113): SUB 0 <, 1 ≤, 2 =, 3 ≠. A NaN compares unequal (IEEE 754). -/
def selHolds (sub : Nat) (a b : Val) : Bool :=
  match Fp.cmp a.fp b.fp with
  | none => sub == 3
  | some o =>
    match sub with
    | 0 => o == .lt
    | 1 => o != .gt
    | 2 => o == .eq
    | _ => o != .eq

/-- vx.sel (R73, R113): OPC where the comparison of OPA with OPB holds, OPD where it does not. -/
def execVxSel (lc : Fin 64) (s : State) : Res :=
  runCmd (vxRow vxKindSel) 0x35 (vxElementwise vxKindSel (fun w l =>
    (if selHolds (vxSub w) (l.getD 0 (.i 0)) (l.getD 1 (.i 0)) then l.getD 2 (.i 0) else l.getD 3 (.i 0), false))) lc .v s

/-- vx.cvt (R72, R73): one conversion from the exact value; the pad option fills each row with zeros. -/
def vxCvtEff (c : Ctx) (s : State) : State :=
  let (tiles, s) := readInputs s c
  let poison := tiles.any (·.poison)
  let fmt := vxDestFmt c
  let (rows, cols) := vxShape c
  let (_, n) := vxOutShape vxKindCvt c
  let m := (s.core c.lc).scp.vregs
  let src (r k : Nat) : Fp :=
    match tiles with
    | t :: _ => decodeFmt t.fmt (t.code r k)
    | [] => (vxArg m c [] 0 r k).fp
  let one (r k : Nat) : Nat × VFlags :=
    let x := src r k
    let e := encodeFmt fmt .rne (vxSat c.w) x
    let o := decodeFmt fmt e.code
    (e.code, { nan := o.isNan && !x.isNan, inf := !o.isFin && !o.isNan && x.isFin, sat := e.sat })
  let res := (List.range rows).map (fun r => (List.range cols).map (one r))
  let codes := res.map (fun l => l.map (·.1) ++ List.replicate (n - cols) 0)
  vxFinish c s poison fmt rows n [codes] [] ((res.flatten).foldl (fun f x => f.or x.2) {})

/-- vx.cvt (R73). -/
def execVxCvt (lc : Fin 64) (s : State) : Res := runCmd (vxRow vxKindCvt) 0x36 vxCvtEff lc .v s

/-- A transcendental: its FP32 result from the operand taken exactly into FP32 (R72, R73). -/
def trOp (f : Cmd → Word → Word) (w : Cmd) (xs : List Val) : Val × Bool :=
  (.f (fp (f w (toFp32 ((xs.getD 0 (.i 0)).fp)))), false)

/-- vx.exp (R73): eˣ, or 2ˣ under SUB 1. -/
def execVxExp (lc : Fin 64) (s : State) : Res :=
  runCmd (vxRow vxKindTr2) 0x38 (vxElementwise vxKindTr2 (trOp (fun w => expRef (vxSub w == 1)))) lc .v s

/-- vx.log (R73): ln, or log₂ under SUB 1. -/
def execVxLog (lc : Fin 64) (s : State) : Res :=
  runCmd (vxRow vxKindTr2) 0x39 (vxElementwise vxKindTr2 (trOp (fun w => logRef (vxSub w == 1)))) lc .v s

/-- vx.recip (R73). -/
def execVxRecip (lc : Fin 64) (s : State) : Res :=
  runCmd (vxRow vxKindTr) 0x3A (vxElementwise vxKindTr (trOp (fun _ => recipRef))) lc .v s

/-- vx.rsqrt (R73). -/
def execVxRsqrt (lc : Fin 64) (s : State) : Res :=
  runCmd (vxRow vxKindTr) 0x3B (vxElementwise vxKindTr (trOp (fun _ => rsqrtRef))) lc .v s

/-- vx.sqrt (R73), correctly rounded. -/
def execVxSqrt (lc : Fin 64) (s : State) : Res :=
  runCmd (vxRow vxKindTr) 0x3C (vxElementwise vxKindTr (trOp (fun _ => sqrtRef))) lc .v s

/-- vx.tanh (R73). -/
def execVxTanh (lc : Fin 64) (s : State) : Res :=
  runCmd (vxRow vxKindTr) 0x3D (vxElementwise vxKindTr (trOp (fun _ => tanhRef))) lc .v s

/-- vx.sigm (R73). -/
def execVxSigm (lc : Fin 64) (s : State) : Res :=
  runCmd (vxRow vxKindTr) 0x3E (vxElementwise vxKindTr (trOp (fun _ => sigmRef))) lc .v s

/-- vx.sincos's effect (R113): sin to OUT0, cos to OUT1. -/
def vxSincosEff (c : Ctx) (s : State) : State :=
  let (tiles, s) := readInputs s c
  let poison := tiles.any (·.poison)
  let fmt := vxDestFmt c
  let m := (s.core c.lc).scp.vregs
  let (a, fa) := vxMap c m tiles 1 fmt (trOp (fun _ => sincosRef false) c.w)
  let (b, fb) := vxMap c m tiles 1 fmt (trOp (fun _ => sincosRef true) c.w)
  let (r, n) := vxOutShape vxKindSc c
  vxFinish c s poison fmt r n [a, b] [] (fa.or fb)

/-- vx.sincos (R73, R113). -/
def execVxSincos (lc : Fin 64) (s : State) : Res := runCmd (vxRow vxKindSc) 0x3F vxSincosEff lc .v s

/-! ### Reductions (R75) -/

/-- A value with the saturation it met. -/
abbrev Acc := Val × Bool

/-- Addition of a reduction: FP32 rounded, or INT32 saturating. -/
def redAdd (dt : Nat) (a b : Acc) : Acc :=
  if dt = 9 then let (v, t) := satInt 32 (a.1.int + b.1.int); (.i v, a.2 || b.2 || t)
  else (.f (fp (toFp32 (Fp.add a.1.fp b.1.fp))), a.2 || b.2)

/-- One level of the pairwise tree: neighbours first. -/
def pairUp (dt : Nat) : List Acc → List Acc
  | a :: b :: r => redAdd dt a b :: pairUp dt r
  | l => l

/-- The depth-6 tree of a block, short blocks filled with +0 (R75). -/
def blockTree (dt : Nat) (l : List Acc) : Acc :=
  let zero : Acc := (if dt = 9 then .i 0 else .f (.fin false 0 0), false)
  let l := l ++ List.replicate (64 - l.length) zero
  ((pairUp dt (pairUp dt (pairUp dt (pairUp dt (pairUp dt (pairUp dt l)))))).getD 0 zero)

/-- The sum of a line in the order of R75, from a starting sum. -/
def lineSum (dt : Nat) (start : Acc) (l : List Acc) : Acc :=
  (chunks 64 l).foldl (fun a b => redAdd dt a (blockTree dt b)) start

/-- A sum of squares' leaf: the square rounded once to FP32 (R75). -/
def redSquare (dt : Nat) (v : Val) : Acc :=
  if dt = 9 then let (x, t) := satInt 32 (v.int * v.int); (.i x, t)
  else (.f (fp (toFp32 (Fp.mul v.fp v.fp))), false)

/-- The lines of a reduction: rows, or columns under AXIS. -/
def redLines (c : Ctx) (dt : Nat) (t : Tile) : List (List Val) :=
  let v (r k : Nat) := valOf (if dt = 9 then 9 else 0) t.fmt (t.code r k)
  if vxAxis c.w then (List.range t.cols).map (fun k => (List.range t.rows).map (fun r => v r k))
  else (List.range t.rows).map (fun r => (List.range t.cols).map (fun k => v r k))

/-- A reduction's effect: `f` takes the starting value (if ACC) and a line. Its flags look at a line's result, not at the nodes
of its tree (DEDUCED, log 188). -/
def vxReduce (k : VxKind) (f : Nat → Option Val → List Val → Acc) (c : Ctx) (s : State) : State :=
  let (tiles, s) := readInputs s c
  let poison := tiles.any (·.poison)
  let w := c.w
  let dt := vxDt w
  let fmt := vxDestFmt c
  let m := (s.core c.lc).scp.vregs
  let lines := redLines c dt (tiles.getD 0 {})
  let res := (List.range lines.length).map (fun j =>
    let start := if vxAcc w then some (valOf dt dt (regGet m dt (selReg (vxDest w)) j)) else none
    let l := lines.getD j []
    let (y, t) := f dt start l
    let (code, fl) := vxEmit dt fmt (vxSat w) (start.toList ++ l) y
    (code, { fl with sat := fl.sat || t }))
  let codes := res.map (·.1)
  let (r, n) := vxOutShape k c
  let codes := if vxAxis w then [codes] else codes.map (fun x => [x])
  vxFinish c s poison fmt r n [codes] [] (res.foldl (fun a x => a.or x.2) {})

/-- vx.rsum's line (R75). -/
def rsumLine (sq : Bool) (dt : Nat) (start : Option Val) (l : List Val) : Acc :=
  let zero : Val := if dt = 9 then .i 0 else .f (.fin false 0 0)
  lineSum dt (start.getD zero, false) (l.map (fun v => if sq then redSquare dt v else (v, false)))

/-- vx.rmax's line (R75). -/
def rmaxLine (dt : Nat) (start : Option Val) (l : List Val) : Acc :=
  match start.toList ++ l with
  | [] => (.i 0, false)
  | x :: r => (r.foldl (fun a b => if dt = 9 then .i (max a.int b.int) else .f (fpPick true a.fp b.fp)) x, false)

/-- vx.rsum (R75). -/
def execVxRsum (lc : Fin 64) (s : State) : Res :=
  runCmd (vxRow vxKindRsum) 0x40 (fun c s => vxReduce vxKindRsum (rsumLine (vxSub c.w == 1)) c s) lc .v s

/-- vx.rmax (R75). -/
def execVxRmax (lc : Fin 64) (s : State) : Res :=
  runCmd (vxRow vxKindRmax) 0x41 (vxReduce vxKindRmax rmaxLine) lc .v s

/-- The exclusive prefix sums of a row (R73): one rounding per step. -/
def scanRow (dt : Nat) : Acc → List Val → List Acc
  | _, [] => []
  | a, v :: r => a :: scanRow dt (redAdd dt a (v, false)) r

/-- vx.scan's effect (R73). -/
def vxScanEff (c : Ctx) (s : State) : State :=
  let (tiles, s) := readInputs s c
  let poison := tiles.any (·.poison)
  let dt := vxDt c.w
  let fmt := vxDestFmt c
  let t := tiles.getD 0 {}
  let zero : Acc := (if dt = 9 then .i 0 else .f (.fin false 0 0), false)
  let res := (List.range t.rows).map (fun r =>
    let l := (List.range t.cols).map (fun k => valOf (if dt = 9 then 9 else 0) t.fmt (t.code r k))
    (scanRow dt zero l).zipIdx.map (fun ((y, b), k) =>
      -- the operands of an exclusive sum are the elements before it
      let (code, fl) := vxEmit dt fmt (vxSat c.w) (l.take k) y
      (code, { fl with sat := fl.sat || b })))
  vxFinish c s poison fmt t.rows t.cols [res.map (fun l => l.map (·.1))] []
    ((res.flatten).foldl (fun a x => a.or x.2) {})

/-- vx.scan (R73). -/
def execVxScan (lc : Fin 64) (s : State) : Res := runCmd (vxRow vxKindScan) 0x42 vxScanEff lc .v s

/-! ### MX quantisation (R76) -/

/-- emax of an MX element format (R76). -/
def mxEmax (fmt : Nat) : Int := if fmt = 6 then 4 else 2

/-- One block of 32 elements: element codes, the scale code, and whether any saturated (R76). -/
def quantBlock (fmt : Nat) (xs : List Fp) : List Nat × Nat × Bool :=
  if xs.any (fun x => !x.isFin) then (xs.map (fun _ => 0), 0xFF, false)
  else
    match xs.foldl (fun a x => maxExp a x.exponent?) none with
    | none => (xs.map (fun _ => 0), 0, false)
    | some top =>
      let e := max (-127) (min 127 (top - mxEmax fmt))
      let es := xs.map (fun x => (layoutOf fmt).encode .rne true (x.shift (-e)))
      (es.map (·.code), (e + 127).toNat, es.any (·.sat))

/-- vx.quant's effect (R76). A block with an infinity or a NaN sets no NAN_SEEN: its scale says so, no operation has produced
a NaN (DEDUCED, log 187). -/
def vxQuantEff (c : Ctx) (s : State) : State :=
  let (tiles, s) := readInputs s c
  let poison := tiles.any (·.poison)
  let fmt := vxOut c.w
  let t := tiles.getD 0 {}
  let rows := (List.range t.rows).map (fun r =>
    (chunks 32 ((List.range t.cols).map (fun k => decodeFmt t.fmt (t.code r k)))).map (quantBlock fmt))
  vxFinish c s poison fmt t.rows t.cols [rows.map (fun l => l.flatMap (·.1))] (rows.map (fun l => l.map (·.2.1)))
    { sat := (rows.flatten).any (·.2.2) }

/-- vx.quant (R76). -/
def execVxQuant (lc : Fin 64) (s : State) : Res := runCmd (vxRow vxKindQuant) 0x43 vxQuantEff lc .v s

/-! ### Online softmax (R90, R114) -/

def smxFinish (w : Cmd) : Bool := fld w 64 4 == 1
def smxFirst (w : Cmd) : Bool := bit w 77
def smxMask (w : Cmd) : Bool := bit w 79
def smxM (w : Cmd) : Nat := fld w 80 6
def smxL (w : Cmd) : Nat := fld w 86 6
def smxAlpha (w : Cmd) : Nat := fld w 96 6

/-- The reserved encodings of vx.smx's body (R114): a SUB beyond its two. -/
def smxEncErr (w : Cmd) : Bool := fld w 64 4 ≥ 2

/-- Per-row values of a score tile: rows, or columns under AXIS. -/
def smxLines (w : Cmd) (c : Ctx) : Nat :=
  match c.ins with
  | i :: _ => if vxAxis w then i.ent.desc.cols else i.ent.desc.rows
  | [] => 0

/-- vx.smx's shapes, formats and ranges (R72, R90, R114): FP32 or BF16 scores that DT takes, an FP32 O on finish. R90's bound
on score tiles is taken for O too (DEDUCED, log 186). -/
def smxCheck (s : State) (c : Ctx) : Option Nat :=
  let w := c.w
  let d := (c.ins.getD 0 {}).ent.desc
  let dt := vxDt w
  let badFmt := !(dt == 0 || dt == 1) || !(vxOut w == 1 || vxOut w == 3 || vxOut w == 4)
    || !dtTakes dt d.fmt || (if smxFinish w then d.fmt ≠ 0 else d.fmt > 1)
  if badFmt then some eFormatPair
  else if d.rows > 256 || d.cols > 512 || smxM w ≥ 32 || smxL w ≥ 32 || smxAlpha w ≥ 32
      || (c.ins.getD 0 {}).ent.gather.isSome
      || rangePast dt (smxL w) (smxLines w c) || rangePast dt (smxM w) (smxLines w c)
      || rangePast dt (smxAlpha w) (smxLines w c) then some eShape
  else outErr s c 0 (vxOut w) d.rows d.cols

/-- The row of vx.smx. -/
def smxRow : Row where
  fields := fun _ _ => [(64, 28), (96, 6), (128, 32), (160, 32), (192, 32), (224, 32)]
  encErr := smxEncErr
  slots := fun _ => (1, [1])
  check := smxCheck
  hold := fun s c =>
    let d := (c.ins.getD 0 {}).ent.desc
    tileHold s c [(vxOut c.w, d.rows, d.cols)]

/-- Is element (query q, key k) allowed by the temporal causal mask (R90). -/
def smxAllowed (w : Cmd) (q k : Nat) : Bool :=
  !smxMask w ||
    (let ft := fld w 160 16 + 1
     let wf := fld w 176 16
     let fq := (fld w 192 32 + q) / ft
     let fk := (fld w 224 32 + k) / ft
     fk ≤ fq && (wf == 0 || fq - fk < wf))

/-- e to the difference of two words. -/
def expDiff (a b : Word) : Word := expRef false (fadd a (b ^^^ 0x80000000))

/-- One line of a softmax step: m, l and α, and p of every element (R90). l's product and its sum round one after the other,
and Σp starts at +0 (DEDUCED, log 185). -/
def smxLine (w : Cmd) (first : Bool) (m0 l0 : Word) (xs : List (Word × Bool)) : Word × Word × Word × List Word :=
  let ninf : Word := 0xFF800000
  let cc := BitVec.ofNat 32 (fld w 128 32)
  let sp := xs.map (fun (x, ok) => (canonNan (fmul cc x), ok))
  let mOld := if first then ninf else m0
  let lOld := if first then 0 else l0
  let mNew := sp.foldl (fun m (x, ok) => if ok then toFp32 (fpPick true (fp m) (fp x)) else m) mOld
  let dead := mNew == ninf
  let alpha := if dead then 0x3F800000 else expDiff mOld mNew
  let ps := sp.map (fun (x, ok) => if !ok || dead then (0 : Word) else expDiff x mNew)
  let sum := lineSum 0 (.f (.fin false 0 0), false) (ps.map (fun p => (.f (fp p), false)))
  let l := fadd (fmul alpha lOld) (toFp32 sum.1.fp)
  (mNew, canonNan l, alpha, ps)

/-- The lines of a tile as FP32 words with their mask. -/
def smxWords (w : Cmd) (t : Tile) : List (List (Word × Bool)) :=
  if vxAxis w then (List.range t.cols).map (fun q => (List.range t.rows).map (fun k => (t.word k q, smxAllowed w q k)))
  else (List.range t.rows).map (fun q => (List.range t.cols).map (fun k => (t.word q k, smxAllowed w q k)))

/-- Lines back to rows of a tile. -/
def smxBack (w : Cmd) (t : Tile) (ls : List (List Nat)) : List (List Nat) :=
  if vxAxis w then (List.range t.rows).map (fun r => (List.range t.cols).map (fun k => (ls.getD k []).getD r 0)) else ls

/-- vx.smx overwrites v32–v63 with its staging (R90); what it leaves there the spec does not state: each
element is a free value (log 7). -/
def smxStage (s : State) (lc : Nat) : State := s.freeRegs lc (32 * 4096) 16384

/-- An element of a register range as an FP32 word (R72). -/
def regWord (v : Memory) (dt reg i : Nat) : Word := toFp32 (valOf dt dt (regGet v dt reg i)).fp

/-- vx.smx's effect (R90). Its registers hold DT's format (R72): what a step computes in FP32 is rounded once as it is written
to them. -/
def smxEff (c : Ctx) (s : State) : State :=
  let w := c.w
  let dt := vxDt w
  let (tiles, s) := readInputs s c
  let t := tiles.getD 0 {}
  let fmt := vxOut w
  let v := (s.core c.lc).scp.vregs
  let n := smxLines w c
  let out (codes : List (List Nat)) : Tile :=
    { fmt := fmt, rows := t.rows, cols := t.cols, codes := codes, poison := t.poison }
  if t.poison then s.complete c [out (List.replicate t.rows [])] true
  else
    let lines := smxWords w t
    let emit (fmt : Nat) (args : List Word) (x : Word) (sat : Bool := vxSat w) : Nat × VFlags :=
      vxEmit 0 fmt sat (args.map (fun a => .f (fp a))) (.f (fp x))
    if smxFinish w then
      let res := (List.range n).map (fun i =>
        let l := regWord v dt (smxL w) i
        (lines.getD i []).map (fun (x, _) =>
          if l = 0 then ((0 : Nat), ({} : VFlags)) else emit fmt [x, l] (canonNan (fmul x (recipRef l)))))
      let s := s.vecFlags c.lc ((res.flatten).foldl (fun f x => f.or x.2) {})
      (smxStage s c.lc).complete c [out (smxBack w t (res.map (fun l => l.map (·.1))))] false
    else
      let m0 (i : Nat) : Word := if smxFirst w then 0xFF800000 else regWord v dt (smxM w) i
      let l0 (i : Nat) : Word := if smxFirst w then 0 else regWord v dt (smxL w) i
      let res := (List.range n).map (fun i => smxLine w (smxFirst w) (m0 i) (l0 i) (lines.getD i []))
      let args (i : Nat) : List Word :=
        [BitVec.ofNat 32 (fld w 128 32), m0 i] ++ ((lines.getD i []).filter (·.2)).map (·.1)
      let enc := (List.range n).map (fun i => ((res.getD i (0, 0, 0, [])).2.2.2).map (fun p => emit fmt (args i) p))
      let reg (f : Word × Word × Word × List Word → Word) (more : Nat → List Word) : List (Nat × VFlags) :=
        (List.range n).map (fun i => emit dt (args i ++ more i) (f (res.getD i (0, 0, 0, []))) false)
      let ms := reg (·.1) (fun _ => [])
      let ls := reg (·.2.1) (fun i => [l0 i])
      let as := reg (·.2.2.1) (fun _ => [])
      let s := smxStage s c.lc
      let s := s.onScp c.lc (fun m =>
        let v := regPut m.vregs dt (smxM w) (ms.map (·.1))
        let v := regPut v dt (smxL w) (ls.map (·.1))
        { m with vregs := regPut v dt (smxAlpha w) (as.map (·.1)) })
      let s := s.vecFlags c.lc ((enc.flatten ++ ms ++ ls ++ as).foldl (fun f x => f.or x.2) {})
      s.complete c [out (smxBack w t (enc.map (fun l => l.map (·.1))))] false

/-- vx.smx (R90, R114). -/
def execVxSmx (lc : Fin 64) (s : State) : Res := runCmd smxRow 0x44 smxEff lc .v s

end Sys2Proof.Machine
end

