-- ==== Sys2Proof/Machine/Reduce.lean ====
section
/-! DEFINITION. The reduction engine Q: red.max, red.min, red.topk, red.hist (R77–R81, R115). -/

namespace Sys2Proof.Machine

def redSub (w : Cmd) : Nat := fld w 64 4
def redK (w : Cmd) : Nat := fld w 72 6 + 1
def redAxis (w : Cmd) : Bool := bit w 78
def redClear (w : Cmd) : Bool := bit w 79
def redEmit (w : Cmd) : Bool := bit w 80
def redBins (w : Cmd) : Nat := fld w 81 12 + 1
def redBase (w : Cmd) : Nat := fld w 96 32
def redLo (w : Cmd) : Word := BitVec.ofNat 32 (fld w 128 32)
def redHi (w : Cmd) : Word := BitVec.ofNat 32 (fld w 160 32)

/-- The fields of the shared body (R115). -/
def redFields : List (Nat × Nat) := [(64, 4), (72, 6), (78, 3), (81, 12), (96, 32), (128, 32), (160, 32)]

/-- Fields of red.hist alone are zero elsewhere (R115). -/
def histFieldsSet (w : Cmd) : Bool :=
  redClear w || redEmit w || fld w 81 12 ≠ 0 || redLo w ≠ 0 || redHi w ≠ 0

/-- A candidate of a selection: value, code, position. -/
structure Cand where
  v : Fp
  code : Nat
  pos : Nat
  deriving DecidableEq, Repr

/-- Does candidate `a` come before `b` (R78): by value, equal values by index, NaN last. -/
def candBefore (big : Bool) (a b : Cand) : Bool :=
  match Fp.cmp a.v b.v with
  | some .eq => a.pos < b.pos
  | some o => o == (if big then .gt else .lt)
  | none =>
    if a.v.isNan && b.v.isNan then a.pos < b.pos else b.v.isNan

/-- Insert a candidate in order. -/
def candInsert (big : Bool) (x : Cand) : List Cand → List Cand
  | [] => [x]
  | y :: r => if candBefore big x y then x :: y :: r else y :: candInsert big x r

/-- The k best of a list (R78). -/
def candBest (big : Bool) (k : Nat) (l : List Cand) : List Cand :=
  (l.foldl (fun a x => candInsert big x a) []).take k

/-- The value of an empty slot (R79). -/
def candFill (fmt : Nat) : Nat :=
  match fmt with
  | 0 => 0xFF800000 | 1 => 0xFF80 | 2 => 0xFC00 | 3 => 0xFE | 4 => 0xFC | 8 => 0x80 | _ => 0x80000000

/-- The candidates of line `i` of a new tile (R78). -/
def newCands (axis : Bool) (base : Nat) (t : Tile) (i : Nat) : List Cand :=
  if axis then (List.range t.rows).map (fun r => { v := decodeFmt t.fmt (t.code r i), code := t.code r i, pos := base + r })
  else (List.range t.cols).map (fun k => { v := decodeFmt t.fmt (t.code i k), code := t.code i k, pos := base + k })

/-- The candidates of line `i` of an earlier list; an index of 0xFFFF_FFFF marks an empty slot (R79, R80). -/
def oldCands (axis : Bool) (k : Nat) (vals idx : Tile) (i : Nat) : List Cand :=
  (List.range k).filterMap (fun j =>
    let (r, c) := if axis then (j, i) else (i, j)
    if idx.code r c = 0xFFFFFFFF then none
    else some { v := decodeFmt vals.fmt (vals.code r c), code := vals.code r c, pos := idx.code r c })

/-- The new tile of a selection: IN2 in merge mode, else IN0. -/
def redNew (c : Ctx) : Desc := (c.ins.getD (c.ins.length - 1) {}).ent.desc

/-- The shape of a selection's two outputs (R78). -/
def redShape (c : Ctx) : Nat × Nat :=
  let d := redNew c
  if redAxis c.w then (redK c.w, d.cols) else (d.rows, redK c.w)

/-- The checks of red.max, red.min and red.topk (R77–R80). -/
def redCheck (s : State) (c : Ctx) : Option Nat :=
  let w := c.w
  let d := redNew c
  let (r, k) := redShape c
  let v := (c.ins.getD 0 {}).ent.desc
  let i := (c.ins.getD 1 {}).ent.desc
  let merge := c.ins.length = 3
  if !plainFmt d.fmt || c.ins.any (fun x => x.ent.gather.isSome) || (merge ∧ (v.fmt ≠ d.fmt ∨ !(i.fmt == 9 || i.fmt == 10))) then some eFormatPair
  else if merge ∧ ((v.rows, v.cols) ≠ (r, k) ∨ (i.rows, i.cols) ≠ (r, k)) then some eShape
  else if redBase w + (if redAxis w then d.rows else d.cols) - 1 > 0xFFFFFFFE then some eShape
  else
    match outErr s c 0 d.fmt r k with
    | some e => some e
    | none => outErr s c 1 0xA r k

/-- The row of a selection command. -/
def redRow (merge : Cmd → Bool) (enc : Cmd → Bool) : Row where
  fields := fun _ _ => redFields
  encErr := enc
  slots := fun w => (if merge w then 3 else 1, [2])
  check := redCheck
  hold := fun s c =>
    let (r, k) := redShape c
    tileHold s c [((redNew c).fmt, r, k), (0xA, r, k)]

/-- A selection's effect (R78–R80). -/
def redSelect (big : Bool) (c : Ctx) (s : State) : State :=
  let (tiles, s) := readInputs s c
  let poison := tiles.any (·.poison)
  let w := c.w
  let axis := redAxis w
  let k := redK w
  let t := tiles.getD (tiles.length - 1) {}
  let (r, n) := redShape c
  let lines := if axis then t.cols else t.rows
  let best := (List.range lines).map (fun i =>
    candBest big k ((if tiles.length = 3 then oldCands axis k (tiles.getD 0 {}) (tiles.getD 1 {}) i else [])
      ++ newCands axis (redBase w) t i))
  let pick (f : Cand → Nat) (fill : Nat) : List (List Nat) :=
    let ls := best.map (fun l => l.map f ++ List.replicate (k - l.length) fill)
    if axis then (List.range k).map (fun j => ls.map (fun l => l.getD j fill)) else ls
  let short := best.any (fun l => l.length < k)
  let mk (fmt : Nat) (codes : List (List Nat)) : Tile :=
    { fmt := fmt, rows := r, cols := n, poison := poison, codes := if poison then List.replicate r [] else codes }
  let s := if !poison && short then s.redFlags c.lc 1 else s
  s.complete c [mk t.fmt (pick (·.code) (candFill t.fmt)), mk 0xA (pick (·.pos) 0xFFFFFFFF)] poison

/-- red.max (R78): what red.topk returns with k = 1. -/
def execRedMax (lc : Fin 64) (s : State) : Res :=
  runCmd (redRow (fun _ => false) (fun w => redSub w ≠ 0 || redK w ≠ 1 || histFieldsSet w)) 0x50 (redSelect true) lc .q s

/-- red.min (R78): by ascending value, NaN last. -/
def execRedMin (lc : Fin 64) (s : State) : Res :=
  runCmd (redRow (fun _ => false) (fun w => redSub w ≠ 0 || redK w ≠ 1 || histFieldsSet w)) 0x51 (redSelect false) lc .q s

/-- red.topk (R78–R80). -/
def execRedTopk (lc : Fin 64) (s : State) : Res :=
  runCmd (redRow (fun w => redSub w == 1) (fun w => redSub w ≥ 2 || histFieldsSet w)) 0x52 (redSelect true) lc .q s

/-- The bin of a value (R81); none where it is counted in no bin. -/
def histBin (w : Cmd) (fmt code : Nat) : Option Nat :=
  if redSub w = 0 then
    let v := signedOf 32 code
    if 0 ≤ v ∧ v < redBins w then some v.toNat else none
  else
    let x := toFp32 (decodeFmt fmt code)
    let lo := redLo w
    let hi := redHi w
    let inside := (Fp.cmp (fp lo) (fp x) == some .lt || Fp.cmp (fp lo) (fp x) == some .eq) && Fp.lt (fp x) (fp hi)
    if !inside then none
    else
      let neg (y : Word) := y ^^^ 0x80000000
      let num := fmul (fadd x (neg lo)) (toFp32 (.fin false (redBins w) 0))
      let den := fadd hi (neg lo)
      match fp num, fp den with
      | .fin _ _ _, .inf _ => some 0
      | .fin _ m e, .fin _ m' e' =>
        if m' = 0 then none
        else
          -- the quotient, rounded to FP32, and its floor
          match fp (toFp32 (Fp.quot (.fin false m e) (.fin false m' e'))) with
          | .fin _ k j =>
            let b := if j ≥ 0 then k * 2 ^ j.toNat else k / 2 ^ (-j).toNat
            if b < redBins w then some b else none
          | _ => none
      | _, _ => none

/-- Count one value: bins, HIST_OOR, HIST_SAT (R81). -/
def histCount (w : Cmd) (fmt : Nat) (acc : Tbl Word × Word) (code : Nat) : Tbl Word × Word :=
  match histBin w fmt code with
  | none => (acc.1, acc.2 ||| 2)
  | some b =>
    let old := Tbl.get 0 acc.1 b
    (Tbl.set 0 acc.1 b (satInc old), if old = 0xFFFFFFFF then acc.2 ||| 4 else acc.2)

/-- The checks of red.hist (R81). -/
def histCheck (s : State) (c : Ctx) : Option Nat :=
  let d := (c.ins.getD 0 {}).ent.desc
  if (c.ins.getD 0 {}).ent.gather.isSome || (if redSub c.w = 0 then d.fmt ≠ 9 else d.fmt > 4) then some eFormatPair
  else if redEmit c.w then outErr s c 0 9 1 (redBins c.w) else none

/-- The row of red.hist. -/
def histRow : Row where
  fields := fun _ _ => redFields
  encErr := fun w => redSub w ≥ 2 || fld w 72 6 ≠ 0 || redAxis w || redBase w ≠ 0
    || (redSub w == 0 && (redLo w ≠ 0 || redHi w ≠ 0))
  slots := fun w => (1, [if redEmit w then 1 else 0])
  check := histCheck
  hold := fun s c => tileHold s c (if redEmit c.w then [(9, 1, redBins c.w)] else [])

/-- red.hist's effect (R81): clear, count, write out. -/
def histEff (c : Ctx) (s : State) : State :=
  let (tiles, s) := readInputs s c
  let w := c.w
  let t := tiles.getD 0 {}
  let n := redBins w
  if t.poison then
    s.complete c (if redEmit w then [{ fmt := 9, rows := 1, cols := n, codes := [[]], poison := true }] else []) true
  else
    let bins : Tbl Word := if redClear w then [] else (s.core c.lc).scp.bins
    let (bins, fl) := (t.codes.flatten).foldl (histCount w t.fmt) (bins, (0 : Word))
    let s := (s.redFlags c.lc fl).onScp c.lc (fun m => { m with bins := bins })
    s.complete c (if redEmit w then
      [{ fmt := 9, rows := 1, cols := n, codes := [(List.range n).map (fun b => (Tbl.get 0 bins b).toNat)] }] else []) false

/-- red.hist (R81). -/
def execRedHist (lc : Fin 64) (s : State) : Res := runCmd histRow 0x53 histEff lc .q s

end Sys2Proof.Machine
end

