-- ==== Sys2Proof/Machine/Dispatch.lean ====
section
/-! DEFINITION. The dispatch: one arm per row of the table, each a direct call of that row's meaning. -/

namespace Sys2Proof.Machine

def exec (i : Instr) (s : State) : Host.Outcome State Fault Refusal :=
  match i with
  | .nop lc e => Sys2Proof.Machine.execNop lc e s
  | .stop lc e => Sys2Proof.Machine.execStop lc e s
  | .loop lc e => Sys2Proof.Machine.execLoop lc e s
  | .endloop lc e => Sys2Proof.Machine.execEndloop lc e s
  | .codeSwap lc e => Sys2Proof.Machine.execCodeSwap lc e s
  | .waitQ lc e => Sys2Proof.Machine.execWaitQ lc e s
  | .waitGrp lc e => Sys2Proof.Machine.execWaitGrp lc e s
  | .waitBar lc e => Sys2Proof.Machine.execWaitBar lc e s
  | .waitWin lc e => Sys2Proof.Machine.execWaitWin lc e s
  | .barArrive lc => Sys2Proof.Machine.execBarArrive lc s
  | .qCfg lc => Sys2Proof.Machine.execQCfg lc s
  | .qPush lc => Sys2Proof.Machine.execQPush lc s
  | .grpOpen lc e => Sys2Proof.Machine.execGrpOpen lc e s
  | .grpCommit lc => Sys2Proof.Machine.execGrpCommit lc s
  | .grpAbort lc => Sys2Proof.Machine.execGrpAbort lc s
  | .winOpen lc => Sys2Proof.Machine.execWinOpen lc s
  | .winClose lc => Sys2Proof.Machine.execWinClose lc s
  | .mm lc a => Sys2Proof.Machine.execMm lc a s
  | .mmWin3d lc a => Sys2Proof.Machine.execMmWin3d lc a s
  | .mmTongs lc => Sys2Proof.Machine.execMmTongs lc s
  | .tongsPairStart lc => Sys2Proof.Machine.execTongsPairStart lc s
  | .gatherTile lc a => Sys2Proof.Machine.execGatherTile lc a s
  | .vxAdd lc => Sys2Proof.Machine.execVxAdd lc s
  | .vxMul lc => Sys2Proof.Machine.execVxMul lc s
  | .vxFma lc => Sys2Proof.Machine.execVxFma lc s
  | .vxMax lc => Sys2Proof.Machine.execVxMax lc s
  | .vxMin lc => Sys2Proof.Machine.execVxMin lc s
  | .vxSel lc => Sys2Proof.Machine.execVxSel lc s
  | .vxCvt lc => Sys2Proof.Machine.execVxCvt lc s
  | .vxExp lc => Sys2Proof.Machine.execVxExp lc s
  | .vxLog lc => Sys2Proof.Machine.execVxLog lc s
  | .vxRecip lc => Sys2Proof.Machine.execVxRecip lc s
  | .vxRsqrt lc => Sys2Proof.Machine.execVxRsqrt lc s
  | .vxSqrt lc => Sys2Proof.Machine.execVxSqrt lc s
  | .vxTanh lc => Sys2Proof.Machine.execVxTanh lc s
  | .vxSigm lc => Sys2Proof.Machine.execVxSigm lc s
  | .vxSincos lc => Sys2Proof.Machine.execVxSincos lc s
  | .vxRsum lc => Sys2Proof.Machine.execVxRsum lc s
  | .vxRmax lc => Sys2Proof.Machine.execVxRmax lc s
  | .vxScan lc => Sys2Proof.Machine.execVxScan lc s
  | .vxQuant lc => Sys2Proof.Machine.execVxQuant lc s
  | .vxSmx lc => Sys2Proof.Machine.execVxSmx lc s
  | .redMax lc => Sys2Proof.Machine.execRedMax lc s
  | .redMin lc => Sys2Proof.Machine.execRedMin lc s
  | .redTopk lc => Sys2Proof.Machine.execRedTopk lc s
  | .redHist lc => Sys2Proof.Machine.execRedHist lc s
  | .chainAdd lc agree => Sys2Proof.Machine.execChainAdd lc agree s
  | .dmaCopy lc d => Sys2Proof.Machine.execDmaCopy lc d s
  | .commandFetch lc e hit => Sys2Proof.Machine.execCommandFetch lc e hit s
  | .arraySwap lc a hold flip => Sys2Proof.Machine.execArraySwap lc a hold flip s
  | .tileDrainStart lc => Sys2Proof.Machine.execTileDrainStart lc s
  | .tileDrainEnd lc agree => Sys2Proof.Machine.execTileDrainEnd lc agree s
  | .sequencerMismatch lc e recoverable => Sys2Proof.Machine.execSequencerMismatch lc e recoverable s
  | .parityError p => Sys2Proof.Machine.execParityError p s
  | .taskStop lc t => Sys2Proof.Machine.execTaskStop lc t s
  | .implicitWaitTimeout lc e t => Sys2Proof.Machine.execImplicitWaitTimeout lc e t s
  | .explicitWaitTimeout lc e t => Sys2Proof.Machine.execExplicitWaitTimeout lc e t s
  | .winOpenQuiet lc t => Sys2Proof.Machine.execWinOpenQuiet lc t s
  | .chainConfirm lc => Sys2Proof.Machine.execChainConfirm lc s
  | .slicePrepare sl k => Sys2Proof.Machine.execSlicePrepare sl k s
  | .groupCommitPoint k => Sys2Proof.Machine.execGroupCommitPoint k s
  | .sliceCommit sl k => Sys2Proof.Machine.execSliceCommit sl k s
  | .eccWriteback lc cw => Sys2Proof.Machine.execEccWriteback lc cw s
  | .sectionPowerEntry lc sec => Sys2Proof.Machine.execSectionPowerEntry lc sec s
  | .sectionWake lc sec => Sys2Proof.Machine.execSectionWake lc sec s
  | .sectionWakeDone lc sec => Sys2Proof.Machine.execSectionWakeDone lc sec s
  | .windowWrite lc node src w poison data => Sys2Proof.Machine.execWindowWrite lc node src w poison data s
  | .xbarRead p addr mask k u => Sys2Proof.Machine.execXbarRead p addr mask k u s
  | .xbarWrite p addr mask data poison k => Sys2Proof.Machine.execXbarWrite p addr mask data poison k s
  | .sliceMissFill sl u => Sys2Proof.Machine.execSliceMissFill sl u s
  | .parkCopyHome sl => Sys2Proof.Machine.execParkCopyHome sl s
  | .stackRead unit u => Sys2Proof.Machine.execStackRead unit u s
  | .stackWrite unit mask data poison u => Sys2Proof.Machine.execStackWrite unit mask data poison u s
  | .inPlaceAdd unit bf16 data poison u => Sys2Proof.Machine.execInPlaceAdd unit bf16 data poison u s
  | .stackRefresh st ch pc bank => Sys2Proof.Machine.execStackRefresh st ch pc bank s
  | .patrolScrub st u => Sys2Proof.Machine.execPatrolScrub st u s
  | .targetedScrub st t => Sys2Proof.Machine.execTargetedScrub st t s
  | .bisnpResponse sl dirty => Sys2Proof.Machine.execBisnpResponse sl dirty s
  | .hostMemRequest unit r caches => Sys2Proof.Machine.execHostMemRequest unit r caches s
  | .hostSnoop addr => Sys2Proof.Machine.execHostSnoop addr s
  | .apertureCompletion r => Sys2Proof.Machine.execApertureCompletion r s
  | .frameReceive p fr => Sys2Proof.Machine.execFrameReceive p fr s
  | .arpRequest p target sender mac => Sys2Proof.Machine.execArpRequest p target sender mac s
  | .neighbourSolicitation p target sender mac => Sys2Proof.Machine.execNeighbourSolicitation p target sender mac s
  | .icmpEchoRequest p v6 dst sender mac rest => Sys2Proof.Machine.execIcmpEchoRequest p v6 dst sender mac rest s
  | .pfcFrameRx p quanta enable => Sys2Proof.Machine.execPfcFrameRx p quanta enable s
  | .pauseQuantaExpiry p cls t => Sys2Proof.Machine.execPauseQuantaExpiry p cls t s
  | .lldpTimer p t => Sys2Proof.Machine.execLldpTimer p t s
  | .portUp p => Sys2Proof.Machine.execPortUp p s
  | .trainingRetry p light t => Sys2Proof.Machine.execTrainingRetry p light t s
  | .lossOfSignal p lanes => Sys2Proof.Machine.execLossOfSignal p lanes s
  | .faultReceived p remote => Sys2Proof.Machine.execFaultReceived p remote s
  | .portRetrain p ok => Sys2Proof.Machine.execPortRetrain p ok s
  | .hiSerTimer p corrected received corr uncorr t => Sys2Proof.Machine.execHiSerTimer p corrected received corr uncorr t s
  | .laserEol p lane => Sys2Proof.Machine.execLaserEol p lane s
  | .oeOvertemp n k temp => Sys2Proof.Machine.execOeOvertemp n k temp s
  | .opticsRailFail n => Sys2Proof.Machine.execOpticsRailFail n s
  | .writeWin h w data => Sys2Proof.Machine.execWriteWin h w data s
  | .writeDram h d data => Sys2Proof.Machine.execWriteDram h d data s
  | .addDram h d data => Sys2Proof.Machine.execAddDram h d data s
  | .readReq h addr reqId rlen => Sys2Proof.Machine.execReadReq h addr reqId rlen s
  | .readResp h reqId roff err data => Sys2Proof.Machine.execReadResp h reqId roff err data s
  | .ack h a => Sys2Proof.Machine.execAck h a s
  | .credit h core window gen req granted => Sys2Proof.Machine.execCredit h core window gen req granted s
  | .touch h tmseq => Sys2Proof.Machine.execTouch h tmseq s
  | .strike h tmseq => Sys2Proof.Machine.execStrike h tmseq s
  | .group h core g abort => Sys2Proof.Machine.execGroup h core g abort s
  | .barrier h coll release epoch => Sys2Proof.Machine.execBarrier h coll release epoch s
  | .setup h b => Sys2Proof.Machine.execSetup h b s
  | .setupAck h b => Sys2Proof.Machine.execSetupAck h b s
  | .teardown h => Sys2Proof.Machine.execTeardown h s
  | .contextFetchDone flow => Sys2Proof.Machine.execContextFetchDone flow s
  | .ackTimer flow t => Sys2Proof.Machine.execAckTimer flow t s
  | .reorderTimeout flow psn t => Sys2Proof.Machine.execReorderTimeout flow psn t s
  | .rtoExpiry flow t => Sys2Proof.Machine.execRtoExpiry flow t s
  | .retxLimit flow t => Sys2Proof.Machine.execRetxLimit flow t s
  | .setupRetry flow t => Sys2Proof.Machine.execSetupRetry flow t s
  | .closingTimeout flow t => Sys2Proof.Machine.execClosingTimeout flow t s
  | .mc3Restart done => Sys2Proof.Machine.execMc3Restart done s
  | .ptpMessageRx p x t => Sys2Proof.Machine.execPtpMessageRx p x t s
  | .ptpEventTx p m seqId body => Sys2Proof.Machine.execPtpEventTx p m seqId body s
  | .ptpSyncLoss t => Sys2Proof.Machine.execPtpSyncLoss t s
  | .cxlPerstAssert => Sys2Proof.Machine.execCxlPerstAssert s
  | .cxlPerstRelease => Sys2Proof.Machine.execCxlPerstRelease s
  | .hotReset => Sys2Proof.Machine.execHotReset s
  | .functionLevelReset => Sys2Proof.Machine.execFunctionLevelReset s
  | .cxlLinkDown => Sys2Proof.Machine.execCxlLinkDown s
  | .cxlLinkUp rateMax x8 flit256 cxl => Sys2Proof.Machine.execCxlLinkUp rateMax x8 flit256 cxl s
  | .mbxScan t => Sys2Proof.Machine.execMbxScan t s
  | .fwInfo p => Sys2Proof.Machine.execFwInfo p s
  | .heartbeat t => Sys2Proof.Machine.execHeartbeat t s
  | .hostReturn => Sys2Proof.Machine.execHostReturn s
  | .licenceInstall => Sys2Proof.Machine.execLicenceInstall s
  | .attestRequest p t => Sys2Proof.Machine.execAttestRequest p t s
  | .attestSign treeReady => Sys2Proof.Machine.execAttestSign treeReady s
  | .configStage => Sys2Proof.Machine.execConfigStage s
  | .configApply => Sys2Proof.Machine.execConfigApply s
  | .applyAdopt => Sys2Proof.Machine.execApplyAdopt s
  | .queueCreate p num => Sys2Proof.Machine.execQueueCreate p num s
  | .queueDestroy p => Sys2Proof.Machine.execQueueDestroy p s
  | .contextLoad p idx place => Sys2Proof.Machine.execContextLoad p idx place s
  | .contextUnload p => Sys2Proof.Machine.execContextUnload p s
  | .jobSubmit p => Sys2Proof.Machine.execJobSubmit p s
  | .jobCancel p => Sys2Proof.Machine.execJobCancel p s
  | .jobStart qn t => Sys2Proof.Machine.execJobStart qn t s
  | .preemptSaveDone lc => Sys2Proof.Machine.execPreemptSaveDone lc s
  | .jobComplete idx t => Sys2Proof.Machine.execJobComplete idx t s
  | .coreHandover lc => Sys2Proof.Machine.execCoreHandover lc s
  | .hostTimeout t => Sys2Proof.Machine.execHostTimeout t s
  | .hostDrain t => Sys2Proof.Machine.execHostDrain t s
  | .heldMessageDelivery p => Sys2Proof.Machine.execHeldMessageDelivery p s
  | .mbxReset p => Sys2Proof.Machine.execMbxReset p s
  | .stageDiscard => Sys2Proof.Machine.execStageDiscard s
  | .cfgStart b t => Sys2Proof.Machine.execCfgStart b t s
  | .fwUpdateGo => Sys2Proof.Machine.execFwUpdateGo s
  | .fwUpdateDone r b t => Sys2Proof.Machine.execFwUpdateDone r b t s
  | .secUnlockSignature t => Sys2Proof.Machine.execSecUnlockSignature t s
  | .secUnlockPassword t => Sys2Proof.Machine.execSecUnlockPassword t s
  | .nonceRead t => Sys2Proof.Machine.execNonceRead t s
  | .errlogSelect seq => Sys2Proof.Machine.execErrlogSelect seq s
  | .errlogFetchDone => Sys2Proof.Machine.execErrlogFetchDone s
  | .loReadLatch off => Sys2Proof.Machine.execLoReadLatch off s
  | .w1cWrite off v => Sys2Proof.Machine.execW1cWrite off v s
  | .registerWrite off v => Sys2Proof.Machine.execRegisterWrite off v s
  | .boardConfigRecord t => Sys2Proof.Machine.execBoardConfigRecord t s
  | .scpCorrLogHourly t => Sys2Proof.Machine.execScpCorrLogHourly t s
  | .damperSample watts mv tileW t => Sys2Proof.Machine.execDamperSample watts mv tileW t s
  | .thermalSample lc own unc t => Sys2Proof.Machine.execThermalSample lc own unc t s
  | .stackThermalSample st temps t => Sys2Proof.Machine.execStackThermalSample st temps t s
  | .stepPolicy d t => Sys2Proof.Machine.execStepPolicy d t s
  | .parkTimer d t => Sys2Proof.Machine.execParkTimer d t s
  | .corePark d => Sys2Proof.Machine.execCorePark d s
  | .unparkTimer d t => Sys2Proof.Machine.execUnparkTimer d t s
  | .thermalTrip cmp t => Sys2Proof.Machine.execThermalTrip cmp t s
  | .tripRelease temps => Sys2Proof.Machine.execTripRelease temps s
  | .coolantOkFall t => Sys2Proof.Machine.execCoolantOkFall t s
  | .coolantOkRise t => Sys2Proof.Machine.execCoolantOkRise t s
  | .quench t => Sys2Proof.Machine.execQuench t s
  | .coolantRestart t => Sys2Proof.Machine.execCoolantRestart t s
  | .shunt d below t => Sys2Proof.Machine.execShunt d below t s
  | .clamp d above => Sys2Proof.Machine.execClamp d above s
  | .clockStretch d below t => Sys2Proof.Machine.execClockStretch d below t s
  | .temperReading d slack shortfallMv t => Sys2Proof.Machine.execTemperReading d slack shortfallMv t s
  | .temperHourly d t => Sys2Proof.Machine.execTemperHourly d t s
  | .temperSave t => Sys2Proof.Machine.execTemperSave t s
  | .phaseFailure d t => Sys2Proof.Machine.execPhaseFailure d t s
  | .domainShort d t => Sys2Proof.Machine.execDomainShort d t s
  | .crackCheck d res amps => Sys2Proof.Machine.execCrackCheck d res amps s
  | .tileFailure tile => Sys2Proof.Machine.execTileFailure tile s
  | .stackRailFail st => Sys2Proof.Machine.execStackRailFail st s
  | .alwaysOnFail => Sys2Proof.Machine.execAlwaysOnFail s
  | .retentionEntry d => Sys2Proof.Machine.execRetentionEntry d s
  | .switchOnGrant d t => Sys2Proof.Machine.execSwitchOnGrant d t s
  | .grantTimeout d t => Sys2Proof.Machine.execGrantTimeout d t s
  | .switchOnDone d t => Sys2Proof.Machine.execSwitchOnDone d t s
  | .stepChange d step t => Sys2Proof.Machine.execStepChange d step t s
  | .deferredStepSwitch d t => Sys2Proof.Machine.execDeferredStepSwitch d t s
  | .refLost ref t => Sys2Proof.Machine.execRefLost ref t s
  | .optHoldoverExpiry t => Sys2Proof.Machine.execOptHoldoverExpiry t s
  | .timeBeacon t => Sys2Proof.Machine.execTimeBeacon t s
  | .pwrGoodRise b strap t => Sys2Proof.Machine.execPwrGoodRise b strap t s
  | .pwrGoodFall => Sys2Proof.Machine.execPwrGoodFall s
  | .vddioLow io18 => Sys2Proof.Machine.execVddioLow io18 s
  | .vinOutOfRange mv => Sys2Proof.Machine.execVinOutOfRange mv s
  | .startStage5 r t => Sys2Proof.Machine.execStartStage5 r t s
  | .bankedRestart b t => Sys2Proof.Machine.execBankedRestart b t s
  | .deviceLevelFault cause t => Sys2Proof.Machine.execDeviceLevelFault cause t s
  | .mc0WatchdogExpiry ok b t => Sys2Proof.Machine.execMc0WatchdogExpiry ok b t s
  | .mcHeartbeatMiss t => Sys2Proof.Machine.execMcHeartbeatMiss t s
  | .jtagBypass tdi => Sys2Proof.Machine.execJtagBypass tdi s
  | .jtagIdcode => Sys2Proof.Machine.execJtagIdcode s
  | .jtagSamplePreload preload => Sys2Proof.Machine.execJtagSamplePreload preload s
  | .jtagExtest => Sys2Proof.Machine.execJtagExtest s
  | .jtagUnlock shiftIn t => Sys2Proof.Machine.execJtagUnlock shiftIn t s
  | .smbusOffsetWrite bytes => Sys2Proof.Machine.execSmbusOffsetWrite bytes s
  | .smbusRead => Sys2Proof.Machine.execSmbusRead s
  | .smbusAlertResponse => Sys2Proof.Machine.execSmbusAlertResponse s
  | .smbusClockTimeout => Sys2Proof.Machine.execSmbusClockTimeout s
  | .smbusMirrorRefresh t => Sys2Proof.Machine.execSmbusMirrorRefresh t s
  | .hdmDecoderCommit n hpa dpa size ways => Sys2Proof.Machine.execHdmDecoderCommit n hpa dpa size ways s
  | .cacheEnable => Sys2Proof.Machine.execCacheEnable s
  | .configurationRequest off => Sys2Proof.Machine.execConfigurationRequest off s
  | .faultCleared p => Sys2Proof.Machine.execFaultCleared p s
  | .refRestored ref => Sys2Proof.Machine.execRefRestored ref s
  | .vddioRestored io18 => Sys2Proof.Machine.execVddioRestored io18 s
  | .vin48Restored mv => Sys2Proof.Machine.execVin48Restored mv s
  | .standbyRestartDone => Sys2Proof.Machine.execStandbyRestartDone s
  | .gatewayResolved p mac => Sys2Proof.Machine.execGatewayResolved p mac s
  | .secondLevelTreeReady => Sys2Proof.Machine.execSecondLevelTreeReady s

end Sys2Proof.Machine
end

