-- ==== Sys2Proof/Safety.lean ====
section
/-! DEFINITION. The terms claims are stated in: the parts of the state, and what it is for a step to change
only some of them. -/

namespace Sys2Proof.Machine

/-- The parts of the state. -/
inductive Part where
  | cores | mem | ports | optics | fab | host | jobs | cfg | sec | flash | mgmt | pwr | clk | thm | pins | free | pending
  deriving DecidableEq, Repr

/-- Two states agree on a part. -/
def Same (s t : State) : Part → Prop
  | .cores => t.cores = s.cores
  | .mem => t.mem = s.mem
  | .ports => t.ports = s.ports
  | .optics => t.optics = s.optics
  | .fab => t.fab = s.fab
  | .host => t.host = s.host
  | .jobs => t.jobs = s.jobs
  | .cfg => t.cfg = s.cfg
  | .sec => t.sec = s.sec
  | .flash => t.flash = s.flash
  | .mgmt => t.mgmt = s.mgmt
  | .pwr => t.pwr = s.pwr
  | .clk => t.clk = s.clk
  | .thm => t.thm = s.thm
  | .pins => t.pins = s.pins
  | .free => t.free = s.free
  | .pending => t.pending = s.pending

/-- `t` differs from `s` in the listed parts at most. -/
def Within (w : List Part) (s t : State) : Prop := ∀ p, p ∉ w → Same s t p

/-- The parts of the state a command can change: no command changes any other (R1: the block is one part, and each
row of the table names what it acts on). -/
def touches : Instr → List Part
  | .nop .. | .stop .. | .loop .. | .endloop .. | .codeSwap .. | .waitQ .. | .waitGrp .. | .waitBar ..
  | .waitWin .. | .qCfg .. | .qPush .. | .grpOpen .. | .grpCommit .. | .winOpen .. | .winClose .. | .mm ..
  | .mmWin3d .. | .mmTongs .. | .tongsPairStart .. | .gatherTile .. =>
    [.cores, .jobs]
  | .barArrive .. | .grpAbort .. | .vxAdd .. | .vxMul .. | .vxFma .. | .vxMax .. | .vxMin .. | .vxSel ..
  | .vxCvt .. | .vxExp .. | .vxLog .. | .vxRecip .. | .vxRsqrt .. | .vxSqrt .. | .vxTanh .. | .vxSigm ..
  | .vxSincos .. | .vxRsum .. | .vxRmax .. | .vxScan .. | .vxQuant .. | .redMax .. | .redMin .. | .redTopk ..
  | .redHist .. | .commandFetch .. | .tileDrainStart .. | .groupCommitPoint .. | .sectionWakeDone ..
  | .windowWrite .. | .writeWin .. | .credit .. | .touch .. | .strike .. | .group .. | .barrier .. | .setup ..
  | .setupAck .. | .teardown .. =>
    [.cores, .mem, .ports, .fab, .jobs]
  | .vxSmx .. =>
    [.cores, .mem, .ports, .fab, .jobs, .free]
  | .chainAdd .. | .dmaCopy .. | .apertureCompletion .. | .writeDram .. | .addDram .. | .readReq .. | .ack ..
  | .contextFetchDone .. =>
    [.cores, .mem, .ports, .fab, .host, .jobs, .flash]
  | .arraySwap .. | .chainConfirm .. =>
    [.cores, .ports, .fab, .jobs]
  | .tileDrainEnd .. | .sequencerMismatch .. =>
    [.cores, .ports, .fab, .jobs, .flash]
  | .parityError .. =>
    [.cores, .mem, .ports, .fab, .host, .jobs, .flash, .mgmt, .pwr]
  | .taskStop .. | .reorderTimeout .. | .rtoExpiry .. =>
    [.cores, .mem, .ports, .fab, .jobs, .flash, .clk]
  | .implicitWaitTimeout .. | .winOpenQuiet .. =>
    [.cores, .jobs, .clk]
  | .jobStart .. =>
    [.cores, .mem, .fab, .jobs, .clk]
  | .preemptSaveDone .. =>
    [.cores, .mem, .fab, .jobs, .free]
  | .explicitWaitTimeout .. | .retxLimit .. | .setupRetry .. =>
    [.cores, .mem, .ports, .fab, .jobs, .clk]
  | .slicePrepare .. =>
    [.cores, .mem, .fab]
  | .sliceCommit .. | .xbarRead .. | .xbarWrite .. | .sliceMissFill .. | .parkCopyHome .. | .bisnpResponse ..
  | .hostMemRequest .. =>
    [.cores, .mem, .ports, .fab, .host, .flash]
  | .eccWriteback .. | .sectionPowerEntry .. | .sectionWake .. =>
    [.cores]
  | .stackRead .. | .stackWrite .. | .patrolScrub .. | .stackRailFail .. =>
    [.mem, .flash]
  | .inPlaceAdd .. =>
    [.cores, .mem, .ports, .fab, .flash]
  | .stackRefresh .. =>
    [.mem]
  | .targetedScrub .. =>
    [.mem, .flash, .clk]
  | .hostSnoop .. | .fwInfo .. | .hostReturn | .heldMessageDelivery .. | .mbxReset .. | .hdmDecoderCommit ..
  | .cacheEnable | .configurationRequest .. =>
    [.host]
  | .frameReceive .. | .arpRequest .. | .neighbourSolicitation .. | .icmpEchoRequest .. =>
    [.ports]
  | .pfcFrameRx .. | .lossOfSignal .. | .faultReceived .. | .ptpEventTx .. | .gatewayResolved .. =>
    [.ports, .fab]
  | .pauseQuantaExpiry .. | .trainingRetry .. | .ackTimer .. | .optHoldoverExpiry .. =>
    [.ports, .fab, .clk]
  | .lldpTimer .. =>
    [.ports, .clk]
  | .portUp .. | .portRetrain .. | .faultCleared .. =>
    [.ports, .optics, .fab, .flash]
  | .hiSerTimer .. =>
    [.ports, .optics, .fab, .clk]
  | .laserEol .. | .opticsRailFail .. =>
    [.ports, .optics, .fab]
  | .oeOvertemp .. =>
    [.ports, .optics, .fab, .thm]
  | .readResp .. | .contextUnload .. =>
    [.cores, .mem, .ports, .fab, .host, .jobs]
  | .closingTimeout .. =>
    [.cores, .mem, .ports, .fab, .clk]
  | .mc3Restart .. =>
    [.ports, .fab, .flash, .mgmt]
  | .ptpMessageRx .. | .ptpSyncLoss .. =>
    [.fab, .clk]
  | .cxlPerstAssert =>
    [.cores, .mem, .ports, .fab, .host, .cfg, .flash, .pins]
  | .cxlPerstRelease | .smbusOffsetWrite .. | .smbusRead | .smbusAlertResponse | .smbusClockTimeout
  | .vddioRestored .. =>
    [.pins]
  | .hotReset | .functionLevelReset | .cxlLinkDown =>
    [.cores, .mem, .ports, .fab, .host, .cfg, .flash]
  | .cxlLinkUp .. =>
    [.host, .free]
  | .mbxScan .. | .heartbeat .. | .hostTimeout .. | .hostDrain .. =>
    [.host, .clk]
  | .licenceInstall =>
    [.mem, .host, .flash]
  | .attestRequest .. =>
    [.host, .sec, .clk]
  | .attestSign .. | .secondLevelTreeReady =>
    [.host, .sec]
  | .configStage =>
    [.host, .cfg]
  | .configApply | .applyAdopt =>
    [.cores, .ports, .optics, .fab, .host, .cfg, .pwr]
  | .queueCreate .. | .queueDestroy .. =>
    [.host, .jobs]
  | .contextLoad .. =>
    [.cores, .mem, .ports, .fab, .host, .jobs, .flash, .pwr]
  | .jobSubmit .. =>
    [.cores, .host, .jobs, .pwr]
  | .jobCancel .. =>
    [.cores, .host, .jobs, .free]
  | .jobComplete .. =>
    [.cores, .mem, .ports, .fab, .host, .jobs, .clk]
  | .coreHandover .. =>
    [.cores, .flash]
  | .stageDiscard =>
    [.cfg]
  | .cfgStart .. | .fwUpdateDone .. | .tripRelease .. | .bankedRestart .. | .mc0WatchdogExpiry .. =>
    [.cores, .mem, .ports, .optics, .fab, .host, .jobs, .cfg, .sec, .flash, .mgmt, .pwr, .clk, .thm, .free]
  | .fwUpdateGo =>
    [.mem, .cfg, .flash, .mgmt]
  | .secUnlockSignature .. | .secUnlockPassword .. =>
    [.cores, .mem, .ports, .optics, .fab, .host, .cfg, .sec, .flash, .pwr, .clk]
  | .nonceRead .. =>
    [.host, .sec, .clk, .free]
  | .errlogSelect .. | .errlogFetchDone =>
    [.mgmt]
  | .standbyRestartDone =>
    [.flash, .mgmt]
  | .loReadLatch .. =>
    [.cores, .mem, .ports, .host, .sec, .mgmt, .pwr, .clk, .free]
  | .w1cWrite .. =>
    [.cores, .host, .clk]
  | .registerWrite .. =>
    [.cores, .host, .cfg, .mgmt, .clk]
  | .boardConfigRecord .. =>
    [.cfg, .flash, .clk]
  | .scpCorrLogHourly .. =>
    [.flash, .mgmt, .clk]
  | .damperSample .. | .stepPolicy .. | .parkTimer .. | .unparkTimer .. | .shunt .. | .temperReading ..
  | .temperHourly .. | .switchOnGrant .. | .grantTimeout .. | .switchOnDone .. | .stepChange ..
  | .deferredStepSwitch .. =>
    [.pwr, .clk]
  | .thermalSample .. =>
    [.flash, .pwr, .clk, .thm]
  | .stackThermalSample .. =>
    [.mem, .flash, .clk, .thm]
  | .corePark .. | .clamp .. | .tileFailure .. | .retentionEntry .. =>
    [.pwr]
  | .thermalTrip .. | .quench .. =>
    [.cores, .mem, .ports, .fab, .host, .jobs, .flash, .mgmt, .pwr, .clk, .thm]
  | .coolantOkFall .. =>
    [.clk, .thm, .pins]
  | .coolantOkRise .. =>
    [.cores, .mem, .ports, .fab, .host, .jobs, .flash, .mgmt, .pwr, .clk, .thm, .pins]
  | .coolantRestart .. =>
    [.mgmt, .clk, .thm]
  | .clockStretch .. =>
    [.cores, .pwr, .clk]
  | .temperSave .. =>
    [.flash, .pwr, .clk]
  | .phaseFailure .. =>
    [.cores, .mem, .ports, .fab, .jobs, .flash, .pwr, .clk]
  | .domainShort .. | .deviceLevelFault .. | .mcHeartbeatMiss .. =>
    [.cores, .mem, .ports, .fab, .host, .jobs, .flash, .mgmt, .pwr, .clk]
  | .crackCheck .. =>
    [.flash, .pwr]
  | .alwaysOnFail | .vinOutOfRange .. =>
    [.cores, .mem, .ports, .optics, .fab, .host, .jobs, .cfg, .sec, .flash, .mgmt, .pwr, .pins]
  | .refLost .. =>
    [.cores, .mem, .ports, .fab, .host, .cfg, .flash, .clk]
  | .timeBeacon .. | .refRestored .. =>
    [.clk]
  | .pwrGoodRise .. =>
    [.cores, .mem, .ports, .optics, .fab, .host, .jobs, .cfg, .sec, .flash, .mgmt, .pwr, .clk, .thm, .pins, .free]
  | .pwrGoodFall =>
    [.cores, .mem, .ports, .optics, .fab, .host, .jobs, .cfg, .flash, .mgmt, .pwr, .pins]
  | .vddioLow .. =>
    [.cores, .mem, .ports, .fab, .host, .cfg, .flash, .thm, .pins]
  | .startStage5 .. =>
    [.cores, .ports, .optics, .fab, .host, .flash, .mgmt, .pwr, .clk]
  | .jtagBypass .. | .jtagIdcode | .jtagSamplePreload .. | .jtagExtest =>
    [.sec]
  | .jtagUnlock .. =>
    [.sec, .flash, .clk, .free]
  | .smbusMirrorRefresh .. =>
    [.clk, .pins]
  | .vin48Restored .. =>
    [.mgmt, .pwr, .pins]

/-! ### Canonical form -/

/-- The tables of a saved task are canonical. -/
def Saved.Canon (v : Saved) : Prop :=
  Tbl.wf {} v.engines = true ∧ Tbl.wf {} v.queues = true ∧ Tbl.wf {} v.groups = true ∧ v.vregs.wf = true

/-- The tables of a sequencer are canonical. -/
def Sequencer.Canon (q : Sequencer) : Prop :=
  Tbl.wf {} q.engines = true ∧ Tbl.wf {} q.queues = true ∧ Tbl.wf {} q.groups = true ∧ Tbl.wf {} q.windows = true
    ∧ ∀ v ∈ q.saved, v.Canon

/-- The scratchpad's memory, the vector registers, and the marks and codes of its words and sections are canonical. -/
def Scratch.Canon (m : Scratch) : Prop :=
  m.bytes.wf = true ∧ m.vregs.wf = true ∧ Tbl.wf false m.poison = true ∧ Tbl.wf false m.durable = true
    ∧ Tbl.wf 0 m.flips = true ∧ Tbl.wf 0 m.sect = true ∧ Tbl.wf none m.sectReq = true ∧ Tbl.wf false m.waking = true

/-- A core's tables are canonical. -/
def Core.Canon (c : Core) : Prop := c.seq.Canon ∧ c.scp.Canon

/-- DRAM, the slices and the stacks. -/
def Mem.Canon (m : Mem) : Prop :=
  m.dram.wf = true ∧ Tbl.wf false m.poison = true ∧ Tbl.wf {} m.slices = true ∧ Tbl.wf {} m.stks = true
    ∧ Tbl.wf .good m.cond = true

/-- The flows and the collective groups. -/
def Fabric.Canon (f : Fabric) : Prop := Tbl.wf {} f.flows = true ∧ Tbl.wf {} f.colls = true

/-- A mailbox pair's rings. -/
def Pair.Canon (p : Pair) : Prop := p.h2d.wf = true ∧ p.d2h.wf = true

/-- The mailbox pairs and the host's memory. -/
def HostIf.Canon (h : HostIf) : Prop :=
  Tbl.wf {} h.pairs = true ∧ h.mem.wf = true ∧ ∀ n, (Tbl.get {} h.pairs n).Canon

/-- The job contexts and the scheduling queues. -/
def Jobs.Canon (j : Jobs) : Prop := Tbl.wf {} j.jobs = true ∧ Tbl.wf {} j.queues = true

/-- The memories of the part (scratchpads, vector registers, DRAM, mailbox rings, host memory) and the tables of its
cores, slices, stacks, ports, optics, flows, groups, pairs, jobs and domains are in their one canonical form: keys strictly
rising, no entry equal to what an unlisted one reads as. -/
def Canon (s : State) : Prop :=
  (Tbl.wf {} s.cores = true ∧ ∀ lc, (s.core lc).Canon) ∧ s.mem.Canon ∧ Tbl.wf {} s.ports = true
    ∧ Tbl.wf {} s.optics = true ∧ s.fab.Canon ∧ s.host.Canon ∧ s.jobs.Canon ∧ Tbl.wf {} s.pwr.domains = true

end Sys2Proof.Machine
end

