-- ==== Sys2Proof/Safety/Commands.lean ====
section
/-! DEFINITION. The terms claims about the commands of a stream are stated in. -/

namespace Sys2Proof.Machine

/-- A command that completes at once: it leaves the fetched commands, counts as begun and as retired, and its wait is
over (R126, R136). -/
def Engine.retire (loops : List Loop) (g : Engine) : Engine :=
  { g with
    fetched := g.fetched.drop 1
    begunCount := g.begunCount + 1
    retired := satInc g.retired
    loops := loops
    wait := none
    replaying := false }

/-- The next command of an engine to retire reaches no stop count (R144). -/
def Sequencer.noStop (q : Sequencer) (e : Eng) (g : Engine) : Bool :=
  !(q.stopEnable && q.stopEngine.toNat == e.code && decide ((satInc g.retired).toNat ≥ q.stopN.toNat))

/-- More is fetched, begun or to be fetched before the stream's bound when the front command has gone (R128). -/
def Engine.hasMore (g : Engine) : Bool :=
  !(g.status == .running && (g.fetched.drop 1).isEmpty && g.begun.isEmpty && g.fetchDone
    && decide (g.fetchPos ≥ g.off + g.bound))

/-- The next command of an engine to retire reaches no stop count. -/
def noStopCount (s : State) (lc : Nat) (e : Eng) : Bool := (s.core lc).seq.noStop e (s.eng lc e)

/-- A retirement of an engine's front command stops nothing: no stop count is reached, and the stream does not end at
its bound. -/
def goesOn (s : State) (lc : Nat) (e : Eng) : Bool := noStopCount s lc e && (s.eng lc e).hasMore

/-- The conditions under which the command at the front of an engine's stream begins, `c` being how its row sees it. They
are those of R96 and what else the spec has an engine wait for, all of them conditions on the state and the command's
word alone. -/
structure Begins (r : Row) (op : Nat) (s : State) (lc : Nat) (e : Eng) (c : Ctx) : Prop where
  /-- The engine's stream runs: its task is not stopping or being preempted, its core not parked, and no device-level fault
  stands (R130, R280, R317, R349, R375). -/
  runs : engineRuns s lc e = true
  /-- An array engine has no pass of its last command still to enter (R122). -/
  entered : (s.core lc).issuing e = false
  /-- A command is fetched, without fault (R127, R129, R135), and this is how its row sees it. -/
  front : ∃ f l, (s.eng lc e).fetched = f :: l ∧ f.fault = none ∧ c = frontCtx s lc e f
  /-- It is of this opcode, which this engine executes (R94). -/
  opcode : Cmd.op c.w = op
  mine : (opEngines op).contains e = true
  /-- No stop count holds the engine (R144), and no apply (R408). -/
  noStop : ((s.core lc).seq.stopEnable && (s.core lc).seq.stopEngine.toNat == e.code
    && decide ((s.eng lc e).begunCount ≥ (s.core lc).seq.stopN.toNat)) = false
  noApply : (s.eng lc e).applyHold = false
  /-- An engine other than an array's runs one command at a time; an array's has begun fewer than 128 (R126). -/
  inOrder : e = .f ∨ e = .g0 ∨ e = .g1 ∨ (s.eng lc e).begun = []
  room : (s.eng lc e).begun.length < 128
  /-- Step 1 of R96: its inputs are Ready, its queues configured. -/
  inputs : stepOne (s.core lc) c.w (s.eng lc e).curGrp = none
  /-- Its version is one the task runs under (R124, R433). -/
  version : Cmd.ver c.w = 2 ∨ (Cmd.ver c.w = 1 ∧ (s.core lc).seq.duncen = true ∧ duncenAbsent op = false)
  /-- Every check of step 2 of R96 passes. -/
  checks : checkErr r s c = none
  /-- Nothing the command's own rule has it wait for stands in its way. -/
  noWait : r.hold s c = none

/-! ### What a command of a stream comes to -/

/-- A table of codes by row and column. -/
def grid (rows cols : Nat) (f : Nat → Nat → Nat) : List (List Nat) :=
  (List.range rows).map (fun i => (List.range cols).map (f i))

/-- The first byte of the slot that output `i` is to take, of a tile's format and shape (R101, R104). -/
def slotStart (s : State) (c : Ctx) (i : Nat) (x : Tile) : Nat :=
  let d := ((s.core c.lc).seq.queue (c.outs.getD i 0)).slotDesc x.fmt x.rows x.cols c.grp
  4 * (((s.core c.lc).seq.seg d.seg).base.toNat + d.off)

/-- The outputs lie clear of the code that runs (R131) and of each other, and a tagged command's extents have room (R168). -/
def outsClear (s : State) (c : Ctx) (outs : List Tile) : Prop :=
  (∀ (i : Nat) (x : Tile), outs[i]? = some x → (s.core c.lc).codeHit (outRuns s c i x.fmt x.rows x.cols) = false)
    ∧ (∀ (i j : Nat) (x y : Tile), i ≠ j → outs[i]? = some x → outs[j]? = some y →
        slotStart s c i x + x.bytes.length ≤ slotStart s c j y ∨ slotStart s c j y + y.bytes.length ≤ slotStart s c i x)
    ∧ (c.grp = none ∨ (s.core c.lc).scp.pend.length + (s.core c.lc).scp.away.length + outs.length ≤ 256)

/-- No upset stands in a core's banks and no correction waits to be written back, so that what is read is what was written
(R155, R158). -/
def Scratch.sound (m : Scratch) : Prop := m.flips = [] ∧ m.wbPend = []

/-- A stream has stopped with an error: its engine stands at the error, and the task stops, the first cause standing (R97,
R140). -/
def stopsWith (s t : State) (lc : Nat) (e : Eng) (code : Nat) (index : Word) : Prop :=
  (t.eng lc e).status = .error
    ∧ ∀ k, (s.core lc).seq.task = some k → (t.core lc).seq.task = some { k with stop := some (k.stop.getD (.error code e.code index)) }

/-- A replay has been counted: one more, with the engine, the detector and the command, none of them final (R259). -/
def replayCounted (s t : State) (lc : Nat) (e : Eng) (detector : Nat) : Prop :=
  let g := (t.core lc).integ
  g.replays = satInc (s.core lc).integ.replays ∧ g.lastEngine = BitVec.ofNat 4 e.code ∧ g.lastDetector = BitVec.ofNat 3 detector
    ∧ g.lastSecond = false ∧ g.replayCmd = (s.eng lc e).retired

/-- The entries of a queue have identities of their own, all made before the next one. -/
def Queue.idsOk (q : Queue) : Prop := (q.entries.map (·.id)).Nodup ∧ ∀ e ∈ q.entries, e.id < q.made

/-- A command has completed with these output tiles: each stands in its ring's next slot, a Ready entry; each input is
released, or under KEEP stays; the command has left the engine's stream and counts as begun and retired; no other byte of
the scratchpad, no other queue and no other core has changed (R102–R104, R126). -/
structure Completes (s t : State) (c : Ctx) (outs : List Tile) : Prop where
  eng : t.eng c.lc c.e = (s.eng c.lc c.e).retire c.f.loops
  entries : ∀ (i : Nat) (x : Tile), outs[i]? = some x →
    let n := c.outs.getD i 0
    let q := (s.core c.lc).seq.queue n
    ((t.core c.lc).seq.queue n).entries =
      q.entries ++ [{ id := q.made, slot := q.next, desc := q.slotDesc x.fmt x.rows x.cols c.grp, st := .ready }]
  bytes : ∀ (i : Nat) (x : Tile), outs[i]? = some x → ∀ j < x.bytes.length,
    Memory.read (t.core c.lc).scp.bytes (slotStart s c i x + j) = x.bytes.getD j 0
  inputs : ∀ i ∈ c.ins, ((s.core c.lc).seq.queue i.qn).mode ≠ 2 →
    (t.core c.lc).seq.queue i.qn =
      if i.keep then (s.core c.lc).seq.queue i.qn else (((s.core c.lc).seq.queue i.qn).pop i.ent.id).release i.ent.id
  queues : ∀ n, (∀ i ∈ c.ins, i.qn ≠ n) → n ∉ c.outs → (t.core c.lc).seq.queue n = (s.core c.lc).seq.queue n
  rest : ∀ a, (∀ (i : Nat) (x : Tile), outs[i]? = some x → a < slotStart s c i x ∨ slotStart s c i x + x.bytes.length ≤ a) →
    Memory.read (t.core c.lc).scp.bytes a = Memory.read (s.core c.lc).scp.bytes a
  cores : ∀ k, k ≠ c.lc → t.core k = s.core k

/-- An array's command has begun: it has left the fetched commands, counts as begun, stands last among the begun and
unretired ones with the tiles it has still to drain, and its inputs are popped, a KEEP input held; no other queue, no byte of
the scratchpad and no other core has changed (R102, R103, R126). -/
structure HasBegun (s t : State) (c : Ctx) (tiles : Nat) (poison : Bool) : Prop where
  eng : t.eng c.lc c.e = { s.eng c.lc c.e with
    fetched := (s.eng c.lc c.e).fetched.drop 1
    begunCount := (s.eng c.lc c.e).begunCount + 1
    loops := c.f.loops
    wait := none
    begun := (s.eng c.lc c.e).begun ++
      [{ word := c.w, pos := c.f.pos, loops := c.f.loops, serial := (s.eng c.lc c.e).begunCount
         ins := c.ins.map (fun i => (i.qn, i.ent.id, i.keep)), tilesLeft := tiles, poison := poison, grp := c.grp }] }
  inputs : ∀ i ∈ c.ins, (t.core c.lc).seq.queue i.qn =
    if i.keep then ((s.core c.lc).seq.queue i.qn).keep i.ent.id else ((s.core c.lc).seq.queue i.qn).pop i.ent.id
  queues : ∀ n, (∀ i ∈ c.ins, i.qn ≠ n) → (t.core c.lc).seq.queue n = (s.core c.lc).seq.queue n
  scp : (t.core c.lc).scp = (s.core c.lc).scp
  cores : ∀ k, k ≠ c.lc → t.core k = s.core k

/-- An array has these passes to enter, and its tiles and stationary registers are as they were. -/
def passesStand (s t : State) (lc : Nat) (a : Arr) (l : List Pass) : Prop :=
  let x := (s.core lc).array a
  let y := (t.core lc).array a
  y.passes = l ∧ y.tile0 = x.tile0 ∧ y.tile1 = x.tile1 ∧ y.active = x.active ∧ y.shadow = x.shadow

/-- The elements of a register range, as codes of DT's width. -/
def regsHold (t : State) (c : Ctx) (reg : Nat) (codes : List Nat) : Prop :=
  let z := regSize (vxDt c.w)
  ∀ i < codes.length, Mem.readN (t.core c.lc).scp.vregs (reg * 4096 + i * z) z = toLE z (codes.getD i 0)

/-- No register byte outside a range of `n` elements has changed. -/
def regsElse (s t : State) (c : Ctx) (reg n : Nat) : Prop :=
  ∀ a, a < reg * 4096 ∨ reg * 4096 + n * regSize (vxDt c.w) ≤ a →
    Memory.read (t.core c.lc).scp.vregs a = Memory.read (s.core c.lc).scp.vregs a

/-- A vx command has completed with these results: as tiles where DEST names the outputs, else the first in the destination
registers, every other register byte as before (R71, R113, R432). -/
def vxDone (s t : State) (c : Ctx) (results : List Tile) : Prop :=
  if selKind (vxDest c.w) = 1 then Completes s t c results ∧ (t.core c.lc).scp.vregs = (s.core c.lc).scp.vregs
  else
    let l := (results.getD 0 {}).codes.flatten
    Completes s t c [] ∧ regsHold t c (selReg (vxDest c.w)) l ∧ regsElse s t c (selReg (vxDest c.w)) l.length

/-- The outputs of a vx command lie clear, where it has any. -/
def vxClear (s : State) (c : Ctx) (results : List Tile) : Prop :=
  selKind (vxDest c.w) = 1 → outsClear s c results

/-- Does a packet pass the checks of its home engine: its port is Up, the engines run, its flow is Open or Closing with
its context cached, its PSN is new and within the window of 65,536, and data is not older than 750 ms (R231, R233,
R237, R240). -/
def passesChecks (s : State) (h : PktHdr) (data : Bool) : Prop :=
  let f := s.flow h.flow.toNat
  (s.port h.port).st = .up ∧ s.teRuns = true ∧ (f.st = .isOpen ∨ f.st = .closing) ∧ f.cached = true
    ∧ f.ahead h.psn < 65536 ∧ f.sack.contains h.psn = false ∧ (data = true → s.ageOf h.port h.flow.toNat h.txTs ≤ 750000000)

/-- What a data packet that passes those checks comes to: it is placed, or left waiting, and if it was placed or refused it
is acknowledged and what waited for it follows (R229, R237–R239). -/
def placedBy (s t : State) (h : PktHdr) (place : State → Option (BitVec 8) × State) : Prop :=
  match place (s.ctxCount (h.flow.toNat % 8) true) with
  | (none, v) => t = v
  | (some code, v) => t = (v.recordArrival h (if code = 0 then none else some code)).afterArrival h

end Sys2Proof.Machine
end

