-- ==== Sys2Proof/Certificates/Slice0/Obligations.lean ====
section
/-! DEFINITION. The statements about the model. Those of basis 'stated' quote a rule of spec/; the others say in their
docstring what they rest on. -/

open Sys2Proof Sys2Proof.Machine

/-! ### The whole machine -/

/-- A step takes the command at the front of the queue and runs it with the queue's rest; with none waiting the block
idles (log 1, log 2: the model's choice). -/
def Obligations.StepRunsTheFrontCommand : Prop :=
  (∀ (c : Instr) (rest : List Instr) (s : State), s.pending = c :: rest → step s = exec c { s with pending := rest })
    ∧ ∀ s : State, s.pending = [] → step s = .next s

/-- Every command runs in every state, and changes at most the parts of the state `touches` lists for it: never the
queue of waiting commands. -/
def Obligations.EveryCommandRunsWithinItsParts : Prop :=
  ∀ (i : Instr) (s : State), ∃ t, exec i s = .next t ∧ Within (touches i) s t ∧ t.pending = s.pending

/-- Every step keeps the memories and tables that `Canon` lists in their one canonical form, so that equal contents are
equal data: the representation's invariant (the model's choice, log 3). -/
def Obligations.StepKeepsCanonicalForm : Prop :=
  ∀ s t : State, Canon s → step s = .next t → Canon t

/-- After reset the memories and tables that `Canon` lists are in their canonical form, no command waits, the applied and the
staged copy of every register hold the register's reset value, and a pair, a port and a flow read as never used. -/
def Obligations.ResetIsCanonical : Prop :=
  Canon State.reset ∧ State.reset.pending = []
    ∧ (∀ off g, stgReg off = some g → State.reset.appliedReg off = g.reset ∧ State.reset.stagedReg off = g.reset)
    ∧ (∀ n, (State.reset.pair n).enable = false ∧ (State.reset.pair n).h2dProd = 0 ∧ (State.reset.pair n).d2hCons = 0)
    ∧ (∀ n, (State.reset.port n).st = .disabled ∧ (State.reset.port n).txBytes = 0) ∧ (∀ n, (State.reset.flow n).st = .free)
    ∧ State.reset.mgmt.faultActive = false ∧ State.reset.flash.logNext = 0

/-! ### Commands of a stream: control -/

/-- nop, loop and endloop retire once, at once; stop retires and ends its stream (R105, R128, R130, R136). -/
def Obligations.ControlCommandsRetire : Prop :=
  ∀ (lc : Fin 64) (e : Eng) (s : State) (c : Ctx), Canon s →
    (Begins (plainRow []) 0x00 s lc e c → goesOn s lc e = true →
      exec (.nop lc e) s = .next (s.onEng lc e (Engine.retire c.f.loops)))
    ∧ (Begins (plainRow [(64, 32), (96, 5), (128, 16)]) 0x02 s lc e c → goesOn s lc e = true →
      exec (.loop lc e) s = .next (s.onEng lc e (Engine.retire c.f.loops)))
    ∧ (Begins (plainRow []) 0x03 s lc e c → goesOn s lc e = true →
      exec (.endloop lc e) s = .next (s.onEng lc e (Engine.retire c.f.loops)))
    ∧ (Begins (plainRow []) 0x01 s lc e c → noStopCount s lc e = true →
      exec (.stop lc e) s =
        .next ((s.onEng lc e (fun g => { g with status := .stopped })).onEng lc e (Engine.retire c.f.loops)))

/-- code.swap, once every earlier command has retired, makes a region that passes its checks (multiples of 8 words, at
least 8, within a segment with EXEC) the active one; fetch starts at its OFFSET (R125, R132). -/
def Obligations.CodeSwapMovesTheStream : Prop :=
  ∀ (lc : Fin 64) (e : Eng) (s : State) (c : Ctx), Canon s → Begins codeSwapRow 0x04 s lc e c →
    noStopCount s lc e = true → fld c.w 96 23 % 8 = 0 → fld c.w 128 23 % 8 = 0 → 8 ≤ fld c.w 128 23 →
    (s.core lc).seq.extentErr (fld c.w 64 3) (fld c.w 96 23 + fld c.w 128 23) permExec = none →
      (s.eng lc e).begun = [] ∧
      exec (.codeSwap lc e) s =
        .next ((s.onEng lc e (Engine.retire [])).onEng lc e (fun g =>
          { g with
            seg := fld c.w 64 3
            off := fld c.w 96 23
            bound := fld c.w 128 23
            fetchPos := fld c.w 96 23
            fetchDone := false
            fetchLoops := [] }))

/-- The four explicit waits retire once what they wait for holds, and until then go on waiting with their own limit
(R137, R138, R165, R246). -/
def Obligations.ExplicitWaitsCompleteOrWait : Prop :=
  ∀ (lc : Fin 64) (e : Eng) (s : State) (c : Ctx), Canon s → goesOn s lc e = true →
    (Begins waitQRow 0x08 s lc e c →
      let q := (s.core lc).seq.queue (fld c.w 64 6)
      let ready := (q.entries.filter (fun x => x.st == .ready && !(s.core lc).hidden (fld c.w 64 6) x c.grp)).length
      exec (.waitQ lc e) s = .next (
        if (fld c.w 70 2 = 0 ∧ q.off? = false ∧ fld c.w 72 6 + 1 ≤ ready)
            ∨ (fld c.w 70 2 ≠ 0 ∧ (q.off? = true ∨ q.entries = [])) then
          s.onEng lc e (Engine.retire c.f.loops)
        else s.waitOn c (fld c.w 96 20)))
    ∧ (Begins (plainRow [(64, 12), (96, 20)]) 0x09 s lc e c →
      let g := (s.core lc).seq.grp (BitVec.ofNat 12 (fld c.w 64 12))
      (g.st = .never ∨ (g.st = .resolved ∧ g.aborted = false) →
        exec (.waitGrp lc e) s = .next (s.onEng lc e (Engine.retire c.f.loops)))
      ∧ (g.st = .resolved → g.aborted = true → exec (.waitGrp lc e) s = .next (s.failStream lc e g.reason))
      ∧ (g.st = .opened ∨ g.st = .committing → exec (.waitGrp lc e) s = .next (s.waitOn c (fld c.w 96 20))))
    ∧ (Begins (plainRow [(64, 20), (96, 32), (128, 20)]) 0x0A s lc e c →
      let g := s.coll (BitVec.ofNat 20 (fld c.w 64 20))
      exec (.waitBar lc e) s = .next (
        if g.used = true ∧ (g.epoch - 1 - BitVec.ofNat 32 (fld c.w 96 32)).toNat < 2 ^ 31 then
          s.onEng lc e (Engine.retire c.f.loops)
        else s.waitOn c (fld c.w 128 20)))
    ∧ (Begins (plainRow [(64, 12), (96, 32), (128, 20)]) 0x0B s lc e c →
      let w := (s.core lc).seq.win (BitVec.ofNat 12 (fld c.w 64 12))
      exec (.waitWin lc e) s = .next (
        if w.isOpen = false then s.failStream lc e eWindowClosed
        else if (w.watermark - BitVec.ofNat 32 (fld c.w 96 32)).toNat < 2 ^ 31 then
          s.onEng lc e (Engine.retire c.f.loops)
        else s.waitOn c (fld c.w 128 20)))

/-- A group tracks its oldest incomplete epoch E and E + 1: bar.arrive marks the core's arrival for either and retires
without waiting, and waits as an implicit wait for a later epoch; wait.bar completes when the latest complete epoch C
satisfies (C − EPOCH) mod 2³² < 2³¹ (R246). -/
def Obligations.TwoEpochsAreTracked : Prop :=
  ∀ (lc : Fin 64) (s : State) (c : Ctx), Canon s →
    (Begins { barArriveRow with hold := fun _ _ => none } 0x0C s lc .s c →
      let n := BitVec.ofNat 20 (fld c.w 64 20)
      let e := BitVec.ofNat 32 (fld c.w 96 32)
      (s.coll n).used = true →
      (e = (s.coll n).epoch →
        let u := (s.onColl n (fun g => { g with arrived := g.arrived ||| BitVec.ofNat 64 (2 ^ lc.val) })).collPump n
        goesOn u lc .s = true → exec (.barArrive lc) s = .next (u.onEng lc .s (Engine.retire c.f.loops)))
      ∧ (e = (s.coll n).epoch + 1 → goesOn s lc .s = true →
        exec (.barArrive lc) s =
          .next ((s.onColl n (fun g => { g with arrivedNext := g.arrivedNext ||| BitVec.ofNat 64 (2 ^ lc.val) })).onEng lc
            .s (Engine.retire c.f.loops)))
      ∧ ((e - (s.coll n).epoch).toNat < 2 ^ 31 → e ≠ (s.coll n).epoch → e ≠ (s.coll n).epoch + 1 →
        exec (.barArrive lc) s = .next (s.stallNow lc .s 0)))
    ∧ ∀ e : Eng, goesOn s lc e = true → Begins (plainRow [(64, 20), (96, 32), (128, 20)]) 0x0A s lc e c →
      let g := s.coll (BitVec.ofNat 20 (fld c.w 64 20))
      let latest := g.epoch - 1
      g.used = true → exec (.waitBar lc e) s = .next (
        if (latest - BitVec.ofNat 32 (fld c.w 96 32)).toNat < 2 ^ 31 then s.onEng lc e (Engine.retire c.f.loops)
        else s.waitOn c (fld c.w 128 20))

/-- q.cfg gives the queue its mode, depth, producer, consumer and ring, with no entry in it; a tile that waits for an
entry of the queue takes its place on the drain path (R48, R101). q.push puts the descriptor it carries at the end of
its list queue, Ready; no other queue, no byte of the scratchpad and no other core changes (R102, R121). -/
def Obligations.QueueCommandsAct : Prop :=
  (∀ (lc : Fin 64) (s : State) (c : Ctx), Canon s → Begins qCfgRow 0x10 s lc .s c → goesOn s lc .s = true →
      ∃ t, exec (.qCfg lc) s = .next t ∧ t = ((s.onQueue lc (fld c.w 64 6) (fun _ =>
          { mode := fld c.w 70 2
            depth := fld c.w 72 6 + 1
            prod := fld c.w 78 4
            cons := fld c.w 82 4
            seg := fld c.w 119 3
            off := fld c.w 96 23
            slotWords := fld c.w 128 23 })).drainPump lc).onEng lc .s (Engine.retire c.f.loops)
        ∧ ((t.core lc).seq.queue (fld c.w 64 6)).entries = []
        ∧ (∀ n, n ≠ fld c.w 64 6 → (t.core lc).seq.queue n = (s.core lc).seq.queue n)
        ∧ ∀ k, k ≠ lc.val → t.core k = s.core k)
  ∧ (∀ (lc : Fin 64) (s : State) (c : Ctx), Canon s → Begins qPushRow 0x11 s lc .s c → goesOn s lc .s = true →
      let n := c.outs.getD 0 0
      let q := (s.core lc).seq.queue n
      ∃ t, exec (.qPush lc) s = .next t
        ∧ ((t.core lc).seq.queue n).entries =
            q.entries ++ [{ id := q.made, slot := q.next, desc := decodeDesc (BitVec.ofNat 128 (fld c.w 64 128)), st := .ready }]
        ∧ t.eng lc .s = (s.eng lc .s).retire c.f.loops
        ∧ (∀ m, m ≠ n → (t.core lc).seq.queue m = (s.core lc).seq.queue m)
        ∧ (t.core lc).scp = (s.core lc).scp
        ∧ ∀ k, k ≠ lc.val → t.core k = s.core k)

/-- grp.open makes a group the engine's current one, opening it afresh unless it is open; DETACH clears it (R121,
R272). grp.commit of an open group sends PREPARE to every slice that holds its shadows, once no engine holds the
group, no command tagged with it is unretired and no slice holds a tagged write of it, and until then it waits, at
most TIMEOUT; of a group never opened or already committed it completes at once, of an aborted one it stops with the
reason (R269, R270, R272). grp.abort resolves an open or committing group as aborted with E_GROUP_ABORTED and retires;
of any other group it retires only (R271, R272). -/
def Obligations.GroupCommandsAct : Prop :=
  (∀ (lc : Fin 64) (e : Eng) (s : State) (c : Ctx), Canon s → Begins grpOpenRow 0x14 s lc e c →
      goesOn s lc e = true →
      let g := BitVec.ofNat 12 (fld c.w 64 12)
      ∃ t, exec (.grpOpen lc e) s = .next t
        ∧ (t.eng lc e).retired = satInc (s.eng lc e).retired
        ∧ (bit c.w 76 = true → (t.eng lc e).curGrp = none ∧ (t.core lc).seq.groups = (s.core lc).seq.groups)
        ∧ (bit c.w 76 = false → (t.eng lc e).curGrp = some g ∧ ((t.core lc).seq.grp g).st = .opened
            ∧ (((s.core lc).seq.grp g).st = .opened → (t.core lc).seq.grp g = (s.core lc).seq.grp g)
            ∧ (((s.core lc).seq.grp g).st ≠ .opened → (t.core lc).seq.grp g = { st := .opened }))
        ∧ (t.core lc).scp = (s.core lc).scp
        ∧ ∀ k, k ≠ lc.val → t.core k = s.core k)
  ∧ (∀ (lc : Fin 64) (s : State) (c : Ctx), Canon s → Begins grpCommitRow 0x15 s lc .s c →
      let g := BitVec.ofNat 12 (fld c.w 64 12)
      let u := s.onEng lc .s (fun x => { x with curGrp := none })
      let x := (s.core lc).seq.grp g
      (x.st = .never ∨ (x.st = .resolved ∧ x.aborted = false) → goesOn s lc .s = true →
        exec (.grpCommit lc) s = .next (u.onEng lc .s (Engine.retire c.f.loops)))
      ∧ (x.st = .resolved → x.aborted = true → exec (.grpCommit lc) s = .next (u.failStream lc .s x.reason))
      ∧ (x.st = .committing → exec (.grpCommit lc) s = .next u)
      ∧ (x.st = .opened → commitReady (u.waitOn c (fld c.w 96 20)) lc g (.loc lc g) = false →
        exec (.grpCommit lc) s = .next (u.waitOn c (fld c.w 96 20)))
      ∧ (x.st = .opened → commitReady (u.waitOn c (fld c.w 96 20)) lc g (.loc lc g) = true →
        ∃ t, exec (.grpCommit lc) s = .next t ∧ ((t.core lc).seq.grp g).st = .committing
          ∧ ((t.core lc).seq.grp g).await = s.shadowSlices (.loc lc g)
          ∧ (t.eng lc .s).retired = (s.eng lc .s).retired ∧ (t.eng lc .s).curGrp = none ∧ (t.eng lc .s).wait = none))
  ∧ (∀ (lc : Fin 64) (s : State) (c : Ctx), Canon s → Begins (plainRow [(64, 12)]) 0x16 s lc .s c →
      let g := BitVec.ofNat 12 (fld c.w 64 12)
      let x := (s.core lc).seq.grp g
      let u := s.abortGroup lc g eGroupAborted
      (x.st = .opened ∨ x.st = .committing → goesOn u lc .s = true →
        ∃ t, exec (.grpAbort lc) s = .next t ∧ t = u.onEng lc .s (Engine.retire c.f.loops)
          ∧ ((t.core lc).seq.grp g).st = .resolved ∧ ((t.core lc).seq.grp g).aborted = true
          ∧ ((t.core lc).seq.grp g).reason = eGroupAborted)
      ∧ (x.st ≠ .opened → x.st ≠ .committing → goesOn s lc .s = true →
        exec (.grpAbort lc) s = .next (s.onEng lc .s (Engine.retire c.f.loops))))

/-- win.open opens its window with watermark 0 under its generation; win.close closes it at this time and its watermark
freezes (R161–R163, R167). -/
def Obligations.WindowsOpenAndClose : Prop :=
  ∀ (lc : Fin 64) (s : State) (c : Ctx), Canon s → goesOn s lc .s = true →
    let n := BitVec.ofNat 12 (fld c.w 64 12)
    (Begins winOpenRow 0x18 s lc .s c →
      ∃ t, exec (.winOpen lc) s = .next t
        ∧ (let w := (t.core lc).seq.win n
           w.isOpen = true ∧ w.seg = fld c.w 76 3 ∧ w.off = fld c.w 96 23 ∧ w.len = fld c.w 128 23
             ∧ w.srcset = fld c.w 160 8 ∧ w.gen = winGen c ∧ w.watermark = 0 ∧ w.queue = c.outs[0]?)
        ∧ (t.eng lc .s).retired = satInc (s.eng lc .s).retired
        ∧ (t.core lc).scp = (s.core lc).scp ∧ ∀ k, k ≠ lc.val → t.core k = s.core k)
    ∧ (Begins winCloseRow 0x19 s lc .s c → ((s.core lc).seq.win n).isOpen = true →
      ∃ t, exec (.winClose lc) s = .next t
        ∧ (let w := (t.core lc).seq.win n
           w.isOpen = false ∧ w.closedAt = s.clk.now ∧ w.queue = none
             ∧ w.watermark = ((s.core lc).seq.win n).watermark ∧ w.gen = ((s.core lc).seq.win n).gen)
        ∧ (t.eng lc .s).retired = satInc (s.eng lc .s).retired
        ∧ (t.core lc).scp = (s.core lc).scp ∧ ∀ k, k ≠ lc.val → t.core k = s.core k)

/-! ### Commands of a stream: arrays -/

/-- mm, mm.win3d and mm.tongs take their effect where their conditions hold: an array's command begins, its inputs popped,
with its passes in issue order, of mm.tongs on both arrays of the pair. That is the whole of what the command does of itself:
the passes it leaves enter by ARRAY_SWAP, and its tiles drain and retire it by TILE_DRAIN_START and TILE_DRAIN_END, rows of the
table of their own (R63, R107, R108, R110, R111, R126). -/
def Obligations.ArrayCommandsTakeEffect : Prop :=
  ∀ (lc : Fin 64) (s : State) (c : Ctx), Canon s →
    (∀ (a : Arr) (x : Instr × Nat × Bool), x ∈ [(.mm lc a, 0x20, false), (.mmWin3d lc a, 0x21, true)] →
      Begins (mmRow x.2.2) x.2.1 s lc a.eng c →
      let kept := mmAcc c.w || !mmDrain c.w
      let pr := mmProd c.w c.v1 (c.ins.getD 0 {}).ent (c.ins.getD 1 {}).ent
      ∃ t, exec x.1 s = .next t
        ∧ HasBegun s t c (if mmDrain c.w = true then mmTiles pr (mmPass c.w) kept else 0)
            (((c.ins.getD 0 {}).ent.gather.map (·.poison)).getD false)
        ∧ passesStand s t lc a (mmPasses (s.eng lc a.eng).begunCount pr (mmPass c.w) kept))
    ∧ ((s.core lc).seq.pairStarted = true → Begins tongsRow 0x22 s lc .g0 c →
      let dy := (c.ins.getD 0 {}).ent.desc
      let p0 := tongsDx c.w dy (c.ins.getD 1 {}).ent.desc
      let p1 := tongsDw c.w dy (c.ins.getD 2 {}).ent.desc
      ∃ t, exec (.mmTongs lc) s = .next t
        ∧ HasBegun s t c (mmTiles p0 256 false) false
        ∧ passesStand s t lc .g0 (tongsPasses0 (s.eng lc .g0).begunCount p0)
        ∧ passesStand s t lc .g1 (tongsPasses1 (s.eng lc .g1).begunCount p1)
        ∧ (t.eng lc .g1).fetched = (s.eng lc .g1).fetched.drop 1
        ∧ (t.eng lc .g1).begunCount = (s.eng lc .g1).begunCount + 1
        ∧ (t.eng lc .g1).begun.map (·.tilesLeft) = (s.eng lc .g1).begun.map (·.tilesLeft) ++ [ceilDiv p1.m 256]
        ∧ (t.core lc).seq.pairStarted = false)

/-- A pair starts when both streams stand before halves that pass their checks and carry equal tags; tags that differ
stop both streams with E_PAIR; a half alone waits for its partner under operand empty (R111). gather.tile completes
where its conditions hold: it reads its index list and pushes, Ready and tagged with the engine's group, an operand of
the gathered rows, which keeps the list and the table Held (R82, R112). -/
def Obligations.PairsStartAndGathersPush : Prop :=
  (∀ (lc : Fin 64) (s : State) (x y : Ctx), (s.core lc).seq.pairStarted = false →
      (Begins tongsRow 0x22 s lc .g0 x → Begins tongsHalfRow 0x22 s lc .g1 y →
        exec (.tongsPairStart lc) s = .next (
          if fld x.w 240 16 = fld y.w 240 16 then s.onSeq lc (fun q => { q with pairStarted := true })
          else (s.failStream lc .g0 ePair).failStream lc .g1 ePair))
      ∧ (Begins tongsRow 0x22 s lc .g0 x → tongsHalf s lc .g1 = none →
        exec (.tongsPairStart lc) s = .next (s.stallNow lc .g0 0))
      ∧ (Begins tongsHalfRow 0x22 s lc .g1 y → tongsHalf s lc .g0 = none →
        exec (.tongsPairStart lc) s = .next (s.stallNow lc .g1 0)))
  ∧ (∀ (lc : Fin 64) (a : Arr) (s : State) (c : Ctx), Canon s → Begins gatherRow 0x23 s lc a.eng c → goesOn s lc a.eng = true →
      let td := (c.ins.getD 1 {}).ent.desc
      let r := (s.core lc).readTile (c.ins.getD 0 {}).ent.desc
      let g : Gather :=
        { idx := r.1.codes.flatten, table := td, r := 16 * 2 ^ fld c.w 64 3, trans := bit c.w 67, poison := r.1.poison
          held := c.ins.map (fun i => (i.qn, i.ent.id)) }
      let n := c.outs.getD 0 0
      let q := (s.core lc).seq.queue n
      q.idsOk → (s.core lc).scp.sound → ∃ t, exec (.gatherTile lc a) s = .next t
        ∧ t.eng lc a.eng = (s.eng lc a.eng).retire c.f.loops
        ∧ ((t.core lc).seq.queue n).entries = q.entries ++ [{
            id := q.made, slot := q.next, st := .ready, gather := some g
            desc := { td with rows := (gatherShape g).1, cols := (gatherShape g).2, grp := c.grp } }]
        ∧ (∀ i ∈ c.ins, (t.core lc).seq.queue i.qn =
            if i.keep then ((s.core lc).seq.queue i.qn).keep i.ent.id else ((s.core lc).seq.queue i.qn).pop i.ent.id)
        ∧ (t.core lc).scp.bytes = (s.core lc).scp.bytes
        ∧ ∀ k, k ≠ lc.val → t.core k = s.core k)

/-! ### Commands of a stream: V -/

/-- Every elementwise command of one result completes where its conditions hold and no operand is poisoned: vx.add, vx.mul,
vx.fma, vx.max, vx.min, vx.sel, and vx.exp, vx.log, vx.recip, vx.rsqrt, vx.sqrt, vx.tanh, vx.sigm of the FP32 reference
result. Element by element its result is the rounded sum, product, fused product and sum, larger, smaller, selected or
transformed operand, as a tile of OUT_FMT or in registers of DT (R71–R73, R113, R432). -/
def Obligations.VectorElementCommandsComplete : Prop :=
  ∀ (lc : Fin 64) (s : State) (c : Ctx), Canon s → (s.core lc).scp.sound → goesOn s lc .v = true →
  ∀ x ∈ ([(.vxAdd lc, 0x30, vxKindAdd, fun w =>
        exactOp (fun l => Fp.add (l.getD 0 .nan) (l.getD 1 .nan)) (fun l => l.getD 0 0 + l.getD 1 0) (vxDt w)),
      (.vxMul lc, 0x31, vxKindAdd, fun w =>
        exactOp (fun l => Fp.mul (l.getD 0 .nan) (l.getD 1 .nan)) (fun l => l.getD 0 0 * l.getD 1 0) (vxDt w)),
      (.vxFma lc, 0x32, vxKindFma, fun w =>
        exactOp (fun l => Fp.add (Fp.mul (l.getD 0 .nan) (l.getD 1 .nan)) (l.getD 2 .nan))
          (fun l => l.getD 0 0 * l.getD 1 0 + l.getD 2 0) (vxDt w)),
      (.vxMax lc, 0x33, vxKindAdd, fun w =>
        exactOp (fun l => fpPick true (l.getD 0 .nan) (l.getD 1 .nan)) (fun l => max (l.getD 0 0) (l.getD 1 0)) (vxDt w)),
      (.vxMin lc, 0x34, vxKindAdd, fun w =>
        exactOp (fun l => fpPick false (l.getD 0 .nan) (l.getD 1 .nan)) (fun l => min (l.getD 0 0) (l.getD 1 0)) (vxDt w)),
      (.vxSel lc, 0x35, vxKindSel, fun w l =>
        (if selHolds (fld w 64 4) (l.getD 0 (.i 0)) (l.getD 1 (.i 0)) then l.getD 2 (.i 0) else l.getD 3 (.i 0), false)),
      (.vxExp lc, 0x38, vxKindTr2, trOp (fun w => expRef (fld w 64 4 == 1))),
      (.vxLog lc, 0x39, vxKindTr2, trOp (fun w => logRef (fld w 64 4 == 1))),
      (.vxRecip lc, 0x3A, vxKindTr, trOp (fun _ => recipRef)), (.vxRsqrt lc, 0x3B, vxKindTr, trOp (fun _ => rsqrtRef)),
      (.vxSqrt lc, 0x3C, vxKindTr, trOp (fun _ => sqrtRef)), (.vxTanh lc, 0x3D, vxKindTr, trOp (fun _ => tanhRef)),
      (.vxSigm lc, 0x3E, vxKindTr, trOp (fun _ => sigmRef))] :
        List (Instr × Nat × VxKind × (Cmd → List Val → Val × Bool))),
    Begins (vxRow x.2.2.1) x.2.1 s lc .v c →
    let tiles := (readInputs s c).1
    let args (i k : Nat) : List Val :=
      (List.range x.2.2.1.nOps).map (fun j => vxArg (s.core lc).scp.vregs c tiles j i k)
    let y : Tile := { fmt := vxDestFmt c, rows := (vxShape c).1, cols := (vxShape c).2
                      codes := grid (vxShape c).1 (vxShape c).2 (fun i k =>
                        (vxEmit (vxDt c.w) (vxDestFmt c) (vxSat c.w) (args i k) (x.2.2.2 c.w (args i k)).1
                          (x.2.2.2 c.w (args i k)).2).1) }
    tiles.any (·.poison) = false → vxClear s c [y] → ∃ t, exec x.1 s = .next t ∧ vxDone s t c [y]

/-- vx.cvt and vx.sincos complete where their conditions hold and no operand is poisoned: vx.cvt converts each element
once from its exact value and with PAD fills each row with zeros to a multiple of 32; vx.sincos yields the sine's tile
and the cosine's (R72, R73, R113). vx.smx completes where its conditions hold and no operand is poisoned: a step
writes the tile of p and, line by line, the new m, l and α to their registers; the finish writes each element of O by
its line's l, and +0 where l is 0. What is left in v32–v63 is a free value (R90, R114; log 7). -/
def Obligations.VectorConversionsAndSoftmaxComplete : Prop :=
  (∀ (lc : Fin 64) (s : State) (c : Ctx), Canon s → (s.core lc).scp.sound → goesOn s lc .v = true →
      let tiles := (readInputs s c).1
      let m := (s.core lc).scp.vregs
      tiles.any (·.poison) = false →
      (Begins (vxRow vxKindCvt) 0x36 s lc .v c →
        let n := if vxPad c.w = true then 32 * ceilDiv (vxShape c).2 32 else (vxShape c).2
        let src (i k : Nat) : Fp := match tiles with
          | t :: _ => decodeFmt t.fmt (t.code i k)
          | [] => (vxArg m c [] 0 i k).fp
        let y : Tile := { fmt := vxDestFmt c, rows := (vxShape c).1, cols := n
                          codes := grid (vxShape c).1 n (fun i k =>
                            if k < (vxShape c).2 then (encodeFmt (vxDestFmt c) .rne (vxSat c.w) (src i k)).code else 0) }
        vxClear s c [y] → ∃ t, exec (.vxCvt lc) s = .next t ∧ vxDone s t c [y])
      ∧ (Begins (vxRow vxKindSc) 0x3F s lc .v c →
        let half (cos : Bool) : Tile :=
          { fmt := vxDestFmt c, rows := (vxShape c).1, cols := (vxShape c).2
            codes := grid (vxShape c).1 (vxShape c).2 (fun i k =>
              let r := trOp (fun _ => sincosRef cos) c.w [vxArg m c tiles 0 i k]
              (vxEmit (vxDt c.w) (vxDestFmt c) (vxSat c.w) [vxArg m c tiles 0 i k] r.1 r.2).1) }
        vxClear s c [half false, half true] → ∃ t, exec (.vxSincos lc) s = .next t ∧ vxDone s t c [half false, half true]))
  ∧ (∀ (lc : Fin 64) (s : State) (c : Ctx), Canon s → (s.core lc).scp.sound → goesOn s lc .v = true → Begins smxRow 0x44 s lc .v c →
      let t0 := (readInputs s c).1.getD 0 {}
      let w := c.w
      let m := (s.core lc).scp.vregs
      let dt := vxDt w
      let n := smxLines w c
      let line (i : Nat) : List (Word × Bool) := (smxWords w t0).getD i []
      let m0 (i : Nat) : Word := if smxFirst w = true then 0xFF800000 else regWord m dt (smxM w) i
      let l0 (i : Nat) : Word := if smxFirst w = true then 0 else regWord m dt (smxL w) i
      let r (i : Nat) := smxLine w (smxFirst w) (m0 i) (l0 i) (line i)
      let args (i : Nat) : List Val := (([BitVec.ofNat 32 (fld w 128 32), m0 i] ++ ((line i).filter (·.2)).map (·.1)).map
        (fun a => .f (fp a)))
      let code (i : Nat) (x : Word) : Nat :=
        if smxFinish w = true then
          let l := regWord m dt (smxL w) i
          if l = 0 then 0 else (vxEmit 0 (vxOut w) (vxSat w) [.f (fp x), .f (fp l)] (.f (fp (canonNan (fmul x (recipRef l)))))).1
        else (vxEmit 0 (vxOut w) (vxSat w) (args i) (.f (fp x))).1
      let y : Tile := { fmt := vxOut w, rows := t0.rows, cols := t0.cols
                        codes := smxBack w t0 ((List.range n).map (fun i =>
                          (if smxFinish w = true then (line i).map (·.1) else (r i).2.2.2).map (code i))) }
      t0.poison = false → outsClear s c [y] → ∃ t, exec (.vxSmx lc) s = .next t ∧ Completes s t c [y]
        ∧ t.free = s.free + 16384
        ∧ (smxFinish w = true → ∀ a < 131072, Memory.read (t.core lc).scp.vregs a = Memory.read m a)
        ∧ (smxFinish w = false →
          let reg (f : Nat → Word) (more : Nat → List Val) : List Nat :=
            (List.range n).map (fun i => (vxEmit 0 dt false (args i ++ more i) (.f (fp (f i)))).1)
          regsHold t c (smxAlpha w) (reg (fun i => (r i).2.2.1) (fun _ => []))
          ∧ (smxL w ≠ smxAlpha w → regsHold t c (smxL w) (reg (fun i => (r i).2.1) (fun i => [.f (fp (l0 i))])))
          ∧ (smxM w ≠ smxL w → smxM w ≠ smxAlpha w → regsHold t c (smxM w) (reg (fun i => (r i).1) (fun _ => [])))))

/-- The row commands of V complete where their conditions hold and no operand is poisoned: vx.rsum and vx.rmax with the sum
of each line's elements or squares in the order of R75, or its maximum, from the destination's value under ACC; vx.scan
with each row's exclusive prefix sums; vx.quant with blocks of 32 under one scale each (R73, R75, R76, R113). -/
def Obligations.VectorRowCommandsComplete : Prop :=
  ∀ (lc : Fin 64) (s : State) (c : Ctx), Canon s → (s.core lc).scp.sound → goesOn s lc .v = true →
    let tiles := (readInputs s c).1
    let m := (s.core lc).scp.vregs
    let t0 := tiles.getD 0 {}
    let dt := vxDt c.w
    let lines := redLines c dt t0
    tiles.any (·.poison) = false →
    (∀ x ∈ ([(.vxRsum lc, 0x40, vxKindRsum, rsumLine (fld c.w 64 4 == 1)), (.vxRmax lc, 0x41, vxKindRmax, rmaxLine)] :
        List (Instr × Nat × VxKind × (Nat → Option Val → List Val → Acc))),
      Begins (vxRow x.2.2.1) x.2.1 s lc .v c →
      let start (j : Nat) : Option Val :=
        if vxAcc c.w = true then some (valOf dt dt (regGet m dt (selReg (vxDest c.w)) j)) else none
      let code (j : Nat) : Nat := (vxEmit dt (vxDestFmt c) (vxSat c.w) ((start j).toList ++ lines.getD j [])
        (x.2.2.2 dt (start j) (lines.getD j [])).1).1
      let y : Tile := if vxAxis c.w = true
        then { fmt := vxDestFmt c, rows := 1, cols := lines.length, codes := grid 1 lines.length (fun _ j => code j) }
        else { fmt := vxDestFmt c, rows := lines.length, cols := 1, codes := grid lines.length 1 (fun j _ => code j) }
      vxClear s c [y] → ∃ t, exec x.1 s = .next t ∧ vxDone s t c [y])
    ∧ (Begins (vxRow vxKindScan) 0x42 s lc .v c →
      let line (i : Nat) : List Val := (List.range t0.cols).map (fun k => valOf (if dt = 9 then 9 else 0) t0.fmt (t0.code i k))
      let zero : Acc := (if dt = 9 then .i 0 else .f (.fin false 0 0), false)
      let y : Tile := { fmt := vxDestFmt c, rows := t0.rows, cols := t0.cols
                        codes := grid t0.rows t0.cols (fun i k =>
                          (vxEmit dt (vxDestFmt c) (vxSat c.w) ((line i).take k) ((scanRow dt zero (line i)).getD k zero).1).1) }
      vxClear s c [y] → ∃ t, exec (.vxScan lc) s = .next t ∧ vxDone s t c [y])
    ∧ (Begins (vxRow vxKindQuant) 0x43 s lc .v c →
      let blocks (i : Nat) : List (List Nat × Nat × Bool) :=
        (chunks 32 ((List.range t0.cols).map (fun k => decodeFmt t0.fmt (t0.code i k)))).map (quantBlock (vxOut c.w))
      let y : Tile := { fmt := vxOut c.w, rows := t0.rows, cols := t0.cols
                        codes := (List.range t0.rows).map (fun i => (blocks i).flatMap (·.1))
                        scales := (List.range t0.rows).map (fun i => (blocks i).map (·.2.1)) }
      vxClear s c [y] → ∃ t, exec (.vxQuant lc) s = .next t ∧ vxDone s t c [y])

/-! ### Commands of a stream: Q and the DMA engines -/

/-- red.max, red.min and red.topk complete where their conditions hold and no operand is poisoned: of each row, or
column under AXIS, the k best candidates of the tile and of an earlier list stand in order, red.min's smallest first,
the others' largest first, as a tile of values and a tile of indices, the slots left over filled as empty (R78–R80,
R115). red.hist completes where its conditions hold and its operand is not poisoned: Q's bins, zeroed first under
CLEAR, count each value in its bin, up to 2³² − 1; a value in no bin sets HIST_OOR, one in a full bin HIST_SAT; EMIT
pushes the bins (R81, R115). -/
def Obligations.ReductionUnitCompletes : Prop :=
  (∀ (lc : Fin 64) (s : State) (c : Ctx), Canon s → (s.core lc).scp.sound → goesOn s lc .q = true →
    ∀ x ∈ ([(.redMax lc, 0x50, redRow (fun _ => false) (fun w => redSub w ≠ 0 || redK w ≠ 1 || histFieldsSet w), true),
        (.redMin lc, 0x51, redRow (fun _ => false) (fun w => redSub w ≠ 0 || redK w ≠ 1 || histFieldsSet w), false),
        (.redTopk lc, 0x52, redRow (fun w => redSub w == 1) (fun w => redSub w ≥ 2 || histFieldsSet w), true)] :
          List (Instr × Nat × Row × Bool)),
      Begins x.2.2.1 x.2.1 s lc .q c →
      let tiles := (readInputs s c).1
      let t := tiles.getD (tiles.length - 1) {}
      let k := redK c.w
      let best (i : Nat) : List Cand := candBest x.2.2.2 k
        ((if tiles.length = 3 then oldCands (redAxis c.w) k (tiles.getD 0 {}) (tiles.getD 1 {}) i else [])
          ++ newCands (redAxis c.w) (redBase c.w) t i)
      let tile (fmt fill : Nat) (f : Cand → Nat) : Tile := if redAxis c.w = true
        then { fmt := fmt, rows := k, cols := t.cols, codes := grid k t.cols (fun j i => ((best i).map f).getD j fill) }
        else { fmt := fmt, rows := t.rows, cols := k, codes := grid t.rows k (fun i j => ((best i).map f).getD j fill) }
      let outs := [tile t.fmt (candFill t.fmt) (·.code), tile 0xA 0xFFFFFFFF (·.pos)]
      tiles.any (·.poison) = false → outsClear s c outs → ∃ u, exec x.1 s = .next u ∧ Completes s u c outs)
  ∧ (∀ (lc : Fin 64) (s : State) (c : Ctx), Canon s → (s.core lc).scp.sound → goesOn s lc .q = true → Begins histRow 0x53 s lc .q c →
      let t := (readInputs s c).1.getD 0 {}
      let old (b : Nat) : Nat := if redClear c.w = true then 0 else (Tbl.get 0 (s.core lc).scp.bins b).toNat
      let hits (b : Nat) : Nat := ((t.codes.flatten).filter (fun x => histBin c.w t.fmt x == some b)).length
      let outs : List Tile := if redEmit c.w = true then
        [{ fmt := 9, rows := 1, cols := redBins c.w
           codes := grid 1 (redBins c.w) (fun _ b => min (old b + hits b) (2 ^ 32 - 1)) }] else []
      t.poison = false → outsClear s c outs → ∃ u, exec (.redHist lc) s = .next u ∧ Completes s u c outs
        ∧ (∀ b, (Tbl.get 0 (u.core lc).scp.bins b).toNat = min (old b + hits b) (2 ^ 32 - 1))
        ∧ ((∃ x ∈ t.codes.flatten, histBin c.w t.fmt x = none) → bit (u.core lc).integ.redFlags 1 = true)
        ∧ ((∃ b, 2 ^ 32 - 1 < old b + hits b) → bit (u.core lc).integ.redFlags 2 = true))

/-- chain.add completes where its conditions hold, Q's two adders agree and no operand is poisoned: with DEST 0 and a running
sum that is not provisional, or none, it pushes the sum, element by element; the first member with DEST 2 into this device's
own DRAM adds its contribution to every unit there. dma.copy of a local tile completes with exactly the bytes its input
holds (R85, R88, R116, R118, R258). -/
def Obligations.ChainAddAndCopiesComplete : Prop :=
  ∀ (lc : Fin 64) (s : State) (c : Ctx), Canon s → (s.core lc).scp.sound → c.grp = none → (∀ n, ((s.core lc).seq.queue n).idsOk) →
    (goesOn s lc .q = true → Begins (chainRow s) 0x54 s lc .q c →
      let d := (c.ins.getD 0 {}).ent.desc
      let own := (s.core lc).readTile d
      let inc := (c.ins[1]?).map (fun i => (own.2.readFirst i.ent.desc (tileBytes (chainFmt c.w) d.rows d.cols)).1)
      let y := (chainSum (chainFmt c.w) own.1 inc).1
      y.poison = false →
      (chainDest c.w = 0 → (∀ i ∈ c.ins, i.ent.prov = none) →
        (s.core lc).scp.pend = [] → (s.core lc).scp.away = [] → outsClear s c [y] → ∃ t, exec (.chainAdd lc true) s = .next t ∧ Completes s t c [y])
      ∧ (chainDest c.w = 2 → dramHere s c.w = true → inc = none → (∀ a, (s.stk a).railFailed = false) →
        s.mem.poison = [] → s.mem.cond = [] → s.mem.slices = [] →
        let a := farAddr c.w
        ∃ t, exec (.chainAdd lc true) s = .next t ∧ Completes s t c []
          ∧ (∀ i, 64 * i < y.bytes.length → ∀ j < 64, Memory.read t.mem.dram (a + 64 * i + j) =
              (addUnit (y.fmt == 1) (s.dramBytes (a + 64 * i) 64) (bytesAt y.bytes (64 * i) 64)).getD j 0)
          ∧ ∀ x, x < a ∨ a + y.bytes.length ≤ x → Memory.read t.mem.dram x = Memory.read s.mem.dram x))
    ∧ ∀ d : Dma, goesOn s lc d.eng = true → Begins dmaRow 0x60 s lc d.eng c → dmaKind c.w = 0 →
      let x := (c.ins.getD 0 {}).ent.desc
      let r := (s.core lc).readRaw x
      let n := c.outs.getD 0 0
      let q := (s.core lc).seq.queue n
      let base := slotStart s c 0 { fmt := x.fmt, rows := x.rows, cols := x.cols }
      (s.core lc).codeHit (outRuns s c 0 x.fmt x.rows x.cols) = false →
      ∃ t, exec (.dmaCopy lc d) s = .next t
        ∧ t.eng lc d.eng = (s.eng lc d.eng).retire c.f.loops
        ∧ ((t.core lc).seq.queue n).entries =
            q.entries ++ [{ id := q.made, slot := q.next, desc := q.slotDesc x.fmt x.rows x.cols none, st := .ready }]
        ∧ (∀ j < r.1.length, Memory.read (t.core lc).scp.bytes (base + j) = (mbBytes r.1).getD j 0)
        ∧ (∀ a, a < base ∨ base + r.1.length ≤ a →
            Memory.read (t.core lc).scp.bytes a = Memory.read (s.core lc).scp.bytes a)
        ∧ ∀ k, k ≠ lc.val → t.core k = s.core k

/-- A completing command pushes an output tile: its bytes stand at the ring's next slot, its queue holds one
more entry, Ready; no other byte of the scratchpad changes (R102, R104). -/
def Obligations.PushedTileStandsInItsSlot : Prop :=
  ∀ (s t : State) (c : Ctx) (i fmt rows cols : Nat) (data : List MB), Canon s → (s.core c.lc).scp.sound →
    s.pushTile c i fmt rows cols data = some t → c.grp = none →
    let n := c.outs.getD i 0
    let q := (s.core c.lc).seq.queue n
    let d := q.slotDesc fmt rows cols none
    let base := 4 * (((s.core c.lc).seq.seg d.seg).base.toNat + d.off)
    ((t.core c.lc).seq.queue n).entries = q.entries ++ [{ id := q.made, slot := q.next, desc := d, st := .ready }]
    ∧ (∀ j, j < data.length → Memory.read (t.core c.lc).scp.bytes (base + j) = (mbBytes data).getD j 0)
    ∧ (∀ a, a < base ∨ base + data.length ≤ a →
        Memory.read (t.core c.lc).scp.bytes a = Memory.read (s.core c.lc).scp.bytes a)
    ∧ ∀ j, j ≠ c.lc → t.core j = s.core j

/-! ### Events inside a core -/

/-- COMMAND_FETCH appends one or two commands to the engine's queue of fetched ones, the first read at the fetch position
from the banks as an upset may have left them; what the engine has begun and retired and every other core stay, and so does
every byte of the scratchpad where no upset stands (R126, R127, R155). -/
def Obligations.FetchAppendsCommands : Prop :=
  ∀ (lc : Fin 64) (e : Eng) (hit : Option BankHit) (s : State), Canon s → canFetch s lc e = true → (s.core lc).scp.port = [] →
    let g := s.eng lc e
    let rs := [(((s.core lc).seq.seg g.seg).base.toNat + g.fetchPos, 8)]
    let u := match hit with
      | some h => s.bankHit lc h
      | none => s
    (s.core lc).scp.blocked g.curGrp rs = false → (s.core lc).scp.asleep (runSections rs) = [] →
    ∃ t f l, exec (.commandFetch lc e hit) s = .next t
      ∧ (t.eng lc e).fetched = g.fetched ++ f :: l ∧ l.length ≤ 1 ∧ f.pos = g.fetchPos
      ∧ (f.word = (readCommand (u.core lc) g g.fetchPos).1 ∨ f.fault = some .poison)
      ∧ (t.eng lc e).begun = g.begun ∧ (t.eng lc e).retired = g.retired
      ∧ ((u.core lc).scp.sound → (t.core lc).scp.bytes = (s.core lc).scp.bytes)
      ∧ ∀ k, k ≠ lc.val → t.core k = s.core k

/-- Array cycles and drains: ARRAY_SWAP enters the next pass where nothing holds it, its stationary tile becoming the active
one and its rows entering the accumulator tile; TILE_DRAIN_START writes the tile first in order to its ring's next slot and
reseeds the generators; TILE_DRAIN_END frees a tile whose checks pass, and with a command's last one makes its outputs Ready
and retires it, while the tile of a failing check has its command replayed (R30, R42, R46–R50, R102, R126, R257, R259). -/
def Obligations.ArrayPassesAndDrains : Prop :=
  (∀ (lc : Fin 64) (a : Arr) (flip : Option (Nat × Nat × Fin 32)) (s : State) (p : Pass) (rest : List Pass) (b lead : Begun)
      (pr : Prod) (i : Bool) (t0 : AccTile), Canon s → (s.core lc).scp.sound → s.mgmt.faultActive = false →
      (s.core lc).seq.task ≠ none → ((s.core lc).array a).passes = p :: rest →
      (((s.core lc).array a).noticeDue && s.noticeHeld lc) = false → (s.core lc).arrayProd a p.cmd = some (b, pr) →
      (s.core lc).tongsLead a p.cmd = some lead → passTile a ((s.core lc).array a) b pr p = some (i, t0) →
      (Cmd.op b.word = 0x22 → (s.core lc).tongsShort a lead.serial p = false) →
      accessHold s { lc := lc, e := a.eng, f := {}, v1 := false, ins := [], outs := [], grp := b.grp }
        ((s.core lc).passRuns a b pr p) [] = none →
      let m := (s.core lc).movingOf a b lead.serial pr p
      let st := (m.2.2.readSpots pr.stat.desc (pr.stat.spots p.k0 p.kLen p.col0 p.cols)).1
      b.poison = false → m.2.1.poison = false → st.poison = false →
      ∃ t, exec (.arraySwap lc a .issue flip) s = .next t ∧ ((t.core lc).array a).passes = rest
        ∧ ((t.core lc).array a).shadow = ((s.core lc).array a).active ∧ ((t.core lc).array a).active = statTile pr p st
        ∧ ((t.core lc).array a).notice = false
        ∧ (((t.core lc).array a).tile i).cells = (flipCell (enterRows m.1 p m.2.1 st false t0).1 flip).cells
        ∧ (p.last = true → (((t.core lc).array a).tile i).st = (if drains b.word = true then .ready else .kept))
        ∧ (t.core lc).scp.bytes = (s.core lc).scp.bytes ∧ ∀ k, k ≠ lc.val → t.core k = s.core k)
  ∧ (∀ (lc : Fin 64) (s : State) (x : Nat × Nat) (a : Arr) (i : Bool) (b l : Begun) (pr : Prod), Canon s →
      s.mgmt.faultActive = false → (s.core lc).draining = none → (s.core lc).seq.drainOrder = [x] →
      (∀ y, ((s.core lc).tileAt y).st = .ready → arrOfCode y.1 = arrOfCode x.1 ∧ (y.2 == 1) = (x.2 == 1)) →
      x.1 < 3 → x.2 < 2 → (s.core lc).waiting x = some (a, i, b, l, pr) →
      let sp := drainSpec a l pr
      let q := (s.core lc).seq.queue (drainQueue l sp)
      l.grp = none → l.outs.find? (fun o => o.1 == drainQueue l sp) = none →
      let ent := q.slotDesc sp.fmt sp.rows sp.cols none
      let rs := (s.core lc).seq.absRuns ent.seg ent.runs
      let tile := ((s.core lc).array a).tile i
      accessHold s { lc := lc, e := a.eng, f := {}, v1 := false, ins := [], outs := [], grp := none } [] rs = none →
      (s.core lc).codeHit rs = false →
      ∃ t, exec (.tileDrainStart lc) s = .next t ∧ ((t.core lc).array a).tile i = { tile with st := .draining }
        ∧ (t.core lc).seq.drainOrder = []
        ∧ ((t.core lc).seq.queue (drainQueue l sp)).entries =
            q.entries ++ [{ id := q.made, slot := q.next, desc := ent, st := .reserved }]
        ∧ (t.core lc).scp = (drainWrites sp tile b.poison (4 * (((s.core lc).seq.seg ent.seg).base.toNat + ent.off))).foldl
            (fun m w => m.writeRun ((s.core lc).seq.durable ent.seg) w.1 w.2) (s.core lc).scp
        ∧ (∀ k < tile.cols, Tbl.get 0 ((t.core lc).array a).gens k = genAfter tile.rows (genSeed sp.seed k))
        ∧ ∀ k, k ≠ lc.val → t.core k = s.core k)
  ∧ ∀ (lc : Fin 64) (agree : Bool) (s : State) (a : Arr) (i : Bool) (b : Begun), Canon s → s.mgmt.faultActive = false →
      (s.core lc).draining = some (a, i) →
      let t := ((s.core lc).array a).tile i
      let g := s.eng lc a.eng
      g.begunBy t.cmd = some b → b.poison = false →
      let vs := (List.range t.rows).map (rowVerdict t)
      let u := s.onInteg lc (fun g => { g with unchecked := satAdd g.unchecked (vs.filter (·.isNone)).length })
      (agree = true → vs.all (fun v => v != some false) = true → Cmd.op b.word ≠ 0x22 →
        (1 < b.tilesLeft → ∃ v, exec (.tileDrainEnd lc agree) s = .next v ∧ ((v.core lc).array a).tile i = {}
          ∧ v.eng lc a.eng = { g with begun := g.begun.map (fun x =>
              if x.serial = t.cmd then { x with tilesLeft := x.tilesLeft - 1, passed := true } else x) })
        ∧ (b.tilesLeft = 1 → t.contrib = [t.cmd] → b.grp = none → (s.core lc).seq.stopEnable = false → g.fetched ≠ [] →
          (∀ o ∈ b.outs, ∀ x ∈ b.ins, x.1 ≠ o.1
            ∧ ∀ y, ((s.core lc).entry x.1 x.2.1).gather = some y → ∀ h ∈ y.held, h.1 ≠ o.1) →
          ∃ v, exec (.tileDrainEnd lc agree) s = .next v ∧ ((v.core lc).array a).tile i = {}
            ∧ v.eng lc a.eng = { g with begun := g.begun.filter (fun x => x.serial != t.cmd), retired := satInc g.retired }
            ∧ ∀ o ∈ b.outs, ∀ x ∈ ((s.core lc).seq.queue o.1).entries, x.id = o.2 →
                { x with st := .ready } ∈ ((v.core lc).seq.queue o.1).entries))
      ∧ (agree = false ∨ vs.all (fun v => v != some false) = false →
        exec (.tileDrainEnd lc agree) s = .next (u.failArray lc a t.cmd 1))

/-- The failures of a core: a mismatch of its sequencers, a parity error and a DMA request read with one count a
replay of what is unretired; a mismatch with no state left to reload, or a second failure within a replay, makes the
core suspect and stops the stream with E_CHECK_FAIL at that command; a parity error in the crossbar is device-level,
and in a receive buffer it loses the frame (R254, R255, R259, R260, R280). A task that has come to its end leaves its
core; a wait that has lasted its limit stops its stream with E_WAIT_TIMEOUT, an array's tile that has waited so long
for an entry its command's; and of a grp.commit it aborts the group first (R48, R106, R137, R140, R145, R269). -/
def Obligations.CoreFailuresAndEnds : Prop :=
  (∀ (lc : Fin 64) (e : Eng) (s : State), Canon s → s.mgmt.faultActive = false →
      let g := s.eng lc e
      let suspectFrom (t : State) (cause : Nat) : Prop :=
        (t.core lc).integ.suspect = true ∧ (t.core lc).integ.lastSecond = true
          ∧ ((s.core lc).integ.suspect = false → (t.core lc).integ.cause = BitVec.ofNat 2 cause)
          ∧ stopsWith s t lc e eCheckFail g.retired
      (g.status = .running → g.begun = [] → g.fetched ≠ [] → g.replaying = false →
        ∀ x ∈ [(Instr.sequencerMismatch lc e true, 3), (.parityError (.core lc e), 2)],
          ∃ t, exec x.1 s = .next t ∧ replayCounted s t lc e x.2 ∧ t.eng lc e = { g with replaying := true })
      ∧ (g.status = .running → g.begun = [] → g.fetched ≠ [] → g.replaying = true →
        ∀ i ∈ [Instr.sequencerMismatch lc e true, .parityError (.core lc e)],
          ∃ t, exec i s = .next t ∧ suspectFrom t 1)
      ∧ (g.status ≠ .noStream → (e = .q → g.begun = []) →
        ∃ t, exec (.sequencerMismatch lc e false) s = .next t ∧ suspectFrom t 3 ∧ (t.eng lc e).begun = [])
      ∧ (∀ (d : Dma) (b : Begun), (s.eng lc d.eng).begun = [b] → b.replayed = false →
        ∃ t, exec (.parityError (.dmaRead lc d)) s = .next t ∧ replayCounted s t lc d.eng 5
          ∧ t.eng lc d.eng = { s.eng lc d.eng with begun := [{ b with replayed := true }] })
      ∧ (∀ (a : Arr) (b : Begun) (l : List Begun), e = a.eng → g.begun = b :: l → g.status ≠ .noStream →
        exec (.sequencerMismatch lc e true) s = .next (s.failArray lc a b.serial 3)
        ∧ exec (.parityError (.core lc e)) s = .next (s.failArray lc a b.serial 2))
      ∧ (s.pins.pwrGood = true → ∃ t, exec (.parityError .crossbar) s = .next t
          ∧ t.mgmt.faultActive = true ∧ t.mgmt.faultCause = 2)
      ∧ ∀ (p : Fin 96) (k : Nat) (x : RxFrame), (s.port p).rxq[k]? = some x →
          ∃ t, exec (.parityError (.transport p k)) s = .next t ∧ (t.port p).rxq = (s.port p).rxq.erase x
            ∧ t.cores = s.cores ∧ t.mem = s.mem)
  ∧ (∀ (lc : Fin 64) (e : Eng) (n : Nat) (s : State), Canon s →
      (∀ k, (s.core lc).seq.task = some k → s.mgmt.faultActive = false → (s.at_ n).taskOver lc k = true →
        (s.core lc).scp.port = [] →
        ∃ t, exec (.taskStop lc n) s = .next t ∧ t = (s.at_ n).endTask lc k ∧ (t.core lc).seq.task = none
          ∧ ∀ x, (t.eng lc x).status = .noStream ∧ (t.eng lc x).begun = [])
      ∧ (waitOver (s.at_ n) lc e false = true →
        ∃ t, exec (.implicitWaitTimeout lc e n) s = .next t
          ∧ stopsWith s t lc e eWaitTimeout (satAdd 0 (s.eng lc e).begunCount))
      ∧ (∀ a m, waitOver (s.at_ n) lc e false = false → tileWaitOver (s.at_ n) lc e = some (a, m) →
        ∃ t, exec (.implicitWaitTimeout lc e n) s = .next t ∧ stopsWith s t lc e eWaitTimeout (satAdd 0 m)
          ∧ ∀ b ∈ (t.eng lc e).begun, b.serial ≠ m)
      ∧ ∀ f l, (s.eng lc e).fetched = f :: l → waitOver (s.at_ n) lc e true = true →
        (∃ t, exec (.explicitWaitTimeout lc e n) s = .next t
          ∧ stopsWith s t lc e eWaitTimeout (satAdd 0 (s.eng lc e).begunCount))
        ∧ ∀ g, Cmd.op f.word = 0x15 → g = BitVec.ofNat 12 (fld f.word 64 12) → ((s.core lc).seq.grp g).st = .opened →
          ∃ t, exec (.explicitWaitTimeout lc e n) s = .next t
            ∧ (let x := (t.core lc).seq.grp g
               x.st = .resolved ∧ x.aborted = true ∧ x.reason = eWaitTimeout ∧ x.await = []))

/-- Windows: a win.open that waits opens its window once the old one has been quiet long enough; a write that passes the
checks of R164 is placed at the window's base plus its word offset and touches no other byte, one that fails them is
dropped and counted, and one that must wait stands in the remote-write port; CHAIN_CONFIRM retires the running sum Q has
begun (R162, R164, R169, R172, R264). -/
def Obligations.WindowsTakeWrites : Prop :=
  ∀ (lc : Fin 64) (s : State), Canon s →
    (∀ (n : Nat) (f : Fetched) (l : List Fetched) (c : Ctx), (s.eng lc .s).fetched = f :: l → Cmd.op f.word = 0x18 →
      (s.eng lc .s).wait ≠ none → ((s.core lc).seq.win (grpOf f.word)).quiet (max s.clk.now n) = true →
      goesOn s lc .s = true → Begins winOpenRow 0x18 (s.at_ n) lc .s c →
      ∃ t, exec (.winOpenQuiet lc n) s = .next t
        ∧ (let w := (t.core lc).seq.win (grpOf f.word)
           w.isOpen = true ∧ w.seg = fld f.word 76 3 ∧ w.off = fld f.word 96 23 ∧ w.len = fld f.word 128 23
             ∧ w.srcset = fld f.word 160 8 ∧ w.gen = winGen c ∧ w.watermark = 0 ∧ w.queue = c.outs[0]?)
        ∧ (t.eng lc .s).retired = satInc (s.eng lc .s).retired ∧ (t.eng lc .s).fetched = l
        ∧ (t.core lc).scp = (s.core lc).scp ∧ ∀ k, k ≠ lc.val → t.core k = s.core k)
    ∧ (∀ (node : BitVec 18) (src : BitVec 6) (w : WinHdr) (poison : Bool) (data : List Byte), s.mgmt.faultActive = false →
      (s.core lc).scp.port = [] →
      ((∃ code, windowErr s lc node src.toNat w data.length = some code) ∨ slotErr s lc w true data.length = true →
        ∃ t, exec (.windowWrite lc node src w poison data) s = .next t
          ∧ (t.core lc).seq = { (s.core lc).seq with winDrops := satInc (s.core lc).seq.winDrops }
          ∧ (t.core lc).scp = (s.core lc).scp ∧ ∀ k, k ≠ lc.val → t.core k = s.core k)
      ∧ (windowErr s lc node src.toNat w data.length = none → slotErr s lc w true data.length = false →
        let base := ((s.core lc).seq.win w.window).base + w.woff.toNat
        let rs := [(base, ceilDiv data.length 4)]
        ((s.core lc).scp.blocked none rs = false → (s.core lc).scp.asleep (runSections rs) = [] →
          (s.core lc).codeHit rs = false → (s.core lc).scp.sound →
          ∃ t, exec (.windowWrite lc node src w poison data) s = .next t
            ∧ (∀ j, j < data.length → Memory.read (t.core lc).scp.bytes (4 * base + j) = data.getD j 0)
            ∧ (∀ a, a < 4 * base ∨ 4 * base + data.length ≤ a →
                Memory.read (t.core lc).scp.bytes a = Memory.read (s.core lc).scp.bytes a)
            ∧ (t.core lc).seq = (s.core lc).seq ∧ ∀ k, k ≠ lc.val → t.core k = s.core k)
        ∧ ((s.core lc).scp.blocked none rs = true →
          ∃ t x, exec (.windowWrite lc node src w poison data) s = .next t ∧ (t.core lc).scp.port = [x]
            ∧ x.addr = 4 * base ∧ x.data = data.map (fun y => (y, poison))
            ∧ (t.core lc).scp.bytes = (s.core lc).scp.bytes ∧ (t.core lc).seq = (s.core lc).seq)))
    ∧ ∀ (b : Begun), s.mgmt.faultActive = false → (s.eng lc .q).begun = [b] → b.passed = true →
      incomingOk (s.core lc) b = true → b.xfer = none → b.poison = false → b.grp = none → (s.core lc).seq.stopEnable = false →
      (s.eng lc .q).fetched ≠ [] → (∀ o ∈ b.outs, ∀ x ∈ b.ins, x.1 ≠ o.1 ∧ ((s.core lc).entry x.1 x.2.1).gather = none) →
      ∃ t, exec (.chainConfirm lc) s = .next t
        ∧ t.eng lc .q = { s.eng lc .q with begun := [], retired := satInc (s.eng lc .q).retired }
        ∧ ∀ o ∈ b.outs, ∀ x ∈ ((s.core lc).seq.queue o.1).entries, x.id = o.2 →
            { x with st := .ready } ∈ ((t.core lc).seq.queue o.1).entries

/-- Commit: each slice that acknowledges PREPARE leaves the group's list; once none is left the group resolves as
committed, its pending extents lose their tag and its grp.commit retires; COMMIT at a slice applies the group's shadows that
are past the commit point and that no line the host may hold keeps back, and is over for the slice (R183, R184, R269, R270,
R292). -/
def Obligations.GroupCommitProtocol : Prop :=
  ∀ (s : State), Canon s →
    (∀ (sl : Fin 128) (lc : Fin 64) (g : BitVec 12), ((s.core lc).seq.grp g).st = .committing →
      sl.val ∈ ((s.core lc).seq.grp g).await →
      ∃ t, exec (.slicePrepare sl (.loc lc g)) s = .next t
        ∧ ((t.core lc).seq.grp g).await = ((s.core lc).seq.grp g).await.filter (· != sl.val)
        ∧ (t.slice sl).prepared = (s.slice sl).prepared ++ [.loc lc g]
        ∧ (t.core lc).scp = (s.core lc).scp ∧ t.mem.dram = s.mem.dram)
    ∧ (∀ (sl : Fin 128) (f : BitVec 20) (c : Fin 64) (g : BitVec 12) (h : Handle), h ∈ s.fab.handles → h.flow = f →
      h.core.toNat = c.val → h.grp = g → h.committing = true → sl.val ∈ h.await →
      ∃ t, exec (.slicePrepare sl (.rem f c g)) s = .next t
        ∧ { h with await := h.await.filter (· != sl.val) } ∈ t.fab.handles
        ∧ (t.slice sl).prepared = (s.slice sl).prepared ++ [.rem f c g] ∧ t.mem.dram = s.mem.dram)
    ∧ (∀ (lc : Fin 64) (g : BitVec 12), s.mgmt.faultActive = false → ((s.core lc).seq.grp g).st = .committing →
      ((s.core lc).seq.grp g).await = [] → ((s.core lc).seq.grp g).flows = [] → s.fab.loc = [] →
      (s.core lc).scp.port = [] → goesOn s lc .s = true → engineRuns s lc .s = true →
      ∃ t, exec (.groupCommitPoint (.loc lc g)) s = .next t
        ∧ (t.core lc).seq.grp g = { st := .resolved }
        ∧ (t.core lc).scp.pend = (s.core lc).scp.pend.filter (fun x => x.grp != g)
        ∧ (t.core lc).scp.bytes = (s.core lc).scp.bytes
        ∧ (∀ sl, (t.slice sl).shadows = (s.slice sl).shadows.map (fun x =>
            if x.key = .loc lc g then { x with committed := true } else x))
        ∧ ∀ f l, (s.eng lc .s).fetched = f :: l → Cmd.op f.word = 0x15 → BitVec.ofNat 12 (fld f.word 64 12) = g →
            t.eng lc .s = (s.eng lc .s).retire f.loops)
    ∧ (∀ (f : BitVec 20) (c : Fin 64) (g : BitVec 12) (h : Handle), s.mgmt.faultActive = false →
      s.handle? f.toNat (BitVec.ofNat 6 c) g = some h → h.committing = true → h.await = [] → (s.flow f.toNat).rx = [] →
      ∃ t, exec (.groupCommitPoint (.rem f c g)) s = .next t ∧ h ∉ t.fab.handles
        ∧ ∀ sl, (t.slice sl).shadows = (s.slice sl).shadows.map (fun x =>
            if x.key = h.key then { x with committed := true } else x))
    ∧ ∀ (sl : Fin 128) (k : GrpKey), k ∈ (s.slice sl).prepared →
      (∀ x ∈ (s.slice sl).shadows, x.key = k → x.committed = true) →
      (∀ x ∈ (s.slice sl).shadows, x.key = k → ∀ y ∈ (s.slice sl).snoops, y.unit / 2 ≠ x.line) →
      let due (x : Shadow) : Bool := x.key == k && x.committed && !x.served
      let stay (x : Shadow) : Bool := x.parked && !x.adds
      let u := s.onSlice sl (fun y =>
        { y with
          prepared := y.prepared.filter (· != k)
          commits := y.commits.filter (· != k)
          shadows := (y.shadows.filter (fun x => !due x || stay x)).map (fun x => if due x then { x with served := true } else x) })
      exec (.sliceCommit sl k) s =
        .next ((((s.slice sl).shadows.filter (fun x => due x && !stay x)).foldl State.applyShadow u).retryHeld sl)

/-- The banks: a pending correction is written back, the code word good again and no other byte touched; a section with no
writes in flight enters its requested state unless its domain is in Retention, and Off loses every bit of it and of no other section; an access wakes a
section, which is On when the wake is done, all poisoned if it was Off (R155, R158, R170–R172). -/
def Obligations.SectionsSleepAndWake : Prop :=
  ∀ (lc : Fin 64) (s : State), Canon s →
    (∀ (cw : Fin 786432) (r : BitVec 256), (cw.val, r) ∈ (s.core lc).scp.wbPend → (∀ r', (cw.val, r') ∈ (s.core lc).scp.wbPend → r' = r) →
      ∃ t, exec (.eccWriteback lc cw) s = .next t ∧ Tbl.get 0 (t.core lc).scp.flips cw.val = 0
        ∧ (t.core lc).scp.wbPend = (s.core lc).scp.wbPend.filter (fun x => x.1 != cw.val)
        ∧ Tbl.get false (t.core lc).scp.poison cw.val = (s.core lc).scp.poisoned cw
        ∧ Tbl.get false (t.core lc).scp.durable cw.val = (s.core lc).scp.tag cw
        ∧ (∀ i < 32, Memory.read (t.core lc).scp.bytes (32 * cw.val + i) =
            Memory.read (s.core lc).scp.bytes (32 * cw.val + i) ^^^ BitVec.ofNat 8 (fld r (8 * i) 8))
        ∧ (∀ a, a / 32 ≠ cw.val → Memory.read (t.core lc).scp.bytes a = Memory.read (s.core lc).scp.bytes a)
        ∧ (t.core lc).seq = (s.core lc).seq)
    ∧ ∀ sec : Fin 6,
      (∀ r, Tbl.get none (s.core lc).scp.sectReq sec = some r → s.sectionInFlight lc sec = false →
        (s.dom (s.core lc).phys.toNat).st ≠ .retention →
        ∃ t, exec (.sectionPowerEntry lc sec) s = .next t
          ∧ Tbl.get 0 (t.core lc).scp.sect sec = r ∧ Tbl.get none (t.core lc).scp.sectReq sec = none
          ∧ (∀ a, r ≠ 2 ∨ a < 4194304 * sec.val ∨ 4194304 * (sec.val + 1) ≤ a →
              Memory.read (t.core lc).scp.bytes a = Memory.read (s.core lc).scp.bytes a)
          ∧ (∀ a, r = 2 → 4194304 * sec.val ≤ a → a < 4194304 * (sec.val + 1) → Memory.read (t.core lc).scp.bytes a = 0)
          ∧ (t.core lc).seq = (s.core lc).seq)
      ∧ (Tbl.get 0 (s.core lc).scp.sect sec ≠ 0 →
        ∃ t, exec (.sectionWake lc sec) s = .next t ∧ Tbl.get false (t.core lc).scp.waking sec = true
          ∧ (t.core lc).scp.bytes = (s.core lc).scp.bytes ∧ (t.core lc).seq = (s.core lc).seq)
      ∧ (Tbl.get false (s.core lc).scp.waking sec = true → (s.core lc).scp.port = [] →
        ∃ t, exec (.sectionWakeDone lc sec) s = .next t ∧ Tbl.get 0 (t.core lc).scp.sect sec = 0
          ∧ Tbl.get false (t.core lc).scp.waking sec = false
          ∧ (∀ cw, Tbl.get 0 (s.core lc).scp.sect sec = 2 → 131072 * sec.val ≤ cw → cw < 131072 * (sec.val + 1) →
              Tbl.get false (t.core lc).scp.poison cw = true)
          ∧ (Tbl.get 0 (s.core lc).scp.sect sec ≠ 2 → (t.core lc).scp.poison = (s.core lc).scp.poison)
          ∧ (t.core lc).scp.bytes = (s.core lc).scp.bytes ∧ (t.core lc).seq = (s.core lc).seq)

/-! ### Crossbar, slices, stacks and the host's accesses -/

/-- A crossbar read that need not wait delivers the masked bytes of its unit on a hit and otherwise waits for it as a miss,
both counted; one for which its core's port has no room waits there; a write that need not wait is taken run by run of its
mask; the fill of the oldest miss delivers it; the oldest served park is copied home (R176, R177, R179, R181–R184). -/
def Obligations.CrossbarRequestsAreServed : Prop :=
  ∀ s : State, Canon s →
    let masked (m : BitVec 256) (l : List MB) : List MB :=
      (List.range 256).filterMap (fun i => if m.toNat / 2 ^ i % 2 = 1 then l[i]? else none)
    (∀ (p : XPort) (addr : BitVec 40) (mask : BitVec 256) (k : Option GrpKey) (e : Upset),
      let a := addr.toNat / 256 * 256
      let n := sliceOf a
      sliceServes s p a = true → (s.slice n).held = [] →
      (s.portFull p (a / 256) = true →
        ∃ t, exec (.xbarRead p addr mask k e) s = .next t
          ∧ t.mem.waiting = s.mem.waiting ++ [.read { port := p, unit := a / 256, mask := mask, key := k }]
          ∧ t.mem.delivered = s.mem.delivered ∧ t.mem.slices = s.mem.slices ∧ t.mem.dram = s.mem.dram)
      ∧ (s.portFull p (a / 256) = false →
        let v := s.sliceEcc a mask.toNat e
        v.memWait a 256 k p false = none →
        ∃ t, exec (.xbarRead p addr mask k e) s = .next t ∧ t.mem.dram = s.mem.dram ∧ t.cores = s.cores
          ∧ (v.unitHit a mask.toNat k = true →
              (t.slice n).hits = satInc (s.slice n).hits ∧ (t.slice n).misses = (s.slice n).misses
              ∧ t.mem.delivered = s.mem.delivered
                  ++ [(p, a, mbBytes (masked mask (v.unitBytes a k)), mbPoison (masked mask (v.unitBytes a k)))])
          ∧ (v.unitHit a mask.toNat k = false →
              (t.slice n).missCount = satInc (s.slice n).missCount ∧ t.mem.delivered = s.mem.delivered
              ∧ (t.slice n).misses = (s.slice n).misses ++ [{ port := p, unit := a / 256, mask := mask, key := k }])))
    ∧ (∀ (p : XPort) (addr : BitVec 40) (mask : BitVec 256) (data : List Byte) (poison : Bool) (k : Option GrpKey),
      let a := addr.toNat / 256 * 256
      sliceServes s p a = true → (s.slice (sliceOf a)).held = [] → s.portFull p (a / 256) = false →
      s.memWait a 256 k p true = none →
      exec (.xbarWrite p addr mask data poison k) s = .next ((maskRuns mask.toNat).foldl (fun s (o, n) =>
        s.writeMem (a + o) (mbMark poison (bytesAt data o n)) k) s))
    ∧ (∀ (sl : Fin 128) (e : Upset) (m : Miss) (r : List Miss), (s.slice sl).held = [] → (s.slice sl).misses = m :: r →
      s.mem.waiting = [] →
      let a := m.unit * 256
      let v := (s.onSlice sl (fun x => { x with misses := r })).fetchUnit a e
      ∃ t, exec (.sliceMissFill sl e) s = .next t ∧ (t.slice sl).misses = r
        ∧ t.mem.delivered = s.mem.delivered
            ++ [(m.port, a, mbBytes (masked m.mask (v.unitBytes a m.key)), mbPoison (masked m.mask (v.unitBytes a m.key)))])
    ∧ ∀ (sl : Fin 128) (x : Shadow), (s.slice sl).shadows.find? (·.served) = some x → sliceOf (128 * x.line) = sl.val →
      (s.slice sl).held = [] →
      exec (.parkCopyHome sl) s = .next (s.settle x.line)
        ∧ (s.settle x.line).slice sl = { ((s.settle x.line).slice sl) with
            shadows := (s.slice sl).shadows.filter (fun y => !(y.line == x.line && y.served)) }

/-- A demand read of a unit on a stack whose rail stands delivers the unit: its bytes where its bits are good or can be
corrected, the wrong contents where its errors pass for corrected ones, poison where it is marked or its bits are beyond
correction, when it is marked; no byte of DRAM changes (R187–R189). -/
def Obligations.DemandReadsDeliverTheUnit : Prop :=
  ∀ (unit : BitVec 40) (s : State), Canon s → unit.toNat < apertureBase →
    let a := unit.toNat / 64 * 64
    (s.stk (stackOf a)).railFailed = false →
    let marked := Tbl.get false s.mem.poison (a / 64)
    let cond := Tbl.get .good s.mem.cond (a / 64)
    ∀ u : Upset, ∃ t b p, exec (.stackRead unit u) s = .next t
      ∧ t.mem.delivered = s.mem.delivered ++ [(.mgmt, a, b, p)] ∧ t.mem.dram = s.mem.dram ∧ t.cores = s.cores
      ∧ (marked = true ∨ cond = .uncorrectable ∨ u = .uncorrectable → p = true ∧ Tbl.get false t.mem.poison (a / 64) = true)
      ∧ (marked = false → cond ≠ .uncorrectable →
          (u = .clean ∨ u = .correctable → (cond = .good ∨ cond = .correctable → p = false ∧ b = s.dramBytes a 64)
            ∧ ∀ w, cond = .wrong w → p = false ∧ b = w)
          ∧ ∀ w, u = .miscorrected w → p = false ∧ b = bytesAt w 0 64)

/-- A write of a unit under a byte mask stores the bytes the mask names and no other byte of DRAM: a whole write needs no
read and takes the data's poison, a partial one merges with the unit read first (R191). -/
def Obligations.StackWritesStoreTheMaskedBytes : Prop :=
  ∀ (unit : BitVec 40) (mask : BitVec 64) (data : List Byte) (poison : Bool) (u : Upset) (s : State), Canon s →
    unit.toNat < apertureBase →
    let a := unit.toNat / 64 * 64
    (s.stk (stackOf a)).railFailed = false →
    ∃ t, exec (.stackWrite unit mask data poison u) s = .next t
      ∧ (∀ x, x < a ∨ a + 64 ≤ x → Memory.read t.mem.dram x = Memory.read s.mem.dram x)
      ∧ (∀ i, i < 64 → mask.getLsbD i = true → i < data.length → Memory.read t.mem.dram (a + i) = data.getD i 0)
      ∧ (mask ≠ 0 → mask = -1 → Tbl.get false t.mem.poison (a / 64) = poison)
      ∧ (mask ≠ -1 → Tbl.get false s.mem.poison (a / 64) = false → Tbl.get .good s.mem.cond (a / 64) = .good → u = .clean →
          (∀ i, i < 64 → mask.getLsbD i = false → Memory.read t.mem.dram (a + i) = Memory.read s.mem.dram (a + i))
          ∧ (mask ≠ 0 → Tbl.get false t.mem.poison (a / 64) = poison))
      ∧ t.cores = s.cores

/-- An ungrouped in-place add of a unit that no slice holds adds its contribution to the sums the stack stores and changes
no other byte of DRAM; onto a marked unit, or with poison, it adds nothing and the unit is marked (R88, R89). -/
def Obligations.InPlaceAddsAccumulate : Prop :=
  ∀ (unit : BitVec 40) (bf16 : Bool) (data : List Byte) (poison : Bool) (s : State), Canon s →
    unit.toNat % 64 = 0 → unit.toNat < userTop → data.length = 64 →
    let a := unit.toNat
    let sl := s.slice (sliceOf a)
    (s.stk (stackOf a)).railFailed = false → sl.shadows = [] → sl.line? (a / 128) = none →
    Tbl.get .good s.mem.cond (a / 64) = .good →
    let bad := poison || Tbl.get false s.mem.poison (a / 64)
    ∃ t, exec (.inPlaceAdd unit bf16 data poison .clean) s = .next t
      ∧ Tbl.get false t.mem.poison (a / 64) = bad
      ∧ (bad = true → t.mem.dram = s.mem.dram)
      ∧ (bad = false → (∀ i, i < 64 → Memory.read t.mem.dram (a + i) = (addUnit bf16 (s.dramBytes a 64) data).getD i 0)
          ∧ ∀ x, x < a ∨ a + 64 ≤ x → Memory.read t.mem.dram x = Memory.read s.mem.dram x)
      ∧ t.cores = s.cores

/-- The stacks' own work: a refresh closes the bank's open row; the patrol scrubber visits the next unit in ascending
address, a targeted scrub the unit due longest, whose third visit puts its row on the field-failure list (R188, R190,
R192, R434). -/
def Obligations.StacksRefreshAndScrub : Prop :=
  ∀ (st : Fin 16) (s : State),
    (∀ (ch : Fin 8) (pc : Fin 2) (bank : Fin 48),
      exec (.stackRefresh st ch pc bank) s =
        .next (s.onStk st (fun k => { k with rows := Tbl.set 0 k.rows (96 * ch.val + 48 * pc.val + bank.val) 0 })))
    ∧ ((s.stk st).runs = true → ∀ u : Upset,
      exec (.patrolScrub st u) s =
        .next ((s.onStk st (fun k => { k with scrubNext := (k.scrubNext + 1) % 805306368 })).scrub st (s.stk st).scrubNext u))
    ∧ ∀ (t un at_ : Nat) (r : List (Nat × Nat)), (s.stk st).due = (un, at_) :: r → (s.stk st).runs = true →
      let n := Tbl.get 0 (s.stk st).visits un + 1
      let v := ((s.at_ t).onStk st (fun k => { k with visits := Tbl.set 0 k.visits un n })).scrub st un .clean
      exec (.targetedScrub st t) s =
        .next (if n ≥ 3 then v.fieldFail (.row st (rowId (deviceOf st (64 * un)))) 2 st 2 else v)

/-- The host's accesses: a CXL.mem request for a mapped range is served at its slice, or completed with poison while a
device-level fault stands; a snoop answers RspIHitI, for the part caches no host line; the host's answer to a
back-invalidate frees its line for what waited; the host's answer to an aperture write stores its bytes in host memory
(R291–R293, R295, R297). -/
def Obligations.HostAccessesAreServed : Prop :=
  ∀ s : State,
    (∀ (unit : BitVec 40) (r : HostMem) (caches : Bool),
      let a := unit.toNat / 64 * 64
      s.host.memActive = true → s.host.linkUp = true → s.hdmMaps a = true →
      (s.mgmt.faultActive = false → (s.slice (sliceOf a)).held = [] → ∀ v : State,
        (if caches then s.track (a / 64) (match r with | .read => false | .write _ _ _ => true) else some s) = some v →
        s.lineWait (a / 128) none .cxl (match r with | .read => false | .write _ _ _ => true) = none →
        ∃ t, exec (.hostMemRequest unit r caches) s = .next t ∧ match r with
          | .read => t.host.out = s.host.out ++ [.memData (a / 64) (mbBytes (v.readMem a 64 none).1) (mbPoison (v.readMem a 64 none).1)]
              ∧ t.mem = (v.readMem a 64 none).2.mem
          | .write mask data poison => t.host.out = s.host.out ++ [.memCmp (a / 64)]
              ∧ t.mem = ((maskRuns mask.toNat).foldl (fun s (o, k) =>
                  s.writeMem (a + o) (mbMark poison (bytesAt data o k)) none) v).mem)
      ∧ (s.mgmt.faultActive = true → exec (.hostMemRequest unit r caches) s = .next { s with host := { s.host with
          out := s.host.out ++ [match r with
            | .read => .memData (a / 64) (List.replicate 64 0) true
            | .write _ _ _ => .memCmp (a / 64)] } }))
    ∧ (∀ addr : BitVec 64, s.cacheServes = true →
      exec (.hostSnoop addr) s = .next { s with host := { s.host with out := s.host.out ++ [.rspIHitI addr] } })
    ∧ (∀ (sl : Fin 128) (unit : Nat) (withData : Bool) (r : List (Nat × Bool)) (dirty : Option (List Byte × Bool)),
      (s.slice sl).bisnp = (unit, withData) :: r →
      let v := s.onSlice sl (fun x =>
        { x with
          bisnp := r
          snoops := if withData then x.snoops.map (fun e => if e.unit = unit then { e with modified := false } else e)
            else x.snoops.filter (fun e => e.unit != unit) })
      exec (.bisnpResponse sl dirty) s = .next (((match dirty with
        | some (b, p) => v.writeMem (64 * unit) (mbMark p (bytesAt b 0 64)) none
        | none => v) : State).sliceGo sl)
      ∧ ((s.slice sl).commits = [] → (s.slice sl).held = [] → exec (.bisnpResponse sl none) s = .next v))
    ∧ ∀ (q : AptReq) (rest : List AptReq) (b : Begun) (l : List Begun) (x : Xfer), s.host.apts = q :: rest →
      s.host.linkUp = true → (s.aptEntry (apertureBase + q.entry * 2 ^ 30)).valid = true →
      let e := engOf q.eng
      (s.eng q.lc e).begun = b :: l → b.xfer = some x →
      let u : State := { s with host := { s.host with apts := rest } }
      let counted (v : State) : State := (v.onBegun q.lc e b.serial (fun b =>
        { b with xfer := b.xfer.map (fun x => { x with done := x.done + q.bytes }) })).settleApt q.lc e
      (q.write = true →
        ∃ v : State, exec (.apertureCompletion .go) s = .next (v.settleApt q.lc e)
          ∧ v.host.mem = Mem.writeN s.host.mem q.hpa (mbBytes (((u.sourceBytes q.lc b).1.drop q.off).take q.bytes))
          ∧ ((v.eng q.lc e).begun.head?).bind (·.xfer) = some { x with done := x.done + q.bytes })
      ∧ ∀ bytes p v, q.write = false →
        u.landParts q.lc b (landSpots (begunPieces (s.core q.lc) b) q.off q.bytes) (mbMark p (bytesAt bytes 0 q.bytes)) = .done v →
        exec (.apertureCompletion (.data bytes p)) s = .next (counted v)

/-! ### Ports -/

/-- A port that is Up counts a frame with a wrong FCS, drops and counts once one it must not accept or has no room for, and
counts the bytes of one it accepts; an accepted OFT frame joins the receive buffer (R205, R210). -/
def Obligations.PortsAcceptOrDropFrames : Prop :=
  ∀ (p : Fin 96) (fr : Frame) (s : State), Canon s → (s.port p).st = .up →
    let ok : Bool := 64 ≤ fr.len && fr.len ≤ 9216 && s.tagsOk p fr.tags && s.frameTo p fr && s.bodyOk p fr.body
      && decide ((s.port p).buffered + fr.len ≤ 524288)
    (fr.fcsOk = false →
      exec (.frameReceive p fr) s = .next (s.onPort p (fun q => { q with fcsErr := satInc q.fcsErr })))
    ∧ (fr.fcsOk = true → ok = false →
      exec (.frameReceive p fr) s = .next (s.onPort p (fun q => { q with rxDrop := satInc q.rxDrop })))
    ∧ (fr.fcsOk = true → ok = true →
      ∃ t, exec (.frameReceive p fr) s = .next t
        ∧ (t.port p).rxq = (s.port p).rxq ++ (match fr.body with
            | .oft _ _ _ _ _ _ flow psn => [{ prio := framePrio fr, bytes := fr.len, flow := flow, psn := psn }]
            | _ => [])
        ∧ (t.port p).rxBytes = satAdd (s.port p).rxBytes fr.len ∧ (t.port p).rxDrop = (s.port p).rxDrop
        ∧ ∀ n, n ≠ p.val → t.port n = s.port n)

/-- A port that is Up answers ARP, neighbour solicitations and echo requests for its own addresses and the node's, and
sends LLDP every 30 s; a class that a PFC frame names pauses for its quanta, and what waited goes when the pause ends
(R206, R207, R210, R223). -/
def Obligations.PortsAnswerAndPause : Prop :=
  ∀ (p : Fin 96) (s : State), Canon s → (s.port p).st = .up →
    let c := s.hkClass p
    let sends (i : Instr) (n : Nat) (x : TxFrame) : Prop :=
      (s.port p).room c (s.hkBytes p n) = true → Tbl.get 0 (s.port p).pause c = 0 → Tbl.get [] (s.port p).egress c = [] →
        ∃ t, exec i s = .next t ∧ (t.port p).sent = (s.port p).sent ++ [x]
          ∧ (t.port p).txBytes = satAdd (s.port p).txBytes (s.hkBytes p n) ∧ t.cores = s.cores
    (∀ (target sender : BitVec 32) (mac : BitVec 48), s.answers4 p target = true →
      sends (.arpRequest p target sender mac) 64
        { eth := some (s.ethOf p c mac none), what := .arpReply target sender (s.portMac p) mac })
    ∧ (∀ (target sender : BitVec 128) (mac : BitVec 48), s.answers6 p target = true →
      let src := s.srcIp p true
      let rest := [Config.naFlags true, 0, 0, 0] ++ toBE 16 target.toNat ++ [2, 1] ++ toBE 6 (s.portMac p).toNat
      sends (.neighbourSolicitation p target sender mac) (62 + rest.length)
        { eth := some (s.ethOf p c mac (some (ipHeader true src sender 0 58 (4 + rest.length))))
          what := .neighbourAdv target (icmpBytes true src sender 136 0 rest) })
    ∧ (∀ (v6 : Bool) (dst sender : BitVec 128) (mac : BitVec 48) (rest : List Byte),
      (v6 = true → s.answers6 p dst = true) → (v6 = false → dst.toNat < 2 ^ 32 ∧ s.answers4 p (BitVec.ofNat 32 dst.toNat) = true) →
      let src := s.srcIp p v6
      sends (.icmpEchoRequest p v6 dst sender mac rest) (22 + (if v6 then 40 else 20) + rest.length)
        { eth := some (s.ethOf p c mac (some (ipHeader v6 src sender 0 (if v6 then 58 else 1) (4 + rest.length))))
          what := .echoReply (icmpBytes v6 src sender (if v6 then 129 else 0) 0 rest) })
    ∧ (∀ t, (s.port p).lastLldp + 30000000000 ≤ max s.clk.now t → bit (s.portCtl p) 30 = true →
      sends (.lldpTimer p t) 64 { eth := some (s.ethOf p c 0x0180C200000E none), what := .lldp s.nodeId p }
      ∧ ∃ u, exec (.lldpTimer p t) s = .next u ∧ (u.port p).lastLldp = max s.clk.now t)
    ∧ (∀ (quanta : List (BitVec 16)) (enable : BitVec 8), (∃ n < 8, bit enable n = true ∧ s.pfcOn p n = true) →
      ∃ t, exec (.pfcFrameRx p quanta enable) s = .next t
        ∧ (t.port p).pfcRx = satInc (s.port p).pfcRx ∧ (t.port p).rxBytes = satAdd (s.port p).rxBytes 64
        ∧ ∀ n < 8, Tbl.get 0 (t.port p).pause n =
            let k := (quanta.getD n 0).toNat
            if (bit enable n && s.pfcOn p n) = false then Tbl.get 0 (s.port p).pause n
            else if k = 0 then 0 else s.clk.now + quantaNs k)
    ∧ (∀ (cls : Fin 8) (t : Nat), Tbl.get 0 (s.port p).pause cls ≠ 0 → Tbl.get 0 (s.port p).pause cls ≤ max s.clk.now t →
      exec (.pauseQuantaExpiry p cls t) s =
        .next ((((s.at_ t).onPort p (fun q => { q with pause := Tbl.set 0 q.pause cls 0 })).flushClass p cls).goOutAll))
    ∧ ∀ mac : BitVec 48, ip6Words (fun i => s.applied (0x03041000 + 0x20 * p + 4 * i) 0) ≠ 0 →
      ∃ t, exec (.gatewayResolved p mac) s = .next t ∧ (t.port p).gwMac = some mac ∧ (t.port p).st = .up ∧ t.cores = s.cores

/-- A port comes Up from Training where nothing stands against it, trains again when light returns, and goes Down on loss
of signal, when it signals Remote Fault, and on a fault it receives; a training that fails in full leaves the spare's port
without a position, and a second one of a port that has lost lanes calls for the spare (R203, R211–R215). -/
def Obligations.PortsRiseAndFall : Prop :=
  ∀ (p : Fin 96) (s : State), Canon s →
    let rises (i : Instr) : Prop := ∃ t, exec i s = .next t ∧ (t.port p).st = .up ∧ (t.port p).retrains = 0
      ∧ (t.port p).substReason = 0 ∧ t.cores = s.cores
    ((s.port p).st = .training → s.canRise p = true → rises (.portUp p))
    ∧ (∀ t : Nat, (s.port p).st = .training ∨ ((s.port p).st = .down ∧ (s.port p).los = 15) → s.portOn p = true →
      (s.port p).laser = true →
      (∃ u, exec (.trainingRetry p true t) s = .next u ∧ (u.port p).st = .training ∧ (u.port p).los = 0)
      ∧ ∃ u, exec (.trainingRetry p false t) s = .next u ∧ (u.port p).los = 15
        ∧ (u.port p).st = (if (s.port p).substReason = 0 then .down else .noPosition))
    ∧ (∀ lanes : BitVec 4, lanes ≠ 0 → (s.port p).st = .up ∨ (s.port p).st = .training ∨ (s.port p).st = .down →
      ∃ t, exec (.lossOfSignal p lanes) s = .next t ∧ (t.port p).st = .down ∧ (t.port p).los = lanes
        ∧ (t.port p).rxLf = true ∧ (t.port p).sent = (s.port p).sent ++ [{ what := .remoteFault }]
        ∧ (t.port p).linkDowns = (if (s.port p).st = .up then satInc (s.port p).linkDowns else (s.port p).linkDowns)
        ∧ ∀ n, n ≠ p.val → t.port n = s.port n)
    ∧ (∀ remote : Bool, (s.port p).st = .up ∨ (s.port p).st = .down →
      ∃ t, exec (.faultReceived p remote) s = .next t ∧ (t.port p).st = .down
        ∧ (t.port p).rxRf = ((s.port p).rxRf || remote) ∧ (t.port p).rxLf = ((s.port p).rxLf || !remote)
        ∧ (t.port p).sent = (s.port p).sent ++ (if remote then [] else [{ what := .remoteFault }])
        ∧ ∀ n, n ≠ p.val → t.port n = s.port n)
    ∧ (((s.port p).rxLf = true ∨ (s.port p).rxRf = true) → (s.port p).st = .down →
      (s.onPort p (fun q => { q with rxLf := false, rxRf := false })).canRise p = true → rises (.faultCleared p))
    ∧ ((s.port p).st = .down ∨ (s.port p).st = .training →
      ((s.onPort p (fun q => { q with los := 0, rxLf := false })).canRise p = true → rises (.portRetrain p true))
      ∧ ((s.port p).saved = false → (s.port p).substReason ≠ 0 →
        ∃ t, exec (.portRetrain p false) s = .next t ∧ (t.port p).st = .noPosition ∧ (t.port p).laser = false)
      ∧ ((s.port p).saved = false → (s.port p).substReason = 0 → (s.port p).retrains = 0 →
        exec (.portRetrain p false) s = .next (s.onPort p (fun q => { q with retrains := 1 }))))

/-- The monitors of the optics: a lane at its end of life, or ten seconds in a row of high symbol error rate, moves a port
to its engine's spare position; an engine at 85 °C or above darkens its lasers, and its ports go Down; so do those of an
engine whose rail failed (R212–R214, R217, R222, R347, R348). -/
def Obligations.OpticsAreMonitored : Prop :=
  ∀ (p : Fin 96) (n : Fin 8) (s : State), Canon s →
    let moves (i : Instr) (reason : Nat) : Prop :=
      ∃ t, exec i s = .next t ∧ (t.port p).st = .training ∧ (t.port p).subst = true ∧ (t.port p).substReason = reason
        ∧ (t.port p).substFrom = (s.port p).pos ∧ (t.port p).pos = (s.optic (p / 12)).spare
        ∧ (t.optic (p / 12)).spare = 0xF ∧ t.cores = s.cores
    let spareStands : Prop := bit (s.portCtl p) 31 = false ∧ s.portOn p = true ∧ (s.optic (p / 12)).spare ≠ 0xF
    let darkens (i : Instr) : Prop :=
      ∃ t, exec i s = .next t ∧ t.cores = s.cores ∧ ∀ k < 12, (t.port (12 * n + k)).laser = false
        ∧ ((s.port (12 * n + k)).st = .up ∨ (s.port (12 * n + k)).st = .training →
            (t.port (12 * n + k)).st = .down ∧ (t.port (12 * n + k)).los = 15)
    (∀ lane, (s.port p).st = .up ∨ (s.port p).st = .down ∨ (s.port p).st = .training → spareStands →
      moves (.laserEol p lane) 3)
    ∧ (∀ corrected received corr uncorr t t0 : Nat, (s.port p).hiSerAt = some t0 → t0 + 1000000000 ≤ max s.clk.now t →
      let k := if received < corrected * 10000 then (s.port p).hiSerSecs + 1 else 0
      (k < 10 → ∃ u, exec (.hiSerTimer p corrected received corr uncorr t) s = .next u
        ∧ u.port p = { s.port p with
            hiSer := decide (received < corrected * 10000), hiSerSecs := k, hiSerAt := some (max s.clk.now t)
            fecCorr := satAdd (s.port p).fecCorr corr, fecUncorr := satAdd (s.port p).fecUncorr uncorr })
      ∧ (10 ≤ k → (s.port p).st = .up → spareStands → moves (.hiSerTimer p corrected received corr uncorr t) 2))
    ∧ (∀ (k : Fin 2) (temp : BitVec 11), 340 ≤ temp.toInt →
      darkens (.oeOvertemp n k temp)
      ∧ ∃ t, exec (.oeOvertemp n k temp) s = .next t ∧ (t.optic n).lasersOff = true
        ∧ t.thm = { s.thm with sense := (s.sample (160 + 2 * n + k) (some temp.toInt)).thm.sense
                               oeMax := (s.sample (160 + 2 * n + k) (some temp.toInt)).hottest 160 16 })
    ∧ darkens (.opticsRailFail n) ∧ ∃ t, exec (.opticsRailFail n) s = .next t ∧ (t.optic n).railFailed = true

/-! ### The transport -/

/-- Data packets: a window write, a DRAM write, an in-place add and a read's answer are placed by the checks of their
destination, an ungrouped window write at its window's base plus its word offset and an ungrouped DRAM write at its address;
a read request is answered from the job's ranges or with ERR (R164, R229, R237, R244). -/
def Obligations.DataPacketsArePlaced : Prop :=
  ∀ (h : PktHdr) (s : State), Canon s →
    let fi := h.flow.toNat
    let u := s.ctxCount (fi % 8) true
    (passesChecks s h true →
      (∀ w data, ∃ t, exec (.writeWin h w data) s = .next t ∧ placedBy s t h (fun s => s.placeWin h w data)
        ∧ (windowErr s w.core.toNat (s.flow fi).node h.srcCore.toNat w data.length = none →
            slotErr s w.core.toNat w h.last data.length = false → w.gv = false → h.prov = false →
            (s.flow fi).ctl = [] → let lc := w.core.toNat
            let base := ((s.core lc).seq.win w.window).base + w.woff.toNat
            let rs := [(base, ceilDiv data.length 4)]
            (s.core lc).scp.port = [] → (s.core lc).scp.blocked none rs = false → (s.core lc).scp.asleep (runSections rs) = [] →
            (s.core lc).codeHit rs = false → (s.core lc).scp.sound →
            ∀ j < data.length, Memory.read (t.core lc).scp.bytes (4 * base + j) = data.getD j 0))
      ∧ (∀ d data, ∃ t, exec (.writeDram h d data) s = .next t
          ∧ placedBy s t h (fun s => s.placeDram h d data false)
          ∧ (s.jobRangeOk (s.flow fi).job d.addr.toNat data.length true = true → d.gv = false →
              u.memWait d.addr.toNat data.length none (teOf h.port) true = none → (s.flow fi).ctl = [] → (s.flow fi).rx = [] →
              t.mem = (u.writeMem d.addr.toNat (mbMark h.poison data) none).mem))
      ∧ (∀ d data, ∃ t, exec (.addDram h d data) s = .next t
          ∧ placedBy s t h (fun s => s.placeDram h d data true)
          ∧ (s.jobRangeOk (s.flow fi).job d.addr.toNat data.length true = true → d.gv = false → d.addr.toNat % 64 = 0 →
              data.length % 64 = 0 → u.memWait d.addr.toNat data.length none (teOf h.port) true = none →
              (s.flow fi).ctl = [] → (s.flow fi).rx = [] →
              t.mem = ((List.range (data.length / 64)).foldl (fun s i =>
                s.addMem (d.addr.toNat + 64 * i) (d.runFmt == 1) (bytesAt data (64 * i) 64) h.poison none .clean) u).mem))
      ∧ ∀ (reqId : BitVec 16) (roff : BitVec 32) (data : List Byte),
          (Tbl.get none (s.flow fi).reqs reqId.toNat = none →
            exec (.readResp h reqId roff false data) s = .next ((u.recordArrival h none).afterArrival h))
          ∧ ∀ (r : ReadReq) (b : Begun) (l : List Begun) (x : Xfer) (v : State),
            Tbl.get none (s.flow fi).reqs reqId.toNat = some r → (s.eng r.lc (engOf r.eng)).begun = b :: l → b.xfer = some x →
            let n := min data.length (r.len - roff.toNat)
            u.landParts r.lc b (landSpots (begunPieces (s.core r.lc) b) (r.off + roff.toNat) n) (mbMark h.poison (data.take n))
              = .done v → r.len ≤ r.got + n → x.bytes ≤ x.done + n →
            exec (.readResp h reqId roff false data) s = .next (((((v.onFlow fi (fun f =>
              { f with reqs := Tbl.set none f.reqs reqId.toNat none })).onBegun r.lc (engOf r.eng) b.serial (fun b =>
              { b with xfer := b.xfer.map (fun x => { x with done := x.done + n }) })).endXfer r.lc (engOf r.eng)).recordArrival h
                none).afterArrival h))
    ∧ (passesChecks s h false → ∀ (addr : BitVec 40) (reqId : BitVec 16) (rlen : BitVec 32),
      let ok := s.jobRangeOk (s.flow fi).job addr.toNat rlen.toNat false = true ∧ rlen.toNat % 64 = 0 ∧ 64 ≤ rlen.toNat
        ∧ rlen.toNat ≤ 2 ^ 24
      (ok → u.memWait addr.toNat rlen.toNat none (teOf h.port) false = none →
        exec (.readReq h addr reqId rlen) s = .next ((((u.recordArrival h none).onFlow fi (fun f =>
          { f with answers := f.answers ++ [{ id := reqId.toNat, addr := addr.toNat, len := rlen.toNat }] })).afterArrival
            h).pumpFlow fi))
      ∧ (¬ ok → exec (.readReq h addr reqId rlen) s = .next (((u.recordArrival h none).sendSeq fi
          { type := 5, op := opReadResp reqId.toNat 0 true, last := true }).afterArrival h)))

/-- A control packet that passes the checks of its home engine joins those that wait for their PSN's turn, and takes
effect once every packet before it has arrived (R237). -/
def Obligations.ControlPacketsWaitTheirTurn : Prop :=
  ∀ (h : PktHdr) (s : State), passesChecks s h false →
    let took (c : Ctl) : State :=
      (((s.ctxCount (h.flow.toNat % 8) true).onFlow h.flow.toNat (fun f =>
        { f with ctl := insertCtl f.cum (h.psn, c) f.ctl })).recordArrival h none).afterArrival h
    (∀ tm, exec (.touch h tm) s = .next (took (.touch tm)))
    ∧ (∀ tm, exec (.strike h tm) s = .next (took (.strike tm)))
    ∧ (∀ core g abort, exec (.group h core g abort) s = .next (took (.group core g abort)))
    ∧ (∀ coll release epoch, exec (.barrier h coll release epoch) s = .next (took (.barrier coll release epoch)))
    ∧ (∀ core window gen req granted,
        exec (.credit h core window gen req granted) s = .next (took (.credit core window gen req granted)))
    ∧ exec (.teardown h) s = .next (took .teardown)

/-- A packet whose PSN has arrived, one 65,536 or more ahead, and one for a flow that is not Open or Closing or whose
context is not cached change no core, no memory and no job (R231, R233, R237). -/
def Obligations.StalePacketsPlaceNothing : Prop :=
  ∀ (h : PktHdr) (s : State), Canon s →
    let f := s.flow h.flow.toNat
    (f.st ≠ .isOpen ∧ f.st ≠ .closing) ∨ f.cached = false ∨ 65536 ≤ f.ahead h.psn ∨ h.psn ∈ f.sack →
    (∀ i : Instr, (∃ w data, i = .writeWin h w data) ∨ (∃ d data, i = .writeDram h d data ∨ i = .addDram h d data)
        ∨ (∃ addr reqId rlen, i = .readReq h addr reqId rlen) ∨ (∃ reqId roff err data, i = .readResp h reqId roff err data)
        ∨ (∃ tm, i = .touch h tm ∨ i = .strike h tm) ∨ (∃ core g abort, i = .group h core g abort) ∨ i = .teardown h →
      ∃ t, exec i s = .next t ∧ t.cores = s.cores ∧ t.mem = s.mem ∧ t.jobs = s.jobs)

/-- ACK of an Open flow frees what it acknowledges, lets the commands that own it go on and the flow send more; MC3's
restart drops the cached contexts and returns with its end (R235, R238–R240). -/
def Obligations.AcknowledgementsFreePackets : Prop :=
  ∀ s : State,
    (∀ (h : PktHdr) (a : AckHdr), (s.port h.port).st = .up → s.teRuns = true →
      ((s.flow h.flow.toNat).st = .isOpen ∨ (s.flow h.flow.toNat).st = .closing) → a.nakCode.toNat < 7 →
      (s.flow h.flow.toNat).cached = true →
      let fi := h.flow.toNat
      let c := s.ctxCount (fi % 8) true
      let u := if a.nakCode = 0 then c else c.refusedBy fi a.nakCode a.nakPsn
      let got := (u.flow fi).unacked.filter (fun k => acks a k.psn)
      let v := got.foldl (fun s k => s.ackOwner k) (u.ackFlow h.port fi a)
      exec (.ack h a) s = .next ((if (v.flow fi).st = .closing ∧ (v.flow fi).unacked = [] ∧ (v.flow fi).outq = [] then
        v.freeFlowAt fi else v.pumpFlow fi).bufRelease h)
      ∧ (Canon s → ∀ k ∈ ((u.ackFlow h.port fi a).flow fi).unacked, acks a k.psn = false))
    ∧ (s.fab.mc3Restarting = false → bit s.mgmt.up 3 = true →
      ∃ t, exec (.mc3Restart false) s = .next t ∧ t.fab.mc3Restarting = true ∧ bit t.mgmt.up 3 = false
        ∧ t.mgmt.mc3Restarts = satInc s.mgmt.mc3Restarts ∧ t.cores = s.cores ∧ t.mem = s.mem
        ∧ (Canon s → ∀ n, (t.flow n).cached = false ∧ (t.flow n).st = (s.flow n).st ∧ (t.flow n).unacked = (s.flow n).unacked))
    ∧ (s.fab.mc3Restarting = true → exec (.mc3Restart true) s = .next (State.goOutAll { s with
        fab := { s.fab with mc3Restarting := false }
        mgmt := { s.mgmt with up := setBit s.mgmt.up 3 } }))

/-- Setting flows up: SETUP of a known job tag finds its Open flow again or opens one and is acknowledged with status 0,
else with the reason, after up to 1,024 idle flows have gone where the table is full; SETUP_ACK opens the flow or stops with
the error its status names (R231, R232, R234). -/
def Obligations.FlowsAreSetUp : Prop :=
  ∀ (h : PktHdr) (b : SetupBody) (s : State), (s.port h.port).st = .up → s.teRuns = true →
    (s.nodeValid = true →
      let v := (s.bufRelease h).fab.flows.filter (fun (_, f) => f.st == .isOpen && f.node == b.node && f.peerBoot != b.boot)
      let u := v.foldl (fun s (i, _) => s.failFlow i) (s.bufRelease h)
      (u.jobByTag b.tag = none → exec (.setup h b) s = .next (u.sendSetupAck b 0xFFFFF 1))
      ∧ ∀ j, u.jobByTag b.tag = some j →
        (∀ i, u.findFlow j b.node = some i → (u.flow i).st = .isOpen → exec (.setup h b) s = .next (u.sendSetupAck b i 0))
        ∧ (u.findFlow j b.node = none → u.fabricFull b.node = true → exec (.setup h b) s = .next (u.sendSetupAck b 0xFFFFF 3))
        ∧ (u.findFlow j b.node = none → u.fabricFull b.node = false → 
            (u.takeFlow = .full → exec (.setup h b) s = .next (u.sendSetupAck b 0xFFFFF 2))
            ∧ (∀ x, u.takeFlow = .wait x → exec (.setup h b) s = .next x)
            ∧ ∀ i, u.takeFlow = .got i →
              exec (.setup h b) s = .next ((((u.onFlow i (fun _ => { node := b.node, job := j, tag := b.tag })).openFlow i
                b).recountPeers).sendSetupAck b i 0)))
    ∧ ((s.flow h.flow.toNat).st = .settingUp → (s.flow h.flow.toNat).node = b.node → (s.flow h.flow.toNat).tag = b.tag →
      let u := s.bufRelease h
      (b.status = 0 → exec (.setupAck h b) s = .next (u.openFlow h.flow.toNat b)
        ∧ (Canon s → let f := (u.openFlow h.flow.toNat b).flow h.flow.toNat
            f.st = .isOpen ∧ f.peerFlow = b.senderFlow ∧ f.peerBoot = b.boot ∧ f.cached = true))
      ∧ (b.status = 1 → exec (.setupAck h b) s = .next (u.setupRefused.failSetup h.flow.toNat ePeerNoJob))
      ∧ (b.status = 2 → exec (.setupAck h b) s = .next (u.setupRefused.failSetup h.flow.toNat eFlowTableFull))
      ∧ (b.status = 3 → exec (.setupAck h b) s = .next (u.setupRefused.failSetup h.flow.toNat eFabricLimit)))

/-- The transport's timers: a context's fetch ends; an ACK goes 2 µs after the first unacknowledged arrival; a hole older
than the reorder time, and the oldest packet after its RTO, are sent again, the RTO doubling; after 500 ms of
retransmission the flow fails; SETUP is sent again each ms, 8 times in all; a Closing flow is freed after 1 s (R231–R233,
R238–R240). -/
def Obligations.TransportTimersAct : Prop :=
  ∀ (flow : BitVec 20) (t : Nat) (s : State),
    let fi := flow.toNat
    let f := s.flow fi
    let u := s.at_ t
    ((f.fetching = true → exec (.contextFetchDone flow) s = .next ((s.cacheIn fi).pumpFlow fi))
    ∧ (∀ t0, f.firstUnacked = some t0 → f.st = .isOpen ∨ f.st = .closing → t0 + 2000 ≤ u.clk.now → s.teRuns = true →
      f.cached = true → exec (.ackTimer flow t) s = .next ((u.ctxCount (fi % 8) true).sendAck fi none)))
    ∧ (∀ (psn : BitVec 32) (k : TxPkt) (hole : Nat), f.st = .isOpen ∨ f.st = .closing → s.teRuns = true →
      f.unacked.find? (fun k => k.psn == psn) = some k → k.holeAt = some hole → hole + s.reorderNs ≤ u.clk.now →
      exec (.reorderTimeout flow psn t) s = .next (u.retransmit fi k))
    ∧ (∀ (k : TxPkt) (r : List TxPkt), f.unacked = k :: r →
      (f.st = .isOpen ∨ f.st = .closing → s.teRuns = true → max f.lastAdv k.lastSent + f.rto ≤ u.clk.now →
        let v : State := { u with fab := { u.fab with rtos := Tbl.upd 0 u.fab.rtos (fi % 8) satInc } }
        exec (.rtoExpiry flow t) s =
          .next ((v.onFlow fi (fun f => { f with rto := min 12800000 (2 * f.rto) })).retransmit fi k))
      ∧ (f.st = .isOpen → k.firstSent + 500000000 < u.clk.now → exec (.retxLimit flow t) s = .next (u.failFlow fi)))
    ∧ (f.st = .settingUp → s.teRuns = true → f.setupAt + 1000000 ≤ u.clk.now →
      exec (.setupRetry flow t) s = .next (if f.tries < 8 then u.sendSetup fi else u.failSetup fi ePeerUnreachable))
    ∧ (f.st = .closing → f.closeAt + 1000000000 ≤ u.clk.now → exec (.closingTimeout flow t) s = .next (u.freeFlowAt fi))

/-- PTP: a message on a PTP port is stamped as it arrives; an Announce joins the choice of the slave port; a Sync on the slave
port feeds the servo, which locks after 16 offsets in a row within 100 ns and steps the time by one above 1 µs; an event
message is stamped as it leaves, a one-step Sync in its originTimestamp; four intervals without Sync end the lock (R219,
R220, R250, R251). -/
def Obligations.TimeFollowsPtp : Prop :=
  ∀ (p : Fin 96) (s : State), Canon s → s.fab.mc3Restarting = false → s.mgmt.faultActive = false →
    (∀ (x : PtpRx) (t : Nat), (s.at_ t).ptpOn p = true → x.xport.val = s.ptpXport → x.domain.toNat = s.ptpDomain →
      (x.m ≠ .general → ∃ u, exec (.ptpMessageRx p x t) s = .next u
        ∧ u.fab.ptpStamps = s.fab.ptpStamps ++ [(s.at_ t).ptpStamp p false x.m x.seqId])
      ∧ (x.m = .sync → s.fab.slavePort.toNat = p.val →
        let good := if x.offset.natAbs ≤ 100 then s.fab.ptpGood + 1 else 0
        let now := max s.clk.now t
        ∃ u, exec (.ptpMessageRx p x t) s = .next u
          ∧ u.fab.ptpOffset = BitVec.ofInt 32 x.offset ∧ u.fab.ptpGood = good
          ∧ u.fab.ptpLocked = (s.fab.ptpLocked || decide (16 ≤ good)) ∧ u.fab.holdover = false
          ∧ u.fab.lastSync = u.clk.now ∧ u.cores = s.cores
          ∧ u.clk.now = (if x.offset.natAbs ≤ 1000 then now else ((now : Int) - x.offset).toNat))
      ∧ ∀ a, x.m = .general → x.master = some a →
        let v : State := { s.at_ t with fab := { (s.at_ t).fab with masters := Tbl.set [] s.fab.masters p a } }
        ∃ u, exec (.ptpMessageRx p x t) s = .next u ∧ u.fab.slavePort = v.bestMaster ∧ u.fab.masters = v.fab.masters
          ∧ (v.bestMaster ≠ s.fab.slavePort → u.fab.ptpLocked = false))
    ∧ (∀ (m : PtpMsg) (seqId : BitVec 16) (body : List Byte), s.ptpSends p m = true →
      (s.port p).clear (s.hkClass p) = true →
      (s.ptpTwoStep = true ∨ m ≠ .sync → ∃ t, exec (.ptpEventTx p m seqId body) s = .next t
        ∧ t.fab.ptpStamps = s.fab.ptpStamps ++ [s.ptpStamp p true m seqId])
      ∧ (s.ptpTwoStep = false → m = .sync → ∃ t bytes eth, exec (.ptpEventTx p m seqId body) s = .next t
        ∧ (t.port p).sent = (s.port p).sent ++ [{ eth := eth, what := .ptp .sync bytes }]
        ∧ (bytes.drop 34).take 10 = toBE 6 ((s.ptpStamp p true .sync seqId).ns / 1000000000)
            ++ toBE 4 ((s.ptpStamp p true .sync seqId).ns % 1000000000)
        ∧ t.fab.ptpStamps = s.fab.ptpStamps))
    ∧ ∀ t : Nat, s.ptpMode ≠ 0 → s.fab.slavePort ≠ 0x7F → s.fab.lastSync + 4 * s.syncNs ≤ max s.clk.now t →
      exec (.ptpSyncLoss t) s = .next { s.at_ t with
        fab := { (s.at_ t).fab with ptpLocked := false, ptpGood := 0, holdover := true } }

/-! ### The host -/

/-- CXL_PERST_N, a hot reset, a Function Level Reset and a link down reset the link, the decoders, the aperture, the
vectors and the mailbox pairs, and leave jobs, cores, DRAM, ports and the fabric as they are but for what a slice held for a
line of the host; the link comes up and its decoders, its cache and its configuration answer (R285, R287, R288, R289, R291). -/
def Obligations.LinkEventsAndResets : Prop :=
  ∀ s : State, Canon s →
    let lost (t : State) : Prop :=
      t.host.linkUp = false ∧ t.host.dec0 = {} ∧ t.host.dec1 = {} ∧ t.host.msixTable = [] ∧ t.host.cacheEn = false
        ∧ (∀ n, t.pair n = (s.pair n).resetBy) ∧ t.cfg = s.dropAperture.cfg
        ∧ (s.host.hostState = 0 → t.host.hostState = 1 ∧ t.host.absentAt = s.clk.now)
        ∧ t.jobs = s.jobs
        ∧ ((∀ n, (s.slice n).held = [] ∧ (s.slice n).commits = []) →
            t.cores = s.cores ∧ t.mem.dram = s.mem.dram ∧ t.ports = s.ports ∧ t.fab = s.fab)
    (s.pins.perstN = true → ∃ t, exec .cxlPerstAssert s = .next t ∧ lost t ∧ t.pins.perstN = false)
    ∧ (s.host.linkUp = true →
      (∃ t, exec .hotReset s = .next t ∧ lost t) ∧ (∃ t, exec .functionLevelReset s = .next t ∧ lost t)
      ∧ (∃ t, exec .cxlLinkDown s = .next t ∧ lost t)
      ∧ (s.host.pcie = false → exec .cacheEnable s = .next { s with host := { s.host with cacheEn := true } })
      ∧ (s.mgmt.partCode = 0 → ∀ off, exec (.configurationRequest off) s =
          .next { s with host := { s.host with out := s.host.out ++ [.cfgCrs off] } })
      ∧ (s.mgmt.partCode ≠ 0 → ∃ v, exec (.configurationRequest 0) s =
            .next { s with host := { s.host with out := s.host.out ++ [.cfgData 0 v] } }
          ∧ fld v 16 16 = s.mgmt.partCode.toNat)
      ∧ (s.host.flit256 = true → s.host.memActive = true → ∀ (n : Fin 2) (h d z : Nat),
          let o := if n = 0 then s.host.dec1 else s.host.dec0
          d * 2 ^ 28 + z * 2 ^ 28 ≤ 2 ^ 39 → o.committed = false →
          ∃ t, exec (.hdmDecoderCommit n (h * 2 ^ 28) (d * 2 ^ 28) (z * 2 ^ 28) 1) s = .next t
            ∧ (if n = 0 then t.host.dec0 else t.host.dec1) =
                { committed := true, hpa := h * 2 ^ 28, dpa := d * 2 ^ 28, size := z * 2 ^ 28 }
            ∧ (if n = 0 then t.host.dec1 else t.host.dec0) = o))
    ∧ (s.pins.vddio33 = true →
      exec .cxlPerstRelease s = .next { s with pins := { s.pins with perstN := true } })
    ∧ (s.pins.perstN = true → s.pins.pwrGood = true → s.host.linkUp = false → bit s.clk.refLost 3 = false →
      ∀ (r : Fin 4) (x8 f : Bool), r ≠ 0 →
      exec (.cxlLinkUp r x8 f true) s = .next { s with host := { s.host with
        linkUp := true, rate := BitVec.ofNat 2 r.val, x8 := x8, flit256 := r == 3 || f, pcie := false } })

/-- A response stands in its pair's D2H ring with the sequence number of its own that follows, and its message's slots
are free; the scan finds the messages; FW_INFO, HEARTBEAT and HOST_RETURN answer; the host's absence begins, settles and
ends the holding of messages (R301, R302, R303, R307, R309, R318, R319, R320). -/
def Obligations.MailboxCommandsAnswer : Prop :=
  ∀ s : State, Canon s →
    (∀ (n : Nat) (f : Found) (status detail job : Nat) (extra : List Byte),
      let m := respMsg f status detail job extra
      s.ringOpen n (slotsOf m.length) = true →
        let p := s.pair n
        let q := (s.answerWith n f status detail job extra).pair n
        q.h2dCons = p.h2dCons + BitVec.ofNat 32 f.slots ∧ q.d2hProd = p.d2hProd + BitVec.ofNat 32 (slotsOf m.length)
          ∧ q.d2h = ringWrite p.d2h p.d2hProd (sealMsg p.seqOut m) ∧ q.seqOut = p.seqOut + 1 ∧ q.found = none
          ∧ ∀ k, k ≠ n → (s.answerWith n f status detail job extra).pair k = s.pair k)
    ∧ (∀ t, (s.at_ t).mailboxesServed = true → ∃ u, exec (.mbxScan t) s = .next u
        ∧ (∀ n < 16, (u.pair n).wrote = false) ∧ u.cores = s.cores ∧ u.mem = s.mem ∧ u.jobs = s.jobs)
    ∧ (∀ p f, s.found? (p : Fin 16) 0x01 = some f → exec (.fwInfo p) s =
        .next (s.accept p f (toLE 4 s.mgmt.fwVersion.toNat
          ++ [s.mgmt.minorMax, BitVec.ofNat 8 (if s.mgmt.imageB then 1 else 0), 0, 0] ++ bytesAt s.mgmt.fwDigest 0 32)))
    ∧ (∀ t f, (s.at_ t).found? 0 0x02 = some f → s.host.hostState = 0 → exec (.heartbeat t) s =
        .next ((s.at_ t).accept 0 f (toLE 8 (max s.clk.now t) ++ [0, 0, 0, 0] ++ toLE 4 (s.at_ t).runningJobs)))
    ∧ (∀ f, s.found? 0 0x03 = some f → exec .hostReturn s =
        .next (({ s with host := { s.host with hostState := 0 } } : State).accept 0 f (toLE 4 s.host.held.length)))
    ∧ (∀ t, s.mailboxesServed = true → s.host.hostState = 0 → (s.pair 0).found = none →
        s.host.lastMsg + fld s.hostCfg 0 16 * 1000000 ≤ max s.clk.now t → exec (.hostTimeout t) s =
          .next { s.at_ t with host := { s.host with hostState := 1, absentAt := max s.clk.now t } })
    ∧ (∀ t, s.host.hostState = 1 → s.host.absentAt + fld s.hostCfg 16 16 * 1000000000 ≤ max s.clk.now t →
        exec (.hostDrain t) s = .next { s.at_ t with host := { s.host with hostState := 2 } })
    ∧ (∀ (p : Fin 16) m r, s.host.held = m :: r → m.pair = p.val → s.host.hostState = 0 → (s.pair p).enable = true →
        slotsOf m.bytes.length ≤ (s.pair p).freeSlots → ∃ t, exec (.heldMessageDelivery p) s = .next t
          ∧ t.host.held = r ∧ t.pair p = (s.pair p).putMsg m.bytes ∧ ∀ k : Nat, k ≠ p → t.pair k = s.pair k)
    ∧ (∀ p : Fin 16, s.host.linkUp = true → (s.pair p).enable = false → ∃ t, exec (.mbxReset p) s = .next t
        ∧ t.pair p = (s.pair p).zero ∧ ∀ k : Nat, k ≠ p → t.pair k = s.pair k)

/-- LICENCE_INSTALL writes the flash, and not the level a part runs at; ATTEST queues a report that carries the nonce
sent and is signed with a number no earlier signature had; passwords, signatures and nonces open levels (R11, R387,
R388, R389, R390, R393, R394, R395, R396). -/
def Obligations.LicencesSignaturesAndLocks : Prop :=
  ∀ s : State, Canon s →
    (∀ f, s.found? 0 0x10 = some f → s.host.hostState = 0 → s.mc0Up = true → leAt f.bytes 32 4 = 3796 →
      ∀ b bad u, s.fetchBytes (leAt f.bytes 16 1 == 1) (leAt f.bytes 24 8) 3796 = (b, bad, u) →
        ∃ t, exec .licenceInstall s = .next t ∧ t.mgmt = u.mgmt ∧ t.sec = u.sec
          ∧ t.flash = match u.licenceErr b bad.isSome with
            | none => { u.flash with licence := some (parseLicence b) }
            | some _ => u.flash)
    ∧ (∀ (p : Fin 16) t f, (s.at_ t).found? p 0x11 = some f → (s.at_ t).attestErr = none →
      ∃ u, exec (.attestRequest p t) s = .next u
        ∧ (∃ a, u.sec.attests = s.sec.attests ++ [a] ∧ a.pair = p.val ∧ a.reqSeq = BitVec.ofNat 32 f.seq
          ∧ (a.report.drop 32).take 32 = bytesAt f.bytes 16 32)
        ∧ u.host.hostState = s.host.hostState ∧ u.cores = s.cores)
    ∧ (∀ ready a r, s.sec.attests = a :: r → s.attestErr = none → s.mc0Up = true → s.host.linkUp = true →
        s.sec.treeReady = true → (∀ m, s.sec.usedMax = some m → m.toNat < 2 ^ 30) →
        ∃ (t : State) (q : Word), exec (.attestSign ready) s = .next t ∧ t.sec.attests = r ∧ t.sec.usedMax = some q
          ∧ s.sec.signNext.toNat ≤ q.toNat ∧ t.sec.signNext.toNat = q.toNat + 1
          ∧ q.toNat < t.sec.flashReserved.toNat ∧ t.sec.signReserved = t.sec.flashReserved
          ∧ (a.report.length = 256 → Mem.readN t.host.mem a.addr 7336 =
            a.report ++ bytesAt (Config.identitySign q a.report) 0 3284 ++ bytesAt Config.identityCert 0 3796))
    ∧ (s.mc0Up = true → s.sec.treeReady = false → ∃ t, exec .secondLevelTreeReady s = .next t
        ∧ (s.sec.attests = [] → t = { s with sec := { s.sec with treeReady := true } }))
    ∧ (∀ t a b u, (s.at_ t).unlockData false = some (a, b, u) →
        exec (.secUnlockSignature t) s =
          .next ((u.trySignature (fld (u.appliedReg 0x07000060) 2 2) b).2.unlockDone a
            (if u.ownerAnswers (fld (u.appliedReg 0x07000060) 2 2) b = true then 0 else eAccessDenied)))
    ∧ (∀ t a b u, (s.at_ t).unlockData true = some (a, b, u) →
        let fails := u.sec.pwFails.toNat + 1
        exec (.secUnlockPassword t) s = .next (
          if u.sec.pwLocked = true then u.unlockDone a eAccessLocked
          else if u.passwordOpens (fld (u.appliedReg 0x07000060) 2 2) b = true then (u.openLevel 1 1).unlockDone a 0
          else
            let sec := { u.sec with pwFails := BitVec.ofNat 3 fails, pwLocked := decide (5 ≤ fails) }
            ({ u with sec := sec } : State).unlockDone a eAccessDenied))
    ∧ (∀ t, s.host.linkUp = true → ∃ u, exec (.nonceRead t) s = .next u ∧ u.sec.nonceMade = s.sec.nonceMade + 1
        ∧ u.sec.nonceAt = some (max s.clk.now t)
        ∧ u.host.out = s.host.out ++ [.regData 0x07000020 (Tbl.get 0 u.sec.nonce 0)])

/-! ### Configuration, registers and firmware -/

/-- CONFIG_STAGE stages what it names and applies nothing; CONFIG_APPLY joins the requests in order; a discard empties
the staged values, a start and an update begin once asked for, and an update that succeeds selects the other slot for
the next start while the running image stays (R309, R327, R363, R378, R404, R405, R406, R408, R409). -/
def Obligations.ConfigurationIsStagedAndServed : Prop :=
  ∀ s : State, Canon s →
    (∀ f, s.found? 0 0x20 = some f → s.host.hostState = 0 →
      let pairs := (List.range ((f.bytes.length - 16) / 8)).map (fun i =>
        (leAt f.bytes (16 + 8 * i) 4, BitVec.ofNat 32 (leAt f.bytes (20 + 8 * i) 4)))
      (∀ x ∈ pairs, x.1 % 4 = 0 ∧ (stgReg x.1).isSome = true) → ∃ u : State, exec .configStage s =
          .next (u.answerWith 0 f 0 0 f.job (toLE 4 pairs.length))
        ∧ u = pairs.foldl (fun s x => s.stage x.1 x.2) s ∧ u.cfg.applied = s.cfg.applied
        ∧ (∀ off, (∀ x ∈ pairs, x.1 ≠ off) → u.stagedReg off = s.stagedReg off))
    ∧ (∀ f, s.found? 0 0x21 = some f → s.host.hostState = 0 → s.cfg.active.isSome = true → s.mc0Up = false →
        ∃ t, exec .configApply s = .next t ∧ t.cfg.queue = s.cfg.queue ++
            [(BitVec.ofNat 64 (leAt f.bytes 16 8), BitVec.ofNat 32 f.seq, f.minor)]
          ∧ (t.pair 0).found = none ∧ t.cfg.applied = s.cfg.applied)
    ∧ (∀ f, s.found? 0 0x21 = some f → s.host.hostState = 0 → ∃ u, exec .configApply s = .next (State.serve u)
        ∧ u.cfg.queue = s.cfg.queue ++ [(BitVec.ofNat 64 (leAt f.bytes 16 8), BitVec.ofNat 32 f.seq, f.minor)]
        ∧ (u.pair 0).found = none)
    ∧ (exec .applyAdopt s = .next s.adoptAll.serve
      ∧ (s.cfg.active = none → exec .applyAdopt s = .next s.serve))
    ∧ (s.host.linkUp = true →
      (s.cfg.active = none → exec .stageDiscard s = .next { s with cfg := { s.cfg with staged := [] } })
      ∧ (s.cfg.active.isSome = true → exec .stageDiscard s = .next { s with cfg := { s.cfg with discardLater := true } }))
    ∧ (s.cfg.startReq ≠ 0 → s.mc0Up = true → s.pins.pwrGood = true → ∀ b t,
        let u := if s.mgmt.stage = 6 then (s.at_ t).saveTemper else s.at_ t
        exec (.cfgStart b t) s = .next (if s.cfg.startReq = 3 then u.beginBanked b else u.beginStart s.cfg.startReq.toNat b))
    ∧ (s.cfg.goReq = true → s.mc0Up = true → s.mgmt.update.busy = false → ∃ t, exec .fwUpdateGo s = .next t
        ∧ t.cfg.goReq = false ∧ t.mgmt.update.state = 1 ∧ t.mgmt.update.bundle = bit (s.appliedReg 0x3020) 1)
    ∧ (s.mgmt.update.busy = true → s.mc0Up = true → ∀ b t,
      (∀ r, r ≠ .ok → exec (.fwUpdateDone r b t) s = .next { s.at_ t with mgmt := { s.mgmt with
          update := { s.mgmt.update with state := 7, err := BitVec.ofNat 8 (fwErr r) } } })
      ∧ (s.mgmt.recovery = false → ∃ u, exec (.fwUpdateDone .ok b t) s = .next u ∧ u.flash.bootB = !s.mgmt.imageB
          ∧ u.mgmt = { s.mgmt with update := { s.mgmt.update with state := 6 } }
          ∧ u.flash.version = Tbl.set 0 s.flash.version (if s.mgmt.imageB then 0 else 1) s.mgmt.update.version))

/-- The error log answers a selected number while flash keeps it, a low half latches its high half, flags clear by
writing 1, a write stages a register and applies nothing, the board's configuration and each core's corrections are kept
in flash (R13, R354, R359, R401, R403, R411, R414, R415, R416). -/
def Obligations.RegistersAnswerAndKeep : Prop :=
  ∀ s : State, Canon s →
    (s.host.linkUp = true → ∀ seq, exec (.errlogSelect seq) s =
      .next { s with mgmt := { s.mgmt with errSel := seq, errReady := false, errGone := false, errPend := true } })
    ∧ (s.mgmt.errPend = true → s.mc0Up = true →
      (s.flash.logFirst.toNat ≤ s.mgmt.errSel.toNat → s.mgmt.errSel.toNat < s.flash.logNext.toNat →
        exec .errlogFetchDone s = .next { s with mgmt := { s.mgmt with
          errPend := false, errReady := true, errData := Tbl.get [] s.flash.errlog s.mgmt.errSel.toNat } })
      ∧ (s.mgmt.errSel.toNat < s.flash.logFirst.toNat ∨ s.flash.logNext.toNat ≤ s.mgmt.errSel.toNat →
        exec .errlogFetchDone s = .next { s with mgmt := { s.mgmt with errPend := false, errGone := true } }))
    ∧ (s.host.linkUp = true →
      (exec (.loReadLatch 0x2004) s = .next { s with
          mgmt := { s.mgmt with faultTimeHi := hi32 s.mgmt.faultTime.toNat }
          host := { s.host with out := s.host.out ++ [.regData 0x2004 (s.mgmt.faultTime.setWidth 32)] } })
      ∧ (∀ off u, s.latch? (off : BitVec 28).toNat = some u → exec (.loReadLatch off) s =
          .next (u.readOut off (u.readReg off.toNat)))
      ∧ (∀ (lc : Fin 64) (v : BitVec 32), ∃ t, exec (.w1cWrite (BitVec.ofNat 28 (0x01000200 + 0x10000 * lc.val)) v) s = .next t
          ∧ (t.core lc).arrF.flags = (s.core lc).arrF.flags &&& ~~~v ∧ (t.core lc).seq = (s.core lc).seq
          ∧ ∀ k : Nat, k ≠ lc → t.core k = s.core k)
      ∧ (s.mgmt.recovery = false → ∀ (off : BitVec 28) (v : BitVec 32), off.toNat % 4 = 0 → (stgReg off.toNat).isSome = true →
        exec (.registerWrite off v) s = .next (s.stage off.toNat v))
      ∧ (∀ (n : Fin 64) (v : BitVec 32), ∃ t,
        exec (.registerWrite (BitVec.ofNat 28 (0x01000000 + 0x10000 * n.val + 0x200)) v) s = .next t
          ∧ (t.core n).arrF.flags = (s.core n).arrF.flags &&& ~~~v))
    ∧ (∀ t, s.cfg.dirty = true → s.mc0Up = true → (∀ r, s.cfg.lastRecord = some r → r + 60000000000 ≤ max s.clk.now t) →
      ∃ u, exec (.boardConfigRecord t) s = .next u ∧ u.flash.board = s.cfg.applied ∧ u.flash.boardSet = true
        ∧ u.cfg.dirty = false ∧ u.cfg.applied = s.cfg.applied)
    ∧ (∀ t, s.mgmt.corrAt + 3600000000000 ≤ max s.clk.now t → s.mc0Up = true → ∃ u, exec (.scpCorrLogHourly t) s = .next u
        ∧ u.mgmt.corrAt = max s.clk.now t ∧ u.cores = s.cores ∧ u.mgmt.corrLogged = (List.range 64).foldl (fun m n =>
          if (Tbl.get 0 m n).toNat < (s.core n).scp.eccCorr.toNat then Tbl.set 0 m n (s.core n).scp.eccCorr else m)
            s.mgmt.corrLogged)

/-! ### Queues, contexts and jobs -/

/-- Queues and contexts: QUEUE_CREATE takes a free queue, QUEUE_DESTROY frees one that no job waits in, CONTEXT_LOAD
places a checked image, CONTEXT_UNLOAD frees an idle context and its collectives (R310, R311, R312, R313, R314). -/
def Obligations.QueuesAndContexts : Prop :=
  ∀ (s : State) (p : Fin 16) (f : Found), Canon s →
    (∀ num : Fin 64, s.found? p 0x30 = some f → s.gateErr (p == 0) true = none → (s.squeue num).live = false →
      ∃ u : State, exec (.queueCreate p num) s = .next (u.accept p f [BitVec.ofNat 8 num.val])
        ∧ u.squeue num = { live := true, pair := p, prio := leAt f.bytes 16 1, preempt := leAt f.bytes 17 1 % 2 == 1,
                           mask := BitVec.ofNat 64 (leAt f.bytes 24 8) }
        ∧ ∀ k : Nat, k ≠ num → u.squeue k = s.squeue k)
    ∧ (let n := leAt f.bytes 16 1
      s.found? p 0x31 = some f → s.gateErr (p == 0) false = none → s.queueErr p n = none → (s.squeue n).jobs = [] →
      (∀ x ∈ s.jobs.jobs, x.2.st = .idle ∨ x.2.queue ≠ n) →
      ∃ u : State, exec (.queueDestroy p) s = .next (u.accept p f []) ∧ u.squeue n = {} ∧ ∀ k, k ≠ n → u.squeue k = s.squeue k)
    ∧ (∀ (idx : Fin 4096) place b u im ts, s.found? p 0x40 = some f → s.gateErr true true = none →
      s.fetchBytes (leAt f.bytes 16 1 == 1) (leAt f.bytes 24 8) (leAt f.bytes 32 4) = (b, none, u) → readImage b = .ok im →
      u.checkImage im place = .ok ts → (u.job idx).loaded = false →
      (∀ lc ∈ maskCores im.mask, (u.dom (u.core lc).phys.toNat).st = .on) → (∀ x ∈ u.sleepers im ts, x.2 = []) →
      ∃ t : State, exec (.contextLoad p idx place) s = .next (t.answerWith p f 0 0 idx (toLE 4 0))
        ∧ (t.job idx).loaded = true ∧ (t.job idx).pair = p.val ∧ (t.job idx).mask = im.mask ∧ (t.job idx).tasks = ts
        ∧ (t.job idx).st = .idle)
    ∧ (s.found? p 0x41 = some f → s.gateErr (p == 0) false = none → s.jobErr p f = none → (s.job f.job).st = .idle →
      ∃ u : State, exec (.contextUnload p) s = .next (u.accept p f []) ∧ u.job f.job = {}
        ∧ ∀ n, (u.coll n).used = true → (u.coll n).job ≠ f.job)

/-- Jobs: JOB_SUBMIT queues an idle job, JOB_START runs the head of the queue whose turn it is on every core of its
mask, JOB_CANCEL stops it, a preempted task's core is given free, JOB_COMPLETE says so to its pair, and a core whose
spare is due moves there once no context holds it (R22, R276, R315, R316, R317, R374, R375, R376, R377). -/
def Obligations.JobsRunAndEnd : Prop :=
  ∀ s : State, Canon s →
    (∀ (p : Fin 16) f, let qn := leAt f.bytes 16 1
      s.found? p 0x50 = some f → s.gateErr true true = none → s.jobErr p f = none → s.queueErr p qn = none →
      (s.job f.job).st = .idle → (∀ lc ∈ maskCores (s.job f.job).mask, s.coreServes lc = true) →
      ∃ u : State, exec (.jobSubmit p) s = .next (u.preemptPass.accept p f []) ∧ (u.job f.job).st = .queued
        ∧ (u.job f.job).queue = qn ∧ (u.squeue qn).jobs = (s.squeue qn).jobs ++ [f.job])
    ∧ (∀ (p : Fin 16) f, s.found? p 0x51 = some f → s.gateErr (p == 0) false = none → s.jobErr p f = none →
      ((s.job f.job).st = .queued → ∃ u : State, exec (.jobCancel p) s = .next (u.preemptPass.accept p f [])
        ∧ (u.job f.job).st = .stopping ∧ (u.job f.job).stopped = some .cancel ∧ (u.job f.job).live = 0)
      ∧ ((s.job f.job).st = .running → exec (.jobCancel p) s = .next ((s.stopJob f.job .cancel).accept p f [])))
    ∧ (∀ (qn : Fin 64) t j, (s.at_ t).jobsReady = true → (s.at_ t).primaryUp = true →
      (s.at_ t).pickQueue = some qn.val → (s.at_ t).ready? qn = some j → (s.job j).st = .queued →
      ∃ u : State, exec (.jobStart qn t) s = .next u.preemptPass ∧ (u.job j).st = .running
        ∧ (u.job j).live = (s.job j).mask ∧ (u.job j).start = max s.clk.now t
        ∧ (u.squeue qn).jobs = (s.squeue qn).jobs.drop 1)
    ∧ (∀ (lc : Fin 64) tk, (s.core lc).seq.task = some tk → tk.preempting = true → tk.stop = none →
      s.mgmt.faultActive = false → (s.core lc).savable = true → s.groupsRest lc = true → ∃ u : State,
        exec (.preemptSaveDone lc) s = .next (u.settlePreempt tk.job).preemptPass ∧ (u.core lc).seq.task = none
        ∧ (u.core lc).seq.saved = (s.core lc).seq.saved ++ [(s.core lc).save (s.coreNs lc) tk]
        ∧ bit (u.job tk.job).live lc = false)
    ∧ (∀ (idx : Fin 4096) t, ((s.job idx).st = .running ∨ (s.job idx).st = .stopping) → (s.job idx).live = 0 →
      s.jobsReady = true → s.primaryUp = true → ∃ u : State, exec (.jobComplete idx t) s = .next u.preemptPass
        ∧ (u.job idx).st = .idle ∧ (u.job idx).stopped = none)
    ∧ (∀ lc : Fin 64, (s.core lc).mapState = 2 → (s.core lc).seq.task = none →
      (∀ x ∈ s.contexts, bit x.2.mask lc = false) →
      let sp := s.clusterSpare ((s.core lc).phys.toNat / 9)
      (s.spareUsable sp = true → ∃ t, exec (.coreHandover lc) s = .next t
          ∧ t.core lc = { phys := BitVec.ofNat 7 sp, mapState := 1 } ∧ (∀ k : Nat, k ≠ lc → t.core k = s.core k)
          ∧ Tbl.get none t.flash.spareFor ((s.core lc).phys.toNat / 9) = some (s.core lc).phys.toNat)
      ∧ (s.spareUsable sp = false → ∃ t, exec (.coreHandover lc) s = .next t ∧ (t.core lc).mapState = 0
          ∧ (t.core lc).scp = (s.core lc).scp ∧ ∀ k : Nat, k ≠ lc → t.core k = s.core k))

/-! ### Power -/

/-- Damper's sample sets the input power, the bubble rate and the energy; the shunt, the clamp and the clock stretch
answer the voltage of a domain that is On; Temper's readings, its hour and its record set margins and keep them (R324,
R326, R327, R342). -/
def Obligations.SamplesSteerThePower : Prop :=
  ∀ s : State, Canon s →
    (∀ watts mv tileW t, s.pins.pwrGood = true → (∀ a, s.pwr.sampledAt = some a → a + 1000 ≤ max s.clk.now t) →
      ∃ u, exec (.damperSample watts mv tileW t) s = .next u ∧ u.pwr.inputW.toNat = min 16383 watts
        ∧ u.pwr.bubble.toNat ≤ 960 ∧ (7600 < watts → u.pwr.bubble = 960) ∧ u.pwr.peak = decide (7600 < watts)
        ∧ u.pwr.energyUj = s.pwr.energyUj + watts ∧ u.pwr.inputMv.toNat = min 65535 mv
        ∧ u.pwr.sampledAt = some (max s.clk.now t) ∧ u.pwr.domains = s.pwr.domains ∧ u.cores = s.cores ∧ u.mem = s.mem)
    ∧ (∀ d : Fin 72, (s.dom d).st = .on →
      (∀ below t, (s.dom d).shunt = false → 15 ≤ below → fld (s.domCtl d) 8 3 ≠ 0 → exec (.shunt d below t) s =
        .next ((s.at_ t).onDom d (fun x => { x with shunt := true, shuntAt := max s.clk.now t })))
      ∧ (∀ below t, (s.dom d).shunt = true → below = 0 ∨ (s.dom d).shuntAt + 100 ≤ max s.clk.now t →
        exec (.shunt d below t) s = .next ((s.at_ t).onDom d (fun x => { x with shunt := false })))
      ∧ (∀ above, exec (.clamp d above) s = .next (s.onDom d (fun x => { x with clampOn := decide (20 ≤ above) })))
      ∧ (∀ below t, 25 ≤ below → ∃ u, exec (.clockStretch d below t) s = .next u
        ∧ u.dom d =
            { (s.dom d).settled (max s.clk.now t) with stretches := satInc (s.dom d).stretches, droopAt := some (max s.clk.now t) }
        ∧ ∀ k, s.coreOf d ≠ some k → u.core k = s.core k)
      ∧ (∀ slack short t, (∀ a, (s.dom d).readAt = some a → a + 60000000000 ≤ max s.clk.now t) → ∃ u : State,
        exec (.temperReading d slack short t) s = .next (u.settleTemper d)
        ∧ (u.dom d).readings = (s.dom d).readings + 1 ∧ (u.dom d).readAt = some (max s.clk.now t)
        ∧ (Config.guardSlack d ≤ slack → (u.dom d).oweTrim = (s.dom d).oweTrim ∧ (u.dom d).oweMargin = (s.dom d).oweMargin)
        ∧ (slack < Config.guardSlack d → (u.dom d).hourOk = false ∧ (s.temperHeld d = false →
          (u.dom d).oweTrim = (s.dom d).oweTrim + short ∧ (u.dom d).oweMargin = (s.dom d).oweMargin + 5)))
      ∧ (∀ t, (s.dom d).hourAt + 3600000000000 ≤ max s.clk.now t → (s.dom d).oweTrim = 0 → (s.dom d).oweMargin = 0 → ∃ u,
        exec (.temperHourly d t) s = .next u ∧ (u.dom d).hourOk = true ∧ (u.dom d).readings = 0
        ∧ (u.dom d).margin = if (s.dom d).hourOk = true ∧ (s.dom d).readings ≠ 0 ∧ s.temperHeld d = false
            ∧ 15 < (s.dom d).margin.toNat ∧ s.domNoticed d = false then (s.dom d).margin - 1 else (s.dom d).margin))
    ∧ (∀ t, s.pwr.savedAt + 86400000000000 ≤ max s.clk.now t → s.mc0Up = true → ∃ u, exec (.temperSave t) s = .next u
        ∧ u.pwr = { s.pwr with savedAt := max s.clk.now t } ∧ u.flash = s.saveTemper.flash ∧ u.cores = s.cores)

/-- A failed phase and a short darken their domain and a short outside the cores stops the part; a cracked solder joint
is told from a rise of three tenths; tiles and stack rails are marked, and with the always-on rail everything goes off
(R331, R332, R333, R334). -/
def Obligations.PowerFailuresDarken : Prop :=
  ∀ s : State, Canon s →
    (∀ (d : Fin 72) t, (s.dom d).st = .on ∨ (s.dom d).st = .retention → (s.dom d).phases ≠ 0 → ∃ u : State,
      exec (.phaseFailure d t) s = .next (if (s.dom d).phases.toNat ≤ 14 then u.darken d else u)
        ∧ (u.dom d).phases = (s.dom d).phases - 1 ∧ FieldFail.phase d (16 - (s.dom d).phases.toNat) ∈ u.flash.fails
        ∧ u.cores = s.cores)
    ∧ (∀ (d : Fin 89) t, (s.dom d).st ≠ .off → (s.dom d).st ≠ .dark → ∃ u : State, (u.dom d).short = true ∧ u.mem = s.mem
        ∧ u.cores = s.cores
        ∧ exec (.domainShort d t) s = .next (if d.val < 72 then u.darken d else u.deviceFault 5)
        ∧ (72 ≤ d.val → (u.dom d).st = .dark ∧ (u.dom d).vMv = 0))
    ∧ (∀ (d : Fin 89) (res : BitVec 16) (amps : Nat), (s.dom d).st = .on → ∃ u, exec (.crackCheck d res amps) s = .next u
        ∧ (u.dom d).amps.toNat = min 255 amps ∧ u.cores = s.cores
        ∧ (amps ≤ 20 → (u.dom d).crack = (s.dom d).crack ∧ (u.dom d).rBase = (s.dom d).rBase)
        ∧ (20 < amps → (s.dom d).rBase = 0 → (u.dom d).rBase = res ∧ (u.dom d).crack = (s.dom d).crack)
        ∧ (20 < amps → (s.dom d).rBase ≠ 0 → (u.dom d).rNow = res ∧ (u.dom d).rBase = (s.dom d).rBase
          ∧ ((u.dom d).crack = true ↔ (s.dom d).crack = true ∨ 13 * (s.dom d).rBase.toNat ≤ 10 * res.toNat)))
    ∧ (∀ tile : Fin 16, ∃ u, exec (.tileFailure tile) s = .next u ∧ bit u.pwr.tilesBad tile = true
        ∧ (∀ k < 16, k ≠ tile.val → bit u.pwr.tilesBad k = bit s.pwr.tilesBad k)
        ∧ u.pwr.tiles = BitVec.ofNat 5 (16 - popCount16 u.pwr.tilesBad) ∧ u.cores = s.cores ∧ u.mem = s.mem)
    ∧ (∀ st : Fin 16, ∃ u, exec (.stackRailFail st) s = .next u ∧ (u.stk st).railFailed = true
        ∧ FieldFail.stack st ∈ u.flash.fails ∧ u.cores = s.cores ∧ u.mem.dram = s.mem.dram)
    ∧ (s.pwr.alwaysOn = true → ∃ u, exec .alwaysOnFail s = .next u ∧ u.pwr.alwaysOn = false ∧ u.mgmt.up = 0
        ∧ u.pins.pwrGood = false ∧ u.cores = [] ∧ u.jobs = {} ∧ (∀ d < 88, (u.dom d).st = .off))

/-- An idle core's domain goes to Retention at 0.5 V and keeps its cores' contents; it is granted, refused for 50 µs at
most and switched on; a lower step takes effect at once, a higher one once its output has come within 5 mV of its target, and
either after the droop; Caldera's policy lowers, raises, parks and
unparks (R329, R330, R341, R344, R349, R351). -/
def Obligations.DomainsSwitchAndStep : Prop :=
  ∀ (s : State) (d : Fin 72), Canon s →
    let x := s.dom d
    (x.st = .on → s.mc0Up = true →
      (∀ lc, s.coreOf d = some lc → (s.core lc).seq.task = none ∧ (∀ y ∈ s.contexts, bit y.2.mask lc = false)
        ∧ s.quiet lc = true) → ∃ u, exec (.retentionEntry d) s = .next u ∧ (u.dom d).st = .retention ∧ (u.dom d).vMv = 500
        ∧ (∀ k : Nat, k ≠ d → u.dom k = s.dom k) ∧ u.cores = s.cores)
    ∧ (∀ t, x.askedAt.isSome = true → x.granted = none → x.st = .retention → s.grantOk d = true →
      exec (.switchOnGrant d t) s = .next ((s.at_ t).onDom d (fun x => { x with granted := some (max s.clk.now t) })))
    ∧ (∀ t a, x.askedAt = some a → a + 50000 ≤ max s.clk.now t → x.granted = none →
      exec (.grantTimeout d t) s = .next ((s.at_ t).onDom d (fun x => { x with withheld := true })))
    ∧ (∀ t a, x.granted = some a → a + 5000 ≤ max s.clk.now t → x.st = .retention → ∃ u, exec (.switchOnDone d t) s = .next u
        ∧ (u.dom d).st = .on ∧ (u.dom d).granted = none ∧ (u.dom d).askedAt = none ∧ (u.dom d).parked = false
        ∧ (u.dom d).vMv = BitVec.ofNat 10 (u.vTarget d (u.dom d).fstep.toNat) ∧ (∀ k : Nat, k ≠ d → u.dom k = s.dom k)
        ∧ u.cores = s.cores)
    ∧ (∀ (step : Fin 12) t, x.st = .on → s.mc0Up = true → ∃ u, exec (.stepChange d step t) s = .next u
        ∧ (u.dom d).ftarget.toNat = step.val ∧ (∀ k : Nat, k ≠ d → u.dom k = s.dom k) ∧ u.cores = s.cores
        ∧ (x.raiseTo = none → let k := s.stepFor d step
          (x.drooped (max s.clk.now t) = true → k ≠ x.fstep.toNat → (u.dom d).pending = true ∧ (u.dom d).fstep = x.fstep
            ∧ (u.dom d).raiseTo = none)
          ∧ (x.drooped (max s.clk.now t) = false → (u.dom d).pending = false
            ∧ (u.dom d).vMv = BitVec.ofNat 10 (s.vTarget d k)
            ∧ (k ≤ x.fstep.toNat → (u.dom d).fstep.toNat = k ∧ (u.dom d).raiseTo = none)
            ∧ (x.fstep.toNat < k → (u.dom d).fstep = x.fstep ∧ (u.dom d).raiseTo = some (BitVec.ofNat 4 k)))))
    ∧ (∀ t, x.st = .on → x.drooped (max s.clk.now t) = false →
      (x.pending = true → ∃ u, exec (.deferredStepSwitch d t) s = .next u ∧ (u.dom d).pending = false
        ∧ (u.dom d).ftarget = x.ftarget ∧ (∀ k : Nat, k ≠ d → u.dom k = s.dom k)
        ∧ (u.dom d).vMv = BitVec.ofNat 10 (u.vTarget d ((u.dom d).raiseTo.getD (u.dom d).fstep).toNat))
      ∧ (∀ k, x.pending = false → x.raiseTo = some k → x.vMv.toNat ≤ x.output (max s.clk.now t) + 5 →
        exec (.deferredStepSwitch d t) s = .next ((s.at_ t).onDom d (fun x => { x with fstep := k, raiseTo := none }))))
    ∧ (∀ t, x.st = .on → s.mc0Up = true → x.policyAt + 10000000 ≤ max s.clk.now t → x.coolSince = none →
      ∃ u : State, (u.dom d) = { x with policyAt := max s.clk.now t } ∧ u.cores = s.cores ∧ u.mem = s.mem
        ∧ (∀ a, x.hotSince = some a → a + 10000000 ≤ max s.clk.now t → x.ftarget ≠ 0 →
          exec (.stepPolicy d t) s = .next (u.requestStep d (x.ftarget.toNat - 1)))
        ∧ (x.hotSince = none → exec (.stepPolicy d t) s = .next u))
    ∧ (∀ t a, s.parkEn = true → s.mc0Up = true → x.st = .on → x.parkSince = some a → a + 1000000000 ≤ max s.clk.now t →
      exec (.parkTimer d t) s = .next ((s.at_ t).onDom d (fun x => { x with parkPending := true })))
    ∧ (x.parkPending = true → x.st = .on → s.mc0Up = true →
      (∀ lc, s.coreOf d = some lc → (s.core lc).seq.task = none ∧ s.quiet lc = true) → ∃ u,
        exec (.corePark d) s = .next u ∧ (u.dom d).st = .retention ∧ (u.dom d).parked = true ∧ u.cores = s.cores)
    ∧ (∀ t a, x.parked = true → s.mc0Up = true → x.askedAt = none → x.unparkSince = some a →
      a + 1000000000 ≤ max s.clk.now t →
      exec (.unparkTimer d t) s = .next ((s.at_ t).onDom d (fun x => { x with askedAt := some (max s.clk.now t) })))

/-! ### Heat, clocks and starts -/

/-- Samples set the sensors' maxima and the throttling; a trip and a Quench stop the part, and it waits for coolant
before it restarts (R186, R347, R348, R350, R352, R353). -/
def Obligations.HeatStopsThePart : Prop :=
  ∀ s : State, Canon s →
    (∀ (d : Fin 72) own unc t, ∃ u, exec (.thermalSample d own unc t) s = .next u ∧ u.thm.calderaMax = u.hottest 0 96
      ∧ u.thm.trip = s.thm.trip ∧ u.cores = s.cores ∧ u.mem = s.mem ∧ u.jobs = s.jobs
      ∧ (bit s.thm.blind (d.val / 9) = true → (s.dom d).st = .on → (u.dom d).bTh = 960)
      ∧ ∀ k : Nat, k / 9 ≠ d.val / 9 → u.dom k = s.dom k)
    ∧ (∀ (st : Fin 16) temps t, ∃ u, exec (.stackThermalSample st temps t) s = .next u ∧ u.thm.stackMax = u.hottest 96 64
      ∧ ((∃ k < 4, ∃ x, u.reading (96 + 4 * st.val + k) = some x ∧ 340 < x) → (u.stk st).hot = true)
      ∧ ((∃ k < 4, (u.reading (96 + 4 * st.val + k)).isSome = true) →
        (∀ k < 4, ∀ x, u.reading (96 + 4 * st.val + k) = some x → x < 332) → (u.stk st).hot = false)
      ∧ ((∃ k < 4, ∃ x, u.reading (96 + 4 * st.val + k) = some x ∧ 380 ≤ x) → (u.stk st).halfBw = true)
      ∧ u.cores = s.cores ∧ u.mem.dram = s.mem.dram ∧ ∀ k : Nat, k ≠ st → u.stk k = s.stk k)
    ∧ (∀ i t, exec (.thermalTrip i t) s =
        .next (({ s.at_ t with thm := { s.thm with trip := true, tripLatched := true } } : State).deviceFault 6))
    ∧ (∀ temps : List Int, s.thm.trip = true → temps.length = 160 → (∀ x ∈ temps, x < 400) →
      let v := { s with thm := { s.thm with trip := false } }
      (s.mgmt.waitStart = none → exec (.tripRelease temps) s = .next v)
      ∧ ∀ k b, s.mgmt.waitStart = some (k, b) → exec (.tripRelease temps) s = .next ((v.bringUp k b).serve))
    ∧ (∀ t, s.pins.coolantOk = true → ∃ u, exec (.coolantOkFall t) s = .next u ∧ u.pins = { s.pins with coolantOk := false }
      ∧ u.thm = { s.thm with fallAt := if s.thm.coolantOk then some (max s.clk.now t) else none, riseAt := none }
      ∧ u.cores = s.cores ∧ u.mgmt = s.mgmt)
    ∧ (∀ t, s.pins.coolantOk = false → s.pins.vddio33 = true → ∃ u, exec (.coolantOkRise t) s = .next u
      ∧ u.pins.coolantOk = true ∧ u.thm.coolantOk = true ∧ u.thm.fallAt = none ∧ u.thm.riseAt = some (max s.clk.now t)
      ∧ (∀ a, s.thm.fallAt = some a → max s.clk.now t < a + 10000 → u.thm.glitch = satInc s.thm.glitch
        ∧ u.mgmt = s.mgmt ∧ u.cores = s.cores))
    ∧ (∀ t a, s.pins.coolantOk = false → s.thm.fallAt = some a → a + 10000 ≤ max s.clk.now t →
      exec (.quench t) s = .next (s.at_ t).quenchNow)
    ∧ (∀ t a, s.thm.quenchActive = true → s.pins.coolantOk = true → s.thm.riseAt = some a →
      a + 1000000000 ≤ max s.clk.now t → s.mgmt.faultActive = true → s.faultHold = false → s.thm.tripLatched = false →
      exec (.coolantRestart t) s = .next { s.at_ t with
        thm := { s.thm with quenchActive := false }, mgmt := { s.mgmt with bankedDue := true } })

/-- A lost reference is recorded, an optical one out of holdover takes the links down and the host's resets its link,
and a beacon draws counters together; power rising, falling and failing start, stop and lose the part; watchdogs restart
their processor or stop the part; a line fault that clears lets its port rise (R215, R279, R280, R288, R338, R346, R364,
R366, R372, R373, R423, R424). -/
def Obligations.ClocksSuppliesAndStarts : Prop :=
  ∀ s : State, Canon s →
    (∀ (i : Fin 4) t, bit s.clk.refLost i = false → ∃ u, exec (.refLost i t) s = .next u ∧ bit u.clk.refLost i = true
      ∧ bit u.clk.everLost i = true ∧ (i.val = 3 → u.host.linkUp = false) ∧ (i.val ≠ 3 → u.host = s.host ∧ u.cores = s.cores))
    ∧ (∀ i : Fin 4, exec (.refRestored i) s = .next { s with clk := { s.clk with refLost := clrBit s.clk.refLost i } })
    ∧ (∀ t, (s.at_ t).optHoldoverOut = true → ∃ u, exec (.optHoldoverExpiry t) s = .next u
      ∧ (∀ p < 96, (s.port p).st = .up ∨ (s.port p).st = .training → (u.port p).st = .down) ∧ u.cores = s.cores)
    ∧ (∀ t, ∃ u, exec (.timeBeacon t) s = .next u ∧ u.clk.skew = Tbl.mapv 0 beaconNext s.clk.skew
      ∧ s.clk.maxErr.toNat ≤ u.clk.maxErr.toNat ∧ u.cores = s.cores ∧ u.mgmt = s.mgmt)
    ∧ (∀ b strap t, s.pins.pwrGood = false → s.pins.vddio33 = true → s.pins.vddio18 = true → s.pins.vinOk = true →
      s.pwr.alwaysOn = true → ∃ u : State, u.pins = { s.pins with pwrGood := true, smbAddr := strap } ∧ u.mgmt = s.mgmt
        ∧ exec (.pwrGoodRise b strap t) s = .next (u.beginStart (if u.fullTests b then 1 else 2) b))
    ∧ (s.pins.pwrGood = true → ∃ u, exec .pwrGoodFall s = .next u ∧ u.pins.pwrGood = false ∧ u.cores = [] ∧ u.jobs = {}
      ∧ u.host.linkUp = false ∧ u.mgmt.stage = 0 ∧ (∀ d < 88, (u.dom d).st = .off)
      ∧ ((∀ n, (s.slice n).held = [] ∧ (s.slice n).commits = []) → u.flash = s.flash))
    ∧ exec (.vddioLow true) s =
        .next { s with pins := { s.pins with vddio18 := false }, flash := { s.flash with wp := true } }
    ∧ (∃ u, exec (.vddioLow false) s = .next u ∧ u.pins.vddio33 = false ∧ u.pins.perstN = false ∧ u.pins.coolantOk = false)
    ∧ (∀ io18, exec (.vddioRestored io18) s =
        .next { s with pins := if io18 then { s.pins with vddio18 := true } else { s.pins with vddio33 := true } })
    ∧ (∀ mv, mv < 36000 ∨ 62000 < mv → ∃ u, exec (.vinOutOfRange mv) s = .next u ∧ u.pins.vinOk = false
      ∧ u.pins.pwrGood = false ∧ u.mgmt.up = 0 ∧ u.cores = [])
    ∧ (∀ mv, s.pins.vinOk = false → 40000 ≤ mv → mv ≤ 60000 → ∃ u, exec (.vin48Restored mv) s = .next u
      ∧ u.pins.vinOk = true ∧ u.mgmt.up = if s.pwr.alwaysOn then 1 else 0)
    ∧ (∀ r t, s.mgmt.stage = 5 → s.mgmt.faultActive = false → s.thm.coolantOk = true → s.pins.pwrGood = true →
      (r.beyond = false → ∃ u, exec (.startStage5 r t) s = .next u ∧ u.mgmt.stage = 6 ∧ u.mgmt.up = 15
        ∧ u.mgmt.primary2 = false ∧ u.mgmt.standby = true ∧ u.flash.lastStartFailed = false
        ∧ (∀ pc ∈ r.failed, FieldFail.core pc ∈ u.flash.fails)
        ∧ (s.mgmt.kind ≠ 3 → ∀ cl ∈ s.clusters, ∀ k < 9, Tbl.get {} u.mgmt.steer (9 * cl + k) = steerOf r (9 * cl + k)))
      ∧ (r.beyond = true → ∃ u, exec (.startStage5 r t) s = .next u ∧ u.mgmt.stage = 7 ∧ u.mgmt.failCode = 7 ∧ u.cores = []))
    ∧ (∀ b t, s.mgmt.bankedDue = true → s.pins.pwrGood = true → exec (.bankedRestart b t) s = .next ((s.at_ t).beginBanked b))
    ∧ (∀ (c : BitVec 4) t, 1 ≤ c.toNat → c.toNat ≤ 6 → exec (.deviceLevelFault c t) s =
        .next ((s.at_ t).deviceFault c.toNat))
    ∧ (∀ b t, s.pins.pwrGood = true → s.mgmt.recovery = false → s.mc0Up = true → s.starting = false → ∃ u : State,
      u.mgmt = { s.mgmt with mc0Restarts := satInc s.mgmt.mc0Restarts, up := setBit s.mgmt.up 0, wdFails := 0 }
        ∧ u.cores = s.cores ∧ exec (.mc0WatchdogExpiry true b t) s = .next u.serve)
    ∧ (∀ t, s.mgmt.stage = 6 → s.primaryUp = true →
      (s.mgmt.standby = true → ∃ u, exec (.mcHeartbeatMiss t) s = .next u ∧ u.mgmt.primary2 = !s.mgmt.primary2
        ∧ u.mgmt.standby = false ∧ u.mgmt.takeovers = satInc s.mgmt.takeovers ∧ u.cores = s.cores ∧ u.jobs = s.jobs)
      ∧ (s.mgmt.standby = false → ∃ u : State, exec (.mcHeartbeatMiss t) s = .next (u.deviceFault 3) ∧ u.cores = s.cores))
    ∧ (s.mgmt.stage = 6 → s.mc0Up = true → s.mgmt.standby = false → s.mgmt.faultActive = false →
      let n := if s.mgmt.primary2 then 1 else 2
      bit s.mgmt.up n = false →
      exec .standbyRestartDone s = .next
        { s.logErr 0xA 0 6 n (toLE 4 n ++ toLE 4 1) with mgmt := { s.mgmt with up := setBit s.mgmt.up n, standby := true } })
    ∧ (∀ p : Fin 96, (s.port p).rxLf = true ∨ (s.port p).rxRf = true → (s.port p).st ≠ .down →
      ∃ u, exec (.faultCleared p) s = .next u ∧ u.port p = { s.port p with rxLf := false, rxRf := false }
        ∧ ∀ k : Nat, k ≠ p → u.port k = s.port k)

/-! ### Service interfaces -/

/-- JTAG shifts out its bypass bit, its 32-bit identification and the pins, a closed instruction selects BYPASS, and its
unlock is the owner's signature; SMBus serves the offsets it lists from a mirror, with PEC where it was written with PEC
(R394, R395, R428). -/
def Obligations.ServiceInterfacesAnswer : Prop :=
  ∀ s : State, Canon s →
    (∀ tdi, ∃ u, exec (.jtagBypass tdi) s = .next u ∧ u.sec.bypass = tdi
      ∧ u.sec.tdo = s.sec.tdo ++ [s.sec.jtag == 1 && s.sec.bypass] ∧ u.sec.jtag = 1)
    ∧ (∃ u v, exec .jtagIdcode s = .next u ∧ u.sec.tdo = s.sec.tdo ++ bitsLsb 32 v ∧ v % 2 = 1
      ∧ v / 2 ^ 12 % 2 ^ 16 = s.mgmt.partCode.toNat)
    ∧ (∀ pre, s.sec.level ≠ 0 → ∃ u, exec (.jtagSamplePreload pre) s = .next u ∧ u.sec.preload = pre
      ∧ u.sec.tdo = s.sec.tdo ++ [s.pins.perstN, s.pins.pwrGood, s.pins.coolantOk] ∧ u.pins = s.pins)
    ∧ (s.sec.level ≠ 0 → ∃ u, exec .jtagExtest s = .next u ∧ u.sec.pins = s.sec.preload)
    ∧ (s.sec.level = 0 → (∀ pre, exec (.jtagSamplePreload pre) s = .next s.closedInstr)
      ∧ exec .jtagExtest s = .next s.closedInstr ∧ s.closedInstr.sec.jtag = 1 ∧ s.closedInstr.sec.pins = s.sec.pins)
    ∧ (∀ t, ∃ u, exec (.jtagUnlock none t) s = .next u ∧ u.sec.tdo = s.sec.tdo ++ bitsLsb 256 (leNat u.sec.nonceBytes)
      ∧ u.sec.nonceAt = some (max s.clk.now t) ∧ u.sec.level = s.sec.level)
    ∧ (∀ resp t, s.mc0Up = true → ∃ u, exec (.jtagUnlock (some resp) t) s = .next u ∧ u.sec.nonceAt = none
      ∧ (u.sec.level ≠ s.sec.level → (s.at_ t).ownerAnswers (leAt resp 0 1) resp = true))
    ∧ (s.smbAlive = true →
      (∀ bytes, bytes.length = 4 → smbServed (leAt bytes 0 4) = true → exec (.smbusOffsetWrite bytes) s =
        .next { s with pins := { s.pins with
          smbSel := some (BitVec.ofNat 32 (leAt bytes 0 4)), smbPec := false, smbNak := false, smbOut := [] } })
      ∧ (∀ bytes, smbServed (leAt bytes 0 4) = false → exec (.smbusOffsetWrite bytes) s =
        .next { s with pins := { s.pins with smbNak := true, smbOut := [] } })
      ∧ (∀ off, s.pins.smbSel = some off → ∃ u, exec .smbusRead s = .next u ∧ u.pins.smbNak = false
        ∧ u.pins.smbOut.take 4 = toLE 4 (Tbl.get 0 s.pins.smbMirror off.toNat).toNat
        ∧ u.pins.smbOut.length = (if s.pins.smbPec then 5 else 4) ∧ u.pins.smbMirror = s.pins.smbMirror)
      ∧ exec .smbusAlertResponse s =
        .next { s with pins := { s.pins with smbNak := false, smbOut := [s.smbByte false] } })
    ∧ exec .smbusClockTimeout s =
        .next { s with pins := { s.pins with smbSel := none, smbPec := false, smbNak := false, smbOut := [] } }
    ∧ (∀ t, s.pins.smbMirrorAt + 1000000 ≤ max s.clk.now t → s.pwr.alwaysOn = true → s.pins.vinOk = true → ∃ u,
      exec (.smbusMirrorRefresh t) s = .next u ∧ u.pins.smbMirrorAt = max s.clk.now t
        ∧ Tbl.get 0 u.pins.smbMirror 0x2000 = (s.at_ t).readReg 0x2000
        ∧ Tbl.get 0 u.pins.smbMirror 0x0500000C = (s.at_ t).readReg 0x0500000C ∧ u.cores = s.cores)

/-! ### Rules of the whole part -/

/-- A DISCARD copies the applied copy over the staged copy of every register; written while an apply is under way, it takes
effect after that apply's response (R405). -/
def Obligations.DiscardCopiesTheApplied : Prop :=
  ∀ (s : State) (v : BitVec 32), s.host.linkUp = true → bit v 0 = true →
    exec (.registerWrite 0x4010 v) s = exec .stageDiscard s
    ∧ (s.cfg.active = none → ∃ t, exec .stageDiscard s = .next t ∧ t.cfg.applied = s.cfg.applied
        ∧ ∀ off, t.stagedReg off = s.appliedReg off)
    ∧ (∀ a, s.cfg.active = some a → ∃ t, exec .stageDiscard s = .next t ∧ t.cfg.staged = s.cfg.staged
        ∧ t.cfg.applied = s.cfg.applied ∧ t.cfg.active = s.cfg.active
        ∧ (∀ off, (t.endApply a).stagedReg off = s.appliedReg off)
        ∧ (t.endApply a).host.pairs = (t.answerLate 0 0x21 a.minor a.reqSeq.toNat a.status 0 []).host.pairs)

/-- Once q reaches 2³⁰, ATTEST_REQUEST is answered with E_IDENTITY_EXHAUSTED, and so is a request that waits for its
signature then; where level 2 has erased the keys the answer is E_ACCESS_OPEN, before that check (R391). -/
def Obligations.ExhaustedIdentityIsAnswered : Prop :=
  ∀ (s : State) (p : Fin 16), 2 ^ 30 ≤ s.sec.signNext.toNat →
    (∀ t f, (s.at_ t).found? p 0x11 = some f → exec (.attestRequest p t) s =
      .next ((s.at_ t).refuse p f (if s.sec.keysErased = true then eAccessOpen else eIdentityExhausted)))
    ∧ (∀ ready a r, s.sec.attests = a :: r → s.sec.keysErased = false → exec (.attestSign ready) s =
      .next (({ s with sec := { s.sec with attests := r } } : State).answerLate a.pair 0x11 a.minor a.reqSeq.toNat
        eIdentityExhausted 0 []))

/-- The CRC of a message is CRC-32C: polynomial 0x1EDC_6F41 reflected, initial value and final XOR 0xFFFF_FFFF, over the
message with its CRC field zero, stored little-endian; of "123456789" it is 0xE306_9283 (R305). -/
def Obligations.MessagesCarryTheirCrc : Prop :=
  (∀ l : List Byte,
    let poly := (BitVec.reverse (0x1EDC6F41#32)).toNat
    let shift (c : Nat) : Nat := if c % 2 = 1 then (c / 2) ^^^ poly else c / 2
    crc32c l = (l.foldl (fun c b => (List.range 8).foldl (fun c _ => shift c) (c ^^^ b.toNat)) 0xFFFFFFFF) ^^^ 0xFFFFFFFF)
  ∧ (∀ (seq : BitVec 32) (m : List Byte), 16 ≤ m.length →
    let r := sealMsg seq m
    r.length = m.length ∧ leAt r 12 4 = crc32c (r.take 12 ++ [0, 0, 0, 0] ++ r.drop 16) ∧ leAt r 8 4 = seq.toNat)
  ∧ crc32c [0x31, 0x32, 0x33, 0x34, 0x35, 0x36, 0x37, 0x38, 0x39] = 0xE3069283

/-- With fewer than k candidates, a selection fills the remaining slots with index 0xFFFF_FFFF and with −∞ where the format
has it, the most negative finite value otherwise, and −2³¹ for INT32, and sets TOPK_SHORT; the index, not the value,
marks a slot of an earlier list as empty (R79). -/
def Obligations.ShortSelectionsAreFilled : Prop :=
  (∀ fmt, fmt = 0 ∨ fmt = 1 ∨ fmt = 2 ∨ fmt = 4 → decodeFmt fmt (candFill fmt) = .inf true)
  ∧ (∀ code < 256, Fp.lt (decodeFmt 3 code) (decodeFmt 3 (candFill 3)) = false ∧ decodeFmt 3 (candFill 3) ≠ .nan)
  ∧ signedOf 8 (candFill 8) = -128 ∧ signedOf 32 (candFill 9) = -2147483648
  ∧ (∀ (axis : Bool) (k : Nat) (vals idx : Tile) (i : Nat), (oldCands axis k vals idx i).map Cand.code =
      ((List.range k).filter (fun j => (if axis then idx.code j i else idx.code i j) != 0xFFFFFFFF)).map
        (fun j => if axis then vals.code j i else vals.code i j))
  ∧ ∀ (lc : Fin 64) (s : State) (c : Ctx), Canon s → c.lc = lc.val →
    Begins (redRow (fun w => redSub w == 1) (fun w => redSub w ≥ 2 || histFieldsSet w)) 0x52 s lc .q c →
    let tiles := (readInputs s c).1
    let t := tiles.getD (tiles.length - 1) {}
    let k := redK c.w
    let cands (i : Nat) : List Cand :=
      (if tiles.length = 3 then oldCands (redAxis c.w) k (tiles.getD 0 {}) (tiles.getD 1 {}) i else [])
        ++ newCands (redAxis c.w) (redBase c.w) t i
    let lines := if redAxis c.w then t.cols else t.rows
    tiles.any (·.poison) = false → ∃ (u : State) (vals idx : Tile),
      exec (.redTopk lc) s = .next (u.complete c [vals, idx] false)
      ∧ (∀ i < lines, ∀ j < k, (cands i).length ≤ j →
        (if redAxis c.w then idx.code j i else idx.code i j) = 0xFFFFFFFF
        ∧ (if redAxis c.w then vals.code j i else vals.code i j) = candFill t.fmt)
      ∧ ((∃ i < lines, (cands i).length < k) → bit (u.core lc).integ.redFlags 0 = true)
      ∧ ((∀ i < lines, k ≤ (cands i).length) → (u.core lc).integ = (s.core lc).integ)

/-- A selection keeps the best: of candidates with indices of their own, no one left out comes before one kept, they stand in
order, and the result does not depend on how a row was cut into tiles or on the order the tiles came in (R78, R80). -/
def Obligations.SelectionsAreCutFree : Prop :=
  ∀ (big : Bool) (k : Nat) (a b : List Cand), ((a ++ b).map Cand.pos).Nodup →
    let best := candBest big k (a ++ b)
    best.length = min k (a ++ b).length
    ∧ best.Pairwise (fun x y => candBefore big x y = true)
    ∧ (∀ x ∈ best, x ∈ a ++ b ∧ ∀ y ∈ a ++ b, y ∉ best → candBefore big x y = true)
    ∧ candBest big k (candBest big k a ++ b) = best
    ∧ candBest big k (candBest big k a ++ candBest big k b) = best
    ∧ candBest big k (b ++ a) = best
end

