-- ==== Sys2Proof/Decode.lean ====
section
/-! DEFINITION. The word decoder over the table's bits. -/

namespace Sys2Proof

/-- spec/opcode_table.json gives no row any bits (its "fields" are empty and no row has "fixed"), so no word
spells a command. -/
def decodeTableWord (_nbits _w : Nat) : Option Instr := none

end Sys2Proof
end

