-- ==== Sys2Proof/Laws/Tables.lean ====
section
/-! SUPPORT. Sparse tables and memory: reads after writes, and that every write keeps the canonical form. -/

namespace Sys2Proof

variable {α : Type} [DecidableEq α]

@[simp] theorem Tbl.get_nil {β : Type} (d : β) (k : Nat) : Tbl.get d [] k = d := rfl

/-- A key below every listed key reads as the default. -/
theorem Tbl.get_below (d : α) (t : Tbl α) (lo k : Nat) (h : Tbl.wfFrom d lo t = true) (hk : k < lo) :
    Tbl.get d t k = d := by
  induction t generalizing lo with
  | nil => rfl
  | cons x r ih =>
    simp only [Tbl.wfFrom, Bool.and_eq_true, decide_eq_true_eq] at h
    have hne : ¬ x.1 = k := by omega
    simp only [Tbl.get, hne, if_false]
    exact ih (x.1 + 1) h.2 (by omega)

/-- A read of the key just written gives the value written. -/
@[simp] theorem Tbl.get_set_same (d : α) (t : Tbl α) (k : Nat) (v : α) (h : Tbl.wf d t = true) :
    Tbl.get d (Tbl.set d t k v) k = v := by
  suffices ∀ lo, Tbl.wfFrom d lo t = true → Tbl.get d (Tbl.set d t k v) k = v from this 0 h
  clear h
  induction t with
  | nil => intro lo _; by_cases hv : v = d <;> simp [Tbl.set, Tbl.get, hv]
  | cons x r ih =>
    intro lo h
    simp only [Tbl.wfFrom, Bool.and_eq_true, decide_eq_true_eq] at h
    simp only [Tbl.set]
    split
    · split
      · next hv =>
        have hne : ¬ x.1 = k := by omega
        simp only [Tbl.get, hne, if_false, hv]
        exact Tbl.get_below d r (x.1 + 1) k h.2 (by omega)
      · simp [Tbl.get]
    · split
      · next hk =>
        split
        · next hv => rw [hv]; exact Tbl.get_below d r (x.1 + 1) k h.2 (by omega)
        · simp [Tbl.get]
      · next h1 h2 =>
        have hne : ¬ x.1 = k := fun e => h2 e.symm
        simp only [Tbl.get, hne, if_false]
        exact ih (x.1 + 1) h.2

/-- A read of another key is what it was. -/
@[simp] theorem Tbl.get_set_other (d : α) (t : Tbl α) (k j : Nat) (v : α) (h : j ≠ k) :
    Tbl.get d (Tbl.set d t k v) j = Tbl.get d t j := by
  have hk : ¬ k = j := fun e => h e.symm
  induction t with
  | nil => by_cases hv : v = d <;> simp [Tbl.set, Tbl.get, hv, hk]
  | cons x r ih =>
    simp only [Tbl.set]
    split
    · split <;> simp [Tbl.get, hk]
    · split
      · next hx => split <;> simp [Tbl.get, hk, ← hx]
      · simp only [Tbl.get, ih]

/-- A write keeps the canonical form from any bound at or below the key. -/
theorem Tbl.set_wfFrom (d : α) (t : Tbl α) (lo k : Nat) (v : α) (h : Tbl.wfFrom d lo t = true) (hk : lo ≤ k) :
    Tbl.wfFrom d lo (Tbl.set d t k v) = true := by
  induction t generalizing lo with
  | nil => by_cases hv : v = d <;> simp [Tbl.set, Tbl.wfFrom, hv, hk]
  | cons x r ih =>
    have h' := h
    simp only [Tbl.wfFrom, Bool.and_eq_true, decide_eq_true_eq] at h
    simp only [Tbl.set]
    split
    · split
      · exact h'
      · next h1 hv =>
        simp only [Tbl.wfFrom, Bool.and_eq_true, decide_eq_true_eq]
        exact ⟨⟨hk, hv⟩, ⟨⟨by omega, h.1.2⟩, h.2⟩⟩
    · split
      · next hx =>
        split
        · rw [← hx] at h
          have : ∀ (t : Tbl α) (a b : Nat), a ≤ b → Tbl.wfFrom d b t = true → Tbl.wfFrom d a t = true := by
            intro t a b hab ht
            cases t with
            | nil => rfl
            | cons y z =>
              simp only [Tbl.wfFrom, Bool.and_eq_true, decide_eq_true_eq] at ht ⊢
              exact ⟨⟨by omega, ht.1.2⟩, ht.2⟩
          exact this r lo (k + 1) (by omega) h.2
        · next hv =>
          simp only [Tbl.wfFrom, Bool.and_eq_true, decide_eq_true_eq]
          exact ⟨⟨hk, hv⟩, by rw [hx]; exact h.2⟩
      · next h1 h2 =>
        simp only [Tbl.wfFrom, Bool.and_eq_true, decide_eq_true_eq]
        exact ⟨h.1, ih (x.1 + 1) h.2 (by omega)⟩

/-- A write keeps the canonical form. -/
@[simp] theorem Tbl.set_wf (d : α) (t : Tbl α) (k : Nat) (v : α) (h : Tbl.wf d t = true) :
    Tbl.wf d (Tbl.set d t k v) = true := Tbl.set_wfFrom d t 0 k v h (Nat.zero_le k)

@[simp] theorem Tbl.upd_wf (d : α) (t : Tbl α) (k : Nat) (f : α → α) (h : Tbl.wf d t = true) :
    Tbl.wf d (Tbl.upd d t k f) = true := Tbl.set_wf d t k _ h

@[simp] theorem Tbl.get_upd_same (d : α) (t : Tbl α) (k : Nat) (f : α → α) (h : Tbl.wf d t = true) :
    Tbl.get d (Tbl.upd d t k f) k = f (Tbl.get d t k) := Tbl.get_set_same d t k _ h

@[simp] theorem Tbl.get_upd_other (d : α) (t : Tbl α) (k j : Nat) (f : α → α) (h : j ≠ k) :
    Tbl.get d (Tbl.upd d t k f) j = Tbl.get d t j := Tbl.get_set_other d t k j _ h

/-- Changing every listed entry keeps the canonical form. -/
@[simp] theorem Tbl.mapv_wf (d : α) (f : α → α) (t : Tbl α) (h : Tbl.wf d t = true) :
    Tbl.wf d (Tbl.mapv d f t) = true := by
  suffices ∀ lo, Tbl.wfFrom d lo t = true → ∀ a, a ≤ lo → Tbl.wfFrom d a (Tbl.mapv d f t) = true from
    this 0 h 0 (Nat.le_refl 0)
  clear h
  induction t with
  | nil => intros; rfl
  | cons x r ih =>
    intro lo h a ha
    simp only [Tbl.wfFrom, Bool.and_eq_true, decide_eq_true_eq] at h
    simp only [Tbl.mapv, List.filterMap_cons] at ih ⊢
    split
    · next e =>
      exact ih (x.1 + 1) h.2 a (by omega)
    · next y e =>
      split at e
      · cases e
      · next hv =>
        cases e
        simp only [Tbl.wfFrom, Bool.and_eq_true, decide_eq_true_eq]
        exact ⟨⟨by omega, hv⟩, ih (x.1 + 1) h.2 (x.1 + 1) (Nat.le_refl _)⟩

/-- A read after changing every entry: the entry changed, or the default. -/
theorem Tbl.get_mapv (d : α) (f : α → α) (t : Tbl α) (k : Nat) (h : Tbl.wf d t = true) :
    Tbl.get d (Tbl.mapv d f t) k = f (Tbl.get d t k) ∨ Tbl.get d (Tbl.mapv d f t) k = d := by
  suffices ∀ lo, Tbl.wfFrom d lo t = true →
      Tbl.get d (Tbl.mapv d f t) k = f (Tbl.get d t k) ∨ Tbl.get d (Tbl.mapv d f t) k = d from this 0 h
  clear h
  induction t with
  | nil => intros; exact Or.inr rfl
  | cons x r ih =>
    intro lo h
    simp only [Tbl.wfFrom, Bool.and_eq_true, decide_eq_true_eq] at h
    have i := ih (x.1 + 1) h.2
    simp only [Tbl.mapv, List.filterMap_cons] at i ⊢
    by_cases hv : f x.2 = d
    · simp only [hv, if_true]
      by_cases hk : x.1 = k
      · refine Or.inr ?_
        have w : Tbl.wfFrom d (x.1 + 1) (Tbl.mapv d f r) = true := by
          have := Tbl.mapv_wf d f ((x.1, x.2) :: r)
          have q : ∀ (t : Tbl α) (a b : Nat), b ≤ a → Tbl.wfFrom d a t = true → Tbl.wfFrom d b (Tbl.mapv d f t) = true := by
            intro t
            induction t with
            | nil => intros; rfl
            | cons y z iz =>
              intro a b hab ht
              simp only [Tbl.wfFrom, Bool.and_eq_true, decide_eq_true_eq] at ht
              simp only [Tbl.mapv, List.filterMap_cons] at iz ⊢
              by_cases hy : f y.2 = d
              · simp only [hy, if_true]
                exact iz (y.1 + 1) b (by omega) ht.2
              · simp only [hy, if_false, Tbl.wfFrom, Bool.and_eq_true, decide_eq_true_eq]
                exact ⟨⟨by omega, hy⟩, iz (y.1 + 1) (y.1 + 1) (Nat.le_refl _) ht.2⟩
          exact q r (x.1 + 1) (x.1 + 1) (Nat.le_refl _) h.2
        exact Tbl.get_below d _ (x.1 + 1) k w (by omega)
      · simp only [Tbl.get, hk, if_false]
        exact i
    · simp only [hv, if_false, Tbl.get]
      by_cases hk : x.1 = k
      · simp [hk]
      · simp only [hk, if_false]
        exact i

@[simp] theorem Tbl.wf_nil (d : α) : Tbl.wf d ([] : Tbl α) = true := rfl

/-! ### Memory -/

/-- A read of the byte just written gives it. -/
@[simp] theorem Memory.read_write_same (m : Memory) (a : Nat) (b : Byte) (h : m.wf = true) :
    Memory.read (m.write a b) a = b := Tbl.get_set_same _ _ _ _ h

/-- A write leaves every other byte alone. -/
@[simp] theorem Memory.read_write_other (m : Memory) (a x : Nat) (b : Byte) (h : x ≠ a) :
    Memory.read (m.write a b) x = Memory.read m x := Tbl.get_set_other _ _ _ _ _ h

/-- A write keeps the canonical form. -/
@[simp] theorem Memory.write_wf (m : Memory) (a : Nat) (b : Byte) (h : m.wf = true) : (m.write a b).wf = true :=
  Tbl.set_wf _ _ _ _ h

@[simp] theorem Memory.wf_nil : Memory.wf [] = true := rfl

namespace Machine

/-- A write of several bytes keeps the canonical form. -/
@[simp] theorem Mem.writeN_wf (m : Memory) (a : Nat) (l : List Byte) (h : m.wf = true) : (Mem.writeN m a l).wf = true := by
  induction l generalizing m a with
  | nil => exact h
  | cons b r ih => exact ih _ _ (Memory.write_wf m a b h)

/-- Bytes outside a write of several bytes are what they were. -/
theorem Mem.read_writeN_other (m : Memory) (a x : Nat) (l : List Byte) (h : x < a ∨ a + l.length ≤ x) :
    Memory.read (Mem.writeN m a l) x = Memory.read m x := by
  induction l generalizing m a with
  | nil => rfl
  | cons b r ih =>
    simp only [List.length_cons] at h
    simp only [Mem.writeN]
    rw [ih _ _ (by omega), Memory.read_write_other _ _ _ _ (by omega)]

/-- Bytes inside a write of several bytes are the ones written. -/
theorem Mem.read_writeN_same (m : Memory) (a i : Nat) (l : List Byte) (hm : m.wf = true) (h : i < l.length) :
    Memory.read (Mem.writeN m a l) (a + i) = l.getD i 0 := by
  induction l generalizing m a i with
  | nil => simp at h
  | cons b r ih =>
    simp only [Mem.writeN]
    cases i with
    | zero =>
      show Memory.read _ a = b
      rw [Mem.read_writeN_other _ (a + 1) a _ (Or.inl (Nat.lt_succ_self a)), Memory.read_write_same _ _ _ hm]
    | succ j =>
      have e : a + (j + 1) = a + 1 + j := by omega
      simp only [List.length_cons, Nat.add_lt_add_iff_right] at h
      rw [e, ih _ _ _ (Memory.write_wf m a b hm) h]
      rfl

end Machine

end Sys2Proof
end

