-- ==== Sys2Proof/Laws/State.lean ====
section
/-! SUPPORT. Access to the state: for each update and each part of the state it leaves alone, that the part is what
it was; and what a read finds after the update. -/

namespace Sys2Proof.Machine

@[simp] theorem State.setCore_mem (s : State) (lc : Nat) (c : Core) : (s.setCore lc c).mem = s.mem := rfl
@[simp] theorem State.setCore_ports (s : State) (lc : Nat) (c : Core) : (s.setCore lc c).ports = s.ports := rfl
@[simp] theorem State.setCore_optics (s : State) (lc : Nat) (c : Core) : (s.setCore lc c).optics = s.optics := rfl
@[simp] theorem State.setCore_fab (s : State) (lc : Nat) (c : Core) : (s.setCore lc c).fab = s.fab := rfl
@[simp] theorem State.setCore_host (s : State) (lc : Nat) (c : Core) : (s.setCore lc c).host = s.host := rfl
@[simp] theorem State.setCore_jobs (s : State) (lc : Nat) (c : Core) : (s.setCore lc c).jobs = s.jobs := rfl
@[simp] theorem State.setCore_cfg (s : State) (lc : Nat) (c : Core) : (s.setCore lc c).cfg = s.cfg := rfl
@[simp] theorem State.setCore_sec (s : State) (lc : Nat) (c : Core) : (s.setCore lc c).sec = s.sec := rfl
@[simp] theorem State.setCore_flash (s : State) (lc : Nat) (c : Core) : (s.setCore lc c).flash = s.flash := rfl
@[simp] theorem State.setCore_mgmt (s : State) (lc : Nat) (c : Core) : (s.setCore lc c).mgmt = s.mgmt := rfl
@[simp] theorem State.setCore_pwr (s : State) (lc : Nat) (c : Core) : (s.setCore lc c).pwr = s.pwr := rfl
@[simp] theorem State.setCore_clk (s : State) (lc : Nat) (c : Core) : (s.setCore lc c).clk = s.clk := rfl
@[simp] theorem State.setCore_thm (s : State) (lc : Nat) (c : Core) : (s.setCore lc c).thm = s.thm := rfl
@[simp] theorem State.setCore_pins (s : State) (lc : Nat) (c : Core) : (s.setCore lc c).pins = s.pins := rfl
@[simp] theorem State.setCore_free (s : State) (lc : Nat) (c : Core) : (s.setCore lc c).free = s.free := rfl
@[simp] theorem State.setCore_pending (s : State) (lc : Nat) (c : Core) : (s.setCore lc c).pending = s.pending := rfl

@[simp] theorem State.onCore_mem (s : State) (lc : Nat) (f : Core → Core) : (s.onCore lc f).mem = s.mem := rfl
@[simp] theorem State.onCore_ports (s : State) (lc : Nat) (f : Core → Core) : (s.onCore lc f).ports = s.ports := rfl
@[simp] theorem State.onCore_optics (s : State) (lc : Nat) (f : Core → Core) : (s.onCore lc f).optics = s.optics := rfl
@[simp] theorem State.onCore_fab (s : State) (lc : Nat) (f : Core → Core) : (s.onCore lc f).fab = s.fab := rfl
@[simp] theorem State.onCore_host (s : State) (lc : Nat) (f : Core → Core) : (s.onCore lc f).host = s.host := rfl
@[simp] theorem State.onCore_jobs (s : State) (lc : Nat) (f : Core → Core) : (s.onCore lc f).jobs = s.jobs := rfl
@[simp] theorem State.onCore_cfg (s : State) (lc : Nat) (f : Core → Core) : (s.onCore lc f).cfg = s.cfg := rfl
@[simp] theorem State.onCore_sec (s : State) (lc : Nat) (f : Core → Core) : (s.onCore lc f).sec = s.sec := rfl
@[simp] theorem State.onCore_flash (s : State) (lc : Nat) (f : Core → Core) : (s.onCore lc f).flash = s.flash := rfl
@[simp] theorem State.onCore_mgmt (s : State) (lc : Nat) (f : Core → Core) : (s.onCore lc f).mgmt = s.mgmt := rfl
@[simp] theorem State.onCore_pwr (s : State) (lc : Nat) (f : Core → Core) : (s.onCore lc f).pwr = s.pwr := rfl
@[simp] theorem State.onCore_clk (s : State) (lc : Nat) (f : Core → Core) : (s.onCore lc f).clk = s.clk := rfl
@[simp] theorem State.onCore_thm (s : State) (lc : Nat) (f : Core → Core) : (s.onCore lc f).thm = s.thm := rfl
@[simp] theorem State.onCore_pins (s : State) (lc : Nat) (f : Core → Core) : (s.onCore lc f).pins = s.pins := rfl
@[simp] theorem State.onCore_free (s : State) (lc : Nat) (f : Core → Core) : (s.onCore lc f).free = s.free := rfl
@[simp] theorem State.onCore_pending (s : State) (lc : Nat) (f : Core → Core) : (s.onCore lc f).pending = s.pending := rfl

@[simp] theorem State.onSeq_mem (s : State) (lc : Nat) (f : Sequencer → Sequencer) : (s.onSeq lc f).mem = s.mem := rfl
@[simp] theorem State.onSeq_ports (s : State) (lc : Nat) (f : Sequencer → Sequencer) : (s.onSeq lc f).ports = s.ports := rfl
@[simp] theorem State.onSeq_optics (s : State) (lc : Nat) (f : Sequencer → Sequencer) : (s.onSeq lc f).optics = s.optics := rfl
@[simp] theorem State.onSeq_fab (s : State) (lc : Nat) (f : Sequencer → Sequencer) : (s.onSeq lc f).fab = s.fab := rfl
@[simp] theorem State.onSeq_host (s : State) (lc : Nat) (f : Sequencer → Sequencer) : (s.onSeq lc f).host = s.host := rfl
@[simp] theorem State.onSeq_jobs (s : State) (lc : Nat) (f : Sequencer → Sequencer) : (s.onSeq lc f).jobs = s.jobs := rfl
@[simp] theorem State.onSeq_cfg (s : State) (lc : Nat) (f : Sequencer → Sequencer) : (s.onSeq lc f).cfg = s.cfg := rfl
@[simp] theorem State.onSeq_sec (s : State) (lc : Nat) (f : Sequencer → Sequencer) : (s.onSeq lc f).sec = s.sec := rfl
@[simp] theorem State.onSeq_flash (s : State) (lc : Nat) (f : Sequencer → Sequencer) : (s.onSeq lc f).flash = s.flash := rfl
@[simp] theorem State.onSeq_mgmt (s : State) (lc : Nat) (f : Sequencer → Sequencer) : (s.onSeq lc f).mgmt = s.mgmt := rfl
@[simp] theorem State.onSeq_pwr (s : State) (lc : Nat) (f : Sequencer → Sequencer) : (s.onSeq lc f).pwr = s.pwr := rfl
@[simp] theorem State.onSeq_clk (s : State) (lc : Nat) (f : Sequencer → Sequencer) : (s.onSeq lc f).clk = s.clk := rfl
@[simp] theorem State.onSeq_thm (s : State) (lc : Nat) (f : Sequencer → Sequencer) : (s.onSeq lc f).thm = s.thm := rfl
@[simp] theorem State.onSeq_pins (s : State) (lc : Nat) (f : Sequencer → Sequencer) : (s.onSeq lc f).pins = s.pins := rfl
@[simp] theorem State.onSeq_free (s : State) (lc : Nat) (f : Sequencer → Sequencer) : (s.onSeq lc f).free = s.free := rfl
@[simp] theorem State.onSeq_pending (s : State) (lc : Nat) (f : Sequencer → Sequencer) : (s.onSeq lc f).pending = s.pending := rfl

@[simp] theorem State.onScp_mem (s : State) (lc : Nat) (f : Scratch → Scratch) : (s.onScp lc f).mem = s.mem := rfl
@[simp] theorem State.onScp_ports (s : State) (lc : Nat) (f : Scratch → Scratch) : (s.onScp lc f).ports = s.ports := rfl
@[simp] theorem State.onScp_optics (s : State) (lc : Nat) (f : Scratch → Scratch) : (s.onScp lc f).optics = s.optics := rfl
@[simp] theorem State.onScp_fab (s : State) (lc : Nat) (f : Scratch → Scratch) : (s.onScp lc f).fab = s.fab := rfl
@[simp] theorem State.onScp_host (s : State) (lc : Nat) (f : Scratch → Scratch) : (s.onScp lc f).host = s.host := rfl
@[simp] theorem State.onScp_jobs (s : State) (lc : Nat) (f : Scratch → Scratch) : (s.onScp lc f).jobs = s.jobs := rfl
@[simp] theorem State.onScp_cfg (s : State) (lc : Nat) (f : Scratch → Scratch) : (s.onScp lc f).cfg = s.cfg := rfl
@[simp] theorem State.onScp_sec (s : State) (lc : Nat) (f : Scratch → Scratch) : (s.onScp lc f).sec = s.sec := rfl
@[simp] theorem State.onScp_flash (s : State) (lc : Nat) (f : Scratch → Scratch) : (s.onScp lc f).flash = s.flash := rfl
@[simp] theorem State.onScp_mgmt (s : State) (lc : Nat) (f : Scratch → Scratch) : (s.onScp lc f).mgmt = s.mgmt := rfl
@[simp] theorem State.onScp_pwr (s : State) (lc : Nat) (f : Scratch → Scratch) : (s.onScp lc f).pwr = s.pwr := rfl
@[simp] theorem State.onScp_clk (s : State) (lc : Nat) (f : Scratch → Scratch) : (s.onScp lc f).clk = s.clk := rfl
@[simp] theorem State.onScp_thm (s : State) (lc : Nat) (f : Scratch → Scratch) : (s.onScp lc f).thm = s.thm := rfl
@[simp] theorem State.onScp_pins (s : State) (lc : Nat) (f : Scratch → Scratch) : (s.onScp lc f).pins = s.pins := rfl
@[simp] theorem State.onScp_free (s : State) (lc : Nat) (f : Scratch → Scratch) : (s.onScp lc f).free = s.free := rfl
@[simp] theorem State.onScp_pending (s : State) (lc : Nat) (f : Scratch → Scratch) : (s.onScp lc f).pending = s.pending := rfl

@[simp] theorem State.onInteg_mem (s : State) (lc : Nat) (f : Integrity → Integrity) : (s.onInteg lc f).mem = s.mem := rfl
@[simp] theorem State.onInteg_ports (s : State) (lc : Nat) (f : Integrity → Integrity) : (s.onInteg lc f).ports = s.ports := rfl
@[simp] theorem State.onInteg_optics (s : State) (lc : Nat) (f : Integrity → Integrity) : (s.onInteg lc f).optics = s.optics := rfl
@[simp] theorem State.onInteg_fab (s : State) (lc : Nat) (f : Integrity → Integrity) : (s.onInteg lc f).fab = s.fab := rfl
@[simp] theorem State.onInteg_host (s : State) (lc : Nat) (f : Integrity → Integrity) : (s.onInteg lc f).host = s.host := rfl
@[simp] theorem State.onInteg_jobs (s : State) (lc : Nat) (f : Integrity → Integrity) : (s.onInteg lc f).jobs = s.jobs := rfl
@[simp] theorem State.onInteg_cfg (s : State) (lc : Nat) (f : Integrity → Integrity) : (s.onInteg lc f).cfg = s.cfg := rfl
@[simp] theorem State.onInteg_sec (s : State) (lc : Nat) (f : Integrity → Integrity) : (s.onInteg lc f).sec = s.sec := rfl
@[simp] theorem State.onInteg_flash (s : State) (lc : Nat) (f : Integrity → Integrity) : (s.onInteg lc f).flash = s.flash := rfl
@[simp] theorem State.onInteg_mgmt (s : State) (lc : Nat) (f : Integrity → Integrity) : (s.onInteg lc f).mgmt = s.mgmt := rfl
@[simp] theorem State.onInteg_pwr (s : State) (lc : Nat) (f : Integrity → Integrity) : (s.onInteg lc f).pwr = s.pwr := rfl
@[simp] theorem State.onInteg_clk (s : State) (lc : Nat) (f : Integrity → Integrity) : (s.onInteg lc f).clk = s.clk := rfl
@[simp] theorem State.onInteg_thm (s : State) (lc : Nat) (f : Integrity → Integrity) : (s.onInteg lc f).thm = s.thm := rfl
@[simp] theorem State.onInteg_pins (s : State) (lc : Nat) (f : Integrity → Integrity) : (s.onInteg lc f).pins = s.pins := rfl
@[simp] theorem State.onInteg_free (s : State) (lc : Nat) (f : Integrity → Integrity) : (s.onInteg lc f).free = s.free := rfl
@[simp] theorem State.onInteg_pending (s : State) (lc : Nat) (f : Integrity → Integrity) : (s.onInteg lc f).pending = s.pending := rfl

@[simp] theorem State.onEng_mem (s : State) (lc : Nat) (e : Eng) (f : Engine → Engine) : (s.onEng lc e f).mem = s.mem := rfl
@[simp] theorem State.onEng_ports (s : State) (lc : Nat) (e : Eng) (f : Engine → Engine) : (s.onEng lc e f).ports = s.ports := rfl
@[simp] theorem State.onEng_optics (s : State) (lc : Nat) (e : Eng) (f : Engine → Engine) : (s.onEng lc e f).optics = s.optics := rfl
@[simp] theorem State.onEng_fab (s : State) (lc : Nat) (e : Eng) (f : Engine → Engine) : (s.onEng lc e f).fab = s.fab := rfl
@[simp] theorem State.onEng_host (s : State) (lc : Nat) (e : Eng) (f : Engine → Engine) : (s.onEng lc e f).host = s.host := rfl
@[simp] theorem State.onEng_jobs (s : State) (lc : Nat) (e : Eng) (f : Engine → Engine) : (s.onEng lc e f).jobs = s.jobs := rfl
@[simp] theorem State.onEng_cfg (s : State) (lc : Nat) (e : Eng) (f : Engine → Engine) : (s.onEng lc e f).cfg = s.cfg := rfl
@[simp] theorem State.onEng_sec (s : State) (lc : Nat) (e : Eng) (f : Engine → Engine) : (s.onEng lc e f).sec = s.sec := rfl
@[simp] theorem State.onEng_flash (s : State) (lc : Nat) (e : Eng) (f : Engine → Engine) : (s.onEng lc e f).flash = s.flash := rfl
@[simp] theorem State.onEng_mgmt (s : State) (lc : Nat) (e : Eng) (f : Engine → Engine) : (s.onEng lc e f).mgmt = s.mgmt := rfl
@[simp] theorem State.onEng_pwr (s : State) (lc : Nat) (e : Eng) (f : Engine → Engine) : (s.onEng lc e f).pwr = s.pwr := rfl
@[simp] theorem State.onEng_clk (s : State) (lc : Nat) (e : Eng) (f : Engine → Engine) : (s.onEng lc e f).clk = s.clk := rfl
@[simp] theorem State.onEng_thm (s : State) (lc : Nat) (e : Eng) (f : Engine → Engine) : (s.onEng lc e f).thm = s.thm := rfl
@[simp] theorem State.onEng_pins (s : State) (lc : Nat) (e : Eng) (f : Engine → Engine) : (s.onEng lc e f).pins = s.pins := rfl
@[simp] theorem State.onEng_free (s : State) (lc : Nat) (e : Eng) (f : Engine → Engine) : (s.onEng lc e f).free = s.free := rfl
@[simp] theorem State.onEng_pending (s : State) (lc : Nat) (e : Eng) (f : Engine → Engine) : (s.onEng lc e f).pending = s.pending := rfl

@[simp] theorem State.onQueue_mem (s : State) (lc n : Nat) (f : Queue → Queue) : (s.onQueue lc n f).mem = s.mem := rfl
@[simp] theorem State.onQueue_ports (s : State) (lc n : Nat) (f : Queue → Queue) : (s.onQueue lc n f).ports = s.ports := rfl
@[simp] theorem State.onQueue_optics (s : State) (lc n : Nat) (f : Queue → Queue) : (s.onQueue lc n f).optics = s.optics := rfl
@[simp] theorem State.onQueue_fab (s : State) (lc n : Nat) (f : Queue → Queue) : (s.onQueue lc n f).fab = s.fab := rfl
@[simp] theorem State.onQueue_host (s : State) (lc n : Nat) (f : Queue → Queue) : (s.onQueue lc n f).host = s.host := rfl
@[simp] theorem State.onQueue_jobs (s : State) (lc n : Nat) (f : Queue → Queue) : (s.onQueue lc n f).jobs = s.jobs := rfl
@[simp] theorem State.onQueue_cfg (s : State) (lc n : Nat) (f : Queue → Queue) : (s.onQueue lc n f).cfg = s.cfg := rfl
@[simp] theorem State.onQueue_sec (s : State) (lc n : Nat) (f : Queue → Queue) : (s.onQueue lc n f).sec = s.sec := rfl
@[simp] theorem State.onQueue_flash (s : State) (lc n : Nat) (f : Queue → Queue) : (s.onQueue lc n f).flash = s.flash := rfl
@[simp] theorem State.onQueue_mgmt (s : State) (lc n : Nat) (f : Queue → Queue) : (s.onQueue lc n f).mgmt = s.mgmt := rfl
@[simp] theorem State.onQueue_pwr (s : State) (lc n : Nat) (f : Queue → Queue) : (s.onQueue lc n f).pwr = s.pwr := rfl
@[simp] theorem State.onQueue_clk (s : State) (lc n : Nat) (f : Queue → Queue) : (s.onQueue lc n f).clk = s.clk := rfl
@[simp] theorem State.onQueue_thm (s : State) (lc n : Nat) (f : Queue → Queue) : (s.onQueue lc n f).thm = s.thm := rfl
@[simp] theorem State.onQueue_pins (s : State) (lc n : Nat) (f : Queue → Queue) : (s.onQueue lc n f).pins = s.pins := rfl
@[simp] theorem State.onQueue_free (s : State) (lc n : Nat) (f : Queue → Queue) : (s.onQueue lc n f).free = s.free := rfl
@[simp] theorem State.onQueue_pending (s : State) (lc n : Nat) (f : Queue → Queue) : (s.onQueue lc n f).pending = s.pending := rfl

@[simp] theorem State.onArray_mem (s : State) (lc : Nat) (a : Arr) (f : ArrayU → ArrayU) : (s.onArray lc a f).mem = s.mem := rfl
@[simp] theorem State.onArray_ports (s : State) (lc : Nat) (a : Arr) (f : ArrayU → ArrayU) : (s.onArray lc a f).ports = s.ports := rfl
@[simp] theorem State.onArray_optics (s : State) (lc : Nat) (a : Arr) (f : ArrayU → ArrayU) : (s.onArray lc a f).optics = s.optics := rfl
@[simp] theorem State.onArray_fab (s : State) (lc : Nat) (a : Arr) (f : ArrayU → ArrayU) : (s.onArray lc a f).fab = s.fab := rfl
@[simp] theorem State.onArray_host (s : State) (lc : Nat) (a : Arr) (f : ArrayU → ArrayU) : (s.onArray lc a f).host = s.host := rfl
@[simp] theorem State.onArray_jobs (s : State) (lc : Nat) (a : Arr) (f : ArrayU → ArrayU) : (s.onArray lc a f).jobs = s.jobs := rfl
@[simp] theorem State.onArray_cfg (s : State) (lc : Nat) (a : Arr) (f : ArrayU → ArrayU) : (s.onArray lc a f).cfg = s.cfg := rfl
@[simp] theorem State.onArray_sec (s : State) (lc : Nat) (a : Arr) (f : ArrayU → ArrayU) : (s.onArray lc a f).sec = s.sec := rfl
@[simp] theorem State.onArray_flash (s : State) (lc : Nat) (a : Arr) (f : ArrayU → ArrayU) : (s.onArray lc a f).flash = s.flash := rfl
@[simp] theorem State.onArray_mgmt (s : State) (lc : Nat) (a : Arr) (f : ArrayU → ArrayU) : (s.onArray lc a f).mgmt = s.mgmt := rfl
@[simp] theorem State.onArray_pwr (s : State) (lc : Nat) (a : Arr) (f : ArrayU → ArrayU) : (s.onArray lc a f).pwr = s.pwr := rfl
@[simp] theorem State.onArray_clk (s : State) (lc : Nat) (a : Arr) (f : ArrayU → ArrayU) : (s.onArray lc a f).clk = s.clk := rfl
@[simp] theorem State.onArray_thm (s : State) (lc : Nat) (a : Arr) (f : ArrayU → ArrayU) : (s.onArray lc a f).thm = s.thm := rfl
@[simp] theorem State.onArray_pins (s : State) (lc : Nat) (a : Arr) (f : ArrayU → ArrayU) : (s.onArray lc a f).pins = s.pins := rfl
@[simp] theorem State.onArray_free (s : State) (lc : Nat) (a : Arr) (f : ArrayU → ArrayU) : (s.onArray lc a f).free = s.free := rfl
@[simp] theorem State.onArray_pending (s : State) (lc : Nat) (a : Arr) (f : ArrayU → ArrayU) : (s.onArray lc a f).pending = s.pending := rfl

@[simp] theorem State.onDom_cores (s : State) (d : Nat) (f : Domain → Domain) : (s.onDom d f).cores = s.cores := rfl
@[simp] theorem State.onDom_mem (s : State) (d : Nat) (f : Domain → Domain) : (s.onDom d f).mem = s.mem := rfl
@[simp] theorem State.onDom_ports (s : State) (d : Nat) (f : Domain → Domain) : (s.onDom d f).ports = s.ports := rfl
@[simp] theorem State.onDom_optics (s : State) (d : Nat) (f : Domain → Domain) : (s.onDom d f).optics = s.optics := rfl
@[simp] theorem State.onDom_fab (s : State) (d : Nat) (f : Domain → Domain) : (s.onDom d f).fab = s.fab := rfl
@[simp] theorem State.onDom_host (s : State) (d : Nat) (f : Domain → Domain) : (s.onDom d f).host = s.host := rfl
@[simp] theorem State.onDom_jobs (s : State) (d : Nat) (f : Domain → Domain) : (s.onDom d f).jobs = s.jobs := rfl
@[simp] theorem State.onDom_cfg (s : State) (d : Nat) (f : Domain → Domain) : (s.onDom d f).cfg = s.cfg := rfl
@[simp] theorem State.onDom_sec (s : State) (d : Nat) (f : Domain → Domain) : (s.onDom d f).sec = s.sec := rfl
@[simp] theorem State.onDom_flash (s : State) (d : Nat) (f : Domain → Domain) : (s.onDom d f).flash = s.flash := rfl
@[simp] theorem State.onDom_mgmt (s : State) (d : Nat) (f : Domain → Domain) : (s.onDom d f).mgmt = s.mgmt := rfl
@[simp] theorem State.onDom_clk (s : State) (d : Nat) (f : Domain → Domain) : (s.onDom d f).clk = s.clk := rfl
@[simp] theorem State.onDom_thm (s : State) (d : Nat) (f : Domain → Domain) : (s.onDom d f).thm = s.thm := rfl
@[simp] theorem State.onDom_pins (s : State) (d : Nat) (f : Domain → Domain) : (s.onDom d f).pins = s.pins := rfl
@[simp] theorem State.onDom_free (s : State) (d : Nat) (f : Domain → Domain) : (s.onDom d f).free = s.free := rfl
@[simp] theorem State.onDom_pending (s : State) (d : Nat) (f : Domain → Domain) : (s.onDom d f).pending = s.pending := rfl

@[simp] theorem State.onPort_cores (s : State) (p : Nat) (f : Port → Port) : (s.onPort p f).cores = s.cores := rfl
@[simp] theorem State.onPort_mem (s : State) (p : Nat) (f : Port → Port) : (s.onPort p f).mem = s.mem := rfl
@[simp] theorem State.onPort_optics (s : State) (p : Nat) (f : Port → Port) : (s.onPort p f).optics = s.optics := rfl
@[simp] theorem State.onPort_fab (s : State) (p : Nat) (f : Port → Port) : (s.onPort p f).fab = s.fab := rfl
@[simp] theorem State.onPort_host (s : State) (p : Nat) (f : Port → Port) : (s.onPort p f).host = s.host := rfl
@[simp] theorem State.onPort_jobs (s : State) (p : Nat) (f : Port → Port) : (s.onPort p f).jobs = s.jobs := rfl
@[simp] theorem State.onPort_cfg (s : State) (p : Nat) (f : Port → Port) : (s.onPort p f).cfg = s.cfg := rfl
@[simp] theorem State.onPort_sec (s : State) (p : Nat) (f : Port → Port) : (s.onPort p f).sec = s.sec := rfl
@[simp] theorem State.onPort_flash (s : State) (p : Nat) (f : Port → Port) : (s.onPort p f).flash = s.flash := rfl
@[simp] theorem State.onPort_mgmt (s : State) (p : Nat) (f : Port → Port) : (s.onPort p f).mgmt = s.mgmt := rfl
@[simp] theorem State.onPort_pwr (s : State) (p : Nat) (f : Port → Port) : (s.onPort p f).pwr = s.pwr := rfl
@[simp] theorem State.onPort_clk (s : State) (p : Nat) (f : Port → Port) : (s.onPort p f).clk = s.clk := rfl
@[simp] theorem State.onPort_thm (s : State) (p : Nat) (f : Port → Port) : (s.onPort p f).thm = s.thm := rfl
@[simp] theorem State.onPort_pins (s : State) (p : Nat) (f : Port → Port) : (s.onPort p f).pins = s.pins := rfl
@[simp] theorem State.onPort_free (s : State) (p : Nat) (f : Port → Port) : (s.onPort p f).free = s.free := rfl
@[simp] theorem State.onPort_pending (s : State) (p : Nat) (f : Port → Port) : (s.onPort p f).pending = s.pending := rfl

@[simp] theorem State.onOptic_cores (s : State) (n : Nat) (f : Optic → Optic) : (s.onOptic n f).cores = s.cores := rfl
@[simp] theorem State.onOptic_mem (s : State) (n : Nat) (f : Optic → Optic) : (s.onOptic n f).mem = s.mem := rfl
@[simp] theorem State.onOptic_ports (s : State) (n : Nat) (f : Optic → Optic) : (s.onOptic n f).ports = s.ports := rfl
@[simp] theorem State.onOptic_fab (s : State) (n : Nat) (f : Optic → Optic) : (s.onOptic n f).fab = s.fab := rfl
@[simp] theorem State.onOptic_host (s : State) (n : Nat) (f : Optic → Optic) : (s.onOptic n f).host = s.host := rfl
@[simp] theorem State.onOptic_jobs (s : State) (n : Nat) (f : Optic → Optic) : (s.onOptic n f).jobs = s.jobs := rfl
@[simp] theorem State.onOptic_cfg (s : State) (n : Nat) (f : Optic → Optic) : (s.onOptic n f).cfg = s.cfg := rfl
@[simp] theorem State.onOptic_sec (s : State) (n : Nat) (f : Optic → Optic) : (s.onOptic n f).sec = s.sec := rfl
@[simp] theorem State.onOptic_flash (s : State) (n : Nat) (f : Optic → Optic) : (s.onOptic n f).flash = s.flash := rfl
@[simp] theorem State.onOptic_mgmt (s : State) (n : Nat) (f : Optic → Optic) : (s.onOptic n f).mgmt = s.mgmt := rfl
@[simp] theorem State.onOptic_pwr (s : State) (n : Nat) (f : Optic → Optic) : (s.onOptic n f).pwr = s.pwr := rfl
@[simp] theorem State.onOptic_clk (s : State) (n : Nat) (f : Optic → Optic) : (s.onOptic n f).clk = s.clk := rfl
@[simp] theorem State.onOptic_thm (s : State) (n : Nat) (f : Optic → Optic) : (s.onOptic n f).thm = s.thm := rfl
@[simp] theorem State.onOptic_pins (s : State) (n : Nat) (f : Optic → Optic) : (s.onOptic n f).pins = s.pins := rfl
@[simp] theorem State.onOptic_free (s : State) (n : Nat) (f : Optic → Optic) : (s.onOptic n f).free = s.free := rfl
@[simp] theorem State.onOptic_pending (s : State) (n : Nat) (f : Optic → Optic) : (s.onOptic n f).pending = s.pending := rfl

@[simp] theorem State.onSlice_cores (s : State) (n : Nat) (f : Slice → Slice) : (s.onSlice n f).cores = s.cores := rfl
@[simp] theorem State.onSlice_ports (s : State) (n : Nat) (f : Slice → Slice) : (s.onSlice n f).ports = s.ports := rfl
@[simp] theorem State.onSlice_optics (s : State) (n : Nat) (f : Slice → Slice) : (s.onSlice n f).optics = s.optics := rfl
@[simp] theorem State.onSlice_fab (s : State) (n : Nat) (f : Slice → Slice) : (s.onSlice n f).fab = s.fab := rfl
@[simp] theorem State.onSlice_host (s : State) (n : Nat) (f : Slice → Slice) : (s.onSlice n f).host = s.host := rfl
@[simp] theorem State.onSlice_jobs (s : State) (n : Nat) (f : Slice → Slice) : (s.onSlice n f).jobs = s.jobs := rfl
@[simp] theorem State.onSlice_cfg (s : State) (n : Nat) (f : Slice → Slice) : (s.onSlice n f).cfg = s.cfg := rfl
@[simp] theorem State.onSlice_sec (s : State) (n : Nat) (f : Slice → Slice) : (s.onSlice n f).sec = s.sec := rfl
@[simp] theorem State.onSlice_flash (s : State) (n : Nat) (f : Slice → Slice) : (s.onSlice n f).flash = s.flash := rfl
@[simp] theorem State.onSlice_mgmt (s : State) (n : Nat) (f : Slice → Slice) : (s.onSlice n f).mgmt = s.mgmt := rfl
@[simp] theorem State.onSlice_pwr (s : State) (n : Nat) (f : Slice → Slice) : (s.onSlice n f).pwr = s.pwr := rfl
@[simp] theorem State.onSlice_clk (s : State) (n : Nat) (f : Slice → Slice) : (s.onSlice n f).clk = s.clk := rfl
@[simp] theorem State.onSlice_thm (s : State) (n : Nat) (f : Slice → Slice) : (s.onSlice n f).thm = s.thm := rfl
@[simp] theorem State.onSlice_pins (s : State) (n : Nat) (f : Slice → Slice) : (s.onSlice n f).pins = s.pins := rfl
@[simp] theorem State.onSlice_free (s : State) (n : Nat) (f : Slice → Slice) : (s.onSlice n f).free = s.free := rfl
@[simp] theorem State.onSlice_pending (s : State) (n : Nat) (f : Slice → Slice) : (s.onSlice n f).pending = s.pending := rfl

@[simp] theorem State.onStk_cores (s : State) (n : Nat) (f : Stack → Stack) : (s.onStk n f).cores = s.cores := rfl
@[simp] theorem State.onStk_ports (s : State) (n : Nat) (f : Stack → Stack) : (s.onStk n f).ports = s.ports := rfl
@[simp] theorem State.onStk_optics (s : State) (n : Nat) (f : Stack → Stack) : (s.onStk n f).optics = s.optics := rfl
@[simp] theorem State.onStk_fab (s : State) (n : Nat) (f : Stack → Stack) : (s.onStk n f).fab = s.fab := rfl
@[simp] theorem State.onStk_host (s : State) (n : Nat) (f : Stack → Stack) : (s.onStk n f).host = s.host := rfl
@[simp] theorem State.onStk_jobs (s : State) (n : Nat) (f : Stack → Stack) : (s.onStk n f).jobs = s.jobs := rfl
@[simp] theorem State.onStk_cfg (s : State) (n : Nat) (f : Stack → Stack) : (s.onStk n f).cfg = s.cfg := rfl
@[simp] theorem State.onStk_sec (s : State) (n : Nat) (f : Stack → Stack) : (s.onStk n f).sec = s.sec := rfl
@[simp] theorem State.onStk_flash (s : State) (n : Nat) (f : Stack → Stack) : (s.onStk n f).flash = s.flash := rfl
@[simp] theorem State.onStk_mgmt (s : State) (n : Nat) (f : Stack → Stack) : (s.onStk n f).mgmt = s.mgmt := rfl
@[simp] theorem State.onStk_pwr (s : State) (n : Nat) (f : Stack → Stack) : (s.onStk n f).pwr = s.pwr := rfl
@[simp] theorem State.onStk_clk (s : State) (n : Nat) (f : Stack → Stack) : (s.onStk n f).clk = s.clk := rfl
@[simp] theorem State.onStk_thm (s : State) (n : Nat) (f : Stack → Stack) : (s.onStk n f).thm = s.thm := rfl
@[simp] theorem State.onStk_pins (s : State) (n : Nat) (f : Stack → Stack) : (s.onStk n f).pins = s.pins := rfl
@[simp] theorem State.onStk_free (s : State) (n : Nat) (f : Stack → Stack) : (s.onStk n f).free = s.free := rfl
@[simp] theorem State.onStk_pending (s : State) (n : Nat) (f : Stack → Stack) : (s.onStk n f).pending = s.pending := rfl

@[simp] theorem State.onFlow_cores (s : State) (n : Nat) (f : Flow → Flow) : (s.onFlow n f).cores = s.cores := rfl
@[simp] theorem State.onFlow_mem (s : State) (n : Nat) (f : Flow → Flow) : (s.onFlow n f).mem = s.mem := rfl
@[simp] theorem State.onFlow_ports (s : State) (n : Nat) (f : Flow → Flow) : (s.onFlow n f).ports = s.ports := rfl
@[simp] theorem State.onFlow_optics (s : State) (n : Nat) (f : Flow → Flow) : (s.onFlow n f).optics = s.optics := rfl
@[simp] theorem State.onFlow_host (s : State) (n : Nat) (f : Flow → Flow) : (s.onFlow n f).host = s.host := rfl
@[simp] theorem State.onFlow_jobs (s : State) (n : Nat) (f : Flow → Flow) : (s.onFlow n f).jobs = s.jobs := rfl
@[simp] theorem State.onFlow_cfg (s : State) (n : Nat) (f : Flow → Flow) : (s.onFlow n f).cfg = s.cfg := rfl
@[simp] theorem State.onFlow_sec (s : State) (n : Nat) (f : Flow → Flow) : (s.onFlow n f).sec = s.sec := rfl
@[simp] theorem State.onFlow_flash (s : State) (n : Nat) (f : Flow → Flow) : (s.onFlow n f).flash = s.flash := rfl
@[simp] theorem State.onFlow_mgmt (s : State) (n : Nat) (f : Flow → Flow) : (s.onFlow n f).mgmt = s.mgmt := rfl
@[simp] theorem State.onFlow_pwr (s : State) (n : Nat) (f : Flow → Flow) : (s.onFlow n f).pwr = s.pwr := rfl
@[simp] theorem State.onFlow_clk (s : State) (n : Nat) (f : Flow → Flow) : (s.onFlow n f).clk = s.clk := rfl
@[simp] theorem State.onFlow_thm (s : State) (n : Nat) (f : Flow → Flow) : (s.onFlow n f).thm = s.thm := rfl
@[simp] theorem State.onFlow_pins (s : State) (n : Nat) (f : Flow → Flow) : (s.onFlow n f).pins = s.pins := rfl
@[simp] theorem State.onFlow_free (s : State) (n : Nat) (f : Flow → Flow) : (s.onFlow n f).free = s.free := rfl
@[simp] theorem State.onFlow_pending (s : State) (n : Nat) (f : Flow → Flow) : (s.onFlow n f).pending = s.pending := rfl

@[simp] theorem State.onColl_cores (s : State) (n : BitVec 20) (f : Coll → Coll) : (s.onColl n f).cores = s.cores := rfl
@[simp] theorem State.onColl_mem (s : State) (n : BitVec 20) (f : Coll → Coll) : (s.onColl n f).mem = s.mem := rfl
@[simp] theorem State.onColl_ports (s : State) (n : BitVec 20) (f : Coll → Coll) : (s.onColl n f).ports = s.ports := rfl
@[simp] theorem State.onColl_optics (s : State) (n : BitVec 20) (f : Coll → Coll) : (s.onColl n f).optics = s.optics := rfl
@[simp] theorem State.onColl_host (s : State) (n : BitVec 20) (f : Coll → Coll) : (s.onColl n f).host = s.host := rfl
@[simp] theorem State.onColl_jobs (s : State) (n : BitVec 20) (f : Coll → Coll) : (s.onColl n f).jobs = s.jobs := rfl
@[simp] theorem State.onColl_cfg (s : State) (n : BitVec 20) (f : Coll → Coll) : (s.onColl n f).cfg = s.cfg := rfl
@[simp] theorem State.onColl_sec (s : State) (n : BitVec 20) (f : Coll → Coll) : (s.onColl n f).sec = s.sec := rfl
@[simp] theorem State.onColl_flash (s : State) (n : BitVec 20) (f : Coll → Coll) : (s.onColl n f).flash = s.flash := rfl
@[simp] theorem State.onColl_mgmt (s : State) (n : BitVec 20) (f : Coll → Coll) : (s.onColl n f).mgmt = s.mgmt := rfl
@[simp] theorem State.onColl_pwr (s : State) (n : BitVec 20) (f : Coll → Coll) : (s.onColl n f).pwr = s.pwr := rfl
@[simp] theorem State.onColl_clk (s : State) (n : BitVec 20) (f : Coll → Coll) : (s.onColl n f).clk = s.clk := rfl
@[simp] theorem State.onColl_thm (s : State) (n : BitVec 20) (f : Coll → Coll) : (s.onColl n f).thm = s.thm := rfl
@[simp] theorem State.onColl_pins (s : State) (n : BitVec 20) (f : Coll → Coll) : (s.onColl n f).pins = s.pins := rfl
@[simp] theorem State.onColl_free (s : State) (n : BitVec 20) (f : Coll → Coll) : (s.onColl n f).free = s.free := rfl
@[simp] theorem State.onColl_pending (s : State) (n : BitVec 20) (f : Coll → Coll) : (s.onColl n f).pending = s.pending := rfl

@[simp] theorem State.onPair_cores (s : State) (n : Nat) (f : Pair → Pair) : (s.onPair n f).cores = s.cores := rfl
@[simp] theorem State.onPair_mem (s : State) (n : Nat) (f : Pair → Pair) : (s.onPair n f).mem = s.mem := rfl
@[simp] theorem State.onPair_ports (s : State) (n : Nat) (f : Pair → Pair) : (s.onPair n f).ports = s.ports := rfl
@[simp] theorem State.onPair_optics (s : State) (n : Nat) (f : Pair → Pair) : (s.onPair n f).optics = s.optics := rfl
@[simp] theorem State.onPair_fab (s : State) (n : Nat) (f : Pair → Pair) : (s.onPair n f).fab = s.fab := rfl
@[simp] theorem State.onPair_jobs (s : State) (n : Nat) (f : Pair → Pair) : (s.onPair n f).jobs = s.jobs := rfl
@[simp] theorem State.onPair_cfg (s : State) (n : Nat) (f : Pair → Pair) : (s.onPair n f).cfg = s.cfg := rfl
@[simp] theorem State.onPair_sec (s : State) (n : Nat) (f : Pair → Pair) : (s.onPair n f).sec = s.sec := rfl
@[simp] theorem State.onPair_flash (s : State) (n : Nat) (f : Pair → Pair) : (s.onPair n f).flash = s.flash := rfl
@[simp] theorem State.onPair_mgmt (s : State) (n : Nat) (f : Pair → Pair) : (s.onPair n f).mgmt = s.mgmt := rfl
@[simp] theorem State.onPair_pwr (s : State) (n : Nat) (f : Pair → Pair) : (s.onPair n f).pwr = s.pwr := rfl
@[simp] theorem State.onPair_clk (s : State) (n : Nat) (f : Pair → Pair) : (s.onPair n f).clk = s.clk := rfl
@[simp] theorem State.onPair_thm (s : State) (n : Nat) (f : Pair → Pair) : (s.onPair n f).thm = s.thm := rfl
@[simp] theorem State.onPair_pins (s : State) (n : Nat) (f : Pair → Pair) : (s.onPair n f).pins = s.pins := rfl
@[simp] theorem State.onPair_free (s : State) (n : Nat) (f : Pair → Pair) : (s.onPair n f).free = s.free := rfl
@[simp] theorem State.onPair_pending (s : State) (n : Nat) (f : Pair → Pair) : (s.onPair n f).pending = s.pending := rfl

@[simp] theorem State.onJob_cores (s : State) (n : Nat) (f : Job → Job) : (s.onJob n f).cores = s.cores := rfl
@[simp] theorem State.onJob_mem (s : State) (n : Nat) (f : Job → Job) : (s.onJob n f).mem = s.mem := rfl
@[simp] theorem State.onJob_ports (s : State) (n : Nat) (f : Job → Job) : (s.onJob n f).ports = s.ports := rfl
@[simp] theorem State.onJob_optics (s : State) (n : Nat) (f : Job → Job) : (s.onJob n f).optics = s.optics := rfl
@[simp] theorem State.onJob_fab (s : State) (n : Nat) (f : Job → Job) : (s.onJob n f).fab = s.fab := rfl
@[simp] theorem State.onJob_host (s : State) (n : Nat) (f : Job → Job) : (s.onJob n f).host = s.host := rfl
@[simp] theorem State.onJob_cfg (s : State) (n : Nat) (f : Job → Job) : (s.onJob n f).cfg = s.cfg := rfl
@[simp] theorem State.onJob_sec (s : State) (n : Nat) (f : Job → Job) : (s.onJob n f).sec = s.sec := rfl
@[simp] theorem State.onJob_flash (s : State) (n : Nat) (f : Job → Job) : (s.onJob n f).flash = s.flash := rfl
@[simp] theorem State.onJob_mgmt (s : State) (n : Nat) (f : Job → Job) : (s.onJob n f).mgmt = s.mgmt := rfl
@[simp] theorem State.onJob_pwr (s : State) (n : Nat) (f : Job → Job) : (s.onJob n f).pwr = s.pwr := rfl
@[simp] theorem State.onJob_clk (s : State) (n : Nat) (f : Job → Job) : (s.onJob n f).clk = s.clk := rfl
@[simp] theorem State.onJob_thm (s : State) (n : Nat) (f : Job → Job) : (s.onJob n f).thm = s.thm := rfl
@[simp] theorem State.onJob_pins (s : State) (n : Nat) (f : Job → Job) : (s.onJob n f).pins = s.pins := rfl
@[simp] theorem State.onJob_free (s : State) (n : Nat) (f : Job → Job) : (s.onJob n f).free = s.free := rfl
@[simp] theorem State.onJob_pending (s : State) (n : Nat) (f : Job → Job) : (s.onJob n f).pending = s.pending := rfl

@[simp] theorem State.onSQueue_cores (s : State) (n : Nat) (f : SQueue → SQueue) : (s.onSQueue n f).cores = s.cores := rfl
@[simp] theorem State.onSQueue_mem (s : State) (n : Nat) (f : SQueue → SQueue) : (s.onSQueue n f).mem = s.mem := rfl
@[simp] theorem State.onSQueue_ports (s : State) (n : Nat) (f : SQueue → SQueue) : (s.onSQueue n f).ports = s.ports := rfl
@[simp] theorem State.onSQueue_optics (s : State) (n : Nat) (f : SQueue → SQueue) : (s.onSQueue n f).optics = s.optics := rfl
@[simp] theorem State.onSQueue_fab (s : State) (n : Nat) (f : SQueue → SQueue) : (s.onSQueue n f).fab = s.fab := rfl
@[simp] theorem State.onSQueue_host (s : State) (n : Nat) (f : SQueue → SQueue) : (s.onSQueue n f).host = s.host := rfl
@[simp] theorem State.onSQueue_cfg (s : State) (n : Nat) (f : SQueue → SQueue) : (s.onSQueue n f).cfg = s.cfg := rfl
@[simp] theorem State.onSQueue_sec (s : State) (n : Nat) (f : SQueue → SQueue) : (s.onSQueue n f).sec = s.sec := rfl
@[simp] theorem State.onSQueue_flash (s : State) (n : Nat) (f : SQueue → SQueue) : (s.onSQueue n f).flash = s.flash := rfl
@[simp] theorem State.onSQueue_mgmt (s : State) (n : Nat) (f : SQueue → SQueue) : (s.onSQueue n f).mgmt = s.mgmt := rfl
@[simp] theorem State.onSQueue_pwr (s : State) (n : Nat) (f : SQueue → SQueue) : (s.onSQueue n f).pwr = s.pwr := rfl
@[simp] theorem State.onSQueue_clk (s : State) (n : Nat) (f : SQueue → SQueue) : (s.onSQueue n f).clk = s.clk := rfl
@[simp] theorem State.onSQueue_thm (s : State) (n : Nat) (f : SQueue → SQueue) : (s.onSQueue n f).thm = s.thm := rfl
@[simp] theorem State.onSQueue_pins (s : State) (n : Nat) (f : SQueue → SQueue) : (s.onSQueue n f).pins = s.pins := rfl
@[simp] theorem State.onSQueue_free (s : State) (n : Nat) (f : SQueue → SQueue) : (s.onSQueue n f).free = s.free := rfl
@[simp] theorem State.onSQueue_pending (s : State) (n : Nat) (f : SQueue → SQueue) : (s.onSQueue n f).pending = s.pending := rfl

@[simp] theorem State.at_cores (s : State) (t : Nat) : (s.at_ t).cores = s.cores := rfl
@[simp] theorem State.at_mem (s : State) (t : Nat) : (s.at_ t).mem = s.mem := rfl
@[simp] theorem State.at_ports (s : State) (t : Nat) : (s.at_ t).ports = s.ports := rfl
@[simp] theorem State.at_optics (s : State) (t : Nat) : (s.at_ t).optics = s.optics := rfl
@[simp] theorem State.at_fab (s : State) (t : Nat) : (s.at_ t).fab = s.fab := rfl
@[simp] theorem State.at_host (s : State) (t : Nat) : (s.at_ t).host = s.host := rfl
@[simp] theorem State.at_jobs (s : State) (t : Nat) : (s.at_ t).jobs = s.jobs := rfl
@[simp] theorem State.at_cfg (s : State) (t : Nat) : (s.at_ t).cfg = s.cfg := rfl
@[simp] theorem State.at_sec (s : State) (t : Nat) : (s.at_ t).sec = s.sec := rfl
@[simp] theorem State.at_flash (s : State) (t : Nat) : (s.at_ t).flash = s.flash := rfl
@[simp] theorem State.at_mgmt (s : State) (t : Nat) : (s.at_ t).mgmt = s.mgmt := rfl
@[simp] theorem State.at_pwr (s : State) (t : Nat) : (s.at_ t).pwr = s.pwr := rfl
@[simp] theorem State.at_thm (s : State) (t : Nat) : (s.at_ t).thm = s.thm := rfl
@[simp] theorem State.at_pins (s : State) (t : Nat) : (s.at_ t).pins = s.pins := rfl
@[simp] theorem State.at_free (s : State) (t : Nat) : (s.at_ t).free = s.free := rfl
@[simp] theorem State.at_pending (s : State) (t : Nat) : (s.at_ t).pending = s.pending := rfl

/-! ### Parts within a part -/

@[simp] theorem State.onDom_pwr_inputW (s : State) (d : Nat) (f : Domain → Domain) : (s.onDom d f).pwr.inputW = s.pwr.inputW := rfl
@[simp] theorem State.onDom_pwr_bubble (s : State) (d : Nat) (f : Domain → Domain) : (s.onDom d f).pwr.bubble = s.pwr.bubble := rfl
@[simp] theorem State.onDom_pwr_peak (s : State) (d : Nat) (f : Domain → Domain) : (s.onDom d f).pwr.peak = s.pwr.peak := rfl
@[simp] theorem State.onDom_pwr_tilesBad (s : State) (d : Nat) (f : Domain → Domain) : (s.onDom d f).pwr.tilesBad = s.pwr.tilesBad := rfl
@[simp] theorem State.onDom_pwr_tiles (s : State) (d : Nat) (f : Domain → Domain) : (s.onDom d f).pwr.tiles = s.pwr.tiles := rfl
@[simp] theorem State.onDom_pwr_tileW (s : State) (d : Nat) (f : Domain → Domain) : (s.onDom d f).pwr.tileW = s.pwr.tileW := rfl
@[simp] theorem State.onDom_pwr_inputMv (s : State) (d : Nat) (f : Domain → Domain) : (s.onDom d f).pwr.inputMv = s.pwr.inputMv := rfl
@[simp] theorem State.onDom_pwr_energyUj (s : State) (d : Nat) (f : Domain → Domain) : (s.onDom d f).pwr.energyUj = s.pwr.energyUj := rfl
@[simp] theorem State.onDom_pwr_damperUs (s : State) (d : Nat) (f : Domain → Domain) : (s.onDom d f).pwr.damperUs = s.pwr.damperUs := rfl
@[simp] theorem State.onDom_pwr_energyHi (s : State) (d : Nat) (f : Domain → Domain) : (s.onDom d f).pwr.energyHi = s.pwr.energyHi := rfl
@[simp] theorem State.onDom_pwr_damperHi (s : State) (d : Nat) (f : Domain → Domain) : (s.onDom d f).pwr.damperHi = s.pwr.damperHi := rfl
@[simp] theorem State.onDom_pwr_alwaysOn (s : State) (d : Nat) (f : Domain → Domain) : (s.onDom d f).pwr.alwaysOn = s.pwr.alwaysOn := rfl
@[simp] theorem State.onDom_pwr_sampledAt (s : State) (d : Nat) (f : Domain → Domain) : (s.onDom d f).pwr.sampledAt = s.pwr.sampledAt := rfl
@[simp] theorem State.onDom_pwr_savedAt (s : State) (d : Nat) (f : Domain → Domain) : (s.onDom d f).pwr.savedAt = s.pwr.savedAt := rfl
@[simp] theorem State.onSlice_mem_dram (s : State) (n : Nat) (f : Slice → Slice) : (s.onSlice n f).mem.dram = s.mem.dram := rfl
@[simp] theorem State.onSlice_mem_lost (s : State) (n : Nat) (f : Slice → Slice) : (s.onSlice n f).mem.lost = s.mem.lost := rfl
@[simp] theorem State.onSlice_mem_losses (s : State) (n : Nat) (f : Slice → Slice) : (s.onSlice n f).mem.losses = s.mem.losses := rfl
@[simp] theorem State.onSlice_mem_since (s : State) (n : Nat) (f : Slice → Slice) : (s.onSlice n f).mem.since = s.mem.since := rfl
@[simp] theorem State.onSlice_mem_poison (s : State) (n : Nat) (f : Slice → Slice) : (s.onSlice n f).mem.poison = s.mem.poison := rfl
@[simp] theorem State.onSlice_mem_cond (s : State) (n : Nat) (f : Slice → Slice) : (s.onSlice n f).mem.cond = s.mem.cond := rfl
@[simp] theorem State.onSlice_mem_stks (s : State) (n : Nat) (f : Slice → Slice) : (s.onSlice n f).mem.stks = s.mem.stks := rfl
@[simp] theorem State.onSlice_mem_pendPeak (s : State) (n : Nat) (f : Slice → Slice) : (s.onSlice n f).mem.pendPeak = s.mem.pendPeak := rfl
@[simp] theorem State.onSlice_mem_waiting (s : State) (n : Nat) (f : Slice → Slice) : (s.onSlice n f).mem.waiting = s.mem.waiting := rfl
@[simp] theorem State.onSlice_mem_delivered (s : State) (n : Nat) (f : Slice → Slice) : (s.onSlice n f).mem.delivered = s.mem.delivered := rfl
@[simp] theorem State.onStk_mem_dram (s : State) (n : Nat) (f : Stack → Stack) : (s.onStk n f).mem.dram = s.mem.dram := rfl
@[simp] theorem State.onStk_mem_lost (s : State) (n : Nat) (f : Stack → Stack) : (s.onStk n f).mem.lost = s.mem.lost := rfl
@[simp] theorem State.onStk_mem_losses (s : State) (n : Nat) (f : Stack → Stack) : (s.onStk n f).mem.losses = s.mem.losses := rfl
@[simp] theorem State.onStk_mem_since (s : State) (n : Nat) (f : Stack → Stack) : (s.onStk n f).mem.since = s.mem.since := rfl
@[simp] theorem State.onStk_mem_poison (s : State) (n : Nat) (f : Stack → Stack) : (s.onStk n f).mem.poison = s.mem.poison := rfl
@[simp] theorem State.onStk_mem_cond (s : State) (n : Nat) (f : Stack → Stack) : (s.onStk n f).mem.cond = s.mem.cond := rfl
@[simp] theorem State.onStk_mem_slices (s : State) (n : Nat) (f : Stack → Stack) : (s.onStk n f).mem.slices = s.mem.slices := rfl
@[simp] theorem State.onStk_mem_pendPeak (s : State) (n : Nat) (f : Stack → Stack) : (s.onStk n f).mem.pendPeak = s.mem.pendPeak := rfl
@[simp] theorem State.onStk_mem_waiting (s : State) (n : Nat) (f : Stack → Stack) : (s.onStk n f).mem.waiting = s.mem.waiting := rfl
@[simp] theorem State.onStk_mem_delivered (s : State) (n : Nat) (f : Stack → Stack) : (s.onStk n f).mem.delivered = s.mem.delivered := rfl
@[simp] theorem State.onFlow_fab_loc (s : State) (n : Nat) (f : Flow → Flow) : (s.onFlow n f).fab.loc = s.fab.loc := rfl
@[simp] theorem State.onFlow_fab_locNext (s : State) (n : Nat) (f : Flow → Flow) : (s.onFlow n f).fab.locNext = s.fab.locNext := rfl
@[simp] theorem State.onFlow_fab_colls (s : State) (n : Nat) (f : Flow → Flow) : (s.onFlow n f).fab.colls = s.fab.colls := rfl
@[simp] theorem State.onFlow_fab_handles (s : State) (n : Nat) (f : Flow → Flow) : (s.onFlow n f).fab.handles = s.fab.handles := rfl
@[simp] theorem State.onFlow_fab_peers (s : State) (n : Nat) (f : Flow → Flow) : (s.onFlow n f).fab.peers = s.fab.peers := rfl
@[simp] theorem State.onFlow_fab_setupRefused (s : State) (n : Nat) (f : Flow → Flow) : (s.onFlow n f).fab.setupRefused = s.fab.setupRefused := rfl
@[simp] theorem State.onFlow_fab_evicted (s : State) (n : Nat) (f : Flow → Flow) : (s.onFlow n f).fab.evicted = s.fab.evicted := rfl
@[simp] theorem State.onFlow_fab_aged (s : State) (n : Nat) (f : Flow → Flow) : (s.onFlow n f).fab.aged = s.fab.aged := rfl
@[simp] theorem State.onFlow_fab_hits (s : State) (n : Nat) (f : Flow → Flow) : (s.onFlow n f).fab.hits = s.fab.hits := rfl
@[simp] theorem State.onFlow_fab_misses (s : State) (n : Nat) (f : Flow → Flow) : (s.onFlow n f).fab.misses = s.fab.misses := rfl
@[simp] theorem State.onFlow_fab_retx (s : State) (n : Nat) (f : Flow → Flow) : (s.onFlow n f).fab.retx = s.fab.retx := rfl
@[simp] theorem State.onFlow_fab_rtos (s : State) (n : Nat) (f : Flow → Flow) : (s.onFlow n f).fab.rtos = s.fab.rtos := rfl
@[simp] theorem State.onFlow_fab_mc3Restarting (s : State) (n : Nat) (f : Flow → Flow) : (s.onFlow n f).fab.mc3Restarting = s.fab.mc3Restarting := rfl
@[simp] theorem State.onFlow_fab_ptpLocked (s : State) (n : Nat) (f : Flow → Flow) : (s.onFlow n f).fab.ptpLocked = s.fab.ptpLocked := rfl
@[simp] theorem State.onFlow_fab_slavePort (s : State) (n : Nat) (f : Flow → Flow) : (s.onFlow n f).fab.slavePort = s.fab.slavePort := rfl
@[simp] theorem State.onFlow_fab_holdover (s : State) (n : Nat) (f : Flow → Flow) : (s.onFlow n f).fab.holdover = s.fab.holdover := rfl
@[simp] theorem State.onFlow_fab_masters (s : State) (n : Nat) (f : Flow → Flow) : (s.onFlow n f).fab.masters = s.fab.masters := rfl
@[simp] theorem State.onFlow_fab_ptpOffset (s : State) (n : Nat) (f : Flow → Flow) : (s.onFlow n f).fab.ptpOffset = s.fab.ptpOffset := rfl
@[simp] theorem State.onFlow_fab_ptpGood (s : State) (n : Nat) (f : Flow → Flow) : (s.onFlow n f).fab.ptpGood = s.fab.ptpGood := rfl
@[simp] theorem State.onFlow_fab_lastSync (s : State) (n : Nat) (f : Flow → Flow) : (s.onFlow n f).fab.lastSync = s.fab.lastSync := rfl
@[simp] theorem State.onFlow_fab_ptpStamps (s : State) (n : Nat) (f : Flow → Flow) : (s.onFlow n f).fab.ptpStamps = s.fab.ptpStamps := rfl
@[simp] theorem State.onPair_host_linkUp (s : State) (n : Nat) (f : Pair → Pair) : (s.onPair n f).host.linkUp = s.host.linkUp := rfl
@[simp] theorem State.onPair_host_rate (s : State) (n : Nat) (f : Pair → Pair) : (s.onPair n f).host.rate = s.host.rate := rfl
@[simp] theorem State.onPair_host_x8 (s : State) (n : Nat) (f : Pair → Pair) : (s.onPair n f).host.x8 = s.host.x8 := rfl
@[simp] theorem State.onPair_host_flit256 (s : State) (n : Nat) (f : Pair → Pair) : (s.onPair n f).host.flit256 = s.host.flit256 := rfl
@[simp] theorem State.onPair_host_pcie (s : State) (n : Nat) (f : Pair → Pair) : (s.onPair n f).host.pcie = s.host.pcie := rfl
@[simp] theorem State.onPair_host_cacheEn (s : State) (n : Nat) (f : Pair → Pair) : (s.onPair n f).host.cacheEn = s.host.cacheEn := rfl
@[simp] theorem State.onPair_host_memActive (s : State) (n : Nat) (f : Pair → Pair) : (s.onPair n f).host.memActive = s.host.memActive := rfl
@[simp] theorem State.onPair_host_dec0 (s : State) (n : Nat) (f : Pair → Pair) : (s.onPair n f).host.dec0 = s.host.dec0 := rfl
@[simp] theorem State.onPair_host_dec1 (s : State) (n : Nat) (f : Pair → Pair) : (s.onPair n f).host.dec1 = s.host.dec1 := rfl
@[simp] theorem State.onPair_host_bisnpCount (s : State) (n : Nat) (f : Pair → Pair) : (s.onPair n f).host.bisnpCount = s.host.bisnpCount := rfl
@[simp] theorem State.onPair_host_msixTable (s : State) (n : Nat) (f : Pair → Pair) : (s.onPair n f).host.msixTable = s.host.msixTable := rfl
@[simp] theorem State.onPair_host_msixPend (s : State) (n : Nat) (f : Pair → Pair) : (s.onPair n f).host.msixPend = s.host.msixPend := rfl
@[simp] theorem State.onPair_host_held (s : State) (n : Nat) (f : Pair → Pair) : (s.onPair n f).host.held = s.host.held := rfl
@[simp] theorem State.onPair_host_faultsMerged (s : State) (n : Nat) (f : Pair → Pair) : (s.onPair n f).host.faultsMerged = s.host.faultsMerged := rfl
@[simp] theorem State.onPair_host_hostState (s : State) (n : Nat) (f : Pair → Pair) : (s.onPair n f).host.hostState = s.host.hostState := rfl
@[simp] theorem State.onPair_host_lastMsg (s : State) (n : Nat) (f : Pair → Pair) : (s.onPair n f).host.lastMsg = s.host.lastMsg := rfl
@[simp] theorem State.onPair_host_absentAt (s : State) (n : Nat) (f : Pair → Pair) : (s.onPair n f).host.absentAt = s.host.absentAt := rfl
@[simp] theorem State.onPair_host_apts (s : State) (n : Nat) (f : Pair → Pair) : (s.onPair n f).host.apts = s.host.apts := rfl
@[simp] theorem State.onPair_host_out (s : State) (n : Nat) (f : Pair → Pair) : (s.onPair n f).host.out = s.host.out := rfl
@[simp] theorem State.onPair_host_mem (s : State) (n : Nat) (f : Pair → Pair) : (s.onPair n f).host.mem = s.host.mem := rfl
@[simp] theorem State.onJob_jobs_queues (s : State) (n : Nat) (f : Job → Job) : (s.onJob n f).jobs.queues = s.jobs.queues := rfl
@[simp] theorem State.onJob_jobs_lastServed (s : State) (n : Nat) (f : Job → Job) : (s.onJob n f).jobs.lastServed = s.jobs.lastServed := rfl
@[simp] theorem State.onSQueue_jobs_jobs (s : State) (n : Nat) (f : SQueue → SQueue) : (s.onSQueue n f).jobs.jobs = s.jobs.jobs := rfl
@[simp] theorem State.onSQueue_jobs_lastServed (s : State) (n : Nat) (f : SQueue → SQueue) : (s.onSQueue n f).jobs.lastServed = s.jobs.lastServed := rfl

/-! ### Reads after updates -/

/-- port: the entry changed, once its table is canonical, and every other as it was. -/
@[simp] theorem State.port_onPort (s : State) (n : Nat) (f : Port → Port) (h : Tbl.wf {} s.ports = true) :
    (s.onPort n f).port n = f (s.port n) := Tbl.get_upd_same ({} : Port) s.ports n f h
@[simp] theorem State.port_onPort_other (s : State) (n m : Nat) (f : Port → Port) (h : m ≠ n) :
    (s.onPort n f).port m = s.port m := Tbl.get_upd_other ({} : Port) s.ports n m f h
/-- optic: the entry changed, once its table is canonical, and every other as it was. -/
@[simp] theorem State.optic_onOptic (s : State) (n : Nat) (f : Optic → Optic) (h : Tbl.wf {} s.optics = true) :
    (s.onOptic n f).optic n = f (s.optic n) := Tbl.get_upd_same ({} : Optic) s.optics n f h
@[simp] theorem State.optic_onOptic_other (s : State) (n m : Nat) (f : Optic → Optic) (h : m ≠ n) :
    (s.onOptic n f).optic m = s.optic m := Tbl.get_upd_other ({} : Optic) s.optics n m f h
/-- slice: the entry changed, once its table is canonical, and every other as it was. -/
@[simp] theorem State.slice_onSlice (s : State) (n : Nat) (f : Slice → Slice) (h : Tbl.wf {} s.mem.slices = true) :
    (s.onSlice n f).slice n = f (s.slice n) := Tbl.get_upd_same ({} : Slice) s.mem.slices n f h
@[simp] theorem State.slice_onSlice_other (s : State) (n m : Nat) (f : Slice → Slice) (h : m ≠ n) :
    (s.onSlice n f).slice m = s.slice m := Tbl.get_upd_other ({} : Slice) s.mem.slices n m f h
/-- stk: the entry changed, once its table is canonical, and every other as it was. -/
@[simp] theorem State.stk_onStk (s : State) (n : Nat) (f : Stack → Stack) (h : Tbl.wf {} s.mem.stks = true) :
    (s.onStk n f).stk n = f (s.stk n) := Tbl.get_upd_same ({} : Stack) s.mem.stks n f h
@[simp] theorem State.stk_onStk_other (s : State) (n m : Nat) (f : Stack → Stack) (h : m ≠ n) :
    (s.onStk n f).stk m = s.stk m := Tbl.get_upd_other ({} : Stack) s.mem.stks n m f h
/-- flow: the entry changed, once its table is canonical, and every other as it was. -/
@[simp] theorem State.flow_onFlow (s : State) (n : Nat) (f : Flow → Flow) (h : Tbl.wf {} s.fab.flows = true) :
    (s.onFlow n f).flow n = f (s.flow n) := Tbl.get_upd_same ({} : Flow) s.fab.flows n f h
@[simp] theorem State.flow_onFlow_other (s : State) (n m : Nat) (f : Flow → Flow) (h : m ≠ n) :
    (s.onFlow n f).flow m = s.flow m := Tbl.get_upd_other ({} : Flow) s.fab.flows n m f h
/-- pair: the entry changed, once its table is canonical, and every other as it was. -/
@[simp] theorem State.pair_onPair (s : State) (n : Nat) (f : Pair → Pair) (h : Tbl.wf {} s.host.pairs = true) :
    (s.onPair n f).pair n = f (s.pair n) := Tbl.get_upd_same ({} : Pair) s.host.pairs n f h
@[simp] theorem State.pair_onPair_other (s : State) (n m : Nat) (f : Pair → Pair) (h : m ≠ n) :
    (s.onPair n f).pair m = s.pair m := Tbl.get_upd_other ({} : Pair) s.host.pairs n m f h
/-- job: the entry changed, once its table is canonical, and every other as it was. -/
@[simp] theorem State.job_onJob (s : State) (n : Nat) (f : Job → Job) (h : Tbl.wf {} s.jobs.jobs = true) :
    (s.onJob n f).job n = f (s.job n) := Tbl.get_upd_same ({} : Job) s.jobs.jobs n f h
@[simp] theorem State.job_onJob_other (s : State) (n m : Nat) (f : Job → Job) (h : m ≠ n) :
    (s.onJob n f).job m = s.job m := Tbl.get_upd_other ({} : Job) s.jobs.jobs n m f h
/-- squeue: the entry changed, once its table is canonical, and every other as it was. -/
@[simp] theorem State.squeue_onSQueue (s : State) (n : Nat) (f : SQueue → SQueue) (h : Tbl.wf {} s.jobs.queues = true) :
    (s.onSQueue n f).squeue n = f (s.squeue n) := Tbl.get_upd_same ({} : SQueue) s.jobs.queues n f h
@[simp] theorem State.squeue_onSQueue_other (s : State) (n m : Nat) (f : SQueue → SQueue) (h : m ≠ n) :
    (s.onSQueue n f).squeue m = s.squeue m := Tbl.get_upd_other ({} : SQueue) s.jobs.queues n m f h
/-- dom: the entry changed, once its table is canonical, and every other as it was. -/
@[simp] theorem State.dom_onDom (s : State) (n : Nat) (f : Domain → Domain) (h : Tbl.wf {} s.pwr.domains = true) :
    (s.onDom n f).dom n = f (s.dom n) := Tbl.get_upd_same ({} : Domain) s.pwr.domains n f h
@[simp] theorem State.dom_onDom_other (s : State) (n m : Nat) (f : Domain → Domain) (h : m ≠ n) :
    (s.onDom n f).dom m = s.dom m := Tbl.get_upd_other ({} : Domain) s.pwr.domains n m f h

@[simp] theorem State.core_setCore (s : State) (lc : Nat) (c : Core) (h : Tbl.wf {} s.cores = true) :
    (s.setCore lc c).core lc = c := Tbl.get_set_same ({} : Core) s.cores lc c h
@[simp] theorem State.core_setCore_other (s : State) (lc n : Nat) (c : Core) (h : n ≠ lc) :
    (s.setCore lc c).core n = s.core n := Tbl.get_set_other ({} : Core) s.cores lc n c h
@[simp] theorem State.core_onCore (s : State) (lc : Nat) (f : Core → Core) (h : Tbl.wf {} s.cores = true) :
    (s.onCore lc f).core lc = f (s.core lc) := State.core_setCore s lc _ h
@[simp] theorem State.core_onCore_other (s : State) (lc n : Nat) (f : Core → Core) (h : n ≠ lc) :
    (s.onCore lc f).core n = s.core n := State.core_setCore_other s lc n _ h
@[simp] theorem State.core_onSeq (s : State) (lc : Nat) (f : Sequencer → Sequencer) (h : Tbl.wf {} s.cores = true) :
    (s.onSeq lc f).core lc = { s.core lc with seq := f (s.core lc).seq } := State.core_setCore s lc _ h
@[simp] theorem State.core_onScp (s : State) (lc : Nat) (f : Scratch → Scratch) (h : Tbl.wf {} s.cores = true) :
    (s.onScp lc f).core lc = { s.core lc with scp := f (s.core lc).scp } := State.core_setCore s lc _ h
@[simp] theorem State.core_onInteg (s : State) (lc : Nat) (f : Integrity → Integrity) (h : Tbl.wf {} s.cores = true) :
    (s.onInteg lc f).core lc = { s.core lc with integ := f (s.core lc).integ } := State.core_setCore s lc _ h
@[simp] theorem State.core_onEng (s : State) (lc : Nat) (e : Eng) (f : Engine → Engine) (h : Tbl.wf {} s.cores = true) :
    (s.onEng lc e f).core lc = { s.core lc with seq := (s.core lc).seq.onEng e f } := State.core_setCore s lc _ h
@[simp] theorem State.core_onQueue (s : State) (lc n : Nat) (f : Queue → Queue) (h : Tbl.wf {} s.cores = true) :
    (s.onQueue lc n f).core lc = { s.core lc with seq := (s.core lc).seq.onQueue n f } := State.core_setCore s lc _ h
@[simp] theorem State.core_onArray (s : State) (lc : Nat) (a : Arr) (f : ArrayU → ArrayU) (h : Tbl.wf {} s.cores = true) :
    (s.onArray lc a f).core lc = (s.core lc).onArray a f := State.core_setCore s lc _ h

/-- An engine after a change to it, and the others. -/
@[simp] theorem Sequencer.eng_onEng (q : Sequencer) (e : Eng) (f : Engine → Engine) (h : Tbl.wf {} q.engines = true) :
    (q.onEng e f).eng e = f (q.eng e) := Tbl.get_upd_same ({} : Engine) q.engines e.code f h
@[simp] theorem Sequencer.eng_onEng_other (q : Sequencer) (e g : Eng) (f : Engine → Engine) (h : g.code ≠ e.code) :
    (q.onEng e f).eng g = q.eng g := Tbl.get_upd_other ({} : Engine) q.engines e.code g.code f h
@[simp] theorem Sequencer.queue_onQueue (q : Sequencer) (n : Nat) (f : Queue → Queue) (h : Tbl.wf {} q.queues = true) :
    (q.onQueue n f).queue n = f (q.queue n) := Tbl.get_upd_same ({} : Queue) q.queues n f h
@[simp] theorem Sequencer.queue_onQueue_other (q : Sequencer) (n m : Nat) (f : Queue → Queue) (h : m ≠ n) :
    (q.onQueue n f).queue m = q.queue m := Tbl.get_upd_other ({} : Queue) q.queues n m f h
@[simp] theorem Sequencer.grp_onGrp (q : Sequencer) (g : BitVec 12) (f : Group → Group) (h : Tbl.wf {} q.groups = true) :
    (q.onGrp g f).grp g = f (q.grp g) := Tbl.get_upd_same ({} : Group) q.groups g.toNat f h
@[simp] theorem Sequencer.win_onWin (q : Sequencer) (w : BitVec 12) (f : Window → Window) (h : Tbl.wf {} q.windows = true) :
    (q.onWin w f).win w = f (q.win w) := Tbl.get_upd_same ({} : Window) q.windows w.toNat f h

/-- Two engines with one code are one engine. -/
theorem Eng.code_inj (a b : Eng) (h : a.code = b.code) : a = b := by cases a <;> cases b <;> first | rfl | cases h

/-- Device time after an event's time. -/
@[simp] theorem State.at_now (s : State) (t : Nat) : (s.at_ t).clk.now = max s.clk.now t := rfl

end Sys2Proof.Machine
end

