-- ==== Sys2Proof/Laws/Frame.lean ====
section
/-! SUPPORT. `Within`: how it composes, what an update of one part is within, and what it says of results that
carry a state. -/

namespace Sys2Proof.Machine

variable {W : List Part} {s0 s t : State}

theorem Within.rfl : Within W s s := fun p _ => by cases p <;> exact Eq.refl _

theorem Within.trans {u : State} (h : Within W s t) (k : Within W t u) : Within W s u := fun p hp => by
  have a := h p hp
  have b := k p hp
  cases p <;> exact Eq.trans b a

theorem Within.mono {V : List Part} (h : Within W s t) (k : W ⊆ V) : Within V s t := fun p hp => h p (fun q => hp (k q))

/-! ### Updates of one part -/

theorem within_cores (x : Tbl Core) (h : Within W s0 s) (hw : Part.cores ∈ W) : Within W s0 { s with cores := x } :=
  h.trans fun p hp => by cases p <;> first | exact Eq.refl _ | exact absurd hw hp
theorem within_mem (x : Mem) (h : Within W s0 s) (hw : Part.mem ∈ W) : Within W s0 { s with mem := x } :=
  h.trans fun p hp => by cases p <;> first | exact Eq.refl _ | exact absurd hw hp
theorem within_ports (x : Tbl Port) (h : Within W s0 s) (hw : Part.ports ∈ W) : Within W s0 { s with ports := x } :=
  h.trans fun p hp => by cases p <;> first | exact Eq.refl _ | exact absurd hw hp
theorem within_optics (x : Tbl Optic) (h : Within W s0 s) (hw : Part.optics ∈ W) : Within W s0 { s with optics := x } :=
  h.trans fun p hp => by cases p <;> first | exact Eq.refl _ | exact absurd hw hp
theorem within_fab (x : Fabric) (h : Within W s0 s) (hw : Part.fab ∈ W) : Within W s0 { s with fab := x } :=
  h.trans fun p hp => by cases p <;> first | exact Eq.refl _ | exact absurd hw hp
theorem within_host (x : HostIf) (h : Within W s0 s) (hw : Part.host ∈ W) : Within W s0 { s with host := x } :=
  h.trans fun p hp => by cases p <;> first | exact Eq.refl _ | exact absurd hw hp
theorem within_jobs (x : Jobs) (h : Within W s0 s) (hw : Part.jobs ∈ W) : Within W s0 { s with jobs := x } :=
  h.trans fun p hp => by cases p <;> first | exact Eq.refl _ | exact absurd hw hp
theorem within_cfg (x : Config) (h : Within W s0 s) (hw : Part.cfg ∈ W) : Within W s0 { s with cfg := x } :=
  h.trans fun p hp => by cases p <;> first | exact Eq.refl _ | exact absurd hw hp
theorem within_sec (x : Security) (h : Within W s0 s) (hw : Part.sec ∈ W) : Within W s0 { s with sec := x } :=
  h.trans fun p hp => by cases p <;> first | exact Eq.refl _ | exact absurd hw hp
theorem within_flash (x : Flash) (h : Within W s0 s) (hw : Part.flash ∈ W) : Within W s0 { s with flash := x } :=
  h.trans fun p hp => by cases p <;> first | exact Eq.refl _ | exact absurd hw hp
theorem within_mgmt (x : Mgmt) (h : Within W s0 s) (hw : Part.mgmt ∈ W) : Within W s0 { s with mgmt := x } :=
  h.trans fun p hp => by cases p <;> first | exact Eq.refl _ | exact absurd hw hp
theorem within_pwr (x : Power) (h : Within W s0 s) (hw : Part.pwr ∈ W) : Within W s0 { s with pwr := x } :=
  h.trans fun p hp => by cases p <;> first | exact Eq.refl _ | exact absurd hw hp
theorem within_clk (x : Clock) (h : Within W s0 s) (hw : Part.clk ∈ W) : Within W s0 { s with clk := x } :=
  h.trans fun p hp => by cases p <;> first | exact Eq.refl _ | exact absurd hw hp
theorem within_thm (x : Thermal) (h : Within W s0 s) (hw : Part.thm ∈ W) : Within W s0 { s with thm := x } :=
  h.trans fun p hp => by cases p <;> first | exact Eq.refl _ | exact absurd hw hp
theorem within_pins (x : Pins) (h : Within W s0 s) (hw : Part.pins ∈ W) : Within W s0 { s with pins := x } :=
  h.trans fun p hp => by cases p <;> first | exact Eq.refl _ | exact absurd hw hp
theorem within_free (x : Nat) (h : Within W s0 s) (hw : Part.free ∈ W) : Within W s0 { s with free := x } :=
  h.trans fun p hp => by cases p <;> first | exact Eq.refl _ | exact absurd hw hp

/-! ### Updates of several parts at once -/

theorem within_cfg_flash (x0 : Config) (x1 : Flash) (h : Within W s0 s)
    (h_cfg : Part.cfg ∈ W) (h_flash : Part.flash ∈ W) :
    Within W s0 { s with cfg := x0, flash := x1 } :=
  h.trans fun p hp => by cases p <;> first | exact Eq.refl _ | exact absurd (by assumption) hp
theorem within_fab_mgmt (x0 : Fabric) (x1 : Mgmt) (h : Within W s0 s)
    (h_fab : Part.fab ∈ W) (h_mgmt : Part.mgmt ∈ W) :
    Within W s0 { s with fab := x0, mgmt := x1 } :=
  h.trans fun p hp => by cases p <;> first | exact Eq.refl _ | exact absurd (by assumption) hp
theorem within_flash_mgmt (x0 : Flash) (x1 : Mgmt) (h : Within W s0 s)
    (h_flash : Part.flash ∈ W) (h_mgmt : Part.mgmt ∈ W) :
    Within W s0 { s with flash := x0, mgmt := x1 } :=
  h.trans fun p hp => by cases p <;> first | exact Eq.refl _ | exact absurd (by assumption) hp
theorem within_flash_pins (x0 : Flash) (x1 : Pins) (h : Within W s0 s)
    (h_flash : Part.flash ∈ W) (h_pins : Part.pins ∈ W) :
    Within W s0 { s with flash := x0, pins := x1 } :=
  h.trans fun p hp => by cases p <;> first | exact Eq.refl _ | exact absurd (by assumption) hp
theorem within_host_sec (x0 : HostIf) (x1 : Security) (h : Within W s0 s)
    (h_host : Part.host ∈ W) (h_sec : Part.sec ∈ W) :
    Within W s0 { s with host := x0, sec := x1 } :=
  h.trans fun p hp => by cases p <;> first | exact Eq.refl _ | exact absurd (by assumption) hp
theorem within_mem_host (x0 : Mem) (x1 : HostIf) (h : Within W s0 s)
    (h_mem : Part.mem ∈ W) (h_host : Part.host ∈ W) :
    Within W s0 { s with mem := x0, host := x1 } :=
  h.trans fun p hp => by cases p <;> first | exact Eq.refl _ | exact absurd (by assumption) hp
theorem within_mgmt_thm (x0 : Mgmt) (x1 : Thermal) (h : Within W s0 s)
    (h_mgmt : Part.mgmt ∈ W) (h_thm : Part.thm ∈ W) :
    Within W s0 { s with mgmt := x0, thm := x1 } :=
  h.trans fun p hp => by cases p <;> first | exact Eq.refl _ | exact absurd (by assumption) hp
theorem within_pwr_pins (x0 : Power) (x1 : Pins) (h : Within W s0 s)
    (h_pwr : Part.pwr ∈ W) (h_pins : Part.pins ∈ W) :
    Within W s0 { s with pwr := x0, pins := x1 } :=
  h.trans fun p hp => by cases p <;> first | exact Eq.refl _ | exact absurd (by assumption) hp
theorem within_sec_mgmt (x0 : Security) (x1 : Mgmt) (h : Within W s0 s)
    (h_sec : Part.sec ∈ W) (h_mgmt : Part.mgmt ∈ W) :
    Within W s0 { s with sec := x0, mgmt := x1 } :=
  h.trans fun p hp => by cases p <;> first | exact Eq.refl _ | exact absurd (by assumption) hp
theorem within_thm_pins (x0 : Thermal) (x1 : Pins) (h : Within W s0 s)
    (h_thm : Part.thm ∈ W) (h_pins : Part.pins ∈ W) :
    Within W s0 { s with thm := x0, pins := x1 } :=
  h.trans fun p hp => by cases p <;> first | exact Eq.refl _ | exact absurd (by assumption) hp
theorem within_mgmt_pwr_pins (x0 : Mgmt) (x1 : Power) (x2 : Pins) (h : Within W s0 s)
    (h_mgmt : Part.mgmt ∈ W) (h_pwr : Part.pwr ∈ W) (h_pins : Part.pins ∈ W) :
    Within W s0 { s with mgmt := x0, pwr := x1, pins := x2 } :=
  h.trans fun p hp => by cases p <;> first | exact Eq.refl _ | exact absurd (by assumption) hp
theorem within_cores_fab_jobs_mgmt (x0 : Tbl Core) (x1 : Fabric) (x2 : Jobs) (x3 : Mgmt) (h : Within W s0 s)
    (h_cores : Part.cores ∈ W) (h_fab : Part.fab ∈ W) (h_jobs : Part.jobs ∈ W) (h_mgmt : Part.mgmt ∈ W) :
    Within W s0 { s with cores := x0, fab := x1, jobs := x2, mgmt := x3 } :=
  h.trans fun p hp => by cases p <;> first | exact Eq.refl _ | exact absurd (by assumption) hp
theorem within_cores_host_flash_mgmt (x0 : Tbl Core) (x1 : HostIf) (x2 : Flash) (x3 : Mgmt) (h : Within W s0 s)
    (h_cores : Part.cores ∈ W) (h_host : Part.host ∈ W) (h_flash : Part.flash ∈ W) (h_mgmt : Part.mgmt ∈ W) :
    Within W s0 { s with cores := x0, host := x1, flash := x2, mgmt := x3 } :=
  h.trans fun p hp => by cases p <;> first | exact Eq.refl _ | exact absurd (by assumption) hp
theorem within_cores_mem_ports_fab_jobs_mgmt_pwr_clk_thm (x0 : Tbl Core) (x1 : Mem) (x2 : Tbl Port) (x3 : Fabric) (x4 : Jobs) (x5 : Mgmt) (x6 : Power) (x7 : Clock) (x8 : Thermal) (h : Within W s0 s)
    (h_cores : Part.cores ∈ W) (h_mem : Part.mem ∈ W) (h_ports : Part.ports ∈ W) (h_fab : Part.fab ∈ W) (h_jobs : Part.jobs ∈ W) (h_mgmt : Part.mgmt ∈ W) (h_pwr : Part.pwr ∈ W) (h_clk : Part.clk ∈ W) (h_thm : Part.thm ∈ W) :
    Within W s0 { s with cores := x0, mem := x1, ports := x2, fab := x3, jobs := x4, mgmt := x5, pwr := x6, clk := x7, thm := x8 } :=
  h.trans fun p hp => by cases p <;> first | exact Eq.refl _ | exact absurd (by assumption) hp
theorem within_cores_mem_ports_optics_fab_host_jobs_cfg_mgmt_pins (x0 : Tbl Core) (x1 : Mem) (x2 : Tbl Port) (x3 : Tbl Optic) (x4 : Fabric) (x5 : HostIf) (x6 : Jobs) (x7 : Config) (x8 : Mgmt) (x9 : Pins) (h : Within W s0 s)
    (h_cores : Part.cores ∈ W) (h_mem : Part.mem ∈ W) (h_ports : Part.ports ∈ W) (h_optics : Part.optics ∈ W) (h_fab : Part.fab ∈ W) (h_host : Part.host ∈ W) (h_jobs : Part.jobs ∈ W) (h_cfg : Part.cfg ∈ W) (h_mgmt : Part.mgmt ∈ W) (h_pins : Part.pins ∈ W) :
    Within W s0 { s with cores := x0, mem := x1, ports := x2, optics := x3, fab := x4, host := x5, jobs := x6, cfg := x7, mgmt := x8, pins := x9 } :=
  h.trans fun p hp => by cases p <;> first | exact Eq.refl _ | exact absurd (by assumption) hp

/-! ### Folds and branches -/

theorem within_ite {p : Prop} [Decidable p] {a b : State} (h : Within W s0 a) (k : Within W s0 b) :
    Within W s0 (if p then a else b) := by split <;> assumption

theorem within_foldl {α : Type} (f : State → α → State) (l : List α) (h : Within W s0 s)
    (hf : ∀ u x, Within W s0 u → Within W s0 (f u x)) : Within W s0 (l.foldl f s) := by
  induction l generalizing s with
  | nil => exact h
  | cons x r ih => exact ih (hf s x h)

theorem within_foldl2 {α β : Type} (f : α × State → β → α × State) (l : List β) {x : α × State}
    (h : Within W s0 x.2) (hf : ∀ u y, Within W s0 u.2 → Within W s0 (f u y).2) : Within W s0 (l.foldl f x).2 := by
  induction l generalizing x with
  | nil => exact h
  | cons y r ih => exact ih (hf x y h)

/-! ### Results that carry a state -/

/-- The state of an optional result is within. -/
def WithinO (W : List Part) (s0 : State) (o : Option State) : Prop := ∀ t, o = some t → Within W s0 t
/-- The state of an optional pair is within. -/
def WithinP {α : Type} (W : List Part) (s0 : State) (o : Option (α × State)) : Prop :=
  ∀ a t, o = some (a, t) → Within W s0 t
/-- The next state of an outcome is within. -/
def WithinR (W : List Part) (s0 : State) (r : Res) : Prop := ∀ t, r = .next t → Within W s0 t

theorem withinR_ite {p : Prop} [Decidable p] {a b : Res} (h : WithinR W s0 a) (k : WithinR W s0 b) :
    WithinR W s0 (if p then a else b) := by split <;> assumption
theorem withinO_none : WithinO W s0 none := fun _ e => nomatch e
theorem withinO_some (h : Within W s0 s) : WithinO W s0 (some s) := fun _ e => Option.some.inj e ▸ h
theorem withinP_none {α : Type} : WithinP (α := α) W s0 none := fun _ _ e => nomatch e
theorem withinP_some {α : Type} (a : α) (h : Within W s0 s) : WithinP W s0 (some (a, s)) := fun _ _ e => by
  cases e; exact h
theorem withinR_next (h : Within W s0 s) : WithinR W s0 (.next s) := fun _ e => by cases e; exact h
theorem within_getD {o : Option State} (h : WithinO W s0 o) (k : Within W s0 s) : Within W s0 (o.getD s) := by
  cases o with
  | none => exact k
  | some t => exact h t (Eq.refl _)
theorem withinO_bind {o : Option State} (f : State → Option State) (h : WithinO W s0 o)
    (hf : ∀ u, Within W s0 u → WithinO W s0 (f u)) : WithinO W s0 (o.bind f) := by
  cases o with
  | none => exact withinO_none
  | some t => exact hf t (h t (Eq.refl _))
theorem withinO_foldl {α : Type} (f : Option State → α → Option State) (l : List α) {o : Option State}
    (h : WithinO W s0 o) (hf : ∀ u x, WithinO W s0 u → WithinO W s0 (f u x)) : WithinO W s0 (l.foldl f o) := by
  induction l generalizing o with
  | nil => exact h
  | cons x r ih => exact ih (hf o x h)
theorem withinP_foldl {α β : Type} (f : Option (β × State) → α → Option (β × State)) (l : List α)
    {o : Option (β × State)} (h : WithinP W s0 o) (hf : ∀ u x, WithinP W s0 u → WithinP W s0 (f u x)) :
    WithinP W s0 (l.foldl f o) := by
  induction l generalizing o with
  | nil => exact h
  | cons x r ih => exact ih (hf o x h)
theorem withinP_map {α : Type} {o : Option State} (a : α) (h : WithinO W s0 o) :
    WithinP W s0 (o.map fun t => (a, t)) := by
  cases o with
  | none => exact withinP_none
  | some t => exact withinP_some a (h t (Eq.refl _))
theorem WithinO.out {o : Option State} (h : WithinO W s0 o) (e : o = some t) : Within W s0 t := h t e
theorem WithinP.out {α : Type} {o : Option (α × State)} {a : α} (h : WithinP W s0 o) (e : o = some (a, t)) :
    Within W s0 t := h a t e
theorem within_pair {α : Type} {x : α × State} {a : α} (h : Within W s0 x.2) (e : x = (a, t)) : Within W s0 t := by
  cases e; exact h

theorem within_trip {α β : Type} {x : α × β × State} {a : α} {b : β} (h : Within W s0 x.2.2) (e : x = (a, b, t)) :
    Within W s0 t := by
  cases e; exact h
theorem within_fst {α : Type} {x : State × α} {a : α} (h : Within W s0 x.1) (e : x = (t, a)) : Within W s0 t := by
  cases e; exact h

/-- The state of an optional triple is within. -/
def WithinQ {α β : Type} (W : List Part) (s0 : State) (o : Option (α × β × State)) : Prop :=
  ∀ a b t, o = some (a, b, t) → Within W s0 t
theorem withinQ_none {α β : Type} : WithinQ (α := α) (β := β) W s0 none := fun _ _ _ e => nomatch e
theorem withinQ_some {α β : Type} (a : α) (b : β) (h : Within W s0 s) : WithinQ W s0 (some (a, b, s)) :=
  fun _ _ _ e => by cases e; exact h
theorem WithinQ.out {α β : Type} {o : Option (α × β × State)} {a : α} {b : β} (h : WithinQ W s0 o)
    (e : o = some (a, b, t)) : Within W s0 t := h a b t e

/-- The state of a packet's verdict is within. -/
def WithinV (W : List Part) (s0 : State) : Verdict → Prop
  | .settled t => Within W s0 t
  | .fresh t => Within W s0 t
theorem withinV_settled (h : Within W s0 s) : WithinV W s0 (.settled s) := h
theorem withinV_fresh (h : Within W s0 s) : WithinV W s0 (.fresh s) := h
theorem WithinV.settledOut {v : Verdict} (h : WithinV W s0 v) (e : v = .settled t) : Within W s0 t := by cases e; exact h
theorem WithinV.freshOut {v : Verdict} (h : WithinV W s0 v) (e : v = .fresh t) : Within W s0 t := by cases e; exact h

/-- The state of a placement is within. -/
def WithinL (W : List Part) (s0 : State) : Placed → Prop
  | .full => True
  | .queued t => Within W s0 t
  | .code t => Within W s0 t
  | .done t => Within W s0 t
theorem withinL_full : WithinL W s0 .full := trivial
theorem withinL_queued (h : Within W s0 s) : WithinL W s0 (.queued s) := h
theorem withinL_code (h : Within W s0 s) : WithinL W s0 (.code s) := h
theorem withinL_done (h : Within W s0 s) : WithinL W s0 (.done s) := h
theorem WithinL.queuedOut {v : Placed} (h : WithinL W s0 v) (e : v = .queued t) : Within W s0 t := by cases e; exact h
theorem WithinL.codeOut {v : Placed} (h : WithinL W s0 v) (e : v = .code t) : Within W s0 t := by cases e; exact h
theorem WithinL.doneOut {v : Placed} (h : WithinL W s0 v) (e : v = .done t) : Within W s0 t := by cases e; exact h

/-- The state of a search for a flow context is within. -/
def WithinT (W : List Part) (s0 : State) (v : Took) : Prop := ∀ t, v = .wait t → Within W s0 t
theorem withinT_got (i : Nat) : WithinT W s0 (.got i) := fun _ e => nomatch e
theorem withinT_full : WithinT W s0 .full := fun _ e => nomatch e
theorem withinT_wait (h : Within W s0 s) : WithinT W s0 (.wait s) := fun _ e => by cases e; exact h
theorem WithinT.out {v : Took} (h : WithinT W s0 v) (e : v = .wait t) : Within W s0 t := h t e

/-- The state of a transfer into an own window is within. -/
def WithinW (W : List Part) (s0 : State) : OwnWin → Prop
  | .refused _ t => Within W s0 t
  | .queued t => Within W s0 t
  | .placed t => Within W s0 t
theorem withinW_refused (c : Nat) (h : Within W s0 s) : WithinW W s0 (.refused c s) := h
theorem withinW_queued (h : Within W s0 s) : WithinW W s0 (.queued s) := h
theorem withinW_placed (h : Within W s0 s) : WithinW W s0 (.placed s) := h
theorem WithinW.refusedOut {v : OwnWin} {c : Nat} (h : WithinW W s0 v) (e : v = .refused c t) : Within W s0 t := by
  cases e; exact h
theorem WithinW.queuedOut {v : OwnWin} (h : WithinW W s0 v) (e : v = .queued t) : Within W s0 t := by cases e; exact h
theorem WithinW.placedOut {v : OwnWin} (h : WithinW W s0 v) (e : v = .placed t) : Within W s0 t := by cases e; exact h

/-- The state of bytes that land is within. -/
def WithinD (W : List Part) (s0 : State) : Landed → Prop
  | .wait _ t => Within W s0 t
  | .code => True
  | .done t => Within W s0 t
theorem withinD_wait (c : Nat) (h : Within W s0 s) : WithinD W s0 (.wait c s) := h
theorem withinD_code : WithinD W s0 .code := trivial
theorem withinD_done (h : Within W s0 s) : WithinD W s0 (.done s) := h
theorem WithinD.waitOut {v : Landed} {c : Nat} (h : WithinD W s0 v) (e : v = .wait c t) : Within W s0 t := by
  cases e; exact h
theorem WithinD.doneOut {v : Landed} (h : WithinD W s0 v) (e : v = .done t) : Within W s0 t := by cases e; exact h

/-- The state an attempt to begin a command leaves, where it waits, is within. -/
def WithinA (W : List Part) (s0 : State) (v : Adm) : Prop := ∀ c t, v = .stall c t → Within W s0 t
theorem withinA_stall (c : Nat) (h : Within W s0 s) : WithinA W s0 (.stall c s) := fun _ _ e => by cases e; exact h
theorem withinA_off : WithinA W s0 .off := fun _ _ e => nomatch e
theorem withinA_empty : WithinA W s0 .empty := fun _ _ e => nomatch e
theorem withinA_stopCount : WithinA W s0 .stopCount := fun _ _ e => nomatch e
theorem withinA_fail (c : Nat) : WithinA W s0 (.fail c) := fun _ _ e => nomatch e
theorem withinA_go (c : Ctx) : WithinA W s0 (.go c) := fun _ _ e => nomatch e
theorem withinA_ite {p : Prop} [Decidable p] {a b : Adm} (h : WithinA W s0 a) (k : WithinA W s0 b) :
    WithinA W s0 (if p then a else b) := by split <;> assumption
theorem WithinA.out {v : Adm} {c : Nat} (h : WithinA W s0 v) (e : v = .stall c t) : Within W s0 t := h c t e

/-- The state of a wait for a flow is within. -/
def WithinF (W : List Part) (s0 : State) (v : FarFlow) : Prop := ∀ t, v = .wait t → Within W s0 t
theorem withinF_wait (h : Within W s0 s) : WithinF W s0 (.wait s) := fun _ e => by cases e; exact h
theorem WithinF.out {v : FarFlow} (h : WithinF W s0 v) (e : v = .wait t) : Within W s0 t := h t e

/-- The state of a right side is within. -/
def WithinM {α : Type} (W : List Part) (s0 : State) (v : α ⊕ State) : Prop := ∀ t, v = .inr t → Within W s0 t
theorem withinM_inl {α : Type} (a : α) : WithinM W s0 (.inl a) := fun _ e => nomatch e
theorem withinM_inr {α : Type} (h : Within W s0 s) : WithinM (α := α) W s0 (.inr s) := fun _ e => by cases e; exact h
theorem WithinM.out {α : Type} {v : α ⊕ State} (h : WithinM W s0 v) (e : v = .inr t) : Within W s0 t := h t e
theorem withinF_ready (i : Nat) : WithinF W s0 (.ready i) := fun _ e => nomatch e
theorem withinF_refused (i : Nat) : WithinF W s0 (.refused i) := fun _ e => nomatch e

/-- The state of either side is within. -/
def WithinE {α : Type} (W : List Part) (s0 : State) : State ⊕ (α × State) → Prop
  | .inl t => Within W s0 t
  | .inr x => Within W s0 x.2
theorem withinE_l {α : Type} (h : Within W s0 s) : WithinE (α := α) W s0 (.inl s) := h
theorem withinE_r {α : Type} (a : α) (h : Within W s0 s) : WithinE W s0 (.inr (a, s)) := h
theorem WithinE.lOut {α : Type} {v : State ⊕ (α × State)} (h : WithinE W s0 v) (e : v = .inl t) : Within W s0 t := by
  cases e; exact h
theorem WithinE.rOut {α : Type} {v : State ⊕ (α × State)} {a : α} (h : WithinE W s0 v) (e : v = .inr (a, t)) :
    Within W s0 t := by
  cases e; exact h

end Sys2Proof.Machine
end

