-- ==== Sys2Proof/Laws/Canon.lean ====
section
/-! SUPPORT. Canonical form: the updates of each part keep it, and so do the operations of cores, sequencers and
scratchpads. -/

namespace Sys2Proof.Machine

variable {s t : State}

/-! ### Sequencers -/

theorem Sequencer.onEng_canon {q : Sequencer} (e : Eng) (f : Engine → Engine) (h : q.Canon) : (q.onEng e f).Canon :=
  ⟨Tbl.upd_wf _ _ _ _ h.1, h.2⟩
theorem Sequencer.onQueue_canon {q : Sequencer} (n : Nat) (f : Queue → Queue) (h : q.Canon) : (q.onQueue n f).Canon :=
  ⟨h.1, Tbl.upd_wf _ _ _ _ h.2.1, h.2.2⟩
theorem Sequencer.onGrp_canon {q : Sequencer} (g : BitVec 12) (f : Group → Group) (h : q.Canon) :
    (q.onGrp g f).Canon := ⟨h.1, h.2.1, Tbl.upd_wf _ _ _ _ h.2.2.1, h.2.2.2⟩
theorem Sequencer.onWin_canon {q : Sequencer} (w : BitVec 12) (f : Window → Window) (h : q.Canon) :
    (q.onWin w f).Canon := ⟨h.1, h.2.1, h.2.2.1, Tbl.upd_wf _ _ _ _ h.2.2.2.1, h.2.2.2.2⟩
theorem Sequencer.stallBy_canon {q : Sequencer} (e : Eng) (c n : Nat) (h : q.Canon) : (q.stallBy e c n).Canon := h
theorem Sequencer.stall_canon {q : Sequencer} (e : Eng) (c : Nat) (h : q.Canon) : (q.stall e c).Canon := h

/-- A fold of changes that keep a property keeps it. -/
theorem foldl_keeps {α β : Type} {P : α → Prop} (f : α → β → α) (l : List β) {a : α} (h : P a)
    (hf : ∀ a x, P a → P (f a x)) : P (l.foldl f a) := by
  induction l generalizing a with
  | nil => exact h
  | cons x r ih => exact ih (hf a x h)

theorem upto_keeps {α : Type} {P : α → Prop} (f : α → Nat → α) {a : α} (n : Nat) (h : P a) (hf : ∀ x i, P x → P (f x i)) :
    P (upto f a n) := foldl_keeps f _ h hf

theorem Sequencer.abandonWaits_canon {q : Sequencer} (n : Nat) (h : q.Canon) : (q.abandonWaits n).Canon := by
  refine foldl_keeps _ _ h fun q e hq => ?_
  dsimp only
  split
  · exact ⟨Tbl.set_wf _ _ _ _ hq.1, hq.2⟩
  · exact hq
theorem Sequencer.stopTask_canon {q : Sequencer} (n : Nat) (c : StopCause) (h : q.Canon) : (q.stopTask n c).Canon := by
  unfold Sequencer.stopTask
  split
  · exact h
  · exact Sequencer.abandonWaits_canon n h
theorem Sequencer.failStream_canon {q : Sequencer} (n : Nat) (e : Eng) (c : Nat) (i : Word) (h : q.Canon) :
    (q.failStream n e c i).Canon := by
  unfold Sequencer.failStream
  extract_lets first u v
  have hu : u.Canon := Sequencer.onEng_canon _ _ h
  have hv : v.Canon := by
    show Sequencer.Canon (if _ then _ else _)
    clear_value u
    split <;> exact ⟨hu.1, hu.2⟩
  exact Sequencer.stopTask_canon _ _ hv
theorem Sequencer.failFabric_canon {q : Sequencer} (n c : Nat) (h : q.Canon) : (q.failFabric n c).Canon := by
  unfold Sequencer.failFabric
  extract_lets first v
  have hv : v.Canon := by
    show Sequencer.Canon (if _ then _ else _)
    split <;> exact ⟨h.1, h.2⟩
  exact Sequencer.stopTask_canon _ _ hv
theorem Sequencer.closeWindow_canon {q : Sequencer} (w : BitVec 12) (n : Nat) (h : q.Canon) :
    (q.closeWindow w n).Canon := by
  unfold Sequencer.closeWindow
  dsimp only
  split
  · exact h
  · split
    · exact Sequencer.onWin_canon _ _ h
    · exact Sequencer.onQueue_canon _ _ (Sequencer.onWin_canon _ _ h)
theorem Sequencer.windowPump_canon {q : Sequencer} (w : BitVec 12) (n : Nat) (h : q.Canon) :
    (q.windowPump w n).Canon := by
  induction n generalizing q with
  | zero => exact h
  | succ k ih =>
    unfold Sequencer.windowPump
    dsimp only
    split
    · exact h
    · split
      · exact h
      · split
        · exact ih (Sequencer.onWin_canon _ _ (Sequencer.onQueue_canon _ _ h))
        · split
          · exact h
          · exact ih (Sequencer.onWin_canon _ _ (Sequencer.onQueue_canon _ _ h))
theorem Sequencer.write_canon {q : Sequencer} (o : Nat) (v : Word) (h : q.Canon) : (q.write o v).Canon := by
  unfold Sequencer.write
  split
  · exact h
  · split
    · exact h
    · split <;> exact h

/-- A table made from a list is canonical. -/
theorem tblOf_wf {α : Type} [DecidableEq α] (d : α) (l : List α) : Tbl.wf d (tblOf d l) = true :=
  foldl_keeps (P := fun t => Tbl.wf d t = true) _ _ rfl fun _ _ h => Tbl.set_wf _ _ _ _ h
theorem Sequencer.context_canon {q : Sequencer} (j : Nat) (x : Job) (t : TaskRec) (h : q.Canon) :
    (q.context j x t).Canon := h
theorem Sequencer.start_canon {q : Sequencer} (j : Nat) (x : Job) (t : TaskRec) (h : q.Canon) : (q.start j x t).Canon :=
  ⟨tblOf_wf _ _, rfl, rfl, h.2.2.2⟩

/-! ### Scratchpads -/

theorem Scratch.bytes_canon {m : Scratch} (x : Memory) (h : m.Canon) (k : x.wf = true) : ({ m with bytes := x } : Scratch).Canon :=
  ⟨k, h.2⟩
theorem Scratch.poison_canon {m : Scratch} (x : Tbl Bool) (h : m.Canon) (k : Tbl.wf false x = true) :
    ({ m with poison := x } : Scratch).Canon := ⟨h.1, h.2.1, k, h.2.2.2⟩
theorem Scratch.seal_canon {m : Scratch} (w : Nat) (d p : Bool) (h : m.Canon) : (m.seal w d p).Canon :=
  ⟨h.1, h.2.1, Tbl.set_wf _ _ _ _ h.2.2.1, Tbl.set_wf _ _ _ _ h.2.2.2.1, Tbl.set_wf _ _ _ _ h.2.2.2.2.1, h.2.2.2.2.2⟩
theorem Scratch.flipBytes_canon {m : Scratch} (w : Nat) (r : BitVec 256) (h : m.Canon) : (m.flipBytes w r).Canon := by
  unfold Scratch.flipBytes
  split
  · exact h
  · have k := h.1
    with_reducible refine Scratch.bytes_canon _ h ?_
    with_reducible exact upto_keeps (P := fun t : Memory => t.wf = true) _ _ k fun _ _ k => Memory.write_wf _ _ _ k
theorem Scratch.restore_canon {m : Scratch} (w : Nat) (p : Bool) (h : m.Canon) : (m.restore w p).Canon :=
  Scratch.seal_canon _ _ _ (Scratch.flipBytes_canon _ _ h)
theorem Scratch.strike_canon {m : Scratch} (w : Nat) (f : Flips) (h : m.Canon) : (m.strike w f).Canon :=
  ⟨h.1, h.2.1, h.2.2.1, h.2.2.2.1, Tbl.set_wf _ _ _ _ h.2.2.2.2.1, h.2.2.2.2.2⟩
theorem Scratch.touch_canon {m : Scratch} (w : Nat) (h : m.Canon) : (m.touch w).1.Canon := by
  unfold Scratch.touch
  dsimp only
  split
  · exact h
  · split
    · exact h
    · exact h
    · exact h
    · exact Scratch.restore_canon _ _ h
theorem Scratch.touchAll_canon {m : Scratch} (l : List Nat) (h : m.Canon) : (m.touchAll l).Canon :=
  foldl_keeps _ _ h fun _ _ k => Scratch.touch_canon _ k
theorem Scratch.read_canon {m : Scratch} (l : List (Nat × Nat)) (h : m.Canon) : (m.read l).2.Canon :=
  Scratch.touchAll_canon _ h
theorem Scratch.closeWord_canon {m : Scratch} (d : Bool) (a : Nat) (l : List MB) (w : Nat) (h : m.Canon) :
    (Scratch.closeWord d a l m w).Canon := by
  unfold Scratch.closeWord
  dsimp only
  split
  · exact Scratch.seal_canon _ _ _ h
  · exact Scratch.seal_canon _ _ _ (Scratch.flipBytes_canon _ _ (Scratch.touch_canon w h))
theorem Scratch.writeRun_canon {m : Scratch} (d : Bool) (a : Nat) (l : List MB) (h : m.Canon) :
    (Scratch.writeRun d a l m).Canon := by
  unfold Scratch.writeRun
  split
  · exact h
  · dsimp only
    have k : ∀ (ws : List Nat), (ws.foldl (Scratch.closeWord d a l) m).Canon := fun ws =>
      foldl_keeps _ _ h fun _ _ k => Scratch.closeWord_canon d a l _ k
    exact ⟨Mem.writeN_wf _ _ _ (k _).1, (k _).2⟩
theorem Scratch.poisonRuns_canon {m : Scratch} (l : List (Nat × Nat)) (h : m.Canon) : (m.poisonRuns l).Canon :=
  foldl_keeps _ _ h fun _ _ k => Scratch.restore_canon _ _ k
theorem Scratch.wake_canon {m : Scratch} (l : List Nat) (h : m.Canon) : (m.wake l).Canon :=
  foldl_keeps _ _ h fun _ _ k =>
    ⟨k.1, k.2.1, k.2.2.1, k.2.2.2.1, k.2.2.2.2.1, k.2.2.2.2.2.1, k.2.2.2.2.2.2.1, Tbl.set_wf _ _ _ _ k.2.2.2.2.2.2.2⟩
theorem Scratch.sectReq_canon {m : Scratch} (n : Nat) (x : Option Nat) (h : m.Canon) :
    ({ m with sectReq := Tbl.set none m.sectReq n x } : Scratch).Canon :=
  ⟨h.1, h.2.1, h.2.2.1, h.2.2.2.1, h.2.2.2.2.1, h.2.2.2.2.2.1, Tbl.set_wf _ _ _ _ h.2.2.2.2.2.2.1, h.2.2.2.2.2.2.2⟩
theorem Scratch.request_canon {m : Scratch} (v : Word) (h : m.Canon) : (m.request v).Canon := by
  refine foldl_keeps _ _ h fun m k hm => ?_
  dsimp only
  split
  · exact Scratch.sectReq_canon _ _ hm
  · split
    · exact Scratch.wake_canon _ (Scratch.sectReq_canon _ _ hm)
    · split <;> exact Scratch.sectReq_canon _ _ hm

/-- Dropping entries keeps the canonical form. -/
theorem Tbl.filter_wf {α : Type} [DecidableEq α] (d : α) (p : Nat × α → Bool) (t : Tbl α) (h : Tbl.wf d t = true) :
    Tbl.wf d (t.filter p) = true := by
  suffices ∀ lo, Tbl.wfFrom d lo t = true → ∀ a, a ≤ lo → Tbl.wfFrom d a (t.filter p) = true from
    this 0 h 0 (Nat.le_refl 0)
  clear h
  induction t with
  | nil => intros; rfl
  | cons x r ih =>
    intro lo h a ha
    simp only [Tbl.wfFrom, Bool.and_eq_true, decide_eq_true_eq] at h
    simp only [List.filter_cons]
    split
    · simp only [Tbl.wfFrom, Bool.and_eq_true, decide_eq_true_eq]
      exact ⟨⟨by omega, h.1.2⟩, ih (x.1 + 1) h.2 (x.1 + 1) (Nat.le_refl _)⟩
    · exact ih (x.1 + 1) h.2 a (by omega)

theorem Scratch.lose_canon {m : Scratch} (n : Nat) (h : m.Canon) : (m.lose n).Canon :=
  ⟨Tbl.filter_wf _ _ _ h.1, h.2.1, Tbl.filter_wf _ _ _ h.2.2.1, Tbl.filter_wf _ _ _ h.2.2.2.1,
    Tbl.filter_wf _ _ _ h.2.2.2.2.1, h.2.2.2.2.2⟩

theorem Scratch.woken_canon {m : Scratch} (n : Nat) (h : m.Canon) : (m.woken n).Canon := by
  unfold Scratch.woken
  have k : ({ m with sect := Tbl.set 0 m.sect n 0, waking := Tbl.set false m.waking n false } : Scratch).Canon :=
    ⟨h.1, h.2.1, h.2.2.1, h.2.2.2.1, h.2.2.2.2.1, Tbl.set_wf _ _ _ _ h.2.2.2.2.2.1, h.2.2.2.2.2.2.1,
      Tbl.set_wf _ _ _ _ h.2.2.2.2.2.2.2⟩
  dsimp only
  split
  · have j := k.2.2.1
    with_reducible refine Scratch.poison_canon _ k ?_
    with_reducible exact upto_keeps (P := fun t => Tbl.wf false t = true) _ _ j fun _ _ q => Tbl.set_wf _ _ _ _ q
  · exact k

/-! ### Cores -/

theorem Core.readTile_canon {c : Core} (d : Desc) (h : c.Canon) : (c.readTile d).2.Canon :=
  ⟨h.1, Scratch.read_canon _ h.2⟩
theorem Core.readRaw_canon {c : Core} (d : Desc) (h : c.Canon) : (c.readRaw d).2.Canon :=
  ⟨h.1, Scratch.read_canon _ h.2⟩
theorem Core.readSpots_canon {c : Core} (d : Desc) (l : List (Nat × Nat)) (h : c.Canon) : (c.readSpots d l).2.Canon := by
  unfold Core.readSpots
  exact ⟨h.1, Scratch.read_canon _ h.2⟩
theorem Core.readFirst_canon {c : Core} (d : Desc) (n : Nat) (h : c.Canon) : (c.readFirst d n).2.Canon := by
  unfold Core.readFirst
  exact ⟨h.1, Scratch.read_canon _ h.2⟩
theorem Core.onArray_canon {c : Core} (a : Arr) (f : ArrayU → ArrayU) (h : c.Canon) : (c.onArray a f).Canon := by
  cases a <;> exact h
theorem Core.vacate_canon {c : Core} (h : c.Canon) : c.vacate.Canon :=
  ⟨⟨Tbl.mapv_wf ({} : Engine) (fun g => { retired := g.retired }) _ h.1.1, rfl, h.1.2.2⟩, h.2⟩
theorem Core.halt_canon {c : Core} (h : c.Canon) : c.halt.Canon :=
  ⟨⟨(Core.vacate_canon h).1.1, rfl, rfl, h.1.2.2.2.1, fun _ k => nomatch k⟩,
    h.2.1, h.2.2.1, h.2.2.2.1, h.2.2.2.2.1, h.2.2.2.2.2.1, h.2.2.2.2.2.2.1, rfl, h.2.2.2.2.2.2.2.2⟩
theorem Core.restart_canon {c : Core} (h : c.Canon) : c.restart.Canon :=
  ⟨⟨rfl, rfl, rfl, rfl, fun _ k => nomatch k⟩,
    h.2.1, h.2.2.1, h.2.2.2.1, h.2.2.2.2.1, h.2.2.2.2.2.1,
    foldl_keeps (P := fun t => Tbl.wf 0 t = true) _ _ h.2.2.2.2.2.2.1 fun _ _ k => Tbl.set_wf _ _ _ _ k, rfl, rfl⟩
theorem foldl_onQueue_canon {α : Type} (f : α → Nat) (g : α → Queue → Queue) (l : List α) {q : Sequencer}
    (h : q.Canon) : (l.foldl (fun q x => q.onQueue (f x) (g x)) q).Canon :=
  foldl_keeps _ _ h fun _ _ k => Sequencer.onQueue_canon _ _ k
theorem Core.releaseExtents_canon {c : Core} (g : BitVec 12) (b : Bool) (h : c.Canon) :
    (c.releaseExtents g b).Canon := by
  unfold Core.releaseExtents
  dsimp only
  split
  · refine ⟨foldl_keeps _ _ h.1 fun q x k => ?_, foldl_keeps _ _ h.2 fun m x k => Scratch.poisonRuns_canon _ k⟩
    split
    · exact k
    · exact Sequencer.onQueue_canon _ _ k
  · exact h
theorem readCommand_canon {c : Core} (g : Engine) (p : Nat) (h : c.scp.Canon) : (readCommand c g p).2.2.Canon :=
  Scratch.read_canon _ h

/-- Every core changed by an operation that keeps canonical form. -/
theorem cores_mapv_canon (f : Core → Core) (hf : ∀ c, c.Canon → (f c).Canon) (h : Canon s) :
    Tbl.wf {} (Tbl.mapv {} f s.cores) = true ∧ ∀ lc, (Tbl.get {} (Tbl.mapv {} f s.cores) lc : Core).Canon := by
  refine ⟨Tbl.mapv_wf _ _ _ h.1.1, fun lc => ?_⟩
  rcases Tbl.get_mapv ({} : Core) f s.cores lc h.1.1 with e | e
  · rw [e]
    exact hf _ (h.1.2 lc)
  · rw [e]
    exact ⟨⟨rfl, rfl, rfl, rfl, fun _ k => nomatch k⟩, rfl, rfl, rfl, rfl, rfl, rfl, rfl, rfl⟩

/-! ### Mailbox pairs -/

theorem ringWrite_wf (r : Memory) (n : Word) (l : List Byte) (h : r.wf = true) : (ringWrite r n l).wf = true := by
  unfold ringWrite
  exact foldl_keeps (P := fun x : Memory × Nat => x.1.wf = true) _ _ (a := (r, 0)) h fun x b k => Memory.write_wf x.1 _ b k
theorem Pair.putMsg_canon {p : Pair} (m : List Byte) (h : p.Canon) : (p.putMsg m).Canon := ⟨h.1, ringWrite_wf _ _ _ h.2⟩
theorem Pair.write_canon {p : Pair} (o : Nat) (v : Word) (h : p.Canon) : (p.write o v).Canon := by
  unfold Pair.write
  split
  · exact ⟨Mem.writeN_wf _ _ _ h.1, h.2⟩
  · repeat' first
      | exact h
      | split

/-- Every pair changed by an operation that keeps canonical form. -/
theorem pairs_mapv_canon (f : Pair → Pair) (hf : ∀ p, p.Canon → (f p).Canon) {x : Tbl Pair} (h : Tbl.wf {} x = true)
    (k : ∀ n, (Tbl.get {} x n).Canon) (n : Nat) : (Tbl.get {} (Tbl.mapv {} f x) n : Pair).Canon := by
  rcases Tbl.get_mapv ({} : Pair) f x n h with e | e
  · rw [e]
    exact hf _ (k n)
  · rw [e]
    exact ⟨rfl, rfl⟩

/-! ### Parts -/

theorem canon_core (lc : Nat) (h : Canon s) : (s.core lc).Canon := h.1.2 lc
theorem canon_cores (x : Tbl Core) (h : Canon s)
    (k : Canon s → Tbl.wf {} x = true ∧ ∀ lc, (Tbl.get {} x lc : Core).Canon) : Canon { s with cores := x } := ⟨k h, h.2⟩
theorem canon_mem (x : Mem) (h : Canon s) (k : Canon s → s.mem.Canon → x.Canon) : Canon { s with mem := x } :=
  ⟨h.1, k h h.2.1, h.2.2⟩
theorem canon_ports (x : Tbl Port) (h : Canon s) (k : Canon s → Tbl.wf {} x = true) : Canon { s with ports := x } :=
  ⟨h.1, h.2.1, k h, h.2.2.2⟩
theorem canon_optics (x : Tbl Optic) (h : Canon s) (k : Canon s → Tbl.wf {} x = true) : Canon { s with optics := x } :=
  ⟨h.1, h.2.1, h.2.2.1, k h, h.2.2.2.2⟩
theorem canon_fab (x : Fabric) (h : Canon s) (k : Canon s → s.fab.Canon → x.Canon) : Canon { s with fab := x } :=
  ⟨h.1, h.2.1, h.2.2.1, h.2.2.2.1, k h h.2.2.2.2.1, h.2.2.2.2.2⟩
theorem canon_host (x : HostIf) (h : Canon s) (k : Canon s → s.host.Canon → x.Canon) : Canon { s with host := x } :=
  ⟨h.1, h.2.1, h.2.2.1, h.2.2.2.1, h.2.2.2.2.1, k h h.2.2.2.2.2.1, h.2.2.2.2.2.2⟩
theorem canon_jobs (x : Jobs) (h : Canon s) (k : Canon s → s.jobs.Canon → x.Canon) : Canon { s with jobs := x } :=
  ⟨h.1, h.2.1, h.2.2.1, h.2.2.2.1, h.2.2.2.2.1, h.2.2.2.2.2.1, k h h.2.2.2.2.2.2.1, h.2.2.2.2.2.2.2⟩
theorem canon_pwr (x : Power) (h : Canon s) (k : Canon s → Tbl.wf {} s.pwr.domains = true → Tbl.wf {} x.domains = true) :
    Canon { s with pwr := x } :=
  ⟨h.1, h.2.1, h.2.2.1, h.2.2.2.1, h.2.2.2.2.1, h.2.2.2.2.2.1, h.2.2.2.2.2.2.1, k h h.2.2.2.2.2.2.2⟩

/-! ### Parts without tables, and several parts at once -/

theorem canon_cfg (x : Config) (h : Canon s) : Canon { s with cfg := x } := h
theorem canon_sec (x : Security) (h : Canon s) : Canon { s with sec := x } := h
theorem canon_flash (x : Flash) (h : Canon s) : Canon { s with flash := x } := h
theorem canon_mgmt (x : Mgmt) (h : Canon s) : Canon { s with mgmt := x } := h
theorem canon_clk (x : Clock) (h : Canon s) : Canon { s with clk := x } := h
theorem canon_thm (x : Thermal) (h : Canon s) : Canon { s with thm := x } := h
theorem canon_pins (x : Pins) (h : Canon s) : Canon { s with pins := x } := h
theorem canon_free (x : Nat) (h : Canon s) : Canon { s with free := x } := h
theorem canon_cfg_flash (x0 : Config) (x1 : Flash) (h : Canon s) :
    Canon { s with cfg := x0, flash := x1 } := ⟨h.1, h.2.1, h.2.2.1, h.2.2.2.1, h.2.2.2.2.1, h.2.2.2.2.2.1, h.2.2.2.2.2.2.1, h.2.2.2.2.2.2.2⟩
theorem canon_cores_fab_jobs_mgmt (x0 : Tbl Core) (x1 : Fabric) (x2 : Jobs) (x3 : Mgmt) (h : Canon s)
    (k_cores : Canon s → Tbl.wf {} x0 = true ∧ ∀ lc, (Tbl.get {} x0 lc : Core).Canon)
    (k_fab : Canon s → s.fab.Canon → x1.Canon)
    (k_jobs : Canon s → s.jobs.Canon → x2.Canon) :
    Canon { s with cores := x0, fab := x1, jobs := x2, mgmt := x3 } := ⟨k_cores h, h.2.1, h.2.2.1, h.2.2.2.1, k_fab h h.2.2.2.2.1, h.2.2.2.2.2.1, k_jobs h h.2.2.2.2.2.2.1, h.2.2.2.2.2.2.2⟩
theorem canon_cores_host_flash_mgmt (x0 : Tbl Core) (x1 : HostIf) (x2 : Flash) (x3 : Mgmt) (h : Canon s)
    (k_cores : Canon s → Tbl.wf {} x0 = true ∧ ∀ lc, (Tbl.get {} x0 lc : Core).Canon)
    (k_host : Canon s → s.host.Canon → x1.Canon) :
    Canon { s with cores := x0, host := x1, flash := x2, mgmt := x3 } := ⟨k_cores h, h.2.1, h.2.2.1, h.2.2.2.1, h.2.2.2.2.1, k_host h h.2.2.2.2.2.1, h.2.2.2.2.2.2.1, h.2.2.2.2.2.2.2⟩
theorem canon_cores_mem_ports_fab_jobs_mgmt_pwr_clk_thm (x0 : Tbl Core) (x1 : Mem) (x2 : Tbl Port) (x3 : Fabric) (x4 : Jobs) (x5 : Mgmt) (x6 : Power) (x7 : Clock) (x8 : Thermal) (h : Canon s)
    (k_cores : Canon s → Tbl.wf {} x0 = true ∧ ∀ lc, (Tbl.get {} x0 lc : Core).Canon)
    (k_mem : Canon s → s.mem.Canon → x1.Canon)
    (k_ports : Canon s → Tbl.wf {} x2 = true)
    (k_fab : Canon s → s.fab.Canon → x3.Canon)
    (k_jobs : Canon s → s.jobs.Canon → x4.Canon)
    (k_pwr : Canon s → Tbl.wf {} s.pwr.domains = true → Tbl.wf {} x6.domains = true) :
    Canon { s with cores := x0, mem := x1, ports := x2, fab := x3, jobs := x4, mgmt := x5, pwr := x6, clk := x7, thm := x8 } := ⟨k_cores h, k_mem h h.2.1, k_ports h, h.2.2.2.1, k_fab h h.2.2.2.2.1, h.2.2.2.2.2.1, k_jobs h h.2.2.2.2.2.2.1, k_pwr h h.2.2.2.2.2.2.2⟩
theorem canon_cores_mem_ports_optics_fab_host_jobs_cfg_mgmt_pins (x0 : Tbl Core) (x1 : Mem) (x2 : Tbl Port) (x3 : Tbl Optic) (x4 : Fabric) (x5 : HostIf) (x6 : Jobs) (x7 : Config) (x8 : Mgmt) (x9 : Pins) (h : Canon s)
    (k_cores : Canon s → Tbl.wf {} x0 = true ∧ ∀ lc, (Tbl.get {} x0 lc : Core).Canon)
    (k_mem : Canon s → s.mem.Canon → x1.Canon)
    (k_ports : Canon s → Tbl.wf {} x2 = true)
    (k_optics : Canon s → Tbl.wf {} x3 = true)
    (k_fab : Canon s → s.fab.Canon → x4.Canon)
    (k_host : Canon s → s.host.Canon → x5.Canon)
    (k_jobs : Canon s → s.jobs.Canon → x6.Canon) :
    Canon { s with cores := x0, mem := x1, ports := x2, optics := x3, fab := x4, host := x5, jobs := x6, cfg := x7, mgmt := x8, pins := x9 } := ⟨k_cores h, k_mem h h.2.1, k_ports h, k_optics h, k_fab h h.2.2.2.2.1, k_host h h.2.2.2.2.2.1, k_jobs h h.2.2.2.2.2.2.1, h.2.2.2.2.2.2.2⟩
theorem canon_fab_mgmt (x0 : Fabric) (x1 : Mgmt) (h : Canon s)
    (k_fab : Canon s → s.fab.Canon → x0.Canon) :
    Canon { s with fab := x0, mgmt := x1 } := ⟨h.1, h.2.1, h.2.2.1, h.2.2.2.1, k_fab h h.2.2.2.2.1, h.2.2.2.2.2.1, h.2.2.2.2.2.2.1, h.2.2.2.2.2.2.2⟩
theorem canon_flash_mgmt (x0 : Flash) (x1 : Mgmt) (h : Canon s) :
    Canon { s with flash := x0, mgmt := x1 } := ⟨h.1, h.2.1, h.2.2.1, h.2.2.2.1, h.2.2.2.2.1, h.2.2.2.2.2.1, h.2.2.2.2.2.2.1, h.2.2.2.2.2.2.2⟩
theorem canon_flash_pins (x0 : Flash) (x1 : Pins) (h : Canon s) :
    Canon { s with flash := x0, pins := x1 } := ⟨h.1, h.2.1, h.2.2.1, h.2.2.2.1, h.2.2.2.2.1, h.2.2.2.2.2.1, h.2.2.2.2.2.2.1, h.2.2.2.2.2.2.2⟩
theorem canon_host_sec (x0 : HostIf) (x1 : Security) (h : Canon s)
    (k_host : Canon s → s.host.Canon → x0.Canon) :
    Canon { s with host := x0, sec := x1 } := ⟨h.1, h.2.1, h.2.2.1, h.2.2.2.1, h.2.2.2.2.1, k_host h h.2.2.2.2.2.1, h.2.2.2.2.2.2.1, h.2.2.2.2.2.2.2⟩
theorem canon_mem_host (x0 : Mem) (x1 : HostIf) (h : Canon s)
    (k_mem : Canon s → s.mem.Canon → x0.Canon)
    (k_host : Canon s → s.host.Canon → x1.Canon) :
    Canon { s with mem := x0, host := x1 } := ⟨h.1, k_mem h h.2.1, h.2.2.1, h.2.2.2.1, h.2.2.2.2.1, k_host h h.2.2.2.2.2.1, h.2.2.2.2.2.2.1, h.2.2.2.2.2.2.2⟩
theorem canon_mgmt_pwr_pins (x0 : Mgmt) (x1 : Power) (x2 : Pins) (h : Canon s)
    (k_pwr : Canon s → Tbl.wf {} s.pwr.domains = true → Tbl.wf {} x1.domains = true) :
    Canon { s with mgmt := x0, pwr := x1, pins := x2 } := ⟨h.1, h.2.1, h.2.2.1, h.2.2.2.1, h.2.2.2.2.1, h.2.2.2.2.2.1, h.2.2.2.2.2.2.1, k_pwr h h.2.2.2.2.2.2.2⟩
theorem canon_mgmt_thm (x0 : Mgmt) (x1 : Thermal) (h : Canon s) :
    Canon { s with mgmt := x0, thm := x1 } := ⟨h.1, h.2.1, h.2.2.1, h.2.2.2.1, h.2.2.2.2.1, h.2.2.2.2.2.1, h.2.2.2.2.2.2.1, h.2.2.2.2.2.2.2⟩
theorem canon_pwr_pins (x0 : Power) (x1 : Pins) (h : Canon s)
    (k_pwr : Canon s → Tbl.wf {} s.pwr.domains = true → Tbl.wf {} x0.domains = true) :
    Canon { s with pwr := x0, pins := x1 } := ⟨h.1, h.2.1, h.2.2.1, h.2.2.2.1, h.2.2.2.2.1, h.2.2.2.2.2.1, h.2.2.2.2.2.2.1, k_pwr h h.2.2.2.2.2.2.2⟩
theorem canon_sec_mgmt (x0 : Security) (x1 : Mgmt) (h : Canon s) :
    Canon { s with sec := x0, mgmt := x1 } := ⟨h.1, h.2.1, h.2.2.1, h.2.2.2.1, h.2.2.2.2.1, h.2.2.2.2.2.1, h.2.2.2.2.2.2.1, h.2.2.2.2.2.2.2⟩
theorem canon_thm_pins (x0 : Thermal) (x1 : Pins) (h : Canon s) :
    Canon { s with thm := x0, pins := x1 } := ⟨h.1, h.2.1, h.2.2.1, h.2.2.2.1, h.2.2.2.2.1, h.2.2.2.2.2.1, h.2.2.2.2.2.2.1, h.2.2.2.2.2.2.2⟩

/-! ### Updates -/

theorem State.setCore_canon (lc : Nat) (c : Core) (h : Canon s) (k : c.Canon) : Canon (s.setCore lc c) := by
  refine canon_cores _ h fun h => ⟨Tbl.set_wf _ _ _ _ h.1.1, fun n => ?_⟩
  by_cases e : n = lc
  · subst e
    rw [Tbl.get_set_same _ _ _ _ h.1.1]
    exact k
  · rw [Tbl.get_set_other _ _ _ _ _ e]
    exact h.1.2 n
theorem State.onCore_canon (lc : Nat) (f : Core → Core) (h : Canon s) (k : ∀ c, c.Canon → (f c).Canon) :
    Canon (s.onCore lc f) := State.setCore_canon lc _ h (k _ (h.1.2 lc))
theorem State.onSeq_canon (lc : Nat) (f : Sequencer → Sequencer) (h : Canon s) (k : ∀ q, q.Canon → (f q).Canon) :
    Canon (s.onSeq lc f) := State.onCore_canon lc _ h fun _ c => ⟨k _ c.1, c.2⟩
theorem State.onScp_canon (lc : Nat) (f : Scratch → Scratch) (h : Canon s) (k : ∀ q, q.Canon → (f q).Canon) :
    Canon (s.onScp lc f) := State.onCore_canon lc _ h fun _ c => ⟨c.1, k _ c.2⟩
theorem State.onInteg_canon (lc : Nat) (f : Integrity → Integrity) (h : Canon s) : Canon (s.onInteg lc f) :=
  State.onCore_canon lc _ h fun _ c => c
theorem State.onEng_canon (lc : Nat) (e : Eng) (f : Engine → Engine) (h : Canon s) : Canon (s.onEng lc e f) :=
  State.onSeq_canon lc _ h fun _ k => Sequencer.onEng_canon e f k
theorem State.onQueue_canon (lc n : Nat) (f : Queue → Queue) (h : Canon s) : Canon (s.onQueue lc n f) :=
  State.onSeq_canon lc _ h fun _ k => Sequencer.onQueue_canon n f k
theorem State.onArray_canon (lc : Nat) (a : Arr) (f : ArrayU → ArrayU) (h : Canon s) : Canon (s.onArray lc a f) :=
  State.onCore_canon lc _ h fun _ c => Core.onArray_canon a f c
theorem State.onDom_canon (d : Nat) (f : Domain → Domain) (h : Canon s) : Canon (s.onDom d f) :=
  canon_pwr _ h fun _ k => Tbl.upd_wf _ _ _ _ k
theorem State.onPort_canon (p : Nat) (f : Port → Port) (h : Canon s) : Canon (s.onPort p f) :=
  canon_ports _ h fun k => Tbl.upd_wf _ _ _ _ k.2.2.1
theorem State.onOptic_canon (p : Nat) (f : Optic → Optic) (h : Canon s) : Canon (s.onOptic p f) :=
  canon_optics _ h fun k => Tbl.upd_wf _ _ _ _ k.2.2.2.1
theorem State.onSlice_canon (n : Nat) (f : Slice → Slice) (h : Canon s) : Canon (s.onSlice n f) :=
  canon_mem _ h fun _ k => ⟨k.1, k.2.1, Tbl.upd_wf _ _ _ _ k.2.2.1, k.2.2.2⟩
theorem State.onStk_canon (n : Nat) (f : Stack → Stack) (h : Canon s) : Canon (s.onStk n f) :=
  canon_mem _ h fun _ k => ⟨k.1, k.2.1, k.2.2.1, Tbl.upd_wf _ _ _ _ k.2.2.2.1, k.2.2.2.2⟩
theorem State.onFlow_canon (n : Nat) (f : Flow → Flow) (h : Canon s) : Canon (s.onFlow n f) :=
  canon_fab _ h fun _ k => ⟨Tbl.upd_wf _ _ _ _ k.1, k.2⟩
theorem State.onColl_canon (n : BitVec 20) (f : Coll → Coll) (h : Canon s) : Canon (s.onColl n f) :=
  canon_fab _ h fun _ k => ⟨k.1, Tbl.upd_wf _ _ _ _ k.2⟩
/-- A table one of whose pairs has changed. -/
theorem pairs_upd_canon {x : Tbl Pair} (n : Nat) (f : Pair → Pair) (h : Tbl.wf {} x = true) (k : ∀ n, (Tbl.get {} x n).Canon)
    (hf : (Tbl.get {} x n).Canon → (f (Tbl.get {} x n)).Canon) (m : Nat) : (Tbl.get {} (Tbl.upd {} x n f) m).Canon := by
  by_cases e : m = n
  · subst e
    rw [Tbl.get_upd_same _ _ _ _ h]
    exact hf (k _)
  · rw [Tbl.get_upd_other _ _ _ _ _ e]
    exact k m
theorem State.onPair_canon (n : Nat) (f : Pair → Pair) (h : Canon s)
    (hf : (s.pair n).Canon → (f (s.pair n)).Canon) : Canon (s.onPair n f) :=
  canon_host _ h fun _ k => ⟨Tbl.upd_wf _ _ _ _ k.1, k.2.1, pairs_upd_canon n f k.1 k.2.2 hf⟩
theorem State.onJob_canon (n : Nat) (f : Job → Job) (h : Canon s) : Canon (s.onJob n f) :=
  canon_jobs _ h fun _ k => ⟨Tbl.upd_wf _ _ _ _ k.1, k.2⟩
theorem State.onSQueue_canon (n : Nat) (f : SQueue → SQueue) (h : Canon s) : Canon (s.onSQueue n f) :=
  canon_jobs _ h fun _ k => ⟨k.1, Tbl.upd_wf _ _ _ _ k.2⟩

/-- The state right after reset. -/
theorem reset_canon : Canon State.reset :=
  ⟨⟨rfl, fun _ => ⟨⟨rfl, rfl, rfl, rfl, fun _ k => nomatch k⟩, rfl, rfl, rfl, rfl, rfl, rfl, rfl, rfl⟩⟩,
    ⟨rfl, rfl, rfl, rfl, rfl⟩, rfl, rfl, ⟨rfl, rfl⟩, ⟨rfl, rfl, fun _ => ⟨rfl, rfl⟩⟩, ⟨rfl, rfl⟩, rfl⟩

/-! ### Results that carry a state -/

/-- The state of an optional result is canonical. -/
def CanonO (o : Option State) : Prop := ∀ t, o = some t → Canon t
/-- The state of an optional pair is canonical. -/
def CanonP {α : Type} (o : Option (α × State)) : Prop := ∀ a t, o = some (a, t) → Canon t
/-- The next state of an outcome is canonical. -/
def CanonR (r : Res) : Prop := ∀ t, r = .next t → Canon t

theorem canon_ite {p : Prop} [Decidable p] {a b : State} (h : Canon a) (k : Canon b) : Canon (if p then a else b) := by
  split <;> assumption
theorem canon_foldl {α : Type} (f : State → α → State) (l : List α) (h : Canon s)
    (hf : ∀ u x, Canon u → Canon (f u x)) : Canon (l.foldl f s) := foldl_keeps f l h hf
theorem canon_foldl2 {α β : Type} (f : α × State → β → α × State) (l : List β) {x : α × State}
    (h : Canon x.2) (hf : ∀ u y, Canon u.2 → Canon (f u y).2) : Canon (l.foldl f x).2 :=
  foldl_keeps (P := fun x => Canon x.2) f l h hf
theorem canonR_ite {p : Prop} [Decidable p] {a b : Res} (h : CanonR a) (k : CanonR b) : CanonR (if p then a else b) := by
  split <;> assumption
theorem canonO_none : CanonO none := fun _ e => nomatch e
theorem canonO_some (h : Canon s) : CanonO (some s) := fun _ e => Option.some.inj e ▸ h
theorem canonP_none {α : Type} : CanonP (α := α) none := fun _ _ e => nomatch e
theorem canonP_some {α : Type} (a : α) (h : Canon s) : CanonP (some (a, s)) := fun _ _ e => by cases e; exact h
theorem canonR_next (h : Canon s) : CanonR (.next s) := fun _ e => by cases e; exact h
theorem canon_getD {o : Option State} (h : CanonO o) (k : Canon s) : Canon (o.getD s) := by
  cases o with
  | none => exact k
  | some t => exact h t (Eq.refl _)
theorem canonO_bind {o : Option State} (f : State → Option State) (h : CanonO o) (hf : ∀ u, Canon u → CanonO (f u)) :
    CanonO (o.bind f) := by
  cases o with
  | none => exact canonO_none
  | some t => exact hf t (h t (Eq.refl _))
theorem canonO_foldl {α : Type} (f : Option State → α → Option State) (l : List α) {o : Option State}
    (h : CanonO o) (hf : ∀ u x, CanonO u → CanonO (f u x)) : CanonO (l.foldl f o) := foldl_keeps f l h hf
theorem canonP_foldl {α β : Type} (f : Option (β × State) → α → Option (β × State)) (l : List α)
    {o : Option (β × State)} (h : CanonP o) (hf : ∀ u x, CanonP u → CanonP (f u x)) : CanonP (l.foldl f o) :=
  foldl_keeps f l h hf
theorem canonP_map {α : Type} {o : Option State} (a : α) (h : CanonO o) : CanonP (o.map fun t => (a, t)) := by
  cases o with
  | none => exact canonP_none
  | some t => exact canonP_some a (h t (Eq.refl _))
theorem CanonO.out {o : Option State} (h : CanonO o) (e : o = some t) : Canon t := h t e
theorem CanonP.out {α : Type} {o : Option (α × State)} {a : α} (h : CanonP o) (e : o = some (a, t)) : Canon t := h a t e
theorem canon_pair {α : Type} {x : α × State} {a : α} (h : Canon x.2) (e : x = (a, t)) : Canon t := by cases e; exact h
theorem canon_trip {α β : Type} {x : α × β × State} {a : α} {b : β} (h : Canon x.2.2) (e : x = (a, b, t)) : Canon t := by
  cases e; exact h
theorem canon_fst {α : Type} {x : State × α} {a : α} (h : Canon x.1) (e : x = (t, a)) : Canon t := by cases e; exact h

/-- The state of an optional triple is canonical. -/
def CanonQ {α β : Type} (o : Option (α × β × State)) : Prop := ∀ a b t, o = some (a, b, t) → Canon t
theorem canonQ_none {α β : Type} : CanonQ (α := α) (β := β) none := fun _ _ _ e => nomatch e
theorem canonQ_some {α β : Type} (a : α) (b : β) (h : Canon s) : CanonQ (some (a, b, s)) := fun _ _ _ e => by
  cases e; exact h
theorem CanonQ.out {α β : Type} {o : Option (α × β × State)} {a : α} {b : β} (h : CanonQ o) (e : o = some (a, b, t)) :
    Canon t := h a b t e

/-- The state of a packet's verdict is canonical. -/
def CanonV : Verdict → Prop
  | .settled t => Canon t
  | .fresh t => Canon t
theorem canonV_settled (h : Canon s) : CanonV (.settled s) := h
theorem canonV_fresh (h : Canon s) : CanonV (.fresh s) := h
theorem CanonV.settledOut {v : Verdict} (h : CanonV v) (e : v = .settled t) : Canon t := by cases e; exact h
theorem CanonV.freshOut {v : Verdict} (h : CanonV v) (e : v = .fresh t) : Canon t := by cases e; exact h

/-- The state of a placement is canonical. -/
def CanonL : Placed → Prop
  | .full => True
  | .queued t => Canon t
  | .code t => Canon t
  | .done t => Canon t
theorem canonL_full : CanonL .full := trivial
theorem canonL_queued (h : Canon s) : CanonL (.queued s) := h
theorem canonL_code (h : Canon s) : CanonL (.code s) := h
theorem canonL_done (h : Canon s) : CanonL (.done s) := h
theorem CanonL.queuedOut {v : Placed} (h : CanonL v) (e : v = .queued t) : Canon t := by cases e; exact h
theorem CanonL.codeOut {v : Placed} (h : CanonL v) (e : v = .code t) : Canon t := by cases e; exact h
theorem CanonL.doneOut {v : Placed} (h : CanonL v) (e : v = .done t) : Canon t := by cases e; exact h

/-- The state of a search for a flow context is canonical. -/
def CanonT (v : Took) : Prop := ∀ t, v = .wait t → Canon t
theorem canonT_got (i : Nat) : CanonT (.got i) := fun _ e => nomatch e
theorem canonT_full : CanonT .full := fun _ e => nomatch e
theorem canonT_wait (h : Canon s) : CanonT (.wait s) := fun _ e => by cases e; exact h
theorem CanonT.out {v : Took} (h : CanonT v) (e : v = .wait t) : Canon t := h t e

/-- The state of a transfer into an own window is canonical. -/
def CanonW : OwnWin → Prop
  | .refused _ t => Canon t
  | .queued t => Canon t
  | .placed t => Canon t
theorem canonW_refused (c : Nat) (h : Canon s) : CanonW (.refused c s) := h
theorem canonW_queued (h : Canon s) : CanonW (.queued s) := h
theorem canonW_placed (h : Canon s) : CanonW (.placed s) := h
theorem CanonW.refusedOut {v : OwnWin} {c : Nat} (h : CanonW v) (e : v = .refused c t) : Canon t := by cases e; exact h
theorem CanonW.queuedOut {v : OwnWin} (h : CanonW v) (e : v = .queued t) : Canon t := by cases e; exact h
theorem CanonW.placedOut {v : OwnWin} (h : CanonW v) (e : v = .placed t) : Canon t := by cases e; exact h

/-- The state of bytes that land is canonical. -/
def CanonD : Landed → Prop
  | .wait _ t => Canon t
  | .code => True
  | .done t => Canon t
theorem canonD_wait (c : Nat) (h : Canon s) : CanonD (.wait c s) := h
theorem canonD_code : CanonD .code := trivial
theorem canonD_done (h : Canon s) : CanonD (.done s) := h
theorem CanonD.waitOut {v : Landed} {c : Nat} (h : CanonD v) (e : v = .wait c t) : Canon t := by cases e; exact h
theorem CanonD.doneOut {v : Landed} (h : CanonD v) (e : v = .done t) : Canon t := by cases e; exact h

/-- The state an attempt to begin a command leaves, where it waits, is canonical. -/
def CanonA (v : Adm) : Prop := ∀ c t, v = .stall c t → Canon t
theorem canonA_stall (c : Nat) (h : Canon s) : CanonA (.stall c s) := fun _ _ e => by cases e; exact h
theorem canonA_off : CanonA .off := fun _ _ e => nomatch e
theorem canonA_empty : CanonA .empty := fun _ _ e => nomatch e
theorem canonA_stopCount : CanonA .stopCount := fun _ _ e => nomatch e
theorem canonA_fail (c : Nat) : CanonA (.fail c) := fun _ _ e => nomatch e
theorem canonA_go (c : Ctx) : CanonA (.go c) := fun _ _ e => nomatch e
theorem canonA_ite {p : Prop} [Decidable p] {a b : Adm} (h : CanonA a) (k : CanonA b) : CanonA (if p then a else b) := by
  split <;> assumption
theorem CanonA.out {v : Adm} {c : Nat} (h : CanonA v) (e : v = .stall c t) : Canon t := h c t e

/-- The state of a wait for a flow is canonical. -/
def CanonF (v : FarFlow) : Prop := ∀ t, v = .wait t → Canon t
theorem canonF_wait (h : Canon s) : CanonF (.wait s) := fun _ e => by cases e; exact h
theorem canonF_ready (i : Nat) : CanonF (.ready i) := fun _ e => nomatch e
theorem canonF_refused (i : Nat) : CanonF (.refused i) := fun _ e => nomatch e
theorem CanonF.out {v : FarFlow} (h : CanonF v) (e : v = .wait t) : Canon t := h t e

/-- The state of a right side is canonical. -/
def CanonM {α : Type} (v : α ⊕ State) : Prop := ∀ t, v = .inr t → Canon t
theorem canonM_inl {α : Type} (a : α) : CanonM (.inl a) := fun _ e => nomatch e
theorem canonM_inr {α : Type} (h : Canon s) : CanonM (α := α) (.inr s) := fun _ e => by cases e; exact h
theorem CanonM.out {α : Type} {v : α ⊕ State} (h : CanonM v) (e : v = .inr t) : Canon t := h t e

/-- The state of either side is canonical. -/
def CanonE {α : Type} : State ⊕ (α × State) → Prop
  | .inl t => Canon t
  | .inr x => Canon x.2
theorem canonE_l {α : Type} (h : Canon s) : CanonE (α := α) (.inl s) := h
theorem canonE_r {α : Type} (a : α) (h : Canon s) : CanonE (.inr (a, s)) := h
theorem CanonE.lOut {α : Type} {v : State ⊕ (α × State)} (h : CanonE v) (e : v = .inl t) : Canon t := by cases e; exact h
theorem CanonE.rOut {α : Type} {v : State ⊕ (α × State)} {a : α} (h : CanonE v) (e : v = .inr (a, t)) : Canon t := by
  cases e; exact h

end Sys2Proof.Machine
end

