-- ==== Sys2Proof/Laws/Canons0.lean ====
section
/-! SUPPORT. Each operation and meaning, in dependency order (part 1 of 10), keeps the canonical form. -/

namespace Sys2Proof.Machine

theorem State.endWindows_canon {s : State} (a1 : ℕ) (a2 : TaskRec) (h : Canon s) :
    Canon (State.endWindows s a1 a2) := by
  unfold State.endWindows
  try dsimp only
  repeat' first
    | with_reducible assumption
    | with_reducible apply State.onSeq_canon
    | with_reducible apply Sequencer.closeWindow_canon
    | with_reducible apply canon_ite
    | with_reducible refine foldl_keeps (P := Sequencer.Canon) _ _ hq ?_
    | with_reducible apply canon_foldl
    | with_reducible apply canon_foldl2
    | (with_reducible intro u x hu; try dsimp only)
    | (with_reducible intro q hq; try dsimp only)
    | split
    | exact fun _ k => ⟨k.1, k.2⟩
    | exact fun _ k => k
    | exact ⟨hq.1, hq.2⟩
    | (refine ⟨⟨hq.1.1, hq.1.2⟩, ?_⟩)
    | (refine ⟨hq.1, ?_⟩)

theorem State.resolveRx_canon {s : State} (a1 : List RxXfer) (a2 : RxXfer → Bool) (a3 : Bool) (h : Canon s) :
    Canon (State.resolveRx s a1 a2 a3).1 := by
  unfold State.resolveRx
  try dsimp only
  repeat' first
    | with_reducible assumption
    | with_reducible apply State.onScp_canon
    | with_reducible apply Scratch.poisonRuns_canon
    | with_reducible apply canon_ite
    | with_reducible refine foldl_keeps (P := Scratch.Canon) _ _ hq ?_
    | with_reducible apply canon_foldl
    | with_reducible apply canon_foldl2
    | (with_reducible intro u x hu; try dsimp only)
    | (with_reducible intro q hq; try dsimp only)
    | split
    | exact fun _ k => ⟨k.1, k.2⟩
    | exact fun _ k => k
    | exact ⟨hq.1, hq.2⟩
    | (refine ⟨⟨hq.1.1, hq.1.2⟩, ?_⟩)
    | (refine ⟨hq.1, ?_⟩)

theorem State.dropAside_canon {s : State} (a1 : ℕ) (a2 : ℕ) (a3 : Bool) (h : Canon s) :
    Canon (State.dropAside s a1 a2 a3) := by
  unfold State.dropAside
  try dsimp only
  repeat' first
    | with_reducible assumption
    | with_reducible apply canon_ite
    | split
    | with_reducible refine canon_mem _ ?_ ?_
    | exact fun _ k => ⟨k.1, k.2⟩
    | exact fun _ k => k
    | exact ⟨hq.1, hq.2⟩
    | exact fun _ k => ⟨k.1, k.2.1, (by dsimp only; exact Tbl.mapv_wf _ _ _ k.2.2.1), k.2.2.2⟩
    | exact fun _ k => ⟨k.1, k.2.1, k.2.2.1, (by dsimp only; exact Tbl.mapv_wf _ _ _ k.2.2.2)⟩
    | exact fun _ k => ⟨(by dsimp only; exact Tbl.mapv_wf _ _ _ k.1), k.2⟩
    | exact fun _ k => ⟨k.1, (by dsimp only; exact Tbl.mapv_wf _ _ _ k.2)⟩
    | exact ⟨hq.1, hq.2.1, hq.2.2.1, (by dsimp only; exact Tbl.set_wf _ _ _ _ hq.2.2.2.1), hq.2.2.2.2⟩
    | exact ⟨hq.1, hq.2.1, (by dsimp only; exact Tbl.set_wf _ _ _ _ hq.2.2.1), hq.2.2.2⟩
    | exact ⟨(by dsimp only; exact Tbl.mapv_wf _ _ _ hq.1), hq.2⟩
    | exact fun k => cores_mapv_canon _ (fun c k => Core.halt_canon k) k
    | exact fun k => (by dsimp only; exact Tbl.mapv_wf _ _ _ k.2.2.1)
    | exact fun k => (by dsimp only; exact Tbl.mapv_wf _ _ _ k.2.2.2.1)
    | exact fun _ k => (by dsimp only; exact Tbl.mapv_wf _ _ _ k)
    | (refine ⟨⟨hq.1.1, hq.1.2⟩, ?_⟩)
    | (refine ⟨hq.1, ?_⟩)

theorem State.raiseMark_canon {s : State} (a1 : ℕ) (a2 : BitVec 12) (a3 : BitVec 16) (a4 : ℕ) (h : Canon s) :
    Canon (State.raiseMark s a1 a2 a3 a4) := by
  unfold State.raiseMark
  try dsimp only
  repeat' first
    | with_reducible assumption
    | with_reducible apply State.onSeq_canon
    | with_reducible apply Sequencer.onWin_canon
    | with_reducible refine Sequencer.windowPump_canon _ _ ?_
    | with_reducible apply canon_ite
    | (with_reducible intro q hq; try dsimp only)
    | split
    | exact fun _ k => ⟨k.1, k.2⟩
    | exact fun _ k => k
    | exact ⟨hq.1, hq.2⟩
    | (refine ⟨⟨hq.1.1, hq.1.2⟩, ?_⟩)
    | (refine ⟨hq.1, ?_⟩)

theorem State.raiseAll_canon {s : State} (a1 : List RxXfer) (h : Canon s) :
    Canon (State.raiseAll s a1) := by
  unfold State.raiseAll
  try dsimp only
  repeat' first
    | with_reducible assumption
    | with_reducible apply State.raiseMark_canon
    | with_reducible apply canon_ite
    | with_reducible apply canon_foldl
    | with_reducible apply canon_foldl2
    | (with_reducible intro u x hu; try dsimp only)
    | split
    | exact fun _ k => ⟨k.1, k.2⟩
    | exact fun _ k => k
    | exact ⟨hq.1, hq.2⟩
    | (refine ⟨⟨hq.1.1, hq.1.2⟩, ?_⟩)
    | (refine ⟨hq.1, ?_⟩)

theorem State.settleLoc_canon {s : State} (h : Canon s) :
    Canon (State.settleLoc s) := by
  unfold State.settleLoc
  try dsimp only
  repeat' first
    | with_reducible assumption
    | with_reducible apply State.raiseAll_canon
    | with_reducible apply canon_ite
    | split
    | with_reducible refine canon_fab _ ?_ ?_
    | exact fun _ k => ⟨k.1, k.2⟩
    | exact fun _ k => k
    | exact ⟨hq.1, hq.2⟩
    | (refine ⟨⟨hq.1.1, hq.1.2⟩, ?_⟩)
    | (refine ⟨hq.1, ?_⟩)

theorem State.abortAside_canon {s : State} (a1 : ℕ) (a2 : ℕ) (h : Canon s) :
    Canon (State.abortAside s a1 a2) := by
  unfold State.abortAside
  dsimp only
  refine State.settleLoc_canon (canon_fab _ (State.resolveRx_canon _ _ _
    (State.onScp_canon _ _ (State.dropAside_canon _ _ _ h) fun m hm => ?_)) fun _ k => ⟨k.1, k.2⟩)
  have k : (List.foldl (fun (m : Scratch) (x : Nat × Extent) => m.poisonRuns x.2.words) m
      (m.away.filter fun x => x.1 == a2)).Canon :=
    foldl_keeps _ _ hm fun m x k => Scratch.poisonRuns_canon _ k
  exact ⟨k.1, k.2.1, k.2.2⟩

theorem State.ctxCount_canon {s : State} (a1 : ℕ) (a2 : Bool) (h : Canon s) :
    Canon (State.ctxCount s a1 a2) := by
  unfold State.ctxCount
  try dsimp only
  repeat' first
    | with_reducible assumption
    | with_reducible apply canon_ite
    | split
    | with_reducible refine canon_fab _ ?_ ?_
    | exact fun _ k => ⟨k.1, k.2⟩
    | exact fun _ k => k
    | exact ⟨hq.1, hq.2⟩
    | (refine ⟨⟨hq.1.1, hq.1.2⟩, ?_⟩)
    | (refine ⟨hq.1, ?_⟩)

theorem State.ctxUse_canon {s : State} (a1 : ℕ) (h : Canon s) :
    Canon (State.ctxUse s a1).2 := by
  unfold State.ctxUse
  try dsimp only
  repeat' first
    | with_reducible assumption
    | with_reducible apply State.ctxCount_canon
    | with_reducible apply State.onFlow_canon
    | with_reducible apply canon_ite
    | split
    | exact fun _ k => ⟨k.1, k.2⟩
    | exact fun _ k => k
    | exact ⟨hq.1, hq.2⟩
    | (refine ⟨⟨hq.1.1, hq.1.2⟩, ?_⟩)
    | (refine ⟨hq.1, ?_⟩)
    | dsimp only

theorem State.wire_canon {s : State} (a1 : ℕ) (a2 : BitVec 32) (a3 : ℕ → List Byte) (h : Canon s) :
    Canon (State.wire s a1 a2 a3) := by
  unfold State.wire
  try dsimp only
  repeat' first
    | with_reducible assumption
    | with_reducible apply State.onFlow_canon
    | with_reducible apply State.onPort_canon
    | with_reducible apply canon_ite
    | split
    | exact fun _ k => ⟨k.1, k.2⟩
    | exact fun _ k => k
    | exact ⟨hq.1, hq.2⟩
    | (refine ⟨⟨hq.1.1, hq.1.2⟩, ?_⟩)
    | (refine ⟨hq.1, ?_⟩)

theorem State.emit_canon {s : State} (a1 : ℕ) (a2 : TxPkt) (h : Canon s) :
    Canon (State.emit s a1 a2) := by
  unfold State.emit
  try dsimp only
  repeat' first
    | with_reducible assumption
    | with_reducible apply State.wire_canon
    | with_reducible apply State.onFlow_canon
    | with_reducible apply canon_ite
    | split
    | exact fun _ k => ⟨k.1, k.2⟩
    | exact fun _ k => k
    | exact ⟨hq.1, hq.2⟩
    | (refine ⟨⟨hq.1.1, hq.1.2⟩, ?_⟩)
    | (refine ⟨hq.1, ?_⟩)

theorem State.drainOut_canon {s : State} (a1 : ℕ) (a2 : ℕ) (h : Canon s) :
    Canon (State.drainOut s a1 a2) := by
  induction a2 generalizing s a1 with
  | zero =>
    unfold State.drainOut
    try dsimp only
    repeat' first
      | with_reducible assumption
      | with_reducible apply State.ctxUse_canon
      | with_reducible refine canon_pair (x := State.ctxUse _ _) ?_ (by assumption)
      | with_reducible apply State.onFlow_canon
      | with_reducible apply State.emit_canon
      | with_reducible apply canon_ite
      | split
      | exact fun _ k => ⟨k.1, k.2⟩
      | exact fun _ k => k
      | exact ⟨hq.1, hq.2⟩
      | (refine ⟨⟨hq.1.1, hq.1.2⟩, ?_⟩)
      | (refine ⟨hq.1, ?_⟩)
  | succ k ih =>
    unfold State.drainOut
    try dsimp only
    repeat' first
      | with_reducible assumption
      | with_reducible apply ih
      | with_reducible apply State.ctxUse_canon
      | with_reducible refine canon_pair (x := State.ctxUse _ _) ?_ (by assumption)
      | with_reducible apply State.onFlow_canon
      | with_reducible apply State.emit_canon
      | with_reducible apply canon_ite
      | split
      | exact fun _ k => ⟨k.1, k.2⟩
      | exact fun _ k => k
      | exact ⟨hq.1, hq.2⟩
      | (refine ⟨⟨hq.1.1, hq.1.2⟩, ?_⟩)
      | (refine ⟨hq.1, ?_⟩)

theorem State.goOut_canon {s : State} (a1 : ℕ) (h : Canon s) :
    Canon (State.goOut s a1) := by
  unfold State.goOut
  try dsimp only
  repeat' first
    | with_reducible assumption
    | with_reducible apply State.drainOut_canon
    | with_reducible apply canon_ite
    | split
    | exact fun _ k => ⟨k.1, k.2⟩
    | exact fun _ k => k
    | exact ⟨hq.1, hq.2⟩
    | (refine ⟨⟨hq.1.1, hq.1.2⟩, ?_⟩)
    | (refine ⟨hq.1, ?_⟩)

theorem State.sendSeq_canon {s : State} (a1 : ℕ) (a2 : TxPkt) (h : Canon s) :
    Canon (State.sendSeq s a1 a2) := by
  unfold State.sendSeq
  try dsimp only
  repeat' first
    | with_reducible assumption
    | with_reducible apply State.goOut_canon
    | with_reducible apply State.onFlow_canon
    | with_reducible apply canon_ite
    | split
    | exact fun _ k => ⟨k.1, k.2⟩
    | exact fun _ k => k
    | exact ⟨hq.1, hq.2⟩
    | (refine ⟨⟨hq.1.1, hq.1.2⟩, ?_⟩)
    | (refine ⟨hq.1, ?_⟩)

theorem State.sendCtl_canon {s : State} (a1 : ℕ) (a2 : ℕ) (a3 : BitVec 256) (a4 : List Byte) (a5 : ℕ) (h : Canon s) :
    Canon (State.sendCtl s a1 a2 a3 a4 a5) := by
  unfold State.sendCtl
  try dsimp only
  repeat' first
    | with_reducible assumption
    | with_reducible apply State.sendSeq_canon
    | with_reducible apply canon_ite
    | split
    | exact fun _ k => ⟨k.1, k.2⟩
    | exact fun _ k => k
    | exact ⟨hq.1, hq.2⟩
    | (refine ⟨⟨hq.1.1, hq.1.2⟩, ?_⟩)
    | (refine ⟨hq.1, ?_⟩)

theorem State.endSaved_canon {s : State} (a1 : ℕ) (a2 : TaskRec) (a3 : Saved) (h : Canon s) :
    Canon (State.endSaved s a1 a2 a3) := by
  unfold State.endSaved
  refine State.onSeq_canon _ _ (State.endWindows_canon _ _ (State.abortAside_canon _ _ (canon_foldl _ _ h ?_)))
    fun q hq => ⟨hq.1, hq.2.1, hq.2.2.1, hq.2.2.2.1, fun v hv => hq.2.2.2.2 v (List.mem_filter.mp hv).1⟩
  intro u p hu
  exact canon_ite (canon_foldl _ _ hu fun v y hv => State.sendCtl_canon _ _ _ _ _ hv) hu

theorem State.endAllSaved_canon {s : State} (a1 : ℕ) (h : Canon s) :
    Canon (State.endAllSaved s a1) := by
  unfold State.endAllSaved
  try dsimp only
  repeat' first
    | with_reducible assumption
    | with_reducible apply State.endSaved_canon
    | with_reducible apply canon_ite
    | with_reducible apply canon_foldl
    | with_reducible apply canon_foldl2
    | (with_reducible intro u x hu; try dsimp only)
    | split
    | exact fun _ k => ⟨k.1, k.2⟩
    | exact fun _ k => k
    | exact ⟨hq.1, hq.2⟩
    | (refine ⟨⟨hq.1.1, hq.1.2⟩, ?_⟩)
    | (refine ⟨hq.1, ?_⟩)

theorem execEccWriteback_canon {s : State} (a0 : Fin 64) (a1 : Fin 786432) (h : Canon s) :
    CanonR (execEccWriteback a0 a1 s) := by
  unfold execEccWriteback
  try dsimp only
  repeat' first
    | with_reducible assumption
    | with_reducible apply State.onScp_canon
    | with_reducible apply Scratch.restore_canon
    | with_reducible apply canon_ite
    | (with_reducible intro q hq; try dsimp only)
    | with_reducible apply canonR_ite
    | with_reducible apply canonR_next
    | split
    | exact fun _ k => ⟨k.1, k.2⟩
    | exact fun _ k => k
    | exact ⟨hq.1, hq.2⟩
    | (refine ⟨⟨hq.1.1, hq.1.2⟩, ?_⟩)
    | (refine ⟨hq.1, ?_⟩)

theorem State.restartSecurity_canon {s : State} (a1 : Bool) (h : Canon s) :
    Canon (State.restartSecurity s a1) := by
  unfold State.restartSecurity
  try dsimp only
  repeat' first
    | with_reducible assumption
    | with_reducible apply canon_ite
    | split
    | with_reducible refine canon_sec _ ?_
    | exact fun _ k => ⟨k.1, k.2⟩
    | exact fun _ k => k
    | exact ⟨hq.1, hq.2⟩
    | (refine ⟨⟨hq.1.1, hq.1.2⟩, ?_⟩)
    | (refine ⟨hq.1, ?_⟩)

theorem State.freeRegs_canon {s : State} (a1 : ℕ) (a2 : ℕ) (a3 : ℕ) (h : Canon s) : Canon
    (State.freeRegs s a1 a2 a3) := by
  unfold State.freeRegs
  generalize List.range a3 = l
  exact State.onScp_canon _ _ (canon_free _ h) fun q hq =>
    ⟨hq.1, foldl_keeps (P := fun (m : Memory) => m.wf = true) _ _ hq.2.1 fun _ _ k => Mem.writeN_wf _ _ _ k, hq.2.2⟩

theorem State.signal_canon {s : State} (a1 : ℕ) (a2 : Sent) (h : Canon s) :
    Canon (State.signal s a1 a2) := by
  unfold State.signal
  try dsimp only
  repeat' first
    | with_reducible assumption
    | with_reducible apply State.onPort_canon
    | with_reducible apply canon_ite
    | split
    | exact fun _ k => ⟨k.1, k.2⟩
    | exact fun _ k => k
    | exact ⟨hq.1, hq.2⟩
    | (refine ⟨⟨hq.1.1, hq.1.2⟩, ?_⟩)
    | (refine ⟨hq.1, ?_⟩)

theorem State.electSlave_canon {s : State} (h : Canon s) :
    Canon (State.electSlave s) := by
  unfold State.electSlave
  try dsimp only
  repeat' first
    | with_reducible assumption
    | with_reducible apply canon_ite
    | split
    | with_reducible refine canon_fab _ ?_ ?_
    | exact fun _ k => ⟨k.1, k.2⟩
    | exact fun _ k => k
    | exact ⟨hq.1, hq.2⟩
    | (refine ⟨⟨hq.1.1, hq.1.2⟩, ?_⟩)
    | (refine ⟨hq.1, ?_⟩)

theorem State.portTo_canon {s : State} (a1 : ℕ) (a2 : PortSt) (h : Canon s) :
    Canon (State.portTo s a1 a2) := by
  unfold State.portTo
  try dsimp only
  repeat' first
    | with_reducible assumption
    | with_reducible apply State.electSlave_canon
    | with_reducible apply State.onPort_canon
    | with_reducible apply canon_ite
    | split
    | with_reducible refine canon_fab _ ?_ ?_
    | exact fun _ k => ⟨k.1, k.2⟩
    | exact fun _ k => k
    | exact ⟨hq.1, hq.2⟩
    | exact fun _ k => ⟨k.1, k.2.1, (by dsimp only; exact Tbl.mapv_wf _ _ _ k.2.2.1), k.2.2.2⟩
    | exact fun _ k => ⟨k.1, k.2.1, k.2.2.1, (by dsimp only; exact Tbl.mapv_wf _ _ _ k.2.2.2)⟩
    | exact fun _ k => ⟨(by dsimp only; exact Tbl.mapv_wf _ _ _ k.1), k.2⟩
    | exact fun _ k => ⟨k.1, (by dsimp only; exact Tbl.mapv_wf _ _ _ k.2)⟩
    | exact ⟨hq.1, hq.2.1, hq.2.2.1, (by dsimp only; exact Tbl.set_wf _ _ _ _ hq.2.2.2.1), hq.2.2.2.2⟩
    | exact ⟨hq.1, hq.2.1, (by dsimp only; exact Tbl.set_wf _ _ _ _ hq.2.2.1), hq.2.2.2⟩
    | exact ⟨(by dsimp only; exact Tbl.mapv_wf _ _ _ hq.1), hq.2⟩
    | exact fun k => cores_mapv_canon _ (fun c k => Core.halt_canon k) k
    | exact fun k => (by dsimp only; exact Tbl.mapv_wf _ _ _ k.2.2.1)
    | exact fun k => (by dsimp only; exact Tbl.mapv_wf _ _ _ k.2.2.2.1)
    | exact fun _ k => (by dsimp only; exact Tbl.mapv_wf _ _ _ k)
    | (refine ⟨⟨hq.1.1, hq.1.2⟩, ?_⟩)
    | (refine ⟨hq.1, ?_⟩)

theorem State.quenchPorts_canon {s : State} (h : Canon s) :
    Canon (State.quenchPorts s) := by
  unfold State.quenchPorts
  try dsimp only
  repeat' first
    | with_reducible assumption
    | with_reducible apply State.signal_canon
    | with_reducible apply State.portTo_canon
    | with_reducible apply State.onPort_canon
    | with_reducible apply canon_ite
    | with_reducible apply canon_foldl
    | with_reducible apply canon_foldl2
    | (with_reducible intro u x hu; try dsimp only)
    | split
    | exact fun _ k => ⟨k.1, k.2⟩
    | exact fun _ k => k
    | exact ⟨hq.1, hq.2⟩
    | (refine ⟨⟨hq.1.1, hq.1.2⟩, ?_⟩)
    | (refine ⟨hq.1, ?_⟩)

theorem State.quiesceAll_canon {s : State} (h : Canon s) :
    Canon (State.quiesceAll s) := by
  unfold State.quiesceAll
  try dsimp only
  repeat' first
    | with_reducible assumption
    | with_reducible apply State.onStk_canon
    | with_reducible apply State.onDom_canon
    | with_reducible apply State.quenchPorts_canon
    | with_reducible apply canon_ite
    | with_reducible apply canon_foldl
    | with_reducible apply canon_foldl2
    | (with_reducible intro u x hu; try dsimp only)
    | split
    | exact fun _ k => ⟨k.1, k.2⟩
    | exact fun _ k => k
    | exact ⟨hq.1, hq.2⟩
    | (refine ⟨⟨hq.1.1, hq.1.2⟩, ?_⟩)
    | (refine ⟨hq.1, ?_⟩)

theorem State.loseRanges_canon {s : State} (h : Canon s) :
    Canon (State.loseRanges s) := by
  unfold State.loseRanges
  try dsimp only
  repeat' first
    | with_reducible assumption
    | with_reducible apply canon_ite
    | split
    | with_reducible refine canon_mem _ ?_ ?_
    | exact fun _ k => ⟨k.1, k.2⟩
    | exact fun _ k => k
    | exact ⟨hq.1, hq.2⟩
    | exact fun _ k => ⟨k.1, k.2.1, (by dsimp only; exact Tbl.mapv_wf _ _ _ k.2.2.1), k.2.2.2⟩
    | exact fun _ k => ⟨k.1, k.2.1, k.2.2.1, (by dsimp only; exact Tbl.mapv_wf _ _ _ k.2.2.2)⟩
    | exact fun _ k => ⟨(by dsimp only; exact Tbl.mapv_wf _ _ _ k.1), k.2⟩
    | exact fun _ k => ⟨k.1, (by dsimp only; exact Tbl.mapv_wf _ _ _ k.2)⟩
    | exact ⟨hq.1, hq.2.1, hq.2.2.1, (by dsimp only; exact Tbl.set_wf _ _ _ _ hq.2.2.2.1), hq.2.2.2.2⟩
    | exact ⟨hq.1, hq.2.1, (by dsimp only; exact Tbl.set_wf _ _ _ _ hq.2.2.1), hq.2.2.2⟩
    | exact ⟨(by dsimp only; exact Tbl.mapv_wf _ _ _ hq.1), hq.2⟩
    | exact fun k => cores_mapv_canon _ (fun c k => Core.halt_canon k) k
    | exact fun k => (by dsimp only; exact Tbl.mapv_wf _ _ _ k.2.2.1)
    | exact fun k => (by dsimp only; exact Tbl.mapv_wf _ _ _ k.2.2.2.1)
    | exact fun _ k => (by dsimp only; exact Tbl.mapv_wf _ _ _ k)
    | (refine ⟨⟨hq.1.1, hq.1.2⟩, ?_⟩)
    | (refine ⟨hq.1, ?_⟩)

theorem State.logErr_canon {s : State} (a1 : ℕ) (a2 : ℕ) (a3 : ℕ) (a4 : ℕ) (a5 : List Byte) (h : Canon s) :
    Canon (State.logErr s a1 a2 a3 a4 a5) := by
  unfold State.logErr
  try dsimp only
  repeat' first
    | with_reducible assumption
    | with_reducible apply canon_ite
    | with_reducible apply canon_foldl
    | with_reducible apply canon_foldl2
    | (with_reducible intro u x hu; try dsimp only)
    | split
    | with_reducible refine canon_flash _ ?_
    | exact fun _ k => ⟨k.1, k.2⟩
    | exact fun _ k => k
    | exact ⟨hq.1, hq.2⟩
    | exact fun _ k => ⟨k.1, k.2.1, (by dsimp only; exact Tbl.mapv_wf _ _ _ k.2.2.1), k.2.2.2⟩
    | exact fun _ k => ⟨k.1, k.2.1, k.2.2.1, (by dsimp only; exact Tbl.mapv_wf _ _ _ k.2.2.2)⟩
    | exact fun _ k => ⟨(by dsimp only; exact Tbl.mapv_wf _ _ _ k.1), k.2⟩
    | exact fun _ k => ⟨k.1, (by dsimp only; exact Tbl.mapv_wf _ _ _ k.2)⟩
    | exact ⟨hq.1, hq.2.1, hq.2.2.1, (by dsimp only; exact Tbl.set_wf _ _ _ _ hq.2.2.2.1), hq.2.2.2.2⟩
    | exact ⟨hq.1, hq.2.1, (by dsimp only; exact Tbl.set_wf _ _ _ _ hq.2.2.1), hq.2.2.2⟩
    | exact ⟨(by dsimp only; exact Tbl.mapv_wf _ _ _ hq.1), hq.2⟩
    | exact fun k => cores_mapv_canon _ (fun c k => Core.halt_canon k) k
    | exact fun k => (by dsimp only; exact Tbl.mapv_wf _ _ _ k.2.2.1)
    | exact fun k => (by dsimp only; exact Tbl.mapv_wf _ _ _ k.2.2.2.1)
    | exact fun _ k => (by dsimp only; exact Tbl.mapv_wf _ _ _ k)
    | (refine ⟨⟨hq.1.1, hq.1.2⟩, ?_⟩)
    | (refine ⟨hq.1, ?_⟩)

theorem State.bankedFailed_canon {s : State} (h : Canon s) :
    Canon (State.bankedFailed s) := by
  unfold State.bankedFailed
  try dsimp only
  repeat' first
    | with_reducible assumption
    | with_reducible apply canon_ite
    | split
    | with_reducible refine canon_mgmt _ ?_
    | exact fun _ k => ⟨k.1, k.2⟩
    | exact fun _ k => k
    | exact ⟨hq.1, hq.2⟩
    | (refine ⟨⟨hq.1.1, hq.1.2⟩, ?_⟩)
    | (refine ⟨hq.1, ?_⟩)

theorem State.sendVector_canon {s : State} (a1 : ℕ) (h : Canon s) :
    Canon (State.sendVector s a1) := by
  unfold State.sendVector
  try dsimp only
  repeat' first
    | with_reducible assumption
    | with_reducible apply canon_ite
    | split
    | with_reducible refine canon_host _ ?_ ?_
    | exact fun _ k => ⟨k.1, k.2⟩
    | exact fun _ k => k
    | exact ⟨hq.1, hq.2⟩
    | (refine ⟨⟨hq.1.1, hq.1.2⟩, ?_⟩)
    | (refine ⟨hq.1, ?_⟩)

theorem State.vectorOf_canon {s : State} (a1 : ℕ) (h : Canon s) :
    Canon (State.vectorOf s a1) := by
  unfold State.vectorOf
  try dsimp only
  repeat' first
    | with_reducible assumption
    | with_reducible apply State.sendVector_canon
    | with_reducible apply State.onPair_canon
    | with_reducible apply canon_ite
    | split
    | exact fun k => k
    | exact fun k => Pair.putMsg_canon _ k
    | exact fun k => Pair.write_canon _ _ k
    | exact fun _ k => ⟨k.1, k.2⟩
    | exact fun _ k => k
    | exact ⟨hq.1, hq.2⟩
    | (refine ⟨⟨hq.1.1, hq.1.2⟩, ?_⟩)
    | (refine ⟨hq.1, ?_⟩)

theorem State.hold_canon {s : State} (a1 : Held) (h : Canon s) :
    Canon (State.hold s a1) := by
  unfold State.hold
  try dsimp only
  repeat' first
    | with_reducible assumption
    | with_reducible apply canon_ite
    | split
    | with_reducible refine canon_host _ ?_ ?_
    | exact fun _ k => ⟨k.1, k.2⟩
    | exact fun _ k => k
    | exact ⟨hq.1, hq.2⟩
    | (refine ⟨⟨hq.1.1, hq.1.2⟩, ?_⟩)
    | (refine ⟨hq.1, ?_⟩)

theorem State.placeMsg_canon {s : State} (a1 : Held) (h : Canon s) :
    Canon (State.placeMsg s a1) := by
  unfold State.placeMsg
  try dsimp only
  repeat' first
    | with_reducible assumption
    | with_reducible apply State.hold_canon
    | with_reducible apply State.onPair_canon
    | with_reducible apply canon_ite
    | split
    | exact fun k => k
    | exact fun k => Pair.putMsg_canon _ k
    | exact fun k => Pair.write_canon _ _ k
    | exact fun _ k => ⟨k.1, k.2⟩
    | exact fun _ k => k
    | exact ⟨hq.1, hq.2⟩
    | (refine ⟨⟨hq.1.1, hq.1.2⟩, ?_⟩)
    | (refine ⟨hq.1, ?_⟩)

theorem State.reportTo_canon {s : State} (a1 : ℕ) (a2 : List ℕ) (h : Canon s) :
    Canon (State.reportTo s a1 a2) := by
  unfold State.reportTo
  try dsimp only
  repeat' first
    | with_reducible assumption
    | with_reducible apply State.placeMsg_canon
    | with_reducible apply canon_ite
    | with_reducible apply canon_foldl
    | with_reducible apply canon_foldl2
    | (with_reducible intro u x hu; try dsimp only)
    | split
    | exact fun _ k => ⟨k.1, k.2⟩
    | exact fun _ k => k
    | exact ⟨hq.1, hq.2⟩
    | (refine ⟨⟨hq.1.1, hq.1.2⟩, ?_⟩)
    | (refine ⟨hq.1, ?_⟩)

theorem State.reportFault_canon {s : State} (h : Canon s) :
    Canon (State.reportFault s) := by
  unfold State.reportFault
  try dsimp only
  repeat' first
    | with_reducible assumption
    | with_reducible apply State.vectorOf_canon
    | with_reducible apply State.reportTo_canon
    | with_reducible apply canon_ite
    | with_reducible apply canon_foldl
    | with_reducible apply canon_foldl2
    | (with_reducible intro u x hu; try dsimp only)
    | split
    | with_reducible refine canon_mgmt _ ?_
    | exact fun _ k => ⟨k.1, k.2⟩
    | exact fun _ k => k
    | exact ⟨hq.1, hq.2⟩
    | (refine ⟨⟨hq.1.1, hq.1.2⟩, ?_⟩)
    | (refine ⟨hq.1, ?_⟩)

theorem State.haltSlices_canon {s : State} (h : Canon s) :
    Canon (State.haltSlices s) := by
  unfold State.haltSlices
  try dsimp only
  repeat' first
    | with_reducible assumption
    | with_reducible apply canon_ite
    | split
    | with_reducible refine canon_mem_host _ _ ?_ ?_ ?_
    | exact fun _ k => ⟨k.1, k.2⟩
    | exact fun _ k => k
    | exact ⟨hq.1, hq.2⟩
    | exact fun _ k => ⟨k.1, k.2.1, (by dsimp only; exact Tbl.mapv_wf _ _ _ k.2.2.1), k.2.2.2⟩
    | exact fun _ k => ⟨k.1, k.2.1, k.2.2.1, (by dsimp only; exact Tbl.mapv_wf _ _ _ k.2.2.2)⟩
    | exact fun _ k => ⟨(by dsimp only; exact Tbl.mapv_wf _ _ _ k.1), k.2⟩
    | exact fun _ k => ⟨k.1, (by dsimp only; exact Tbl.mapv_wf _ _ _ k.2)⟩
    | exact ⟨hq.1, hq.2.1, hq.2.2.1, (by dsimp only; exact Tbl.set_wf _ _ _ _ hq.2.2.2.1), hq.2.2.2.2⟩
    | exact ⟨hq.1, hq.2.1, (by dsimp only; exact Tbl.set_wf _ _ _ _ hq.2.2.1), hq.2.2.2⟩
    | exact ⟨(by dsimp only; exact Tbl.mapv_wf _ _ _ hq.1), hq.2⟩
    | exact fun k => cores_mapv_canon _ (fun c k => Core.halt_canon k) k
    | exact fun k => (by dsimp only; exact Tbl.mapv_wf _ _ _ k.2.2.1)
    | exact fun k => (by dsimp only; exact Tbl.mapv_wf _ _ _ k.2.2.2.1)
    | exact fun _ k => (by dsimp only; exact Tbl.mapv_wf _ _ _ k)
    | (refine ⟨⟨hq.1.1, hq.1.2⟩, ?_⟩)
    | (refine ⟨hq.1, ?_⟩)

theorem State.deviceFault_canon {s : State} (a1 : ℕ) (h : Canon s) : Canon (State.deviceFault s a1) := by
  unfold State.deviceFault
  refine canon_ite h ?_
  extract_lets _ s1 s2 s3 m both s4 s5 _ _ s7 s6
  have k3 : Canon s3 := canon_ite (State.quiesceAll_canon (State.logErr_canon _ _ _ _ _ (canon_flash _ h)))
    (State.logErr_canon _ _ _ _ _ (canon_flash _ h))
  clear_value both s3
  refine canon_ite (canon_mgmt _ k3) ?_
  have k4 : Canon s4 := canon_ite (State.bankedFailed_canon k3) k3
  clear_value s4
  have k5 : Canon s5 := State.loseRanges_canon k4
  clear_value s5
  have k6 : Canon s6 := State.haltSlices_canon (canon_cores_fab_jobs_mgmt _ _ _ _ k5
    (fun k => cores_mapv_canon _ (fun c k => Core.halt_canon k) k)
    (fun _ k => ⟨k.1, k.2⟩) fun _ _ => by exact ⟨rfl, rfl⟩)
  clear_value s6
  exact canon_ite k6 (State.reportFault_canon k6)

theorem State.at_canon {s : State} (a1 : ℕ) (h : Canon s) :
    Canon (State.at_ s a1) := by
  unfold State.at_
  try dsimp only
  repeat' first
    | with_reducible assumption
    | with_reducible apply canon_ite
    | split
    | with_reducible refine canon_clk _ ?_
    | exact fun _ k => ⟨k.1, k.2⟩
    | exact fun _ k => k
    | exact ⟨hq.1, hq.2⟩
    | (refine ⟨⟨hq.1.1, hq.1.2⟩, ?_⟩)
    | (refine ⟨hq.1, ?_⟩)

theorem execThermalTrip_canon {s : State} (a0 : Fin 160) (a1 : ℕ) (h : Canon s) :
    CanonR (execThermalTrip a0 a1 s) := by
  unfold execThermalTrip
  try dsimp only
  repeat' first
    | with_reducible assumption
    | with_reducible apply State.deviceFault_canon
    | with_reducible apply State.at_canon
    | with_reducible apply canon_ite
    | with_reducible apply canonR_ite
    | with_reducible apply canonR_next
    | split
    | with_reducible refine canon_thm _ ?_
    | exact fun _ k => ⟨k.1, k.2⟩
    | exact fun _ k => k
    | exact ⟨hq.1, hq.2⟩
    | (refine ⟨⟨hq.1.1, hq.1.2⟩, ?_⟩)
    | (refine ⟨hq.1, ?_⟩)

theorem State.queueTile_canon {s : State} (a1 : ℕ) (a2 : ℕ × ℕ) (h : Canon s) :
    Canon (State.queueTile s a1 a2) := by
  unfold State.queueTile
  try dsimp only
  repeat' first
    | with_reducible assumption
    | with_reducible apply State.onArray_canon
    | with_reducible apply State.onSeq_canon
    | with_reducible apply Core.onArray_canon
    | with_reducible apply canon_ite
    | (with_reducible intro q hq; try dsimp only)
    | split
    | exact fun _ k => ⟨k.1, k.2⟩
    | exact fun _ k => k
    | exact ⟨hq.1, hq.2⟩
    | (refine ⟨⟨hq.1.1, hq.1.2⟩, ?_⟩)
    | (refine ⟨hq.1, ?_⟩)

theorem State.drainPump_canon {s : State} (a1 : ℕ) (h : Canon s) :
    Canon (State.drainPump s a1) := by
  unfold State.drainPump
  try dsimp only
  repeat' first
    | with_reducible assumption
    | with_reducible apply State.queueTile_canon
    | with_reducible apply canon_ite
    | with_reducible apply canon_foldl
    | with_reducible apply canon_foldl2
    | (with_reducible intro u x hu; try dsimp only)
    | split
    | exact fun _ k => ⟨k.1, k.2⟩
    | exact fun _ k => k
    | exact ⟨hq.1, hq.2⟩
    | (refine ⟨⟨hq.1.1, hq.1.2⟩, ?_⟩)
    | (refine ⟨hq.1, ?_⟩)

theorem State.unreserve_canon {s : State} (a1 : ℕ) (a2 : ℕ) (a3 : ℕ) (h : Canon s) :
    Canon (State.unreserve s a1 a2 a3) := by
  unfold State.unreserve
  try dsimp only
  repeat' first
    | with_reducible assumption
    | with_reducible apply State.onQueue_canon
    | with_reducible apply State.drainPump_canon
    | with_reducible apply Sequencer.onQueue_canon
    | with_reducible apply canon_ite
    | split
    | exact fun _ k => ⟨k.1, k.2⟩
    | exact fun _ k => k
    | exact ⟨hq.1, hq.2⟩
    | (refine ⟨⟨hq.1.1, hq.1.2⟩, ?_⟩)
    | (refine ⟨hq.1, ?_⟩)

theorem State.pushOuts_canon {s : State} (a1 : ℕ) (a2 : Begun) (a3 : Bool) (h : Canon s) :
    Canon (State.pushOuts s a1 a2 a3) := by
  unfold State.pushOuts
  refine canon_foldl _ _ h fun u x hu => ?_
  dsimp only
  generalize ((u.core a1).entry x.1 x.2).desc = d
  have hv := canon_ite (p := a3 = true) (State.onCore_canon a1 (fun c => { c with scp := c.scp.poisonRuns (c.seq.absRuns d.seg d.runs) }) hu
    fun c hc => ⟨hc.1, Scratch.poisonRuns_canon _ hc.2⟩) hu
  generalize (if a3 = true then _ else u) = v at hv ⊢
  repeat' first
    | with_reducible exact State.unreserve_canon _ _ _ hv
    | with_reducible exact State.onQueue_canon _ _ _ hv
    | split

theorem State.noteShape_canon {s : State} (a1 : ℕ) (a2 : WinHdr) (h : Canon s) :
    Canon (State.noteShape s a1 a2) := by
  unfold State.noteShape
  try dsimp only
  repeat' first
    | with_reducible assumption
    | with_reducible apply State.onSeq_canon
    | with_reducible apply Sequencer.onWin_canon
    | with_reducible apply canon_ite
    | (with_reducible intro q hq; try dsimp only)
    | split
    | exact fun _ k => ⟨k.1, k.2⟩
    | exact fun _ k => k
    | exact ⟨hq.1, hq.2⟩
    | exact fun _ k => ⟨k.1, k.2.1, (by dsimp only; exact Tbl.mapv_wf _ _ _ k.2.2.1), k.2.2.2⟩
    | exact fun _ k => ⟨k.1, k.2.1, k.2.2.1, (by dsimp only; exact Tbl.mapv_wf _ _ _ k.2.2.2)⟩
    | exact fun _ k => ⟨(by dsimp only; exact Tbl.mapv_wf _ _ _ k.1), k.2⟩
    | exact fun _ k => ⟨k.1, (by dsimp only; exact Tbl.mapv_wf _ _ _ k.2)⟩
    | exact ⟨hq.1, hq.2.1, hq.2.2.1, (by dsimp only; exact Tbl.set_wf _ _ _ _ hq.2.2.2.1), hq.2.2.2.2⟩
    | exact ⟨hq.1, hq.2.1, (by dsimp only; exact Tbl.set_wf _ _ _ _ hq.2.2.1), hq.2.2.2⟩
    | exact ⟨(by dsimp only; exact Tbl.mapv_wf _ _ _ hq.1), hq.2⟩
    | exact fun k => cores_mapv_canon _ (fun c k => Core.halt_canon k) k
    | exact fun k => (by dsimp only; exact Tbl.mapv_wf _ _ _ k.2.2.1)
    | exact fun k => (by dsimp only; exact Tbl.mapv_wf _ _ _ k.2.2.2.1)
    | exact fun _ k => (by dsimp only; exact Tbl.mapv_wf _ _ _ k)
    | (refine ⟨⟨hq.1.1, hq.1.2⟩, ?_⟩)
    | (refine ⟨hq.1, ?_⟩)

theorem State.returnOuts_canon {s : State} (a1 : ℕ) (a2 : List (ℕ × ℕ)) (h : Canon s) :
    Canon (State.returnOuts s a1 a2) := by
  unfold State.returnOuts
  try dsimp only
  repeat' first
    | with_reducible assumption
    | with_reducible apply State.unreserve_canon
    | with_reducible apply State.onScp_canon
    | with_reducible apply canon_ite
    | with_reducible refine foldl_keeps (P := Scratch.Canon) _ _ hq ?_
    | with_reducible apply canon_foldl
    | with_reducible apply canon_foldl2
    | (with_reducible intro u x hu; try dsimp only)
    | (with_reducible intro q hq; try dsimp only)
    | split
    | exact fun _ k => ⟨k.1, k.2⟩
    | exact fun _ k => k
    | exact ⟨hq.1, hq.2⟩
    | (refine ⟨⟨hq.1.1, hq.1.2⟩, ?_⟩)
    | (refine ⟨hq.1, ?_⟩)

theorem State.goOutAll_canon {s : State} (h : Canon s) :
    Canon (State.goOutAll s) := by
  unfold State.goOutAll
  try dsimp only
  repeat' first
    | with_reducible assumption
    | with_reducible apply State.goOut_canon
    | with_reducible apply canon_ite
    | with_reducible apply canon_foldl
    | with_reducible apply canon_foldl2
    | (with_reducible intro u x hu; try dsimp only)
    | split
    | exact fun _ k => ⟨k.1, k.2⟩
    | exact fun _ k => k
    | exact ⟨hq.1, hq.2⟩
    | (refine ⟨⟨hq.1.1, hq.1.2⟩, ?_⟩)
    | (refine ⟨hq.1, ?_⟩)

theorem State.disown_canon {s : State} (a1 : ℕ) (a2 : Eng) (h : Canon s) :
    Canon (State.disown s a1 a2) := by
  unfold State.disown
  try dsimp only
  repeat' first
    | with_reducible assumption
    | with_reducible apply State.goOutAll_canon
    | with_reducible apply canon_ite
    | split
    | with_reducible refine canon_fab _ ?_ ?_
    | exact fun _ k => ⟨k.1, k.2⟩
    | exact fun _ k => k
    | exact ⟨hq.1, hq.2⟩
    | exact fun _ k => ⟨k.1, k.2.1, (by dsimp only; exact Tbl.mapv_wf _ _ _ k.2.2.1), k.2.2.2⟩
    | exact fun _ k => ⟨k.1, k.2.1, k.2.2.1, (by dsimp only; exact Tbl.mapv_wf _ _ _ k.2.2.2)⟩
    | exact fun _ k => ⟨(by dsimp only; exact Tbl.mapv_wf _ _ _ k.1), k.2⟩
    | exact fun _ k => ⟨k.1, (by dsimp only; exact Tbl.mapv_wf _ _ _ k.2)⟩
    | exact ⟨hq.1, hq.2.1, hq.2.2.1, (by dsimp only; exact Tbl.set_wf _ _ _ _ hq.2.2.2.1), hq.2.2.2.2⟩
    | exact ⟨hq.1, hq.2.1, (by dsimp only; exact Tbl.set_wf _ _ _ _ hq.2.2.1), hq.2.2.2⟩
    | exact ⟨(by dsimp only; exact Tbl.mapv_wf _ _ _ hq.1), hq.2⟩
    | exact fun k => cores_mapv_canon _ (fun c k => Core.halt_canon k) k
    | exact fun k => (by dsimp only; exact Tbl.mapv_wf _ _ _ k.2.2.1)
    | exact fun k => (by dsimp only; exact Tbl.mapv_wf _ _ _ k.2.2.2.1)
    | exact fun _ k => (by dsimp only; exact Tbl.mapv_wf _ _ _ k)
    | (refine ⟨⟨hq.1.1, hq.1.2⟩, ?_⟩)
    | (refine ⟨hq.1, ?_⟩)

theorem State.dropPort_canon {s : State} (a1 a2 a3 : ℕ) (h : Canon s) : Canon (State.dropPort s a1 a2 a3) := by
  unfold State.dropPort
  extract_lets mine
  exact canon_cores _ h fun k => cores_mapv_canon _ (fun c hc => ⟨hc.1, hc.2.1, hc.2.2⟩) k

theorem State.dropCommand_canon {s : State} (a1 : ℕ) (a2 : Eng) (a3 : Begun) (h : Canon s) :
    Canon (State.dropCommand s a1 a2 a3) := by
  unfold State.dropCommand
  try dsimp only
  repeat' first
    | with_reducible assumption
    | with_reducible apply State.onEng_canon
    | with_reducible apply State.returnOuts_canon
    | with_reducible apply State.disown_canon
    | with_reducible apply State.dropPort_canon
    | with_reducible apply Sequencer.onEng_canon
    | with_reducible apply canon_ite
    | split
    | exact fun _ k => ⟨k.1, k.2⟩
    | exact fun _ k => k
    | exact ⟨hq.1, hq.2⟩
    | (refine ⟨⟨hq.1.1, hq.1.2⟩, ?_⟩)
    | (refine ⟨hq.1, ?_⟩)

theorem State.fieldFail_canon {s : State} (a1 : FieldFail) (a2 : ℕ) (a3 : ℕ) (a4 : ℕ) (h : Canon s) :
    Canon (State.fieldFail s a1 a2 a3 a4) := by
  unfold State.fieldFail
  try dsimp only
  repeat' first
    | with_reducible assumption
    | with_reducible apply State.logErr_canon
    | with_reducible apply canon_ite
    | split
    | with_reducible refine canon_flash _ ?_
    | exact fun _ k => ⟨k.1, k.2⟩
    | exact fun _ k => k
    | exact ⟨hq.1, hq.2⟩
    | (refine ⟨⟨hq.1.1, hq.1.2⟩, ?_⟩)
    | (refine ⟨hq.1, ?_⟩)

theorem State.markSuspect_canon {s : State} (a1 : ℕ) (a2 : ℕ) (h : Canon s) :
    Canon (State.markSuspect s a1 a2) := by
  unfold State.markSuspect
  try dsimp only
  repeat' first
    | with_reducible assumption
    | with_reducible apply State.logErr_canon
    | with_reducible apply State.fieldFail_canon
    | with_reducible apply State.onCore_canon
    | with_reducible apply canon_ite
    | (with_reducible intro q hq; try dsimp only)
    | split
    | exact fun _ k => ⟨k.1, k.2⟩
    | exact fun _ k => k
    | exact ⟨hq.1, hq.2⟩
    | (refine ⟨⟨hq.1.1, hq.1.2⟩, ?_⟩)
    | (refine ⟨hq.1, ?_⟩)

theorem State.countReplay_canon {s : State} (a1 : ℕ) (a2 : Eng) (a3 : ℕ) (a4 : Word) (h : Canon s) :
    Canon (State.countReplay s a1 a2 a3 a4) := by
  unfold State.countReplay
  try dsimp only
  repeat' first
    | with_reducible assumption
    | with_reducible apply State.markSuspect_canon
    | with_reducible apply State.onInteg_canon
    | with_reducible apply canon_ite
    | split
    | exact fun _ k => ⟨k.1, k.2⟩
    | exact fun _ k => k
    | exact ⟨hq.1, hq.2⟩
    | (refine ⟨⟨hq.1.1, hq.1.2⟩, ?_⟩)
    | (refine ⟨hq.1, ?_⟩)

theorem State.noteStop_canon {s : State} (a1 : ℕ) (h : Canon s) :
    Canon (State.noteStop s a1) := by
  unfold State.noteStop
  try dsimp only
  repeat' first
    | with_reducible assumption
    | with_reducible apply State.onJob_canon
    | with_reducible apply canon_ite
    | split
    | exact fun _ k => ⟨k.1, k.2⟩
    | exact fun _ k => k
    | exact ⟨hq.1, hq.2⟩
    | (refine ⟨⟨hq.1.1, hq.1.2⟩, ?_⟩)
    | (refine ⟨hq.1, ?_⟩)

theorem State.failAt_canon {s : State} (a1 : ℕ) (a2 : Eng) (a3 : ℕ) (a4 : Word) (h : Canon s) :
    Canon (State.failAt s a1 a2 a3 a4) := by
  unfold State.failAt
  try dsimp only
  repeat' first
    | with_reducible assumption
    | with_reducible apply State.noteStop_canon
    | with_reducible apply State.onSeq_canon
    | with_reducible apply Sequencer.failStream_canon
    | with_reducible apply canon_ite
    | (with_reducible intro q hq; try dsimp only)
    | split
    | exact fun _ k => ⟨k.1, k.2⟩
    | exact fun _ k => k
    | exact ⟨hq.1, hq.2⟩
    | (refine ⟨⟨hq.1.1, hq.1.2⟩, ?_⟩)
    | (refine ⟨hq.1, ?_⟩)

theorem State.secondFailure_canon {s : State} (a1 : ℕ) (a2 : Eng) (a3 : ℕ) (a4 : ℕ) (a5 : Word) (h : Canon s) :
    Canon (State.secondFailure s a1 a2 a3 a4 a5) := by
  unfold State.secondFailure
  try dsimp only
  repeat' first
    | with_reducible assumption
    | with_reducible apply State.markSuspect_canon
    | with_reducible apply State.onInteg_canon
    | with_reducible apply State.failAt_canon
    | with_reducible apply canon_ite
    | split
    | exact fun _ k => ⟨k.1, k.2⟩
    | exact fun _ k => k
    | exact ⟨hq.1, hq.2⟩
    | (refine ⟨⟨hq.1.1, hq.1.2⟩, ?_⟩)
    | (refine ⟨hq.1, ?_⟩)

theorem State.onBegun_canon {s : State} (a1 : ℕ) (a2 : Eng) (a3 : ℕ) (a4 : Begun → Begun) (h : Canon s) :
    Canon (State.onBegun s a1 a2 a3 a4) := by
  unfold State.onBegun
  try dsimp only
  repeat' first
    | with_reducible assumption
    | with_reducible apply State.onEng_canon
    | with_reducible apply Sequencer.onEng_canon
    | with_reducible apply canon_ite
    | split
    | exact fun _ k => ⟨k.1, k.2⟩
    | exact fun _ k => k
    | exact ⟨hq.1, hq.2⟩
    | (refine ⟨⟨hq.1.1, hq.1.2⟩, ?_⟩)
    | (refine ⟨hq.1, ?_⟩)

theorem State.failRequest_canon {s : State} (a1 : ℕ) (a2 : Eng) (a3 : Begun) (a4 : ℕ) (h : Canon s) :
    Canon (State.failRequest s a1 a2 a3 a4) := by
  unfold State.failRequest
  try dsimp only
  repeat' first
    | with_reducible assumption
    | with_reducible apply State.dropCommand_canon
    | with_reducible apply State.countReplay_canon
    | with_reducible apply State.secondFailure_canon
    | with_reducible apply State.onBegun_canon
    | with_reducible apply canon_ite
    | split
    | exact fun _ k => ⟨k.1, k.2⟩
    | exact fun _ k => k
    | exact ⟨hq.1, hq.2⟩
    | (refine ⟨⟨hq.1.1, hq.1.2⟩, ?_⟩)
    | (refine ⟨hq.1, ?_⟩)

theorem accessHold_canon {s : State} (a1 : Ctx) (a2 : List (ℕ × ℕ)) (a3 : List (ℕ × ℕ)) (h : Canon s) :
    CanonP (accessHold s a1 a2 a3) := by
  unfold accessHold
  try dsimp only
  repeat' first
    | with_reducible assumption
    | with_reducible apply State.onScp_canon
    | with_reducible apply Scratch.wake_canon
    | with_reducible apply canon_ite
    | (with_reducible intro q hq; try dsimp only)
    | with_reducible apply canonO_bind
    | with_reducible apply canonO_foldl
    | with_reducible refine CanonO.out (o := Option.bind _ _) ?_ (by assumption)
    | with_reducible intro u hu
    | exact ⟨hu.1, hu.2⟩
    | with_reducible apply canonP_foldl
    | with_reducible apply canonP_map
    | with_reducible exact canonP_none
    | with_reducible apply canonP_some
    | split
    | exact ⟨(Scratch.wake_canon _ hq).1, (Scratch.wake_canon _ hq).2⟩
    | exact fun _ k => ⟨k.1, k.2⟩
    | exact fun _ k => k
    | exact ⟨hq.1, hq.2⟩
    | (refine ⟨⟨hq.1.1, hq.1.2⟩, ?_⟩)
    | (refine ⟨hq.1, ?_⟩)

theorem tileHold_canon {s : State} (a1 : Ctx) (a2 : List (ℕ × ℕ × ℕ)) (h : Canon s) :
    CanonP (tileHold s a1 a2) := by
  unfold tileHold
  try dsimp only
  repeat' first
    | with_reducible assumption
    | with_reducible apply accessHold_canon
    | with_reducible refine CanonP.out (o := accessHold _ _ _ _) ?_ (by assumption)
    | with_reducible apply canon_ite
    | with_reducible apply canon_getD
    | with_reducible apply canonO_bind
    | with_reducible apply canonO_foldl
    | with_reducible refine CanonO.out (o := Option.bind _ _) ?_ (by assumption)
    | with_reducible intro u hu
    | exact ⟨hu.1, hu.2⟩
    | with_reducible apply canonP_foldl
    | with_reducible apply canonP_map
    | with_reducible exact canonP_none
    | with_reducible apply canonP_some
    | split
    | exact fun _ k => ⟨k.1, k.2⟩
    | exact fun _ k => k
    | exact ⟨hq.1, hq.2⟩
    | (refine ⟨⟨hq.1.1, hq.1.2⟩, ?_⟩)
    | (refine ⟨hq.1, ?_⟩)

theorem State.recountPeers_canon {s : State} (h : Canon s) :
    Canon (State.recountPeers s) := by
  unfold State.recountPeers
  try dsimp only
  repeat' first
    | with_reducible assumption
    | with_reducible apply canon_ite
    | with_reducible apply canon_foldl
    | with_reducible apply canon_foldl2
    | (with_reducible intro u x hu; try dsimp only)
    | split
    | with_reducible refine canon_fab _ ?_ ?_
    | exact fun _ k => ⟨k.1, k.2⟩
    | exact fun _ k => k
    | exact ⟨hq.1, hq.2⟩
    | (refine ⟨⟨hq.1.1, hq.1.2⟩, ?_⟩)
    | (refine ⟨hq.1, ?_⟩)

theorem State.sendPlain_canon {s : State} (a1 : ℕ) (a2 : ℕ) (a3 : BitVec 32) (a4 : BitVec 256) (a5 : List Byte)
    (h : Canon s) :
    Canon (State.sendPlain s a1 a2 a3 a4 a5) := by
  unfold State.sendPlain
  try dsimp only
  repeat' first
    | with_reducible assumption
    | with_reducible apply State.wire_canon
    | with_reducible apply canon_ite
    | split
    | exact fun _ k => ⟨k.1, k.2⟩
    | exact fun _ k => k
    | exact ⟨hq.1, hq.2⟩
    | (refine ⟨⟨hq.1.1, hq.1.2⟩, ?_⟩)
    | (refine ⟨hq.1, ?_⟩)

theorem State.sendSetup_canon {s : State} (a1 : ℕ) (h : Canon s) :
    Canon (State.sendSetup s a1) := by
  unfold State.sendSetup
  try dsimp only
  repeat' first
    | with_reducible assumption
    | with_reducible apply State.sendPlain_canon
    | with_reducible apply State.onFlow_canon
    | with_reducible apply canon_ite
    | split
    | exact fun _ k => ⟨k.1, k.2⟩
    | exact fun _ k => k
    | exact ⟨hq.1, hq.2⟩
    | (refine ⟨⟨hq.1.1, hq.1.2⟩, ?_⟩)
    | (refine ⟨hq.1, ?_⟩)

theorem State.dropShadows_canon {s : State} (a1 : GrpKey) (h : Canon s) :
    Canon (State.dropShadows s a1) := by
  unfold State.dropShadows
  try dsimp only
  repeat' first
    | with_reducible assumption
    | with_reducible apply canon_ite
    | split
    | with_reducible refine canon_mem _ ?_ ?_
    | exact fun _ k => ⟨k.1, k.2⟩
    | exact fun _ k => k
    | exact ⟨hq.1, hq.2⟩
    | exact fun _ k => ⟨k.1, k.2.1, (by dsimp only; exact Tbl.mapv_wf _ _ _ k.2.2.1), k.2.2.2⟩
    | exact fun _ k => ⟨k.1, k.2.1, k.2.2.1, (by dsimp only; exact Tbl.mapv_wf _ _ _ k.2.2.2)⟩
    | exact fun _ k => ⟨(by dsimp only; exact Tbl.mapv_wf _ _ _ k.1), k.2⟩
    | exact fun _ k => ⟨k.1, (by dsimp only; exact Tbl.mapv_wf _ _ _ k.2)⟩
    | exact ⟨hq.1, hq.2.1, hq.2.2.1, (by dsimp only; exact Tbl.set_wf _ _ _ _ hq.2.2.2.1), hq.2.2.2.2⟩
    | exact ⟨hq.1, hq.2.1, (by dsimp only; exact Tbl.set_wf _ _ _ _ hq.2.2.1), hq.2.2.2⟩
    | exact ⟨(by dsimp only; exact Tbl.mapv_wf _ _ _ hq.1), hq.2⟩
    | exact fun k => cores_mapv_canon _ (fun c k => Core.halt_canon k) k
    | exact fun k => (by dsimp only; exact Tbl.mapv_wf _ _ _ k.2.2.1)
    | exact fun k => (by dsimp only; exact Tbl.mapv_wf _ _ _ k.2.2.2.1)
    | exact fun _ k => (by dsimp only; exact Tbl.mapv_wf _ _ _ k)
    | (refine ⟨⟨hq.1.1, hq.1.2⟩, ?_⟩)
    | (refine ⟨hq.1, ?_⟩)

theorem State.settleFlow_canon {s : State} (a1 : ℕ) (h : Canon s) :
    Canon (State.settleFlow s a1) := by
  unfold State.settleFlow
  try dsimp only
  repeat' first
    | with_reducible assumption
    | with_reducible apply State.onFlow_canon
    | with_reducible apply State.raiseAll_canon
    | with_reducible apply canon_ite
    | split
    | exact fun _ k => ⟨k.1, k.2⟩
    | exact fun _ k => k
    | exact ⟨hq.1, hq.2⟩
    | (refine ⟨⟨hq.1.1, hq.1.2⟩, ?_⟩)
    | (refine ⟨hq.1, ?_⟩)

theorem State.abortHandles_canon {s : State} (a1 : ℕ) (h : Canon s) :
    Canon (State.abortHandles s a1) := by
  unfold State.abortHandles
  try dsimp only
  repeat' first
    | with_reducible assumption
    | with_reducible apply State.dropShadows_canon
    | with_reducible apply State.resolveRx_canon
    | with_reducible refine canon_fst (x := State.resolveRx _ _ _ _) ?_ (by assumption)
    | with_reducible apply State.settleFlow_canon
    | with_reducible apply State.onFlow_canon
    | with_reducible apply canon_ite
    | with_reducible apply canon_foldl
    | with_reducible apply canon_foldl2
    | (with_reducible intro u x hu; try dsimp only)
    | split
    | with_reducible refine canon_fab _ ?_ ?_
    | exact fun _ k => ⟨k.1, k.2⟩
    | exact fun _ k => k
    | exact ⟨hq.1, hq.2⟩
    | (refine ⟨⟨hq.1.1, hq.1.2⟩, ?_⟩)
    | (refine ⟨hq.1, ?_⟩)

theorem State.evictFlow_canon {s : State} (a1 : ℕ) (h : Canon s) :
    Canon (State.evictFlow s a1) := by
  unfold State.evictFlow
  try dsimp only
  repeat' first
    | with_reducible assumption
    | with_reducible apply State.abortHandles_canon
    | with_reducible apply State.onFlow_canon
    | with_reducible apply State.sendCtl_canon
    | with_reducible apply canon_ite
    | split
    | exact fun _ k => ⟨k.1, k.2⟩
    | exact fun _ k => k
    | exact ⟨hq.1, hq.2⟩
    | (refine ⟨⟨hq.1.1, hq.1.2⟩, ?_⟩)
    | (refine ⟨hq.1, ?_⟩)

theorem State.takeFlow_canon {s : State} (h : Canon s) :
    CanonT (State.takeFlow s) := by
  unfold State.takeFlow
  try dsimp only
  repeat' first
    | with_reducible assumption
    | with_reducible apply State.evictFlow_canon
    | with_reducible apply canon_ite
    | with_reducible apply canon_foldl
    | with_reducible apply canon_foldl2
    | (with_reducible intro u x hu; try dsimp only)
    | with_reducible exact canonT_got _
    | with_reducible exact canonT_full
    | with_reducible apply canonT_wait
    | split
    | with_reducible refine canon_fab _ ?_ ?_
    | exact fun _ k => ⟨k.1, k.2⟩
    | exact fun _ k => k
    | exact ⟨hq.1, hq.2⟩
    | (refine ⟨⟨hq.1.1, hq.1.2⟩, ?_⟩)
    | (refine ⟨hq.1, ?_⟩)

theorem State.startSetup_canon {s : State} (a1 : ℕ) (a2 : BitVec 18) (h : Canon s) :
    CanonM (State.startSetup s a1 a2) := by
  unfold State.startSetup
  try dsimp only
  repeat' first
    | with_reducible assumption
    | with_reducible apply State.recountPeers_canon
    | with_reducible apply State.sendSetup_canon
    | with_reducible apply State.takeFlow_canon
    | with_reducible refine CanonT.out (v := State.takeFlow _) ?_ (by assumption)
    | with_reducible apply State.onFlow_canon
    | with_reducible apply canon_ite
    | with_reducible exact canonM_inl _
    | with_reducible apply canonM_inr
    | split
    | exact fun _ k => ⟨k.1, k.2⟩
    | exact fun _ k => k
    | exact ⟨hq.1, hq.2⟩
    | (refine ⟨⟨hq.1.1, hq.1.2⟩, ?_⟩)
    | (refine ⟨hq.1, ?_⟩)

end Sys2Proof.Machine
end

