-- ==== Sys2Proof/Laws/Canons1.lean ====
section
/-! SUPPORT. Each operation and meaning, in dependency order (part 2 of 10), keeps the canonical form. -/

namespace Sys2Proof.Machine

theorem State.setupRefused_canon {s : State} (h : Canon s) :
    Canon (State.setupRefused s) := by
  unfold State.setupRefused
  try dsimp only
  repeat' first
    | with_reducible assumption
    | with_reducible apply canon_ite
    | split
    | with_reducible refine canon_fab _ ?_ ?_
    | exact fun _ k => ⟨k.1, k.2⟩
    | exact fun _ k => k
    | exact ⟨hq.1, hq.2⟩
    | (refine ⟨⟨hq.1.1, hq.1.2⟩, ?_⟩)
    | (refine ⟨hq.1, ?_⟩)

theorem State.noteRefused_canon {s : State} (a1 : ℕ) (h : Canon s) :
    Canon (State.noteRefused s a1) := by
  unfold State.noteRefused
  try dsimp only
  repeat' first
    | with_reducible assumption
    | with_reducible apply State.setupRefused_canon
    | with_reducible apply canon_ite
    | split
    | exact fun _ k => ⟨k.1, k.2⟩
    | exact fun _ k => k
    | exact ⟨hq.1, hq.2⟩
    | (refine ⟨⟨hq.1.1, hq.1.2⟩, ?_⟩)
    | (refine ⟨hq.1, ?_⟩)

theorem State.collRetry_canon {s : State} (h : Canon s) :
    Canon (State.collRetry s) := by
  unfold State.collRetry
  try dsimp only
  repeat' first
    | with_reducible assumption
    | with_reducible apply State.startSetup_canon
    | with_reducible refine CanonM.out (v := State.startSetup _ _ _) ?_ (by assumption)
    | with_reducible apply State.noteRefused_canon
    | with_reducible apply canon_ite
    | with_reducible apply canon_foldl
    | with_reducible apply canon_foldl2
    | (with_reducible intro u x hu; try dsimp only)
    | split
    | exact fun _ k => ⟨k.1, k.2⟩
    | exact fun _ k => k
    | exact ⟨hq.1, hq.2⟩
    | (refine ⟨⟨hq.1.1, hq.1.2⟩, ?_⟩)
    | (refine ⟨hq.1, ?_⟩)

theorem State.opticDown_canon {s : State} (a1 : ℕ) (h : Canon s) :
    Canon (State.opticDown s a1) := by
  unfold State.opticDown
  try dsimp only
  repeat' first
    | with_reducible assumption
    | with_reducible apply State.onPort_canon
    | with_reducible apply State.portTo_canon
    | with_reducible apply canon_ite
    | with_reducible apply canon_foldl
    | with_reducible apply canon_foldl2
    | (with_reducible intro u x hu; try dsimp only)
    | split
    | exact fun _ k => ⟨k.1, k.2⟩
    | exact fun _ k => k
    | exact ⟨hq.1, hq.2⟩
    | (refine ⟨⟨hq.1.1, hq.1.2⟩, ?_⟩)
    | (refine ⟨hq.1, ?_⟩)

theorem execOpticsRailFail_canon {s : State} (a0 : Fin 8) (h : Canon s) :
    CanonR (execOpticsRailFail a0 s) := by
  unfold execOpticsRailFail
  try dsimp only
  repeat' first
    | with_reducible assumption
    | with_reducible apply State.onOptic_canon
    | with_reducible apply State.opticDown_canon
    | with_reducible apply canon_ite
    | with_reducible apply canonR_ite
    | with_reducible apply canonR_next
    | split
    | exact fun _ k => ⟨k.1, k.2⟩
    | exact fun _ k => k
    | exact ⟨hq.1, hq.2⟩
    | (refine ⟨⟨hq.1.1, hq.1.2⟩, ?_⟩)
    | (refine ⟨hq.1, ?_⟩)

theorem execSmbusMirrorRefresh_canon {s : State} (a0 : ℕ) (h : Canon s) :
    CanonR (execSmbusMirrorRefresh a0 s) := by
  unfold execSmbusMirrorRefresh
  try dsimp only
  repeat' first
    | with_reducible assumption
    | with_reducible apply State.at_canon
    | with_reducible apply canon_ite
    | with_reducible apply canon_foldl
    | with_reducible apply canon_foldl2
    | (with_reducible intro u x hu; try dsimp only)
    | with_reducible apply canonR_ite
    | with_reducible apply canonR_next
    | split
    | with_reducible refine canon_pins _ ?_
    | exact fun _ k => ⟨k.1, k.2⟩
    | exact fun _ k => k
    | exact ⟨hq.1, hq.2⟩
    | exact fun _ k => ⟨k.1, k.2.1, (by dsimp only; exact Tbl.mapv_wf _ _ _ k.2.2.1), k.2.2.2⟩
    | exact fun _ k => ⟨k.1, k.2.1, k.2.2.1, (by dsimp only; exact Tbl.mapv_wf _ _ _ k.2.2.2)⟩
    | exact fun _ k => ⟨(by dsimp only; exact Tbl.mapv_wf _ _ _ k.1), k.2⟩
    | exact fun _ k => ⟨k.1, (by dsimp only; exact Tbl.mapv_wf _ _ _ k.2)⟩
    | exact ⟨hq.1, hq.2.1, hq.2.2.1, (by dsimp only; exact Tbl.set_wf _ _ _ _ hq.2.2.2.1), hq.2.2.2.2⟩
    | exact ⟨hq.1, hq.2.1, (by dsimp only; exact Tbl.set_wf _ _ _ _ hq.2.2.1), hq.2.2.2⟩
    | exact ⟨(by dsimp only; exact Tbl.mapv_wf _ _ _ hq.1), hq.2⟩
    | exact fun k => cores_mapv_canon _ (fun c k => Core.halt_canon k) k
    | exact fun k => (by dsimp only; exact Tbl.mapv_wf _ _ _ k.2.2.1)
    | exact fun k => (by dsimp only; exact Tbl.mapv_wf _ _ _ k.2.2.2.1)
    | exact fun _ k => (by dsimp only; exact Tbl.mapv_wf _ _ _ k)
    | (refine ⟨⟨hq.1.1, hq.1.2⟩, ?_⟩)
    | (refine ⟨hq.1, ?_⟩)

theorem State.creditEffect_canon {s : State} (a1 : ℕ) (a2 : BitVec 6) (a3 : BitVec 12) (a4 : BitVec 16)
    (a5 : Bool) (a6 : BitVec 32) (h : Canon s) :
    Canon (State.creditEffect s a1 a2 a3 a4 a5 a6) := by
  unfold State.creditEffect
  try dsimp only
  repeat' first
    | with_reducible assumption
    | with_reducible apply State.sendCtl_canon
    | with_reducible apply State.onFlow_canon
    | with_reducible apply State.onSeq_canon
    | with_reducible apply Sequencer.onWin_canon
    | with_reducible apply canon_ite
    | (with_reducible intro q hq; try dsimp only)
    | split
    | exact fun _ k => ⟨k.1, k.2⟩
    | exact fun _ k => k
    | exact ⟨hq.1, hq.2⟩
    | exact fun _ k => ⟨k.1, k.2.1, (by dsimp only; exact Tbl.mapv_wf _ _ _ k.2.2.1), k.2.2.2⟩
    | exact fun _ k => ⟨k.1, k.2.1, k.2.2.1, (by dsimp only; exact Tbl.mapv_wf _ _ _ k.2.2.2)⟩
    | exact fun _ k => ⟨(by dsimp only; exact Tbl.mapv_wf _ _ _ k.1), k.2⟩
    | exact fun _ k => ⟨k.1, (by dsimp only; exact Tbl.mapv_wf _ _ _ k.2)⟩
    | exact ⟨hq.1, hq.2.1, hq.2.2.1, (by dsimp only; exact Tbl.set_wf _ _ _ _ hq.2.2.2.1), hq.2.2.2.2⟩
    | exact ⟨hq.1, hq.2.1, (by dsimp only; exact Tbl.set_wf _ _ _ _ hq.2.2.1), hq.2.2.2⟩
    | exact ⟨(by dsimp only; exact Tbl.mapv_wf _ _ _ hq.1), hq.2⟩
    | exact fun k => cores_mapv_canon _ (fun c k => Core.halt_canon k) k
    | exact fun k => (by dsimp only; exact Tbl.mapv_wf _ _ _ k.2.2.1)
    | exact fun k => (by dsimp only; exact Tbl.mapv_wf _ _ _ k.2.2.2.1)
    | exact fun _ k => (by dsimp only; exact Tbl.mapv_wf _ _ _ k)
    | (refine ⟨⟨hq.1.1, hq.1.2⟩, ?_⟩)
    | (refine ⟨hq.1, ?_⟩)

theorem State.commitShadows_canon {s : State} (a1 : GrpKey) (h : Canon s) :
    Canon (State.commitShadows s a1) := by
  unfold State.commitShadows
  try dsimp only
  repeat' first
    | with_reducible assumption
    | with_reducible apply canon_ite
    | split
    | with_reducible refine canon_mem _ ?_ ?_
    | exact fun _ k => ⟨k.1, k.2⟩
    | exact fun _ k => k
    | exact ⟨hq.1, hq.2⟩
    | exact fun _ k => ⟨k.1, k.2.1, (by dsimp only; exact Tbl.mapv_wf _ _ _ k.2.2.1), k.2.2.2⟩
    | exact fun _ k => ⟨k.1, k.2.1, k.2.2.1, (by dsimp only; exact Tbl.mapv_wf _ _ _ k.2.2.2)⟩
    | exact fun _ k => ⟨(by dsimp only; exact Tbl.mapv_wf _ _ _ k.1), k.2⟩
    | exact fun _ k => ⟨k.1, (by dsimp only; exact Tbl.mapv_wf _ _ _ k.2)⟩
    | exact ⟨hq.1, hq.2.1, hq.2.2.1, (by dsimp only; exact Tbl.set_wf _ _ _ _ hq.2.2.2.1), hq.2.2.2.2⟩
    | exact ⟨hq.1, hq.2.1, (by dsimp only; exact Tbl.set_wf _ _ _ _ hq.2.2.1), hq.2.2.2⟩
    | exact ⟨(by dsimp only; exact Tbl.mapv_wf _ _ _ hq.1), hq.2⟩
    | exact fun k => cores_mapv_canon _ (fun c k => Core.halt_canon k) k
    | exact fun k => (by dsimp only; exact Tbl.mapv_wf _ _ _ k.2.2.1)
    | exact fun k => (by dsimp only; exact Tbl.mapv_wf _ _ _ k.2.2.2.1)
    | exact fun _ k => (by dsimp only; exact Tbl.mapv_wf _ _ _ k)
    | (refine ⟨⟨hq.1.1, hq.1.2⟩, ?_⟩)
    | (refine ⟨hq.1, ?_⟩)

theorem State.endHandle_canon {s : State} (a1 : Handle) (a2 : Bool) (h : Canon s) :
    Canon (State.endHandle s a1 a2) := by
  unfold State.endHandle
  try dsimp only
  repeat' first
    | with_reducible assumption
    | with_reducible apply State.dropShadows_canon
    | with_reducible apply State.commitShadows_canon
    | with_reducible apply State.resolveRx_canon
    | with_reducible refine canon_fst (x := State.resolveRx _ _ _ _) ?_ (by assumption)
    | with_reducible apply State.settleFlow_canon
    | with_reducible apply State.onFlow_canon
    | with_reducible apply canon_ite
    | split
    | with_reducible refine canon_fab _ ?_ ?_
    | exact fun _ k => ⟨k.1, k.2⟩
    | exact fun _ k => k
    | exact ⟨hq.1, hq.2⟩
    | (refine ⟨⟨hq.1.1, hq.1.2⟩, ?_⟩)
    | (refine ⟨hq.1, ?_⟩)

theorem State.groupEffect_canon {s : State} (a1 : ℕ) (a2 : BitVec 6) (a3 : BitVec 12) (a4 : Bool) (h : Canon s) :
    Canon (State.groupEffect s a1 a2 a3 a4) := by
  unfold State.groupEffect
  try dsimp only
  repeat' first
    | with_reducible assumption
    | with_reducible apply State.endHandle_canon
    | with_reducible apply canon_ite
    | split
    | with_reducible refine canon_fab _ ?_ ?_
    | exact fun _ k => ⟨k.1, k.2⟩
    | exact fun _ k => k
    | exact ⟨hq.1, hq.2⟩
    | (refine ⟨⟨hq.1.1, hq.1.2⟩, ?_⟩)
    | (refine ⟨hq.1, ?_⟩)

theorem State.entryStruck_canon {s : State} (a1 : RxXfer) (a2 : Option (BitVec 20)) (h : Canon s) :
    Canon (State.entryStruck s a1 a2).2 := by
  unfold State.entryStruck
  try dsimp only
  repeat' first
    | with_reducible assumption
    | with_reducible apply State.onQueue_canon
    | with_reducible apply State.onInteg_canon
    | with_reducible apply Sequencer.onQueue_canon
    | with_reducible apply canon_ite
    | split
    | exact fun _ k => ⟨k.1, k.2⟩
    | exact fun _ k => k
    | exact ⟨hq.1, hq.2⟩
    | (refine ⟨⟨hq.1.1, hq.1.2⟩, ?_⟩)
    | (refine ⟨hq.1, ?_⟩)
    | dsimp only

theorem State.strikeWith_canon {s : State} (a0 : ℕ) (a2 : ℕ) (a3 : Begun) (h : Canon s) :
    Canon (State.strikeWith a0 s a2 a3) := by
  induction a0 generalizing s a2 a3 with
  | zero =>
    unfold State.strikeWith
    try dsimp only
    repeat' first
      | with_reducible assumption
      | with_reducible apply State.returnOuts_canon
      | with_reducible apply State.disown_canon
      | with_reducible apply State.onInteg_canon
      | with_reducible apply State.sendCtl_canon
      | with_reducible apply State.dropPort_canon
      | with_reducible apply State.entryStruck_canon
      | with_reducible refine canon_pair (x := State.entryStruck _ _ _) ?_ (by assumption)
      | with_reducible apply State.onBegun_canon
      | with_reducible apply canon_ite
      | with_reducible apply canon_foldl
      | with_reducible apply canon_foldl2
      | (with_reducible intro u x hu; try dsimp only)
      | split
      | with_reducible refine canon_fab _ ?_ ?_
      | exact fun _ k => ⟨k.1, k.2⟩
      | exact fun _ k => k
      | exact ⟨hq.1, hq.2⟩
      | (refine ⟨⟨hq.1.1, hq.1.2⟩, ?_⟩)
      | (refine ⟨hq.1, ?_⟩)
  | succ k ih =>
    unfold State.strikeWith
    try dsimp only
    repeat' first
      | with_reducible assumption
      | with_reducible apply ih
      | with_reducible apply State.returnOuts_canon
      | with_reducible apply State.disown_canon
      | with_reducible apply State.onInteg_canon
      | with_reducible apply State.sendCtl_canon
      | with_reducible apply State.dropPort_canon
      | with_reducible apply State.entryStruck_canon
      | with_reducible refine canon_pair (x := State.entryStruck _ _ _) ?_ (by assumption)
      | with_reducible apply State.onBegun_canon
      | with_reducible apply canon_ite
      | with_reducible apply canon_foldl
      | with_reducible apply canon_foldl2
      | (with_reducible intro u x hu; try dsimp only)
      | split
      | with_reducible refine canon_fab _ ?_ ?_
      | exact fun _ k => ⟨k.1, k.2⟩
      | exact fun _ k => k
      | exact ⟨hq.1, hq.2⟩
      | (refine ⟨⟨hq.1.1, hq.1.2⟩, ?_⟩)
      | (refine ⟨hq.1, ?_⟩)

theorem State.strikeChain_canon {s : State} (a1 : ℕ) (a2 : Begun) (h : Canon s) :
    Canon (State.strikeChain s a1 a2) := by
  unfold State.strikeChain
  try dsimp only
  repeat' first
    | with_reducible assumption
    | with_reducible apply State.strikeWith_canon
    | with_reducible apply canon_ite
    | split
    | exact fun _ k => ⟨k.1, k.2⟩
    | exact fun _ k => k
    | exact ⟨hq.1, hq.2⟩
    | (refine ⟨⟨hq.1.1, hq.1.2⟩, ?_⟩)
    | (refine ⟨hq.1, ?_⟩)

theorem State.strikeEffect_canon {s : State} (a1 : ℕ) (a2 : BitVec 32) (a3 : BitVec 24) (h : Canon s) :
    Canon (State.strikeEffect s a1 a2 a3) := by
  unfold State.strikeEffect
  try dsimp only
  repeat' first
    | with_reducible assumption
    | with_reducible apply State.strikeChain_canon
    | with_reducible apply State.onFlow_canon
    | with_reducible apply State.entryStruck_canon
    | with_reducible refine canon_pair (x := State.entryStruck _ _ _) ?_ (by assumption)
    | with_reducible apply State.onSeq_canon
    | with_reducible apply Sequencer.onQueue_canon
    | with_reducible apply canon_ite
    | with_reducible refine foldl_keeps (P := Sequencer.Canon) _ _ hq ?_
    | with_reducible apply canon_foldl
    | with_reducible apply canon_foldl2
    | (with_reducible intro u x hu; try dsimp only)
    | (with_reducible intro q hq; try dsimp only)
    | split
    | exact fun _ k => ⟨k.1, k.2⟩
    | exact fun _ k => k
    | exact ⟨hq.1, hq.2⟩
    | (refine ⟨⟨hq.1.1, hq.1.2⟩, ?_⟩)
    | (refine ⟨hq.1, ?_⟩)

theorem State.touchEffect_canon {s : State} (a1 : ℕ) (a2 : BitVec 24) (h : Canon s) :
    Canon (State.touchEffect s a1 a2) := by
  unfold State.touchEffect
  try dsimp only
  repeat' first
    | with_reducible assumption
    | with_reducible apply State.onFlow_canon
    | with_reducible apply canon_ite
    | split
    | exact fun _ k => ⟨k.1, k.2⟩
    | exact fun _ k => k
    | exact ⟨hq.1, hq.2⟩
    | (refine ⟨⟨hq.1.1, hq.1.2⟩, ?_⟩)
    | (refine ⟨hq.1, ?_⟩)

theorem State.sendAck_canon {s : State} (a1 : ℕ) (a2 : Option (BitVec 8 × BitVec 32)) (h : Canon s) :
    Canon (State.sendAck s a1 a2) := by
  unfold State.sendAck
  try dsimp only
  repeat' first
    | with_reducible assumption
    | with_reducible apply State.sendPlain_canon
    | with_reducible apply State.onFlow_canon
    | with_reducible apply canon_ite
    | with_reducible apply canon_getD
    | split
    | exact fun _ k => ⟨k.1, k.2⟩
    | exact fun _ k => k
    | exact ⟨hq.1, hq.2⟩
    | (refine ⟨⟨hq.1.1, hq.1.2⟩, ?_⟩)
    | (refine ⟨hq.1, ?_⟩)

theorem State.freeFlowAt_canon {s : State} (a1 : ℕ) (h : Canon s) :
    Canon (State.freeFlowAt s a1) := by
  unfold State.freeFlowAt
  try dsimp only
  repeat' first
    | with_reducible assumption
    | with_reducible apply State.recountPeers_canon
    | with_reducible apply State.collRetry_canon
    | with_reducible apply State.onFlow_canon
    | with_reducible apply canon_ite
    | split
    | exact fun _ k => ⟨k.1, k.2⟩
    | exact fun _ k => k
    | exact ⟨hq.1, hq.2⟩
    | (refine ⟨⟨hq.1.1, hq.1.2⟩, ?_⟩)
    | (refine ⟨hq.1, ?_⟩)

theorem State.creditRelease_canon {s : State} (a1 : ℕ) (a2 : ℕ) (h : Canon s) :
    Canon (State.creditRelease s a1 a2) := by
  unfold State.creditRelease
  try dsimp only
  repeat' first
    | with_reducible assumption
    | with_reducible apply State.sendCtl_canon
    | with_reducible apply State.onSeq_canon
    | with_reducible refine Sequencer.windowPump_canon _ _ ?_
    | with_reducible apply canon_ite
    | (with_reducible intro q hq; try dsimp only)
    | split
    | exact fun _ k => ⟨k.1, k.2⟩
    | exact fun _ k => k
    | exact ⟨hq.1, hq.2⟩
    | exact fun _ k => ⟨k.1, k.2.1, (by dsimp only; exact Tbl.mapv_wf _ _ _ k.2.2.1), k.2.2.2⟩
    | exact fun _ k => ⟨k.1, k.2.1, k.2.2.1, (by dsimp only; exact Tbl.mapv_wf _ _ _ k.2.2.2)⟩
    | exact fun _ k => ⟨(by dsimp only; exact Tbl.mapv_wf _ _ _ k.1), k.2⟩
    | exact fun _ k => ⟨k.1, (by dsimp only; exact Tbl.mapv_wf _ _ _ k.2)⟩
    | exact ⟨hq.1, hq.2.1, hq.2.2.1, (by dsimp only; exact Tbl.set_wf _ _ _ _ hq.2.2.2.1), hq.2.2.2.2⟩
    | exact ⟨hq.1, hq.2.1, (by dsimp only; exact Tbl.set_wf _ _ _ _ hq.2.2.1), hq.2.2.2⟩
    | exact ⟨(by dsimp only; exact Tbl.mapv_wf _ _ _ hq.1), hq.2⟩
    | exact fun k => cores_mapv_canon _ (fun c k => Core.halt_canon k) k
    | exact fun k => (by dsimp only; exact Tbl.mapv_wf _ _ _ k.2.2.1)
    | exact fun k => (by dsimp only; exact Tbl.mapv_wf _ _ _ k.2.2.2.1)
    | exact fun _ k => (by dsimp only; exact Tbl.mapv_wf _ _ _ k)
    | (refine ⟨⟨hq.1.1, hq.1.2⟩, ?_⟩)
    | (refine ⟨hq.1, ?_⟩)

theorem State.releaseEntry_canon {s : State} (a1 : ℕ) (a2 : ℕ) (a3 : ℕ) (h : Canon s) :
    Canon (State.releaseEntry s a1 a2 a3) := by
  unfold State.releaseEntry
  try dsimp only
  repeat' first
    | with_reducible assumption
    | with_reducible apply State.drainPump_canon
    | with_reducible apply State.onQueue_canon
    | with_reducible apply State.creditRelease_canon
    | with_reducible apply Sequencer.onQueue_canon
    | with_reducible apply canon_ite
    | split
    | exact fun _ k => ⟨k.1, k.2⟩
    | exact fun _ k => k
    | exact ⟨hq.1, hq.2⟩
    | (refine ⟨⟨hq.1.1, hq.1.2⟩, ?_⟩)
    | (refine ⟨hq.1, ?_⟩)

theorem State.failBegun_canon {s : State} (a1 : ℕ) (a2 : Eng) (a3 : ℕ) (a4 : Option ℕ) (h : Canon s) :
    Canon (State.failBegun s a1 a2 a3 a4) := by
  unfold State.failBegun
  try dsimp only
  repeat' first
    | with_reducible assumption
    | with_reducible apply State.failAt_canon
    | with_reducible apply canon_ite
    | with_reducible apply canon_getD
    | split
    | exact fun _ k => ⟨k.1, k.2⟩
    | exact fun _ k => k
    | exact ⟨hq.1, hq.2⟩
    | (refine ⟨⟨hq.1.1, hq.1.2⟩, ?_⟩)
    | (refine ⟨hq.1, ?_⟩)

theorem State.failXfer_canon {s : State} (a1 : ℕ) (a2 : Eng) (a3 : ℕ) (h : Canon s) :
    Canon (State.failXfer s a1 a2 a3) := by
  unfold State.failXfer
  try dsimp only
  repeat' first
    | with_reducible assumption
    | with_reducible apply State.onEng_canon
    | with_reducible apply State.returnOuts_canon
    | with_reducible apply State.releaseEntry_canon
    | with_reducible apply State.disown_canon
    | with_reducible apply State.failBegun_canon
    | with_reducible apply Sequencer.onEng_canon
    | with_reducible apply canon_ite
    | with_reducible apply canon_foldl
    | with_reducible apply canon_foldl2
    | (with_reducible intro u x hu; try dsimp only)
    | split
    | exact fun _ k => ⟨k.1, k.2⟩
    | exact fun _ k => k
    | exact ⟨hq.1, hq.2⟩
    | (refine ⟨⟨hq.1.1, hq.1.2⟩, ?_⟩)
    | (refine ⟨hq.1, ?_⟩)

theorem State.stopJob_canon {s : State} (a1 : ℕ) (a2 : StopCause) (h : Canon s) :
    Canon (State.stopJob s a1 a2) := by
  unfold State.stopJob
  try dsimp only
  repeat' first
    | with_reducible assumption
    | with_reducible apply State.onSeq_canon
    | with_reducible apply State.onJob_canon
    | with_reducible apply Sequencer.stopTask_canon
    | with_reducible apply canon_ite
    | with_reducible refine foldl_keeps (P := Sequencer.Canon) _ _ hq ?_
    | with_reducible apply canon_foldl
    | with_reducible apply canon_foldl2
    | with_reducible apply canon_getD
    | (with_reducible intro u x hu; try dsimp only)
    | (with_reducible intro q hq; try dsimp only)
    | split
    | exact fun _ k => ⟨k.1, k.2⟩
    | exact fun _ k => k
    | exact ⟨hq.1, hq.2⟩
    | (refine ⟨⟨hq.1.1, hq.1.2⟩, ?_⟩)
    | (refine ⟨hq.1, ?_⟩)

theorem State.loseJob_canon {s : State} (a1 : ℕ) (h : Canon s) :
    Canon (State.loseJob s a1) := by
  unfold State.loseJob
  try dsimp only
  repeat' first
    | with_reducible assumption
    | with_reducible apply State.stopJob_canon
    | with_reducible apply canon_ite
    | split
    | exact fun _ k => ⟨k.1, k.2⟩
    | exact fun _ k => k
    | exact ⟨hq.1, hq.2⟩
    | (refine ⟨⟨hq.1.1, hq.1.2⟩, ?_⟩)
    | (refine ⟨hq.1, ?_⟩)

theorem State.leaveOpen_canon {s : State} (a1 : ℕ) (h : Canon s) :
    Canon (State.leaveOpen s a1) := by
  unfold State.leaveOpen
  try dsimp only
  repeat' first
    | with_reducible assumption
    | with_reducible apply State.entryStruck_canon
    | with_reducible refine canon_pair (x := State.entryStruck _ _ _) ?_ (by assumption)
    | with_reducible apply State.failXfer_canon
    | with_reducible apply State.strikeChain_canon
    | with_reducible apply State.loseJob_canon
    | with_reducible apply State.abortHandles_canon
    | with_reducible apply canon_ite
    | with_reducible apply canon_foldl
    | with_reducible apply canon_foldl2
    | (with_reducible intro u x hu; try dsimp only)
    | split
    | exact fun _ k => ⟨k.1, k.2⟩
    | exact fun _ k => k
    | exact ⟨hq.1, hq.2⟩
    | (refine ⟨⟨hq.1.1, hq.1.2⟩, ?_⟩)
    | (refine ⟨hq.1, ?_⟩)

theorem State.teardownEffect_canon {s : State} (a1 : ℕ) (h : Canon s) :
    Canon (State.teardownEffect s a1) := by
  unfold State.teardownEffect
  try dsimp only
  repeat' first
    | with_reducible assumption
    | with_reducible apply State.sendAck_canon
    | with_reducible apply State.freeFlowAt_canon
    | with_reducible apply State.leaveOpen_canon
    | with_reducible apply canon_ite
    | split
    | exact fun _ k => ⟨k.1, k.2⟩
    | exact fun _ k => k
    | exact ⟨hq.1, hq.2⟩
    | (refine ⟨⟨hq.1.1, hq.1.2⟩, ?_⟩)
    | (refine ⟨hq.1, ?_⟩)

theorem State.collSend_canon {s : State} (a1 : BitVec 20) (a2 : BitVec 18) (a3 : Bool) (a4 : BitVec 32)
    (h : Canon s) :
    Canon (State.collSend s a1 a2 a3 a4) := by
  unfold State.collSend
  try dsimp only
  repeat' first
    | with_reducible assumption
    | with_reducible apply State.startSetup_canon
    | with_reducible refine CanonM.out (v := State.startSetup _ _ _) ?_ (by assumption)
    | with_reducible apply State.onColl_canon
    | with_reducible apply State.noteRefused_canon
    | with_reducible apply State.sendCtl_canon
    | with_reducible apply canon_ite
    | split
    | exact fun _ k => ⟨k.1, k.2⟩
    | exact fun _ k => k
    | exact ⟨hq.1, hq.2⟩
    | (refine ⟨⟨hq.1.1, hq.1.2⟩, ?_⟩)
    | (refine ⟨hq.1, ?_⟩)

theorem State.collComplete_canon {s : State} (a1 : BitVec 20) (h : Canon s) :
    Canon (State.collComplete s a1) := by
  unfold State.collComplete
  try dsimp only
  repeat' first
    | with_reducible assumption
    | with_reducible apply State.collSend_canon
    | with_reducible apply State.onColl_canon
    | with_reducible apply canon_ite
    | with_reducible apply canon_foldl
    | with_reducible apply canon_foldl2
    | (with_reducible intro u x hu; try dsimp only)
    | split
    | exact fun _ k => ⟨k.1, k.2⟩
    | exact fun _ k => k
    | exact ⟨hq.1, hq.2⟩
    | (refine ⟨⟨hq.1.1, hq.1.2⟩, ?_⟩)
    | (refine ⟨hq.1, ?_⟩)

theorem State.collPump_canon {s : State} (a1 : BitVec 20) (h : Canon s) :
    Canon (State.collPump s a1) := by
  unfold State.collPump
  try dsimp only
  repeat' first
    | with_reducible assumption
    | with_reducible apply State.collSend_canon
    | with_reducible apply State.onColl_canon
    | with_reducible apply State.collComplete_canon
    | with_reducible apply canon_ite
    | split
    | exact fun _ k => ⟨k.1, k.2⟩
    | exact fun _ k => k
    | exact ⟨hq.1, hq.2⟩
    | (refine ⟨⟨hq.1.1, hq.1.2⟩, ?_⟩)
    | (refine ⟨hq.1, ?_⟩)

theorem State.barrierEffect_canon {s : State} (a1 : ℕ) (a2 : BitVec 20) (a3 : Bool) (a4 : BitVec 32) (h : Canon s) :
    Canon (State.barrierEffect s a1 a2 a3 a4) := by
  unfold State.barrierEffect
  try dsimp only
  repeat' first
    | with_reducible assumption
    | with_reducible apply State.onColl_canon
    | with_reducible apply State.collPump_canon
    | with_reducible apply State.collComplete_canon
    | with_reducible apply canon_ite
    | split
    | exact fun _ k => ⟨k.1, k.2⟩
    | exact fun _ k => k
    | exact ⟨hq.1, hq.2⟩
    | (refine ⟨⟨hq.1.1, hq.1.2⟩, ?_⟩)
    | (refine ⟨hq.1, ?_⟩)

theorem State.ctlEffect_canon {s : State} (a1 : ℕ) (a2 : BitVec 32) (a3 : Ctl) (h : Canon s) :
    Canon (State.ctlEffect s a1 a2 a3) := by
  unfold State.ctlEffect
  try dsimp only
  repeat' first
    | with_reducible assumption
    | with_reducible apply State.settleFlow_canon
    | with_reducible apply State.creditEffect_canon
    | with_reducible apply State.groupEffect_canon
    | with_reducible apply State.strikeEffect_canon
    | with_reducible apply State.touchEffect_canon
    | with_reducible apply State.teardownEffect_canon
    | with_reducible apply State.barrierEffect_canon
    | with_reducible apply Scratch.strike_canon
    | with_reducible apply Scratch.touch_canon
    | with_reducible apply canon_ite
    | split
    | exact fun _ k => ⟨k.1, k.2⟩
    | exact fun _ k => k
    | exact ⟨hq.1, hq.2⟩
    | (refine ⟨⟨hq.1.1, hq.1.2⟩, ?_⟩)
    | (refine ⟨hq.1, ?_⟩)

theorem State.runCtl_canon {s : State} (a1 : ℕ) (a2 : ℕ) (h : Canon s) :
    Canon (State.runCtl s a1 a2) := by
  induction a2 generalizing s a1 with
  | zero =>
    unfold State.runCtl
    try dsimp only
    repeat' first
      | with_reducible assumption
      | with_reducible apply State.onFlow_canon
      | with_reducible apply State.ctlEffect_canon
      | with_reducible apply canon_ite
      | split
      | exact fun _ k => ⟨k.1, k.2⟩
      | exact fun _ k => k
      | exact ⟨hq.1, hq.2⟩
      | (refine ⟨⟨hq.1.1, hq.1.2⟩, ?_⟩)
      | (refine ⟨hq.1, ?_⟩)
  | succ k ih =>
    unfold State.runCtl
    try dsimp only
    repeat' first
      | with_reducible assumption
      | with_reducible apply ih
      | with_reducible apply State.onFlow_canon
      | with_reducible apply State.ctlEffect_canon
      | with_reducible apply canon_ite
      | split
      | exact fun _ k => ⟨k.1, k.2⟩
      | exact fun _ k => k
      | exact ⟨hq.1, hq.2⟩
      | (refine ⟨⟨hq.1.1, hq.1.2⟩, ?_⟩)
      | (refine ⟨hq.1, ?_⟩)

theorem State.pfcCheck_canon {s : State} (a1 : ℕ) (a2 : ℕ) (h : Canon s) :
    Canon (State.pfcCheck s a1 a2) := by
  unfold State.pfcCheck
  try dsimp only
  repeat' first
    | with_reducible assumption
    | with_reducible apply State.onPort_canon
    | with_reducible apply canon_ite
    | split
    | exact fun _ k => ⟨k.1, k.2⟩
    | exact fun _ k => k
    | exact ⟨hq.1, hq.2⟩
    | exact fun _ k => ⟨k.1, k.2.1, (by dsimp only; exact Tbl.mapv_wf _ _ _ k.2.2.1), k.2.2.2⟩
    | exact fun _ k => ⟨k.1, k.2.1, k.2.2.1, (by dsimp only; exact Tbl.mapv_wf _ _ _ k.2.2.2)⟩
    | exact fun _ k => ⟨(by dsimp only; exact Tbl.mapv_wf _ _ _ k.1), k.2⟩
    | exact fun _ k => ⟨k.1, (by dsimp only; exact Tbl.mapv_wf _ _ _ k.2)⟩
    | exact ⟨hq.1, hq.2.1, hq.2.2.1, (by dsimp only; exact Tbl.set_wf _ _ _ _ hq.2.2.2.1), hq.2.2.2.2⟩
    | exact ⟨hq.1, hq.2.1, (by dsimp only; exact Tbl.set_wf _ _ _ _ hq.2.2.1), hq.2.2.2⟩
    | exact ⟨(by dsimp only; exact Tbl.mapv_wf _ _ _ hq.1), hq.2⟩
    | exact fun k => cores_mapv_canon _ (fun c k => Core.halt_canon k) k
    | exact fun k => (by dsimp only; exact Tbl.mapv_wf _ _ _ k.2.2.1)
    | exact fun k => (by dsimp only; exact Tbl.mapv_wf _ _ _ k.2.2.2.1)
    | exact fun _ k => (by dsimp only; exact Tbl.mapv_wf _ _ _ k)
    | (refine ⟨⟨hq.1.1, hq.1.2⟩, ?_⟩)
    | (refine ⟨hq.1, ?_⟩)

theorem State.bufTake_canon {s : State} (a1 : ℕ) (a2 : RxFrame) (h : Canon s) :
    Canon (State.bufTake s a1 a2) := by
  unfold State.bufTake
  try dsimp only
  repeat' first
    | with_reducible assumption
    | with_reducible apply State.pfcCheck_canon
    | with_reducible apply State.onPort_canon
    | with_reducible apply canon_ite
    | split
    | exact fun _ k => ⟨k.1, k.2⟩
    | exact fun _ k => k
    | exact ⟨hq.1, hq.2⟩
    | (refine ⟨⟨hq.1.1, hq.1.2⟩, ?_⟩)
    | (refine ⟨hq.1, ?_⟩)

theorem State.bufRelease_canon {s : State} (a1 : PktHdr) (h : Canon s) :
    Canon (State.bufRelease s a1) := by
  unfold State.bufRelease
  try dsimp only
  repeat' first
    | with_reducible assumption
    | with_reducible apply State.bufTake_canon
    | with_reducible apply canon_ite
    | split
    | exact fun _ k => ⟨k.1, k.2⟩
    | exact fun _ k => k
    | exact ⟨hq.1, hq.2⟩
    | (refine ⟨⟨hq.1.1, hq.1.2⟩, ?_⟩)
    | (refine ⟨hq.1, ?_⟩)

theorem State.afterArrival_canon {s : State} (a1 : PktHdr) (h : Canon s) :
    Canon (State.afterArrival s a1) := by
  unfold State.afterArrival
  try dsimp only
  repeat' first
    | with_reducible assumption
    | with_reducible apply State.settleFlow_canon
    | with_reducible apply State.runCtl_canon
    | with_reducible apply State.bufRelease_canon
    | with_reducible apply canon_ite
    | split
    | exact fun _ k => ⟨k.1, k.2⟩
    | exact fun _ k => k
    | exact ⟨hq.1, hq.2⟩
    | (refine ⟨⟨hq.1.1, hq.1.2⟩, ?_⟩)
    | (refine ⟨hq.1, ?_⟩)

theorem State.ackNote_canon {s : State} (a1 : PktHdr) (a2 : Bool) (a3 : Option (BitVec 8 × BitVec 32)) (h : Canon s) :
    Canon (State.ackNote s a1 a2 a3) := by
  unfold State.ackNote
  try dsimp only
  repeat' first
    | with_reducible assumption
    | with_reducible apply State.onFlow_canon
    | with_reducible apply State.sendAck_canon
    | with_reducible apply canon_ite
    | with_reducible apply canon_getD
    | split
    | exact fun _ k => ⟨k.1, k.2⟩
    | exact fun _ k => k
    | exact ⟨hq.1, hq.2⟩
    | (refine ⟨⟨hq.1.1, hq.1.2⟩, ?_⟩)
    | (refine ⟨hq.1, ?_⟩)

theorem State.recordArrival_canon {s : State} (a1 : PktHdr) (a2 : Option (BitVec 8)) (h : Canon s) :
    Canon (State.recordArrival s a1 a2) := by
  unfold State.recordArrival
  try dsimp only
  repeat' first
    | with_reducible assumption
    | with_reducible apply State.onFlow_canon
    | with_reducible apply State.ackNote_canon
    | with_reducible apply canon_ite
    | split
    | exact fun _ k => ⟨k.1, k.2⟩
    | exact fun _ k => k
    | exact ⟨hq.1, hq.2⟩
    | (refine ⟨⟨hq.1.1, hq.1.2⟩, ?_⟩)
    | (refine ⟨hq.1, ?_⟩)

theorem State.verdict_canon {s : State} (a1 : PktHdr) (a2 : Bool) (h : Canon s) :
    CanonV (State.verdict s a1 a2) := by
  unfold State.verdict
  try dsimp only
  repeat' first
    | with_reducible assumption
    | with_reducible apply State.bufRelease_canon
    | with_reducible apply State.ackNote_canon
    | with_reducible apply State.ctxUse_canon
    | with_reducible refine canon_pair (x := State.ctxUse _ _) ?_ (by assumption)
    | with_reducible apply canon_ite
    | with_reducible apply canonV_settled
    | with_reducible apply canonV_fresh
    | split
    | with_reducible refine canon_fab _ ?_ ?_
    | exact fun _ k => ⟨k.1, k.2⟩
    | exact fun _ k => k
    | exact ⟨hq.1, hq.2⟩
    | (refine ⟨⟨hq.1.1, hq.1.2⟩, ?_⟩)
    | (refine ⟨hq.1, ?_⟩)

theorem State.receiveCtl_canon {s : State} (a1 : PktHdr) (a2 : Ctl) (h : Canon s) :
    Canon (State.receiveCtl s a1 a2) := by
  unfold State.receiveCtl
  try dsimp only
  repeat' first
    | with_reducible assumption
    | with_reducible apply State.afterArrival_canon
    | with_reducible apply State.recordArrival_canon
    | with_reducible apply State.onFlow_canon
    | with_reducible apply State.verdict_canon
    | with_reducible refine CanonV.settledOut (v := State.verdict _ _ _) ?_ (by assumption)
    | with_reducible refine CanonV.freshOut (v := State.verdict _ _ _) ?_ (by assumption)
    | with_reducible apply canon_ite
    | split
    | exact fun _ k => ⟨k.1, k.2⟩
    | exact fun _ k => k
    | exact ⟨hq.1, hq.2⟩
    | (refine ⟨⟨hq.1.1, hq.1.2⟩, ?_⟩)
    | (refine ⟨hq.1, ?_⟩)

theorem State.train_canon {s : State} (a1 : ℕ) (a2 : Bool) (h : Canon s) :
    Canon (State.train s a1 a2) := by
  unfold State.train
  try dsimp only
  repeat' first
    | with_reducible assumption
    | with_reducible apply State.onPort_canon
    | with_reducible apply canon_ite
    | split
    | exact fun _ k => ⟨k.1, k.2⟩
    | exact fun _ k => k
    | exact ⟨hq.1, hq.2⟩
    | (refine ⟨⟨hq.1.1, hq.1.2⟩, ?_⟩)
    | (refine ⟨hq.1, ?_⟩)

theorem State.stageFour_canon {s : State} (a1 : ℕ) (a2 : Boot) (h : Canon s) :
    Canon (State.stageFour s a1 a2) := by
  unfold State.stageFour
  try dsimp only
  repeat' first
    | with_reducible assumption
    | with_reducible apply State.train_canon
    | with_reducible apply State.onOptic_canon
    | with_reducible apply State.onPort_canon
    | with_reducible apply canon_ite
    | with_reducible apply canon_foldl
    | with_reducible apply canon_foldl2
    | with_reducible apply canon_getD
    | (with_reducible intro u x hu; try dsimp only)
    | split
    | exact fun _ k => ⟨k.1, k.2⟩
    | exact fun _ k => k
    | exact ⟨hq.1, hq.2⟩
    | (refine ⟨⟨hq.1.1, hq.1.2⟩, ?_⟩)
    | (refine ⟨hq.1, ?_⟩)

theorem State.restartConfig_canon {s : State} (a1 : Bool) (h : Canon s) :
    Canon (State.restartConfig s a1) := by
  unfold State.restartConfig
  try dsimp only
  repeat' first
    | with_reducible assumption
    | with_reducible apply canon_ite
    | split
    | with_reducible refine canon_cfg _ ?_
    | exact fun _ k => ⟨k.1, k.2⟩
    | exact fun _ k => k
    | exact ⟨hq.1, hq.2⟩
    | (refine ⟨⟨hq.1.1, hq.1.2⟩, ?_⟩)
    | (refine ⟨hq.1, ?_⟩)

theorem State.enterAbsent_canon {s : State} (h : Canon s) :
    Canon (State.enterAbsent s) := by
  unfold State.enterAbsent
  try dsimp only
  repeat' first
    | with_reducible assumption
    | with_reducible apply canon_ite
    | split
    | with_reducible refine canon_host _ ?_ ?_
    | exact fun _ k => ⟨k.1, k.2⟩
    | exact fun _ k => k
    | exact ⟨hq.1, hq.2⟩
    | (refine ⟨⟨hq.1.1, hq.1.2⟩, ?_⟩)
    | (refine ⟨hq.1, ?_⟩)

theorem State.adoptReg_canon {s : State} (a1 : ℕ) (a2 : Word) (h : Canon s) :
    Canon (State.adoptReg s a1 a2) := by
  unfold State.adoptReg
  try dsimp only
  repeat' first
    | with_reducible assumption
    | with_reducible apply canon_ite
    | split
    | with_reducible refine canon_cfg _ ?_
    | exact fun _ k => ⟨k.1, k.2⟩
    | exact fun _ k => k
    | exact ⟨hq.1, hq.2⟩
    | exact fun _ k => ⟨k.1, k.2.1, (by dsimp only; exact Tbl.mapv_wf _ _ _ k.2.2.1), k.2.2.2⟩
    | exact fun _ k => ⟨k.1, k.2.1, k.2.2.1, (by dsimp only; exact Tbl.mapv_wf _ _ _ k.2.2.2)⟩
    | exact fun _ k => ⟨(by dsimp only; exact Tbl.mapv_wf _ _ _ k.1), k.2⟩
    | exact fun _ k => ⟨k.1, (by dsimp only; exact Tbl.mapv_wf _ _ _ k.2)⟩
    | exact ⟨hq.1, hq.2.1, hq.2.2.1, (by dsimp only; exact Tbl.set_wf _ _ _ _ hq.2.2.2.1), hq.2.2.2.2⟩
    | exact ⟨hq.1, hq.2.1, (by dsimp only; exact Tbl.set_wf _ _ _ _ hq.2.2.1), hq.2.2.2⟩
    | exact ⟨(by dsimp only; exact Tbl.mapv_wf _ _ _ hq.1), hq.2⟩
    | exact fun k => cores_mapv_canon _ (fun c k => Core.halt_canon k) k
    | exact fun k => (by dsimp only; exact Tbl.mapv_wf _ _ _ k.2.2.1)
    | exact fun k => (by dsimp only; exact Tbl.mapv_wf _ _ _ k.2.2.2.1)
    | exact fun _ k => (by dsimp only; exact Tbl.mapv_wf _ _ _ k)
    | (refine ⟨⟨hq.1.1, hq.1.2⟩, ?_⟩)
    | (refine ⟨hq.1, ?_⟩)

theorem State.dropAperture_canon {s : State} (h : Canon s) :
    Canon (State.dropAperture s) := by
  unfold State.dropAperture
  try dsimp only
  repeat' first
    | with_reducible assumption
    | with_reducible apply State.adoptReg_canon
    | with_reducible apply canon_ite
    | with_reducible apply canon_foldl
    | with_reducible apply canon_foldl2
    | (with_reducible intro u x hu; try dsimp only)
    | split
    | exact fun _ k => ⟨k.1, k.2⟩
    | exact fun _ k => k
    | exact ⟨hq.1, hq.2⟩
    | (refine ⟨⟨hq.1.1, hq.1.2⟩, ?_⟩)
    | (refine ⟨hq.1, ?_⟩)

theorem State.redFlags_canon {s : State} (a1 : ℕ) (a2 : Word) (h : Canon s) :
    Canon (State.redFlags s a1 a2) := by
  unfold State.redFlags
  try dsimp only
  repeat' first
    | with_reducible assumption
    | with_reducible apply State.onInteg_canon
    | with_reducible apply canon_ite
    | split
    | exact fun _ k => ⟨k.1, k.2⟩
    | exact fun _ k => k
    | exact ⟨hq.1, hq.2⟩
    | (refine ⟨⟨hq.1.1, hq.1.2⟩, ?_⟩)
    | (refine ⟨hq.1, ?_⟩)

theorem State.setUnitPoison_canon {s : State} (a1 : ℕ) (a2 : Bool) (h : Canon s) :
    Canon (State.setUnitPoison s a1 a2) := by
  unfold State.setUnitPoison
  try dsimp only
  repeat' first
    | with_reducible assumption
    | with_reducible apply canon_ite
    | split
    | with_reducible refine canon_mem _ ?_ ?_
    | exact fun _ k => ⟨k.1, k.2⟩
    | exact fun _ k => k
    | exact ⟨hq.1, hq.2⟩
    | exact fun _ k => ⟨k.1, k.2.1, (by dsimp only; exact Tbl.mapv_wf _ _ _ k.2.2.1), k.2.2.2⟩
    | exact fun _ k => ⟨k.1, k.2.1, k.2.2.1, (by dsimp only; exact Tbl.mapv_wf _ _ _ k.2.2.2)⟩
    | exact fun _ k => ⟨(by dsimp only; exact Tbl.mapv_wf _ _ _ k.1), k.2⟩
    | exact fun _ k => ⟨k.1, (by dsimp only; exact Tbl.mapv_wf _ _ _ k.2)⟩
    | exact ⟨hq.1, hq.2.1, hq.2.2.1, (by dsimp only; exact Tbl.set_wf _ _ _ _ hq.2.2.2.1), hq.2.2.2.2⟩
    | exact ⟨hq.1, hq.2.1, (by dsimp only; exact Tbl.set_wf _ _ _ _ hq.2.2.1), hq.2.2.2⟩
    | exact ⟨(by dsimp only; exact Tbl.mapv_wf _ _ _ hq.1), hq.2⟩
    | exact fun k => cores_mapv_canon _ (fun c k => Core.halt_canon k) k
    | exact fun k => (by dsimp only; exact Tbl.mapv_wf _ _ _ k.2.2.1)
    | exact fun k => (by dsimp only; exact Tbl.mapv_wf _ _ _ k.2.2.2.1)
    | exact fun _ k => (by dsimp only; exact Tbl.mapv_wf _ _ _ k)
    | exact fun _ k => ⟨(by dsimp only; exact Mem.writeN_wf _ _ _ k.1), k.2⟩
    | exact fun _ k => ⟨k.1, (by dsimp only; exact Mem.writeN_wf _ _ _ k.2)⟩
    | exact fun _ k => ⟨k.1, (by dsimp only; exact Tbl.set_wf _ _ _ _ k.2.1), k.2.2⟩
    | (refine ⟨⟨hq.1.1, hq.1.2⟩, ?_⟩)
    | (refine ⟨hq.1, ?_⟩)

theorem State.markUnit_canon {s : State} (a1 : ℕ) (h : Canon s) :
    Canon (State.markUnit s a1) := by
  unfold State.markUnit
  try dsimp only
  repeat' first
    | with_reducible assumption
    | with_reducible apply State.fieldFail_canon
    | with_reducible apply State.setUnitPoison_canon
    | with_reducible apply canon_ite
    | split
    | exact fun _ k => ⟨k.1, k.2⟩
    | exact fun _ k => k
    | exact ⟨hq.1, hq.2⟩
    | (refine ⟨⟨hq.1.1, hq.1.2⟩, ?_⟩)
    | (refine ⟨hq.1, ?_⟩)

theorem State.setDram_canon {s : State} (a1 : ℕ) (a2 : List Byte) (h : Canon s) :
    Canon (State.setDram s a1 a2) := by
  unfold State.setDram
  try dsimp only
  repeat' first
    | with_reducible assumption
    | with_reducible apply canon_ite
    | split
    | with_reducible refine canon_mem _ ?_ ?_
    | exact fun _ k => ⟨k.1, k.2⟩
    | exact fun _ k => k
    | exact ⟨hq.1, hq.2⟩
    | exact fun _ k => ⟨k.1, k.2.1, (by dsimp only; exact Tbl.mapv_wf _ _ _ k.2.2.1), k.2.2.2⟩
    | exact fun _ k => ⟨k.1, k.2.1, k.2.2.1, (by dsimp only; exact Tbl.mapv_wf _ _ _ k.2.2.2)⟩
    | exact fun _ k => ⟨(by dsimp only; exact Tbl.mapv_wf _ _ _ k.1), k.2⟩
    | exact fun _ k => ⟨k.1, (by dsimp only; exact Tbl.mapv_wf _ _ _ k.2)⟩
    | exact ⟨hq.1, hq.2.1, hq.2.2.1, (by dsimp only; exact Tbl.set_wf _ _ _ _ hq.2.2.2.1), hq.2.2.2.2⟩
    | exact ⟨hq.1, hq.2.1, (by dsimp only; exact Tbl.set_wf _ _ _ _ hq.2.2.1), hq.2.2.2⟩
    | exact ⟨(by dsimp only; exact Tbl.mapv_wf _ _ _ hq.1), hq.2⟩
    | exact fun k => cores_mapv_canon _ (fun c k => Core.halt_canon k) k
    | exact fun k => (by dsimp only; exact Tbl.mapv_wf _ _ _ k.2.2.1)
    | exact fun k => (by dsimp only; exact Tbl.mapv_wf _ _ _ k.2.2.2.1)
    | exact fun _ k => (by dsimp only; exact Tbl.mapv_wf _ _ _ k)
    | exact fun _ k => ⟨(by dsimp only; exact Mem.writeN_wf _ _ _ k.1), k.2⟩
    | exact fun _ k => ⟨k.1, (by dsimp only; exact Mem.writeN_wf _ _ _ k.2)⟩
    | exact fun _ k => ⟨k.1, (by dsimp only; exact Tbl.set_wf _ _ _ _ k.2.1), k.2.2⟩
    | (refine ⟨⟨hq.1.1, hq.1.2⟩, ?_⟩)
    | (refine ⟨hq.1, ?_⟩)

theorem State.openRow_canon {s : State} (a1 : ℕ) (h : Canon s) :
    Canon (State.openRow s a1) := by
  unfold State.openRow
  try dsimp only
  repeat' first
    | with_reducible assumption
    | with_reducible apply State.onStk_canon
    | with_reducible apply canon_ite
    | split
    | exact fun _ k => ⟨k.1, k.2⟩
    | exact fun _ k => k
    | exact ⟨hq.1, hq.2⟩
    | exact fun _ k => ⟨k.1, k.2.1, (by dsimp only; exact Tbl.mapv_wf _ _ _ k.2.2.1), k.2.2.2⟩
    | exact fun _ k => ⟨k.1, k.2.1, k.2.2.1, (by dsimp only; exact Tbl.mapv_wf _ _ _ k.2.2.2)⟩
    | exact fun _ k => ⟨(by dsimp only; exact Tbl.mapv_wf _ _ _ k.1), k.2⟩
    | exact fun _ k => ⟨k.1, (by dsimp only; exact Tbl.mapv_wf _ _ _ k.2)⟩
    | exact ⟨hq.1, hq.2.1, hq.2.2.1, (by dsimp only; exact Tbl.set_wf _ _ _ _ hq.2.2.2.1), hq.2.2.2.2⟩
    | exact ⟨hq.1, hq.2.1, (by dsimp only; exact Tbl.set_wf _ _ _ _ hq.2.2.1), hq.2.2.2⟩
    | exact ⟨(by dsimp only; exact Tbl.mapv_wf _ _ _ hq.1), hq.2⟩
    | exact fun k => cores_mapv_canon _ (fun c k => Core.halt_canon k) k
    | exact fun k => (by dsimp only; exact Tbl.mapv_wf _ _ _ k.2.2.1)
    | exact fun k => (by dsimp only; exact Tbl.mapv_wf _ _ _ k.2.2.2.1)
    | exact fun _ k => (by dsimp only; exact Tbl.mapv_wf _ _ _ k)
    | (refine ⟨⟨hq.1.1, hq.1.2⟩, ?_⟩)
    | (refine ⟨hq.1, ?_⟩)

theorem State.setUnitCond_canon {s : State} (a1 : ℕ) (a2 : Stored) (h : Canon s) : Canon
    (State.setUnitCond s a1 a2) :=
  canon_mem _ h fun _ k => ⟨k.1, k.2.1, k.2.2.1, k.2.2.2.1, by dsimp only; exact Tbl.set_wf _ _ _ _ k.2.2.2.2⟩

theorem State.foundBad_canon {s : State} (a1 : ℕ) (h : Canon s) :
    Canon (State.foundBad s a1) := by
  unfold State.foundBad
  try dsimp only
  repeat' first
    | with_reducible assumption
    | with_reducible apply State.markUnit_canon
    | with_reducible apply State.onStk_canon
    | with_reducible apply State.setUnitCond_canon
    | with_reducible apply canon_ite
    | split
    | exact fun _ k => ⟨k.1, k.2⟩
    | exact fun _ k => k
    | exact ⟨hq.1, hq.2⟩
    | (refine ⟨⟨hq.1.1, hq.1.2⟩, ?_⟩)
    | (refine ⟨hq.1, ?_⟩)

theorem State.upset_canon {s : State} (a1 : ℕ) (a2 : Upset) (h : Canon s) :
    Canon (State.upset s a1 a2) := by
  unfold State.upset
  try dsimp only
  repeat' first
    | with_reducible assumption
    | with_reducible apply State.setUnitCond_canon
    | with_reducible apply canon_ite
    | split
    | exact fun _ k => ⟨k.1, k.2⟩
    | exact fun _ k => k
    | exact ⟨hq.1, hq.2⟩
    | (refine ⟨⟨hq.1.1, hq.1.2⟩, ?_⟩)
    | (refine ⟨hq.1, ?_⟩)

theorem State.mergeRead_canon {s : State} (a1 : ℕ) (a2 : Upset) (h : Canon s) :
    Canon (State.mergeRead s a1 a2).2 := by
  unfold State.mergeRead
  try dsimp only
  repeat' first
    | with_reducible assumption
    | with_reducible apply State.foundBad_canon
    | with_reducible apply State.upset_canon
    | with_reducible apply State.onStk_canon
    | with_reducible apply canon_ite
    | split
    | exact fun _ k => ⟨k.1, k.2⟩
    | exact fun _ k => k
    | exact ⟨hq.1, hq.2⟩
    | (refine ⟨⟨hq.1.1, hq.1.2⟩, ?_⟩)
    | (refine ⟨hq.1, ?_⟩)
    | dsimp only

theorem State.stackPut_canon {s : State} (a1 : ℕ) (a2 : ℕ) (a3 : List Byte) (a4 : Bool) (a5 : Upset) (h : Canon s) :
    Canon (State.stackPut s a1 a2 a3 a4 a5) := by
  unfold State.stackPut
  try dsimp only
  repeat' first
    | with_reducible assumption
    | with_reducible apply State.markUnit_canon
    | with_reducible apply State.setUnitPoison_canon
    | with_reducible apply State.setDram_canon
    | with_reducible apply State.openRow_canon
    | with_reducible apply State.mergeRead_canon
    | with_reducible refine canon_pair (x := State.mergeRead _ _ _) ?_ (by assumption)
    | with_reducible apply State.setUnitCond_canon
    | with_reducible apply canon_ite
    | split
    | exact fun _ k => ⟨k.1, k.2⟩
    | exact fun _ k => k
    | exact ⟨hq.1, hq.2⟩
    | (refine ⟨⟨hq.1.1, hq.1.2⟩, ?_⟩)
    | (refine ⟨hq.1, ?_⟩)

theorem State.writeBack_canon {s : State} (a1 : Line) (h : Canon s) :
    Canon (State.writeBack s a1) := by
  unfold State.writeBack
  try dsimp only
  repeat' first
    | with_reducible assumption
    | with_reducible apply State.stackPut_canon
    | with_reducible apply canon_ite
    | with_reducible apply canon_foldl
    | with_reducible apply canon_foldl2
    | (with_reducible intro u x hu; try dsimp only)
    | split
    | exact fun _ k => ⟨k.1, k.2⟩
    | exact fun _ k => k
    | exact ⟨hq.1, hq.2⟩
    | (refine ⟨⟨hq.1.1, hq.1.2⟩, ?_⟩)
    | (refine ⟨hq.1, ?_⟩)

theorem State.sendGroup_canon {s : State} (a1 : ℕ) (a2 : BitVec 12) (a3 : Bool) (h : Canon s) :
    Canon (State.sendGroup s a1 a2 a3) := by
  unfold State.sendGroup
  try dsimp only
  repeat' first
    | with_reducible assumption
    | with_reducible apply State.sendCtl_canon
    | with_reducible apply canon_ite
    | with_reducible apply canon_foldl
    | with_reducible apply canon_foldl2
    | (with_reducible intro u x hu; try dsimp only)
    | split
    | exact fun _ k => ⟨k.1, k.2⟩
    | exact fun _ k => k
    | exact ⟨hq.1, hq.2⟩
    | (refine ⟨⟨hq.1.1, hq.1.2⟩, ?_⟩)
    | (refine ⟨hq.1, ?_⟩)

theorem State.resolveLoc_canon {s : State} (a1 : ℕ) (a2 : BitVec 12) (a3 : Bool) (h : Canon s) :
    Canon (State.resolveLoc s a1 a2 a3) := by
  unfold State.resolveLoc
  try dsimp only
  repeat' first
    | with_reducible assumption
    | with_reducible apply State.settleLoc_canon
    | with_reducible apply State.resolveRx_canon
    | with_reducible refine canon_fst (x := State.resolveRx _ _ _ _) ?_ (by assumption)
    | with_reducible apply canon_ite
    | split
    | with_reducible refine canon_fab _ ?_ ?_
    | exact fun _ k => ⟨k.1, k.2⟩
    | exact fun _ k => k
    | exact ⟨hq.1, hq.2⟩
    | (refine ⟨⟨hq.1.1, hq.1.2⟩, ?_⟩)
    | (refine ⟨hq.1, ?_⟩)

theorem State.abortGroup_canon {s : State} (a1 : ℕ) (a2 : BitVec 12) (a3 : ℕ) (h : Canon s) :
    Canon (State.abortGroup s a1 a2 a3) := by
  unfold State.abortGroup
  try dsimp only
  repeat' first
    | with_reducible assumption
    | with_reducible apply State.sendGroup_canon
    | with_reducible apply State.dropShadows_canon
    | with_reducible apply State.resolveLoc_canon
    | with_reducible apply State.onSeq_canon
    | with_reducible apply State.onCore_canon
    | with_reducible apply State.drainPump_canon
    | with_reducible apply Sequencer.onGrp_canon
    | with_reducible apply Core.releaseExtents_canon
    | with_reducible apply canon_ite
    | (with_reducible intro q hq; try dsimp only)
    | split
    | exact fun _ k => ⟨k.1, k.2⟩
    | exact fun _ k => k
    | exact ⟨hq.1, hq.2⟩
    | (refine ⟨⟨hq.1.1, hq.1.2⟩, ?_⟩)
    | (refine ⟨hq.1, ?_⟩)

theorem State.overflowKey_canon {s : State} (a1 : GrpKey) (h : Canon s) :
    Canon (State.overflowKey s a1) := by
  unfold State.overflowKey
  try dsimp only
  repeat' first
    | with_reducible assumption
    | with_reducible apply State.dropShadows_canon
    | with_reducible apply State.abortGroup_canon
    | with_reducible apply canon_ite
    | split
    | exact fun _ k => ⟨k.1, k.2⟩
    | exact fun _ k => k
    | exact ⟨hq.1, hq.2⟩
    | (refine ⟨⟨hq.1.1, hq.1.2⟩, ?_⟩)
    | (refine ⟨hq.1, ?_⟩)

theorem State.stackAdd_canon {s : State} (a1 : ℕ) (a2 : Bool) (a3 : List Byte) (a4 : Bool) (a5 : Upset)
    (h : Canon s) :
    Canon (State.stackAdd s a1 a2 a3 a4 a5) := by
  unfold State.stackAdd
  try dsimp only
  repeat' first
    | with_reducible assumption
    | with_reducible apply State.markUnit_canon
    | with_reducible apply State.setUnitPoison_canon
    | with_reducible apply State.setDram_canon
    | with_reducible apply State.openRow_canon
    | with_reducible apply State.mergeRead_canon
    | with_reducible refine canon_pair (x := State.mergeRead _ _ _) ?_ (by assumption)
    | with_reducible apply State.setUnitCond_canon
    | with_reducible apply canon_ite
    | split
    | exact fun _ k => ⟨k.1, k.2⟩
    | exact fun _ k => k
    | exact ⟨hq.1, hq.2⟩
    | (refine ⟨⟨hq.1.1, hq.1.2⟩, ?_⟩)
    | (refine ⟨hq.1, ?_⟩)

theorem State.putLine_canon {s : State} (a1 : Line) (h : Canon s) :
    Canon (State.putLine s a1) := by
  unfold State.putLine
  try dsimp only
  repeat' first
    | with_reducible assumption
    | with_reducible apply State.onSlice_canon
    | with_reducible apply canon_ite
    | split
    | exact fun _ k => ⟨k.1, k.2⟩
    | exact fun _ k => k
    | exact ⟨hq.1, hq.2⟩
    | exact fun _ k => ⟨k.1, k.2.1, (by dsimp only; exact Tbl.mapv_wf _ _ _ k.2.2.1), k.2.2.2⟩
    | exact fun _ k => ⟨k.1, k.2.1, k.2.2.1, (by dsimp only; exact Tbl.mapv_wf _ _ _ k.2.2.2)⟩
    | exact fun _ k => ⟨(by dsimp only; exact Tbl.mapv_wf _ _ _ k.1), k.2⟩
    | exact fun _ k => ⟨k.1, (by dsimp only; exact Tbl.mapv_wf _ _ _ k.2)⟩
    | exact ⟨hq.1, hq.2.1, hq.2.2.1, (by dsimp only; exact Tbl.set_wf _ _ _ _ hq.2.2.2.1), hq.2.2.2.2⟩
    | exact ⟨hq.1, hq.2.1, (by dsimp only; exact Tbl.set_wf _ _ _ _ hq.2.2.1), hq.2.2.2⟩
    | exact ⟨(by dsimp only; exact Tbl.mapv_wf _ _ _ hq.1), hq.2⟩
    | exact fun k => cores_mapv_canon _ (fun c k => Core.halt_canon k) k
    | exact fun k => (by dsimp only; exact Tbl.mapv_wf _ _ _ k.2.2.1)
    | exact fun k => (by dsimp only; exact Tbl.mapv_wf _ _ _ k.2.2.2.1)
    | exact fun _ k => (by dsimp only; exact Tbl.mapv_wf _ _ _ k)
    | (refine ⟨⟨hq.1.1, hq.1.2⟩, ?_⟩)
    | (refine ⟨hq.1, ?_⟩)

theorem State.copyHome_canon {s : State} (a1 : Shadow) (h : Canon s) :
    Canon (State.copyHome s a1) := by
  unfold State.copyHome
  try dsimp only
  repeat' first
    | with_reducible assumption
    | with_reducible apply State.stackPut_canon
    | with_reducible apply State.putLine_canon
    | with_reducible apply Sequencer.write_canon
    | with_reducible apply canon_ite
    | with_reducible apply canon_foldl
    | with_reducible apply canon_foldl2
    | (with_reducible intro u x hu; try dsimp only)
    | split
    | exact fun _ k => ⟨k.1, k.2⟩
    | exact fun _ k => k
    | exact ⟨hq.1, hq.2⟩
    | (refine ⟨⟨hq.1.1, hq.1.2⟩, ?_⟩)
    | (refine ⟨hq.1, ?_⟩)

theorem State.settle_canon {s : State} (a1 : ℕ) (h : Canon s) :
    Canon (State.settle s a1) := by
  unfold State.settle
  try dsimp only
  repeat' first
    | with_reducible assumption
    | with_reducible apply State.copyHome_canon
    | with_reducible apply State.onSlice_canon
    | with_reducible apply canon_ite
    | with_reducible apply canon_foldl
    | with_reducible apply canon_foldl2
    | (with_reducible intro u x hu; try dsimp only)
    | split
    | exact fun _ k => ⟨k.1, k.2⟩
    | exact fun _ k => k
    | exact ⟨hq.1, hq.2⟩
    | (refine ⟨⟨hq.1.1, hq.1.2⟩, ?_⟩)
    | (refine ⟨hq.1, ?_⟩)

theorem State.dropLine_canon {s : State} (a1 : ℕ) (h : Canon s) :
    Canon (State.dropLine s a1) := by
  unfold State.dropLine
  try dsimp only
  repeat' first
    | with_reducible assumption
    | with_reducible apply State.onSlice_canon
    | with_reducible apply canon_ite
    | split
    | exact fun _ k => ⟨k.1, k.2⟩
    | exact fun _ k => k
    | exact ⟨hq.1, hq.2⟩
    | exact fun _ k => ⟨k.1, k.2.1, (by dsimp only; exact Tbl.mapv_wf _ _ _ k.2.2.1), k.2.2.2⟩
    | exact fun _ k => ⟨k.1, k.2.1, k.2.2.1, (by dsimp only; exact Tbl.mapv_wf _ _ _ k.2.2.2)⟩
    | exact fun _ k => ⟨(by dsimp only; exact Tbl.mapv_wf _ _ _ k.1), k.2⟩
    | exact fun _ k => ⟨k.1, (by dsimp only; exact Tbl.mapv_wf _ _ _ k.2)⟩
    | exact ⟨hq.1, hq.2.1, hq.2.2.1, (by dsimp only; exact Tbl.set_wf _ _ _ _ hq.2.2.2.1), hq.2.2.2.2⟩
    | exact ⟨hq.1, hq.2.1, (by dsimp only; exact Tbl.set_wf _ _ _ _ hq.2.2.1), hq.2.2.2⟩
    | exact ⟨(by dsimp only; exact Tbl.mapv_wf _ _ _ hq.1), hq.2⟩
    | exact fun k => cores_mapv_canon _ (fun c k => Core.halt_canon k) k
    | exact fun k => (by dsimp only; exact Tbl.mapv_wf _ _ _ k.2.2.1)
    | exact fun k => (by dsimp only; exact Tbl.mapv_wf _ _ _ k.2.2.2.1)
    | exact fun _ k => (by dsimp only; exact Tbl.mapv_wf _ _ _ k)
    | (refine ⟨⟨hq.1.1, hq.1.2⟩, ?_⟩)
    | (refine ⟨hq.1, ?_⟩)

theorem State.storePark_canon {s : State} (a1 : ℕ) (a2 : Shadow) (h : Canon s) :
    Canon (State.storePark s a1 a2) := by
  unfold State.storePark
  try dsimp only
  repeat' first
    | with_reducible assumption
    | with_reducible apply State.stackPut_canon
    | with_reducible apply canon_ite
    | with_reducible apply canon_foldl
    | with_reducible apply canon_foldl2
    | (with_reducible intro u x hu; try dsimp only)
    | split
    | exact fun _ k => ⟨k.1, k.2⟩
    | exact fun _ k => k
    | exact ⟨hq.1, hq.2⟩
    | (refine ⟨⟨hq.1.1, hq.1.2⟩, ?_⟩)
    | (refine ⟨hq.1, ?_⟩)

theorem State.repark_canon {s : State} (a1 : ℕ) (a2 : ℕ) (a3 : GrpKey) (h : Canon s) :
    Canon (State.repark s a1 a2 a3) := by
  unfold State.repark
  try dsimp only
  repeat' first
    | with_reducible assumption
    | with_reducible apply State.storePark_canon
    | with_reducible apply canon_ite
    | split
    | exact fun _ k => ⟨k.1, k.2⟩
    | exact fun _ k => k
    | exact ⟨hq.1, hq.2⟩
    | (refine ⟨⟨hq.1.1, hq.1.2⟩, ?_⟩)
    | (refine ⟨hq.1, ?_⟩)

end Sys2Proof.Machine
end

