-- ==== Sys2Proof/Laws/Canons2.lean ====
section
/-! SUPPORT. Each operation and meaning, in dependency order (part 3 of 10), keeps the canonical form. -/

namespace Sys2Proof.Machine

theorem State.trim_canon {s : State} (a1 : ℕ) (a2 : ℕ) (a3 : ℕ) (a4 : ℕ) (h : Canon s) :
    Canon (State.trim s a1 a2 a3 a4) := by
  induction a4 generalizing s a1 a2 a3 with
  | zero =>
    unfold State.trim
    try dsimp only
    repeat' first
      | with_reducible assumption
      | with_reducible apply State.writeBack_canon
      | with_reducible apply State.dropLine_canon
      | with_reducible apply canon_ite
      | split
      | exact fun _ k => ⟨k.1, k.2⟩
      | exact fun _ k => k
      | exact ⟨hq.1, hq.2⟩
      | (refine ⟨⟨hq.1.1, hq.1.2⟩, ?_⟩)
      | (refine ⟨hq.1, ?_⟩)
  | succ k ih =>
    unfold State.trim
    try dsimp only
    repeat' first
      | with_reducible assumption
      | with_reducible apply ih
      | with_reducible apply State.writeBack_canon
      | with_reducible apply State.dropLine_canon
      | with_reducible apply canon_ite
      | split
      | exact fun _ k => ⟨k.1, k.2⟩
      | exact fun _ k => k
      | exact ⟨hq.1, hq.2⟩
      | (refine ⟨⟨hq.1.1, hq.1.2⟩, ?_⟩)
      | (refine ⟨hq.1, ?_⟩)

theorem State.shadowOp_canon {s : State} (a1 : ℕ) (a2 : GrpKey) (a3 : ShadowOp) (h : Canon s) :
    CanonO (State.shadowOp s a1 a2 a3) := by
  unfold State.shadowOp
  extract_lets a n park slot s1 s2
  split
  · exact canonO_some (State.repark_canon _ _ _ (State.onSlice_canon _ _ h))
  split
  · have k1 : Canon s1 := State.onSlice_canon _ _ h
    clear_value s1
    have k2 : Canon s2 := canon_ite (State.repark_canon _ _ _ k1) (State.trim_canon _ _ _ _ k1)
    clear_value s2
    exact canonO_some (canon_mem _ k2 fun _ k => ⟨k.1, k.2⟩)
  · exact canonO_none

theorem State.addMem_canon {s : State} (a1 : ℕ) (a2 : Bool) (a3 : List Byte) (a4 : Bool) (a5 : Option GrpKey)
    (a6 : Upset) (h : Canon s) :
    Canon (State.addMem s a1 a2 a3 a4 a5 a6) := by
  unfold State.addMem
  try dsimp only
  repeat' first
    | with_reducible assumption
    | with_reducible apply State.writeBack_canon
    | with_reducible apply State.overflowKey_canon
    | with_reducible apply State.stackAdd_canon
    | with_reducible apply State.settle_canon
    | with_reducible apply State.dropLine_canon
    | with_reducible apply State.shadowOp_canon
    | with_reducible refine CanonO.out (o := State.shadowOp _ _ _ _) ?_ (by assumption)
    | with_reducible apply canon_ite
    | with_reducible refine CanonO.out (o := ite _ _ _) ?_ (by assumption)
    | with_reducible apply canonO_some
    | split
    | exact fun _ k => ⟨k.1, k.2⟩
    | exact fun _ k => k
    | exact ⟨hq.1, hq.2⟩
    | (refine ⟨⟨hq.1.1, hq.1.2⟩, ?_⟩)
    | (refine ⟨hq.1, ?_⟩)

theorem State.allocLine_canon {s : State} (a1 : ℕ) (h : Canon s) :
    Canon (State.allocLine s a1).2 := by
  unfold State.allocLine
  try dsimp only
  repeat' first
    | with_reducible assumption
    | with_reducible apply State.trim_canon
    | with_reducible apply canon_ite
    | split
    | exact fun _ k => ⟨k.1, k.2⟩
    | exact fun _ k => k
    | exact ⟨hq.1, hq.2⟩
    | (refine ⟨⟨hq.1.1, hq.1.2⟩, ?_⟩)
    | (refine ⟨hq.1, ?_⟩)
    | dsimp only

theorem State.applyShadow_canon {s : State} (a1 : Shadow) (h : Canon s) :
    Canon (State.applyShadow s a1) := by
  unfold State.applyShadow
  try dsimp only
  repeat' first
    | with_reducible assumption
    | with_reducible apply State.redFlags_canon
    | with_reducible apply State.addMem_canon
    | with_reducible apply State.allocLine_canon
    | with_reducible refine canon_pair (x := State.allocLine _ _) ?_ (by assumption)
    | with_reducible apply State.putLine_canon
    | with_reducible apply Sequencer.write_canon
    | with_reducible apply canon_ite
    | with_reducible apply canon_foldl
    | with_reducible apply canon_foldl2
    | (with_reducible intro u x hu; try dsimp only)
    | split
    | exact fun _ k => ⟨k.1, k.2⟩
    | exact fun _ k => k
    | exact ⟨hq.1, hq.2⟩
    | (refine ⟨⟨hq.1.1, hq.1.2⟩, ?_⟩)
    | (refine ⟨hq.1, ?_⟩)

theorem State.sendBisnp_canon {s : State} (a1 : ℕ) (a2 : ℕ) (a3 : Bool) (h : Canon s) :
    Canon (State.sendBisnp s a1 a2 a3) := by
  unfold State.sendBisnp
  try dsimp only
  repeat' first
    | with_reducible assumption
    | with_reducible apply State.onSlice_canon
    | with_reducible apply canon_ite
    | split
    | with_reducible refine canon_host _ ?_ ?_
    | exact fun _ k => ⟨k.1, k.2⟩
    | exact fun _ k => k
    | exact ⟨hq.1, hq.2⟩
    | (refine ⟨⟨hq.1.1, hq.1.2⟩, ?_⟩)
    | (refine ⟨hq.1, ?_⟩)

theorem State.sliceCommit_canon {s : State} (a1 : ℕ) (a2 : GrpKey) (h : Canon s) :
    Canon (State.sliceCommit s a1 a2) := by
  unfold State.sliceCommit
  try dsimp only
  repeat' first
    | with_reducible assumption
    | with_reducible apply State.applyShadow_canon
    | with_reducible apply State.sendBisnp_canon
    | with_reducible apply State.onSlice_canon
    | with_reducible apply canon_ite
    | with_reducible apply canon_foldl
    | with_reducible apply canon_foldl2
    | (with_reducible intro u x hu; try dsimp only)
    | split
    | exact fun _ k => ⟨k.1, k.2⟩
    | exact fun _ k => k
    | exact ⟨hq.1, hq.2⟩
    | (refine ⟨⟨hq.1.1, hq.1.2⟩, ?_⟩)
    | (refine ⟨hq.1, ?_⟩)

theorem State.writeLine_canon {s : State} (a1 : ℕ) (a2 : List MB) (a3 : Option GrpKey) (h : Canon s) :
    Canon (State.writeLine s a1 a2 a3) := by
  unfold State.writeLine
  try dsimp only
  repeat' first
    | with_reducible assumption
    | with_reducible apply State.overflowKey_canon
    | with_reducible apply State.allocLine_canon
    | with_reducible refine canon_pair (x := State.allocLine _ _) ?_ (by assumption)
    | with_reducible apply State.settle_canon
    | with_reducible apply State.shadowOp_canon
    | with_reducible refine CanonO.out (o := State.shadowOp _ _ _ _) ?_ (by assumption)
    | with_reducible apply State.putLine_canon
    | with_reducible apply canon_ite
    | with_reducible refine CanonO.out (o := ite _ _ _) ?_ (by assumption)
    | with_reducible apply canonO_some
    | split
    | exact fun _ k => ⟨k.1, k.2⟩
    | exact fun _ k => k
    | exact ⟨hq.1, hq.2⟩
    | (refine ⟨⟨hq.1.1, hq.1.2⟩, ?_⟩)
    | (refine ⟨hq.1, ?_⟩)

theorem State.writeMem_canon {s : State} (a1 : ℕ) (a2 : List MB) (a3 : Option GrpKey) (h : Canon s) :
    Canon (State.writeMem s a1 a2 a3) := by
  unfold State.writeMem
  try dsimp only
  repeat' first
    | with_reducible assumption
    | with_reducible apply State.writeLine_canon
    | with_reducible apply canon_ite
    | with_reducible apply canon_foldl
    | with_reducible apply canon_foldl2
    | (with_reducible intro u x hu; try dsimp only)
    | split
    | exact fun _ k => ⟨k.1, k.2⟩
    | exact fun _ k => k
    | exact ⟨hq.1, hq.2⟩
    | (refine ⟨⟨hq.1.1, hq.1.2⟩, ?_⟩)
    | (refine ⟨hq.1, ?_⟩)

theorem State.track_canon {s : State} (a1 : ℕ) (a2 : Bool) (h : Canon s) :
    CanonO (State.track s a1 a2) := by
  unfold State.track
  try dsimp only
  repeat' first
    | with_reducible assumption
    | with_reducible apply State.onSlice_canon
    | with_reducible apply canon_ite
    | with_reducible apply canonO_bind
    | with_reducible apply canonO_foldl
    | with_reducible refine CanonO.out (o := Option.bind _ _) ?_ (by assumption)
    | with_reducible intro u hu
    | exact ⟨hu.1, hu.2⟩
    | with_reducible exact canonO_none
    | with_reducible apply canonO_some
    | split
    | exact fun _ k => ⟨k.1, k.2⟩
    | exact fun _ k => k
    | exact ⟨hq.1, hq.2⟩
    | (refine ⟨⟨hq.1.1, hq.1.2⟩, ?_⟩)
    | (refine ⟨hq.1, ?_⟩)

theorem State.lineWait_canon {s : State} (a1 : ℕ) (a2 : Option GrpKey) (a3 : XPort) (a4 : Bool) (h : Canon s) :
    CanonO (State.lineWait s a1 a2 a3 a4) := by
  unfold State.lineWait
  try dsimp only
  repeat' first
    | with_reducible assumption
    | with_reducible apply State.sendBisnp_canon
    | with_reducible apply Sequencer.write_canon
    | with_reducible apply canon_ite
    | with_reducible apply canon_foldl
    | with_reducible apply canon_foldl2
    | (with_reducible intro u x hu; try dsimp only)
    | with_reducible apply canonO_bind
    | with_reducible apply canonO_foldl
    | with_reducible refine CanonO.out (o := Option.bind _ _) ?_ (by assumption)
    | with_reducible intro u hu
    | exact ⟨hu.1, hu.2⟩
    | with_reducible exact canonO_none
    | with_reducible apply canonO_some
    | split
    | exact fun _ k => ⟨k.1, k.2⟩
    | exact fun _ k => k
    | exact ⟨hq.1, hq.2⟩
    | (refine ⟨⟨hq.1.1, hq.1.2⟩, ?_⟩)
    | (refine ⟨hq.1, ?_⟩)

theorem State.useLine_canon {s : State} (a1 : ℕ) (h : Canon s) :
    Canon (State.useLine s a1) := by
  unfold State.useLine
  try dsimp only
  repeat' first
    | with_reducible assumption
    | with_reducible apply State.putLine_canon
    | with_reducible apply canon_ite
    | split
    | exact fun _ k => ⟨k.1, k.2⟩
    | exact fun _ k => k
    | exact ⟨hq.1, hq.2⟩
    | (refine ⟨⟨hq.1.1, hq.1.2⟩, ?_⟩)
    | (refine ⟨hq.1, ?_⟩)

theorem State.countRead_canon {s : State} (a1 : ℕ) (a2 : Bool) (h : Canon s) :
    Canon (State.countRead s a1 a2) := by
  unfold State.countRead
  try dsimp only
  repeat' first
    | with_reducible assumption
    | with_reducible apply State.onSlice_canon
    | with_reducible apply canon_ite
    | split
    | exact fun _ k => ⟨k.1, k.2⟩
    | exact fun _ k => k
    | exact ⟨hq.1, hq.2⟩
    | (refine ⟨⟨hq.1.1, hq.1.2⟩, ?_⟩)
    | (refine ⟨hq.1, ?_⟩)

theorem State.corrected_canon {s : State} (a1 : ℕ) (h : Canon s) :
    Canon (State.corrected s a1) := by
  unfold State.corrected
  try dsimp only
  repeat' first
    | with_reducible assumption
    | with_reducible apply State.onStk_canon
    | with_reducible apply canon_ite
    | with_reducible apply canon_getD
    | split
    | exact fun _ k => ⟨k.1, k.2⟩
    | exact fun _ k => k
    | exact ⟨hq.1, hq.2⟩
    | (refine ⟨⟨hq.1.1, hq.1.2⟩, ?_⟩)
    | (refine ⟨hq.1, ?_⟩)

theorem State.demandRead_canon {s : State} (a1 : ℕ) (a2 : Upset) (h : Canon s) :
    Canon (State.demandRead s a1 a2).2 := by
  unfold State.demandRead
  try dsimp only
  repeat' first
    | with_reducible assumption
    | with_reducible apply State.foundBad_canon
    | with_reducible apply State.corrected_canon
    | with_reducible apply State.openRow_canon
    | with_reducible apply State.upset_canon
    | with_reducible apply canon_ite
    | split
    | exact fun _ k => ⟨k.1, k.2⟩
    | exact fun _ k => k
    | exact ⟨hq.1, hq.2⟩
    | (refine ⟨⟨hq.1.1, hq.1.2⟩, ?_⟩)
    | (refine ⟨hq.1, ?_⟩)
    | dsimp only

theorem State.fetchUnit_canon {s : State} (a1 : ℕ) (a2 : Upset) (h : Canon s) :
    Canon (State.fetchUnit s a1 a2) := by
  unfold State.fetchUnit
  try dsimp only
  repeat' first
    | with_reducible assumption
    | with_reducible apply State.demandRead_canon
    | with_reducible refine canon_pair (x := State.demandRead _ _ _) ?_ (by assumption)
    | with_reducible apply State.allocLine_canon
    | with_reducible refine canon_pair (x := State.allocLine _ _) ?_ (by assumption)
    | with_reducible apply State.putLine_canon
    | with_reducible apply canon_ite
    | with_reducible apply canon_foldl
    | with_reducible apply canon_foldl2
    | (with_reducible intro u x hu; try dsimp only)
    | split
    | exact fun _ k => ⟨k.1, k.2⟩
    | exact fun _ k => k
    | exact ⟨hq.1, hq.2⟩
    | (refine ⟨⟨hq.1.1, hq.1.2⟩, ?_⟩)
    | (refine ⟨hq.1, ?_⟩)

theorem State.readUnit_canon {s : State} (a1 : ℕ) (a2 : ℕ) (a3 : Option GrpKey) (a4 : Upset) (h : Canon s) :
    Canon (State.readUnit s a1 a2 a3 a4).2 := by
  unfold State.readUnit
  try dsimp only
  repeat' first
    | with_reducible assumption
    | with_reducible apply State.useLine_canon
    | with_reducible apply State.countRead_canon
    | with_reducible apply State.fetchUnit_canon
    | with_reducible apply canon_ite
    | split
    | exact fun _ k => ⟨k.1, k.2⟩
    | exact fun _ k => k
    | exact ⟨hq.1, hq.2⟩
    | (refine ⟨⟨hq.1.1, hq.1.2⟩, ?_⟩)
    | (refine ⟨hq.1, ?_⟩)
    | dsimp only

theorem State.readMem_canon {s : State} (a1 : ℕ) (a2 : ℕ) (a3 : Option GrpKey) (h : Canon s) :
    Canon (State.readMem s a1 a2 a3).2 := by
  unfold State.readMem
  try dsimp only
  repeat' first
    | with_reducible assumption
    | with_reducible apply State.readUnit_canon
    | with_reducible refine canon_pair (x := State.readUnit _ _ _ _ _) ?_ (by assumption)
    | with_reducible apply canon_ite
    | with_reducible apply canon_foldl
    | with_reducible apply canon_foldl2
    | (with_reducible intro u x hu; try dsimp only)
    | split
    | exact fun _ k => ⟨k.1, k.2⟩
    | exact fun _ k => k
    | exact ⟨hq.1, hq.2⟩
    | (refine ⟨⟨hq.1.1, hq.1.2⟩, ?_⟩)
    | (refine ⟨hq.1, ?_⟩)
    | dsimp only

theorem State.doHost_canon {s : State} (a1 : ℕ) (a2 : HostMem) (a3 : Bool) (h : Canon s) :
    Canon (State.doHost s a1 a2 a3) := by
  unfold State.doHost
  extract_lets n unit keep say
  have hkeep : ∀ {u}, Canon u → Canon (keep u) := fun hu => State.onSlice_canon _ _ hu
  have hsay : ∀ {u} o, Canon u → Canon (say u o) := fun o hu => canon_host _ hu fun _ k => ⟨k.1, k.2⟩
  clear_value keep say
  split
  · exact hkeep (CanonO.out (State.lineWait_canon _ _ _ _ h) (by assumption))
  · split
    · split
      · exact hkeep (State.sendBisnp_canon _ _ _ h)
      · exact hkeep h
    · rename_i u e
      have hu : Canon u := by
        split at e
        · exact CanonO.out (State.track_canon _ _ h) e
        · cases e
          exact h
      clear e
      split
      · exact hsay _ (State.readMem_canon _ _ _ hu)
      · exact hsay _ (canon_foldl _ _ hu fun v x hv => State.writeMem_canon _ _ _ hv)

theorem State.memWait_canon {s : State} (a1 : ℕ) (a2 : ℕ) (a3 : Option GrpKey) (a4 : XPort) (a5 : Bool)
    (h : Canon s) :
    CanonO (State.memWait s a1 a2 a3 a4 a5) := by
  unfold State.memWait
  try dsimp only
  repeat' first
    | with_reducible assumption
    | with_reducible apply State.lineWait_canon
    | with_reducible refine CanonO.out (o := State.lineWait _ _ _ _ _) ?_ (by assumption)
    | with_reducible apply Sequencer.write_canon
    | with_reducible apply canon_ite
    | with_reducible apply canon_foldl
    | with_reducible apply canon_foldl2
    | with_reducible apply canon_getD
    | (with_reducible intro u x hu; try dsimp only)
    | with_reducible apply canonO_bind
    | with_reducible apply canonO_foldl
    | with_reducible refine CanonO.out (o := Option.bind _ _) ?_ (by assumption)
    | with_reducible intro u hu
    | exact ⟨hu.1, hu.2⟩
    | with_reducible exact canonO_none
    | with_reducible apply canonO_some
    | split
    | exact fun _ k => ⟨k.1, k.2⟩
    | exact fun _ k => k
    | exact ⟨hq.1, hq.2⟩
    | (refine ⟨⟨hq.1.1, hq.1.2⟩, ?_⟩)
    | (refine ⟨hq.1, ?_⟩)

theorem State.deliver_canon {s : State} (a1 : XPort) (a2 : ℕ) (a3 : ℕ) (a4 : List MB) (h : Canon s) :
    Canon (State.deliver s a1 a2 a3 a4) := by
  unfold State.deliver
  try dsimp only
  repeat' first
    | with_reducible assumption
    | with_reducible apply canon_ite
    | split
    | with_reducible refine canon_mem _ ?_ ?_
    | exact fun _ k => ⟨k.1, k.2⟩
    | exact fun _ k => k
    | exact ⟨hq.1, hq.2⟩
    | (refine ⟨⟨hq.1.1, hq.1.2⟩, ?_⟩)
    | (refine ⟨hq.1, ?_⟩)

theorem State.doRead_canon {s : State} (a1 : Miss) (h : Canon s) :
    Canon (State.doRead s a1) := by
  unfold State.doRead
  try dsimp only
  repeat' first
    | with_reducible assumption
    | with_reducible apply State.memWait_canon
    | with_reducible refine CanonO.out (o := State.memWait _ _ _ _ _ _) ?_ (by assumption)
    | with_reducible apply State.countRead_canon
    | with_reducible apply State.deliver_canon
    | with_reducible apply State.readUnit_canon
    | with_reducible refine canon_pair (x := State.readUnit _ _ _ _ _) ?_ (by assumption)
    | with_reducible apply State.onSlice_canon
    | with_reducible apply Scratch.read_canon
    | with_reducible apply canon_ite
    | with_reducible refine CanonO.out (o := ite _ _ _) ?_ (by assumption)
    | with_reducible apply canonO_some
    | split
    | exact fun _ k => ⟨k.1, k.2⟩
    | exact fun _ k => k
    | exact ⟨hq.1, hq.2⟩
    | (refine ⟨⟨hq.1.1, hq.1.2⟩, ?_⟩)
    | (refine ⟨hq.1, ?_⟩)

theorem State.doWrite_canon {s : State} (a1 : XPort) (a2 : ℕ) (a3 : BitVec 256) (a4 : List Byte) (a5 : Bool)
    (a6 : Option GrpKey) (h : Canon s) :
    Canon (State.doWrite s a1 a2 a3 a4 a5 a6) := by
  unfold State.doWrite
  try dsimp only
  repeat' first
    | with_reducible assumption
    | with_reducible apply State.memWait_canon
    | with_reducible refine CanonO.out (o := State.memWait _ _ _ _ _ _) ?_ (by assumption)
    | with_reducible apply State.writeMem_canon
    | with_reducible apply State.onSlice_canon
    | with_reducible apply Sequencer.write_canon
    | with_reducible apply canon_ite
    | with_reducible apply canon_foldl
    | with_reducible apply canon_foldl2
    | (with_reducible intro u x hu; try dsimp only)
    | with_reducible refine CanonO.out (o := ite _ _ _) ?_ (by assumption)
    | with_reducible apply canonO_some
    | split
    | exact fun _ k => ⟨k.1, k.2⟩
    | exact fun _ k => k
    | exact ⟨hq.1, hq.2⟩
    | (refine ⟨⟨hq.1.1, hq.1.2⟩, ?_⟩)
    | (refine ⟨hq.1, ?_⟩)

theorem State.access_canon {s : State} (a1 : HeldReq) (h : Canon s) :
    Canon (State.access s a1) := by
  unfold State.access
  try dsimp only
  repeat' first
    | with_reducible assumption
    | with_reducible apply State.doHost_canon
    | with_reducible apply State.doRead_canon
    | with_reducible apply State.doWrite_canon
    | with_reducible apply Sequencer.write_canon
    | with_reducible apply Scratch.read_canon
    | with_reducible apply canon_ite
    | split
    | exact fun _ k => ⟨k.1, k.2⟩
    | exact fun _ k => k
    | exact ⟨hq.1, hq.2⟩
    | (refine ⟨⟨hq.1.1, hq.1.2⟩, ?_⟩)
    | (refine ⟨hq.1, ?_⟩)

theorem State.submit_canon {s : State} (a1 : HeldReq) (h : Canon s) :
    Canon (State.submit s a1) := by
  unfold State.submit
  try dsimp only
  repeat' first
    | with_reducible assumption
    | with_reducible apply State.access_canon
    | with_reducible apply canon_ite
    | split
    | with_reducible refine canon_mem _ ?_ ?_
    | exact fun _ k => ⟨k.1, k.2⟩
    | exact fun _ k => k
    | exact ⟨hq.1, hq.2⟩
    | (refine ⟨⟨hq.1.1, hq.1.2⟩, ?_⟩)
    | (refine ⟨hq.1, ?_⟩)

theorem State.pumpWaiting_canon {s : State} (h : Canon s) :
    Canon (State.pumpWaiting s) := by
  unfold State.pumpWaiting
  try dsimp only
  repeat' first
    | with_reducible assumption
    | with_reducible apply State.submit_canon
    | with_reducible apply canon_ite
    | with_reducible apply canon_foldl
    | with_reducible apply canon_foldl2
    | (with_reducible intro u x hu; try dsimp only)
    | split
    | with_reducible refine canon_mem _ ?_ ?_
    | exact fun _ k => ⟨k.1, k.2⟩
    | exact fun _ k => k
    | exact ⟨hq.1, hq.2⟩
    | (refine ⟨⟨hq.1.1, hq.1.2⟩, ?_⟩)
    | (refine ⟨hq.1, ?_⟩)

theorem State.retryHeld_canon {s : State} (a1 : ℕ) (h : Canon s) :
    Canon (State.retryHeld s a1) := by
  unfold State.retryHeld
  try dsimp only
  repeat' first
    | with_reducible assumption
    | with_reducible apply State.pumpWaiting_canon
    | with_reducible apply State.access_canon
    | with_reducible apply State.onSlice_canon
    | with_reducible apply canon_ite
    | with_reducible apply canon_foldl
    | with_reducible apply canon_foldl2
    | (with_reducible intro u x hu; try dsimp only)
    | split
    | exact fun _ k => ⟨k.1, k.2⟩
    | exact fun _ k => k
    | exact ⟨hq.1, hq.2⟩
    | (refine ⟨⟨hq.1.1, hq.1.2⟩, ?_⟩)
    | (refine ⟨hq.1, ?_⟩)

theorem State.sliceGo_canon {s : State} (a1 : ℕ) (h : Canon s) :
    Canon (State.sliceGo s a1) := by
  unfold State.sliceGo
  try dsimp only
  repeat' first
    | with_reducible assumption
    | with_reducible apply State.sliceCommit_canon
    | with_reducible apply State.retryHeld_canon
    | with_reducible apply canon_ite
    | with_reducible apply canon_foldl
    | with_reducible apply canon_foldl2
    | (with_reducible intro u x hu; try dsimp only)
    | split
    | exact fun _ k => ⟨k.1, k.2⟩
    | exact fun _ k => k
    | exact ⟨hq.1, hq.2⟩
    | (refine ⟨⟨hq.1.1, hq.1.2⟩, ?_⟩)
    | (refine ⟨hq.1, ?_⟩)

theorem State.hostReset_canon {s : State} (h : Canon s) : Canon (State.hostReset s) := by
  unfold State.hostReset
  extract_lets s1 f _ s2 s3
  have k1 : Canon s1 := State.dropAperture_canon h
  clear_value s1
  have k2 : Canon s2 := canon_mem _ k1 fun _ k => ⟨k.1, k.2.1, by dsimp only; exact Tbl.mapv_wf _ _ _ k.2.2.1, k.2.2.2⟩
  clear_value s2 f
  have k3 : Canon s3 := canon_foldl _ _ k2 fun _ _ k => State.sliceGo_canon _ k
  clear_value s3
  refine State.enterAbsent_canon (canon_host _ k3 fun _ k => ⟨?_, k.2.1, fun n => ?_⟩)
  · dsimp only
    exact Tbl.mapv_wf _ _ _ k.1
  · dsimp only
    exact pairs_mapv_canon Pair.resetBy (fun p hp => ⟨rfl, rfl⟩) k.1 k.2.2 n

theorem State.restartHost_canon {s : State} (a1 : Bool) (h : Canon s) : Canon (State.restartHost s a1) := by
  unfold State.restartHost
  extract_lets s1 scan
  have k1 : Canon s1 := canon_ite (State.hostReset_canon h) h
  have hs : ∀ p : Pair, p.Canon → (scan p).Canon := fun p k => k
  clear_value s1 scan
  exact canon_host _ k1 fun _ k =>
    ⟨by dsimp only; exact Tbl.mapv_wf _ _ _ k.1, k.2.1, fun n => by dsimp only; exact pairs_mapv_canon scan hs k.1 k.2.2 n⟩

theorem State.fresh_canon {s : State} (h : Canon s) :
    Canon (State.fresh s).2 := by
  unfold State.fresh
  try dsimp only
  repeat' first
    | with_reducible assumption
    | with_reducible apply canon_ite
    | split
    | with_reducible refine canon_free _ ?_
    | exact fun _ k => ⟨k.1, k.2⟩
    | exact fun _ k => k
    | exact ⟨hq.1, hq.2⟩
    | (refine ⟨⟨hq.1.1, hq.1.2⟩, ?_⟩)
    | (refine ⟨hq.1, ?_⟩)
    | dsimp only

theorem State.abandonUpdate_canon {s : State} (h : Canon s) :
    Canon (State.abandonUpdate s) := by
  unfold State.abandonUpdate
  try dsimp only
  repeat' first
    | with_reducible assumption
    | with_reducible apply State.fresh_canon
    | with_reducible refine canon_pair (x := State.fresh _) ?_ (by assumption)
    | with_reducible apply canon_ite
    | split
    | with_reducible refine canon_mgmt _ ?_
    | exact fun _ k => ⟨k.1, k.2⟩
    | exact fun _ k => k
    | exact ⟨hq.1, hq.2⟩
    | (refine ⟨⟨hq.1.1, hq.1.2⟩, ?_⟩)
    | (refine ⟨hq.1, ?_⟩)

theorem State.restartDomain_canon {s : State} (a1 : Bool) (a2 : ℕ) (h : Canon s) :
    Canon (State.restartDomain s a1 a2) := by
  unfold State.restartDomain
  try dsimp only
  repeat' first
    | with_reducible assumption
    | with_reducible apply State.onDom_canon
    | with_reducible apply canon_ite
    | split
    | exact fun _ k => ⟨k.1, k.2⟩
    | exact fun _ k => k
    | exact ⟨hq.1, hq.2⟩
    | (refine ⟨⟨hq.1.1, hq.1.2⟩, ?_⟩)
    | (refine ⟨hq.1, ?_⟩)

theorem State.discardAll_canon {s : State} (a1 : ℕ) (h : Canon s) : Canon (State.discardAll s a1) := by
  unfold State.discardAll
  extract_lets cold s1 s2 s3 m
  have k1 : Canon s1 := State.abandonUpdate_canon h
  clear_value s1
  have k2 : Canon s2 :=
    State.restartSecurity_canon _ (State.restartConfig_canon _ (State.restartHost_canon _ k1))
  clear_value s2
  have k3 : Canon s3 := canon_foldl _ _ k2 fun _ _ k => State.restartDomain_canon _ _ k
  clear_value s3 m
  refine canon_cores_mem_ports_fab_jobs_mgmt_pwr_clk_thm _ _ _ _ _ _ _ _ _ k3 (fun k => ?_) (fun _ k => ?_)
    (fun k => ?_) (fun _ _ => by exact ⟨rfl, rfl⟩) (fun _ _ => by exact ⟨rfl, rfl⟩) (fun _ k => k)
  · split
    · exact ⟨rfl, fun lc => (reset_canon).1.2 lc⟩
    · exact cores_mapv_canon _ (fun c k => Core.restart_canon k) k
  · unfold Mem.restart
    dsimp only
    split
    · exact ⟨rfl, rfl, rfl, by dsimp only; exact Tbl.mapv_wf _ _ _ k.2.2.2.1, rfl⟩
    · exact ⟨k.1, k.2.1, by dsimp only; exact Tbl.mapv_wf _ _ _ k.2.2.1, by dsimp only; exact Tbl.mapv_wf _ _ _ k.2.2.2.1,
        k.2.2.2.2⟩
  · exact Tbl.mapv_wf _ _ _ k.2.2.1

theorem State.putBoth_canon {s : State} (a1 : ℕ) (a2 : Word) (h : Canon s) :
    Canon (State.putBoth s a1 a2) := by
  unfold State.putBoth
  try dsimp only
  repeat' first
    | with_reducible assumption
    | with_reducible apply canon_ite
    | split
    | with_reducible refine canon_cfg _ ?_
    | exact fun _ k => ⟨k.1, k.2⟩
    | exact fun _ k => k
    | exact ⟨hq.1, hq.2⟩
    | exact fun _ k => ⟨k.1, k.2.1, (by dsimp only; exact Tbl.mapv_wf _ _ _ k.2.2.1), k.2.2.2⟩
    | exact fun _ k => ⟨k.1, k.2.1, k.2.2.1, (by dsimp only; exact Tbl.mapv_wf _ _ _ k.2.2.2)⟩
    | exact fun _ k => ⟨(by dsimp only; exact Tbl.mapv_wf _ _ _ k.1), k.2⟩
    | exact fun _ k => ⟨k.1, (by dsimp only; exact Tbl.mapv_wf _ _ _ k.2)⟩
    | exact ⟨hq.1, hq.2.1, hq.2.2.1, (by dsimp only; exact Tbl.set_wf _ _ _ _ hq.2.2.2.1), hq.2.2.2.2⟩
    | exact ⟨hq.1, hq.2.1, (by dsimp only; exact Tbl.set_wf _ _ _ _ hq.2.2.1), hq.2.2.2⟩
    | exact ⟨(by dsimp only; exact Tbl.mapv_wf _ _ _ hq.1), hq.2⟩
    | exact fun k => cores_mapv_canon _ (fun c k => Core.halt_canon k) k
    | exact fun k => (by dsimp only; exact Tbl.mapv_wf _ _ _ k.2.2.1)
    | exact fun k => (by dsimp only; exact Tbl.mapv_wf _ _ _ k.2.2.2.1)
    | exact fun _ k => (by dsimp only; exact Tbl.mapv_wf _ _ _ k)
    | (refine ⟨⟨hq.1.1, hq.1.2⟩, ?_⟩)
    | (refine ⟨hq.1, ?_⟩)

theorem State.stageOne_canon {s : State} (a1 : ℕ) (a2 : Bool) (a3 : Bool) (a4 : Boot) (h : Canon s) :
    Canon (State.stageOne s a1 a2 a3 a4) := by
  unfold State.stageOne
  try dsimp only
  repeat' first
    | with_reducible assumption
    | with_reducible apply State.putBoth_canon
    | with_reducible apply State.logErr_canon
    | with_reducible apply canon_ite
    | split
    | with_reducible refine canon_flash _ ?_
    | with_reducible refine canon_mgmt _ ?_
    | with_reducible refine canon_flash_mgmt _ _ ?_
    | exact fun _ k => ⟨k.1, k.2⟩
    | exact fun _ k => k
    | exact ⟨hq.1, hq.2⟩
    | (refine ⟨⟨hq.1.1, hq.1.2⟩, ?_⟩)
    | (refine ⟨hq.1, ?_⟩)

theorem State.failStart_canon {s : State} (a1 a2 : ℕ) (h : Canon s) : Canon (State.failStart s a1 a2) := by
  unfold State.failStart
  extract_lets s1 s2 s3 s4 s5 again
  have k2 : Canon s2 := canon_ite (State.bankedFailed_canon (State.logErr_canon _ _ _ _ _ h))
    (State.logErr_canon _ _ _ _ _ h)
  clear_value s2
  have k3 : Canon s3 := canon_foldl _ _ k2 fun _ _ k => State.onPort_canon _ _ (State.portTo_canon _ _ k)
  clear_value s3
  have k4 : Canon s4 := canon_foldl _ _ k3 fun _ _ k => State.onOptic_canon _ _ k
  clear_value s4
  have k5 : Canon s5 := canon_foldl _ _ k4 fun _ _ k => State.onDom_canon _ _ k
  clear_value s5 again
  exact canon_cores_host_flash_mgmt _ _ _ _ k5 (fun _ => ⟨rfl, fun lc => (reset_canon).1.2 lc⟩) fun _ k => ⟨k.1, k.2⟩

theorem State.recover_canon {s : State} (a1 : ℕ) (h : Canon s) :
    Canon (State.recover s a1) := by
  unfold State.recover
  try dsimp only
  repeat' first
    | with_reducible assumption
    | with_reducible apply State.failStart_canon
    | with_reducible apply canon_ite
    | split
    | with_reducible refine canon_sec_mgmt _ _ ?_
    | exact fun _ k => ⟨k.1, k.2⟩
    | exact fun _ k => k
    | exact ⟨hq.1, hq.2⟩
    | (refine ⟨⟨hq.1.1, hq.1.2⟩, ?_⟩)
    | (refine ⟨hq.1, ?_⟩)

theorem State.trainChannel_canon {s : State} (a1 : ℕ) (h : Canon s) :
    Canon (State.trainChannel s a1) := by
  unfold State.trainChannel
  try dsimp only
  repeat' first
    | with_reducible assumption
    | with_reducible apply canon_ite
    | with_reducible apply canon_foldl
    | with_reducible apply canon_foldl2
    | (with_reducible intro u x hu; try dsimp only)
    | split
    | with_reducible refine canon_flash _ ?_
    | exact fun _ k => ⟨k.1, k.2⟩
    | exact fun _ k => k
    | exact ⟨hq.1, hq.2⟩
    | exact fun _ k => ⟨k.1, k.2.1, (by dsimp only; exact Tbl.mapv_wf _ _ _ k.2.2.1), k.2.2.2⟩
    | exact fun _ k => ⟨k.1, k.2.1, k.2.2.1, (by dsimp only; exact Tbl.mapv_wf _ _ _ k.2.2.2)⟩
    | exact fun _ k => ⟨(by dsimp only; exact Tbl.mapv_wf _ _ _ k.1), k.2⟩
    | exact fun _ k => ⟨k.1, (by dsimp only; exact Tbl.mapv_wf _ _ _ k.2)⟩
    | exact ⟨hq.1, hq.2.1, hq.2.2.1, (by dsimp only; exact Tbl.set_wf _ _ _ _ hq.2.2.2.1), hq.2.2.2.2⟩
    | exact ⟨hq.1, hq.2.1, (by dsimp only; exact Tbl.set_wf _ _ _ _ hq.2.2.1), hq.2.2.2⟩
    | exact ⟨(by dsimp only; exact Tbl.mapv_wf _ _ _ hq.1), hq.2⟩
    | exact fun k => cores_mapv_canon _ (fun c k => Core.halt_canon k) k
    | exact fun k => (by dsimp only; exact Tbl.mapv_wf _ _ _ k.2.2.1)
    | exact fun k => (by dsimp only; exact Tbl.mapv_wf _ _ _ k.2.2.2.1)
    | exact fun _ k => (by dsimp only; exact Tbl.mapv_wf _ _ _ k)
    | (refine ⟨⟨hq.1.1, hq.1.2⟩, ?_⟩)
    | (refine ⟨hq.1, ?_⟩)

theorem State.repairStack_canon {s : State} (a1 : Boot) (a2 : ℕ) (h : Canon s) :
    Canon (State.repairStack s a1 a2) := by
  unfold State.repairStack
  try dsimp only
  repeat' first
    | with_reducible assumption
    | with_reducible apply State.logErr_canon
    | with_reducible apply State.onStk_canon
    | with_reducible apply canon_ite
    | with_reducible apply canon_foldl
    | with_reducible apply canon_foldl2
    | with_reducible apply canon_getD
    | (with_reducible intro u x hu; try dsimp only)
    | split
    | exact fun _ k => ⟨k.1, k.2⟩
    | exact fun _ k => k
    | exact ⟨hq.1, hq.2⟩
    | (refine ⟨⟨hq.1.1, hq.1.2⟩, ?_⟩)
    | (refine ⟨hq.1, ?_⟩)

theorem State.stageThree_canon {s : State} (a1 : ℕ) (a2 : Boot) (h : Canon s) :
    Canon (State.stageThree s a1 a2) := by
  unfold State.stageThree
  extract_lets s1 full s2 _ s3
  have k1 : Canon s1 := canon_foldl _ _ h fun _ _ k => State.repairStack_canon _ _ k
  have k2 : Canon s2 := canon_foldl _ _ k1 fun _ _ k => State.trainChannel_canon _ k
  have k3 : Canon s3 := canon_ite h (canon_flash _ k2)
  clear_value s3
  exact canon_host _ k3 fun _ k => ⟨k.1, k.2⟩

theorem State.bringUp_canon {s : State} (a1 : ℕ) (a2 : Boot) (h : Canon s) : Canon (State.bringUp s a1 a2) := by
  unfold State.bringUp
  extract_lets cold u v w
  have hw : Canon w := canon_flash _ (State.discardAll_canon _ h)
  clear_value w
  split
  · exact State.recover_canon _ hw
  · split
    · exact State.recover_canon _ hw
    · extract_lets x m1 x2 y m2 z
      have hx : Canon x := State.stageOne_canon _ _ _ _ hw
      have hx2 : Canon x2 := canon_mgmt _ hx
      have hy : Canon y := State.stageFour_canon _ _ (State.stageThree_canon _ _ hx2)
      have hz : Canon z := canon_mgmt _ hy
      clear_value z m2 y x2 m1 x
      repeat' first
        | with_reducible assumption
        | with_reducible apply State.failStart_canon
        | with_reducible apply State.reportFault_canon
        | split

theorem State.discard_canon {s : State} (h : Canon s) :
    Canon (State.discard s) := by
  unfold State.discard
  try dsimp only
  repeat' first
    | with_reducible assumption
    | with_reducible apply canon_ite
    | split
    | with_reducible refine canon_cfg _ ?_
    | exact fun _ k => ⟨k.1, k.2⟩
    | exact fun _ k => k
    | exact ⟨hq.1, hq.2⟩
    | (refine ⟨⟨hq.1.1, hq.1.2⟩, ?_⟩)
    | (refine ⟨hq.1, ?_⟩)

theorem State.placeResp_canon {s : State} (a1 : ℕ) (a2 : List Byte) (h : Canon s) :
    Canon (State.placeResp s a1 a2) := by
  unfold State.placeResp
  try dsimp only
  repeat' first
    | with_reducible assumption
    | with_reducible apply State.hold_canon
    | with_reducible apply State.onPair_canon
    | with_reducible apply canon_ite
    | split
    | exact fun k => k
    | exact fun k => Pair.putMsg_canon _ k
    | exact fun k => Pair.write_canon _ _ k
    | exact fun _ k => ⟨k.1, k.2⟩
    | exact fun _ k => k
    | exact ⟨hq.1, hq.2⟩
    | (refine ⟨⟨hq.1.1, hq.1.2⟩, ?_⟩)
    | (refine ⟨hq.1, ?_⟩)

theorem State.answerLate_canon {s : State} (a1 : ℕ) (a2 : ℕ) (a3 : Byte) (a4 : ℕ) (a5 : ℕ) (a6 : ℕ)
    (a7 : List Byte) (h : Canon s) :
    Canon (State.answerLate s a1 a2 a3 a4 a5 a6 a7) := by
  unfold State.answerLate
  try dsimp only
  repeat' first
    | with_reducible assumption
    | with_reducible apply State.placeResp_canon
    | with_reducible apply canon_ite
    | split
    | exact fun _ k => ⟨k.1, k.2⟩
    | exact fun _ k => k
    | exact ⟨hq.1, hq.2⟩
    | (refine ⟨⟨hq.1.1, hq.1.2⟩, ?_⟩)
    | (refine ⟨hq.1, ?_⟩)

theorem State.endApply_canon {s : State} (a1 : Apply) (h : Canon s) :
    Canon (State.endApply s a1) := by
  unfold State.endApply
  try dsimp only
  repeat' first
    | with_reducible assumption
    | with_reducible apply State.discard_canon
    | with_reducible apply State.answerLate_canon
    | with_reducible apply canon_ite
    | split
    | with_reducible refine canon_cfg _ ?_
    | exact fun _ k => ⟨k.1, k.2⟩
    | exact fun _ k => k
    | exact ⟨hq.1, hq.2⟩
    | (refine ⟨⟨hq.1.1, hq.1.2⟩, ?_⟩)
    | (refine ⟨hq.1, ?_⟩)

theorem State.takeGo_canon {s : State} (a1 : BitVec 64) (h : Canon s) :
    Canon (State.takeGo s a1).2 := by
  unfold State.takeGo
  try dsimp only
  repeat' first
    | with_reducible assumption
    | with_reducible apply State.adoptReg_canon
    | with_reducible apply canon_ite
    | split
    | with_reducible refine canon_cfg _ ?_
    | exact fun _ k => ⟨k.1, k.2⟩
    | exact fun _ k => k
    | exact ⟨hq.1, hq.2⟩
    | (refine ⟨⟨hq.1.1, hq.1.2⟩, ?_⟩)
    | (refine ⟨hq.1, ?_⟩)
    | dsimp only

theorem State.regulate_canon {s : State} (a1 : ℕ) (h : Canon s) :
    Canon (State.regulate s a1) := by
  unfold State.regulate
  try dsimp only
  repeat' first
    | with_reducible assumption
    | with_reducible apply State.onDom_canon
    | with_reducible apply canon_ite
    | with_reducible apply canon_getD
    | split
    | exact fun _ k => ⟨k.1, k.2⟩
    | exact fun _ k => k
    | exact ⟨hq.1, hq.2⟩
    | (refine ⟨⟨hq.1.1, hq.1.2⟩, ?_⟩)
    | (refine ⟨hq.1, ?_⟩)

theorem State.switchStep_canon {s : State} (a1 : ℕ) (h : Canon s) :
    Canon (State.switchStep s a1) := by
  unfold State.switchStep
  try dsimp only
  repeat' first
    | with_reducible assumption
    | with_reducible apply State.onDom_canon
    | with_reducible apply State.regulate_canon
    | with_reducible apply canon_ite
    | split
    | exact fun _ k => ⟨k.1, k.2⟩
    | exact fun _ k => k
    | exact ⟨hq.1, hq.2⟩
    | (refine ⟨⟨hq.1.1, hq.1.2⟩, ?_⟩)
    | (refine ⟨hq.1, ?_⟩)

theorem State.requestStep_canon {s : State} (a1 : ℕ) (a2 : ℕ) (h : Canon s) :
    Canon (State.requestStep s a1 a2) := by
  unfold State.requestStep
  try dsimp only
  repeat' first
    | with_reducible assumption
    | with_reducible apply State.onDom_canon
    | with_reducible apply State.regulate_canon
    | with_reducible apply State.switchStep_canon
    | with_reducible apply canon_ite
    | split
    | exact fun _ k => ⟨k.1, k.2⟩
    | exact fun _ k => k
    | exact ⟨hq.1, hq.2⟩
    | (refine ⟨⟨hq.1.1, hq.1.2⟩, ?_⟩)
    | (refine ⟨hq.1, ?_⟩)

theorem State.enablePort_canon {s : State} (a1 : ℕ) (h : Canon s) :
    Canon (State.enablePort s a1) := by
  unfold State.enablePort
  try dsimp only
  repeat' first
    | with_reducible assumption
    | with_reducible apply State.onOptic_canon
    | with_reducible apply State.train_canon
    | with_reducible apply State.onPort_canon
    | with_reducible apply State.portTo_canon
    | with_reducible apply canon_ite
    | split
    | exact fun _ k => ⟨k.1, k.2⟩
    | exact fun _ k => k
    | exact ⟨hq.1, hq.2⟩
    | (refine ⟨⟨hq.1.1, hq.1.2⟩, ?_⟩)
    | (refine ⟨hq.1, ?_⟩)

theorem State.applied!_canon {s : State} (a1 : ℕ) (h : Canon s) :
    Canon (State.applied! s a1) := by
  unfold State.applied!
  try dsimp only
  repeat' first
    | with_reducible assumption
    | with_reducible apply State.requestStep_canon
    | with_reducible apply State.enablePort_canon
    | with_reducible apply State.onPort_canon
    | with_reducible apply canon_ite
    | split
    | exact fun _ k => ⟨k.1, k.2⟩
    | exact fun _ k => k
    | exact ⟨hq.1, hq.2⟩
    | (refine ⟨⟨hq.1.1, hq.1.2⟩, ?_⟩)
    | (refine ⟨hq.1, ?_⟩)

theorem State.holdEngines_canon {s : State} (a1 : ℕ) (a2 : Bool) (h : Canon s) :
    Canon (State.holdEngines s a1 a2) := by
  unfold State.holdEngines
  try dsimp only
  repeat' first
    | with_reducible assumption
    | with_reducible apply State.onSeq_canon
    | with_reducible apply canon_ite
    | (with_reducible intro q hq; try dsimp only)
    | split
    | exact fun _ k => ⟨k.1, k.2⟩
    | exact fun _ k => k
    | exact ⟨hq.1, hq.2⟩
    | exact fun _ k => ⟨k.1, k.2.1, (by dsimp only; exact Tbl.mapv_wf _ _ _ k.2.2.1), k.2.2.2⟩
    | exact fun _ k => ⟨k.1, k.2.1, k.2.2.1, (by dsimp only; exact Tbl.mapv_wf _ _ _ k.2.2.2)⟩
    | exact fun _ k => ⟨(by dsimp only; exact Tbl.mapv_wf _ _ _ k.1), k.2⟩
    | exact fun _ k => ⟨k.1, (by dsimp only; exact Tbl.mapv_wf _ _ _ k.2)⟩
    | exact ⟨hq.1, hq.2.1, hq.2.2.1, (by dsimp only; exact Tbl.set_wf _ _ _ _ hq.2.2.2.1), hq.2.2.2.2⟩
    | exact ⟨hq.1, hq.2.1, (by dsimp only; exact Tbl.set_wf _ _ _ _ hq.2.2.1), hq.2.2.2⟩
    | exact ⟨(by dsimp only; exact Tbl.mapv_wf _ _ _ hq.1), hq.2⟩
    | exact fun k => cores_mapv_canon _ (fun c k => Core.halt_canon k) k
    | exact fun k => (by dsimp only; exact Tbl.mapv_wf _ _ _ k.2.2.1)
    | exact fun k => (by dsimp only; exact Tbl.mapv_wf _ _ _ k.2.2.2.1)
    | exact fun _ k => (by dsimp only; exact Tbl.mapv_wf _ _ _ k)
    | (refine ⟨⟨hq.1.1, hq.1.2⟩, ?_⟩)
    | (refine ⟨hq.1, ?_⟩)

theorem State.adoptOne_canon {s : State} (a1 : ℕ) (h : Canon s) :
    Canon (State.adoptOne s a1) := by
  unfold State.adoptOne
  try dsimp only
  repeat' first
    | with_reducible assumption
    | with_reducible apply State.requestStep_canon
    | with_reducible apply State.onScp_canon
    | with_reducible apply Scratch.request_canon
    | with_reducible apply canon_ite
    | (with_reducible intro q hq; try dsimp only)
    | split
    | with_reducible refine canon_cfg _ ?_
    | exact fun _ k => ⟨k.1, k.2⟩
    | exact fun _ k => k
    | exact ⟨hq.1, hq.2⟩
    | exact fun _ k => ⟨k.1, k.2.1, (by dsimp only; exact Tbl.mapv_wf _ _ _ k.2.2.1), k.2.2.2⟩
    | exact fun _ k => ⟨k.1, k.2.1, k.2.2.1, (by dsimp only; exact Tbl.mapv_wf _ _ _ k.2.2.2)⟩
    | exact fun _ k => ⟨(by dsimp only; exact Tbl.mapv_wf _ _ _ k.1), k.2⟩
    | exact fun _ k => ⟨k.1, (by dsimp only; exact Tbl.mapv_wf _ _ _ k.2)⟩
    | exact ⟨hq.1, hq.2.1, hq.2.2.1, (by dsimp only; exact Tbl.set_wf _ _ _ _ hq.2.2.2.1), hq.2.2.2.2⟩
    | exact ⟨hq.1, hq.2.1, (by dsimp only; exact Tbl.set_wf _ _ _ _ hq.2.2.1), hq.2.2.2⟩
    | exact ⟨(by dsimp only; exact Tbl.mapv_wf _ _ _ hq.1), hq.2⟩
    | exact fun k => cores_mapv_canon _ (fun c k => Core.halt_canon k) k
    | exact fun k => (by dsimp only; exact Tbl.mapv_wf _ _ _ k.2.2.1)
    | exact fun k => (by dsimp only; exact Tbl.mapv_wf _ _ _ k.2.2.2.1)
    | exact fun _ k => (by dsimp only; exact Tbl.mapv_wf _ _ _ k)
    | (refine ⟨⟨hq.1.1, hq.1.2⟩, ?_⟩)
    | (refine ⟨hq.1, ?_⟩)

theorem State.adoptAll_canon {s : State} (h : Canon s) :
    Canon (State.adoptAll s) := by
  unfold State.adoptAll
  try dsimp only
  repeat' first
    | with_reducible assumption
    | with_reducible apply State.adoptOne_canon
    | with_reducible apply State.holdEngines_canon
    | with_reducible apply canon_ite
    | with_reducible apply canon_foldl
    | with_reducible apply canon_foldl2
    | (with_reducible intro u x hu; try dsimp only)
    | split
    | exact fun _ k => ⟨k.1, k.2⟩
    | exact fun _ k => k
    | exact ⟨hq.1, hq.2⟩
    | (refine ⟨⟨hq.1.1, hq.1.2⟩, ?_⟩)
    | (refine ⟨hq.1, ?_⟩)

theorem State.hkSend_canon {s : State} (a1 : ℕ) (a2 : BitVec 48) (a3 : Option Ip) (a4 : Sent) (a5 : ℕ) (h : Canon s) :
    Canon (State.hkSend s a1 a2 a3 a4 a5) := by
  unfold State.hkSend
  try dsimp only
  repeat' first
    | with_reducible assumption
    | with_reducible apply State.onPort_canon
    | with_reducible apply canon_ite
    | split
    | exact fun _ k => ⟨k.1, k.2⟩
    | exact fun _ k => k
    | exact ⟨hq.1, hq.2⟩
    | (refine ⟨⟨hq.1.1, hq.1.2⟩, ?_⟩)
    | (refine ⟨hq.1, ?_⟩)

theorem State.sendNa_canon {s : State} (a1 : ℕ) (a2 : BitVec 128) (a3 : Bool) (a4 : BitVec 128) (a5 : BitVec 48)
    (h : Canon s) :
    Canon (State.sendNa s a1 a2 a3 a4 a5) := by
  unfold State.sendNa
  try dsimp only
  repeat' first
    | with_reducible assumption
    | with_reducible apply State.hkSend_canon
    | with_reducible apply canon_ite
    | split
    | exact fun _ k => ⟨k.1, k.2⟩
    | exact fun _ k => k
    | exact ⟨hq.1, hq.2⟩
    | (refine ⟨⟨hq.1.1, hq.1.2⟩, ?_⟩)
    | (refine ⟨hq.1, ?_⟩)

theorem State.announce_canon {s : State} (a1 : ℕ) (h : Canon s) :
    Canon (State.announce s a1) := by
  unfold State.announce
  try dsimp only
  repeat' first
    | with_reducible assumption
    | with_reducible apply State.hkSend_canon
    | with_reducible apply State.sendNa_canon
    | with_reducible apply canon_ite
    | split
    | exact fun _ k => ⟨k.1, k.2⟩
    | exact fun _ k => k
    | exact ⟨hq.1, hq.2⟩
    | (refine ⟨⟨hq.1.1, hq.1.2⟩, ?_⟩)
    | (refine ⟨hq.1, ?_⟩)

theorem State.announceChanged_canon {s : State} (a1 : List (ℕ × Word)) (h : Canon s) :
    Canon (State.announceChanged s a1) := by
  unfold State.announceChanged
  try dsimp only
  repeat' first
    | with_reducible assumption
    | with_reducible apply State.announce_canon
    | with_reducible apply canon_ite
    | with_reducible apply canon_foldl
    | with_reducible apply canon_foldl2
    | (with_reducible intro u x hu; try dsimp only)
    | split
    | exact fun _ k => ⟨k.1, k.2⟩
    | exact fun _ k => k
    | exact ⟨hq.1, hq.2⟩
    | (refine ⟨⟨hq.1.1, hq.1.2⟩, ?_⟩)
    | (refine ⟨hq.1, ?_⟩)

theorem State.commitApply_canon {s : State} (a1 : BitVec 64) (a2 : Word) (a3 : Byte) (h : Canon s) :
    Canon (State.commitApply s a1 a2 a3) := by
  unfold State.commitApply
  try dsimp only
  repeat' first
    | with_reducible assumption
    | with_reducible apply State.electSlave_canon
    | with_reducible apply State.takeGo_canon
    | with_reducible refine canon_pair (x := State.takeGo _ _) ?_ (by assumption)
    | with_reducible apply State.applied!_canon
    | with_reducible apply State.adoptReg_canon
    | with_reducible apply State.holdEngines_canon
    | with_reducible apply State.adoptAll_canon
    | with_reducible apply State.announceChanged_canon
    | with_reducible apply canon_ite
    | with_reducible apply canon_foldl
    | with_reducible apply canon_foldl2
    | (with_reducible intro u x hu; try dsimp only)
    | split
    | with_reducible refine canon_cfg _ ?_
    | exact fun _ k => ⟨k.1, k.2⟩
    | exact fun _ k => k
    | exact ⟨hq.1, hq.2⟩
    | exact fun _ k => ⟨k.1, k.2.1, (by dsimp only; exact Tbl.mapv_wf _ _ _ k.2.2.1), k.2.2.2⟩
    | exact fun _ k => ⟨k.1, k.2.1, k.2.2.1, (by dsimp only; exact Tbl.mapv_wf _ _ _ k.2.2.2)⟩
    | exact fun _ k => ⟨(by dsimp only; exact Tbl.mapv_wf _ _ _ k.1), k.2⟩
    | exact fun _ k => ⟨k.1, (by dsimp only; exact Tbl.mapv_wf _ _ _ k.2)⟩
    | exact ⟨hq.1, hq.2.1, hq.2.2.1, (by dsimp only; exact Tbl.set_wf _ _ _ _ hq.2.2.2.1), hq.2.2.2.2⟩
    | exact ⟨hq.1, hq.2.1, (by dsimp only; exact Tbl.set_wf _ _ _ _ hq.2.2.1), hq.2.2.2⟩
    | exact ⟨(by dsimp only; exact Tbl.mapv_wf _ _ _ hq.1), hq.2⟩
    | exact fun k => cores_mapv_canon _ (fun c k => Core.halt_canon k) k
    | exact fun k => (by dsimp only; exact Tbl.mapv_wf _ _ _ k.2.2.1)
    | exact fun k => (by dsimp only; exact Tbl.mapv_wf _ _ _ k.2.2.2.1)
    | exact fun _ k => (by dsimp only; exact Tbl.mapv_wf _ _ _ k)
    | (refine ⟨⟨hq.1.1, hq.1.2⟩, ?_⟩)
    | (refine ⟨hq.1, ?_⟩)

theorem State.runApply_canon {s : State} (a1 : BitVec 64) (a2 : Word) (a3 : Byte) (h : Canon s) :
    Canon (State.runApply s a1 a2 a3) := by
  unfold State.runApply
  try dsimp only
  repeat' first
    | with_reducible assumption
    | with_reducible apply State.commitApply_canon
    | with_reducible apply State.answerLate_canon
    | with_reducible apply canon_ite
    | split
    | with_reducible refine canon_cfg _ ?_
    | exact fun _ k => ⟨k.1, k.2⟩
    | exact fun _ k => k
    | exact ⟨hq.1, hq.2⟩
    | (refine ⟨⟨hq.1.1, hq.1.2⟩, ?_⟩)
    | (refine ⟨hq.1, ?_⟩)

theorem State.serveApplies_canon {s : State} (a0 : ℕ) (h : Canon s) :
    Canon (State.serveApplies a0 s) := by
  induction a0 generalizing s with
  | zero =>
    unfold State.serveApplies
    try dsimp only
    repeat' first
      | with_reducible assumption
      | with_reducible apply State.endApply_canon
      | with_reducible apply State.runApply_canon
      | with_reducible apply canon_ite
      | split
      | with_reducible refine canon_cfg _ ?_
      | exact fun _ k => ⟨k.1, k.2⟩
      | exact fun _ k => k
      | exact ⟨hq.1, hq.2⟩
      | (refine ⟨⟨hq.1.1, hq.1.2⟩, ?_⟩)
      | (refine ⟨hq.1, ?_⟩)
  | succ k ih =>
    unfold State.serveApplies
    try dsimp only
    repeat' first
      | with_reducible assumption
      | with_reducible apply ih
      | with_reducible apply State.endApply_canon
      | with_reducible apply State.runApply_canon
      | with_reducible apply canon_ite
      | split
      | with_reducible refine canon_cfg _ ?_
      | exact fun _ k => ⟨k.1, k.2⟩
      | exact fun _ k => k
      | exact ⟨hq.1, hq.2⟩
      | (refine ⟨⟨hq.1.1, hq.1.2⟩, ?_⟩)
      | (refine ⟨hq.1, ?_⟩)

theorem State.serve_canon {s : State} (h : Canon s) :
    Canon (State.serve s) := by
  unfold State.serve
  try dsimp only
  repeat' first
    | with_reducible assumption
    | with_reducible apply State.serveApplies_canon
    | with_reducible apply canon_ite
    | split
    | exact fun _ k => ⟨k.1, k.2⟩
    | exact fun _ k => k
    | exact ⟨hq.1, hq.2⟩
    | (refine ⟨⟨hq.1.1, hq.1.2⟩, ?_⟩)
    | (refine ⟨hq.1, ?_⟩)

theorem State.beginStart_canon {s : State} (a1 : ℕ) (a2 : Boot) (h : Canon s) :
    Canon (State.beginStart s a1 a2) := by
  unfold State.beginStart
  try dsimp only
  repeat' first
    | with_reducible assumption
    | with_reducible apply State.bringUp_canon
    | with_reducible apply State.serve_canon
    | with_reducible apply canon_ite
    | split
    | with_reducible refine canon_mgmt _ ?_
    | exact fun _ k => ⟨k.1, k.2⟩
    | exact fun _ k => k
    | exact ⟨hq.1, hq.2⟩
    | (refine ⟨⟨hq.1.1, hq.1.2⟩, ?_⟩)
    | (refine ⟨hq.1, ?_⟩)

theorem State.beginBanked_canon {s : State} (a1 : Boot) (h : Canon s) :
    Canon (State.beginBanked s a1) := by
  unfold State.beginBanked
  try dsimp only
  repeat' first
    | with_reducible assumption
    | with_reducible apply State.beginStart_canon
    | with_reducible apply canon_ite
    | split
    | exact fun _ k => ⟨k.1, k.2⟩
    | exact fun _ k => k
    | exact ⟨hq.1, hq.2⟩
    | (refine ⟨⟨hq.1.1, hq.1.2⟩, ?_⟩)
    | (refine ⟨hq.1, ?_⟩)

theorem State.saveTemper_canon {s : State} (h : Canon s) :
    Canon (State.saveTemper s) := by
  unfold State.saveTemper
  try dsimp only
  repeat' first
    | with_reducible assumption
    | with_reducible apply canon_ite
    | with_reducible apply canon_foldl
    | with_reducible apply canon_foldl2
    | (with_reducible intro u x hu; try dsimp only)
    | split
    | with_reducible refine canon_flash _ ?_
    | exact fun _ k => ⟨k.1, k.2⟩
    | exact fun _ k => k
    | exact ⟨hq.1, hq.2⟩
    | exact fun _ k => ⟨k.1, k.2.1, (by dsimp only; exact Tbl.mapv_wf _ _ _ k.2.2.1), k.2.2.2⟩
    | exact fun _ k => ⟨k.1, k.2.1, k.2.2.1, (by dsimp only; exact Tbl.mapv_wf _ _ _ k.2.2.2)⟩
    | exact fun _ k => ⟨(by dsimp only; exact Tbl.mapv_wf _ _ _ k.1), k.2⟩
    | exact fun _ k => ⟨k.1, (by dsimp only; exact Tbl.mapv_wf _ _ _ k.2)⟩
    | exact ⟨hq.1, hq.2.1, hq.2.2.1, (by dsimp only; exact Tbl.set_wf _ _ _ _ hq.2.2.2.1), hq.2.2.2.2⟩
    | exact ⟨hq.1, hq.2.1, (by dsimp only; exact Tbl.set_wf _ _ _ _ hq.2.2.1), hq.2.2.2⟩
    | exact ⟨(by dsimp only; exact Tbl.mapv_wf _ _ _ hq.1), hq.2⟩
    | exact fun k => cores_mapv_canon _ (fun c k => Core.halt_canon k) k
    | exact fun k => (by dsimp only; exact Tbl.mapv_wf _ _ _ k.2.2.1)
    | exact fun k => (by dsimp only; exact Tbl.mapv_wf _ _ _ k.2.2.2.1)
    | exact fun _ k => (by dsimp only; exact Tbl.mapv_wf _ _ _ k)
    | (refine ⟨⟨hq.1.1, hq.1.2⟩, ?_⟩)
    | (refine ⟨hq.1, ?_⟩)

theorem execCfgStart_canon {s : State} (a0 : Boot) (a1 : ℕ) (h : Canon s) :
    CanonR (execCfgStart a0 a1 s) := by
  unfold execCfgStart
  try dsimp only
  repeat' first
    | with_reducible assumption
    | with_reducible apply State.beginBanked_canon
    | with_reducible apply State.beginStart_canon
    | with_reducible apply State.at_canon
    | with_reducible apply State.saveTemper_canon
    | with_reducible apply canon_ite
    | with_reducible apply canonR_ite
    | with_reducible apply canonR_next
    | split
    | exact fun _ k => ⟨k.1, k.2⟩
    | exact fun _ k => k
    | exact ⟨hq.1, hq.2⟩
    | (refine ⟨⟨hq.1.1, hq.1.2⟩, ?_⟩)
    | (refine ⟨hq.1, ?_⟩)

end Sys2Proof.Machine
end

