-- ==== Sys2Proof/Laws/Canons3.lean ====
section
/-! SUPPORT. Each operation and meaning, in dependency order (part 4 of 10), keeps the canonical form. -/

namespace Sys2Proof.Machine

theorem State.failStream_canon {s : State} (a1 : ℕ) (a2 : Eng) (a3 : ℕ) (h : Canon s) :
    Canon (State.failStream s a1 a2 a3) := by
  unfold State.failStream
  try dsimp only
  repeat' first
    | with_reducible assumption
    | with_reducible apply State.failAt_canon
    | with_reducible apply canon_ite
    | split
    | exact fun _ k => ⟨k.1, k.2⟩
    | exact fun _ k => k
    | exact ⟨hq.1, hq.2⟩
    | (refine ⟨⟨hq.1.1, hq.1.2⟩, ?_⟩)
    | (refine ⟨hq.1, ?_⟩)

theorem State.hitStop_canon {s : State} (a1 : ℕ) (a2 : Eng) (h : Canon s) :
    Canon (State.hitStop s a1 a2) := by
  unfold State.hitStop
  try dsimp only
  repeat' first
    | with_reducible assumption
    | with_reducible apply State.noteStop_canon
    | with_reducible apply State.onSeq_canon
    | with_reducible apply Sequencer.onEng_canon
    | with_reducible apply Sequencer.stopTask_canon
    | with_reducible apply canon_ite
    | (with_reducible intro q hq; try dsimp only)
    | split
    | exact fun _ k => ⟨k.1, k.2⟩
    | exact fun _ k => k
    | exact ⟨hq.1, hq.2⟩
    | (refine ⟨⟨hq.1.1, hq.1.2⟩, ?_⟩)
    | (refine ⟨hq.1, ?_⟩)

theorem State.afterRetire_canon {s : State} (a1 : ℕ) (a2 : Eng) (a3 : Bool) (h : Canon s) :
    Canon (State.afterRetire s a1 a2 a3) := by
  unfold State.afterRetire
  try dsimp only
  repeat' first
    | with_reducible assumption
    | with_reducible apply State.failStream_canon
    | with_reducible apply State.hitStop_canon
    | with_reducible apply Sequencer.failStream_canon
    | with_reducible apply canon_ite
    | split
    | exact fun _ k => ⟨k.1, k.2⟩
    | exact fun _ k => k
    | exact ⟨hq.1, hq.2⟩
    | (refine ⟨⟨hq.1.1, hq.1.2⟩, ?_⟩)
    | (refine ⟨hq.1, ?_⟩)

theorem State.leaveFront_canon {s : State} (a1 : Ctx) (a2 : List Loop) (h : Canon s) :
    Canon (State.leaveFront s a1 a2) := by
  unfold State.leaveFront
  try dsimp only
  repeat' first
    | with_reducible assumption
    | with_reducible apply State.onEng_canon
    | with_reducible apply Sequencer.onEng_canon
    | with_reducible apply canon_ite
    | split
    | exact fun _ k => ⟨k.1, k.2⟩
    | exact fun _ k => k
    | exact ⟨hq.1, hq.2⟩
    | (refine ⟨⟨hq.1.1, hq.1.2⟩, ?_⟩)
    | (refine ⟨hq.1, ?_⟩)

theorem State.retireFront_canon {s : State} (a1 : Ctx) (a2 : List Loop) (a3 : Bool) (h : Canon s) :
    Canon (State.retireFront s a1 a2 a3) := by
  unfold State.retireFront
  try dsimp only
  repeat' first
    | with_reducible assumption
    | with_reducible apply State.afterRetire_canon
    | with_reducible apply State.leaveFront_canon
    | with_reducible apply canon_ite
    | split
    | exact fun _ k => ⟨k.1, k.2⟩
    | exact fun _ k => k
    | exact ⟨hq.1, hq.2⟩
    | (refine ⟨⟨hq.1.1, hq.1.2⟩, ?_⟩)
    | (refine ⟨hq.1, ?_⟩)

theorem admit_canon {s : State} (r : Row) (op lc : Nat) (e : Eng) (h : Canon s)
    (hh : ∀ s c, Canon s → CanonP (r.hold s c)) : CanonA (admission r op s lc e) := by
  unfold admission
  extract_lets co g
  clear_value co g
  repeat' first
    | with_reducible exact canonA_off
    | with_reducible exact canonA_empty
    | with_reducible exact canonA_stopCount
    | with_reducible exact canonA_fail _
    | with_reducible exact canonA_go _
    | with_reducible exact canonA_stall _ h
    | with_reducible exact canonA_stall _ (CanonP.out (hh _ _ h) (by assumption))
    | with_reducible apply canonA_ite
    | split
    | extract_lets w x
    | extract_lets w

theorem State.stallNow_canon {s : State} (a1 : ℕ) (a2 : Eng) (a3 : ℕ) (h : Canon s) :
    Canon (State.stallNow s a1 a2 a3) := by
  unfold State.stallNow
  try dsimp only
  repeat' first
    | with_reducible assumption
    | with_reducible apply State.onSeq_canon
    | with_reducible apply Sequencer.onEng_canon
    | with_reducible apply Sequencer.stall_canon
    | with_reducible apply canon_ite
    | (with_reducible intro q hq; try dsimp only)
    | split
    | exact fun _ k => ⟨k.1, k.2⟩
    | exact fun _ k => k
    | exact ⟨hq.1, hq.2⟩
    | (refine ⟨⟨hq.1.1, hq.1.2⟩, ?_⟩)
    | (refine ⟨hq.1, ?_⟩)

theorem State.idleStall_canon {s : State} (a1 : ℕ) (a2 : Eng) (h : Canon s) :
    Canon (State.idleStall s a1 a2) := by
  unfold State.idleStall
  try dsimp only
  repeat' first
    | with_reducible assumption
    | with_reducible apply State.onSeq_canon
    | with_reducible apply Sequencer.stall_canon
    | with_reducible apply canon_ite
    | (with_reducible intro q hq; try dsimp only)
    | split
    | exact fun _ k => ⟨k.1, k.2⟩
    | exact fun _ k => k
    | exact ⟨hq.1, hq.2⟩
    | (refine ⟨⟨hq.1.1, hq.1.2⟩, ?_⟩)
    | (refine ⟨hq.1, ?_⟩)

theorem runCmd_canon {s : State} (r : Row) (op : Nat) (eff : Ctx → State → State) (lc : Nat) (e : Eng) (h : Canon s)
    (hh : ∀ s c, Canon s → CanonP (r.hold s c)) (he : ∀ c s, Canon s → Canon (eff c s)) :
    CanonR (runCmd r op eff lc e s) := by
  unfold runCmd
  have hn : ∀ c, Canon (if r.setsUp = true then s.noteRefused c else s) := fun c =>
    canon_ite (State.noteRefused_canon c h) h
  repeat' first
    | with_reducible assumption
    | with_reducible apply canonR_next
    | with_reducible exact he _ _ h
    | with_reducible exact hn _
    | with_reducible apply State.idleStall_canon
    | with_reducible apply canon_ite
    | with_reducible apply State.hitStop_canon
    | with_reducible apply State.failStream_canon
    | with_reducible apply State.stallNow_canon
    | with_reducible refine CanonA.out (admit_canon r op lc e h hh) (by assumption)
    | split

theorem execWinClose_canon {s : State} (a0 : Fin 64) (h : Canon s) :
    CanonR (execWinClose a0 s) := by
  unfold execWinClose
  try dsimp only
  repeat' first
    | with_reducible assumption
    | with_reducible apply State.retireFront_canon
    | with_reducible apply runCmd_canon
    | with_reducible apply State.onSeq_canon
    | with_reducible apply Sequencer.closeWindow_canon
    | with_reducible apply canon_ite
    | (with_reducible intro u x hu; try dsimp only)
    | (with_reducible intro q hq; try dsimp only)
    | with_reducible apply canonR_ite
    | with_reducible apply canonR_next
    | split
    | with_reducible exact canonP_none
    | with_reducible apply canonP_some
    | with_reducible intro u x hu
    | (with_reducible intro x u hu; try dsimp only)
    | exact fun _ k => ⟨k.1, k.2⟩
    | exact fun _ k => k
    | exact ⟨hq.1, hq.2⟩
    | (refine ⟨⟨hq.1.1, hq.1.2⟩, ?_⟩)
    | (refine ⟨hq.1, ?_⟩)
    | (unfold winCloseRow; try dsimp only)

theorem State.fetchBytes_canon {s : State} (a1 : Bool) (a2 : ℕ) (a3 : ℕ) (h : Canon s) :
    Canon (State.fetchBytes s a1 a2 a3).2.2 := by
  unfold State.fetchBytes
  try dsimp only
  repeat' first
    | with_reducible assumption
    | with_reducible apply State.readMem_canon
    | with_reducible refine canon_pair (x := State.readMem _ _ _ _) ?_ (by assumption)
    | with_reducible apply canon_ite
    | split
    | exact fun _ k => ⟨k.1, k.2⟩
    | exact fun _ k => k
    | exact ⟨hq.1, hq.2⟩
    | (refine ⟨⟨hq.1.1, hq.1.2⟩, ?_⟩)
    | (refine ⟨hq.1, ?_⟩)
    | dsimp only

theorem State.unlockData_canon {s : State} (a1 : Bool) (h : Canon s) :
    CanonQ (State.unlockData s a1) := by
  unfold State.unlockData
  try dsimp only
  repeat' first
    | with_reducible assumption
    | with_reducible apply State.fetchBytes_canon
    | with_reducible refine canon_trip (x := State.fetchBytes _ _ _ _) ?_ (by assumption)
    | with_reducible apply canon_ite
    | with_reducible exact canonQ_none
    | with_reducible apply canonQ_some
    | split
    | exact fun _ k => ⟨k.1, k.2⟩
    | exact fun _ k => k
    | exact ⟨hq.1, hq.2⟩
    | (refine ⟨⟨hq.1.1, hq.1.2⟩, ?_⟩)
    | (refine ⟨hq.1, ?_⟩)

theorem execLossOfSignal_canon {s : State} (a0 : Fin 96) (a1 : BitVec 4) (h : Canon s) :
    CanonR (execLossOfSignal a0 a1 s) := by
  unfold execLossOfSignal
  try dsimp only
  repeat' first
    | with_reducible assumption
    | with_reducible apply State.train_canon
    | with_reducible apply State.signal_canon
    | with_reducible apply State.portTo_canon
    | with_reducible apply State.onPort_canon
    | with_reducible apply canon_ite
    | with_reducible apply canonR_ite
    | with_reducible apply canonR_next
    | split
    | exact fun _ k => ⟨k.1, k.2⟩
    | exact fun _ k => k
    | exact ⟨hq.1, hq.2⟩
    | (refine ⟨⟨hq.1.1, hq.1.2⟩, ?_⟩)
    | (refine ⟨hq.1, ?_⟩)

theorem State.preemptJob_canon {s : State} (a1 : ℕ) (h : Canon s) : Canon (State.preemptJob s a1) := by
  unfold State.preemptJob
  extract_lets f s1
  have hf : ∀ lc co e q, q.Canon → (f lc co e q).Canon := fun lc co e q k => by
    show Sequencer.Canon (if _ then _ else _)
    split
    · exact k
    · exact Sequencer.onEng_canon _ _ k
  clear_value f
  have k1 : Canon s1 := canon_foldl _ _ h fun u x hu => canon_ite (State.onSeq_canon _ _ hu fun q hq => by
    have k := foldl_keeps (P := Sequencer.Canon) (fun q e => f x (u.core x) e q)
      [Eng.f, .g0, .g1, .v, .q, .d0, .d1, .d2, .d3, .s] hq fun q e k => hf _ _ e q k
    exact ⟨k.1, k.2⟩) hu
  exact State.onJob_canon _ _ k1

theorem State.preemptFor_canon {s : State} (a1 : ℕ) (h : Canon s) :
    Canon (State.preemptFor s a1) := by
  unfold State.preemptFor
  try dsimp only
  repeat' first
    | with_reducible assumption
    | with_reducible apply State.preemptJob_canon
    | with_reducible apply canon_ite
    | with_reducible apply canon_foldl
    | with_reducible apply canon_foldl2
    | (with_reducible intro u x hu; try dsimp only)
    | split
    | exact fun _ k => ⟨k.1, k.2⟩
    | exact fun _ k => k
    | exact ⟨hq.1, hq.2⟩
    | (refine ⟨⟨hq.1.1, hq.1.2⟩, ?_⟩)
    | (refine ⟨hq.1, ?_⟩)

theorem Core.canon_ite {p : Prop} [Decidable p] {a b : Core} (h : a.Canon) (k : b.Canon) :
    (if p then a else b).Canon := by
  split <;> assumption

theorem fetchOne_canon {c : Core} (e : Eng) (h : c.Canon) : (fetchOne c e).Canon := by
  unfold fetchOne
  have hr : ∀ (c : Core) g p, c.Canon → (readCommand c g p).2.2.Canon := fun c g p k => Scratch.read_canon _ k.2
  extract_lets g pos stop put loops
  have h1 := hr c g pos h
  generalize readCommand c g pos = w at h1 ⊢
  obtain ⟨w, bad, scp⟩ := w
  dsimp only
  have hp : ∀ c f l n b, Core.Canon c → (put c f l n b).Canon := fun c f l n b k =>
    ⟨Sequencer.onEng_canon _ _ k.1, k.2⟩
  have hc : Core.Canon { c with scp := scp } := ⟨h.1, h1⟩
  have h2 := hr { c with scp := scp } g (pos + 8 * (fld w 128 16 + 1)) hc
  generalize readCommand { c with scp := scp } g (pos + 8 * (fld w 128 16 + 1)) = v at h2 ⊢
  obtain ⟨ew, ebad, sc⟩ := v
  have hd : Core.Canon { c with scp := sc } := ⟨h.1, h2⟩
  clear_value put loops
  dsimp only at hc hd ⊢
  repeat' first
    | with_reducible exact hp _ _ _ _ _ hc
    | with_reducible exact hp _ _ _ _ _ hd
    | with_reducible apply Core.canon_ite
    | split

theorem State.fetchLine_canon {s : State} (a1 : Nat) (a2 : Eng) (h : Canon s) : Canon (s.fetchLine a1 a2) := by
  unfold State.fetchLine
  refine canon_ite h ?_
  extract_lets co g a rs idle c2 g2 second
  have hi : ∀ c s, Canon s → Canon (idle c s) := fun c s k =>
    canon_ite (State.onSeq_canon _ _ k fun _ q => Sequencer.stall_canon _ _ q) k
  have hco : co.Canon := h.1.2 _
  clear_value idle co
  refine canon_ite (hi _ _ h) ?_
  split
  · refine State.setCore_canon _ _ h ?_
    split
    · exact fetchOne_canon _ (fetchOne_canon _ hco)
    · exact fetchOne_canon _ hco
  · exact hi _ _ (State.onScp_canon _ _ h fun _ k => Scratch.wake_canon _ k)

theorem State.portStore_canon {s : State} (a1 : ℕ) (a2 : PortWrite) (h : Canon s) :
    CanonL (State.portStore s a1 a2) := by
  unfold State.portStore
  try dsimp only
  repeat' first
    | with_reducible assumption
    | with_reducible apply State.noteStop_canon
    | with_reducible apply State.onSeq_canon
    | with_reducible apply State.onScp_canon
    | with_reducible apply Sequencer.failFabric_canon
    | with_reducible apply Scratch.writeRun_canon
    | with_reducible apply canon_ite
    | (with_reducible intro q hq; try dsimp only)
    | with_reducible exact canonL_full
    | with_reducible apply canonL_queued
    | with_reducible apply canonL_code
    | with_reducible apply canonL_done
    | split
    | exact fun _ k => ⟨k.1, k.2⟩
    | exact fun _ k => k
    | exact ⟨hq.1, hq.2⟩
    | (refine ⟨⟨hq.1.1, hq.1.2⟩, ?_⟩)
    | (refine ⟨hq.1, ?_⟩)

theorem State.sendTouch_canon {s : State} (a1 : ℕ) (a2 : Xfer) (h : Canon s) :
    Canon (State.sendTouch s a1 a2) := by
  unfold State.sendTouch
  try dsimp only
  repeat' first
    | with_reducible assumption
    | with_reducible apply State.sendCtl_canon
    | with_reducible apply State.settleLoc_canon
    | with_reducible apply State.onFlow_canon
    | with_reducible apply canon_ite
    | split
    | with_reducible refine canon_fab _ ?_ ?_
    | exact fun _ k => ⟨k.1, k.2⟩
    | exact fun _ k => k
    | exact ⟨hq.1, hq.2⟩
    | (refine ⟨⟨hq.1.1, hq.1.2⟩, ?_⟩)
    | (refine ⟨hq.1, ?_⟩)

theorem State.releaseBegun_canon {s : State} (a1 : ℕ) (a2 : Begun) (h : Canon s) :
    Canon (State.releaseBegun s a1 a2) := by
  unfold State.releaseBegun
  try dsimp only
  repeat' first
    | with_reducible assumption
    | with_reducible apply State.releaseEntry_canon
    | with_reducible apply canon_ite
    | with_reducible apply canon_foldl
    | with_reducible apply canon_foldl2
    | (with_reducible intro u x hu; try dsimp only)
    | split
    | exact fun _ k => ⟨k.1, k.2⟩
    | exact fun _ k => k
    | exact ⟨hq.1, hq.2⟩
    | (refine ⟨⟨hq.1.1, hq.1.2⟩, ?_⟩)
    | (refine ⟨hq.1, ?_⟩)

theorem State.retireBegun_canon {s : State} (a1 : ℕ) (a2 : Eng) (a3 : ℕ) (a4 : Bool) (h : Canon s) :
    Canon (State.retireBegun s a1 a2 a3 a4) := by
  unfold State.retireBegun
  try dsimp only
  repeat' first
    | with_reducible assumption
    | with_reducible apply State.afterRetire_canon
    | with_reducible apply State.onEng_canon
    | with_reducible apply State.failBegun_canon
    | with_reducible apply State.releaseBegun_canon
    | with_reducible apply Sequencer.onEng_canon
    | with_reducible apply canon_ite
    | split
    | exact fun _ k => ⟨k.1, k.2⟩
    | exact fun _ k => k
    | exact ⟨hq.1, hq.2⟩
    | (refine ⟨⟨hq.1.1, hq.1.2⟩, ?_⟩)
    | (refine ⟨hq.1, ?_⟩)

theorem State.endChain_canon {s : State} (a1 : ℕ) (a2 : Begun) (h : Canon s) :
    Canon (State.endChain s a1 a2) := by
  unfold State.endChain
  try dsimp only
  repeat' first
    | with_reducible assumption
    | with_reducible apply State.pushOuts_canon
    | with_reducible apply State.retireBegun_canon
    | with_reducible apply canon_ite
    | split
    | exact fun _ k => ⟨k.1, k.2⟩
    | exact fun _ k => k
    | exact ⟨hq.1, hq.2⟩
    | (refine ⟨⟨hq.1.1, hq.1.2⟩, ?_⟩)
    | (refine ⟨hq.1, ?_⟩)

theorem State.confirmChain_canon {s : State} (a1 : ℕ) (h : Canon s) :
    Canon (State.confirmChain s a1) := by
  unfold State.confirmChain
  try dsimp only
  repeat' first
    | with_reducible assumption
    | with_reducible apply State.sendTouch_canon
    | with_reducible apply State.endChain_canon
    | with_reducible apply State.onBegun_canon
    | with_reducible apply canon_ite
    | split
    | exact fun _ k => ⟨k.1, k.2⟩
    | exact fun _ k => k
    | exact ⟨hq.1, hq.2⟩
    | (refine ⟨⟨hq.1.1, hq.1.2⟩, ?_⟩)
    | (refine ⟨hq.1, ?_⟩)

theorem State.placeEntry_canon {s : State} (a1 : ℕ) (a2 : WinHdr) (a3 : Option (BitVec 20)) (h : Canon s) :
    Canon (State.placeEntry s a1 a2 a3) := by
  unfold State.placeEntry
  try dsimp only
  repeat' first
    | with_reducible assumption
    | with_reducible apply State.onSeq_canon
    | with_reducible apply Sequencer.onQueue_canon
    | with_reducible apply canon_ite
    | (with_reducible intro q hq; try dsimp only)
    | split
    | exact fun _ k => ⟨k.1, k.2⟩
    | exact fun _ k => k
    | exact ⟨hq.1, hq.2⟩
    | (refine ⟨⟨hq.1.1, hq.1.2⟩, ?_⟩)
    | (refine ⟨hq.1, ?_⟩)

theorem State.ownPlaced_canon {s : State} (a1 : ℕ) (a2 : WinHdr) (a3 : ℕ) (a4 : Option (BitVec 12)) (a5 : Option
    (BitVec 24)) (h : Canon s) :
    Canon (State.ownPlaced s a1 a2 a3 a4 a5) := by
  unfold State.ownPlaced
  try dsimp only
  repeat' first
    | with_reducible assumption
    | with_reducible apply State.settleLoc_canon
    | with_reducible apply State.placeEntry_canon
    | with_reducible apply canon_ite
    | split
    | with_reducible refine canon_fab _ ?_ ?_
    | exact fun _ k => ⟨k.1, k.2⟩
    | exact fun _ k => k
    | exact ⟨hq.1, hq.2⟩
    | (refine ⟨⟨hq.1.1, hq.1.2⟩, ?_⟩)
    | (refine ⟨hq.1, ?_⟩)

theorem State.endXfer_canon {s : State} (a1 : ℕ) (a2 : Eng) (h : Canon s) :
    Canon (State.endXfer s a1 a2) := by
  unfold State.endXfer
  try dsimp only
  repeat' first
    | with_reducible assumption
    | with_reducible apply State.pushOuts_canon
    | with_reducible apply State.retireBegun_canon
    | with_reducible apply canon_ite
    | split
    | exact fun _ k => ⟨k.1, k.2⟩
    | exact fun _ k => k
    | exact ⟨hq.1, hq.2⟩
    | (refine ⟨⟨hq.1.1, hq.1.2⟩, ?_⟩)
    | (refine ⟨hq.1, ?_⟩)

theorem State.portOwn_canon {s : State} (a1 : ℕ) (a2 : ℕ) (a3 : ℕ) (a4 : WinHdr) (a5 : ℕ) (a6 : Option
    (BitVec 12)) (a7 : Option (BitVec 24)) (a8 : BitVec 8) (h : Canon s) :
    Canon (State.portOwn s a1 a2 a3 a4 a5 a6 a7 a8) := by
  unfold State.portOwn
  try dsimp only
  repeat' first
    | with_reducible assumption
    | with_reducible apply State.confirmChain_canon
    | with_reducible apply State.ownPlaced_canon
    | with_reducible apply State.endXfer_canon
    | with_reducible apply State.failXfer_canon
    | with_reducible apply State.onBegun_canon
    | with_reducible apply canon_ite
    | split
    | exact fun _ k => ⟨k.1, k.2⟩
    | exact fun _ k => k
    | exact ⟨hq.1, hq.2⟩
    | (refine ⟨⟨hq.1.1, hq.1.2⟩, ?_⟩)
    | (refine ⟨hq.1, ?_⟩)

theorem State.noteXfer_canon {s : State} (a1 : PktHdr) (a2 : WinHdr) (a3 : ℕ) (h : Canon s) :
    Canon (State.noteXfer s a1 a2 a3) := by
  unfold State.noteXfer
  try dsimp only
  repeat' first
    | with_reducible assumption
    | with_reducible apply State.onFlow_canon
    | with_reducible apply Sequencer.start_canon
    | with_reducible apply canon_ite
    | split
    | exact fun _ k => ⟨k.1, k.2⟩
    | exact fun _ k => k
    | exact ⟨hq.1, hq.2⟩
    | (refine ⟨⟨hq.1.1, hq.1.2⟩, ?_⟩)
    | (refine ⟨hq.1, ?_⟩)

theorem State.spoilXfer_canon {s : State} (a1 : ℕ) (a2 : WinHdr) (h : Canon s) :
    Canon (State.spoilXfer s a1 a2) := by
  unfold State.spoilXfer
  try dsimp only
  repeat' first
    | with_reducible assumption
    | with_reducible apply State.onFlow_canon
    | with_reducible apply canon_ite
    | split
    | exact fun _ k => ⟨k.1, k.2⟩
    | exact fun _ k => k
    | exact ⟨hq.1, hq.2⟩
    | (refine ⟨⟨hq.1.1, hq.1.2⟩, ?_⟩)
    | (refine ⟨hq.1, ?_⟩)

theorem State.portPacket_canon {s : State} (a1 : ℕ) (a2 : PktHdr) (a3 : WinHdr) (a4 : ℕ) (a5 : BitVec 8)
    (h : Canon s) :
    Canon (State.portPacket s a1 a2 a3 a4 a5) := by
  unfold State.portPacket
  try dsimp only
  repeat' first
    | with_reducible assumption
    | with_reducible apply State.noteXfer_canon
    | with_reducible apply State.spoilXfer_canon
    | with_reducible apply State.afterArrival_canon
    | with_reducible apply State.recordArrival_canon
    | with_reducible apply State.placeEntry_canon
    | with_reducible apply canon_ite
    | split
    | exact fun _ k => ⟨k.1, k.2⟩
    | exact fun _ k => k
    | exact ⟨hq.1, hq.2⟩
    | (refine ⟨⟨hq.1.1, hq.1.2⟩, ?_⟩)
    | (refine ⟨hq.1, ?_⟩)

theorem State.portDone_canon {s : State} (a1 : ℕ) (a2 : PortWrite) (a3 : BitVec 8) (h : Canon s) :
    Canon (State.portDone s a1 a2 a3) := by
  unfold State.portDone
  try dsimp only
  repeat' first
    | with_reducible assumption
    | with_reducible apply State.portOwn_canon
    | with_reducible apply State.portPacket_canon
    | with_reducible apply canon_ite
    | split
    | exact fun _ k => ⟨k.1, k.2⟩
    | exact fun _ k => k
    | exact ⟨hq.1, hq.2⟩
    | (refine ⟨⟨hq.1.1, hq.1.2⟩, ?_⟩)
    | (refine ⟨hq.1, ?_⟩)

theorem State.portTry_canon {s : State} (a1 : ℕ) (a2 : PortWrite) (h : Canon s) :
    Canon (State.portTry s a1 a2) := by
  unfold State.portTry
  try dsimp only
  repeat' first
    | with_reducible assumption
    | with_reducible apply State.portStore_canon
    | with_reducible refine CanonL.queuedOut (v := State.portStore _ _ _) ?_ (by assumption)
    | with_reducible refine CanonL.codeOut (v := State.portStore _ _ _) ?_ (by assumption)
    | with_reducible refine CanonL.doneOut (v := State.portStore _ _ _) ?_ (by assumption)
    | with_reducible apply State.onScp_canon
    | with_reducible apply State.portDone_canon
    | with_reducible apply canon_ite
    | (with_reducible intro q hq; try dsimp only)
    | split
    | exact fun _ k => ⟨k.1, k.2⟩
    | exact fun _ k => k
    | exact ⟨hq.1, hq.2⟩
    | (refine ⟨⟨hq.1.1, hq.1.2⟩, ?_⟩)
    | (refine ⟨hq.1, ?_⟩)

theorem State.pumpPort_canon {s : State} (a1 : ℕ) (h : Canon s) :
    Canon (State.pumpPort s a1) := by
  unfold State.pumpPort
  try dsimp only
  repeat' first
    | with_reducible assumption
    | with_reducible apply State.portTry_canon
    | with_reducible apply canon_ite
    | with_reducible apply canon_foldl
    | with_reducible apply canon_foldl2
    | (with_reducible intro u x hu; try dsimp only)
    | split
    | exact fun _ k => ⟨k.1, k.2⟩
    | exact fun _ k => k
    | exact ⟨hq.1, hq.2⟩
    | (refine ⟨⟨hq.1.1, hq.1.2⟩, ?_⟩)
    | (refine ⟨hq.1, ?_⟩)

theorem State.bankHit_canon {s : State} (a1 : ℕ) (a2 : BankHit) (h : Canon s) :
    Canon (State.bankHit s a1 a2) := by
  unfold State.bankHit
  try dsimp only
  repeat' first
    | with_reducible assumption
    | with_reducible apply State.onScp_canon
    | with_reducible apply Scratch.strike_canon
    | with_reducible apply canon_ite
    | (with_reducible intro q hq; try dsimp only)
    | split
    | exact fun _ k => ⟨k.1, k.2⟩
    | exact fun _ k => k
    | exact ⟨hq.1, hq.2⟩
    | (refine ⟨⟨hq.1.1, hq.1.2⟩, ?_⟩)
    | (refine ⟨hq.1, ?_⟩)

theorem execCommandFetch_canon {s : State} (a0 : Fin 64) (a1 : Eng) (a2 : Option BankHit) (h : Canon s) :
    CanonR (execCommandFetch a0 a1 a2 s) := by
  unfold execCommandFetch
  try dsimp only
  repeat' first
    | with_reducible assumption
    | with_reducible apply State.fetchLine_canon
    | with_reducible apply State.pumpPort_canon
    | with_reducible apply State.bankHit_canon
    | with_reducible apply canon_ite
    | with_reducible apply canonR_ite
    | with_reducible apply canonR_next
    | split
    | exact fun _ k => ⟨k.1, k.2⟩
    | exact fun _ k => k
    | exact ⟨hq.1, hq.2⟩
    | (refine ⟨⟨hq.1.1, hq.1.2⟩, ?_⟩)
    | (refine ⟨hq.1, ?_⟩)

theorem State.haltPair_canon {s : State} (a1 : ℕ) (a2 : ℕ) (h : Canon s) :
    Canon (State.haltPair s a1 a2) := by
  unfold State.haltPair
  try dsimp only
  repeat' first
    | with_reducible assumption
    | with_reducible apply State.placeMsg_canon
    | with_reducible apply State.onPair_canon
    | with_reducible apply canon_ite
    | split
    | exact fun k => k
    | exact fun k => Pair.putMsg_canon _ k
    | exact fun k => Pair.write_canon _ _ k
    | exact fun _ k => ⟨k.1, k.2⟩
    | exact fun _ k => k
    | exact ⟨hq.1, hq.2⟩
    | (refine ⟨⟨hq.1.1, hq.1.2⟩, ?_⟩)
    | (refine ⟨hq.1, ?_⟩)

theorem State.scanPair_canon {s : State} (a0 : ℕ) (a1 : ℕ) (h : Canon s) :
    Canon (State.scanPair a0 a1 s) := by
  induction a1 generalizing a0 s with
  | zero =>
    unfold State.scanPair
    try dsimp only
    repeat' first
      | with_reducible assumption
      | with_reducible apply State.onPair_canon
      | with_reducible apply State.placeResp_canon
      | with_reducible apply State.haltPair_canon
      | with_reducible apply canon_ite
      | split
      | exact fun k => k
      | exact fun k => Pair.putMsg_canon _ k
      | exact fun k => Pair.write_canon _ _ k
      | exact fun _ k => ⟨k.1, k.2⟩
      | exact fun _ k => k
      | exact ⟨hq.1, hq.2⟩
      | (refine ⟨⟨hq.1.1, hq.1.2⟩, ?_⟩)
      | (refine ⟨hq.1, ?_⟩)
  | succ k ih =>
    unfold State.scanPair
    try dsimp only
    repeat' first
      | with_reducible assumption
      | with_reducible apply ih
      | with_reducible apply State.onPair_canon
      | with_reducible apply State.placeResp_canon
      | with_reducible apply State.haltPair_canon
      | with_reducible apply canon_ite
      | split
      | exact fun k => k
      | exact fun k => Pair.putMsg_canon _ k
      | exact fun k => Pair.write_canon _ _ k
      | exact fun _ k => ⟨k.1, k.2⟩
      | exact fun _ k => k
      | exact ⟨hq.1, hq.2⟩
      | (refine ⟨⟨hq.1.1, hq.1.2⟩, ?_⟩)
      | (refine ⟨hq.1, ?_⟩)

theorem execMbxScan_canon {s : State} (a0 : ℕ) (h : Canon s) :
    CanonR (execMbxScan a0 s) := by
  unfold execMbxScan
  try dsimp only
  repeat' first
    | with_reducible assumption
    | with_reducible apply State.vectorOf_canon
    | with_reducible apply State.at_canon
    | with_reducible apply State.scanPair_canon
    | with_reducible apply canon_ite
    | with_reducible apply canon_foldl
    | with_reducible apply canon_foldl2
    | (with_reducible intro u x hu; try dsimp only)
    | with_reducible apply canonR_ite
    | with_reducible apply canonR_next
    | split
    | exact fun _ k => ⟨k.1, k.2⟩
    | exact fun _ k => k
    | exact ⟨hq.1, hq.2⟩
    | (refine ⟨⟨hq.1.1, hq.1.2⟩, ?_⟩)
    | (refine ⟨hq.1, ?_⟩)

theorem execNeighbourSolicitation_canon {s : State} (a0 : Fin 96) (a1 : BitVec 128) (a2 : BitVec 128)
    (a3 : BitVec 48) (h : Canon s) :
    CanonR (execNeighbourSolicitation a0 a1 a2 a3 s) := by
  unfold execNeighbourSolicitation
  try dsimp only
  repeat' first
    | with_reducible assumption
    | with_reducible apply State.sendNa_canon
    | with_reducible apply canon_ite
    | with_reducible apply canonR_ite
    | with_reducible apply canonR_next
    | split
    | exact fun _ k => ⟨k.1, k.2⟩
    | exact fun _ k => k
    | exact ⟨hq.1, hq.2⟩
    | (refine ⟨⟨hq.1.1, hq.1.2⟩, ?_⟩)
    | (refine ⟨hq.1, ?_⟩)

theorem State.noSpare_canon {s : State} (a1 : ℕ) (h : Canon s) :
    Canon (State.noSpare s a1) := by
  unfold State.noSpare
  try dsimp only
  repeat' first
    | with_reducible assumption
    | with_reducible apply State.portTo_canon
    | with_reducible apply State.onPort_canon
    | with_reducible apply canon_ite
    | split
    | exact fun _ k => ⟨k.1, k.2⟩
    | exact fun _ k => k
    | exact ⟨hq.1, hq.2⟩
    | (refine ⟨⟨hq.1.1, hq.1.2⟩, ?_⟩)
    | (refine ⟨hq.1, ?_⟩)

theorem State.saveRecord_canon {s : State} (a1 : ℕ) (h : Canon s) :
    Canon (State.saveRecord s a1) := by
  unfold State.saveRecord
  try dsimp only
  repeat' first
    | with_reducible assumption
    | with_reducible apply State.onOptic_canon
    | with_reducible apply canon_ite
    | split
    | exact fun _ k => ⟨k.1, k.2⟩
    | exact fun _ k => k
    | exact ⟨hq.1, hq.2⟩
    | exact fun _ k => ⟨k.1, k.2.1, (by dsimp only; exact Tbl.mapv_wf _ _ _ k.2.2.1), k.2.2.2⟩
    | exact fun _ k => ⟨k.1, k.2.1, k.2.2.1, (by dsimp only; exact Tbl.mapv_wf _ _ _ k.2.2.2)⟩
    | exact fun _ k => ⟨(by dsimp only; exact Tbl.mapv_wf _ _ _ k.1), k.2⟩
    | exact fun _ k => ⟨k.1, (by dsimp only; exact Tbl.mapv_wf _ _ _ k.2)⟩
    | exact ⟨hq.1, hq.2.1, hq.2.2.1, (by dsimp only; exact Tbl.set_wf _ _ _ _ hq.2.2.2.1), hq.2.2.2.2⟩
    | exact ⟨hq.1, hq.2.1, (by dsimp only; exact Tbl.set_wf _ _ _ _ hq.2.2.1), hq.2.2.2⟩
    | exact ⟨(by dsimp only; exact Tbl.mapv_wf _ _ _ hq.1), hq.2⟩
    | exact fun k => cores_mapv_canon _ (fun c k => Core.halt_canon k) k
    | exact fun k => (by dsimp only; exact Tbl.mapv_wf _ _ _ k.2.2.1)
    | exact fun k => (by dsimp only; exact Tbl.mapv_wf _ _ _ k.2.2.2.1)
    | exact fun _ k => (by dsimp only; exact Tbl.mapv_wf _ _ _ k)
    | (refine ⟨⟨hq.1.1, hq.1.2⟩, ?_⟩)
    | (refine ⟨hq.1, ?_⟩)

theorem State.recordSubst_canon {s : State} (a1 : ℕ) (h : Canon s) :
    Canon (State.recordSubst s a1) := by
  unfold State.recordSubst
  try dsimp only
  repeat' first
    | with_reducible assumption
    | with_reducible apply State.onOptic_canon
    | with_reducible apply State.fieldFail_canon
    | with_reducible apply State.onPort_canon
    | with_reducible apply canon_ite
    | split
    | exact fun _ k => ⟨k.1, k.2⟩
    | exact fun _ k => k
    | exact ⟨hq.1, hq.2⟩
    | (refine ⟨⟨hq.1.1, hq.1.2⟩, ?_⟩)
    | (refine ⟨hq.1, ?_⟩)

theorem State.sendLldp_canon {s : State} (a1 : ℕ) (h : Canon s) :
    Canon (State.sendLldp s a1) := by
  unfold State.sendLldp
  try dsimp only
  repeat' first
    | with_reducible assumption
    | with_reducible apply State.hkSend_canon
    | with_reducible apply State.onPort_canon
    | with_reducible apply canon_ite
    | split
    | exact fun _ k => ⟨k.1, k.2⟩
    | exact fun _ k => k
    | exact ⟨hq.1, hq.2⟩
    | (refine ⟨⟨hq.1.1, hq.1.2⟩, ?_⟩)
    | (refine ⟨hq.1, ?_⟩)

theorem State.rise_canon {s : State} (a1 : ℕ) (h : Canon s) :
    Canon (State.rise s a1) := by
  unfold State.rise
  try dsimp only
  repeat' first
    | with_reducible assumption
    | with_reducible apply State.announce_canon
    | with_reducible apply State.goOutAll_canon
    | with_reducible apply State.saveRecord_canon
    | with_reducible apply State.recordSubst_canon
    | with_reducible apply State.sendLldp_canon
    | with_reducible apply State.onPort_canon
    | with_reducible apply State.portTo_canon
    | with_reducible apply canon_ite
    | with_reducible apply canon_getD
    | split
    | exact fun _ k => ⟨k.1, k.2⟩
    | exact fun _ k => k
    | exact ⟨hq.1, hq.2⟩
    | (refine ⟨⟨hq.1.1, hq.1.2⟩, ?_⟩)
    | (refine ⟨hq.1, ?_⟩)

theorem State.dropSaved_canon {s : State} (a1 : ℕ) (h : Canon s) :
    Canon (State.dropSaved s a1) := by
  unfold State.dropSaved
  try dsimp only
  repeat' first
    | with_reducible assumption
    | with_reducible apply State.onOptic_canon
    | with_reducible apply State.onPort_canon
    | with_reducible apply canon_ite
    | split
    | exact fun _ k => ⟨k.1, k.2⟩
    | exact fun _ k => k
    | exact ⟨hq.1, hq.2⟩
    | exact fun _ k => ⟨k.1, k.2.1, (by dsimp only; exact Tbl.mapv_wf _ _ _ k.2.2.1), k.2.2.2⟩
    | exact fun _ k => ⟨k.1, k.2.1, k.2.2.1, (by dsimp only; exact Tbl.mapv_wf _ _ _ k.2.2.2)⟩
    | exact fun _ k => ⟨(by dsimp only; exact Tbl.mapv_wf _ _ _ k.1), k.2⟩
    | exact fun _ k => ⟨k.1, (by dsimp only; exact Tbl.mapv_wf _ _ _ k.2)⟩
    | exact ⟨hq.1, hq.2.1, hq.2.2.1, (by dsimp only; exact Tbl.set_wf _ _ _ _ hq.2.2.2.1), hq.2.2.2.2⟩
    | exact ⟨hq.1, hq.2.1, (by dsimp only; exact Tbl.set_wf _ _ _ _ hq.2.2.1), hq.2.2.2⟩
    | exact ⟨(by dsimp only; exact Tbl.mapv_wf _ _ _ hq.1), hq.2⟩
    | exact fun k => cores_mapv_canon _ (fun c k => Core.halt_canon k) k
    | exact fun k => (by dsimp only; exact Tbl.mapv_wf _ _ _ k.2.2.1)
    | exact fun k => (by dsimp only; exact Tbl.mapv_wf _ _ _ k.2.2.2.1)
    | exact fun _ k => (by dsimp only; exact Tbl.mapv_wf _ _ _ k)
    | (refine ⟨⟨hq.1.1, hq.1.2⟩, ?_⟩)
    | (refine ⟨hq.1, ?_⟩)

theorem State.substitute_canon {s : State} (a1 : ℕ) (a2 : ℕ) (h : Canon s) :
    Canon (State.substitute s a1 a2) := by
  unfold State.substitute
  try dsimp only
  repeat' first
    | with_reducible assumption
    | with_reducible apply State.noSpare_canon
    | with_reducible apply State.onOptic_canon
    | with_reducible apply State.train_canon
    | with_reducible apply State.onPort_canon
    | with_reducible apply State.portTo_canon
    | with_reducible apply canon_ite
    | split
    | exact fun _ k => ⟨k.1, k.2⟩
    | exact fun _ k => k
    | exact ⟨hq.1, hq.2⟩
    | (refine ⟨⟨hq.1.1, hq.1.2⟩, ?_⟩)
    | (refine ⟨hq.1, ?_⟩)

theorem execPortRetrain_canon {s : State} (a0 : Fin 96) (a1 : Bool) (h : Canon s) :
    CanonR (execPortRetrain a0 a1 s) := by
  unfold execPortRetrain
  try dsimp only
  repeat' first
    | with_reducible assumption
    | with_reducible apply State.noSpare_canon
    | with_reducible apply State.rise_canon
    | with_reducible apply State.dropSaved_canon
    | with_reducible apply State.substitute_canon
    | with_reducible apply State.onPort_canon
    | with_reducible apply canon_ite
    | with_reducible apply canonR_ite
    | with_reducible apply canonR_next
    | split
    | exact fun _ k => ⟨k.1, k.2⟩
    | exact fun _ k => k
    | exact ⟨hq.1, hq.2⟩
    | (refine ⟨⟨hq.1.1, hq.1.2⟩, ?_⟩)
    | (refine ⟨hq.1, ?_⟩)

theorem State.landBytes_canon {s : State} (a1 : ℕ) (a2 : Begun) (a3 : ℕ) (a4 : List MB) (h : Canon s) :
    CanonD (State.landBytes s a1 a2 a3 a4) := by
  unfold State.landBytes
  try dsimp only
  repeat' first
    | with_reducible assumption
    | with_reducible apply State.onScp_canon
    | with_reducible apply Scratch.wake_canon
    | with_reducible apply Scratch.writeRun_canon
    | with_reducible apply canon_ite
    | (with_reducible intro q hq; try dsimp only)
    | with_reducible apply canonD_wait
    | with_reducible exact canonD_code
    | with_reducible apply canonD_done
    | split
    | exact ⟨(Scratch.wake_canon _ hq).1, (Scratch.wake_canon _ hq).2⟩
    | exact fun _ k => ⟨k.1, k.2⟩
    | exact fun _ k => k
    | exact ⟨hq.1, hq.2⟩
    | (refine ⟨⟨hq.1.1, hq.1.2⟩, ?_⟩)
    | (refine ⟨hq.1, ?_⟩)

theorem State.failChain_canon {s : State} (a1 : ℕ) (a2 : Begun) (a3 : ℕ) (h : Canon s) :
    Canon (State.failChain s a1 a2 a3) := by
  unfold State.failChain
  try dsimp only
  repeat' first
    | with_reducible assumption
    | with_reducible apply State.dropCommand_canon
    | with_reducible apply State.countReplay_canon
    | with_reducible apply State.secondFailure_canon
    | with_reducible apply State.onBegun_canon
    | with_reducible apply State.strikeChain_canon
    | with_reducible apply canon_ite
    | split
    | exact fun _ k => ⟨k.1, k.2⟩
    | exact fun _ k => k
    | exact ⟨hq.1, hq.2⟩
    | (refine ⟨⟨hq.1.1, hq.1.2⟩, ?_⟩)
    | (refine ⟨hq.1, ?_⟩)

theorem State.signNext_canon {s : State} (a1 : Bool) (h : Canon s) : Canon (State.signNext s a1) := by
  unfold State.signNext
  split
  · exact h
  · extract_lets c
    clear_value c
    split
    · exact State.answerLate_canon _ _ _ _ _ _ _ (canon_sec _ h)
    · split
      refine canon_ite h ?_
      extract_lets sig all c2 hh u
      exact State.answerLate_canon _ _ _ _ _ _ _ (canon_host_sec _ _ h fun _ k =>
        ⟨k.1, by dsimp only; exact Mem.writeN_wf _ _ _ k.2.1, k.2.2⟩)

theorem readInputs_canon {s : State} (a1 : Ctx) (h : Canon s) : Canon (readInputs s a1).2 := by
  unfold readInputs
  exact canon_foldl2 _ _ (x := ([], s)) h fun u y hu => State.setCore_canon _ _ hu (Core.readTile_canon _ (hu.1.2 _))

theorem State.vecFlags_canon {s : State} (a1 : ℕ) (a2 : VFlags) (h : Canon s) :
    Canon (State.vecFlags s a1 a2) := by
  unfold State.vecFlags
  try dsimp only
  repeat' first
    | with_reducible assumption
    | with_reducible apply State.onInteg_canon
    | with_reducible apply canon_ite
    | split
    | exact fun _ k => ⟨k.1, k.2⟩
    | exact fun _ k => k
    | exact ⟨hq.1, hq.2⟩
    | (refine ⟨⟨hq.1.1, hq.1.2⟩, ?_⟩)
    | (refine ⟨hq.1, ?_⟩)

theorem State.addExtent_canon {s : State} (a1 : ℕ) (a2 : BitVec 12) (a3 : List (ℕ × ℕ)) (a4 : Option (ℕ × ℕ))
    (h : Canon s) :
    Canon (State.addExtent s a1 a2 a3 a4) := by
  unfold State.addExtent
  try dsimp only
  repeat' first
    | with_reducible assumption
    | with_reducible apply State.onScp_canon
    | with_reducible apply State.abortGroup_canon
    | with_reducible apply Scratch.poisonRuns_canon
    | with_reducible apply canon_ite
    | (with_reducible intro q hq; try dsimp only)
    | split
    | exact fun _ k => ⟨k.1, k.2⟩
    | exact fun _ k => k
    | exact ⟨hq.1, hq.2⟩
    | (refine ⟨⟨hq.1.1, hq.1.2⟩, ?_⟩)
    | (refine ⟨hq.1, ?_⟩)

theorem State.pushTile_canon {s : State} (a1 : Ctx) (a2 : ℕ) (a3 : ℕ) (a4 : ℕ) (a5 : ℕ) (a6 : List MB) (h : Canon s) :
    CanonO (State.pushTile s a1 a2 a3 a4 a5 a6) := by
  unfold State.pushTile
  try dsimp only
  repeat' first
    | with_reducible assumption
    | with_reducible apply State.onQueue_canon
    | with_reducible apply State.onScp_canon
    | with_reducible apply State.addExtent_canon
    | with_reducible apply Sequencer.onQueue_canon
    | with_reducible apply Scratch.writeRun_canon
    | with_reducible apply canon_ite
    | with_reducible apply canon_getD
    | (with_reducible intro q hq; try dsimp only)
    | with_reducible apply canonO_bind
    | with_reducible apply canonO_foldl
    | with_reducible refine CanonO.out (o := Option.bind _ _) ?_ (by assumption)
    | with_reducible intro u hu
    | exact ⟨hu.1, hu.2⟩
    | with_reducible exact canonO_none
    | with_reducible apply canonO_some
    | split
    | exact fun _ k => ⟨k.1, k.2⟩
    | exact fun _ k => k
    | exact ⟨hq.1, hq.2⟩
    | (refine ⟨⟨hq.1.1, hq.1.2⟩, ?_⟩)
    | (refine ⟨hq.1, ?_⟩)

theorem State.pushTiles_canon {s : State} (a1 : Ctx) (a2 : ℕ) (a3 : List Tile) (h : Canon s) :
    CanonO (State.pushTiles s a1 a2 a3) := by
  induction a3 generalizing s a1 a2 with
  | nil =>
    unfold State.pushTiles
    try dsimp only
    repeat' first
      | with_reducible assumption
      | with_reducible apply State.pushTile_canon
      | with_reducible refine CanonO.out (o := State.pushTile _ _ _ _ _ _ _) ?_ (by assumption)
      | with_reducible apply canon_ite
      | with_reducible apply canonO_bind
      | with_reducible apply canonO_foldl
      | with_reducible refine CanonO.out (o := Option.bind _ _) ?_ (by assumption)
      | with_reducible intro u hu
      | exact ⟨hu.1, hu.2⟩
      | with_reducible exact canonO_none
      | with_reducible apply canonO_some
      | split
      | exact fun _ k => ⟨k.1, k.2⟩
      | exact fun _ k => k
      | exact ⟨hq.1, hq.2⟩
      | (refine ⟨⟨hq.1.1, hq.1.2⟩, ?_⟩)
      | (refine ⟨hq.1, ?_⟩)
  | cons x r ih =>
    unfold State.pushTiles
    try dsimp only
    repeat' first
      | with_reducible assumption
      | with_reducible apply ih
      | with_reducible apply State.pushTile_canon
      | with_reducible refine CanonO.out (o := State.pushTile _ _ _ _ _ _ _) ?_ (by assumption)
      | with_reducible apply canon_ite
      | with_reducible apply canonO_bind
      | with_reducible apply canonO_foldl
      | with_reducible refine CanonO.out (o := Option.bind _ _) ?_ (by assumption)
      | with_reducible intro u hu
      | exact ⟨hu.1, hu.2⟩
      | with_reducible exact canonO_none
      | with_reducible apply canonO_some
      | split
      | exact fun _ k => ⟨k.1, k.2⟩
      | exact fun _ k => k
      | exact ⟨hq.1, hq.2⟩
      | (refine ⟨⟨hq.1.1, hq.1.2⟩, ?_⟩)
      | (refine ⟨hq.1, ?_⟩)

theorem State.poisonStop_canon {s : State} (a1 : Ctx) (h : Canon s) :
    Canon (State.poisonStop s a1) := by
  unfold State.poisonStop
  try dsimp only
  repeat' first
    | with_reducible assumption
    | with_reducible apply State.failBegun_canon
    | with_reducible apply canon_ite
    | split
    | exact fun _ k => ⟨k.1, k.2⟩
    | exact fun _ k => k
    | exact ⟨hq.1, hq.2⟩
    | (refine ⟨⟨hq.1.1, hq.1.2⟩, ?_⟩)
    | (refine ⟨hq.1, ?_⟩)

theorem State.consume_canon {s : State} (a1 : Ctx) (h : Canon s) :
    Canon (State.consume s a1) := by
  unfold State.consume
  try dsimp only
  repeat' first
    | with_reducible assumption
    | with_reducible apply State.onQueue_canon
    | with_reducible apply State.releaseEntry_canon
    | with_reducible apply Sequencer.onQueue_canon
    | with_reducible apply canon_ite
    | with_reducible apply canon_foldl
    | with_reducible apply canon_foldl2
    | (with_reducible intro u x hu; try dsimp only)
    | split
    | exact fun _ k => ⟨k.1, k.2⟩
    | exact fun _ k => k
    | exact ⟨hq.1, hq.2⟩
    | (refine ⟨⟨hq.1.1, hq.1.2⟩, ?_⟩)
    | (refine ⟨hq.1, ?_⟩)

theorem State.complete_canon {s : State} (a1 : Ctx) (a2 : List Tile) (a3 : Bool) (h : Canon s) :
    Canon (State.complete s a1 a2 a3) := by
  unfold State.complete
  try dsimp only
  repeat' first
    | with_reducible assumption
    | with_reducible apply State.afterRetire_canon
    | with_reducible apply State.pushTiles_canon
    | with_reducible refine CanonO.out (o := State.pushTiles _ _ _ _) ?_ (by assumption)
    | with_reducible apply State.leaveFront_canon
    | with_reducible apply State.failStream_canon
    | with_reducible apply State.poisonStop_canon
    | with_reducible apply State.consume_canon
    | with_reducible apply Sequencer.failStream_canon
    | with_reducible apply canon_ite
    | with_reducible refine CanonO.out (o := ite _ _ _) ?_ (by assumption)
    | with_reducible apply canonO_some
    | split
    | exact fun _ k => ⟨k.1, k.2⟩
    | exact fun _ k => k
    | exact ⟨hq.1, hq.2⟩
    | (refine ⟨⟨hq.1.1, hq.1.2⟩, ?_⟩)
    | (refine ⟨hq.1, ?_⟩)

theorem vxFinish_canon {s : State} (a0 : Ctx) (a2 : Bool) (a3 : ℕ) (a4 : ℕ) (a5 : ℕ) (a6 : List (List (List ℕ)))
    (a7 : List (List ℕ)) (a8 : VFlags) (h : Canon s) :
    Canon (vxFinish a0 s a2 a3 a4 a5 a6 a7 a8) := by
  unfold vxFinish
  try dsimp only
  repeat' first
    | with_reducible assumption
    | with_reducible apply State.vecFlags_canon
    | with_reducible apply State.onScp_canon
    | with_reducible apply State.complete_canon
    | with_reducible apply canon_ite
    | with_reducible apply canon_getD
    | (with_reducible intro q hq; try dsimp only)
    | split
    | exact fun _ k => ⟨k.1, k.2⟩
    | exact fun _ k => k
    | exact ⟨hq.1, hq.2⟩
    | exact ⟨hq.1, Mem.writeN_wf _ _ _ hq.2.1, hq.2.2⟩
    | exact ⟨hq.1, Mem.writeN_wf _ _ _ (Mem.writeN_wf _ _ _ (Mem.writeN_wf _ _ _ hq.2.1)), hq.2.2⟩
    | (refine ⟨⟨hq.1.1, hq.1.2⟩, ?_⟩)
    | (refine ⟨hq.1, ?_⟩)

theorem vxElementwise_canon {s : State} (a0 : VxKind) (a1 : Cmd → List Val → Val × Bool) (a2 : Ctx) (h : Canon s) :
    Canon (vxElementwise a0 a1 a2 s) := by
  unfold vxElementwise
  try dsimp only
  repeat' first
    | with_reducible assumption
    | with_reducible apply readInputs_canon
    | with_reducible refine canon_pair (x := readInputs _ _) ?_ (by assumption)
    | with_reducible apply vxFinish_canon
    | with_reducible apply canon_ite
    | split
    | exact fun _ k => ⟨k.1, k.2⟩
    | exact fun _ k => k
    | exact ⟨hq.1, hq.2⟩
    | (refine ⟨⟨hq.1.1, hq.1.2⟩, ?_⟩)
    | (refine ⟨hq.1, ?_⟩)

theorem execVxRsqrt_canon {s : State} (a0 : Fin 64) (h : Canon s) :
    CanonR (execVxRsqrt a0 s) := by
  unfold execVxRsqrt
  try dsimp only
  repeat' first
    | with_reducible assumption
    | with_reducible apply vxElementwise_canon
    | with_reducible apply runCmd_canon
    | with_reducible apply tileHold_canon
    | with_reducible refine CanonP.out (o := tileHold _ _ _) ?_ (by assumption)
    | with_reducible apply canon_ite
    | (with_reducible intro u x hu; try dsimp only)
    | with_reducible apply canonR_ite
    | with_reducible apply canonR_next
    | split
    | with_reducible exact canonP_none
    | with_reducible apply canonP_some
    | with_reducible intro u x hu
    | (with_reducible intro x u hu; try dsimp only)
    | exact fun _ k => ⟨k.1, k.2⟩
    | exact fun _ k => k
    | exact ⟨hq.1, hq.2⟩
    | (refine ⟨⟨hq.1.1, hq.1.2⟩, ?_⟩)
    | (refine ⟨hq.1, ?_⟩)
    | (unfold vxRow; try dsimp only)

theorem vxQuantEff_canon {s : State} (a0 : Ctx) (h : Canon s) :
    Canon (vxQuantEff a0 s) := by
  unfold vxQuantEff
  try dsimp only
  repeat' first
    | with_reducible assumption
    | with_reducible apply readInputs_canon
    | with_reducible refine canon_pair (x := readInputs _ _) ?_ (by assumption)
    | with_reducible apply vxFinish_canon
    | with_reducible apply canon_ite
    | with_reducible apply canon_getD
    | split
    | exact fun _ k => ⟨k.1, k.2⟩
    | exact fun _ k => k
    | exact ⟨hq.1, hq.2⟩
    | (refine ⟨⟨hq.1.1, hq.1.2⟩, ?_⟩)
    | (refine ⟨hq.1, ?_⟩)

theorem execVxQuant_canon {s : State} (a0 : Fin 64) (h : Canon s) :
    CanonR (execVxQuant a0 s) := by
  unfold execVxQuant
  try dsimp only
  repeat' first
    | with_reducible assumption
    | with_reducible apply runCmd_canon
    | with_reducible apply vxQuantEff_canon
    | with_reducible apply tileHold_canon
    | with_reducible refine CanonP.out (o := tileHold _ _ _) ?_ (by assumption)
    | with_reducible apply canon_ite
    | (with_reducible intro u x hu; try dsimp only)
    | with_reducible apply canonR_ite
    | with_reducible apply canonR_next
    | split
    | with_reducible exact canonP_none
    | with_reducible apply canonP_some
    | with_reducible intro u x hu
    | (with_reducible intro x u hu; try dsimp only)
    | exact fun _ k => ⟨k.1, k.2⟩
    | exact fun _ k => k
    | exact ⟨hq.1, hq.2⟩
    | (refine ⟨⟨hq.1.1, hq.1.2⟩, ?_⟩)
    | (refine ⟨hq.1, ?_⟩)
    | (unfold vxRow; try dsimp only)

theorem execInPlaceAdd_canon {s : State} (a0 : BitVec 40) (a1 : Bool) (a2 : List Byte) (a3 : Bool) (a4 : Upset)
    (h : Canon s) :
    CanonR (execInPlaceAdd a0 a1 a2 a3 a4 s) := by
  unfold execInPlaceAdd
  try dsimp only
  repeat' first
    | with_reducible assumption
    | with_reducible apply State.addMem_canon
    | with_reducible apply canon_ite
    | with_reducible apply canonR_ite
    | with_reducible apply canonR_next
    | split
    | exact fun _ k => ⟨k.1, k.2⟩
    | exact fun _ k => k
    | exact ⟨hq.1, hq.2⟩
    | (refine ⟨⟨hq.1.1, hq.1.2⟩, ?_⟩)
    | (refine ⟨hq.1, ?_⟩)

theorem State.settlePreempt_canon {s : State} (a1 : ℕ) (h : Canon s) :
    Canon (State.settlePreempt s a1) := by
  unfold State.settlePreempt
  try dsimp only
  repeat' first
    | with_reducible assumption
    | with_reducible apply State.onSQueue_canon
    | with_reducible apply State.onJob_canon
    | with_reducible apply canon_ite
    | split
    | exact fun _ k => ⟨k.1, k.2⟩
    | exact fun _ k => k
    | exact ⟨hq.1, hq.2⟩
    | (refine ⟨⟨hq.1.1, hq.1.2⟩, ?_⟩)
    | (refine ⟨hq.1, ?_⟩)

theorem execTileFailure_canon {s : State} (a0 : Fin 16) (h : Canon s) :
    CanonR (execTileFailure a0 s) := by
  unfold execTileFailure
  try dsimp only
  repeat' first
    | with_reducible assumption
    | with_reducible apply canon_ite
    | with_reducible apply canonR_ite
    | with_reducible apply canonR_next
    | split
    | with_reducible refine canon_pwr _ ?_ ?_
    | exact fun _ k => ⟨k.1, k.2⟩
    | exact fun _ k => k
    | exact ⟨hq.1, hq.2⟩
    | exact fun _ k => ⟨k.1, k.2.1, (by dsimp only; exact Tbl.mapv_wf _ _ _ k.2.2.1), k.2.2.2⟩
    | exact fun _ k => ⟨k.1, k.2.1, k.2.2.1, (by dsimp only; exact Tbl.mapv_wf _ _ _ k.2.2.2)⟩
    | exact fun _ k => ⟨(by dsimp only; exact Tbl.mapv_wf _ _ _ k.1), k.2⟩
    | exact fun _ k => ⟨k.1, (by dsimp only; exact Tbl.mapv_wf _ _ _ k.2)⟩
    | exact ⟨hq.1, hq.2.1, hq.2.2.1, (by dsimp only; exact Tbl.set_wf _ _ _ _ hq.2.2.2.1), hq.2.2.2.2⟩
    | exact ⟨hq.1, hq.2.1, (by dsimp only; exact Tbl.set_wf _ _ _ _ hq.2.2.1), hq.2.2.2⟩
    | exact ⟨(by dsimp only; exact Tbl.mapv_wf _ _ _ hq.1), hq.2⟩
    | exact fun k => cores_mapv_canon _ (fun c k => Core.halt_canon k) k
    | exact fun k => (by dsimp only; exact Tbl.mapv_wf _ _ _ k.2.2.1)
    | exact fun k => (by dsimp only; exact Tbl.mapv_wf _ _ _ k.2.2.2.1)
    | exact fun _ k => (by dsimp only; exact Tbl.mapv_wf _ _ _ k)
    | (refine ⟨⟨hq.1.1, hq.1.2⟩, ?_⟩)
    | (refine ⟨hq.1, ?_⟩)

theorem execVxMin_canon {s : State} (a0 : Fin 64) (h : Canon s) :
    CanonR (execVxMin a0 s) := by
  unfold execVxMin
  try dsimp only
  repeat' first
    | with_reducible assumption
    | with_reducible apply vxElementwise_canon
    | with_reducible apply runCmd_canon
    | with_reducible apply tileHold_canon
    | with_reducible refine CanonP.out (o := tileHold _ _ _) ?_ (by assumption)
    | with_reducible apply canon_ite
    | with_reducible apply canon_getD
    | (with_reducible intro u x hu; try dsimp only)
    | with_reducible apply canonR_ite
    | with_reducible apply canonR_next
    | split
    | with_reducible exact canonP_none
    | with_reducible apply canonP_some
    | with_reducible intro u x hu
    | (with_reducible intro x u hu; try dsimp only)
    | exact fun _ k => ⟨k.1, k.2⟩
    | exact fun _ k => k
    | exact ⟨hq.1, hq.2⟩
    | (refine ⟨⟨hq.1.1, hq.1.2⟩, ?_⟩)
    | (refine ⟨hq.1, ?_⟩)
    | (unfold vxRow; try dsimp only)

theorem State.unlockDone_canon {s : State} (a1 : Apply) (a2 : ℕ) (h : Canon s) :
    Canon (State.unlockDone s a1 a2) := by
  unfold State.unlockDone
  try dsimp only
  repeat' first
    | with_reducible assumption
    | with_reducible apply State.serve_canon
    | with_reducible apply canon_ite
    | split
    | with_reducible refine canon_cfg _ ?_
    | exact fun _ k => ⟨k.1, k.2⟩
    | exact fun _ k => k
    | exact ⟨hq.1, hq.2⟩
    | (refine ⟨⟨hq.1.1, hq.1.2⟩, ?_⟩)
    | (refine ⟨hq.1, ?_⟩)

end Sys2Proof.Machine
end

