-- ==== Sys2Proof/Laws/Canons4.lean ====
section
/-! SUPPORT. Each operation and meaning, in dependency order (part 5 of 10), keeps the canonical form. -/

namespace Sys2Proof.Machine

theorem State.shadowAll_canon {s : State} (a1 : GrpKey) (a2 : List (ℕ × ShadowOp)) (h : Canon s) :
    CanonO (State.shadowAll s a1 a2) := by
  induction a2 generalizing s a1 with
  | nil =>
    unfold State.shadowAll
    try dsimp only
    repeat' first
      | with_reducible assumption
      | with_reducible apply State.shadowOp_canon
      | with_reducible refine CanonO.out (o := State.shadowOp _ _ _ _) ?_ (by assumption)
      | with_reducible apply canon_ite
      | with_reducible apply canonO_bind
      | with_reducible apply canonO_foldl
      | with_reducible refine CanonO.out (o := Option.bind _ _) ?_ (by assumption)
      | with_reducible intro u hu
      | exact ⟨hu.1, hu.2⟩
      | with_reducible exact canonO_none
      | with_reducible apply canonO_some
      | split
      | exact fun _ k => ⟨k.1, k.2⟩
      | exact fun _ k => k
      | exact ⟨hq.1, hq.2⟩
      | (refine ⟨⟨hq.1.1, hq.1.2⟩, ?_⟩)
      | (refine ⟨hq.1, ?_⟩)
  | cons x r ih =>
    unfold State.shadowAll
    try dsimp only
    repeat' first
      | with_reducible assumption
      | with_reducible apply ih
      | with_reducible apply State.shadowOp_canon
      | with_reducible refine CanonO.out (o := State.shadowOp _ _ _ _) ?_ (by assumption)
      | with_reducible apply canon_ite
      | with_reducible apply canonO_bind
      | with_reducible apply canonO_foldl
      | with_reducible refine CanonO.out (o := Option.bind _ _) ?_ (by assumption)
      | with_reducible intro u hu
      | exact ⟨hu.1, hu.2⟩
      | with_reducible exact canonO_none
      | with_reducible apply canonO_some
      | split
      | exact fun _ k => ⟨k.1, k.2⟩
      | exact fun _ k => k
      | exact ⟨hq.1, hq.2⟩
      | (refine ⟨⟨hq.1.1, hq.1.2⟩, ?_⟩)
      | (refine ⟨hq.1, ?_⟩)

theorem State.tagFlow_canon {s : State} (a1 : ℕ) (a2 : Option (BitVec 12)) (a3 : ℕ) (h : Canon s) :
    Canon (State.tagFlow s a1 a2 a3) := by
  unfold State.tagFlow
  try dsimp only
  repeat' first
    | with_reducible assumption
    | with_reducible apply State.onSeq_canon
    | with_reducible apply State.abortGroup_canon
    | with_reducible apply Sequencer.onGrp_canon
    | with_reducible apply canon_ite
    | (with_reducible intro q hq; try dsimp only)
    | split
    | exact fun _ k => ⟨k.1, k.2⟩
    | exact fun _ k => k
    | exact ⟨hq.1, hq.2⟩
    | (refine ⟨⟨hq.1.1, hq.1.2⟩, ?_⟩)
    | (refine ⟨hq.1, ?_⟩)

theorem State.dropWindow_canon {s : State} (a1 : ℕ) (h : Canon s) :
    Canon (State.dropWindow s a1) := by
  unfold State.dropWindow
  try dsimp only
  repeat' first
    | with_reducible assumption
    | with_reducible apply State.onSeq_canon
    | with_reducible apply canon_ite
    | (with_reducible intro q hq; try dsimp only)
    | split
    | exact fun _ k => ⟨k.1, k.2⟩
    | exact fun _ k => k
    | exact ⟨hq.1, hq.2⟩
    | (refine ⟨⟨hq.1.1, hq.1.2⟩, ?_⟩)
    | (refine ⟨hq.1, ?_⟩)

theorem State.farFlow_canon {s : State} (a1 : ℕ) (a2 : BitVec 18) (h : Canon s) :
    CanonF (State.farFlow s a1 a2) := by
  unfold State.farFlow
  try dsimp only
  repeat' first
    | with_reducible assumption
    | with_reducible apply State.startSetup_canon
    | with_reducible refine CanonM.out (v := State.startSetup _ _ _) ?_ (by assumption)
    | with_reducible apply canon_ite
    | with_reducible exact canonF_ready _
    | with_reducible exact canonF_refused _
    | with_reducible apply canonF_wait
    | split
    | exact fun _ k => ⟨k.1, k.2⟩
    | exact fun _ k => k
    | exact ⟨hq.1, hq.2⟩
    | (refine ⟨⟨hq.1.1, hq.1.2⟩, ?_⟩)
    | (refine ⟨hq.1, ?_⟩)

theorem State.chainNan_canon {s : State} (a1 : ℕ) (a2 : Bool) (h : Canon s) :
    Canon (State.chainNan s a1 a2) := by
  unfold State.chainNan
  try dsimp only
  repeat' first
    | with_reducible assumption
    | with_reducible apply State.redFlags_canon
    | with_reducible apply canon_ite
    | split
    | exact fun _ k => ⟨k.1, k.2⟩
    | exact fun _ k => k
    | exact ⟨hq.1, hq.2⟩
    | (refine ⟨⟨hq.1.1, hq.1.2⟩, ?_⟩)
    | (refine ⟨hq.1, ?_⟩)

theorem State.addUnits_canon {s : State} (a1 : ℕ) (a2 : ℕ) (a3 : Tile) (a4 : Option GrpKey) (h : Canon s) :
    Canon (State.addUnits s a1 a2 a3 a4) := by
  unfold State.addUnits
  try dsimp only
  repeat' first
    | with_reducible assumption
    | with_reducible apply State.chainNan_canon
    | with_reducible apply State.addMem_canon
    | with_reducible apply canon_ite
    | with_reducible apply canon_foldl
    | with_reducible apply canon_foldl2
    | (with_reducible intro u x hu; try dsimp only)
    | split
    | exact fun _ k => ⟨k.1, k.2⟩
    | exact fun _ k => k
    | exact ⟨hq.1, hq.2⟩
    | (refine ⟨⟨hq.1.1, hq.1.2⟩, ?_⟩)
    | (refine ⟨hq.1, ?_⟩)

theorem State.popInputs_canon {s : State} (a1 : Ctx) (h : Canon s) :
    Canon (State.popInputs s a1) := by
  unfold State.popInputs
  try dsimp only
  repeat' first
    | with_reducible assumption
    | with_reducible apply State.onQueue_canon
    | with_reducible apply Sequencer.onQueue_canon
    | with_reducible apply canon_ite
    | with_reducible apply canon_foldl
    | with_reducible apply canon_foldl2
    | (with_reducible intro u x hu; try dsimp only)
    | split
    | exact fun _ k => ⟨k.1, k.2⟩
    | exact fun _ k => k
    | exact ⟨hq.1, hq.2⟩
    | (refine ⟨⟨hq.1.1, hq.1.2⟩, ?_⟩)
    | (refine ⟨hq.1, ?_⟩)

theorem State.beginXfer_canon {s : State} (a1 : Ctx) (a2 : List (ℕ × ℕ)) (a3 : Option Xfer) (h : Canon s) :
    Canon (State.beginXfer s a1 a2 a3) := by
  unfold State.beginXfer
  try dsimp only
  repeat' first
    | with_reducible assumption
    | with_reducible apply State.onEng_canon
    | with_reducible apply State.popInputs_canon
    | with_reducible apply Sequencer.onEng_canon
    | with_reducible apply canon_ite
    | split
    | exact fun _ k => ⟨k.1, k.2⟩
    | exact fun _ k => k
    | exact ⟨hq.1, hq.2⟩
    | (refine ⟨⟨hq.1.1, hq.1.2⟩, ?_⟩)
    | (refine ⟨hq.1, ?_⟩)

theorem State.chainPart_canon {s : State} (a1 : ℕ) (a2 : Begun) (a3 : ℕ) (h : Canon s) :
    Canon (State.chainPart s a1 a2 a3).2.2 := by
  unfold State.chainPart
  try dsimp only
  repeat' first
    | with_reducible assumption
    | with_reducible apply State.setCore_canon
    | with_reducible apply Core.readFirst_canon
    | with_reducible apply Core.readTile_canon
    | with_reducible apply canon_ite
    | split
    | exact fun _ k => ⟨k.1, k.2⟩
    | exact fun _ k => k
    | exact ⟨hq.1, hq.2⟩
    | with_reducible apply canon_core
    | exact ⟨⟨rfl, rfl, rfl, rfl, fun _ k => nomatch k⟩, rfl, rfl, rfl⟩
    | (refine ⟨⟨hq.1.1, hq.1.2⟩, ?_⟩)
    | (refine ⟨hq.1, ?_⟩)
    | dsimp only

theorem State.tagOut_canon {s : State} (a1 : ℕ) (a2 : Begun) (h : Canon s) :
    Canon (State.tagOut s a1 a2) := by
  unfold State.tagOut
  try dsimp only
  repeat' first
    | with_reducible assumption
    | with_reducible apply State.addExtent_canon
    | with_reducible apply canon_ite
    | split
    | exact fun _ k => ⟨k.1, k.2⟩
    | exact fun _ k => k
    | exact ⟨hq.1, hq.2⟩
    | (refine ⟨⟨hq.1.1, hq.1.2⟩, ?_⟩)
    | (refine ⟨hq.1, ?_⟩)

theorem State.store_canon {s : State} (a1 : ℕ) (a2 : Begun) (a3 : Tile) (a4 : ℕ) (h : Canon s) :
    CanonD (State.store s a1 a2 a3 a4) := by
  unfold State.store
  try dsimp only
  repeat' first
    | with_reducible assumption
    | with_reducible apply State.landBytes_canon
    | with_reducible refine CanonD.waitOut (v := State.landBytes _ _ _ _ _) ?_ (by assumption)
    | with_reducible refine CanonD.doneOut (v := State.landBytes _ _ _ _ _) ?_ (by assumption)
    | with_reducible apply State.onQueue_canon
    | with_reducible apply State.tagOut_canon
    | with_reducible apply State.onBegun_canon
    | with_reducible apply Sequencer.onQueue_canon
    | with_reducible apply canon_ite
    | with_reducible apply canonD_wait
    | with_reducible exact canonD_code
    | with_reducible apply canonD_done
    | split
    | exact fun _ k => ⟨k.1, k.2⟩
    | exact fun _ k => k
    | exact ⟨hq.1, hq.2⟩
    | (refine ⟨⟨hq.1.1, hq.1.2⟩, ?_⟩)
    | (refine ⟨hq.1, ?_⟩)

theorem State.portWrite_canon {s : State} (a1 : ℕ) (a2 : PortWrite) (h : Canon s) :
    CanonL (State.portWrite s a1 a2) := by
  unfold State.portWrite
  try dsimp only
  repeat' first
    | with_reducible assumption
    | with_reducible apply State.portStore_canon
    | with_reducible refine CanonL.queuedOut (v := State.portStore _ _ _) ?_ (by assumption)
    | with_reducible refine CanonL.codeOut (v := State.portStore _ _ _) ?_ (by assumption)
    | with_reducible refine CanonL.doneOut (v := State.portStore _ _ _) ?_ (by assumption)
    | with_reducible apply State.onScp_canon
    | with_reducible apply Scratch.wake_canon
    | with_reducible apply canon_ite
    | (with_reducible intro q hq; try dsimp only)
    | with_reducible exact canonL_full
    | with_reducible apply canonL_queued
    | with_reducible apply canonL_code
    | with_reducible apply canonL_done
    | split
    | exact ⟨(Scratch.wake_canon _ hq).1, (Scratch.wake_canon _ hq).2⟩
    | exact fun _ k => ⟨k.1, k.2⟩
    | exact fun _ k => k
    | exact ⟨hq.1, hq.2⟩
    | (refine ⟨⟨hq.1.1, hq.1.2⟩, ?_⟩)
    | (refine ⟨hq.1, ?_⟩)

theorem State.placeWindow_canon {s : State} (a1 : ℕ) (a2 : WinHdr) (a3 : List MB) (a4 : PortSrc) (h : Canon s) :
    CanonL (State.placeWindow s a1 a2 a3 a4) := by
  unfold State.placeWindow
  try dsimp only
  repeat' first
    | with_reducible assumption
    | with_reducible apply State.portWrite_canon
    | with_reducible refine CanonL.queuedOut (v := State.portWrite _ _ _) ?_ (by assumption)
    | with_reducible refine CanonL.codeOut (v := State.portWrite _ _ _) ?_ (by assumption)
    | with_reducible refine CanonL.doneOut (v := State.portWrite _ _ _) ?_ (by assumption)
    | with_reducible apply canon_ite
    | with_reducible exact canonL_full
    | with_reducible apply canonL_queued
    | with_reducible apply canonL_code
    | with_reducible apply canonL_done
    | split
    | exact fun _ k => ⟨k.1, k.2⟩
    | exact fun _ k => k
    | exact ⟨hq.1, hq.2⟩
    | (refine ⟨⟨hq.1.1, hq.1.2⟩, ?_⟩)
    | (refine ⟨hq.1, ?_⟩)

theorem State.ownWindow_canon {s : State} (a1 : ℕ) (a2 : Eng) (a3 : ℕ) (a4 : WinHdr) (a5 : List MB) (a6 : Option
    (BitVec 12)) (a7 : Option (BitVec 24)) (h : Canon s) :
    CanonW (State.ownWindow s a1 a2 a3 a4 a5 a6 a7) := by
  unfold State.ownWindow
  try dsimp only
  repeat' first
    | with_reducible assumption
    | with_reducible apply State.ownPlaced_canon
    | with_reducible apply State.noteShape_canon
    | with_reducible apply State.placeWindow_canon
    | with_reducible refine CanonL.queuedOut (v := State.placeWindow _ _ _ _ _) ?_ (by assumption)
    | with_reducible refine CanonL.codeOut (v := State.placeWindow _ _ _ _ _) ?_ (by assumption)
    | with_reducible refine CanonL.doneOut (v := State.placeWindow _ _ _ _ _) ?_ (by assumption)
    | with_reducible apply State.dropWindow_canon
    | with_reducible apply canon_ite
    | with_reducible apply canonW_refused
    | with_reducible apply canonW_queued
    | with_reducible apply canonW_placed
    | split
    | exact fun _ k => ⟨k.1, k.2⟩
    | exact fun _ k => k
    | exact ⟨hq.1, hq.2⟩
    | (refine ⟨⟨hq.1.1, hq.1.2⟩, ?_⟩)
    | (refine ⟨hq.1, ?_⟩)

theorem State.sendData_canon {s : State} (a1 : ℕ) (a2 : Option (ℕ × ℕ)) (a3 : TxPkt) (h : Canon s) :
    Canon (State.sendData s a1 a2 a3).2 := by
  unfold State.sendData
  try dsimp only
  repeat' first
    | with_reducible assumption
    | with_reducible apply State.ctxUse_canon
    | with_reducible refine canon_pair (x := State.ctxUse _ _) ?_ (by assumption)
    | with_reducible apply State.goOut_canon
    | with_reducible apply State.onFlow_canon
    | with_reducible apply State.emit_canon
    | with_reducible apply canon_ite
    | split
    | exact fun _ k => ⟨k.1, k.2⟩
    | exact fun _ k => k
    | exact ⟨hq.1, hq.2⟩
    | (refine ⟨⟨hq.1.1, hq.1.2⟩, ?_⟩)
    | (refine ⟨hq.1, ?_⟩)
    | dsimp only

theorem State.pumpPackets_canon {s : State} (a1 : ℕ) (a2 : Eng) (a3 : List MB) (a4 : Desc) (a5 : ℕ) (h : Canon s) :
    Canon (State.pumpPackets s a1 a2 a3 a4 a5) := by
  induction a5 generalizing s a1 a2 a3 a4 with
  | zero =>
    unfold State.pumpPackets
    try dsimp only
    repeat' first
      | with_reducible assumption
      | with_reducible apply State.sendData_canon
      | with_reducible refine canon_pair (x := State.sendData _ _ _ _) ?_ (by assumption)
      | with_reducible apply State.onBegun_canon
      | with_reducible apply canon_ite
      | split
      | exact fun _ k => ⟨k.1, k.2⟩
      | exact fun _ k => k
      | exact ⟨hq.1, hq.2⟩
      | (refine ⟨⟨hq.1.1, hq.1.2⟩, ?_⟩)
      | (refine ⟨hq.1, ?_⟩)
  | succ k ih =>
    unfold State.pumpPackets
    try dsimp only
    repeat' first
      | with_reducible assumption
      | with_reducible apply ih
      | with_reducible apply State.sendData_canon
      | with_reducible refine canon_pair (x := State.sendData _ _ _ _) ?_ (by assumption)
      | with_reducible apply State.onBegun_canon
      | with_reducible apply canon_ite
      | split
      | exact fun _ k => ⟨k.1, k.2⟩
      | exact fun _ k => k
      | exact ⟨hq.1, hq.2⟩
      | (refine ⟨⟨hq.1.1, hq.1.2⟩, ?_⟩)
      | (refine ⟨hq.1, ?_⟩)

theorem State.forward_canon {s : State} (a1 : ℕ) (a2 : Begun) (a3 : Xfer) (a4 : Tile) (a5 : ℕ) (h : Canon s) :
    Canon (State.forward s a1 a2 a3 a4 a5) := by
  unfold State.forward
  try dsimp only
  repeat' first
    | with_reducible assumption
    | with_reducible apply State.ownWindow_canon
    | with_reducible refine CanonW.refusedOut (v := State.ownWindow _ _ _ _ _ _ _ _) ?_ (by assumption)
    | with_reducible refine CanonW.queuedOut (v := State.ownWindow _ _ _ _ _ _ _ _) ?_ (by assumption)
    | with_reducible refine CanonW.placedOut (v := State.ownWindow _ _ _ _ _ _ _ _) ?_ (by assumption)
    | with_reducible apply State.failXfer_canon
    | with_reducible apply State.onBegun_canon
    | with_reducible apply State.pumpPackets_canon
    | with_reducible apply canon_ite
    | with_reducible apply canon_getD
    | split
    | exact fun _ k => ⟨k.1, k.2⟩
    | exact fun _ k => k
    | exact ⟨hq.1, hq.2⟩
    | (refine ⟨⟨hq.1.1, hq.1.2⟩, ?_⟩)
    | (refine ⟨hq.1, ?_⟩)

theorem State.attemptChain_canon {s : State} (a1 : ℕ) (a2 : Bool) (h : Canon s) : Canon
    (State.attemptChain s a1 a2) := by
  unfold State.attemptChain
  have hq : ∀ {u : State} c, Canon u → Canon (u.onSeq a1 fun q => q.stall .q c) := fun c hu =>
    State.onSeq_canon _ _ hu fun _ k => Sequencer.stall_canon _ _ k
  split
  · exact h
  · extract_lets own all n
    clear_value own all n
    split
    · exact hq _ h
    split
    rename_i t nan u e
    have hu : Canon u := canon_trip (State.chainPart_canon _ _ _ h) e
    clear e
    extract_lets t2 res
    have hr : CanonD res := by
      simp only [res]
      split
      · exact canonD_done (State.forward_canon _ _ _ _ _ hu)
      · exact State.store_canon _ _ _ _ hu
    clear_value res
    split
    · exact hq _ hr
    · exact State.failXfer_canon _ _ _ hu
    · extract_lets v
      have hv : Canon v := State.onBegun_canon _ _ _ _ (State.chainNan_canon _ _ hr)
      clear_value v
      split
      · exact hv
      split
      · exact State.failChain_canon _ _ _ hv
      split
      · exact hv
      · exact State.confirmChain_canon _ (State.onBegun_canon _ _ _ _ hv)

theorem State.chainResult_canon {s : State} (a1 : ℕ) (a2 : Begun) (h : Canon s) :
    Canon (State.chainResult s a1 a2).2.2 := by
  unfold State.chainResult
  try dsimp only
  repeat' first
    | with_reducible assumption
    | with_reducible apply State.chainPart_canon
    | with_reducible refine canon_trip (x := State.chainPart _ _ _ _) ?_ (by assumption)
    | with_reducible apply canon_ite
    | split
    | exact fun _ k => ⟨k.1, k.2⟩
    | exact fun _ k => k
    | exact ⟨hq.1, hq.2⟩
    | (refine ⟨⟨hq.1.1, hq.1.2⟩, ?_⟩)
    | (refine ⟨hq.1, ?_⟩)
    | dsimp only

theorem State.failFront_canon {s : State} (a1 : ℕ) (a2 : Eng) (a3 : ℕ) (h : Canon s) :
    Canon (State.failFront s a1 a2 a3) := by
  unfold State.failFront
  try dsimp only
  repeat' first
    | with_reducible assumption
    | with_reducible apply State.onEng_canon
    | with_reducible apply State.countReplay_canon
    | with_reducible apply State.secondFailure_canon
    | with_reducible apply Sequencer.onEng_canon
    | with_reducible apply canon_ite
    | split
    | exact fun _ k => ⟨k.1, k.2⟩
    | exact fun _ k => k
    | exact ⟨hq.1, hq.2⟩
    | (refine ⟨⟨hq.1.1, hq.1.2⟩, ?_⟩)
    | (refine ⟨hq.1, ?_⟩)

theorem chainEff_canon {s : State} (a0 : Bool) (a1 : Ctx) (h : Canon s) :
    Canon (chainEff a0 a1 s) := by
  unfold chainEff
  try dsimp only
  repeat' first
    | with_reducible assumption
    | with_reducible apply State.onEng_canon
    | with_reducible apply State.retireFront_canon
    | with_reducible apply State.tagFlow_canon
    | with_reducible apply State.dropWindow_canon
    | with_reducible apply State.failStream_canon
    | with_reducible apply State.poisonStop_canon
    | with_reducible apply State.onFlow_canon
    | with_reducible apply State.farFlow_canon
    | with_reducible refine CanonF.out (v := State.farFlow _ _ _) ?_ (by assumption)
    | with_reducible apply State.consume_canon
    | with_reducible apply State.addUnits_canon
    | with_reducible apply State.beginXfer_canon
    | with_reducible apply State.attemptChain_canon
    | with_reducible apply State.pumpPackets_canon
    | with_reducible apply State.chainResult_canon
    | with_reducible refine canon_trip (x := State.chainResult _ _ _) ?_ (by assumption)
    | with_reducible apply State.failFront_canon
    | with_reducible apply State.chainNan_canon
    | with_reducible apply Sequencer.failStream_canon
    | with_reducible apply Sequencer.onEng_canon
    | with_reducible apply canon_ite
    | with_reducible apply canon_getD
    | split
    | with_reducible refine canon_fab _ ?_ ?_
    | exact fun _ k => ⟨k.1, k.2⟩
    | exact fun _ k => k
    | exact ⟨hq.1, hq.2⟩
    | (refine ⟨⟨hq.1.1, hq.1.2⟩, ?_⟩)
    | (refine ⟨hq.1, ?_⟩)

theorem execGrantTimeout_canon {s : State} (a0 : Fin 72) (a1 : ℕ) (h : Canon s) :
    CanonR (execGrantTimeout a0 a1 s) := by
  unfold execGrantTimeout
  try dsimp only
  repeat' first
    | with_reducible assumption
    | with_reducible apply State.onDom_canon
    | with_reducible apply State.at_canon
    | with_reducible apply canon_ite
    | with_reducible apply canonR_ite
    | with_reducible apply canonR_next
    | split
    | exact fun _ k => ⟨k.1, k.2⟩
    | exact fun _ k => k
    | exact ⟨hq.1, hq.2⟩
    | (refine ⟨⟨hq.1.1, hq.1.2⟩, ?_⟩)
    | (refine ⟨hq.1, ?_⟩)

theorem State.preemptPass_canon {s : State} (h : Canon s) :
    Canon (State.preemptPass s) := by
  unfold State.preemptPass
  try dsimp only
  repeat' first
    | with_reducible assumption
    | with_reducible apply State.preemptFor_canon
    | with_reducible apply canon_ite
    | with_reducible apply canon_foldl
    | with_reducible apply canon_foldl2
    | (with_reducible intro u x hu; try dsimp only)
    | split
    | exact fun _ k => ⟨k.1, k.2⟩
    | exact fun _ k => k
    | exact ⟨hq.1, hq.2⟩
    | (refine ⟨⟨hq.1.1, hq.1.2⟩, ?_⟩)
    | (refine ⟨hq.1, ?_⟩)

theorem State.capHit_canon {s : State} (a1 : ℕ) (a2 : ℕ) (h : Canon s) :
    Canon (State.capHit s a1 a2) := by
  unfold State.capHit
  try dsimp only
  repeat' first
    | with_reducible assumption
    | with_reducible apply State.onSeq_canon
    | with_reducible apply canon_ite
    | (with_reducible intro q hq; try dsimp only)
    | split
    | exact fun _ k => ⟨k.1, k.2⟩
    | exact fun _ k => k
    | exact ⟨hq.1, hq.2⟩
    | (refine ⟨⟨hq.1.1, hq.1.2⟩, ?_⟩)
    | (refine ⟨hq.1, ?_⟩)

theorem State.dramFull_canon {s : State} (a1 : ℕ) (a2 : Eng) (a3 : List (ℕ × ℕ)) (h : Canon s) :
    CanonO (State.dramFull s a1 a2 a3) := by
  unfold State.dramFull
  try dsimp only
  repeat' first
    | with_reducible assumption
    | with_reducible apply State.onEng_canon
    | with_reducible apply State.capHit_canon
    | with_reducible apply Sequencer.onEng_canon
    | with_reducible apply canon_ite
    | with_reducible apply canonO_bind
    | with_reducible apply canonO_foldl
    | with_reducible refine CanonO.out (o := Option.bind _ _) ?_ (by assumption)
    | with_reducible intro u hu
    | exact ⟨hu.1, hu.2⟩
    | with_reducible exact canonO_none
    | with_reducible apply canonO_some
    | split
    | exact fun _ k => ⟨k.1, k.2⟩
    | exact fun _ k => k
    | exact ⟨hq.1, hq.2⟩
    | (refine ⟨⟨hq.1.1, hq.1.2⟩, ?_⟩)
    | (refine ⟨hq.1, ?_⟩)

theorem State.creditFor_canon {s : State} (a1 : ℕ) (a2 : ℕ) (a3 : BitVec 6) (a4 : BitVec 12) (a5 : BitVec 16)
    (h : Canon s) :
    Canon (State.creditFor s a1 a2 a3 a4 a5).2 := by
  unfold State.creditFor
  try dsimp only
  repeat' first
    | with_reducible assumption
    | with_reducible apply State.onFlow_canon
    | with_reducible apply State.sendCtl_canon
    | with_reducible apply canon_ite
    | split
    | exact fun _ k => ⟨k.1, k.2⟩
    | exact fun _ k => k
    | exact ⟨hq.1, hq.2⟩
    | exact fun _ k => ⟨k.1, k.2.1, (by dsimp only; exact Tbl.mapv_wf _ _ _ k.2.2.1), k.2.2.2⟩
    | exact fun _ k => ⟨k.1, k.2.1, k.2.2.1, (by dsimp only; exact Tbl.mapv_wf _ _ _ k.2.2.2)⟩
    | exact fun _ k => ⟨(by dsimp only; exact Tbl.mapv_wf _ _ _ k.1), k.2⟩
    | exact fun _ k => ⟨k.1, (by dsimp only; exact Tbl.mapv_wf _ _ _ k.2)⟩
    | exact ⟨hq.1, hq.2.1, hq.2.2.1, (by dsimp only; exact Tbl.set_wf _ _ _ _ hq.2.2.2.1), hq.2.2.2.2⟩
    | exact ⟨hq.1, hq.2.1, (by dsimp only; exact Tbl.set_wf _ _ _ _ hq.2.2.1), hq.2.2.2⟩
    | exact ⟨(by dsimp only; exact Tbl.mapv_wf _ _ _ hq.1), hq.2⟩
    | exact fun k => cores_mapv_canon _ (fun c k => Core.halt_canon k) k
    | exact fun k => (by dsimp only; exact Tbl.mapv_wf _ _ _ k.2.2.1)
    | exact fun k => (by dsimp only; exact Tbl.mapv_wf _ _ _ k.2.2.2.1)
    | exact fun _ k => (by dsimp only; exact Tbl.mapv_wf _ _ _ k)
    | (refine ⟨⟨hq.1.1, hq.1.2⟩, ?_⟩)
    | (refine ⟨hq.1, ?_⟩)
    | dsimp only

theorem flowHold_canon {s : State} (a1 : ℕ) (a2 : BitVec 18) (a3 : Option (BitVec 6 × BitVec 12 × BitVec 16))
    (h : Canon s) :
    CanonP (flowHold s a1 a2 a3) := by
  unfold flowHold
  try dsimp only
  repeat' first
    | with_reducible assumption
    | with_reducible apply State.farFlow_canon
    | with_reducible refine CanonF.out (v := State.farFlow _ _ _) ?_ (by assumption)
    | with_reducible apply State.creditFor_canon
    | with_reducible refine canon_pair (x := State.creditFor _ _ _ _ _ _) ?_ (by assumption)
    | with_reducible apply canon_ite
    | with_reducible apply canonO_bind
    | with_reducible apply canonO_foldl
    | with_reducible refine CanonO.out (o := Option.bind _ _) ?_ (by assumption)
    | with_reducible intro u hu
    | exact ⟨hu.1, hu.2⟩
    | with_reducible apply canonP_foldl
    | with_reducible apply canonP_map
    | with_reducible exact canonP_none
    | with_reducible apply canonP_some
    | split
    | exact fun _ k => ⟨k.1, k.2⟩
    | exact fun _ k => k
    | exact ⟨hq.1, hq.2⟩
    | (refine ⟨⟨hq.1.1, hq.1.2⟩, ?_⟩)
    | (refine ⟨hq.1, ?_⟩)

theorem dmaHold_canon {s : State} (a1 : Ctx) (h : Canon s) :
    CanonP (dmaHold s a1) := by
  unfold dmaHold
  try dsimp only
  repeat' first
    | with_reducible assumption
    | with_reducible apply State.memWait_canon
    | with_reducible refine CanonO.out (o := State.memWait _ _ _ _ _ _) ?_ (by assumption)
    | with_reducible apply State.dramFull_canon
    | with_reducible refine CanonO.out (o := State.dramFull _ _ _ _) ?_ (by assumption)
    | with_reducible apply flowHold_canon
    | with_reducible refine CanonP.out (o := flowHold _ _ _ _) ?_ (by assumption)
    | with_reducible apply accessHold_canon
    | with_reducible refine CanonP.out (o := accessHold _ _ _ _) ?_ (by assumption)
    | with_reducible apply canon_ite
    | with_reducible apply canon_foldl
    | with_reducible apply canon_foldl2
    | with_reducible apply canon_getD
    | (with_reducible intro u x hu; try dsimp only)
    | with_reducible refine CanonO.out (o := ite _ _ _) ?_ (by assumption)
    | with_reducible apply canonO_some
    | with_reducible apply canonO_bind
    | with_reducible apply canonO_foldl
    | with_reducible refine CanonO.out (o := Option.bind _ _) ?_ (by assumption)
    | with_reducible intro u hu
    | exact ⟨hu.1, hu.2⟩
    | with_reducible apply canonP_foldl
    | with_reducible apply canonP_map
    | with_reducible exact canonP_none
    | with_reducible apply canonP_some
    | split
    | exact fun _ k => ⟨k.1, k.2⟩
    | exact fun _ k => k
    | exact ⟨hq.1, hq.2⟩
    | (refine ⟨⟨hq.1.1, hq.1.2⟩, ?_⟩)
    | (refine ⟨hq.1, ?_⟩)

theorem State.giveStamp_canon {s : State} (a1 : PtpStamp) (h : Canon s) :
    Canon (State.giveStamp s a1) := by
  unfold State.giveStamp
  try dsimp only
  repeat' first
    | with_reducible assumption
    | with_reducible apply canon_ite
    | split
    | with_reducible refine canon_fab _ ?_ ?_
    | exact fun _ k => ⟨k.1, k.2⟩
    | exact fun _ k => k
    | exact ⟨hq.1, hq.2⟩
    | (refine ⟨⟨hq.1.1, hq.1.2⟩, ?_⟩)
    | (refine ⟨hq.1, ?_⟩)

theorem State.atWire_canon {s : State} (a1 : ℕ) (a2 : TxFrame) (h : Canon s) :
    Canon (State.atWire s a1 a2).2 := by
  unfold State.atWire
  try dsimp only
  repeat' first
    | with_reducible assumption
    | with_reducible apply State.giveStamp_canon
    | with_reducible apply canon_ite
    | with_reducible apply canon_getD
    | split
    | exact fun _ k => ⟨k.1, k.2⟩
    | exact fun _ k => k
    | exact ⟨hq.1, hq.2⟩
    | (refine ⟨⟨hq.1.1, hq.1.2⟩, ?_⟩)
    | (refine ⟨hq.1, ?_⟩)
    | dsimp only

theorem State.flushClass_canon {s : State} (a1 : ℕ) (a2 : ℕ) (h : Canon s) :
    Canon (State.flushClass s a1 a2) := by
  unfold State.flushClass
  try dsimp only
  repeat' first
    | with_reducible assumption
    | with_reducible apply State.atWire_canon
    | with_reducible refine canon_pair (x := State.atWire _ _ _) ?_ (by assumption)
    | with_reducible apply State.onPort_canon
    | with_reducible apply canon_ite
    | with_reducible apply canon_foldl
    | with_reducible apply canon_foldl2
    | (with_reducible intro u x hu; try dsimp only)
    | split
    | exact fun _ k => ⟨k.1, k.2⟩
    | exact fun _ k => k
    | exact ⟨hq.1, hq.2⟩
    | exact fun _ k => ⟨k.1, k.2.1, (by dsimp only; exact Tbl.mapv_wf _ _ _ k.2.2.1), k.2.2.2⟩
    | exact fun _ k => ⟨k.1, k.2.1, k.2.2.1, (by dsimp only; exact Tbl.mapv_wf _ _ _ k.2.2.2)⟩
    | exact fun _ k => ⟨(by dsimp only; exact Tbl.mapv_wf _ _ _ k.1), k.2⟩
    | exact fun _ k => ⟨k.1, (by dsimp only; exact Tbl.mapv_wf _ _ _ k.2)⟩
    | exact ⟨hq.1, hq.2.1, hq.2.2.1, (by dsimp only; exact Tbl.set_wf _ _ _ _ hq.2.2.2.1), hq.2.2.2.2⟩
    | exact ⟨hq.1, hq.2.1, (by dsimp only; exact Tbl.set_wf _ _ _ _ hq.2.2.1), hq.2.2.2⟩
    | exact ⟨(by dsimp only; exact Tbl.mapv_wf _ _ _ hq.1), hq.2⟩
    | exact fun k => cores_mapv_canon _ (fun c k => Core.halt_canon k) k
    | exact fun k => (by dsimp only; exact Tbl.mapv_wf _ _ _ k.2.2.1)
    | exact fun k => (by dsimp only; exact Tbl.mapv_wf _ _ _ k.2.2.2.1)
    | exact fun _ k => (by dsimp only; exact Tbl.mapv_wf _ _ _ k)
    | (refine ⟨⟨hq.1.1, hq.1.2⟩, ?_⟩)
    | (refine ⟨hq.1, ?_⟩)

theorem execPfcFrameRx_canon {s : State} (a0 : Fin 96) (a1 : List (BitVec 16)) (a2 : BitVec 8) (h : Canon s) :
    CanonR (execPfcFrameRx a0 a1 a2 s) := by
  unfold execPfcFrameRx
  try dsimp only
  repeat' first
    | with_reducible assumption
    | with_reducible apply State.goOutAll_canon
    | with_reducible apply State.flushClass_canon
    | with_reducible apply State.onPort_canon
    | with_reducible apply canon_ite
    | with_reducible apply canon_foldl
    | with_reducible apply canon_foldl2
    | with_reducible apply canon_getD
    | (with_reducible intro u x hu; try dsimp only)
    | with_reducible apply canonR_ite
    | with_reducible apply canonR_next
    | split
    | exact fun _ k => ⟨k.1, k.2⟩
    | exact fun _ k => k
    | exact ⟨hq.1, hq.2⟩
    | exact fun _ k => ⟨k.1, k.2.1, (by dsimp only; exact Tbl.mapv_wf _ _ _ k.2.2.1), k.2.2.2⟩
    | exact fun _ k => ⟨k.1, k.2.1, k.2.2.1, (by dsimp only; exact Tbl.mapv_wf _ _ _ k.2.2.2)⟩
    | exact fun _ k => ⟨(by dsimp only; exact Tbl.mapv_wf _ _ _ k.1), k.2⟩
    | exact fun _ k => ⟨k.1, (by dsimp only; exact Tbl.mapv_wf _ _ _ k.2)⟩
    | exact ⟨hq.1, hq.2.1, hq.2.2.1, (by dsimp only; exact Tbl.set_wf _ _ _ _ hq.2.2.2.1), hq.2.2.2.2⟩
    | exact ⟨hq.1, hq.2.1, (by dsimp only; exact Tbl.set_wf _ _ _ _ hq.2.2.1), hq.2.2.2⟩
    | exact ⟨(by dsimp only; exact Tbl.mapv_wf _ _ _ hq.1), hq.2⟩
    | exact fun k => cores_mapv_canon _ (fun c k => Core.halt_canon k) k
    | exact fun k => (by dsimp only; exact Tbl.mapv_wf _ _ _ k.2.2.1)
    | exact fun k => (by dsimp only; exact Tbl.mapv_wf _ _ _ k.2.2.2.1)
    | exact fun _ k => (by dsimp only; exact Tbl.mapv_wf _ _ _ k)
    | (refine ⟨⟨hq.1.1, hq.1.2⟩, ?_⟩)
    | (refine ⟨hq.1, ?_⟩)

theorem State.collArrive_canon {s : State} (a1 : BitVec 20) (a2 : ℕ) (a3 : BitVec 32) (h : Canon s) :
    CanonO (State.collArrive s a1 a2 a3) := by
  unfold State.collArrive
  try dsimp only
  repeat' first
    | with_reducible assumption
    | with_reducible apply State.onColl_canon
    | with_reducible apply State.collPump_canon
    | with_reducible apply canon_ite
    | with_reducible apply canonO_bind
    | with_reducible apply canonO_foldl
    | with_reducible refine CanonO.out (o := Option.bind _ _) ?_ (by assumption)
    | with_reducible intro u hu
    | exact ⟨hu.1, hu.2⟩
    | with_reducible exact canonO_none
    | with_reducible apply canonO_some
    | split
    | exact fun _ k => ⟨k.1, k.2⟩
    | exact fun _ k => k
    | exact ⟨hq.1, hq.2⟩
    | (refine ⟨⟨hq.1.1, hq.1.2⟩, ?_⟩)
    | (refine ⟨hq.1, ?_⟩)

theorem execBarArrive_canon {s : State} (a0 : Fin 64) (h : Canon s) :
    CanonR (execBarArrive a0 s) := by
  unfold execBarArrive
  try dsimp only
  repeat' first
    | with_reducible assumption
    | with_reducible apply State.retireFront_canon
    | with_reducible apply State.collArrive_canon
    | with_reducible refine CanonO.out (o := State.collArrive _ _ _ _) ?_ (by assumption)
    | with_reducible apply runCmd_canon
    | with_reducible apply canon_ite
    | with_reducible apply canon_getD
    | (with_reducible intro u x hu; try dsimp only)
    | with_reducible apply canonR_ite
    | with_reducible apply canonR_next
    | with_reducible refine CanonO.out (o := ite _ _ _) ?_ (by assumption)
    | with_reducible apply canonO_some
    | split
    | with_reducible exact canonP_none
    | with_reducible apply canonP_some
    | with_reducible intro u x hu
    | (with_reducible intro x u hu; try dsimp only)
    | exact fun _ k => ⟨k.1, k.2⟩
    | exact fun _ k => k
    | exact ⟨hq.1, hq.2⟩
    | (refine ⟨⟨hq.1.1, hq.1.2⟩, ?_⟩)
    | (refine ⟨hq.1, ?_⟩)
    | (unfold barArriveRow; try dsimp only)

theorem State.goDark_canon {s : State} (a1 : ℕ) (h : Canon s) :
    Canon (State.goDark s a1) := by
  unfold State.goDark
  try dsimp only
  repeat' first
    | with_reducible assumption
    | with_reducible apply State.onDom_canon
    | with_reducible apply canon_ite
    | split
    | exact fun _ k => ⟨k.1, k.2⟩
    | exact fun _ k => k
    | exact ⟨hq.1, hq.2⟩
    | (refine ⟨⟨hq.1.1, hq.1.2⟩, ?_⟩)
    | (refine ⟨hq.1, ?_⟩)

theorem State.noteSpare_canon {s : State} (a1 : ℕ) (h : Canon s) :
    Canon (State.noteSpare s a1) := by
  unfold State.noteSpare
  try dsimp only
  repeat' first
    | with_reducible assumption
    | with_reducible apply canon_ite
    | split
    | with_reducible refine canon_flash _ ?_
    | exact fun _ k => ⟨k.1, k.2⟩
    | exact fun _ k => k
    | exact ⟨hq.1, hq.2⟩
    | exact fun _ k => ⟨k.1, k.2.1, (by dsimp only; exact Tbl.mapv_wf _ _ _ k.2.2.1), k.2.2.2⟩
    | exact fun _ k => ⟨k.1, k.2.1, k.2.2.1, (by dsimp only; exact Tbl.mapv_wf _ _ _ k.2.2.2)⟩
    | exact fun _ k => ⟨(by dsimp only; exact Tbl.mapv_wf _ _ _ k.1), k.2⟩
    | exact fun _ k => ⟨k.1, (by dsimp only; exact Tbl.mapv_wf _ _ _ k.2)⟩
    | exact ⟨hq.1, hq.2.1, hq.2.2.1, (by dsimp only; exact Tbl.set_wf _ _ _ _ hq.2.2.2.1), hq.2.2.2.2⟩
    | exact ⟨hq.1, hq.2.1, (by dsimp only; exact Tbl.set_wf _ _ _ _ hq.2.2.1), hq.2.2.2⟩
    | exact ⟨(by dsimp only; exact Tbl.mapv_wf _ _ _ hq.1), hq.2⟩
    | exact fun k => cores_mapv_canon _ (fun c k => Core.halt_canon k) k
    | exact fun k => (by dsimp only; exact Tbl.mapv_wf _ _ _ k.2.2.1)
    | exact fun k => (by dsimp only; exact Tbl.mapv_wf _ _ _ k.2.2.2.1)
    | exact fun _ k => (by dsimp only; exact Tbl.mapv_wf _ _ _ k)
    | (refine ⟨⟨hq.1.1, hq.1.2⟩, ?_⟩)
    | (refine ⟨hq.1, ?_⟩)

theorem State.applySteer_canon {s : State} (a1 : Stage5) (h : Canon s) :
    Canon (State.applySteer s a1) := by
  unfold State.applySteer
  try dsimp only
  repeat' first
    | with_reducible assumption
    | with_reducible apply State.fieldFail_canon
    | with_reducible apply canon_ite
    | with_reducible apply canon_foldl
    | with_reducible apply canon_foldl2
    | (with_reducible intro u x hu; try dsimp only)
    | split
    | with_reducible refine canon_mgmt _ ?_
    | exact fun _ k => ⟨k.1, k.2⟩
    | exact fun _ k => k
    | exact ⟨hq.1, hq.2⟩
    | exact fun _ k => ⟨k.1, k.2.1, (by dsimp only; exact Tbl.mapv_wf _ _ _ k.2.2.1), k.2.2.2⟩
    | exact fun _ k => ⟨k.1, k.2.1, k.2.2.1, (by dsimp only; exact Tbl.mapv_wf _ _ _ k.2.2.2)⟩
    | exact fun _ k => ⟨(by dsimp only; exact Tbl.mapv_wf _ _ _ k.1), k.2⟩
    | exact fun _ k => ⟨k.1, (by dsimp only; exact Tbl.mapv_wf _ _ _ k.2)⟩
    | exact ⟨hq.1, hq.2.1, hq.2.2.1, (by dsimp only; exact Tbl.set_wf _ _ _ _ hq.2.2.2.1), hq.2.2.2.2⟩
    | exact ⟨hq.1, hq.2.1, (by dsimp only; exact Tbl.set_wf _ _ _ _ hq.2.2.1), hq.2.2.2⟩
    | exact ⟨(by dsimp only; exact Tbl.mapv_wf _ _ _ hq.1), hq.2⟩
    | exact fun k => cores_mapv_canon _ (fun c k => Core.halt_canon k) k
    | exact fun k => (by dsimp only; exact Tbl.mapv_wf _ _ _ k.2.2.1)
    | exact fun k => (by dsimp only; exact Tbl.mapv_wf _ _ _ k.2.2.2.1)
    | exact fun _ k => (by dsimp only; exact Tbl.mapv_wf _ _ _ k)
    | (refine ⟨⟨hq.1.1, hq.1.2⟩, ?_⟩)
    | (refine ⟨hq.1, ?_⟩)

theorem State.switchOn_canon {s : State} (a1 : ℕ) (h : Canon s) :
    Canon (State.switchOn s a1) := by
  unfold State.switchOn
  try dsimp only
  repeat' first
    | with_reducible assumption
    | with_reducible apply State.onDom_canon
    | with_reducible apply canon_ite
    | split
    | exact fun _ k => ⟨k.1, k.2⟩
    | exact fun _ k => k
    | exact ⟨hq.1, hq.2⟩
    | (refine ⟨⟨hq.1.1, hq.1.2⟩, ?_⟩)
    | (refine ⟨hq.1, ?_⟩)

theorem newCore_canon (p : BitVec 7) (m : BitVec 2) : ({ phys := p, mapState := m } : Core).Canon :=
  ⟨⟨rfl, rfl, rfl, rfl, fun _ k => nomatch k⟩, rfl, rfl, rfl, rfl, rfl, rfl, rfl, rfl⟩

theorem State.loadMap_canon {s : State} (a1 : ℕ) (h : Canon s) : Canon (State.loadMap s a1) := by
  unfold State.loadMap
  split
  · exact State.setCore_canon _ _ h (newCore_canon _ _)
  · exact canon_ite (State.onCore_canon _ _ h fun _ k => ⟨k.1, k.2⟩) (State.setCore_canon _ _ h (newCore_canon _ _))

theorem execStartStage5_canon {s : State} (a0 : Stage5) (a1 : ℕ) (h : Canon s) :
    CanonR (execStartStage5 a0 a1 s) := by
  unfold execStartStage5
  try dsimp only
  repeat' first
    | with_reducible assumption
    | with_reducible apply State.goDark_canon
    | with_reducible apply State.noteSpare_canon
    | with_reducible apply State.applySteer_canon
    | with_reducible apply State.fieldFail_canon
    | with_reducible apply State.at_canon
    | with_reducible apply State.switchOn_canon
    | with_reducible apply State.failStart_canon
    | with_reducible apply State.loadMap_canon
    | with_reducible apply canon_ite
    | with_reducible apply canon_foldl
    | with_reducible apply canon_foldl2
    | (with_reducible intro u x hu; try dsimp only)
    | with_reducible apply canonR_ite
    | with_reducible apply canonR_next
    | split
    | with_reducible refine canon_flash_mgmt _ _ ?_
    | exact fun _ k => ⟨k.1, k.2⟩
    | exact fun _ k => k
    | exact ⟨hq.1, hq.2⟩
    | (refine ⟨⟨hq.1.1, hq.1.2⟩, ?_⟩)
    | (refine ⟨hq.1, ?_⟩)

theorem State.beginArray_canon {s : State} (a1 : Ctx) (a2 : ℕ) (a3 : Bool) (h : Canon s) :
    Canon (State.beginArray s a1 a2 a3) := by
  unfold State.beginArray
  try dsimp only
  repeat' first
    | with_reducible assumption
    | with_reducible apply State.onEng_canon
    | with_reducible apply State.popInputs_canon
    | with_reducible apply Sequencer.onEng_canon
    | with_reducible apply canon_ite
    | split
    | exact fun _ k => ⟨k.1, k.2⟩
    | exact fun _ k => k
    | exact ⟨hq.1, hq.2⟩
    | (refine ⟨⟨hq.1.1, hq.1.2⟩, ?_⟩)
    | (refine ⟨hq.1, ?_⟩)

theorem State.bellows_canon {s : State} (a1 : ℕ) (a2 : Arr) (h : Canon s) :
    Canon (State.bellows s a1 a2) := by
  unfold State.bellows
  try dsimp only
  repeat' first
    | with_reducible assumption
    | with_reducible apply State.onArray_canon
    | with_reducible apply Core.onArray_canon
    | with_reducible apply canon_ite
    | split
    | exact fun _ k => ⟨k.1, k.2⟩
    | exact fun _ k => k
    | exact ⟨hq.1, hq.2⟩
    | (refine ⟨⟨hq.1.1, hq.1.2⟩, ?_⟩)
    | (refine ⟨hq.1, ?_⟩)

theorem tongsEff_canon {s : State} (a0 : Ctx) (h : Canon s) :
    Canon (tongsEff a0 s) := by
  unfold tongsEff
  try dsimp only
  repeat' first
    | with_reducible assumption
    | with_reducible apply State.onArray_canon
    | with_reducible apply State.beginArray_canon
    | with_reducible apply State.bellows_canon
    | with_reducible apply State.onSeq_canon
    | with_reducible apply Core.onArray_canon
    | with_reducible apply canon_ite
    | with_reducible apply canon_getD
    | (with_reducible intro q hq; try dsimp only)
    | split
    | exact fun _ k => ⟨k.1, k.2⟩
    | exact fun _ k => k
    | exact ⟨hq.1, hq.2⟩
    | (refine ⟨⟨hq.1.1, hq.1.2⟩, ?_⟩)
    | (refine ⟨hq.1, ?_⟩)

theorem execVxLog_canon {s : State} (a0 : Fin 64) (h : Canon s) :
    CanonR (execVxLog a0 s) := by
  unfold execVxLog
  try dsimp only
  repeat' first
    | with_reducible assumption
    | with_reducible apply vxElementwise_canon
    | with_reducible apply runCmd_canon
    | with_reducible apply tileHold_canon
    | with_reducible refine CanonP.out (o := tileHold _ _ _) ?_ (by assumption)
    | with_reducible apply canon_ite
    | (with_reducible intro u x hu; try dsimp only)
    | with_reducible apply canonR_ite
    | with_reducible apply canonR_next
    | split
    | with_reducible exact canonP_none
    | with_reducible apply canonP_some
    | with_reducible intro u x hu
    | (with_reducible intro x u hu; try dsimp only)
    | exact fun _ k => ⟨k.1, k.2⟩
    | exact fun _ k => k
    | exact ⟨hq.1, hq.2⟩
    | (refine ⟨⟨hq.1.1, hq.1.2⟩, ?_⟩)
    | (refine ⟨hq.1, ?_⟩)
    | (unfold vxRow; try dsimp only)

theorem State.clearArray_canon {s : State} (a1 : ℕ) (a2 : Arr) (a3 : ℕ → Bool) (h : Canon s) :
    Canon (State.clearArray s a1 a2 a3) := by
  unfold State.clearArray
  try dsimp only
  repeat' first
    | with_reducible assumption
    | with_reducible apply State.onArray_canon
    | with_reducible apply State.onSeq_canon
    | with_reducible apply Core.onArray_canon
    | with_reducible apply canon_ite
    | (with_reducible intro q hq; try dsimp only)
    | split
    | exact fun _ k => ⟨k.1, k.2⟩
    | exact fun _ k => k
    | exact ⟨hq.1, hq.2⟩
    | (refine ⟨⟨hq.1.1, hq.1.2⟩, ?_⟩)
    | (refine ⟨hq.1, ?_⟩)

theorem State.dropArray_canon {s : State} (a1 : ℕ) (a2 : Arr) (a3 : ℕ) (h : Canon s) :
    Canon (State.dropArray s a1 a2 a3) := by
  unfold State.dropArray
  try dsimp only
  repeat' first
    | with_reducible assumption
    | with_reducible apply State.onEng_canon
    | with_reducible apply State.returnOuts_canon
    | with_reducible apply State.clearArray_canon
    | with_reducible apply Sequencer.onEng_canon
    | with_reducible apply canon_ite
    | split
    | exact fun _ k => ⟨k.1, k.2⟩
    | exact fun _ k => k
    | exact ⟨hq.1, hq.2⟩
    | (refine ⟨⟨hq.1.1, hq.1.2⟩, ?_⟩)
    | (refine ⟨hq.1, ?_⟩)

theorem State.dropBegun_canon {s : State} (a1 : ℕ) (a2 : Arr) (a3 : ℕ) (h : Canon s) :
    Canon (State.dropBegun s a1 a2 a3) := by
  unfold State.dropBegun
  try dsimp only
  repeat' first
    | with_reducible assumption
    | with_reducible apply State.dropArray_canon
    | with_reducible apply canon_ite
    | split
    | exact fun _ k => ⟨k.1, k.2⟩
    | exact fun _ k => k
    | exact ⟨hq.1, hq.2⟩
    | (refine ⟨⟨hq.1.1, hq.1.2⟩, ?_⟩)
    | (refine ⟨hq.1, ?_⟩)

theorem execErrlogFetchDone_canon {s : State} (h : Canon s) :
    CanonR (execErrlogFetchDone s) := by
  unfold execErrlogFetchDone
  try dsimp only
  repeat' first
    | with_reducible assumption
    | with_reducible apply canon_ite
    | with_reducible apply canonR_ite
    | with_reducible apply canonR_next
    | split
    | with_reducible refine canon_mgmt _ ?_
    | exact fun _ k => ⟨k.1, k.2⟩
    | exact fun _ k => k
    | exact ⟨hq.1, hq.2⟩
    | (refine ⟨⟨hq.1.1, hq.1.2⟩, ?_⟩)
    | (refine ⟨hq.1, ?_⟩)

theorem State.endGroups_canon {s : State} (a1 : ℕ) (h : Canon s) :
    Canon (State.endGroups s a1) := by
  unfold State.endGroups
  try dsimp only
  repeat' first
    | with_reducible assumption
    | with_reducible apply State.abortGroup_canon
    | with_reducible apply canon_ite
    | with_reducible apply canon_foldl
    | with_reducible apply canon_foldl2
    | (with_reducible intro u x hu; try dsimp only)
    | split
    | exact fun _ k => ⟨k.1, k.2⟩
    | exact fun _ k => k
    | exact ⟨hq.1, hq.2⟩
    | (refine ⟨⟨hq.1.1, hq.1.2⟩, ?_⟩)
    | (refine ⟨hq.1, ?_⟩)

theorem State.endChains_canon {s : State} (a1 : ℕ) (h : Canon s) :
    Canon (State.endChains s a1) := by
  unfold State.endChains
  try dsimp only
  repeat' first
    | with_reducible assumption
    | with_reducible apply State.onEng_canon
    | with_reducible apply State.strikeChain_canon
    | with_reducible apply Sequencer.onEng_canon
    | with_reducible apply canon_ite
    | split
    | exact fun _ k => ⟨k.1, k.2⟩
    | exact fun _ k => k
    | exact ⟨hq.1, hq.2⟩
    | (refine ⟨⟨hq.1.1, hq.1.2⟩, ?_⟩)
    | (refine ⟨hq.1, ?_⟩)

theorem State.endTask_canon {s : State} (a1 : ℕ) (a2 : Task) (h : Canon s) :
    Canon (State.endTask s a1 a2) := by
  unfold State.endTask
  try dsimp only
  repeat' first
    | with_reducible assumption
    | with_reducible apply State.endWindows_canon
    | with_reducible apply State.settlePreempt_canon
    | with_reducible apply State.endGroups_canon
    | with_reducible apply State.stopJob_canon
    | with_reducible apply State.writeMem_canon
    | with_reducible apply State.onCore_canon
    | with_reducible apply State.endChains_canon
    | with_reducible apply State.onJob_canon
    | with_reducible apply Core.vacate_canon
    | with_reducible apply canon_ite
    | (with_reducible intro q hq; try dsimp only)
    | split
    | exact fun _ k => ⟨k.1, k.2⟩
    | exact fun _ k => k
    | exact ⟨hq.1, hq.2⟩
    | (refine ⟨⟨hq.1.1, hq.1.2⟩, ?_⟩)
    | (refine ⟨hq.1, ?_⟩)

theorem State.coreLost_canon {s : State} (a1 : ℕ) (h : Canon s) : Canon (State.coreLost s a1) := by
  unfold State.coreLost
  split
  · exact State.fieldFail_canon _ _ _ _ h
  · rename_i lc _
    extract_lets s1 s2 s3
    have k1 : Canon s1 := State.onSeq_canon _ _ h fun _ k => ⟨k.1, k.2⟩
    clear_value s1
    have k2 : Canon s2 := by
      simp only [s2]
      split
      · exact k1
      · exact State.endTask_canon _ _ k1
    clear_value s2
    exact State.fieldFail_canon _ _ _ _
      (State.onCore_canon _ _ k2 fun _ k => ⟨k.1, rfl, rfl, rfl, rfl, rfl, rfl, rfl, rfl⟩)

theorem State.darken_canon {s : State} (a1 : ℕ) (h : Canon s) :
    Canon (State.darken s a1) := by
  unfold State.darken
  try dsimp only
  repeat' first
    | with_reducible assumption
    | with_reducible apply State.coreLost_canon
    | with_reducible apply State.goDark_canon
    | with_reducible apply canon_ite
    | split
    | exact fun _ k => ⟨k.1, k.2⟩
    | exact fun _ k => k
    | exact ⟨hq.1, hq.2⟩
    | (refine ⟨⟨hq.1.1, hq.1.2⟩, ?_⟩)
    | (refine ⟨hq.1, ?_⟩)

theorem execDomainShort_canon {s : State} (a0 : Fin 89) (a1 : ℕ) (h : Canon s) :
    CanonR (execDomainShort a0 a1 s) := by
  unfold execDomainShort
  try dsimp only
  repeat' first
    | with_reducible assumption
    | with_reducible apply State.deviceFault_canon
    | with_reducible apply State.onDom_canon
    | with_reducible apply State.at_canon
    | with_reducible apply State.darken_canon
    | with_reducible apply canon_ite
    | with_reducible apply canonR_ite
    | with_reducible apply canonR_next
    | split
    | exact fun _ k => ⟨k.1, k.2⟩
    | exact fun _ k => k
    | exact ⟨hq.1, hq.2⟩
    | (refine ⟨⟨hq.1.1, hq.1.2⟩, ?_⟩)
    | (refine ⟨hq.1, ?_⟩)

theorem execCodeSwap_canon {s : State} (a0 : Fin 64) (a1 : Eng) (h : Canon s) :
    CanonR (execCodeSwap a0 a1 s) := by
  unfold execCodeSwap
  try dsimp only
  repeat' first
    | with_reducible assumption
    | with_reducible apply State.onEng_canon
    | with_reducible apply State.retireFront_canon
    | with_reducible apply runCmd_canon
    | with_reducible apply State.failStream_canon
    | with_reducible apply Sequencer.failStream_canon
    | with_reducible apply Sequencer.onEng_canon
    | with_reducible apply canon_ite
    | (with_reducible intro u x hu; try dsimp only)
    | with_reducible apply canonR_ite
    | with_reducible apply canonR_next
    | split
    | with_reducible exact canonP_none
    | with_reducible apply canonP_some
    | with_reducible intro u x hu
    | (with_reducible intro x u hu; try dsimp only)
    | exact fun _ k => ⟨k.1, k.2⟩
    | exact fun _ k => k
    | exact ⟨hq.1, hq.2⟩
    | (refine ⟨⟨hq.1.1, hq.1.2⟩, ?_⟩)
    | (refine ⟨hq.1, ?_⟩)
    | (unfold codeSwapRow; try dsimp only)

theorem execStepPolicy_canon {s : State} (a0 : Fin 72) (a1 : ℕ) (h : Canon s) :
    CanonR (execStepPolicy a0 a1 s) := by
  unfold execStepPolicy
  try dsimp only
  repeat' first
    | with_reducible assumption
    | with_reducible apply State.requestStep_canon
    | with_reducible apply State.onDom_canon
    | with_reducible apply State.at_canon
    | with_reducible apply canon_ite
    | with_reducible apply canonR_ite
    | with_reducible apply canonR_next
    | split
    | exact fun _ k => ⟨k.1, k.2⟩
    | exact fun _ k => k
    | exact ⟨hq.1, hq.2⟩
    | (refine ⟨⟨hq.1.1, hq.1.2⟩, ?_⟩)
    | (refine ⟨hq.1, ?_⟩)

theorem State.openHandle_canon {s : State} (a1 : PktHdr) (a2 : BitVec 12) (h : Canon s) :
    CanonO (State.openHandle s a1 a2) := by
  unfold State.openHandle
  try dsimp only
  repeat' first
    | with_reducible assumption
    | with_reducible apply canon_ite
    | with_reducible apply canonO_bind
    | with_reducible apply canonO_foldl
    | with_reducible refine CanonO.out (o := Option.bind _ _) ?_ (by assumption)
    | with_reducible intro u hu
    | exact ⟨hu.1, hu.2⟩
    | with_reducible exact canonO_none
    | with_reducible apply canonO_some
    | split
    | with_reducible refine canon_fab _ ?_ ?_
    | exact fun _ k => ⟨k.1, k.2⟩
    | exact fun _ k => k
    | exact ⟨hq.1, hq.2⟩
    | (refine ⟨⟨hq.1.1, hq.1.2⟩, ?_⟩)
    | (refine ⟨hq.1, ?_⟩)

theorem State.placeDram_canon {s : State} (a1 : PktHdr) (a2 : DramHdr) (a3 : List Byte) (a4 : Bool) (h : Canon s) :
    Canon (State.placeDram s a1 a2 a3 a4).2 := by
  unfold State.placeDram
  try dsimp only
  repeat' first
    | with_reducible assumption
    | with_reducible apply State.openHandle_canon
    | with_reducible refine CanonO.out (o := State.openHandle _ _ _) ?_ (by assumption)
    | with_reducible apply State.addMem_canon
    | with_reducible apply State.memWait_canon
    | with_reducible refine CanonO.out (o := State.memWait _ _ _ _ _ _) ?_ (by assumption)
    | with_reducible apply State.shadowAll_canon
    | with_reducible refine CanonO.out (o := State.shadowAll _ _ _) ?_ (by assumption)
    | with_reducible apply State.writeMem_canon
    | with_reducible apply canon_ite
    | with_reducible apply canon_foldl
    | with_reducible apply canon_foldl2
    | (with_reducible intro u x hu; try dsimp only)
    | with_reducible refine CanonO.out (o := ite _ _ _) ?_ (by assumption)
    | with_reducible apply canonO_some
    | with_reducible apply canonO_bind
    | with_reducible apply canonO_foldl
    | with_reducible refine CanonO.out (o := Option.bind _ _) ?_ (by assumption)
    | with_reducible intro u hu
    | exact ⟨hu.1, hu.2⟩
    | split
    | exact fun _ k => ⟨k.1, k.2⟩
    | exact fun _ k => k
    | exact ⟨hq.1, hq.2⟩
    | (refine ⟨⟨hq.1.1, hq.1.2⟩, ?_⟩)
    | (refine ⟨hq.1, ?_⟩)
    | dsimp only

theorem State.receiveData_canon {s : State} (a1 : PktHdr) (a2 : State → Option (BitVec 8) × State) (h : Canon s)
    (hf : ∀ u, Canon u → Canon (a2 u).2) : Canon (State.receiveData s a1 a2) := by
  unfold State.receiveData
  split
  · refine CanonV.settledOut (v := State.verdict s a1 true) ?_ (by assumption)
    exact State.verdict_canon _ _ h
  · have hv := CanonV.freshOut (v := State.verdict s a1 true) (State.verdict_canon _ _ h) (by assumption)
    split
    · exact canon_pair (hf _ hv) (by assumption)
    · exact State.afterArrival_canon _ (State.recordArrival_canon _ _ (canon_pair (hf _ hv) (by assumption)))

theorem execAddDram_canon {s : State} (a0 : PktHdr) (a1 : DramHdr) (a2 : List Byte) (h : Canon s) :
    CanonR (execAddDram a0 a1 a2 s) := by
  unfold execAddDram
  try dsimp only
  repeat' first
    | with_reducible assumption
    | with_reducible apply State.placeDram_canon
    | with_reducible refine canon_pair (x := State.placeDram _ _ _ _ _) ?_ (by assumption)
    | with_reducible apply State.receiveData_canon
    | with_reducible apply canon_ite
    | (with_reducible intro u hu; try dsimp only)
    | with_reducible apply canonR_ite
    | with_reducible apply canonR_next
    | split
    | exact fun _ k => ⟨k.1, k.2⟩
    | exact fun _ k => k
    | exact ⟨hq.1, hq.2⟩
    | (refine ⟨⟨hq.1.1, hq.1.2⟩, ?_⟩)
    | (refine ⟨hq.1, ?_⟩)

theorem State.sourceBytes_canon {s : State} (a1 : ℕ) (a2 : Begun) (h : Canon s) :
    Canon (State.sourceBytes s a1 a2).2 := by
  unfold State.sourceBytes
  try dsimp only
  repeat' first
    | with_reducible assumption
    | with_reducible apply State.setCore_canon
    | with_reducible apply Core.readRaw_canon
    | with_reducible apply canon_ite
    | split
    | exact fun _ k => ⟨k.1, k.2⟩
    | exact fun _ k => k
    | exact ⟨hq.1, hq.2⟩
    | with_reducible apply canon_core
    | exact ⟨⟨rfl, rfl, rfl, rfl, fun _ k => nomatch k⟩, rfl, rfl, rfl⟩
    | (refine ⟨⟨hq.1.1, hq.1.2⟩, ?_⟩)
    | (refine ⟨hq.1, ?_⟩)
    | dsimp only

theorem execStackRailFail_canon {s : State} (a0 : Fin 16) (h : Canon s) :
    CanonR (execStackRailFail a0 s) := by
  unfold execStackRailFail
  try dsimp only
  repeat' first
    | with_reducible assumption
    | with_reducible apply State.onStk_canon
    | with_reducible apply State.fieldFail_canon
    | with_reducible apply canon_ite
    | with_reducible apply canonR_ite
    | with_reducible apply canonR_next
    | split
    | exact fun _ k => ⟨k.1, k.2⟩
    | exact fun _ k => k
    | exact ⟨hq.1, hq.2⟩
    | (refine ⟨⟨hq.1.1, hq.1.2⟩, ?_⟩)
    | (refine ⟨hq.1, ?_⟩)

theorem State.request_canon {s : State} (a1 : HeldReq) (h : Canon s) :
    Canon (State.request s a1) := by
  unfold State.request
  try dsimp only
  repeat' first
    | with_reducible assumption
    | with_reducible apply State.submit_canon
    | with_reducible apply State.capHit_canon
    | with_reducible apply canon_ite
    | split
    | exact fun _ k => ⟨k.1, k.2⟩
    | exact fun _ k => k
    | exact ⟨hq.1, hq.2⟩
    | (refine ⟨⟨hq.1.1, hq.1.2⟩, ?_⟩)
    | (refine ⟨hq.1, ?_⟩)

theorem execXbarWrite_canon {s : State} (a0 : XPort) (a1 : BitVec 40) (a2 : BitVec 256) (a3 : List Byte)
    (a4 : Bool) (a5 : Option GrpKey) (h : Canon s) :
    CanonR (execXbarWrite a0 a1 a2 a3 a4 a5 s) := by
  unfold execXbarWrite
  try dsimp only
  repeat' first
    | with_reducible assumption
    | with_reducible apply State.request_canon
    | with_reducible apply State.retryHeld_canon
    | with_reducible apply Sequencer.write_canon
    | with_reducible apply Scratch.request_canon
    | with_reducible apply canon_ite
    | with_reducible apply canonR_ite
    | with_reducible apply canonR_next
    | split
    | exact fun _ k => ⟨k.1, k.2⟩
    | exact fun _ k => k
    | exact ⟨hq.1, hq.2⟩
    | (refine ⟨⟨hq.1.1, hq.1.2⟩, ?_⟩)
    | (refine ⟨hq.1, ?_⟩)

theorem State.pumpChain_canon {s : State} (a1 : ℕ) (h : Canon s) :
    Canon (State.pumpChain s a1) := by
  unfold State.pumpChain
  try dsimp only
  repeat' first
    | with_reducible assumption
    | with_reducible apply State.chainPart_canon
    | with_reducible refine canon_trip (x := State.chainPart _ _ _ _) ?_ (by assumption)
    | with_reducible apply State.pumpPackets_canon
    | with_reducible apply canon_ite
    | split
    | exact fun _ k => ⟨k.1, k.2⟩
    | exact fun _ k => k
    | exact ⟨hq.1, hq.2⟩
    | (refine ⟨⟨hq.1.1, hq.1.2⟩, ?_⟩)
    | (refine ⟨hq.1, ?_⟩)

theorem State.aptDone_canon {s : State} (lc : Nat) (e : Eng) (b : Begun) (q : AptReq) (lost : Bool) (h : Canon s) :
    Canon (State.aptDone s lc e b q lost) := by
  have k := State.sourceBytes_canon lc b h
  unfold State.aptDone
  dsimp only
  apply State.onBegun_canon
  split
  · exact canon_host _ k fun _ k => ⟨k.1, Mem.writeN_wf _ _ _ k.2.1, k.2.2⟩
  · exact h

theorem State.pumpUnits_canon {s : State} (a1 : ℕ) (a2 : Eng) (a3 : List Piece) (a4 : ℕ) (h : Canon s) :
    Canon (State.pumpUnits s a1 a2 a3 a4) := by
  induction a4 generalizing s a1 a2 a3 with
  | zero =>
    unfold State.pumpUnits
    try dsimp only
    repeat' first
      | with_reducible assumption
      | with_reducible apply State.aptDone_canon
      | with_reducible apply State.onBegun_canon
      | with_reducible apply Sequencer.write_canon
      | with_reducible apply canon_ite
      | split
      | with_reducible refine canon_host _ ?_ ?_
      | exact fun _ k => ⟨k.1, k.2⟩
      | exact fun _ k => k
      | exact ⟨hq.1, hq.2⟩
      | (refine ⟨⟨hq.1.1, hq.1.2⟩, ?_⟩)
      | (refine ⟨hq.1, ?_⟩)
  | succ k ih =>
    unfold State.pumpUnits
    try dsimp only
    repeat' first
      | with_reducible assumption
      | with_reducible apply ih
      | with_reducible apply State.aptDone_canon
      | with_reducible apply State.onBegun_canon
      | with_reducible apply Sequencer.write_canon
      | with_reducible apply canon_ite
      | split
      | with_reducible refine canon_host _ ?_ ?_
      | exact fun _ k => ⟨k.1, k.2⟩
      | exact fun _ k => k
      | exact ⟨hq.1, hq.2⟩
      | (refine ⟨⟨hq.1.1, hq.1.2⟩, ?_⟩)
      | (refine ⟨hq.1, ?_⟩)

end Sys2Proof.Machine
end

