-- ==== Sys2Proof/Laws/Canons5.lean ====
section
/-! SUPPORT. Each operation and meaning, in dependency order (part 6 of 10), keeps the canonical form. -/

namespace Sys2Proof.Machine

theorem State.endApt_canon {s : State} (a1 : ℕ) (a2 : Eng) (h : Canon s) :
    Canon (State.endApt s a1 a2) := by
  unfold State.endApt
  try dsimp only
  repeat' first
    | with_reducible assumption
    | with_reducible apply State.failBegun_canon
    | with_reducible apply State.endXfer_canon
    | with_reducible apply canon_ite
    | split
    | exact fun _ k => ⟨k.1, k.2⟩
    | exact fun _ k => k
    | exact ⟨hq.1, hq.2⟩
    | (refine ⟨⟨hq.1.1, hq.1.2⟩, ?_⟩)
    | (refine ⟨hq.1, ?_⟩)

theorem State.pumpApt_canon {s : State} (a1 : ℕ) (a2 : Eng) (a3 : List Piece) (a4 : ℕ) (h : Canon s) :
    Canon (State.pumpApt s a1 a2 a3 a4) := by
  unfold State.pumpApt
  try dsimp only
  repeat' first
    | with_reducible assumption
    | with_reducible apply State.pumpUnits_canon
    | with_reducible apply State.endApt_canon
    | with_reducible apply canon_ite
    | split
    | exact fun _ k => ⟨k.1, k.2⟩
    | exact fun _ k => k
    | exact ⟨hq.1, hq.2⟩
    | (refine ⟨⟨hq.1.1, hq.1.2⟩, ?_⟩)
    | (refine ⟨hq.1, ?_⟩)

theorem State.askPiece_canon {s : State} (a1 : ℕ) (a2 : Eng) (a3 : ℕ) (a4 : ℕ) (a5 : ℕ) (a6 : ℕ) (h : Canon s) :
    Canon (State.askPiece s a1 a2 a3 a4 a5 a6) := by
  unfold State.askPiece
  try dsimp only
  repeat' first
    | with_reducible assumption
    | with_reducible apply State.onFlow_canon
    | with_reducible apply State.sendCtl_canon
    | with_reducible apply canon_ite
    | split
    | exact fun _ k => ⟨k.1, k.2⟩
    | exact fun _ k => k
    | exact ⟨hq.1, hq.2⟩
    | exact fun _ k => ⟨k.1, k.2.1, (by dsimp only; exact Tbl.mapv_wf _ _ _ k.2.2.1), k.2.2.2⟩
    | exact fun _ k => ⟨k.1, k.2.1, k.2.2.1, (by dsimp only; exact Tbl.mapv_wf _ _ _ k.2.2.2)⟩
    | exact fun _ k => ⟨(by dsimp only; exact Tbl.mapv_wf _ _ _ k.1), k.2⟩
    | exact fun _ k => ⟨k.1, (by dsimp only; exact Tbl.mapv_wf _ _ _ k.2)⟩
    | exact ⟨hq.1, hq.2.1, hq.2.2.1, (by dsimp only; exact Tbl.set_wf _ _ _ _ hq.2.2.2.1), hq.2.2.2.2⟩
    | exact ⟨hq.1, hq.2.1, (by dsimp only; exact Tbl.set_wf _ _ _ _ hq.2.2.1), hq.2.2.2⟩
    | exact ⟨(by dsimp only; exact Tbl.mapv_wf _ _ _ hq.1), hq.2⟩
    | exact fun k => cores_mapv_canon _ (fun c k => Core.halt_canon k) k
    | exact fun k => (by dsimp only; exact Tbl.mapv_wf _ _ _ k.2.2.1)
    | exact fun k => (by dsimp only; exact Tbl.mapv_wf _ _ _ k.2.2.2.1)
    | exact fun _ k => (by dsimp only; exact Tbl.mapv_wf _ _ _ k)
    | (refine ⟨⟨hq.1.1, hq.1.2⟩, ?_⟩)
    | (refine ⟨hq.1, ?_⟩)

theorem State.pumpReads_canon {s : State} (a1 : ℕ) (a2 : Eng) (a3 : List Piece) (a4 : ℕ) (h : Canon s) :
    Canon (State.pumpReads s a1 a2 a3 a4) := by
  induction a4 generalizing s a1 a2 a3 with
  | zero =>
    unfold State.pumpReads
    try dsimp only
    repeat' first
      | with_reducible assumption
      | with_reducible apply State.askPiece_canon
      | with_reducible apply State.onBegun_canon
      | with_reducible apply canon_ite
      | split
      | exact fun _ k => ⟨k.1, k.2⟩
      | exact fun _ k => k
      | exact ⟨hq.1, hq.2⟩
      | (refine ⟨⟨hq.1.1, hq.1.2⟩, ?_⟩)
      | (refine ⟨hq.1, ?_⟩)
  | succ k ih =>
    unfold State.pumpReads
    try dsimp only
    repeat' first
      | with_reducible assumption
      | with_reducible apply ih
      | with_reducible apply State.askPiece_canon
      | with_reducible apply State.onBegun_canon
      | with_reducible apply canon_ite
      | split
      | exact fun _ k => ⟨k.1, k.2⟩
      | exact fun _ k => k
      | exact ⟨hq.1, hq.2⟩
      | (refine ⟨⟨hq.1.1, hq.1.2⟩, ?_⟩)
      | (refine ⟨hq.1, ?_⟩)

theorem State.pumpDma_canon {s : State} (a1 : ℕ) (a2 : Eng) (h : Canon s) :
    Canon (State.pumpDma s a1 a2) := by
  unfold State.pumpDma
  try dsimp only
  repeat' first
    | with_reducible assumption
    | with_reducible apply State.sourceBytes_canon
    | with_reducible refine canon_pair (x := State.sourceBytes _ _ _) ?_ (by assumption)
    | with_reducible apply State.pumpApt_canon
    | with_reducible apply State.pumpReads_canon
    | with_reducible apply State.pumpPackets_canon
    | with_reducible apply Scratch.read_canon
    | with_reducible apply canon_ite
    | split
    | exact fun _ k => ⟨k.1, k.2⟩
    | exact fun _ k => k
    | exact ⟨hq.1, hq.2⟩
    | (refine ⟨⟨hq.1.1, hq.1.2⟩, ?_⟩)
    | (refine ⟨hq.1, ?_⟩)

theorem State.pumpAnswers_canon {s : State} (a1 : ℕ) (a2 : ℕ) (h : Canon s) :
    Canon (State.pumpAnswers s a1 a2) := by
  induction a2 generalizing s a1 with
  | zero =>
    unfold State.pumpAnswers
    try dsimp only
    repeat' first
      | with_reducible assumption
      | with_reducible apply State.sendData_canon
      | with_reducible refine canon_pair (x := State.sendData _ _ _ _) ?_ (by assumption)
      | with_reducible apply State.onFlow_canon
      | with_reducible apply State.readMem_canon
      | with_reducible refine canon_pair (x := State.readMem _ _ _ _) ?_ (by assumption)
      | with_reducible apply canon_ite
      | split
      | exact fun _ k => ⟨k.1, k.2⟩
      | exact fun _ k => k
      | exact ⟨hq.1, hq.2⟩
      | (refine ⟨⟨hq.1.1, hq.1.2⟩, ?_⟩)
      | (refine ⟨hq.1, ?_⟩)
  | succ k ih =>
    unfold State.pumpAnswers
    try dsimp only
    repeat' first
      | with_reducible assumption
      | with_reducible apply ih
      | with_reducible apply State.sendData_canon
      | with_reducible refine canon_pair (x := State.sendData _ _ _ _) ?_ (by assumption)
      | with_reducible apply State.onFlow_canon
      | with_reducible apply State.readMem_canon
      | with_reducible refine canon_pair (x := State.readMem _ _ _ _) ?_ (by assumption)
      | with_reducible apply canon_ite
      | split
      | exact fun _ k => ⟨k.1, k.2⟩
      | exact fun _ k => k
      | exact ⟨hq.1, hq.2⟩
      | (refine ⟨⟨hq.1.1, hq.1.2⟩, ?_⟩)
      | (refine ⟨hq.1, ?_⟩)

theorem State.tryClose_canon {s : State} (a1 : ℕ) (h : Canon s) :
    Canon (State.tryClose s a1) := by
  unfold State.tryClose
  try dsimp only
  repeat' first
    | with_reducible assumption
    | with_reducible apply State.onFlow_canon
    | with_reducible apply State.leaveOpen_canon
    | with_reducible apply State.sendCtl_canon
    | with_reducible apply canon_ite
    | split
    | exact fun _ k => ⟨k.1, k.2⟩
    | exact fun _ k => k
    | exact ⟨hq.1, hq.2⟩
    | (refine ⟨⟨hq.1.1, hq.1.2⟩, ?_⟩)
    | (refine ⟨hq.1, ?_⟩)

theorem State.pumpFlow_canon {s : State} (a1 : ℕ) (h : Canon s) :
    Canon (State.pumpFlow s a1) := by
  unfold State.pumpFlow
  try dsimp only
  repeat' first
    | with_reducible assumption
    | with_reducible apply State.pumpChain_canon
    | with_reducible apply State.pumpDma_canon
    | with_reducible apply State.pumpAnswers_canon
    | with_reducible apply State.goOut_canon
    | with_reducible apply State.tryClose_canon
    | with_reducible apply canon_ite
    | with_reducible apply canon_foldl
    | with_reducible apply canon_foldl2
    | (with_reducible intro u x hu; try dsimp only)
    | split
    | exact fun _ k => ⟨k.1, k.2⟩
    | exact fun _ k => k
    | exact ⟨hq.1, hq.2⟩
    | (refine ⟨⟨hq.1.1, hq.1.2⟩, ?_⟩)
    | (refine ⟨hq.1, ?_⟩)

theorem State.runLoad_canon {s : State} (a1 : List TaskRec) (a2 : LoadRec) (h : Canon s) :
    Canon (State.runLoad s a1 a2) := by
  unfold State.runLoad
  try dsimp only
  repeat' first
    | with_reducible assumption
    | with_reducible apply State.onScp_canon
    | with_reducible apply State.readMem_canon
    | with_reducible refine canon_pair (x := State.readMem _ _ _ _) ?_ (by assumption)
    | with_reducible apply Scratch.writeRun_canon
    | with_reducible apply canon_ite
    | with_reducible apply canon_getD
    | (with_reducible intro q hq; try dsimp only)
    | split
    | exact fun _ k => ⟨k.1, k.2⟩
    | exact fun _ k => k
    | exact ⟨hq.1, hq.2⟩
    | (refine ⟨⟨hq.1.1, hq.1.2⟩, ?_⟩)
    | (refine ⟨hq.1, ?_⟩)

theorem execClockStretch_canon {s : State} (a0 : Fin 72) (a1 a2 : ℕ) (h : Canon s) :
    CanonR (execClockStretch a0 a1 a2 s) := by
  unfold execClockStretch
  extract_lets s1 now s2
  have k1 : Canon s1 := State.at_canon _ h
  clear_value s1
  refine canonR_ite (canonR_next k1) ?_
  have k2 : Canon s2 := State.onDom_canon _ _ k1
  clear_value s2
  split
  · exact canonR_next k2
  · exact canonR_next (State.onSeq_canon _ _ k2 fun q hq => foldl_keeps _ _ hq fun q e k => by
      split
      · exact Sequencer.stall_canon _ _ k
      · exact k)

theorem openWindow_canon {s : State} (a0 : Ctx) (h : Canon s) :
    Canon (openWindow a0 s) := by
  unfold openWindow
  try dsimp only
  repeat' first
    | with_reducible assumption
    | with_reducible apply State.retireFront_canon
    | with_reducible apply State.onSeq_canon
    | with_reducible apply Sequencer.onQueue_canon
    | with_reducible apply Sequencer.onWin_canon
    | with_reducible apply canon_ite
    | with_reducible apply canon_getD
    | (with_reducible intro q hq; try dsimp only)
    | split
    | exact fun _ k => ⟨k.1, k.2⟩
    | exact fun _ k => k
    | exact ⟨hq.1, hq.2⟩
    | (refine ⟨⟨hq.1.1, hq.1.2⟩, ?_⟩)
    | (refine ⟨hq.1, ?_⟩)

theorem execWinOpen_canon {s : State} (a0 : Fin 64) (h : Canon s) :
    CanonR (execWinOpen a0 s) := by
  unfold execWinOpen
  try dsimp only
  repeat' first
    | with_reducible assumption
    | with_reducible apply runCmd_canon
    | with_reducible apply openWindow_canon
    | with_reducible apply canon_ite
    | (with_reducible intro u x hu; try dsimp only)
    | with_reducible apply canonR_ite
    | with_reducible apply canonR_next
    | split
    | with_reducible exact canonP_none
    | with_reducible apply canonP_some
    | with_reducible intro u x hu
    | (with_reducible intro x u hu; try dsimp only)
    | exact fun _ k => ⟨k.1, k.2⟩
    | exact fun _ k => k
    | exact ⟨hq.1, hq.2⟩
    | (refine ⟨⟨hq.1.1, hq.1.2⟩, ?_⟩)
    | (refine ⟨hq.1, ?_⟩)
    | (unfold winOpenRow; try dsimp only)

theorem redSelect_canon {s : State} (a0 : Bool) (a1 : Ctx) (h : Canon s) :
    Canon (redSelect a0 a1 s) := by
  unfold redSelect
  try dsimp only
  repeat' first
    | with_reducible assumption
    | with_reducible apply readInputs_canon
    | with_reducible refine canon_pair (x := readInputs _ _) ?_ (by assumption)
    | with_reducible apply State.redFlags_canon
    | with_reducible apply State.complete_canon
    | with_reducible apply canon_ite
    | with_reducible apply canon_getD
    | split
    | exact fun _ k => ⟨k.1, k.2⟩
    | exact fun _ k => k
    | exact ⟨hq.1, hq.2⟩
    | (refine ⟨⟨hq.1.1, hq.1.2⟩, ?_⟩)
    | (refine ⟨hq.1, ?_⟩)

theorem vxSincosEff_canon {s : State} (a0 : Ctx) (h : Canon s) :
    Canon (vxSincosEff a0 s) := by
  unfold vxSincosEff
  try dsimp only
  repeat' first
    | with_reducible assumption
    | with_reducible apply readInputs_canon
    | with_reducible refine canon_pair (x := readInputs _ _) ?_ (by assumption)
    | with_reducible apply vxFinish_canon
    | with_reducible apply canon_ite
    | split
    | exact fun _ k => ⟨k.1, k.2⟩
    | exact fun _ k => k
    | exact ⟨hq.1, hq.2⟩
    | (refine ⟨⟨hq.1.1, hq.1.2⟩, ?_⟩)
    | (refine ⟨hq.1, ?_⟩)

theorem execVxSincos_canon {s : State} (a0 : Fin 64) (h : Canon s) :
    CanonR (execVxSincos a0 s) := by
  unfold execVxSincos
  try dsimp only
  repeat' first
    | with_reducible assumption
    | with_reducible apply vxSincosEff_canon
    | with_reducible apply runCmd_canon
    | with_reducible apply tileHold_canon
    | with_reducible refine CanonP.out (o := tileHold _ _ _) ?_ (by assumption)
    | with_reducible apply canon_ite
    | (with_reducible intro u x hu; try dsimp only)
    | with_reducible apply canonR_ite
    | with_reducible apply canonR_next
    | split
    | with_reducible exact canonP_none
    | with_reducible apply canonP_some
    | with_reducible intro u x hu
    | (with_reducible intro x u hu; try dsimp only)
    | exact fun _ k => ⟨k.1, k.2⟩
    | exact fun _ k => k
    | exact ⟨hq.1, hq.2⟩
    | (refine ⟨⟨hq.1.1, hq.1.2⟩, ?_⟩)
    | (refine ⟨hq.1, ?_⟩)
    | (unfold vxRow; try dsimp only)

theorem execRefRestored_canon {s : State} (a0 : Fin 4) (h : Canon s) :
    CanonR (execRefRestored a0 s) := by
  unfold execRefRestored
  try dsimp only
  repeat' first
    | with_reducible assumption
    | with_reducible apply canon_ite
    | with_reducible apply canonR_ite
    | with_reducible apply canonR_next
    | split
    | with_reducible refine canon_clk _ ?_
    | exact fun _ k => ⟨k.1, k.2⟩
    | exact fun _ k => k
    | exact ⟨hq.1, hq.2⟩
    | (refine ⟨⟨hq.1.1, hq.1.2⟩, ?_⟩)
    | (refine ⟨hq.1, ?_⟩)

theorem execSmbusRead_canon {s : State} (h : Canon s) :
    CanonR (execSmbusRead s) := by
  unfold execSmbusRead
  try dsimp only
  repeat' first
    | with_reducible assumption
    | with_reducible apply canon_ite
    | with_reducible apply canonR_ite
    | with_reducible apply canonR_next
    | split
    | with_reducible refine canon_pins _ ?_
    | exact fun _ k => ⟨k.1, k.2⟩
    | exact fun _ k => k
    | exact ⟨hq.1, hq.2⟩
    | (refine ⟨⟨hq.1.1, hq.1.2⟩, ?_⟩)
    | (refine ⟨hq.1, ?_⟩)

theorem State.reread_canon {s : State} (a1 : TxPkt) (h : Canon s) :
    Canon (State.reread s a1).2 := by
  unfold State.reread
  try dsimp only
  repeat' first
    | with_reducible assumption
    | with_reducible apply State.chainPart_canon
    | with_reducible refine canon_trip (x := State.chainPart _ _ _ _) ?_ (by assumption)
    | with_reducible apply State.sourceBytes_canon
    | with_reducible refine canon_pair (x := State.sourceBytes _ _ _) ?_ (by assumption)
    | with_reducible apply State.readMem_canon
    | with_reducible refine canon_pair (x := State.readMem _ _ _ _) ?_ (by assumption)
    | with_reducible apply canon_ite
    | split
    | exact fun _ k => ⟨k.1, k.2⟩
    | exact fun _ k => k
    | exact ⟨hq.1, hq.2⟩
    | (refine ⟨⟨hq.1.1, hq.1.2⟩, ?_⟩)
    | (refine ⟨hq.1, ?_⟩)
    | dsimp only

theorem State.failFlow_canon {s : State} (a1 : ℕ) (h : Canon s) :
    Canon (State.failFlow s a1) := by
  unfold State.failFlow
  try dsimp only
  repeat' first
    | with_reducible assumption
    | with_reducible apply State.onFlow_canon
    | with_reducible apply State.leaveOpen_canon
    | with_reducible apply State.loseJob_canon
    | with_reducible apply canon_ite
    | split
    | exact fun _ k => ⟨k.1, k.2⟩
    | exact fun _ k => k
    | exact ⟨hq.1, hq.2⟩
    | (refine ⟨⟨hq.1.1, hq.1.2⟩, ?_⟩)
    | (refine ⟨hq.1, ?_⟩)

theorem State.retransmit_canon {s : State} (a1 : ℕ) (a2 : TxPkt) (h : Canon s) :
    Canon (State.retransmit s a1 a2) := by
  unfold State.retransmit
  try dsimp only
  repeat' first
    | with_reducible assumption
    | with_reducible apply State.reread_canon
    | with_reducible refine canon_pair (x := State.reread _ _) ?_ (by assumption)
    | with_reducible apply State.wire_canon
    | with_reducible apply State.onFlow_canon
    | with_reducible apply State.failFlow_canon
    | with_reducible apply canon_ite
    | split
    | with_reducible refine canon_fab _ ?_ ?_
    | exact fun _ k => ⟨k.1, k.2⟩
    | exact fun _ k => k
    | exact ⟨hq.1, hq.2⟩
    | (refine ⟨⟨hq.1.1, hq.1.2⟩, ?_⟩)
    | (refine ⟨hq.1, ?_⟩)

theorem execDeviceLevelFault_canon {s : State} (a0 : BitVec 4) (a1 : ℕ) (h : Canon s) :
    CanonR (execDeviceLevelFault a0 a1 s) := by
  unfold execDeviceLevelFault
  try dsimp only
  repeat' first
    | with_reducible assumption
    | with_reducible apply State.deviceFault_canon
    | with_reducible apply State.at_canon
    | with_reducible apply canon_ite
    | with_reducible apply canonR_ite
    | with_reducible apply canonR_next
    | split
    | exact fun _ k => ⟨k.1, k.2⟩
    | exact fun _ k => k
    | exact ⟨hq.1, hq.2⟩
    | (refine ⟨⟨hq.1.1, hq.1.2⟩, ?_⟩)
    | (refine ⟨hq.1, ?_⟩)

theorem State.powerOff_canon {s : State} (h : Canon s) : Canon (State.powerOff s) := by
  unfold State.powerOff
  extract_lets s1 off s2 port opt m
  have k1 : Canon s1 := State.hostReset_canon h
  clear_value s1
  have k2 : Canon s2 := canon_foldl _ _ k1 fun _ _ k => State.onDom_canon _ _ k
  clear_value s2 port opt m
  refine canon_cores_mem_ports_optics_fab_host_jobs_cfg_mgmt_pins _ _ _ _ _ _ _ _ _ _ k2
    (fun _ => ⟨rfl, fun lc => (reset_canon).1.2 lc⟩) (fun _ k => ?_) (fun k => ?_) (fun k => ?_)
    (fun _ _ => by exact ⟨rfl, rfl⟩) (fun _ k => ⟨k.1, k.2⟩) (fun _ _ => by exact ⟨rfl, rfl⟩)
  · exact ⟨rfl, rfl, rfl, Tbl.mapv_wf _ _ _ k.2.2.2.1, rfl⟩
  · exact Tbl.mapv_wf _ _ _ k.2.2.1
  · exact Tbl.mapv_wf _ _ _ k.2.2.2.1

theorem execPwrGoodFall_canon {s : State} (h : Canon s) :
    CanonR (execPwrGoodFall s) := by
  unfold execPwrGoodFall
  try dsimp only
  repeat' first
    | with_reducible assumption
    | with_reducible apply State.powerOff_canon
    | with_reducible apply canon_ite
    | with_reducible apply canonR_ite
    | with_reducible apply canonR_next
    | split
    | exact fun _ k => ⟨k.1, k.2⟩
    | exact fun _ k => k
    | exact ⟨hq.1, hq.2⟩
    | (refine ⟨⟨hq.1.1, hq.1.2⟩, ?_⟩)
    | (refine ⟨hq.1, ?_⟩)

theorem State.accepted_canon {s : State} (a1 : ℕ) (a2 : Found) (h : Canon s) :
    Canon (State.accepted s a1 a2) := by
  unfold State.accepted
  try dsimp only
  repeat' first
    | with_reducible assumption
    | with_reducible apply State.onPair_canon
    | with_reducible apply canon_ite
    | split
    | with_reducible refine canon_host _ ?_ ?_
    | exact fun k => k
    | exact fun k => Pair.putMsg_canon _ k
    | exact fun k => Pair.write_canon _ _ k
    | exact fun _ k => ⟨k.1, k.2⟩
    | exact fun _ k => k
    | exact ⟨hq.1, hq.2⟩
    | (refine ⟨⟨hq.1.1, hq.1.2⟩, ?_⟩)
    | (refine ⟨hq.1, ?_⟩)

theorem execCxlLinkDown_canon {s : State} (h : Canon s) :
    CanonR (execCxlLinkDown s) := by
  unfold execCxlLinkDown
  try dsimp only
  repeat' first
    | with_reducible assumption
    | with_reducible apply State.hostReset_canon
    | with_reducible apply canon_ite
    | with_reducible apply canonR_ite
    | with_reducible apply canonR_next
    | split
    | exact fun _ k => ⟨k.1, k.2⟩
    | exact fun _ k => k
    | exact ⟨hq.1, hq.2⟩
    | (refine ⟨⟨hq.1.1, hq.1.2⟩, ?_⟩)
    | (refine ⟨hq.1, ?_⟩)

theorem execDeferredStepSwitch_canon {s : State} (a0 : Fin 72) (a1 : ℕ) (h : Canon s) :
    CanonR (execDeferredStepSwitch a0 a1 s) := by
  unfold execDeferredStepSwitch
  try dsimp only
  repeat' first
    | with_reducible assumption
    | with_reducible apply State.at_canon
    | with_reducible apply State.onDom_canon
    | with_reducible apply State.switchStep_canon
    | with_reducible apply canon_ite
    | with_reducible apply canonR_ite
    | with_reducible apply canonR_next
    | split
    | exact fun _ k => ⟨k.1, k.2⟩
    | exact fun _ k => k
    | exact ⟨hq.1, hq.2⟩
    | (refine ⟨⟨hq.1.1, hq.1.2⟩, ?_⟩)
    | (refine ⟨hq.1, ?_⟩)

theorem execQCfg_canon {s : State} (a0 : Fin 64) (h : Canon s) :
    CanonR (execQCfg a0 s) := by
  unfold execQCfg
  try dsimp only
  repeat' first
    | with_reducible assumption
    | with_reducible apply State.retireFront_canon
    | with_reducible apply runCmd_canon
    | with_reducible apply State.drainPump_canon
    | with_reducible apply State.onQueue_canon
    | with_reducible apply Sequencer.onQueue_canon
    | with_reducible apply canon_ite
    | (with_reducible intro u x hu; try dsimp only)
    | with_reducible apply canonR_ite
    | with_reducible apply canonR_next
    | split
    | with_reducible exact canonP_none
    | with_reducible apply canonP_some
    | with_reducible intro u x hu
    | (with_reducible intro x u hu; try dsimp only)
    | exact fun _ k => ⟨k.1, k.2⟩
    | exact fun _ k => k
    | exact ⟨hq.1, hq.2⟩
    | (refine ⟨⟨hq.1.1, hq.1.2⟩, ?_⟩)
    | (refine ⟨hq.1, ?_⟩)
    | (unfold qCfgRow; try dsimp only)

theorem execLldpTimer_canon {s : State} (a0 : Fin 96) (a1 : ℕ) (h : Canon s) :
    CanonR (execLldpTimer a0 a1 s) := by
  unfold execLldpTimer
  try dsimp only
  repeat' first
    | with_reducible assumption
    | with_reducible apply State.at_canon
    | with_reducible apply State.sendLldp_canon
    | with_reducible apply canon_ite
    | with_reducible apply canonR_ite
    | with_reducible apply canonR_next
    | split
    | exact fun _ k => ⟨k.1, k.2⟩
    | exact fun _ k => k
    | exact ⟨hq.1, hq.2⟩
    | (refine ⟨⟨hq.1.1, hq.1.2⟩, ?_⟩)
    | (refine ⟨hq.1, ?_⟩)

theorem execWindowWrite_canon {s : State} (a0 : Fin 64) (a1 : BitVec 18) (a2 : BitVec 6) (a3 : WinHdr) (a4 : Bool)
    (a5 : List Byte) (h : Canon s) :
    CanonR (execWindowWrite a0 a1 a2 a3 a4 a5 s) := by
  unfold execWindowWrite
  try dsimp only
  repeat' first
    | with_reducible assumption
    | with_reducible apply State.pumpPort_canon
    | with_reducible apply State.placeWindow_canon
    | with_reducible refine CanonL.queuedOut (v := State.placeWindow _ _ _ _ _) ?_ (by assumption)
    | with_reducible refine CanonL.codeOut (v := State.placeWindow _ _ _ _ _) ?_ (by assumption)
    | with_reducible refine CanonL.doneOut (v := State.placeWindow _ _ _ _ _) ?_ (by assumption)
    | with_reducible apply State.dropWindow_canon
    | with_reducible apply canon_ite
    | with_reducible apply canonR_ite
    | with_reducible apply canonR_next
    | split
    | exact fun _ k => ⟨k.1, k.2⟩
    | exact fun _ k => k
    | exact ⟨hq.1, hq.2⟩
    | (refine ⟨⟨hq.1.1, hq.1.2⟩, ?_⟩)
    | (refine ⟨hq.1, ?_⟩)

theorem State.answerWith_canon {s : State} (a1 : ℕ) (a2 : Found) (a3 : ℕ) (a4 : ℕ) (a5 : ℕ) (a6 : List Byte)
    (h : Canon s) :
    Canon (State.answerWith s a1 a2 a3 a4 a5 a6) := by
  unfold State.answerWith
  try dsimp only
  repeat' first
    | with_reducible assumption
    | with_reducible apply State.onPair_canon
    | with_reducible apply State.placeResp_canon
    | with_reducible apply State.accepted_canon
    | with_reducible apply canon_ite
    | split
    | exact fun k => k
    | exact fun k => Pair.putMsg_canon _ k
    | exact fun k => Pair.write_canon _ _ k
    | exact fun _ k => ⟨k.1, k.2⟩
    | exact fun _ k => k
    | exact ⟨hq.1, hq.2⟩
    | (refine ⟨⟨hq.1.1, hq.1.2⟩, ?_⟩)
    | (refine ⟨hq.1, ?_⟩)

theorem State.refuse_canon {s : State} (a1 : ℕ) (a2 : Found) (a3 : ℕ) (h : Canon s) :
    Canon (State.refuse s a1 a2 a3) := by
  unfold State.refuse
  try dsimp only
  repeat' first
    | with_reducible assumption
    | with_reducible apply State.answerWith_canon
    | with_reducible apply canon_ite
    | split
    | exact fun _ k => ⟨k.1, k.2⟩
    | exact fun _ k => k
    | exact ⟨hq.1, hq.2⟩
    | (refine ⟨⟨hq.1.1, hq.1.2⟩, ?_⟩)
    | (refine ⟨hq.1, ?_⟩)

theorem execLaserEol_canon {s : State} (a0 : Fin 96) (a1 : Fin 4) (h : Canon s) :
    CanonR (execLaserEol a0 a1 s) := by
  unfold execLaserEol
  try dsimp only
  repeat' first
    | with_reducible assumption
    | with_reducible apply State.substitute_canon
    | with_reducible apply canon_ite
    | with_reducible apply canonR_ite
    | with_reducible apply canonR_next
    | split
    | exact fun _ k => ⟨k.1, k.2⟩
    | exact fun _ k => k
    | exact ⟨hq.1, hq.2⟩
    | (refine ⟨⟨hq.1.1, hq.1.2⟩, ?_⟩)
    | (refine ⟨hq.1, ?_⟩)

theorem State.scrubbed_canon {s : State} (a1 : ℕ) (a2 : ℕ) (a3 : ℕ) (h : Canon s) :
    Canon (State.scrubbed s a1 a2 a3) := by
  unfold State.scrubbed
  try dsimp only
  repeat' first
    | with_reducible assumption
    | with_reducible apply State.logErr_canon
    | with_reducible apply State.onStk_canon
    | with_reducible apply canon_ite
    | split
    | exact fun _ k => ⟨k.1, k.2⟩
    | exact fun _ k => k
    | exact ⟨hq.1, hq.2⟩
    | (refine ⟨⟨hq.1.1, hq.1.2⟩, ?_⟩)
    | (refine ⟨hq.1, ?_⟩)

theorem State.scrub_canon {s : State} (a1 : ℕ) (a2 : ℕ) (a3 : Upset) (h : Canon s) :
    Canon (State.scrub s a1 a2 a3) := by
  unfold State.scrub
  try dsimp only
  repeat' first
    | with_reducible assumption
    | with_reducible apply State.foundBad_canon
    | with_reducible apply State.openRow_canon
    | with_reducible apply State.setUnitCond_canon
    | with_reducible apply State.upset_canon
    | with_reducible apply State.scrubbed_canon
    | with_reducible apply State.onStk_canon
    | with_reducible apply State.setDram_canon
    | with_reducible apply canon_ite
    | split
    | exact fun _ k => ⟨k.1, k.2⟩
    | exact fun _ k => k
    | exact ⟨hq.1, hq.2⟩
    | (refine ⟨⟨hq.1.1, hq.1.2⟩, ?_⟩)
    | (refine ⟨hq.1, ?_⟩)

theorem execPatrolScrub_canon {s : State} (a0 : Fin 16) (a1 : Upset) (h : Canon s) :
    CanonR (execPatrolScrub a0 a1 s) := by
  unfold execPatrolScrub
  try dsimp only
  repeat' first
    | with_reducible assumption
    | with_reducible apply State.onStk_canon
    | with_reducible apply State.scrub_canon
    | with_reducible apply canon_ite
    | with_reducible apply canonR_ite
    | with_reducible apply canonR_next
    | split
    | exact fun _ k => ⟨k.1, k.2⟩
    | exact fun _ k => k
    | exact ⟨hq.1, hq.2⟩
    | (refine ⟨⟨hq.1.1, hq.1.2⟩, ?_⟩)
    | (refine ⟨hq.1, ?_⟩)

theorem execOptHoldoverExpiry_canon {s : State} (a0 : ℕ) (h : Canon s) :
    CanonR (execOptHoldoverExpiry a0 s) := by
  unfold execOptHoldoverExpiry
  try dsimp only
  repeat' first
    | with_reducible assumption
    | with_reducible apply State.at_canon
    | with_reducible apply State.portTo_canon
    | with_reducible apply canon_ite
    | with_reducible apply canon_foldl
    | with_reducible apply canon_foldl2
    | (with_reducible intro u x hu; try dsimp only)
    | with_reducible apply canonR_ite
    | with_reducible apply canonR_next
    | split
    | exact fun _ k => ⟨k.1, k.2⟩
    | exact fun _ k => k
    | exact ⟨hq.1, hq.2⟩
    | (refine ⟨⟨hq.1.1, hq.1.2⟩, ?_⟩)
    | (refine ⟨hq.1, ?_⟩)

theorem vxReduce_canon {s : State} (a0 : VxKind) (a1 : ℕ → Option Val → List Val → Acc) (a2 : Ctx) (h : Canon s) :
    Canon (vxReduce a0 a1 a2 s) := by
  unfold vxReduce
  try dsimp only
  repeat' first
    | with_reducible assumption
    | with_reducible apply readInputs_canon
    | with_reducible refine canon_pair (x := readInputs _ _) ?_ (by assumption)
    | with_reducible apply vxFinish_canon
    | with_reducible apply Sequencer.start_canon
    | with_reducible apply canon_ite
    | with_reducible apply canon_foldl
    | with_reducible apply canon_foldl2
    | with_reducible apply canon_getD
    | (with_reducible intro u x hu; try dsimp only)
    | split
    | exact fun _ k => ⟨k.1, k.2⟩
    | exact fun _ k => k
    | exact ⟨hq.1, hq.2⟩
    | (refine ⟨⟨hq.1.1, hq.1.2⟩, ?_⟩)
    | (refine ⟨hq.1, ?_⟩)

theorem execVxRsum_canon {s : State} (a0 : Fin 64) (h : Canon s) :
    CanonR (execVxRsum a0 s) := by
  unfold execVxRsum
  try dsimp only
  repeat' first
    | with_reducible assumption
    | with_reducible apply runCmd_canon
    | with_reducible apply vxReduce_canon
    | with_reducible apply tileHold_canon
    | with_reducible refine CanonP.out (o := tileHold _ _ _) ?_ (by assumption)
    | with_reducible apply canon_ite
    | (with_reducible intro u x hu; try dsimp only)
    | with_reducible apply canonR_ite
    | with_reducible apply canonR_next
    | split
    | with_reducible exact canonP_none
    | with_reducible apply canonP_some
    | with_reducible intro u x hu
    | (with_reducible intro x u hu; try dsimp only)
    | exact fun _ k => ⟨k.1, k.2⟩
    | exact fun _ k => k
    | exact ⟨hq.1, hq.2⟩
    | (refine ⟨⟨hq.1.1, hq.1.2⟩, ?_⟩)
    | (refine ⟨hq.1, ?_⟩)
    | (unfold vxRow; try dsimp only)

theorem State.bufDrop_canon {s : State} (a1 : ℕ) (a2 : ℕ) (h : Canon s) :
    Canon (State.bufDrop s a1 a2) := by
  unfold State.bufDrop
  try dsimp only
  repeat' first
    | with_reducible assumption
    | with_reducible apply State.bufTake_canon
    | with_reducible apply canon_ite
    | split
    | exact fun _ k => ⟨k.1, k.2⟩
    | exact fun _ k => k
    | exact ⟨hq.1, hq.2⟩
    | (refine ⟨⟨hq.1.1, hq.1.2⟩, ?_⟩)
    | (refine ⟨hq.1, ?_⟩)

theorem execTripRelease_canon {s : State} (a0 : List ℤ) (h : Canon s) :
    CanonR (execTripRelease a0 s) := by
  unfold execTripRelease
  try dsimp only
  repeat' first
    | with_reducible assumption
    | with_reducible apply State.bringUp_canon
    | with_reducible apply State.serve_canon
    | with_reducible apply canon_ite
    | with_reducible apply canonR_ite
    | with_reducible apply canonR_next
    | split
    | with_reducible refine canon_thm _ ?_
    | exact fun _ k => ⟨k.1, k.2⟩
    | exact fun _ k => k
    | exact ⟨hq.1, hq.2⟩
    | (refine ⟨⟨hq.1.1, hq.1.2⟩, ?_⟩)
    | (refine ⟨hq.1, ?_⟩)

theorem execPtpEventTx_canon {s : State} (a0 : Fin 96) (a1 : PtpMsg) (a2 : BitVec 16) (a3 : List Byte) (h : Canon s) :
    CanonR (execPtpEventTx a0 a1 a2 a3 s) := by
  unfold execPtpEventTx
  try dsimp only
  repeat' first
    | with_reducible assumption
    | with_reducible apply State.atWire_canon
    | with_reducible refine canon_pair (x := State.atWire _ _ _) ?_ (by assumption)
    | with_reducible apply State.onPort_canon
    | with_reducible apply canon_ite
    | with_reducible apply canon_getD
    | with_reducible apply canonR_ite
    | with_reducible apply canonR_next
    | split
    | exact fun _ k => ⟨k.1, k.2⟩
    | exact fun _ k => k
    | exact ⟨hq.1, hq.2⟩
    | (refine ⟨⟨hq.1.1, hq.1.2⟩, ?_⟩)
    | (refine ⟨hq.1, ?_⟩)

theorem execHiSerTimer_canon {s : State} (a0 : Fin 96) (a1 : ℕ) (a2 : ℕ) (a3 : ℕ) (a4 : ℕ) (a5 : ℕ) (h : Canon s) :
    CanonR (execHiSerTimer a0 a1 a2 a3 a4 a5 s) := by
  unfold execHiSerTimer
  try dsimp only
  repeat' first
    | with_reducible assumption
    | with_reducible apply State.substitute_canon
    | with_reducible apply State.at_canon
    | with_reducible apply State.onPort_canon
    | with_reducible apply canon_ite
    | with_reducible apply canonR_ite
    | with_reducible apply canonR_next
    | split
    | exact fun _ k => ⟨k.1, k.2⟩
    | exact fun _ k => k
    | exact ⟨hq.1, hq.2⟩
    | (refine ⟨⟨hq.1.1, hq.1.2⟩, ?_⟩)
    | (refine ⟨hq.1, ?_⟩)

theorem State.preSetup_canon {s : State} (a1 : ℕ) (a2 : BitVec 18) (h : Canon s) :
    Canon (State.preSetup s a1 a2) := by
  unfold State.preSetup
  try dsimp only
  repeat' first
    | with_reducible assumption
    | with_reducible apply State.startSetup_canon
    | with_reducible refine CanonM.out (v := State.startSetup _ _ _) ?_ (by assumption)
    | with_reducible apply State.noteRefused_canon
    | with_reducible apply canon_ite
    | split
    | exact fun _ k => ⟨k.1, k.2⟩
    | exact fun _ k => k
    | exact ⟨hq.1, hq.2⟩
    | (refine ⟨⟨hq.1.1, hq.1.2⟩, ?_⟩)
    | (refine ⟨hq.1, ?_⟩)

theorem State.stage_canon {s : State} (a1 : ℕ) (a2 : Word) (h : Canon s) :
    Canon (State.stage s a1 a2) := by
  unfold State.stage
  try dsimp only
  repeat' first
    | with_reducible assumption
    | with_reducible apply canon_ite
    | split
    | with_reducible refine canon_cfg _ ?_
    | exact fun _ k => ⟨k.1, k.2⟩
    | exact fun _ k => k
    | exact ⟨hq.1, hq.2⟩
    | exact fun _ k => ⟨k.1, k.2.1, (by dsimp only; exact Tbl.mapv_wf _ _ _ k.2.2.1), k.2.2.2⟩
    | exact fun _ k => ⟨k.1, k.2.1, k.2.2.1, (by dsimp only; exact Tbl.mapv_wf _ _ _ k.2.2.2)⟩
    | exact fun _ k => ⟨(by dsimp only; exact Tbl.mapv_wf _ _ _ k.1), k.2⟩
    | exact fun _ k => ⟨k.1, (by dsimp only; exact Tbl.mapv_wf _ _ _ k.2)⟩
    | exact ⟨hq.1, hq.2.1, hq.2.2.1, (by dsimp only; exact Tbl.set_wf _ _ _ _ hq.2.2.2.1), hq.2.2.2.2⟩
    | exact ⟨hq.1, hq.2.1, (by dsimp only; exact Tbl.set_wf _ _ _ _ hq.2.2.1), hq.2.2.2⟩
    | exact ⟨(by dsimp only; exact Tbl.mapv_wf _ _ _ hq.1), hq.2⟩
    | exact fun k => cores_mapv_canon _ (fun c k => Core.halt_canon k) k
    | exact fun k => (by dsimp only; exact Tbl.mapv_wf _ _ _ k.2.2.1)
    | exact fun k => (by dsimp only; exact Tbl.mapv_wf _ _ _ k.2.2.2.1)
    | exact fun _ k => (by dsimp only; exact Tbl.mapv_wf _ _ _ k)
    | (refine ⟨⟨hq.1.1, hq.1.2⟩, ?_⟩)
    | (refine ⟨hq.1, ?_⟩)

theorem State.stagePairs_canon {s : State} (a1 : ℕ) (a2 : List (ℕ × Word)) (h : Canon s) :
    Canon (State.stagePairs s a1 a2).2.2 := by
  induction a2 generalizing s a1 with
  | nil =>
    unfold State.stagePairs
    try dsimp only
    repeat' first
      | with_reducible assumption
      | with_reducible apply State.stage_canon
      | with_reducible apply canon_ite
      | split
      | exact fun _ k => ⟨k.1, k.2⟩
      | exact fun _ k => k
      | exact ⟨hq.1, hq.2⟩
      | (refine ⟨⟨hq.1.1, hq.1.2⟩, ?_⟩)
      | (refine ⟨hq.1, ?_⟩)
      | dsimp only
  | cons x r ih =>
    unfold State.stagePairs
    try dsimp only
    repeat' first
      | with_reducible assumption
      | with_reducible apply ih
      | with_reducible apply State.stage_canon
      | with_reducible apply canon_ite
      | split
      | exact fun _ k => ⟨k.1, k.2⟩
      | exact fun _ k => k
      | exact ⟨hq.1, hq.2⟩
      | (refine ⟨⟨hq.1.1, hq.1.2⟩, ?_⟩)
      | (refine ⟨hq.1, ?_⟩)
      | dsimp only

theorem execExplicitWaitTimeout_canon {s : State} (a0 : Fin 64) (a1 : Eng) (a2 : ℕ) (h : Canon s) :
    CanonR (execExplicitWaitTimeout a0 a1 a2 s) := by
  unfold execExplicitWaitTimeout
  try dsimp only
  repeat' first
    | with_reducible assumption
    | with_reducible apply State.failStream_canon
    | with_reducible apply State.at_canon
    | with_reducible apply State.abortGroup_canon
    | with_reducible apply Sequencer.failStream_canon
    | with_reducible apply canon_ite
    | with_reducible apply canonR_ite
    | with_reducible apply canonR_next
    | split
    | exact fun _ k => ⟨k.1, k.2⟩
    | exact fun _ k => k
    | exact ⟨hq.1, hq.2⟩
    | (refine ⟨⟨hq.1.1, hq.1.2⟩, ?_⟩)
    | (refine ⟨hq.1, ?_⟩)

theorem State.accept_canon {s : State} (a1 : ℕ) (a2 : Found) (a3 : List Byte) (h : Canon s) :
    Canon (State.accept s a1 a2 a3) := by
  unfold State.accept
  try dsimp only
  repeat' first
    | with_reducible assumption
    | with_reducible apply State.answerWith_canon
    | with_reducible apply canon_ite
    | split
    | exact fun _ k => ⟨k.1, k.2⟩
    | exact fun _ k => k
    | exact ⟨hq.1, hq.2⟩
    | (refine ⟨⟨hq.1.1, hq.1.2⟩, ?_⟩)
    | (refine ⟨hq.1, ?_⟩)

theorem execQueueDestroy_canon {s : State} (a0 : Fin 16) (h : Canon s) :
    CanonR (execQueueDestroy a0 s) := by
  unfold execQueueDestroy
  try dsimp only
  repeat' first
    | with_reducible assumption
    | with_reducible apply State.onSQueue_canon
    | with_reducible apply State.accept_canon
    | with_reducible apply State.refuse_canon
    | with_reducible apply canon_ite
    | with_reducible apply canonR_ite
    | with_reducible apply canonR_next
    | split
    | exact fun _ k => ⟨k.1, k.2⟩
    | exact fun _ k => k
    | exact ⟨hq.1, hq.2⟩
    | (refine ⟨⟨hq.1.1, hq.1.2⟩, ?_⟩)
    | (refine ⟨hq.1, ?_⟩)

theorem State.heatCore_canon {s : State} (a1 : ℕ) (h : Canon s) :
    Canon (State.heatCore s a1) := by
  unfold State.heatCore
  try dsimp only
  repeat' first
    | with_reducible assumption
    | with_reducible apply State.onDom_canon
    | with_reducible apply canon_ite
    | split
    | exact fun _ k => ⟨k.1, k.2⟩
    | exact fun _ k => k
    | exact ⟨hq.1, hq.2⟩
    | (refine ⟨⟨hq.1.1, hq.1.2⟩, ?_⟩)
    | (refine ⟨hq.1, ?_⟩)

theorem State.replayFrom_canon {s : State} (a1 : ℕ) (a2 : Arr) (a3 : ℕ) (a4 : List ℕ) (h : Canon s) :
    Canon (State.replayFrom s a1 a2 a3 a4) := by
  unfold State.replayFrom
  try dsimp only
  repeat' first
    | with_reducible assumption
    | with_reducible apply State.onArray_canon
    | with_reducible apply State.clearArray_canon
    | with_reducible apply State.returnOuts_canon
    | with_reducible apply State.onBegun_canon
    | with_reducible apply Core.onArray_canon
    | with_reducible apply canon_ite
    | with_reducible apply canon_foldl
    | with_reducible apply canon_foldl2
    | (with_reducible intro u x hu; try dsimp only)
    | split
    | exact fun _ k => ⟨k.1, k.2⟩
    | exact fun _ k => k
    | exact ⟨hq.1, hq.2⟩
    | (refine ⟨⟨hq.1.1, hq.1.2⟩, ?_⟩)
    | (refine ⟨hq.1, ?_⟩)

theorem State.replayBoth_canon {s : State} (a1 : ℕ) (a2 : Arr) (a3 : ℕ) (a4 : List ℕ) (h : Canon s) :
    Canon (State.replayBoth s a1 a2 a3 a4) := by
  unfold State.replayBoth
  try dsimp only
  repeat' first
    | with_reducible assumption
    | with_reducible apply State.replayFrom_canon
    | with_reducible apply canon_ite
    | split
    | exact fun _ k => ⟨k.1, k.2⟩
    | exact fun _ k => k
    | exact ⟨hq.1, hq.2⟩
    | (refine ⟨⟨hq.1.1, hq.1.2⟩, ?_⟩)
    | (refine ⟨hq.1, ?_⟩)

theorem execStepChange_canon {s : State} (a0 : Fin 72) (a1 : Fin 12) (a2 : ℕ) (h : Canon s) :
    CanonR (execStepChange a0 a1 a2 s) := by
  unfold execStepChange
  try dsimp only
  repeat' first
    | with_reducible assumption
    | with_reducible apply State.requestStep_canon
    | with_reducible apply State.at_canon
    | with_reducible apply canon_ite
    | with_reducible apply canonR_ite
    | with_reducible apply canonR_next
    | split
    | exact fun _ k => ⟨k.1, k.2⟩
    | exact fun _ k => k
    | exact ⟨hq.1, hq.2⟩
    | (refine ⟨⟨hq.1.1, hq.1.2⟩, ?_⟩)
    | (refine ⟨hq.1, ?_⟩)

theorem State.openLevel_canon {s : State} (a1 : ℕ) (a2 : ℕ) (h : Canon s) :
    Canon (State.openLevel s a1 a2) := by
  unfold State.openLevel
  try dsimp only
  repeat' first
    | with_reducible assumption
    | with_reducible apply State.logErr_canon
    | with_reducible apply canon_ite
    | split
    | with_reducible refine canon_sec _ ?_
    | exact fun _ k => ⟨k.1, k.2⟩
    | exact fun _ k => k
    | exact ⟨hq.1, hq.2⟩
    | (refine ⟨⟨hq.1.1, hq.1.2⟩, ?_⟩)
    | (refine ⟨hq.1, ?_⟩)

theorem State.trySignature_canon {s : State} (a1 : ℕ) (a2 : List Byte) (h : Canon s) :
    Canon (State.trySignature s a1 a2).2 := by
  unfold State.trySignature
  try dsimp only
  repeat' first
    | with_reducible assumption
    | with_reducible apply State.openLevel_canon
    | with_reducible apply canon_ite
    | split
    | with_reducible refine canon_sec _ ?_
    | exact fun _ k => ⟨k.1, k.2⟩
    | exact fun _ k => k
    | exact ⟨hq.1, hq.2⟩
    | (refine ⟨⟨hq.1.1, hq.1.2⟩, ?_⟩)
    | (refine ⟨hq.1, ?_⟩)
    | dsimp only

theorem State.sample_canon {s : State} (a1 : ℕ) (a2 : Option ℤ) (h : Canon s) :
    Canon (State.sample s a1 a2) := by
  unfold State.sample
  try dsimp only
  repeat' first
    | with_reducible assumption
    | with_reducible apply canon_ite
    | split
    | with_reducible refine canon_thm _ ?_
    | exact fun _ k => ⟨k.1, k.2⟩
    | exact fun _ k => k
    | exact ⟨hq.1, hq.2⟩
    | exact fun _ k => ⟨k.1, k.2.1, (by dsimp only; exact Tbl.mapv_wf _ _ _ k.2.2.1), k.2.2.2⟩
    | exact fun _ k => ⟨k.1, k.2.1, k.2.2.1, (by dsimp only; exact Tbl.mapv_wf _ _ _ k.2.2.2)⟩
    | exact fun _ k => ⟨(by dsimp only; exact Tbl.mapv_wf _ _ _ k.1), k.2⟩
    | exact fun _ k => ⟨k.1, (by dsimp only; exact Tbl.mapv_wf _ _ _ k.2)⟩
    | exact ⟨hq.1, hq.2.1, hq.2.2.1, (by dsimp only; exact Tbl.set_wf _ _ _ _ hq.2.2.2.1), hq.2.2.2.2⟩
    | exact ⟨hq.1, hq.2.1, (by dsimp only; exact Tbl.set_wf _ _ _ _ hq.2.2.1), hq.2.2.2⟩
    | exact ⟨(by dsimp only; exact Tbl.mapv_wf _ _ _ hq.1), hq.2⟩
    | exact fun k => cores_mapv_canon _ (fun c k => Core.halt_canon k) k
    | exact fun k => (by dsimp only; exact Tbl.mapv_wf _ _ _ k.2.2.1)
    | exact fun k => (by dsimp only; exact Tbl.mapv_wf _ _ _ k.2.2.2.1)
    | exact fun _ k => (by dsimp only; exact Tbl.mapv_wf _ _ _ k)
    | (refine ⟨⟨hq.1.1, hq.1.2⟩, ?_⟩)
    | (refine ⟨hq.1, ?_⟩)

theorem execOeOvertemp_canon {s : State} (a0 : Fin 8) (a1 : Fin 2) (a2 : BitVec 11) (h : Canon s) :
    CanonR (execOeOvertemp a0 a1 a2 s) := by
  unfold execOeOvertemp
  try dsimp only
  repeat' first
    | with_reducible assumption
    | with_reducible apply State.onOptic_canon
    | with_reducible apply State.opticDown_canon
    | with_reducible apply State.sample_canon
    | with_reducible apply canon_ite
    | with_reducible apply canonR_ite
    | with_reducible apply canonR_next
    | split
    | with_reducible refine canon_thm _ ?_
    | exact fun _ k => ⟨k.1, k.2⟩
    | exact fun _ k => k
    | exact ⟨hq.1, hq.2⟩
    | (refine ⟨⟨hq.1.1, hq.1.2⟩, ?_⟩)
    | (refine ⟨hq.1, ?_⟩)

theorem execIcmpEchoRequest_canon {s : State} (a0 : Fin 96) (a1 : Bool) (a2 : BitVec 128) (a3 : BitVec 128)
    (a4 : BitVec 48) (a5 : List Byte) (h : Canon s) :
    CanonR (execIcmpEchoRequest a0 a1 a2 a3 a4 a5 s) := by
  unfold execIcmpEchoRequest
  try dsimp only
  repeat' first
    | with_reducible assumption
    | with_reducible apply State.hkSend_canon
    | with_reducible apply canon_ite
    | with_reducible apply canonR_ite
    | with_reducible apply canonR_next
    | split
    | exact fun _ k => ⟨k.1, k.2⟩
    | exact fun _ k => k
    | exact ⟨hq.1, hq.2⟩
    | (refine ⟨⟨hq.1.1, hq.1.2⟩, ?_⟩)
    | (refine ⟨hq.1, ?_⟩)

theorem execCoolantOkFall_canon {s : State} (a0 : ℕ) (h : Canon s) :
    CanonR (execCoolantOkFall a0 s) := by
  unfold execCoolantOkFall
  try dsimp only
  repeat' first
    | with_reducible assumption
    | with_reducible apply State.at_canon
    | with_reducible apply canon_ite
    | with_reducible apply canonR_ite
    | with_reducible apply canonR_next
    | split
    | with_reducible refine canon_thm_pins _ _ ?_
    | exact fun _ k => ⟨k.1, k.2⟩
    | exact fun _ k => k
    | exact ⟨hq.1, hq.2⟩
    | (refine ⟨⟨hq.1.1, hq.1.2⟩, ?_⟩)
    | (refine ⟨hq.1, ?_⟩)

theorem State.reserveOut_canon {s : State} (a1 : ℕ) (a2 : Begun) (a3 : Arr) (a4 : DrainSpec) (h : Canon s) :
    Canon (State.reserveOut s a1 a2 a3 a4) := by
  unfold State.reserveOut
  try dsimp only
  repeat' first
    | with_reducible assumption
    | with_reducible apply State.onQueue_canon
    | with_reducible apply State.onBegun_canon
    | with_reducible apply Sequencer.onQueue_canon
    | with_reducible apply canon_ite
    | split
    | exact fun _ k => ⟨k.1, k.2⟩
    | exact fun _ k => k
    | exact ⟨hq.1, hq.2⟩
    | (refine ⟨⟨hq.1.1, hq.1.2⟩, ?_⟩)
    | (refine ⟨hq.1, ?_⟩)

theorem execTouch_canon {s : State} (a0 : PktHdr) (a1 : BitVec 24) (h : Canon s) :
    CanonR (execTouch a0 a1 s) := by
  unfold execTouch
  try dsimp only
  repeat' first
    | with_reducible assumption
    | with_reducible apply State.receiveCtl_canon
    | with_reducible apply Scratch.touch_canon
    | with_reducible apply canon_ite
    | with_reducible apply canonR_ite
    | with_reducible apply canonR_next
    | split
    | exact fun _ k => ⟨k.1, k.2⟩
    | exact fun _ k => k
    | exact ⟨hq.1, hq.2⟩
    | (refine ⟨⟨hq.1.1, hq.1.2⟩, ?_⟩)
    | (refine ⟨hq.1, ?_⟩)

theorem State.retireCommit_canon {s : State} (a1 : ℕ) (a2 : BitVec 12) (h : Canon s) :
    Canon (State.retireCommit s a1 a2) := by
  unfold State.retireCommit
  try dsimp only
  repeat' first
    | with_reducible assumption
    | with_reducible apply State.retireFront_canon
    | with_reducible apply canon_ite
    | split
    | exact fun _ k => ⟨k.1, k.2⟩
    | exact fun _ k => k
    | exact ⟨hq.1, hq.2⟩
    | (refine ⟨⟨hq.1.1, hq.1.2⟩, ?_⟩)
    | (refine ⟨hq.1, ?_⟩)

theorem execGroupCommitPoint_canon {s : State} (a0 : GrpKey) (h : Canon s) :
    CanonR (execGroupCommitPoint a0 s) := by
  unfold execGroupCommitPoint
  try dsimp only
  repeat' first
    | with_reducible assumption
    | with_reducible apply State.resolveLoc_canon
    | with_reducible apply State.pumpPort_canon
    | with_reducible apply State.retireCommit_canon
    | with_reducible apply State.commitShadows_canon
    | with_reducible apply State.sendGroup_canon
    | with_reducible apply State.endHandle_canon
    | with_reducible apply State.onSeq_canon
    | with_reducible apply State.onCore_canon
    | with_reducible apply Sequencer.onGrp_canon
    | with_reducible apply Core.releaseExtents_canon
    | with_reducible apply canon_ite
    | (with_reducible intro q hq; try dsimp only)
    | with_reducible apply canonR_ite
    | with_reducible apply canonR_next
    | split
    | exact fun _ k => ⟨k.1, k.2⟩
    | exact fun _ k => k
    | exact ⟨hq.1, hq.2⟩
    | (refine ⟨⟨hq.1.1, hq.1.2⟩, ?_⟩)
    | (refine ⟨hq.1, ?_⟩)

theorem execRetentionEntry_canon {s : State} (a0 : Fin 72) (h : Canon s) :
    CanonR (execRetentionEntry a0 s) := by
  unfold execRetentionEntry
  try dsimp only
  repeat' first
    | with_reducible assumption
    | with_reducible apply State.onDom_canon
    | with_reducible apply canon_ite
    | with_reducible apply canonR_ite
    | with_reducible apply canonR_next
    | split
    | exact fun _ k => ⟨k.1, k.2⟩
    | exact fun _ k => k
    | exact ⟨hq.1, hq.2⟩
    | (refine ⟨⟨hq.1.1, hq.1.2⟩, ?_⟩)
    | (refine ⟨hq.1, ?_⟩)

theorem execHostSnoop_canon {s : State} (a0 : BitVec 64) (h : Canon s) :
    CanonR (execHostSnoop a0 s) := by
  unfold execHostSnoop
  try dsimp only
  repeat' first
    | with_reducible assumption
    | with_reducible apply canon_ite
    | with_reducible apply canonR_ite
    | with_reducible apply canonR_next
    | split
    | with_reducible refine canon_host _ ?_ ?_
    | exact fun _ k => ⟨k.1, k.2⟩
    | exact fun _ k => k
    | exact ⟨hq.1, hq.2⟩
    | (refine ⟨⟨hq.1.1, hq.1.2⟩, ?_⟩)
    | (refine ⟨hq.1, ?_⟩)

theorem State.bubbleStall_canon {s : State} (a1 : ℕ) (a2 : Arr) (h : Canon s) :
    Canon (State.bubbleStall s a1 a2) := by
  unfold State.bubbleStall
  try dsimp only
  repeat' first
    | with_reducible assumption
    | with_reducible apply State.onSeq_canon
    | with_reducible apply Sequencer.stall_canon
    | with_reducible apply canon_ite
    | (with_reducible intro q hq; try dsimp only)
    | split
    | exact fun _ k => ⟨k.1, k.2⟩
    | exact fun _ k => k
    | exact ⟨hq.1, hq.2⟩
    | (refine ⟨⟨hq.1.1, hq.1.2⟩, ?_⟩)
    | (refine ⟨hq.1, ?_⟩)

theorem execRtoExpiry_canon {s : State} (a0 : BitVec 20) (a1 : ℕ) (h : Canon s) :
    CanonR (execRtoExpiry a0 a1 s) := by
  unfold execRtoExpiry
  try dsimp only
  repeat' first
    | with_reducible assumption
    | with_reducible apply State.at_canon
    | with_reducible apply State.retransmit_canon
    | with_reducible apply State.onFlow_canon
    | with_reducible apply canon_ite
    | with_reducible apply canonR_ite
    | with_reducible apply canonR_next
    | split
    | with_reducible refine canon_fab _ ?_ ?_
    | exact fun _ k => ⟨k.1, k.2⟩
    | exact fun _ k => k
    | exact ⟨hq.1, hq.2⟩
    | (refine ⟨⟨hq.1.1, hq.1.2⟩, ?_⟩)
    | (refine ⟨hq.1, ?_⟩)

theorem State.wireRaw_canon {s : State} (a1 : BitVec 18) (a2 : ℕ → List Byte) (h : Canon s) :
    Canon (State.wireRaw s a1 a2) := by
  unfold State.wireRaw
  try dsimp only
  repeat' first
    | with_reducible assumption
    | with_reducible apply State.onPort_canon
    | with_reducible apply canon_ite
    | split
    | exact fun _ k => ⟨k.1, k.2⟩
    | exact fun _ k => k
    | exact ⟨hq.1, hq.2⟩
    | (refine ⟨⟨hq.1.1, hq.1.2⟩, ?_⟩)
    | (refine ⟨hq.1, ?_⟩)

end Sys2Proof.Machine
end

