-- ==== Sys2Proof/Laws/Canons6.lean ====
section
/-! SUPPORT. Each operation and meaning, in dependency order (part 7 of 10), keeps the canonical form. -/

namespace Sys2Proof.Machine

theorem State.drainTile_canon {s : State} (a1 : ℕ) (a2 : Arr) (a3 : Bool) (a4 : Begun) (a5 : DrainSpec)
    (a6 : Desc) (h : Canon s) :
    Canon (State.drainTile s a1 a2 a3 a4 a5 a6) := by
  unfold State.drainTile
  try dsimp only
  repeat' first
    | with_reducible assumption
    | with_reducible apply State.onArray_canon
    | with_reducible apply State.onScp_canon
    | with_reducible apply Scratch.writeRun_canon
    | with_reducible apply Core.onArray_canon
    | with_reducible apply canon_ite
    | with_reducible refine foldl_keeps (P := Scratch.Canon) _ _ hq ?_
    | with_reducible apply canon_foldl
    | with_reducible apply canon_foldl2
    | with_reducible apply canon_getD
    | (with_reducible intro u x hu; try dsimp only)
    | (with_reducible intro q hq; try dsimp only)
    | split
    | exact fun _ k => ⟨k.1, k.2⟩
    | exact fun _ k => k
    | exact ⟨hq.1, hq.2⟩
    | exact fun _ k => ⟨k.1, k.2.1, (by dsimp only; exact Tbl.mapv_wf _ _ _ k.2.2.1), k.2.2.2⟩
    | exact fun _ k => ⟨k.1, k.2.1, k.2.2.1, (by dsimp only; exact Tbl.mapv_wf _ _ _ k.2.2.2)⟩
    | exact fun _ k => ⟨(by dsimp only; exact Tbl.mapv_wf _ _ _ k.1), k.2⟩
    | exact fun _ k => ⟨k.1, (by dsimp only; exact Tbl.mapv_wf _ _ _ k.2)⟩
    | exact ⟨hq.1, hq.2.1, hq.2.2.1, (by dsimp only; exact Tbl.set_wf _ _ _ _ hq.2.2.2.1), hq.2.2.2.2⟩
    | exact ⟨hq.1, hq.2.1, (by dsimp only; exact Tbl.set_wf _ _ _ _ hq.2.2.1), hq.2.2.2⟩
    | exact ⟨(by dsimp only; exact Tbl.mapv_wf _ _ _ hq.1), hq.2⟩
    | exact fun k => cores_mapv_canon _ (fun c k => Core.halt_canon k) k
    | exact fun k => (by dsimp only; exact Tbl.mapv_wf _ _ _ k.2.2.1)
    | exact fun k => (by dsimp only; exact Tbl.mapv_wf _ _ _ k.2.2.2.1)
    | exact fun _ k => (by dsimp only; exact Tbl.mapv_wf _ _ _ k)
    | (refine ⟨⟨hq.1.1, hq.1.2⟩, ?_⟩)
    | (refine ⟨hq.1, ?_⟩)

theorem State.waitingStalls_canon {s : State} (a1 : ℕ) (h : Canon s) :
    Canon (State.waitingStalls s a1) := by
  unfold State.waitingStalls
  try dsimp only
  repeat' first
    | with_reducible assumption
    | with_reducible apply State.onSeq_canon
    | with_reducible apply Sequencer.stall_canon
    | with_reducible apply canon_ite
    | with_reducible refine foldl_keeps (P := Sequencer.Canon) _ _ hq ?_
    | with_reducible apply canon_foldl
    | with_reducible apply canon_foldl2
    | (with_reducible intro u x hu; try dsimp only)
    | (with_reducible intro q hq; try dsimp only)
    | split
    | exact fun _ k => ⟨k.1, k.2⟩
    | exact fun _ k => k
    | exact ⟨hq.1, hq.2⟩
    | (refine ⟨⟨hq.1.1, hq.1.2⟩, ?_⟩)
    | (refine ⟨hq.1, ?_⟩)

theorem execTileDrainStart_canon {s : State} (a0 : Fin 64) (h : Canon s) :
    CanonR (execTileDrainStart a0 s) := by
  unfold execTileDrainStart
  try dsimp only
  repeat' first
    | with_reducible assumption
    | with_reducible apply State.reserveOut_canon
    | with_reducible apply State.drainTile_canon
    | with_reducible apply State.failBegun_canon
    | with_reducible apply accessHold_canon
    | with_reducible refine CanonP.out (o := accessHold _ _ _ _) ?_ (by assumption)
    | with_reducible apply State.waitingStalls_canon
    | with_reducible apply State.dropBegun_canon
    | with_reducible apply State.onSeq_canon
    | with_reducible apply State.addExtent_canon
    | with_reducible apply State.drainPump_canon
    | with_reducible apply Sequencer.stall_canon
    | with_reducible apply canon_ite
    | (with_reducible intro q hq; try dsimp only)
    | with_reducible apply canonR_ite
    | with_reducible apply canonR_next
    | split
    | exact fun _ k => ⟨k.1, k.2⟩
    | exact fun _ k => k
    | exact ⟨hq.1, hq.2⟩
    | (refine ⟨⟨hq.1.1, hq.1.2⟩, ?_⟩)
    | (refine ⟨hq.1, ?_⟩)

theorem vxCvtEff_canon {s : State} (a0 : Ctx) (h : Canon s) :
    Canon (vxCvtEff a0 s) := by
  unfold vxCvtEff
  try dsimp only
  repeat' first
    | with_reducible assumption
    | with_reducible apply readInputs_canon
    | with_reducible refine canon_pair (x := readInputs _ _) ?_ (by assumption)
    | with_reducible apply vxFinish_canon
    | with_reducible apply canon_ite
    | with_reducible apply canon_foldl
    | with_reducible apply canon_foldl2
    | (with_reducible intro u x hu; try dsimp only)
    | split
    | exact fun _ k => ⟨k.1, k.2⟩
    | exact fun _ k => k
    | exact ⟨hq.1, hq.2⟩
    | (refine ⟨⟨hq.1.1, hq.1.2⟩, ?_⟩)
    | (refine ⟨hq.1, ?_⟩)

theorem execVxCvt_canon {s : State} (a0 : Fin 64) (h : Canon s) :
    CanonR (execVxCvt a0 s) := by
  unfold execVxCvt
  try dsimp only
  repeat' first
    | with_reducible assumption
    | with_reducible apply vxCvtEff_canon
    | with_reducible apply runCmd_canon
    | with_reducible apply tileHold_canon
    | with_reducible refine CanonP.out (o := tileHold _ _ _) ?_ (by assumption)
    | with_reducible apply canon_ite
    | (with_reducible intro u x hu; try dsimp only)
    | with_reducible apply canonR_ite
    | with_reducible apply canonR_next
    | split
    | with_reducible exact canonP_none
    | with_reducible apply canonP_some
    | with_reducible intro u x hu
    | (with_reducible intro x u hu; try dsimp only)
    | exact fun _ k => ⟨k.1, k.2⟩
    | exact fun _ k => k
    | exact ⟨hq.1, hq.2⟩
    | (refine ⟨⟨hq.1.1, hq.1.2⟩, ?_⟩)
    | (refine ⟨hq.1, ?_⟩)
    | (unfold vxRow; try dsimp only)

theorem State.refusedBy_canon {s : State} (a1 : ℕ) (a2 : BitVec 8) (a3 : BitVec 32) (h : Canon s) :
    Canon (State.refusedBy s a1 a2 a3) := by
  unfold State.refusedBy
  try dsimp only
  repeat' first
    | with_reducible assumption
    | with_reducible apply State.failXfer_canon
    | with_reducible apply State.abortGroup_canon
    | with_reducible apply canon_ite
    | split
    | exact fun _ k => ⟨k.1, k.2⟩
    | exact fun _ k => k
    | exact ⟨hq.1, hq.2⟩
    | (refine ⟨⟨hq.1.1, hq.1.2⟩, ?_⟩)
    | (refine ⟨hq.1, ?_⟩)

theorem State.sendSetupAck_canon {s : State} (a1 : SetupBody) (a2 : ℕ) (a3 : ℕ) (h : Canon s) :
    Canon (State.sendSetupAck s a1 a2 a3) := by
  unfold State.sendSetupAck
  try dsimp only
  repeat' first
    | with_reducible assumption
    | with_reducible apply State.wireRaw_canon
    | with_reducible apply State.setupRefused_canon
    | with_reducible apply canon_ite
    | split
    | exact fun _ k => ⟨k.1, k.2⟩
    | exact fun _ k => k
    | exact ⟨hq.1, hq.2⟩
    | (refine ⟨⟨hq.1.1, hq.1.2⟩, ?_⟩)
    | (refine ⟨hq.1, ?_⟩)

theorem execHdmDecoderCommit_canon {s : State} (a0 : Fin 2) (a1 : ℕ) (a2 : ℕ) (a3 : ℕ) (a4 : ℕ) (h : Canon s) :
    CanonR (execHdmDecoderCommit a0 a1 a2 a3 a4 s) := by
  unfold execHdmDecoderCommit
  try dsimp only
  repeat' first
    | with_reducible assumption
    | with_reducible apply canon_ite
    | with_reducible apply canonR_ite
    | with_reducible apply canonR_next
    | split
    | with_reducible refine canon_host _ ?_ ?_
    | exact fun _ k => ⟨k.1, k.2⟩
    | exact fun _ k => k
    | exact ⟨hq.1, hq.2⟩
    | (refine ⟨⟨hq.1.1, hq.1.2⟩, ?_⟩)
    | (refine ⟨hq.1, ?_⟩)

theorem State.loadContext_canon {s : State} (a1 : Fin 16) (a2 : ℕ) (a3 : Image) (a4 : List TaskRec) (h : Canon s) :
    Canon (State.loadContext s a1 a2 a3 a4) := by
  unfold State.loadContext
  try dsimp only
  repeat' first
    | with_reducible assumption
    | with_reducible apply State.onColl_canon
    | with_reducible apply State.runLoad_canon
    | with_reducible apply State.preSetup_canon
    | with_reducible apply State.onJob_canon
    | with_reducible apply canon_ite
    | with_reducible apply canon_foldl
    | with_reducible apply canon_foldl2
    | (with_reducible intro u x hu; try dsimp only)
    | split
    | exact fun _ k => ⟨k.1, k.2⟩
    | exact fun _ k => k
    | exact ⟨hq.1, hq.2⟩
    | (refine ⟨⟨hq.1.1, hq.1.2⟩, ?_⟩)
    | (refine ⟨hq.1, ?_⟩)

theorem State.askOn_canon {s : State} (a1 : ℕ) (h : Canon s) :
    Canon (State.askOn s a1) := by
  unfold State.askOn
  try dsimp only
  repeat' first
    | with_reducible assumption
    | with_reducible apply State.onDom_canon
    | with_reducible apply canon_ite
    | split
    | exact fun _ k => ⟨k.1, k.2⟩
    | exact fun _ k => k
    | exact ⟨hq.1, hq.2⟩
    | (refine ⟨⟨hq.1.1, hq.1.2⟩, ?_⟩)
    | (refine ⟨hq.1, ?_⟩)

theorem execContextLoad_canon {s : State} (a0 : Fin 16) (a1 : Fin 4096) (a2 : List (Fin 64 × ℕ)) (h : Canon s) :
    CanonR (execContextLoad a0 a1 a2 s) := by
  unfold execContextLoad
  try dsimp only
  repeat' first
    | with_reducible assumption
    | with_reducible apply State.answerWith_canon
    | with_reducible apply State.loadContext_canon
    | with_reducible apply State.fetchBytes_canon
    | with_reducible refine canon_trip (x := State.fetchBytes _ _ _ _) ?_ (by assumption)
    | with_reducible apply State.askOn_canon
    | with_reducible apply State.refuse_canon
    | with_reducible apply State.onScp_canon
    | with_reducible apply Scratch.wake_canon
    | with_reducible apply canon_ite
    | with_reducible refine foldl_keeps (P := Scratch.Canon) _ _ hq ?_
    | with_reducible apply canon_foldl
    | with_reducible apply canon_foldl2
    | (with_reducible intro u x hu; try dsimp only)
    | (with_reducible intro q hq; try dsimp only)
    | with_reducible apply canonR_ite
    | with_reducible apply canonR_next
    | split
    | exact ⟨(Scratch.wake_canon _ hq).1, (Scratch.wake_canon _ hq).2⟩
    | exact fun _ k => ⟨k.1, k.2⟩
    | exact fun _ k => k
    | exact ⟨hq.1, hq.2⟩
    | (refine ⟨⟨hq.1.1, hq.1.2⟩, ?_⟩)
    | (refine ⟨hq.1, ?_⟩)

theorem State.discardNow_canon {s : State} (h : Canon s) :
    Canon (State.discardNow s) := by
  unfold State.discardNow
  try dsimp only
  repeat' first
    | with_reducible assumption
    | with_reducible apply State.discard_canon
    | with_reducible apply canon_ite
    | split
    | with_reducible refine canon_cfg _ ?_
    | exact fun _ k => ⟨k.1, k.2⟩
    | exact fun _ k => k
    | exact ⟨hq.1, hq.2⟩
    | (refine ⟨⟨hq.1.1, hq.1.2⟩, ?_⟩)
    | (refine ⟨hq.1, ?_⟩)

theorem execStageDiscard_canon {s : State} (h : Canon s) :
    CanonR (execStageDiscard s) := by
  unfold execStageDiscard
  try dsimp only
  repeat' first
    | with_reducible assumption
    | with_reducible apply State.discardNow_canon
    | with_reducible apply canon_ite
    | with_reducible apply canonR_ite
    | with_reducible apply canonR_next
    | split
    | exact fun _ k => ⟨k.1, k.2⟩
    | exact fun _ k => k
    | exact ⟨hq.1, hq.2⟩
    | (refine ⟨⟨hq.1.1, hq.1.2⟩, ?_⟩)
    | (refine ⟨hq.1, ?_⟩)

theorem execPtpSyncLoss_canon {s : State} (a0 : ℕ) (h : Canon s) :
    CanonR (execPtpSyncLoss a0 s) := by
  unfold execPtpSyncLoss
  try dsimp only
  repeat' first
    | with_reducible assumption
    | with_reducible apply State.at_canon
    | with_reducible apply canon_ite
    | with_reducible apply canonR_ite
    | with_reducible apply canonR_next
    | split
    | with_reducible refine canon_fab _ ?_ ?_
    | exact fun _ k => ⟨k.1, k.2⟩
    | exact fun _ k => k
    | exact ⟨hq.1, hq.2⟩
    | (refine ⟨⟨hq.1.1, hq.1.2⟩, ?_⟩)
    | (refine ⟨hq.1, ?_⟩)

theorem execFaultReceived_canon {s : State} (a0 : Fin 96) (a1 : Bool) (h : Canon s) :
    CanonR (execFaultReceived a0 a1 s) := by
  unfold execFaultReceived
  try dsimp only
  repeat' first
    | with_reducible assumption
    | with_reducible apply State.signal_canon
    | with_reducible apply State.portTo_canon
    | with_reducible apply State.onPort_canon
    | with_reducible apply canon_ite
    | with_reducible apply canonR_ite
    | with_reducible apply canonR_next
    | split
    | exact fun _ k => ⟨k.1, k.2⟩
    | exact fun _ k => k
    | exact ⟨hq.1, hq.2⟩
    | (refine ⟨⟨hq.1.1, hq.1.2⟩, ?_⟩)
    | (refine ⟨hq.1, ?_⟩)

theorem State.tryPassword_canon {s : State} (a1 : ℕ) (a2 : List Byte) (h : Canon s) :
    Canon (State.tryPassword s a1 a2).2 := by
  unfold State.tryPassword
  try dsimp only
  repeat' first
    | with_reducible assumption
    | with_reducible apply State.openLevel_canon
    | with_reducible apply canon_ite
    | split
    | with_reducible refine canon_sec _ ?_
    | exact fun _ k => ⟨k.1, k.2⟩
    | exact fun _ k => k
    | exact ⟨hq.1, hq.2⟩
    | (refine ⟨⟨hq.1.1, hq.1.2⟩, ?_⟩)
    | (refine ⟨hq.1, ?_⟩)
    | dsimp only

theorem execSecUnlockPassword_canon {s : State} (a0 : ℕ) (h : Canon s) :
    CanonR (execSecUnlockPassword a0 s) := by
  unfold execSecUnlockPassword
  try dsimp only
  repeat' first
    | with_reducible assumption
    | with_reducible apply State.at_canon
    | with_reducible apply State.unlockData_canon
    | with_reducible refine CanonQ.out (o := State.unlockData _ _) ?_ (by assumption)
    | with_reducible apply State.tryPassword_canon
    | with_reducible refine canon_pair (x := State.tryPassword _ _ _) ?_ (by assumption)
    | with_reducible apply State.unlockDone_canon
    | with_reducible apply canon_ite
    | with_reducible apply canonR_ite
    | with_reducible apply canonR_next
    | split
    | exact fun _ k => ⟨k.1, k.2⟩
    | exact fun _ k => k
    | exact ⟨hq.1, hq.2⟩
    | (refine ⟨⟨hq.1.1, hq.1.2⟩, ?_⟩)
    | (refine ⟨hq.1, ?_⟩)

theorem State.landParts_canon {s : State} (a1 : ℕ) (a2 : Begun) (a3 : List (ℕ × ℕ)) (a4 : List MB) (h : Canon s) :
    CanonD (State.landParts s a1 a2 a3 a4) := by
  induction a3 generalizing s a1 a2 a4 with
  | nil =>
    unfold State.landParts
    try dsimp only
    repeat' first
      | with_reducible assumption
      | with_reducible apply State.landBytes_canon
      | with_reducible refine CanonD.waitOut (v := State.landBytes _ _ _ _ _) ?_ (by assumption)
      | with_reducible refine CanonD.doneOut (v := State.landBytes _ _ _ _ _) ?_ (by assumption)
      | with_reducible apply canon_ite
      | with_reducible apply canonD_wait
      | with_reducible exact canonD_code
      | with_reducible apply canonD_done
      | split
      | exact fun _ k => ⟨k.1, k.2⟩
      | exact fun _ k => k
      | exact ⟨hq.1, hq.2⟩
      | (refine ⟨⟨hq.1.1, hq.1.2⟩, ?_⟩)
      | (refine ⟨hq.1, ?_⟩)
  | cons x r ih =>
    unfold State.landParts
    try dsimp only
    repeat' first
      | with_reducible assumption
      | with_reducible apply ih
      | with_reducible apply State.landBytes_canon
      | with_reducible refine CanonD.waitOut (v := State.landBytes _ _ _ _ _) ?_ (by assumption)
      | with_reducible refine CanonD.doneOut (v := State.landBytes _ _ _ _ _) ?_ (by assumption)
      | with_reducible apply canon_ite
      | with_reducible apply canonD_wait
      | with_reducible exact canonD_code
      | with_reducible apply canonD_done
      | split
      | exact fun _ k => ⟨k.1, k.2⟩
      | exact fun _ k => k
      | exact ⟨hq.1, hq.2⟩
      | (refine ⟨⟨hq.1.1, hq.1.2⟩, ?_⟩)
      | (refine ⟨hq.1, ?_⟩)

theorem State.moveXfers_canon {s : State} (a1 : ℕ) (a2 : Option ℕ) (a3 : Option ℕ) (h : Canon s) :
    Canon (State.moveXfers s a1 a2 a3) := by
  unfold State.moveXfers
  try dsimp only
  repeat' first
    | with_reducible assumption
    | with_reducible apply canon_ite
    | split
    | with_reducible refine canon_fab _ ?_ ?_
    | exact fun _ k => ⟨k.1, k.2⟩
    | exact fun _ k => k
    | exact ⟨hq.1, hq.2⟩
    | (refine ⟨⟨hq.1.1, hq.1.2⟩, ?_⟩)
    | (refine ⟨hq.1, ?_⟩)

theorem execVxTanh_canon {s : State} (a0 : Fin 64) (h : Canon s) :
    CanonR (execVxTanh a0 s) := by
  unfold execVxTanh
  try dsimp only
  repeat' first
    | with_reducible assumption
    | with_reducible apply vxElementwise_canon
    | with_reducible apply runCmd_canon
    | with_reducible apply tileHold_canon
    | with_reducible refine CanonP.out (o := tileHold _ _ _) ?_ (by assumption)
    | with_reducible apply canon_ite
    | (with_reducible intro u x hu; try dsimp only)
    | with_reducible apply canonR_ite
    | with_reducible apply canonR_next
    | split
    | with_reducible exact canonP_none
    | with_reducible apply canonP_some
    | with_reducible intro u x hu
    | (with_reducible intro x u hu; try dsimp only)
    | exact fun _ k => ⟨k.1, k.2⟩
    | exact fun _ k => k
    | exact ⟨hq.1, hq.2⟩
    | (refine ⟨⟨hq.1.1, hq.1.2⟩, ?_⟩)
    | (refine ⟨hq.1, ?_⟩)
    | (unfold vxRow; try dsimp only)

theorem execArpRequest_canon {s : State} (a0 : Fin 96) (a1 : BitVec 32) (a2 : BitVec 32) (a3 : BitVec 48)
    (h : Canon s) :
    CanonR (execArpRequest a0 a1 a2 a3 s) := by
  unfold execArpRequest
  try dsimp only
  repeat' first
    | with_reducible assumption
    | with_reducible apply State.hkSend_canon
    | with_reducible apply canon_ite
    | with_reducible apply canonR_ite
    | with_reducible apply canonR_next
    | split
    | exact fun _ k => ⟨k.1, k.2⟩
    | exact fun _ k => k
    | exact ⟨hq.1, hq.2⟩
    | (refine ⟨⟨hq.1.1, hq.1.2⟩, ?_⟩)
    | (refine ⟨hq.1, ?_⟩)

theorem State.reserveTile_canon {s : State} (a1 : Ctx) (a2 : ℕ) (a3 : ℕ) (a4 : ℕ) (h : Canon s) :
    Canon (State.reserveTile s a1 a2 a3 a4).2 := by
  unfold State.reserveTile
  try dsimp only
  repeat' first
    | with_reducible assumption
    | with_reducible apply State.onQueue_canon
    | with_reducible apply Sequencer.onQueue_canon
    | with_reducible apply canon_ite
    | split
    | exact fun _ k => ⟨k.1, k.2⟩
    | exact fun _ k => k
    | exact ⟨hq.1, hq.2⟩
    | (refine ⟨⟨hq.1.1, hq.1.2⟩, ?_⟩)
    | (refine ⟨hq.1, ?_⟩)
    | dsimp only

theorem execTrainingRetry_canon {s : State} (a0 : Fin 96) (a1 : Bool) (a2 : ℕ) (h : Canon s) :
    CanonR (execTrainingRetry a0 a1 a2 s) := by
  unfold execTrainingRetry
  try dsimp only
  repeat' first
    | with_reducible assumption
    | with_reducible apply State.noSpare_canon
    | with_reducible apply State.at_canon
    | with_reducible apply State.onPort_canon
    | with_reducible apply State.portTo_canon
    | with_reducible apply canon_ite
    | with_reducible apply canonR_ite
    | with_reducible apply canonR_next
    | split
    | exact fun _ k => ⟨k.1, k.2⟩
    | exact fun _ k => k
    | exact ⟨hq.1, hq.2⟩
    | (refine ⟨⟨hq.1.1, hq.1.2⟩, ?_⟩)
    | (refine ⟨hq.1, ?_⟩)

theorem State.placeWin_canon {s : State} (a1 : PktHdr) (a2 : WinHdr) (a3 : List Byte) (h : Canon s) :
    Canon (State.placeWin s a1 a2 a3).2 := by
  unfold State.placeWin
  try dsimp only
  repeat' first
    | with_reducible assumption
    | with_reducible apply State.noteXfer_canon
    | with_reducible apply State.spoilXfer_canon
    | with_reducible apply State.openHandle_canon
    | with_reducible refine CanonO.out (o := State.openHandle _ _ _) ?_ (by assumption)
    | with_reducible apply State.noteShape_canon
    | with_reducible apply State.placeWindow_canon
    | with_reducible refine CanonL.queuedOut (v := State.placeWindow _ _ _ _ _) ?_ (by assumption)
    | with_reducible refine CanonL.codeOut (v := State.placeWindow _ _ _ _ _) ?_ (by assumption)
    | with_reducible refine CanonL.doneOut (v := State.placeWindow _ _ _ _ _) ?_ (by assumption)
    | with_reducible apply State.placeEntry_canon
    | with_reducible apply State.bufRelease_canon
    | with_reducible apply State.dropWindow_canon
    | with_reducible apply canon_ite
    | with_reducible refine CanonO.out (o := ite _ _ _) ?_ (by assumption)
    | with_reducible apply canonO_some
    | split
    | exact fun _ k => ⟨k.1, k.2⟩
    | exact fun _ k => k
    | exact ⟨hq.1, hq.2⟩
    | (refine ⟨⟨hq.1.1, hq.1.2⟩, ?_⟩)
    | (refine ⟨hq.1, ?_⟩)
    | dsimp only

theorem execWriteWin_canon {s : State} (a0 : PktHdr) (a1 : WinHdr) (a2 : List Byte) (h : Canon s) :
    CanonR (execWriteWin a0 a1 a2 s) := by
  unfold execWriteWin
  try dsimp only
  repeat' first
    | with_reducible assumption
    | with_reducible apply State.receiveData_canon
    | with_reducible apply State.placeWin_canon
    | with_reducible refine canon_pair (x := State.placeWin _ _ _ _) ?_ (by assumption)
    | with_reducible apply canon_ite
    | (with_reducible intro u hu; try dsimp only)
    | with_reducible apply canonR_ite
    | with_reducible apply canonR_next
    | split
    | exact fun _ k => ⟨k.1, k.2⟩
    | exact fun _ k => k
    | exact ⟨hq.1, hq.2⟩
    | (refine ⟨⟨hq.1.1, hq.1.2⟩, ?_⟩)
    | (refine ⟨hq.1, ?_⟩)

theorem tongsAlone_canon {s : State} (r : Row) (lc : Nat) (e : Eng) (h : Canon s)
    (hh : ∀ s c, Canon s → CanonP (r.hold s c)) : CanonR (tongsAlone r lc e s) := by
  unfold tongsAlone
  exact runCmd_canon r _ _ lc e h hh fun c u hu => State.stallNow_canon _ _ _ hu

theorem execTongsPairStart_canon {s : State} (a0 : Fin 64) (h : Canon s) : CanonR (execTongsPairStart a0 s) := by
  have alone : ∀ r e, r = tongsRow ∨ r = tongsHalfRow → CanonR (tongsAlone r a0 e s) := by
    rintro r e (rfl | rfl)
    · refine tongsAlone_canon _ _ _ h fun u c hu => ?_
      show CanonP (accessHold u c (inRuns u c) [])
      exact accessHold_canon _ _ _ hu
    · exact tongsAlone_canon _ _ _ h fun u c _ => show CanonP (none : Option (Nat × State)) from canonP_none
  unfold execTongsPairStart
  repeat' first
    | with_reducible exact canonR_next h
    | exact alone _ _ (.inl (Eq.refl _))
    | exact alone _ _ (.inr (Eq.refl _))
    | with_reducible apply canonR_next
    | with_reducible apply State.failStream_canon
    | (refine State.onSeq_canon _ _ ?_ fun q hq => ⟨hq.1, hq.2⟩)
    | with_reducible assumption
    | split

theorem execMmTongs_canon {s : State} (a0 : Fin 64) (h : Canon s) :
    CanonR (execMmTongs a0 s) := by
  unfold execMmTongs
  try dsimp only
  repeat' first
    | with_reducible assumption
    | with_reducible apply tongsEff_canon
    | with_reducible apply execTongsPairStart_canon
    | with_reducible apply runCmd_canon
    | with_reducible apply accessHold_canon
    | with_reducible refine CanonP.out (o := accessHold _ _ _ _) ?_ (by assumption)
    | with_reducible apply canon_ite
    | (with_reducible intro u x hu; try dsimp only)
    | with_reducible apply canonR_ite
    | with_reducible apply canonR_next
    | split
    | with_reducible exact canonP_none
    | with_reducible apply canonP_some
    | with_reducible intro u x hu
    | (with_reducible intro x u hu; try dsimp only)
    | exact fun _ k => ⟨k.1, k.2⟩
    | exact fun _ k => k
    | exact ⟨hq.1, hq.2⟩
    | (refine ⟨⟨hq.1.1, hq.1.2⟩, ?_⟩)
    | (refine ⟨hq.1, ?_⟩)
    | (unfold tongsRow; try dsimp only)

theorem execHeldMessageDelivery_canon {s : State} (a0 : Fin 16) (h : Canon s) :
    CanonR (execHeldMessageDelivery a0 s) := by
  unfold execHeldMessageDelivery
  try dsimp only
  repeat' first
    | with_reducible assumption
    | with_reducible apply State.onPair_canon
    | with_reducible apply canon_ite
    | with_reducible apply canonR_ite
    | with_reducible apply canonR_next
    | split
    | with_reducible refine canon_host _ ?_ ?_
    | exact fun k => k
    | exact fun k => Pair.putMsg_canon _ k
    | exact fun k => Pair.write_canon _ _ k
    | exact fun _ k => ⟨k.1, k.2⟩
    | exact fun _ k => k
    | exact ⟨hq.1, hq.2⟩
    | (refine ⟨⟨hq.1.1, hq.1.2⟩, ?_⟩)
    | (refine ⟨hq.1, ?_⟩)

theorem State.latch_canon {s : State} (a1 : ℕ) (h : Canon s) :
    CanonO (State.latch? s a1) := by
  unfold State.latch?
  try dsimp only
  repeat' first
    | with_reducible assumption
    | with_reducible apply State.onStk_canon
    | with_reducible apply State.onSeq_canon
    | with_reducible apply State.fresh_canon
    | with_reducible refine canon_pair (x := State.fresh _) ?_ (by assumption)
    | with_reducible apply State.onPort_canon
    | with_reducible apply canon_ite
    | with_reducible apply canon_getD
    | (with_reducible intro q hq; try dsimp only)
    | with_reducible apply canonO_bind
    | with_reducible apply canonO_foldl
    | with_reducible refine CanonO.out (o := Option.bind _ _) ?_ (by assumption)
    | with_reducible intro u hu
    | exact ⟨hu.1, hu.2⟩
    | with_reducible exact canonO_none
    | with_reducible apply canonO_some
    | split
    | with_reducible refine canon_clk _ ?_
    | with_reducible refine canon_mgmt _ ?_
    | with_reducible refine canon_pwr _ ?_ ?_
    | with_reducible refine canon_sec _ ?_
    | with_reducible refine canon_sec_mgmt _ _ ?_
    | exact fun _ k => ⟨k.1, k.2⟩
    | exact fun _ k => k
    | exact ⟨hq.1, hq.2⟩
    | exact fun _ k => ⟨k.1, k.2.1, (by dsimp only; exact Tbl.mapv_wf _ _ _ k.2.2.1), k.2.2.2⟩
    | exact fun _ k => ⟨k.1, k.2.1, k.2.2.1, (by dsimp only; exact Tbl.mapv_wf _ _ _ k.2.2.2)⟩
    | exact fun _ k => ⟨(by dsimp only; exact Tbl.mapv_wf _ _ _ k.1), k.2⟩
    | exact fun _ k => ⟨k.1, (by dsimp only; exact Tbl.mapv_wf _ _ _ k.2)⟩
    | exact ⟨hq.1, hq.2.1, hq.2.2.1, (by dsimp only; exact Tbl.set_wf _ _ _ _ hq.2.2.2.1), hq.2.2.2.2⟩
    | exact ⟨hq.1, hq.2.1, (by dsimp only; exact Tbl.set_wf _ _ _ _ hq.2.2.1), hq.2.2.2⟩
    | exact ⟨(by dsimp only; exact Tbl.mapv_wf _ _ _ hq.1), hq.2⟩
    | exact fun k => cores_mapv_canon _ (fun c k => Core.halt_canon k) k
    | exact fun k => (by dsimp only; exact Tbl.mapv_wf _ _ _ k.2.2.1)
    | exact fun k => (by dsimp only; exact Tbl.mapv_wf _ _ _ k.2.2.2.1)
    | exact fun _ k => (by dsimp only; exact Tbl.mapv_wf _ _ _ k)
    | (refine ⟨⟨hq.1.1, hq.1.2⟩, ?_⟩)
    | (refine ⟨hq.1, ?_⟩)

theorem execSmbusOffsetWrite_canon {s : State} (a0 : List Byte) (h : Canon s) :
    CanonR (execSmbusOffsetWrite a0 s) := by
  unfold execSmbusOffsetWrite
  try dsimp only
  repeat' first
    | with_reducible assumption
    | with_reducible apply canon_ite
    | with_reducible apply canon_getD
    | with_reducible apply canonR_ite
    | with_reducible apply canonR_next
    | split
    | with_reducible refine canon_pins _ ?_
    | exact fun _ k => ⟨k.1, k.2⟩
    | exact fun _ k => k
    | exact ⟨hq.1, hq.2⟩
    | (refine ⟨⟨hq.1.1, hq.1.2⟩, ?_⟩)
    | (refine ⟨hq.1, ?_⟩)

theorem execMc3Restart_canon {s : State} (a0 : Bool) (h : Canon s) :
    CanonR (execMc3Restart a0 s) := by
  unfold execMc3Restart
  try dsimp only
  repeat' first
    | with_reducible assumption
    | with_reducible apply State.goOutAll_canon
    | with_reducible apply State.logErr_canon
    | with_reducible apply canon_ite
    | with_reducible apply canonR_ite
    | with_reducible apply canonR_next
    | split
    | with_reducible refine canon_fab_mgmt _ _ ?_ ?_
    | exact fun _ k => ⟨k.1, k.2⟩
    | exact fun _ k => k
    | exact ⟨hq.1, hq.2⟩
    | exact fun _ k => ⟨k.1, k.2.1, (by dsimp only; exact Tbl.mapv_wf _ _ _ k.2.2.1), k.2.2.2⟩
    | exact fun _ k => ⟨k.1, k.2.1, k.2.2.1, (by dsimp only; exact Tbl.mapv_wf _ _ _ k.2.2.2)⟩
    | exact fun _ k => ⟨(by dsimp only; exact Tbl.mapv_wf _ _ _ k.1), k.2⟩
    | exact fun _ k => ⟨k.1, (by dsimp only; exact Tbl.mapv_wf _ _ _ k.2)⟩
    | exact ⟨hq.1, hq.2.1, hq.2.2.1, (by dsimp only; exact Tbl.set_wf _ _ _ _ hq.2.2.2.1), hq.2.2.2.2⟩
    | exact ⟨hq.1, hq.2.1, (by dsimp only; exact Tbl.set_wf _ _ _ _ hq.2.2.1), hq.2.2.2⟩
    | exact ⟨(by dsimp only; exact Tbl.mapv_wf _ _ _ hq.1), hq.2⟩
    | exact fun k => cores_mapv_canon _ (fun c k => Core.halt_canon k) k
    | exact fun k => (by dsimp only; exact Tbl.mapv_wf _ _ _ k.2.2.1)
    | exact fun k => (by dsimp only; exact Tbl.mapv_wf _ _ _ k.2.2.2.1)
    | exact fun _ k => (by dsimp only; exact Tbl.mapv_wf _ _ _ k)
    | (refine ⟨⟨hq.1.1, hq.1.2⟩, ?_⟩)
    | (refine ⟨hq.1, ?_⟩)

theorem State.takeBack_canon {s : State} (a1 : ℕ) (a2 : ℕ) (h : Canon s) :
    Canon (State.takeBack s a1 a2) := by
  unfold State.takeBack
  try dsimp only
  repeat' first
    | with_reducible assumption
    | with_reducible apply State.moveXfers_canon
    | with_reducible apply State.onScp_canon
    | with_reducible apply State.dropAside_canon
    | with_reducible apply canon_ite
    | (with_reducible intro q hq; try dsimp only)
    | split
    | exact fun _ k => ⟨k.1, k.2⟩
    | exact fun _ k => k
    | exact ⟨hq.1, hq.2⟩
    | (refine ⟨⟨hq.1.1, hq.1.2⟩, ?_⟩)
    | (refine ⟨hq.1, ?_⟩)

theorem State.restoreWindows_canon {s : State} (a1 : ℕ) (h : Canon s) : Canon (State.restoreWindows s a1) := by
  unfold State.restoreWindows
  extract_lets rx struck s1 q mine s2 place s3
  have k1 : Canon s1 := State.onSeq_canon _ _ h fun q hq => ⟨hq.1, by dsimp only; exact Tbl.mapv_wf _ _ _ hq.2.1, hq.2.2⟩
  clear_value s1 mine
  have k2 : Canon s2 := canon_foldl _ _ k1 fun _ _ k => State.onSeq_canon _ _ k fun _ hq =>
    Sequencer.windowPump_canon _ _ hq
  clear_value s2
  have kp : ∀ f s x, Canon s → Canon (place f s x) := fun f s x k => canon_ite (State.placeEntry_canon _ _ _ k) k
  clear_value place
  have k3 : Canon s3 := canon_foldl _ _ k2 fun _ _ k => canon_foldl _ _ k fun _ _ k => kp _ _ _ k
  exact canon_foldl _ _ k3 fun _ _ k => kp _ _ _ k

theorem State.restoreTask_canon {s : State} (a1 a2 : ℕ) (a3 : Job) (a4 : TaskRec) (a5 : Saved) (h : Canon s)
    (hv : a5.Canon) : Canon (State.restoreTask s a1 a2 a3 a4 a5) := by
  unfold State.restoreTask
  exact State.restoreWindows_canon _ (State.takeBack_canon _ _ (State.onCore_canon _ _ h fun c k =>
    ⟨⟨by dsimp only; exact Tbl.mapv_wf _ _ _ hv.1, hv.2.1, hv.2.2.1, k.1.2.2.2.1, fun v hv => k.1.2.2.2.2 v (List.mem_filter.mp hv).1⟩,
      k.2.1, hv.2.2.2, k.2.2.2⟩))

theorem State.setSections_canon {s : State} (a1 : ℕ) (h : Canon s) : Canon (State.setSections s a1) := by
  unfold State.setSections
  refine canon_ite h (canon_foldl _ _ h fun u k hu => canon_ite ?_ ?_)
  · refine State.onScp_canon _ _ hu fun m hm => ?_
    dsimp only
    split
    · exact Scratch.sectReq_canon _ _ hm
    · exact Scratch.wake_canon _ (Scratch.sectReq_canon _ _ hm)
  · refine State.onScp_canon _ _ hu fun m hm => ?_
    split
    · exact Scratch.sectReq_canon _ _ hm
    · exact hm

theorem State.startTask_canon {s : State} (a1 : ℕ) (a2 : TaskRec) (h : Canon s) :
    Canon (State.startTask s a1 a2) := by
  unfold State.startTask
  extract_lets x s1
  have k1 : Canon s1 := State.setSections_canon _ h
  clear_value s1
  split
  · exact State.restoreTask_canon _ _ _ _ _ k1 ((k1.1.2 _).1.2.2.2.2 _ (List.mem_of_find?_eq_some (by assumption)))
  · exact State.onSeq_canon _ _ k1 fun _ hq => Sequencer.start_canon _ _ _ hq

theorem State.allOff_canon {s : State} (h : Canon s) :
    Canon (State.allOff s) := by
  unfold State.allOff
  try dsimp only
  repeat' first
    | with_reducible assumption
    | with_reducible apply State.powerOff_canon
    | with_reducible apply canon_ite
    | split
    | with_reducible refine canon_sec_mgmt _ _ ?_
    | exact fun _ k => ⟨k.1, k.2⟩
    | exact fun _ k => k
    | exact ⟨hq.1, hq.2⟩
    | (refine ⟨⟨hq.1.1, hq.1.2⟩, ?_⟩)
    | (refine ⟨hq.1, ?_⟩)

theorem execVinOutOfRange_canon {s : State} (a0 : ℕ) (h : Canon s) :
    CanonR (execVinOutOfRange a0 s) := by
  unfold execVinOutOfRange
  try dsimp only
  repeat' first
    | with_reducible assumption
    | with_reducible apply State.allOff_canon
    | with_reducible apply canon_ite
    | with_reducible apply canonR_ite
    | with_reducible apply canonR_next
    | split
    | with_reducible refine canon_pins _ ?_
    | with_reducible refine canon_pwr _ ?_ ?_
    | with_reducible refine canon_pwr_pins _ _ ?_ ?_
    | exact fun _ k => ⟨k.1, k.2⟩
    | exact fun _ k => k
    | exact ⟨hq.1, hq.2⟩
    | (refine ⟨⟨hq.1.1, hq.1.2⟩, ?_⟩)
    | (refine ⟨hq.1, ?_⟩)

theorem State.settleTemper_canon {s : State} (a1 : ℕ) (h : Canon s) :
    Canon (State.settleTemper s a1) := by
  unfold State.settleTemper
  try dsimp only
  repeat' first
    | with_reducible assumption
    | with_reducible apply State.requestStep_canon
    | with_reducible apply State.onDom_canon
    | with_reducible apply canon_ite
    | split
    | exact fun _ k => ⟨k.1, k.2⟩
    | exact fun _ k => k
    | exact ⟨hq.1, hq.2⟩
    | (refine ⟨⟨hq.1.1, hq.1.2⟩, ?_⟩)
    | (refine ⟨hq.1, ?_⟩)

theorem execTemperHourly_canon {s : State} (a0 : Fin 72) (a1 : ℕ) (h : Canon s) :
    CanonR (execTemperHourly a0 a1 s) := by
  unfold execTemperHourly
  try dsimp only
  repeat' first
    | with_reducible assumption
    | with_reducible apply State.requestStep_canon
    | with_reducible apply State.onDom_canon
    | with_reducible apply State.settleTemper_canon
    | with_reducible apply State.at_canon
    | with_reducible apply canon_ite
    | with_reducible apply canonR_ite
    | with_reducible apply canonR_next
    | split
    | exact fun _ k => ⟨k.1, k.2⟩
    | exact fun _ k => k
    | exact ⟨hq.1, hq.2⟩
    | (refine ⟨⟨hq.1.1, hq.1.2⟩, ?_⟩)
    | (refine ⟨hq.1, ?_⟩)

theorem State.ackOwner_canon {s : State} (a1 : TxPkt) (h : Canon s) :
    Canon (State.ackOwner s a1) := by
  unfold State.ackOwner
  try dsimp only
  repeat' first
    | with_reducible assumption
    | with_reducible apply State.confirmChain_canon
    | with_reducible apply State.endXfer_canon
    | with_reducible apply State.onBegun_canon
    | with_reducible apply canon_ite
    | split
    | exact fun _ k => ⟨k.1, k.2⟩
    | exact fun _ k => k
    | exact ⟨hq.1, hq.2⟩
    | (refine ⟨⟨hq.1.1, hq.1.2⟩, ?_⟩)
    | (refine ⟨hq.1, ?_⟩)

theorem State.ackFlow_canon {s : State} (a1 : ℕ) (a2 : ℕ) (a3 : AckHdr) (h : Canon s) :
    Canon (State.ackFlow s a1 a2 a3) := by
  unfold State.ackFlow
  try dsimp only
  repeat' first
    | with_reducible assumption
    | with_reducible apply State.onFlow_canon
    | with_reducible apply canon_ite
    | with_reducible apply canon_getD
    | split
    | exact fun _ k => ⟨k.1, k.2⟩
    | exact fun _ k => k
    | exact ⟨hq.1, hq.2⟩
    | (refine ⟨⟨hq.1.1, hq.1.2⟩, ?_⟩)
    | (refine ⟨hq.1, ?_⟩)

theorem execAck_canon {s : State} (a0 : PktHdr) (a1 : AckHdr) (h : Canon s) :
    CanonR (execAck a0 a1 s) := by
  unfold execAck
  try dsimp only
  repeat' first
    | with_reducible assumption
    | with_reducible apply State.ctxUse_canon
    | with_reducible refine canon_pair (x := State.ctxUse _ _) ?_ (by assumption)
    | with_reducible apply State.refusedBy_canon
    | with_reducible apply State.freeFlowAt_canon
    | with_reducible apply State.ackOwner_canon
    | with_reducible apply State.pumpFlow_canon
    | with_reducible apply State.ackFlow_canon
    | with_reducible apply State.bufRelease_canon
    | with_reducible apply State.failFlow_canon
    | with_reducible apply canon_ite
    | with_reducible apply canon_foldl
    | with_reducible apply canon_foldl2
    | (with_reducible intro u x hu; try dsimp only)
    | with_reducible apply canonR_ite
    | with_reducible apply canonR_next
    | split
    | exact fun _ k => ⟨k.1, k.2⟩
    | exact fun _ k => k
    | exact ⟨hq.1, hq.2⟩
    | (refine ⟨⟨hq.1.1, hq.1.2⟩, ?_⟩)
    | (refine ⟨hq.1, ?_⟩)

theorem execVxFma_canon {s : State} (a0 : Fin 64) (h : Canon s) :
    CanonR (execVxFma a0 s) := by
  unfold execVxFma
  try dsimp only
  repeat' first
    | with_reducible assumption
    | with_reducible apply vxElementwise_canon
    | with_reducible apply runCmd_canon
    | with_reducible apply tileHold_canon
    | with_reducible refine CanonP.out (o := tileHold _ _ _) ?_ (by assumption)
    | with_reducible apply canon_ite
    | with_reducible apply canon_getD
    | (with_reducible intro u x hu; try dsimp only)
    | with_reducible apply canonR_ite
    | with_reducible apply canonR_next
    | split
    | with_reducible exact canonP_none
    | with_reducible apply canonP_some
    | with_reducible intro u x hu
    | (with_reducible intro x u hu; try dsimp only)
    | exact fun _ k => ⟨k.1, k.2⟩
    | exact fun _ k => k
    | exact ⟨hq.1, hq.2⟩
    | (refine ⟨⟨hq.1.1, hq.1.2⟩, ?_⟩)
    | (refine ⟨hq.1, ?_⟩)
    | (unfold vxRow; try dsimp only)

theorem execHostMemRequest_canon {s : State} (a0 : BitVec 40) (a1 : HostMem) (a2 : Bool) (h : Canon s) :
    CanonR (execHostMemRequest a0 a1 a2 s) := by
  unfold execHostMemRequest
  try dsimp only
  repeat' first
    | with_reducible assumption
    | with_reducible apply State.retryHeld_canon
    | with_reducible apply State.doHost_canon
    | with_reducible apply Sequencer.write_canon
    | with_reducible apply Scratch.read_canon
    | with_reducible apply canon_ite
    | with_reducible apply canonR_ite
    | with_reducible apply canonR_next
    | split
    | with_reducible refine canon_host _ ?_ ?_
    | exact fun _ k => ⟨k.1, k.2⟩
    | exact fun _ k => k
    | exact ⟨hq.1, hq.2⟩
    | (refine ⟨⟨hq.1.1, hq.1.2⟩, ?_⟩)
    | (refine ⟨hq.1, ?_⟩)

theorem execRedTopk_canon {s : State} (a0 : Fin 64) (h : Canon s) :
    CanonR (execRedTopk a0 s) := by
  unfold execRedTopk
  try dsimp only
  repeat' first
    | with_reducible assumption
    | with_reducible apply redSelect_canon
    | with_reducible apply runCmd_canon
    | with_reducible apply tileHold_canon
    | with_reducible refine CanonP.out (o := tileHold _ _ _) ?_ (by assumption)
    | with_reducible apply canon_ite
    | (with_reducible intro u x hu; try dsimp only)
    | with_reducible apply canonR_ite
    | with_reducible apply canonR_next
    | split
    | with_reducible exact canonP_none
    | with_reducible apply canonP_some
    | with_reducible intro u x hu
    | (with_reducible intro x u hu; try dsimp only)
    | exact fun _ k => ⟨k.1, k.2⟩
    | exact fun _ k => k
    | exact ⟨hq.1, hq.2⟩
    | (refine ⟨⟨hq.1.1, hq.1.2⟩, ?_⟩)
    | (refine ⟨hq.1, ?_⟩)
    | (unfold redRow; try dsimp only)

theorem execReorderTimeout_canon {s : State} (a0 : BitVec 20) (a1 : BitVec 32) (a2 : ℕ) (h : Canon s) :
    CanonR (execReorderTimeout a0 a1 a2 s) := by
  unfold execReorderTimeout
  try dsimp only
  repeat' first
    | with_reducible assumption
    | with_reducible apply State.retransmit_canon
    | with_reducible apply State.at_canon
    | with_reducible apply canon_ite
    | with_reducible apply canonR_ite
    | with_reducible apply canonR_next
    | split
    | exact fun _ k => ⟨k.1, k.2⟩
    | exact fun _ k => k
    | exact ⟨hq.1, hq.2⟩
    | (refine ⟨⟨hq.1.1, hq.1.2⟩, ?_⟩)
    | (refine ⟨hq.1, ?_⟩)

theorem execVxRmax_canon {s : State} (a0 : Fin 64) (h : Canon s) :
    CanonR (execVxRmax a0 s) := by
  unfold execVxRmax
  try dsimp only
  repeat' first
    | with_reducible assumption
    | with_reducible apply runCmd_canon
    | with_reducible apply vxReduce_canon
    | with_reducible apply tileHold_canon
    | with_reducible refine CanonP.out (o := tileHold _ _ _) ?_ (by assumption)
    | with_reducible apply canon_ite
    | (with_reducible intro u x hu; try dsimp only)
    | with_reducible apply canonR_ite
    | with_reducible apply canonR_next
    | split
    | with_reducible exact canonP_none
    | with_reducible apply canonP_some
    | with_reducible intro u x hu
    | (with_reducible intro x u hu; try dsimp only)
    | exact fun _ k => ⟨k.1, k.2⟩
    | exact fun _ k => k
    | exact ⟨hq.1, hq.2⟩
    | (refine ⟨⟨hq.1.1, hq.1.2⟩, ?_⟩)
    | (refine ⟨hq.1, ?_⟩)
    | (unfold vxRow; try dsimp only)

theorem execWriteDram_canon {s : State} (a0 : PktHdr) (a1 : DramHdr) (a2 : List Byte) (h : Canon s) :
    CanonR (execWriteDram a0 a1 a2 s) := by
  unfold execWriteDram
  try dsimp only
  repeat' first
    | with_reducible assumption
    | with_reducible apply State.placeDram_canon
    | with_reducible refine canon_pair (x := State.placeDram _ _ _ _ _) ?_ (by assumption)
    | with_reducible apply State.receiveData_canon
    | with_reducible apply canon_ite
    | (with_reducible intro u hu; try dsimp only)
    | with_reducible apply canonR_ite
    | with_reducible apply canonR_next
    | split
    | exact fun _ k => ⟨k.1, k.2⟩
    | exact fun _ k => k
    | exact ⟨hq.1, hq.2⟩
    | (refine ⟨⟨hq.1.1, hq.1.2⟩, ?_⟩)
    | (refine ⟨hq.1, ?_⟩)

theorem execWinOpenQuiet_canon {s : State} (a0 : Fin 64) (a1 : ℕ) (h : Canon s) :
    CanonR (execWinOpenQuiet a0 a1 s) := by
  unfold execWinOpenQuiet
  try dsimp only
  repeat' first
    | with_reducible assumption
    | with_reducible apply runCmd_canon
    | with_reducible apply State.at_canon
    | with_reducible apply openWindow_canon
    | with_reducible apply canon_ite
    | (with_reducible intro u x hu; try dsimp only)
    | with_reducible apply canonR_ite
    | with_reducible apply canonR_next
    | split
    | with_reducible exact canonP_none
    | with_reducible apply canonP_some
    | with_reducible intro u x hu
    | (with_reducible intro x u hu; try dsimp only)
    | exact fun _ k => ⟨k.1, k.2⟩
    | exact fun _ k => k
    | exact ⟨hq.1, hq.2⟩
    | (refine ⟨⟨hq.1.1, hq.1.2⟩, ?_⟩)
    | (refine ⟨hq.1, ?_⟩)
    | (unfold winOpenRow; try dsimp only)

theorem State.failSetup_canon {s : State} (a1 : ℕ) (a2 : ℕ) (h : Canon s) :
    Canon (State.failSetup s a1 a2) := by
  unfold State.failSetup
  try dsimp only
  repeat' first
    | with_reducible assumption
    | with_reducible apply State.freeFlowAt_canon
    | with_reducible apply State.failStream_canon
    | with_reducible apply Sequencer.failStream_canon
    | with_reducible apply canon_ite
    | with_reducible apply canon_foldl
    | with_reducible apply canon_foldl2
    | (with_reducible intro u x hu; try dsimp only)
    | split
    | exact fun _ k => ⟨k.1, k.2⟩
    | exact fun _ k => k
    | exact ⟨hq.1, hq.2⟩
    | (refine ⟨⟨hq.1.1, hq.1.2⟩, ?_⟩)
    | (refine ⟨hq.1, ?_⟩)

theorem State.collFlush_canon {s : State} (a1 : ℕ) (h : Canon s) :
    Canon (State.collFlush s a1) := by
  unfold State.collFlush
  try dsimp only
  repeat' first
    | with_reducible assumption
    | with_reducible apply State.onColl_canon
    | with_reducible apply State.sendCtl_canon
    | with_reducible apply canon_ite
    | with_reducible apply canon_foldl
    | with_reducible apply canon_foldl2
    | (with_reducible intro u x hu; try dsimp only)
    | split
    | exact fun _ k => ⟨k.1, k.2⟩
    | exact fun _ k => k
    | exact ⟨hq.1, hq.2⟩
    | (refine ⟨⟨hq.1.1, hq.1.2⟩, ?_⟩)
    | (refine ⟨hq.1, ?_⟩)

theorem State.cacheIn_canon {s : State} (a1 : ℕ) (h : Canon s) :
    Canon (State.cacheIn s a1) := by
  unfold State.cacheIn
  try dsimp only
  repeat' first
    | with_reducible assumption
    | with_reducible apply State.onFlow_canon
    | with_reducible apply canon_ite
    | split
    | exact fun _ k => ⟨k.1, k.2⟩
    | exact fun _ k => k
    | exact ⟨hq.1, hq.2⟩
    | (refine ⟨⟨hq.1.1, hq.1.2⟩, ?_⟩)
    | (refine ⟨hq.1, ?_⟩)

theorem State.openFlow_canon {s : State} (a1 : ℕ) (a2 : SetupBody) (h : Canon s) :
    Canon (State.openFlow s a1 a2) := by
  unfold State.openFlow
  try dsimp only
  repeat' first
    | with_reducible assumption
    | with_reducible apply State.onFlow_canon
    | with_reducible apply State.collFlush_canon
    | with_reducible apply State.cacheIn_canon
    | with_reducible apply canon_ite
    | split
    | exact fun _ k => ⟨k.1, k.2⟩
    | exact fun _ k => k
    | exact ⟨hq.1, hq.2⟩
    | (refine ⟨⟨hq.1.1, hq.1.2⟩, ?_⟩)
    | (refine ⟨hq.1, ?_⟩)

theorem execSetupAck_canon {s : State} (a0 : PktHdr) (a1 : SetupBody) (h : Canon s) :
    CanonR (execSetupAck a0 a1 s) := by
  unfold execSetupAck
  try dsimp only
  repeat' first
    | with_reducible assumption
    | with_reducible apply State.failSetup_canon
    | with_reducible apply State.bufRelease_canon
    | with_reducible apply State.openFlow_canon
    | with_reducible apply State.setupRefused_canon
    | with_reducible apply canon_ite
    | with_reducible apply canonR_ite
    | with_reducible apply canonR_next
    | split
    | exact fun _ k => ⟨k.1, k.2⟩
    | exact fun _ k => k
    | exact ⟨hq.1, hq.2⟩
    | (refine ⟨⟨hq.1.1, hq.1.2⟩, ?_⟩)
    | (refine ⟨hq.1, ?_⟩)

theorem State.w1c_canon {s : State} (a1 : ℕ) (a2 : Word) (h : Canon s) :
    CanonO (State.w1c? s a1 a2) := by
  unfold State.w1c?
  try dsimp only
  repeat' first
    | with_reducible assumption
    | with_reducible apply State.onArray_canon
    | with_reducible apply State.onInteg_canon
    | with_reducible apply Core.onArray_canon
    | with_reducible apply canon_ite
    | with_reducible apply canonO_bind
    | with_reducible apply canonO_foldl
    | with_reducible refine CanonO.out (o := Option.bind _ _) ?_ (by assumption)
    | with_reducible intro u hu
    | exact ⟨hu.1, hu.2⟩
    | with_reducible exact canonO_none
    | with_reducible apply canonO_some
    | split
    | with_reducible refine canon_clk _ ?_
    | with_reducible refine canon_host _ ?_ ?_
    | exact fun _ k => ⟨k.1, k.2⟩
    | exact fun _ k => k
    | exact ⟨hq.1, hq.2⟩
    | (refine ⟨⟨hq.1.1, hq.1.2⟩, ?_⟩)
    | (refine ⟨hq.1, ?_⟩)

theorem execVxSqrt_canon {s : State} (a0 : Fin 64) (h : Canon s) :
    CanonR (execVxSqrt a0 s) := by
  unfold execVxSqrt
  try dsimp only
  repeat' first
    | with_reducible assumption
    | with_reducible apply vxElementwise_canon
    | with_reducible apply runCmd_canon
    | with_reducible apply tileHold_canon
    | with_reducible refine CanonP.out (o := tileHold _ _ _) ?_ (by assumption)
    | with_reducible apply canon_ite
    | (with_reducible intro u x hu; try dsimp only)
    | with_reducible apply canonR_ite
    | with_reducible apply canonR_next
    | split
    | with_reducible exact canonP_none
    | with_reducible apply canonP_some
    | with_reducible intro u x hu
    | (with_reducible intro x u hu; try dsimp only)
    | exact fun _ k => ⟨k.1, k.2⟩
    | exact fun _ k => k
    | exact ⟨hq.1, hq.2⟩
    | (refine ⟨⟨hq.1.1, hq.1.2⟩, ?_⟩)
    | (refine ⟨hq.1, ?_⟩)
    | (unfold vxRow; try dsimp only)

theorem gatherEff_canon {s : State} (a0 : Ctx) (h : Canon s) :
    Canon (gatherEff a0 s) := by
  unfold gatherEff
  try dsimp only
  repeat' first
    | with_reducible assumption
    | with_reducible apply State.onQueue_canon
    | with_reducible apply State.popInputs_canon
    | with_reducible apply State.retireFront_canon
    | with_reducible apply State.setCore_canon
    | with_reducible apply Sequencer.onQueue_canon
    | with_reducible apply Core.readTile_canon
    | with_reducible apply canon_ite
    | with_reducible apply canon_getD
    | split
    | exact fun _ k => ⟨k.1, k.2⟩
    | exact fun _ k => k
    | exact ⟨hq.1, hq.2⟩
    | with_reducible apply canon_core
    | exact ⟨⟨rfl, rfl, rfl, rfl, fun _ k => nomatch k⟩, rfl, rfl, rfl⟩
    | (refine ⟨⟨hq.1.1, hq.1.2⟩, ?_⟩)
    | (refine ⟨hq.1, ?_⟩)

theorem execCredit_canon {s : State} (a0 : PktHdr) (a1 : BitVec 6) (a2 : BitVec 12) (a3 : BitVec 16) (a4 : Bool)
    (a5 : BitVec 32) (h : Canon s) :
    CanonR (execCredit a0 a1 a2 a3 a4 a5 s) := by
  unfold execCredit
  try dsimp only
  repeat' first
    | with_reducible assumption
    | with_reducible apply State.receiveCtl_canon
    | with_reducible apply canon_ite
    | with_reducible apply canonR_ite
    | with_reducible apply canonR_next
    | split
    | exact fun _ k => ⟨k.1, k.2⟩
    | exact fun _ k => k
    | exact ⟨hq.1, hq.2⟩
    | (refine ⟨⟨hq.1.1, hq.1.2⟩, ?_⟩)
    | (refine ⟨hq.1, ?_⟩)

theorem execCrackCheck_canon {s : State} (a0 : Fin 89) (a1 : BitVec 16) (a2 : ℕ) (h : Canon s) :
    CanonR (execCrackCheck a0 a1 a2 s) := by
  unfold execCrackCheck
  try dsimp only
  repeat' first
    | with_reducible assumption
    | with_reducible apply State.onDom_canon
    | with_reducible apply State.logErr_canon
    | with_reducible apply canon_ite
    | with_reducible apply canonR_ite
    | with_reducible apply canonR_next
    | split
    | with_reducible refine canon_flash _ ?_
    | exact fun _ k => ⟨k.1, k.2⟩
    | exact fun _ k => k
    | exact ⟨hq.1, hq.2⟩
    | exact fun _ k => ⟨k.1, k.2.1, (by dsimp only; exact Tbl.mapv_wf _ _ _ k.2.2.1), k.2.2.2⟩
    | exact fun _ k => ⟨k.1, k.2.1, k.2.2.1, (by dsimp only; exact Tbl.mapv_wf _ _ _ k.2.2.2)⟩
    | exact fun _ k => ⟨(by dsimp only; exact Tbl.mapv_wf _ _ _ k.1), k.2⟩
    | exact fun _ k => ⟨k.1, (by dsimp only; exact Tbl.mapv_wf _ _ _ k.2)⟩
    | exact ⟨hq.1, hq.2.1, hq.2.2.1, (by dsimp only; exact Tbl.set_wf _ _ _ _ hq.2.2.2.1), hq.2.2.2.2⟩
    | exact ⟨hq.1, hq.2.1, (by dsimp only; exact Tbl.set_wf _ _ _ _ hq.2.2.1), hq.2.2.2⟩
    | exact ⟨(by dsimp only; exact Tbl.mapv_wf _ _ _ hq.1), hq.2⟩
    | exact fun k => cores_mapv_canon _ (fun c k => Core.halt_canon k) k
    | exact fun k => (by dsimp only; exact Tbl.mapv_wf _ _ _ k.2.2.1)
    | exact fun k => (by dsimp only; exact Tbl.mapv_wf _ _ _ k.2.2.2.1)
    | exact fun _ k => (by dsimp only; exact Tbl.mapv_wf _ _ _ k)
    | (refine ⟨⟨hq.1.1, hq.1.2⟩, ?_⟩)
    | (refine ⟨hq.1, ?_⟩)

theorem mmEff_canon {s : State} (a0 : Ctx) (h : Canon s) :
    Canon (mmEff a0 s) := by
  unfold mmEff
  try dsimp only
  repeat' first
    | with_reducible assumption
    | with_reducible apply State.onArray_canon
    | with_reducible apply State.beginArray_canon
    | with_reducible apply State.bellows_canon
    | with_reducible apply Core.onArray_canon
    | with_reducible apply canon_ite
    | with_reducible apply canon_getD
    | split
    | exact fun _ k => ⟨k.1, k.2⟩
    | exact fun _ k => k
    | exact ⟨hq.1, hq.2⟩
    | (refine ⟨⟨hq.1.1, hq.1.2⟩, ?_⟩)
    | (refine ⟨hq.1, ?_⟩)

theorem execMm_canon {s : State} (a0 : Fin 64) (a1 : Arr) (h : Canon s) :
    CanonR (execMm a0 a1 s) := by
  unfold execMm
  try dsimp only
  repeat' first
    | with_reducible assumption
    | with_reducible apply runCmd_canon
    | with_reducible apply mmEff_canon
    | with_reducible apply accessHold_canon
    | with_reducible refine CanonP.out (o := accessHold _ _ _ _) ?_ (by assumption)
    | with_reducible apply canon_ite
    | (with_reducible intro u x hu; try dsimp only)
    | with_reducible apply canonR_ite
    | with_reducible apply canonR_next
    | split
    | with_reducible exact canonP_none
    | with_reducible apply canonP_some
    | with_reducible intro u x hu
    | (with_reducible intro x u hu; try dsimp only)
    | exact fun _ k => ⟨k.1, k.2⟩
    | exact fun _ k => k
    | exact ⟨hq.1, hq.2⟩
    | (refine ⟨⟨hq.1.1, hq.1.2⟩, ?_⟩)
    | (refine ⟨hq.1, ?_⟩)
    | (unfold mmRow; try dsimp only)

theorem execMc0WatchdogExpiry_canon {s : State} (a0 : Bool) (a1 : Boot) (a2 : ℕ) (h : Canon s) :
    CanonR (execMc0WatchdogExpiry a0 a1 a2 s) := by
  unfold execMc0WatchdogExpiry
  try dsimp only
  repeat' first
    | with_reducible assumption
    | with_reducible apply State.serve_canon
    | with_reducible apply State.beginStart_canon
    | with_reducible apply State.at_canon
    | with_reducible apply State.deviceFault_canon
    | with_reducible apply State.logErr_canon
    | with_reducible apply State.failStart_canon
    | with_reducible apply canon_ite
    | with_reducible apply canonR_ite
    | with_reducible apply canonR_next
    | split
    | with_reducible refine canon_mgmt _ ?_
    | exact fun _ k => ⟨k.1, k.2⟩
    | exact fun _ k => k
    | exact ⟨hq.1, hq.2⟩
    | (refine ⟨⟨hq.1.1, hq.1.2⟩, ?_⟩)
    | (refine ⟨hq.1, ?_⟩)

theorem State.judgeSensor_canon {s : State} (a1 : ℕ) (h : Canon s) :
    Canon (State.judgeSensor s a1) := by
  unfold State.judgeSensor
  try dsimp only
  repeat' first
    | with_reducible assumption
    | with_reducible apply State.logErr_canon
    | with_reducible apply canon_ite
    | split
    | with_reducible refine canon_thm _ ?_
    | exact fun _ k => ⟨k.1, k.2⟩
    | exact fun _ k => k
    | exact ⟨hq.1, hq.2⟩
    | exact fun _ k => ⟨k.1, k.2.1, (by dsimp only; exact Tbl.mapv_wf _ _ _ k.2.2.1), k.2.2.2⟩
    | exact fun _ k => ⟨k.1, k.2.1, k.2.2.1, (by dsimp only; exact Tbl.mapv_wf _ _ _ k.2.2.2)⟩
    | exact fun _ k => ⟨(by dsimp only; exact Tbl.mapv_wf _ _ _ k.1), k.2⟩
    | exact fun _ k => ⟨k.1, (by dsimp only; exact Tbl.mapv_wf _ _ _ k.2)⟩
    | exact ⟨hq.1, hq.2.1, hq.2.2.1, (by dsimp only; exact Tbl.set_wf _ _ _ _ hq.2.2.2.1), hq.2.2.2.2⟩
    | exact ⟨hq.1, hq.2.1, (by dsimp only; exact Tbl.set_wf _ _ _ _ hq.2.2.1), hq.2.2.2⟩
    | exact ⟨(by dsimp only; exact Tbl.mapv_wf _ _ _ hq.1), hq.2⟩
    | exact fun k => cores_mapv_canon _ (fun c k => Core.halt_canon k) k
    | exact fun k => (by dsimp only; exact Tbl.mapv_wf _ _ _ k.2.2.1)
    | exact fun k => (by dsimp only; exact Tbl.mapv_wf _ _ _ k.2.2.2.1)
    | exact fun _ k => (by dsimp only; exact Tbl.mapv_wf _ _ _ k)
    | (refine ⟨⟨hq.1.1, hq.1.2⟩, ?_⟩)
    | (refine ⟨hq.1, ?_⟩)

theorem execSmbusClockTimeout_canon {s : State} (h : Canon s) :
    CanonR (execSmbusClockTimeout s) := by
  unfold execSmbusClockTimeout
  try dsimp only
  repeat' first
    | with_reducible assumption
    | with_reducible apply canon_ite
    | with_reducible apply canonR_ite
    | with_reducible apply canonR_next
    | split
    | with_reducible refine canon_pins _ ?_
    | exact fun _ k => ⟨k.1, k.2⟩
    | exact fun _ k => k
    | exact ⟨hq.1, hq.2⟩
    | (refine ⟨⟨hq.1.1, hq.1.2⟩, ?_⟩)
    | (refine ⟨hq.1, ?_⟩)

theorem execGatherTile_canon {s : State} (a0 : Fin 64) (a1 : Arr) (h : Canon s) :
    CanonR (execGatherTile a0 a1 s) := by
  unfold execGatherTile
  try dsimp only
  repeat' first
    | with_reducible assumption
    | with_reducible apply runCmd_canon
    | with_reducible apply gatherEff_canon
    | with_reducible apply accessHold_canon
    | with_reducible refine CanonP.out (o := accessHold _ _ _ _) ?_ (by assumption)
    | with_reducible apply canon_ite
    | (with_reducible intro u x hu; try dsimp only)
    | with_reducible apply canonR_ite
    | with_reducible apply canonR_next
    | split
    | with_reducible exact canonP_none
    | with_reducible apply canonP_some
    | with_reducible intro u x hu
    | (with_reducible intro x u hu; try dsimp only)
    | exact fun _ k => ⟨k.1, k.2⟩
    | exact fun _ k => k
    | exact ⟨hq.1, hq.2⟩
    | (refine ⟨⟨hq.1.1, hq.1.2⟩, ?_⟩)
    | (refine ⟨hq.1, ?_⟩)
    | (unfold gatherRow; try dsimp only)

end Sys2Proof.Machine
end

