-- ==== Sys2Proof/Laws/Canons7.lean ====
section
/-! SUPPORT. Each operation and meaning, in dependency order (part 8 of 10), keeps the canonical form. -/

namespace Sys2Proof.Machine

theorem State.writeMsix_canon {s : State} (a1 : ℕ) (a2 : Word) (h : Canon s) :
    Canon (State.writeMsix s a1 a2) := by
  unfold State.writeMsix
  try dsimp only
  repeat' first
    | with_reducible assumption
    | with_reducible apply State.sendVector_canon
    | with_reducible apply canon_ite
    | split
    | with_reducible refine canon_host _ ?_ ?_
    | exact fun _ k => ⟨k.1, k.2⟩
    | exact fun _ k => k
    | exact ⟨hq.1, hq.2⟩
    | exact fun _ k => ⟨k.1, k.2.1, (by dsimp only; exact Tbl.mapv_wf _ _ _ k.2.2.1), k.2.2.2⟩
    | exact fun _ k => ⟨k.1, k.2.1, k.2.2.1, (by dsimp only; exact Tbl.mapv_wf _ _ _ k.2.2.2)⟩
    | exact fun _ k => ⟨(by dsimp only; exact Tbl.mapv_wf _ _ _ k.1), k.2⟩
    | exact fun _ k => ⟨k.1, (by dsimp only; exact Tbl.mapv_wf _ _ _ k.2)⟩
    | exact ⟨hq.1, hq.2.1, hq.2.2.1, (by dsimp only; exact Tbl.set_wf _ _ _ _ hq.2.2.2.1), hq.2.2.2.2⟩
    | exact ⟨hq.1, hq.2.1, (by dsimp only; exact Tbl.set_wf _ _ _ _ hq.2.2.1), hq.2.2.2⟩
    | exact ⟨(by dsimp only; exact Tbl.mapv_wf _ _ _ hq.1), hq.2⟩
    | exact fun k => cores_mapv_canon _ (fun c k => Core.halt_canon k) k
    | exact fun k => (by dsimp only; exact Tbl.mapv_wf _ _ _ k.2.2.1)
    | exact fun k => (by dsimp only; exact Tbl.mapv_wf _ _ _ k.2.2.2.1)
    | exact fun _ k => (by dsimp only; exact Tbl.mapv_wf _ _ _ k)
    | (refine ⟨⟨hq.1.1, hq.1.2⟩, ?_⟩)
    | (refine ⟨hq.1, ?_⟩)

theorem State.selectErr_canon {s : State} (a1 : Word) (h : Canon s) :
    Canon (State.selectErr s a1) := by
  unfold State.selectErr
  try dsimp only
  repeat' first
    | with_reducible assumption
    | with_reducible apply canon_ite
    | split
    | with_reducible refine canon_mgmt _ ?_
    | exact fun _ k => ⟨k.1, k.2⟩
    | exact fun _ k => k
    | exact ⟨hq.1, hq.2⟩
    | (refine ⟨⟨hq.1.1, hq.1.2⟩, ?_⟩)
    | (refine ⟨hq.1, ?_⟩)

theorem State.writeStg_canon {s : State} (a1 : ℕ) (a2 : Word) (h : Canon s) :
    Canon (State.writeStg s a1 a2) := by
  unfold State.writeStg
  try dsimp only
  repeat' first
    | with_reducible assumption
    | with_reducible apply State.stage_canon
    | with_reducible apply State.putBoth_canon
    | with_reducible apply canon_ite
    | split
    | with_reducible refine canon_cfg _ ?_
    | exact fun _ k => ⟨k.1, k.2⟩
    | exact fun _ k => k
    | exact ⟨hq.1, hq.2⟩
    | (refine ⟨⟨hq.1.1, hq.1.2⟩, ?_⟩)
    | (refine ⟨hq.1, ?_⟩)

theorem State.writeReg_canon {s : State} (a1 : ℕ) (a2 : Word) (h : Canon s) :
    Canon (State.writeReg s a1 a2) := by
  unfold State.writeReg
  try dsimp only
  repeat' first
    | with_reducible assumption
    | with_reducible apply State.discardNow_canon
    | with_reducible apply State.writeMsix_canon
    | with_reducible apply State.onPair_canon
    | with_reducible apply State.selectErr_canon
    | with_reducible apply State.onSeq_canon
    | with_reducible apply State.writeStg_canon
    | with_reducible apply State.w1c_canon
    | with_reducible refine CanonO.out (o := State.w1c? _ _ _) ?_ (by assumption)
    | with_reducible apply Sequencer.write_canon
    | with_reducible apply canon_ite
    | (with_reducible intro q hq; try dsimp only)
    | with_reducible refine CanonO.out (o := ite _ _ _) ?_ (by assumption)
    | with_reducible apply canonO_some
    | split
    | exact fun k => k
    | exact fun k => Pair.putMsg_canon _ k
    | exact fun k => Pair.write_canon _ _ k
    | exact fun _ k => ⟨k.1, k.2⟩
    | exact fun _ k => k
    | exact ⟨hq.1, hq.2⟩
    | (refine ⟨⟨hq.1.1, hq.1.2⟩, ?_⟩)
    | (refine ⟨hq.1, ?_⟩)

theorem execFaultCleared_canon {s : State} (a0 : Fin 96) (h : Canon s) :
    CanonR (execFaultCleared a0 s) := by
  unfold execFaultCleared
  try dsimp only
  repeat' first
    | with_reducible assumption
    | with_reducible apply State.rise_canon
    | with_reducible apply State.onPort_canon
    | with_reducible apply canon_ite
    | with_reducible apply canonR_ite
    | with_reducible apply canonR_next
    | split
    | exact fun _ k => ⟨k.1, k.2⟩
    | exact fun _ k => k
    | exact ⟨hq.1, hq.2⟩
    | (refine ⟨⟨hq.1.1, hq.1.2⟩, ?_⟩)
    | (refine ⟨hq.1, ?_⟩)

theorem execStop_canon {s : State} (a0 : Fin 64) (a1 : Eng) (h : Canon s) :
    CanonR (execStop a0 a1 s) := by
  unfold execStop
  try dsimp only
  repeat' first
    | with_reducible assumption
    | with_reducible apply State.onEng_canon
    | with_reducible apply State.retireFront_canon
    | with_reducible apply runCmd_canon
    | with_reducible apply Sequencer.onEng_canon
    | with_reducible apply canon_ite
    | (with_reducible intro u x hu; try dsimp only)
    | with_reducible apply canonR_ite
    | with_reducible apply canonR_next
    | split
    | with_reducible exact canonP_none
    | with_reducible apply canonP_some
    | with_reducible intro u x hu
    | (with_reducible intro x u hu; try dsimp only)
    | exact fun _ k => ⟨k.1, k.2⟩
    | exact fun _ k => k
    | exact ⟨hq.1, hq.2⟩
    | (refine ⟨⟨hq.1.1, hq.1.2⟩, ?_⟩)
    | (refine ⟨hq.1, ?_⟩)
    | (unfold plainRow; try dsimp only)

theorem execFunctionLevelReset_canon {s : State} (h : Canon s) :
    CanonR (execFunctionLevelReset s) := by
  unfold execFunctionLevelReset
  try dsimp only
  repeat' first
    | with_reducible assumption
    | with_reducible apply State.hostReset_canon
    | with_reducible apply canon_ite
    | with_reducible apply canonR_ite
    | with_reducible apply canonR_next
    | split
    | exact fun _ k => ⟨k.1, k.2⟩
    | exact fun _ k => k
    | exact ⟨hq.1, hq.2⟩
    | (refine ⟨⟨hq.1.1, hq.1.2⟩, ?_⟩)
    | (refine ⟨hq.1, ?_⟩)

theorem execVddioLow_canon {s : State} (a0 : Bool) (h : Canon s) :
    CanonR (execVddioLow a0 s) := by
  unfold execVddioLow
  try dsimp only
  repeat' first
    | with_reducible assumption
    | with_reducible apply State.hostReset_canon
    | with_reducible apply canon_ite
    | with_reducible apply canonR_ite
    | with_reducible apply canonR_next
    | split
    | with_reducible refine canon_flash_pins _ _ ?_
    | with_reducible refine canon_thm_pins _ _ ?_
    | exact fun _ k => ⟨k.1, k.2⟩
    | exact fun _ k => k
    | exact ⟨hq.1, hq.2⟩
    | (refine ⟨⟨hq.1.1, hq.1.2⟩, ?_⟩)
    | (refine ⟨hq.1, ?_⟩)

theorem State.shiftOut_canon {s : State} (a1 : ℕ) (a2 : List Bool) (h : Canon s) :
    Canon (State.shiftOut s a1 a2) := by
  unfold State.shiftOut
  try dsimp only
  repeat' first
    | with_reducible assumption
    | with_reducible apply canon_ite
    | split
    | with_reducible refine canon_sec _ ?_
    | exact fun _ k => ⟨k.1, k.2⟩
    | exact fun _ k => k
    | exact ⟨hq.1, hq.2⟩
    | (refine ⟨⟨hq.1.1, hq.1.2⟩, ?_⟩)
    | (refine ⟨hq.1, ?_⟩)

theorem State.dmaPush_canon {s : State} (a1 : Ctx) (a2 : List MB) (a3 : Bool) (h : Canon s) :
    Canon (State.dmaPush s a1 a2 a3) := by
  unfold State.dmaPush
  try dsimp only
  repeat' first
    | with_reducible assumption
    | with_reducible apply State.retireFront_canon
    | with_reducible apply State.failStream_canon
    | with_reducible apply State.poisonStop_canon
    | with_reducible apply State.pushTile_canon
    | with_reducible refine CanonO.out (o := State.pushTile _ _ _ _ _ _ _) ?_ (by assumption)
    | with_reducible apply State.consume_canon
    | with_reducible apply Sequencer.failStream_canon
    | with_reducible apply canon_ite
    | with_reducible refine CanonO.out (o := ite _ _ _) ?_ (by assumption)
    | with_reducible apply canonO_some
    | split
    | exact fun _ k => ⟨k.1, k.2⟩
    | exact fun _ k => k
    | exact ⟨hq.1, hq.2⟩
    | (refine ⟨⟨hq.1.1, hq.1.2⟩, ?_⟩)
    | (refine ⟨hq.1, ?_⟩)

theorem State.failArray_canon {s : State} (a1 : ℕ) (a2 : Arr) (a3 : ℕ) (a4 : ℕ) (h : Canon s) :
    Canon (State.failArray s a1 a2 a3 a4) := by
  unfold State.failArray
  try dsimp only
  repeat' first
    | with_reducible assumption
    | with_reducible apply State.countReplay_canon
    | with_reducible apply State.replayBoth_canon
    | with_reducible apply State.secondFailure_canon
    | with_reducible apply State.dropBegun_canon
    | with_reducible apply canon_ite
    | split
    | exact fun _ k => ⟨k.1, k.2⟩
    | exact fun _ k => k
    | exact ⟨hq.1, hq.2⟩
    | (refine ⟨⟨hq.1.1, hq.1.2⟩, ?_⟩)
    | (refine ⟨hq.1, ?_⟩)

theorem State.arrFlags_canon {s : State} (a1 : ℕ) (a2 : Arr) (a3 : Word) (h : Canon s) :
    Canon (State.arrFlags s a1 a2 a3) := by
  unfold State.arrFlags
  try dsimp only
  repeat' first
    | with_reducible assumption
    | with_reducible apply State.onArray_canon
    | with_reducible apply Core.onArray_canon
    | with_reducible apply canon_ite
    | split
    | exact fun _ k => ⟨k.1, k.2⟩
    | exact fun _ k => k
    | exact ⟨hq.1, hq.2⟩
    | (refine ⟨⟨hq.1.1, hq.1.2⟩, ?_⟩)
    | (refine ⟨hq.1, ?_⟩)

theorem execRefLost_canon {s : State} (a0 : Fin 4) (a1 : ℕ) (h : Canon s) :
    CanonR (execRefLost a0 a1 s) := by
  unfold execRefLost
  try dsimp only
  repeat' first
    | with_reducible assumption
    | with_reducible apply State.hostReset_canon
    | with_reducible apply State.logErr_canon
    | with_reducible apply State.at_canon
    | with_reducible apply canon_ite
    | with_reducible apply canonR_ite
    | with_reducible apply canonR_next
    | split
    | with_reducible refine canon_clk _ ?_
    | exact fun _ k => ⟨k.1, k.2⟩
    | exact fun _ k => k
    | exact ⟨hq.1, hq.2⟩
    | (refine ⟨⟨hq.1.1, hq.1.2⟩, ?_⟩)
    | (refine ⟨hq.1, ?_⟩)

theorem execDamperSample_canon {s : State} (a0 : ℕ) (a1 : ℕ) (a2 : List ℕ) (a3 : ℕ) (h : Canon s) :
    CanonR (execDamperSample a0 a1 a2 a3 s) := by
  unfold execDamperSample
  try dsimp only
  repeat' first
    | with_reducible assumption
    | with_reducible apply State.at_canon
    | with_reducible apply canon_ite
    | with_reducible apply canon_foldl
    | with_reducible apply canon_foldl2
    | with_reducible apply canon_getD
    | (with_reducible intro u x hu; try dsimp only)
    | with_reducible apply canonR_ite
    | with_reducible apply canonR_next
    | split
    | with_reducible refine canon_pwr _ ?_ ?_
    | exact fun _ k => ⟨k.1, k.2⟩
    | exact fun _ k => k
    | exact ⟨hq.1, hq.2⟩
    | exact fun _ k => ⟨k.1, k.2.1, (by dsimp only; exact Tbl.mapv_wf _ _ _ k.2.2.1), k.2.2.2⟩
    | exact fun _ k => ⟨k.1, k.2.1, k.2.2.1, (by dsimp only; exact Tbl.mapv_wf _ _ _ k.2.2.2)⟩
    | exact fun _ k => ⟨(by dsimp only; exact Tbl.mapv_wf _ _ _ k.1), k.2⟩
    | exact fun _ k => ⟨k.1, (by dsimp only; exact Tbl.mapv_wf _ _ _ k.2)⟩
    | exact ⟨hq.1, hq.2.1, hq.2.2.1, (by dsimp only; exact Tbl.set_wf _ _ _ _ hq.2.2.2.1), hq.2.2.2.2⟩
    | exact ⟨hq.1, hq.2.1, (by dsimp only; exact Tbl.set_wf _ _ _ _ hq.2.2.1), hq.2.2.2⟩
    | exact ⟨(by dsimp only; exact Tbl.mapv_wf _ _ _ hq.1), hq.2⟩
    | exact fun k => cores_mapv_canon _ (fun c k => Core.halt_canon k) k
    | exact fun k => (by dsimp only; exact Tbl.mapv_wf _ _ _ k.2.2.1)
    | exact fun k => (by dsimp only; exact Tbl.mapv_wf _ _ _ k.2.2.2.1)
    | exact fun _ k => (by dsimp only; exact Tbl.mapv_wf _ _ _ k)
    | (refine ⟨⟨hq.1.1, hq.1.2⟩, ?_⟩)
    | (refine ⟨hq.1, ?_⟩)

theorem execPwrGoodRise_canon {s : State} (a0 : Boot) (a1 : BitVec 2) (a2 : ℕ) (h : Canon s) :
    CanonR (execPwrGoodRise a0 a1 a2 s) := by
  unfold execPwrGoodRise
  try dsimp only
  repeat' first
    | with_reducible assumption
    | with_reducible apply State.beginStart_canon
    | with_reducible apply State.at_canon
    | with_reducible apply canon_ite
    | with_reducible apply canonR_ite
    | with_reducible apply canonR_next
    | split
    | with_reducible refine canon_pwr_pins _ _ ?_ ?_
    | exact fun _ k => ⟨k.1, k.2⟩
    | exact fun _ k => k
    | exact ⟨hq.1, hq.2⟩
    | (refine ⟨⟨hq.1.1, hq.1.2⟩, ?_⟩)
    | (refine ⟨hq.1, ?_⟩)

theorem State.newNonce_canon {s : State} (h : Canon s) :
    Canon (State.newNonce s) := by
  unfold State.newNonce
  try dsimp only
  repeat' first
    | with_reducible assumption
    | with_reducible apply State.fresh_canon
    | with_reducible refine canon_pair (x := State.fresh _) ?_ (by assumption)
    | with_reducible apply canon_ite
    | with_reducible apply canon_foldl
    | with_reducible apply canon_foldl2
    | (with_reducible intro u x hu; try dsimp only)
    | split
    | with_reducible refine canon_sec _ ?_
    | exact fun _ k => ⟨k.1, k.2⟩
    | exact fun _ k => k
    | exact ⟨hq.1, hq.2⟩
    | exact fun _ k => ⟨k.1, k.2.1, (by dsimp only; exact Tbl.mapv_wf _ _ _ k.2.2.1), k.2.2.2⟩
    | exact fun _ k => ⟨k.1, k.2.1, k.2.2.1, (by dsimp only; exact Tbl.mapv_wf _ _ _ k.2.2.2)⟩
    | exact fun _ k => ⟨(by dsimp only; exact Tbl.mapv_wf _ _ _ k.1), k.2⟩
    | exact fun _ k => ⟨k.1, (by dsimp only; exact Tbl.mapv_wf _ _ _ k.2)⟩
    | exact ⟨hq.1, hq.2.1, hq.2.2.1, (by dsimp only; exact Tbl.set_wf _ _ _ _ hq.2.2.2.1), hq.2.2.2.2⟩
    | exact ⟨hq.1, hq.2.1, (by dsimp only; exact Tbl.set_wf _ _ _ _ hq.2.2.1), hq.2.2.2⟩
    | exact ⟨(by dsimp only; exact Tbl.mapv_wf _ _ _ hq.1), hq.2⟩
    | exact fun k => cores_mapv_canon _ (fun c k => Core.halt_canon k) k
    | exact fun k => (by dsimp only; exact Tbl.mapv_wf _ _ _ k.2.2.1)
    | exact fun k => (by dsimp only; exact Tbl.mapv_wf _ _ _ k.2.2.2.1)
    | exact fun _ k => (by dsimp only; exact Tbl.mapv_wf _ _ _ k)
    | (refine ⟨⟨hq.1.1, hq.1.2⟩, ?_⟩)
    | (refine ⟨hq.1, ?_⟩)

theorem execJtagUnlock_canon {s : State} (a0 : Option (List Byte)) (a1 : ℕ) (h : Canon s) :
    CanonR (execJtagUnlock a0 a1 s) := by
  unfold execJtagUnlock
  try dsimp only
  repeat' first
    | with_reducible assumption
    | with_reducible apply State.newNonce_canon
    | with_reducible apply State.trySignature_canon
    | with_reducible refine canon_pair (x := State.trySignature _ _ _) ?_ (by assumption)
    | with_reducible apply State.shiftOut_canon
    | with_reducible apply State.at_canon
    | with_reducible apply canon_ite
    | with_reducible apply canonR_ite
    | with_reducible apply canonR_next
    | split
    | exact fun _ k => ⟨k.1, k.2⟩
    | exact fun _ k => k
    | exact ⟨hq.1, hq.2⟩
    | (refine ⟨⟨hq.1.1, hq.1.2⟩, ?_⟩)
    | (refine ⟨hq.1, ?_⟩)

theorem State.readOut_canon {s : State} (a1 : BitVec 28) (a2 : Word) (h : Canon s) :
    Canon (State.readOut s a1 a2) := by
  unfold State.readOut
  try dsimp only
  repeat' first
    | with_reducible assumption
    | with_reducible apply canon_ite
    | split
    | with_reducible refine canon_host _ ?_ ?_
    | exact fun _ k => ⟨k.1, k.2⟩
    | exact fun _ k => k
    | exact ⟨hq.1, hq.2⟩
    | (refine ⟨⟨hq.1.1, hq.1.2⟩, ?_⟩)
    | (refine ⟨hq.1, ?_⟩)

theorem execBankedRestart_canon {s : State} (a0 : Boot) (a1 : ℕ) (h : Canon s) :
    CanonR (execBankedRestart a0 a1 s) := by
  unfold execBankedRestart
  try dsimp only
  repeat' first
    | with_reducible assumption
    | with_reducible apply State.beginBanked_canon
    | with_reducible apply State.at_canon
    | with_reducible apply canon_ite
    | with_reducible apply canonR_ite
    | with_reducible apply canonR_next
    | split
    | exact fun _ k => ⟨k.1, k.2⟩
    | exact fun _ k => k
    | exact ⟨hq.1, hq.2⟩
    | (refine ⟨⟨hq.1.1, hq.1.2⟩, ?_⟩)
    | (refine ⟨hq.1, ?_⟩)

theorem execVddioRestored_canon {s : State} (a0 : Bool) (h : Canon s) :
    CanonR (execVddioRestored a0 s) := by
  unfold execVddioRestored
  try dsimp only
  repeat' first
    | with_reducible assumption
    | with_reducible apply canon_ite
    | with_reducible apply canonR_ite
    | with_reducible apply canonR_next
    | split
    | with_reducible refine canon_pins _ ?_
    | exact fun _ k => ⟨k.1, k.2⟩
    | exact fun _ k => k
    | exact ⟨hq.1, hq.2⟩
    | (refine ⟨⟨hq.1.1, hq.1.2⟩, ?_⟩)
    | (refine ⟨hq.1, ?_⟩)

theorem execHotReset_canon {s : State} (h : Canon s) :
    CanonR (execHotReset s) := by
  unfold execHotReset
  try dsimp only
  repeat' first
    | with_reducible assumption
    | with_reducible apply State.hostReset_canon
    | with_reducible apply canon_ite
    | with_reducible apply canonR_ite
    | with_reducible apply canonR_next
    | split
    | exact fun _ k => ⟨k.1, k.2⟩
    | exact fun _ k => k
    | exact ⟨hq.1, hq.2⟩
    | (refine ⟨⟨hq.1.1, hq.1.2⟩, ?_⟩)
    | (refine ⟨hq.1, ?_⟩)

theorem smxStage_canon {s : State} (a1 : ℕ) (h : Canon s) :
    Canon (smxStage s a1) := by
  unfold smxStage
  try dsimp only
  repeat' first
    | with_reducible assumption
    | with_reducible apply State.freeRegs_canon
    | with_reducible apply canon_ite
    | split
    | exact fun _ k => ⟨k.1, k.2⟩
    | exact fun _ k => k
    | exact ⟨hq.1, hq.2⟩
    | (refine ⟨⟨hq.1.1, hq.1.2⟩, ?_⟩)
    | (refine ⟨hq.1, ?_⟩)

theorem execAttestSign_canon {s : State} (a0 : Bool) (h : Canon s) :
    CanonR (execAttestSign a0 s) := by
  unfold execAttestSign
  try dsimp only
  repeat' first
    | with_reducible assumption
    | with_reducible apply State.signNext_canon
    | with_reducible apply canon_ite
    | with_reducible apply canonR_ite
    | with_reducible apply canonR_next
    | split
    | exact fun _ k => ⟨k.1, k.2⟩
    | exact fun _ k => k
    | exact ⟨hq.1, hq.2⟩
    | (refine ⟨⟨hq.1.1, hq.1.2⟩, ?_⟩)
    | (refine ⟨hq.1, ?_⟩)

theorem State.tilePassed_canon {s : State} (a1 : ℕ) (a2 : Arr) (a3 : AccTile) (h : Canon s) :
    Canon (State.tilePassed s a1 a2 a3) := by
  unfold State.tilePassed
  try dsimp only
  repeat' first
    | with_reducible assumption
    | with_reducible apply State.retireBegun_canon
    | with_reducible apply State.pushOuts_canon
    | with_reducible apply State.onBegun_canon
    | with_reducible apply canon_ite
    | with_reducible apply canon_foldl
    | with_reducible apply canon_foldl2
    | (with_reducible intro u x hu; try dsimp only)
    | split
    | exact fun _ k => ⟨k.1, k.2⟩
    | exact fun _ k => k
    | exact ⟨hq.1, hq.2⟩
    | (refine ⟨⟨hq.1.1, hq.1.2⟩, ?_⟩)
    | (refine ⟨hq.1, ?_⟩)

theorem State.poisonBegun_canon {s : State} (a1 : ℕ) (a2 : Arr) (a3 : Begun) (h : Canon s) :
    Canon (State.poisonBegun s a1 a2 a3) := by
  unfold State.poisonBegun
  try dsimp only
  repeat' first
    | with_reducible assumption
    | with_reducible apply State.onBegun_canon
    | with_reducible apply canon_ite
    | split
    | exact fun _ k => ⟨k.1, k.2⟩
    | exact fun _ k => k
    | exact ⟨hq.1, hq.2⟩
    | (refine ⟨⟨hq.1.1, hq.1.2⟩, ?_⟩)
    | (refine ⟨hq.1, ?_⟩)

theorem execPortUp_canon {s : State} (a0 : Fin 96) (h : Canon s) :
    CanonR (execPortUp a0 s) := by
  unfold execPortUp
  try dsimp only
  repeat' first
    | with_reducible assumption
    | with_reducible apply State.rise_canon
    | with_reducible apply canon_ite
    | with_reducible apply canonR_ite
    | with_reducible apply canonR_next
    | split
    | exact fun _ k => ⟨k.1, k.2⟩
    | exact fun _ k => k
    | exact ⟨hq.1, hq.2⟩
    | (refine ⟨⟨hq.1.1, hq.1.2⟩, ?_⟩)
    | (refine ⟨hq.1, ?_⟩)

theorem execParkCopyHome_canon {s : State} (a0 : Fin 128) (h : Canon s) :
    CanonR (execParkCopyHome a0 s) := by
  unfold execParkCopyHome
  try dsimp only
  repeat' first
    | with_reducible assumption
    | with_reducible apply State.retryHeld_canon
    | with_reducible apply State.settle_canon
    | with_reducible apply canon_ite
    | with_reducible apply canonR_ite
    | with_reducible apply canonR_next
    | split
    | exact fun _ k => ⟨k.1, k.2⟩
    | exact fun _ k => k
    | exact ⟨hq.1, hq.2⟩
    | (refine ⟨⟨hq.1.1, hq.1.2⟩, ?_⟩)
    | (refine ⟨hq.1, ?_⟩)

theorem execCxlPerstRelease_canon {s : State} (h : Canon s) :
    CanonR (execCxlPerstRelease s) := by
  unfold execCxlPerstRelease
  try dsimp only
  repeat' first
    | with_reducible assumption
    | with_reducible apply canon_ite
    | with_reducible apply canonR_ite
    | with_reducible apply canonR_next
    | split
    | with_reducible refine canon_pins _ ?_
    | exact fun _ k => ⟨k.1, k.2⟩
    | exact fun _ k => k
    | exact ⟨hq.1, hq.2⟩
    | (refine ⟨⟨hq.1.1, hq.1.2⟩, ?_⟩)
    | (refine ⟨hq.1, ?_⟩)

theorem smxEff_canon {s : State} (a0 : Ctx) (h : Canon s) :
    Canon (smxEff a0 s) := by
  unfold smxEff
  try dsimp only
  repeat' first
    | with_reducible assumption
    | with_reducible apply State.vecFlags_canon
    | with_reducible apply smxStage_canon
    | with_reducible apply readInputs_canon
    | with_reducible refine canon_pair (x := readInputs _ _) ?_ (by assumption)
    | with_reducible apply State.onScp_canon
    | with_reducible apply State.complete_canon
    | with_reducible apply canon_ite
    | with_reducible refine foldl_keeps (P := Scratch.Canon) _ _ hq ?_
    | with_reducible apply canon_foldl
    | with_reducible apply canon_foldl2
    | with_reducible apply canon_getD
    | (with_reducible intro u x hu; try dsimp only)
    | (with_reducible intro q hq; try dsimp only)
    | split
    | exact fun _ k => ⟨k.1, k.2⟩
    | exact fun _ k => k
    | exact ⟨hq.1, hq.2⟩
    | exact ⟨hq.1, Mem.writeN_wf _ _ _ hq.2.1, hq.2.2⟩
    | exact ⟨hq.1, Mem.writeN_wf _ _ _ (Mem.writeN_wf _ _ _ (Mem.writeN_wf _ _ _ hq.2.1)), hq.2.2⟩
    | (refine ⟨⟨hq.1.1, hq.1.2⟩, ?_⟩)
    | (refine ⟨hq.1, ?_⟩)

theorem execVxSmx_canon {s : State} (a0 : Fin 64) (h : Canon s) :
    CanonR (execVxSmx a0 s) := by
  unfold execVxSmx
  try dsimp only
  repeat' first
    | with_reducible assumption
    | with_reducible apply smxEff_canon
    | with_reducible apply runCmd_canon
    | with_reducible apply tileHold_canon
    | with_reducible refine CanonP.out (o := tileHold _ _ _) ?_ (by assumption)
    | with_reducible apply canon_ite
    | (with_reducible intro u x hu; try dsimp only)
    | with_reducible apply canonR_ite
    | with_reducible apply canonR_next
    | split
    | with_reducible exact canonP_none
    | with_reducible apply canonP_some
    | with_reducible intro u x hu
    | (with_reducible intro x u hu; try dsimp only)
    | exact fun _ k => ⟨k.1, k.2⟩
    | exact fun _ k => k
    | exact ⟨hq.1, hq.2⟩
    | (refine ⟨⟨hq.1.1, hq.1.2⟩, ?_⟩)
    | (refine ⟨hq.1, ?_⟩)
    | (unfold smxRow; try dsimp only)

theorem execPhaseFailure_canon {s : State} (a0 : Fin 72) (a1 : ℕ) (h : Canon s) :
    CanonR (execPhaseFailure a0 a1 s) := by
  unfold execPhaseFailure
  try dsimp only
  repeat' first
    | with_reducible assumption
    | with_reducible apply State.onDom_canon
    | with_reducible apply State.fieldFail_canon
    | with_reducible apply State.at_canon
    | with_reducible apply State.darken_canon
    | with_reducible apply canon_ite
    | with_reducible apply canonR_ite
    | with_reducible apply canonR_next
    | split
    | exact fun _ k => ⟨k.1, k.2⟩
    | exact fun _ k => k
    | exact ⟨hq.1, hq.2⟩
    | (refine ⟨⟨hq.1.1, hq.1.2⟩, ?_⟩)
    | (refine ⟨hq.1, ?_⟩)

theorem execHostDrain_canon {s : State} (a0 : ℕ) (h : Canon s) :
    CanonR (execHostDrain a0 s) := by
  unfold execHostDrain
  try dsimp only
  repeat' first
    | with_reducible assumption
    | with_reducible apply State.at_canon
    | with_reducible apply canon_ite
    | with_reducible apply canonR_ite
    | with_reducible apply canonR_next
    | split
    | with_reducible refine canon_host _ ?_ ?_
    | exact fun _ k => ⟨k.1, k.2⟩
    | exact fun _ k => k
    | exact ⟨hq.1, hq.2⟩
    | (refine ⟨⟨hq.1.1, hq.1.2⟩, ?_⟩)
    | (refine ⟨hq.1, ?_⟩)

theorem State.dropAllBegun_canon {s : State} (a1 : ℕ) (a2 : Eng) (h : Canon s) :
    Canon (State.dropAllBegun s a1 a2) := by
  unfold State.dropAllBegun
  try dsimp only
  repeat' first
    | with_reducible assumption
    | with_reducible apply State.dropCommand_canon
    | with_reducible apply State.strikeChain_canon
    | with_reducible apply State.dropBegun_canon
    | with_reducible apply canon_ite
    | with_reducible apply canon_foldl
    | with_reducible apply canon_foldl2
    | (with_reducible intro u x hu; try dsimp only)
    | split
    | exact fun _ k => ⟨k.1, k.2⟩
    | exact fun _ k => k
    | exact ⟨hq.1, hq.2⟩
    | (refine ⟨⟨hq.1.1, hq.1.2⟩, ?_⟩)
    | (refine ⟨hq.1, ?_⟩)

theorem State.failEngine_canon {s : State} (a1 : ℕ) (a2 : Eng) (a3 : ℕ) (h : Canon s) :
    Canon (State.failEngine s a1 a2 a3) := by
  unfold State.failEngine
  try dsimp only
  repeat' first
    | with_reducible assumption
    | with_reducible apply State.failChain_canon
    | with_reducible apply State.failArray_canon
    | with_reducible apply State.failFront_canon
    | with_reducible apply State.failRequest_canon
    | with_reducible apply canon_ite
    | split
    | exact fun _ k => ⟨k.1, k.2⟩
    | exact fun _ k => k
    | exact ⟨hq.1, hq.2⟩
    | (refine ⟨⟨hq.1.1, hq.1.2⟩, ?_⟩)
    | (refine ⟨hq.1, ?_⟩)

theorem execSequencerMismatch_canon {s : State} (a0 : Fin 64) (a1 : Eng) (a2 : Bool) (h : Canon s) :
    CanonR (execSequencerMismatch a0 a1 a2 s) := by
  unfold execSequencerMismatch
  try dsimp only
  repeat' first
    | with_reducible assumption
    | with_reducible apply State.dropAllBegun_canon
    | with_reducible apply State.failEngine_canon
    | with_reducible apply State.secondFailure_canon
    | with_reducible apply canon_ite
    | with_reducible apply canonR_ite
    | with_reducible apply canonR_next
    | split
    | exact fun _ k => ⟨k.1, k.2⟩
    | exact fun _ k => k
    | exact ⟨hq.1, hq.2⟩
    | (refine ⟨⟨hq.1.1, hq.1.2⟩, ?_⟩)
    | (refine ⟨hq.1, ?_⟩)

theorem execStackRefresh_canon {s : State} (a0 : Fin 16) (a1 : Fin 8) (a2 : Fin 2) (a3 : Fin 48) (h : Canon s) :
    CanonR (execStackRefresh a0 a1 a2 a3 s) := by
  unfold execStackRefresh
  try dsimp only
  repeat' first
    | with_reducible assumption
    | with_reducible apply State.onStk_canon
    | with_reducible apply canon_ite
    | with_reducible apply canonR_ite
    | with_reducible apply canonR_next
    | split
    | exact fun _ k => ⟨k.1, k.2⟩
    | exact fun _ k => k
    | exact ⟨hq.1, hq.2⟩
    | exact fun _ k => ⟨k.1, k.2.1, (by dsimp only; exact Tbl.mapv_wf _ _ _ k.2.2.1), k.2.2.2⟩
    | exact fun _ k => ⟨k.1, k.2.1, k.2.2.1, (by dsimp only; exact Tbl.mapv_wf _ _ _ k.2.2.2)⟩
    | exact fun _ k => ⟨(by dsimp only; exact Tbl.mapv_wf _ _ _ k.1), k.2⟩
    | exact fun _ k => ⟨k.1, (by dsimp only; exact Tbl.mapv_wf _ _ _ k.2)⟩
    | exact ⟨hq.1, hq.2.1, hq.2.2.1, (by dsimp only; exact Tbl.set_wf _ _ _ _ hq.2.2.2.1), hq.2.2.2.2⟩
    | exact ⟨hq.1, hq.2.1, (by dsimp only; exact Tbl.set_wf _ _ _ _ hq.2.2.1), hq.2.2.2⟩
    | exact ⟨(by dsimp only; exact Tbl.mapv_wf _ _ _ hq.1), hq.2⟩
    | exact fun k => cores_mapv_canon _ (fun c k => Core.halt_canon k) k
    | exact fun k => (by dsimp only; exact Tbl.mapv_wf _ _ _ k.2.2.1)
    | exact fun k => (by dsimp only; exact Tbl.mapv_wf _ _ _ k.2.2.2.1)
    | exact fun _ k => (by dsimp only; exact Tbl.mapv_wf _ _ _ k)
    | (refine ⟨⟨hq.1.1, hq.1.2⟩, ?_⟩)
    | (refine ⟨hq.1, ?_⟩)

theorem execMmWin3d_canon {s : State} (a0 : Fin 64) (a1 : Arr) (h : Canon s) :
    CanonR (execMmWin3d a0 a1 s) := by
  unfold execMmWin3d
  try dsimp only
  repeat' first
    | with_reducible assumption
    | with_reducible apply runCmd_canon
    | with_reducible apply mmEff_canon
    | with_reducible apply accessHold_canon
    | with_reducible refine CanonP.out (o := accessHold _ _ _ _) ?_ (by assumption)
    | with_reducible apply canon_ite
    | (with_reducible intro u x hu; try dsimp only)
    | with_reducible apply canonR_ite
    | with_reducible apply canonR_next
    | split
    | with_reducible exact canonP_none
    | with_reducible apply canonP_some
    | with_reducible intro u x hu
    | (with_reducible intro x u hu; try dsimp only)
    | exact fun _ k => ⟨k.1, k.2⟩
    | exact fun _ k => k
    | exact ⟨hq.1, hq.2⟩
    | (refine ⟨⟨hq.1.1, hq.1.2⟩, ?_⟩)
    | (refine ⟨hq.1, ?_⟩)
    | (unfold mmRow; try dsimp only)

theorem execConfigApply_canon {s : State} (h : Canon s) :
    CanonR (execConfigApply s) := by
  unfold execConfigApply
  try dsimp only
  repeat' first
    | with_reducible assumption
    | with_reducible apply State.onPair_canon
    | with_reducible apply State.accepted_canon
    | with_reducible apply State.serve_canon
    | with_reducible apply State.refuse_canon
    | with_reducible apply canon_ite
    | with_reducible apply canonR_ite
    | with_reducible apply canonR_next
    | split
    | with_reducible refine canon_cfg _ ?_
    | exact fun k => k
    | exact fun k => Pair.putMsg_canon _ k
    | exact fun k => Pair.write_canon _ _ k
    | exact fun _ k => ⟨k.1, k.2⟩
    | exact fun _ k => k
    | exact ⟨hq.1, hq.2⟩
    | (refine ⟨⟨hq.1.1, hq.1.2⟩, ?_⟩)
    | (refine ⟨hq.1, ?_⟩)

theorem execParityError_canon {s : State} (a0 : ParityPlace) (h : Canon s) :
    CanonR (execParityError a0 s) := by
  unfold execParityError
  try dsimp only
  repeat' first
    | with_reducible assumption
    | with_reducible apply State.deviceFault_canon
    | with_reducible apply State.failEngine_canon
    | with_reducible apply State.bufDrop_canon
    | with_reducible apply canon_ite
    | with_reducible apply canonR_ite
    | with_reducible apply canonR_next
    | split
    | exact fun _ k => ⟨k.1, k.2⟩
    | exact fun _ k => k
    | exact ⟨hq.1, hq.2⟩
    | (refine ⟨⟨hq.1.1, hq.1.2⟩, ?_⟩)
    | (refine ⟨hq.1, ?_⟩)

theorem State.waitOn_canon {s : State} (a1 : Ctx) (a2 : ℕ) (h : Canon s) :
    Canon (State.waitOn s a1 a2) := by
  unfold State.waitOn
  try dsimp only
  repeat' first
    | with_reducible assumption
    | with_reducible apply State.onSeq_canon
    | with_reducible apply Sequencer.onEng_canon
    | with_reducible apply canon_ite
    | (with_reducible intro q hq; try dsimp only)
    | split
    | exact fun _ k => ⟨k.1, k.2⟩
    | exact fun _ k => k
    | exact ⟨hq.1, hq.2⟩
    | (refine ⟨⟨hq.1.1, hq.1.2⟩, ?_⟩)
    | (refine ⟨hq.1, ?_⟩)

theorem execSliceCommit_canon {s : State} (a0 : Fin 128) (a1 : GrpKey) (h : Canon s) :
    CanonR (execSliceCommit a0 a1 s) := by
  unfold execSliceCommit
  try dsimp only
  repeat' first
    | with_reducible assumption
    | with_reducible apply State.sliceCommit_canon
    | with_reducible apply State.retryHeld_canon
    | with_reducible apply canon_ite
    | with_reducible apply canonR_ite
    | with_reducible apply canonR_next
    | split
    | exact fun _ k => ⟨k.1, k.2⟩
    | exact fun _ k => k
    | exact ⟨hq.1, hq.2⟩
    | (refine ⟨⟨hq.1.1, hq.1.2⟩, ?_⟩)
    | (refine ⟨hq.1, ?_⟩)

theorem execTimeBeacon_canon {s : State} (a0 : ℕ) (h : Canon s) :
    CanonR (execTimeBeacon a0 s) := by
  unfold execTimeBeacon
  try dsimp only
  repeat' first
    | with_reducible assumption
    | with_reducible apply State.at_canon
    | with_reducible apply canon_ite
    | with_reducible apply canon_foldl
    | with_reducible apply canon_foldl2
    | (with_reducible intro u x hu; try dsimp only)
    | with_reducible apply canonR_ite
    | with_reducible apply canonR_next
    | split
    | with_reducible refine canon_clk _ ?_
    | exact fun _ k => ⟨k.1, k.2⟩
    | exact fun _ k => k
    | exact ⟨hq.1, hq.2⟩
    | exact fun _ k => ⟨k.1, k.2.1, (by dsimp only; exact Tbl.mapv_wf _ _ _ k.2.2.1), k.2.2.2⟩
    | exact fun _ k => ⟨k.1, k.2.1, k.2.2.1, (by dsimp only; exact Tbl.mapv_wf _ _ _ k.2.2.2)⟩
    | exact fun _ k => ⟨(by dsimp only; exact Tbl.mapv_wf _ _ _ k.1), k.2⟩
    | exact fun _ k => ⟨k.1, (by dsimp only; exact Tbl.mapv_wf _ _ _ k.2)⟩
    | exact ⟨hq.1, hq.2.1, hq.2.2.1, (by dsimp only; exact Tbl.set_wf _ _ _ _ hq.2.2.2.1), hq.2.2.2.2⟩
    | exact ⟨hq.1, hq.2.1, (by dsimp only; exact Tbl.set_wf _ _ _ _ hq.2.2.1), hq.2.2.2⟩
    | exact ⟨(by dsimp only; exact Tbl.mapv_wf _ _ _ hq.1), hq.2⟩
    | exact fun k => cores_mapv_canon _ (fun c k => Core.halt_canon k) k
    | exact fun k => (by dsimp only; exact Tbl.mapv_wf _ _ _ k.2.2.1)
    | exact fun k => (by dsimp only; exact Tbl.mapv_wf _ _ _ k.2.2.2.1)
    | exact fun _ k => (by dsimp only; exact Tbl.mapv_wf _ _ _ k)
    | (refine ⟨⟨hq.1.1, hq.1.2⟩, ?_⟩)
    | (refine ⟨hq.1, ?_⟩)

theorem execAckTimer_canon {s : State} (a0 : BitVec 20) (a1 : ℕ) (h : Canon s) :
    CanonR (execAckTimer a0 a1 s) := by
  unfold execAckTimer
  try dsimp only
  repeat' first
    | with_reducible assumption
    | with_reducible apply State.ctxUse_canon
    | with_reducible refine canon_pair (x := State.ctxUse _ _) ?_ (by assumption)
    | with_reducible apply State.sendAck_canon
    | with_reducible apply State.at_canon
    | with_reducible apply canon_ite
    | with_reducible apply canonR_ite
    | with_reducible apply canonR_next
    | split
    | exact fun _ k => ⟨k.1, k.2⟩
    | exact fun _ k => k
    | exact ⟨hq.1, hq.2⟩
    | (refine ⟨⟨hq.1.1, hq.1.2⟩, ?_⟩)
    | (refine ⟨hq.1, ?_⟩)

theorem execAlwaysOnFail_canon {s : State} (h : Canon s) :
    CanonR (execAlwaysOnFail s) := by
  unfold execAlwaysOnFail
  try dsimp only
  repeat' first
    | with_reducible assumption
    | with_reducible apply State.allOff_canon
    | with_reducible apply canon_ite
    | with_reducible apply canonR_ite
    | with_reducible apply canonR_next
    | split
    | with_reducible refine canon_pwr _ ?_ ?_
    | exact fun _ k => ⟨k.1, k.2⟩
    | exact fun _ k => k
    | exact ⟨hq.1, hq.2⟩
    | (refine ⟨⟨hq.1.1, hq.1.2⟩, ?_⟩)
    | (refine ⟨hq.1, ?_⟩)

theorem histEff_canon {s : State} (a0 : Ctx) (h : Canon s) :
    Canon (histEff a0 s) := by
  unfold histEff
  try dsimp only
  repeat' first
    | with_reducible assumption
    | with_reducible apply readInputs_canon
    | with_reducible refine canon_pair (x := readInputs _ _) ?_ (by assumption)
    | with_reducible apply State.redFlags_canon
    | with_reducible apply State.onScp_canon
    | with_reducible apply State.complete_canon
    | with_reducible apply canon_ite
    | with_reducible refine foldl_keeps (P := Scratch.Canon) _ _ hq ?_
    | with_reducible apply canon_foldl
    | with_reducible apply canon_foldl2
    | with_reducible apply canon_getD
    | (with_reducible intro u x hu; try dsimp only)
    | (with_reducible intro q hq; try dsimp only)
    | split
    | exact fun _ k => ⟨k.1, k.2⟩
    | exact fun _ k => k
    | exact ⟨hq.1, hq.2⟩
    | (refine ⟨⟨hq.1.1, hq.1.2⟩, ?_⟩)
    | (refine ⟨hq.1, ?_⟩)

theorem execRedHist_canon {s : State} (a0 : Fin 64) (h : Canon s) :
    CanonR (execRedHist a0 s) := by
  unfold execRedHist
  try dsimp only
  repeat' first
    | with_reducible assumption
    | with_reducible apply histEff_canon
    | with_reducible apply runCmd_canon
    | with_reducible apply tileHold_canon
    | with_reducible refine CanonP.out (o := tileHold _ _ _) ?_ (by assumption)
    | with_reducible apply canon_ite
    | (with_reducible intro u x hu; try dsimp only)
    | with_reducible apply canonR_ite
    | with_reducible apply canonR_next
    | split
    | with_reducible exact canonP_none
    | with_reducible apply canonP_some
    | with_reducible intro u x hu
    | (with_reducible intro x u hu; try dsimp only)
    | exact fun _ k => ⟨k.1, k.2⟩
    | exact fun _ k => k
    | exact ⟨hq.1, hq.2⟩
    | (refine ⟨⟨hq.1.1, hq.1.2⟩, ?_⟩)
    | (refine ⟨hq.1, ?_⟩)
    | (unfold histRow; try dsimp only)

theorem execConfigStage_canon {s : State} (h : Canon s) :
    CanonR (execConfigStage s) := by
  unfold execConfigStage
  try dsimp only
  repeat' first
    | with_reducible assumption
    | with_reducible apply State.answerWith_canon
    | with_reducible apply State.refuse_canon
    | with_reducible apply State.stagePairs_canon
    | with_reducible refine canon_trip (x := State.stagePairs _ _ _) ?_ (by assumption)
    | with_reducible apply canon_ite
    | with_reducible apply canonR_ite
    | with_reducible apply canonR_next
    | split
    | exact fun _ k => ⟨k.1, k.2⟩
    | exact fun _ k => k
    | exact ⟨hq.1, hq.2⟩
    | (refine ⟨⟨hq.1.1, hq.1.2⟩, ?_⟩)
    | (refine ⟨hq.1, ?_⟩)

theorem execVxMul_canon {s : State} (a0 : Fin 64) (h : Canon s) :
    CanonR (execVxMul a0 s) := by
  unfold execVxMul
  try dsimp only
  repeat' first
    | with_reducible assumption
    | with_reducible apply vxElementwise_canon
    | with_reducible apply runCmd_canon
    | with_reducible apply tileHold_canon
    | with_reducible refine CanonP.out (o := tileHold _ _ _) ?_ (by assumption)
    | with_reducible apply canon_ite
    | with_reducible apply canon_getD
    | (with_reducible intro u x hu; try dsimp only)
    | with_reducible apply canonR_ite
    | with_reducible apply canonR_next
    | split
    | with_reducible exact canonP_none
    | with_reducible apply canonP_some
    | with_reducible intro u x hu
    | (with_reducible intro x u hu; try dsimp only)
    | exact fun _ k => ⟨k.1, k.2⟩
    | exact fun _ k => k
    | exact ⟨hq.1, hq.2⟩
    | (refine ⟨⟨hq.1.1, hq.1.2⟩, ?_⟩)
    | (refine ⟨hq.1, ?_⟩)
    | (unfold vxRow; try dsimp only)

theorem vxScanEff_canon {s : State} (a0 : Ctx) (h : Canon s) :
    Canon (vxScanEff a0 s) := by
  unfold vxScanEff
  try dsimp only
  repeat' first
    | with_reducible assumption
    | with_reducible apply readInputs_canon
    | with_reducible refine canon_pair (x := readInputs _ _) ?_ (by assumption)
    | with_reducible apply vxFinish_canon
    | with_reducible apply canon_ite
    | with_reducible apply canon_foldl
    | with_reducible apply canon_foldl2
    | with_reducible apply canon_getD
    | (with_reducible intro u x hu; try dsimp only)
    | split
    | exact fun _ k => ⟨k.1, k.2⟩
    | exact fun _ k => k
    | exact ⟨hq.1, hq.2⟩
    | (refine ⟨⟨hq.1.1, hq.1.2⟩, ?_⟩)
    | (refine ⟨hq.1, ?_⟩)

theorem execClosingTimeout_canon {s : State} (a0 : BitVec 20) (a1 : ℕ) (h : Canon s) :
    CanonR (execClosingTimeout a0 a1 s) := by
  unfold execClosingTimeout
  try dsimp only
  repeat' first
    | with_reducible assumption
    | with_reducible apply State.freeFlowAt_canon
    | with_reducible apply State.at_canon
    | with_reducible apply canon_ite
    | with_reducible apply canonR_ite
    | with_reducible apply canonR_next
    | split
    | exact fun _ k => ⟨k.1, k.2⟩
    | exact fun _ k => k
    | exact ⟨hq.1, hq.2⟩
    | (refine ⟨⟨hq.1.1, hq.1.2⟩, ?_⟩)
    | (refine ⟨hq.1, ?_⟩)

theorem execFwUpdateGo_canon {s : State} (h : Canon s) :
    CanonR (execFwUpdateGo s) := by
  unfold execFwUpdateGo
  try dsimp only
  repeat' first
    | with_reducible assumption
    | with_reducible apply State.fetchBytes_canon
    | with_reducible refine canon_trip (x := State.fetchBytes _ _ _ _) ?_ (by assumption)
    | with_reducible apply canon_ite
    | with_reducible apply canonR_ite
    | with_reducible apply canonR_next
    | split
    | with_reducible refine canon_cfg _ ?_
    | with_reducible refine canon_mgmt _ ?_
    | exact fun _ k => ⟨k.1, k.2⟩
    | exact fun _ k => k
    | exact ⟨hq.1, hq.2⟩
    | (refine ⟨⟨hq.1.1, hq.1.2⟩, ?_⟩)
    | (refine ⟨hq.1, ?_⟩)

theorem execBisnpResponse_canon {s : State} (a0 : Fin 128) (a1 : Option (List Byte × Bool)) (h : Canon s) :
    CanonR (execBisnpResponse a0 a1 s) := by
  unfold execBisnpResponse
  try dsimp only
  repeat' first
    | with_reducible assumption
    | with_reducible apply State.sliceGo_canon
    | with_reducible apply State.writeMem_canon
    | with_reducible apply State.onSlice_canon
    | with_reducible apply canon_ite
    | with_reducible apply canonR_ite
    | with_reducible apply canonR_next
    | split
    | exact fun _ k => ⟨k.1, k.2⟩
    | exact fun _ k => k
    | exact ⟨hq.1, hq.2⟩
    | (refine ⟨⟨hq.1.1, hq.1.2⟩, ?_⟩)
    | (refine ⟨hq.1, ?_⟩)

theorem execWaitBar_canon {s : State} (a0 : Fin 64) (a1 : Eng) (h : Canon s) :
    CanonR (execWaitBar a0 a1 s) := by
  unfold execWaitBar
  try dsimp only
  repeat' first
    | with_reducible assumption
    | with_reducible apply State.retireFront_canon
    | with_reducible apply runCmd_canon
    | with_reducible apply State.waitOn_canon
    | with_reducible apply canon_ite
    | (with_reducible intro u x hu; try dsimp only)
    | with_reducible apply canonR_ite
    | with_reducible apply canonR_next
    | split
    | with_reducible exact canonP_none
    | with_reducible apply canonP_some
    | with_reducible intro u x hu
    | (with_reducible intro x u hu; try dsimp only)
    | exact fun _ k => ⟨k.1, k.2⟩
    | exact fun _ k => k
    | exact ⟨hq.1, hq.2⟩
    | (refine ⟨⟨hq.1.1, hq.1.2⟩, ?_⟩)
    | (refine ⟨hq.1, ?_⟩)
    | (unfold plainRow; try dsimp only)

theorem execShunt_canon {s : State} (a0 : Fin 72) (a1 : ℕ) (a2 : ℕ) (h : Canon s) :
    CanonR (execShunt a0 a1 a2 s) := by
  unfold execShunt
  try dsimp only
  repeat' first
    | with_reducible assumption
    | with_reducible apply State.onDom_canon
    | with_reducible apply State.at_canon
    | with_reducible apply canon_ite
    | with_reducible apply canonR_ite
    | with_reducible apply canonR_next
    | split
    | exact fun _ k => ⟨k.1, k.2⟩
    | exact fun _ k => k
    | exact ⟨hq.1, hq.2⟩
    | (refine ⟨⟨hq.1.1, hq.1.2⟩, ?_⟩)
    | (refine ⟨hq.1, ?_⟩)

theorem execSectionWake_canon {s : State} (a0 : Fin 64) (a1 : Fin 6) (h : Canon s) :
    CanonR (execSectionWake a0 a1 s) := by
  unfold execSectionWake
  try dsimp only
  repeat' first
    | with_reducible assumption
    | with_reducible apply State.onScp_canon
    | with_reducible apply Scratch.wake_canon
    | with_reducible apply canon_ite
    | (with_reducible intro q hq; try dsimp only)
    | with_reducible apply canonR_ite
    | with_reducible apply canonR_next
    | split
    | exact ⟨(Scratch.wake_canon _ hq).1, (Scratch.wake_canon _ hq).2⟩
    | exact fun _ k => ⟨k.1, k.2⟩
    | exact fun _ k => k
    | exact ⟨hq.1, hq.2⟩
    | (refine ⟨⟨hq.1.1, hq.1.2⟩, ?_⟩)
    | (refine ⟨hq.1, ?_⟩)

theorem execTemperSave_canon {s : State} (a0 : ℕ) (h : Canon s) :
    CanonR (execTemperSave a0 s) := by
  unfold execTemperSave
  try dsimp only
  repeat' first
    | with_reducible assumption
    | with_reducible apply State.saveTemper_canon
    | with_reducible apply State.at_canon
    | with_reducible apply canon_ite
    | with_reducible apply canonR_ite
    | with_reducible apply canonR_next
    | split
    | with_reducible refine canon_pwr _ ?_ ?_
    | exact fun _ k => ⟨k.1, k.2⟩
    | exact fun _ k => k
    | exact ⟨hq.1, hq.2⟩
    | (refine ⟨⟨hq.1.1, hq.1.2⟩, ?_⟩)
    | (refine ⟨hq.1, ?_⟩)

theorem State.closedInstr_canon {s : State} (h : Canon s) :
    Canon (State.closedInstr s) := by
  unfold State.closedInstr
  try dsimp only
  repeat' first
    | with_reducible assumption
    | with_reducible apply State.shiftOut_canon
    | with_reducible apply canon_ite
    | split
    | with_reducible refine canon_sec _ ?_
    | exact fun _ k => ⟨k.1, k.2⟩
    | exact fun _ k => k
    | exact ⟨hq.1, hq.2⟩
    | (refine ⟨⟨hq.1.1, hq.1.2⟩, ?_⟩)
    | (refine ⟨hq.1, ?_⟩)

theorem execJtagExtest_canon {s : State} (h : Canon s) :
    CanonR (execJtagExtest s) := by
  unfold execJtagExtest
  try dsimp only
  repeat' first
    | with_reducible assumption
    | with_reducible apply State.shiftOut_canon
    | with_reducible apply State.closedInstr_canon
    | with_reducible apply canon_ite
    | with_reducible apply canonR_ite
    | with_reducible apply canonR_next
    | split
    | with_reducible refine canon_sec _ ?_
    | exact fun _ k => ⟨k.1, k.2⟩
    | exact fun _ k => k
    | exact ⟨hq.1, hq.2⟩
    | (refine ⟨⟨hq.1.1, hq.1.2⟩, ?_⟩)
    | (refine ⟨hq.1, ?_⟩)

theorem execReadReq_canon {s : State} (a0 : PktHdr) (a1 : BitVec 40) (a2 : BitVec 16) (a3 : BitVec 32) (h : Canon s) :
    CanonR (execReadReq a0 a1 a2 a3 s) := by
  unfold execReadReq
  try dsimp only
  repeat' first
    | with_reducible assumption
    | with_reducible apply State.afterArrival_canon
    | with_reducible apply State.memWait_canon
    | with_reducible refine CanonO.out (o := State.memWait _ _ _ _ _ _) ?_ (by assumption)
    | with_reducible apply State.sendSeq_canon
    | with_reducible apply State.recordArrival_canon
    | with_reducible apply State.pumpFlow_canon
    | with_reducible apply State.onFlow_canon
    | with_reducible apply State.verdict_canon
    | with_reducible refine CanonV.settledOut (v := State.verdict _ _ _) ?_ (by assumption)
    | with_reducible refine CanonV.freshOut (v := State.verdict _ _ _) ?_ (by assumption)
    | with_reducible apply canon_ite
    | with_reducible apply canonR_ite
    | with_reducible apply canonR_next
    | with_reducible refine CanonO.out (o := ite _ _ _) ?_ (by assumption)
    | with_reducible apply canonO_some
    | split
    | exact fun _ k => ⟨k.1, k.2⟩
    | exact fun _ k => k
    | exact ⟨hq.1, hq.2⟩
    | (refine ⟨⟨hq.1.1, hq.1.2⟩, ?_⟩)
    | (refine ⟨hq.1, ?_⟩)

theorem execJobSubmit_canon {s : State} (a0 : Fin 16) (h : Canon s) :
    CanonR (execJobSubmit a0 s) := by
  unfold execJobSubmit
  try dsimp only
  repeat' first
    | with_reducible assumption
    | with_reducible apply State.preemptPass_canon
    | with_reducible apply State.onSQueue_canon
    | with_reducible apply State.accept_canon
    | with_reducible apply State.askOn_canon
    | with_reducible apply State.refuse_canon
    | with_reducible apply State.onJob_canon
    | with_reducible apply canon_ite
    | with_reducible apply canon_foldl
    | with_reducible apply canon_foldl2
    | (with_reducible intro u x hu; try dsimp only)
    | with_reducible apply canonR_ite
    | with_reducible apply canonR_next
    | split
    | exact fun _ k => ⟨k.1, k.2⟩
    | exact fun _ k => k
    | exact ⟨hq.1, hq.2⟩
    | (refine ⟨⟨hq.1.1, hq.1.2⟩, ?_⟩)
    | (refine ⟨hq.1, ?_⟩)

theorem execRedMin_canon {s : State} (a0 : Fin 64) (h : Canon s) :
    CanonR (execRedMin a0 s) := by
  unfold execRedMin
  try dsimp only
  repeat' first
    | with_reducible assumption
    | with_reducible apply redSelect_canon
    | with_reducible apply runCmd_canon
    | with_reducible apply tileHold_canon
    | with_reducible refine CanonP.out (o := tileHold _ _ _) ?_ (by assumption)
    | with_reducible apply canon_ite
    | (with_reducible intro u x hu; try dsimp only)
    | with_reducible apply canonR_ite
    | with_reducible apply canonR_next
    | split
    | with_reducible exact canonP_none
    | with_reducible apply canonP_some
    | with_reducible intro u x hu
    | (with_reducible intro x u hu; try dsimp only)
    | exact fun _ k => ⟨k.1, k.2⟩
    | exact fun _ k => k
    | exact ⟨hq.1, hq.2⟩
    | (refine ⟨⟨hq.1.1, hq.1.2⟩, ?_⟩)
    | (refine ⟨hq.1, ?_⟩)
    | (unfold redRow; try dsimp only)

theorem State.unqueue_canon {s : State} (a1 : ℕ) (h : Canon s) :
    Canon (State.unqueue s a1) := by
  unfold State.unqueue
  try dsimp only
  repeat' first
    | with_reducible assumption
    | with_reducible apply State.onSQueue_canon
    | with_reducible apply canon_ite
    | split
    | exact fun _ k => ⟨k.1, k.2⟩
    | exact fun _ k => k
    | exact ⟨hq.1, hq.2⟩
    | (refine ⟨⟨hq.1.1, hq.1.2⟩, ?_⟩)
    | (refine ⟨hq.1, ?_⟩)

theorem execJobCancel_canon {s : State} (a0 : Fin 16) (h : Canon s) :
    CanonR (execJobCancel a0 s) := by
  unfold execJobCancel
  try dsimp only
  repeat' first
    | with_reducible assumption
    | with_reducible apply State.preemptPass_canon
    | with_reducible apply State.unqueue_canon
    | with_reducible apply State.accept_canon
    | with_reducible apply State.stopJob_canon
    | with_reducible apply State.refuse_canon
    | with_reducible apply State.fresh_canon
    | with_reducible refine canon_pair (x := State.fresh _) ?_ (by assumption)
    | with_reducible apply State.onJob_canon
    | with_reducible apply Sequencer.start_canon
    | with_reducible apply canon_ite
    | with_reducible apply canonR_ite
    | with_reducible apply canonR_next
    | split
    | exact fun _ k => ⟨k.1, k.2⟩
    | exact fun _ k => k
    | exact ⟨hq.1, hq.2⟩
    | (refine ⟨⟨hq.1.1, hq.1.2⟩, ?_⟩)
    | (refine ⟨hq.1, ?_⟩)

theorem execStackRead_canon {s : State} (a0 : BitVec 40) (a1 : Upset) (h : Canon s) :
    CanonR (execStackRead a0 a1 s) := by
  unfold execStackRead
  try dsimp only
  repeat' first
    | with_reducible assumption
    | with_reducible apply State.demandRead_canon
    | with_reducible refine canon_pair (x := State.demandRead _ _ _) ?_ (by assumption)
    | with_reducible apply canon_ite
    | with_reducible apply canonR_ite
    | with_reducible apply canonR_next
    | split
    | with_reducible refine canon_mem _ ?_ ?_
    | exact fun _ k => ⟨k.1, k.2⟩
    | exact fun _ k => k
    | exact ⟨hq.1, hq.2⟩
    | (refine ⟨⟨hq.1.1, hq.1.2⟩, ?_⟩)
    | (refine ⟨hq.1, ?_⟩)

theorem State.freeBins_canon {s : State} (a1 : ℕ) (h : Canon s) : Canon (State.freeBins s a1) := by
  unfold State.freeBins
  exact State.onScp_canon _ _ (canon_free _ h) fun q hq =>
    ⟨hq.1, hq.2.1, hq.2.2⟩

theorem State.setAside_canon {s : State} (a1 a2 : ℕ) (h : Canon s) : Canon (State.setAside s a1 a2) := by
  unfold State.setAside
  extract_lets f m s1
  have k1 : Canon s1 := canon_mem _ h fun _ k => ⟨k.1, k.2.1, by dsimp only; exact Tbl.mapv_wf _ _ _ k.2.2.1, k.2.2.2⟩
  clear_value s1
  exact State.moveXfers_canon _ _ _ (State.onScp_canon _ _ k1 fun _ hq => ⟨hq.1, hq.2⟩)

theorem execPreemptSaveDone_canon {s : State} (a0 : Fin 64) (h : Canon s) : CanonR (execPreemptSaveDone a0 s) := by
  unfold execPreemptSaveDone
  extract_lets co
  have kc : co.Canon := h.1.2 _
  clear_value co
  split
  · exact canonR_next h
  refine canonR_ite (canonR_next h) (canonR_next ?_)
  rename_i t _
  have kv : (co.save (s.coreNs a0) t).Canon :=
    ⟨by unfold Core.save; exact Tbl.mapv_wf _ _ _ kc.1.1, kc.1.2.1, kc.1.2.2.1, kc.2.2.1⟩
  generalize co.save (s.coreNs a0) t = sv at kv ⊢
  refine State.preemptPass_canon (State.settlePreempt_canon _ (State.onJob_canon _ _
    (State.freeBins_canon _ (State.freeRegs_canon _ _ _ (State.setAside_canon _ _ ?_)))))
  exact State.onCore_canon _ _ h fun c k =>
    ⟨⟨(Core.vacate_canon k).1.1, (Core.vacate_canon k).1.2.1, rfl, k.1.2.2.2.1, fun v hv => by
      rcases List.mem_append.mp hv with e | e
      · exact (Core.vacate_canon k).1.2.2.2.2 v e
      · cases List.mem_singleton.mp e
        exact kv⟩, k.2⟩

end Sys2Proof.Machine
end

