-- ==== Sys2Proof/Laws/Canons8.lean ====
section
/-! SUPPORT. Each operation and meaning, in dependency order (part 9 of 10), keeps the canonical form. -/

namespace Sys2Proof.Machine

theorem dmaEff_canon {s : State} (a0 : Ctx) (h : Canon s) :
    Canon (dmaEff a0 s) := by
  unfold dmaEff
  try dsimp only
  repeat' first
    | with_reducible assumption
    | with_reducible apply State.farFlow_canon
    | with_reducible refine CanonF.out (v := State.farFlow _ _ _) ?_ (by assumption)
    | with_reducible apply State.consume_canon
    | with_reducible apply State.reserveTile_canon
    | with_reducible refine canon_pair (x := State.reserveTile _ _ _ _ _) ?_ (by assumption)
    | with_reducible apply State.tagOut_canon
    | with_reducible apply State.retireFront_canon
    | with_reducible apply State.tagFlow_canon
    | with_reducible apply State.ownWindow_canon
    | with_reducible refine CanonW.refusedOut (v := State.ownWindow _ _ _ _ _ _ _ _) ?_ (by assumption)
    | with_reducible refine CanonW.queuedOut (v := State.ownWindow _ _ _ _ _ _ _ _) ?_ (by assumption)
    | with_reducible refine CanonW.placedOut (v := State.ownWindow _ _ _ _ _ _ _ _) ?_ (by assumption)
    | with_reducible apply State.pumpApt_canon
    | with_reducible apply State.writeMem_canon
    | with_reducible apply State.beginXfer_canon
    | with_reducible apply State.pumpPackets_canon
    | with_reducible apply State.failStream_canon
    | with_reducible apply State.landBytes_canon
    | with_reducible refine CanonD.waitOut (v := State.landBytes _ _ _ _ _) ?_ (by assumption)
    | with_reducible refine CanonD.doneOut (v := State.landBytes _ _ _ _ _) ?_ (by assumption)
    | with_reducible apply State.onFlow_canon
    | with_reducible apply State.endXfer_canon
    | with_reducible apply State.pumpReads_canon
    | with_reducible apply State.failXfer_canon
    | with_reducible apply State.setCore_canon
    | with_reducible apply State.readMem_canon
    | with_reducible refine canon_pair (x := State.readMem _ _ _ _) ?_ (by assumption)
    | with_reducible apply State.dmaPush_canon
    | with_reducible apply Sequencer.failStream_canon
    | with_reducible apply Scratch.read_canon
    | with_reducible apply Core.readRaw_canon
    | with_reducible apply Core.readTile_canon
    | with_reducible apply canon_ite
    | with_reducible apply canon_foldl
    | with_reducible apply canon_foldl2
    | with_reducible apply canon_getD
    | (with_reducible intro u x hu; try dsimp only)
    | split
    | exact fun _ k => ⟨k.1, k.2⟩
    | exact fun _ k => k
    | exact ⟨hq.1, hq.2⟩
    | with_reducible apply canon_core
    | exact ⟨⟨rfl, rfl, rfl, rfl, fun _ k => nomatch k⟩, rfl, rfl, rfl⟩
    | (refine ⟨⟨hq.1.1, hq.1.2⟩, ?_⟩)
    | (refine ⟨hq.1, ?_⟩)

theorem execCxlLinkUp_canon {s : State} (a0 : Fin 4) (a1 : Bool) (a2 : Bool) (a3 : Bool) (h : Canon s) :
    CanonR (execCxlLinkUp a0 a1 a2 a3 s) := by
  unfold execCxlLinkUp
  try dsimp only
  repeat' first
    | with_reducible assumption
    | with_reducible apply State.fresh_canon
    | with_reducible refine canon_pair (x := State.fresh _) ?_ (by assumption)
    | with_reducible apply canon_ite
    | with_reducible apply canonR_ite
    | with_reducible apply canonR_next
    | split
    | with_reducible refine canon_host _ ?_ ?_
    | exact fun _ k => ⟨k.1, k.2⟩
    | exact fun _ k => k
    | exact ⟨hq.1, hq.2⟩
    | (refine ⟨⟨hq.1.1, hq.1.2⟩, ?_⟩)
    | (refine ⟨hq.1, ?_⟩)

theorem execNop_canon {s : State} (a0 : Fin 64) (a1 : Eng) (h : Canon s) :
    CanonR (execNop a0 a1 s) := by
  unfold execNop
  try dsimp only
  repeat' first
    | with_reducible assumption
    | with_reducible apply State.retireFront_canon
    | with_reducible apply runCmd_canon
    | with_reducible apply canon_ite
    | (with_reducible intro u x hu; try dsimp only)
    | with_reducible apply canonR_ite
    | with_reducible apply canonR_next
    | split
    | with_reducible exact canonP_none
    | with_reducible apply canonP_some
    | with_reducible intro u x hu
    | (with_reducible intro x u hu; try dsimp only)
    | exact fun _ k => ⟨k.1, k.2⟩
    | exact fun _ k => k
    | exact ⟨hq.1, hq.2⟩
    | (refine ⟨⟨hq.1.1, hq.1.2⟩, ?_⟩)
    | (refine ⟨hq.1, ?_⟩)
    | (unfold plainRow; try dsimp only)

theorem execCxlPerstAssert_canon {s : State} (h : Canon s) :
    CanonR (execCxlPerstAssert s) := by
  unfold execCxlPerstAssert
  try dsimp only
  repeat' first
    | with_reducible assumption
    | with_reducible apply State.hostReset_canon
    | with_reducible apply canon_ite
    | with_reducible apply canonR_ite
    | with_reducible apply canonR_next
    | split
    | with_reducible refine canon_pins _ ?_
    | exact fun _ k => ⟨k.1, k.2⟩
    | exact fun _ k => k
    | exact ⟨hq.1, hq.2⟩
    | (refine ⟨⟨hq.1.1, hq.1.2⟩, ?_⟩)
    | (refine ⟨hq.1, ?_⟩)

theorem execStackThermalSample_canon {s : State} (a0 : Fin 16) (a1 : List ℤ) (a2 : ℕ) (h : Canon s) :
    CanonR (execStackThermalSample a0 a1 a2 s) := by
  unfold execStackThermalSample
  try dsimp only
  repeat' first
    | with_reducible assumption
    | with_reducible apply State.judgeSensor_canon
    | with_reducible apply State.onStk_canon
    | with_reducible apply State.at_canon
    | with_reducible apply State.sample_canon
    | with_reducible apply canon_ite
    | with_reducible apply canon_foldl
    | with_reducible apply canon_foldl2
    | (with_reducible intro u x hu; try dsimp only)
    | with_reducible apply canonR_ite
    | with_reducible apply canonR_next
    | split
    | with_reducible refine canon_thm _ ?_
    | exact fun _ k => ⟨k.1, k.2⟩
    | exact fun _ k => k
    | exact ⟨hq.1, hq.2⟩
    | (refine ⟨⟨hq.1.1, hq.1.2⟩, ?_⟩)
    | (refine ⟨hq.1, ?_⟩)

theorem execNonceRead_canon {s : State} (a0 : ℕ) (h : Canon s) :
    CanonR (execNonceRead a0 s) := by
  unfold execNonceRead
  try dsimp only
  repeat' first
    | with_reducible assumption
    | with_reducible apply State.at_canon
    | with_reducible apply State.readOut_canon
    | with_reducible apply State.newNonce_canon
    | with_reducible apply canon_ite
    | with_reducible apply canonR_ite
    | with_reducible apply canonR_next
    | split
    | exact fun _ k => ⟨k.1, k.2⟩
    | exact fun _ k => k
    | exact ⟨hq.1, hq.2⟩
    | (refine ⟨⟨hq.1.1, hq.1.2⟩, ?_⟩)
    | (refine ⟨hq.1, ?_⟩)

theorem execWaitQ_canon {s : State} (a0 : Fin 64) (a1 : Eng) (h : Canon s) :
    CanonR (execWaitQ a0 a1 s) := by
  unfold execWaitQ
  try dsimp only
  repeat' first
    | with_reducible assumption
    | with_reducible apply State.waitOn_canon
    | with_reducible apply State.retireFront_canon
    | with_reducible apply runCmd_canon
    | with_reducible apply canon_ite
    | (with_reducible intro u x hu; try dsimp only)
    | with_reducible apply canonR_ite
    | with_reducible apply canonR_next
    | split
    | with_reducible exact canonP_none
    | with_reducible apply canonP_some
    | with_reducible intro u x hu
    | (with_reducible intro x u hu; try dsimp only)
    | exact fun _ k => ⟨k.1, k.2⟩
    | exact fun _ k => k
    | exact ⟨hq.1, hq.2⟩
    | (refine ⟨⟨hq.1.1, hq.1.2⟩, ?_⟩)
    | (refine ⟨hq.1, ?_⟩)
    | (unfold waitQRow; try dsimp only)

theorem execHostTimeout_canon {s : State} (a0 : ℕ) (h : Canon s) :
    CanonR (execHostTimeout a0 s) := by
  unfold execHostTimeout
  try dsimp only
  repeat' first
    | with_reducible assumption
    | with_reducible apply State.enterAbsent_canon
    | with_reducible apply State.at_canon
    | with_reducible apply canon_ite
    | with_reducible apply canonR_ite
    | with_reducible apply canonR_next
    | split
    | exact fun _ k => ⟨k.1, k.2⟩
    | exact fun _ k => k
    | exact ⟨hq.1, hq.2⟩
    | (refine ⟨⟨hq.1.1, hq.1.2⟩, ?_⟩)
    | (refine ⟨hq.1, ?_⟩)

theorem State.stepTime_canon {s : State} (a1 : ℤ) (h : Canon s) :
    Canon (State.stepTime s a1) := by
  unfold State.stepTime
  try dsimp only
  repeat' first
    | with_reducible assumption
    | with_reducible apply canon_ite
    | with_reducible apply canon_foldl
    | with_reducible apply canon_foldl2
    | (with_reducible intro u x hu; try dsimp only)
    | split
    | with_reducible refine canon_clk _ ?_
    | exact fun _ k => ⟨k.1, k.2⟩
    | exact fun _ k => k
    | exact ⟨hq.1, hq.2⟩
    | (refine ⟨⟨hq.1.1, hq.1.2⟩, ?_⟩)
    | (refine ⟨hq.1, ?_⟩)

theorem State.servo_canon {s : State} (a1 : ℤ) (h : Canon s) :
    Canon (State.servo s a1) := by
  unfold State.servo
  try dsimp only
  repeat' first
    | with_reducible assumption
    | with_reducible apply State.stepTime_canon
    | with_reducible apply canon_ite
    | split
    | with_reducible refine canon_fab _ ?_ ?_
    | exact fun _ k => ⟨k.1, k.2⟩
    | exact fun _ k => k
    | exact ⟨hq.1, hq.2⟩
    | (refine ⟨⟨hq.1.1, hq.1.2⟩, ?_⟩)
    | (refine ⟨hq.1, ?_⟩)

theorem execPtpMessageRx_canon {s : State} (a0 : Fin 96) (a1 : PtpRx) (a2 : ℕ) (h : Canon s) :
    CanonR (execPtpMessageRx a0 a1 a2 s) := by
  unfold execPtpMessageRx
  try dsimp only
  repeat' first
    | with_reducible assumption
    | with_reducible apply State.giveStamp_canon
    | with_reducible apply State.at_canon
    | with_reducible apply State.electSlave_canon
    | with_reducible apply State.servo_canon
    | with_reducible apply canon_ite
    | with_reducible apply canonR_ite
    | with_reducible apply canonR_next
    | split
    | with_reducible refine canon_fab _ ?_ ?_
    | exact fun _ k => ⟨k.1, k.2⟩
    | exact fun _ k => k
    | exact ⟨hq.1, hq.2⟩
    | exact fun _ k => ⟨k.1, k.2.1, (by dsimp only; exact Tbl.mapv_wf _ _ _ k.2.2.1), k.2.2.2⟩
    | exact fun _ k => ⟨k.1, k.2.1, k.2.2.1, (by dsimp only; exact Tbl.mapv_wf _ _ _ k.2.2.2)⟩
    | exact fun _ k => ⟨(by dsimp only; exact Tbl.mapv_wf _ _ _ k.1), k.2⟩
    | exact fun _ k => ⟨k.1, (by dsimp only; exact Tbl.mapv_wf _ _ _ k.2)⟩
    | exact ⟨hq.1, hq.2.1, hq.2.2.1, (by dsimp only; exact Tbl.set_wf _ _ _ _ hq.2.2.2.1), hq.2.2.2.2⟩
    | exact ⟨hq.1, hq.2.1, (by dsimp only; exact Tbl.set_wf _ _ _ _ hq.2.2.1), hq.2.2.2⟩
    | exact ⟨(by dsimp only; exact Tbl.mapv_wf _ _ _ hq.1), hq.2⟩
    | exact fun k => cores_mapv_canon _ (fun c k => Core.halt_canon k) k
    | exact fun k => (by dsimp only; exact Tbl.mapv_wf _ _ _ k.2.2.1)
    | exact fun k => (by dsimp only; exact Tbl.mapv_wf _ _ _ k.2.2.2.1)
    | exact fun _ k => (by dsimp only; exact Tbl.mapv_wf _ _ _ k)
    | (refine ⟨⟨hq.1.1, hq.1.2⟩, ?_⟩)
    | (refine ⟨hq.1, ?_⟩)

theorem execVxExp_canon {s : State} (a0 : Fin 64) (h : Canon s) :
    CanonR (execVxExp a0 s) := by
  unfold execVxExp
  try dsimp only
  repeat' first
    | with_reducible assumption
    | with_reducible apply vxElementwise_canon
    | with_reducible apply runCmd_canon
    | with_reducible apply tileHold_canon
    | with_reducible refine CanonP.out (o := tileHold _ _ _) ?_ (by assumption)
    | with_reducible apply canon_ite
    | (with_reducible intro u x hu; try dsimp only)
    | with_reducible apply canonR_ite
    | with_reducible apply canonR_next
    | split
    | with_reducible exact canonP_none
    | with_reducible apply canonP_some
    | with_reducible intro u x hu
    | (with_reducible intro x u hu; try dsimp only)
    | exact fun _ k => ⟨k.1, k.2⟩
    | exact fun _ k => k
    | exact ⟨hq.1, hq.2⟩
    | (refine ⟨⟨hq.1.1, hq.1.2⟩, ?_⟩)
    | (refine ⟨hq.1, ?_⟩)
    | (unfold vxRow; try dsimp only)

theorem State.closeFlows_canon {s : State} (a1 : ℕ) (h : Canon s) :
    Canon (State.closeFlows s a1) := by
  unfold State.closeFlows
  try dsimp only
  repeat' first
    | with_reducible assumption
    | with_reducible apply State.freeFlowAt_canon
    | with_reducible apply State.tryClose_canon
    | with_reducible apply State.onFlow_canon
    | with_reducible apply canon_ite
    | with_reducible apply canon_foldl
    | with_reducible apply canon_foldl2
    | (with_reducible intro u x hu; try dsimp only)
    | split
    | exact fun _ k => ⟨k.1, k.2⟩
    | exact fun _ k => k
    | exact ⟨hq.1, hq.2⟩
    | (refine ⟨⟨hq.1.1, hq.1.2⟩, ?_⟩)
    | (refine ⟨hq.1, ?_⟩)

theorem execJobComplete_canon {s : State} (a0 : Fin 4096) (a1 : ℕ) (h : Canon s) :
    CanonR (execJobComplete a0 a1 s) := by
  unfold execJobComplete
  try dsimp only
  repeat' first
    | with_reducible assumption
    | with_reducible apply State.preemptPass_canon
    | with_reducible apply State.closeFlows_canon
    | with_reducible apply State.unqueue_canon
    | with_reducible apply State.endAllSaved_canon
    | with_reducible apply State.placeMsg_canon
    | with_reducible apply State.at_canon
    | with_reducible apply State.onJob_canon
    | with_reducible apply canon_ite
    | with_reducible apply canonR_ite
    | with_reducible apply canonR_next
    | split
    | exact fun _ k => ⟨k.1, k.2⟩
    | exact fun _ k => k
    | exact ⟨hq.1, hq.2⟩
    | (refine ⟨⟨hq.1.1, hq.1.2⟩, ?_⟩)
    | (refine ⟨hq.1, ?_⟩)

theorem execDmaCopy_canon {s : State} (a0 : Fin 64) (a1 : Dma) (h : Canon s) :
    CanonR (execDmaCopy a0 a1 s) := by
  unfold execDmaCopy
  try dsimp only
  repeat' first
    | with_reducible assumption
    | with_reducible apply dmaEff_canon
    | with_reducible apply runCmd_canon
    | with_reducible apply State.pumpDma_canon
    | with_reducible apply State.onSeq_canon
    | with_reducible apply State.onBegun_canon
    | with_reducible apply dmaHold_canon
    | with_reducible refine CanonP.out (o := dmaHold _ _) ?_ (by assumption)
    | with_reducible apply Sequencer.stall_canon
    | with_reducible apply canon_ite
    | (with_reducible intro u x hu; try dsimp only)
    | (with_reducible intro q hq; try dsimp only)
    | with_reducible apply canonR_ite
    | with_reducible apply canonR_next
    | split
    | with_reducible exact canonP_none
    | with_reducible apply canonP_some
    | with_reducible intro u x hu
    | (with_reducible intro x u hu; try dsimp only)
    | exact fun _ k => ⟨k.1, k.2⟩
    | exact fun _ k => k
    | exact ⟨hq.1, hq.2⟩
    | (refine ⟨⟨hq.1.1, hq.1.2⟩, ?_⟩)
    | (refine ⟨hq.1, ?_⟩)
    | (unfold dmaRow; try dsimp only)

theorem execLicenceInstall_canon {s : State} (h : Canon s) :
    CanonR (execLicenceInstall s) := by
  unfold execLicenceInstall
  try dsimp only
  repeat' first
    | with_reducible assumption
    | with_reducible apply State.fetchBytes_canon
    | with_reducible refine canon_trip (x := State.fetchBytes _ _ _ _) ?_ (by assumption)
    | with_reducible apply State.accept_canon
    | with_reducible apply State.refuse_canon
    | with_reducible apply canon_ite
    | with_reducible apply canonR_ite
    | with_reducible apply canonR_next
    | split
    | with_reducible refine canon_flash _ ?_
    | exact fun _ k => ⟨k.1, k.2⟩
    | exact fun _ k => k
    | exact ⟨hq.1, hq.2⟩
    | (refine ⟨⟨hq.1.1, hq.1.2⟩, ?_⟩)
    | (refine ⟨hq.1, ?_⟩)

theorem execConfigurationRequest_canon {s : State} (a0 : BitVec 12) (h : Canon s) :
    CanonR (execConfigurationRequest a0 s) := by
  unfold execConfigurationRequest
  try dsimp only
  repeat' first
    | with_reducible assumption
    | with_reducible apply canon_ite
    | with_reducible apply canonR_ite
    | with_reducible apply canonR_next
    | split
    | with_reducible refine canon_host _ ?_ ?_
    | exact fun _ k => ⟨k.1, k.2⟩
    | exact fun _ k => k
    | exact ⟨hq.1, hq.2⟩
    | (refine ⟨⟨hq.1.1, hq.1.2⟩, ?_⟩)
    | (refine ⟨hq.1, ?_⟩)

theorem execChainConfirm_canon {s : State} (a0 : Fin 64) (h : Canon s) :
    CanonR (execChainConfirm a0 s) := by
  unfold execChainConfirm
  try dsimp only
  repeat' first
    | with_reducible assumption
    | with_reducible apply State.confirmChain_canon
    | with_reducible apply canon_ite
    | with_reducible apply canonR_ite
    | with_reducible apply canonR_next
    | split
    | exact fun _ k => ⟨k.1, k.2⟩
    | exact fun _ k => k
    | exact ⟨hq.1, hq.2⟩
    | (refine ⟨⟨hq.1.1, hq.1.2⟩, ?_⟩)
    | (refine ⟨hq.1, ?_⟩)

theorem execStackWrite_canon {s : State} (a0 : BitVec 40) (a1 : BitVec 64) (a2 : List Byte) (a3 : Bool)
    (a4 : Upset) (h : Canon s) :
    CanonR (execStackWrite a0 a1 a2 a3 a4 s) := by
  unfold execStackWrite
  try dsimp only
  repeat' first
    | with_reducible assumption
    | with_reducible apply State.stackPut_canon
    | with_reducible apply canon_ite
    | with_reducible apply canonR_ite
    | with_reducible apply canonR_next
    | split
    | exact fun _ k => ⟨k.1, k.2⟩
    | exact fun _ k => k
    | exact ⟨hq.1, hq.2⟩
    | (refine ⟨⟨hq.1.1, hq.1.2⟩, ?_⟩)
    | (refine ⟨hq.1, ?_⟩)

theorem execMbxReset_canon {s : State} (a0 : Fin 16) (h : Canon s) :
    CanonR (execMbxReset a0 s) := by
  unfold execMbxReset
  try dsimp only
  repeat' first
    | with_reducible assumption
    | with_reducible apply State.onPair_canon
    | with_reducible apply canon_ite
    | with_reducible apply canonR_ite
    | with_reducible apply canonR_next
    | split
    | exact fun k => k
    | exact fun k => Pair.putMsg_canon _ k
    | exact fun k => Pair.write_canon _ _ k
    | exact fun _ k => ⟨k.1, k.2⟩
    | exact fun _ k => k
    | exact ⟨hq.1, hq.2⟩
    | (refine ⟨⟨hq.1.1, hq.1.2⟩, ?_⟩)
    | (refine ⟨hq.1, ?_⟩)

theorem execVxMax_canon {s : State} (a0 : Fin 64) (h : Canon s) :
    CanonR (execVxMax a0 s) := by
  unfold execVxMax
  try dsimp only
  repeat' first
    | with_reducible assumption
    | with_reducible apply vxElementwise_canon
    | with_reducible apply runCmd_canon
    | with_reducible apply tileHold_canon
    | with_reducible refine CanonP.out (o := tileHold _ _ _) ?_ (by assumption)
    | with_reducible apply canon_ite
    | with_reducible apply canon_getD
    | (with_reducible intro u x hu; try dsimp only)
    | with_reducible apply canonR_ite
    | with_reducible apply canonR_next
    | split
    | with_reducible exact canonP_none
    | with_reducible apply canonP_some
    | with_reducible intro u x hu
    | (with_reducible intro x u hu; try dsimp only)
    | exact fun _ k => ⟨k.1, k.2⟩
    | exact fun _ k => k
    | exact ⟨hq.1, hq.2⟩
    | (refine ⟨⟨hq.1.1, hq.1.2⟩, ?_⟩)
    | (refine ⟨hq.1, ?_⟩)
    | (unfold vxRow; try dsimp only)

theorem execW1cWrite_canon {s : State} (a0 : BitVec 28) (a1 : BitVec 32) (h : Canon s) :
    CanonR (execW1cWrite a0 a1 s) := by
  unfold execW1cWrite
  try dsimp only
  repeat' first
    | with_reducible assumption
    | with_reducible apply State.w1c_canon
    | with_reducible refine CanonO.out (o := State.w1c? _ _ _) ?_ (by assumption)
    | with_reducible apply canon_ite
    | with_reducible apply canon_getD
    | with_reducible apply canonR_ite
    | with_reducible apply canonR_next
    | with_reducible refine CanonO.out (o := ite _ _ _) ?_ (by assumption)
    | with_reducible apply canonO_some
    | split
    | exact fun _ k => ⟨k.1, k.2⟩
    | exact fun _ k => k
    | exact ⟨hq.1, hq.2⟩
    | (refine ⟨⟨hq.1.1, hq.1.2⟩, ?_⟩)
    | (refine ⟨hq.1, ?_⟩)

theorem execVxRecip_canon {s : State} (a0 : Fin 64) (h : Canon s) :
    CanonR (execVxRecip a0 s) := by
  unfold execVxRecip
  try dsimp only
  repeat' first
    | with_reducible assumption
    | with_reducible apply vxElementwise_canon
    | with_reducible apply runCmd_canon
    | with_reducible apply tileHold_canon
    | with_reducible refine CanonP.out (o := tileHold _ _ _) ?_ (by assumption)
    | with_reducible apply canon_ite
    | (with_reducible intro u x hu; try dsimp only)
    | with_reducible apply canonR_ite
    | with_reducible apply canonR_next
    | split
    | with_reducible exact canonP_none
    | with_reducible apply canonP_some
    | with_reducible intro u x hu
    | (with_reducible intro x u hu; try dsimp only)
    | exact fun _ k => ⟨k.1, k.2⟩
    | exact fun _ k => k
    | exact ⟨hq.1, hq.2⟩
    | (refine ⟨⟨hq.1.1, hq.1.2⟩, ?_⟩)
    | (refine ⟨hq.1, ?_⟩)
    | (unfold vxRow; try dsimp only)

theorem execSlicePrepare_canon {s : State} (a0 : Fin 128) (a1 : GrpKey) (h : Canon s) :
    CanonR (execSlicePrepare a0 a1 s) := by
  unfold execSlicePrepare
  try dsimp only
  repeat' first
    | with_reducible assumption
    | with_reducible apply State.onSlice_canon
    | with_reducible apply State.onSeq_canon
    | with_reducible apply Sequencer.onGrp_canon
    | with_reducible apply canon_ite
    | (with_reducible intro q hq; try dsimp only)
    | with_reducible apply canonR_ite
    | with_reducible apply canonR_next
    | split
    | with_reducible refine canon_fab _ ?_ ?_
    | exact fun _ k => ⟨k.1, k.2⟩
    | exact fun _ k => k
    | exact ⟨hq.1, hq.2⟩
    | (refine ⟨⟨hq.1.1, hq.1.2⟩, ?_⟩)
    | (refine ⟨hq.1, ?_⟩)

theorem execVxScan_canon {s : State} (a0 : Fin 64) (h : Canon s) :
    CanonR (execVxScan a0 s) := by
  unfold execVxScan
  try dsimp only
  repeat' first
    | with_reducible assumption
    | with_reducible apply runCmd_canon
    | with_reducible apply vxScanEff_canon
    | with_reducible apply tileHold_canon
    | with_reducible refine CanonP.out (o := tileHold _ _ _) ?_ (by assumption)
    | with_reducible apply canon_ite
    | (with_reducible intro u x hu; try dsimp only)
    | with_reducible apply canonR_ite
    | with_reducible apply canonR_next
    | split
    | with_reducible exact canonP_none
    | with_reducible apply canonP_some
    | with_reducible intro u x hu
    | (with_reducible intro x u hu; try dsimp only)
    | exact fun _ k => ⟨k.1, k.2⟩
    | exact fun _ k => k
    | exact ⟨hq.1, hq.2⟩
    | (refine ⟨⟨hq.1.1, hq.1.2⟩, ?_⟩)
    | (refine ⟨hq.1, ?_⟩)
    | (unfold vxRow; try dsimp only)

theorem chainHold_canon {s : State} (a1 : Ctx) (h : Canon s) :
    CanonP (chainHold s a1) := by
  unfold chainHold
  try dsimp only
  repeat' first
    | with_reducible assumption
    | with_reducible apply State.farFlow_canon
    | with_reducible refine CanonF.out (v := State.farFlow _ _ _) ?_ (by assumption)
    | with_reducible apply State.memWait_canon
    | with_reducible refine CanonO.out (o := State.memWait _ _ _ _ _ _) ?_ (by assumption)
    | with_reducible apply State.dramFull_canon
    | with_reducible refine CanonO.out (o := State.dramFull _ _ _ _) ?_ (by assumption)
    | with_reducible apply flowHold_canon
    | with_reducible refine CanonP.out (o := flowHold _ _ _ _) ?_ (by assumption)
    | with_reducible apply accessHold_canon
    | with_reducible refine CanonP.out (o := accessHold _ _ _ _) ?_ (by assumption)
    | with_reducible apply canon_ite
    | with_reducible apply canon_getD
    | with_reducible refine CanonO.out (o := ite _ _ _) ?_ (by assumption)
    | with_reducible apply canonO_some
    | with_reducible apply canonO_bind
    | with_reducible apply canonO_foldl
    | with_reducible refine CanonO.out (o := Option.bind _ _) ?_ (by assumption)
    | with_reducible intro u hu
    | exact ⟨hu.1, hu.2⟩
    | with_reducible apply canonP_foldl
    | with_reducible apply canonP_map
    | with_reducible exact canonP_none
    | with_reducible apply canonP_some
    | split
    | exact fun _ k => ⟨k.1, k.2⟩
    | exact fun _ k => k
    | exact ⟨hq.1, hq.2⟩
    | (refine ⟨⟨hq.1.1, hq.1.2⟩, ?_⟩)
    | (refine ⟨hq.1, ?_⟩)

theorem execChainAdd_canon {s : State} (a0 : Fin 64) (a1 : Bool) (h : Canon s) :
    CanonR (execChainAdd a0 a1 s) := by
  unfold execChainAdd
  try dsimp only
  repeat' first
    | with_reducible assumption
    | with_reducible apply State.confirmChain_canon
    | with_reducible apply State.pumpChain_canon
    | with_reducible apply chainEff_canon
    | with_reducible apply runCmd_canon
    | with_reducible apply State.onSeq_canon
    | with_reducible apply State.onBegun_canon
    | with_reducible apply State.attemptChain_canon
    | with_reducible apply chainHold_canon
    | with_reducible refine CanonP.out (o := chainHold _ _) ?_ (by assumption)
    | with_reducible apply Sequencer.stall_canon
    | with_reducible apply canon_ite
    | (with_reducible intro u x hu; try dsimp only)
    | (with_reducible intro q hq; try dsimp only)
    | with_reducible apply canonR_ite
    | with_reducible apply canonR_next
    | split
    | with_reducible exact canonP_none
    | with_reducible apply canonP_some
    | with_reducible intro u x hu
    | (with_reducible intro x u hu; try dsimp only)
    | exact fun _ k => ⟨k.1, k.2⟩
    | exact fun _ k => k
    | exact ⟨hq.1, hq.2⟩
    | (refine ⟨⟨hq.1.1, hq.1.2⟩, ?_⟩)
    | (refine ⟨hq.1, ?_⟩)
    | (unfold chainRow; try dsimp only)

theorem State.dropApts_canon {s : State} (a1 : ℕ) (a2 : ℕ) (h : Canon s) :
    Canon (State.dropApts s a1 a2) := by
  unfold State.dropApts
  try dsimp only
  repeat' first
    | with_reducible assumption
    | with_reducible apply State.pumpWaiting_canon
    | with_reducible apply canon_ite
    | split
    | with_reducible refine canon_host _ ?_ ?_
    | exact fun _ k => ⟨k.1, k.2⟩
    | exact fun _ k => k
    | exact ⟨hq.1, hq.2⟩
    | (refine ⟨⟨hq.1.1, hq.1.2⟩, ?_⟩)
    | (refine ⟨hq.1, ?_⟩)

theorem execGroup_canon {s : State} (a0 : PktHdr) (a1 : BitVec 6) (a2 : BitVec 12) (a3 : Bool) (h : Canon s) :
    CanonR (execGroup a0 a1 a2 a3 s) := by
  unfold execGroup
  try dsimp only
  repeat' first
    | with_reducible assumption
    | with_reducible apply State.receiveCtl_canon
    | with_reducible apply canon_ite
    | with_reducible apply canonR_ite
    | with_reducible apply canonR_next
    | split
    | exact fun _ k => ⟨k.1, k.2⟩
    | exact fun _ k => k
    | exact ⟨hq.1, hq.2⟩
    | (refine ⟨⟨hq.1.1, hq.1.2⟩, ?_⟩)
    | (refine ⟨hq.1, ?_⟩)

theorem execSwitchOnDone_canon {s : State} (a0 : Fin 72) (a1 : ℕ) (h : Canon s) :
    CanonR (execSwitchOnDone a0 a1 s) := by
  unfold execSwitchOnDone
  try dsimp only
  repeat' first
    | with_reducible assumption
    | with_reducible apply State.switchOn_canon
    | with_reducible apply State.at_canon
    | with_reducible apply canon_ite
    | with_reducible apply canonR_ite
    | with_reducible apply canonR_next
    | split
    | exact fun _ k => ⟨k.1, k.2⟩
    | exact fun _ k => k
    | exact ⟨hq.1, hq.2⟩
    | (refine ⟨⟨hq.1.1, hq.1.2⟩, ?_⟩)
    | (refine ⟨hq.1, ?_⟩)

theorem execAttestRequest_canon {s : State} (a0 : Fin 16) (a1 : ℕ) (h : Canon s) :
    CanonR (execAttestRequest a0 a1 s) := by
  unfold execAttestRequest
  try dsimp only
  repeat' first
    | with_reducible assumption
    | with_reducible apply State.onPair_canon
    | with_reducible apply State.accepted_canon
    | with_reducible apply State.refuse_canon
    | with_reducible apply State.at_canon
    | with_reducible apply canon_ite
    | with_reducible apply canonR_ite
    | with_reducible apply canonR_next
    | split
    | with_reducible refine canon_sec _ ?_
    | exact fun k => k
    | exact fun k => Pair.putMsg_canon _ k
    | exact fun k => Pair.write_canon _ _ k
    | exact fun _ k => ⟨k.1, k.2⟩
    | exact fun _ k => k
    | exact ⟨hq.1, hq.2⟩
    | (refine ⟨⟨hq.1.1, hq.1.2⟩, ?_⟩)
    | (refine ⟨hq.1, ?_⟩)

theorem execEndloop_canon {s : State} (a0 : Fin 64) (a1 : Eng) (h : Canon s) :
    CanonR (execEndloop a0 a1 s) := by
  unfold execEndloop
  try dsimp only
  repeat' first
    | with_reducible assumption
    | with_reducible apply State.retireFront_canon
    | with_reducible apply runCmd_canon
    | with_reducible apply canon_ite
    | (with_reducible intro u x hu; try dsimp only)
    | with_reducible apply canonR_ite
    | with_reducible apply canonR_next
    | split
    | with_reducible exact canonP_none
    | with_reducible apply canonP_some
    | with_reducible intro u x hu
    | (with_reducible intro x u hu; try dsimp only)
    | exact fun _ k => ⟨k.1, k.2⟩
    | exact fun _ k => k
    | exact ⟨hq.1, hq.2⟩
    | (refine ⟨⟨hq.1.1, hq.1.2⟩, ?_⟩)
    | (refine ⟨hq.1, ?_⟩)
    | (unfold plainRow; try dsimp only)

theorem execPauseQuantaExpiry_canon {s : State} (a0 : Fin 96) (a1 : Fin 8) (a2 : ℕ) (h : Canon s) :
    CanonR (execPauseQuantaExpiry a0 a1 a2 s) := by
  unfold execPauseQuantaExpiry
  try dsimp only
  repeat' first
    | with_reducible assumption
    | with_reducible apply State.goOutAll_canon
    | with_reducible apply State.flushClass_canon
    | with_reducible apply State.at_canon
    | with_reducible apply State.onPort_canon
    | with_reducible apply canon_ite
    | with_reducible apply canonR_ite
    | with_reducible apply canonR_next
    | split
    | exact fun _ k => ⟨k.1, k.2⟩
    | exact fun _ k => k
    | exact ⟨hq.1, hq.2⟩
    | exact fun _ k => ⟨k.1, k.2.1, (by dsimp only; exact Tbl.mapv_wf _ _ _ k.2.2.1), k.2.2.2⟩
    | exact fun _ k => ⟨k.1, k.2.1, k.2.2.1, (by dsimp only; exact Tbl.mapv_wf _ _ _ k.2.2.2)⟩
    | exact fun _ k => ⟨(by dsimp only; exact Tbl.mapv_wf _ _ _ k.1), k.2⟩
    | exact fun _ k => ⟨k.1, (by dsimp only; exact Tbl.mapv_wf _ _ _ k.2)⟩
    | exact ⟨hq.1, hq.2.1, hq.2.2.1, (by dsimp only; exact Tbl.set_wf _ _ _ _ hq.2.2.2.1), hq.2.2.2.2⟩
    | exact ⟨hq.1, hq.2.1, (by dsimp only; exact Tbl.set_wf _ _ _ _ hq.2.2.1), hq.2.2.2⟩
    | exact ⟨(by dsimp only; exact Tbl.mapv_wf _ _ _ hq.1), hq.2⟩
    | exact fun k => cores_mapv_canon _ (fun c k => Core.halt_canon k) k
    | exact fun k => (by dsimp only; exact Tbl.mapv_wf _ _ _ k.2.2.1)
    | exact fun k => (by dsimp only; exact Tbl.mapv_wf _ _ _ k.2.2.2.1)
    | exact fun _ k => (by dsimp only; exact Tbl.mapv_wf _ _ _ k)
    | (refine ⟨⟨hq.1.1, hq.1.2⟩, ?_⟩)
    | (refine ⟨hq.1, ?_⟩)

theorem execContextFetchDone_canon {s : State} (a0 : BitVec 20) (h : Canon s) :
    CanonR (execContextFetchDone a0 s) := by
  unfold execContextFetchDone
  try dsimp only
  repeat' first
    | with_reducible assumption
    | with_reducible apply State.pumpFlow_canon
    | with_reducible apply State.cacheIn_canon
    | with_reducible apply canon_ite
    | with_reducible apply canonR_ite
    | with_reducible apply canonR_next
    | split
    | exact fun _ k => ⟨k.1, k.2⟩
    | exact fun _ k => k
    | exact ⟨hq.1, hq.2⟩
    | (refine ⟨⟨hq.1.1, hq.1.2⟩, ?_⟩)
    | (refine ⟨hq.1, ?_⟩)

theorem execQueueCreate_canon {s : State} (a0 : Fin 16) (a1 : Fin 64) (h : Canon s) :
    CanonR (execQueueCreate a0 a1 s) := by
  unfold execQueueCreate
  try dsimp only
  repeat' first
    | with_reducible assumption
    | with_reducible apply State.refuse_canon
    | with_reducible apply State.onSQueue_canon
    | with_reducible apply State.accept_canon
    | with_reducible apply canon_ite
    | with_reducible apply canonR_ite
    | with_reducible apply canonR_next
    | split
    | exact fun _ k => ⟨k.1, k.2⟩
    | exact fun _ k => k
    | exact ⟨hq.1, hq.2⟩
    | (refine ⟨⟨hq.1.1, hq.1.2⟩, ?_⟩)
    | (refine ⟨hq.1, ?_⟩)

theorem execGatewayResolved_canon {s : State} (a0 : Fin 96) (a1 : BitVec 48) (h : Canon s) :
    CanonR (execGatewayResolved a0 a1 s) := by
  unfold execGatewayResolved
  try dsimp only
  repeat' first
    | with_reducible assumption
    | with_reducible apply State.goOutAll_canon
    | with_reducible apply State.onPort_canon
    | with_reducible apply canon_ite
    | with_reducible apply canonR_ite
    | with_reducible apply canonR_next
    | split
    | exact fun _ k => ⟨k.1, k.2⟩
    | exact fun _ k => k
    | exact ⟨hq.1, hq.2⟩
    | (refine ⟨⟨hq.1.1, hq.1.2⟩, ?_⟩)
    | (refine ⟨hq.1, ?_⟩)

theorem execRedMax_canon {s : State} (a0 : Fin 64) (h : Canon s) :
    CanonR (execRedMax a0 s) := by
  unfold execRedMax
  try dsimp only
  repeat' first
    | with_reducible assumption
    | with_reducible apply redSelect_canon
    | with_reducible apply runCmd_canon
    | with_reducible apply tileHold_canon
    | with_reducible refine CanonP.out (o := tileHold _ _ _) ?_ (by assumption)
    | with_reducible apply canon_ite
    | (with_reducible intro u x hu; try dsimp only)
    | with_reducible apply canonR_ite
    | with_reducible apply canonR_next
    | split
    | with_reducible exact canonP_none
    | with_reducible apply canonP_some
    | with_reducible intro u x hu
    | (with_reducible intro x u hu; try dsimp only)
    | exact fun _ k => ⟨k.1, k.2⟩
    | exact fun _ k => k
    | exact ⟨hq.1, hq.2⟩
    | (refine ⟨⟨hq.1.1, hq.1.2⟩, ?_⟩)
    | (refine ⟨hq.1, ?_⟩)
    | (unfold redRow; try dsimp only)

theorem execQPush_canon {s : State} (a0 : Fin 64) (h : Canon s) :
    CanonR (execQPush a0 s) := by
  unfold execQPush
  try dsimp only
  repeat' first
    | with_reducible assumption
    | with_reducible apply State.retireFront_canon
    | with_reducible apply State.onQueue_canon
    | with_reducible apply runCmd_canon
    | with_reducible apply Sequencer.onQueue_canon
    | with_reducible apply canon_ite
    | with_reducible apply canon_getD
    | (with_reducible intro u x hu; try dsimp only)
    | with_reducible apply canonR_ite
    | with_reducible apply canonR_next
    | split
    | with_reducible exact canonP_none
    | with_reducible apply canonP_some
    | with_reducible intro u x hu
    | (with_reducible intro x u hu; try dsimp only)
    | exact fun _ k => ⟨k.1, k.2⟩
    | exact fun _ k => k
    | exact ⟨hq.1, hq.2⟩
    | (refine ⟨⟨hq.1.1, hq.1.2⟩, ?_⟩)
    | (refine ⟨hq.1, ?_⟩)
    | (unfold qPushRow; try dsimp only)

theorem State.poisonKept_canon {s : State} (a1 : ℕ) (a2 : Arr) (a3 : Begun) (h : Canon s) :
    Canon (State.poisonKept s a1 a2 a3) := by
  unfold State.poisonKept
  try dsimp only
  repeat' first
    | with_reducible assumption
    | with_reducible apply State.onEng_canon
    | with_reducible apply State.releaseEntry_canon
    | with_reducible apply State.failBegun_canon
    | with_reducible apply Sequencer.onEng_canon
    | with_reducible apply canon_ite
    | with_reducible apply canon_foldl
    | with_reducible apply canon_foldl2
    | (with_reducible intro u x hu; try dsimp only)
    | split
    | exact fun _ k => ⟨k.1, k.2⟩
    | exact fun _ k => k
    | exact ⟨hq.1, hq.2⟩
    | (refine ⟨⟨hq.1.1, hq.1.2⟩, ?_⟩)
    | (refine ⟨hq.1, ?_⟩)

theorem execJtagIdcode_canon {s : State} (h : Canon s) :
    CanonR (execJtagIdcode s) := by
  unfold execJtagIdcode
  try dsimp only
  repeat' first
    | with_reducible assumption
    | with_reducible apply State.shiftOut_canon
    | with_reducible apply canon_ite
    | with_reducible apply canonR_ite
    | with_reducible apply canonR_next
    | split
    | exact fun _ k => ⟨k.1, k.2⟩
    | exact fun _ k => k
    | exact ⟨hq.1, hq.2⟩
    | (refine ⟨⟨hq.1.1, hq.1.2⟩, ?_⟩)
    | (refine ⟨hq.1, ?_⟩)

theorem execTaskStop_canon {s : State} (a0 : Fin 64) (a1 : ℕ) (h : Canon s) :
    CanonR (execTaskStop a0 a1 s) := by
  unfold execTaskStop
  try dsimp only
  repeat' first
    | with_reducible assumption
    | with_reducible apply State.endTask_canon
    | with_reducible apply State.pumpPort_canon
    | with_reducible apply State.at_canon
    | with_reducible apply canon_ite
    | with_reducible apply canonR_ite
    | with_reducible apply canonR_next
    | split
    | exact fun _ k => ⟨k.1, k.2⟩
    | exact fun _ k => k
    | exact ⟨hq.1, hq.2⟩
    | (refine ⟨⟨hq.1.1, hq.1.2⟩, ?_⟩)
    | (refine ⟨hq.1, ?_⟩)

theorem execSetupRetry_canon {s : State} (a0 : BitVec 20) (a1 : ℕ) (h : Canon s) :
    CanonR (execSetupRetry a0 a1 s) := by
  unfold execSetupRetry
  try dsimp only
  repeat' first
    | with_reducible assumption
    | with_reducible apply State.sendSetup_canon
    | with_reducible apply State.at_canon
    | with_reducible apply State.failSetup_canon
    | with_reducible apply canon_ite
    | with_reducible apply canonR_ite
    | with_reducible apply canonR_next
    | split
    | exact fun _ k => ⟨k.1, k.2⟩
    | exact fun _ k => k
    | exact ⟨hq.1, hq.2⟩
    | (refine ⟨⟨hq.1.1, hq.1.2⟩, ?_⟩)
    | (refine ⟨hq.1, ?_⟩)

theorem execSecUnlockSignature_canon {s : State} (a0 : ℕ) (h : Canon s) :
    CanonR (execSecUnlockSignature a0 s) := by
  unfold execSecUnlockSignature
  try dsimp only
  repeat' first
    | with_reducible assumption
    | with_reducible apply State.unlockData_canon
    | with_reducible refine CanonQ.out (o := State.unlockData _ _) ?_ (by assumption)
    | with_reducible apply State.trySignature_canon
    | with_reducible refine canon_pair (x := State.trySignature _ _ _) ?_ (by assumption)
    | with_reducible apply State.at_canon
    | with_reducible apply State.unlockDone_canon
    | with_reducible apply canon_ite
    | with_reducible apply canonR_ite
    | with_reducible apply canonR_next
    | split
    | exact fun _ k => ⟨k.1, k.2⟩
    | exact fun _ k => k
    | exact ⟨hq.1, hq.2⟩
    | (refine ⟨⟨hq.1.1, hq.1.2⟩, ?_⟩)
    | (refine ⟨hq.1, ?_⟩)

theorem execSecondLevelTreeReady_canon {s : State} (h : Canon s) :
    CanonR (execSecondLevelTreeReady s) := by
  unfold execSecondLevelTreeReady
  try dsimp only
  repeat' first
    | with_reducible assumption
    | with_reducible apply State.signNext_canon
    | with_reducible apply canon_ite
    | with_reducible apply canonR_ite
    | with_reducible apply canonR_next
    | split
    | with_reducible refine canon_sec _ ?_
    | exact fun _ k => ⟨k.1, k.2⟩
    | exact fun _ k => k
    | exact ⟨hq.1, hq.2⟩
    | (refine ⟨⟨hq.1.1, hq.1.2⟩, ?_⟩)
    | (refine ⟨hq.1, ?_⟩)

theorem State.sliceEcc_canon {s : State} (a1 : ℕ) (a2 : ℕ) (a3 : Upset) (h : Canon s) :
    Canon (State.sliceEcc s a1 a2 a3) := by
  unfold State.sliceEcc
  try dsimp only
  repeat' first
    | with_reducible assumption
    | with_reducible apply State.dropLine_canon
    | with_reducible apply State.putLine_canon
    | with_reducible apply State.onSlice_canon
    | with_reducible apply canon_ite
    | with_reducible apply canon_getD
    | split
    | exact fun _ k => ⟨k.1, k.2⟩
    | exact fun _ k => k
    | exact ⟨hq.1, hq.2⟩
    | (refine ⟨⟨hq.1.1, hq.1.2⟩, ?_⟩)
    | (refine ⟨hq.1, ?_⟩)

theorem execSetup_canon {s : State} (a0 : PktHdr) (a1 : SetupBody) (h : Canon s) :
    CanonR (execSetup a0 a1 s) := by
  unfold execSetup
  try dsimp only
  repeat' first
    | with_reducible assumption
    | with_reducible apply State.recountPeers_canon
    | with_reducible apply State.sendSetupAck_canon
    | with_reducible apply State.onFlow_canon
    | with_reducible apply State.bufRelease_canon
    | with_reducible apply State.openFlow_canon
    | with_reducible apply State.takeFlow_canon
    | with_reducible refine CanonT.out (v := State.takeFlow _) ?_ (by assumption)
    | with_reducible apply State.failFlow_canon
    | with_reducible apply canon_ite
    | with_reducible apply canon_foldl
    | with_reducible apply canon_foldl2
    | (with_reducible intro u x hu; try dsimp only)
    | with_reducible apply canonR_ite
    | with_reducible apply canonR_next
    | split
    | exact fun _ k => ⟨k.1, k.2⟩
    | exact fun _ k => k
    | exact ⟨hq.1, hq.2⟩
    | (refine ⟨⟨hq.1.1, hq.1.2⟩, ?_⟩)
    | (refine ⟨hq.1, ?_⟩)

theorem State.quenchNow_canon {s : State} (h : Canon s) :
    Canon (State.quenchNow s) := by
  unfold State.quenchNow
  try dsimp only
  repeat' first
    | with_reducible assumption
    | with_reducible apply State.deviceFault_canon
    | with_reducible apply canon_ite
    | split
    | with_reducible refine canon_thm _ ?_
    | exact fun _ k => ⟨k.1, k.2⟩
    | exact fun _ k => k
    | exact ⟨hq.1, hq.2⟩
    | (refine ⟨⟨hq.1.1, hq.1.2⟩, ?_⟩)
    | (refine ⟨hq.1, ?_⟩)

theorem execCoolantOkRise_canon {s : State} (a0 : ℕ) (h : Canon s) :
    CanonR (execCoolantOkRise a0 s) := by
  unfold execCoolantOkRise
  try dsimp only
  repeat' first
    | with_reducible assumption
    | with_reducible apply State.quenchNow_canon
    | with_reducible apply State.at_canon
    | with_reducible apply canon_ite
    | with_reducible apply canonR_ite
    | with_reducible apply canonR_next
    | split
    | with_reducible refine canon_thm _ ?_
    | with_reducible refine canon_thm_pins _ _ ?_
    | exact fun _ k => ⟨k.1, k.2⟩
    | exact fun _ k => k
    | exact ⟨hq.1, hq.2⟩
    | (refine ⟨⟨hq.1.1, hq.1.2⟩, ?_⟩)
    | (refine ⟨hq.1, ?_⟩)

theorem execLoop_canon {s : State} (a0 : Fin 64) (a1 : Eng) (h : Canon s) :
    CanonR (execLoop a0 a1 s) := by
  unfold execLoop
  try dsimp only
  repeat' first
    | with_reducible assumption
    | with_reducible apply State.retireFront_canon
    | with_reducible apply runCmd_canon
    | with_reducible apply canon_ite
    | (with_reducible intro u x hu; try dsimp only)
    | with_reducible apply canonR_ite
    | with_reducible apply canonR_next
    | split
    | with_reducible exact canonP_none
    | with_reducible apply canonP_some
    | with_reducible intro u x hu
    | (with_reducible intro x u hu; try dsimp only)
    | exact fun _ k => ⟨k.1, k.2⟩
    | exact fun _ k => k
    | exact ⟨hq.1, hq.2⟩
    | (refine ⟨⟨hq.1.1, hq.1.2⟩, ?_⟩)
    | (refine ⟨hq.1, ?_⟩)
    | (unfold plainRow; try dsimp only)

theorem execMcHeartbeatMiss_canon {s : State} (a0 : ℕ) (h : Canon s) :
    CanonR (execMcHeartbeatMiss a0 s) := by
  unfold execMcHeartbeatMiss
  try dsimp only
  repeat' first
    | with_reducible assumption
    | with_reducible apply State.at_canon
    | with_reducible apply State.deviceFault_canon
    | with_reducible apply State.logErr_canon
    | with_reducible apply canon_ite
    | with_reducible apply canonR_ite
    | with_reducible apply canonR_next
    | split
    | with_reducible refine canon_mgmt _ ?_
    | exact fun _ k => ⟨k.1, k.2⟩
    | exact fun _ k => k
    | exact ⟨hq.1, hq.2⟩
    | (refine ⟨⟨hq.1.1, hq.1.2⟩, ?_⟩)
    | (refine ⟨hq.1, ?_⟩)

theorem execFwInfo_canon {s : State} (a0 : Fin 16) (h : Canon s) :
    CanonR (execFwInfo a0 s) := by
  unfold execFwInfo
  try dsimp only
  repeat' first
    | with_reducible assumption
    | with_reducible apply State.accept_canon
    | with_reducible apply canon_ite
    | with_reducible apply canonR_ite
    | with_reducible apply canonR_next
    | split
    | exact fun _ k => ⟨k.1, k.2⟩
    | exact fun _ k => k
    | exact ⟨hq.1, hq.2⟩
    | (refine ⟨⟨hq.1.1, hq.1.2⟩, ?_⟩)
    | (refine ⟨hq.1, ?_⟩)

theorem execSwitchOnGrant_canon {s : State} (a0 : Fin 72) (a1 : ℕ) (h : Canon s) :
    CanonR (execSwitchOnGrant a0 a1 s) := by
  unfold execSwitchOnGrant
  try dsimp only
  repeat' first
    | with_reducible assumption
    | with_reducible apply State.onDom_canon
    | with_reducible apply State.at_canon
    | with_reducible apply canon_ite
    | with_reducible apply canonR_ite
    | with_reducible apply canonR_next
    | split
    | exact fun _ k => ⟨k.1, k.2⟩
    | exact fun _ k => k
    | exact ⟨hq.1, hq.2⟩
    | (refine ⟨⟨hq.1.1, hq.1.2⟩, ?_⟩)
    | (refine ⟨hq.1, ?_⟩)

theorem execVxSigm_canon {s : State} (a0 : Fin 64) (h : Canon s) :
    CanonR (execVxSigm a0 s) := by
  unfold execVxSigm
  try dsimp only
  repeat' first
    | with_reducible assumption
    | with_reducible apply vxElementwise_canon
    | with_reducible apply runCmd_canon
    | with_reducible apply tileHold_canon
    | with_reducible refine CanonP.out (o := tileHold _ _ _) ?_ (by assumption)
    | with_reducible apply canon_ite
    | (with_reducible intro u x hu; try dsimp only)
    | with_reducible apply canonR_ite
    | with_reducible apply canonR_next
    | split
    | with_reducible exact canonP_none
    | with_reducible apply canonP_some
    | with_reducible intro u x hu
    | (with_reducible intro x u hu; try dsimp only)
    | exact fun _ k => ⟨k.1, k.2⟩
    | exact fun _ k => k
    | exact ⟨hq.1, hq.2⟩
    | (refine ⟨⟨hq.1.1, hq.1.2⟩, ?_⟩)
    | (refine ⟨hq.1, ?_⟩)
    | (unfold vxRow; try dsimp only)

theorem execWaitWin_canon {s : State} (a0 : Fin 64) (a1 : Eng) (h : Canon s) :
    CanonR (execWaitWin a0 a1 s) := by
  unfold execWaitWin
  try dsimp only
  repeat' first
    | with_reducible assumption
    | with_reducible apply State.failStream_canon
    | with_reducible apply State.waitOn_canon
    | with_reducible apply State.retireFront_canon
    | with_reducible apply runCmd_canon
    | with_reducible apply Sequencer.failStream_canon
    | with_reducible apply canon_ite
    | (with_reducible intro u x hu; try dsimp only)
    | with_reducible apply canonR_ite
    | with_reducible apply canonR_next
    | split
    | with_reducible exact canonP_none
    | with_reducible apply canonP_some
    | with_reducible intro u x hu
    | (with_reducible intro x u hu; try dsimp only)
    | exact fun _ k => ⟨k.1, k.2⟩
    | exact fun _ k => k
    | exact ⟨hq.1, hq.2⟩
    | (refine ⟨⟨hq.1.1, hq.1.2⟩, ?_⟩)
    | (refine ⟨hq.1, ?_⟩)
    | (unfold plainRow; try dsimp only)

theorem execWaitGrp_canon {s : State} (a0 : Fin 64) (a1 : Eng) (h : Canon s) :
    CanonR (execWaitGrp a0 a1 s) := by
  unfold execWaitGrp
  try dsimp only
  repeat' first
    | with_reducible assumption
    | with_reducible apply State.retireFront_canon
    | with_reducible apply runCmd_canon
    | with_reducible apply State.failStream_canon
    | with_reducible apply State.waitOn_canon
    | with_reducible apply Sequencer.failStream_canon
    | with_reducible apply canon_ite
    | (with_reducible intro u x hu; try dsimp only)
    | with_reducible apply canonR_ite
    | with_reducible apply canonR_next
    | split
    | with_reducible exact canonP_none
    | with_reducible apply canonP_some
    | with_reducible intro u x hu
    | (with_reducible intro x u hu; try dsimp only)
    | exact fun _ k => ⟨k.1, k.2⟩
    | exact fun _ k => k
    | exact ⟨hq.1, hq.2⟩
    | (refine ⟨⟨hq.1.1, hq.1.2⟩, ?_⟩)
    | (refine ⟨hq.1, ?_⟩)
    | (unfold plainRow; try dsimp only)

theorem State.settleApt_canon {s : State} (a1 : ℕ) (a2 : Eng) (h : Canon s) :
    Canon (State.settleApt s a1 a2) := by
  unfold State.settleApt
  try dsimp only
  repeat' first
    | with_reducible assumption
    | with_reducible apply State.pumpWaiting_canon
    | with_reducible apply State.pumpDma_canon
    | with_reducible apply canon_ite
    | split
    | exact fun _ k => ⟨k.1, k.2⟩
    | exact fun _ k => k
    | exact ⟨hq.1, hq.2⟩
    | (refine ⟨⟨hq.1.1, hq.1.2⟩, ?_⟩)
    | (refine ⟨hq.1, ?_⟩)

theorem execCoolantRestart_canon {s : State} (a0 : ℕ) (h : Canon s) :
    CanonR (execCoolantRestart a0 s) := by
  unfold execCoolantRestart
  try dsimp only
  repeat' first
    | with_reducible assumption
    | with_reducible apply State.at_canon
    | with_reducible apply canon_ite
    | with_reducible apply canonR_ite
    | with_reducible apply canonR_next
    | split
    | with_reducible refine canon_mgmt_thm _ _ ?_
    | exact fun _ k => ⟨k.1, k.2⟩
    | exact fun _ k => k
    | exact ⟨hq.1, hq.2⟩
    | (refine ⟨⟨hq.1.1, hq.1.2⟩, ?_⟩)
    | (refine ⟨hq.1, ?_⟩)

theorem execContextUnload_canon {s : State} (a0 : Fin 16) (h : Canon s) :
    CanonR (execContextUnload a0 s) := by
  unfold execContextUnload
  try dsimp only
  repeat' first
    | with_reducible assumption
    | with_reducible apply State.refuse_canon
    | with_reducible apply State.closeFlows_canon
    | with_reducible apply State.accept_canon
    | with_reducible apply State.onJob_canon
    | with_reducible apply canon_ite
    | with_reducible apply canonR_ite
    | with_reducible apply canonR_next
    | split
    | with_reducible refine canon_fab _ ?_ ?_
    | exact fun _ k => ⟨k.1, k.2⟩
    | exact fun _ k => k
    | exact ⟨hq.1, hq.2⟩
    | exact fun _ k => ⟨k.1, k.2.1, (by dsimp only; exact Tbl.mapv_wf _ _ _ k.2.2.1), k.2.2.2⟩
    | exact fun _ k => ⟨k.1, k.2.1, k.2.2.1, (by dsimp only; exact Tbl.mapv_wf _ _ _ k.2.2.2)⟩
    | exact fun _ k => ⟨(by dsimp only; exact Tbl.mapv_wf _ _ _ k.1), k.2⟩
    | exact fun _ k => ⟨k.1, (by dsimp only; exact Tbl.mapv_wf _ _ _ k.2)⟩
    | exact ⟨hq.1, hq.2.1, hq.2.2.1, (by dsimp only; exact Tbl.set_wf _ _ _ _ hq.2.2.2.1), hq.2.2.2.2⟩
    | exact ⟨hq.1, hq.2.1, (by dsimp only; exact Tbl.set_wf _ _ _ _ hq.2.2.1), hq.2.2.2⟩
    | exact ⟨(by dsimp only; exact Tbl.mapv_wf _ _ _ hq.1), hq.2⟩
    | exact fun k => cores_mapv_canon _ (fun c k => Core.halt_canon k) k
    | exact fun k => (by dsimp only; exact Tbl.mapv_wf _ _ _ k.2.2.1)
    | exact fun k => (by dsimp only; exact Tbl.mapv_wf _ _ _ k.2.2.2.1)
    | exact fun _ k => (by dsimp only; exact Tbl.mapv_wf _ _ _ k)
    | (refine ⟨⟨hq.1.1, hq.1.2⟩, ?_⟩)
    | (refine ⟨hq.1, ?_⟩)

theorem execSmbusAlertResponse_canon {s : State} (h : Canon s) :
    CanonR (execSmbusAlertResponse s) := by
  unfold execSmbusAlertResponse
  try dsimp only
  repeat' first
    | with_reducible assumption
    | with_reducible apply canon_ite
    | with_reducible apply canonR_ite
    | with_reducible apply canonR_next
    | split
    | with_reducible refine canon_pins _ ?_
    | exact fun _ k => ⟨k.1, k.2⟩
    | exact fun _ k => k
    | exact ⟨hq.1, hq.2⟩
    | (refine ⟨⟨hq.1.1, hq.1.2⟩, ?_⟩)
    | (refine ⟨hq.1, ?_⟩)

theorem execClamp_canon {s : State} (a0 : Fin 72) (a1 : ℕ) (h : Canon s) :
    CanonR (execClamp a0 a1 s) := by
  unfold execClamp
  try dsimp only
  repeat' first
    | with_reducible assumption
    | with_reducible apply State.onDom_canon
    | with_reducible apply canon_ite
    | with_reducible apply canonR_ite
    | with_reducible apply canonR_next
    | split
    | exact fun _ k => ⟨k.1, k.2⟩
    | exact fun _ k => k
    | exact ⟨hq.1, hq.2⟩
    | (refine ⟨⟨hq.1.1, hq.1.2⟩, ?_⟩)
    | (refine ⟨hq.1, ?_⟩)

theorem execVxSel_canon {s : State} (a0 : Fin 64) (h : Canon s) :
    CanonR (execVxSel a0 s) := by
  unfold execVxSel
  try dsimp only
  repeat' first
    | with_reducible assumption
    | with_reducible apply vxElementwise_canon
    | with_reducible apply runCmd_canon
    | with_reducible apply tileHold_canon
    | with_reducible refine CanonP.out (o := tileHold _ _ _) ?_ (by assumption)
    | with_reducible apply canon_ite
    | with_reducible apply canon_getD
    | (with_reducible intro u x hu; try dsimp only)
    | with_reducible apply canonR_ite
    | with_reducible apply canonR_next
    | split
    | with_reducible exact canonP_none
    | with_reducible apply canonP_some
    | with_reducible intro u x hu
    | (with_reducible intro x u hu; try dsimp only)
    | exact fun _ k => ⟨k.1, k.2⟩
    | exact fun _ k => k
    | exact ⟨hq.1, hq.2⟩
    | (refine ⟨⟨hq.1.1, hq.1.2⟩, ?_⟩)
    | (refine ⟨hq.1, ?_⟩)
    | (unfold vxRow; try dsimp only)

theorem execErrlogSelect_canon {s : State} (a0 : BitVec 32) (h : Canon s) :
    CanonR (execErrlogSelect a0 s) := by
  unfold execErrlogSelect
  try dsimp only
  repeat' first
    | with_reducible assumption
    | with_reducible apply State.selectErr_canon
    | with_reducible apply canon_ite
    | with_reducible apply canonR_ite
    | with_reducible apply canonR_next
    | split
    | exact fun _ k => ⟨k.1, k.2⟩
    | exact fun _ k => k
    | exact ⟨hq.1, hq.2⟩
    | (refine ⟨⟨hq.1.1, hq.1.2⟩, ?_⟩)
    | (refine ⟨hq.1, ?_⟩)

theorem execImplicitWaitTimeout_canon {s : State} (a0 : Fin 64) (a1 : Eng) (a2 : ℕ) (h : Canon s) :
    CanonR (execImplicitWaitTimeout a0 a1 a2 s) := by
  unfold execImplicitWaitTimeout
  try dsimp only
  repeat' first
    | with_reducible assumption
    | with_reducible apply State.failStream_canon
    | with_reducible apply State.failBegun_canon
    | with_reducible apply State.at_canon
    | with_reducible apply State.dropBegun_canon
    | with_reducible apply Sequencer.failStream_canon
    | with_reducible apply canon_ite
    | with_reducible apply canonR_ite
    | with_reducible apply canonR_next
    | split
    | exact fun _ k => ⟨k.1, k.2⟩
    | exact fun _ k => k
    | exact ⟨hq.1, hq.2⟩
    | (refine ⟨⟨hq.1.1, hq.1.2⟩, ?_⟩)
    | (refine ⟨hq.1, ?_⟩)

theorem execTileDrainEnd_canon {s : State} (a0 : Fin 64) (a1 : Bool) (h : Canon s) :
    CanonR (execTileDrainEnd a0 a1 s) := by
  unfold execTileDrainEnd
  try dsimp only
  repeat' first
    | with_reducible assumption
    | with_reducible apply State.failArray_canon
    | with_reducible apply State.onArray_canon
    | with_reducible apply State.tilePassed_canon
    | with_reducible apply State.onInteg_canon
    | with_reducible apply Core.onArray_canon
    | with_reducible apply canon_ite
    | with_reducible apply canonR_ite
    | with_reducible apply canonR_next
    | split
    | exact fun _ k => ⟨k.1, k.2⟩
    | exact fun _ k => k
    | exact ⟨hq.1, hq.2⟩
    | (refine ⟨⟨hq.1.1, hq.1.2⟩, ?_⟩)
    | (refine ⟨hq.1, ?_⟩)

theorem execCacheEnable_canon {s : State} (h : Canon s) :
    CanonR (execCacheEnable s) := by
  unfold execCacheEnable
  try dsimp only
  repeat' first
    | with_reducible assumption
    | with_reducible apply canon_ite
    | with_reducible apply canonR_ite
    | with_reducible apply canonR_next
    | split
    | with_reducible refine canon_host _ ?_ ?_
    | exact fun _ k => ⟨k.1, k.2⟩
    | exact fun _ k => k
    | exact ⟨hq.1, hq.2⟩
    | (refine ⟨⟨hq.1.1, hq.1.2⟩, ?_⟩)
    | (refine ⟨hq.1, ?_⟩)

theorem execTemperReading_canon {s : State} (a0 : Fin 72) (a1 : ℤ) (a2 : ℕ) (a3 : ℕ) (h : Canon s) :
    CanonR (execTemperReading a0 a1 a2 a3 s) := by
  unfold execTemperReading
  try dsimp only
  repeat' first
    | with_reducible assumption
    | with_reducible apply State.onDom_canon
    | with_reducible apply State.settleTemper_canon
    | with_reducible apply State.at_canon
    | with_reducible apply canon_ite
    | with_reducible apply canonR_ite
    | with_reducible apply canonR_next
    | split
    | exact fun _ k => ⟨k.1, k.2⟩
    | exact fun _ k => k
    | exact ⟨hq.1, hq.2⟩
    | (refine ⟨⟨hq.1.1, hq.1.2⟩, ?_⟩)
    | (refine ⟨hq.1, ?_⟩)

theorem execHostReturn_canon {s : State} (h : Canon s) :
    CanonR (execHostReturn s) := by
  unfold execHostReturn
  try dsimp only
  repeat' first
    | with_reducible assumption
    | with_reducible apply State.accept_canon
    | with_reducible apply canon_ite
    | with_reducible apply canonR_ite
    | with_reducible apply canonR_next
    | split
    | with_reducible refine canon_host _ ?_ ?_
    | exact fun _ k => ⟨k.1, k.2⟩
    | exact fun _ k => k
    | exact ⟨hq.1, hq.2⟩
    | (refine ⟨⟨hq.1.1, hq.1.2⟩, ?_⟩)
    | (refine ⟨hq.1, ?_⟩)

end Sys2Proof.Machine
end

