-- ==== Sys2Proof/Laws/Canons9.lean ====
section
/-! SUPPORT. Each operation and meaning, in dependency order (part 10 of 10), keeps the canonical form. -/

namespace Sys2Proof.Machine

theorem execSectionWakeDone_canon {s : State} (a0 : Fin 64) (a1 : Fin 6) (h : Canon s) :
    CanonR (execSectionWakeDone a0 a1 s) := by
  unfold execSectionWakeDone
  try dsimp only
  repeat' first
    | with_reducible assumption
    | with_reducible apply State.onScp_canon
    | with_reducible apply State.pumpPort_canon
    | with_reducible apply Scratch.woken_canon
    | with_reducible apply canon_ite
    | (with_reducible intro q hq; try dsimp only)
    | with_reducible apply canonR_ite
    | with_reducible apply canonR_next

theorem execRetxLimit_canon {s : State} (a0 : BitVec 20) (a1 : ℕ) (h : Canon s) :
    CanonR (execRetxLimit a0 a1 s) := by
  unfold execRetxLimit
  try dsimp only
  repeat' first
    | with_reducible assumption
    | with_reducible apply State.failFlow_canon
    | with_reducible apply State.at_canon
    | with_reducible apply canon_ite
    | with_reducible apply canonR_ite
    | with_reducible apply canonR_next
    | split

theorem execApplyAdopt_canon {s : State} (h : Canon s) :
    CanonR (execApplyAdopt s) := by
  unfold execApplyAdopt
  try dsimp only
  repeat' first
    | with_reducible assumption
    | with_reducible apply State.serve_canon
    | with_reducible apply State.adoptAll_canon
    | with_reducible apply canon_ite
    | with_reducible apply canonR_ite
    | with_reducible apply canonR_next

theorem execTargetedScrub_canon {s : State} (a0 : Fin 16) (a1 : ℕ) (h : Canon s) :
    CanonR (execTargetedScrub a0 a1 s) := by
  unfold execTargetedScrub
  try dsimp only
  repeat' first
    | with_reducible assumption
    | with_reducible apply State.scrub_canon
    | with_reducible apply State.onStk_canon
    | with_reducible apply State.fieldFail_canon
    | with_reducible apply State.at_canon
    | with_reducible apply canon_ite
    | with_reducible apply canonR_ite
    | with_reducible apply canonR_next
    | split

theorem execJtagSamplePreload_canon {s : State} (a0 : List Bool) (h : Canon s) :
    CanonR (execJtagSamplePreload a0 s) := by
  unfold execJtagSamplePreload
  try dsimp only
  repeat' first
    | with_reducible assumption
    | with_reducible apply State.shiftOut_canon
    | with_reducible apply State.closedInstr_canon
    | with_reducible apply canon_ite
    | with_reducible apply canonR_ite
    | with_reducible apply canonR_next
    | split
    | with_reducible refine canon_sec _ ?_

theorem execVin48Restored_canon {s : State} (a0 : ℕ) (h : Canon s) :
    CanonR (execVin48Restored a0 s) := by
  unfold execVin48Restored
  try dsimp only
  repeat' first
    | with_reducible assumption
    | with_reducible apply canon_ite
    | with_reducible apply canonR_ite
    | with_reducible apply canonR_next
    | split
    | with_reducible refine canon_mgmt_pwr_pins _ _ _ ?_ ?_
    | exact fun _ k => ⟨k.1, k.2⟩
    | exact fun _ k => k

theorem execReadResp_canon {s : State} (a0 : PktHdr) (a1 : BitVec 16) (a2 : BitVec 32) (a3 : Bool)
    (a4 : List Byte) (h : Canon s) :
    CanonR (execReadResp a0 a1 a2 a3 a4 s) := by
  unfold execReadResp
  try dsimp only
  repeat' first
    | with_reducible assumption
    | with_reducible apply State.receiveData_canon
    | with_reducible apply State.onFlow_canon
    | with_reducible apply State.landParts_canon
    | with_reducible refine CanonD.waitOut (v := State.landParts _ _ _ _ _) ?_ (by assumption)
    | with_reducible refine CanonD.doneOut (v := State.landParts _ _ _ _ _) ?_ (by assumption)
    | with_reducible apply State.pumpDma_canon
    | with_reducible apply State.onSeq_canon
    | with_reducible apply State.endXfer_canon
    | with_reducible apply State.failXfer_canon
    | with_reducible apply State.onBegun_canon
    | with_reducible apply Sequencer.stall_canon
    | with_reducible apply canon_ite
    | (with_reducible intro u hu; try dsimp only)
    | (with_reducible intro q hq; try dsimp only)
    | with_reducible apply canonR_ite
    | with_reducible apply canonR_next
    | split

theorem execRegisterWrite_canon {s : State} (a0 : BitVec 28) (a1 : BitVec 32) (h : Canon s) :
    CanonR (execRegisterWrite a0 a1 s) := by
  unfold execRegisterWrite
  try dsimp only
  repeat' first
    | with_reducible assumption
    | with_reducible apply State.writeReg_canon
    | with_reducible apply canon_ite
    | with_reducible apply canonR_ite
    | with_reducible apply canonR_next

theorem execCoreHandover_canon {s : State} (a0 : Fin 64) (h : Canon s) : CanonR (execCoreHandover a0 s) := by
  unfold execCoreHandover
  extract_lets c sp u
  clear_value c sp
  exact canonR_ite (canonR_next h) (canonR_ite (canonR_next (State.setCore_canon _ _ (canon_flash _ h) (newCore_canon _ _)))
    (canonR_next (State.onCore_canon _ _ h fun _ k => ⟨k.1, k.2⟩)))

theorem execScpCorrLogHourly_canon {s : State} (a0 : ℕ) (h : Canon s) :
    CanonR (execScpCorrLogHourly a0 s) := by
  unfold execScpCorrLogHourly
  try dsimp only
  repeat' first
    | with_reducible assumption
    | with_reducible apply State.at_canon
    | with_reducible apply State.logErr_canon
    | with_reducible apply canon_ite
    | with_reducible apply canon_foldl
    | with_reducible apply canon_foldl2
    | (with_reducible intro u x hu; try dsimp only)
    | with_reducible apply canonR_ite
    | with_reducible apply canonR_next
    | split
    | with_reducible refine canon_mgmt _ ?_

theorem execHeartbeat_canon {s : State} (a0 : ℕ) (h : Canon s) :
    CanonR (execHeartbeat a0 s) := by
  unfold execHeartbeat
  try dsimp only
  repeat' first
    | with_reducible assumption
    | with_reducible apply State.refuse_canon
    | with_reducible apply State.at_canon
    | with_reducible apply State.accept_canon
    | with_reducible apply canon_ite
    | with_reducible apply canonR_ite
    | with_reducible apply canonR_next
    | split

theorem execVxAdd_canon {s : State} (a0 : Fin 64) (h : Canon s) :
    CanonR (execVxAdd a0 s) := by
  unfold execVxAdd
  try dsimp only
  repeat' first
    | with_reducible assumption
    | with_reducible apply vxElementwise_canon
    | with_reducible apply runCmd_canon
    | with_reducible apply tileHold_canon
    | with_reducible refine CanonP.out (o := tileHold _ _ _) ?_ (by assumption)
    | with_reducible apply canon_ite
    | with_reducible apply canon_getD
    | (with_reducible intro u x hu; try dsimp only)
    | with_reducible apply canonR_ite
    | with_reducible apply canonR_next
    | split
    | with_reducible exact canonP_none
    | with_reducible apply canonP_some
    | with_reducible intro u x hu
    | (with_reducible intro x u hu; try dsimp only)
    | exact fun _ k => ⟨k.1, k.2⟩
    | exact fun _ k => k
    | exact ⟨hq.1, hq.2⟩
    | (refine ⟨⟨hq.1.1, hq.1.2⟩, ?_⟩)
    | (refine ⟨hq.1, ?_⟩)
    | (unfold vxRow; try dsimp only)

theorem execStandbyRestartDone_canon {s : State} (h : Canon s) :
    CanonR (execStandbyRestartDone s) := by
  unfold execStandbyRestartDone
  try dsimp only
  repeat' first
    | with_reducible assumption
    | with_reducible apply State.logErr_canon
    | with_reducible apply canon_ite
    | with_reducible apply canonR_ite
    | with_reducible apply canonR_next
    | split
    | with_reducible refine canon_mgmt _ ?_

theorem execParkTimer_canon {s : State} (a0 : Fin 72) (a1 : ℕ) (h : Canon s) :
    CanonR (execParkTimer a0 a1 s) := by
  unfold execParkTimer
  try dsimp only
  repeat' first
    | with_reducible assumption
    | with_reducible apply State.onDom_canon
    | with_reducible apply State.at_canon
    | with_reducible apply canon_ite
    | with_reducible apply canonR_ite
    | with_reducible apply canonR_next

theorem execXbarRead_canon {s : State} (a0 : XPort) (a1 : BitVec 40) (a2 : BitVec 256) (a3 : Option GrpKey)
    (a4 : Upset) (h : Canon s) :
    CanonR (execXbarRead a0 a1 a2 a3 a4 s) := by
  unfold execXbarRead
  try dsimp only
  repeat' first
    | with_reducible assumption
    | with_reducible apply State.request_canon
    | with_reducible apply State.retryHeld_canon
    | with_reducible apply State.sliceEcc_canon
    | with_reducible apply Scratch.read_canon
    | with_reducible apply Scratch.request_canon
    | with_reducible apply canon_ite
    | with_reducible apply canonR_ite
    | with_reducible apply canonR_next

theorem execThermalSample_canon {s : State} (a0 : Fin 72) (a1 : Option ℤ) (a2 : List (Option ℤ)) (a3 : ℕ)
    (h : Canon s) :
    CanonR (execThermalSample a0 a1 a2 a3 s) := by
  unfold execThermalSample
  try dsimp only
  repeat' first
    | with_reducible assumption
    | with_reducible apply State.judgeSensor_canon
    | with_reducible apply State.heatCore_canon
    | with_reducible apply State.sample_canon
    | with_reducible apply State.at_canon
    | with_reducible apply canon_ite
    | with_reducible apply canon_foldl
    | with_reducible apply canon_foldl2
    | with_reducible apply canon_getD
    | (with_reducible intro u x hu; try dsimp only)
    | with_reducible apply canonR_ite
    | with_reducible apply canonR_next
    | split
    | with_reducible refine canon_thm _ ?_

theorem execFwUpdateDone_canon {s : State} (a0 : FwResult) (a1 : Boot) (a2 : ℕ) (h : Canon s) :
    CanonR (execFwUpdateDone a0 a1 a2 s) := by
  unfold execFwUpdateDone
  try dsimp only
  repeat' first
    | with_reducible assumption
    | with_reducible apply State.beginStart_canon
    | with_reducible apply State.at_canon
    | with_reducible apply canon_ite
    | with_reducible apply canonR_ite
    | with_reducible apply canonR_next
    | split
    | with_reducible refine canon_mgmt _ ?_
    | with_reducible refine canon_flash_mgmt _ _ ?_

theorem execJobStart_canon {s : State} (a0 : Fin 64) (a1 : ℕ) (h : Canon s) :
    CanonR (execJobStart a0 a1 s) := by
  unfold execJobStart
  try dsimp only
  repeat' first
    | with_reducible assumption
    | with_reducible apply State.at_canon
    | with_reducible apply State.preemptPass_canon
    | with_reducible apply State.onSQueue_canon
    | with_reducible apply State.startTask_canon
    | with_reducible apply State.onJob_canon
    | with_reducible apply Sequencer.start_canon
    | with_reducible apply canon_ite
    | with_reducible apply canon_foldl
    | with_reducible apply canon_foldl2
    | (with_reducible intro u x hu; try dsimp only)
    | with_reducible apply canonR_ite
    | with_reducible apply canonR_next
    | split
    | with_reducible refine canon_jobs _ ?_ ?_
    | exact fun _ k => ⟨k.1, k.2⟩

theorem execTeardown_canon {s : State} (a0 : PktHdr) (h : Canon s) :
    CanonR (execTeardown a0 s) := by
  unfold execTeardown
  try dsimp only
  repeat' first
    | with_reducible assumption
    | with_reducible apply State.receiveCtl_canon
    | with_reducible apply canon_ite
    | with_reducible apply canonR_ite
    | with_reducible apply canonR_next

theorem execGrpCommit_canon {s : State} (a0 : Fin 64) (h : Canon s) :
    CanonR (execGrpCommit a0 s) := by
  unfold execGrpCommit
  try dsimp only
  repeat' first
    | with_reducible assumption
    | with_reducible apply State.onEng_canon
    | with_reducible apply State.failStream_canon
    | with_reducible apply State.waitOn_canon
    | with_reducible apply State.retireFront_canon
    | with_reducible apply runCmd_canon
    | with_reducible apply State.onSeq_canon
    | with_reducible apply Sequencer.failStream_canon
    | with_reducible apply Sequencer.onEng_canon
    | with_reducible apply Sequencer.onGrp_canon
    | with_reducible apply canon_ite
    | (with_reducible intro u x hu; try dsimp only)
    | (with_reducible intro q hq; try dsimp only)
    | with_reducible apply canonR_ite
    | with_reducible apply canonR_next
    | split
    | with_reducible exact canonP_none
    | with_reducible apply canonP_some
    | with_reducible intro u x hu
    | (with_reducible intro x u hu; try dsimp only)
    | exact fun _ k => ⟨k.1, k.2⟩
    | exact fun _ k => k
    | exact ⟨hq.1, hq.2⟩
    | (refine ⟨⟨hq.1.1, hq.1.2⟩, ?_⟩)
    | (refine ⟨hq.1, ?_⟩)
    | (unfold grpCommitRow; try dsimp only)
    | (unfold plainRow; try dsimp only)

theorem execSectionPowerEntry_canon {s : State} (a0 : Fin 64) (a1 : Fin 6) (h : Canon s) :
    CanonR (execSectionPowerEntry a0 a1 s) := by
  unfold execSectionPowerEntry
  split
  · exact canonR_next h
  · refine canonR_ite (canonR_next h) (canonR_next (State.onScp_canon _ _ h fun m hm => ?_))
    rename_i t _
    have k : ({ m with sect := Tbl.set 0 m.sect a1 t, sectReq := Tbl.set none m.sectReq a1 none } : Scratch).Canon :=
      ⟨hm.1, hm.2.1, hm.2.2.1, hm.2.2.2.1, hm.2.2.2.2.1, Tbl.set_wf _ _ _ _ hm.2.2.2.2.2.1,
        Tbl.set_wf _ _ _ _ hm.2.2.2.2.2.2.1, hm.2.2.2.2.2.2.2⟩
    dsimp only
    split
    · exact Scratch.lose_canon _ k
    · exact k

theorem execApertureCompletion_canon {s : State} (a0 : AptResult) (h : Canon s) :
    CanonR (execApertureCompletion a0 s) := by
  unfold execApertureCompletion
  split
  · exact canonR_next h
  rename_i q rest _
  extract_lets e hh u lost data
  have hu : Canon u := canon_host _ h fun _ k => ⟨k.1, k.2⟩
  clear_value data lost u
  split
  · exact canonR_next hu
  extract_lets step
  have hs : ∀ {v}, Canon v → Canon (step v) := fun hv => State.settleApt_canon _ _ (State.aptDone_canon _ _ _ _ _ hv)
  clear_value step
  refine canonR_ite (canonR_next (hs hu)) ?_
  split
  · exact canonR_next (hs (CanonD.doneOut (State.landParts_canon _ _ _ _ hu) (by assumption)))
  · have hw := CanonD.waitOut (State.landParts_canon _ _ _ _ hu) (by assumption)
    exact canonR_next (State.onSeq_canon _ _ (canon_host _ hw fun _ k => ⟨k.1, k.2⟩) fun _ k => Sequencer.stall_canon _ _ k)
  · exact canonR_next (State.failXfer_canon _ _ _ (State.dropApts_canon _ _ hu))

theorem execLoReadLatch_canon {s : State} (a0 : BitVec 28) (h : Canon s) :
    CanonR (execLoReadLatch a0 s) := by
  unfold execLoReadLatch
  try dsimp only
  repeat' first
    | with_reducible assumption
    | with_reducible apply State.latch_canon
    | with_reducible refine CanonO.out (o := State.latch? _ _) ?_ (by assumption)
    | with_reducible apply State.readOut_canon
    | with_reducible apply canon_ite
    | with_reducible apply canonR_ite
    | with_reducible apply canonR_next
    | with_reducible refine CanonO.out (o := ite _ _ _) ?_ (by assumption)
    | with_reducible apply canonO_some
    | split

theorem execSliceMissFill_canon {s : State} (a0 : Fin 128) (a1 : Upset) (h : Canon s) :
    CanonR (execSliceMissFill a0 a1 s) := by
  unfold execSliceMissFill
  try dsimp only
  repeat' first
    | with_reducible assumption
    | with_reducible apply State.pumpWaiting_canon
    | with_reducible apply State.retryHeld_canon
    | with_reducible apply State.onSlice_canon
    | with_reducible apply State.deliver_canon
    | with_reducible apply State.fetchUnit_canon
    | with_reducible apply canon_ite
    | with_reducible apply canonR_ite
    | with_reducible apply canonR_next
    | split

theorem execBarrier_canon {s : State} (a0 : PktHdr) (a1 : BitVec 20) (a2 : Bool) (a3 : BitVec 32) (h : Canon s) :
    CanonR (execBarrier a0 a1 a2 a3 s) := by
  unfold execBarrier
  try dsimp only
  repeat' first
    | with_reducible assumption
    | with_reducible apply State.receiveCtl_canon
    | with_reducible apply canon_ite
    | with_reducible apply canonR_ite
    | with_reducible apply canonR_next

theorem Core.readBlocks_canon {c : Core} (pr : Prod) (p : Pass) (h : c.Canon) : (c.readBlocks pr p).2.Canon := by
  unfold Core.readBlocks
  exact foldl_keeps (P := fun x : List TongsBlock × Core => x.2.Canon) _ _ h fun x r hx => Core.readSpots_canon _ _ hx

theorem Core.movingOf_canon {c : Core} (a : Arr) (b : Begun) (n : Nat) (pr : Prod) (p : Pass) (h : c.Canon) :
    (c.movingOf a b n pr p).2.2.Canon := by
  unfold Core.movingOf
  dsimp only
  split
  · split
    · exact ⟨⟨h.1.1, h.1.2⟩, h.2⟩
    · have k := Core.readBlocks_canon pr p h
      exact ⟨⟨k.1.1, k.1.2⟩, k.2⟩
  · exact Core.readSpots_canon _ _ h

theorem State.issuePass_canon {s : State} (a1 : ℕ) (a2 : Arr) (a3 a4 : Begun) (a5 : Prod) (a6 : Pass) (a7 : Bool)
    (a8 : AccTile) (a9 : Option (ℕ × ℕ × Fin 32)) (h : Canon s) : Canon
    (State.issuePass s a1 a2 a3 a4 a5 a6 a7 a8 a9) := by
  unfold State.issuePass
  extract_lets co au dr qn
  have hco : co.Canon := h.1.2 _
  clear_value qn dr au co
  split
  rename_i pm mt c1 e1
  have k1 : c1.Canon := by
    have k := Core.movingOf_canon a2 a3 a4.serial a5 a6 hco
    rw [e1] at k
    exact k
  split
  rename_i st c2 e2
  have k2 : c2.Canon := by
    have k := Core.readSpots_canon a5.stat.desc (a5.stat.spots a6.k0 a6.kLen a6.col0 a6.cols) k1
    rw [e2] at k
    exact k
  extract_lets u poison
  have hu : Canon u := State.setCore_canon _ _ h k2
  clear_value u poison
  split
  extract_lets t3 t4 v w x y
  have hv : Canon v := State.onArray_canon _ _ _ hu
  clear_value v t4 t3
  have hw : Canon w := State.onSeq_canon _ _ hv fun _ k => Sequencer.stallBy_canon _ _ _ (Sequencer.stallBy_canon _ _ _ k)
  clear_value w
  have hx : Canon x := canon_ite (State.poisonBegun_canon _ _ _ hw) hw
  clear_value x
  have hy : Canon y := State.drainPump_canon _ hx
  clear_value y
  exact canon_ite (State.poisonKept_canon _ _ _ hy) hy

theorem execArraySwap_canon {s : State} (a0 : Fin 64) (a1 : Arr) (a2 : PassHold) (a3 : Option (ℕ × ℕ × Fin 32))
    (h : Canon s) :
    CanonR (execArraySwap a0 a1 a2 a3 s) := by
  unfold execArraySwap
  try dsimp only
  repeat' first
    | with_reducible assumption
    | with_reducible apply State.issuePass_canon
    | with_reducible apply State.onSeq_canon
    | with_reducible apply accessHold_canon
    | with_reducible refine CanonP.out (o := accessHold _ _ _ _) ?_ (by assumption)
    | with_reducible apply State.bubbleStall_canon
    | with_reducible apply Sequencer.stall_canon
    | with_reducible apply canon_ite
    | (with_reducible intro q hq; try dsimp only)
    | with_reducible apply canonR_ite
    | with_reducible apply canonR_next
    | split

theorem execBoardConfigRecord_canon {s : State} (a0 : ℕ) (h : Canon s) :
    CanonR (execBoardConfigRecord a0 s) := by
  unfold execBoardConfigRecord
  try dsimp only
  repeat' first
    | with_reducible assumption
    | with_reducible apply State.at_canon
    | with_reducible apply canon_ite
    | with_reducible apply canonR_ite
    | with_reducible apply canonR_next
    | split
    | with_reducible refine canon_cfg_flash _ _ ?_

theorem execGrpAbort_canon {s : State} (a0 : Fin 64) (h : Canon s) :
    CanonR (execGrpAbort a0 s) := by
  unfold execGrpAbort
  try dsimp only
  repeat' first
    | with_reducible assumption
    | with_reducible apply State.pumpPort_canon
    | with_reducible apply State.retireFront_canon
    | with_reducible apply runCmd_canon
    | with_reducible apply State.abortGroup_canon
    | with_reducible apply canon_ite
    | (with_reducible intro u x hu; try dsimp only)
    | with_reducible apply canonR_ite
    | with_reducible apply canonR_next
    | split
    | with_reducible exact canonP_none
    | with_reducible apply canonP_some
    | with_reducible intro u x hu
    | (with_reducible intro x u hu; try dsimp only)
    | exact fun _ k => ⟨k.1, k.2⟩
    | exact fun _ k => k
    | exact ⟨hq.1, hq.2⟩
    | (refine ⟨⟨hq.1.1, hq.1.2⟩, ?_⟩)
    | (refine ⟨hq.1, ?_⟩)
    | (unfold plainRow; try dsimp only)

theorem execCorePark_canon {s : State} (a0 : Fin 72) (h : Canon s) :
    CanonR (execCorePark a0 s) := by
  unfold execCorePark
  try dsimp only
  repeat' first
    | with_reducible assumption
    | with_reducible apply State.onDom_canon
    | with_reducible apply canon_ite
    | with_reducible apply canonR_ite
    | with_reducible apply canonR_next

theorem execStrike_canon {s : State} (a0 : PktHdr) (a1 : BitVec 24) (h : Canon s) :
    CanonR (execStrike a0 a1 s) := by
  unfold execStrike
  try dsimp only
  repeat' first
    | with_reducible assumption
    | with_reducible apply State.receiveCtl_canon
    | with_reducible apply Scratch.strike_canon
    | with_reducible apply canon_ite
    | with_reducible apply canonR_ite
    | with_reducible apply canonR_next

theorem execFrameReceive_canon {s : State} (a0 : Fin 96) (a1 : Frame) (h : Canon s) :
    CanonR (execFrameReceive a0 a1 s) := by
  unfold execFrameReceive
  try dsimp only
  repeat' first
    | with_reducible assumption
    | with_reducible apply State.pfcCheck_canon
    | with_reducible apply State.onPort_canon
    | with_reducible apply canon_ite
    | with_reducible apply canonR_ite
    | with_reducible apply canonR_next
    | split

theorem execUnparkTimer_canon {s : State} (a0 : Fin 72) (a1 : ℕ) (h : Canon s) :
    CanonR (execUnparkTimer a0 a1 s) := by
  unfold execUnparkTimer
  try dsimp only
  repeat' first
    | with_reducible assumption
    | with_reducible apply State.onDom_canon
    | with_reducible apply State.at_canon
    | with_reducible apply canon_ite
    | with_reducible apply canonR_ite
    | with_reducible apply canonR_next

theorem execGrpOpen_canon {s : State} (a0 : Fin 64) (a1 : Eng) (h : Canon s) :
    CanonR (execGrpOpen a0 a1 s) := by
  unfold execGrpOpen
  try dsimp only
  repeat' first
    | with_reducible assumption
    | with_reducible apply State.retireFront_canon
    | with_reducible apply runCmd_canon
    | with_reducible apply State.onSeq_canon
    | with_reducible apply Sequencer.onEng_canon
    | with_reducible apply Sequencer.onGrp_canon
    | with_reducible apply canon_ite
    | (with_reducible intro u x hu; try dsimp only)
    | (with_reducible intro q hq; try dsimp only)
    | with_reducible apply canonR_ite
    | with_reducible apply canonR_next
    | split
    | with_reducible exact canonP_none
    | with_reducible apply canonP_some
    | with_reducible intro u x hu
    | (with_reducible intro x u hu; try dsimp only)
    | exact fun _ k => ⟨k.1, k.2⟩
    | exact fun _ k => k
    | exact ⟨hq.1, hq.2⟩
    | (refine ⟨⟨hq.1.1, hq.1.2⟩, ?_⟩)
    | (refine ⟨hq.1, ?_⟩)
    | (unfold grpOpenRow; try dsimp only)

theorem execQuench_canon {s : State} (a0 : ℕ) (h : Canon s) :
    CanonR (execQuench a0 s) := by
  unfold execQuench
  try dsimp only
  repeat' first
    | with_reducible assumption
    | with_reducible apply State.quenchNow_canon
    | with_reducible apply State.at_canon
    | with_reducible apply canon_ite
    | with_reducible apply canonR_ite
    | with_reducible apply canonR_next

theorem execJtagBypass_canon {s : State} (a0 : Bool) (h : Canon s) :
    CanonR (execJtagBypass a0 s) := by
  unfold execJtagBypass
  try dsimp only
  repeat' first
    | with_reducible assumption
    | with_reducible apply State.shiftOut_canon
    | with_reducible apply canon_ite
    | with_reducible apply canonR_ite
    | with_reducible apply canonR_next
    | split
    | with_reducible refine canon_sec _ ?_

end Sys2Proof.Machine
end

