-- ==== Sys2Proof/Laws/Frames0.lean ====
section
/-! SUPPORT. For each operation and meaning, in dependency order (part 1 of 10): the parts of the state it can
change. -/

namespace Sys2Proof.Machine

theorem State.setCore_within {W : List Part} {s0 s : State} (a1 : ℕ) (a2 : Core) (h : Within W s0 s)
    (h_cores : Part.cores ∈ W) :
    Within W s0 (State.setCore s a1 a2) := by
  unfold State.setCore
  try dsimp only
  repeat' first
    | with_reducible assumption
    | split
    | with_reducible refine within_cores _ ?_ (by assumption)

theorem State.onCore_within {W : List Part} {s0 s : State} (a1 : ℕ) (a2 : Core → Core) (h : Within W s0 s)
    (h_cores : Part.cores ∈ W) :
    Within W s0 (State.onCore s a1 a2) := by
  unfold State.onCore
  try dsimp only
  repeat' first
    | with_reducible assumption
    | with_reducible apply State.setCore_within

theorem State.onSeq_within {W : List Part} {s0 s : State} (a1 : ℕ) (a2 : Sequencer → Sequencer)
    (h : Within W s0 s) (h_cores : Part.cores ∈ W) :
    Within W s0 (State.onSeq s a1 a2) := by
  unfold State.onSeq
  try dsimp only
  repeat' first
    | with_reducible assumption
    | with_reducible apply State.onCore_within

theorem State.endWindows_within {W : List Part} {s0 s : State} (a1 : ℕ) (a2 : TaskRec) (h : Within W s0 s)
    (h_cores : Part.cores ∈ W) :
    Within W s0 (State.endWindows s a1 a2) := by
  unfold State.endWindows
  try dsimp only
  repeat' first
    | with_reducible assumption
    | with_reducible apply State.onSeq_within
    | with_reducible apply within_foldl
    | with_reducible apply within_foldl2
    | (with_reducible intro u x hu; try dsimp only)

theorem State.onScp_within {W : List Part} {s0 s : State} (a1 : ℕ) (a2 : Scratch → Scratch) (h : Within W s0 s)
    (h_cores : Part.cores ∈ W) :
    Within W s0 (State.onScp s a1 a2) := by
  unfold State.onScp
  try dsimp only
  repeat' first
    | with_reducible assumption
    | with_reducible apply State.onCore_within

theorem State.resolveRx_within {W : List Part} {s0 s : State} (a1 : List RxXfer) (a2 : RxXfer → Bool) (a3 : Bool)
    (h : Within W s0 s) (h_cores : Part.cores ∈ W) :
    Within W s0 (State.resolveRx s a1 a2 a3).1 := by
  unfold State.resolveRx
  try dsimp only
  repeat' first
    | with_reducible assumption
    | with_reducible apply State.onScp_within
    | with_reducible apply within_ite
    | with_reducible apply within_foldl
    | with_reducible apply within_foldl2
    | (with_reducible intro u x hu; try dsimp only)

theorem State.dropAside_within {W : List Part} {s0 s : State} (a1 : ℕ) (a2 : ℕ) (a3 : Bool) (h : Within W s0 s)
    (h_mem : Part.mem ∈ W) :
    Within W s0 (State.dropAside s a1 a2 a3) := by
  unfold State.dropAside
  try dsimp only
  repeat' first
    | with_reducible assumption
    | with_reducible apply within_ite
    | split
    | with_reducible refine within_mem _ ?_ (by assumption)

theorem State.raiseMark_within {W : List Part} {s0 s : State} (a1 : ℕ) (a2 : BitVec 12) (a3 : BitVec 16) (a4 : ℕ)
    (h : Within W s0 s) (h_cores : Part.cores ∈ W) :
    Within W s0 (State.raiseMark s a1 a2 a3 a4) := by
  unfold State.raiseMark
  try dsimp only
  repeat' first
    | with_reducible assumption
    | with_reducible apply State.onSeq_within

theorem State.raiseAll_within {W : List Part} {s0 s : State} (a1 : List RxXfer) (h : Within W s0 s)
    (h_cores : Part.cores ∈ W) :
    Within W s0 (State.raiseAll s a1) := by
  unfold State.raiseAll
  try dsimp only
  repeat' first
    | with_reducible assumption
    | with_reducible apply State.raiseMark_within
    | with_reducible apply within_foldl
    | with_reducible apply within_foldl2
    | (with_reducible intro u x hu; try dsimp only)

theorem State.settleLoc_within {W : List Part} {s0 s : State} (h : Within W s0 s) (h_cores : Part.cores ∈ W)
    (h_fab : Part.fab ∈ W) :
    Within W s0 (State.settleLoc s) := by
  unfold State.settleLoc
  try dsimp only
  repeat' first
    | with_reducible assumption
    | with_reducible apply State.raiseAll_within
    | split
    | with_reducible refine within_fab _ ?_ (by assumption)

theorem State.abortAside_within {W : List Part} {s0 s : State} (a1 : ℕ) (a2 : ℕ) (h : Within W s0 s)
    (h_cores : Part.cores ∈ W) (h_mem : Part.mem ∈ W) (h_fab : Part.fab ∈ W) :
    Within W s0 (State.abortAside s a1 a2) := by
  unfold State.abortAside
  try dsimp only
  repeat' first
    | with_reducible assumption
    | with_reducible apply State.resolveRx_within
    | with_reducible refine within_fst (x := State.resolveRx _ _ _ _) ?_ (by assumption)
    | with_reducible apply State.dropAside_within
    | with_reducible apply State.settleLoc_within
    | with_reducible apply State.onScp_within
    | with_reducible apply within_foldl
    | with_reducible apply within_foldl2
    | (with_reducible intro u x hu; try dsimp only)
    | split
    | with_reducible refine within_fab _ ?_ (by assumption)

theorem State.ctxCount_within {W : List Part} {s0 s : State} (a1 : ℕ) (a2 : Bool) (h : Within W s0 s)
    (h_fab : Part.fab ∈ W) :
    Within W s0 (State.ctxCount s a1 a2) := by
  unfold State.ctxCount
  try dsimp only
  repeat' first
    | with_reducible assumption
    | with_reducible apply within_ite
    | split
    | with_reducible refine within_fab _ ?_ (by assumption)

theorem State.onFlow_within {W : List Part} {s0 s : State} (a1 : ℕ) (a2 : Flow → Flow) (h : Within W s0 s)
    (h_fab : Part.fab ∈ W) :
    Within W s0 (State.onFlow s a1 a2) := by
  unfold State.onFlow
  try dsimp only
  repeat' first
    | with_reducible assumption
    | split
    | with_reducible refine within_fab _ ?_ (by assumption)

theorem State.ctxUse_within {W : List Part} {s0 s : State} (a1 : ℕ) (h : Within W s0 s) (h_fab : Part.fab ∈ W) :
    Within W s0 (State.ctxUse s a1).2 := by
  unfold State.ctxUse
  try dsimp only
  repeat' first
    | with_reducible assumption
    | with_reducible apply State.ctxCount_within
    | with_reducible apply State.onFlow_within
    | with_reducible apply within_ite
    | split

theorem State.onPort_within {W : List Part} {s0 s : State} (a1 : ℕ) (a2 : Port → Port) (h : Within W s0 s)
    (h_ports : Part.ports ∈ W) :
    Within W s0 (State.onPort s a1 a2) := by
  unfold State.onPort
  try dsimp only
  repeat' first
    | with_reducible assumption
    | split
    | with_reducible refine within_ports _ ?_ (by assumption)

theorem State.wire_within {W : List Part} {s0 s : State} (a1 : ℕ) (a2 : BitVec 32) (a3 : ℕ → List Byte)
    (h : Within W s0 s) (h_ports : Part.ports ∈ W) (h_fab : Part.fab ∈ W) :
    Within W s0 (State.wire s a1 a2 a3) := by
  unfold State.wire
  try dsimp only
  repeat' first
    | with_reducible assumption
    | with_reducible apply State.onFlow_within
    | with_reducible apply State.onPort_within
    | with_reducible apply within_ite
    | split

theorem State.emit_within {W : List Part} {s0 s : State} (a1 : ℕ) (a2 : TxPkt) (h : Within W s0 s)
    (h_ports : Part.ports ∈ W) (h_fab : Part.fab ∈ W) :
    Within W s0 (State.emit s a1 a2) := by
  unfold State.emit
  try dsimp only
  repeat' first
    | with_reducible assumption
    | with_reducible apply State.wire_within
    | with_reducible apply State.onFlow_within

theorem State.drainOut_within {W : List Part} {s0 s : State} (a1 : ℕ) (a2 : ℕ) (h : Within W s0 s)
    (h_ports : Part.ports ∈ W) (h_fab : Part.fab ∈ W) :
    Within W s0 (State.drainOut s a1 a2) := by
  induction a2 generalizing s a1 with
  | zero =>
    unfold State.drainOut
    try dsimp only
    repeat' first
      | with_reducible assumption
  | succ k ih =>
    unfold State.drainOut
    try dsimp only
    repeat' first
      | with_reducible assumption
      | with_reducible apply ih
      | with_reducible apply State.ctxUse_within
      | with_reducible refine within_pair (x := State.ctxUse _ _) ?_ (by assumption)
      | with_reducible apply State.onFlow_within
      | with_reducible apply State.emit_within
      | with_reducible apply within_ite
      | split

theorem State.goOut_within {W : List Part} {s0 s : State} (a1 : ℕ) (h : Within W s0 s) (h_ports : Part.ports ∈ W)
    (h_fab : Part.fab ∈ W) :
    Within W s0 (State.goOut s a1) := by
  unfold State.goOut
  try dsimp only
  repeat' first
    | with_reducible assumption
    | with_reducible apply State.drainOut_within

theorem State.sendSeq_within {W : List Part} {s0 s : State} (a1 : ℕ) (a2 : TxPkt) (h : Within W s0 s)
    (h_ports : Part.ports ∈ W) (h_fab : Part.fab ∈ W) :
    Within W s0 (State.sendSeq s a1 a2) := by
  unfold State.sendSeq
  try dsimp only
  repeat' first
    | with_reducible assumption
    | with_reducible apply State.goOut_within
    | with_reducible apply State.onFlow_within

theorem State.sendCtl_within {W : List Part} {s0 s : State} (a1 : ℕ) (a2 : ℕ) (a3 : BitVec 256) (a4 : List Byte)
    (a5 : ℕ) (h : Within W s0 s) (h_ports : Part.ports ∈ W) (h_fab : Part.fab ∈ W) :
    Within W s0 (State.sendCtl s a1 a2 a3 a4 a5) := by
  unfold State.sendCtl
  try dsimp only
  repeat' first
    | with_reducible assumption
    | with_reducible apply State.sendSeq_within

theorem State.endSaved_within {W : List Part} {s0 s : State} (a1 : ℕ) (a2 : TaskRec) (a3 : Saved)
    (h : Within W s0 s) (h_cores : Part.cores ∈ W) (h_mem : Part.mem ∈ W) (h_ports : Part.ports ∈ W)
    (h_fab : Part.fab ∈ W) :
    Within W s0 (State.endSaved s a1 a2 a3) := by
  unfold State.endSaved
  try dsimp only
  repeat' first
    | with_reducible assumption
    | with_reducible apply State.endWindows_within
    | with_reducible apply State.abortAside_within
    | with_reducible apply State.onSeq_within
    | with_reducible apply State.sendCtl_within
    | with_reducible apply within_ite
    | with_reducible apply within_foldl
    | with_reducible apply within_foldl2
    | (with_reducible intro u x hu; try dsimp only)

theorem State.endAllSaved_within {W : List Part} {s0 s : State} (a1 : ℕ) (h : Within W s0 s)
    (h_cores : Part.cores ∈ W) (h_mem : Part.mem ∈ W) (h_ports : Part.ports ∈ W) (h_fab : Part.fab ∈ W) :
    Within W s0 (State.endAllSaved s a1) := by
  unfold State.endAllSaved
  try dsimp only
  repeat' first
    | with_reducible assumption
    | with_reducible apply State.endSaved_within
    | with_reducible apply within_foldl
    | with_reducible apply within_foldl2
    | (with_reducible intro u x hu; try dsimp only)
    | split

theorem execEccWriteback_within {W : List Part} {s0 s : State} (a0 : Fin 64) (a1 : Fin 786432) (h : Within W s0 s)
    (h_cores : Part.cores ∈ W) :
    WithinR W s0 (execEccWriteback a0 a1 s) := by
  unfold execEccWriteback
  try dsimp only
  repeat' first
    | with_reducible assumption
    | with_reducible apply State.onScp_within
    | with_reducible apply within_ite
    | with_reducible apply withinR_ite
    | with_reducible apply withinR_next

theorem State.restartSecurity_within {W : List Part} {s0 s : State} (a1 : Bool) (h : Within W s0 s)
    (h_sec : Part.sec ∈ W) :
    Within W s0 (State.restartSecurity s a1) := by
  unfold State.restartSecurity
  try dsimp only
  repeat' first
    | with_reducible assumption
    | with_reducible apply within_ite
    | split
    | with_reducible refine within_sec _ ?_ (by assumption)

theorem State.freeRegs_within {W : List Part} {s0 s : State} (a1 : ℕ) (a2 : ℕ) (a3 : ℕ) (h : Within W s0 s)
    (h_cores : Part.cores ∈ W) (h_free : Part.free ∈ W) :
    Within W s0 (State.freeRegs s a1 a2 a3) := by
  unfold State.freeRegs
  try dsimp only
  repeat' first
    | with_reducible assumption
    | with_reducible apply State.onScp_within
    | with_reducible apply within_foldl
    | with_reducible apply within_foldl2
    | (with_reducible intro u x hu; try dsimp only)
    | split
    | with_reducible refine within_free _ ?_ (by assumption)

theorem State.onStk_within {W : List Part} {s0 s : State} (a1 : ℕ) (a2 : Stack → Stack) (h : Within W s0 s)
    (h_mem : Part.mem ∈ W) :
    Within W s0 (State.onStk s a1 a2) := by
  unfold State.onStk
  try dsimp only
  repeat' first
    | with_reducible assumption
    | split
    | with_reducible refine within_mem _ ?_ (by assumption)

theorem State.onDom_within {W : List Part} {s0 s : State} (a1 : ℕ) (a2 : Domain → Domain) (h : Within W s0 s)
    (h_pwr : Part.pwr ∈ W) :
    Within W s0 (State.onDom s a1 a2) := by
  unfold State.onDom
  try dsimp only
  repeat' first
    | with_reducible assumption
    | split
    | with_reducible refine within_pwr _ ?_ (by assumption)

theorem State.signal_within {W : List Part} {s0 s : State} (a1 : ℕ) (a2 : Sent) (h : Within W s0 s)
    (h_ports : Part.ports ∈ W) :
    Within W s0 (State.signal s a1 a2) := by
  unfold State.signal
  try dsimp only
  repeat' first
    | with_reducible assumption
    | with_reducible apply State.onPort_within

theorem State.electSlave_within {W : List Part} {s0 s : State} (h : Within W s0 s) (h_fab : Part.fab ∈ W) :
    Within W s0 (State.electSlave s) := by
  unfold State.electSlave
  try dsimp only
  repeat' first
    | with_reducible assumption
    | with_reducible apply within_ite
    | split
    | with_reducible refine within_fab _ ?_ (by assumption)

theorem State.portTo_within {W : List Part} {s0 s : State} (a1 : ℕ) (a2 : PortSt) (h : Within W s0 s)
    (h_ports : Part.ports ∈ W) (h_fab : Part.fab ∈ W) :
    Within W s0 (State.portTo s a1 a2) := by
  unfold State.portTo
  try dsimp only
  repeat' first
    | with_reducible assumption
    | with_reducible apply State.electSlave_within
    | with_reducible apply State.onPort_within
    | with_reducible apply within_ite
    | split
    | with_reducible refine within_fab _ ?_ (by assumption)

theorem State.quenchPorts_within {W : List Part} {s0 s : State} (h : Within W s0 s) (h_ports : Part.ports ∈ W)
    (h_fab : Part.fab ∈ W) :
    Within W s0 (State.quenchPorts s) := by
  unfold State.quenchPorts
  try dsimp only
  repeat' first
    | with_reducible assumption
    | with_reducible apply State.signal_within
    | with_reducible apply State.portTo_within
    | with_reducible apply State.onPort_within
    | with_reducible apply within_ite
    | with_reducible apply within_foldl
    | with_reducible apply within_foldl2
    | (with_reducible intro u x hu; try dsimp only)

theorem State.quiesceAll_within {W : List Part} {s0 s : State} (h : Within W s0 s) (h_mem : Part.mem ∈ W)
    (h_ports : Part.ports ∈ W) (h_fab : Part.fab ∈ W) (h_pwr : Part.pwr ∈ W) :
    Within W s0 (State.quiesceAll s) := by
  unfold State.quiesceAll
  try dsimp only
  repeat' first
    | with_reducible assumption
    | with_reducible apply State.onStk_within
    | with_reducible apply State.onDom_within
    | with_reducible apply State.quenchPorts_within
    | with_reducible apply within_foldl
    | with_reducible apply within_foldl2
    | (with_reducible intro u x hu; try dsimp only)

theorem State.loseRanges_within {W : List Part} {s0 s : State} (h : Within W s0 s) (h_mem : Part.mem ∈ W) :
    Within W s0 (State.loseRanges s) := by
  unfold State.loseRanges
  try dsimp only
  repeat' first
    | with_reducible assumption
    | with_reducible apply within_ite
    | split
    | with_reducible refine within_mem _ ?_ (by assumption)

theorem State.logErr_within {W : List Part} {s0 s : State} (a1 : ℕ) (a2 : ℕ) (a3 : ℕ) (a4 : ℕ) (a5 : List Byte)
    (h : Within W s0 s) (h_flash : Part.flash ∈ W) :
    Within W s0 (State.logErr s a1 a2 a3 a4 a5) := by
  unfold State.logErr
  try dsimp only
  repeat' first
    | with_reducible assumption
    | with_reducible apply within_ite
    | with_reducible apply within_foldl
    | with_reducible apply within_foldl2
    | (with_reducible intro u x hu; try dsimp only)
    | split
    | with_reducible refine within_flash _ ?_ (by assumption)

theorem State.bankedFailed_within {W : List Part} {s0 s : State} (h : Within W s0 s) (h_mgmt : Part.mgmt ∈ W) :
    Within W s0 (State.bankedFailed s) := by
  unfold State.bankedFailed
  try dsimp only
  repeat' first
    | with_reducible assumption
    | split
    | with_reducible refine within_mgmt _ ?_ (by assumption)

theorem State.sendVector_within {W : List Part} {s0 s : State} (a1 : ℕ) (h : Within W s0 s) (h_host : Part.host ∈ W) :
    Within W s0 (State.sendVector s a1) := by
  unfold State.sendVector
  try dsimp only
  repeat' first
    | with_reducible assumption
    | with_reducible apply within_ite
    | split
    | with_reducible refine within_host _ ?_ (by assumption)

theorem State.onPair_within {W : List Part} {s0 s : State} (a1 : ℕ) (a2 : Pair → Pair) (h : Within W s0 s)
    (h_host : Part.host ∈ W) :
    Within W s0 (State.onPair s a1 a2) := by
  unfold State.onPair
  try dsimp only
  repeat' first
    | with_reducible assumption
    | split
    | with_reducible refine within_host _ ?_ (by assumption)

theorem State.vectorOf_within {W : List Part} {s0 s : State} (a1 : ℕ) (h : Within W s0 s) (h_host : Part.host ∈ W) :
    Within W s0 (State.vectorOf s a1) := by
  unfold State.vectorOf
  try dsimp only
  repeat' first
    | with_reducible assumption
    | with_reducible apply State.sendVector_within
    | with_reducible apply State.onPair_within
    | with_reducible apply within_ite

theorem State.hold_within {W : List Part} {s0 s : State} (a1 : Held) (h : Within W s0 s) (h_host : Part.host ∈ W) :
    Within W s0 (State.hold s a1) := by
  unfold State.hold
  try dsimp only
  repeat' first
    | with_reducible assumption
    | with_reducible apply within_ite
    | split
    | with_reducible refine within_host _ ?_ (by assumption)

theorem State.placeMsg_within {W : List Part} {s0 s : State} (a1 : Held) (h : Within W s0 s)
    (h_host : Part.host ∈ W) :
    Within W s0 (State.placeMsg s a1) := by
  unfold State.placeMsg
  try dsimp only
  repeat' first
    | with_reducible assumption
    | with_reducible apply State.hold_within
    | with_reducible apply State.onPair_within
    | with_reducible apply within_ite

theorem State.reportTo_within {W : List Part} {s0 s : State} (a1 : ℕ) (a2 : List ℕ) (h : Within W s0 s)
    (h_host : Part.host ∈ W) :
    Within W s0 (State.reportTo s a1 a2) := by
  unfold State.reportTo
  try dsimp only
  repeat' first
    | with_reducible assumption
    | with_reducible apply State.placeMsg_within
    | with_reducible apply within_foldl
    | with_reducible apply within_foldl2
    | (with_reducible intro u x hu; try dsimp only)

theorem State.reportFault_within {W : List Part} {s0 s : State} (h : Within W s0 s) (h_host : Part.host ∈ W)
    (h_mgmt : Part.mgmt ∈ W) :
    Within W s0 (State.reportFault s) := by
  unfold State.reportFault
  try dsimp only
  repeat' first
    | with_reducible assumption
    | with_reducible apply State.vectorOf_within
    | with_reducible apply State.reportTo_within
    | with_reducible apply within_foldl
    | with_reducible apply within_foldl2
    | (with_reducible intro u x hu; try dsimp only)
    | split
    | with_reducible refine within_mgmt _ ?_ (by assumption)

theorem State.haltSlices_within {W : List Part} {s0 s : State} (h : Within W s0 s) (h_mem : Part.mem ∈ W)
    (h_host : Part.host ∈ W) :
    Within W s0 (State.haltSlices s) := by
  unfold State.haltSlices
  try dsimp only
  repeat' first
    | with_reducible assumption
    | split
    | with_reducible refine within_mem_host _ _ ?_ (by assumption) (by assumption)

theorem State.deviceFault_within {W : List Part} {s0 s : State} (a1 : ℕ) (h : Within W s0 s)
    (h_cores : Part.cores ∈ W) (h_mem : Part.mem ∈ W) (h_ports : Part.ports ∈ W) (h_fab : Part.fab ∈ W)
    (h_host : Part.host ∈ W) (h_jobs : Part.jobs ∈ W) (h_flash : Part.flash ∈ W) (h_mgmt : Part.mgmt ∈ W)
    (h_pwr : Part.pwr ∈ W) :
    Within W s0 (State.deviceFault s a1) := by
  unfold State.deviceFault
  try dsimp only
  repeat' first
    | with_reducible assumption
    | with_reducible apply State.quiesceAll_within
    | with_reducible apply State.loseRanges_within
    | with_reducible apply State.logErr_within
    | with_reducible apply State.bankedFailed_within
    | with_reducible apply State.reportFault_within
    | with_reducible apply State.haltSlices_within
    | with_reducible apply within_ite
    | split
    | with_reducible refine within_flash _ ?_ (by assumption)
    | with_reducible refine within_mgmt _ ?_ (by assumption)
    | with_reducible refine within_flash_mgmt _ _ ?_ (by assumption) (by assumption)
    | with_reducible refine within_cores_fab_jobs_mgmt _ _ _ _ ?_ (by assumption) (by assumption) (by assumption) (by assumption)

theorem State.at_within {W : List Part} {s0 s : State} (a1 : ℕ) (h : Within W s0 s) (h_clk : Part.clk ∈ W) :
    Within W s0 (State.at_ s a1) := by
  unfold State.at_
  try dsimp only
  repeat' first
    | with_reducible assumption
    | split
    | with_reducible refine within_clk _ ?_ (by assumption)

theorem execThermalTrip_within {W : List Part} {s0 s : State} (a0 : Fin 160) (a1 : ℕ) (h : Within W s0 s)
    (h_cores : Part.cores ∈ W) (h_mem : Part.mem ∈ W) (h_ports : Part.ports ∈ W) (h_fab : Part.fab ∈ W)
    (h_host : Part.host ∈ W) (h_jobs : Part.jobs ∈ W) (h_flash : Part.flash ∈ W) (h_mgmt : Part.mgmt ∈ W)
    (h_pwr : Part.pwr ∈ W) (h_clk : Part.clk ∈ W) (h_thm : Part.thm ∈ W) :
    WithinR W s0 (execThermalTrip a0 a1 s) := by
  unfold execThermalTrip
  try dsimp only
  repeat' first
    | with_reducible assumption
    | with_reducible apply State.deviceFault_within
    | with_reducible apply State.at_within
    | with_reducible apply withinR_next
    | split
    | with_reducible refine within_thm _ ?_ (by assumption)

theorem State.onQueue_within {W : List Part} {s0 s : State} (a1 : ℕ) (a2 : ℕ) (a3 : Queue → Queue)
    (h : Within W s0 s) (h_cores : Part.cores ∈ W) :
    Within W s0 (State.onQueue s a1 a2 a3) := by
  unfold State.onQueue
  try dsimp only
  repeat' first
    | with_reducible assumption
    | with_reducible apply State.onSeq_within

theorem State.onArray_within {W : List Part} {s0 s : State} (a1 : ℕ) (a2 : Arr) (a3 : ArrayU → ArrayU)
    (h : Within W s0 s) (h_cores : Part.cores ∈ W) :
    Within W s0 (State.onArray s a1 a2 a3) := by
  unfold State.onArray
  try dsimp only
  repeat' first
    | with_reducible assumption
    | with_reducible apply State.onCore_within

theorem State.queueTile_within {W : List Part} {s0 s : State} (a1 : ℕ) (a2 : ℕ × ℕ) (h : Within W s0 s)
    (h_cores : Part.cores ∈ W) :
    Within W s0 (State.queueTile s a1 a2) := by
  unfold State.queueTile
  try dsimp only
  repeat' first
    | with_reducible assumption
    | with_reducible apply State.onArray_within
    | with_reducible apply State.onSeq_within
    | with_reducible apply within_ite

theorem State.drainPump_within {W : List Part} {s0 s : State} (a1 : ℕ) (h : Within W s0 s)
    (h_cores : Part.cores ∈ W) :
    Within W s0 (State.drainPump s a1) := by
  unfold State.drainPump
  try dsimp only
  repeat' first
    | with_reducible assumption
    | with_reducible apply State.queueTile_within
    | with_reducible apply within_foldl
    | with_reducible apply within_foldl2
    | (with_reducible intro u x hu; try dsimp only)

theorem State.unreserve_within {W : List Part} {s0 s : State} (a1 : ℕ) (a2 : ℕ) (a3 : ℕ) (h : Within W s0 s)
    (h_cores : Part.cores ∈ W) :
    Within W s0 (State.unreserve s a1 a2 a3) := by
  unfold State.unreserve
  try dsimp only
  repeat' first
    | with_reducible assumption
    | with_reducible apply State.onQueue_within
    | with_reducible apply State.drainPump_within

theorem State.pushOuts_within {W : List Part} {s0 s : State} (a1 : ℕ) (a2 : Begun) (a3 : Bool) (h : Within W s0 s)
    (h_cores : Part.cores ∈ W) :
    Within W s0 (State.pushOuts s a1 a2 a3) := by
  unfold State.pushOuts
  try dsimp only
  repeat' first
    | with_reducible assumption
    | with_reducible apply State.onQueue_within
    | with_reducible apply State.unreserve_within
    | with_reducible apply State.onCore_within
    | with_reducible apply within_ite
    | with_reducible apply within_foldl
    | with_reducible apply within_foldl2
    | (with_reducible intro u x hu; try dsimp only)

theorem State.noteShape_within {W : List Part} {s0 s : State} (a1 : ℕ) (a2 : WinHdr) (h : Within W s0 s)
    (h_cores : Part.cores ∈ W) :
    Within W s0 (State.noteShape s a1 a2) := by
  unfold State.noteShape
  try dsimp only
  repeat' first
    | with_reducible assumption
    | with_reducible apply State.onSeq_within

theorem State.onEng_within {W : List Part} {s0 s : State} (a1 : ℕ) (a2 : Eng) (a3 : Engine → Engine)
    (h : Within W s0 s) (h_cores : Part.cores ∈ W) :
    Within W s0 (State.onEng s a1 a2 a3) := by
  unfold State.onEng
  try dsimp only
  repeat' first
    | with_reducible assumption
    | with_reducible apply State.onSeq_within

theorem State.returnOuts_within {W : List Part} {s0 s : State} (a1 : ℕ) (a2 : List (ℕ × ℕ)) (h : Within W s0 s)
    (h_cores : Part.cores ∈ W) :
    Within W s0 (State.returnOuts s a1 a2) := by
  unfold State.returnOuts
  try dsimp only
  repeat' first
    | with_reducible assumption
    | with_reducible apply State.unreserve_within
    | with_reducible apply State.onScp_within
    | with_reducible apply within_foldl
    | with_reducible apply within_foldl2
    | (with_reducible intro u x hu; try dsimp only)

theorem State.goOutAll_within {W : List Part} {s0 s : State} (h : Within W s0 s) (h_ports : Part.ports ∈ W)
    (h_fab : Part.fab ∈ W) :
    Within W s0 (State.goOutAll s) := by
  unfold State.goOutAll
  try dsimp only
  repeat' first
    | with_reducible assumption
    | with_reducible apply State.goOut_within
    | with_reducible apply within_ite
    | with_reducible apply within_foldl
    | with_reducible apply within_foldl2
    | (with_reducible intro u x hu; try dsimp only)

theorem State.disown_within {W : List Part} {s0 s : State} (a1 : ℕ) (a2 : Eng) (h : Within W s0 s)
    (h_ports : Part.ports ∈ W) (h_fab : Part.fab ∈ W) :
    Within W s0 (State.disown s a1 a2) := by
  unfold State.disown
  try dsimp only
  repeat' first
    | with_reducible assumption
    | with_reducible apply State.goOutAll_within
    | with_reducible apply within_ite
    | split
    | with_reducible refine within_fab _ ?_ (by assumption)

theorem State.dropPort_within {W : List Part} {s0 s : State} (a1 : ℕ) (a2 : ℕ) (a3 : ℕ) (h : Within W s0 s)
    (h_cores : Part.cores ∈ W) :
    Within W s0 (State.dropPort s a1 a2 a3) := by
  unfold State.dropPort
  try dsimp only
  repeat' first
    | with_reducible assumption
    | split
    | with_reducible refine within_cores _ ?_ (by assumption)

theorem State.dropCommand_within {W : List Part} {s0 s : State} (a1 : ℕ) (a2 : Eng) (a3 : Begun)
    (h : Within W s0 s) (h_cores : Part.cores ∈ W) (h_ports : Part.ports ∈ W) (h_fab : Part.fab ∈ W) :
    Within W s0 (State.dropCommand s a1 a2 a3) := by
  unfold State.dropCommand
  try dsimp only
  repeat' first
    | with_reducible assumption
    | with_reducible apply State.onEng_within
    | with_reducible apply State.returnOuts_within
    | with_reducible apply State.disown_within
    | with_reducible apply State.dropPort_within

theorem State.fieldFail_within {W : List Part} {s0 s : State} (a1 : FieldFail) (a2 : ℕ) (a3 : ℕ) (a4 : ℕ)
    (h : Within W s0 s) (h_flash : Part.flash ∈ W) :
    Within W s0 (State.fieldFail s a1 a2 a3 a4) := by
  unfold State.fieldFail
  try dsimp only
  repeat' first
    | with_reducible assumption
    | with_reducible apply State.logErr_within
    | with_reducible apply within_ite
    | split
    | with_reducible refine within_flash _ ?_ (by assumption)

theorem State.markSuspect_within {W : List Part} {s0 s : State} (a1 : ℕ) (a2 : ℕ) (h : Within W s0 s)
    (h_cores : Part.cores ∈ W) (h_flash : Part.flash ∈ W) :
    Within W s0 (State.markSuspect s a1 a2) := by
  unfold State.markSuspect
  try dsimp only
  repeat' first
    | with_reducible assumption
    | with_reducible apply State.logErr_within
    | with_reducible apply State.fieldFail_within
    | with_reducible apply State.onCore_within
    | with_reducible apply within_ite

theorem State.onInteg_within {W : List Part} {s0 s : State} (a1 : ℕ) (a2 : Integrity → Integrity)
    (h : Within W s0 s) (h_cores : Part.cores ∈ W) :
    Within W s0 (State.onInteg s a1 a2) := by
  unfold State.onInteg
  try dsimp only
  repeat' first
    | with_reducible assumption
    | with_reducible apply State.onCore_within

theorem State.countReplay_within {W : List Part} {s0 s : State} (a1 : ℕ) (a2 : Eng) (a3 : ℕ) (a4 : Word)
    (h : Within W s0 s) (h_cores : Part.cores ∈ W) (h_flash : Part.flash ∈ W) :
    Within W s0 (State.countReplay s a1 a2 a3 a4) := by
  unfold State.countReplay
  try dsimp only
  repeat' first
    | with_reducible assumption
    | with_reducible apply State.markSuspect_within
    | with_reducible apply State.onInteg_within
    | with_reducible apply within_ite

theorem State.onJob_within {W : List Part} {s0 s : State} (a1 : ℕ) (a2 : Job → Job) (h : Within W s0 s)
    (h_jobs : Part.jobs ∈ W) :
    Within W s0 (State.onJob s a1 a2) := by
  unfold State.onJob
  try dsimp only
  repeat' first
    | with_reducible assumption
    | split
    | with_reducible refine within_jobs _ ?_ (by assumption)

theorem State.noteStop_within {W : List Part} {s0 s : State} (a1 : ℕ) (h : Within W s0 s) (h_jobs : Part.jobs ∈ W) :
    Within W s0 (State.noteStop s a1) := by
  unfold State.noteStop
  try dsimp only
  repeat' first
    | with_reducible assumption
    | with_reducible apply State.onJob_within
    | with_reducible apply within_ite
    | split

theorem State.failAt_within {W : List Part} {s0 s : State} (a1 : ℕ) (a2 : Eng) (a3 : ℕ) (a4 : Word)
    (h : Within W s0 s) (h_cores : Part.cores ∈ W) (h_jobs : Part.jobs ∈ W) :
    Within W s0 (State.failAt s a1 a2 a3 a4) := by
  unfold State.failAt
  try dsimp only
  repeat' first
    | with_reducible assumption
    | with_reducible apply State.noteStop_within
    | with_reducible apply State.onSeq_within

end Sys2Proof.Machine
end

