-- ==== Sys2Proof/Laws/Frames1.lean ====
section
/-! SUPPORT. For each operation and meaning, in dependency order (part 2 of 10): the parts of the state it can
change. -/

namespace Sys2Proof.Machine

theorem State.secondFailure_within {W : List Part} {s0 s : State} (a1 : ℕ) (a2 : Eng) (a3 : ℕ) (a4 : ℕ)
    (a5 : Word) (h : Within W s0 s) (h_cores : Part.cores ∈ W) (h_jobs : Part.jobs ∈ W) (h_flash : Part.flash ∈ W) :
    Within W s0 (State.secondFailure s a1 a2 a3 a4 a5) := by
  unfold State.secondFailure
  try dsimp only
  repeat' first
    | with_reducible assumption
    | with_reducible apply State.markSuspect_within
    | with_reducible apply State.onInteg_within
    | with_reducible apply State.failAt_within

theorem State.onBegun_within {W : List Part} {s0 s : State} (a1 : ℕ) (a2 : Eng) (a3 : ℕ) (a4 : Begun → Begun)
    (h : Within W s0 s) (h_cores : Part.cores ∈ W) :
    Within W s0 (State.onBegun s a1 a2 a3 a4) := by
  unfold State.onBegun
  try dsimp only
  repeat' first
    | with_reducible assumption
    | with_reducible apply State.onEng_within

theorem State.failRequest_within {W : List Part} {s0 s : State} (a1 : ℕ) (a2 : Eng) (a3 : Begun) (a4 : ℕ)
    (h : Within W s0 s) (h_cores : Part.cores ∈ W) (h_ports : Part.ports ∈ W) (h_fab : Part.fab ∈ W)
    (h_jobs : Part.jobs ∈ W) (h_flash : Part.flash ∈ W) :
    Within W s0 (State.failRequest s a1 a2 a3 a4) := by
  unfold State.failRequest
  try dsimp only
  repeat' first
    | with_reducible assumption
    | with_reducible apply State.dropCommand_within
    | with_reducible apply State.countReplay_within
    | with_reducible apply State.secondFailure_within
    | with_reducible apply State.onBegun_within
    | with_reducible apply within_ite

theorem accessHold_within {W : List Part} {s0 s : State} (a1 : Ctx) (a2 : List (ℕ × ℕ)) (a3 : List (ℕ × ℕ))
    (h : Within W s0 s) (h_cores : Part.cores ∈ W) :
    WithinP W s0 (accessHold s a1 a2 a3) := by
  unfold accessHold
  try dsimp only
  repeat' first
    | with_reducible assumption
    | with_reducible apply State.onScp_within
    | with_reducible apply within_ite
    | with_reducible apply withinO_bind
    | with_reducible refine WithinO.out (o := Option.bind _ _) ?_ (by assumption)
    | with_reducible intro u hu
    | with_reducible apply withinP_map
    | with_reducible exact withinP_none
    | with_reducible apply withinP_some
    | split

theorem tileHold_within {W : List Part} {s0 s : State} (a1 : Ctx) (a2 : List (ℕ × ℕ × ℕ)) (h : Within W s0 s)
    (h_cores : Part.cores ∈ W) :
    WithinP W s0 (tileHold s a1 a2) := by
  unfold tileHold
  try dsimp only
  repeat' first
    | with_reducible assumption
    | with_reducible apply accessHold_within
    | with_reducible refine WithinP.out (o := accessHold _ _ _ _) ?_ (by assumption)
    | with_reducible apply within_ite
    | with_reducible apply within_getD
    | with_reducible apply withinO_bind
    | with_reducible refine WithinO.out (o := Option.bind _ _) ?_ (by assumption)
    | with_reducible intro u hu
    | with_reducible apply withinP_map
    | with_reducible exact withinP_none
    | with_reducible apply withinP_some
    | split

theorem State.recountPeers_within {W : List Part} {s0 s : State} (h : Within W s0 s) (h_fab : Part.fab ∈ W) :
    Within W s0 (State.recountPeers s) := by
  unfold State.recountPeers
  try dsimp only
  repeat' first
    | with_reducible assumption
    | with_reducible apply within_ite
    | with_reducible apply within_foldl
    | with_reducible apply within_foldl2
    | (with_reducible intro u x hu; try dsimp only)
    | split
    | with_reducible refine within_fab _ ?_ (by assumption)

theorem State.sendPlain_within {W : List Part} {s0 s : State} (a1 : ℕ) (a2 : ℕ) (a3 : BitVec 32) (a4 : BitVec 256)
    (a5 : List Byte) (h : Within W s0 s) (h_ports : Part.ports ∈ W) (h_fab : Part.fab ∈ W) :
    Within W s0 (State.sendPlain s a1 a2 a3 a4 a5) := by
  unfold State.sendPlain
  try dsimp only
  repeat' first
    | with_reducible assumption
    | with_reducible apply State.wire_within

theorem State.sendSetup_within {W : List Part} {s0 s : State} (a1 : ℕ) (h : Within W s0 s)
    (h_ports : Part.ports ∈ W) (h_fab : Part.fab ∈ W) :
    Within W s0 (State.sendSetup s a1) := by
  unfold State.sendSetup
  try dsimp only
  repeat' first
    | with_reducible assumption
    | with_reducible apply State.sendPlain_within
    | with_reducible apply State.onFlow_within

theorem State.dropShadows_within {W : List Part} {s0 s : State} (a1 : GrpKey) (h : Within W s0 s)
    (h_mem : Part.mem ∈ W) :
    Within W s0 (State.dropShadows s a1) := by
  unfold State.dropShadows
  try dsimp only
  repeat' first
    | with_reducible assumption
    | split
    | with_reducible refine within_mem _ ?_ (by assumption)

theorem State.settleFlow_within {W : List Part} {s0 s : State} (a1 : ℕ) (h : Within W s0 s)
    (h_cores : Part.cores ∈ W) (h_fab : Part.fab ∈ W) :
    Within W s0 (State.settleFlow s a1) := by
  unfold State.settleFlow
  try dsimp only
  repeat' first
    | with_reducible assumption
    | with_reducible apply State.onFlow_within
    | with_reducible apply State.raiseAll_within

theorem State.abortHandles_within {W : List Part} {s0 s : State} (a1 : ℕ) (h : Within W s0 s)
    (h_cores : Part.cores ∈ W) (h_mem : Part.mem ∈ W) (h_fab : Part.fab ∈ W) :
    Within W s0 (State.abortHandles s a1) := by
  unfold State.abortHandles
  try dsimp only
  repeat' first
    | with_reducible assumption
    | with_reducible apply State.dropShadows_within
    | with_reducible apply State.resolveRx_within
    | with_reducible refine within_fst (x := State.resolveRx _ _ _ _) ?_ (by assumption)
    | with_reducible apply State.settleFlow_within
    | with_reducible apply State.onFlow_within
    | with_reducible apply within_foldl
    | with_reducible apply within_foldl2
    | (with_reducible intro u x hu; try dsimp only)
    | split
    | with_reducible refine within_fab _ ?_ (by assumption)

theorem State.evictFlow_within {W : List Part} {s0 s : State} (a1 : ℕ) (h : Within W s0 s)
    (h_cores : Part.cores ∈ W) (h_mem : Part.mem ∈ W) (h_ports : Part.ports ∈ W) (h_fab : Part.fab ∈ W) :
    Within W s0 (State.evictFlow s a1) := by
  unfold State.evictFlow
  try dsimp only
  repeat' first
    | with_reducible assumption
    | with_reducible apply State.abortHandles_within
    | with_reducible apply State.onFlow_within
    | with_reducible apply State.sendCtl_within

theorem State.takeFlow_within {W : List Part} {s0 s : State} (h : Within W s0 s) (h_cores : Part.cores ∈ W)
    (h_mem : Part.mem ∈ W) (h_ports : Part.ports ∈ W) (h_fab : Part.fab ∈ W) :
    WithinT W s0 (State.takeFlow s) := by
  unfold State.takeFlow
  try dsimp only
  repeat' first
    | with_reducible assumption
    | with_reducible apply State.evictFlow_within
    | with_reducible apply within_ite
    | with_reducible apply within_foldl
    | with_reducible apply within_foldl2
    | (with_reducible intro u x hu; try dsimp only)
    | with_reducible exact withinT_got _
    | with_reducible exact withinT_full
    | with_reducible apply withinT_wait
    | split
    | with_reducible refine within_fab _ ?_ (by assumption)

theorem State.startSetup_within {W : List Part} {s0 s : State} (a1 : ℕ) (a2 : BitVec 18) (h : Within W s0 s)
    (h_cores : Part.cores ∈ W) (h_mem : Part.mem ∈ W) (h_ports : Part.ports ∈ W) (h_fab : Part.fab ∈ W) :
    WithinM W s0 (State.startSetup s a1 a2) := by
  unfold State.startSetup
  try dsimp only
  repeat' first
    | with_reducible assumption
    | with_reducible apply State.recountPeers_within
    | with_reducible apply State.sendSetup_within
    | with_reducible apply State.takeFlow_within
    | with_reducible refine WithinT.out (v := State.takeFlow _) ?_ (by assumption)
    | with_reducible apply State.onFlow_within
    | with_reducible apply within_ite
    | with_reducible exact withinM_inl _
    | with_reducible apply withinM_inr
    | split

theorem State.setupRefused_within {W : List Part} {s0 s : State} (h : Within W s0 s) (h_fab : Part.fab ∈ W) :
    Within W s0 (State.setupRefused s) := by
  unfold State.setupRefused
  try dsimp only
  repeat' first
    | with_reducible assumption
    | split
    | with_reducible refine within_fab _ ?_ (by assumption)

theorem State.noteRefused_within {W : List Part} {s0 s : State} (a1 : ℕ) (h : Within W s0 s) (h_fab : Part.fab ∈ W) :
    Within W s0 (State.noteRefused s a1) := by
  unfold State.noteRefused
  try dsimp only
  repeat' first
    | with_reducible assumption
    | with_reducible apply State.setupRefused_within
    | with_reducible apply within_ite

theorem State.collRetry_within {W : List Part} {s0 s : State} (h : Within W s0 s) (h_cores : Part.cores ∈ W)
    (h_mem : Part.mem ∈ W) (h_ports : Part.ports ∈ W) (h_fab : Part.fab ∈ W) :
    Within W s0 (State.collRetry s) := by
  unfold State.collRetry
  try dsimp only
  repeat' first
    | with_reducible assumption
    | with_reducible apply State.startSetup_within
    | with_reducible refine WithinM.out (v := State.startSetup _ _ _) ?_ (by assumption)
    | with_reducible apply State.noteRefused_within
    | with_reducible apply within_ite
    | with_reducible apply within_foldl
    | with_reducible apply within_foldl2
    | (with_reducible intro u x hu; try dsimp only)
    | split

theorem State.onOptic_within {W : List Part} {s0 s : State} (a1 : ℕ) (a2 : Optic → Optic) (h : Within W s0 s)
    (h_optics : Part.optics ∈ W) :
    Within W s0 (State.onOptic s a1 a2) := by
  unfold State.onOptic
  try dsimp only
  repeat' first
    | with_reducible assumption
    | split
    | with_reducible refine within_optics _ ?_ (by assumption)

theorem State.opticDown_within {W : List Part} {s0 s : State} (a1 : ℕ) (h : Within W s0 s)
    (h_ports : Part.ports ∈ W) (h_fab : Part.fab ∈ W) :
    Within W s0 (State.opticDown s a1) := by
  unfold State.opticDown
  try dsimp only
  repeat' first
    | with_reducible assumption
    | with_reducible apply State.onPort_within
    | with_reducible apply State.portTo_within
    | with_reducible apply within_ite
    | with_reducible apply within_foldl
    | with_reducible apply within_foldl2
    | (with_reducible intro u x hu; try dsimp only)

theorem execOpticsRailFail_within {W : List Part} {s0 s : State} (a0 : Fin 8) (h : Within W s0 s)
    (h_ports : Part.ports ∈ W) (h_optics : Part.optics ∈ W) (h_fab : Part.fab ∈ W) :
    WithinR W s0 (execOpticsRailFail a0 s) := by
  unfold execOpticsRailFail
  try dsimp only
  repeat' first
    | with_reducible assumption
    | with_reducible apply State.onOptic_within
    | with_reducible apply State.opticDown_within
    | with_reducible apply withinR_next

theorem execSmbusMirrorRefresh_within {W : List Part} {s0 s : State} (a0 : ℕ) (h : Within W s0 s)
    (h_clk : Part.clk ∈ W) (h_pins : Part.pins ∈ W) :
    WithinR W s0 (execSmbusMirrorRefresh a0 s) := by
  unfold execSmbusMirrorRefresh
  try dsimp only
  repeat' first
    | with_reducible assumption
    | with_reducible apply State.at_within
    | with_reducible apply within_ite
    | with_reducible apply within_foldl
    | with_reducible apply within_foldl2
    | (with_reducible intro u x hu; try dsimp only)
    | with_reducible apply withinR_ite
    | with_reducible apply withinR_next
    | split
    | with_reducible refine within_pins _ ?_ (by assumption)

theorem State.creditEffect_within {W : List Part} {s0 s : State} (a1 : ℕ) (a2 : BitVec 6) (a3 : BitVec 12)
    (a4 : BitVec 16) (a5 : Bool) (a6 : BitVec 32) (h : Within W s0 s) (h_cores : Part.cores ∈ W)
    (h_ports : Part.ports ∈ W) (h_fab : Part.fab ∈ W) :
    Within W s0 (State.creditEffect s a1 a2 a3 a4 a5 a6) := by
  unfold State.creditEffect
  try dsimp only
  repeat' first
    | with_reducible assumption
    | with_reducible apply State.sendCtl_within
    | with_reducible apply State.onFlow_within
    | with_reducible apply State.onSeq_within
    | with_reducible apply within_ite
    | split

theorem State.commitShadows_within {W : List Part} {s0 s : State} (a1 : GrpKey) (h : Within W s0 s)
    (h_mem : Part.mem ∈ W) :
    Within W s0 (State.commitShadows s a1) := by
  unfold State.commitShadows
  try dsimp only
  repeat' first
    | with_reducible assumption
    | with_reducible apply within_ite
    | split
    | with_reducible refine within_mem _ ?_ (by assumption)

theorem State.endHandle_within {W : List Part} {s0 s : State} (a1 : Handle) (a2 : Bool) (h : Within W s0 s)
    (h_cores : Part.cores ∈ W) (h_mem : Part.mem ∈ W) (h_fab : Part.fab ∈ W) :
    Within W s0 (State.endHandle s a1 a2) := by
  unfold State.endHandle
  try dsimp only
  repeat' first
    | with_reducible assumption
    | with_reducible apply State.dropShadows_within
    | with_reducible apply State.commitShadows_within
    | with_reducible apply State.resolveRx_within
    | with_reducible refine within_fst (x := State.resolveRx _ _ _ _) ?_ (by assumption)
    | with_reducible apply State.settleFlow_within
    | with_reducible apply State.onFlow_within
    | with_reducible apply within_ite
    | split
    | with_reducible refine within_fab _ ?_ (by assumption)

theorem State.groupEffect_within {W : List Part} {s0 s : State} (a1 : ℕ) (a2 : BitVec 6) (a3 : BitVec 12)
    (a4 : Bool) (h : Within W s0 s) (h_cores : Part.cores ∈ W) (h_mem : Part.mem ∈ W) (h_fab : Part.fab ∈ W) :
    Within W s0 (State.groupEffect s a1 a2 a3 a4) := by
  unfold State.groupEffect
  try dsimp only
  repeat' first
    | with_reducible assumption
    | with_reducible apply State.endHandle_within
    | with_reducible apply within_ite
    | split
    | with_reducible refine within_fab _ ?_ (by assumption)

theorem State.entryStruck_within {W : List Part} {s0 s : State} (a1 : RxXfer) (a2 : Option (BitVec 20))
    (h : Within W s0 s) (h_cores : Part.cores ∈ W) :
    Within W s0 (State.entryStruck s a1 a2).2 := by
  unfold State.entryStruck
  try dsimp only
  repeat' first
    | with_reducible assumption
    | with_reducible apply State.onQueue_within
    | with_reducible apply State.onInteg_within
    | split

theorem State.strikeWith_within {W : List Part} {s0 s : State} (a0 : ℕ) (a2 : ℕ) (a3 : Begun) (h : Within W s0 s)
    (h_cores : Part.cores ∈ W) (h_ports : Part.ports ∈ W) (h_fab : Part.fab ∈ W) :
    Within W s0 (State.strikeWith a0 s a2 a3) := by
  induction a0 generalizing s a2 a3 with
  | zero =>
    unfold State.strikeWith
    try dsimp only
    repeat' first
      | with_reducible assumption
  | succ k ih =>
    unfold State.strikeWith
    try dsimp only
    repeat' first
      | with_reducible assumption
      | with_reducible apply ih
      | with_reducible apply State.returnOuts_within
      | with_reducible apply State.disown_within
      | with_reducible apply State.onInteg_within
      | with_reducible apply State.sendCtl_within
      | with_reducible apply State.dropPort_within
      | with_reducible apply State.entryStruck_within
      | with_reducible refine within_pair (x := State.entryStruck _ _ _) ?_ (by assumption)
      | with_reducible apply State.onBegun_within
      | with_reducible apply within_ite
      | with_reducible apply within_foldl
      | with_reducible apply within_foldl2
      | (with_reducible intro u x hu; try dsimp only)
      | split
      | with_reducible refine within_fab _ ?_ (by assumption)

theorem State.strikeChain_within {W : List Part} {s0 s : State} (a1 : ℕ) (a2 : Begun) (h : Within W s0 s)
    (h_cores : Part.cores ∈ W) (h_ports : Part.ports ∈ W) (h_fab : Part.fab ∈ W) :
    Within W s0 (State.strikeChain s a1 a2) := by
  unfold State.strikeChain
  try dsimp only
  repeat' first
    | with_reducible assumption
    | with_reducible apply State.strikeWith_within

theorem State.strikeEffect_within {W : List Part} {s0 s : State} (a1 : ℕ) (a2 : BitVec 32) (a3 : BitVec 24)
    (h : Within W s0 s) (h_cores : Part.cores ∈ W) (h_ports : Part.ports ∈ W) (h_fab : Part.fab ∈ W) :
    Within W s0 (State.strikeEffect s a1 a2 a3) := by
  unfold State.strikeEffect
  try dsimp only
  repeat' first
    | with_reducible assumption
    | with_reducible apply State.strikeChain_within
    | with_reducible apply State.onFlow_within
    | with_reducible apply State.entryStruck_within
    | with_reducible refine within_pair (x := State.entryStruck _ _ _) ?_ (by assumption)
    | with_reducible apply State.onSeq_within
    | with_reducible apply within_ite
    | with_reducible apply within_foldl
    | with_reducible apply within_foldl2
    | (with_reducible intro u x hu; try dsimp only)
    | split

theorem State.touchEffect_within {W : List Part} {s0 s : State} (a1 : ℕ) (a2 : BitVec 24) (h : Within W s0 s)
    (h_fab : Part.fab ∈ W) :
    Within W s0 (State.touchEffect s a1 a2) := by
  unfold State.touchEffect
  try dsimp only
  repeat' first
    | with_reducible assumption
    | with_reducible apply State.onFlow_within

theorem State.sendAck_within {W : List Part} {s0 s : State} (a1 : ℕ) (a2 : Option (BitVec 8 × BitVec 32))
    (h : Within W s0 s) (h_ports : Part.ports ∈ W) (h_fab : Part.fab ∈ W) :
    Within W s0 (State.sendAck s a1 a2) := by
  unfold State.sendAck
  try dsimp only
  repeat' first
    | with_reducible assumption
    | with_reducible apply State.sendPlain_within
    | with_reducible apply State.onFlow_within
    | with_reducible apply within_ite

theorem State.freeFlowAt_within {W : List Part} {s0 s : State} (a1 : ℕ) (h : Within W s0 s)
    (h_cores : Part.cores ∈ W) (h_mem : Part.mem ∈ W) (h_ports : Part.ports ∈ W) (h_fab : Part.fab ∈ W) :
    Within W s0 (State.freeFlowAt s a1) := by
  unfold State.freeFlowAt
  try dsimp only
  repeat' first
    | with_reducible assumption
    | with_reducible apply State.recountPeers_within
    | with_reducible apply State.collRetry_within
    | with_reducible apply State.onFlow_within

theorem State.creditRelease_within {W : List Part} {s0 s : State} (a1 : ℕ) (a2 : ℕ) (h : Within W s0 s)
    (h_cores : Part.cores ∈ W) (h_ports : Part.ports ∈ W) (h_fab : Part.fab ∈ W) :
    Within W s0 (State.creditRelease s a1 a2) := by
  unfold State.creditRelease
  try dsimp only
  repeat' first
    | with_reducible assumption
    | with_reducible apply State.sendCtl_within
    | with_reducible apply State.onSeq_within
    | split

theorem State.releaseEntry_within {W : List Part} {s0 s : State} (a1 : ℕ) (a2 : ℕ) (a3 : ℕ) (h : Within W s0 s)
    (h_cores : Part.cores ∈ W) (h_ports : Part.ports ∈ W) (h_fab : Part.fab ∈ W) :
    Within W s0 (State.releaseEntry s a1 a2 a3) := by
  unfold State.releaseEntry
  try dsimp only
  repeat' first
    | with_reducible assumption
    | with_reducible apply State.drainPump_within
    | with_reducible apply State.onQueue_within
    | with_reducible apply State.creditRelease_within
    | with_reducible apply within_ite

theorem State.failBegun_within {W : List Part} {s0 s : State} (a1 : ℕ) (a2 : Eng) (a3 : ℕ) (a4 : Option ℕ)
    (h : Within W s0 s) (h_cores : Part.cores ∈ W) (h_jobs : Part.jobs ∈ W) :
    Within W s0 (State.failBegun s a1 a2 a3 a4) := by
  unfold State.failBegun
  try dsimp only
  repeat' first
    | with_reducible assumption
    | with_reducible apply State.failAt_within

theorem State.failXfer_within {W : List Part} {s0 s : State} (a1 : ℕ) (a2 : Eng) (a3 : ℕ) (h : Within W s0 s)
    (h_cores : Part.cores ∈ W) (h_ports : Part.ports ∈ W) (h_fab : Part.fab ∈ W) (h_jobs : Part.jobs ∈ W) :
    Within W s0 (State.failXfer s a1 a2 a3) := by
  unfold State.failXfer
  try dsimp only
  repeat' first
    | with_reducible assumption
    | with_reducible apply State.onEng_within
    | with_reducible apply State.returnOuts_within
    | with_reducible apply State.releaseEntry_within
    | with_reducible apply State.disown_within
    | with_reducible apply State.failBegun_within
    | with_reducible apply within_foldl
    | with_reducible apply within_foldl2
    | (with_reducible intro u x hu; try dsimp only)
    | split

theorem State.stopJob_within {W : List Part} {s0 s : State} (a1 : ℕ) (a2 : StopCause) (h : Within W s0 s)
    (h_cores : Part.cores ∈ W) (h_jobs : Part.jobs ∈ W) :
    Within W s0 (State.stopJob s a1 a2) := by
  unfold State.stopJob
  try dsimp only
  repeat' first
    | with_reducible assumption
    | with_reducible apply State.onSeq_within
    | with_reducible apply State.onJob_within
    | with_reducible apply within_ite
    | with_reducible apply within_foldl
    | with_reducible apply within_foldl2
    | with_reducible apply within_getD
    | (with_reducible intro u x hu; try dsimp only)

theorem State.loseJob_within {W : List Part} {s0 s : State} (a1 : ℕ) (h : Within W s0 s)
    (h_cores : Part.cores ∈ W) (h_jobs : Part.jobs ∈ W) :
    Within W s0 (State.loseJob s a1) := by
  unfold State.loseJob
  try dsimp only
  repeat' first
    | with_reducible assumption
    | with_reducible apply State.stopJob_within

theorem State.leaveOpen_within {W : List Part} {s0 s : State} (a1 : ℕ) (h : Within W s0 s)
    (h_cores : Part.cores ∈ W) (h_mem : Part.mem ∈ W) (h_ports : Part.ports ∈ W) (h_fab : Part.fab ∈ W)
    (h_jobs : Part.jobs ∈ W) :
    Within W s0 (State.leaveOpen s a1) := by
  unfold State.leaveOpen
  try dsimp only
  repeat' first
    | with_reducible assumption
    | with_reducible apply State.entryStruck_within
    | with_reducible refine within_pair (x := State.entryStruck _ _ _) ?_ (by assumption)
    | with_reducible apply State.failXfer_within
    | with_reducible apply State.strikeChain_within
    | with_reducible apply State.loseJob_within
    | with_reducible apply State.abortHandles_within
    | with_reducible apply within_ite
    | with_reducible apply within_foldl
    | with_reducible apply within_foldl2
    | (with_reducible intro u x hu; try dsimp only)
    | split

theorem State.teardownEffect_within {W : List Part} {s0 s : State} (a1 : ℕ) (h : Within W s0 s)
    (h_cores : Part.cores ∈ W) (h_mem : Part.mem ∈ W) (h_ports : Part.ports ∈ W) (h_fab : Part.fab ∈ W)
    (h_jobs : Part.jobs ∈ W) :
    Within W s0 (State.teardownEffect s a1) := by
  unfold State.teardownEffect
  try dsimp only
  repeat' first
    | with_reducible assumption
    | with_reducible apply State.sendAck_within
    | with_reducible apply State.freeFlowAt_within
    | with_reducible apply State.leaveOpen_within

theorem State.onColl_within {W : List Part} {s0 s : State} (a1 : BitVec 20) (a2 : Coll → Coll) (h : Within W s0 s)
    (h_fab : Part.fab ∈ W) :
    Within W s0 (State.onColl s a1 a2) := by
  unfold State.onColl
  try dsimp only
  repeat' first
    | with_reducible assumption
    | split
    | with_reducible refine within_fab _ ?_ (by assumption)

theorem State.collSend_within {W : List Part} {s0 s : State} (a1 : BitVec 20) (a2 : BitVec 18) (a3 : Bool)
    (a4 : BitVec 32) (h : Within W s0 s) (h_cores : Part.cores ∈ W) (h_mem : Part.mem ∈ W)
    (h_ports : Part.ports ∈ W) (h_fab : Part.fab ∈ W) :
    Within W s0 (State.collSend s a1 a2 a3 a4) := by
  unfold State.collSend
  try dsimp only
  repeat' first
    | with_reducible assumption
    | with_reducible apply State.startSetup_within
    | with_reducible refine WithinM.out (v := State.startSetup _ _ _) ?_ (by assumption)
    | with_reducible apply State.onColl_within
    | with_reducible apply State.noteRefused_within
    | with_reducible apply State.sendCtl_within
    | with_reducible apply within_ite
    | split

theorem State.collComplete_within {W : List Part} {s0 s : State} (a1 : BitVec 20) (h : Within W s0 s)
    (h_cores : Part.cores ∈ W) (h_mem : Part.mem ∈ W) (h_ports : Part.ports ∈ W) (h_fab : Part.fab ∈ W) :
    Within W s0 (State.collComplete s a1) := by
  unfold State.collComplete
  try dsimp only
  repeat' first
    | with_reducible assumption
    | with_reducible apply State.collSend_within
    | with_reducible apply State.onColl_within
    | with_reducible apply within_foldl
    | with_reducible apply within_foldl2
    | (with_reducible intro u x hu; try dsimp only)

theorem State.collPump_within {W : List Part} {s0 s : State} (a1 : BitVec 20) (h : Within W s0 s)
    (h_cores : Part.cores ∈ W) (h_mem : Part.mem ∈ W) (h_ports : Part.ports ∈ W) (h_fab : Part.fab ∈ W) :
    Within W s0 (State.collPump s a1) := by
  unfold State.collPump
  try dsimp only
  repeat' first
    | with_reducible assumption
    | with_reducible apply State.collSend_within
    | with_reducible apply State.onColl_within
    | with_reducible apply State.collComplete_within
    | with_reducible apply within_ite
    | split

theorem State.barrierEffect_within {W : List Part} {s0 s : State} (a1 : ℕ) (a2 : BitVec 20) (a3 : Bool)
    (a4 : BitVec 32) (h : Within W s0 s) (h_cores : Part.cores ∈ W) (h_mem : Part.mem ∈ W)
    (h_ports : Part.ports ∈ W) (h_fab : Part.fab ∈ W) :
    Within W s0 (State.barrierEffect s a1 a2 a3 a4) := by
  unfold State.barrierEffect
  try dsimp only
  repeat' first
    | with_reducible assumption
    | with_reducible apply State.onColl_within
    | with_reducible apply State.collPump_within
    | with_reducible apply State.collComplete_within
    | with_reducible apply within_ite

theorem State.ctlEffect_within {W : List Part} {s0 s : State} (a1 : ℕ) (a2 : BitVec 32) (a3 : Ctl)
    (h : Within W s0 s) (h_cores : Part.cores ∈ W) (h_mem : Part.mem ∈ W) (h_ports : Part.ports ∈ W)
    (h_fab : Part.fab ∈ W) (h_jobs : Part.jobs ∈ W) :
    Within W s0 (State.ctlEffect s a1 a2 a3) := by
  unfold State.ctlEffect
  try dsimp only
  repeat' first
    | with_reducible assumption
    | with_reducible apply State.settleFlow_within
    | with_reducible apply State.creditEffect_within
    | with_reducible apply State.groupEffect_within
    | with_reducible apply State.strikeEffect_within
    | with_reducible apply State.touchEffect_within
    | with_reducible apply State.teardownEffect_within
    | with_reducible apply State.barrierEffect_within
    | split

theorem State.runCtl_within {W : List Part} {s0 s : State} (a1 : ℕ) (a2 : ℕ) (h : Within W s0 s)
    (h_cores : Part.cores ∈ W) (h_mem : Part.mem ∈ W) (h_ports : Part.ports ∈ W) (h_fab : Part.fab ∈ W)
    (h_jobs : Part.jobs ∈ W) :
    Within W s0 (State.runCtl s a1 a2) := by
  induction a2 generalizing s a1 with
  | zero =>
    unfold State.runCtl
    try dsimp only
    repeat' first
      | with_reducible assumption
  | succ k ih =>
    unfold State.runCtl
    try dsimp only
    repeat' first
      | with_reducible assumption
      | with_reducible apply ih
      | with_reducible apply State.onFlow_within
      | with_reducible apply State.ctlEffect_within
      | with_reducible apply within_ite
      | split

theorem State.pfcCheck_within {W : List Part} {s0 s : State} (a1 : ℕ) (a2 : ℕ) (h : Within W s0 s)
    (h_ports : Part.ports ∈ W) :
    Within W s0 (State.pfcCheck s a1 a2) := by
  unfold State.pfcCheck
  try dsimp only
  repeat' first
    | with_reducible assumption
    | with_reducible apply State.onPort_within
    | with_reducible apply within_ite

theorem State.bufTake_within {W : List Part} {s0 s : State} (a1 : ℕ) (a2 : RxFrame) (h : Within W s0 s)
    (h_ports : Part.ports ∈ W) :
    Within W s0 (State.bufTake s a1 a2) := by
  unfold State.bufTake
  try dsimp only
  repeat' first
    | with_reducible assumption
    | with_reducible apply State.pfcCheck_within
    | with_reducible apply State.onPort_within

theorem State.bufRelease_within {W : List Part} {s0 s : State} (a1 : PktHdr) (h : Within W s0 s)
    (h_ports : Part.ports ∈ W) :
    Within W s0 (State.bufRelease s a1) := by
  unfold State.bufRelease
  try dsimp only
  repeat' first
    | with_reducible assumption
    | with_reducible apply State.bufTake_within
    | split

theorem State.afterArrival_within {W : List Part} {s0 s : State} (a1 : PktHdr) (h : Within W s0 s)
    (h_cores : Part.cores ∈ W) (h_mem : Part.mem ∈ W) (h_ports : Part.ports ∈ W) (h_fab : Part.fab ∈ W)
    (h_jobs : Part.jobs ∈ W) :
    Within W s0 (State.afterArrival s a1) := by
  unfold State.afterArrival
  try dsimp only
  repeat' first
    | with_reducible assumption
    | with_reducible apply State.settleFlow_within
    | with_reducible apply State.runCtl_within
    | with_reducible apply State.bufRelease_within

theorem State.ackNote_within {W : List Part} {s0 s : State} (a1 : PktHdr) (a2 : Bool) (a3 : Option
    (BitVec 8 × BitVec 32)) (h : Within W s0 s) (h_ports : Part.ports ∈ W) (h_fab : Part.fab ∈ W) :
    Within W s0 (State.ackNote s a1 a2 a3) := by
  unfold State.ackNote
  try dsimp only
  repeat' first
    | with_reducible assumption
    | with_reducible apply State.onFlow_within
    | with_reducible apply State.sendAck_within
    | with_reducible apply within_ite

theorem State.recordArrival_within {W : List Part} {s0 s : State} (a1 : PktHdr) (a2 : Option (BitVec 8))
    (h : Within W s0 s) (h_ports : Part.ports ∈ W) (h_fab : Part.fab ∈ W) :
    Within W s0 (State.recordArrival s a1 a2) := by
  unfold State.recordArrival
  try dsimp only
  repeat' first
    | with_reducible assumption
    | with_reducible apply State.onFlow_within
    | with_reducible apply State.ackNote_within

theorem State.verdict_within {W : List Part} {s0 s : State} (a1 : PktHdr) (a2 : Bool) (h : Within W s0 s)
    (h_ports : Part.ports ∈ W) (h_fab : Part.fab ∈ W) :
    WithinV W s0 (State.verdict s a1 a2) := by
  unfold State.verdict
  try dsimp only
  repeat' first
    | with_reducible assumption
    | with_reducible apply State.bufRelease_within
    | with_reducible apply State.ackNote_within
    | with_reducible apply State.ctxUse_within
    | with_reducible refine within_pair (x := State.ctxUse _ _) ?_ (by assumption)
    | with_reducible apply within_ite
    | with_reducible apply withinV_settled
    | with_reducible apply withinV_fresh
    | split
    | with_reducible refine within_fab _ ?_ (by assumption)

theorem State.receiveCtl_within {W : List Part} {s0 s : State} (a1 : PktHdr) (a2 : Ctl) (h : Within W s0 s)
    (h_cores : Part.cores ∈ W) (h_mem : Part.mem ∈ W) (h_ports : Part.ports ∈ W) (h_fab : Part.fab ∈ W)
    (h_jobs : Part.jobs ∈ W) :
    Within W s0 (State.receiveCtl s a1 a2) := by
  unfold State.receiveCtl
  try dsimp only
  repeat' first
    | with_reducible assumption
    | with_reducible apply State.afterArrival_within
    | with_reducible apply State.recordArrival_within
    | with_reducible apply State.onFlow_within
    | with_reducible apply State.verdict_within
    | with_reducible refine WithinV.settledOut (v := State.verdict _ _ _) ?_ (by assumption)
    | with_reducible refine WithinV.freshOut (v := State.verdict _ _ _) ?_ (by assumption)
    | split

theorem State.train_within {W : List Part} {s0 s : State} (a1 : ℕ) (a2 : Bool) (h : Within W s0 s)
    (h_ports : Part.ports ∈ W) :
    Within W s0 (State.train s a1 a2) := by
  unfold State.train
  try dsimp only
  repeat' first
    | with_reducible assumption
    | with_reducible apply State.onPort_within

theorem State.stageFour_within {W : List Part} {s0 s : State} (a1 : ℕ) (a2 : Boot) (h : Within W s0 s)
    (h_ports : Part.ports ∈ W) (h_optics : Part.optics ∈ W) :
    Within W s0 (State.stageFour s a1 a2) := by
  unfold State.stageFour
  try dsimp only
  repeat' first
    | with_reducible assumption
    | with_reducible apply State.train_within
    | with_reducible apply State.onOptic_within
    | with_reducible apply State.onPort_within
    | with_reducible apply within_ite
    | with_reducible apply within_foldl
    | with_reducible apply within_foldl2
    | with_reducible apply within_getD
    | (with_reducible intro u x hu; try dsimp only)

theorem State.restartConfig_within {W : List Part} {s0 s : State} (a1 : Bool) (h : Within W s0 s)
    (h_cfg : Part.cfg ∈ W) :
    Within W s0 (State.restartConfig s a1) := by
  unfold State.restartConfig
  try dsimp only
  repeat' first
    | with_reducible assumption
    | with_reducible apply within_ite
    | split
    | with_reducible refine within_cfg _ ?_ (by assumption)

theorem State.enterAbsent_within {W : List Part} {s0 s : State} (h : Within W s0 s) (h_host : Part.host ∈ W) :
    Within W s0 (State.enterAbsent s) := by
  unfold State.enterAbsent
  try dsimp only
  repeat' first
    | with_reducible assumption
    | with_reducible apply within_ite
    | split
    | with_reducible refine within_host _ ?_ (by assumption)

theorem State.adoptReg_within {W : List Part} {s0 s : State} (a1 : ℕ) (a2 : Word) (h : Within W s0 s)
    (h_cfg : Part.cfg ∈ W) :
    Within W s0 (State.adoptReg s a1 a2) := by
  unfold State.adoptReg
  try dsimp only
  repeat' first
    | with_reducible assumption
    | with_reducible apply within_ite
    | split
    | with_reducible refine within_cfg _ ?_ (by assumption)

theorem State.dropAperture_within {W : List Part} {s0 s : State} (h : Within W s0 s) (h_cfg : Part.cfg ∈ W) :
    Within W s0 (State.dropAperture s) := by
  unfold State.dropAperture
  try dsimp only
  repeat' first
    | with_reducible assumption
    | with_reducible apply State.adoptReg_within
    | with_reducible apply within_ite
    | with_reducible apply within_foldl
    | with_reducible apply within_foldl2
    | (with_reducible intro u x hu; try dsimp only)

theorem State.redFlags_within {W : List Part} {s0 s : State} (a1 : ℕ) (a2 : Word) (h : Within W s0 s)
    (h_cores : Part.cores ∈ W) :
    Within W s0 (State.redFlags s a1 a2) := by
  unfold State.redFlags
  try dsimp only
  repeat' first
    | with_reducible assumption
    | with_reducible apply State.onInteg_within

theorem State.setUnitPoison_within {W : List Part} {s0 s : State} (a1 : ℕ) (a2 : Bool) (h : Within W s0 s)
    (h_mem : Part.mem ∈ W) :
    Within W s0 (State.setUnitPoison s a1 a2) := by
  unfold State.setUnitPoison
  try dsimp only
  repeat' first
    | with_reducible assumption
    | split
    | with_reducible refine within_mem _ ?_ (by assumption)

theorem State.markUnit_within {W : List Part} {s0 s : State} (a1 : ℕ) (h : Within W s0 s) (h_mem : Part.mem ∈ W)
    (h_flash : Part.flash ∈ W) :
    Within W s0 (State.markUnit s a1) := by
  unfold State.markUnit
  try dsimp only
  repeat' first
    | with_reducible assumption
    | with_reducible apply State.fieldFail_within
    | with_reducible apply State.setUnitPoison_within
    | with_reducible apply within_ite

theorem State.setDram_within {W : List Part} {s0 s : State} (a1 : ℕ) (a2 : List Byte) (h : Within W s0 s)
    (h_mem : Part.mem ∈ W) :
    Within W s0 (State.setDram s a1 a2) := by
  unfold State.setDram
  try dsimp only
  repeat' first
    | with_reducible assumption
    | split
    | with_reducible refine within_mem _ ?_ (by assumption)

theorem State.openRow_within {W : List Part} {s0 s : State} (a1 : ℕ) (h : Within W s0 s) (h_mem : Part.mem ∈ W) :
    Within W s0 (State.openRow s a1) := by
  unfold State.openRow
  try dsimp only
  repeat' first
    | with_reducible assumption
    | with_reducible apply State.onStk_within

theorem State.setUnitCond_within {W : List Part} {s0 s : State} (a1 : ℕ) (a2 : Stored) (h : Within W s0 s)
    (h_mem : Part.mem ∈ W) :
    Within W s0 (State.setUnitCond s a1 a2) := by
  unfold State.setUnitCond
  try dsimp only
  repeat' first
    | with_reducible assumption
    | split
    | with_reducible refine within_mem _ ?_ (by assumption)

end Sys2Proof.Machine
end

