-- ==== Sys2Proof/Laws/Frames2.lean ====
section
/-! SUPPORT. For each operation and meaning, in dependency order (part 3 of 10): the parts of the state it can
change. -/

namespace Sys2Proof.Machine

theorem State.foundBad_within {W : List Part} {s0 s : State} (a1 : ℕ) (h : Within W s0 s) (h_mem : Part.mem ∈ W)
    (h_flash : Part.flash ∈ W) :
    Within W s0 (State.foundBad s a1) := by
  unfold State.foundBad
  try dsimp only
  repeat' first
    | with_reducible assumption
    | with_reducible apply State.markUnit_within
    | with_reducible apply State.onStk_within
    | with_reducible apply State.setUnitCond_within

theorem State.upset_within {W : List Part} {s0 s : State} (a1 : ℕ) (a2 : Upset) (h : Within W s0 s)
    (h_mem : Part.mem ∈ W) :
    Within W s0 (State.upset s a1 a2) := by
  unfold State.upset
  try dsimp only
  repeat' first
    | with_reducible assumption
    | with_reducible apply State.setUnitCond_within
    | with_reducible apply within_ite
    | split

theorem State.mergeRead_within {W : List Part} {s0 s : State} (a1 : ℕ) (a2 : Upset) (h : Within W s0 s)
    (h_mem : Part.mem ∈ W) (h_flash : Part.flash ∈ W) :
    Within W s0 (State.mergeRead s a1 a2).2 := by
  unfold State.mergeRead
  try dsimp only
  repeat' first
    | with_reducible assumption
    | with_reducible apply State.foundBad_within
    | with_reducible apply State.upset_within
    | with_reducible apply State.onStk_within
    | with_reducible apply within_ite
    | split

theorem State.stackPut_within {W : List Part} {s0 s : State} (a1 : ℕ) (a2 : ℕ) (a3 : List Byte) (a4 : Bool)
    (a5 : Upset) (h : Within W s0 s) (h_mem : Part.mem ∈ W) (h_flash : Part.flash ∈ W) :
    Within W s0 (State.stackPut s a1 a2 a3 a4 a5) := by
  unfold State.stackPut
  try dsimp only
  repeat' first
    | with_reducible assumption
    | with_reducible apply State.markUnit_within
    | with_reducible apply State.setUnitPoison_within
    | with_reducible apply State.setDram_within
    | with_reducible apply State.openRow_within
    | with_reducible apply State.mergeRead_within
    | with_reducible refine within_pair (x := State.mergeRead _ _ _) ?_ (by assumption)
    | with_reducible apply State.setUnitCond_within
    | with_reducible apply within_ite

theorem State.writeBack_within {W : List Part} {s0 s : State} (a1 : Line) (h : Within W s0 s)
    (h_mem : Part.mem ∈ W) (h_flash : Part.flash ∈ W) :
    Within W s0 (State.writeBack s a1) := by
  unfold State.writeBack
  try dsimp only
  repeat' first
    | with_reducible assumption
    | with_reducible apply State.stackPut_within
    | with_reducible apply within_ite
    | with_reducible apply within_foldl
    | with_reducible apply within_foldl2
    | (with_reducible intro u x hu; try dsimp only)

theorem State.sendGroup_within {W : List Part} {s0 s : State} (a1 : ℕ) (a2 : BitVec 12) (a3 : Bool)
    (h : Within W s0 s) (h_ports : Part.ports ∈ W) (h_fab : Part.fab ∈ W) :
    Within W s0 (State.sendGroup s a1 a2 a3) := by
  unfold State.sendGroup
  try dsimp only
  repeat' first
    | with_reducible assumption
    | with_reducible apply State.sendCtl_within
    | with_reducible apply within_foldl
    | with_reducible apply within_foldl2
    | (with_reducible intro u x hu; try dsimp only)

theorem State.resolveLoc_within {W : List Part} {s0 s : State} (a1 : ℕ) (a2 : BitVec 12) (a3 : Bool)
    (h : Within W s0 s) (h_cores : Part.cores ∈ W) (h_fab : Part.fab ∈ W) :
    Within W s0 (State.resolveLoc s a1 a2 a3) := by
  unfold State.resolveLoc
  try dsimp only
  repeat' first
    | with_reducible assumption
    | with_reducible apply State.settleLoc_within
    | with_reducible apply State.resolveRx_within
    | with_reducible refine within_fst (x := State.resolveRx _ _ _ _) ?_ (by assumption)
    | split
    | with_reducible refine within_fab _ ?_ (by assumption)

theorem State.abortGroup_within {W : List Part} {s0 s : State} (a1 : ℕ) (a2 : BitVec 12) (a3 : ℕ)
    (h : Within W s0 s) (h_cores : Part.cores ∈ W) (h_mem : Part.mem ∈ W) (h_ports : Part.ports ∈ W)
    (h_fab : Part.fab ∈ W) :
    Within W s0 (State.abortGroup s a1 a2 a3) := by
  unfold State.abortGroup
  try dsimp only
  repeat' first
    | with_reducible assumption
    | with_reducible apply State.sendGroup_within
    | with_reducible apply State.dropShadows_within
    | with_reducible apply State.resolveLoc_within
    | with_reducible apply State.onSeq_within
    | with_reducible apply State.onCore_within
    | with_reducible apply State.drainPump_within
    | with_reducible apply within_ite

theorem State.overflowKey_within {W : List Part} {s0 s : State} (a1 : GrpKey) (h : Within W s0 s)
    (h_cores : Part.cores ∈ W) (h_mem : Part.mem ∈ W) (h_ports : Part.ports ∈ W) (h_fab : Part.fab ∈ W) :
    Within W s0 (State.overflowKey s a1) := by
  unfold State.overflowKey
  try dsimp only
  repeat' first
    | with_reducible assumption
    | with_reducible apply State.dropShadows_within
    | with_reducible apply State.abortGroup_within
    | split

theorem State.stackAdd_within {W : List Part} {s0 s : State} (a1 : ℕ) (a2 : Bool) (a3 : List Byte) (a4 : Bool)
    (a5 : Upset) (h : Within W s0 s) (h_mem : Part.mem ∈ W) (h_flash : Part.flash ∈ W) :
    Within W s0 (State.stackAdd s a1 a2 a3 a4 a5) := by
  unfold State.stackAdd
  try dsimp only
  repeat' first
    | with_reducible assumption
    | with_reducible apply State.markUnit_within
    | with_reducible apply State.setUnitPoison_within
    | with_reducible apply State.setDram_within
    | with_reducible apply State.openRow_within
    | with_reducible apply State.mergeRead_within
    | with_reducible refine within_pair (x := State.mergeRead _ _ _) ?_ (by assumption)
    | with_reducible apply State.setUnitCond_within
    | with_reducible apply within_ite

theorem State.onSlice_within {W : List Part} {s0 s : State} (a1 : ℕ) (a2 : Slice → Slice) (h : Within W s0 s)
    (h_mem : Part.mem ∈ W) :
    Within W s0 (State.onSlice s a1 a2) := by
  unfold State.onSlice
  try dsimp only
  repeat' first
    | with_reducible assumption
    | split
    | with_reducible refine within_mem _ ?_ (by assumption)

theorem State.putLine_within {W : List Part} {s0 s : State} (a1 : Line) (h : Within W s0 s) (h_mem : Part.mem ∈ W) :
    Within W s0 (State.putLine s a1) := by
  unfold State.putLine
  try dsimp only
  repeat' first
    | with_reducible assumption
    | with_reducible apply State.onSlice_within

theorem State.copyHome_within {W : List Part} {s0 s : State} (a1 : Shadow) (h : Within W s0 s)
    (h_mem : Part.mem ∈ W) (h_flash : Part.flash ∈ W) :
    Within W s0 (State.copyHome s a1) := by
  unfold State.copyHome
  try dsimp only
  repeat' first
    | with_reducible assumption
    | with_reducible apply State.stackPut_within
    | with_reducible apply State.putLine_within
    | with_reducible apply within_foldl
    | with_reducible apply within_foldl2
    | (with_reducible intro u x hu; try dsimp only)
    | split

theorem State.settle_within {W : List Part} {s0 s : State} (a1 : ℕ) (h : Within W s0 s) (h_mem : Part.mem ∈ W)
    (h_flash : Part.flash ∈ W) :
    Within W s0 (State.settle s a1) := by
  unfold State.settle
  try dsimp only
  repeat' first
    | with_reducible assumption
    | with_reducible apply State.copyHome_within
    | with_reducible apply State.onSlice_within
    | with_reducible apply within_ite
    | with_reducible apply within_foldl
    | with_reducible apply within_foldl2
    | (with_reducible intro u x hu; try dsimp only)

theorem State.dropLine_within {W : List Part} {s0 s : State} (a1 : ℕ) (h : Within W s0 s) (h_mem : Part.mem ∈ W) :
    Within W s0 (State.dropLine s a1) := by
  unfold State.dropLine
  try dsimp only
  repeat' first
    | with_reducible assumption
    | with_reducible apply State.onSlice_within

theorem State.storePark_within {W : List Part} {s0 s : State} (a1 : ℕ) (a2 : Shadow) (h : Within W s0 s)
    (h_mem : Part.mem ∈ W) (h_flash : Part.flash ∈ W) :
    Within W s0 (State.storePark s a1 a2) := by
  unfold State.storePark
  try dsimp only
  repeat' first
    | with_reducible assumption
    | with_reducible apply State.stackPut_within
    | with_reducible apply within_foldl
    | with_reducible apply within_foldl2
    | (with_reducible intro u x hu; try dsimp only)
    | split

theorem State.repark_within {W : List Part} {s0 s : State} (a1 : ℕ) (a2 : ℕ) (a3 : GrpKey) (h : Within W s0 s)
    (h_mem : Part.mem ∈ W) (h_flash : Part.flash ∈ W) :
    Within W s0 (State.repark s a1 a2 a3) := by
  unfold State.repark
  try dsimp only
  repeat' first
    | with_reducible assumption
    | with_reducible apply State.storePark_within
    | split

theorem State.trim_within {W : List Part} {s0 s : State} (a1 : ℕ) (a2 : ℕ) (a3 : ℕ) (a4 : ℕ) (h : Within W s0 s)
    (h_mem : Part.mem ∈ W) (h_flash : Part.flash ∈ W) :
    Within W s0 (State.trim s a1 a2 a3 a4) := by
  induction a4 generalizing s a1 a2 a3 with
  | zero =>
    unfold State.trim
    try dsimp only
    repeat' first
      | with_reducible assumption
  | succ k ih =>
    unfold State.trim
    try dsimp only
    repeat' first
      | with_reducible assumption
      | with_reducible apply ih
      | with_reducible apply State.writeBack_within
      | with_reducible apply State.dropLine_within
      | with_reducible apply within_ite
      | split

theorem State.shadowOp_within {W : List Part} {s0 s : State} (a1 : ℕ) (a2 : GrpKey) (a3 : ShadowOp)
    (h : Within W s0 s) (h_mem : Part.mem ∈ W) (h_flash : Part.flash ∈ W) :
    WithinO W s0 (State.shadowOp s a1 a2 a3) := by
  unfold State.shadowOp
  try dsimp only
  repeat' first
    | with_reducible assumption
    | with_reducible apply State.repark_within
    | with_reducible apply State.trim_within
    | with_reducible apply State.onSlice_within
    | with_reducible apply within_ite
    | with_reducible apply withinO_bind
    | with_reducible refine WithinO.out (o := Option.bind _ _) ?_ (by assumption)
    | with_reducible intro u hu
    | with_reducible exact withinO_none
    | with_reducible apply withinO_some
    | split
    | with_reducible refine within_mem _ ?_ (by assumption)

theorem State.addMem_within {W : List Part} {s0 s : State} (a1 : ℕ) (a2 : Bool) (a3 : List Byte) (a4 : Bool)
    (a5 : Option GrpKey) (a6 : Upset) (h : Within W s0 s) (h_cores : Part.cores ∈ W) (h_mem : Part.mem ∈ W)
    (h_ports : Part.ports ∈ W) (h_fab : Part.fab ∈ W) (h_flash : Part.flash ∈ W) :
    Within W s0 (State.addMem s a1 a2 a3 a4 a5 a6) := by
  unfold State.addMem
  try dsimp only
  repeat' first
    | with_reducible assumption
    | with_reducible apply State.writeBack_within
    | with_reducible apply State.overflowKey_within
    | with_reducible apply State.stackAdd_within
    | with_reducible apply State.settle_within
    | with_reducible apply State.dropLine_within
    | with_reducible apply State.shadowOp_within
    | with_reducible refine WithinO.out (o := State.shadowOp _ _ _ _) ?_ (by assumption)
    | with_reducible apply within_ite
    | with_reducible refine WithinO.out (o := ite _ _ _) ?_ (by assumption)
    | with_reducible apply withinO_some
    | split

theorem State.allocLine_within {W : List Part} {s0 s : State} (a1 : ℕ) (h : Within W s0 s) (h_mem : Part.mem ∈ W)
    (h_flash : Part.flash ∈ W) :
    Within W s0 (State.allocLine s a1).2 := by
  unfold State.allocLine
  try dsimp only
  repeat' first
    | with_reducible assumption
    | with_reducible apply State.trim_within
    | split

theorem State.applyShadow_within {W : List Part} {s0 s : State} (a1 : Shadow) (h : Within W s0 s)
    (h_cores : Part.cores ∈ W) (h_mem : Part.mem ∈ W) (h_ports : Part.ports ∈ W) (h_fab : Part.fab ∈ W)
    (h_flash : Part.flash ∈ W) :
    Within W s0 (State.applyShadow s a1) := by
  unfold State.applyShadow
  try dsimp only
  repeat' first
    | with_reducible assumption
    | with_reducible apply State.redFlags_within
    | with_reducible apply State.addMem_within
    | with_reducible apply State.allocLine_within
    | with_reducible refine within_pair (x := State.allocLine _ _) ?_ (by assumption)
    | with_reducible apply State.putLine_within
    | with_reducible apply within_ite
    | with_reducible apply within_foldl
    | with_reducible apply within_foldl2
    | (with_reducible intro u x hu; try dsimp only)
    | split

theorem State.sendBisnp_within {W : List Part} {s0 s : State} (a1 : ℕ) (a2 : ℕ) (a3 : Bool) (h : Within W s0 s)
    (h_mem : Part.mem ∈ W) (h_host : Part.host ∈ W) :
    Within W s0 (State.sendBisnp s a1 a2 a3) := by
  unfold State.sendBisnp
  try dsimp only
  repeat' first
    | with_reducible assumption
    | with_reducible apply State.onSlice_within
    | with_reducible apply within_ite
    | split
    | with_reducible refine within_host _ ?_ (by assumption)

theorem State.sliceCommit_within {W : List Part} {s0 s : State} (a1 : ℕ) (a2 : GrpKey) (h : Within W s0 s)
    (h_cores : Part.cores ∈ W) (h_mem : Part.mem ∈ W) (h_ports : Part.ports ∈ W) (h_fab : Part.fab ∈ W)
    (h_host : Part.host ∈ W) (h_flash : Part.flash ∈ W) :
    Within W s0 (State.sliceCommit s a1 a2) := by
  unfold State.sliceCommit
  try dsimp only
  repeat' first
    | with_reducible assumption
    | with_reducible apply State.applyShadow_within
    | with_reducible apply State.sendBisnp_within
    | with_reducible apply State.onSlice_within
    | with_reducible apply within_ite
    | with_reducible apply within_foldl
    | with_reducible apply within_foldl2
    | (with_reducible intro u x hu; try dsimp only)

theorem State.writeLine_within {W : List Part} {s0 s : State} (a1 : ℕ) (a2 : List MB) (a3 : Option GrpKey)
    (h : Within W s0 s) (h_cores : Part.cores ∈ W) (h_mem : Part.mem ∈ W) (h_ports : Part.ports ∈ W)
    (h_fab : Part.fab ∈ W) (h_flash : Part.flash ∈ W) :
    Within W s0 (State.writeLine s a1 a2 a3) := by
  unfold State.writeLine
  try dsimp only
  repeat' first
    | with_reducible assumption
    | with_reducible apply State.overflowKey_within
    | with_reducible apply State.allocLine_within
    | with_reducible refine within_pair (x := State.allocLine _ _) ?_ (by assumption)
    | with_reducible apply State.settle_within
    | with_reducible apply State.shadowOp_within
    | with_reducible refine WithinO.out (o := State.shadowOp _ _ _ _) ?_ (by assumption)
    | with_reducible apply State.putLine_within
    | with_reducible apply within_ite
    | with_reducible refine WithinO.out (o := ite _ _ _) ?_ (by assumption)
    | with_reducible apply withinO_some
    | split

theorem State.writeMem_within {W : List Part} {s0 s : State} (a1 : ℕ) (a2 : List MB) (a3 : Option GrpKey)
    (h : Within W s0 s) (h_cores : Part.cores ∈ W) (h_mem : Part.mem ∈ W) (h_ports : Part.ports ∈ W)
    (h_fab : Part.fab ∈ W) (h_flash : Part.flash ∈ W) :
    Within W s0 (State.writeMem s a1 a2 a3) := by
  unfold State.writeMem
  try dsimp only
  repeat' first
    | with_reducible assumption
    | with_reducible apply State.writeLine_within
    | with_reducible apply within_foldl
    | with_reducible apply within_foldl2
    | (with_reducible intro u x hu; try dsimp only)

theorem State.track_within {W : List Part} {s0 s : State} (a1 : ℕ) (a2 : Bool) (h : Within W s0 s)
    (h_mem : Part.mem ∈ W) :
    WithinO W s0 (State.track s a1 a2) := by
  unfold State.track
  try dsimp only
  repeat' first
    | with_reducible assumption
    | with_reducible apply State.onSlice_within
    | with_reducible apply within_ite
    | with_reducible apply withinO_bind
    | with_reducible refine WithinO.out (o := Option.bind _ _) ?_ (by assumption)
    | with_reducible intro u hu
    | with_reducible exact withinO_none
    | with_reducible apply withinO_some
    | split

theorem State.lineWait_within {W : List Part} {s0 s : State} (a1 : ℕ) (a2 : Option GrpKey) (a3 : XPort)
    (a4 : Bool) (h : Within W s0 s) (h_mem : Part.mem ∈ W) (h_host : Part.host ∈ W) :
    WithinO W s0 (State.lineWait s a1 a2 a3 a4) := by
  unfold State.lineWait
  try dsimp only
  repeat' first
    | with_reducible assumption
    | with_reducible apply State.sendBisnp_within
    | with_reducible apply within_ite
    | with_reducible apply within_foldl
    | with_reducible apply within_foldl2
    | (with_reducible intro u x hu; try dsimp only)
    | with_reducible apply withinO_bind
    | with_reducible apply withinO_foldl
    | with_reducible refine WithinO.out (o := Option.bind _ _) ?_ (by assumption)
    | with_reducible intro u hu
    | with_reducible exact withinO_none
    | with_reducible apply withinO_some
    | split

theorem State.useLine_within {W : List Part} {s0 s : State} (a1 : ℕ) (h : Within W s0 s) (h_mem : Part.mem ∈ W) :
    Within W s0 (State.useLine s a1) := by
  unfold State.useLine
  try dsimp only
  repeat' first
    | with_reducible assumption
    | with_reducible apply State.putLine_within
    | split

theorem State.countRead_within {W : List Part} {s0 s : State} (a1 : ℕ) (a2 : Bool) (h : Within W s0 s)
    (h_mem : Part.mem ∈ W) :
    Within W s0 (State.countRead s a1 a2) := by
  unfold State.countRead
  try dsimp only
  repeat' first
    | with_reducible assumption
    | with_reducible apply State.onSlice_within

theorem State.corrected_within {W : List Part} {s0 s : State} (a1 : ℕ) (h : Within W s0 s) (h_mem : Part.mem ∈ W) :
    Within W s0 (State.corrected s a1) := by
  unfold State.corrected
  try dsimp only
  repeat' first
    | with_reducible assumption
    | with_reducible apply State.onStk_within

theorem State.demandRead_within {W : List Part} {s0 s : State} (a1 : ℕ) (a2 : Upset) (h : Within W s0 s)
    (h_mem : Part.mem ∈ W) (h_flash : Part.flash ∈ W) :
    Within W s0 (State.demandRead s a1 a2).2 := by
  unfold State.demandRead
  try dsimp only
  repeat' first
    | with_reducible assumption
    | with_reducible apply State.foundBad_within
    | with_reducible apply State.corrected_within
    | with_reducible apply State.openRow_within
    | with_reducible apply State.upset_within
    | with_reducible apply within_ite
    | split

theorem State.fetchUnit_within {W : List Part} {s0 s : State} (a1 : ℕ) (a2 : Upset) (h : Within W s0 s)
    (h_mem : Part.mem ∈ W) (h_flash : Part.flash ∈ W) :
    Within W s0 (State.fetchUnit s a1 a2) := by
  unfold State.fetchUnit
  try dsimp only
  repeat' first
    | with_reducible assumption
    | with_reducible apply State.demandRead_within
    | with_reducible refine within_pair (x := State.demandRead _ _ _) ?_ (by assumption)
    | with_reducible apply State.allocLine_within
    | with_reducible refine within_pair (x := State.allocLine _ _) ?_ (by assumption)
    | with_reducible apply State.putLine_within
    | with_reducible apply within_ite
    | with_reducible apply within_foldl
    | with_reducible apply within_foldl2
    | (with_reducible intro u x hu; try dsimp only)

theorem State.readUnit_within {W : List Part} {s0 s : State} (a1 : ℕ) (a2 : ℕ) (a3 : Option GrpKey) (a4 : Upset)
    (h : Within W s0 s) (h_mem : Part.mem ∈ W) (h_flash : Part.flash ∈ W) :
    Within W s0 (State.readUnit s a1 a2 a3 a4).2 := by
  unfold State.readUnit
  try dsimp only
  repeat' first
    | with_reducible assumption
    | with_reducible apply State.useLine_within
    | with_reducible apply State.countRead_within
    | with_reducible apply State.fetchUnit_within
    | with_reducible apply within_ite

theorem State.readMem_within {W : List Part} {s0 s : State} (a1 : ℕ) (a2 : ℕ) (a3 : Option GrpKey)
    (h : Within W s0 s) (h_mem : Part.mem ∈ W) (h_flash : Part.flash ∈ W) :
    Within W s0 (State.readMem s a1 a2 a3).2 := by
  unfold State.readMem
  try dsimp only
  repeat' first
    | with_reducible assumption
    | with_reducible apply State.readUnit_within
    | with_reducible refine within_pair (x := State.readUnit _ _ _ _ _) ?_ (by assumption)
    | with_reducible apply within_ite
    | with_reducible apply within_foldl
    | with_reducible apply within_foldl2
    | (with_reducible intro u x hu; try dsimp only)

theorem State.doHost_within {W : List Part} {s0 s : State} (a1 : ℕ) (a2 : HostMem) (a3 : Bool) (h : Within W s0 s)
    (h_cores : Part.cores ∈ W) (h_mem : Part.mem ∈ W) (h_ports : Part.ports ∈ W) (h_fab : Part.fab ∈ W)
    (h_host : Part.host ∈ W) (h_flash : Part.flash ∈ W) :
    Within W s0 (State.doHost s a1 a2 a3) := by
  unfold State.doHost
  extract_lets n unit keep say
  have hkeep : ∀ {u}, Within W s0 u → Within W s0 (keep u) := fun hu => by
    with_reducible apply State.onSlice_within <;> assumption
  have hsay : ∀ {u} o, Within W s0 u → Within W s0 (say u o) := fun o hu => within_host _ hu h_host
  clear_value keep say
  split
  · exact hkeep (WithinO.out (State.lineWait_within _ _ _ _ h h_mem h_host) (by assumption))
  · split
    · split
      · exact hkeep (State.sendBisnp_within _ _ _ h h_mem h_host)
      · exact hkeep h
    · rename_i u e
      have hu : Within W s0 u := by
        split at e
        · exact WithinO.out (State.track_within _ _ h h_mem) e
        · cases e
          exact h
      clear e
      split
      · with_reducible apply hsay
        with_reducible apply State.readMem_within <;> assumption
      · with_reducible apply hsay
        with_reducible apply within_foldl
        · assumption
        · intro v x hv
          with_reducible apply State.writeMem_within <;> assumption

theorem State.memWait_within {W : List Part} {s0 s : State} (a1 : ℕ) (a2 : ℕ) (a3 : Option GrpKey) (a4 : XPort)
    (a5 : Bool) (h : Within W s0 s) (h_mem : Part.mem ∈ W) (h_host : Part.host ∈ W) :
    WithinO W s0 (State.memWait s a1 a2 a3 a4 a5) := by
  unfold State.memWait
  try dsimp only
  repeat' first
    | with_reducible assumption
    | with_reducible apply State.lineWait_within
    | with_reducible refine WithinO.out (o := State.lineWait _ _ _ _ _) ?_ (by assumption)
    | with_reducible apply within_foldl
    | with_reducible apply within_foldl2
    | with_reducible apply within_getD
    | (with_reducible intro u x hu; try dsimp only)
    | with_reducible apply withinO_bind
    | with_reducible apply withinO_foldl
    | with_reducible refine WithinO.out (o := Option.bind _ _) ?_ (by assumption)
    | with_reducible intro u hu
    | with_reducible exact withinO_none
    | with_reducible apply withinO_some
    | split

theorem State.deliver_within {W : List Part} {s0 s : State} (a1 : XPort) (a2 : ℕ) (a3 : ℕ) (a4 : List MB)
    (h : Within W s0 s) (h_mem : Part.mem ∈ W) :
    Within W s0 (State.deliver s a1 a2 a3 a4) := by
  unfold State.deliver
  try dsimp only
  repeat' first
    | with_reducible assumption
    | with_reducible apply within_ite
    | split
    | with_reducible refine within_mem _ ?_ (by assumption)

theorem State.doRead_within {W : List Part} {s0 s : State} (a1 : Miss) (h : Within W s0 s) (h_mem : Part.mem ∈ W)
    (h_host : Part.host ∈ W) (h_flash : Part.flash ∈ W) :
    Within W s0 (State.doRead s a1) := by
  unfold State.doRead
  try dsimp only
  repeat' first
    | with_reducible assumption
    | with_reducible apply State.memWait_within
    | with_reducible refine WithinO.out (o := State.memWait _ _ _ _ _ _) ?_ (by assumption)
    | with_reducible apply State.countRead_within
    | with_reducible apply State.deliver_within
    | with_reducible apply State.readUnit_within
    | with_reducible refine within_pair (x := State.readUnit _ _ _ _ _) ?_ (by assumption)
    | with_reducible apply State.onSlice_within
    | with_reducible apply within_ite
    | with_reducible refine WithinO.out (o := ite _ _ _) ?_ (by assumption)
    | with_reducible apply withinO_some
    | split

theorem State.doWrite_within {W : List Part} {s0 s : State} (a1 : XPort) (a2 : ℕ) (a3 : BitVec 256)
    (a4 : List Byte) (a5 : Bool) (a6 : Option GrpKey) (h : Within W s0 s) (h_cores : Part.cores ∈ W)
    (h_mem : Part.mem ∈ W) (h_ports : Part.ports ∈ W) (h_fab : Part.fab ∈ W) (h_host : Part.host ∈ W)
    (h_flash : Part.flash ∈ W) :
    Within W s0 (State.doWrite s a1 a2 a3 a4 a5 a6) := by
  unfold State.doWrite
  try dsimp only
  repeat' first
    | with_reducible assumption
    | with_reducible apply State.memWait_within
    | with_reducible refine WithinO.out (o := State.memWait _ _ _ _ _ _) ?_ (by assumption)
    | with_reducible apply State.writeMem_within
    | with_reducible apply State.onSlice_within
    | with_reducible apply within_foldl
    | with_reducible apply within_foldl2
    | (with_reducible intro u x hu; try dsimp only)
    | with_reducible refine WithinO.out (o := ite _ _ _) ?_ (by assumption)
    | with_reducible apply withinO_some
    | split

theorem State.access_within {W : List Part} {s0 s : State} (a1 : HeldReq) (h : Within W s0 s)
    (h_cores : Part.cores ∈ W) (h_mem : Part.mem ∈ W) (h_ports : Part.ports ∈ W) (h_fab : Part.fab ∈ W)
    (h_host : Part.host ∈ W) (h_flash : Part.flash ∈ W) :
    Within W s0 (State.access s a1) := by
  unfold State.access
  try dsimp only
  repeat' first
    | with_reducible assumption
    | with_reducible apply State.doHost_within
    | with_reducible apply State.doRead_within
    | with_reducible apply State.doWrite_within
    | split

theorem State.submit_within {W : List Part} {s0 s : State} (a1 : HeldReq) (h : Within W s0 s)
    (h_cores : Part.cores ∈ W) (h_mem : Part.mem ∈ W) (h_ports : Part.ports ∈ W) (h_fab : Part.fab ∈ W)
    (h_host : Part.host ∈ W) (h_flash : Part.flash ∈ W) :
    Within W s0 (State.submit s a1) := by
  unfold State.submit
  try dsimp only
  repeat' first
    | with_reducible assumption
    | with_reducible apply State.access_within
    | with_reducible apply within_ite
    | split
    | with_reducible refine within_mem _ ?_ (by assumption)

theorem State.pumpWaiting_within {W : List Part} {s0 s : State} (h : Within W s0 s) (h_cores : Part.cores ∈ W)
    (h_mem : Part.mem ∈ W) (h_ports : Part.ports ∈ W) (h_fab : Part.fab ∈ W) (h_host : Part.host ∈ W)
    (h_flash : Part.flash ∈ W) :
    Within W s0 (State.pumpWaiting s) := by
  unfold State.pumpWaiting
  try dsimp only
  repeat' first
    | with_reducible assumption
    | with_reducible apply State.submit_within
    | with_reducible apply within_ite
    | with_reducible apply within_foldl
    | with_reducible apply within_foldl2
    | (with_reducible intro u x hu; try dsimp only)
    | split
    | with_reducible refine within_mem _ ?_ (by assumption)

theorem State.retryHeld_within {W : List Part} {s0 s : State} (a1 : ℕ) (h : Within W s0 s)
    (h_cores : Part.cores ∈ W) (h_mem : Part.mem ∈ W) (h_ports : Part.ports ∈ W) (h_fab : Part.fab ∈ W)
    (h_host : Part.host ∈ W) (h_flash : Part.flash ∈ W) :
    Within W s0 (State.retryHeld s a1) := by
  unfold State.retryHeld
  try dsimp only
  repeat' first
    | with_reducible assumption
    | with_reducible apply State.pumpWaiting_within
    | with_reducible apply State.access_within
    | with_reducible apply State.onSlice_within
    | with_reducible apply within_ite
    | with_reducible apply within_foldl
    | with_reducible apply within_foldl2
    | (with_reducible intro u x hu; try dsimp only)

theorem State.sliceGo_within {W : List Part} {s0 s : State} (a1 : ℕ) (h : Within W s0 s)
    (h_cores : Part.cores ∈ W) (h_mem : Part.mem ∈ W) (h_ports : Part.ports ∈ W) (h_fab : Part.fab ∈ W)
    (h_host : Part.host ∈ W) (h_flash : Part.flash ∈ W) :
    Within W s0 (State.sliceGo s a1) := by
  unfold State.sliceGo
  try dsimp only
  repeat' first
    | with_reducible assumption
    | with_reducible apply State.sliceCommit_within
    | with_reducible apply State.retryHeld_within
    | with_reducible apply within_foldl
    | with_reducible apply within_foldl2
    | (with_reducible intro u x hu; try dsimp only)

theorem State.hostReset_within {W : List Part} {s0 s : State} (h : Within W s0 s) (h_cores : Part.cores ∈ W)
    (h_mem : Part.mem ∈ W) (h_ports : Part.ports ∈ W) (h_fab : Part.fab ∈ W) (h_host : Part.host ∈ W)
    (h_cfg : Part.cfg ∈ W) (h_flash : Part.flash ∈ W) :
    Within W s0 (State.hostReset s) := by
  unfold State.hostReset
  try dsimp only
  repeat' first
    | with_reducible assumption
    | with_reducible apply State.enterAbsent_within
    | with_reducible apply State.dropAperture_within
    | with_reducible apply State.sliceGo_within
    | with_reducible apply within_foldl
    | with_reducible apply within_foldl2
    | (with_reducible intro u x hu; try dsimp only)
    | split
    | with_reducible refine within_host _ ?_ (by assumption)
    | with_reducible refine within_mem _ ?_ (by assumption)

theorem State.restartHost_within {W : List Part} {s0 s : State} (a1 : Bool) (h : Within W s0 s)
    (h_cores : Part.cores ∈ W) (h_mem : Part.mem ∈ W) (h_ports : Part.ports ∈ W) (h_fab : Part.fab ∈ W)
    (h_host : Part.host ∈ W) (h_cfg : Part.cfg ∈ W) (h_flash : Part.flash ∈ W) :
    Within W s0 (State.restartHost s a1) := by
  unfold State.restartHost
  try dsimp only
  repeat' first
    | with_reducible assumption
    | with_reducible apply State.hostReset_within
    | with_reducible apply within_ite
    | split
    | with_reducible refine within_host _ ?_ (by assumption)

theorem State.fresh_within {W : List Part} {s0 s : State} (h : Within W s0 s) (h_free : Part.free ∈ W) :
    Within W s0 (State.fresh s).2 := by
  unfold State.fresh
  try dsimp only
  repeat' first
    | with_reducible assumption
    | split
    | with_reducible refine within_free _ ?_ (by assumption)

theorem State.abandonUpdate_within {W : List Part} {s0 s : State} (h : Within W s0 s) (h_mgmt : Part.mgmt ∈ W)
    (h_free : Part.free ∈ W) :
    Within W s0 (State.abandonUpdate s) := by
  unfold State.abandonUpdate
  try dsimp only
  repeat' first
    | with_reducible assumption
    | with_reducible apply State.fresh_within
    | with_reducible refine within_pair (x := State.fresh _) ?_ (by assumption)
    | with_reducible apply within_ite
    | split
    | with_reducible refine within_mgmt _ ?_ (by assumption)

theorem State.restartDomain_within {W : List Part} {s0 s : State} (a1 : Bool) (a2 : ℕ) (h : Within W s0 s)
    (h_pwr : Part.pwr ∈ W) :
    Within W s0 (State.restartDomain s a1 a2) := by
  unfold State.restartDomain
  try dsimp only
  repeat' first
    | with_reducible assumption
    | with_reducible apply State.onDom_within

theorem State.discardAll_within {W : List Part} {s0 s : State} (a1 : ℕ) (h : Within W s0 s)
    (h_cores : Part.cores ∈ W) (h_mem : Part.mem ∈ W) (h_ports : Part.ports ∈ W) (h_fab : Part.fab ∈ W)
    (h_host : Part.host ∈ W) (h_jobs : Part.jobs ∈ W) (h_cfg : Part.cfg ∈ W) (h_sec : Part.sec ∈ W)
    (h_flash : Part.flash ∈ W) (h_mgmt : Part.mgmt ∈ W) (h_pwr : Part.pwr ∈ W) (h_clk : Part.clk ∈ W)
    (h_thm : Part.thm ∈ W) (h_free : Part.free ∈ W) :
    Within W s0 (State.discardAll s a1) := by
  unfold State.discardAll
  try dsimp only
  repeat' first
    | with_reducible assumption
    | with_reducible apply State.restartConfig_within
    | with_reducible apply State.restartSecurity_within
    | with_reducible apply State.restartHost_within
    | with_reducible apply State.abandonUpdate_within
    | with_reducible apply State.restartDomain_within
    | with_reducible apply within_ite
    | with_reducible apply within_foldl
    | with_reducible apply within_foldl2
    | (with_reducible intro u x hu; try dsimp only)
    | split
    | with_reducible refine within_cores_mem_ports_fab_jobs_mgmt_pwr_clk_thm _ _ _ _ _ _ _ _ _ ?_ (by assumption) (by assumption) (by assumption) (by assumption) (by assumption) (by assumption) (by assumption) (by assumption) (by assumption)

theorem State.putBoth_within {W : List Part} {s0 s : State} (a1 : ℕ) (a2 : Word) (h : Within W s0 s)
    (h_cfg : Part.cfg ∈ W) :
    Within W s0 (State.putBoth s a1 a2) := by
  unfold State.putBoth
  try dsimp only
  repeat' first
    | with_reducible assumption
    | split
    | with_reducible refine within_cfg _ ?_ (by assumption)

theorem State.stageOne_within {W : List Part} {s0 s : State} (a1 : ℕ) (a2 : Bool) (a3 : Bool) (a4 : Boot)
    (h : Within W s0 s) (h_cfg : Part.cfg ∈ W) (h_flash : Part.flash ∈ W) (h_mgmt : Part.mgmt ∈ W) :
    Within W s0 (State.stageOne s a1 a2 a3 a4) := by
  unfold State.stageOne
  try dsimp only
  repeat' first
    | with_reducible assumption
    | with_reducible apply State.putBoth_within
    | with_reducible apply State.logErr_within
    | with_reducible apply within_ite
    | split
    | with_reducible refine within_flash _ ?_ (by assumption)
    | with_reducible refine within_mgmt _ ?_ (by assumption)

theorem State.failStart_within {W : List Part} {s0 s : State} (a1 : ℕ) (a2 : ℕ) (h : Within W s0 s)
    (h_cores : Part.cores ∈ W) (h_ports : Part.ports ∈ W) (h_optics : Part.optics ∈ W) (h_fab : Part.fab ∈ W)
    (h_host : Part.host ∈ W) (h_flash : Part.flash ∈ W) (h_mgmt : Part.mgmt ∈ W) (h_pwr : Part.pwr ∈ W) :
    Within W s0 (State.failStart s a1 a2) := by
  unfold State.failStart
  try dsimp only
  repeat' first
    | with_reducible assumption
    | with_reducible apply State.onOptic_within
    | with_reducible apply State.onDom_within
    | with_reducible apply State.logErr_within
    | with_reducible apply State.onPort_within
    | with_reducible apply State.bankedFailed_within
    | with_reducible apply State.portTo_within
    | with_reducible apply within_ite
    | with_reducible apply within_foldl
    | with_reducible apply within_foldl2
    | (with_reducible intro u x hu; try dsimp only)
    | split
    | with_reducible refine within_cores_host_flash_mgmt _ _ _ _ ?_ (by assumption) (by assumption) (by assumption) (by assumption)

theorem State.recover_within {W : List Part} {s0 s : State} (a1 : ℕ) (h : Within W s0 s)
    (h_cores : Part.cores ∈ W) (h_ports : Part.ports ∈ W) (h_optics : Part.optics ∈ W) (h_fab : Part.fab ∈ W)
    (h_host : Part.host ∈ W) (h_sec : Part.sec ∈ W) (h_flash : Part.flash ∈ W) (h_mgmt : Part.mgmt ∈ W)
    (h_pwr : Part.pwr ∈ W) :
    Within W s0 (State.recover s a1) := by
  unfold State.recover
  try dsimp only
  repeat' first
    | with_reducible assumption
    | with_reducible apply State.failStart_within
    | split
    | with_reducible refine within_sec_mgmt _ _ ?_ (by assumption) (by assumption)

theorem State.trainChannel_within {W : List Part} {s0 s : State} (a1 : ℕ) (h : Within W s0 s)
    (h_flash : Part.flash ∈ W) :
    Within W s0 (State.trainChannel s a1) := by
  unfold State.trainChannel
  try dsimp only
  repeat' first
    | with_reducible assumption
    | with_reducible apply within_foldl
    | with_reducible apply within_foldl2
    | (with_reducible intro u x hu; try dsimp only)
    | split
    | with_reducible refine within_flash _ ?_ (by assumption)

theorem State.repairStack_within {W : List Part} {s0 s : State} (a1 : Boot) (a2 : ℕ) (h : Within W s0 s)
    (h_mem : Part.mem ∈ W) (h_flash : Part.flash ∈ W) :
    Within W s0 (State.repairStack s a1 a2) := by
  unfold State.repairStack
  try dsimp only
  repeat' first
    | with_reducible assumption
    | with_reducible apply State.logErr_within
    | with_reducible apply State.onStk_within
    | with_reducible apply within_foldl
    | with_reducible apply within_foldl2
    | with_reducible apply within_getD
    | (with_reducible intro u x hu; try dsimp only)

theorem State.stageThree_within {W : List Part} {s0 s : State} (a1 : ℕ) (a2 : Boot) (h : Within W s0 s)
    (h_mem : Part.mem ∈ W) (h_host : Part.host ∈ W) (h_flash : Part.flash ∈ W) :
    Within W s0 (State.stageThree s a1 a2) := by
  unfold State.stageThree
  try dsimp only
  repeat' first
    | with_reducible assumption
    | with_reducible apply State.trainChannel_within
    | with_reducible apply State.repairStack_within
    | with_reducible apply within_ite
    | with_reducible apply within_foldl
    | with_reducible apply within_foldl2
    | (with_reducible intro u x hu; try dsimp only)
    | split
    | with_reducible refine within_flash _ ?_ (by assumption)
    | with_reducible refine within_host _ ?_ (by assumption)

theorem State.bringUp_within {W : List Part} {s0 s : State} (a1 : ℕ) (a2 : Boot) (h : Within W s0 s)
    (h_cores : Part.cores ∈ W) (h_mem : Part.mem ∈ W) (h_ports : Part.ports ∈ W) (h_optics : Part.optics ∈ W)
    (h_fab : Part.fab ∈ W) (h_host : Part.host ∈ W) (h_jobs : Part.jobs ∈ W) (h_cfg : Part.cfg ∈ W)
    (h_sec : Part.sec ∈ W) (h_flash : Part.flash ∈ W) (h_mgmt : Part.mgmt ∈ W) (h_pwr : Part.pwr ∈ W)
    (h_clk : Part.clk ∈ W) (h_thm : Part.thm ∈ W) (h_free : Part.free ∈ W) :
    Within W s0 (State.bringUp s a1 a2) := by
  unfold State.bringUp
  extract_lets cold u v w
  have hw : Within W s0 w := by
    refine within_flash _ ?_ (by assumption)
    with_reducible apply State.discardAll_within <;> assumption
  clear_value w v
  split
  · with_reducible apply State.recover_within <;> assumption
  · split
    · with_reducible apply State.recover_within <;> assumption
    · extract_lets x m1 x2 y m2 z
      have hx : Within W s0 x := by with_reducible apply State.stageOne_within <;> assumption
      have hx2 : Within W s0 x2 := within_mgmt _ hx h_mgmt
      have hy : Within W s0 y := by
        with_reducible apply State.stageFour_within
        · with_reducible apply State.stageThree_within <;> assumption
        all_goals assumption
      have hz : Within W s0 z := within_mgmt _ hy h_mgmt
      clear_value z m2 y x2 m1 x
      repeat' first
        | with_reducible assumption
        | with_reducible apply State.failStart_within
        | with_reducible apply State.reportFault_within
        | split

theorem State.discard_within {W : List Part} {s0 s : State} (h : Within W s0 s) (h_cfg : Part.cfg ∈ W) :
    Within W s0 (State.discard s) := by
  unfold State.discard
  try dsimp only
  repeat' first
    | with_reducible assumption
    | split
    | with_reducible refine within_cfg _ ?_ (by assumption)

theorem State.placeResp_within {W : List Part} {s0 s : State} (a1 : ℕ) (a2 : List Byte) (h : Within W s0 s)
    (h_host : Part.host ∈ W) :
    Within W s0 (State.placeResp s a1 a2) := by
  unfold State.placeResp
  try dsimp only
  repeat' first
    | with_reducible assumption
    | with_reducible apply State.hold_within
    | with_reducible apply State.onPair_within
    | with_reducible apply within_ite

theorem State.answerLate_within {W : List Part} {s0 s : State} (a1 : ℕ) (a2 : ℕ) (a3 : Byte) (a4 : ℕ) (a5 : ℕ)
    (a6 : ℕ) (a7 : List Byte) (h : Within W s0 s) (h_host : Part.host ∈ W) :
    Within W s0 (State.answerLate s a1 a2 a3 a4 a5 a6 a7) := by
  unfold State.answerLate
  try dsimp only
  repeat' first
    | with_reducible assumption
    | with_reducible apply State.placeResp_within

theorem State.endApply_within {W : List Part} {s0 s : State} (a1 : Apply) (h : Within W s0 s)
    (h_host : Part.host ∈ W) (h_cfg : Part.cfg ∈ W) :
    Within W s0 (State.endApply s a1) := by
  unfold State.endApply
  try dsimp only
  repeat' first
    | with_reducible assumption
    | with_reducible apply State.discard_within
    | with_reducible apply State.answerLate_within
    | with_reducible apply within_ite
    | split
    | with_reducible refine within_cfg _ ?_ (by assumption)

theorem State.takeGo_within {W : List Part} {s0 s : State} (a1 : BitVec 64) (h : Within W s0 s)
    (h_cfg : Part.cfg ∈ W) :
    Within W s0 (State.takeGo s a1).2 := by
  unfold State.takeGo
  try dsimp only
  repeat' first
    | with_reducible assumption
    | with_reducible apply State.adoptReg_within
    | with_reducible apply within_ite
    | split
    | with_reducible refine within_cfg _ ?_ (by assumption)

theorem State.regulate_within {W : List Part} {s0 s : State} (a1 : ℕ) (h : Within W s0 s) (h_pwr : Part.pwr ∈ W) :
    Within W s0 (State.regulate s a1) := by
  unfold State.regulate
  try dsimp only
  repeat' first
    | with_reducible assumption
    | with_reducible apply State.onDom_within
    | with_reducible apply within_ite

theorem State.switchStep_within {W : List Part} {s0 s : State} (a1 : ℕ) (h : Within W s0 s) (h_pwr : Part.pwr ∈ W) :
    Within W s0 (State.switchStep s a1) := by
  unfold State.switchStep
  try dsimp only
  repeat' first
    | with_reducible assumption
    | with_reducible apply State.onDom_within
    | with_reducible apply State.regulate_within

theorem State.requestStep_within {W : List Part} {s0 s : State} (a1 : ℕ) (a2 : ℕ) (h : Within W s0 s)
    (h_pwr : Part.pwr ∈ W) :
    Within W s0 (State.requestStep s a1 a2) := by
  unfold State.requestStep
  try dsimp only
  repeat' first
    | with_reducible assumption
    | with_reducible apply State.onDom_within
    | with_reducible apply State.regulate_within
    | with_reducible apply State.switchStep_within
    | with_reducible apply within_ite

end Sys2Proof.Machine
end

