-- ==== Sys2Proof/Laws/Frames3.lean ====
section
/-! SUPPORT. For each operation and meaning, in dependency order (part 4 of 10): the parts of the state it can
change. -/

namespace Sys2Proof.Machine

theorem State.enablePort_within {W : List Part} {s0 s : State} (a1 : ℕ) (h : Within W s0 s)
    (h_ports : Part.ports ∈ W) (h_optics : Part.optics ∈ W) (h_fab : Part.fab ∈ W) :
    Within W s0 (State.enablePort s a1) := by
  unfold State.enablePort
  try dsimp only
  repeat' first
    | with_reducible assumption
    | with_reducible apply State.onOptic_within
    | with_reducible apply State.train_within
    | with_reducible apply State.onPort_within
    | with_reducible apply State.portTo_within
    | with_reducible apply within_ite

theorem State.applied!_within {W : List Part} {s0 s : State} (a1 : ℕ) (h : Within W s0 s)
    (h_ports : Part.ports ∈ W) (h_optics : Part.optics ∈ W) (h_fab : Part.fab ∈ W) (h_pwr : Part.pwr ∈ W) :
    Within W s0 (State.applied! s a1) := by
  unfold State.applied!
  try dsimp only
  repeat' first
    | with_reducible assumption
    | with_reducible apply State.requestStep_within
    | with_reducible apply State.enablePort_within
    | with_reducible apply State.onPort_within
    | with_reducible apply within_ite
    | split

theorem State.holdEngines_within {W : List Part} {s0 s : State} (a1 : ℕ) (a2 : Bool) (h : Within W s0 s)
    (h_cores : Part.cores ∈ W) :
    Within W s0 (State.holdEngines s a1 a2) := by
  unfold State.holdEngines
  try dsimp only
  repeat' first
    | with_reducible assumption
    | with_reducible apply State.onSeq_within

theorem State.adoptOne_within {W : List Part} {s0 s : State} (a1 : ℕ) (h : Within W s0 s)
    (h_cores : Part.cores ∈ W) (h_cfg : Part.cfg ∈ W) (h_pwr : Part.pwr ∈ W) :
    Within W s0 (State.adoptOne s a1) := by
  unfold State.adoptOne
  try dsimp only
  repeat' first
    | with_reducible assumption
    | with_reducible apply State.requestStep_within
    | with_reducible apply State.onScp_within
    | split
    | with_reducible refine within_cfg _ ?_ (by assumption)

theorem State.adoptAll_within {W : List Part} {s0 s : State} (h : Within W s0 s) (h_cores : Part.cores ∈ W)
    (h_cfg : Part.cfg ∈ W) (h_pwr : Part.pwr ∈ W) :
    Within W s0 (State.adoptAll s) := by
  unfold State.adoptAll
  try dsimp only
  repeat' first
    | with_reducible assumption
    | with_reducible apply State.adoptOne_within
    | with_reducible apply State.holdEngines_within
    | with_reducible apply within_foldl
    | with_reducible apply within_foldl2
    | (with_reducible intro u x hu; try dsimp only)
    | split

theorem State.hkSend_within {W : List Part} {s0 s : State} (a1 : ℕ) (a2 : BitVec 48) (a3 : Option Ip) (a4 : Sent)
    (a5 : ℕ) (h : Within W s0 s) (h_ports : Part.ports ∈ W) :
    Within W s0 (State.hkSend s a1 a2 a3 a4 a5) := by
  unfold State.hkSend
  try dsimp only
  repeat' first
    | with_reducible assumption
    | with_reducible apply State.onPort_within

theorem State.sendNa_within {W : List Part} {s0 s : State} (a1 : ℕ) (a2 : BitVec 128) (a3 : Bool)
    (a4 : BitVec 128) (a5 : BitVec 48) (h : Within W s0 s) (h_ports : Part.ports ∈ W) :
    Within W s0 (State.sendNa s a1 a2 a3 a4 a5) := by
  unfold State.sendNa
  try dsimp only
  repeat' first
    | with_reducible assumption
    | with_reducible apply State.hkSend_within

theorem State.announce_within {W : List Part} {s0 s : State} (a1 : ℕ) (h : Within W s0 s) (h_ports : Part.ports ∈ W) :
    Within W s0 (State.announce s a1) := by
  unfold State.announce
  try dsimp only
  repeat' first
    | with_reducible assumption
    | with_reducible apply State.hkSend_within
    | with_reducible apply State.sendNa_within
    | with_reducible apply within_ite

theorem State.announceChanged_within {W : List Part} {s0 s : State} (a1 : List (ℕ × Word)) (h : Within W s0 s)
    (h_ports : Part.ports ∈ W) :
    Within W s0 (State.announceChanged s a1) := by
  unfold State.announceChanged
  try dsimp only
  repeat' first
    | with_reducible assumption
    | with_reducible apply State.announce_within
    | with_reducible apply within_ite
    | with_reducible apply within_foldl
    | with_reducible apply within_foldl2
    | (with_reducible intro u x hu; try dsimp only)

theorem State.commitApply_within {W : List Part} {s0 s : State} (a1 : BitVec 64) (a2 : Word) (a3 : Byte)
    (h : Within W s0 s) (h_cores : Part.cores ∈ W) (h_ports : Part.ports ∈ W) (h_optics : Part.optics ∈ W)
    (h_fab : Part.fab ∈ W) (h_cfg : Part.cfg ∈ W) (h_pwr : Part.pwr ∈ W) :
    Within W s0 (State.commitApply s a1 a2 a3) := by
  unfold State.commitApply
  try dsimp only
  repeat' first
    | with_reducible assumption
    | with_reducible apply State.electSlave_within
    | with_reducible apply State.takeGo_within
    | with_reducible refine within_pair (x := State.takeGo _ _) ?_ (by assumption)
    | with_reducible apply State.applied!_within
    | with_reducible apply State.adoptReg_within
    | with_reducible apply State.holdEngines_within
    | with_reducible apply State.adoptAll_within
    | with_reducible apply State.announceChanged_within
    | with_reducible apply within_ite
    | with_reducible apply within_foldl
    | with_reducible apply within_foldl2
    | (with_reducible intro u x hu; try dsimp only)
    | split
    | with_reducible refine within_cfg _ ?_ (by assumption)

theorem State.runApply_within {W : List Part} {s0 s : State} (a1 : BitVec 64) (a2 : Word) (a3 : Byte)
    (h : Within W s0 s) (h_cores : Part.cores ∈ W) (h_ports : Part.ports ∈ W) (h_optics : Part.optics ∈ W)
    (h_fab : Part.fab ∈ W) (h_host : Part.host ∈ W) (h_cfg : Part.cfg ∈ W) (h_pwr : Part.pwr ∈ W) :
    Within W s0 (State.runApply s a1 a2 a3) := by
  unfold State.runApply
  try dsimp only
  repeat' first
    | with_reducible assumption
    | with_reducible apply State.commitApply_within
    | with_reducible apply State.answerLate_within
    | split
    | with_reducible refine within_cfg _ ?_ (by assumption)

theorem State.serveApplies_within {W : List Part} {s0 s : State} (a0 : ℕ) (h : Within W s0 s)
    (h_cores : Part.cores ∈ W) (h_ports : Part.ports ∈ W) (h_optics : Part.optics ∈ W) (h_fab : Part.fab ∈ W)
    (h_host : Part.host ∈ W) (h_cfg : Part.cfg ∈ W) (h_pwr : Part.pwr ∈ W) :
    Within W s0 (State.serveApplies a0 s) := by
  induction a0 generalizing s with
  | zero =>
    unfold State.serveApplies
    try dsimp only
    repeat' first
      | with_reducible assumption
  | succ k ih =>
    unfold State.serveApplies
    try dsimp only
    repeat' first
      | with_reducible assumption
      | with_reducible apply ih
      | with_reducible apply State.endApply_within
      | with_reducible apply State.runApply_within
      | with_reducible apply within_ite
      | split
      | with_reducible refine within_cfg _ ?_ (by assumption)

theorem State.serve_within {W : List Part} {s0 s : State} (h : Within W s0 s) (h_cores : Part.cores ∈ W)
    (h_ports : Part.ports ∈ W) (h_optics : Part.optics ∈ W) (h_fab : Part.fab ∈ W) (h_host : Part.host ∈ W)
    (h_cfg : Part.cfg ∈ W) (h_pwr : Part.pwr ∈ W) :
    Within W s0 (State.serve s) := by
  unfold State.serve
  try dsimp only
  repeat' first
    | with_reducible assumption
    | with_reducible apply State.serveApplies_within

theorem State.beginStart_within {W : List Part} {s0 s : State} (a1 : ℕ) (a2 : Boot) (h : Within W s0 s)
    (h_cores : Part.cores ∈ W) (h_mem : Part.mem ∈ W) (h_ports : Part.ports ∈ W) (h_optics : Part.optics ∈ W)
    (h_fab : Part.fab ∈ W) (h_host : Part.host ∈ W) (h_jobs : Part.jobs ∈ W) (h_cfg : Part.cfg ∈ W)
    (h_sec : Part.sec ∈ W) (h_flash : Part.flash ∈ W) (h_mgmt : Part.mgmt ∈ W) (h_pwr : Part.pwr ∈ W)
    (h_clk : Part.clk ∈ W) (h_thm : Part.thm ∈ W) (h_free : Part.free ∈ W) :
    Within W s0 (State.beginStart s a1 a2) := by
  unfold State.beginStart
  try dsimp only
  repeat' first
    | with_reducible assumption
    | with_reducible apply State.bringUp_within
    | with_reducible apply State.serve_within
    | with_reducible apply within_ite
    | split
    | with_reducible refine within_mgmt _ ?_ (by assumption)

theorem State.beginBanked_within {W : List Part} {s0 s : State} (a1 : Boot) (h : Within W s0 s)
    (h_cores : Part.cores ∈ W) (h_mem : Part.mem ∈ W) (h_ports : Part.ports ∈ W) (h_optics : Part.optics ∈ W)
    (h_fab : Part.fab ∈ W) (h_host : Part.host ∈ W) (h_jobs : Part.jobs ∈ W) (h_cfg : Part.cfg ∈ W)
    (h_sec : Part.sec ∈ W) (h_flash : Part.flash ∈ W) (h_mgmt : Part.mgmt ∈ W) (h_pwr : Part.pwr ∈ W)
    (h_clk : Part.clk ∈ W) (h_thm : Part.thm ∈ W) (h_free : Part.free ∈ W) :
    Within W s0 (State.beginBanked s a1) := by
  unfold State.beginBanked
  try dsimp only
  repeat' first
    | with_reducible assumption
    | with_reducible apply State.beginStart_within

theorem State.saveTemper_within {W : List Part} {s0 s : State} (h : Within W s0 s) (h_flash : Part.flash ∈ W) :
    Within W s0 (State.saveTemper s) := by
  unfold State.saveTemper
  try dsimp only
  repeat' first
    | with_reducible assumption
    | with_reducible apply within_foldl
    | with_reducible apply within_foldl2
    | (with_reducible intro u x hu; try dsimp only)
    | split
    | with_reducible refine within_flash _ ?_ (by assumption)

theorem execCfgStart_within {W : List Part} {s0 s : State} (a0 : Boot) (a1 : ℕ) (h : Within W s0 s)
    (h_cores : Part.cores ∈ W) (h_mem : Part.mem ∈ W) (h_ports : Part.ports ∈ W) (h_optics : Part.optics ∈ W)
    (h_fab : Part.fab ∈ W) (h_host : Part.host ∈ W) (h_jobs : Part.jobs ∈ W) (h_cfg : Part.cfg ∈ W)
    (h_sec : Part.sec ∈ W) (h_flash : Part.flash ∈ W) (h_mgmt : Part.mgmt ∈ W) (h_pwr : Part.pwr ∈ W)
    (h_clk : Part.clk ∈ W) (h_thm : Part.thm ∈ W) (h_free : Part.free ∈ W) :
    WithinR W s0 (execCfgStart a0 a1 s) := by
  unfold execCfgStart
  try dsimp only
  repeat' first
    | with_reducible assumption
    | with_reducible apply State.beginBanked_within
    | with_reducible apply State.beginStart_within
    | with_reducible apply State.at_within
    | with_reducible apply State.saveTemper_within
    | with_reducible apply within_ite
    | with_reducible apply withinR_ite
    | with_reducible apply withinR_next

theorem State.failStream_within {W : List Part} {s0 s : State} (a1 : ℕ) (a2 : Eng) (a3 : ℕ) (h : Within W s0 s)
    (h_cores : Part.cores ∈ W) (h_jobs : Part.jobs ∈ W) :
    Within W s0 (State.failStream s a1 a2 a3) := by
  unfold State.failStream
  try dsimp only
  repeat' first
    | with_reducible assumption
    | with_reducible apply State.failAt_within

theorem State.hitStop_within {W : List Part} {s0 s : State} (a1 : ℕ) (a2 : Eng) (h : Within W s0 s)
    (h_cores : Part.cores ∈ W) (h_jobs : Part.jobs ∈ W) :
    Within W s0 (State.hitStop s a1 a2) := by
  unfold State.hitStop
  try dsimp only
  repeat' first
    | with_reducible assumption
    | with_reducible apply State.noteStop_within
    | with_reducible apply State.onSeq_within
    | with_reducible apply within_ite

theorem State.afterRetire_within {W : List Part} {s0 s : State} (a1 : ℕ) (a2 : Eng) (a3 : Bool)
    (h : Within W s0 s) (h_cores : Part.cores ∈ W) (h_jobs : Part.jobs ∈ W) :
    Within W s0 (State.afterRetire s a1 a2 a3) := by
  unfold State.afterRetire
  try dsimp only
  repeat' first
    | with_reducible assumption
    | with_reducible apply State.failStream_within
    | with_reducible apply State.hitStop_within
    | with_reducible apply within_ite

theorem State.leaveFront_within {W : List Part} {s0 s : State} (a1 : Ctx) (a2 : List Loop) (h : Within W s0 s)
    (h_cores : Part.cores ∈ W) :
    Within W s0 (State.leaveFront s a1 a2) := by
  unfold State.leaveFront
  try dsimp only
  repeat' first
    | with_reducible assumption
    | with_reducible apply State.onEng_within

theorem State.retireFront_within {W : List Part} {s0 s : State} (a1 : Ctx) (a2 : List Loop) (a3 : Bool)
    (h : Within W s0 s) (h_cores : Part.cores ∈ W) (h_jobs : Part.jobs ∈ W) :
    Within W s0 (State.retireFront s a1 a2 a3) := by
  unfold State.retireFront
  try dsimp only
  repeat' first
    | with_reducible assumption
    | with_reducible apply State.afterRetire_within
    | with_reducible apply State.leaveFront_within

theorem admit_within {W : List Part} {s0 s : State} (r : Row) (op lc : Nat) (e : Eng) (h : Within W s0 s)
    (hh : ∀ s c, Within W s0 s → WithinP W s0 (r.hold s c)) : WithinA W s0 (admission r op s lc e) := by
  unfold admission
  extract_lets co g
  clear_value co g
  repeat' first
    | with_reducible exact withinA_off
    | with_reducible exact withinA_empty
    | with_reducible exact withinA_stopCount
    | with_reducible exact withinA_fail _
    | with_reducible exact withinA_go _
    | with_reducible exact withinA_stall _ h
    | with_reducible exact withinA_stall _ (WithinP.out (hh _ _ h) (by assumption))
    | with_reducible apply withinA_ite
    | split
    | extract_lets w x

theorem State.stallNow_within {W : List Part} {s0 s : State} (a1 : ℕ) (a2 : Eng) (a3 : ℕ) (h : Within W s0 s)
    (h_cores : Part.cores ∈ W) :
    Within W s0 (State.stallNow s a1 a2 a3) := by
  unfold State.stallNow
  try dsimp only
  repeat' first
    | with_reducible assumption
    | with_reducible apply State.onSeq_within

theorem State.idleStall_within {W : List Part} {s0 s : State} (a1 : ℕ) (a2 : Eng) (h : Within W s0 s)
    (h_cores : Part.cores ∈ W) :
    Within W s0 (State.idleStall s a1 a2) := by
  unfold State.idleStall
  try dsimp only
  repeat' first
    | with_reducible assumption
    | with_reducible apply State.onSeq_within
    | with_reducible apply within_ite

theorem runCmd_within {W : List Part} {s0 s : State} (r : Row) (op : Nat) (eff : Ctx → State → State) (lc : Nat)
    (e : Eng) (h : Within W s0 s) (h_cores : Part.cores ∈ W) (h_jobs : Part.jobs ∈ W)
    (hf : r.setsUp = true → Part.fab ∈ W) (hh : ∀ s c, Within W s0 s → WithinP W s0 (r.hold s c))
    (he : ∀ c s, Within W s0 s → Within W s0 (eff c s)) :
    WithinR W s0 (runCmd r op eff lc e s) := by
  unfold runCmd
  have hn : ∀ c, Within W s0 (if r.setsUp = true then s.noteRefused c else s) := fun c => by
    split
    · with_reducible exact State.noteRefused_within c h (hf (by assumption))
    · exact h
  repeat' first
    | with_reducible assumption
    | with_reducible apply withinR_next
    | with_reducible exact he _ _ h
    | with_reducible exact hn _
    | with_reducible apply State.idleStall_within
    | with_reducible apply State.hitStop_within
    | with_reducible apply State.failStream_within
    | with_reducible apply State.stallNow_within
    | with_reducible refine WithinA.out (admit_within r op lc e h hh) (by assumption)
    | split

theorem execWinClose_within {W : List Part} {s0 s : State} (a0 : Fin 64) (h : Within W s0 s)
    (h_cores : Part.cores ∈ W) (h_jobs : Part.jobs ∈ W) :
    WithinR W s0 (execWinClose a0 s) := by
  unfold execWinClose
  try dsimp only
  repeat' first
    | with_reducible assumption
    | with_reducible apply State.retireFront_within
    | with_reducible apply runCmd_within
    | with_reducible apply State.onSeq_within
    | with_reducible apply within_ite
    | (with_reducible intro u x hu; try dsimp only)
    | with_reducible apply withinR_ite
    | with_reducible apply withinR_next
    | split
    | (intro hs; first | (with_reducible assumption) | exact absurd hs Bool.false_ne_true)
    | with_reducible exact withinP_none
    | with_reducible apply withinP_some
    | with_reducible intro u x hu
    | (with_reducible intro x u hu; try dsimp only)
    | (unfold winCloseRow; try dsimp only)

theorem State.fetchBytes_within {W : List Part} {s0 s : State} (a1 : Bool) (a2 : ℕ) (a3 : ℕ) (h : Within W s0 s)
    (h_mem : Part.mem ∈ W) (h_flash : Part.flash ∈ W) :
    Within W s0 (State.fetchBytes s a1 a2 a3).2.2 := by
  unfold State.fetchBytes
  try dsimp only
  repeat' first
    | with_reducible assumption
    | with_reducible apply State.readMem_within
    | with_reducible refine within_pair (x := State.readMem _ _ _ _) ?_ (by assumption)
    | with_reducible apply within_ite
    | split

theorem State.unlockData_within {W : List Part} {s0 s : State} (a1 : Bool) (h : Within W s0 s)
    (h_mem : Part.mem ∈ W) (h_flash : Part.flash ∈ W) :
    WithinQ W s0 (State.unlockData s a1) := by
  unfold State.unlockData
  try dsimp only
  repeat' first
    | with_reducible assumption
    | with_reducible apply State.fetchBytes_within
    | with_reducible refine within_trip (x := State.fetchBytes _ _ _ _) ?_ (by assumption)
    | with_reducible apply within_ite
    | with_reducible exact withinQ_none
    | with_reducible apply withinQ_some
    | split

theorem execLossOfSignal_within {W : List Part} {s0 s : State} (a0 : Fin 96) (a1 : BitVec 4) (h : Within W s0 s)
    (h_ports : Part.ports ∈ W) (h_fab : Part.fab ∈ W) :
    WithinR W s0 (execLossOfSignal a0 a1 s) := by
  unfold execLossOfSignal
  try dsimp only
  repeat' first
    | with_reducible assumption
    | with_reducible apply State.train_within
    | with_reducible apply State.signal_within
    | with_reducible apply State.portTo_within
    | with_reducible apply State.onPort_within
    | with_reducible apply within_ite
    | with_reducible apply withinR_ite
    | with_reducible apply withinR_next

theorem State.preemptJob_within {W : List Part} {s0 s : State} (a1 : ℕ) (h : Within W s0 s)
    (h_cores : Part.cores ∈ W) (h_jobs : Part.jobs ∈ W) :
    Within W s0 (State.preemptJob s a1) := by
  unfold State.preemptJob
  try dsimp only
  repeat' first
    | with_reducible assumption
    | with_reducible apply State.onSeq_within
    | with_reducible apply State.onJob_within
    | with_reducible apply within_ite
    | with_reducible apply within_foldl
    | with_reducible apply within_foldl2
    | (with_reducible intro u x hu; try dsimp only)

theorem State.preemptFor_within {W : List Part} {s0 s : State} (a1 : ℕ) (h : Within W s0 s)
    (h_cores : Part.cores ∈ W) (h_jobs : Part.jobs ∈ W) :
    Within W s0 (State.preemptFor s a1) := by
  unfold State.preemptFor
  try dsimp only
  repeat' first
    | with_reducible assumption
    | with_reducible apply State.preemptJob_within
    | with_reducible apply within_ite
    | with_reducible apply within_foldl
    | with_reducible apply within_foldl2
    | (with_reducible intro u x hu; try dsimp only)
    | split

theorem State.fetchLine_within {W : List Part} {s0 s : State} (a1 : ℕ) (a2 : Eng) (h : Within W s0 s)
    (h_cores : Part.cores ∈ W) :
    Within W s0 (State.fetchLine s a1 a2) := by
  unfold State.fetchLine
  try dsimp only
  repeat' first
    | with_reducible assumption
    | with_reducible apply State.onSeq_within
    | with_reducible apply State.onScp_within
    | with_reducible apply State.setCore_within
    | with_reducible apply within_ite
    | split

theorem State.portStore_within {W : List Part} {s0 s : State} (a1 : ℕ) (a2 : PortWrite) (h : Within W s0 s)
    (h_cores : Part.cores ∈ W) (h_jobs : Part.jobs ∈ W) :
    WithinL W s0 (State.portStore s a1 a2) := by
  unfold State.portStore
  try dsimp only
  repeat' first
    | with_reducible assumption
    | with_reducible apply State.noteStop_within
    | with_reducible apply State.onSeq_within
    | with_reducible apply State.onScp_within
    | with_reducible apply within_ite
    | with_reducible exact withinL_full
    | with_reducible apply withinL_queued
    | with_reducible apply withinL_code
    | with_reducible apply withinL_done
    | split

theorem State.sendTouch_within {W : List Part} {s0 s : State} (a1 : ℕ) (a2 : Xfer) (h : Within W s0 s)
    (h_cores : Part.cores ∈ W) (h_ports : Part.ports ∈ W) (h_fab : Part.fab ∈ W) :
    Within W s0 (State.sendTouch s a1 a2) := by
  unfold State.sendTouch
  try dsimp only
  repeat' first
    | with_reducible assumption
    | with_reducible apply State.sendCtl_within
    | with_reducible apply State.settleLoc_within
    | with_reducible apply State.onFlow_within
    | with_reducible apply within_ite
    | split
    | with_reducible refine within_fab _ ?_ (by assumption)

theorem State.releaseBegun_within {W : List Part} {s0 s : State} (a1 : ℕ) (a2 : Begun) (h : Within W s0 s)
    (h_cores : Part.cores ∈ W) (h_ports : Part.ports ∈ W) (h_fab : Part.fab ∈ W) :
    Within W s0 (State.releaseBegun s a1 a2) := by
  unfold State.releaseBegun
  try dsimp only
  repeat' first
    | with_reducible assumption
    | with_reducible apply State.releaseEntry_within
    | with_reducible apply within_foldl
    | with_reducible apply within_foldl2
    | (with_reducible intro u x hu; try dsimp only)
    | split

theorem State.retireBegun_within {W : List Part} {s0 s : State} (a1 : ℕ) (a2 : Eng) (a3 : ℕ) (a4 : Bool)
    (h : Within W s0 s) (h_cores : Part.cores ∈ W) (h_ports : Part.ports ∈ W) (h_fab : Part.fab ∈ W)
    (h_jobs : Part.jobs ∈ W) :
    Within W s0 (State.retireBegun s a1 a2 a3 a4) := by
  unfold State.retireBegun
  try dsimp only
  repeat' first
    | with_reducible assumption
    | with_reducible apply State.afterRetire_within
    | with_reducible apply State.onEng_within
    | with_reducible apply State.failBegun_within
    | with_reducible apply State.releaseBegun_within
    | with_reducible apply within_ite
    | split

theorem State.endChain_within {W : List Part} {s0 s : State} (a1 : ℕ) (a2 : Begun) (h : Within W s0 s)
    (h_cores : Part.cores ∈ W) (h_ports : Part.ports ∈ W) (h_fab : Part.fab ∈ W) (h_jobs : Part.jobs ∈ W) :
    Within W s0 (State.endChain s a1 a2) := by
  unfold State.endChain
  try dsimp only
  repeat' first
    | with_reducible assumption
    | with_reducible apply State.pushOuts_within
    | with_reducible apply State.retireBegun_within

theorem State.confirmChain_within {W : List Part} {s0 s : State} (a1 : ℕ) (h : Within W s0 s)
    (h_cores : Part.cores ∈ W) (h_ports : Part.ports ∈ W) (h_fab : Part.fab ∈ W) (h_jobs : Part.jobs ∈ W) :
    Within W s0 (State.confirmChain s a1) := by
  unfold State.confirmChain
  try dsimp only
  repeat' first
    | with_reducible assumption
    | with_reducible apply State.sendTouch_within
    | with_reducible apply State.endChain_within
    | with_reducible apply State.onBegun_within
    | with_reducible apply within_ite
    | split

theorem State.placeEntry_within {W : List Part} {s0 s : State} (a1 : ℕ) (a2 : WinHdr) (a3 : Option (BitVec 20))
    (h : Within W s0 s) (h_cores : Part.cores ∈ W) :
    Within W s0 (State.placeEntry s a1 a2 a3) := by
  unfold State.placeEntry
  try dsimp only
  repeat' first
    | with_reducible assumption
    | with_reducible apply State.onSeq_within

theorem State.ownPlaced_within {W : List Part} {s0 s : State} (a1 : ℕ) (a2 : WinHdr) (a3 : ℕ) (a4 : Option
    (BitVec 12)) (a5 : Option (BitVec 24)) (h : Within W s0 s) (h_cores : Part.cores ∈ W) (h_fab : Part.fab ∈ W) :
    Within W s0 (State.ownPlaced s a1 a2 a3 a4 a5) := by
  unfold State.ownPlaced
  try dsimp only
  repeat' first
    | with_reducible assumption
    | with_reducible apply State.settleLoc_within
    | with_reducible apply State.placeEntry_within
    | with_reducible apply within_ite
    | split
    | with_reducible refine within_fab _ ?_ (by assumption)

theorem State.endXfer_within {W : List Part} {s0 s : State} (a1 : ℕ) (a2 : Eng) (h : Within W s0 s)
    (h_cores : Part.cores ∈ W) (h_ports : Part.ports ∈ W) (h_fab : Part.fab ∈ W) (h_jobs : Part.jobs ∈ W) :
    Within W s0 (State.endXfer s a1 a2) := by
  unfold State.endXfer
  try dsimp only
  repeat' first
    | with_reducible assumption
    | with_reducible apply State.pushOuts_within
    | with_reducible apply State.retireBegun_within
    | split

theorem State.portOwn_within {W : List Part} {s0 s : State} (a1 : ℕ) (a2 : ℕ) (a3 : ℕ) (a4 : WinHdr) (a5 : ℕ)
    (a6 : Option (BitVec 12)) (a7 : Option (BitVec 24)) (a8 : BitVec 8) (h : Within W s0 s)
    (h_cores : Part.cores ∈ W) (h_ports : Part.ports ∈ W) (h_fab : Part.fab ∈ W) (h_jobs : Part.jobs ∈ W) :
    Within W s0 (State.portOwn s a1 a2 a3 a4 a5 a6 a7 a8) := by
  unfold State.portOwn
  try dsimp only
  repeat' first
    | with_reducible assumption
    | with_reducible apply State.confirmChain_within
    | with_reducible apply State.ownPlaced_within
    | with_reducible apply State.endXfer_within
    | with_reducible apply State.failXfer_within
    | with_reducible apply State.onBegun_within
    | with_reducible apply within_ite

theorem State.noteXfer_within {W : List Part} {s0 s : State} (a1 : PktHdr) (a2 : WinHdr) (a3 : ℕ)
    (h : Within W s0 s) (h_fab : Part.fab ∈ W) :
    Within W s0 (State.noteXfer s a1 a2 a3) := by
  unfold State.noteXfer
  try dsimp only
  repeat' first
    | with_reducible assumption
    | with_reducible apply State.onFlow_within
    | with_reducible apply within_ite

theorem State.spoilXfer_within {W : List Part} {s0 s : State} (a1 : ℕ) (a2 : WinHdr) (h : Within W s0 s)
    (h_fab : Part.fab ∈ W) :
    Within W s0 (State.spoilXfer s a1 a2) := by
  unfold State.spoilXfer
  try dsimp only
  repeat' first
    | with_reducible assumption
    | with_reducible apply State.onFlow_within

theorem State.portPacket_within {W : List Part} {s0 s : State} (a1 : ℕ) (a2 : PktHdr) (a3 : WinHdr) (a4 : ℕ)
    (a5 : BitVec 8) (h : Within W s0 s) (h_cores : Part.cores ∈ W) (h_mem : Part.mem ∈ W)
    (h_ports : Part.ports ∈ W) (h_fab : Part.fab ∈ W) (h_jobs : Part.jobs ∈ W) :
    Within W s0 (State.portPacket s a1 a2 a3 a4 a5) := by
  unfold State.portPacket
  try dsimp only
  repeat' first
    | with_reducible assumption
    | with_reducible apply State.noteXfer_within
    | with_reducible apply State.spoilXfer_within
    | with_reducible apply State.afterArrival_within
    | with_reducible apply State.recordArrival_within
    | with_reducible apply State.placeEntry_within
    | with_reducible apply within_ite

theorem State.portDone_within {W : List Part} {s0 s : State} (a1 : ℕ) (a2 : PortWrite) (a3 : BitVec 8)
    (h : Within W s0 s) (h_cores : Part.cores ∈ W) (h_mem : Part.mem ∈ W) (h_ports : Part.ports ∈ W)
    (h_fab : Part.fab ∈ W) (h_jobs : Part.jobs ∈ W) :
    Within W s0 (State.portDone s a1 a2 a3) := by
  unfold State.portDone
  try dsimp only
  repeat' first
    | with_reducible assumption
    | with_reducible apply State.portOwn_within
    | with_reducible apply State.portPacket_within
    | split

theorem State.portTry_within {W : List Part} {s0 s : State} (a1 : ℕ) (a2 : PortWrite) (h : Within W s0 s)
    (h_cores : Part.cores ∈ W) (h_mem : Part.mem ∈ W) (h_ports : Part.ports ∈ W) (h_fab : Part.fab ∈ W)
    (h_jobs : Part.jobs ∈ W) :
    Within W s0 (State.portTry s a1 a2) := by
  unfold State.portTry
  try dsimp only
  repeat' first
    | with_reducible assumption
    | with_reducible apply State.portStore_within
    | with_reducible refine WithinL.queuedOut (v := State.portStore _ _ _) ?_ (by assumption)
    | with_reducible refine WithinL.codeOut (v := State.portStore _ _ _) ?_ (by assumption)
    | with_reducible refine WithinL.doneOut (v := State.portStore _ _ _) ?_ (by assumption)
    | with_reducible apply State.onScp_within
    | with_reducible apply State.portDone_within
    | with_reducible apply within_ite
    | split

theorem State.pumpPort_within {W : List Part} {s0 s : State} (a1 : ℕ) (h : Within W s0 s)
    (h_cores : Part.cores ∈ W) (h_mem : Part.mem ∈ W) (h_ports : Part.ports ∈ W) (h_fab : Part.fab ∈ W)
    (h_jobs : Part.jobs ∈ W) :
    Within W s0 (State.pumpPort s a1) := by
  unfold State.pumpPort
  try dsimp only
  repeat' first
    | with_reducible assumption
    | with_reducible apply State.portTry_within
    | with_reducible apply within_foldl
    | with_reducible apply within_foldl2
    | (with_reducible intro u x hu; try dsimp only)

theorem State.bankHit_within {W : List Part} {s0 s : State} (a1 : ℕ) (a2 : BankHit) (h : Within W s0 s)
    (h_cores : Part.cores ∈ W) :
    Within W s0 (State.bankHit s a1 a2) := by
  unfold State.bankHit
  try dsimp only
  repeat' first
    | with_reducible assumption
    | with_reducible apply State.onScp_within
    | split

theorem execCommandFetch_within {W : List Part} {s0 s : State} (a0 : Fin 64) (a1 : Eng) (a2 : Option BankHit)
    (h : Within W s0 s) (h_cores : Part.cores ∈ W) (h_mem : Part.mem ∈ W) (h_ports : Part.ports ∈ W)
    (h_fab : Part.fab ∈ W) (h_jobs : Part.jobs ∈ W) :
    WithinR W s0 (execCommandFetch a0 a1 a2 s) := by
  unfold execCommandFetch
  try dsimp only
  repeat' first
    | with_reducible assumption
    | with_reducible apply State.fetchLine_within
    | with_reducible apply State.pumpPort_within
    | with_reducible apply State.bankHit_within
    | with_reducible apply within_ite
    | with_reducible apply withinR_ite
    | with_reducible apply withinR_next
    | split

theorem State.haltPair_within {W : List Part} {s0 s : State} (a1 : ℕ) (a2 : ℕ) (h : Within W s0 s)
    (h_host : Part.host ∈ W) :
    Within W s0 (State.haltPair s a1 a2) := by
  unfold State.haltPair
  try dsimp only
  repeat' first
    | with_reducible assumption
    | with_reducible apply State.placeMsg_within
    | with_reducible apply State.onPair_within

theorem State.scanPair_within {W : List Part} {s0 s : State} (a0 : ℕ) (a1 : ℕ) (h : Within W s0 s)
    (h_host : Part.host ∈ W) :
    Within W s0 (State.scanPair a0 a1 s) := by
  induction a1 generalizing a0 s with
  | zero =>
    unfold State.scanPair
    try dsimp only
    repeat' first
      | with_reducible assumption
  | succ k ih =>
    unfold State.scanPair
    try dsimp only
    repeat' first
      | with_reducible assumption
      | with_reducible apply ih
      | with_reducible apply State.onPair_within
      | with_reducible apply State.placeResp_within
      | with_reducible apply State.haltPair_within
      | with_reducible apply within_ite
      | split

theorem execMbxScan_within {W : List Part} {s0 s : State} (a0 : ℕ) (h : Within W s0 s) (h_host : Part.host ∈ W)
    (h_clk : Part.clk ∈ W) :
    WithinR W s0 (execMbxScan a0 s) := by
  unfold execMbxScan
  try dsimp only
  repeat' first
    | with_reducible assumption
    | with_reducible apply State.vectorOf_within
    | with_reducible apply State.at_within
    | with_reducible apply State.scanPair_within
    | with_reducible apply within_ite
    | with_reducible apply within_foldl
    | with_reducible apply within_foldl2
    | (with_reducible intro u x hu; try dsimp only)
    | with_reducible apply withinR_ite
    | with_reducible apply withinR_next

theorem execNeighbourSolicitation_within {W : List Part} {s0 s : State} (a0 : Fin 96) (a1 : BitVec 128)
    (a2 : BitVec 128) (a3 : BitVec 48) (h : Within W s0 s) (h_ports : Part.ports ∈ W) :
    WithinR W s0 (execNeighbourSolicitation a0 a1 a2 a3 s) := by
  unfold execNeighbourSolicitation
  try dsimp only
  repeat' first
    | with_reducible assumption
    | with_reducible apply State.sendNa_within
    | with_reducible apply within_ite
    | with_reducible apply withinR_ite
    | with_reducible apply withinR_next

theorem State.noSpare_within {W : List Part} {s0 s : State} (a1 : ℕ) (h : Within W s0 s)
    (h_ports : Part.ports ∈ W) (h_fab : Part.fab ∈ W) :
    Within W s0 (State.noSpare s a1) := by
  unfold State.noSpare
  try dsimp only
  repeat' first
    | with_reducible assumption
    | with_reducible apply State.portTo_within
    | with_reducible apply State.onPort_within

theorem State.saveRecord_within {W : List Part} {s0 s : State} (a1 : ℕ) (h : Within W s0 s)
    (h_optics : Part.optics ∈ W) :
    Within W s0 (State.saveRecord s a1) := by
  unfold State.saveRecord
  try dsimp only
  repeat' first
    | with_reducible assumption
    | with_reducible apply State.onOptic_within
    | split

theorem State.recordSubst_within {W : List Part} {s0 s : State} (a1 : ℕ) (h : Within W s0 s)
    (h_ports : Part.ports ∈ W) (h_optics : Part.optics ∈ W) (h_flash : Part.flash ∈ W) :
    Within W s0 (State.recordSubst s a1) := by
  unfold State.recordSubst
  try dsimp only
  repeat' first
    | with_reducible assumption
    | with_reducible apply State.onOptic_within
    | with_reducible apply State.fieldFail_within
    | with_reducible apply State.onPort_within
    | with_reducible apply within_ite

theorem State.sendLldp_within {W : List Part} {s0 s : State} (a1 : ℕ) (h : Within W s0 s) (h_ports : Part.ports ∈ W) :
    Within W s0 (State.sendLldp s a1) := by
  unfold State.sendLldp
  try dsimp only
  repeat' first
    | with_reducible assumption
    | with_reducible apply State.hkSend_within
    | with_reducible apply State.onPort_within
    | with_reducible apply within_ite

theorem State.rise_within {W : List Part} {s0 s : State} (a1 : ℕ) (h : Within W s0 s) (h_ports : Part.ports ∈ W)
    (h_optics : Part.optics ∈ W) (h_fab : Part.fab ∈ W) (h_flash : Part.flash ∈ W) :
    Within W s0 (State.rise s a1) := by
  unfold State.rise
  try dsimp only
  repeat' first
    | with_reducible assumption
    | with_reducible apply State.announce_within
    | with_reducible apply State.goOutAll_within
    | with_reducible apply State.saveRecord_within
    | with_reducible apply State.recordSubst_within
    | with_reducible apply State.sendLldp_within
    | with_reducible apply State.onPort_within
    | with_reducible apply State.portTo_within

theorem State.dropSaved_within {W : List Part} {s0 s : State} (a1 : ℕ) (h : Within W s0 s)
    (h_ports : Part.ports ∈ W) (h_optics : Part.optics ∈ W) :
    Within W s0 (State.dropSaved s a1) := by
  unfold State.dropSaved
  try dsimp only
  repeat' first
    | with_reducible assumption
    | with_reducible apply State.onOptic_within
    | with_reducible apply State.onPort_within

theorem State.substitute_within {W : List Part} {s0 s : State} (a1 : ℕ) (a2 : ℕ) (h : Within W s0 s)
    (h_ports : Part.ports ∈ W) (h_optics : Part.optics ∈ W) (h_fab : Part.fab ∈ W) :
    Within W s0 (State.substitute s a1 a2) := by
  unfold State.substitute
  try dsimp only
  repeat' first
    | with_reducible assumption
    | with_reducible apply State.noSpare_within
    | with_reducible apply State.onOptic_within
    | with_reducible apply State.train_within
    | with_reducible apply State.onPort_within
    | with_reducible apply State.portTo_within
    | with_reducible apply within_ite

theorem execPortRetrain_within {W : List Part} {s0 s : State} (a0 : Fin 96) (a1 : Bool) (h : Within W s0 s)
    (h_ports : Part.ports ∈ W) (h_optics : Part.optics ∈ W) (h_fab : Part.fab ∈ W) (h_flash : Part.flash ∈ W) :
    WithinR W s0 (execPortRetrain a0 a1 s) := by
  unfold execPortRetrain
  try dsimp only
  repeat' first
    | with_reducible assumption
    | with_reducible apply State.noSpare_within
    | with_reducible apply State.rise_within
    | with_reducible apply State.dropSaved_within
    | with_reducible apply State.substitute_within
    | with_reducible apply State.onPort_within
    | with_reducible apply within_ite
    | with_reducible apply withinR_ite
    | with_reducible apply withinR_next

theorem State.landBytes_within {W : List Part} {s0 s : State} (a1 : ℕ) (a2 : Begun) (a3 : ℕ) (a4 : List MB)
    (h : Within W s0 s) (h_cores : Part.cores ∈ W) :
    WithinD W s0 (State.landBytes s a1 a2 a3 a4) := by
  unfold State.landBytes
  try dsimp only
  repeat' first
    | with_reducible assumption
    | with_reducible apply State.onScp_within
    | with_reducible apply within_ite
    | with_reducible apply withinD_wait
    | with_reducible exact withinD_code
    | with_reducible apply withinD_done
    | split

theorem State.failChain_within {W : List Part} {s0 s : State} (a1 : ℕ) (a2 : Begun) (a3 : ℕ) (h : Within W s0 s)
    (h_cores : Part.cores ∈ W) (h_ports : Part.ports ∈ W) (h_fab : Part.fab ∈ W) (h_jobs : Part.jobs ∈ W)
    (h_flash : Part.flash ∈ W) :
    Within W s0 (State.failChain s a1 a2 a3) := by
  unfold State.failChain
  try dsimp only
  repeat' first
    | with_reducible assumption
    | with_reducible apply State.dropCommand_within
    | with_reducible apply State.countReplay_within
    | with_reducible apply State.secondFailure_within
    | with_reducible apply State.onBegun_within
    | with_reducible apply State.strikeChain_within
    | with_reducible apply within_ite

theorem State.signNext_within {W : List Part} {s0 s : State} (a1 : Bool) (h : Within W s0 s)
    (h_host : Part.host ∈ W) (h_sec : Part.sec ∈ W) :
    Within W s0 (State.signNext s a1) := by
  unfold State.signNext
  try dsimp only
  repeat' first
    | with_reducible assumption
    | with_reducible apply State.answerLate_within
    | with_reducible apply within_ite
    | split
    | with_reducible refine within_sec _ ?_ (by assumption)
    | with_reducible refine within_host_sec _ _ ?_ (by assumption) (by assumption)

theorem readInputs_within {W : List Part} {s0 s : State} (a1 : Ctx) (h : Within W s0 s) (h_cores : Part.cores ∈ W) :
    Within W s0 (readInputs s a1).2 := by
  unfold readInputs
  try dsimp only
  repeat' first
    | with_reducible assumption
    | with_reducible apply State.setCore_within
    | with_reducible apply within_foldl
    | with_reducible apply within_foldl2
    | (with_reducible intro u x hu; try dsimp only)

end Sys2Proof.Machine
end

