-- ==== Sys2Proof/Laws/Frames4.lean ====
section
/-! SUPPORT. For each operation and meaning, in dependency order (part 5 of 10): the parts of the state it can
change. -/

namespace Sys2Proof.Machine

theorem State.vecFlags_within {W : List Part} {s0 s : State} (a1 : ℕ) (a2 : VFlags) (h : Within W s0 s)
    (h_cores : Part.cores ∈ W) :
    Within W s0 (State.vecFlags s a1 a2) := by
  unfold State.vecFlags
  try dsimp only
  repeat' first
    | with_reducible assumption
    | with_reducible apply State.onInteg_within

theorem State.addExtent_within {W : List Part} {s0 s : State} (a1 : ℕ) (a2 : BitVec 12) (a3 : List (ℕ × ℕ))
    (a4 : Option (ℕ × ℕ)) (h : Within W s0 s) (h_cores : Part.cores ∈ W) (h_mem : Part.mem ∈ W)
    (h_ports : Part.ports ∈ W) (h_fab : Part.fab ∈ W) :
    Within W s0 (State.addExtent s a1 a2 a3 a4) := by
  unfold State.addExtent
  try dsimp only
  repeat' first
    | with_reducible assumption
    | with_reducible apply State.onScp_within
    | with_reducible apply State.abortGroup_within
    | with_reducible apply within_ite

theorem State.pushTile_within {W : List Part} {s0 s : State} (a1 : Ctx) (a2 : ℕ) (a3 : ℕ) (a4 : ℕ) (a5 : ℕ)
    (a6 : List MB) (h : Within W s0 s) (h_cores : Part.cores ∈ W) (h_mem : Part.mem ∈ W)
    (h_ports : Part.ports ∈ W) (h_fab : Part.fab ∈ W) :
    WithinO W s0 (State.pushTile s a1 a2 a3 a4 a5 a6) := by
  unfold State.pushTile
  try dsimp only
  repeat' first
    | with_reducible assumption
    | with_reducible apply State.onQueue_within
    | with_reducible apply State.onScp_within
    | with_reducible apply State.addExtent_within
    | with_reducible apply within_ite
    | with_reducible apply within_getD
    | with_reducible apply withinO_bind
    | with_reducible refine WithinO.out (o := Option.bind _ _) ?_ (by assumption)
    | with_reducible intro u hu
    | with_reducible exact withinO_none
    | with_reducible apply withinO_some
    | split

theorem State.pushTiles_within {W : List Part} {s0 s : State} (a1 : Ctx) (a2 : ℕ) (a3 : List Tile)
    (h : Within W s0 s) (h_cores : Part.cores ∈ W) (h_mem : Part.mem ∈ W) (h_ports : Part.ports ∈ W)
    (h_fab : Part.fab ∈ W) :
    WithinO W s0 (State.pushTiles s a1 a2 a3) := by
  induction a3 generalizing s a1 a2 with
  | nil =>
    unfold State.pushTiles
    try dsimp only
    repeat' first
      | with_reducible assumption
      | with_reducible apply State.pushTile_within
      | with_reducible refine WithinO.out (o := State.pushTile _ _ _ _ _ _ _) ?_ (by assumption)
      | with_reducible apply withinO_bind
      | with_reducible refine WithinO.out (o := Option.bind _ _) ?_ (by assumption)
      | with_reducible intro u hu
      | with_reducible exact withinO_none
      | with_reducible apply withinO_some
  | cons x r ih =>
    unfold State.pushTiles
    try dsimp only
    repeat' first
      | with_reducible assumption
      | with_reducible apply ih
      | with_reducible apply State.pushTile_within
      | with_reducible refine WithinO.out (o := State.pushTile _ _ _ _ _ _ _) ?_ (by assumption)
      | with_reducible apply withinO_bind
      | with_reducible refine WithinO.out (o := Option.bind _ _) ?_ (by assumption)
      | with_reducible intro u hu
      | with_reducible exact withinO_none
      | with_reducible apply withinO_some
      | split

theorem State.poisonStop_within {W : List Part} {s0 s : State} (a1 : Ctx) (h : Within W s0 s)
    (h_cores : Part.cores ∈ W) (h_jobs : Part.jobs ∈ W) :
    Within W s0 (State.poisonStop s a1) := by
  unfold State.poisonStop
  try dsimp only
  repeat' first
    | with_reducible assumption
    | with_reducible apply State.failBegun_within

theorem State.consume_within {W : List Part} {s0 s : State} (a1 : Ctx) (h : Within W s0 s)
    (h_cores : Part.cores ∈ W) (h_ports : Part.ports ∈ W) (h_fab : Part.fab ∈ W) :
    Within W s0 (State.consume s a1) := by
  unfold State.consume
  try dsimp only
  repeat' first
    | with_reducible assumption
    | with_reducible apply State.onQueue_within
    | with_reducible apply State.releaseEntry_within
    | with_reducible apply within_ite
    | with_reducible apply within_foldl
    | with_reducible apply within_foldl2
    | (with_reducible intro u x hu; try dsimp only)

theorem State.complete_within {W : List Part} {s0 s : State} (a1 : Ctx) (a2 : List Tile) (a3 : Bool)
    (h : Within W s0 s) (h_cores : Part.cores ∈ W) (h_mem : Part.mem ∈ W) (h_ports : Part.ports ∈ W)
    (h_fab : Part.fab ∈ W) (h_jobs : Part.jobs ∈ W) :
    Within W s0 (State.complete s a1 a2 a3) := by
  unfold State.complete
  try dsimp only
  repeat' first
    | with_reducible assumption
    | with_reducible apply State.afterRetire_within
    | with_reducible apply State.pushTiles_within
    | with_reducible refine WithinO.out (o := State.pushTiles _ _ _ _) ?_ (by assumption)
    | with_reducible apply State.leaveFront_within
    | with_reducible apply State.failStream_within
    | with_reducible apply State.poisonStop_within
    | with_reducible apply State.consume_within
    | with_reducible apply within_ite
    | with_reducible refine WithinO.out (o := ite _ _ _) ?_ (by assumption)
    | with_reducible apply withinO_some
    | split

theorem vxFinish_within {W : List Part} {s0 s : State} (a0 : Ctx) (a2 : Bool) (a3 : ℕ) (a4 : ℕ) (a5 : ℕ)
    (a6 : List (List (List ℕ))) (a7 : List (List ℕ)) (a8 : VFlags) (h : Within W s0 s) (h_cores : Part.cores ∈ W)
    (h_mem : Part.mem ∈ W) (h_ports : Part.ports ∈ W) (h_fab : Part.fab ∈ W) (h_jobs : Part.jobs ∈ W) :
    Within W s0 (vxFinish a0 s a2 a3 a4 a5 a6 a7 a8) := by
  unfold vxFinish
  try dsimp only
  repeat' first
    | with_reducible assumption
    | with_reducible apply State.vecFlags_within
    | with_reducible apply State.onScp_within
    | with_reducible apply State.complete_within
    | with_reducible apply within_ite

theorem vxElementwise_within {W : List Part} {s0 s : State} (a0 : VxKind) (a1 : Cmd → List Val → Val × Bool)
    (a2 : Ctx) (h : Within W s0 s) (h_cores : Part.cores ∈ W) (h_mem : Part.mem ∈ W) (h_ports : Part.ports ∈ W)
    (h_fab : Part.fab ∈ W) (h_jobs : Part.jobs ∈ W) :
    Within W s0 (vxElementwise a0 a1 a2 s) := by
  unfold vxElementwise
  try dsimp only
  repeat' first
    | with_reducible assumption
    | with_reducible apply readInputs_within
    | with_reducible refine within_pair (x := readInputs _ _) ?_ (by assumption)
    | with_reducible apply vxFinish_within

theorem execVxRsqrt_within {W : List Part} {s0 s : State} (a0 : Fin 64) (h : Within W s0 s)
    (h_cores : Part.cores ∈ W) (h_mem : Part.mem ∈ W) (h_ports : Part.ports ∈ W) (h_fab : Part.fab ∈ W)
    (h_jobs : Part.jobs ∈ W) :
    WithinR W s0 (execVxRsqrt a0 s) := by
  unfold execVxRsqrt
  try dsimp only
  repeat' first
    | with_reducible assumption
    | with_reducible apply vxElementwise_within
    | with_reducible apply runCmd_within
    | with_reducible apply tileHold_within
    | with_reducible refine WithinP.out (o := tileHold _ _ _) ?_ (by assumption)
    | with_reducible apply within_ite
    | (with_reducible intro u x hu; try dsimp only)
    | with_reducible apply withinR_ite
    | with_reducible apply withinR_next
    | split
    | (intro hs; first | (with_reducible assumption) | exact absurd hs Bool.false_ne_true)
    | with_reducible exact withinP_none
    | with_reducible apply withinP_some
    | with_reducible intro u x hu
    | (with_reducible intro x u hu; try dsimp only)
    | (unfold vxRow; try dsimp only)

theorem vxQuantEff_within {W : List Part} {s0 s : State} (a0 : Ctx) (h : Within W s0 s) (h_cores : Part.cores ∈ W)
    (h_mem : Part.mem ∈ W) (h_ports : Part.ports ∈ W) (h_fab : Part.fab ∈ W) (h_jobs : Part.jobs ∈ W) :
    Within W s0 (vxQuantEff a0 s) := by
  unfold vxQuantEff
  try dsimp only
  repeat' first
    | with_reducible assumption
    | with_reducible apply readInputs_within
    | with_reducible refine within_pair (x := readInputs _ _) ?_ (by assumption)
    | with_reducible apply vxFinish_within

theorem execVxQuant_within {W : List Part} {s0 s : State} (a0 : Fin 64) (h : Within W s0 s)
    (h_cores : Part.cores ∈ W) (h_mem : Part.mem ∈ W) (h_ports : Part.ports ∈ W) (h_fab : Part.fab ∈ W)
    (h_jobs : Part.jobs ∈ W) :
    WithinR W s0 (execVxQuant a0 s) := by
  unfold execVxQuant
  try dsimp only
  repeat' first
    | with_reducible assumption
    | with_reducible apply runCmd_within
    | with_reducible apply vxQuantEff_within
    | with_reducible apply tileHold_within
    | with_reducible refine WithinP.out (o := tileHold _ _ _) ?_ (by assumption)
    | with_reducible apply within_ite
    | (with_reducible intro u x hu; try dsimp only)
    | with_reducible apply withinR_ite
    | with_reducible apply withinR_next
    | split
    | (intro hs; first | (with_reducible assumption) | exact absurd hs Bool.false_ne_true)
    | with_reducible exact withinP_none
    | with_reducible apply withinP_some
    | with_reducible intro u x hu
    | (with_reducible intro x u hu; try dsimp only)
    | (unfold vxRow; try dsimp only)

theorem execInPlaceAdd_within {W : List Part} {s0 s : State} (a0 : BitVec 40) (a1 : Bool) (a2 : List Byte)
    (a3 : Bool) (a4 : Upset) (h : Within W s0 s) (h_cores : Part.cores ∈ W) (h_mem : Part.mem ∈ W)
    (h_ports : Part.ports ∈ W) (h_fab : Part.fab ∈ W) (h_flash : Part.flash ∈ W) :
    WithinR W s0 (execInPlaceAdd a0 a1 a2 a3 a4 s) := by
  unfold execInPlaceAdd
  try dsimp only
  repeat' first
    | with_reducible assumption
    | with_reducible apply State.addMem_within
    | with_reducible apply within_ite
    | with_reducible apply withinR_ite
    | with_reducible apply withinR_next

theorem State.onSQueue_within {W : List Part} {s0 s : State} (a1 : ℕ) (a2 : SQueue → SQueue) (h : Within W s0 s)
    (h_jobs : Part.jobs ∈ W) :
    Within W s0 (State.onSQueue s a1 a2) := by
  unfold State.onSQueue
  try dsimp only
  repeat' first
    | with_reducible assumption
    | split
    | with_reducible refine within_jobs _ ?_ (by assumption)

theorem State.settlePreempt_within {W : List Part} {s0 s : State} (a1 : ℕ) (h : Within W s0 s)
    (h_jobs : Part.jobs ∈ W) :
    Within W s0 (State.settlePreempt s a1) := by
  unfold State.settlePreempt
  try dsimp only
  repeat' first
    | with_reducible assumption
    | with_reducible apply State.onSQueue_within
    | with_reducible apply State.onJob_within
    | with_reducible apply within_ite

theorem execTileFailure_within {W : List Part} {s0 s : State} (a0 : Fin 16) (h : Within W s0 s)
    (h_pwr : Part.pwr ∈ W) :
    WithinR W s0 (execTileFailure a0 s) := by
  unfold execTileFailure
  try dsimp only
  repeat' first
    | with_reducible assumption
    | with_reducible apply withinR_next
    | split
    | with_reducible refine within_pwr _ ?_ (by assumption)

theorem execVxMin_within {W : List Part} {s0 s : State} (a0 : Fin 64) (h : Within W s0 s)
    (h_cores : Part.cores ∈ W) (h_mem : Part.mem ∈ W) (h_ports : Part.ports ∈ W) (h_fab : Part.fab ∈ W)
    (h_jobs : Part.jobs ∈ W) :
    WithinR W s0 (execVxMin a0 s) := by
  unfold execVxMin
  try dsimp only
  repeat' first
    | with_reducible assumption
    | with_reducible apply vxElementwise_within
    | with_reducible apply runCmd_within
    | with_reducible apply tileHold_within
    | with_reducible refine WithinP.out (o := tileHold _ _ _) ?_ (by assumption)
    | with_reducible apply within_ite
    | with_reducible apply within_getD
    | (with_reducible intro u x hu; try dsimp only)
    | with_reducible apply withinR_ite
    | with_reducible apply withinR_next
    | split
    | (intro hs; first | (with_reducible assumption) | exact absurd hs Bool.false_ne_true)
    | with_reducible exact withinP_none
    | with_reducible apply withinP_some
    | with_reducible intro u x hu
    | (with_reducible intro x u hu; try dsimp only)
    | (unfold vxRow; try dsimp only)

theorem State.unlockDone_within {W : List Part} {s0 s : State} (a1 : Apply) (a2 : ℕ) (h : Within W s0 s)
    (h_cores : Part.cores ∈ W) (h_ports : Part.ports ∈ W) (h_optics : Part.optics ∈ W) (h_fab : Part.fab ∈ W)
    (h_host : Part.host ∈ W) (h_cfg : Part.cfg ∈ W) (h_pwr : Part.pwr ∈ W) :
    Within W s0 (State.unlockDone s a1 a2) := by
  unfold State.unlockDone
  try dsimp only
  repeat' first
    | with_reducible assumption
    | with_reducible apply State.serve_within
    | split
    | with_reducible refine within_cfg _ ?_ (by assumption)

theorem State.shadowAll_within {W : List Part} {s0 s : State} (a1 : GrpKey) (a2 : List (ℕ × ShadowOp))
    (h : Within W s0 s) (h_mem : Part.mem ∈ W) (h_flash : Part.flash ∈ W) :
    WithinO W s0 (State.shadowAll s a1 a2) := by
  induction a2 generalizing s a1 with
  | nil =>
    unfold State.shadowAll
    try dsimp only
    repeat' first
      | with_reducible assumption
      | with_reducible apply State.shadowOp_within
      | with_reducible refine WithinO.out (o := State.shadowOp _ _ _ _) ?_ (by assumption)
      | with_reducible apply withinO_bind
      | with_reducible refine WithinO.out (o := Option.bind _ _) ?_ (by assumption)
      | with_reducible intro u hu
      | with_reducible exact withinO_none
      | with_reducible apply withinO_some
  | cons x r ih =>
    unfold State.shadowAll
    try dsimp only
    repeat' first
      | with_reducible assumption
      | with_reducible apply ih
      | with_reducible apply State.shadowOp_within
      | with_reducible refine WithinO.out (o := State.shadowOp _ _ _ _) ?_ (by assumption)
      | with_reducible apply withinO_bind
      | with_reducible refine WithinO.out (o := Option.bind _ _) ?_ (by assumption)
      | with_reducible intro u hu
      | with_reducible exact withinO_none
      | with_reducible apply withinO_some
      | split

theorem State.tagFlow_within {W : List Part} {s0 s : State} (a1 : ℕ) (a2 : Option (BitVec 12)) (a3 : ℕ)
    (h : Within W s0 s) (h_cores : Part.cores ∈ W) (h_mem : Part.mem ∈ W) (h_ports : Part.ports ∈ W)
    (h_fab : Part.fab ∈ W) :
    Within W s0 (State.tagFlow s a1 a2 a3) := by
  unfold State.tagFlow
  try dsimp only
  repeat' first
    | with_reducible assumption
    | with_reducible apply State.onSeq_within
    | with_reducible apply State.abortGroup_within
    | with_reducible apply within_ite
    | split

theorem State.dropWindow_within {W : List Part} {s0 s : State} (a1 : ℕ) (h : Within W s0 s)
    (h_cores : Part.cores ∈ W) :
    Within W s0 (State.dropWindow s a1) := by
  unfold State.dropWindow
  try dsimp only
  repeat' first
    | with_reducible assumption
    | with_reducible apply State.onSeq_within

theorem State.farFlow_within {W : List Part} {s0 s : State} (a1 : ℕ) (a2 : BitVec 18) (h : Within W s0 s)
    (h_cores : Part.cores ∈ W) (h_mem : Part.mem ∈ W) (h_ports : Part.ports ∈ W) (h_fab : Part.fab ∈ W) :
    WithinF W s0 (State.farFlow s a1 a2) := by
  unfold State.farFlow
  try dsimp only
  repeat' first
    | with_reducible assumption
    | with_reducible apply State.startSetup_within
    | with_reducible refine WithinM.out (v := State.startSetup _ _ _) ?_ (by assumption)
    | with_reducible exact withinF_ready _
    | with_reducible exact withinF_refused _
    | with_reducible apply withinF_wait
    | split

theorem State.chainNan_within {W : List Part} {s0 s : State} (a1 : ℕ) (a2 : Bool) (h : Within W s0 s)
    (h_cores : Part.cores ∈ W) :
    Within W s0 (State.chainNan s a1 a2) := by
  unfold State.chainNan
  try dsimp only
  repeat' first
    | with_reducible assumption
    | with_reducible apply State.redFlags_within
    | with_reducible apply within_ite

theorem State.addUnits_within {W : List Part} {s0 s : State} (a1 : ℕ) (a2 : ℕ) (a3 : Tile) (a4 : Option GrpKey)
    (h : Within W s0 s) (h_cores : Part.cores ∈ W) (h_mem : Part.mem ∈ W) (h_ports : Part.ports ∈ W)
    (h_fab : Part.fab ∈ W) (h_flash : Part.flash ∈ W) :
    Within W s0 (State.addUnits s a1 a2 a3 a4) := by
  unfold State.addUnits
  try dsimp only
  repeat' first
    | with_reducible assumption
    | with_reducible apply State.chainNan_within
    | with_reducible apply State.addMem_within
    | with_reducible apply within_foldl
    | with_reducible apply within_foldl2
    | (with_reducible intro u x hu; try dsimp only)

theorem State.popInputs_within {W : List Part} {s0 s : State} (a1 : Ctx) (h : Within W s0 s)
    (h_cores : Part.cores ∈ W) :
    Within W s0 (State.popInputs s a1) := by
  unfold State.popInputs
  try dsimp only
  repeat' first
    | with_reducible assumption
    | with_reducible apply State.onQueue_within
    | with_reducible apply within_ite
    | with_reducible apply within_foldl
    | with_reducible apply within_foldl2
    | (with_reducible intro u x hu; try dsimp only)

theorem State.beginXfer_within {W : List Part} {s0 s : State} (a1 : Ctx) (a2 : List (ℕ × ℕ)) (a3 : Option Xfer)
    (h : Within W s0 s) (h_cores : Part.cores ∈ W) :
    Within W s0 (State.beginXfer s a1 a2 a3) := by
  unfold State.beginXfer
  try dsimp only
  repeat' first
    | with_reducible assumption
    | with_reducible apply State.onEng_within
    | with_reducible apply State.popInputs_within

theorem State.chainPart_within {W : List Part} {s0 s : State} (a1 : ℕ) (a2 : Begun) (a3 : ℕ) (h : Within W s0 s)
    (h_cores : Part.cores ∈ W) :
    Within W s0 (State.chainPart s a1 a2 a3).2.2 := by
  unfold State.chainPart
  try dsimp only
  repeat' first
    | with_reducible assumption
    | with_reducible apply State.setCore_within
    | split

theorem State.tagOut_within {W : List Part} {s0 s : State} (a1 : ℕ) (a2 : Begun) (h : Within W s0 s)
    (h_cores : Part.cores ∈ W) (h_mem : Part.mem ∈ W) (h_ports : Part.ports ∈ W) (h_fab : Part.fab ∈ W) :
    Within W s0 (State.tagOut s a1 a2) := by
  unfold State.tagOut
  try dsimp only
  repeat' first
    | with_reducible assumption
    | with_reducible apply State.addExtent_within
    | with_reducible apply within_ite
    | split

theorem State.store_within {W : List Part} {s0 s : State} (a1 : ℕ) (a2 : Begun) (a3 : Tile) (a4 : ℕ)
    (h : Within W s0 s) (h_cores : Part.cores ∈ W) (h_mem : Part.mem ∈ W) (h_ports : Part.ports ∈ W)
    (h_fab : Part.fab ∈ W) :
    WithinD W s0 (State.store s a1 a2 a3 a4) := by
  unfold State.store
  try dsimp only
  repeat' first
    | with_reducible assumption
    | with_reducible apply State.landBytes_within
    | with_reducible refine WithinD.waitOut (v := State.landBytes _ _ _ _ _) ?_ (by assumption)
    | with_reducible refine WithinD.doneOut (v := State.landBytes _ _ _ _ _) ?_ (by assumption)
    | with_reducible apply State.onQueue_within
    | with_reducible apply State.tagOut_within
    | with_reducible apply State.onBegun_within
    | with_reducible apply within_ite
    | with_reducible apply withinD_wait
    | with_reducible exact withinD_code
    | with_reducible apply withinD_done
    | split

theorem State.portWrite_within {W : List Part} {s0 s : State} (a1 : ℕ) (a2 : PortWrite) (h : Within W s0 s)
    (h_cores : Part.cores ∈ W) (h_jobs : Part.jobs ∈ W) :
    WithinL W s0 (State.portWrite s a1 a2) := by
  unfold State.portWrite
  try dsimp only
  repeat' first
    | with_reducible assumption
    | with_reducible apply State.portStore_within
    | with_reducible refine WithinL.queuedOut (v := State.portStore _ _ _) ?_ (by assumption)
    | with_reducible refine WithinL.codeOut (v := State.portStore _ _ _) ?_ (by assumption)
    | with_reducible refine WithinL.doneOut (v := State.portStore _ _ _) ?_ (by assumption)
    | with_reducible apply State.onScp_within
    | with_reducible apply within_ite
    | with_reducible exact withinL_full
    | with_reducible apply withinL_queued
    | with_reducible apply withinL_code
    | with_reducible apply withinL_done
    | split

theorem State.placeWindow_within {W : List Part} {s0 s : State} (a1 : ℕ) (a2 : WinHdr) (a3 : List MB)
    (a4 : PortSrc) (h : Within W s0 s) (h_cores : Part.cores ∈ W) (h_jobs : Part.jobs ∈ W) :
    WithinL W s0 (State.placeWindow s a1 a2 a3 a4) := by
  unfold State.placeWindow
  try dsimp only
  repeat' first
    | with_reducible assumption
    | with_reducible apply State.portWrite_within

theorem State.ownWindow_within {W : List Part} {s0 s : State} (a1 : ℕ) (a2 : Eng) (a3 : ℕ) (a4 : WinHdr)
    (a5 : List MB) (a6 : Option (BitVec 12)) (a7 : Option (BitVec 24)) (h : Within W s0 s)
    (h_cores : Part.cores ∈ W) (h_fab : Part.fab ∈ W) (h_jobs : Part.jobs ∈ W) :
    WithinW W s0 (State.ownWindow s a1 a2 a3 a4 a5 a6 a7) := by
  unfold State.ownWindow
  try dsimp only
  repeat' first
    | with_reducible assumption
    | with_reducible apply State.ownPlaced_within
    | with_reducible apply State.noteShape_within
    | with_reducible apply State.placeWindow_within
    | with_reducible refine WithinL.queuedOut (v := State.placeWindow _ _ _ _ _) ?_ (by assumption)
    | with_reducible refine WithinL.codeOut (v := State.placeWindow _ _ _ _ _) ?_ (by assumption)
    | with_reducible refine WithinL.doneOut (v := State.placeWindow _ _ _ _ _) ?_ (by assumption)
    | with_reducible apply State.dropWindow_within
    | with_reducible apply within_ite
    | with_reducible apply withinW_refused
    | with_reducible apply withinW_queued
    | with_reducible apply withinW_placed
    | split

theorem State.sendData_within {W : List Part} {s0 s : State} (a1 : ℕ) (a2 : Option (ℕ × ℕ)) (a3 : TxPkt)
    (h : Within W s0 s) (h_ports : Part.ports ∈ W) (h_fab : Part.fab ∈ W) :
    Within W s0 (State.sendData s a1 a2 a3).2 := by
  unfold State.sendData
  try dsimp only
  repeat' first
    | with_reducible assumption
    | with_reducible apply State.ctxUse_within
    | with_reducible refine within_pair (x := State.ctxUse _ _) ?_ (by assumption)
    | with_reducible apply State.goOut_within
    | with_reducible apply State.onFlow_within
    | with_reducible apply State.emit_within
    | with_reducible apply within_ite
    | split

theorem State.pumpPackets_within {W : List Part} {s0 s : State} (a1 : ℕ) (a2 : Eng) (a3 : List MB) (a4 : Desc)
    (a5 : ℕ) (h : Within W s0 s) (h_cores : Part.cores ∈ W) (h_ports : Part.ports ∈ W) (h_fab : Part.fab ∈ W) :
    Within W s0 (State.pumpPackets s a1 a2 a3 a4 a5) := by
  induction a5 generalizing s a1 a2 a3 a4 with
  | zero =>
    unfold State.pumpPackets
    try dsimp only
    repeat' first
      | with_reducible assumption
  | succ k ih =>
    unfold State.pumpPackets
    try dsimp only
    repeat' first
      | with_reducible assumption
      | with_reducible apply ih
      | with_reducible apply State.sendData_within
      | with_reducible refine within_pair (x := State.sendData _ _ _ _) ?_ (by assumption)
      | with_reducible apply State.onBegun_within
      | with_reducible apply within_ite
      | split

theorem State.forward_within {W : List Part} {s0 s : State} (a1 : ℕ) (a2 : Begun) (a3 : Xfer) (a4 : Tile) (a5 : ℕ)
    (h : Within W s0 s) (h_cores : Part.cores ∈ W) (h_ports : Part.ports ∈ W) (h_fab : Part.fab ∈ W)
    (h_jobs : Part.jobs ∈ W) :
    Within W s0 (State.forward s a1 a2 a3 a4 a5) := by
  unfold State.forward
  try dsimp only
  repeat' first
    | with_reducible assumption
    | with_reducible apply State.ownWindow_within
    | with_reducible refine WithinW.refusedOut (v := State.ownWindow _ _ _ _ _ _ _ _) ?_ (by assumption)
    | with_reducible refine WithinW.queuedOut (v := State.ownWindow _ _ _ _ _ _ _ _) ?_ (by assumption)
    | with_reducible refine WithinW.placedOut (v := State.ownWindow _ _ _ _ _ _ _ _) ?_ (by assumption)
    | with_reducible apply State.failXfer_within
    | with_reducible apply State.onBegun_within
    | with_reducible apply State.pumpPackets_within
    | with_reducible apply within_ite
    | with_reducible apply within_getD
    | split

theorem State.attemptChain_within {W : List Part} {s0 s : State} (a1 : ℕ) (a2 : Bool) (h : Within W s0 s)
    (h_cores : Part.cores ∈ W) (h_mem : Part.mem ∈ W) (h_ports : Part.ports ∈ W) (h_fab : Part.fab ∈ W)
    (h_jobs : Part.jobs ∈ W) (h_flash : Part.flash ∈ W) : Within W s0 (State.attemptChain s a1 a2) := by
  unfold State.attemptChain
  split
  · exact h
  · extract_lets own all n
    clear_value own all n
    split
    · exact State.onSeq_within _ _ h h_cores
    split
    rename_i t nan u e
    have hu : Within W s0 u := within_trip (State.chainPart_within _ _ _ h h_cores) e
    clear e
    extract_lets t2 res
    have hr : WithinD W s0 res := by
      simp only [res]
      split
      · exact withinD_done (State.forward_within _ _ _ _ _ hu h_cores h_ports h_fab h_jobs)
      · with_reducible apply State.store_within <;> assumption
    clear_value res
    split
    · exact State.onSeq_within _ _ hr h_cores
    · with_reducible apply State.failXfer_within <;> assumption
    · extract_lets v
      have hv : Within W s0 v := State.onBegun_within _ _ _ _ (State.chainNan_within _ _ hr h_cores) h_cores
      clear_value v
      split
      · exact hv
      split
      · with_reducible apply State.failChain_within <;> assumption
      split
      · exact hv
      · with_reducible apply State.confirmChain_within
        · exact State.onBegun_within _ _ _ _ hv h_cores
        all_goals assumption

theorem State.chainResult_within {W : List Part} {s0 s : State} (a1 : ℕ) (a2 : Begun) (h : Within W s0 s)
    (h_cores : Part.cores ∈ W) :
    Within W s0 (State.chainResult s a1 a2).2.2 := by
  unfold State.chainResult
  try dsimp only
  repeat' first
    | with_reducible assumption
    | with_reducible apply State.chainPart_within

theorem State.failFront_within {W : List Part} {s0 s : State} (a1 : ℕ) (a2 : Eng) (a3 : ℕ) (h : Within W s0 s)
    (h_cores : Part.cores ∈ W) (h_jobs : Part.jobs ∈ W) (h_flash : Part.flash ∈ W) :
    Within W s0 (State.failFront s a1 a2 a3) := by
  unfold State.failFront
  try dsimp only
  repeat' first
    | with_reducible assumption
    | with_reducible apply State.onEng_within
    | with_reducible apply State.countReplay_within
    | with_reducible apply State.secondFailure_within
    | with_reducible apply within_ite

theorem chainEff_within {W : List Part} {s0 s : State} (a0 : Bool) (a1 : Ctx) (h : Within W s0 s)
    (h_cores : Part.cores ∈ W) (h_mem : Part.mem ∈ W) (h_ports : Part.ports ∈ W) (h_fab : Part.fab ∈ W)
    (h_jobs : Part.jobs ∈ W) (h_flash : Part.flash ∈ W) :
    Within W s0 (chainEff a0 a1 s) := by
  unfold chainEff
  try dsimp only
  repeat' first
    | with_reducible assumption
    | with_reducible apply State.onEng_within
    | with_reducible apply State.retireFront_within
    | with_reducible apply State.tagFlow_within
    | with_reducible apply State.dropWindow_within
    | with_reducible apply State.failStream_within
    | with_reducible apply State.poisonStop_within
    | with_reducible apply State.onFlow_within
    | with_reducible apply State.farFlow_within
    | with_reducible refine WithinF.out (v := State.farFlow _ _ _) ?_ (by assumption)
    | with_reducible apply State.consume_within
    | with_reducible apply State.addUnits_within
    | with_reducible apply State.beginXfer_within
    | with_reducible apply State.attemptChain_within
    | with_reducible apply State.pumpPackets_within
    | with_reducible apply State.chainResult_within
    | with_reducible refine within_trip (x := State.chainResult _ _ _) ?_ (by assumption)
    | with_reducible apply State.failFront_within
    | with_reducible apply State.chainNan_within
    | with_reducible apply within_ite
    | with_reducible apply within_getD
    | split
    | with_reducible refine within_fab _ ?_ (by assumption)

theorem execGrantTimeout_within {W : List Part} {s0 s : State} (a0 : Fin 72) (a1 : ℕ) (h : Within W s0 s)
    (h_pwr : Part.pwr ∈ W) (h_clk : Part.clk ∈ W) :
    WithinR W s0 (execGrantTimeout a0 a1 s) := by
  unfold execGrantTimeout
  try dsimp only
  repeat' first
    | with_reducible assumption
    | with_reducible apply State.onDom_within
    | with_reducible apply State.at_within
    | with_reducible apply within_ite
    | with_reducible apply withinR_ite
    | with_reducible apply withinR_next

theorem State.preemptPass_within {W : List Part} {s0 s : State} (h : Within W s0 s) (h_cores : Part.cores ∈ W)
    (h_jobs : Part.jobs ∈ W) :
    Within W s0 (State.preemptPass s) := by
  unfold State.preemptPass
  try dsimp only
  repeat' first
    | with_reducible assumption
    | with_reducible apply State.preemptFor_within
    | with_reducible apply within_ite
    | with_reducible apply within_foldl
    | with_reducible apply within_foldl2
    | (with_reducible intro u x hu; try dsimp only)

theorem State.capHit_within {W : List Part} {s0 s : State} (a1 : ℕ) (a2 : ℕ) (h : Within W s0 s)
    (h_cores : Part.cores ∈ W) :
    Within W s0 (State.capHit s a1 a2) := by
  unfold State.capHit
  try dsimp only
  repeat' first
    | with_reducible assumption
    | with_reducible apply State.onSeq_within

theorem State.dramFull_within {W : List Part} {s0 s : State} (a1 : ℕ) (a2 : Eng) (a3 : List (ℕ × ℕ))
    (h : Within W s0 s) (h_cores : Part.cores ∈ W) :
    WithinO W s0 (State.dramFull s a1 a2 a3) := by
  unfold State.dramFull
  try dsimp only
  repeat' first
    | with_reducible assumption
    | with_reducible apply State.onEng_within
    | with_reducible apply State.capHit_within
    | with_reducible apply within_ite
    | with_reducible apply withinO_bind
    | with_reducible refine WithinO.out (o := Option.bind _ _) ?_ (by assumption)
    | with_reducible intro u hu
    | with_reducible exact withinO_none
    | with_reducible apply withinO_some
    | split

theorem State.creditFor_within {W : List Part} {s0 s : State} (a1 : ℕ) (a2 : ℕ) (a3 : BitVec 6) (a4 : BitVec 12)
    (a5 : BitVec 16) (h : Within W s0 s) (h_ports : Part.ports ∈ W) (h_fab : Part.fab ∈ W) :
    Within W s0 (State.creditFor s a1 a2 a3 a4 a5).2 := by
  unfold State.creditFor
  try dsimp only
  repeat' first
    | with_reducible assumption
    | with_reducible apply State.onFlow_within
    | with_reducible apply State.sendCtl_within
    | with_reducible apply within_ite
    | split

theorem flowHold_within {W : List Part} {s0 s : State} (a1 : ℕ) (a2 : BitVec 18) (a3 : Option
    (BitVec 6 × BitVec 12 × BitVec 16)) (h : Within W s0 s) (h_cores : Part.cores ∈ W) (h_mem : Part.mem ∈ W)
    (h_ports : Part.ports ∈ W) (h_fab : Part.fab ∈ W) :
    WithinP W s0 (flowHold s a1 a2 a3) := by
  unfold flowHold
  try dsimp only
  repeat' first
    | with_reducible assumption
    | with_reducible apply State.farFlow_within
    | with_reducible refine WithinF.out (v := State.farFlow _ _ _) ?_ (by assumption)
    | with_reducible apply State.creditFor_within
    | with_reducible refine within_pair (x := State.creditFor _ _ _ _ _ _) ?_ (by assumption)
    | with_reducible apply withinO_bind
    | with_reducible refine WithinO.out (o := Option.bind _ _) ?_ (by assumption)
    | with_reducible intro u hu
    | with_reducible apply withinP_map
    | with_reducible exact withinP_none
    | with_reducible apply withinP_some
    | split

theorem dmaHold_within {W : List Part} {s0 s : State} (a1 : Ctx) (h : Within W s0 s) (h_cores : Part.cores ∈ W)
    (h_mem : Part.mem ∈ W) (h_ports : Part.ports ∈ W) (h_fab : Part.fab ∈ W) (h_host : Part.host ∈ W)
    (h_jobs : Part.jobs ∈ W) :
    WithinP W s0 (dmaHold s a1) := by
  unfold dmaHold
  try dsimp only
  repeat' first
    | with_reducible assumption
    | with_reducible apply State.memWait_within
    | with_reducible refine WithinO.out (o := State.memWait _ _ _ _ _ _) ?_ (by assumption)
    | with_reducible apply State.dramFull_within
    | with_reducible refine WithinO.out (o := State.dramFull _ _ _ _) ?_ (by assumption)
    | with_reducible apply flowHold_within
    | with_reducible refine WithinP.out (o := flowHold _ _ _ _) ?_ (by assumption)
    | with_reducible apply accessHold_within
    | with_reducible refine WithinP.out (o := accessHold _ _ _ _) ?_ (by assumption)
    | with_reducible apply within_ite
    | with_reducible apply within_foldl
    | with_reducible apply within_foldl2
    | with_reducible apply within_getD
    | (with_reducible intro u x hu; try dsimp only)
    | with_reducible refine WithinO.out (o := ite _ _ _) ?_ (by assumption)
    | with_reducible apply withinO_some
    | with_reducible apply withinO_bind
    | with_reducible apply withinO_foldl
    | with_reducible refine WithinO.out (o := Option.bind _ _) ?_ (by assumption)
    | with_reducible intro u hu
    | with_reducible apply withinP_foldl
    | with_reducible apply withinP_map
    | with_reducible exact withinP_none
    | with_reducible apply withinP_some
    | split

theorem State.giveStamp_within {W : List Part} {s0 s : State} (a1 : PtpStamp) (h : Within W s0 s)
    (h_fab : Part.fab ∈ W) :
    Within W s0 (State.giveStamp s a1) := by
  unfold State.giveStamp
  try dsimp only
  repeat' first
    | with_reducible assumption
    | split
    | with_reducible refine within_fab _ ?_ (by assumption)

theorem State.atWire_within {W : List Part} {s0 s : State} (a1 : ℕ) (a2 : TxFrame) (h : Within W s0 s)
    (h_fab : Part.fab ∈ W) :
    Within W s0 (State.atWire s a1 a2).2 := by
  unfold State.atWire
  try dsimp only
  repeat' first
    | with_reducible assumption
    | with_reducible apply State.giveStamp_within
    | with_reducible apply within_ite
    | with_reducible apply within_getD
    | split

theorem State.flushClass_within {W : List Part} {s0 s : State} (a1 : ℕ) (a2 : ℕ) (h : Within W s0 s)
    (h_ports : Part.ports ∈ W) (h_fab : Part.fab ∈ W) :
    Within W s0 (State.flushClass s a1 a2) := by
  unfold State.flushClass
  try dsimp only
  repeat' first
    | with_reducible assumption
    | with_reducible apply State.atWire_within
    | with_reducible refine within_pair (x := State.atWire _ _ _) ?_ (by assumption)
    | with_reducible apply State.onPort_within
    | with_reducible apply within_foldl
    | with_reducible apply within_foldl2
    | (with_reducible intro u x hu; try dsimp only)

theorem execPfcFrameRx_within {W : List Part} {s0 s : State} (a0 : Fin 96) (a1 : List (BitVec 16)) (a2 : BitVec 8)
    (h : Within W s0 s) (h_ports : Part.ports ∈ W) (h_fab : Part.fab ∈ W) :
    WithinR W s0 (execPfcFrameRx a0 a1 a2 s) := by
  unfold execPfcFrameRx
  try dsimp only
  repeat' first
    | with_reducible assumption
    | with_reducible apply State.goOutAll_within
    | with_reducible apply State.flushClass_within
    | with_reducible apply State.onPort_within
    | with_reducible apply within_ite
    | with_reducible apply within_foldl
    | with_reducible apply within_foldl2
    | with_reducible apply within_getD
    | (with_reducible intro u x hu; try dsimp only)
    | with_reducible apply withinR_ite
    | with_reducible apply withinR_next

theorem State.collArrive_within {W : List Part} {s0 s : State} (a1 : BitVec 20) (a2 : ℕ) (a3 : BitVec 32)
    (h : Within W s0 s) (h_cores : Part.cores ∈ W) (h_mem : Part.mem ∈ W) (h_ports : Part.ports ∈ W)
    (h_fab : Part.fab ∈ W) :
    WithinO W s0 (State.collArrive s a1 a2 a3) := by
  unfold State.collArrive
  try dsimp only
  repeat' first
    | with_reducible assumption
    | with_reducible apply State.onColl_within
    | with_reducible apply State.collPump_within
    | with_reducible apply within_ite
    | with_reducible apply withinO_bind
    | with_reducible refine WithinO.out (o := Option.bind _ _) ?_ (by assumption)
    | with_reducible intro u hu
    | with_reducible exact withinO_none
    | with_reducible apply withinO_some
    | split

theorem execBarArrive_within {W : List Part} {s0 s : State} (a0 : Fin 64) (h : Within W s0 s)
    (h_cores : Part.cores ∈ W) (h_mem : Part.mem ∈ W) (h_ports : Part.ports ∈ W) (h_fab : Part.fab ∈ W)
    (h_jobs : Part.jobs ∈ W) :
    WithinR W s0 (execBarArrive a0 s) := by
  unfold execBarArrive
  try dsimp only
  repeat' first
    | with_reducible assumption
    | with_reducible apply State.retireFront_within
    | with_reducible apply State.collArrive_within
    | with_reducible refine WithinO.out (o := State.collArrive _ _ _ _) ?_ (by assumption)
    | with_reducible apply runCmd_within
    | with_reducible apply within_ite
    | with_reducible apply within_getD
    | (with_reducible intro u x hu; try dsimp only)
    | with_reducible apply withinR_ite
    | with_reducible apply withinR_next
    | with_reducible refine WithinO.out (o := ite _ _ _) ?_ (by assumption)
    | with_reducible apply withinO_some
    | split
    | (intro hs; first | (with_reducible assumption) | exact absurd hs Bool.false_ne_true)
    | with_reducible exact withinP_none
    | with_reducible apply withinP_some
    | with_reducible intro u x hu
    | (with_reducible intro x u hu; try dsimp only)
    | (unfold barArriveRow; try dsimp only)

theorem State.goDark_within {W : List Part} {s0 s : State} (a1 : ℕ) (h : Within W s0 s) (h_pwr : Part.pwr ∈ W) :
    Within W s0 (State.goDark s a1) := by
  unfold State.goDark
  try dsimp only
  repeat' first
    | with_reducible assumption
    | with_reducible apply State.onDom_within

theorem State.noteSpare_within {W : List Part} {s0 s : State} (a1 : ℕ) (h : Within W s0 s)
    (h_flash : Part.flash ∈ W) :
    Within W s0 (State.noteSpare s a1) := by
  unfold State.noteSpare
  try dsimp only
  repeat' first
    | with_reducible assumption
    | with_reducible apply within_ite
    | split
    | with_reducible refine within_flash _ ?_ (by assumption)

theorem State.applySteer_within {W : List Part} {s0 s : State} (a1 : Stage5) (h : Within W s0 s)
    (h_flash : Part.flash ∈ W) (h_mgmt : Part.mgmt ∈ W) :
    Within W s0 (State.applySteer s a1) := by
  unfold State.applySteer
  try dsimp only
  repeat' first
    | with_reducible assumption
    | with_reducible apply State.fieldFail_within
    | with_reducible apply within_ite
    | with_reducible apply within_foldl
    | with_reducible apply within_foldl2
    | (with_reducible intro u x hu; try dsimp only)
    | split
    | with_reducible refine within_mgmt _ ?_ (by assumption)

theorem State.switchOn_within {W : List Part} {s0 s : State} (a1 : ℕ) (h : Within W s0 s) (h_pwr : Part.pwr ∈ W) :
    Within W s0 (State.switchOn s a1) := by
  unfold State.switchOn
  try dsimp only
  repeat' first
    | with_reducible assumption
    | with_reducible apply State.onDom_within

theorem State.loadMap_within {W : List Part} {s0 s : State} (a1 : ℕ) (h : Within W s0 s) (h_cores : Part.cores ∈ W) :
    Within W s0 (State.loadMap s a1) := by
  unfold State.loadMap
  try dsimp only
  repeat' first
    | with_reducible assumption
    | with_reducible apply State.onCore_within
    | with_reducible apply State.setCore_within
    | with_reducible apply within_ite
    | split

theorem execStartStage5_within {W : List Part} {s0 s : State} (a0 : Stage5) (a1 : ℕ) (h : Within W s0 s)
    (h_cores : Part.cores ∈ W) (h_ports : Part.ports ∈ W) (h_optics : Part.optics ∈ W) (h_fab : Part.fab ∈ W)
    (h_host : Part.host ∈ W) (h_flash : Part.flash ∈ W) (h_mgmt : Part.mgmt ∈ W) (h_pwr : Part.pwr ∈ W)
    (h_clk : Part.clk ∈ W) :
    WithinR W s0 (execStartStage5 a0 a1 s) := by
  unfold execStartStage5
  try dsimp only
  repeat' first
    | with_reducible assumption
    | with_reducible apply State.goDark_within
    | with_reducible apply State.noteSpare_within
    | with_reducible apply State.applySteer_within
    | with_reducible apply State.fieldFail_within
    | with_reducible apply State.at_within
    | with_reducible apply State.switchOn_within
    | with_reducible apply State.failStart_within
    | with_reducible apply State.loadMap_within
    | with_reducible apply within_ite
    | with_reducible apply within_foldl
    | with_reducible apply within_foldl2
    | (with_reducible intro u x hu; try dsimp only)
    | with_reducible apply withinR_ite
    | with_reducible apply withinR_next
    | split
    | with_reducible refine within_flash_mgmt _ _ ?_ (by assumption) (by assumption)

theorem State.beginArray_within {W : List Part} {s0 s : State} (a1 : Ctx) (a2 : ℕ) (a3 : Bool) (h : Within W s0 s)
    (h_cores : Part.cores ∈ W) :
    Within W s0 (State.beginArray s a1 a2 a3) := by
  unfold State.beginArray
  try dsimp only
  repeat' first
    | with_reducible assumption
    | with_reducible apply State.onEng_within
    | with_reducible apply State.popInputs_within

theorem State.bellows_within {W : List Part} {s0 s : State} (a1 : ℕ) (a2 : Arr) (h : Within W s0 s)
    (h_cores : Part.cores ∈ W) :
    Within W s0 (State.bellows s a1 a2) := by
  unfold State.bellows
  try dsimp only
  repeat' first
    | with_reducible assumption
    | with_reducible apply State.onArray_within
    | with_reducible apply within_ite

theorem tongsEff_within {W : List Part} {s0 s : State} (a0 : Ctx) (h : Within W s0 s) (h_cores : Part.cores ∈ W) :
    Within W s0 (tongsEff a0 s) := by
  unfold tongsEff
  try dsimp only
  repeat' first
    | with_reducible assumption
    | with_reducible apply State.onArray_within
    | with_reducible apply State.beginArray_within
    | with_reducible apply State.bellows_within
    | with_reducible apply State.onSeq_within

theorem execVxLog_within {W : List Part} {s0 s : State} (a0 : Fin 64) (h : Within W s0 s)
    (h_cores : Part.cores ∈ W) (h_mem : Part.mem ∈ W) (h_ports : Part.ports ∈ W) (h_fab : Part.fab ∈ W)
    (h_jobs : Part.jobs ∈ W) :
    WithinR W s0 (execVxLog a0 s) := by
  unfold execVxLog
  try dsimp only
  repeat' first
    | with_reducible assumption
    | with_reducible apply vxElementwise_within
    | with_reducible apply runCmd_within
    | with_reducible apply tileHold_within
    | with_reducible refine WithinP.out (o := tileHold _ _ _) ?_ (by assumption)
    | with_reducible apply within_ite
    | (with_reducible intro u x hu; try dsimp only)
    | with_reducible apply withinR_ite
    | with_reducible apply withinR_next
    | split
    | (intro hs; first | (with_reducible assumption) | exact absurd hs Bool.false_ne_true)
    | with_reducible exact withinP_none
    | with_reducible apply withinP_some
    | with_reducible intro u x hu
    | (with_reducible intro x u hu; try dsimp only)
    | (unfold vxRow; try dsimp only)

theorem State.clearArray_within {W : List Part} {s0 s : State} (a1 : ℕ) (a2 : Arr) (a3 : ℕ → Bool)
    (h : Within W s0 s) (h_cores : Part.cores ∈ W) :
    Within W s0 (State.clearArray s a1 a2 a3) := by
  unfold State.clearArray
  try dsimp only
  repeat' first
    | with_reducible assumption
    | with_reducible apply State.onArray_within
    | with_reducible apply State.onSeq_within

theorem State.dropArray_within {W : List Part} {s0 s : State} (a1 : ℕ) (a2 : Arr) (a3 : ℕ) (h : Within W s0 s)
    (h_cores : Part.cores ∈ W) :
    Within W s0 (State.dropArray s a1 a2 a3) := by
  unfold State.dropArray
  try dsimp only
  repeat' first
    | with_reducible assumption
    | with_reducible apply State.onEng_within
    | with_reducible apply State.returnOuts_within
    | with_reducible apply State.clearArray_within
    | split

theorem State.dropBegun_within {W : List Part} {s0 s : State} (a1 : ℕ) (a2 : Arr) (a3 : ℕ) (h : Within W s0 s)
    (h_cores : Part.cores ∈ W) :
    Within W s0 (State.dropBegun s a1 a2 a3) := by
  unfold State.dropBegun
  try dsimp only
  repeat' first
    | with_reducible assumption
    | with_reducible apply State.dropArray_within
    | with_reducible apply within_ite
    | split

theorem execErrlogFetchDone_within {W : List Part} {s0 s : State} (h : Within W s0 s) (h_mgmt : Part.mgmt ∈ W) :
    WithinR W s0 (execErrlogFetchDone s) := by
  unfold execErrlogFetchDone
  try dsimp only
  repeat' first
    | with_reducible assumption
    | with_reducible apply within_ite
    | with_reducible apply withinR_ite
    | with_reducible apply withinR_next
    | split
    | with_reducible refine within_mgmt _ ?_ (by assumption)

theorem State.endGroups_within {W : List Part} {s0 s : State} (a1 : ℕ) (h : Within W s0 s)
    (h_cores : Part.cores ∈ W) (h_mem : Part.mem ∈ W) (h_ports : Part.ports ∈ W) (h_fab : Part.fab ∈ W) :
    Within W s0 (State.endGroups s a1) := by
  unfold State.endGroups
  try dsimp only
  repeat' first
    | with_reducible assumption
    | with_reducible apply State.abortGroup_within
    | with_reducible apply within_foldl
    | with_reducible apply within_foldl2
    | (with_reducible intro u x hu; try dsimp only)

end Sys2Proof.Machine
end

