-- ==== Sys2Proof/Laws/Frames5.lean ====
section
/-! SUPPORT. For each operation and meaning, in dependency order (part 6 of 10): the parts of the state it can
change. -/

namespace Sys2Proof.Machine

theorem State.endChains_within {W : List Part} {s0 s : State} (a1 : ℕ) (h : Within W s0 s)
    (h_cores : Part.cores ∈ W) (h_ports : Part.ports ∈ W) (h_fab : Part.fab ∈ W) :
    Within W s0 (State.endChains s a1) := by
  unfold State.endChains
  try dsimp only
  repeat' first
    | with_reducible assumption
    | with_reducible apply State.onEng_within
    | with_reducible apply State.strikeChain_within
    | split

theorem State.endTask_within {W : List Part} {s0 s : State} (a1 : ℕ) (a2 : Task) (h : Within W s0 s)
    (h_cores : Part.cores ∈ W) (h_mem : Part.mem ∈ W) (h_ports : Part.ports ∈ W) (h_fab : Part.fab ∈ W)
    (h_jobs : Part.jobs ∈ W) (h_flash : Part.flash ∈ W) :
    Within W s0 (State.endTask s a1 a2) := by
  unfold State.endTask
  try dsimp only
  repeat' first
    | with_reducible assumption
    | with_reducible apply State.endWindows_within
    | with_reducible apply State.settlePreempt_within
    | with_reducible apply State.endGroups_within
    | with_reducible apply State.stopJob_within
    | with_reducible apply State.writeMem_within
    | with_reducible apply State.onCore_within
    | with_reducible apply State.endChains_within
    | with_reducible apply State.onJob_within
    | with_reducible apply within_ite
    | split

theorem State.coreLost_within {W : List Part} {s0 s : State} (a1 : ℕ) (h : Within W s0 s)
    (h_cores : Part.cores ∈ W) (h_mem : Part.mem ∈ W) (h_ports : Part.ports ∈ W) (h_fab : Part.fab ∈ W)
    (h_jobs : Part.jobs ∈ W) (h_flash : Part.flash ∈ W) :
    Within W s0 (State.coreLost s a1) := by
  unfold State.coreLost
  try dsimp only
  repeat' first
    | with_reducible assumption
    | with_reducible apply State.endTask_within
    | with_reducible apply State.fieldFail_within
    | with_reducible apply State.onSeq_within
    | with_reducible apply State.onCore_within
    | with_reducible apply within_ite
    | with_reducible apply within_getD
    | split

theorem State.darken_within {W : List Part} {s0 s : State} (a1 : ℕ) (h : Within W s0 s) (h_cores : Part.cores ∈ W)
    (h_mem : Part.mem ∈ W) (h_ports : Part.ports ∈ W) (h_fab : Part.fab ∈ W) (h_jobs : Part.jobs ∈ W)
    (h_flash : Part.flash ∈ W) (h_pwr : Part.pwr ∈ W) :
    Within W s0 (State.darken s a1) := by
  unfold State.darken
  try dsimp only
  repeat' first
    | with_reducible assumption
    | with_reducible apply State.coreLost_within
    | with_reducible apply State.goDark_within

theorem execDomainShort_within {W : List Part} {s0 s : State} (a0 : Fin 89) (a1 : ℕ) (h : Within W s0 s)
    (h_cores : Part.cores ∈ W) (h_mem : Part.mem ∈ W) (h_ports : Part.ports ∈ W) (h_fab : Part.fab ∈ W)
    (h_host : Part.host ∈ W) (h_jobs : Part.jobs ∈ W) (h_flash : Part.flash ∈ W) (h_mgmt : Part.mgmt ∈ W)
    (h_pwr : Part.pwr ∈ W) (h_clk : Part.clk ∈ W) :
    WithinR W s0 (execDomainShort a0 a1 s) := by
  unfold execDomainShort
  try dsimp only
  repeat' first
    | with_reducible assumption
    | with_reducible apply State.deviceFault_within
    | with_reducible apply State.onDom_within
    | with_reducible apply State.at_within
    | with_reducible apply State.darken_within
    | with_reducible apply within_ite
    | with_reducible apply withinR_ite
    | with_reducible apply withinR_next

theorem execCodeSwap_within {W : List Part} {s0 s : State} (a0 : Fin 64) (a1 : Eng) (h : Within W s0 s)
    (h_cores : Part.cores ∈ W) (h_jobs : Part.jobs ∈ W) :
    WithinR W s0 (execCodeSwap a0 a1 s) := by
  unfold execCodeSwap
  try dsimp only
  repeat' first
    | with_reducible assumption
    | with_reducible apply State.onEng_within
    | with_reducible apply State.retireFront_within
    | with_reducible apply runCmd_within
    | with_reducible apply State.failStream_within
    | with_reducible apply within_ite
    | (with_reducible intro u x hu; try dsimp only)
    | with_reducible apply withinR_ite
    | with_reducible apply withinR_next
    | split
    | (intro hs; first | (with_reducible assumption) | exact absurd hs Bool.false_ne_true)
    | with_reducible exact withinP_none
    | with_reducible apply withinP_some
    | with_reducible intro u x hu
    | (with_reducible intro x u hu; try dsimp only)
    | (unfold codeSwapRow; try dsimp only)

theorem execStepPolicy_within {W : List Part} {s0 s : State} (a0 : Fin 72) (a1 : ℕ) (h : Within W s0 s)
    (h_pwr : Part.pwr ∈ W) (h_clk : Part.clk ∈ W) :
    WithinR W s0 (execStepPolicy a0 a1 s) := by
  unfold execStepPolicy
  try dsimp only
  repeat' first
    | with_reducible assumption
    | with_reducible apply State.requestStep_within
    | with_reducible apply State.onDom_within
    | with_reducible apply State.at_within
    | with_reducible apply within_ite
    | with_reducible apply withinR_ite
    | with_reducible apply withinR_next

theorem State.openHandle_within {W : List Part} {s0 s : State} (a1 : PktHdr) (a2 : BitVec 12) (h : Within W s0 s)
    (h_fab : Part.fab ∈ W) :
    WithinO W s0 (State.openHandle s a1 a2) := by
  unfold State.openHandle
  try dsimp only
  repeat' first
    | with_reducible assumption
    | with_reducible apply within_ite
    | with_reducible apply withinO_bind
    | with_reducible refine WithinO.out (o := Option.bind _ _) ?_ (by assumption)
    | with_reducible intro u hu
    | with_reducible exact withinO_none
    | with_reducible apply withinO_some
    | split
    | with_reducible refine within_fab _ ?_ (by assumption)

theorem State.placeDram_within {W : List Part} {s0 s : State} (a1 : PktHdr) (a2 : DramHdr) (a3 : List Byte)
    (a4 : Bool) (h : Within W s0 s) (h_cores : Part.cores ∈ W) (h_mem : Part.mem ∈ W) (h_ports : Part.ports ∈ W)
    (h_fab : Part.fab ∈ W) (h_host : Part.host ∈ W) (h_flash : Part.flash ∈ W) :
    Within W s0 (State.placeDram s a1 a2 a3 a4).2 := by
  unfold State.placeDram
  try dsimp only
  repeat' first
    | with_reducible assumption
    | with_reducible apply State.openHandle_within
    | with_reducible refine WithinO.out (o := State.openHandle _ _ _) ?_ (by assumption)
    | with_reducible apply State.addMem_within
    | with_reducible apply State.memWait_within
    | with_reducible refine WithinO.out (o := State.memWait _ _ _ _ _ _) ?_ (by assumption)
    | with_reducible apply State.shadowAll_within
    | with_reducible refine WithinO.out (o := State.shadowAll _ _ _) ?_ (by assumption)
    | with_reducible apply State.writeMem_within
    | with_reducible apply within_ite
    | with_reducible apply within_foldl
    | with_reducible apply within_foldl2
    | (with_reducible intro u x hu; try dsimp only)
    | with_reducible refine WithinO.out (o := ite _ _ _) ?_ (by assumption)
    | with_reducible apply withinO_some
    | with_reducible apply withinO_bind
    | with_reducible apply withinO_foldl
    | with_reducible refine WithinO.out (o := Option.bind _ _) ?_ (by assumption)
    | with_reducible intro u hu
    | split

theorem State.receiveData_within {W : List Part} {s0 s : State} (a1 : PktHdr) (a2 : State → Option (BitVec 8) × State)
    (h : Within W s0 s) (h_cores : Part.cores ∈ W) (h_mem : Part.mem ∈ W) (h_ports : Part.ports ∈ W)
    (h_fab : Part.fab ∈ W) (h_jobs : Part.jobs ∈ W) (hf : ∀ u, Within W s0 u → Within W s0 (a2 u).2) :
    Within W s0 (State.receiveData s a1 a2) := by
  unfold State.receiveData
  split
  · refine WithinV.settledOut (v := State.verdict s a1 true) ?_ (by assumption)
    with_reducible apply State.verdict_within <;> assumption
  · have hv := WithinV.freshOut (W := W) (s0 := s0) (v := State.verdict s a1 true)
      (State.verdict_within _ _ h (by assumption) (by assumption)) (by assumption)
    split
    · exact within_pair (hf _ hv) (by assumption)
    · with_reducible apply State.afterArrival_within
      · with_reducible apply State.recordArrival_within
        · exact within_pair (hf _ hv) (by assumption)
        all_goals assumption
      all_goals assumption

theorem execAddDram_within {W : List Part} {s0 s : State} (a0 : PktHdr) (a1 : DramHdr) (a2 : List Byte)
    (h : Within W s0 s) (h_cores : Part.cores ∈ W) (h_mem : Part.mem ∈ W) (h_ports : Part.ports ∈ W)
    (h_fab : Part.fab ∈ W) (h_host : Part.host ∈ W) (h_jobs : Part.jobs ∈ W) (h_flash : Part.flash ∈ W) :
    WithinR W s0 (execAddDram a0 a1 a2 s) := by
  unfold execAddDram
  try dsimp only
  repeat' first
    | with_reducible assumption
    | with_reducible apply State.placeDram_within
    | with_reducible refine within_pair (x := State.placeDram _ _ _ _ _) ?_ (by assumption)
    | with_reducible apply State.receiveData_within
    | (with_reducible intro u x hu; try dsimp only)
    | with_reducible apply withinR_next
    | split
    | (with_reducible intro u hu; try dsimp only)

theorem State.sourceBytes_within {W : List Part} {s0 s : State} (a1 : ℕ) (a2 : Begun) (h : Within W s0 s)
    (h_cores : Part.cores ∈ W) :
    Within W s0 (State.sourceBytes s a1 a2).2 := by
  unfold State.sourceBytes
  try dsimp only
  repeat' first
    | with_reducible assumption
    | with_reducible apply State.setCore_within
    | split

theorem execStackRailFail_within {W : List Part} {s0 s : State} (a0 : Fin 16) (h : Within W s0 s)
    (h_mem : Part.mem ∈ W) (h_flash : Part.flash ∈ W) :
    WithinR W s0 (execStackRailFail a0 s) := by
  unfold execStackRailFail
  try dsimp only
  repeat' first
    | with_reducible assumption
    | with_reducible apply State.onStk_within
    | with_reducible apply State.fieldFail_within
    | with_reducible apply withinR_next

theorem State.request_within {W : List Part} {s0 s : State} (a1 : HeldReq) (h : Within W s0 s)
    (h_cores : Part.cores ∈ W) (h_mem : Part.mem ∈ W) (h_ports : Part.ports ∈ W) (h_fab : Part.fab ∈ W)
    (h_host : Part.host ∈ W) (h_flash : Part.flash ∈ W) :
    Within W s0 (State.request s a1) := by
  unfold State.request
  try dsimp only
  repeat' first
    | with_reducible assumption
    | with_reducible apply State.submit_within
    | with_reducible apply State.capHit_within
    | with_reducible apply within_ite
    | split

theorem execXbarWrite_within {W : List Part} {s0 s : State} (a0 : XPort) (a1 : BitVec 40) (a2 : BitVec 256)
    (a3 : List Byte) (a4 : Bool) (a5 : Option GrpKey) (h : Within W s0 s) (h_cores : Part.cores ∈ W)
    (h_mem : Part.mem ∈ W) (h_ports : Part.ports ∈ W) (h_fab : Part.fab ∈ W) (h_host : Part.host ∈ W)
    (h_flash : Part.flash ∈ W) :
    WithinR W s0 (execXbarWrite a0 a1 a2 a3 a4 a5 s) := by
  unfold execXbarWrite
  try dsimp only
  repeat' first
    | with_reducible assumption
    | with_reducible apply State.request_within
    | with_reducible apply State.retryHeld_within
    | with_reducible apply within_ite
    | with_reducible apply withinR_ite
    | with_reducible apply withinR_next

theorem State.pumpChain_within {W : List Part} {s0 s : State} (a1 : ℕ) (h : Within W s0 s)
    (h_cores : Part.cores ∈ W) (h_ports : Part.ports ∈ W) (h_fab : Part.fab ∈ W) :
    Within W s0 (State.pumpChain s a1) := by
  unfold State.pumpChain
  try dsimp only
  repeat' first
    | with_reducible assumption
    | with_reducible apply State.chainPart_within
    | with_reducible refine within_trip (x := State.chainPart _ _ _ _) ?_ (by assumption)
    | with_reducible apply State.pumpPackets_within
    | with_reducible apply within_ite
    | split

theorem State.aptDone_within {W : List Part} {s0 s : State} (a1 : ℕ) (a2 : Eng) (a3 : Begun) (a4 : AptReq)
    (a5 : Bool) (h : Within W s0 s) (h_cores : Part.cores ∈ W) (h_host : Part.host ∈ W) :
    Within W s0 (State.aptDone s a1 a2 a3 a4 a5) := by
  unfold State.aptDone
  try dsimp only
  repeat' first
    | with_reducible assumption
    | with_reducible apply State.sourceBytes_within
    | with_reducible refine within_pair (x := State.sourceBytes _ _ _) ?_ (by assumption)
    | with_reducible apply State.onBegun_within
    | with_reducible apply within_ite
    | split
    | with_reducible refine within_host _ ?_ (by assumption)

theorem State.pumpUnits_within {W : List Part} {s0 s : State} (a1 : ℕ) (a2 : Eng) (a3 : List Piece) (a4 : ℕ)
    (h : Within W s0 s) (h_cores : Part.cores ∈ W) (h_host : Part.host ∈ W) :
    Within W s0 (State.pumpUnits s a1 a2 a3 a4) := by
  induction a4 generalizing s a1 a2 a3 with
  | zero =>
    unfold State.pumpUnits
    try dsimp only
    repeat' first
      | with_reducible assumption
  | succ k ih =>
    unfold State.pumpUnits
    try dsimp only
    repeat' first
      | with_reducible assumption
      | with_reducible apply ih
      | with_reducible apply State.aptDone_within
      | with_reducible apply State.onBegun_within
      | with_reducible apply within_ite
      | split
      | with_reducible refine within_host _ ?_ (by assumption)

theorem State.endApt_within {W : List Part} {s0 s : State} (a1 : ℕ) (a2 : Eng) (h : Within W s0 s)
    (h_cores : Part.cores ∈ W) (h_ports : Part.ports ∈ W) (h_fab : Part.fab ∈ W) (h_jobs : Part.jobs ∈ W) :
    Within W s0 (State.endApt s a1 a2) := by
  unfold State.endApt
  try dsimp only
  repeat' first
    | with_reducible assumption
    | with_reducible apply State.failBegun_within
    | with_reducible apply State.endXfer_within
    | with_reducible apply within_ite
    | split

theorem State.pumpApt_within {W : List Part} {s0 s : State} (a1 : ℕ) (a2 : Eng) (a3 : List Piece) (a4 : ℕ)
    (h : Within W s0 s) (h_cores : Part.cores ∈ W) (h_ports : Part.ports ∈ W) (h_fab : Part.fab ∈ W)
    (h_host : Part.host ∈ W) (h_jobs : Part.jobs ∈ W) :
    Within W s0 (State.pumpApt s a1 a2 a3 a4) := by
  unfold State.pumpApt
  try dsimp only
  repeat' first
    | with_reducible assumption
    | with_reducible apply State.pumpUnits_within
    | with_reducible apply State.endApt_within

theorem State.askPiece_within {W : List Part} {s0 s : State} (a1 : ℕ) (a2 : Eng) (a3 : ℕ) (a4 : ℕ) (a5 : ℕ)
    (a6 : ℕ) (h : Within W s0 s) (h_ports : Part.ports ∈ W) (h_fab : Part.fab ∈ W) :
    Within W s0 (State.askPiece s a1 a2 a3 a4 a5 a6) := by
  unfold State.askPiece
  try dsimp only
  repeat' first
    | with_reducible assumption
    | with_reducible apply State.onFlow_within
    | with_reducible apply State.sendCtl_within
    | split

theorem State.pumpReads_within {W : List Part} {s0 s : State} (a1 : ℕ) (a2 : Eng) (a3 : List Piece) (a4 : ℕ)
    (h : Within W s0 s) (h_cores : Part.cores ∈ W) (h_ports : Part.ports ∈ W) (h_fab : Part.fab ∈ W) :
    Within W s0 (State.pumpReads s a1 a2 a3 a4) := by
  induction a4 generalizing s a1 a2 a3 with
  | zero =>
    unfold State.pumpReads
    try dsimp only
    repeat' first
      | with_reducible assumption
  | succ k ih =>
    unfold State.pumpReads
    try dsimp only
    repeat' first
      | with_reducible assumption
      | with_reducible apply ih
      | with_reducible apply State.askPiece_within
      | with_reducible apply State.onBegun_within
      | with_reducible apply within_ite
      | split

theorem State.pumpDma_within {W : List Part} {s0 s : State} (a1 : ℕ) (a2 : Eng) (h : Within W s0 s)
    (h_cores : Part.cores ∈ W) (h_ports : Part.ports ∈ W) (h_fab : Part.fab ∈ W) (h_host : Part.host ∈ W)
    (h_jobs : Part.jobs ∈ W) :
    Within W s0 (State.pumpDma s a1 a2) := by
  unfold State.pumpDma
  try dsimp only
  repeat' first
    | with_reducible assumption
    | with_reducible apply State.sourceBytes_within
    | with_reducible refine within_pair (x := State.sourceBytes _ _ _) ?_ (by assumption)
    | with_reducible apply State.pumpApt_within
    | with_reducible apply State.pumpReads_within
    | with_reducible apply State.pumpPackets_within
    | with_reducible apply within_ite
    | split

theorem State.pumpAnswers_within {W : List Part} {s0 s : State} (a1 : ℕ) (a2 : ℕ) (h : Within W s0 s)
    (h_mem : Part.mem ∈ W) (h_ports : Part.ports ∈ W) (h_fab : Part.fab ∈ W) (h_flash : Part.flash ∈ W) :
    Within W s0 (State.pumpAnswers s a1 a2) := by
  induction a2 generalizing s a1 with
  | zero =>
    unfold State.pumpAnswers
    try dsimp only
    repeat' first
      | with_reducible assumption
  | succ k ih =>
    unfold State.pumpAnswers
    try dsimp only
    repeat' first
      | with_reducible assumption
      | with_reducible apply ih
      | with_reducible apply State.sendData_within
      | with_reducible refine within_pair (x := State.sendData _ _ _ _) ?_ (by assumption)
      | with_reducible apply State.onFlow_within
      | with_reducible apply State.readMem_within
      | with_reducible refine within_pair (x := State.readMem _ _ _ _) ?_ (by assumption)
      | with_reducible apply within_ite
      | split

theorem State.tryClose_within {W : List Part} {s0 s : State} (a1 : ℕ) (h : Within W s0 s)
    (h_cores : Part.cores ∈ W) (h_mem : Part.mem ∈ W) (h_ports : Part.ports ∈ W) (h_fab : Part.fab ∈ W)
    (h_jobs : Part.jobs ∈ W) :
    Within W s0 (State.tryClose s a1) := by
  unfold State.tryClose
  try dsimp only
  repeat' first
    | with_reducible assumption
    | with_reducible apply State.onFlow_within
    | with_reducible apply State.leaveOpen_within
    | with_reducible apply State.sendCtl_within
    | with_reducible apply within_ite

theorem State.pumpFlow_within {W : List Part} {s0 s : State} (a1 : ℕ) (h : Within W s0 s)
    (h_cores : Part.cores ∈ W) (h_mem : Part.mem ∈ W) (h_ports : Part.ports ∈ W) (h_fab : Part.fab ∈ W)
    (h_host : Part.host ∈ W) (h_jobs : Part.jobs ∈ W) (h_flash : Part.flash ∈ W) :
    Within W s0 (State.pumpFlow s a1) := by
  unfold State.pumpFlow
  try dsimp only
  repeat' first
    | with_reducible assumption
    | with_reducible apply State.pumpChain_within
    | with_reducible apply State.pumpDma_within
    | with_reducible apply State.pumpAnswers_within
    | with_reducible apply State.goOut_within
    | with_reducible apply State.tryClose_within
    | with_reducible apply within_ite
    | with_reducible apply within_foldl
    | with_reducible apply within_foldl2
    | (with_reducible intro u x hu; try dsimp only)

theorem State.runLoad_within {W : List Part} {s0 s : State} (a1 : List TaskRec) (a2 : LoadRec) (h : Within W s0 s)
    (h_cores : Part.cores ∈ W) (h_mem : Part.mem ∈ W) (h_flash : Part.flash ∈ W) :
    Within W s0 (State.runLoad s a1 a2) := by
  unfold State.runLoad
  try dsimp only
  repeat' first
    | with_reducible assumption
    | with_reducible apply State.onScp_within
    | with_reducible apply State.readMem_within
    | with_reducible refine within_pair (x := State.readMem _ _ _ _) ?_ (by assumption)
    | with_reducible apply within_ite
    | with_reducible apply within_getD
    | split

theorem execClockStretch_within {W : List Part} {s0 s : State} (a0 : Fin 72) (a1 : ℕ) (a2 : ℕ) (h : Within W s0 s)
    (h_cores : Part.cores ∈ W) (h_pwr : Part.pwr ∈ W) (h_clk : Part.clk ∈ W) :
    WithinR W s0 (execClockStretch a0 a1 a2 s) := by
  unfold execClockStretch
  try dsimp only
  repeat' first
    | with_reducible assumption
    | with_reducible apply State.at_within
    | with_reducible apply State.onDom_within
    | with_reducible apply State.onSeq_within
    | with_reducible apply within_ite
    | with_reducible apply within_foldl
    | with_reducible apply within_foldl2
    | (with_reducible intro u x hu; try dsimp only)
    | with_reducible apply withinR_ite
    | with_reducible apply withinR_next
    | split

theorem openWindow_within {W : List Part} {s0 s : State} (a0 : Ctx) (h : Within W s0 s) (h_cores : Part.cores ∈ W)
    (h_jobs : Part.jobs ∈ W) :
    Within W s0 (openWindow a0 s) := by
  unfold openWindow
  try dsimp only
  repeat' first
    | with_reducible assumption
    | with_reducible apply State.retireFront_within
    | with_reducible apply State.onSeq_within

theorem execWinOpen_within {W : List Part} {s0 s : State} (a0 : Fin 64) (h : Within W s0 s)
    (h_cores : Part.cores ∈ W) (h_jobs : Part.jobs ∈ W) :
    WithinR W s0 (execWinOpen a0 s) := by
  unfold execWinOpen
  try dsimp only
  repeat' first
    | with_reducible assumption
    | with_reducible apply runCmd_within
    | with_reducible apply openWindow_within
    | with_reducible apply within_ite
    | (with_reducible intro u x hu; try dsimp only)
    | with_reducible apply withinR_ite
    | with_reducible apply withinR_next
    | split
    | (intro hs; first | (with_reducible assumption) | exact absurd hs Bool.false_ne_true)
    | with_reducible exact withinP_none
    | with_reducible apply withinP_some
    | with_reducible intro u x hu
    | (with_reducible intro x u hu; try dsimp only)
    | (unfold winOpenRow; try dsimp only)

theorem redSelect_within {W : List Part} {s0 s : State} (a0 : Bool) (a1 : Ctx) (h : Within W s0 s)
    (h_cores : Part.cores ∈ W) (h_mem : Part.mem ∈ W) (h_ports : Part.ports ∈ W) (h_fab : Part.fab ∈ W)
    (h_jobs : Part.jobs ∈ W) :
    Within W s0 (redSelect a0 a1 s) := by
  unfold redSelect
  try dsimp only
  repeat' first
    | with_reducible assumption
    | with_reducible apply readInputs_within
    | with_reducible refine within_pair (x := readInputs _ _) ?_ (by assumption)
    | with_reducible apply State.redFlags_within
    | with_reducible apply State.complete_within
    | with_reducible apply within_ite

theorem vxSincosEff_within {W : List Part} {s0 s : State} (a0 : Ctx) (h : Within W s0 s)
    (h_cores : Part.cores ∈ W) (h_mem : Part.mem ∈ W) (h_ports : Part.ports ∈ W) (h_fab : Part.fab ∈ W)
    (h_jobs : Part.jobs ∈ W) :
    Within W s0 (vxSincosEff a0 s) := by
  unfold vxSincosEff
  try dsimp only
  repeat' first
    | with_reducible assumption
    | with_reducible apply readInputs_within
    | with_reducible refine within_pair (x := readInputs _ _) ?_ (by assumption)
    | with_reducible apply vxFinish_within

theorem execVxSincos_within {W : List Part} {s0 s : State} (a0 : Fin 64) (h : Within W s0 s)
    (h_cores : Part.cores ∈ W) (h_mem : Part.mem ∈ W) (h_ports : Part.ports ∈ W) (h_fab : Part.fab ∈ W)
    (h_jobs : Part.jobs ∈ W) :
    WithinR W s0 (execVxSincos a0 s) := by
  unfold execVxSincos
  try dsimp only
  repeat' first
    | with_reducible assumption
    | with_reducible apply vxSincosEff_within
    | with_reducible apply runCmd_within
    | with_reducible apply tileHold_within
    | with_reducible refine WithinP.out (o := tileHold _ _ _) ?_ (by assumption)
    | with_reducible apply within_ite
    | (with_reducible intro u x hu; try dsimp only)
    | with_reducible apply withinR_ite
    | with_reducible apply withinR_next
    | split
    | (intro hs; first | (with_reducible assumption) | exact absurd hs Bool.false_ne_true)
    | with_reducible exact withinP_none
    | with_reducible apply withinP_some
    | with_reducible intro u x hu
    | (with_reducible intro x u hu; try dsimp only)
    | (unfold vxRow; try dsimp only)

theorem execRefRestored_within {W : List Part} {s0 s : State} (a0 : Fin 4) (h : Within W s0 s)
    (h_clk : Part.clk ∈ W) :
    WithinR W s0 (execRefRestored a0 s) := by
  unfold execRefRestored
  try dsimp only
  repeat' first
    | with_reducible assumption
    | with_reducible apply withinR_next
    | split
    | with_reducible refine within_clk _ ?_ (by assumption)

theorem execSmbusRead_within {W : List Part} {s0 s : State} (h : Within W s0 s) (h_pins : Part.pins ∈ W) :
    WithinR W s0 (execSmbusRead s) := by
  unfold execSmbusRead
  try dsimp only
  repeat' first
    | with_reducible assumption
    | with_reducible apply within_ite
    | with_reducible apply withinR_ite
    | with_reducible apply withinR_next
    | split
    | with_reducible refine within_pins _ ?_ (by assumption)

theorem State.reread_within {W : List Part} {s0 s : State} (a1 : TxPkt) (h : Within W s0 s)
    (h_cores : Part.cores ∈ W) (h_mem : Part.mem ∈ W) (h_flash : Part.flash ∈ W) :
    Within W s0 (State.reread s a1).2 := by
  unfold State.reread
  try dsimp only
  repeat' first
    | with_reducible assumption
    | with_reducible apply State.chainPart_within
    | with_reducible refine within_trip (x := State.chainPart _ _ _ _) ?_ (by assumption)
    | with_reducible apply State.sourceBytes_within
    | with_reducible refine within_pair (x := State.sourceBytes _ _ _) ?_ (by assumption)
    | with_reducible apply State.readMem_within
    | with_reducible refine within_pair (x := State.readMem _ _ _ _) ?_ (by assumption)
    | with_reducible apply within_ite
    | split

theorem State.failFlow_within {W : List Part} {s0 s : State} (a1 : ℕ) (h : Within W s0 s)
    (h_cores : Part.cores ∈ W) (h_mem : Part.mem ∈ W) (h_ports : Part.ports ∈ W) (h_fab : Part.fab ∈ W)
    (h_jobs : Part.jobs ∈ W) :
    Within W s0 (State.failFlow s a1) := by
  unfold State.failFlow
  try dsimp only
  repeat' first
    | with_reducible assumption
    | with_reducible apply State.onFlow_within
    | with_reducible apply State.leaveOpen_within
    | with_reducible apply State.loseJob_within

theorem State.retransmit_within {W : List Part} {s0 s : State} (a1 : ℕ) (a2 : TxPkt) (h : Within W s0 s)
    (h_cores : Part.cores ∈ W) (h_mem : Part.mem ∈ W) (h_ports : Part.ports ∈ W) (h_fab : Part.fab ∈ W)
    (h_jobs : Part.jobs ∈ W) (h_flash : Part.flash ∈ W) :
    Within W s0 (State.retransmit s a1 a2) := by
  unfold State.retransmit
  try dsimp only
  repeat' first
    | with_reducible assumption
    | with_reducible apply State.reread_within
    | with_reducible refine within_pair (x := State.reread _ _) ?_ (by assumption)
    | with_reducible apply State.wire_within
    | with_reducible apply State.onFlow_within
    | with_reducible apply State.failFlow_within
    | with_reducible apply within_ite
    | split
    | with_reducible refine within_fab _ ?_ (by assumption)

theorem execDeviceLevelFault_within {W : List Part} {s0 s : State} (a0 : BitVec 4) (a1 : ℕ) (h : Within W s0 s)
    (h_cores : Part.cores ∈ W) (h_mem : Part.mem ∈ W) (h_ports : Part.ports ∈ W) (h_fab : Part.fab ∈ W)
    (h_host : Part.host ∈ W) (h_jobs : Part.jobs ∈ W) (h_flash : Part.flash ∈ W) (h_mgmt : Part.mgmt ∈ W)
    (h_pwr : Part.pwr ∈ W) (h_clk : Part.clk ∈ W) :
    WithinR W s0 (execDeviceLevelFault a0 a1 s) := by
  unfold execDeviceLevelFault
  try dsimp only
  repeat' first
    | with_reducible assumption
    | with_reducible apply State.deviceFault_within
    | with_reducible apply State.at_within
    | with_reducible apply within_ite
    | with_reducible apply withinR_ite
    | with_reducible apply withinR_next

theorem State.powerOff_within {W : List Part} {s0 s : State} (h : Within W s0 s) (h_cores : Part.cores ∈ W)
    (h_mem : Part.mem ∈ W) (h_ports : Part.ports ∈ W) (h_optics : Part.optics ∈ W) (h_fab : Part.fab ∈ W)
    (h_host : Part.host ∈ W) (h_jobs : Part.jobs ∈ W) (h_cfg : Part.cfg ∈ W) (h_flash : Part.flash ∈ W)
    (h_mgmt : Part.mgmt ∈ W) (h_pwr : Part.pwr ∈ W) (h_pins : Part.pins ∈ W) :
    Within W s0 (State.powerOff s) := by
  unfold State.powerOff
  try dsimp only
  repeat' first
    | with_reducible assumption
    | with_reducible apply State.hostReset_within
    | with_reducible apply State.onDom_within
    | with_reducible apply within_foldl
    | with_reducible apply within_foldl2
    | (with_reducible intro u x hu; try dsimp only)
    | split
    | with_reducible refine within_cores_mem_ports_optics_fab_host_jobs_cfg_mgmt_pins _ _ _ _ _ _ _ _ _ _ ?_ (by assumption) (by assumption) (by assumption) (by assumption) (by assumption) (by assumption) (by assumption) (by assumption) (by assumption) (by assumption)

theorem execPwrGoodFall_within {W : List Part} {s0 s : State} (h : Within W s0 s) (h_cores : Part.cores ∈ W)
    (h_mem : Part.mem ∈ W) (h_ports : Part.ports ∈ W) (h_optics : Part.optics ∈ W) (h_fab : Part.fab ∈ W)
    (h_host : Part.host ∈ W) (h_jobs : Part.jobs ∈ W) (h_cfg : Part.cfg ∈ W) (h_flash : Part.flash ∈ W)
    (h_mgmt : Part.mgmt ∈ W) (h_pwr : Part.pwr ∈ W) (h_pins : Part.pins ∈ W) :
    WithinR W s0 (execPwrGoodFall s) := by
  unfold execPwrGoodFall
  try dsimp only
  repeat' first
    | with_reducible assumption
    | with_reducible apply State.powerOff_within
    | with_reducible apply within_ite
    | with_reducible apply withinR_ite
    | with_reducible apply withinR_next

theorem State.accepted_within {W : List Part} {s0 s : State} (a1 : ℕ) (a2 : Found) (h : Within W s0 s)
    (h_host : Part.host ∈ W) :
    Within W s0 (State.accepted s a1 a2) := by
  unfold State.accepted
  try dsimp only
  repeat' first
    | with_reducible assumption
    | with_reducible apply State.onPair_within
    | with_reducible apply within_ite
    | split
    | with_reducible refine within_host _ ?_ (by assumption)

theorem execCxlLinkDown_within {W : List Part} {s0 s : State} (h : Within W s0 s) (h_cores : Part.cores ∈ W)
    (h_mem : Part.mem ∈ W) (h_ports : Part.ports ∈ W) (h_fab : Part.fab ∈ W) (h_host : Part.host ∈ W)
    (h_cfg : Part.cfg ∈ W) (h_flash : Part.flash ∈ W) :
    WithinR W s0 (execCxlLinkDown s) := by
  unfold execCxlLinkDown
  try dsimp only
  repeat' first
    | with_reducible assumption
    | with_reducible apply State.hostReset_within
    | with_reducible apply within_ite
    | with_reducible apply withinR_ite
    | with_reducible apply withinR_next

theorem execDeferredStepSwitch_within {W : List Part} {s0 s : State} (a0 : Fin 72) (a1 : ℕ) (h : Within W s0 s)
    (h_pwr : Part.pwr ∈ W) (h_clk : Part.clk ∈ W) :
    WithinR W s0 (execDeferredStepSwitch a0 a1 s) := by
  unfold execDeferredStepSwitch
  try dsimp only
  repeat' first
    | with_reducible assumption
    | with_reducible apply State.at_within
    | with_reducible apply State.onDom_within
    | with_reducible apply State.switchStep_within
    | with_reducible apply within_ite
    | with_reducible apply withinR_ite
    | with_reducible apply withinR_next

theorem execQCfg_within {W : List Part} {s0 s : State} (a0 : Fin 64) (h : Within W s0 s)
    (h_cores : Part.cores ∈ W) (h_jobs : Part.jobs ∈ W) :
    WithinR W s0 (execQCfg a0 s) := by
  unfold execQCfg
  try dsimp only
  repeat' first
    | with_reducible assumption
    | with_reducible apply State.retireFront_within
    | with_reducible apply runCmd_within
    | with_reducible apply State.drainPump_within
    | with_reducible apply State.onQueue_within
    | with_reducible apply within_ite
    | (with_reducible intro u x hu; try dsimp only)
    | with_reducible apply withinR_ite
    | with_reducible apply withinR_next
    | split
    | (intro hs; first | (with_reducible assumption) | exact absurd hs Bool.false_ne_true)
    | with_reducible exact withinP_none
    | with_reducible apply withinP_some
    | with_reducible intro u x hu
    | (with_reducible intro x u hu; try dsimp only)
    | (unfold qCfgRow; try dsimp only)

theorem execLldpTimer_within {W : List Part} {s0 s : State} (a0 : Fin 96) (a1 : ℕ) (h : Within W s0 s)
    (h_ports : Part.ports ∈ W) (h_clk : Part.clk ∈ W) :
    WithinR W s0 (execLldpTimer a0 a1 s) := by
  unfold execLldpTimer
  try dsimp only
  repeat' first
    | with_reducible assumption
    | with_reducible apply State.at_within
    | with_reducible apply State.sendLldp_within
    | with_reducible apply within_ite
    | with_reducible apply withinR_ite
    | with_reducible apply withinR_next

theorem execWindowWrite_within {W : List Part} {s0 s : State} (a0 : Fin 64) (a1 : BitVec 18) (a2 : BitVec 6)
    (a3 : WinHdr) (a4 : Bool) (a5 : List Byte) (h : Within W s0 s) (h_cores : Part.cores ∈ W)
    (h_mem : Part.mem ∈ W) (h_ports : Part.ports ∈ W) (h_fab : Part.fab ∈ W) (h_jobs : Part.jobs ∈ W) :
    WithinR W s0 (execWindowWrite a0 a1 a2 a3 a4 a5 s) := by
  unfold execWindowWrite
  try dsimp only
  repeat' first
    | with_reducible assumption
    | with_reducible apply State.pumpPort_within
    | with_reducible apply State.placeWindow_within
    | with_reducible refine WithinL.queuedOut (v := State.placeWindow _ _ _ _ _) ?_ (by assumption)
    | with_reducible refine WithinL.codeOut (v := State.placeWindow _ _ _ _ _) ?_ (by assumption)
    | with_reducible refine WithinL.doneOut (v := State.placeWindow _ _ _ _ _) ?_ (by assumption)
    | with_reducible apply State.dropWindow_within
    | with_reducible apply within_ite
    | with_reducible apply withinR_ite
    | with_reducible apply withinR_next
    | split

theorem State.answerWith_within {W : List Part} {s0 s : State} (a1 : ℕ) (a2 : Found) (a3 : ℕ) (a4 : ℕ) (a5 : ℕ)
    (a6 : List Byte) (h : Within W s0 s) (h_host : Part.host ∈ W) :
    Within W s0 (State.answerWith s a1 a2 a3 a4 a5 a6) := by
  unfold State.answerWith
  try dsimp only
  repeat' first
    | with_reducible assumption
    | with_reducible apply State.onPair_within
    | with_reducible apply State.placeResp_within
    | with_reducible apply State.accepted_within
    | with_reducible apply within_ite

theorem State.refuse_within {W : List Part} {s0 s : State} (a1 : ℕ) (a2 : Found) (a3 : ℕ) (h : Within W s0 s)
    (h_host : Part.host ∈ W) :
    Within W s0 (State.refuse s a1 a2 a3) := by
  unfold State.refuse
  try dsimp only
  repeat' first
    | with_reducible assumption
    | with_reducible apply State.answerWith_within

theorem execLaserEol_within {W : List Part} {s0 s : State} (a0 : Fin 96) (a1 : Fin 4) (h : Within W s0 s)
    (h_ports : Part.ports ∈ W) (h_optics : Part.optics ∈ W) (h_fab : Part.fab ∈ W) :
    WithinR W s0 (execLaserEol a0 a1 s) := by
  unfold execLaserEol
  try dsimp only
  repeat' first
    | with_reducible assumption
    | with_reducible apply State.substitute_within
    | with_reducible apply within_ite
    | with_reducible apply withinR_ite
    | with_reducible apply withinR_next

theorem State.scrubbed_within {W : List Part} {s0 s : State} (a1 : ℕ) (a2 : ℕ) (a3 : ℕ) (h : Within W s0 s)
    (h_mem : Part.mem ∈ W) (h_flash : Part.flash ∈ W) :
    Within W s0 (State.scrubbed s a1 a2 a3) := by
  unfold State.scrubbed
  try dsimp only
  repeat' first
    | with_reducible assumption
    | with_reducible apply State.logErr_within
    | with_reducible apply State.onStk_within

theorem State.scrub_within {W : List Part} {s0 s : State} (a1 : ℕ) (a2 : ℕ) (a3 : Upset) (h : Within W s0 s)
    (h_mem : Part.mem ∈ W) (h_flash : Part.flash ∈ W) :
    Within W s0 (State.scrub s a1 a2 a3) := by
  unfold State.scrub
  try dsimp only
  repeat' first
    | with_reducible assumption
    | with_reducible apply State.foundBad_within
    | with_reducible apply State.openRow_within
    | with_reducible apply State.setUnitCond_within
    | with_reducible apply State.upset_within
    | with_reducible apply State.scrubbed_within
    | with_reducible apply State.onStk_within
    | with_reducible apply State.setDram_within
    | with_reducible apply within_ite
    | split

theorem execPatrolScrub_within {W : List Part} {s0 s : State} (a0 : Fin 16) (a1 : Upset) (h : Within W s0 s)
    (h_mem : Part.mem ∈ W) (h_flash : Part.flash ∈ W) :
    WithinR W s0 (execPatrolScrub a0 a1 s) := by
  unfold execPatrolScrub
  try dsimp only
  repeat' first
    | with_reducible assumption
    | with_reducible apply State.onStk_within
    | with_reducible apply State.scrub_within
    | with_reducible apply within_ite
    | with_reducible apply withinR_ite
    | with_reducible apply withinR_next

theorem execOptHoldoverExpiry_within {W : List Part} {s0 s : State} (a0 : ℕ) (h : Within W s0 s)
    (h_ports : Part.ports ∈ W) (h_fab : Part.fab ∈ W) (h_clk : Part.clk ∈ W) :
    WithinR W s0 (execOptHoldoverExpiry a0 s) := by
  unfold execOptHoldoverExpiry
  try dsimp only
  repeat' first
    | with_reducible assumption
    | with_reducible apply State.at_within
    | with_reducible apply State.portTo_within
    | with_reducible apply within_ite
    | with_reducible apply within_foldl
    | with_reducible apply within_foldl2
    | (with_reducible intro u x hu; try dsimp only)
    | with_reducible apply withinR_ite
    | with_reducible apply withinR_next

theorem vxReduce_within {W : List Part} {s0 s : State} (a0 : VxKind) (a1 : ℕ → Option Val → List Val → Acc)
    (a2 : Ctx) (h : Within W s0 s) (h_cores : Part.cores ∈ W) (h_mem : Part.mem ∈ W) (h_ports : Part.ports ∈ W)
    (h_fab : Part.fab ∈ W) (h_jobs : Part.jobs ∈ W) :
    Within W s0 (vxReduce a0 a1 a2 s) := by
  unfold vxReduce
  try dsimp only
  repeat' first
    | with_reducible assumption
    | with_reducible apply readInputs_within
    | with_reducible refine within_pair (x := readInputs _ _) ?_ (by assumption)
    | with_reducible apply vxFinish_within

theorem execVxRsum_within {W : List Part} {s0 s : State} (a0 : Fin 64) (h : Within W s0 s)
    (h_cores : Part.cores ∈ W) (h_mem : Part.mem ∈ W) (h_ports : Part.ports ∈ W) (h_fab : Part.fab ∈ W)
    (h_jobs : Part.jobs ∈ W) :
    WithinR W s0 (execVxRsum a0 s) := by
  unfold execVxRsum
  try dsimp only
  repeat' first
    | with_reducible assumption
    | with_reducible apply runCmd_within
    | with_reducible apply vxReduce_within
    | with_reducible apply tileHold_within
    | with_reducible refine WithinP.out (o := tileHold _ _ _) ?_ (by assumption)
    | with_reducible apply within_ite
    | (with_reducible intro u x hu; try dsimp only)
    | with_reducible apply withinR_ite
    | with_reducible apply withinR_next
    | split
    | (intro hs; first | (with_reducible assumption) | exact absurd hs Bool.false_ne_true)
    | with_reducible exact withinP_none
    | with_reducible apply withinP_some
    | with_reducible intro u x hu
    | (with_reducible intro x u hu; try dsimp only)
    | (unfold vxRow; try dsimp only)

theorem State.bufDrop_within {W : List Part} {s0 s : State} (a1 : ℕ) (a2 : ℕ) (h : Within W s0 s)
    (h_ports : Part.ports ∈ W) :
    Within W s0 (State.bufDrop s a1 a2) := by
  unfold State.bufDrop
  try dsimp only
  repeat' first
    | with_reducible assumption
    | with_reducible apply State.bufTake_within
    | split

theorem execTripRelease_within {W : List Part} {s0 s : State} (a0 : List ℤ) (h : Within W s0 s)
    (h_cores : Part.cores ∈ W) (h_mem : Part.mem ∈ W) (h_ports : Part.ports ∈ W) (h_optics : Part.optics ∈ W)
    (h_fab : Part.fab ∈ W) (h_host : Part.host ∈ W) (h_jobs : Part.jobs ∈ W) (h_cfg : Part.cfg ∈ W)
    (h_sec : Part.sec ∈ W) (h_flash : Part.flash ∈ W) (h_mgmt : Part.mgmt ∈ W) (h_pwr : Part.pwr ∈ W)
    (h_clk : Part.clk ∈ W) (h_thm : Part.thm ∈ W) (h_free : Part.free ∈ W) :
    WithinR W s0 (execTripRelease a0 s) := by
  unfold execTripRelease
  try dsimp only
  repeat' first
    | with_reducible assumption
    | with_reducible apply State.bringUp_within
    | with_reducible apply State.serve_within
    | with_reducible apply within_ite
    | with_reducible apply withinR_ite
    | with_reducible apply withinR_next
    | split
    | with_reducible refine within_thm _ ?_ (by assumption)

theorem execPtpEventTx_within {W : List Part} {s0 s : State} (a0 : Fin 96) (a1 : PtpMsg) (a2 : BitVec 16)
    (a3 : List Byte) (h : Within W s0 s) (h_ports : Part.ports ∈ W) (h_fab : Part.fab ∈ W) :
    WithinR W s0 (execPtpEventTx a0 a1 a2 a3 s) := by
  unfold execPtpEventTx
  try dsimp only
  repeat' first
    | with_reducible assumption
    | with_reducible apply State.atWire_within
    | with_reducible refine within_pair (x := State.atWire _ _ _) ?_ (by assumption)
    | with_reducible apply State.onPort_within
    | with_reducible apply within_ite
    | with_reducible apply within_getD
    | with_reducible apply withinR_ite
    | with_reducible apply withinR_next
    | split

theorem execHiSerTimer_within {W : List Part} {s0 s : State} (a0 : Fin 96) (a1 : ℕ) (a2 : ℕ) (a3 : ℕ) (a4 : ℕ)
    (a5 : ℕ) (h : Within W s0 s) (h_ports : Part.ports ∈ W) (h_optics : Part.optics ∈ W) (h_fab : Part.fab ∈ W)
    (h_clk : Part.clk ∈ W) :
    WithinR W s0 (execHiSerTimer a0 a1 a2 a3 a4 a5 s) := by
  unfold execHiSerTimer
  try dsimp only
  repeat' first
    | with_reducible assumption
    | with_reducible apply State.substitute_within
    | with_reducible apply State.at_within
    | with_reducible apply State.onPort_within
    | with_reducible apply within_ite
    | with_reducible apply withinR_ite
    | with_reducible apply withinR_next
    | split

theorem State.preSetup_within {W : List Part} {s0 s : State} (a1 : ℕ) (a2 : BitVec 18) (h : Within W s0 s)
    (h_cores : Part.cores ∈ W) (h_mem : Part.mem ∈ W) (h_ports : Part.ports ∈ W) (h_fab : Part.fab ∈ W) :
    Within W s0 (State.preSetup s a1 a2) := by
  unfold State.preSetup
  try dsimp only
  repeat' first
    | with_reducible assumption
    | with_reducible apply State.startSetup_within
    | with_reducible refine WithinM.out (v := State.startSetup _ _ _) ?_ (by assumption)
    | with_reducible apply State.noteRefused_within
    | split

theorem State.stage_within {W : List Part} {s0 s : State} (a1 : ℕ) (a2 : Word) (h : Within W s0 s)
    (h_cfg : Part.cfg ∈ W) :
    Within W s0 (State.stage s a1 a2) := by
  unfold State.stage
  try dsimp only
  repeat' first
    | with_reducible assumption
    | with_reducible apply within_ite
    | split
    | with_reducible refine within_cfg _ ?_ (by assumption)

theorem State.stagePairs_within {W : List Part} {s0 s : State} (a1 : ℕ) (a2 : List (ℕ × Word)) (h : Within W s0 s)
    (h_cfg : Part.cfg ∈ W) :
    Within W s0 (State.stagePairs s a1 a2).2.2 := by
  induction a2 generalizing s a1 with
  | nil =>
    unfold State.stagePairs
    try dsimp only
    repeat' first
      | with_reducible assumption
  | cons x r ih =>
    unfold State.stagePairs
    try dsimp only
    repeat' first
      | with_reducible assumption
      | with_reducible apply ih
      | with_reducible apply State.stage_within
      | with_reducible apply within_ite
      | split

theorem execExplicitWaitTimeout_within {W : List Part} {s0 s : State} (a0 : Fin 64) (a1 : Eng) (a2 : ℕ)
    (h : Within W s0 s) (h_cores : Part.cores ∈ W) (h_mem : Part.mem ∈ W) (h_ports : Part.ports ∈ W)
    (h_fab : Part.fab ∈ W) (h_jobs : Part.jobs ∈ W) (h_clk : Part.clk ∈ W) :
    WithinR W s0 (execExplicitWaitTimeout a0 a1 a2 s) := by
  unfold execExplicitWaitTimeout
  try dsimp only
  repeat' first
    | with_reducible assumption
    | with_reducible apply State.failStream_within
    | with_reducible apply State.at_within
    | with_reducible apply State.abortGroup_within
    | with_reducible apply within_ite
    | with_reducible apply withinR_ite
    | with_reducible apply withinR_next
    | split

theorem State.accept_within {W : List Part} {s0 s : State} (a1 : ℕ) (a2 : Found) (a3 : List Byte)
    (h : Within W s0 s) (h_host : Part.host ∈ W) :
    Within W s0 (State.accept s a1 a2 a3) := by
  unfold State.accept
  try dsimp only
  repeat' first
    | with_reducible assumption
    | with_reducible apply State.answerWith_within

theorem execQueueDestroy_within {W : List Part} {s0 s : State} (a0 : Fin 16) (h : Within W s0 s)
    (h_host : Part.host ∈ W) (h_jobs : Part.jobs ∈ W) :
    WithinR W s0 (execQueueDestroy a0 s) := by
  unfold execQueueDestroy
  try dsimp only
  repeat' first
    | with_reducible assumption
    | with_reducible apply State.onSQueue_within
    | with_reducible apply State.accept_within
    | with_reducible apply State.refuse_within
    | with_reducible apply within_ite
    | with_reducible apply withinR_ite
    | with_reducible apply withinR_next
    | split

theorem State.heatCore_within {W : List Part} {s0 s : State} (a1 : ℕ) (h : Within W s0 s) (h_pwr : Part.pwr ∈ W) :
    Within W s0 (State.heatCore s a1) := by
  unfold State.heatCore
  try dsimp only
  repeat' first
    | with_reducible assumption
    | with_reducible apply State.onDom_within

end Sys2Proof.Machine
end

