-- ==== Sys2Proof/Laws/Frames6.lean ====
section
/-! SUPPORT. For each operation and meaning, in dependency order (part 7 of 10): the parts of the state it can
change. -/

namespace Sys2Proof.Machine

theorem State.replayFrom_within {W : List Part} {s0 s : State} (a1 : ℕ) (a2 : Arr) (a3 : ℕ) (a4 : List ℕ)
    (h : Within W s0 s) (h_cores : Part.cores ∈ W) :
    Within W s0 (State.replayFrom s a1 a2 a3 a4) := by
  unfold State.replayFrom
  try dsimp only
  repeat' first
    | with_reducible assumption
    | with_reducible apply State.onArray_within
    | with_reducible apply State.clearArray_within
    | with_reducible apply State.returnOuts_within
    | with_reducible apply State.onBegun_within
    | with_reducible apply within_foldl
    | with_reducible apply within_foldl2
    | (with_reducible intro u x hu; try dsimp only)

theorem State.replayBoth_within {W : List Part} {s0 s : State} (a1 : ℕ) (a2 : Arr) (a3 : ℕ) (a4 : List ℕ)
    (h : Within W s0 s) (h_cores : Part.cores ∈ W) :
    Within W s0 (State.replayBoth s a1 a2 a3 a4) := by
  unfold State.replayBoth
  try dsimp only
  repeat' first
    | with_reducible assumption
    | with_reducible apply State.replayFrom_within
    | split

theorem execStepChange_within {W : List Part} {s0 s : State} (a0 : Fin 72) (a1 : Fin 12) (a2 : ℕ)
    (h : Within W s0 s) (h_pwr : Part.pwr ∈ W) (h_clk : Part.clk ∈ W) :
    WithinR W s0 (execStepChange a0 a1 a2 s) := by
  unfold execStepChange
  try dsimp only
  repeat' first
    | with_reducible assumption
    | with_reducible apply State.requestStep_within
    | with_reducible apply State.at_within
    | with_reducible apply within_ite
    | with_reducible apply withinR_ite
    | with_reducible apply withinR_next

theorem State.openLevel_within {W : List Part} {s0 s : State} (a1 : ℕ) (a2 : ℕ) (h : Within W s0 s)
    (h_sec : Part.sec ∈ W) (h_flash : Part.flash ∈ W) :
    Within W s0 (State.openLevel s a1 a2) := by
  unfold State.openLevel
  try dsimp only
  repeat' first
    | with_reducible assumption
    | with_reducible apply State.logErr_within
    | split
    | with_reducible refine within_sec _ ?_ (by assumption)

theorem State.trySignature_within {W : List Part} {s0 s : State} (a1 : ℕ) (a2 : List Byte) (h : Within W s0 s)
    (h_sec : Part.sec ∈ W) (h_flash : Part.flash ∈ W) :
    Within W s0 (State.trySignature s a1 a2).2 := by
  unfold State.trySignature
  try dsimp only
  repeat' first
    | with_reducible assumption
    | with_reducible apply State.openLevel_within
    | with_reducible apply within_ite
    | split
    | with_reducible refine within_sec _ ?_ (by assumption)

theorem State.sample_within {W : List Part} {s0 s : State} (a1 : ℕ) (a2 : Option ℤ) (h : Within W s0 s)
    (h_thm : Part.thm ∈ W) :
    Within W s0 (State.sample s a1 a2) := by
  unfold State.sample
  try dsimp only
  repeat' first
    | with_reducible assumption
    | split
    | with_reducible refine within_thm _ ?_ (by assumption)

theorem execOeOvertemp_within {W : List Part} {s0 s : State} (a0 : Fin 8) (a1 : Fin 2) (a2 : BitVec 11)
    (h : Within W s0 s) (h_ports : Part.ports ∈ W) (h_optics : Part.optics ∈ W) (h_fab : Part.fab ∈ W)
    (h_thm : Part.thm ∈ W) :
    WithinR W s0 (execOeOvertemp a0 a1 a2 s) := by
  unfold execOeOvertemp
  try dsimp only
  repeat' first
    | with_reducible assumption
    | with_reducible apply State.onOptic_within
    | with_reducible apply State.opticDown_within
    | with_reducible apply State.sample_within
    | with_reducible apply within_ite
    | with_reducible apply withinR_ite
    | with_reducible apply withinR_next
    | split
    | with_reducible refine within_thm _ ?_ (by assumption)

theorem execIcmpEchoRequest_within {W : List Part} {s0 s : State} (a0 : Fin 96) (a1 : Bool) (a2 : BitVec 128)
    (a3 : BitVec 128) (a4 : BitVec 48) (a5 : List Byte) (h : Within W s0 s) (h_ports : Part.ports ∈ W) :
    WithinR W s0 (execIcmpEchoRequest a0 a1 a2 a3 a4 a5 s) := by
  unfold execIcmpEchoRequest
  try dsimp only
  repeat' first
    | with_reducible assumption
    | with_reducible apply State.hkSend_within
    | with_reducible apply within_ite
    | with_reducible apply withinR_ite
    | with_reducible apply withinR_next

theorem execCoolantOkFall_within {W : List Part} {s0 s : State} (a0 : ℕ) (h : Within W s0 s)
    (h_clk : Part.clk ∈ W) (h_thm : Part.thm ∈ W) (h_pins : Part.pins ∈ W) :
    WithinR W s0 (execCoolantOkFall a0 s) := by
  unfold execCoolantOkFall
  try dsimp only
  repeat' first
    | with_reducible assumption
    | with_reducible apply State.at_within
    | with_reducible apply within_ite
    | with_reducible apply withinR_ite
    | with_reducible apply withinR_next
    | split
    | with_reducible refine within_thm_pins _ _ ?_ (by assumption) (by assumption)

theorem State.reserveOut_within {W : List Part} {s0 s : State} (a1 : ℕ) (a2 : Begun) (a3 : Arr) (a4 : DrainSpec)
    (h : Within W s0 s) (h_cores : Part.cores ∈ W) :
    Within W s0 (State.reserveOut s a1 a2 a3 a4) := by
  unfold State.reserveOut
  try dsimp only
  repeat' first
    | with_reducible assumption
    | with_reducible apply State.onQueue_within
    | with_reducible apply State.onBegun_within
    | with_reducible apply within_ite

theorem execTouch_within {W : List Part} {s0 s : State} (a0 : PktHdr) (a1 : BitVec 24) (h : Within W s0 s)
    (h_cores : Part.cores ∈ W) (h_mem : Part.mem ∈ W) (h_ports : Part.ports ∈ W) (h_fab : Part.fab ∈ W)
    (h_jobs : Part.jobs ∈ W) :
    WithinR W s0 (execTouch a0 a1 s) := by
  unfold execTouch
  try dsimp only
  repeat' first
    | with_reducible assumption
    | with_reducible apply State.receiveCtl_within
    | with_reducible apply withinR_next

theorem State.retireCommit_within {W : List Part} {s0 s : State} (a1 : ℕ) (a2 : BitVec 12) (h : Within W s0 s)
    (h_cores : Part.cores ∈ W) (h_jobs : Part.jobs ∈ W) :
    Within W s0 (State.retireCommit s a1 a2) := by
  unfold State.retireCommit
  try dsimp only
  repeat' first
    | with_reducible assumption
    | with_reducible apply State.retireFront_within
    | with_reducible apply within_ite
    | split

theorem execGroupCommitPoint_within {W : List Part} {s0 s : State} (a0 : GrpKey) (h : Within W s0 s)
    (h_cores : Part.cores ∈ W) (h_mem : Part.mem ∈ W) (h_ports : Part.ports ∈ W) (h_fab : Part.fab ∈ W)
    (h_jobs : Part.jobs ∈ W) :
    WithinR W s0 (execGroupCommitPoint a0 s) := by
  unfold execGroupCommitPoint
  try dsimp only
  repeat' first
    | with_reducible assumption
    | with_reducible apply State.resolveLoc_within
    | with_reducible apply State.pumpPort_within
    | with_reducible apply State.retireCommit_within
    | with_reducible apply State.commitShadows_within
    | with_reducible apply State.sendGroup_within
    | with_reducible apply State.endHandle_within
    | with_reducible apply State.onSeq_within
    | with_reducible apply State.onCore_within
    | with_reducible apply within_ite
    | with_reducible apply withinR_ite
    | with_reducible apply withinR_next
    | split

theorem execRetentionEntry_within {W : List Part} {s0 s : State} (a0 : Fin 72) (h : Within W s0 s)
    (h_pwr : Part.pwr ∈ W) :
    WithinR W s0 (execRetentionEntry a0 s) := by
  unfold execRetentionEntry
  try dsimp only
  repeat' first
    | with_reducible assumption
    | with_reducible apply State.onDom_within
    | with_reducible apply within_ite
    | with_reducible apply withinR_ite
    | with_reducible apply withinR_next
    | split

theorem execHostSnoop_within {W : List Part} {s0 s : State} (a0 : BitVec 64) (h : Within W s0 s)
    (h_host : Part.host ∈ W) :
    WithinR W s0 (execHostSnoop a0 s) := by
  unfold execHostSnoop
  try dsimp only
  repeat' first
    | with_reducible assumption
    | with_reducible apply within_ite
    | with_reducible apply withinR_ite
    | with_reducible apply withinR_next
    | split
    | with_reducible refine within_host _ ?_ (by assumption)

theorem State.bubbleStall_within {W : List Part} {s0 s : State} (a1 : ℕ) (a2 : Arr) (h : Within W s0 s)
    (h_cores : Part.cores ∈ W) :
    Within W s0 (State.bubbleStall s a1 a2) := by
  unfold State.bubbleStall
  try dsimp only
  repeat' first
    | with_reducible assumption
    | with_reducible apply State.onSeq_within

theorem execRtoExpiry_within {W : List Part} {s0 s : State} (a0 : BitVec 20) (a1 : ℕ) (h : Within W s0 s)
    (h_cores : Part.cores ∈ W) (h_mem : Part.mem ∈ W) (h_ports : Part.ports ∈ W) (h_fab : Part.fab ∈ W)
    (h_jobs : Part.jobs ∈ W) (h_flash : Part.flash ∈ W) (h_clk : Part.clk ∈ W) :
    WithinR W s0 (execRtoExpiry a0 a1 s) := by
  unfold execRtoExpiry
  try dsimp only
  repeat' first
    | with_reducible assumption
    | with_reducible apply State.at_within
    | with_reducible apply State.retransmit_within
    | with_reducible apply State.onFlow_within
    | with_reducible apply within_ite
    | with_reducible apply withinR_ite
    | with_reducible apply withinR_next
    | split
    | with_reducible refine within_fab _ ?_ (by assumption)

theorem State.wireRaw_within {W : List Part} {s0 s : State} (a1 : BitVec 18) (a2 : ℕ → List Byte)
    (h : Within W s0 s) (h_ports : Part.ports ∈ W) :
    Within W s0 (State.wireRaw s a1 a2) := by
  unfold State.wireRaw
  try dsimp only
  repeat' first
    | with_reducible assumption
    | with_reducible apply State.onPort_within
    | split

theorem State.drainTile_within {W : List Part} {s0 s : State} (a1 : ℕ) (a2 : Arr) (a3 : Bool) (a4 : Begun)
    (a5 : DrainSpec) (a6 : Desc) (h : Within W s0 s) (h_cores : Part.cores ∈ W) :
    Within W s0 (State.drainTile s a1 a2 a3 a4 a5 a6) := by
  unfold State.drainTile
  try dsimp only
  repeat' first
    | with_reducible assumption
    | with_reducible apply State.onArray_within
    | with_reducible apply State.onScp_within

theorem State.waitingStalls_within {W : List Part} {s0 s : State} (a1 : ℕ) (h : Within W s0 s)
    (h_cores : Part.cores ∈ W) :
    Within W s0 (State.waitingStalls s a1) := by
  unfold State.waitingStalls
  try dsimp only
  repeat' first
    | with_reducible assumption
    | with_reducible apply State.onSeq_within

theorem execTileDrainStart_within {W : List Part} {s0 s : State} (a0 : Fin 64) (h : Within W s0 s)
    (h_cores : Part.cores ∈ W) (h_mem : Part.mem ∈ W) (h_ports : Part.ports ∈ W) (h_fab : Part.fab ∈ W)
    (h_jobs : Part.jobs ∈ W) :
    WithinR W s0 (execTileDrainStart a0 s) := by
  unfold execTileDrainStart
  try dsimp only
  repeat' first
    | with_reducible assumption
    | with_reducible apply State.reserveOut_within
    | with_reducible apply State.drainTile_within
    | with_reducible apply State.failBegun_within
    | with_reducible apply accessHold_within
    | with_reducible refine WithinP.out (o := accessHold _ _ _ _) ?_ (by assumption)
    | with_reducible apply State.waitingStalls_within
    | with_reducible apply State.dropBegun_within
    | with_reducible apply State.onSeq_within
    | with_reducible apply State.addExtent_within
    | with_reducible apply State.drainPump_within
    | with_reducible apply within_ite
    | with_reducible apply withinR_ite
    | with_reducible apply withinR_next
    | split

theorem vxCvtEff_within {W : List Part} {s0 s : State} (a0 : Ctx) (h : Within W s0 s) (h_cores : Part.cores ∈ W)
    (h_mem : Part.mem ∈ W) (h_ports : Part.ports ∈ W) (h_fab : Part.fab ∈ W) (h_jobs : Part.jobs ∈ W) :
    Within W s0 (vxCvtEff a0 s) := by
  unfold vxCvtEff
  try dsimp only
  repeat' first
    | with_reducible assumption
    | with_reducible apply readInputs_within
    | with_reducible refine within_pair (x := readInputs _ _) ?_ (by assumption)
    | with_reducible apply vxFinish_within

theorem execVxCvt_within {W : List Part} {s0 s : State} (a0 : Fin 64) (h : Within W s0 s)
    (h_cores : Part.cores ∈ W) (h_mem : Part.mem ∈ W) (h_ports : Part.ports ∈ W) (h_fab : Part.fab ∈ W)
    (h_jobs : Part.jobs ∈ W) :
    WithinR W s0 (execVxCvt a0 s) := by
  unfold execVxCvt
  try dsimp only
  repeat' first
    | with_reducible assumption
    | with_reducible apply vxCvtEff_within
    | with_reducible apply runCmd_within
    | with_reducible apply tileHold_within
    | with_reducible refine WithinP.out (o := tileHold _ _ _) ?_ (by assumption)
    | with_reducible apply within_ite
    | (with_reducible intro u x hu; try dsimp only)
    | with_reducible apply withinR_ite
    | with_reducible apply withinR_next
    | split
    | (intro hs; first | (with_reducible assumption) | exact absurd hs Bool.false_ne_true)
    | with_reducible exact withinP_none
    | with_reducible apply withinP_some
    | with_reducible intro u x hu
    | (with_reducible intro x u hu; try dsimp only)
    | (unfold vxRow; try dsimp only)

theorem State.refusedBy_within {W : List Part} {s0 s : State} (a1 : ℕ) (a2 : BitVec 8) (a3 : BitVec 32)
    (h : Within W s0 s) (h_cores : Part.cores ∈ W) (h_mem : Part.mem ∈ W) (h_ports : Part.ports ∈ W)
    (h_fab : Part.fab ∈ W) (h_jobs : Part.jobs ∈ W) :
    Within W s0 (State.refusedBy s a1 a2 a3) := by
  unfold State.refusedBy
  try dsimp only
  repeat' first
    | with_reducible assumption
    | with_reducible apply State.failXfer_within
    | with_reducible apply State.abortGroup_within
    | with_reducible apply within_ite
    | split

theorem State.sendSetupAck_within {W : List Part} {s0 s : State} (a1 : SetupBody) (a2 : ℕ) (a3 : ℕ)
    (h : Within W s0 s) (h_ports : Part.ports ∈ W) (h_fab : Part.fab ∈ W) :
    Within W s0 (State.sendSetupAck s a1 a2 a3) := by
  unfold State.sendSetupAck
  try dsimp only
  repeat' first
    | with_reducible assumption
    | with_reducible apply State.wireRaw_within
    | with_reducible apply State.setupRefused_within
    | with_reducible apply within_ite

theorem execHdmDecoderCommit_within {W : List Part} {s0 s : State} (a0 : Fin 2) (a1 : ℕ) (a2 : ℕ) (a3 : ℕ)
    (a4 : ℕ) (h : Within W s0 s) (h_host : Part.host ∈ W) :
    WithinR W s0 (execHdmDecoderCommit a0 a1 a2 a3 a4 s) := by
  unfold execHdmDecoderCommit
  try dsimp only
  repeat' first
    | with_reducible assumption
    | with_reducible apply within_ite
    | with_reducible apply withinR_ite
    | with_reducible apply withinR_next
    | split
    | with_reducible refine within_host _ ?_ (by assumption)

theorem State.loadContext_within {W : List Part} {s0 s : State} (a1 : Fin 16) (a2 : ℕ) (a3 : Image)
    (a4 : List TaskRec) (h : Within W s0 s) (h_cores : Part.cores ∈ W) (h_mem : Part.mem ∈ W)
    (h_ports : Part.ports ∈ W) (h_fab : Part.fab ∈ W) (h_jobs : Part.jobs ∈ W) (h_flash : Part.flash ∈ W) :
    Within W s0 (State.loadContext s a1 a2 a3 a4) := by
  unfold State.loadContext
  try dsimp only
  repeat' first
    | with_reducible assumption
    | with_reducible apply State.onColl_within
    | with_reducible apply State.runLoad_within
    | with_reducible apply State.preSetup_within
    | with_reducible apply State.onJob_within
    | with_reducible apply within_foldl
    | with_reducible apply within_foldl2
    | (with_reducible intro u x hu; try dsimp only)

theorem State.askOn_within {W : List Part} {s0 s : State} (a1 : ℕ) (h : Within W s0 s) (h_pwr : Part.pwr ∈ W) :
    Within W s0 (State.askOn s a1) := by
  unfold State.askOn
  try dsimp only
  repeat' first
    | with_reducible assumption
    | with_reducible apply State.onDom_within
    | with_reducible apply within_ite

theorem execContextLoad_within {W : List Part} {s0 s : State} (a0 : Fin 16) (a1 : Fin 4096) (a2 : List
    (Fin 64 × ℕ)) (h : Within W s0 s) (h_cores : Part.cores ∈ W) (h_mem : Part.mem ∈ W) (h_ports : Part.ports ∈ W)
    (h_fab : Part.fab ∈ W) (h_host : Part.host ∈ W) (h_jobs : Part.jobs ∈ W) (h_flash : Part.flash ∈ W)
    (h_pwr : Part.pwr ∈ W) :
    WithinR W s0 (execContextLoad a0 a1 a2 s) := by
  unfold execContextLoad
  try dsimp only
  repeat' first
    | with_reducible assumption
    | with_reducible apply State.answerWith_within
    | with_reducible apply State.loadContext_within
    | with_reducible apply State.fetchBytes_within
    | with_reducible refine within_trip (x := State.fetchBytes _ _ _ _) ?_ (by assumption)
    | with_reducible apply State.askOn_within
    | with_reducible apply State.refuse_within
    | with_reducible apply State.onScp_within
    | with_reducible apply within_ite
    | with_reducible apply within_foldl
    | with_reducible apply within_foldl2
    | (with_reducible intro u x hu; try dsimp only)
    | with_reducible apply withinR_ite
    | with_reducible apply withinR_next
    | split

theorem State.discardNow_within {W : List Part} {s0 s : State} (h : Within W s0 s) (h_cfg : Part.cfg ∈ W) :
    Within W s0 (State.discardNow s) := by
  unfold State.discardNow
  try dsimp only
  repeat' first
    | with_reducible assumption
    | with_reducible apply State.discard_within
    | with_reducible apply within_ite
    | split
    | with_reducible refine within_cfg _ ?_ (by assumption)

theorem execStageDiscard_within {W : List Part} {s0 s : State} (h : Within W s0 s) (h_cfg : Part.cfg ∈ W) :
    WithinR W s0 (execStageDiscard s) := by
  unfold execStageDiscard
  try dsimp only
  repeat' first
    | with_reducible assumption
    | with_reducible apply State.discardNow_within
    | with_reducible apply within_ite
    | with_reducible apply withinR_ite
    | with_reducible apply withinR_next

theorem execPtpSyncLoss_within {W : List Part} {s0 s : State} (a0 : ℕ) (h : Within W s0 s) (h_fab : Part.fab ∈ W)
    (h_clk : Part.clk ∈ W) :
    WithinR W s0 (execPtpSyncLoss a0 s) := by
  unfold execPtpSyncLoss
  try dsimp only
  repeat' first
    | with_reducible assumption
    | with_reducible apply State.at_within
    | with_reducible apply within_ite
    | with_reducible apply withinR_ite
    | with_reducible apply withinR_next
    | split
    | with_reducible refine within_fab _ ?_ (by assumption)

theorem execFaultReceived_within {W : List Part} {s0 s : State} (a0 : Fin 96) (a1 : Bool) (h : Within W s0 s)
    (h_ports : Part.ports ∈ W) (h_fab : Part.fab ∈ W) :
    WithinR W s0 (execFaultReceived a0 a1 s) := by
  unfold execFaultReceived
  try dsimp only
  repeat' first
    | with_reducible assumption
    | with_reducible apply State.signal_within
    | with_reducible apply State.portTo_within
    | with_reducible apply State.onPort_within
    | with_reducible apply within_ite
    | with_reducible apply withinR_ite
    | with_reducible apply withinR_next

theorem State.tryPassword_within {W : List Part} {s0 s : State} (a1 : ℕ) (a2 : List Byte) (h : Within W s0 s)
    (h_sec : Part.sec ∈ W) (h_flash : Part.flash ∈ W) :
    Within W s0 (State.tryPassword s a1 a2).2 := by
  unfold State.tryPassword
  try dsimp only
  repeat' first
    | with_reducible assumption
    | with_reducible apply State.openLevel_within
    | with_reducible apply within_ite
    | split
    | with_reducible refine within_sec _ ?_ (by assumption)

theorem execSecUnlockPassword_within {W : List Part} {s0 s : State} (a0 : ℕ) (h : Within W s0 s)
    (h_cores : Part.cores ∈ W) (h_mem : Part.mem ∈ W) (h_ports : Part.ports ∈ W) (h_optics : Part.optics ∈ W)
    (h_fab : Part.fab ∈ W) (h_host : Part.host ∈ W) (h_cfg : Part.cfg ∈ W) (h_sec : Part.sec ∈ W)
    (h_flash : Part.flash ∈ W) (h_pwr : Part.pwr ∈ W) (h_clk : Part.clk ∈ W) :
    WithinR W s0 (execSecUnlockPassword a0 s) := by
  unfold execSecUnlockPassword
  try dsimp only
  repeat' first
    | with_reducible assumption
    | with_reducible apply State.at_within
    | with_reducible apply State.unlockData_within
    | with_reducible refine WithinQ.out (o := State.unlockData _ _) ?_ (by assumption)
    | with_reducible apply State.tryPassword_within
    | with_reducible refine within_pair (x := State.tryPassword _ _ _) ?_ (by assumption)
    | with_reducible apply State.unlockDone_within
    | with_reducible apply withinR_next
    | split

theorem State.landParts_within {W : List Part} {s0 s : State} (a1 : ℕ) (a2 : Begun) (a3 : List (ℕ × ℕ))
    (a4 : List MB) (h : Within W s0 s) (h_cores : Part.cores ∈ W) :
    WithinD W s0 (State.landParts s a1 a2 a3 a4) := by
  induction a3 generalizing s a1 a2 a4 with
  | nil =>
    unfold State.landParts
    try dsimp only
    repeat' first
      | with_reducible assumption
      | with_reducible apply State.landBytes_within
      | with_reducible refine WithinD.waitOut (v := State.landBytes _ _ _ _ _) ?_ (by assumption)
      | with_reducible refine WithinD.doneOut (v := State.landBytes _ _ _ _ _) ?_ (by assumption)
      | with_reducible apply withinD_wait
      | with_reducible exact withinD_code
      | with_reducible apply withinD_done
  | cons x r ih =>
    unfold State.landParts
    try dsimp only
    repeat' first
      | with_reducible assumption
      | with_reducible apply ih
      | with_reducible apply State.landBytes_within
      | with_reducible refine WithinD.waitOut (v := State.landBytes _ _ _ _ _) ?_ (by assumption)
      | with_reducible refine WithinD.doneOut (v := State.landBytes _ _ _ _ _) ?_ (by assumption)
      | with_reducible apply withinD_wait
      | with_reducible exact withinD_code
      | with_reducible apply withinD_done
      | split

theorem State.moveXfers_within {W : List Part} {s0 s : State} (a1 : ℕ) (a2 : Option ℕ) (a3 : Option ℕ)
    (h : Within W s0 s) (h_fab : Part.fab ∈ W) :
    Within W s0 (State.moveXfers s a1 a2 a3) := by
  unfold State.moveXfers
  try dsimp only
  repeat' first
    | with_reducible assumption
    | with_reducible apply within_ite
    | split
    | with_reducible refine within_fab _ ?_ (by assumption)

theorem execVxTanh_within {W : List Part} {s0 s : State} (a0 : Fin 64) (h : Within W s0 s)
    (h_cores : Part.cores ∈ W) (h_mem : Part.mem ∈ W) (h_ports : Part.ports ∈ W) (h_fab : Part.fab ∈ W)
    (h_jobs : Part.jobs ∈ W) :
    WithinR W s0 (execVxTanh a0 s) := by
  unfold execVxTanh
  try dsimp only
  repeat' first
    | with_reducible assumption
    | with_reducible apply vxElementwise_within
    | with_reducible apply runCmd_within
    | with_reducible apply tileHold_within
    | with_reducible refine WithinP.out (o := tileHold _ _ _) ?_ (by assumption)
    | with_reducible apply within_ite
    | (with_reducible intro u x hu; try dsimp only)
    | with_reducible apply withinR_ite
    | with_reducible apply withinR_next
    | split
    | (intro hs; first | (with_reducible assumption) | exact absurd hs Bool.false_ne_true)
    | with_reducible exact withinP_none
    | with_reducible apply withinP_some
    | with_reducible intro u x hu
    | (with_reducible intro x u hu; try dsimp only)
    | (unfold vxRow; try dsimp only)

theorem execArpRequest_within {W : List Part} {s0 s : State} (a0 : Fin 96) (a1 : BitVec 32) (a2 : BitVec 32)
    (a3 : BitVec 48) (h : Within W s0 s) (h_ports : Part.ports ∈ W) :
    WithinR W s0 (execArpRequest a0 a1 a2 a3 s) := by
  unfold execArpRequest
  try dsimp only
  repeat' first
    | with_reducible assumption
    | with_reducible apply State.hkSend_within
    | with_reducible apply within_ite
    | with_reducible apply withinR_ite
    | with_reducible apply withinR_next

theorem State.reserveTile_within {W : List Part} {s0 s : State} (a1 : Ctx) (a2 : ℕ) (a3 : ℕ) (a4 : ℕ)
    (h : Within W s0 s) (h_cores : Part.cores ∈ W) :
    Within W s0 (State.reserveTile s a1 a2 a3 a4).2 := by
  unfold State.reserveTile
  try dsimp only
  repeat' first
    | with_reducible assumption
    | with_reducible apply State.onQueue_within
    | split

theorem execTrainingRetry_within {W : List Part} {s0 s : State} (a0 : Fin 96) (a1 : Bool) (a2 : ℕ)
    (h : Within W s0 s) (h_ports : Part.ports ∈ W) (h_fab : Part.fab ∈ W) (h_clk : Part.clk ∈ W) :
    WithinR W s0 (execTrainingRetry a0 a1 a2 s) := by
  unfold execTrainingRetry
  try dsimp only
  repeat' first
    | with_reducible assumption
    | with_reducible apply State.noSpare_within
    | with_reducible apply State.at_within
    | with_reducible apply State.onPort_within
    | with_reducible apply State.portTo_within
    | with_reducible apply within_ite
    | with_reducible apply withinR_ite
    | with_reducible apply withinR_next

theorem State.placeWin_within {W : List Part} {s0 s : State} (a1 : PktHdr) (a2 : WinHdr) (a3 : List Byte)
    (h : Within W s0 s) (h_cores : Part.cores ∈ W) (h_ports : Part.ports ∈ W) (h_fab : Part.fab ∈ W)
    (h_jobs : Part.jobs ∈ W) :
    Within W s0 (State.placeWin s a1 a2 a3).2 := by
  unfold State.placeWin
  try dsimp only
  repeat' first
    | with_reducible assumption
    | with_reducible apply State.noteXfer_within
    | with_reducible apply State.spoilXfer_within
    | with_reducible apply State.openHandle_within
    | with_reducible refine WithinO.out (o := State.openHandle _ _ _) ?_ (by assumption)
    | with_reducible apply State.noteShape_within
    | with_reducible apply State.placeWindow_within
    | with_reducible refine WithinL.queuedOut (v := State.placeWindow _ _ _ _ _) ?_ (by assumption)
    | with_reducible refine WithinL.codeOut (v := State.placeWindow _ _ _ _ _) ?_ (by assumption)
    | with_reducible refine WithinL.doneOut (v := State.placeWindow _ _ _ _ _) ?_ (by assumption)
    | with_reducible apply State.placeEntry_within
    | with_reducible apply State.bufRelease_within
    | with_reducible apply State.dropWindow_within
    | with_reducible apply within_ite
    | with_reducible refine WithinO.out (o := ite _ _ _) ?_ (by assumption)
    | with_reducible apply withinO_some
    | split

theorem execWriteWin_within {W : List Part} {s0 s : State} (a0 : PktHdr) (a1 : WinHdr) (a2 : List Byte)
    (h : Within W s0 s) (h_cores : Part.cores ∈ W) (h_mem : Part.mem ∈ W) (h_ports : Part.ports ∈ W)
    (h_fab : Part.fab ∈ W) (h_jobs : Part.jobs ∈ W) :
    WithinR W s0 (execWriteWin a0 a1 a2 s) := by
  unfold execWriteWin
  try dsimp only
  repeat' first
    | with_reducible assumption
    | with_reducible apply State.receiveData_within
    | with_reducible apply State.placeWin_within
    | with_reducible refine within_pair (x := State.placeWin _ _ _ _) ?_ (by assumption)
    | (with_reducible intro u x hu; try dsimp only)
    | with_reducible apply withinR_next
    | split
    | (with_reducible intro u hu; try dsimp only)

theorem tongsAlone_within {W : List Part} {s0 s : State} (r : Row) (lc : Nat) (e : Eng) (h : Within W s0 s)
    (h_cores : Part.cores ∈ W) (h_jobs : Part.jobs ∈ W) (hf : r.setsUp = true → Part.fab ∈ W)
    (hh : ∀ s c, Within W s0 s → WithinP W s0 (r.hold s c)) : WithinR W s0 (tongsAlone r lc e s) := by
  unfold tongsAlone
  exact runCmd_within r _ _ lc e h h_cores h_jobs hf hh fun c u hu => State.stallNow_within _ _ _ hu h_cores

theorem execTongsPairStart_within {W : List Part} {s0 s : State} (a0 : Fin 64) (h : Within W s0 s)
    (h_cores : Part.cores ∈ W) (h_jobs : Part.jobs ∈ W) : WithinR W s0 (execTongsPairStart a0 s) := by
  have alone : ∀ r e, r = tongsRow ∨ r = tongsHalfRow → WithinR W s0 (tongsAlone r a0 e s) := by
    rintro r e (rfl | rfl)
    · refine tongsAlone_within _ _ _ h h_cores h_jobs (fun hs => absurd hs Bool.false_ne_true) fun u c hu => ?_
      show WithinP W s0 (accessHold u c (inRuns u c) [])
      exact accessHold_within _ _ _ hu h_cores
    · exact tongsAlone_within _ _ _ h h_cores h_jobs (fun hs => absurd hs Bool.false_ne_true) fun u c _ =>
        show WithinP W s0 (none : Option (Nat × State)) from withinP_none
  unfold execTongsPairStart
  repeat' first
    | with_reducible exact withinR_next h
    | exact alone _ _ (.inl (Eq.refl _))
    | exact alone _ _ (.inr (Eq.refl _))
    | with_reducible apply withinR_next
    | with_reducible apply State.failStream_within
    | with_reducible apply State.onSeq_within
    | with_reducible assumption
    | split

theorem execMmTongs_within {W : List Part} {s0 s : State} (a0 : Fin 64) (h : Within W s0 s)
    (h_cores : Part.cores ∈ W) (h_jobs : Part.jobs ∈ W) :
    WithinR W s0 (execMmTongs a0 s) := by
  unfold execMmTongs
  try dsimp only
  repeat' first
    | with_reducible assumption
    | with_reducible apply tongsEff_within
    | with_reducible apply execTongsPairStart_within
    | with_reducible apply runCmd_within
    | with_reducible apply accessHold_within
    | with_reducible refine WithinP.out (o := accessHold _ _ _ _) ?_ (by assumption)
    | with_reducible apply within_ite
    | (with_reducible intro u x hu; try dsimp only)
    | with_reducible apply withinR_ite
    | with_reducible apply withinR_next
    | split
    | (intro hs; first | (with_reducible assumption) | exact absurd hs Bool.false_ne_true)
    | with_reducible exact withinP_none
    | with_reducible apply withinP_some
    | with_reducible intro u x hu
    | (with_reducible intro x u hu; try dsimp only)
    | (unfold tongsRow; try dsimp only)

theorem execHeldMessageDelivery_within {W : List Part} {s0 s : State} (a0 : Fin 16) (h : Within W s0 s)
    (h_host : Part.host ∈ W) :
    WithinR W s0 (execHeldMessageDelivery a0 s) := by
  unfold execHeldMessageDelivery
  try dsimp only
  repeat' first
    | with_reducible assumption
    | with_reducible apply State.onPair_within
    | with_reducible apply within_ite
    | with_reducible apply withinR_ite
    | with_reducible apply withinR_next
    | split
    | with_reducible refine within_host _ ?_ (by assumption)

theorem State.latch_within {W : List Part} {s0 s : State} (a1 : ℕ) (h : Within W s0 s) (h_cores : Part.cores ∈ W)
    (h_mem : Part.mem ∈ W) (h_ports : Part.ports ∈ W) (h_sec : Part.sec ∈ W) (h_mgmt : Part.mgmt ∈ W)
    (h_pwr : Part.pwr ∈ W) (h_clk : Part.clk ∈ W) (h_free : Part.free ∈ W) :
    WithinO W s0 (State.latch? s a1) := by
  unfold State.latch?
  try dsimp only
  repeat' first
    | with_reducible assumption
    | with_reducible apply State.onStk_within
    | with_reducible apply State.onSeq_within
    | with_reducible apply State.fresh_within
    | with_reducible refine within_pair (x := State.fresh _) ?_ (by assumption)
    | with_reducible apply State.onPort_within
    | with_reducible apply within_ite
    | with_reducible apply within_getD
    | with_reducible apply withinO_bind
    | with_reducible refine WithinO.out (o := Option.bind _ _) ?_ (by assumption)
    | with_reducible intro u hu
    | with_reducible exact withinO_none
    | with_reducible apply withinO_some
    | split
    | with_reducible refine within_clk _ ?_ (by assumption)
    | with_reducible refine within_mgmt _ ?_ (by assumption)
    | with_reducible refine within_pwr _ ?_ (by assumption)
    | with_reducible refine within_sec _ ?_ (by assumption)

theorem execSmbusOffsetWrite_within {W : List Part} {s0 s : State} (a0 : List Byte) (h : Within W s0 s)
    (h_pins : Part.pins ∈ W) :
    WithinR W s0 (execSmbusOffsetWrite a0 s) := by
  unfold execSmbusOffsetWrite
  try dsimp only
  repeat' first
    | with_reducible assumption
    | with_reducible apply within_ite
    | with_reducible apply within_getD
    | with_reducible apply withinR_ite
    | with_reducible apply withinR_next
    | split
    | with_reducible refine within_pins _ ?_ (by assumption)

theorem execMc3Restart_within {W : List Part} {s0 s : State} (a0 : Bool) (h : Within W s0 s)
    (h_ports : Part.ports ∈ W) (h_fab : Part.fab ∈ W) (h_flash : Part.flash ∈ W) (h_mgmt : Part.mgmt ∈ W) :
    WithinR W s0 (execMc3Restart a0 s) := by
  unfold execMc3Restart
  try dsimp only
  repeat' first
    | with_reducible assumption
    | with_reducible apply State.goOutAll_within
    | with_reducible apply State.logErr_within
    | with_reducible apply within_ite
    | with_reducible apply withinR_ite
    | with_reducible apply withinR_next
    | split
    | with_reducible refine within_fab_mgmt _ _ ?_ (by assumption) (by assumption)

theorem State.takeBack_within {W : List Part} {s0 s : State} (a1 : ℕ) (a2 : ℕ) (h : Within W s0 s)
    (h_cores : Part.cores ∈ W) (h_mem : Part.mem ∈ W) (h_fab : Part.fab ∈ W) :
    Within W s0 (State.takeBack s a1 a2) := by
  unfold State.takeBack
  try dsimp only
  repeat' first
    | with_reducible assumption
    | with_reducible apply State.moveXfers_within
    | with_reducible apply State.onScp_within
    | with_reducible apply State.dropAside_within

theorem State.restoreWindows_within {W : List Part} {s0 s : State} (a1 : ℕ) (h : Within W s0 s)
    (h_cores : Part.cores ∈ W) :
    Within W s0 (State.restoreWindows s a1) := by
  unfold State.restoreWindows
  try dsimp only
  repeat' first
    | with_reducible assumption
    | with_reducible apply State.placeEntry_within
    | with_reducible apply State.onSeq_within
    | with_reducible apply within_ite
    | with_reducible apply within_foldl
    | with_reducible apply within_foldl2
    | (with_reducible intro u x hu; try dsimp only)

theorem State.restoreTask_within {W : List Part} {s0 s : State} (a1 : ℕ) (a2 : ℕ) (a3 : Job) (a4 : TaskRec)
    (a5 : Saved) (h : Within W s0 s) (h_cores : Part.cores ∈ W) (h_mem : Part.mem ∈ W) (h_fab : Part.fab ∈ W) :
    Within W s0 (State.restoreTask s a1 a2 a3 a4 a5) := by
  unfold State.restoreTask
  try dsimp only
  repeat' first
    | with_reducible assumption
    | with_reducible apply State.takeBack_within
    | with_reducible apply State.restoreWindows_within
    | with_reducible apply State.onCore_within

theorem State.setSections_within {W : List Part} {s0 s : State} (a1 : ℕ) (h : Within W s0 s)
    (h_cores : Part.cores ∈ W) :
    Within W s0 (State.setSections s a1) := by
  unfold State.setSections
  try dsimp only
  repeat' first
    | with_reducible assumption
    | with_reducible apply State.onScp_within
    | with_reducible apply within_ite
    | with_reducible apply within_foldl
    | with_reducible apply within_foldl2
    | (with_reducible intro u x hu; try dsimp only)

theorem State.startTask_within {W : List Part} {s0 s : State} (a1 : ℕ) (a2 : TaskRec) (h : Within W s0 s)
    (h_cores : Part.cores ∈ W) (h_mem : Part.mem ∈ W) (h_fab : Part.fab ∈ W) :
    Within W s0 (State.startTask s a1 a2) := by
  unfold State.startTask
  try dsimp only
  repeat' first
    | with_reducible assumption
    | with_reducible apply State.restoreTask_within
    | with_reducible apply State.setSections_within
    | with_reducible apply State.onSeq_within
    | split

theorem State.allOff_within {W : List Part} {s0 s : State} (h : Within W s0 s) (h_cores : Part.cores ∈ W)
    (h_mem : Part.mem ∈ W) (h_ports : Part.ports ∈ W) (h_optics : Part.optics ∈ W) (h_fab : Part.fab ∈ W)
    (h_host : Part.host ∈ W) (h_jobs : Part.jobs ∈ W) (h_cfg : Part.cfg ∈ W) (h_sec : Part.sec ∈ W)
    (h_flash : Part.flash ∈ W) (h_mgmt : Part.mgmt ∈ W) (h_pwr : Part.pwr ∈ W) (h_pins : Part.pins ∈ W) :
    Within W s0 (State.allOff s) := by
  unfold State.allOff
  try dsimp only
  repeat' first
    | with_reducible assumption
    | with_reducible apply State.powerOff_within
    | split
    | with_reducible refine within_sec_mgmt _ _ ?_ (by assumption) (by assumption)

theorem execVinOutOfRange_within {W : List Part} {s0 s : State} (a0 : ℕ) (h : Within W s0 s)
    (h_cores : Part.cores ∈ W) (h_mem : Part.mem ∈ W) (h_ports : Part.ports ∈ W) (h_optics : Part.optics ∈ W)
    (h_fab : Part.fab ∈ W) (h_host : Part.host ∈ W) (h_jobs : Part.jobs ∈ W) (h_cfg : Part.cfg ∈ W)
    (h_sec : Part.sec ∈ W) (h_flash : Part.flash ∈ W) (h_mgmt : Part.mgmt ∈ W) (h_pwr : Part.pwr ∈ W)
    (h_pins : Part.pins ∈ W) :
    WithinR W s0 (execVinOutOfRange a0 s) := by
  unfold execVinOutOfRange
  try dsimp only
  repeat' first
    | with_reducible assumption
    | with_reducible apply State.allOff_within
    | with_reducible apply within_ite
    | with_reducible apply withinR_ite
    | with_reducible apply withinR_next
    | split
    | with_reducible refine within_pins _ ?_ (by assumption)
    | with_reducible refine within_pwr _ ?_ (by assumption)
    | with_reducible refine within_pwr_pins _ _ ?_ (by assumption) (by assumption)

theorem State.settleTemper_within {W : List Part} {s0 s : State} (a1 : ℕ) (h : Within W s0 s) (h_pwr : Part.pwr ∈ W) :
    Within W s0 (State.settleTemper s a1) := by
  unfold State.settleTemper
  try dsimp only
  repeat' first
    | with_reducible assumption
    | with_reducible apply State.requestStep_within
    | with_reducible apply State.onDom_within
    | with_reducible apply within_ite

theorem execTemperHourly_within {W : List Part} {s0 s : State} (a0 : Fin 72) (a1 : ℕ) (h : Within W s0 s)
    (h_pwr : Part.pwr ∈ W) (h_clk : Part.clk ∈ W) :
    WithinR W s0 (execTemperHourly a0 a1 s) := by
  unfold execTemperHourly
  try dsimp only
  repeat' first
    | with_reducible assumption
    | with_reducible apply State.requestStep_within
    | with_reducible apply State.onDom_within
    | with_reducible apply State.settleTemper_within
    | with_reducible apply State.at_within
    | with_reducible apply within_ite
    | with_reducible apply withinR_ite
    | with_reducible apply withinR_next

theorem State.ackOwner_within {W : List Part} {s0 s : State} (a1 : TxPkt) (h : Within W s0 s)
    (h_cores : Part.cores ∈ W) (h_ports : Part.ports ∈ W) (h_fab : Part.fab ∈ W) (h_jobs : Part.jobs ∈ W) :
    Within W s0 (State.ackOwner s a1) := by
  unfold State.ackOwner
  try dsimp only
  repeat' first
    | with_reducible assumption
    | with_reducible apply State.confirmChain_within
    | with_reducible apply State.endXfer_within
    | with_reducible apply State.onBegun_within
    | with_reducible apply within_ite
    | split

theorem State.ackFlow_within {W : List Part} {s0 s : State} (a1 : ℕ) (a2 : ℕ) (a3 : AckHdr) (h : Within W s0 s)
    (h_fab : Part.fab ∈ W) :
    Within W s0 (State.ackFlow s a1 a2 a3) := by
  unfold State.ackFlow
  try dsimp only
  repeat' first
    | with_reducible assumption
    | with_reducible apply State.onFlow_within

theorem execAck_within {W : List Part} {s0 s : State} (a0 : PktHdr) (a1 : AckHdr) (h : Within W s0 s)
    (h_cores : Part.cores ∈ W) (h_mem : Part.mem ∈ W) (h_ports : Part.ports ∈ W) (h_fab : Part.fab ∈ W)
    (h_host : Part.host ∈ W) (h_jobs : Part.jobs ∈ W) (h_flash : Part.flash ∈ W) :
    WithinR W s0 (execAck a0 a1 s) := by
  unfold execAck
  try dsimp only
  repeat' first
    | with_reducible assumption
    | with_reducible apply State.ctxUse_within
    | with_reducible refine within_pair (x := State.ctxUse _ _) ?_ (by assumption)
    | with_reducible apply State.refusedBy_within
    | with_reducible apply State.freeFlowAt_within
    | with_reducible apply State.ackOwner_within
    | with_reducible apply State.pumpFlow_within
    | with_reducible apply State.ackFlow_within
    | with_reducible apply State.bufRelease_within
    | with_reducible apply State.failFlow_within
    | with_reducible apply within_ite
    | with_reducible apply within_foldl
    | with_reducible apply within_foldl2
    | (with_reducible intro u x hu; try dsimp only)
    | with_reducible apply withinR_ite
    | with_reducible apply withinR_next
    | split

theorem execVxFma_within {W : List Part} {s0 s : State} (a0 : Fin 64) (h : Within W s0 s)
    (h_cores : Part.cores ∈ W) (h_mem : Part.mem ∈ W) (h_ports : Part.ports ∈ W) (h_fab : Part.fab ∈ W)
    (h_jobs : Part.jobs ∈ W) :
    WithinR W s0 (execVxFma a0 s) := by
  unfold execVxFma
  try dsimp only
  repeat' first
    | with_reducible assumption
    | with_reducible apply vxElementwise_within
    | with_reducible apply runCmd_within
    | with_reducible apply tileHold_within
    | with_reducible refine WithinP.out (o := tileHold _ _ _) ?_ (by assumption)
    | with_reducible apply within_ite
    | with_reducible apply within_getD
    | (with_reducible intro u x hu; try dsimp only)
    | with_reducible apply withinR_ite
    | with_reducible apply withinR_next
    | split
    | (intro hs; first | (with_reducible assumption) | exact absurd hs Bool.false_ne_true)
    | with_reducible exact withinP_none
    | with_reducible apply withinP_some
    | with_reducible intro u x hu
    | (with_reducible intro x u hu; try dsimp only)
    | (unfold vxRow; try dsimp only)

theorem execHostMemRequest_within {W : List Part} {s0 s : State} (a0 : BitVec 40) (a1 : HostMem) (a2 : Bool)
    (h : Within W s0 s) (h_cores : Part.cores ∈ W) (h_mem : Part.mem ∈ W) (h_ports : Part.ports ∈ W)
    (h_fab : Part.fab ∈ W) (h_host : Part.host ∈ W) (h_flash : Part.flash ∈ W) :
    WithinR W s0 (execHostMemRequest a0 a1 a2 s) := by
  unfold execHostMemRequest
  try dsimp only
  repeat' first
    | with_reducible assumption
    | with_reducible apply State.retryHeld_within
    | with_reducible apply State.doHost_within
    | with_reducible apply within_ite
    | with_reducible apply withinR_ite
    | with_reducible apply withinR_next
    | split
    | with_reducible refine within_host _ ?_ (by assumption)

theorem execRedTopk_within {W : List Part} {s0 s : State} (a0 : Fin 64) (h : Within W s0 s)
    (h_cores : Part.cores ∈ W) (h_mem : Part.mem ∈ W) (h_ports : Part.ports ∈ W) (h_fab : Part.fab ∈ W)
    (h_jobs : Part.jobs ∈ W) :
    WithinR W s0 (execRedTopk a0 s) := by
  unfold execRedTopk
  try dsimp only
  repeat' first
    | with_reducible assumption
    | with_reducible apply redSelect_within
    | with_reducible apply runCmd_within
    | with_reducible apply tileHold_within
    | with_reducible refine WithinP.out (o := tileHold _ _ _) ?_ (by assumption)
    | with_reducible apply within_ite
    | (with_reducible intro u x hu; try dsimp only)
    | with_reducible apply withinR_ite
    | with_reducible apply withinR_next
    | split
    | (intro hs; first | (with_reducible assumption) | exact absurd hs Bool.false_ne_true)
    | with_reducible exact withinP_none
    | with_reducible apply withinP_some
    | with_reducible intro u x hu
    | (with_reducible intro x u hu; try dsimp only)
    | (unfold redRow; try dsimp only)

theorem execReorderTimeout_within {W : List Part} {s0 s : State} (a0 : BitVec 20) (a1 : BitVec 32) (a2 : ℕ)
    (h : Within W s0 s) (h_cores : Part.cores ∈ W) (h_mem : Part.mem ∈ W) (h_ports : Part.ports ∈ W)
    (h_fab : Part.fab ∈ W) (h_jobs : Part.jobs ∈ W) (h_flash : Part.flash ∈ W) (h_clk : Part.clk ∈ W) :
    WithinR W s0 (execReorderTimeout a0 a1 a2 s) := by
  unfold execReorderTimeout
  try dsimp only
  repeat' first
    | with_reducible assumption
    | with_reducible apply State.retransmit_within
    | with_reducible apply State.at_within
    | with_reducible apply within_ite
    | with_reducible apply withinR_ite
    | with_reducible apply withinR_next
    | split

theorem execVxRmax_within {W : List Part} {s0 s : State} (a0 : Fin 64) (h : Within W s0 s)
    (h_cores : Part.cores ∈ W) (h_mem : Part.mem ∈ W) (h_ports : Part.ports ∈ W) (h_fab : Part.fab ∈ W)
    (h_jobs : Part.jobs ∈ W) :
    WithinR W s0 (execVxRmax a0 s) := by
  unfold execVxRmax
  try dsimp only
  repeat' first
    | with_reducible assumption
    | with_reducible apply runCmd_within
    | with_reducible apply vxReduce_within
    | with_reducible apply tileHold_within
    | with_reducible refine WithinP.out (o := tileHold _ _ _) ?_ (by assumption)
    | with_reducible apply within_ite
    | (with_reducible intro u x hu; try dsimp only)
    | with_reducible apply withinR_ite
    | with_reducible apply withinR_next
    | split
    | (intro hs; first | (with_reducible assumption) | exact absurd hs Bool.false_ne_true)
    | with_reducible exact withinP_none
    | with_reducible apply withinP_some
    | with_reducible intro u x hu
    | (with_reducible intro x u hu; try dsimp only)
    | (unfold vxRow; try dsimp only)

end Sys2Proof.Machine
end

