-- ==== Sys2Proof/Laws/Frames7.lean ====
section
/-! SUPPORT. For each operation and meaning, in dependency order (part 8 of 10): the parts of the state it can
change. -/

namespace Sys2Proof.Machine

theorem execWriteDram_within {W : List Part} {s0 s : State} (a0 : PktHdr) (a1 : DramHdr) (a2 : List Byte)
    (h : Within W s0 s) (h_cores : Part.cores ∈ W) (h_mem : Part.mem ∈ W) (h_ports : Part.ports ∈ W)
    (h_fab : Part.fab ∈ W) (h_host : Part.host ∈ W) (h_jobs : Part.jobs ∈ W) (h_flash : Part.flash ∈ W) :
    WithinR W s0 (execWriteDram a0 a1 a2 s) := by
  unfold execWriteDram
  try dsimp only
  repeat' first
    | with_reducible assumption
    | with_reducible apply State.placeDram_within
    | with_reducible refine within_pair (x := State.placeDram _ _ _ _ _) ?_ (by assumption)
    | with_reducible apply State.receiveData_within
    | (with_reducible intro u x hu; try dsimp only)
    | with_reducible apply withinR_next
    | split
    | (with_reducible intro u hu; try dsimp only)

theorem execWinOpenQuiet_within {W : List Part} {s0 s : State} (a0 : Fin 64) (a1 : ℕ) (h : Within W s0 s)
    (h_cores : Part.cores ∈ W) (h_jobs : Part.jobs ∈ W) (h_clk : Part.clk ∈ W) :
    WithinR W s0 (execWinOpenQuiet a0 a1 s) := by
  unfold execWinOpenQuiet
  try dsimp only
  repeat' first
    | with_reducible assumption
    | with_reducible apply runCmd_within
    | with_reducible apply State.at_within
    | with_reducible apply openWindow_within
    | with_reducible apply within_ite
    | (with_reducible intro u x hu; try dsimp only)
    | with_reducible apply withinR_ite
    | with_reducible apply withinR_next
    | split
    | (intro hs; first | (with_reducible assumption) | exact absurd hs Bool.false_ne_true)
    | with_reducible exact withinP_none
    | with_reducible apply withinP_some
    | with_reducible intro u x hu
    | (with_reducible intro x u hu; try dsimp only)
    | (unfold winOpenRow; try dsimp only)

theorem State.failSetup_within {W : List Part} {s0 s : State} (a1 : ℕ) (a2 : ℕ) (h : Within W s0 s)
    (h_cores : Part.cores ∈ W) (h_mem : Part.mem ∈ W) (h_ports : Part.ports ∈ W) (h_fab : Part.fab ∈ W)
    (h_jobs : Part.jobs ∈ W) :
    Within W s0 (State.failSetup s a1 a2) := by
  unfold State.failSetup
  try dsimp only
  repeat' first
    | with_reducible assumption
    | with_reducible apply State.freeFlowAt_within
    | with_reducible apply State.failStream_within
    | with_reducible apply within_ite
    | with_reducible apply within_foldl
    | with_reducible apply within_foldl2
    | (with_reducible intro u x hu; try dsimp only)

theorem State.collFlush_within {W : List Part} {s0 s : State} (a1 : ℕ) (h : Within W s0 s)
    (h_ports : Part.ports ∈ W) (h_fab : Part.fab ∈ W) :
    Within W s0 (State.collFlush s a1) := by
  unfold State.collFlush
  try dsimp only
  repeat' first
    | with_reducible assumption
    | with_reducible apply State.onColl_within
    | with_reducible apply State.sendCtl_within
    | with_reducible apply within_ite
    | with_reducible apply within_foldl
    | with_reducible apply within_foldl2
    | (with_reducible intro u x hu; try dsimp only)

theorem State.cacheIn_within {W : List Part} {s0 s : State} (a1 : ℕ) (h : Within W s0 s) (h_fab : Part.fab ∈ W) :
    Within W s0 (State.cacheIn s a1) := by
  unfold State.cacheIn
  try dsimp only
  repeat' first
    | with_reducible assumption
    | with_reducible apply State.onFlow_within
    | with_reducible apply within_ite
    | split

theorem State.openFlow_within {W : List Part} {s0 s : State} (a1 : ℕ) (a2 : SetupBody) (h : Within W s0 s)
    (h_ports : Part.ports ∈ W) (h_fab : Part.fab ∈ W) :
    Within W s0 (State.openFlow s a1 a2) := by
  unfold State.openFlow
  try dsimp only
  repeat' first
    | with_reducible assumption
    | with_reducible apply State.onFlow_within
    | with_reducible apply State.collFlush_within
    | with_reducible apply State.cacheIn_within

theorem execSetupAck_within {W : List Part} {s0 s : State} (a0 : PktHdr) (a1 : SetupBody) (h : Within W s0 s)
    (h_cores : Part.cores ∈ W) (h_mem : Part.mem ∈ W) (h_ports : Part.ports ∈ W) (h_fab : Part.fab ∈ W)
    (h_jobs : Part.jobs ∈ W) :
    WithinR W s0 (execSetupAck a0 a1 s) := by
  unfold execSetupAck
  try dsimp only
  repeat' first
    | with_reducible assumption
    | with_reducible apply State.failSetup_within
    | with_reducible apply State.bufRelease_within
    | with_reducible apply State.openFlow_within
    | with_reducible apply State.setupRefused_within
    | with_reducible apply within_ite
    | with_reducible apply withinR_ite
    | with_reducible apply withinR_next
    | split

theorem State.w1c_within {W : List Part} {s0 s : State} (a1 : ℕ) (a2 : Word) (h : Within W s0 s)
    (h_cores : Part.cores ∈ W) (h_host : Part.host ∈ W) (h_clk : Part.clk ∈ W) :
    WithinO W s0 (State.w1c? s a1 a2) := by
  unfold State.w1c?
  try dsimp only
  repeat' first
    | with_reducible assumption
    | with_reducible apply State.onArray_within
    | with_reducible apply State.onInteg_within
    | with_reducible apply within_ite
    | with_reducible apply withinO_bind
    | with_reducible refine WithinO.out (o := Option.bind _ _) ?_ (by assumption)
    | with_reducible intro u hu
    | with_reducible exact withinO_none
    | with_reducible apply withinO_some
    | split
    | with_reducible refine within_clk _ ?_ (by assumption)
    | with_reducible refine within_host _ ?_ (by assumption)

theorem execVxSqrt_within {W : List Part} {s0 s : State} (a0 : Fin 64) (h : Within W s0 s)
    (h_cores : Part.cores ∈ W) (h_mem : Part.mem ∈ W) (h_ports : Part.ports ∈ W) (h_fab : Part.fab ∈ W)
    (h_jobs : Part.jobs ∈ W) :
    WithinR W s0 (execVxSqrt a0 s) := by
  unfold execVxSqrt
  try dsimp only
  repeat' first
    | with_reducible assumption
    | with_reducible apply vxElementwise_within
    | with_reducible apply runCmd_within
    | with_reducible apply tileHold_within
    | with_reducible refine WithinP.out (o := tileHold _ _ _) ?_ (by assumption)
    | with_reducible apply within_ite
    | (with_reducible intro u x hu; try dsimp only)
    | with_reducible apply withinR_ite
    | with_reducible apply withinR_next
    | split
    | (intro hs; first | (with_reducible assumption) | exact absurd hs Bool.false_ne_true)
    | with_reducible exact withinP_none
    | with_reducible apply withinP_some
    | with_reducible intro u x hu
    | (with_reducible intro x u hu; try dsimp only)
    | (unfold vxRow; try dsimp only)

theorem gatherEff_within {W : List Part} {s0 s : State} (a0 : Ctx) (h : Within W s0 s) (h_cores : Part.cores ∈ W)
    (h_jobs : Part.jobs ∈ W) :
    Within W s0 (gatherEff a0 s) := by
  unfold gatherEff
  try dsimp only
  repeat' first
    | with_reducible assumption
    | with_reducible apply State.onQueue_within
    | with_reducible apply State.popInputs_within
    | with_reducible apply State.retireFront_within
    | with_reducible apply State.setCore_within

theorem execCredit_within {W : List Part} {s0 s : State} (a0 : PktHdr) (a1 : BitVec 6) (a2 : BitVec 12)
    (a3 : BitVec 16) (a4 : Bool) (a5 : BitVec 32) (h : Within W s0 s) (h_cores : Part.cores ∈ W)
    (h_mem : Part.mem ∈ W) (h_ports : Part.ports ∈ W) (h_fab : Part.fab ∈ W) (h_jobs : Part.jobs ∈ W) :
    WithinR W s0 (execCredit a0 a1 a2 a3 a4 a5 s) := by
  unfold execCredit
  try dsimp only
  repeat' first
    | with_reducible assumption
    | with_reducible apply State.receiveCtl_within
    | with_reducible apply withinR_next

theorem execCrackCheck_within {W : List Part} {s0 s : State} (a0 : Fin 89) (a1 : BitVec 16) (a2 : ℕ)
    (h : Within W s0 s) (h_flash : Part.flash ∈ W) (h_pwr : Part.pwr ∈ W) :
    WithinR W s0 (execCrackCheck a0 a1 a2 s) := by
  unfold execCrackCheck
  try dsimp only
  repeat' first
    | with_reducible assumption
    | with_reducible apply State.onDom_within
    | with_reducible apply State.logErr_within
    | with_reducible apply within_ite
    | with_reducible apply withinR_ite
    | with_reducible apply withinR_next
    | split
    | with_reducible refine within_flash _ ?_ (by assumption)

theorem mmEff_within {W : List Part} {s0 s : State} (a0 : Ctx) (h : Within W s0 s) (h_cores : Part.cores ∈ W) :
    Within W s0 (mmEff a0 s) := by
  unfold mmEff
  try dsimp only
  repeat' first
    | with_reducible assumption
    | with_reducible apply State.onArray_within
    | with_reducible apply State.beginArray_within
    | with_reducible apply State.bellows_within

theorem execMm_within {W : List Part} {s0 s : State} (a0 : Fin 64) (a1 : Arr) (h : Within W s0 s)
    (h_cores : Part.cores ∈ W) (h_jobs : Part.jobs ∈ W) :
    WithinR W s0 (execMm a0 a1 s) := by
  unfold execMm
  try dsimp only
  repeat' first
    | with_reducible assumption
    | with_reducible apply runCmd_within
    | with_reducible apply mmEff_within
    | with_reducible apply accessHold_within
    | with_reducible refine WithinP.out (o := accessHold _ _ _ _) ?_ (by assumption)
    | with_reducible apply within_ite
    | (with_reducible intro u x hu; try dsimp only)
    | with_reducible apply withinR_ite
    | with_reducible apply withinR_next
    | split
    | (intro hs; first | (with_reducible assumption) | exact absurd hs Bool.false_ne_true)
    | with_reducible exact withinP_none
    | with_reducible apply withinP_some
    | with_reducible intro u x hu
    | (with_reducible intro x u hu; try dsimp only)
    | (unfold mmRow; try dsimp only)

theorem execMc0WatchdogExpiry_within {W : List Part} {s0 s : State} (a0 : Bool) (a1 : Boot) (a2 : ℕ)
    (h : Within W s0 s) (h_cores : Part.cores ∈ W) (h_mem : Part.mem ∈ W) (h_ports : Part.ports ∈ W)
    (h_optics : Part.optics ∈ W) (h_fab : Part.fab ∈ W) (h_host : Part.host ∈ W) (h_jobs : Part.jobs ∈ W)
    (h_cfg : Part.cfg ∈ W) (h_sec : Part.sec ∈ W) (h_flash : Part.flash ∈ W) (h_mgmt : Part.mgmt ∈ W)
    (h_pwr : Part.pwr ∈ W) (h_clk : Part.clk ∈ W) (h_thm : Part.thm ∈ W) (h_free : Part.free ∈ W) :
    WithinR W s0 (execMc0WatchdogExpiry a0 a1 a2 s) := by
  unfold execMc0WatchdogExpiry
  try dsimp only
  repeat' first
    | with_reducible assumption
    | with_reducible apply State.serve_within
    | with_reducible apply State.beginStart_within
    | with_reducible apply State.at_within
    | with_reducible apply State.deviceFault_within
    | with_reducible apply State.logErr_within
    | with_reducible apply State.failStart_within
    | with_reducible apply within_ite
    | with_reducible apply withinR_ite
    | with_reducible apply withinR_next
    | split
    | with_reducible refine within_mgmt _ ?_ (by assumption)

theorem State.judgeSensor_within {W : List Part} {s0 s : State} (a1 : ℕ) (h : Within W s0 s)
    (h_flash : Part.flash ∈ W) (h_thm : Part.thm ∈ W) :
    Within W s0 (State.judgeSensor s a1) := by
  unfold State.judgeSensor
  try dsimp only
  repeat' first
    | with_reducible assumption
    | with_reducible apply State.logErr_within
    | with_reducible apply within_ite
    | split
    | with_reducible refine within_thm _ ?_ (by assumption)

theorem execSmbusClockTimeout_within {W : List Part} {s0 s : State} (h : Within W s0 s) (h_pins : Part.pins ∈ W) :
    WithinR W s0 (execSmbusClockTimeout s) := by
  unfold execSmbusClockTimeout
  try dsimp only
  repeat' first
    | with_reducible assumption
    | with_reducible apply withinR_next
    | split
    | with_reducible refine within_pins _ ?_ (by assumption)

theorem execGatherTile_within {W : List Part} {s0 s : State} (a0 : Fin 64) (a1 : Arr) (h : Within W s0 s)
    (h_cores : Part.cores ∈ W) (h_jobs : Part.jobs ∈ W) :
    WithinR W s0 (execGatherTile a0 a1 s) := by
  unfold execGatherTile
  try dsimp only
  repeat' first
    | with_reducible assumption
    | with_reducible apply runCmd_within
    | with_reducible apply gatherEff_within
    | with_reducible apply accessHold_within
    | with_reducible refine WithinP.out (o := accessHold _ _ _ _) ?_ (by assumption)
    | with_reducible apply within_ite
    | (with_reducible intro u x hu; try dsimp only)
    | with_reducible apply withinR_ite
    | with_reducible apply withinR_next
    | split
    | (intro hs; first | (with_reducible assumption) | exact absurd hs Bool.false_ne_true)
    | with_reducible exact withinP_none
    | with_reducible apply withinP_some
    | with_reducible intro u x hu
    | (with_reducible intro x u hu; try dsimp only)
    | (unfold gatherRow; try dsimp only)

theorem State.writeMsix_within {W : List Part} {s0 s : State} (a1 : ℕ) (a2 : Word) (h : Within W s0 s)
    (h_host : Part.host ∈ W) :
    Within W s0 (State.writeMsix s a1 a2) := by
  unfold State.writeMsix
  try dsimp only
  repeat' first
    | with_reducible assumption
    | with_reducible apply State.sendVector_within
    | with_reducible apply within_ite
    | split
    | with_reducible refine within_host _ ?_ (by assumption)

theorem State.selectErr_within {W : List Part} {s0 s : State} (a1 : Word) (h : Within W s0 s)
    (h_mgmt : Part.mgmt ∈ W) :
    Within W s0 (State.selectErr s a1) := by
  unfold State.selectErr
  try dsimp only
  repeat' first
    | with_reducible assumption
    | split
    | with_reducible refine within_mgmt _ ?_ (by assumption)

theorem State.writeStg_within {W : List Part} {s0 s : State} (a1 : ℕ) (a2 : Word) (h : Within W s0 s)
    (h_cfg : Part.cfg ∈ W) :
    Within W s0 (State.writeStg s a1 a2) := by
  unfold State.writeStg
  try dsimp only
  repeat' first
    | with_reducible assumption
    | with_reducible apply State.stage_within
    | with_reducible apply State.putBoth_within
    | with_reducible apply within_ite
    | split
    | with_reducible refine within_cfg _ ?_ (by assumption)

theorem State.writeReg_within {W : List Part} {s0 s : State} (a1 : ℕ) (a2 : Word) (h : Within W s0 s)
    (h_cores : Part.cores ∈ W) (h_host : Part.host ∈ W) (h_cfg : Part.cfg ∈ W) (h_mgmt : Part.mgmt ∈ W)
    (h_clk : Part.clk ∈ W) :
    Within W s0 (State.writeReg s a1 a2) := by
  unfold State.writeReg
  try dsimp only
  repeat' first
    | with_reducible assumption
    | with_reducible apply State.discardNow_within
    | with_reducible apply State.writeMsix_within
    | with_reducible apply State.onPair_within
    | with_reducible apply State.selectErr_within
    | with_reducible apply State.onSeq_within
    | with_reducible apply State.writeStg_within
    | with_reducible apply State.w1c_within
    | with_reducible refine WithinO.out (o := State.w1c? _ _ _) ?_ (by assumption)
    | with_reducible apply within_ite
    | with_reducible refine WithinO.out (o := ite _ _ _) ?_ (by assumption)
    | with_reducible apply withinO_some
    | split

theorem execFaultCleared_within {W : List Part} {s0 s : State} (a0 : Fin 96) (h : Within W s0 s)
    (h_ports : Part.ports ∈ W) (h_optics : Part.optics ∈ W) (h_fab : Part.fab ∈ W) (h_flash : Part.flash ∈ W) :
    WithinR W s0 (execFaultCleared a0 s) := by
  unfold execFaultCleared
  try dsimp only
  repeat' first
    | with_reducible assumption
    | with_reducible apply State.rise_within
    | with_reducible apply State.onPort_within
    | with_reducible apply within_ite
    | with_reducible apply withinR_ite
    | with_reducible apply withinR_next

theorem execStop_within {W : List Part} {s0 s : State} (a0 : Fin 64) (a1 : Eng) (h : Within W s0 s)
    (h_cores : Part.cores ∈ W) (h_jobs : Part.jobs ∈ W) :
    WithinR W s0 (execStop a0 a1 s) := by
  unfold execStop
  try dsimp only
  repeat' first
    | with_reducible assumption
    | with_reducible apply State.onEng_within
    | with_reducible apply State.retireFront_within
    | with_reducible apply runCmd_within
    | with_reducible apply within_ite
    | (with_reducible intro u x hu; try dsimp only)
    | with_reducible apply withinR_ite
    | with_reducible apply withinR_next
    | split
    | (intro hs; first | (with_reducible assumption) | exact absurd hs Bool.false_ne_true)
    | with_reducible exact withinP_none
    | with_reducible apply withinP_some
    | with_reducible intro u x hu
    | (with_reducible intro x u hu; try dsimp only)
    | (unfold plainRow; try dsimp only)

theorem execFunctionLevelReset_within {W : List Part} {s0 s : State} (h : Within W s0 s)
    (h_cores : Part.cores ∈ W) (h_mem : Part.mem ∈ W) (h_ports : Part.ports ∈ W) (h_fab : Part.fab ∈ W)
    (h_host : Part.host ∈ W) (h_cfg : Part.cfg ∈ W) (h_flash : Part.flash ∈ W) :
    WithinR W s0 (execFunctionLevelReset s) := by
  unfold execFunctionLevelReset
  try dsimp only
  repeat' first
    | with_reducible assumption
    | with_reducible apply State.hostReset_within
    | with_reducible apply within_ite
    | with_reducible apply withinR_ite
    | with_reducible apply withinR_next

theorem execVddioLow_within {W : List Part} {s0 s : State} (a0 : Bool) (h : Within W s0 s)
    (h_cores : Part.cores ∈ W) (h_mem : Part.mem ∈ W) (h_ports : Part.ports ∈ W) (h_fab : Part.fab ∈ W)
    (h_host : Part.host ∈ W) (h_cfg : Part.cfg ∈ W) (h_flash : Part.flash ∈ W) (h_thm : Part.thm ∈ W)
    (h_pins : Part.pins ∈ W) :
    WithinR W s0 (execVddioLow a0 s) := by
  unfold execVddioLow
  try dsimp only
  repeat' first
    | with_reducible assumption
    | with_reducible apply State.hostReset_within
    | with_reducible apply within_ite
    | with_reducible apply withinR_ite
    | with_reducible apply withinR_next
    | split
    | with_reducible refine within_flash_pins _ _ ?_ (by assumption) (by assumption)
    | with_reducible refine within_thm_pins _ _ ?_ (by assumption) (by assumption)

theorem State.shiftOut_within {W : List Part} {s0 s : State} (a1 : ℕ) (a2 : List Bool) (h : Within W s0 s)
    (h_sec : Part.sec ∈ W) :
    Within W s0 (State.shiftOut s a1 a2) := by
  unfold State.shiftOut
  try dsimp only
  repeat' first
    | with_reducible assumption
    | split
    | with_reducible refine within_sec _ ?_ (by assumption)

theorem State.dmaPush_within {W : List Part} {s0 s : State} (a1 : Ctx) (a2 : List MB) (a3 : Bool)
    (h : Within W s0 s) (h_cores : Part.cores ∈ W) (h_mem : Part.mem ∈ W) (h_ports : Part.ports ∈ W)
    (h_fab : Part.fab ∈ W) (h_jobs : Part.jobs ∈ W) :
    Within W s0 (State.dmaPush s a1 a2 a3) := by
  unfold State.dmaPush
  try dsimp only
  repeat' first
    | with_reducible assumption
    | with_reducible apply State.retireFront_within
    | with_reducible apply State.failStream_within
    | with_reducible apply State.poisonStop_within
    | with_reducible apply State.pushTile_within
    | with_reducible refine WithinO.out (o := State.pushTile _ _ _ _ _ _ _) ?_ (by assumption)
    | with_reducible apply State.consume_within
    | with_reducible apply within_ite
    | with_reducible refine WithinO.out (o := ite _ _ _) ?_ (by assumption)
    | with_reducible apply withinO_some
    | split

theorem State.failArray_within {W : List Part} {s0 s : State} (a1 : ℕ) (a2 : Arr) (a3 : ℕ) (a4 : ℕ)
    (h : Within W s0 s) (h_cores : Part.cores ∈ W) (h_jobs : Part.jobs ∈ W) (h_flash : Part.flash ∈ W) :
    Within W s0 (State.failArray s a1 a2 a3 a4) := by
  unfold State.failArray
  try dsimp only
  repeat' first
    | with_reducible assumption
    | with_reducible apply State.countReplay_within
    | with_reducible apply State.replayBoth_within
    | with_reducible apply State.secondFailure_within
    | with_reducible apply State.dropBegun_within
    | with_reducible apply within_ite
    | split

theorem State.arrFlags_within {W : List Part} {s0 s : State} (a1 : ℕ) (a2 : Arr) (a3 : Word) (h : Within W s0 s)
    (h_cores : Part.cores ∈ W) :
    Within W s0 (State.arrFlags s a1 a2 a3) := by
  unfold State.arrFlags
  try dsimp only
  repeat' first
    | with_reducible assumption
    | with_reducible apply State.onArray_within

theorem execRefLost_within {W : List Part} {s0 s : State} (a0 : Fin 4) (a1 : ℕ) (h : Within W s0 s)
    (h_cores : Part.cores ∈ W) (h_mem : Part.mem ∈ W) (h_ports : Part.ports ∈ W) (h_fab : Part.fab ∈ W)
    (h_host : Part.host ∈ W) (h_cfg : Part.cfg ∈ W) (h_flash : Part.flash ∈ W) (h_clk : Part.clk ∈ W) :
    WithinR W s0 (execRefLost a0 a1 s) := by
  unfold execRefLost
  try dsimp only
  repeat' first
    | with_reducible assumption
    | with_reducible apply State.hostReset_within
    | with_reducible apply State.logErr_within
    | with_reducible apply State.at_within
    | with_reducible apply within_ite
    | with_reducible apply withinR_ite
    | with_reducible apply withinR_next
    | split
    | with_reducible refine within_clk _ ?_ (by assumption)

theorem execDamperSample_within {W : List Part} {s0 s : State} (a0 : ℕ) (a1 : ℕ) (a2 : List ℕ) (a3 : ℕ)
    (h : Within W s0 s) (h_pwr : Part.pwr ∈ W) (h_clk : Part.clk ∈ W) :
    WithinR W s0 (execDamperSample a0 a1 a2 a3 s) := by
  unfold execDamperSample
  try dsimp only
  repeat' first
    | with_reducible assumption
    | with_reducible apply State.at_within
    | with_reducible apply within_ite
    | with_reducible apply within_foldl
    | with_reducible apply within_foldl2
    | with_reducible apply within_getD
    | (with_reducible intro u x hu; try dsimp only)
    | with_reducible apply withinR_ite
    | with_reducible apply withinR_next
    | split
    | with_reducible refine within_pwr _ ?_ (by assumption)

theorem execPwrGoodRise_within {W : List Part} {s0 s : State} (a0 : Boot) (a1 : BitVec 2) (a2 : ℕ)
    (h : Within W s0 s) (h_cores : Part.cores ∈ W) (h_mem : Part.mem ∈ W) (h_ports : Part.ports ∈ W)
    (h_optics : Part.optics ∈ W) (h_fab : Part.fab ∈ W) (h_host : Part.host ∈ W) (h_jobs : Part.jobs ∈ W)
    (h_cfg : Part.cfg ∈ W) (h_sec : Part.sec ∈ W) (h_flash : Part.flash ∈ W) (h_mgmt : Part.mgmt ∈ W)
    (h_pwr : Part.pwr ∈ W) (h_clk : Part.clk ∈ W) (h_thm : Part.thm ∈ W) (h_pins : Part.pins ∈ W)
    (h_free : Part.free ∈ W) :
    WithinR W s0 (execPwrGoodRise a0 a1 a2 s) := by
  unfold execPwrGoodRise
  try dsimp only
  repeat' first
    | with_reducible assumption
    | with_reducible apply State.beginStart_within
    | with_reducible apply State.at_within
    | with_reducible apply within_ite
    | with_reducible apply withinR_ite
    | with_reducible apply withinR_next
    | split
    | with_reducible refine within_pwr_pins _ _ ?_ (by assumption) (by assumption)

theorem State.newNonce_within {W : List Part} {s0 s : State} (h : Within W s0 s) (h_sec : Part.sec ∈ W)
    (h_free : Part.free ∈ W) :
    Within W s0 (State.newNonce s) := by
  unfold State.newNonce
  try dsimp only
  repeat' first
    | with_reducible assumption
    | with_reducible apply State.fresh_within
    | with_reducible refine within_pair (x := State.fresh _) ?_ (by assumption)
    | with_reducible apply within_foldl
    | with_reducible apply within_foldl2
    | (with_reducible intro u x hu; try dsimp only)
    | split
    | with_reducible refine within_sec _ ?_ (by assumption)

theorem execJtagUnlock_within {W : List Part} {s0 s : State} (a0 : Option (List Byte)) (a1 : ℕ)
    (h : Within W s0 s) (h_sec : Part.sec ∈ W) (h_flash : Part.flash ∈ W) (h_clk : Part.clk ∈ W)
    (h_free : Part.free ∈ W) :
    WithinR W s0 (execJtagUnlock a0 a1 s) := by
  unfold execJtagUnlock
  try dsimp only
  repeat' first
    | with_reducible assumption
    | with_reducible apply State.newNonce_within
    | with_reducible apply State.trySignature_within
    | with_reducible refine within_pair (x := State.trySignature _ _ _) ?_ (by assumption)
    | with_reducible apply State.shiftOut_within
    | with_reducible apply State.at_within
    | with_reducible apply within_ite
    | with_reducible apply withinR_ite
    | with_reducible apply withinR_next
    | split

theorem State.readOut_within {W : List Part} {s0 s : State} (a1 : BitVec 28) (a2 : Word) (h : Within W s0 s)
    (h_host : Part.host ∈ W) :
    Within W s0 (State.readOut s a1 a2) := by
  unfold State.readOut
  try dsimp only
  repeat' first
    | with_reducible assumption
    | split
    | with_reducible refine within_host _ ?_ (by assumption)

theorem execBankedRestart_within {W : List Part} {s0 s : State} (a0 : Boot) (a1 : ℕ) (h : Within W s0 s)
    (h_cores : Part.cores ∈ W) (h_mem : Part.mem ∈ W) (h_ports : Part.ports ∈ W) (h_optics : Part.optics ∈ W)
    (h_fab : Part.fab ∈ W) (h_host : Part.host ∈ W) (h_jobs : Part.jobs ∈ W) (h_cfg : Part.cfg ∈ W)
    (h_sec : Part.sec ∈ W) (h_flash : Part.flash ∈ W) (h_mgmt : Part.mgmt ∈ W) (h_pwr : Part.pwr ∈ W)
    (h_clk : Part.clk ∈ W) (h_thm : Part.thm ∈ W) (h_free : Part.free ∈ W) :
    WithinR W s0 (execBankedRestart a0 a1 s) := by
  unfold execBankedRestart
  try dsimp only
  repeat' first
    | with_reducible assumption
    | with_reducible apply State.beginBanked_within
    | with_reducible apply State.at_within
    | with_reducible apply within_ite
    | with_reducible apply withinR_ite
    | with_reducible apply withinR_next

theorem execVddioRestored_within {W : List Part} {s0 s : State} (a0 : Bool) (h : Within W s0 s)
    (h_pins : Part.pins ∈ W) :
    WithinR W s0 (execVddioRestored a0 s) := by
  unfold execVddioRestored
  try dsimp only
  repeat' first
    | with_reducible assumption
    | with_reducible apply within_ite
    | with_reducible apply withinR_ite
    | with_reducible apply withinR_next
    | split
    | with_reducible refine within_pins _ ?_ (by assumption)

theorem execHotReset_within {W : List Part} {s0 s : State} (h : Within W s0 s) (h_cores : Part.cores ∈ W)
    (h_mem : Part.mem ∈ W) (h_ports : Part.ports ∈ W) (h_fab : Part.fab ∈ W) (h_host : Part.host ∈ W)
    (h_cfg : Part.cfg ∈ W) (h_flash : Part.flash ∈ W) :
    WithinR W s0 (execHotReset s) := by
  unfold execHotReset
  try dsimp only
  repeat' first
    | with_reducible assumption
    | with_reducible apply State.hostReset_within
    | with_reducible apply within_ite
    | with_reducible apply withinR_ite
    | with_reducible apply withinR_next

theorem smxStage_within {W : List Part} {s0 s : State} (a1 : ℕ) (h : Within W s0 s) (h_cores : Part.cores ∈ W)
    (h_free : Part.free ∈ W) :
    Within W s0 (smxStage s a1) := by
  unfold smxStage
  try dsimp only
  repeat' first
    | with_reducible assumption
    | with_reducible apply State.freeRegs_within

theorem execAttestSign_within {W : List Part} {s0 s : State} (a0 : Bool) (h : Within W s0 s)
    (h_host : Part.host ∈ W) (h_sec : Part.sec ∈ W) :
    WithinR W s0 (execAttestSign a0 s) := by
  unfold execAttestSign
  try dsimp only
  repeat' first
    | with_reducible assumption
    | with_reducible apply State.signNext_within
    | with_reducible apply withinR_next

theorem State.tilePassed_within {W : List Part} {s0 s : State} (a1 : ℕ) (a2 : Arr) (a3 : AccTile)
    (h : Within W s0 s) (h_cores : Part.cores ∈ W) (h_ports : Part.ports ∈ W) (h_fab : Part.fab ∈ W)
    (h_jobs : Part.jobs ∈ W) :
    Within W s0 (State.tilePassed s a1 a2 a3) := by
  unfold State.tilePassed
  try dsimp only
  repeat' first
    | with_reducible assumption
    | with_reducible apply State.retireBegun_within
    | with_reducible apply State.pushOuts_within
    | with_reducible apply State.onBegun_within
    | with_reducible apply within_ite
    | with_reducible apply within_foldl
    | with_reducible apply within_foldl2
    | (with_reducible intro u x hu; try dsimp only)
    | split

theorem State.poisonBegun_within {W : List Part} {s0 s : State} (a1 : ℕ) (a2 : Arr) (a3 : Begun)
    (h : Within W s0 s) (h_cores : Part.cores ∈ W) :
    Within W s0 (State.poisonBegun s a1 a2 a3) := by
  unfold State.poisonBegun
  try dsimp only
  repeat' first
    | with_reducible assumption
    | with_reducible apply State.onBegun_within
    | with_reducible apply within_ite
    | split

theorem execPortUp_within {W : List Part} {s0 s : State} (a0 : Fin 96) (h : Within W s0 s)
    (h_ports : Part.ports ∈ W) (h_optics : Part.optics ∈ W) (h_fab : Part.fab ∈ W) (h_flash : Part.flash ∈ W) :
    WithinR W s0 (execPortUp a0 s) := by
  unfold execPortUp
  try dsimp only
  repeat' first
    | with_reducible assumption
    | with_reducible apply State.rise_within
    | with_reducible apply within_ite
    | with_reducible apply withinR_ite
    | with_reducible apply withinR_next

theorem execParkCopyHome_within {W : List Part} {s0 s : State} (a0 : Fin 128) (h : Within W s0 s)
    (h_cores : Part.cores ∈ W) (h_mem : Part.mem ∈ W) (h_ports : Part.ports ∈ W) (h_fab : Part.fab ∈ W)
    (h_host : Part.host ∈ W) (h_flash : Part.flash ∈ W) :
    WithinR W s0 (execParkCopyHome a0 s) := by
  unfold execParkCopyHome
  try dsimp only
  repeat' first
    | with_reducible assumption
    | with_reducible apply State.retryHeld_within
    | with_reducible apply State.settle_within
    | with_reducible apply withinR_next
    | split

theorem execCxlPerstRelease_within {W : List Part} {s0 s : State} (h : Within W s0 s) (h_pins : Part.pins ∈ W) :
    WithinR W s0 (execCxlPerstRelease s) := by
  unfold execCxlPerstRelease
  try dsimp only
  repeat' first
    | with_reducible assumption
    | with_reducible apply within_ite
    | with_reducible apply withinR_ite
    | with_reducible apply withinR_next
    | split
    | with_reducible refine within_pins _ ?_ (by assumption)

theorem smxEff_within {W : List Part} {s0 s : State} (a0 : Ctx) (h : Within W s0 s) (h_cores : Part.cores ∈ W)
    (h_mem : Part.mem ∈ W) (h_ports : Part.ports ∈ W) (h_fab : Part.fab ∈ W) (h_jobs : Part.jobs ∈ W)
    (h_free : Part.free ∈ W) :
    Within W s0 (smxEff a0 s) := by
  unfold smxEff
  try dsimp only
  repeat' first
    | with_reducible assumption
    | with_reducible apply State.vecFlags_within
    | with_reducible apply smxStage_within
    | with_reducible apply readInputs_within
    | with_reducible refine within_pair (x := readInputs _ _) ?_ (by assumption)
    | with_reducible apply State.onScp_within
    | with_reducible apply State.complete_within
    | with_reducible apply within_ite

theorem execVxSmx_within {W : List Part} {s0 s : State} (a0 : Fin 64) (h : Within W s0 s)
    (h_cores : Part.cores ∈ W) (h_mem : Part.mem ∈ W) (h_ports : Part.ports ∈ W) (h_fab : Part.fab ∈ W)
    (h_jobs : Part.jobs ∈ W) (h_free : Part.free ∈ W) :
    WithinR W s0 (execVxSmx a0 s) := by
  unfold execVxSmx
  try dsimp only
  repeat' first
    | with_reducible assumption
    | with_reducible apply smxEff_within
    | with_reducible apply runCmd_within
    | with_reducible apply tileHold_within
    | with_reducible refine WithinP.out (o := tileHold _ _ _) ?_ (by assumption)
    | with_reducible apply within_ite
    | (with_reducible intro u x hu; try dsimp only)
    | with_reducible apply withinR_ite
    | with_reducible apply withinR_next
    | split
    | (intro hs; first | (with_reducible assumption) | exact absurd hs Bool.false_ne_true)
    | with_reducible exact withinP_none
    | with_reducible apply withinP_some
    | with_reducible intro u x hu
    | (with_reducible intro x u hu; try dsimp only)
    | (unfold smxRow; try dsimp only)

theorem execPhaseFailure_within {W : List Part} {s0 s : State} (a0 : Fin 72) (a1 : ℕ) (h : Within W s0 s)
    (h_cores : Part.cores ∈ W) (h_mem : Part.mem ∈ W) (h_ports : Part.ports ∈ W) (h_fab : Part.fab ∈ W)
    (h_jobs : Part.jobs ∈ W) (h_flash : Part.flash ∈ W) (h_pwr : Part.pwr ∈ W) (h_clk : Part.clk ∈ W) :
    WithinR W s0 (execPhaseFailure a0 a1 s) := by
  unfold execPhaseFailure
  try dsimp only
  repeat' first
    | with_reducible assumption
    | with_reducible apply State.onDom_within
    | with_reducible apply State.fieldFail_within
    | with_reducible apply State.at_within
    | with_reducible apply State.darken_within
    | with_reducible apply within_ite
    | with_reducible apply withinR_ite
    | with_reducible apply withinR_next

theorem execHostDrain_within {W : List Part} {s0 s : State} (a0 : ℕ) (h : Within W s0 s) (h_host : Part.host ∈ W)
    (h_clk : Part.clk ∈ W) :
    WithinR W s0 (execHostDrain a0 s) := by
  unfold execHostDrain
  try dsimp only
  repeat' first
    | with_reducible assumption
    | with_reducible apply State.at_within
    | with_reducible apply within_ite
    | with_reducible apply withinR_ite
    | with_reducible apply withinR_next
    | split
    | with_reducible refine within_host _ ?_ (by assumption)

theorem State.dropAllBegun_within {W : List Part} {s0 s : State} (a1 : ℕ) (a2 : Eng) (h : Within W s0 s)
    (h_cores : Part.cores ∈ W) (h_ports : Part.ports ∈ W) (h_fab : Part.fab ∈ W) :
    Within W s0 (State.dropAllBegun s a1 a2) := by
  unfold State.dropAllBegun
  try dsimp only
  repeat' first
    | with_reducible assumption
    | with_reducible apply State.dropCommand_within
    | with_reducible apply State.strikeChain_within
    | with_reducible apply State.dropBegun_within
    | with_reducible apply within_ite
    | with_reducible apply within_foldl
    | with_reducible apply within_foldl2
    | (with_reducible intro u x hu; try dsimp only)
    | split

theorem State.failEngine_within {W : List Part} {s0 s : State} (a1 : ℕ) (a2 : Eng) (a3 : ℕ) (h : Within W s0 s)
    (h_cores : Part.cores ∈ W) (h_ports : Part.ports ∈ W) (h_fab : Part.fab ∈ W) (h_jobs : Part.jobs ∈ W)
    (h_flash : Part.flash ∈ W) :
    Within W s0 (State.failEngine s a1 a2 a3) := by
  unfold State.failEngine
  try dsimp only
  repeat' first
    | with_reducible assumption
    | with_reducible apply State.failChain_within
    | with_reducible apply State.failArray_within
    | with_reducible apply State.failFront_within
    | with_reducible apply State.failRequest_within
    | with_reducible apply within_ite
    | split

theorem execSequencerMismatch_within {W : List Part} {s0 s : State} (a0 : Fin 64) (a1 : Eng) (a2 : Bool)
    (h : Within W s0 s) (h_cores : Part.cores ∈ W) (h_ports : Part.ports ∈ W) (h_fab : Part.fab ∈ W)
    (h_jobs : Part.jobs ∈ W) (h_flash : Part.flash ∈ W) :
    WithinR W s0 (execSequencerMismatch a0 a1 a2 s) := by
  unfold execSequencerMismatch
  try dsimp only
  repeat' first
    | with_reducible assumption
    | with_reducible apply State.dropAllBegun_within
    | with_reducible apply State.failEngine_within
    | with_reducible apply State.secondFailure_within
    | with_reducible apply within_ite
    | with_reducible apply withinR_ite
    | with_reducible apply withinR_next

theorem execStackRefresh_within {W : List Part} {s0 s : State} (a0 : Fin 16) (a1 : Fin 8) (a2 : Fin 2)
    (a3 : Fin 48) (h : Within W s0 s) (h_mem : Part.mem ∈ W) :
    WithinR W s0 (execStackRefresh a0 a1 a2 a3 s) := by
  unfold execStackRefresh
  try dsimp only
  repeat' first
    | with_reducible assumption
    | with_reducible apply State.onStk_within
    | with_reducible apply withinR_next

theorem execMmWin3d_within {W : List Part} {s0 s : State} (a0 : Fin 64) (a1 : Arr) (h : Within W s0 s)
    (h_cores : Part.cores ∈ W) (h_jobs : Part.jobs ∈ W) :
    WithinR W s0 (execMmWin3d a0 a1 s) := by
  unfold execMmWin3d
  try dsimp only
  repeat' first
    | with_reducible assumption
    | with_reducible apply runCmd_within
    | with_reducible apply mmEff_within
    | with_reducible apply accessHold_within
    | with_reducible refine WithinP.out (o := accessHold _ _ _ _) ?_ (by assumption)
    | with_reducible apply within_ite
    | (with_reducible intro u x hu; try dsimp only)
    | with_reducible apply withinR_ite
    | with_reducible apply withinR_next
    | split
    | (intro hs; first | (with_reducible assumption) | exact absurd hs Bool.false_ne_true)
    | with_reducible exact withinP_none
    | with_reducible apply withinP_some
    | with_reducible intro u x hu
    | (with_reducible intro x u hu; try dsimp only)
    | (unfold mmRow; try dsimp only)

theorem execConfigApply_within {W : List Part} {s0 s : State} (h : Within W s0 s) (h_cores : Part.cores ∈ W)
    (h_ports : Part.ports ∈ W) (h_optics : Part.optics ∈ W) (h_fab : Part.fab ∈ W) (h_host : Part.host ∈ W)
    (h_cfg : Part.cfg ∈ W) (h_pwr : Part.pwr ∈ W) :
    WithinR W s0 (execConfigApply s) := by
  unfold execConfigApply
  try dsimp only
  repeat' first
    | with_reducible assumption
    | with_reducible apply State.onPair_within
    | with_reducible apply State.accepted_within
    | with_reducible apply State.serve_within
    | with_reducible apply State.refuse_within
    | with_reducible apply within_ite
    | with_reducible apply withinR_ite
    | with_reducible apply withinR_next
    | split
    | with_reducible refine within_cfg _ ?_ (by assumption)

theorem execParityError_within {W : List Part} {s0 s : State} (a0 : ParityPlace) (h : Within W s0 s)
    (h_cores : Part.cores ∈ W) (h_mem : Part.mem ∈ W) (h_ports : Part.ports ∈ W) (h_fab : Part.fab ∈ W)
    (h_host : Part.host ∈ W) (h_jobs : Part.jobs ∈ W) (h_flash : Part.flash ∈ W) (h_mgmt : Part.mgmt ∈ W)
    (h_pwr : Part.pwr ∈ W) :
    WithinR W s0 (execParityError a0 s) := by
  unfold execParityError
  try dsimp only
  repeat' first
    | with_reducible assumption
    | with_reducible apply State.deviceFault_within
    | with_reducible apply State.failEngine_within
    | with_reducible apply State.bufDrop_within
    | with_reducible apply within_ite
    | with_reducible apply withinR_ite
    | with_reducible apply withinR_next
    | split

theorem State.waitOn_within {W : List Part} {s0 s : State} (a1 : Ctx) (a2 : ℕ) (h : Within W s0 s)
    (h_cores : Part.cores ∈ W) :
    Within W s0 (State.waitOn s a1 a2) := by
  unfold State.waitOn
  try dsimp only
  repeat' first
    | with_reducible assumption
    | with_reducible apply State.onSeq_within

theorem execSliceCommit_within {W : List Part} {s0 s : State} (a0 : Fin 128) (a1 : GrpKey) (h : Within W s0 s)
    (h_cores : Part.cores ∈ W) (h_mem : Part.mem ∈ W) (h_ports : Part.ports ∈ W) (h_fab : Part.fab ∈ W)
    (h_host : Part.host ∈ W) (h_flash : Part.flash ∈ W) :
    WithinR W s0 (execSliceCommit a0 a1 s) := by
  unfold execSliceCommit
  try dsimp only
  repeat' first
    | with_reducible assumption
    | with_reducible apply State.sliceCommit_within
    | with_reducible apply State.retryHeld_within
    | with_reducible apply within_ite
    | with_reducible apply withinR_ite
    | with_reducible apply withinR_next

theorem execTimeBeacon_within {W : List Part} {s0 s : State} (a0 : ℕ) (h : Within W s0 s) (h_clk : Part.clk ∈ W) :
    WithinR W s0 (execTimeBeacon a0 s) := by
  unfold execTimeBeacon
  try dsimp only
  repeat' first
    | with_reducible assumption
    | with_reducible apply State.at_within
    | with_reducible apply within_foldl
    | with_reducible apply within_foldl2
    | (with_reducible intro u x hu; try dsimp only)
    | with_reducible apply withinR_next
    | split
    | with_reducible refine within_clk _ ?_ (by assumption)

theorem execAckTimer_within {W : List Part} {s0 s : State} (a0 : BitVec 20) (a1 : ℕ) (h : Within W s0 s)
    (h_ports : Part.ports ∈ W) (h_fab : Part.fab ∈ W) (h_clk : Part.clk ∈ W) :
    WithinR W s0 (execAckTimer a0 a1 s) := by
  unfold execAckTimer
  try dsimp only
  repeat' first
    | with_reducible assumption
    | with_reducible apply State.ctxUse_within
    | with_reducible refine within_pair (x := State.ctxUse _ _) ?_ (by assumption)
    | with_reducible apply State.sendAck_within
    | with_reducible apply State.at_within
    | with_reducible apply within_ite
    | with_reducible apply withinR_ite
    | with_reducible apply withinR_next
    | split

theorem execAlwaysOnFail_within {W : List Part} {s0 s : State} (h : Within W s0 s) (h_cores : Part.cores ∈ W)
    (h_mem : Part.mem ∈ W) (h_ports : Part.ports ∈ W) (h_optics : Part.optics ∈ W) (h_fab : Part.fab ∈ W)
    (h_host : Part.host ∈ W) (h_jobs : Part.jobs ∈ W) (h_cfg : Part.cfg ∈ W) (h_sec : Part.sec ∈ W)
    (h_flash : Part.flash ∈ W) (h_mgmt : Part.mgmt ∈ W) (h_pwr : Part.pwr ∈ W) (h_pins : Part.pins ∈ W) :
    WithinR W s0 (execAlwaysOnFail s) := by
  unfold execAlwaysOnFail
  try dsimp only
  repeat' first
    | with_reducible assumption
    | with_reducible apply State.allOff_within
    | with_reducible apply within_ite
    | with_reducible apply withinR_ite
    | with_reducible apply withinR_next
    | split
    | with_reducible refine within_pwr _ ?_ (by assumption)

theorem histEff_within {W : List Part} {s0 s : State} (a0 : Ctx) (h : Within W s0 s) (h_cores : Part.cores ∈ W)
    (h_mem : Part.mem ∈ W) (h_ports : Part.ports ∈ W) (h_fab : Part.fab ∈ W) (h_jobs : Part.jobs ∈ W) :
    Within W s0 (histEff a0 s) := by
  unfold histEff
  try dsimp only
  repeat' first
    | with_reducible assumption
    | with_reducible apply readInputs_within
    | with_reducible refine within_pair (x := readInputs _ _) ?_ (by assumption)
    | with_reducible apply State.redFlags_within
    | with_reducible apply State.onScp_within
    | with_reducible apply State.complete_within
    | with_reducible apply within_ite

theorem execRedHist_within {W : List Part} {s0 s : State} (a0 : Fin 64) (h : Within W s0 s)
    (h_cores : Part.cores ∈ W) (h_mem : Part.mem ∈ W) (h_ports : Part.ports ∈ W) (h_fab : Part.fab ∈ W)
    (h_jobs : Part.jobs ∈ W) :
    WithinR W s0 (execRedHist a0 s) := by
  unfold execRedHist
  try dsimp only
  repeat' first
    | with_reducible assumption
    | with_reducible apply histEff_within
    | with_reducible apply runCmd_within
    | with_reducible apply tileHold_within
    | with_reducible refine WithinP.out (o := tileHold _ _ _) ?_ (by assumption)
    | with_reducible apply within_ite
    | (with_reducible intro u x hu; try dsimp only)
    | with_reducible apply withinR_ite
    | with_reducible apply withinR_next
    | split
    | (intro hs; first | (with_reducible assumption) | exact absurd hs Bool.false_ne_true)
    | with_reducible exact withinP_none
    | with_reducible apply withinP_some
    | with_reducible intro u x hu
    | (with_reducible intro x u hu; try dsimp only)
    | (unfold histRow; try dsimp only)

theorem execConfigStage_within {W : List Part} {s0 s : State} (h : Within W s0 s) (h_host : Part.host ∈ W)
    (h_cfg : Part.cfg ∈ W) :
    WithinR W s0 (execConfigStage s) := by
  unfold execConfigStage
  try dsimp only
  repeat' first
    | with_reducible assumption
    | with_reducible apply State.answerWith_within
    | with_reducible apply State.refuse_within
    | with_reducible apply State.stagePairs_within
    | with_reducible refine within_trip (x := State.stagePairs _ _ _) ?_ (by assumption)
    | with_reducible apply within_ite
    | with_reducible apply withinR_ite
    | with_reducible apply withinR_next
    | split

theorem execVxMul_within {W : List Part} {s0 s : State} (a0 : Fin 64) (h : Within W s0 s)
    (h_cores : Part.cores ∈ W) (h_mem : Part.mem ∈ W) (h_ports : Part.ports ∈ W) (h_fab : Part.fab ∈ W)
    (h_jobs : Part.jobs ∈ W) :
    WithinR W s0 (execVxMul a0 s) := by
  unfold execVxMul
  try dsimp only
  repeat' first
    | with_reducible assumption
    | with_reducible apply vxElementwise_within
    | with_reducible apply runCmd_within
    | with_reducible apply tileHold_within
    | with_reducible refine WithinP.out (o := tileHold _ _ _) ?_ (by assumption)
    | with_reducible apply within_ite
    | with_reducible apply within_getD
    | (with_reducible intro u x hu; try dsimp only)
    | with_reducible apply withinR_ite
    | with_reducible apply withinR_next
    | split
    | (intro hs; first | (with_reducible assumption) | exact absurd hs Bool.false_ne_true)
    | with_reducible exact withinP_none
    | with_reducible apply withinP_some
    | with_reducible intro u x hu
    | (with_reducible intro x u hu; try dsimp only)
    | (unfold vxRow; try dsimp only)

theorem vxScanEff_within {W : List Part} {s0 s : State} (a0 : Ctx) (h : Within W s0 s) (h_cores : Part.cores ∈ W)
    (h_mem : Part.mem ∈ W) (h_ports : Part.ports ∈ W) (h_fab : Part.fab ∈ W) (h_jobs : Part.jobs ∈ W) :
    Within W s0 (vxScanEff a0 s) := by
  unfold vxScanEff
  try dsimp only
  repeat' first
    | with_reducible assumption
    | with_reducible apply readInputs_within
    | with_reducible refine within_pair (x := readInputs _ _) ?_ (by assumption)
    | with_reducible apply vxFinish_within

end Sys2Proof.Machine
end

