-- ==== Sys2Proof/Laws/Frames8.lean ====
section
/-! SUPPORT. For each operation and meaning, in dependency order (part 9 of 10): the parts of the state it can
change. -/

namespace Sys2Proof.Machine

theorem execClosingTimeout_within {W : List Part} {s0 s : State} (a0 : BitVec 20) (a1 : ℕ) (h : Within W s0 s)
    (h_cores : Part.cores ∈ W) (h_mem : Part.mem ∈ W) (h_ports : Part.ports ∈ W) (h_fab : Part.fab ∈ W)
    (h_clk : Part.clk ∈ W) :
    WithinR W s0 (execClosingTimeout a0 a1 s) := by
  unfold execClosingTimeout
  try dsimp only
  repeat' first
    | with_reducible assumption
    | with_reducible apply State.freeFlowAt_within
    | with_reducible apply State.at_within
    | with_reducible apply within_ite
    | with_reducible apply withinR_ite
    | with_reducible apply withinR_next

theorem execFwUpdateGo_within {W : List Part} {s0 s : State} (h : Within W s0 s) (h_mem : Part.mem ∈ W)
    (h_cfg : Part.cfg ∈ W) (h_flash : Part.flash ∈ W) (h_mgmt : Part.mgmt ∈ W) :
    WithinR W s0 (execFwUpdateGo s) := by
  unfold execFwUpdateGo
  try dsimp only
  repeat' first
    | with_reducible assumption
    | with_reducible apply State.fetchBytes_within
    | with_reducible refine within_trip (x := State.fetchBytes _ _ _ _) ?_ (by assumption)
    | with_reducible apply within_ite
    | with_reducible apply withinR_ite
    | with_reducible apply withinR_next
    | split
    | with_reducible refine within_cfg _ ?_ (by assumption)
    | with_reducible refine within_mgmt _ ?_ (by assumption)

theorem execBisnpResponse_within {W : List Part} {s0 s : State} (a0 : Fin 128) (a1 : Option (List Byte × Bool))
    (h : Within W s0 s) (h_cores : Part.cores ∈ W) (h_mem : Part.mem ∈ W) (h_ports : Part.ports ∈ W)
    (h_fab : Part.fab ∈ W) (h_host : Part.host ∈ W) (h_flash : Part.flash ∈ W) :
    WithinR W s0 (execBisnpResponse a0 a1 s) := by
  unfold execBisnpResponse
  try dsimp only
  repeat' first
    | with_reducible assumption
    | with_reducible apply State.sliceGo_within
    | with_reducible apply State.writeMem_within
    | with_reducible apply State.onSlice_within
    | with_reducible apply within_ite
    | with_reducible apply withinR_ite
    | with_reducible apply withinR_next
    | split

theorem execWaitBar_within {W : List Part} {s0 s : State} (a0 : Fin 64) (a1 : Eng) (h : Within W s0 s)
    (h_cores : Part.cores ∈ W) (h_jobs : Part.jobs ∈ W) :
    WithinR W s0 (execWaitBar a0 a1 s) := by
  unfold execWaitBar
  try dsimp only
  repeat' first
    | with_reducible assumption
    | with_reducible apply State.retireFront_within
    | with_reducible apply runCmd_within
    | with_reducible apply State.waitOn_within
    | with_reducible apply within_ite
    | (with_reducible intro u x hu; try dsimp only)
    | with_reducible apply withinR_ite
    | with_reducible apply withinR_next
    | split
    | (intro hs; first | (with_reducible assumption) | exact absurd hs Bool.false_ne_true)
    | with_reducible exact withinP_none
    | with_reducible apply withinP_some
    | with_reducible intro u x hu
    | (with_reducible intro x u hu; try dsimp only)
    | (unfold plainRow; try dsimp only)

theorem execShunt_within {W : List Part} {s0 s : State} (a0 : Fin 72) (a1 : ℕ) (a2 : ℕ) (h : Within W s0 s)
    (h_pwr : Part.pwr ∈ W) (h_clk : Part.clk ∈ W) :
    WithinR W s0 (execShunt a0 a1 a2 s) := by
  unfold execShunt
  try dsimp only
  repeat' first
    | with_reducible assumption
    | with_reducible apply State.onDom_within
    | with_reducible apply State.at_within
    | with_reducible apply within_ite
    | with_reducible apply withinR_ite
    | with_reducible apply withinR_next

theorem execSectionWake_within {W : List Part} {s0 s : State} (a0 : Fin 64) (a1 : Fin 6) (h : Within W s0 s)
    (h_cores : Part.cores ∈ W) :
    WithinR W s0 (execSectionWake a0 a1 s) := by
  unfold execSectionWake
  try dsimp only
  repeat' first
    | with_reducible assumption
    | with_reducible apply State.onScp_within
    | with_reducible apply within_ite
    | with_reducible apply withinR_ite
    | with_reducible apply withinR_next

theorem execTemperSave_within {W : List Part} {s0 s : State} (a0 : ℕ) (h : Within W s0 s)
    (h_flash : Part.flash ∈ W) (h_pwr : Part.pwr ∈ W) (h_clk : Part.clk ∈ W) :
    WithinR W s0 (execTemperSave a0 s) := by
  unfold execTemperSave
  try dsimp only
  repeat' first
    | with_reducible assumption
    | with_reducible apply State.saveTemper_within
    | with_reducible apply State.at_within
    | with_reducible apply within_ite
    | with_reducible apply withinR_ite
    | with_reducible apply withinR_next
    | split
    | with_reducible refine within_pwr _ ?_ (by assumption)

theorem State.closedInstr_within {W : List Part} {s0 s : State} (h : Within W s0 s) (h_sec : Part.sec ∈ W) :
    Within W s0 (State.closedInstr s) := by
  unfold State.closedInstr
  try dsimp only
  repeat' first
    | with_reducible assumption
    | with_reducible apply State.shiftOut_within
    | split
    | with_reducible refine within_sec _ ?_ (by assumption)

theorem execJtagExtest_within {W : List Part} {s0 s : State} (h : Within W s0 s) (h_sec : Part.sec ∈ W) :
    WithinR W s0 (execJtagExtest s) := by
  unfold execJtagExtest
  try dsimp only
  repeat' first
    | with_reducible assumption
    | with_reducible apply State.shiftOut_within
    | with_reducible apply State.closedInstr_within
    | with_reducible apply within_ite
    | with_reducible apply withinR_ite
    | with_reducible apply withinR_next
    | split
    | with_reducible refine within_sec _ ?_ (by assumption)

theorem execReadReq_within {W : List Part} {s0 s : State} (a0 : PktHdr) (a1 : BitVec 40) (a2 : BitVec 16)
    (a3 : BitVec 32) (h : Within W s0 s) (h_cores : Part.cores ∈ W) (h_mem : Part.mem ∈ W)
    (h_ports : Part.ports ∈ W) (h_fab : Part.fab ∈ W) (h_host : Part.host ∈ W) (h_jobs : Part.jobs ∈ W)
    (h_flash : Part.flash ∈ W) :
    WithinR W s0 (execReadReq a0 a1 a2 a3 s) := by
  unfold execReadReq
  try dsimp only
  repeat' first
    | with_reducible assumption
    | with_reducible apply State.afterArrival_within
    | with_reducible apply State.memWait_within
    | with_reducible refine WithinO.out (o := State.memWait _ _ _ _ _ _) ?_ (by assumption)
    | with_reducible apply State.sendSeq_within
    | with_reducible apply State.recordArrival_within
    | with_reducible apply State.pumpFlow_within
    | with_reducible apply State.onFlow_within
    | with_reducible apply State.verdict_within
    | with_reducible refine WithinV.settledOut (v := State.verdict _ _ _) ?_ (by assumption)
    | with_reducible refine WithinV.freshOut (v := State.verdict _ _ _) ?_ (by assumption)
    | with_reducible apply within_ite
    | with_reducible apply withinR_ite
    | with_reducible apply withinR_next
    | with_reducible refine WithinO.out (o := ite _ _ _) ?_ (by assumption)
    | with_reducible apply withinO_some
    | split

theorem execJobSubmit_within {W : List Part} {s0 s : State} (a0 : Fin 16) (h : Within W s0 s)
    (h_cores : Part.cores ∈ W) (h_host : Part.host ∈ W) (h_jobs : Part.jobs ∈ W) (h_pwr : Part.pwr ∈ W) :
    WithinR W s0 (execJobSubmit a0 s) := by
  unfold execJobSubmit
  try dsimp only
  repeat' first
    | with_reducible assumption
    | with_reducible apply State.preemptPass_within
    | with_reducible apply State.onSQueue_within
    | with_reducible apply State.accept_within
    | with_reducible apply State.askOn_within
    | with_reducible apply State.refuse_within
    | with_reducible apply State.onJob_within
    | with_reducible apply within_ite
    | with_reducible apply within_foldl
    | with_reducible apply within_foldl2
    | (with_reducible intro u x hu; try dsimp only)
    | with_reducible apply withinR_ite
    | with_reducible apply withinR_next
    | split

theorem execRedMin_within {W : List Part} {s0 s : State} (a0 : Fin 64) (h : Within W s0 s)
    (h_cores : Part.cores ∈ W) (h_mem : Part.mem ∈ W) (h_ports : Part.ports ∈ W) (h_fab : Part.fab ∈ W)
    (h_jobs : Part.jobs ∈ W) :
    WithinR W s0 (execRedMin a0 s) := by
  unfold execRedMin
  try dsimp only
  repeat' first
    | with_reducible assumption
    | with_reducible apply redSelect_within
    | with_reducible apply runCmd_within
    | with_reducible apply tileHold_within
    | with_reducible refine WithinP.out (o := tileHold _ _ _) ?_ (by assumption)
    | with_reducible apply within_ite
    | (with_reducible intro u x hu; try dsimp only)
    | with_reducible apply withinR_ite
    | with_reducible apply withinR_next
    | split
    | (intro hs; first | (with_reducible assumption) | exact absurd hs Bool.false_ne_true)
    | with_reducible exact withinP_none
    | with_reducible apply withinP_some
    | with_reducible intro u x hu
    | (with_reducible intro x u hu; try dsimp only)
    | (unfold redRow; try dsimp only)

theorem State.unqueue_within {W : List Part} {s0 s : State} (a1 : ℕ) (h : Within W s0 s) (h_jobs : Part.jobs ∈ W) :
    Within W s0 (State.unqueue s a1) := by
  unfold State.unqueue
  try dsimp only
  repeat' first
    | with_reducible assumption
    | with_reducible apply State.onSQueue_within

theorem execJobCancel_within {W : List Part} {s0 s : State} (a0 : Fin 16) (h : Within W s0 s)
    (h_cores : Part.cores ∈ W) (h_host : Part.host ∈ W) (h_jobs : Part.jobs ∈ W) (h_free : Part.free ∈ W) :
    WithinR W s0 (execJobCancel a0 s) := by
  unfold execJobCancel
  try dsimp only
  repeat' first
    | with_reducible assumption
    | with_reducible apply State.preemptPass_within
    | with_reducible apply State.unqueue_within
    | with_reducible apply State.accept_within
    | with_reducible apply State.stopJob_within
    | with_reducible apply State.refuse_within
    | with_reducible apply State.fresh_within
    | with_reducible refine within_pair (x := State.fresh _) ?_ (by assumption)
    | with_reducible apply State.onJob_within
    | with_reducible apply withinR_next
    | split

theorem execStackRead_within {W : List Part} {s0 s : State} (a0 : BitVec 40) (a1 : Upset) (h : Within W s0 s)
    (h_mem : Part.mem ∈ W) (h_flash : Part.flash ∈ W) :
    WithinR W s0 (execStackRead a0 a1 s) := by
  unfold execStackRead
  try dsimp only
  repeat' first
    | with_reducible assumption
    | with_reducible apply State.demandRead_within
    | with_reducible refine within_pair (x := State.demandRead _ _ _) ?_ (by assumption)
    | with_reducible apply within_ite
    | with_reducible apply withinR_ite
    | with_reducible apply withinR_next
    | split
    | with_reducible refine within_mem _ ?_ (by assumption)

theorem State.freeBins_within {W : List Part} {s0 s : State} (a1 : ℕ) (h : Within W s0 s)
    (h_cores : Part.cores ∈ W) (h_free : Part.free ∈ W) :
    Within W s0 (State.freeBins s a1) := by
  unfold State.freeBins
  try dsimp only
  repeat' first
    | with_reducible assumption
    | with_reducible apply State.onScp_within
    | with_reducible apply within_foldl
    | with_reducible apply within_foldl2
    | (with_reducible intro u x hu; try dsimp only)
    | split
    | with_reducible refine within_free _ ?_ (by assumption)

theorem State.setAside_within {W : List Part} {s0 s : State} (a1 : ℕ) (a2 : ℕ) (h : Within W s0 s)
    (h_cores : Part.cores ∈ W) (h_mem : Part.mem ∈ W) (h_fab : Part.fab ∈ W) :
    Within W s0 (State.setAside s a1 a2) := by
  unfold State.setAside
  try dsimp only
  repeat' first
    | with_reducible assumption
    | with_reducible apply State.moveXfers_within
    | with_reducible apply State.onScp_within
    | split
    | with_reducible refine within_mem _ ?_ (by assumption)

theorem execPreemptSaveDone_within {W : List Part} {s0 s : State} (a0 : Fin 64) (h : Within W s0 s)
    (h_cores : Part.cores ∈ W) (h_mem : Part.mem ∈ W) (h_fab : Part.fab ∈ W) (h_jobs : Part.jobs ∈ W)
    (h_free : Part.free ∈ W) :
    WithinR W s0 (execPreemptSaveDone a0 s) := by
  unfold execPreemptSaveDone
  try dsimp only
  repeat' first
    | with_reducible assumption
    | with_reducible apply State.freeBins_within
    | with_reducible apply State.settlePreempt_within
    | with_reducible apply State.preemptPass_within
    | with_reducible apply State.freeRegs_within
    | with_reducible apply State.setAside_within
    | with_reducible apply State.onCore_within
    | with_reducible apply State.onJob_within
    | with_reducible apply within_ite
    | with_reducible apply withinR_ite
    | with_reducible apply withinR_next
    | split

theorem dmaEff_within {W : List Part} {s0 s : State} (a0 : Ctx) (h : Within W s0 s) (h_cores : Part.cores ∈ W)
    (h_mem : Part.mem ∈ W) (h_ports : Part.ports ∈ W) (h_fab : Part.fab ∈ W) (h_host : Part.host ∈ W)
    (h_jobs : Part.jobs ∈ W) (h_flash : Part.flash ∈ W) :
    Within W s0 (dmaEff a0 s) := by
  unfold dmaEff
  try dsimp only
  repeat' first
    | with_reducible assumption
    | with_reducible apply State.farFlow_within
    | with_reducible refine WithinF.out (v := State.farFlow _ _ _) ?_ (by assumption)
    | with_reducible apply State.consume_within
    | with_reducible apply State.reserveTile_within
    | with_reducible refine within_pair (x := State.reserveTile _ _ _ _ _) ?_ (by assumption)
    | with_reducible apply State.tagOut_within
    | with_reducible apply State.retireFront_within
    | with_reducible apply State.tagFlow_within
    | with_reducible apply State.ownWindow_within
    | with_reducible refine WithinW.refusedOut (v := State.ownWindow _ _ _ _ _ _ _ _) ?_ (by assumption)
    | with_reducible refine WithinW.queuedOut (v := State.ownWindow _ _ _ _ _ _ _ _) ?_ (by assumption)
    | with_reducible refine WithinW.placedOut (v := State.ownWindow _ _ _ _ _ _ _ _) ?_ (by assumption)
    | with_reducible apply State.pumpApt_within
    | with_reducible apply State.writeMem_within
    | with_reducible apply State.beginXfer_within
    | with_reducible apply State.pumpPackets_within
    | with_reducible apply State.failStream_within
    | with_reducible apply State.landBytes_within
    | with_reducible refine WithinD.waitOut (v := State.landBytes _ _ _ _ _) ?_ (by assumption)
    | with_reducible refine WithinD.doneOut (v := State.landBytes _ _ _ _ _) ?_ (by assumption)
    | with_reducible apply State.onFlow_within
    | with_reducible apply State.endXfer_within
    | with_reducible apply State.pumpReads_within
    | with_reducible apply State.failXfer_within
    | with_reducible apply State.setCore_within
    | with_reducible apply State.readMem_within
    | with_reducible refine within_pair (x := State.readMem _ _ _ _) ?_ (by assumption)
    | with_reducible apply State.dmaPush_within
    | with_reducible apply within_ite
    | with_reducible apply within_foldl
    | with_reducible apply within_foldl2
    | with_reducible apply within_getD
    | (with_reducible intro u x hu; try dsimp only)
    | split

theorem execCxlLinkUp_within {W : List Part} {s0 s : State} (a0 : Fin 4) (a1 : Bool) (a2 : Bool) (a3 : Bool)
    (h : Within W s0 s) (h_host : Part.host ∈ W) (h_free : Part.free ∈ W) :
    WithinR W s0 (execCxlLinkUp a0 a1 a2 a3 s) := by
  unfold execCxlLinkUp
  try dsimp only
  repeat' first
    | with_reducible assumption
    | with_reducible apply State.fresh_within
    | with_reducible refine within_pair (x := State.fresh _) ?_ (by assumption)
    | with_reducible apply within_ite
    | with_reducible apply withinR_ite
    | with_reducible apply withinR_next
    | split
    | with_reducible refine within_host _ ?_ (by assumption)

theorem execNop_within {W : List Part} {s0 s : State} (a0 : Fin 64) (a1 : Eng) (h : Within W s0 s)
    (h_cores : Part.cores ∈ W) (h_jobs : Part.jobs ∈ W) :
    WithinR W s0 (execNop a0 a1 s) := by
  unfold execNop
  try dsimp only
  repeat' first
    | with_reducible assumption
    | with_reducible apply State.retireFront_within
    | with_reducible apply runCmd_within
    | with_reducible apply within_ite
    | (with_reducible intro u x hu; try dsimp only)
    | with_reducible apply withinR_ite
    | with_reducible apply withinR_next
    | split
    | (intro hs; first | (with_reducible assumption) | exact absurd hs Bool.false_ne_true)
    | with_reducible exact withinP_none
    | with_reducible apply withinP_some
    | with_reducible intro u x hu
    | (with_reducible intro x u hu; try dsimp only)
    | (unfold plainRow; try dsimp only)

theorem execCxlPerstAssert_within {W : List Part} {s0 s : State} (h : Within W s0 s) (h_cores : Part.cores ∈ W)
    (h_mem : Part.mem ∈ W) (h_ports : Part.ports ∈ W) (h_fab : Part.fab ∈ W) (h_host : Part.host ∈ W)
    (h_cfg : Part.cfg ∈ W) (h_flash : Part.flash ∈ W) (h_pins : Part.pins ∈ W) :
    WithinR W s0 (execCxlPerstAssert s) := by
  unfold execCxlPerstAssert
  try dsimp only
  repeat' first
    | with_reducible assumption
    | with_reducible apply State.hostReset_within
    | with_reducible apply within_ite
    | with_reducible apply withinR_ite
    | with_reducible apply withinR_next
    | split
    | with_reducible refine within_pins _ ?_ (by assumption)

theorem execStackThermalSample_within {W : List Part} {s0 s : State} (a0 : Fin 16) (a1 : List ℤ) (a2 : ℕ)
    (h : Within W s0 s) (h_mem : Part.mem ∈ W) (h_flash : Part.flash ∈ W) (h_clk : Part.clk ∈ W)
    (h_thm : Part.thm ∈ W) :
    WithinR W s0 (execStackThermalSample a0 a1 a2 s) := by
  unfold execStackThermalSample
  try dsimp only
  repeat' first
    | with_reducible assumption
    | with_reducible apply State.judgeSensor_within
    | with_reducible apply State.onStk_within
    | with_reducible apply State.at_within
    | with_reducible apply State.sample_within
    | with_reducible apply within_ite
    | with_reducible apply within_foldl
    | with_reducible apply within_foldl2
    | (with_reducible intro u x hu; try dsimp only)
    | with_reducible apply withinR_ite
    | with_reducible apply withinR_next
    | split
    | with_reducible refine within_thm _ ?_ (by assumption)

theorem execNonceRead_within {W : List Part} {s0 s : State} (a0 : ℕ) (h : Within W s0 s) (h_host : Part.host ∈ W)
    (h_sec : Part.sec ∈ W) (h_clk : Part.clk ∈ W) (h_free : Part.free ∈ W) :
    WithinR W s0 (execNonceRead a0 s) := by
  unfold execNonceRead
  try dsimp only
  repeat' first
    | with_reducible assumption
    | with_reducible apply State.at_within
    | with_reducible apply State.readOut_within
    | with_reducible apply State.newNonce_within
    | with_reducible apply within_ite
    | with_reducible apply withinR_ite
    | with_reducible apply withinR_next

theorem execWaitQ_within {W : List Part} {s0 s : State} (a0 : Fin 64) (a1 : Eng) (h : Within W s0 s)
    (h_cores : Part.cores ∈ W) (h_jobs : Part.jobs ∈ W) :
    WithinR W s0 (execWaitQ a0 a1 s) := by
  unfold execWaitQ
  try dsimp only
  repeat' first
    | with_reducible assumption
    | with_reducible apply State.waitOn_within
    | with_reducible apply State.retireFront_within
    | with_reducible apply runCmd_within
    | with_reducible apply within_ite
    | (with_reducible intro u x hu; try dsimp only)
    | with_reducible apply withinR_ite
    | with_reducible apply withinR_next
    | split
    | (intro hs; first | (with_reducible assumption) | exact absurd hs Bool.false_ne_true)
    | with_reducible exact withinP_none
    | with_reducible apply withinP_some
    | with_reducible intro u x hu
    | (with_reducible intro x u hu; try dsimp only)
    | (unfold waitQRow; try dsimp only)

theorem execHostTimeout_within {W : List Part} {s0 s : State} (a0 : ℕ) (h : Within W s0 s)
    (h_host : Part.host ∈ W) (h_clk : Part.clk ∈ W) :
    WithinR W s0 (execHostTimeout a0 s) := by
  unfold execHostTimeout
  try dsimp only
  repeat' first
    | with_reducible assumption
    | with_reducible apply State.enterAbsent_within
    | with_reducible apply State.at_within
    | with_reducible apply within_ite
    | with_reducible apply withinR_ite
    | with_reducible apply withinR_next

theorem State.stepTime_within {W : List Part} {s0 s : State} (a1 : ℤ) (h : Within W s0 s) (h_clk : Part.clk ∈ W) :
    Within W s0 (State.stepTime s a1) := by
  unfold State.stepTime
  try dsimp only
  repeat' first
    | with_reducible assumption
    | with_reducible apply within_foldl
    | with_reducible apply within_foldl2
    | (with_reducible intro u x hu; try dsimp only)
    | split
    | with_reducible refine within_clk _ ?_ (by assumption)

theorem State.servo_within {W : List Part} {s0 s : State} (a1 : ℤ) (h : Within W s0 s) (h_fab : Part.fab ∈ W)
    (h_clk : Part.clk ∈ W) :
    Within W s0 (State.servo s a1) := by
  unfold State.servo
  try dsimp only
  repeat' first
    | with_reducible assumption
    | with_reducible apply State.stepTime_within
    | with_reducible apply within_ite
    | split
    | with_reducible refine within_fab _ ?_ (by assumption)

theorem execPtpMessageRx_within {W : List Part} {s0 s : State} (a0 : Fin 96) (a1 : PtpRx) (a2 : ℕ)
    (h : Within W s0 s) (h_fab : Part.fab ∈ W) (h_clk : Part.clk ∈ W) :
    WithinR W s0 (execPtpMessageRx a0 a1 a2 s) := by
  unfold execPtpMessageRx
  try dsimp only
  repeat' first
    | with_reducible assumption
    | with_reducible apply State.giveStamp_within
    | with_reducible apply State.at_within
    | with_reducible apply State.electSlave_within
    | with_reducible apply State.servo_within
    | with_reducible apply within_ite
    | with_reducible apply withinR_ite
    | with_reducible apply withinR_next
    | split
    | with_reducible refine within_fab _ ?_ (by assumption)

theorem execVxExp_within {W : List Part} {s0 s : State} (a0 : Fin 64) (h : Within W s0 s)
    (h_cores : Part.cores ∈ W) (h_mem : Part.mem ∈ W) (h_ports : Part.ports ∈ W) (h_fab : Part.fab ∈ W)
    (h_jobs : Part.jobs ∈ W) :
    WithinR W s0 (execVxExp a0 s) := by
  unfold execVxExp
  try dsimp only
  repeat' first
    | with_reducible assumption
    | with_reducible apply vxElementwise_within
    | with_reducible apply runCmd_within
    | with_reducible apply tileHold_within
    | with_reducible refine WithinP.out (o := tileHold _ _ _) ?_ (by assumption)
    | with_reducible apply within_ite
    | (with_reducible intro u x hu; try dsimp only)
    | with_reducible apply withinR_ite
    | with_reducible apply withinR_next
    | split
    | (intro hs; first | (with_reducible assumption) | exact absurd hs Bool.false_ne_true)
    | with_reducible exact withinP_none
    | with_reducible apply withinP_some
    | with_reducible intro u x hu
    | (with_reducible intro x u hu; try dsimp only)
    | (unfold vxRow; try dsimp only)

theorem State.closeFlows_within {W : List Part} {s0 s : State} (a1 : ℕ) (h : Within W s0 s)
    (h_cores : Part.cores ∈ W) (h_mem : Part.mem ∈ W) (h_ports : Part.ports ∈ W) (h_fab : Part.fab ∈ W)
    (h_jobs : Part.jobs ∈ W) :
    Within W s0 (State.closeFlows s a1) := by
  unfold State.closeFlows
  try dsimp only
  repeat' first
    | with_reducible assumption
    | with_reducible apply State.freeFlowAt_within
    | with_reducible apply State.tryClose_within
    | with_reducible apply State.onFlow_within
    | with_reducible apply within_foldl
    | with_reducible apply within_foldl2
    | (with_reducible intro u x hu; try dsimp only)
    | split

theorem execJobComplete_within {W : List Part} {s0 s : State} (a0 : Fin 4096) (a1 : ℕ) (h : Within W s0 s)
    (h_cores : Part.cores ∈ W) (h_mem : Part.mem ∈ W) (h_ports : Part.ports ∈ W) (h_fab : Part.fab ∈ W)
    (h_host : Part.host ∈ W) (h_jobs : Part.jobs ∈ W) (h_clk : Part.clk ∈ W) :
    WithinR W s0 (execJobComplete a0 a1 s) := by
  unfold execJobComplete
  try dsimp only
  repeat' first
    | with_reducible assumption
    | with_reducible apply State.preemptPass_within
    | with_reducible apply State.closeFlows_within
    | with_reducible apply State.unqueue_within
    | with_reducible apply State.endAllSaved_within
    | with_reducible apply State.placeMsg_within
    | with_reducible apply State.at_within
    | with_reducible apply State.onJob_within
    | with_reducible apply within_ite
    | with_reducible apply withinR_ite
    | with_reducible apply withinR_next

theorem execDmaCopy_within {W : List Part} {s0 s : State} (a0 : Fin 64) (a1 : Dma) (h : Within W s0 s)
    (h_cores : Part.cores ∈ W) (h_mem : Part.mem ∈ W) (h_ports : Part.ports ∈ W) (h_fab : Part.fab ∈ W)
    (h_host : Part.host ∈ W) (h_jobs : Part.jobs ∈ W) (h_flash : Part.flash ∈ W) :
    WithinR W s0 (execDmaCopy a0 a1 s) := by
  unfold execDmaCopy
  try dsimp only
  repeat' first
    | with_reducible assumption
    | with_reducible apply dmaEff_within
    | with_reducible apply runCmd_within
    | with_reducible apply State.pumpDma_within
    | with_reducible apply State.onSeq_within
    | with_reducible apply State.onBegun_within
    | with_reducible apply dmaHold_within
    | with_reducible refine WithinP.out (o := dmaHold _ _) ?_ (by assumption)
    | with_reducible apply within_ite
    | (with_reducible intro u x hu; try dsimp only)
    | with_reducible apply withinR_ite
    | with_reducible apply withinR_next
    | split
    | (intro hs; first | (with_reducible assumption) | exact absurd hs Bool.false_ne_true)
    | with_reducible exact withinP_none
    | with_reducible apply withinP_some
    | with_reducible intro u x hu
    | (with_reducible intro x u hu; try dsimp only)
    | (unfold dmaRow; try dsimp only)

theorem execLicenceInstall_within {W : List Part} {s0 s : State} (h : Within W s0 s) (h_mem : Part.mem ∈ W)
    (h_host : Part.host ∈ W) (h_flash : Part.flash ∈ W) :
    WithinR W s0 (execLicenceInstall s) := by
  unfold execLicenceInstall
  try dsimp only
  repeat' first
    | with_reducible assumption
    | with_reducible apply State.fetchBytes_within
    | with_reducible refine within_trip (x := State.fetchBytes _ _ _ _) ?_ (by assumption)
    | with_reducible apply State.accept_within
    | with_reducible apply State.refuse_within
    | with_reducible apply within_ite
    | with_reducible apply withinR_ite
    | with_reducible apply withinR_next
    | split
    | with_reducible refine within_flash _ ?_ (by assumption)

theorem execConfigurationRequest_within {W : List Part} {s0 s : State} (a0 : BitVec 12) (h : Within W s0 s)
    (h_host : Part.host ∈ W) :
    WithinR W s0 (execConfigurationRequest a0 s) := by
  unfold execConfigurationRequest
  try dsimp only
  repeat' first
    | with_reducible assumption
    | with_reducible apply within_ite
    | with_reducible apply withinR_ite
    | with_reducible apply withinR_next
    | split
    | with_reducible refine within_host _ ?_ (by assumption)

theorem execChainConfirm_within {W : List Part} {s0 s : State} (a0 : Fin 64) (h : Within W s0 s)
    (h_cores : Part.cores ∈ W) (h_ports : Part.ports ∈ W) (h_fab : Part.fab ∈ W) (h_jobs : Part.jobs ∈ W) :
    WithinR W s0 (execChainConfirm a0 s) := by
  unfold execChainConfirm
  try dsimp only
  repeat' first
    | with_reducible assumption
    | with_reducible apply State.confirmChain_within
    | with_reducible apply within_ite
    | with_reducible apply withinR_ite
    | with_reducible apply withinR_next

theorem execStackWrite_within {W : List Part} {s0 s : State} (a0 : BitVec 40) (a1 : BitVec 64) (a2 : List Byte)
    (a3 : Bool) (a4 : Upset) (h : Within W s0 s) (h_mem : Part.mem ∈ W) (h_flash : Part.flash ∈ W) :
    WithinR W s0 (execStackWrite a0 a1 a2 a3 a4 s) := by
  unfold execStackWrite
  try dsimp only
  repeat' first
    | with_reducible assumption
    | with_reducible apply State.stackPut_within
    | with_reducible apply within_ite
    | with_reducible apply withinR_ite
    | with_reducible apply withinR_next

theorem execMbxReset_within {W : List Part} {s0 s : State} (a0 : Fin 16) (h : Within W s0 s)
    (h_host : Part.host ∈ W) :
    WithinR W s0 (execMbxReset a0 s) := by
  unfold execMbxReset
  try dsimp only
  repeat' first
    | with_reducible assumption
    | with_reducible apply State.onPair_within
    | with_reducible apply within_ite
    | with_reducible apply withinR_ite
    | with_reducible apply withinR_next

theorem execVxMax_within {W : List Part} {s0 s : State} (a0 : Fin 64) (h : Within W s0 s)
    (h_cores : Part.cores ∈ W) (h_mem : Part.mem ∈ W) (h_ports : Part.ports ∈ W) (h_fab : Part.fab ∈ W)
    (h_jobs : Part.jobs ∈ W) :
    WithinR W s0 (execVxMax a0 s) := by
  unfold execVxMax
  try dsimp only
  repeat' first
    | with_reducible assumption
    | with_reducible apply vxElementwise_within
    | with_reducible apply runCmd_within
    | with_reducible apply tileHold_within
    | with_reducible refine WithinP.out (o := tileHold _ _ _) ?_ (by assumption)
    | with_reducible apply within_ite
    | with_reducible apply within_getD
    | (with_reducible intro u x hu; try dsimp only)
    | with_reducible apply withinR_ite
    | with_reducible apply withinR_next
    | split
    | (intro hs; first | (with_reducible assumption) | exact absurd hs Bool.false_ne_true)
    | with_reducible exact withinP_none
    | with_reducible apply withinP_some
    | with_reducible intro u x hu
    | (with_reducible intro x u hu; try dsimp only)
    | (unfold vxRow; try dsimp only)

theorem execW1cWrite_within {W : List Part} {s0 s : State} (a0 : BitVec 28) (a1 : BitVec 32) (h : Within W s0 s)
    (h_cores : Part.cores ∈ W) (h_host : Part.host ∈ W) (h_clk : Part.clk ∈ W) :
    WithinR W s0 (execW1cWrite a0 a1 s) := by
  unfold execW1cWrite
  try dsimp only
  repeat' first
    | with_reducible assumption
    | with_reducible apply State.w1c_within
    | with_reducible refine WithinO.out (o := State.w1c? _ _ _) ?_ (by assumption)
    | with_reducible apply within_ite
    | with_reducible apply within_getD
    | with_reducible apply withinR_ite
    | with_reducible apply withinR_next

theorem execVxRecip_within {W : List Part} {s0 s : State} (a0 : Fin 64) (h : Within W s0 s)
    (h_cores : Part.cores ∈ W) (h_mem : Part.mem ∈ W) (h_ports : Part.ports ∈ W) (h_fab : Part.fab ∈ W)
    (h_jobs : Part.jobs ∈ W) :
    WithinR W s0 (execVxRecip a0 s) := by
  unfold execVxRecip
  try dsimp only
  repeat' first
    | with_reducible assumption
    | with_reducible apply vxElementwise_within
    | with_reducible apply runCmd_within
    | with_reducible apply tileHold_within
    | with_reducible refine WithinP.out (o := tileHold _ _ _) ?_ (by assumption)
    | with_reducible apply within_ite
    | (with_reducible intro u x hu; try dsimp only)
    | with_reducible apply withinR_ite
    | with_reducible apply withinR_next
    | split
    | (intro hs; first | (with_reducible assumption) | exact absurd hs Bool.false_ne_true)
    | with_reducible exact withinP_none
    | with_reducible apply withinP_some
    | with_reducible intro u x hu
    | (with_reducible intro x u hu; try dsimp only)
    | (unfold vxRow; try dsimp only)

theorem execSlicePrepare_within {W : List Part} {s0 s : State} (a0 : Fin 128) (a1 : GrpKey) (h : Within W s0 s)
    (h_cores : Part.cores ∈ W) (h_mem : Part.mem ∈ W) (h_fab : Part.fab ∈ W) :
    WithinR W s0 (execSlicePrepare a0 a1 s) := by
  unfold execSlicePrepare
  try dsimp only
  repeat' first
    | with_reducible assumption
    | with_reducible apply State.onSlice_within
    | with_reducible apply State.onSeq_within
    | with_reducible apply within_ite
    | with_reducible apply withinR_ite
    | with_reducible apply withinR_next
    | split
    | with_reducible refine within_fab _ ?_ (by assumption)

theorem execVxScan_within {W : List Part} {s0 s : State} (a0 : Fin 64) (h : Within W s0 s)
    (h_cores : Part.cores ∈ W) (h_mem : Part.mem ∈ W) (h_ports : Part.ports ∈ W) (h_fab : Part.fab ∈ W)
    (h_jobs : Part.jobs ∈ W) :
    WithinR W s0 (execVxScan a0 s) := by
  unfold execVxScan
  try dsimp only
  repeat' first
    | with_reducible assumption
    | with_reducible apply runCmd_within
    | with_reducible apply vxScanEff_within
    | with_reducible apply tileHold_within
    | with_reducible refine WithinP.out (o := tileHold _ _ _) ?_ (by assumption)
    | with_reducible apply within_ite
    | (with_reducible intro u x hu; try dsimp only)
    | with_reducible apply withinR_ite
    | with_reducible apply withinR_next
    | split
    | (intro hs; first | (with_reducible assumption) | exact absurd hs Bool.false_ne_true)
    | with_reducible exact withinP_none
    | with_reducible apply withinP_some
    | with_reducible intro u x hu
    | (with_reducible intro x u hu; try dsimp only)
    | (unfold vxRow; try dsimp only)

theorem chainHold_within {W : List Part} {s0 s : State} (a1 : Ctx) (h : Within W s0 s) (h_cores : Part.cores ∈ W)
    (h_mem : Part.mem ∈ W) (h_ports : Part.ports ∈ W) (h_fab : Part.fab ∈ W) (h_host : Part.host ∈ W)
    (h_jobs : Part.jobs ∈ W) :
    WithinP W s0 (chainHold s a1) := by
  unfold chainHold
  try dsimp only
  repeat' first
    | with_reducible assumption
    | with_reducible apply State.farFlow_within
    | with_reducible refine WithinF.out (v := State.farFlow _ _ _) ?_ (by assumption)
    | with_reducible apply State.memWait_within
    | with_reducible refine WithinO.out (o := State.memWait _ _ _ _ _ _) ?_ (by assumption)
    | with_reducible apply State.dramFull_within
    | with_reducible refine WithinO.out (o := State.dramFull _ _ _ _) ?_ (by assumption)
    | with_reducible apply flowHold_within
    | with_reducible refine WithinP.out (o := flowHold _ _ _ _) ?_ (by assumption)
    | with_reducible apply accessHold_within
    | with_reducible refine WithinP.out (o := accessHold _ _ _ _) ?_ (by assumption)
    | with_reducible apply within_ite
    | with_reducible apply within_getD
    | with_reducible refine WithinO.out (o := ite _ _ _) ?_ (by assumption)
    | with_reducible apply withinO_some
    | with_reducible apply withinO_bind
    | with_reducible refine WithinO.out (o := Option.bind _ _) ?_ (by assumption)
    | with_reducible intro u hu
    | with_reducible apply withinP_map
    | with_reducible exact withinP_none
    | with_reducible apply withinP_some
    | split

theorem execChainAdd_within {W : List Part} {s0 s : State} (a0 : Fin 64) (a1 : Bool) (h : Within W s0 s)
    (h_cores : Part.cores ∈ W) (h_mem : Part.mem ∈ W) (h_ports : Part.ports ∈ W) (h_fab : Part.fab ∈ W)
    (h_host : Part.host ∈ W) (h_jobs : Part.jobs ∈ W) (h_flash : Part.flash ∈ W) :
    WithinR W s0 (execChainAdd a0 a1 s) := by
  unfold execChainAdd
  try dsimp only
  repeat' first
    | with_reducible assumption
    | with_reducible apply State.confirmChain_within
    | with_reducible apply State.pumpChain_within
    | with_reducible apply chainEff_within
    | with_reducible apply runCmd_within
    | with_reducible apply State.onSeq_within
    | with_reducible apply State.onBegun_within
    | with_reducible apply State.attemptChain_within
    | with_reducible apply chainHold_within
    | with_reducible refine WithinP.out (o := chainHold _ _) ?_ (by assumption)
    | with_reducible apply within_ite
    | (with_reducible intro u x hu; try dsimp only)
    | with_reducible apply withinR_ite
    | with_reducible apply withinR_next
    | split
    | (intro hs; first | (with_reducible assumption) | exact absurd hs Bool.false_ne_true)
    | with_reducible exact withinP_none
    | with_reducible apply withinP_some
    | with_reducible intro u x hu
    | (with_reducible intro x u hu; try dsimp only)
    | (unfold chainRow; try dsimp only)

theorem State.dropApts_within {W : List Part} {s0 s : State} (a1 : ℕ) (a2 : ℕ) (h : Within W s0 s)
    (h_cores : Part.cores ∈ W) (h_mem : Part.mem ∈ W) (h_ports : Part.ports ∈ W) (h_fab : Part.fab ∈ W)
    (h_host : Part.host ∈ W) (h_flash : Part.flash ∈ W) :
    Within W s0 (State.dropApts s a1 a2) := by
  unfold State.dropApts
  try dsimp only
  repeat' first
    | with_reducible assumption
    | with_reducible apply State.pumpWaiting_within
    | split
    | with_reducible refine within_host _ ?_ (by assumption)

theorem execGroup_within {W : List Part} {s0 s : State} (a0 : PktHdr) (a1 : BitVec 6) (a2 : BitVec 12) (a3 : Bool)
    (h : Within W s0 s) (h_cores : Part.cores ∈ W) (h_mem : Part.mem ∈ W) (h_ports : Part.ports ∈ W)
    (h_fab : Part.fab ∈ W) (h_jobs : Part.jobs ∈ W) :
    WithinR W s0 (execGroup a0 a1 a2 a3 s) := by
  unfold execGroup
  try dsimp only
  repeat' first
    | with_reducible assumption
    | with_reducible apply State.receiveCtl_within
    | with_reducible apply withinR_next

theorem execSwitchOnDone_within {W : List Part} {s0 s : State} (a0 : Fin 72) (a1 : ℕ) (h : Within W s0 s)
    (h_pwr : Part.pwr ∈ W) (h_clk : Part.clk ∈ W) :
    WithinR W s0 (execSwitchOnDone a0 a1 s) := by
  unfold execSwitchOnDone
  try dsimp only
  repeat' first
    | with_reducible assumption
    | with_reducible apply State.switchOn_within
    | with_reducible apply State.at_within
    | with_reducible apply within_ite
    | with_reducible apply withinR_ite
    | with_reducible apply withinR_next
    | split

theorem execAttestRequest_within {W : List Part} {s0 s : State} (a0 : Fin 16) (a1 : ℕ) (h : Within W s0 s)
    (h_host : Part.host ∈ W) (h_sec : Part.sec ∈ W) (h_clk : Part.clk ∈ W) :
    WithinR W s0 (execAttestRequest a0 a1 s) := by
  unfold execAttestRequest
  try dsimp only
  repeat' first
    | with_reducible assumption
    | with_reducible apply State.onPair_within
    | with_reducible apply State.accepted_within
    | with_reducible apply State.refuse_within
    | with_reducible apply State.at_within
    | with_reducible apply withinR_next
    | split
    | with_reducible refine within_sec _ ?_ (by assumption)

theorem execEndloop_within {W : List Part} {s0 s : State} (a0 : Fin 64) (a1 : Eng) (h : Within W s0 s)
    (h_cores : Part.cores ∈ W) (h_jobs : Part.jobs ∈ W) :
    WithinR W s0 (execEndloop a0 a1 s) := by
  unfold execEndloop
  try dsimp only
  repeat' first
    | with_reducible assumption
    | with_reducible apply State.retireFront_within
    | with_reducible apply runCmd_within
    | with_reducible apply within_ite
    | (with_reducible intro u x hu; try dsimp only)
    | with_reducible apply withinR_ite
    | with_reducible apply withinR_next
    | split
    | (intro hs; first | (with_reducible assumption) | exact absurd hs Bool.false_ne_true)
    | with_reducible exact withinP_none
    | with_reducible apply withinP_some
    | with_reducible intro u x hu
    | (with_reducible intro x u hu; try dsimp only)
    | (unfold plainRow; try dsimp only)

theorem execPauseQuantaExpiry_within {W : List Part} {s0 s : State} (a0 : Fin 96) (a1 : Fin 8) (a2 : ℕ)
    (h : Within W s0 s) (h_ports : Part.ports ∈ W) (h_fab : Part.fab ∈ W) (h_clk : Part.clk ∈ W) :
    WithinR W s0 (execPauseQuantaExpiry a0 a1 a2 s) := by
  unfold execPauseQuantaExpiry
  try dsimp only
  repeat' first
    | with_reducible assumption
    | with_reducible apply State.goOutAll_within
    | with_reducible apply State.flushClass_within
    | with_reducible apply State.at_within
    | with_reducible apply State.onPort_within
    | with_reducible apply within_ite
    | with_reducible apply withinR_ite
    | with_reducible apply withinR_next

theorem execContextFetchDone_within {W : List Part} {s0 s : State} (a0 : BitVec 20) (h : Within W s0 s)
    (h_cores : Part.cores ∈ W) (h_mem : Part.mem ∈ W) (h_ports : Part.ports ∈ W) (h_fab : Part.fab ∈ W)
    (h_host : Part.host ∈ W) (h_jobs : Part.jobs ∈ W) (h_flash : Part.flash ∈ W) :
    WithinR W s0 (execContextFetchDone a0 s) := by
  unfold execContextFetchDone
  try dsimp only
  repeat' first
    | with_reducible assumption
    | with_reducible apply State.pumpFlow_within
    | with_reducible apply State.cacheIn_within
    | with_reducible apply within_ite
    | with_reducible apply withinR_ite
    | with_reducible apply withinR_next

theorem execQueueCreate_within {W : List Part} {s0 s : State} (a0 : Fin 16) (a1 : Fin 64) (h : Within W s0 s)
    (h_host : Part.host ∈ W) (h_jobs : Part.jobs ∈ W) :
    WithinR W s0 (execQueueCreate a0 a1 s) := by
  unfold execQueueCreate
  try dsimp only
  repeat' first
    | with_reducible assumption
    | with_reducible apply State.refuse_within
    | with_reducible apply State.onSQueue_within
    | with_reducible apply State.accept_within
    | with_reducible apply within_ite
    | with_reducible apply withinR_ite
    | with_reducible apply withinR_next
    | split

theorem execGatewayResolved_within {W : List Part} {s0 s : State} (a0 : Fin 96) (a1 : BitVec 48)
    (h : Within W s0 s) (h_ports : Part.ports ∈ W) (h_fab : Part.fab ∈ W) :
    WithinR W s0 (execGatewayResolved a0 a1 s) := by
  unfold execGatewayResolved
  try dsimp only
  repeat' first
    | with_reducible assumption
    | with_reducible apply State.goOutAll_within
    | with_reducible apply State.onPort_within
    | with_reducible apply within_ite
    | with_reducible apply withinR_ite
    | with_reducible apply withinR_next

theorem execRedMax_within {W : List Part} {s0 s : State} (a0 : Fin 64) (h : Within W s0 s)
    (h_cores : Part.cores ∈ W) (h_mem : Part.mem ∈ W) (h_ports : Part.ports ∈ W) (h_fab : Part.fab ∈ W)
    (h_jobs : Part.jobs ∈ W) :
    WithinR W s0 (execRedMax a0 s) := by
  unfold execRedMax
  try dsimp only
  repeat' first
    | with_reducible assumption
    | with_reducible apply redSelect_within
    | with_reducible apply runCmd_within
    | with_reducible apply tileHold_within
    | with_reducible refine WithinP.out (o := tileHold _ _ _) ?_ (by assumption)
    | with_reducible apply within_ite
    | (with_reducible intro u x hu; try dsimp only)
    | with_reducible apply withinR_ite
    | with_reducible apply withinR_next
    | split
    | (intro hs; first | (with_reducible assumption) | exact absurd hs Bool.false_ne_true)
    | with_reducible exact withinP_none
    | with_reducible apply withinP_some
    | with_reducible intro u x hu
    | (with_reducible intro x u hu; try dsimp only)
    | (unfold redRow; try dsimp only)

theorem execQPush_within {W : List Part} {s0 s : State} (a0 : Fin 64) (h : Within W s0 s)
    (h_cores : Part.cores ∈ W) (h_jobs : Part.jobs ∈ W) :
    WithinR W s0 (execQPush a0 s) := by
  unfold execQPush
  try dsimp only
  repeat' first
    | with_reducible assumption
    | with_reducible apply State.retireFront_within
    | with_reducible apply State.onQueue_within
    | with_reducible apply runCmd_within
    | with_reducible apply within_ite
    | with_reducible apply within_getD
    | (with_reducible intro u x hu; try dsimp only)
    | with_reducible apply withinR_ite
    | with_reducible apply withinR_next
    | split
    | (intro hs; first | (with_reducible assumption) | exact absurd hs Bool.false_ne_true)
    | with_reducible exact withinP_none
    | with_reducible apply withinP_some
    | with_reducible intro u x hu
    | (with_reducible intro x u hu; try dsimp only)
    | (unfold qPushRow; try dsimp only)

theorem State.poisonKept_within {W : List Part} {s0 s : State} (a1 : ℕ) (a2 : Arr) (a3 : Begun)
    (h : Within W s0 s) (h_cores : Part.cores ∈ W) (h_ports : Part.ports ∈ W) (h_fab : Part.fab ∈ W)
    (h_jobs : Part.jobs ∈ W) :
    Within W s0 (State.poisonKept s a1 a2 a3) := by
  unfold State.poisonKept
  try dsimp only
  repeat' first
    | with_reducible assumption
    | with_reducible apply State.onEng_within
    | with_reducible apply State.releaseEntry_within
    | with_reducible apply State.failBegun_within
    | with_reducible apply within_foldl
    | with_reducible apply within_foldl2
    | (with_reducible intro u x hu; try dsimp only)

theorem execJtagIdcode_within {W : List Part} {s0 s : State} (h : Within W s0 s) (h_sec : Part.sec ∈ W) :
    WithinR W s0 (execJtagIdcode s) := by
  unfold execJtagIdcode
  try dsimp only
  repeat' first
    | with_reducible assumption
    | with_reducible apply State.shiftOut_within
    | with_reducible apply withinR_next

theorem execTaskStop_within {W : List Part} {s0 s : State} (a0 : Fin 64) (a1 : ℕ) (h : Within W s0 s)
    (h_cores : Part.cores ∈ W) (h_mem : Part.mem ∈ W) (h_ports : Part.ports ∈ W) (h_fab : Part.fab ∈ W)
    (h_jobs : Part.jobs ∈ W) (h_flash : Part.flash ∈ W) (h_clk : Part.clk ∈ W) :
    WithinR W s0 (execTaskStop a0 a1 s) := by
  unfold execTaskStop
  try dsimp only
  repeat' first
    | with_reducible assumption
    | with_reducible apply State.endTask_within
    | with_reducible apply State.pumpPort_within
    | with_reducible apply State.at_within
    | with_reducible apply within_ite
    | with_reducible apply withinR_ite
    | with_reducible apply withinR_next
    | split

theorem execSetupRetry_within {W : List Part} {s0 s : State} (a0 : BitVec 20) (a1 : ℕ) (h : Within W s0 s)
    (h_cores : Part.cores ∈ W) (h_mem : Part.mem ∈ W) (h_ports : Part.ports ∈ W) (h_fab : Part.fab ∈ W)
    (h_jobs : Part.jobs ∈ W) (h_clk : Part.clk ∈ W) :
    WithinR W s0 (execSetupRetry a0 a1 s) := by
  unfold execSetupRetry
  try dsimp only
  repeat' first
    | with_reducible assumption
    | with_reducible apply State.sendSetup_within
    | with_reducible apply State.at_within
    | with_reducible apply State.failSetup_within
    | with_reducible apply within_ite
    | with_reducible apply withinR_ite
    | with_reducible apply withinR_next

theorem execSecUnlockSignature_within {W : List Part} {s0 s : State} (a0 : ℕ) (h : Within W s0 s)
    (h_cores : Part.cores ∈ W) (h_mem : Part.mem ∈ W) (h_ports : Part.ports ∈ W) (h_optics : Part.optics ∈ W)
    (h_fab : Part.fab ∈ W) (h_host : Part.host ∈ W) (h_cfg : Part.cfg ∈ W) (h_sec : Part.sec ∈ W)
    (h_flash : Part.flash ∈ W) (h_pwr : Part.pwr ∈ W) (h_clk : Part.clk ∈ W) :
    WithinR W s0 (execSecUnlockSignature a0 s) := by
  unfold execSecUnlockSignature
  try dsimp only
  repeat' first
    | with_reducible assumption
    | with_reducible apply State.unlockData_within
    | with_reducible refine WithinQ.out (o := State.unlockData _ _) ?_ (by assumption)
    | with_reducible apply State.trySignature_within
    | with_reducible refine within_pair (x := State.trySignature _ _ _) ?_ (by assumption)
    | with_reducible apply State.at_within
    | with_reducible apply State.unlockDone_within
    | with_reducible apply within_ite
    | with_reducible apply withinR_ite
    | with_reducible apply withinR_next
    | split

theorem execSecondLevelTreeReady_within {W : List Part} {s0 s : State} (h : Within W s0 s)
    (h_host : Part.host ∈ W) (h_sec : Part.sec ∈ W) :
    WithinR W s0 (execSecondLevelTreeReady s) := by
  unfold execSecondLevelTreeReady
  try dsimp only
  repeat' first
    | with_reducible assumption
    | with_reducible apply State.signNext_within
    | with_reducible apply within_ite
    | with_reducible apply withinR_ite
    | with_reducible apply withinR_next
    | split
    | with_reducible refine within_sec _ ?_ (by assumption)

theorem State.sliceEcc_within {W : List Part} {s0 s : State} (a1 : ℕ) (a2 : ℕ) (a3 : Upset) (h : Within W s0 s)
    (h_mem : Part.mem ∈ W) :
    Within W s0 (State.sliceEcc s a1 a2 a3) := by
  unfold State.sliceEcc
  try dsimp only
  repeat' first
    | with_reducible assumption
    | with_reducible apply State.dropLine_within
    | with_reducible apply State.putLine_within
    | with_reducible apply State.onSlice_within
    | with_reducible apply within_ite
    | with_reducible apply within_getD
    | split

theorem execSetup_within {W : List Part} {s0 s : State} (a0 : PktHdr) (a1 : SetupBody) (h : Within W s0 s)
    (h_cores : Part.cores ∈ W) (h_mem : Part.mem ∈ W) (h_ports : Part.ports ∈ W) (h_fab : Part.fab ∈ W)
    (h_jobs : Part.jobs ∈ W) :
    WithinR W s0 (execSetup a0 a1 s) := by
  unfold execSetup
  try dsimp only
  repeat' first
    | with_reducible assumption
    | with_reducible apply State.recountPeers_within
    | with_reducible apply State.sendSetupAck_within
    | with_reducible apply State.onFlow_within
    | with_reducible apply State.bufRelease_within
    | with_reducible apply State.openFlow_within
    | with_reducible apply State.takeFlow_within
    | with_reducible refine WithinT.out (v := State.takeFlow _) ?_ (by assumption)
    | with_reducible apply State.failFlow_within
    | with_reducible apply within_ite
    | with_reducible apply within_foldl
    | with_reducible apply within_foldl2
    | (with_reducible intro u x hu; try dsimp only)
    | with_reducible apply withinR_ite
    | with_reducible apply withinR_next
    | split

theorem State.quenchNow_within {W : List Part} {s0 s : State} (h : Within W s0 s) (h_cores : Part.cores ∈ W)
    (h_mem : Part.mem ∈ W) (h_ports : Part.ports ∈ W) (h_fab : Part.fab ∈ W) (h_host : Part.host ∈ W)
    (h_jobs : Part.jobs ∈ W) (h_flash : Part.flash ∈ W) (h_mgmt : Part.mgmt ∈ W) (h_pwr : Part.pwr ∈ W)
    (h_thm : Part.thm ∈ W) :
    Within W s0 (State.quenchNow s) := by
  unfold State.quenchNow
  try dsimp only
  repeat' first
    | with_reducible assumption
    | with_reducible apply State.deviceFault_within
    | with_reducible apply within_ite
    | split
    | with_reducible refine within_thm _ ?_ (by assumption)

theorem execCoolantOkRise_within {W : List Part} {s0 s : State} (a0 : ℕ) (h : Within W s0 s)
    (h_cores : Part.cores ∈ W) (h_mem : Part.mem ∈ W) (h_ports : Part.ports ∈ W) (h_fab : Part.fab ∈ W)
    (h_host : Part.host ∈ W) (h_jobs : Part.jobs ∈ W) (h_flash : Part.flash ∈ W) (h_mgmt : Part.mgmt ∈ W)
    (h_pwr : Part.pwr ∈ W) (h_clk : Part.clk ∈ W) (h_thm : Part.thm ∈ W) (h_pins : Part.pins ∈ W) :
    WithinR W s0 (execCoolantOkRise a0 s) := by
  unfold execCoolantOkRise
  try dsimp only
  repeat' first
    | with_reducible assumption
    | with_reducible apply State.quenchNow_within
    | with_reducible apply State.at_within
    | with_reducible apply within_ite
    | with_reducible apply withinR_ite
    | with_reducible apply withinR_next
    | split
    | with_reducible refine within_thm _ ?_ (by assumption)
    | with_reducible refine within_thm_pins _ _ ?_ (by assumption) (by assumption)

theorem execLoop_within {W : List Part} {s0 s : State} (a0 : Fin 64) (a1 : Eng) (h : Within W s0 s)
    (h_cores : Part.cores ∈ W) (h_jobs : Part.jobs ∈ W) :
    WithinR W s0 (execLoop a0 a1 s) := by
  unfold execLoop
  try dsimp only
  repeat' first
    | with_reducible assumption
    | with_reducible apply State.retireFront_within
    | with_reducible apply runCmd_within
    | with_reducible apply within_ite
    | (with_reducible intro u x hu; try dsimp only)
    | with_reducible apply withinR_ite
    | with_reducible apply withinR_next
    | split
    | (intro hs; first | (with_reducible assumption) | exact absurd hs Bool.false_ne_true)
    | with_reducible exact withinP_none
    | with_reducible apply withinP_some
    | with_reducible intro u x hu
    | (with_reducible intro x u hu; try dsimp only)
    | (unfold plainRow; try dsimp only)

end Sys2Proof.Machine
end

