-- ==== Sys2Proof/Laws/Frames9.lean ====
section
/-! SUPPORT. For each operation and meaning, in dependency order (part 10 of 10): the parts of the state it can
change. -/

namespace Sys2Proof.Machine

theorem execMcHeartbeatMiss_within {W : List Part} {s0 s : State} (a0 : ℕ) (h : Within W s0 s)
    (h_cores : Part.cores ∈ W) (h_mem : Part.mem ∈ W) (h_ports : Part.ports ∈ W) (h_fab : Part.fab ∈ W)
    (h_host : Part.host ∈ W) (h_jobs : Part.jobs ∈ W) (h_flash : Part.flash ∈ W) (h_mgmt : Part.mgmt ∈ W)
    (h_pwr : Part.pwr ∈ W) (h_clk : Part.clk ∈ W) :
    WithinR W s0 (execMcHeartbeatMiss a0 s) := by
  unfold execMcHeartbeatMiss
  try dsimp only
  repeat' first
    | with_reducible assumption
    | with_reducible apply State.at_within
    | with_reducible apply State.deviceFault_within
    | with_reducible apply State.logErr_within
    | with_reducible apply within_ite
    | with_reducible apply withinR_ite
    | with_reducible apply withinR_next
    | split
    | with_reducible refine within_mgmt _ ?_ (by assumption)

theorem execFwInfo_within {W : List Part} {s0 s : State} (a0 : Fin 16) (h : Within W s0 s) (h_host : Part.host ∈ W) :
    WithinR W s0 (execFwInfo a0 s) := by
  unfold execFwInfo
  try dsimp only
  repeat' first
    | with_reducible assumption
    | with_reducible apply State.accept_within
    | with_reducible apply withinR_next
    | split

theorem execSwitchOnGrant_within {W : List Part} {s0 s : State} (a0 : Fin 72) (a1 : ℕ) (h : Within W s0 s)
    (h_pwr : Part.pwr ∈ W) (h_clk : Part.clk ∈ W) :
    WithinR W s0 (execSwitchOnGrant a0 a1 s) := by
  unfold execSwitchOnGrant
  try dsimp only
  repeat' first
    | with_reducible assumption
    | with_reducible apply State.onDom_within
    | with_reducible apply State.at_within
    | with_reducible apply within_ite
    | with_reducible apply withinR_ite
    | with_reducible apply withinR_next

theorem execVxSigm_within {W : List Part} {s0 s : State} (a0 : Fin 64) (h : Within W s0 s)
    (h_cores : Part.cores ∈ W) (h_mem : Part.mem ∈ W) (h_ports : Part.ports ∈ W) (h_fab : Part.fab ∈ W)
    (h_jobs : Part.jobs ∈ W) :
    WithinR W s0 (execVxSigm a0 s) := by
  unfold execVxSigm
  try dsimp only
  repeat' first
    | with_reducible assumption
    | with_reducible apply vxElementwise_within
    | with_reducible apply runCmd_within
    | with_reducible apply tileHold_within
    | with_reducible refine WithinP.out (o := tileHold _ _ _) ?_ (by assumption)
    | with_reducible apply within_ite
    | (with_reducible intro u x hu; try dsimp only)
    | with_reducible apply withinR_ite
    | with_reducible apply withinR_next
    | split
    | (intro hs; first | (with_reducible assumption) | exact absurd hs Bool.false_ne_true)
    | with_reducible exact withinP_none
    | with_reducible apply withinP_some
    | with_reducible intro u x hu
    | (with_reducible intro x u hu; try dsimp only)
    | (unfold vxRow; try dsimp only)

theorem execWaitWin_within {W : List Part} {s0 s : State} (a0 : Fin 64) (a1 : Eng) (h : Within W s0 s)
    (h_cores : Part.cores ∈ W) (h_jobs : Part.jobs ∈ W) :
    WithinR W s0 (execWaitWin a0 a1 s) := by
  unfold execWaitWin
  try dsimp only
  repeat' first
    | with_reducible assumption
    | with_reducible apply State.failStream_within
    | with_reducible apply State.waitOn_within
    | with_reducible apply State.retireFront_within
    | with_reducible apply runCmd_within
    | with_reducible apply within_ite
    | (with_reducible intro u x hu; try dsimp only)
    | with_reducible apply withinR_ite
    | with_reducible apply withinR_next
    | split
    | (intro hs; first | (with_reducible assumption) | exact absurd hs Bool.false_ne_true)
    | with_reducible exact withinP_none
    | with_reducible apply withinP_some
    | with_reducible intro u x hu
    | (with_reducible intro x u hu; try dsimp only)
    | (unfold plainRow; try dsimp only)

theorem execWaitGrp_within {W : List Part} {s0 s : State} (a0 : Fin 64) (a1 : Eng) (h : Within W s0 s)
    (h_cores : Part.cores ∈ W) (h_jobs : Part.jobs ∈ W) :
    WithinR W s0 (execWaitGrp a0 a1 s) := by
  unfold execWaitGrp
  try dsimp only
  repeat' first
    | with_reducible assumption
    | with_reducible apply State.retireFront_within
    | with_reducible apply runCmd_within
    | with_reducible apply State.failStream_within
    | with_reducible apply State.waitOn_within
    | with_reducible apply within_ite
    | (with_reducible intro u x hu; try dsimp only)
    | with_reducible apply withinR_ite
    | with_reducible apply withinR_next
    | split
    | (intro hs; first | (with_reducible assumption) | exact absurd hs Bool.false_ne_true)
    | with_reducible exact withinP_none
    | with_reducible apply withinP_some
    | with_reducible intro u x hu
    | (with_reducible intro x u hu; try dsimp only)
    | (unfold plainRow; try dsimp only)

theorem State.settleApt_within {W : List Part} {s0 s : State} (a1 : ℕ) (a2 : Eng) (h : Within W s0 s)
    (h_cores : Part.cores ∈ W) (h_mem : Part.mem ∈ W) (h_ports : Part.ports ∈ W) (h_fab : Part.fab ∈ W)
    (h_host : Part.host ∈ W) (h_jobs : Part.jobs ∈ W) (h_flash : Part.flash ∈ W) :
    Within W s0 (State.settleApt s a1 a2) := by
  unfold State.settleApt
  try dsimp only
  repeat' first
    | with_reducible assumption
    | with_reducible apply State.pumpWaiting_within
    | with_reducible apply State.pumpDma_within

theorem execCoolantRestart_within {W : List Part} {s0 s : State} (a0 : ℕ) (h : Within W s0 s)
    (h_mgmt : Part.mgmt ∈ W) (h_clk : Part.clk ∈ W) (h_thm : Part.thm ∈ W) :
    WithinR W s0 (execCoolantRestart a0 s) := by
  unfold execCoolantRestart
  try dsimp only
  repeat' first
    | with_reducible assumption
    | with_reducible apply State.at_within
    | with_reducible apply within_ite
    | with_reducible apply withinR_ite
    | with_reducible apply withinR_next
    | split
    | with_reducible refine within_mgmt_thm _ _ ?_ (by assumption) (by assumption)

theorem execContextUnload_within {W : List Part} {s0 s : State} (a0 : Fin 16) (h : Within W s0 s)
    (h_cores : Part.cores ∈ W) (h_mem : Part.mem ∈ W) (h_ports : Part.ports ∈ W) (h_fab : Part.fab ∈ W)
    (h_host : Part.host ∈ W) (h_jobs : Part.jobs ∈ W) :
    WithinR W s0 (execContextUnload a0 s) := by
  unfold execContextUnload
  try dsimp only
  repeat' first
    | with_reducible assumption
    | with_reducible apply State.refuse_within
    | with_reducible apply State.closeFlows_within
    | with_reducible apply State.accept_within
    | with_reducible apply State.onJob_within
    | with_reducible apply within_ite
    | with_reducible apply withinR_ite
    | with_reducible apply withinR_next
    | split
    | with_reducible refine within_fab _ ?_ (by assumption)

theorem execSmbusAlertResponse_within {W : List Part} {s0 s : State} (h : Within W s0 s) (h_pins : Part.pins ∈ W) :
    WithinR W s0 (execSmbusAlertResponse s) := by
  unfold execSmbusAlertResponse
  try dsimp only
  repeat' first
    | with_reducible assumption
    | with_reducible apply within_ite
    | with_reducible apply withinR_ite
    | with_reducible apply withinR_next
    | split
    | with_reducible refine within_pins _ ?_ (by assumption)

theorem execClamp_within {W : List Part} {s0 s : State} (a0 : Fin 72) (a1 : ℕ) (h : Within W s0 s)
    (h_pwr : Part.pwr ∈ W) :
    WithinR W s0 (execClamp a0 a1 s) := by
  unfold execClamp
  try dsimp only
  repeat' first
    | with_reducible assumption
    | with_reducible apply State.onDom_within
    | with_reducible apply within_ite
    | with_reducible apply withinR_ite
    | with_reducible apply withinR_next

theorem execVxSel_within {W : List Part} {s0 s : State} (a0 : Fin 64) (h : Within W s0 s)
    (h_cores : Part.cores ∈ W) (h_mem : Part.mem ∈ W) (h_ports : Part.ports ∈ W) (h_fab : Part.fab ∈ W)
    (h_jobs : Part.jobs ∈ W) :
    WithinR W s0 (execVxSel a0 s) := by
  unfold execVxSel
  try dsimp only
  repeat' first
    | with_reducible assumption
    | with_reducible apply vxElementwise_within
    | with_reducible apply runCmd_within
    | with_reducible apply tileHold_within
    | with_reducible refine WithinP.out (o := tileHold _ _ _) ?_ (by assumption)
    | with_reducible apply within_ite
    | with_reducible apply within_getD
    | (with_reducible intro u x hu; try dsimp only)
    | with_reducible apply withinR_ite
    | with_reducible apply withinR_next
    | split
    | (intro hs; first | (with_reducible assumption) | exact absurd hs Bool.false_ne_true)
    | with_reducible exact withinP_none
    | with_reducible apply withinP_some
    | with_reducible intro u x hu
    | (with_reducible intro x u hu; try dsimp only)
    | (unfold vxRow; try dsimp only)

theorem execErrlogSelect_within {W : List Part} {s0 s : State} (a0 : BitVec 32) (h : Within W s0 s)
    (h_mgmt : Part.mgmt ∈ W) :
    WithinR W s0 (execErrlogSelect a0 s) := by
  unfold execErrlogSelect
  try dsimp only
  repeat' first
    | with_reducible assumption
    | with_reducible apply State.selectErr_within
    | with_reducible apply within_ite
    | with_reducible apply withinR_ite
    | with_reducible apply withinR_next

theorem execImplicitWaitTimeout_within {W : List Part} {s0 s : State} (a0 : Fin 64) (a1 : Eng) (a2 : ℕ)
    (h : Within W s0 s) (h_cores : Part.cores ∈ W) (h_jobs : Part.jobs ∈ W) (h_clk : Part.clk ∈ W) :
    WithinR W s0 (execImplicitWaitTimeout a0 a1 a2 s) := by
  unfold execImplicitWaitTimeout
  try dsimp only
  repeat' first
    | with_reducible assumption
    | with_reducible apply State.failStream_within
    | with_reducible apply State.failBegun_within
    | with_reducible apply State.at_within
    | with_reducible apply State.dropBegun_within
    | with_reducible apply within_ite
    | with_reducible apply withinR_ite
    | with_reducible apply withinR_next
    | split

theorem execTileDrainEnd_within {W : List Part} {s0 s : State} (a0 : Fin 64) (a1 : Bool) (h : Within W s0 s)
    (h_cores : Part.cores ∈ W) (h_ports : Part.ports ∈ W) (h_fab : Part.fab ∈ W) (h_jobs : Part.jobs ∈ W)
    (h_flash : Part.flash ∈ W) :
    WithinR W s0 (execTileDrainEnd a0 a1 s) := by
  unfold execTileDrainEnd
  try dsimp only
  repeat' first
    | with_reducible assumption
    | with_reducible apply State.failArray_within
    | with_reducible apply State.onArray_within
    | with_reducible apply State.tilePassed_within
    | with_reducible apply State.onInteg_within
    | with_reducible apply within_ite
    | with_reducible apply withinR_ite
    | with_reducible apply withinR_next
    | split

theorem execCacheEnable_within {W : List Part} {s0 s : State} (h : Within W s0 s) (h_host : Part.host ∈ W) :
    WithinR W s0 (execCacheEnable s) := by
  unfold execCacheEnable
  try dsimp only
  repeat' first
    | with_reducible assumption
    | with_reducible apply within_ite
    | with_reducible apply withinR_ite
    | with_reducible apply withinR_next
    | split
    | with_reducible refine within_host _ ?_ (by assumption)

theorem execTemperReading_within {W : List Part} {s0 s : State} (a0 : Fin 72) (a1 : ℤ) (a2 : ℕ) (a3 : ℕ)
    (h : Within W s0 s) (h_pwr : Part.pwr ∈ W) (h_clk : Part.clk ∈ W) :
    WithinR W s0 (execTemperReading a0 a1 a2 a3 s) := by
  unfold execTemperReading
  try dsimp only
  repeat' first
    | with_reducible assumption
    | with_reducible apply State.onDom_within
    | with_reducible apply State.settleTemper_within
    | with_reducible apply State.at_within
    | with_reducible apply within_ite
    | with_reducible apply withinR_ite
    | with_reducible apply withinR_next

theorem execHostReturn_within {W : List Part} {s0 s : State} (h : Within W s0 s) (h_host : Part.host ∈ W) :
    WithinR W s0 (execHostReturn s) := by
  unfold execHostReturn
  try dsimp only
  repeat' first
    | with_reducible assumption
    | with_reducible apply State.accept_within
    | with_reducible apply withinR_next
    | split
    | with_reducible refine within_host _ ?_ (by assumption)

theorem execSectionWakeDone_within {W : List Part} {s0 s : State} (a0 : Fin 64) (a1 : Fin 6) (h : Within W s0 s)
    (h_cores : Part.cores ∈ W) (h_mem : Part.mem ∈ W) (h_ports : Part.ports ∈ W) (h_fab : Part.fab ∈ W)
    (h_jobs : Part.jobs ∈ W) :
    WithinR W s0 (execSectionWakeDone a0 a1 s) := by
  unfold execSectionWakeDone
  try dsimp only
  repeat' first
    | with_reducible assumption
    | with_reducible apply State.onScp_within
    | with_reducible apply State.pumpPort_within
    | with_reducible apply within_ite
    | with_reducible apply withinR_ite
    | with_reducible apply withinR_next

theorem execRetxLimit_within {W : List Part} {s0 s : State} (a0 : BitVec 20) (a1 : ℕ) (h : Within W s0 s)
    (h_cores : Part.cores ∈ W) (h_mem : Part.mem ∈ W) (h_ports : Part.ports ∈ W) (h_fab : Part.fab ∈ W)
    (h_jobs : Part.jobs ∈ W) (h_clk : Part.clk ∈ W) :
    WithinR W s0 (execRetxLimit a0 a1 s) := by
  unfold execRetxLimit
  try dsimp only
  repeat' first
    | with_reducible assumption
    | with_reducible apply State.failFlow_within
    | with_reducible apply State.at_within
    | with_reducible apply within_ite
    | with_reducible apply withinR_ite
    | with_reducible apply withinR_next
    | split

theorem execApplyAdopt_within {W : List Part} {s0 s : State} (h : Within W s0 s) (h_cores : Part.cores ∈ W)
    (h_ports : Part.ports ∈ W) (h_optics : Part.optics ∈ W) (h_fab : Part.fab ∈ W) (h_host : Part.host ∈ W)
    (h_cfg : Part.cfg ∈ W) (h_pwr : Part.pwr ∈ W) :
    WithinR W s0 (execApplyAdopt s) := by
  unfold execApplyAdopt
  try dsimp only
  repeat' first
    | with_reducible assumption
    | with_reducible apply State.serve_within
    | with_reducible apply State.adoptAll_within
    | with_reducible apply withinR_next

theorem execTargetedScrub_within {W : List Part} {s0 s : State} (a0 : Fin 16) (a1 : ℕ) (h : Within W s0 s)
    (h_mem : Part.mem ∈ W) (h_flash : Part.flash ∈ W) (h_clk : Part.clk ∈ W) :
    WithinR W s0 (execTargetedScrub a0 a1 s) := by
  unfold execTargetedScrub
  try dsimp only
  repeat' first
    | with_reducible assumption
    | with_reducible apply State.scrub_within
    | with_reducible apply State.onStk_within
    | with_reducible apply State.fieldFail_within
    | with_reducible apply State.at_within
    | with_reducible apply within_ite
    | with_reducible apply withinR_ite
    | with_reducible apply withinR_next
    | split

theorem execJtagSamplePreload_within {W : List Part} {s0 s : State} (a0 : List Bool) (h : Within W s0 s)
    (h_sec : Part.sec ∈ W) :
    WithinR W s0 (execJtagSamplePreload a0 s) := by
  unfold execJtagSamplePreload
  try dsimp only
  repeat' first
    | with_reducible assumption
    | with_reducible apply State.shiftOut_within
    | with_reducible apply State.closedInstr_within
    | with_reducible apply within_ite
    | with_reducible apply withinR_ite
    | with_reducible apply withinR_next
    | split
    | with_reducible refine within_sec _ ?_ (by assumption)

theorem execVin48Restored_within {W : List Part} {s0 s : State} (a0 : ℕ) (h : Within W s0 s)
    (h_mgmt : Part.mgmt ∈ W) (h_pwr : Part.pwr ∈ W) (h_pins : Part.pins ∈ W) :
    WithinR W s0 (execVin48Restored a0 s) := by
  unfold execVin48Restored
  try dsimp only
  repeat' first
    | with_reducible assumption
    | with_reducible apply within_ite
    | with_reducible apply withinR_ite
    | with_reducible apply withinR_next
    | split
    | with_reducible refine within_mgmt_pwr_pins _ _ _ ?_ (by assumption) (by assumption) (by assumption)

theorem execReadResp_within {W : List Part} {s0 s : State} (a0 : PktHdr) (a1 : BitVec 16) (a2 : BitVec 32)
    (a3 : Bool) (a4 : List Byte) (h : Within W s0 s) (h_cores : Part.cores ∈ W) (h_mem : Part.mem ∈ W)
    (h_ports : Part.ports ∈ W) (h_fab : Part.fab ∈ W) (h_host : Part.host ∈ W) (h_jobs : Part.jobs ∈ W) :
    WithinR W s0 (execReadResp a0 a1 a2 a3 a4 s) := by
  unfold execReadResp
  try dsimp only
  repeat' first
    | with_reducible assumption
    | with_reducible apply State.receiveData_within
    | with_reducible apply State.onFlow_within
    | with_reducible apply State.landParts_within
    | with_reducible refine WithinD.waitOut (v := State.landParts _ _ _ _ _) ?_ (by assumption)
    | with_reducible refine WithinD.doneOut (v := State.landParts _ _ _ _ _) ?_ (by assumption)
    | with_reducible apply State.pumpDma_within
    | with_reducible apply State.onSeq_within
    | with_reducible apply State.endXfer_within
    | with_reducible apply State.failXfer_within
    | with_reducible apply State.onBegun_within
    | with_reducible apply within_ite
    | (with_reducible intro u x hu; try dsimp only)
    | with_reducible apply withinR_ite
    | with_reducible apply withinR_next
    | split
    | (with_reducible intro u hu; try dsimp only)

theorem execRegisterWrite_within {W : List Part} {s0 s : State} (a0 : BitVec 28) (a1 : BitVec 32)
    (h : Within W s0 s) (h_cores : Part.cores ∈ W) (h_host : Part.host ∈ W) (h_cfg : Part.cfg ∈ W)
    (h_mgmt : Part.mgmt ∈ W) (h_clk : Part.clk ∈ W) :
    WithinR W s0 (execRegisterWrite a0 a1 s) := by
  unfold execRegisterWrite
  try dsimp only
  repeat' first
    | with_reducible assumption
    | with_reducible apply State.writeReg_within
    | with_reducible apply within_ite
    | with_reducible apply withinR_ite
    | with_reducible apply withinR_next

theorem execCoreHandover_within {W : List Part} {s0 s : State} (a0 : Fin 64) (h : Within W s0 s)
    (h_cores : Part.cores ∈ W) (h_flash : Part.flash ∈ W) :
    WithinR W s0 (execCoreHandover a0 s) := by
  unfold execCoreHandover
  try dsimp only
  repeat' first
    | with_reducible assumption
    | with_reducible apply State.onCore_within
    | with_reducible apply State.setCore_within
    | with_reducible apply within_ite
    | with_reducible apply withinR_ite
    | with_reducible apply withinR_next
    | split
    | with_reducible refine within_flash _ ?_ (by assumption)

theorem execScpCorrLogHourly_within {W : List Part} {s0 s : State} (a0 : ℕ) (h : Within W s0 s)
    (h_flash : Part.flash ∈ W) (h_mgmt : Part.mgmt ∈ W) (h_clk : Part.clk ∈ W) :
    WithinR W s0 (execScpCorrLogHourly a0 s) := by
  unfold execScpCorrLogHourly
  try dsimp only
  repeat' first
    | with_reducible assumption
    | with_reducible apply State.at_within
    | with_reducible apply State.logErr_within
    | with_reducible apply within_ite
    | with_reducible apply within_foldl
    | with_reducible apply within_foldl2
    | (with_reducible intro u x hu; try dsimp only)
    | with_reducible apply withinR_ite
    | with_reducible apply withinR_next
    | split
    | with_reducible refine within_mgmt _ ?_ (by assumption)

theorem execHeartbeat_within {W : List Part} {s0 s : State} (a0 : ℕ) (h : Within W s0 s) (h_host : Part.host ∈ W)
    (h_clk : Part.clk ∈ W) :
    WithinR W s0 (execHeartbeat a0 s) := by
  unfold execHeartbeat
  try dsimp only
  repeat' first
    | with_reducible assumption
    | with_reducible apply State.refuse_within
    | with_reducible apply State.at_within
    | with_reducible apply State.accept_within
    | with_reducible apply within_ite
    | with_reducible apply withinR_ite
    | with_reducible apply withinR_next
    | split

theorem execVxAdd_within {W : List Part} {s0 s : State} (a0 : Fin 64) (h : Within W s0 s)
    (h_cores : Part.cores ∈ W) (h_mem : Part.mem ∈ W) (h_ports : Part.ports ∈ W) (h_fab : Part.fab ∈ W)
    (h_jobs : Part.jobs ∈ W) :
    WithinR W s0 (execVxAdd a0 s) := by
  unfold execVxAdd
  try dsimp only
  repeat' first
    | with_reducible assumption
    | with_reducible apply vxElementwise_within
    | with_reducible apply runCmd_within
    | with_reducible apply tileHold_within
    | with_reducible refine WithinP.out (o := tileHold _ _ _) ?_ (by assumption)
    | with_reducible apply within_ite
    | with_reducible apply within_getD
    | (with_reducible intro u x hu; try dsimp only)
    | with_reducible apply withinR_ite
    | with_reducible apply withinR_next
    | split
    | (intro hs; first | (with_reducible assumption) | exact absurd hs Bool.false_ne_true)
    | with_reducible exact withinP_none
    | with_reducible apply withinP_some
    | with_reducible intro u x hu
    | (with_reducible intro x u hu; try dsimp only)
    | (unfold vxRow; try dsimp only)

theorem execStandbyRestartDone_within {W : List Part} {s0 s : State} (h : Within W s0 s)
    (h_flash : Part.flash ∈ W) (h_mgmt : Part.mgmt ∈ W) :
    WithinR W s0 (execStandbyRestartDone s) := by
  unfold execStandbyRestartDone
  try dsimp only
  repeat' first
    | with_reducible assumption
    | with_reducible apply State.logErr_within
    | with_reducible apply within_ite
    | with_reducible apply withinR_ite
    | with_reducible apply withinR_next
    | split
    | with_reducible refine within_mgmt _ ?_ (by assumption)

theorem execParkTimer_within {W : List Part} {s0 s : State} (a0 : Fin 72) (a1 : ℕ) (h : Within W s0 s)
    (h_pwr : Part.pwr ∈ W) (h_clk : Part.clk ∈ W) :
    WithinR W s0 (execParkTimer a0 a1 s) := by
  unfold execParkTimer
  try dsimp only
  repeat' first
    | with_reducible assumption
    | with_reducible apply State.onDom_within
    | with_reducible apply State.at_within
    | with_reducible apply within_ite
    | with_reducible apply withinR_ite
    | with_reducible apply withinR_next

theorem execXbarRead_within {W : List Part} {s0 s : State} (a0 : XPort) (a1 : BitVec 40) (a2 : BitVec 256)
    (a3 : Option GrpKey) (a4 : Upset) (h : Within W s0 s) (h_cores : Part.cores ∈ W) (h_mem : Part.mem ∈ W)
    (h_ports : Part.ports ∈ W) (h_fab : Part.fab ∈ W) (h_host : Part.host ∈ W) (h_flash : Part.flash ∈ W) :
    WithinR W s0 (execXbarRead a0 a1 a2 a3 a4 s) := by
  unfold execXbarRead
  try dsimp only
  repeat' first
    | with_reducible assumption
    | with_reducible apply State.request_within
    | with_reducible apply State.retryHeld_within
    | with_reducible apply State.sliceEcc_within
    | with_reducible apply within_ite
    | with_reducible apply withinR_ite
    | with_reducible apply withinR_next

theorem execThermalSample_within {W : List Part} {s0 s : State} (a0 : Fin 72) (a1 : Option ℤ) (a2 : List
    (Option ℤ)) (a3 : ℕ) (h : Within W s0 s) (h_flash : Part.flash ∈ W) (h_pwr : Part.pwr ∈ W)
    (h_clk : Part.clk ∈ W) (h_thm : Part.thm ∈ W) :
    WithinR W s0 (execThermalSample a0 a1 a2 a3 s) := by
  unfold execThermalSample
  try dsimp only
  repeat' first
    | with_reducible assumption
    | with_reducible apply State.judgeSensor_within
    | with_reducible apply State.heatCore_within
    | with_reducible apply State.sample_within
    | with_reducible apply State.at_within
    | with_reducible apply within_ite
    | with_reducible apply within_foldl
    | with_reducible apply within_foldl2
    | with_reducible apply within_getD
    | (with_reducible intro u x hu; try dsimp only)
    | with_reducible apply withinR_ite
    | with_reducible apply withinR_next
    | split
    | with_reducible refine within_thm _ ?_ (by assumption)

theorem execFwUpdateDone_within {W : List Part} {s0 s : State} (a0 : FwResult) (a1 : Boot) (a2 : ℕ)
    (h : Within W s0 s) (h_cores : Part.cores ∈ W) (h_mem : Part.mem ∈ W) (h_ports : Part.ports ∈ W)
    (h_optics : Part.optics ∈ W) (h_fab : Part.fab ∈ W) (h_host : Part.host ∈ W) (h_jobs : Part.jobs ∈ W)
    (h_cfg : Part.cfg ∈ W) (h_sec : Part.sec ∈ W) (h_flash : Part.flash ∈ W) (h_mgmt : Part.mgmt ∈ W)
    (h_pwr : Part.pwr ∈ W) (h_clk : Part.clk ∈ W) (h_thm : Part.thm ∈ W) (h_free : Part.free ∈ W) :
    WithinR W s0 (execFwUpdateDone a0 a1 a2 s) := by
  unfold execFwUpdateDone
  try dsimp only
  repeat' first
    | with_reducible assumption
    | with_reducible apply State.beginStart_within
    | with_reducible apply State.at_within
    | with_reducible apply within_ite
    | with_reducible apply withinR_ite
    | with_reducible apply withinR_next
    | split
    | with_reducible refine within_mgmt _ ?_ (by assumption)
    | with_reducible refine within_flash_mgmt _ _ ?_ (by assumption) (by assumption)

theorem execJobStart_within {W : List Part} {s0 s : State} (a0 : Fin 64) (a1 : ℕ) (h : Within W s0 s)
    (h_cores : Part.cores ∈ W) (h_mem : Part.mem ∈ W) (h_fab : Part.fab ∈ W) (h_jobs : Part.jobs ∈ W)
    (h_clk : Part.clk ∈ W) :
    WithinR W s0 (execJobStart a0 a1 s) := by
  unfold execJobStart
  try dsimp only
  repeat' first
    | with_reducible assumption
    | with_reducible apply State.at_within
    | with_reducible apply State.preemptPass_within
    | with_reducible apply State.onSQueue_within
    | with_reducible apply State.startTask_within
    | with_reducible apply State.onJob_within
    | with_reducible apply within_ite
    | with_reducible apply within_foldl
    | with_reducible apply within_foldl2
    | (with_reducible intro u x hu; try dsimp only)
    | with_reducible apply withinR_ite
    | with_reducible apply withinR_next
    | split
    | with_reducible refine within_jobs _ ?_ (by assumption)

theorem execTeardown_within {W : List Part} {s0 s : State} (a0 : PktHdr) (h : Within W s0 s)
    (h_cores : Part.cores ∈ W) (h_mem : Part.mem ∈ W) (h_ports : Part.ports ∈ W) (h_fab : Part.fab ∈ W)
    (h_jobs : Part.jobs ∈ W) :
    WithinR W s0 (execTeardown a0 s) := by
  unfold execTeardown
  try dsimp only
  repeat' first
    | with_reducible assumption
    | with_reducible apply State.receiveCtl_within
    | with_reducible apply withinR_next

theorem execGrpCommit_within {W : List Part} {s0 s : State} (a0 : Fin 64) (h : Within W s0 s)
    (h_cores : Part.cores ∈ W) (h_jobs : Part.jobs ∈ W) :
    WithinR W s0 (execGrpCommit a0 s) := by
  unfold execGrpCommit
  try dsimp only
  repeat' first
    | with_reducible assumption
    | with_reducible apply State.onEng_within
    | with_reducible apply State.failStream_within
    | with_reducible apply State.waitOn_within
    | with_reducible apply State.retireFront_within
    | with_reducible apply runCmd_within
    | with_reducible apply State.onSeq_within
    | with_reducible apply within_ite
    | (with_reducible intro u x hu; try dsimp only)
    | with_reducible apply withinR_ite
    | with_reducible apply withinR_next
    | split
    | (intro hs; first | (with_reducible assumption) | exact absurd hs Bool.false_ne_true)
    | with_reducible exact withinP_none
    | with_reducible apply withinP_some
    | with_reducible intro u x hu
    | (with_reducible intro x u hu; try dsimp only)
    | (unfold grpCommitRow; try dsimp only)
    | (unfold plainRow; try dsimp only)

theorem execSectionPowerEntry_within {W : List Part} {s0 s : State} (a0 : Fin 64) (a1 : Fin 6) (h : Within W s0 s)
    (h_cores : Part.cores ∈ W) :
    WithinR W s0 (execSectionPowerEntry a0 a1 s) := by
  unfold execSectionPowerEntry
  try dsimp only
  repeat' first
    | with_reducible assumption
    | with_reducible apply State.onScp_within
    | with_reducible apply within_ite
    | with_reducible apply withinR_ite
    | with_reducible apply withinR_next
    | split

theorem execApertureCompletion_within {W : List Part} {s0 s : State} (a0 : AptResult) (h : Within W s0 s)
    (h_cores : Part.cores ∈ W) (h_mem : Part.mem ∈ W) (h_ports : Part.ports ∈ W) (h_fab : Part.fab ∈ W)
    (h_host : Part.host ∈ W) (h_jobs : Part.jobs ∈ W) (h_flash : Part.flash ∈ W) :
    WithinR W s0 (execApertureCompletion a0 s) := by
  unfold execApertureCompletion
  try dsimp only
  repeat' first
    | with_reducible assumption
    | with_reducible apply State.aptDone_within
    | with_reducible apply State.dropApts_within
    | with_reducible apply State.settleApt_within
    | with_reducible apply State.landParts_within
    | with_reducible refine WithinD.waitOut (v := State.landParts _ _ _ _ _) ?_ (by assumption)
    | with_reducible refine WithinD.doneOut (v := State.landParts _ _ _ _ _) ?_ (by assumption)
    | with_reducible apply State.onSeq_within
    | with_reducible apply State.failXfer_within
    | with_reducible apply within_ite
    | with_reducible apply withinR_ite
    | with_reducible apply withinR_next
    | split
    | with_reducible refine within_host _ ?_ (by assumption)

theorem execLoReadLatch_within {W : List Part} {s0 s : State} (a0 : BitVec 28) (h : Within W s0 s)
    (h_cores : Part.cores ∈ W) (h_mem : Part.mem ∈ W) (h_ports : Part.ports ∈ W) (h_host : Part.host ∈ W)
    (h_sec : Part.sec ∈ W) (h_mgmt : Part.mgmt ∈ W) (h_pwr : Part.pwr ∈ W) (h_clk : Part.clk ∈ W)
    (h_free : Part.free ∈ W) :
    WithinR W s0 (execLoReadLatch a0 s) := by
  unfold execLoReadLatch
  try dsimp only
  repeat' first
    | with_reducible assumption
    | with_reducible apply State.latch_within
    | with_reducible refine WithinO.out (o := State.latch? _ _) ?_ (by assumption)
    | with_reducible apply State.readOut_within
    | with_reducible apply within_ite
    | with_reducible apply withinR_ite
    | with_reducible apply withinR_next
    | with_reducible refine WithinO.out (o := ite _ _ _) ?_ (by assumption)
    | with_reducible apply withinO_some
    | split

theorem execSliceMissFill_within {W : List Part} {s0 s : State} (a0 : Fin 128) (a1 : Upset) (h : Within W s0 s)
    (h_cores : Part.cores ∈ W) (h_mem : Part.mem ∈ W) (h_ports : Part.ports ∈ W) (h_fab : Part.fab ∈ W)
    (h_host : Part.host ∈ W) (h_flash : Part.flash ∈ W) :
    WithinR W s0 (execSliceMissFill a0 a1 s) := by
  unfold execSliceMissFill
  try dsimp only
  repeat' first
    | with_reducible assumption
    | with_reducible apply State.pumpWaiting_within
    | with_reducible apply State.retryHeld_within
    | with_reducible apply State.onSlice_within
    | with_reducible apply State.deliver_within
    | with_reducible apply State.fetchUnit_within
    | with_reducible apply withinR_next
    | split

theorem execBarrier_within {W : List Part} {s0 s : State} (a0 : PktHdr) (a1 : BitVec 20) (a2 : Bool)
    (a3 : BitVec 32) (h : Within W s0 s) (h_cores : Part.cores ∈ W) (h_mem : Part.mem ∈ W)
    (h_ports : Part.ports ∈ W) (h_fab : Part.fab ∈ W) (h_jobs : Part.jobs ∈ W) :
    WithinR W s0 (execBarrier a0 a1 a2 a3 s) := by
  unfold execBarrier
  try dsimp only
  repeat' first
    | with_reducible assumption
    | with_reducible apply State.receiveCtl_within
    | with_reducible apply withinR_next

theorem State.issuePass_within {W : List Part} {s0 s : State} (a1 : ℕ) (a2 : Arr) (a3 : Begun) (a4 : Begun)
    (a5 : Prod) (a6 : Pass) (a7 : Bool) (a8 : AccTile) (a9 : Option (ℕ × ℕ × Fin 32)) (h : Within W s0 s)
    (h_cores : Part.cores ∈ W) (h_ports : Part.ports ∈ W) (h_fab : Part.fab ∈ W) (h_jobs : Part.jobs ∈ W) :
    Within W s0 (State.issuePass s a1 a2 a3 a4 a5 a6 a7 a8 a9) := by
  unfold State.issuePass
  try dsimp only
  repeat' first
    | with_reducible assumption
    | with_reducible apply State.onArray_within
    | with_reducible apply State.poisonKept_within
    | with_reducible apply State.poisonBegun_within
    | with_reducible apply State.onSeq_within
    | with_reducible apply State.drainPump_within
    | with_reducible apply State.setCore_within
    | with_reducible apply within_ite

theorem execArraySwap_within {W : List Part} {s0 s : State} (a0 : Fin 64) (a1 : Arr) (a2 : PassHold) (a3 : Option
    (ℕ × ℕ × Fin 32)) (h : Within W s0 s) (h_cores : Part.cores ∈ W) (h_ports : Part.ports ∈ W)
    (h_fab : Part.fab ∈ W) (h_jobs : Part.jobs ∈ W) :
    WithinR W s0 (execArraySwap a0 a1 a2 a3 s) := by
  unfold execArraySwap
  try dsimp only
  repeat' first
    | with_reducible assumption
    | with_reducible apply State.issuePass_within
    | with_reducible apply State.onSeq_within
    | with_reducible apply accessHold_within
    | with_reducible refine WithinP.out (o := accessHold _ _ _ _) ?_ (by assumption)
    | with_reducible apply State.bubbleStall_within
    | with_reducible apply within_ite
    | with_reducible apply withinR_ite
    | with_reducible apply withinR_next
    | split

theorem execBoardConfigRecord_within {W : List Part} {s0 s : State} (a0 : ℕ) (h : Within W s0 s)
    (h_cfg : Part.cfg ∈ W) (h_flash : Part.flash ∈ W) (h_clk : Part.clk ∈ W) :
    WithinR W s0 (execBoardConfigRecord a0 s) := by
  unfold execBoardConfigRecord
  try dsimp only
  repeat' first
    | with_reducible assumption
    | with_reducible apply State.at_within
    | with_reducible apply within_ite
    | with_reducible apply withinR_ite
    | with_reducible apply withinR_next
    | split
    | with_reducible refine within_cfg_flash _ _ ?_ (by assumption) (by assumption)

theorem execGrpAbort_within {W : List Part} {s0 s : State} (a0 : Fin 64) (h : Within W s0 s)
    (h_cores : Part.cores ∈ W) (h_mem : Part.mem ∈ W) (h_ports : Part.ports ∈ W) (h_fab : Part.fab ∈ W)
    (h_jobs : Part.jobs ∈ W) :
    WithinR W s0 (execGrpAbort a0 s) := by
  unfold execGrpAbort
  try dsimp only
  repeat' first
    | with_reducible assumption
    | with_reducible apply State.pumpPort_within
    | with_reducible apply State.retireFront_within
    | with_reducible apply runCmd_within
    | with_reducible apply State.abortGroup_within
    | with_reducible apply within_ite
    | (with_reducible intro u x hu; try dsimp only)
    | with_reducible apply withinR_ite
    | with_reducible apply withinR_next
    | split
    | (intro hs; first | (with_reducible assumption) | exact absurd hs Bool.false_ne_true)
    | with_reducible exact withinP_none
    | with_reducible apply withinP_some
    | with_reducible intro u x hu
    | (with_reducible intro x u hu; try dsimp only)
    | (unfold plainRow; try dsimp only)

theorem execCorePark_within {W : List Part} {s0 s : State} (a0 : Fin 72) (h : Within W s0 s) (h_pwr : Part.pwr ∈ W) :
    WithinR W s0 (execCorePark a0 s) := by
  unfold execCorePark
  try dsimp only
  repeat' first
    | with_reducible assumption
    | with_reducible apply State.onDom_within
    | with_reducible apply within_ite
    | with_reducible apply withinR_ite
    | with_reducible apply withinR_next

theorem execStrike_within {W : List Part} {s0 s : State} (a0 : PktHdr) (a1 : BitVec 24) (h : Within W s0 s)
    (h_cores : Part.cores ∈ W) (h_mem : Part.mem ∈ W) (h_ports : Part.ports ∈ W) (h_fab : Part.fab ∈ W)
    (h_jobs : Part.jobs ∈ W) :
    WithinR W s0 (execStrike a0 a1 s) := by
  unfold execStrike
  try dsimp only
  repeat' first
    | with_reducible assumption
    | with_reducible apply State.receiveCtl_within
    | with_reducible apply withinR_next

theorem execFrameReceive_within {W : List Part} {s0 s : State} (a0 : Fin 96) (a1 : Frame) (h : Within W s0 s)
    (h_ports : Part.ports ∈ W) :
    WithinR W s0 (execFrameReceive a0 a1 s) := by
  unfold execFrameReceive
  try dsimp only
  repeat' first
    | with_reducible assumption
    | with_reducible apply State.pfcCheck_within
    | with_reducible apply State.onPort_within
    | with_reducible apply within_ite
    | with_reducible apply withinR_ite
    | with_reducible apply withinR_next
    | split

theorem execUnparkTimer_within {W : List Part} {s0 s : State} (a0 : Fin 72) (a1 : ℕ) (h : Within W s0 s)
    (h_pwr : Part.pwr ∈ W) (h_clk : Part.clk ∈ W) :
    WithinR W s0 (execUnparkTimer a0 a1 s) := by
  unfold execUnparkTimer
  try dsimp only
  repeat' first
    | with_reducible assumption
    | with_reducible apply State.onDom_within
    | with_reducible apply State.at_within
    | with_reducible apply within_ite
    | with_reducible apply withinR_ite
    | with_reducible apply withinR_next

theorem execGrpOpen_within {W : List Part} {s0 s : State} (a0 : Fin 64) (a1 : Eng) (h : Within W s0 s)
    (h_cores : Part.cores ∈ W) (h_jobs : Part.jobs ∈ W) :
    WithinR W s0 (execGrpOpen a0 a1 s) := by
  unfold execGrpOpen
  try dsimp only
  repeat' first
    | with_reducible assumption
    | with_reducible apply State.retireFront_within
    | with_reducible apply runCmd_within
    | with_reducible apply State.onSeq_within
    | with_reducible apply within_ite
    | (with_reducible intro u x hu; try dsimp only)
    | with_reducible apply withinR_ite
    | with_reducible apply withinR_next
    | split
    | (intro hs; first | (with_reducible assumption) | exact absurd hs Bool.false_ne_true)
    | with_reducible exact withinP_none
    | with_reducible apply withinP_some
    | with_reducible intro u x hu
    | (with_reducible intro x u hu; try dsimp only)
    | (unfold grpOpenRow; try dsimp only)

theorem execQuench_within {W : List Part} {s0 s : State} (a0 : ℕ) (h : Within W s0 s) (h_cores : Part.cores ∈ W)
    (h_mem : Part.mem ∈ W) (h_ports : Part.ports ∈ W) (h_fab : Part.fab ∈ W) (h_host : Part.host ∈ W)
    (h_jobs : Part.jobs ∈ W) (h_flash : Part.flash ∈ W) (h_mgmt : Part.mgmt ∈ W) (h_pwr : Part.pwr ∈ W)
    (h_clk : Part.clk ∈ W) (h_thm : Part.thm ∈ W) :
    WithinR W s0 (execQuench a0 s) := by
  unfold execQuench
  try dsimp only
  repeat' first
    | with_reducible assumption
    | with_reducible apply State.quenchNow_within
    | with_reducible apply State.at_within
    | with_reducible apply within_ite
    | with_reducible apply withinR_ite
    | with_reducible apply withinR_next

theorem execJtagBypass_within {W : List Part} {s0 s : State} (a0 : Bool) (h : Within W s0 s) (h_sec : Part.sec ∈ W) :
    WithinR W s0 (execJtagBypass a0 s) := by
  unfold execJtagBypass
  try dsimp only
  repeat' first
    | with_reducible assumption
    | with_reducible apply State.shiftOut_within
    | with_reducible apply withinR_next
    | split
    | with_reducible refine within_sec _ ?_ (by assumption)

end Sys2Proof.Machine
end

