-- ==== Sys2Proof/Laws/Runner.lean ====
section
/-! SUPPORT. What the shared operations that run a command can do: beginning, retiring, stopping. -/

namespace Sys2Proof.Machine

variable {s : State}

@[simp] theorem Row.next_inj (s t : State) : ((Host.Outcome.next s : Res) = .next t) = (s = t) := by simp

/-- A command that may begin is the front of its engine's stream. -/
theorem admit_go {r : Row} {op lc : Nat} {e : Eng} {c : Ctx} (h : admission r op s lc e = .go c) :
    ∃ f l, (s.eng lc e).fetched = f :: l ∧ c = frontCtx s lc e f := by
  unfold admission at h
  split at h
  · cases h
  dsimp only at h
  split at h
  · cases h
  · rename_i f l hf
    refine ⟨f, l, hf, ?_⟩
    repeat' first
      | (cases h; rfl)
      | (cases h; done)
      | split at h

/-- A command that meets the conditions begins. -/
theorem Begins.go {r : Row} {op lc : Nat} {e : Eng} {c : Ctx} (h : Begins r op s lc e c) : admission r op s lc e = .go c := by
  obtain ⟨hr, hi, ⟨f, l, hf, hff, rfl⟩, ho, hm, hs, ha, hor, hroom, hin, hv, hc, hw⟩ := h
  have hf' : ((s.core lc).seq.eng e).fetched = f :: l := hf
  have ho' : Cmd.op f.word = op := ho
  have hin' : stepOne (s.core lc) f.word ((s.core lc).seq.eng e).curGrp = none := hin
  have hv' : Cmd.ver f.word = 2 ∨ (Cmd.ver f.word = 1 ∧ (s.core lc).seq.duncen = true ∧ duncenAbsent op = false) := hv
  have ha' : ((s.core lc).seq.eng e).applyHold = false := ha
  have hroom' : ((s.core lc).seq.eng e).begun.length < 128 := hroom
  have hor' : e = .f ∨ e = .g0 ∨ e = .g1 ∨ ((s.core lc).seq.eng e).begun = [] := hor
  have hs' : ¬ (((s.core lc).seq.stopEnable && (s.core lc).seq.stopEngine.toNat == e.code
    && decide (((s.core lc).seq.eng e).begunCount ≥ (s.core lc).seq.stopN.toNat)) = true) := by
    rw [Bool.not_eq_true]
    exact hs
  unfold admission
  simp only [hf', hr, hi, ho', hm, hff, ha', hin', hc, hw]
  have h1 : ¬ (e ≠ .f ∧ e ≠ .g0 ∧ e ≠ .g1 ∧ ((s.core lc).seq.eng e).begun ≠ []) := by
    rintro ⟨a, b, d, f⟩
    rcases hor' with h | h | h | h
    · exact a h
    · exact b h
    · exact d h
    · exact f h
  have h2 : ¬ ((!(Cmd.ver f.word == 2 || (Cmd.ver f.word == 1 && (s.core lc).seq.duncen))) = true) := by
    rcases hv' with h | ⟨h, h', -⟩ <;> simp [*]
  have h3 : ¬ ((Cmd.ver f.word == 1 && duncenAbsent op) = true) := by
    rcases hv' with h | ⟨h, -, h'⟩ <;> simp [*]
  simp [hs', h1, h2, h3, Nat.not_le.2 hroom']

theorem admit_go_lc {r : Row} {op lc : Nat} {e : Eng} {c : Ctx} (h : admission r op s lc e = .go c) : c.lc = lc := by
  obtain ⟨f, l, -, rfl⟩ := admit_go h
  rfl
theorem admit_go_e {r : Row} {op lc : Nat} {e : Eng} {c : Ctx} (h : admission r op s lc e = .go c) : c.e = e := by
  obtain ⟨f, l, -, rfl⟩ := admit_go h
  rfl

/-- A command that may begin runs its row's effect. -/
theorem runCmd_go {r : Row} {op lc : Nat} {e : Eng} {c : Ctx} (eff : Ctx → State → State) (h : admission r op s lc e = .go c) :
    runCmd r op eff lc e s = .next (eff c s) := by
  rw [runCmd, h]
theorem runCmd_fail {r : Row} {op lc : Nat} {e : Eng} {code : Nat} (eff : Ctx → State → State)
    (h : admission r op s lc e = .fail code) : runCmd r op eff lc e s =
      .next ((if r.setsUp then s.noteRefused code else s).failStream lc e code) := by
  rw [runCmd, h]
theorem runCmd_stall {r : Row} {op lc : Nat} {e : Eng} {cause : Nat} {u : State} (eff : Ctx → State → State)
    (h : admission r op s lc e = .stall cause u) : runCmd r op eff lc e s = .next (u.stallNow lc e cause) := by
  rw [runCmd, h]

theorem engines_wf (h : Canon s) (lc : Nat) : Tbl.wf {} (s.core lc).seq.engines = true := (h.1.2 lc).1.1

theorem goesOn_noStop {lc : Nat} {e : Eng} (h : goesOn s lc e = true) : noStopCount s lc e = true := by
  simp only [goesOn, Bool.and_eq_true] at h
  exact h.1
theorem goesOn_hasMore {lc : Nat} {e : Eng} (h : goesOn s lc e = true) : (s.eng lc e).hasMore = true := by
  simp only [goesOn, Bool.and_eq_true] at h
  exact h.2
theorem goesOn_mk {lc : Nat} {e : Eng} (h : noStopCount s lc e = true) (k : (s.eng lc e).hasMore = true) :
    goesOn s lc e = true := by
  rw [goesOn, h, k]
  rfl

/-- A retirement that stops nothing changes its engine only. -/
theorem State.retireFront_eq (c : Ctx) (loops : List Loop) (ends : Bool) (h : Canon s)
    (hg : noStopCount s c.lc c.e = true) (he : ends = true ∨ (s.eng c.lc c.e).hasMore = true) :
    s.retireFront c loops ends = s.onEng c.lc c.e (Engine.retire loops) := by
  unfold State.retireFront
  show State.afterRetire (s.onEng c.lc c.e (Engine.retire loops)) c.lc c.e ends = _
  unfold State.afterRetire
  simp only [State.core_onEng _ _ _ _ h.1.1, Sequencer.eng_onEng _ _ _ (engines_wf h c.lc)]
  simp only [noStopCount, Sequencer.noStop, Bool.not_eq_true', Bool.and_eq_false_iff, beq_eq_false_iff_ne,
    decide_eq_false_iff_not] at hg
  rw [if_neg, if_neg]
  · rintro ⟨a, b, d, f, g, i⟩
    rcases he with rfl | he
    · simp at a
    · simp only [Engine.hasMore, State.eng, Bool.not_eq_true', Bool.and_eq_false_iff, beq_eq_false_iff_ne,
        decide_eq_false_iff_not] at he
      simp only [Engine.retire] at b d f g i
      rcases he with ((((e | e) | e) | e) | e)
      · exact e b
      · simp [d] at e
      · simp [f] at e
      · rw [g] at e; cases e
      · exact of_decide_eq_false e i
  · rintro ⟨a, b, d⟩
    rcases hg with (e | e) | e
    · exact Bool.noConfusion (a.symm.trans e)
    · exact e b
    · exact e d

theorem State.retireFront_goesOn (c : Ctx) (loops : List Loop) (ends : Bool) (h : Canon s) (hg : goesOn s c.lc c.e = true) :
    s.retireFront c loops ends = s.onEng c.lc c.e (Engine.retire loops) :=
  State.retireFront_eq c loops ends h (goesOn_noStop hg) (.inr (goesOn_hasMore hg))

/-! ### Reads of a sequencer after an update of another of its tables -/

@[simp] theorem Sequencer.queue_onEng (q : Sequencer) (e : Eng) (f : Engine → Engine) (x : Nat) : (q.onEng e f).queue x = q.queue x := rfl
@[simp] theorem Sequencer.grp_onEng (q : Sequencer) (e : Eng) (f : Engine → Engine) (x : BitVec 12) : (q.onEng e f).grp x = q.grp x := rfl
@[simp] theorem Sequencer.win_onEng (q : Sequencer) (e : Eng) (f : Engine → Engine) (x : BitVec 12) : (q.onEng e f).win x = q.win x := rfl
@[simp] theorem Sequencer.seg_onEng (q : Sequencer) (e : Eng) (f : Engine → Engine) (x : Nat) : (q.onEng e f).seg x = q.seg x := rfl
@[simp] theorem Sequencer.task_onEng (q : Sequencer) (e : Eng) (f : Engine → Engine) : (q.onEng e f).task = q.task := rfl
@[simp] theorem Sequencer.cregs_onEng (q : Sequencer) (e : Eng) (f : Engine → Engine) : (q.onEng e f).cregs = q.cregs := rfl
@[simp] theorem Sequencer.srcsets_onEng (q : Sequencer) (e : Eng) (f : Engine → Engine) : (q.onEng e f).srcsets = q.srcsets := rfl
@[simp] theorem Sequencer.duncen_onEng (q : Sequencer) (e : Eng) (f : Engine → Engine) : (q.onEng e f).duncen = q.duncen := rfl
@[simp] theorem Sequencer.waitDefault_onEng (q : Sequencer) (e : Eng) (f : Engine → Engine) : (q.onEng e f).waitDefault = q.waitDefault := rfl
@[simp] theorem Sequencer.stopEnable_onEng (q : Sequencer) (e : Eng) (f : Engine → Engine) : (q.onEng e f).stopEnable = q.stopEnable := rfl
@[simp] theorem Sequencer.stopEngine_onEng (q : Sequencer) (e : Eng) (f : Engine → Engine) : (q.onEng e f).stopEngine = q.stopEngine := rfl
@[simp] theorem Sequencer.stopN_onEng (q : Sequencer) (e : Eng) (f : Engine → Engine) : (q.onEng e f).stopN = q.stopN := rfl
@[simp] theorem Sequencer.winFirst_onEng (q : Sequencer) (e : Eng) (f : Engine → Engine) : (q.onEng e f).winFirst = q.winFirst := rfl
@[simp] theorem Sequencer.winCount_onEng (q : Sequencer) (e : Eng) (f : Engine → Engine) : (q.onEng e f).winCount = q.winCount := rfl
@[simp] theorem Sequencer.pairStarted_onEng (q : Sequencer) (e : Eng) (f : Engine → Engine) : (q.onEng e f).pairStarted = q.pairStarted := rfl
@[simp] theorem Sequencer.saved_onEng (q : Sequencer) (e : Eng) (f : Engine → Engine) : (q.onEng e f).saved = q.saved := rfl
@[simp] theorem Sequencer.queues_onEng (q : Sequencer) (e : Eng) (f : Engine → Engine) : (q.onEng e f).queues = q.queues := rfl
@[simp] theorem Sequencer.groups_onEng (q : Sequencer) (e : Eng) (f : Engine → Engine) : (q.onEng e f).groups = q.groups := rfl
@[simp] theorem Sequencer.windows_onEng (q : Sequencer) (e : Eng) (f : Engine → Engine) : (q.onEng e f).windows = q.windows := rfl
@[simp] theorem Sequencer.segs_onEng (q : Sequencer) (e : Eng) (f : Engine → Engine) : (q.onEng e f).segs = q.segs := rfl
@[simp] theorem Sequencer.eng_onQueue (q : Sequencer) (n : Nat) (f : Queue → Queue) (x : Eng) : (q.onQueue n f).eng x = q.eng x := rfl
@[simp] theorem Sequencer.grp_onQueue (q : Sequencer) (n : Nat) (f : Queue → Queue) (x : BitVec 12) : (q.onQueue n f).grp x = q.grp x := rfl
@[simp] theorem Sequencer.win_onQueue (q : Sequencer) (n : Nat) (f : Queue → Queue) (x : BitVec 12) : (q.onQueue n f).win x = q.win x := rfl
@[simp] theorem Sequencer.seg_onQueue (q : Sequencer) (n : Nat) (f : Queue → Queue) (x : Nat) : (q.onQueue n f).seg x = q.seg x := rfl
@[simp] theorem Sequencer.task_onQueue (q : Sequencer) (n : Nat) (f : Queue → Queue) : (q.onQueue n f).task = q.task := rfl
@[simp] theorem Sequencer.cregs_onQueue (q : Sequencer) (n : Nat) (f : Queue → Queue) : (q.onQueue n f).cregs = q.cregs := rfl
@[simp] theorem Sequencer.srcsets_onQueue (q : Sequencer) (n : Nat) (f : Queue → Queue) : (q.onQueue n f).srcsets = q.srcsets := rfl
@[simp] theorem Sequencer.duncen_onQueue (q : Sequencer) (n : Nat) (f : Queue → Queue) : (q.onQueue n f).duncen = q.duncen := rfl
@[simp] theorem Sequencer.waitDefault_onQueue (q : Sequencer) (n : Nat) (f : Queue → Queue) : (q.onQueue n f).waitDefault = q.waitDefault := rfl
@[simp] theorem Sequencer.stopEnable_onQueue (q : Sequencer) (n : Nat) (f : Queue → Queue) : (q.onQueue n f).stopEnable = q.stopEnable := rfl
@[simp] theorem Sequencer.stopEngine_onQueue (q : Sequencer) (n : Nat) (f : Queue → Queue) : (q.onQueue n f).stopEngine = q.stopEngine := rfl
@[simp] theorem Sequencer.stopN_onQueue (q : Sequencer) (n : Nat) (f : Queue → Queue) : (q.onQueue n f).stopN = q.stopN := rfl
@[simp] theorem Sequencer.winFirst_onQueue (q : Sequencer) (n : Nat) (f : Queue → Queue) : (q.onQueue n f).winFirst = q.winFirst := rfl
@[simp] theorem Sequencer.winCount_onQueue (q : Sequencer) (n : Nat) (f : Queue → Queue) : (q.onQueue n f).winCount = q.winCount := rfl
@[simp] theorem Sequencer.pairStarted_onQueue (q : Sequencer) (n : Nat) (f : Queue → Queue) : (q.onQueue n f).pairStarted = q.pairStarted := rfl
@[simp] theorem Sequencer.saved_onQueue (q : Sequencer) (n : Nat) (f : Queue → Queue) : (q.onQueue n f).saved = q.saved := rfl
@[simp] theorem Sequencer.engines_onQueue (q : Sequencer) (n : Nat) (f : Queue → Queue) : (q.onQueue n f).engines = q.engines := rfl
@[simp] theorem Sequencer.groups_onQueue (q : Sequencer) (n : Nat) (f : Queue → Queue) : (q.onQueue n f).groups = q.groups := rfl
@[simp] theorem Sequencer.windows_onQueue (q : Sequencer) (n : Nat) (f : Queue → Queue) : (q.onQueue n f).windows = q.windows := rfl
@[simp] theorem Sequencer.segs_onQueue (q : Sequencer) (n : Nat) (f : Queue → Queue) : (q.onQueue n f).segs = q.segs := rfl
@[simp] theorem Sequencer.eng_onGrp (q : Sequencer) (g : BitVec 12) (f : Group → Group) (x : Eng) : (q.onGrp g f).eng x = q.eng x := rfl
@[simp] theorem Sequencer.queue_onGrp (q : Sequencer) (g : BitVec 12) (f : Group → Group) (x : Nat) : (q.onGrp g f).queue x = q.queue x := rfl
@[simp] theorem Sequencer.win_onGrp (q : Sequencer) (g : BitVec 12) (f : Group → Group) (x : BitVec 12) : (q.onGrp g f).win x = q.win x := rfl
@[simp] theorem Sequencer.seg_onGrp (q : Sequencer) (g : BitVec 12) (f : Group → Group) (x : Nat) : (q.onGrp g f).seg x = q.seg x := rfl
@[simp] theorem Sequencer.task_onGrp (q : Sequencer) (g : BitVec 12) (f : Group → Group) : (q.onGrp g f).task = q.task := rfl
@[simp] theorem Sequencer.cregs_onGrp (q : Sequencer) (g : BitVec 12) (f : Group → Group) : (q.onGrp g f).cregs = q.cregs := rfl
@[simp] theorem Sequencer.srcsets_onGrp (q : Sequencer) (g : BitVec 12) (f : Group → Group) : (q.onGrp g f).srcsets = q.srcsets := rfl
@[simp] theorem Sequencer.duncen_onGrp (q : Sequencer) (g : BitVec 12) (f : Group → Group) : (q.onGrp g f).duncen = q.duncen := rfl
@[simp] theorem Sequencer.waitDefault_onGrp (q : Sequencer) (g : BitVec 12) (f : Group → Group) : (q.onGrp g f).waitDefault = q.waitDefault := rfl
@[simp] theorem Sequencer.stopEnable_onGrp (q : Sequencer) (g : BitVec 12) (f : Group → Group) : (q.onGrp g f).stopEnable = q.stopEnable := rfl
@[simp] theorem Sequencer.stopEngine_onGrp (q : Sequencer) (g : BitVec 12) (f : Group → Group) : (q.onGrp g f).stopEngine = q.stopEngine := rfl
@[simp] theorem Sequencer.stopN_onGrp (q : Sequencer) (g : BitVec 12) (f : Group → Group) : (q.onGrp g f).stopN = q.stopN := rfl
@[simp] theorem Sequencer.winFirst_onGrp (q : Sequencer) (g : BitVec 12) (f : Group → Group) : (q.onGrp g f).winFirst = q.winFirst := rfl
@[simp] theorem Sequencer.winCount_onGrp (q : Sequencer) (g : BitVec 12) (f : Group → Group) : (q.onGrp g f).winCount = q.winCount := rfl
@[simp] theorem Sequencer.pairStarted_onGrp (q : Sequencer) (g : BitVec 12) (f : Group → Group) : (q.onGrp g f).pairStarted = q.pairStarted := rfl
@[simp] theorem Sequencer.saved_onGrp (q : Sequencer) (g : BitVec 12) (f : Group → Group) : (q.onGrp g f).saved = q.saved := rfl
@[simp] theorem Sequencer.engines_onGrp (q : Sequencer) (g : BitVec 12) (f : Group → Group) : (q.onGrp g f).engines = q.engines := rfl
@[simp] theorem Sequencer.queues_onGrp (q : Sequencer) (g : BitVec 12) (f : Group → Group) : (q.onGrp g f).queues = q.queues := rfl
@[simp] theorem Sequencer.windows_onGrp (q : Sequencer) (g : BitVec 12) (f : Group → Group) : (q.onGrp g f).windows = q.windows := rfl
@[simp] theorem Sequencer.segs_onGrp (q : Sequencer) (g : BitVec 12) (f : Group → Group) : (q.onGrp g f).segs = q.segs := rfl
@[simp] theorem Sequencer.eng_onWin (q : Sequencer) (w : BitVec 12) (f : Window → Window) (x : Eng) : (q.onWin w f).eng x = q.eng x := rfl
@[simp] theorem Sequencer.queue_onWin (q : Sequencer) (w : BitVec 12) (f : Window → Window) (x : Nat) : (q.onWin w f).queue x = q.queue x := rfl
@[simp] theorem Sequencer.grp_onWin (q : Sequencer) (w : BitVec 12) (f : Window → Window) (x : BitVec 12) : (q.onWin w f).grp x = q.grp x := rfl
@[simp] theorem Sequencer.seg_onWin (q : Sequencer) (w : BitVec 12) (f : Window → Window) (x : Nat) : (q.onWin w f).seg x = q.seg x := rfl
@[simp] theorem Sequencer.task_onWin (q : Sequencer) (w : BitVec 12) (f : Window → Window) : (q.onWin w f).task = q.task := rfl
@[simp] theorem Sequencer.cregs_onWin (q : Sequencer) (w : BitVec 12) (f : Window → Window) : (q.onWin w f).cregs = q.cregs := rfl
@[simp] theorem Sequencer.srcsets_onWin (q : Sequencer) (w : BitVec 12) (f : Window → Window) : (q.onWin w f).srcsets = q.srcsets := rfl
@[simp] theorem Sequencer.duncen_onWin (q : Sequencer) (w : BitVec 12) (f : Window → Window) : (q.onWin w f).duncen = q.duncen := rfl
@[simp] theorem Sequencer.waitDefault_onWin (q : Sequencer) (w : BitVec 12) (f : Window → Window) : (q.onWin w f).waitDefault = q.waitDefault := rfl
@[simp] theorem Sequencer.stopEnable_onWin (q : Sequencer) (w : BitVec 12) (f : Window → Window) : (q.onWin w f).stopEnable = q.stopEnable := rfl
@[simp] theorem Sequencer.stopEngine_onWin (q : Sequencer) (w : BitVec 12) (f : Window → Window) : (q.onWin w f).stopEngine = q.stopEngine := rfl
@[simp] theorem Sequencer.stopN_onWin (q : Sequencer) (w : BitVec 12) (f : Window → Window) : (q.onWin w f).stopN = q.stopN := rfl
@[simp] theorem Sequencer.winFirst_onWin (q : Sequencer) (w : BitVec 12) (f : Window → Window) : (q.onWin w f).winFirst = q.winFirst := rfl
@[simp] theorem Sequencer.winCount_onWin (q : Sequencer) (w : BitVec 12) (f : Window → Window) : (q.onWin w f).winCount = q.winCount := rfl
@[simp] theorem Sequencer.pairStarted_onWin (q : Sequencer) (w : BitVec 12) (f : Window → Window) : (q.onWin w f).pairStarted = q.pairStarted := rfl
@[simp] theorem Sequencer.saved_onWin (q : Sequencer) (w : BitVec 12) (f : Window → Window) : (q.onWin w f).saved = q.saved := rfl
@[simp] theorem Sequencer.engines_onWin (q : Sequencer) (w : BitVec 12) (f : Window → Window) : (q.onWin w f).engines = q.engines := rfl
@[simp] theorem Sequencer.queues_onWin (q : Sequencer) (w : BitVec 12) (f : Window → Window) : (q.onWin w f).queues = q.queues := rfl
@[simp] theorem Sequencer.groups_onWin (q : Sequencer) (w : BitVec 12) (f : Window → Window) : (q.onWin w f).groups = q.groups := rfl
@[simp] theorem Sequencer.segs_onWin (q : Sequencer) (w : BitVec 12) (f : Window → Window) : (q.onWin w f).segs = q.segs := rfl

@[simp] theorem State.core_onSeq_other (s : State) (lc n : Nat) (f : Sequencer → Sequencer) (h : n ≠ lc) :
    (s.onSeq lc f).core n = s.core n := State.core_setCore_other s lc n _ h
@[simp] theorem State.core_onScp_other (s : State) (lc n : Nat) (f : Scratch → Scratch) (h : n ≠ lc) :
    (s.onScp lc f).core n = s.core n := State.core_setCore_other s lc n _ h
@[simp] theorem State.core_onInteg_other (s : State) (lc n : Nat) (f : Integrity → Integrity) (h : n ≠ lc) :
    (s.onInteg lc f).core n = s.core n := State.core_setCore_other s lc n _ h
@[simp] theorem State.core_onEng_other (s : State) (lc n : Nat) (e : Eng) (f : Engine → Engine) (h : n ≠ lc) :
    (s.onEng lc e f).core n = s.core n := State.core_setCore_other s lc n _ h
@[simp] theorem State.core_onQueue_other (s : State) (lc n : Nat) (m : Nat) (f : Queue → Queue) (h : n ≠ lc) :
    (s.onQueue lc m f).core n = s.core n := State.core_setCore_other s lc n _ h
@[simp] theorem State.core_onArray_other (s : State) (lc n : Nat) (a : Arr) (f : ArrayU → ArrayU) (h : n ≠ lc) :
    (s.onArray lc a f).core n = s.core n := State.core_setCore_other s lc n _ h

/-! ### Reads after updates, under the canonical form -/

@[simp] theorem seq_canon (lc : Nat) (h : Canon s) : (s.core lc).seq.Canon := (h.1.2 lc).1
@[simp] theorem scp_canon (lc : Nat) (h : Canon s) : (s.core lc).scp.Canon := (h.1.2 lc).2
@[simp] theorem Sequencer.onEng_keeps (q : Sequencer) (e : Eng) (f : Engine → Engine) (h : q.Canon) : (q.onEng e f).Canon :=
  Sequencer.onEng_canon e f h
@[simp] theorem Sequencer.eng_onEng_same (q : Sequencer) (e : Eng) (f : Engine → Engine) (h : q.Canon) : (q.onEng e f).eng e = f (q.eng e) :=
  Sequencer.eng_onEng q e f h.1
@[simp] theorem Sequencer.onQueue_keeps (q : Sequencer) (n : Nat) (f : Queue → Queue) (h : q.Canon) : (q.onQueue n f).Canon :=
  Sequencer.onQueue_canon n f h
@[simp] theorem Sequencer.queue_onQueue_same (q : Sequencer) (n : Nat) (f : Queue → Queue) (h : q.Canon) : (q.onQueue n f).queue n = f (q.queue n) :=
  Sequencer.queue_onQueue q n f h.2.1
@[simp] theorem Sequencer.onGrp_keeps (q : Sequencer) (g : BitVec 12) (f : Group → Group) (h : q.Canon) : (q.onGrp g f).Canon :=
  Sequencer.onGrp_canon g f h
@[simp] theorem Sequencer.grp_onGrp_same (q : Sequencer) (g : BitVec 12) (f : Group → Group) (h : q.Canon) : (q.onGrp g f).grp g = f (q.grp g) :=
  Sequencer.grp_onGrp q g f h.2.2.1
@[simp] theorem Sequencer.onWin_keeps (q : Sequencer) (w : BitVec 12) (f : Window → Window) (h : q.Canon) : (q.onWin w f).Canon :=
  Sequencer.onWin_canon w f h
@[simp] theorem Sequencer.win_onWin_same (q : Sequencer) (w : BitVec 12) (f : Window → Window) (h : q.Canon) : (q.onWin w f).win w = f (q.win w) :=
  Sequencer.win_onWin q w f h.2.2.2.1
@[simp] theorem State.onEng_keeps (lc : Nat) (e : Eng) (f : Engine → Engine) (h : Canon s) : Canon (s.onEng lc e f) := State.onEng_canon lc e f h
@[simp] theorem State.core_onEng_same (lc : Nat) (e : Eng) (f : Engine → Engine) (h : Canon s) :
    (s.onEng lc e f).core lc = { s.core lc with seq := (s.core lc).seq.onEng e f } := State.core_onEng s lc e f h.1.1
@[simp] theorem State.onQueue_keeps (lc : Nat) (n : Nat) (f : Queue → Queue) (h : Canon s) : Canon (s.onQueue lc n f) := State.onQueue_canon lc n f h
@[simp] theorem State.core_onQueue_same (lc : Nat) (n : Nat) (f : Queue → Queue) (h : Canon s) :
    (s.onQueue lc n f).core lc = { s.core lc with seq := (s.core lc).seq.onQueue n f } := State.core_onQueue s lc n f h.1.1
@[simp] theorem State.onArray_keeps (lc : Nat) (a : Arr) (f : ArrayU → ArrayU) (h : Canon s) : Canon (s.onArray lc a f) := State.onArray_canon lc a f h
@[simp] theorem State.core_onArray_same (lc : Nat) (a : Arr) (f : ArrayU → ArrayU) (h : Canon s) :
    (s.onArray lc a f).core lc = (s.core lc).onArray a f := State.core_onArray s lc a f h.1.1
@[simp] theorem State.core_onSeq_same (lc : Nat) (f : Sequencer → Sequencer) (h : Canon s) :
    (s.onSeq lc f).core lc = { s.core lc with seq := f (s.core lc).seq } := State.core_onSeq s lc f h.1.1
@[simp] theorem State.core_onScp_same (lc : Nat) (f : Scratch → Scratch) (h : Canon s) :
    (s.onScp lc f).core lc = { s.core lc with scp := f (s.core lc).scp } := State.core_onScp s lc f h.1.1
@[simp] theorem State.core_onInteg_same (lc : Nat) (f : Integrity → Integrity) (h : Canon s) :
    (s.onInteg lc f).core lc = { s.core lc with integ := f (s.core lc).integ } := State.core_onInteg s lc f h.1.1
@[simp] theorem State.core_onCore_same (lc : Nat) (f : Core → Core) (h : Canon s) : (s.onCore lc f).core lc = f (s.core lc) :=
  State.core_onCore s lc f h.1.1
@[simp] theorem State.core_setCore_same (lc : Nat) (c : Core) (h : Canon s) : (s.setCore lc c).core lc = c :=
  State.core_setCore s lc c h.1.1
@[simp] theorem State.onPort_keeps (n : Nat) (f : Port → Port) (h : Canon s) : Canon (s.onPort n f) := State.onPort_canon n f h
@[simp] theorem State.port_onPort_same (n : Nat) (f : Port → Port) (h : Canon s) : (s.onPort n f).port n = f (s.port n) :=
  State.port_onPort s n f h.2.2.1
@[simp] theorem State.onOptic_keeps (n : Nat) (f : Optic → Optic) (h : Canon s) : Canon (s.onOptic n f) := State.onOptic_canon n f h
@[simp] theorem State.optic_onOptic_same (n : Nat) (f : Optic → Optic) (h : Canon s) : (s.onOptic n f).optic n = f (s.optic n) :=
  State.optic_onOptic s n f h.2.2.2.1
@[simp] theorem State.onSlice_keeps (n : Nat) (f : Slice → Slice) (h : Canon s) : Canon (s.onSlice n f) := State.onSlice_canon n f h
@[simp] theorem State.slice_onSlice_same (n : Nat) (f : Slice → Slice) (h : Canon s) : (s.onSlice n f).slice n = f (s.slice n) :=
  State.slice_onSlice s n f h.2.1.2.2.1
@[simp] theorem State.onStk_keeps (n : Nat) (f : Stack → Stack) (h : Canon s) : Canon (s.onStk n f) := State.onStk_canon n f h
@[simp] theorem State.stk_onStk_same (n : Nat) (f : Stack → Stack) (h : Canon s) : (s.onStk n f).stk n = f (s.stk n) :=
  State.stk_onStk s n f h.2.1.2.2.2.1
@[simp] theorem State.onFlow_keeps (n : Nat) (f : Flow → Flow) (h : Canon s) : Canon (s.onFlow n f) := State.onFlow_canon n f h
@[simp] theorem State.flow_onFlow_same (n : Nat) (f : Flow → Flow) (h : Canon s) : (s.onFlow n f).flow n = f (s.flow n) :=
  State.flow_onFlow s n f h.2.2.2.2.1.1
@[simp] theorem State.onPair_keeps (n : Nat) (f : Pair → Pair) (h : Canon s) (hf : (s.pair n).Canon → (f (s.pair n)).Canon) :
    Canon (s.onPair n f) := State.onPair_canon n f h hf
@[simp] theorem State.pair_onPair_same (n : Nat) (f : Pair → Pair) (h : Canon s) : (s.onPair n f).pair n = f (s.pair n) :=
  State.pair_onPair s n f h.2.2.2.2.2.1.1
@[simp] theorem State.onJob_keeps (n : Nat) (f : Job → Job) (h : Canon s) : Canon (s.onJob n f) := State.onJob_canon n f h
@[simp] theorem State.job_onJob_same (n : Nat) (f : Job → Job) (h : Canon s) : (s.onJob n f).job n = f (s.job n) :=
  State.job_onJob s n f h.2.2.2.2.2.2.1.1
@[simp] theorem State.onSQueue_keeps (n : Nat) (f : SQueue → SQueue) (h : Canon s) : Canon (s.onSQueue n f) := State.onSQueue_canon n f h
@[simp] theorem State.squeue_onSQueue_same (n : Nat) (f : SQueue → SQueue) (h : Canon s) : (s.onSQueue n f).squeue n = f (s.squeue n) :=
  State.squeue_onSQueue s n f h.2.2.2.2.2.2.1.2
@[simp] theorem State.onDom_keeps (n : Nat) (f : Domain → Domain) (h : Canon s) : Canon (s.onDom n f) := State.onDom_canon n f h
@[simp] theorem State.dom_onDom_same (n : Nat) (f : Domain → Domain) (h : Canon s) : (s.onDom n f).dom n = f (s.dom n) :=
  State.dom_onDom s n f h.2.2.2.2.2.2.2

/-- An engine after its update. -/
@[simp] theorem State.eng_onEng (lc : Nat) (e : Eng) (f : Engine → Engine) (h : Canon s) :
    (s.onEng lc e f).eng lc e = f (s.eng lc e) := by
  simp [State.eng, h]

/-- An update of a core's sequencer that leaves the stop count's registers and an engine leaves what a retirement meets. -/
theorem goesOn_onSeq (lc : Nat) (e : Eng) (f : Sequencer → Sequencer) (h : Canon s)
    (he : ∀ q, (f q).noStop e ((f q).eng e) = q.noStop e (q.eng e) ∧ ((f q).eng e).hasMore = (q.eng e).hasMore) :
    goesOn (s.onSeq lc f) lc e = goesOn s lc e := by
  simp only [goesOn, noStopCount, State.eng, State.core_onSeq _ _ _ h.1.1, (he _).1, (he _).2]

/-- A command that may begin meets no wait of its row. -/
theorem admit_hold {r : Row} {op lc : Nat} {e : Eng} {c : Ctx} (h : admission r op s lc e = .go c) : r.hold s c = none := by
  unfold admission at h
  dsimp only at h
  split at h
  · cases h
  split at h
  · cases h
  · iterate 12 (try (split at h <;> first | (cases h; done) | skip))
    cases h
    assumption

/-- A command that may begin passes the checks of its row. -/
theorem admit_check {r : Row} {op lc : Nat} {e : Eng} {c : Ctx} (h : admission r op s lc e = .go c) :
    checkErr r s c = none := by
  unfold admission at h
  dsimp only at h
  split at h
  · cases h
  split at h
  · cases h
  · iterate 12 (try (split at h <;> first | (cases h; done) | skip))
    cases h
    assumption

end Sys2Proof.Machine
end

