-- ==== Sys2Proof/WellFormed.lean ====
section
/-! DEFINITION. When a command is well formed: its operands have the lengths the spec gives what they carry. A meaning
does not rest on it: a list that is too short reads as zeros and one that is too long is cut. -/

namespace Sys2Proof

/-- A miscorrected unit carries its 64 bytes (R187). -/
def Upset.wf : Upset → Bool
  | .miscorrected b => b.length == 64
  | .clean | .correctable | .uncorrectable => true

/-- A CXL.mem write carries 64 bytes (R293). -/
def HostMem.wf : HostMem → Bool
  | .write _ b _ => b.length == 64
  | .read => true

/-- A frame is at least its addresses, its type and its FCS, and its tags lie in it (R204). -/
def Frame.wf (f : Frame) : Bool := decide (18 + 4 * f.tags.length ≤ f.len)

/-- What a start meets: a SHA-256 digest (R379), a byte of lanes for each of the 16 stacks, the positions of each of
the 8 optical engines. -/
def Boot.wf (b : Boot) : Bool := b.digest.length == 32 && b.lanes.length == 16 && b.good.length == 8

/-- The failing cores are named once. -/
def Stage5.wf (r : Stage5) : Bool := decide r.failed.Nodup

/-- A packet's payload is 1 to 8,192 B (R226). -/
def payloadOk (b : List Byte) : Bool := !b.isEmpty && decide (b.length ≤ 8192)

/-- Is a command well formed. -/
def Instr.wf : Instr → Bool
  | .windowWrite _ _ _ w _ data => data.length == w.xferLen.toNat
  | .xbarRead _ _ _ _ u => u.wf
  | .xbarWrite _ _ _ data _ _ => data.length == 256
  | .sliceMissFill _ u => u.wf
  | .stackRead _ u => u.wf
  | .stackWrite _ _ data _ u => data.length == 64 && u.wf
  | .inPlaceAdd unit _ data _ u => unit.toNat % 64 == 0 && data.length == 64 && u.wf
  | .patrolScrub _ u => u.wf
  | .bisnpResponse _ dirty => dirty.all (fun x => x.1.length == 64)
  | .hostMemRequest _ r _ => r.wf
  | .frameReceive _ fr => fr.wf
  | .pfcFrameRx _ quanta _ => quanta.length == 8
  | .hiSerTimer _ corrected received _ _ _ => decide (corrected ≤ received)
  | .writeWin _ _ data => payloadOk data
  | .writeDram _ _ data => payloadOk data
  | .addDram _ _ data => payloadOk data
  | .readResp _ _ _ err data => if err then data.isEmpty else payloadOk data
  | .contextLoad _ _ place => decide (place.map (·.1)).Nodup
  | .cfgStart b _ => b.wf
  | .fwUpdateDone _ b _ => b.wf
  | .damperSample _ _ tileW _ => tileW.length == 16
  | .thermalSample _ _ unc _ => unc.length == 3
  | .stackThermalSample _ temps _ => temps.length == 4
  | .tripRelease temps => temps.length == 160
  | .pwrGoodRise b _ _ => b.wf
  | .startStage5 r _ => r.wf
  | .bankedRestart b _ => b.wf
  | .mc0WatchdogExpiry _ b _ => b.wf
  | .hdmDecoderCommit _ hpa dpa size ways => decide (hpa < 2 ^ 64) && decide (dpa < 2 ^ 64) && decide (size < 2 ^ 64) && decide (1 ≤ ways)
  | .nop .. | .stop .. | .loop .. | .endloop .. | .codeSwap .. | .waitQ .. | .waitGrp .. | .waitBar ..
  | .waitWin .. | .barArrive .. | .qCfg .. | .qPush .. | .grpOpen .. | .grpCommit .. | .grpAbort .. | .winOpen ..
  | .winClose .. | .mm .. | .mmWin3d .. | .mmTongs .. | .tongsPairStart .. | .gatherTile .. | .vxAdd .. | .vxMul ..
  | .vxFma .. | .vxMax .. | .vxMin .. | .vxSel .. | .vxCvt .. | .vxExp .. | .vxLog .. | .vxRecip .. | .vxRsqrt ..
  | .vxSqrt .. | .vxTanh .. | .vxSigm .. | .vxSincos .. | .vxRsum .. | .vxRmax .. | .vxScan .. | .vxQuant ..
  | .vxSmx .. | .redMax .. | .redMin .. | .redTopk .. | .redHist .. | .chainAdd .. | .dmaCopy .. | .commandFetch ..
  | .arraySwap .. | .tileDrainStart .. | .tileDrainEnd .. | .sequencerMismatch .. | .parityError .. | .taskStop ..
  | .implicitWaitTimeout .. | .explicitWaitTimeout .. | .winOpenQuiet .. | .chainConfirm .. | .slicePrepare ..
  | .groupCommitPoint .. | .sliceCommit .. | .eccWriteback .. | .sectionPowerEntry .. | .sectionWake ..
  | .sectionWakeDone .. | .parkCopyHome .. | .stackRefresh .. | .targetedScrub .. | .hostSnoop ..
  | .apertureCompletion .. | .arpRequest .. | .neighbourSolicitation .. | .icmpEchoRequest ..
  | .pauseQuantaExpiry .. | .lldpTimer .. | .portUp .. | .trainingRetry .. | .lossOfSignal .. | .faultReceived ..
  | .portRetrain .. | .laserEol .. | .oeOvertemp .. | .opticsRailFail .. | .readReq .. | .ack .. | .credit ..
  | .touch .. | .strike .. | .group .. | .barrier .. | .setup .. | .setupAck .. | .teardown ..
  | .contextFetchDone .. | .ackTimer .. | .reorderTimeout .. | .rtoExpiry .. | .retxLimit .. | .setupRetry ..
  | .closingTimeout .. | .mc3Restart .. | .ptpMessageRx .. | .ptpEventTx .. | .ptpSyncLoss .. | .cxlPerstAssert ..
  | .cxlPerstRelease .. | .hotReset .. | .functionLevelReset .. | .cxlLinkDown .. | .cxlLinkUp .. | .mbxScan ..
  | .fwInfo .. | .heartbeat .. | .hostReturn .. | .licenceInstall .. | .attestRequest .. | .attestSign ..
  | .configStage .. | .configApply .. | .applyAdopt .. | .queueCreate .. | .queueDestroy .. | .contextUnload ..
  | .jobSubmit .. | .jobCancel .. | .jobStart .. | .preemptSaveDone .. | .jobComplete .. | .coreHandover ..
  | .hostTimeout .. | .hostDrain .. | .heldMessageDelivery .. | .mbxReset .. | .stageDiscard .. | .fwUpdateGo ..
  | .secUnlockSignature .. | .secUnlockPassword .. | .nonceRead .. | .errlogSelect .. | .errlogFetchDone ..
  | .loReadLatch .. | .w1cWrite .. | .registerWrite .. | .boardConfigRecord .. | .scpCorrLogHourly ..
  | .stepPolicy .. | .parkTimer .. | .corePark .. | .unparkTimer .. | .thermalTrip .. | .coolantOkFall ..
  | .coolantOkRise .. | .quench .. | .coolantRestart .. | .shunt .. | .clamp .. | .clockStretch ..
  | .temperReading .. | .temperHourly .. | .temperSave .. | .phaseFailure .. | .domainShort .. | .crackCheck ..
  | .tileFailure .. | .stackRailFail .. | .alwaysOnFail .. | .retentionEntry .. | .switchOnGrant ..
  | .grantTimeout .. | .switchOnDone .. | .stepChange .. | .deferredStepSwitch .. | .refLost ..
  | .optHoldoverExpiry .. | .timeBeacon .. | .pwrGoodFall .. | .vddioLow .. | .vinOutOfRange ..
  | .deviceLevelFault .. | .mcHeartbeatMiss .. | .jtagBypass .. | .jtagIdcode .. | .jtagSamplePreload ..
  | .jtagExtest .. | .jtagUnlock .. | .smbusOffsetWrite .. | .smbusRead .. | .smbusAlertResponse ..
  | .smbusClockTimeout .. | .smbusMirrorRefresh .. | .cacheEnable .. | .configurationRequest .. | .faultCleared ..
  | .refRestored .. | .vddioRestored .. | .vin48Restored .. | .standbyRestartDone .. | .gatewayResolved ..
  | .secondLevelTreeReady .. => true

end Sys2Proof
end

