-- ==== Sys2Proof/Tests/Slice0.lean ====
section
/-! SUPPORT. Tests: ill-formed commands are refused, the hypotheses of each statement are met by a small state, and what
the spec says of single steps. -/

set_option Elab.async false

open Sys2Proof Sys2Proof.Machine

/-! ### Small states -/

/-- A command word: opcode, queue-end bytes by slot, and body fields by low bit (R93). -/
def tWord (op : Nat) (slots body : List (Nat × Nat)) : Cmd :=
  BitVec.ofNat 256 (op + 0x200 + sumNat (slots.map (fun x => (128 + x.2) * 2 ^ (16 + 8 * x.1)))
    + sumNat (body.map (fun x => x.2 * 2 ^ x.1)))

/-- A list queue with one Ready entry. -/
def tIn (e : Eng) (d : Desc) : Queue :=
  { mode := 0, depth := 4, prod := 9, cons := e.code, entries := [{ desc := d, st := .ready }], made := 1 }

/-- An empty ring. -/
def tOut (e : Eng) (off : Nat) : Queue :=
  { mode := 1, depth := 2, prod := e.code, cons := 9, seg := 0, off := off, slotWords := 0x1000 }

/-- Core 0 with a running stream of one fetched command. -/
def tCore (e : Eng) (w : Cmd) (qs : List (Nat × Queue)) : Core :=
  { seq :=
      { task := some { job := 1 }
        segs := [(0, { base := 0, bound := 0x100000, attr := 0x1F }), (1, { base := 0x200000, bound := 0x10000, attr := 0x1F })]
        srcsets := Tbl.set {} [] 0 { nodeHi := 5, coreHi := 5, valid := true }
        winCount := 16
        queues := qs
        engines := Tbl.set {} [] e.code
          { status := .running, seg := 1, bound := 4096, fetchDone := false, fetched := [{ word := w }] } }
    mapState := 1 }

/-- The part with that core, training licensed. -/
def tState (e : Eng) (w : Cmd) (qs : List (Nat × Queue)) : State :=
  ({ mgmt := { tier := 1, stage := 6, up := 15 } } : State).setCore 0 (tCore e w qs)

/-- The front command of an engine of core 0, as its row sees it. -/
def headCtx (s : State) (e : Eng) : Ctx := frontCtx s 0 e ((s.eng 0 e).fetched.headD {})

/-- A check of `Begins` on core 0 that can be run. -/
def beginsB (r : Row) (op : Nat) (s : State) (e : Eng) : Bool :=
  let c := headCtx s e
  let q := (s.core 0).seq
  let g := s.eng 0 e
  engineRuns s 0 e && !(s.core 0).issuing e && g.fetched != [] && (g.fetched.headD {}).fault.isNone
    && decide (Cmd.op c.w = op) && (opEngines op).contains e
    && !(q.stopEnable && q.stopEngine.toNat == e.code && decide (g.begunCount ≥ q.stopN.toNat)) && !g.applyHold
    && g.begun == [] && (stepOne (s.core 0) c.w g.curGrp).isNone && decide (Cmd.ver c.w = 2)
    && (checkErr r s c).isNone && (r.hold s c).isNone

theorem beginsB_sound {r : Row} {op : Nat} {s : State} {e : Eng} (h : beginsB r op s e = true) :
    Begins r op s 0 e (headCtx s e) := by
  simp only [beginsB, Bool.and_eq_true, Bool.not_eq_true', decide_eq_true_eq, Option.isNone_iff_eq_none, beq_iff_eq,
    bne_iff_ne] at h
  obtain ⟨⟨⟨⟨⟨⟨⟨⟨⟨⟨⟨⟨h1, h2⟩, h3⟩, h4⟩, h5⟩, h6⟩, h7⟩, h8⟩, h9⟩, h10⟩, h11⟩, h12⟩, h13⟩ := h
  refine ⟨h1, h2, ?_, h5, h6, h7, h8, .inr (.inr (.inr h9)), by simp [h9], h10, .inl h11, h12, h13⟩
  cases hf : (s.eng 0 e).fetched with
  | nil => exact absurd hf h3
  | cons f l => exact ⟨f, l, rfl, by simpa [hf] using h4, by simp [headCtx, hf]⟩

/-- A check of `Canon` that can be run. -/
def canonB (s : State) : Bool :=
  let saved (v : Saved) : Bool :=
    Tbl.wf {} v.engines && Tbl.wf {} v.queues && Tbl.wf {} v.groups && v.vregs.wf
  let core (c : Core) : Bool :=
    Tbl.wf {} c.seq.engines && Tbl.wf {} c.seq.queues && Tbl.wf {} c.seq.groups && Tbl.wf {} c.seq.windows
      && c.seq.saved.all saved && c.scp.bytes.wf && c.scp.vregs.wf && Tbl.wf false c.scp.poison
      && Tbl.wf false c.scp.durable && Tbl.wf 0 c.scp.flips && Tbl.wf 0 c.scp.sect && Tbl.wf none c.scp.sectReq
      && Tbl.wf false c.scp.waking
  let pair (p : Pair) : Bool := p.h2d.wf && p.d2h.wf
  Tbl.wf {} s.cores && s.cores.all (fun x => core x.2) && s.mem.dram.wf && Tbl.wf false s.mem.poison
    && Tbl.wf {} s.mem.slices && Tbl.wf {} s.mem.stks && Tbl.wf .good s.mem.cond && Tbl.wf {} s.ports && Tbl.wf {} s.optics
    && Tbl.wf {} s.fab.flows && Tbl.wf {} s.fab.colls && Tbl.wf {} s.host.pairs && s.host.mem.wf
    && s.host.pairs.all (fun x => pair x.2) && Tbl.wf {} s.jobs.jobs && Tbl.wf {} s.jobs.queues
    && Tbl.wf {} s.pwr.domains

theorem get_of_all {α : Type} (P : α → Prop) (d : α) (t : Tbl α) (n : Nat) (hd : P d) (h : ∀ x ∈ t, P x.2) :
    P (Tbl.get d t n) := by
  induction t with
  | nil => exact hd
  | cons x r ih =>
    rw [Tbl.get]
    split
    · exact h x (List.mem_cons_self ..)
    · exact ih (fun y hy => h y (List.mem_cons_of_mem _ hy))

theorem canonB_sound (s : State) (h : canonB s = true) : Canon s := by
  simp only [canonB, Bool.and_eq_true, List.all_eq_true] at h
  obtain ⟨⟨⟨⟨⟨⟨⟨⟨⟨⟨⟨⟨⟨⟨⟨⟨h1, h2⟩, h3⟩, h4⟩, h5⟩, h6⟩, h7⟩, h8⟩, h9⟩, h10⟩, h11⟩, h12⟩, h13⟩, h14⟩, h15⟩, h16⟩, h17⟩ := h
  have hc (x) (hx : x ∈ s.cores) : x.2.Canon := by
    obtain ⟨⟨⟨⟨⟨⟨⟨⟨⟨⟨⟨⟨a1, a2⟩, a3⟩, a4⟩, a5⟩, a6⟩, a7⟩, a8⟩, a9⟩, a10⟩, a11⟩, a12⟩, a13⟩ := h2 x hx
    refine ⟨⟨a1, a2, a3, a4, fun v hv => ?_⟩, a6, a7, a8, a9, a10, a11, a12, a13⟩
    obtain ⟨⟨⟨b1, b2⟩, b3⟩, b4⟩ := a5 v hv
    exact ⟨b1, b2, b3, b4⟩
  exact ⟨⟨h1, fun lc => get_of_all Core.Canon _ _ _ (reset_canon.1.2 0) hc⟩, ⟨h3, h4, h5, h6, h7⟩, h8, h9, ⟨h10, h11⟩,
    ⟨h12, h13, fun n => get_of_all Pair.Canon _ _ _ ⟨rfl, rfl⟩ h14⟩, ⟨h15, h16⟩, h17⟩

/-! ### A stream's commands: each begins somewhere -/

/-- The front command of core 0's engine begins, and no stop follows its retirement. -/
def begins (r : Row) (op : Nat) (s : State) (e : Eng) : Bool := beginsB r op s e && goesOn s 0 e

/-- A 4 by 4 tile at a word offset. -/
def tDesc (off fmt : Nat) : Desc := { off := off, fmt := fmt, rows := 4, cols := 4 }

def sNop : State := tState .v (tWord 0x00 [] []) []
def sLoop : State := tState .v (tWord 0x02 [] [(64, 7), (96, 2), (128, 3)]) []
def sEndloop : State := tState .v (tWord 0x03 [] []) []
def sStop : State := tState .v (tWord 0x01 [] []) []
def sSwap : State := tState .s (tWord 0x04 [] [(96, 64), (128, 8)]) []
def sWaitQ : State := tState .v (tWord 0x08 [] [(64, 3), (70, 1), (96, 5)]) []
/-- wait.grp of group 5, in a given state. -/
def sWaitGrp (g : Group) : State := (tState .v (tWord 0x09 [] [(64, 5), (96, 5)]) []).onSeq 0 (fun q => q.onGrp 5 (fun _ => g))
def sWaitBar : State :=
  (tState .v (tWord 0x0A [] [(64, 3), (96, 6), (128, 5)]) []).onColl 3 (fun _ => { used := true, epoch := 7, members := 1 })
def sWaitWin (o : Bool) : State :=
  (tState .v (tWord 0x0B [] [(64, 3), (96, 1), (128, 5)]) []).onSeq 0 (fun q => q.onWin 3 (fun _ => { isOpen := o }))
/-- bar.arrive for an epoch of group 3, whose oldest incomplete epoch is 7; core 1 is a member too. -/
def sArrive (e : Nat) : State :=
  (tState .s (tWord 0x0C [] [(64, 3), (96, e)]) []).onColl 3 (fun _ => { used := true, epoch := 7, members := 3 })
def sQCfg : State := tState .s (tWord 0x10 [] [(64, 2), (70, 0), (72, 3), (78, 9), (82, 3)]) []
def sQPush : State := tState .s (tWord 0x11 [(4, 1)] [(96, 3), (128, 3), (160, 4)]) [(1, { mode := 0, depth := 4, prod := 9, cons := 3 })]
def sGrp (op : Nat) (g : Group) : State := (tState .s (tWord op [] [(64, 5)]) []).onSeq 0 (fun q => q.onGrp 5 (fun _ => g))
def sDetach : State := tState .s (tWord 0x14 [] [(76, 1)]) []
def sWinOpen : State := tState .s (tWord 0x18 [] [(64, 3), (96, 0x40), (128, 0x10)]) []
def sWinClose : State := (tState .s (tWord 0x19 [] [(64, 3)]) []).onSeq 0 (fun q => q.onWin 3 (fun _ => { isOpen := true, ever := true }))
/-- mm of two 4 by 4 FP16 tiles into an FP32 tile, drained. -/
def sMm : State :=
  tState .f (tWord 0x20 [(0, 1), (1, 2), (4, 3)] [(75, 1), (76, 255)]) [(1, tIn .f (tDesc 0 2)), (2, tIn .f (tDesc 0x100 2)), (3, tOut .f 0x1000)]
def sWin3d : State :=
  tState .f (tWord 0x21 [(0, 1), (1, 2), (4, 3)] [(159, 1), (208, 3)])
    [(1, tIn .f (tDesc 0 2)), (2, tIn .f (tDesc 0x100 2)), (3, tOut .f 0x1000)]
/-- Both halves of an mm.tongs with PAIR_TAG 7. -/
def sTongs (started : Bool) (tag : Nat) : State :=
  let w := tWord 0x22 [(0, 1), (1, 2), (2, 3), (4, 4), (5, 5)] [(240, 7)]
  let s := tState .g0 w [(1, tIn .g0 (tDesc 0 2)), (2, tIn .g0 (tDesc 0x100 2)), (3, tIn .g0 (tDesc 0x200 2)),
    (4, tOut .g0 0x1000), (5, tOut .g0 0x4000)]
  (s.onEng 0 .g1 (fun _ => { status := .running, bound := 4096, fetchDone := false,
                             fetched := [{ word := tWord 0x22 [] [(240, tag)] }] })).onSeq 0 (fun q => { q with pairStarted := started })
/-- gather.tile of entry 0 of a list from a table of one tile of 16 rows. -/
def sGather : State :=
  tState .f (tWord 0x23 [(0, 1), (1, 2), (4, 3)] [])
    [(1, tIn .f { fmt := 9 }), (2, tIn .f { off := 0x100, fmt := 2, rows := 16, cols := 4 }), (3, tOut .f 0x1000)]

/-- A vx command on registers: operands v1, v2, ... into v8, as FP32. -/
def sVx (op n : Nat) : State :=
  tState .v (tWord op [] ((128, 0xC8) :: (List.range n).map (fun i => (80 + 16 * (i % 3) + (if i = 3 then 64 else 0), 0xC1 + i)))) []
/-- A vx command on one FP32 tile, pushing its outputs. -/
def sVxTile (op : Nat) (outs : List Nat) (body : List (Nat × Nat)) : State :=
  tState .v (tWord op ((0, 1) :: outs.map (fun i => (4 + i, 3 + i))) ((80, 0x40) :: body))
    [(1, tIn .v (tDesc 0 0)), (3, tOut .v 0x1000), (4, tOut .v 0x4000)]
/-- vx.quant of a 4 by 32 tile to MXFP8. -/
def sQuant : State :=
  (sVxTile 0x43 [0] [(128, 0x40), (72, 5)]).onQueue 0 1 (fun _ => tIn .v { rows := 4, cols := 32 })
/-- A selection or a histogram over one tile. -/
def sRed (op fmt : Nat) (outs : List Nat) (body : List (Nat × Nat)) : State :=
  tState .q (tWord op ((0, 1) :: outs.map (fun i => (4 + i, 3 + i))) body)
    [(1, tIn .q (tDesc 0 fmt)), (3, tOut .q 0x1000), (4, tOut .q 0x4000)]
/-- chain.add of this core's own: a running sum that comes by window queue 2, and the tile it adds. -/
def sChain : State :=
  tState .q (tWord 0x54 [(0, 1), (1, 2), (4, 3)] [(64, 1)])
    [(1, tIn .q (tDesc 0 0)), (2, { tIn .q (tDesc 0x100 0) with mode := 2, prod := 0xA }), (3, tOut .q 0x1000)]
/-- dma.copy of a tile. -/
def sCopy : State := tState .d0 (tWord 0x60 [(0, 1), (4, 3)] []) [(1, tIn .d0 (tDesc 0 0)), (3, tOut .d0 0x1000)]
/-- chain.add of a chain's first member that adds its tile to this device's own DRAM. -/
def sDram : State :=
  (tState .q (tWord 0x54 [(0, 1)] [(64, 0), (70, 2), (96, 0x1000), (154, 1)]) [(1, tIn .q (tDesc 0 0))]).onSeq 0 (fun q =>
    { q with dranges := Tbl.set {} [] 0 { base := 0, len := 1, write := true, valid := true } })
/-- The identities of a queue's entries, as a check that can be run. -/
def idsB (q : Queue) : Bool := decide ((q.entries.map (·.id)).Nodup) && q.entries.all (fun e => decide (e.id < q.made))

theorem witness_StepRunsTheFrontCommand :
    ({ sNop with pending := [.nop 0 .v] } : State).pending = [.nop 0 .v] ∧ State.reset.pending = [] := ⟨rfl, rfl⟩

theorem witness_StepKeepsCanonicalForm : Canon State.reset ∧ step State.reset = .next State.reset := ⟨reset_canon, rfl⟩

theorem witness_ResetIsCanonical : (stgReg 0x04040004).isSome = true := by decide +kernel

theorem witness_ControlCommandsRetire :
    (Canon sNop ∧ Canon sLoop ∧ Canon sEndloop ∧ Canon sStop) ∧ begins (plainRow []) 0x00 sNop .v = true
      ∧ begins (plainRow [(64, 32), (96, 5), (128, 16)]) 0x02 sLoop .v = true ∧ begins (plainRow []) 0x03 sEndloop .v = true
      ∧ begins (plainRow []) 0x01 sStop .v = true :=
  ⟨⟨canonB_sound _ (by decide +kernel), canonB_sound _ (by decide +kernel), canonB_sound _ (by decide +kernel),
    canonB_sound _ (by decide +kernel)⟩, by decide +kernel⟩

/-- The least BOUND, 8 words. -/
theorem witness_CodeSwapMovesTheStream :
    Canon sSwap ∧ begins codeSwapRow 0x04 sSwap .s = true ∧ noStopCount sSwap 0 .s = true
      ∧ (let w := (headCtx sSwap .s).w
        fld w 96 23 % 8 = 0 ∧ fld w 128 23 = 8
          ∧ (sSwap.core 0).seq.extentErr (fld w 64 3) (fld w 96 23 + fld w 128 23) permExec = none) :=
  ⟨canonB_sound _ (by decide +kernel), by decide +kernel⟩

/-- wait.grp of a group never opened, committed, aborted and open. -/
theorem witness_ExplicitWaitsCompleteOrWait :
    Canon sWaitQ ∧ begins waitQRow 0x08 sWaitQ .v = true
      ∧ (∀ g ∈ [({} : Group), { st := .resolved }, { st := .resolved, aborted := true, reason := 0x29 }, { st := .opened },
            { st := .committing }],
          canonB (sWaitGrp g) = true ∧ begins (plainRow [(64, 12), (96, 20)]) 0x09 (sWaitGrp g) .v = true
            ∧ ((sWaitGrp g).core 0).seq.grp 5 = g)
      ∧ canonB sWaitBar = true ∧ begins (plainRow [(64, 20), (96, 32), (128, 20)]) 0x0A sWaitBar .v = true
      ∧ ∀ o : Bool, canonB (sWaitWin o) = true
        ∧ begins (plainRow [(64, 12), (96, 32), (128, 20)]) 0x0B (sWaitWin o) .v = true :=
  ⟨canonB_sound _ (by decide +kernel), by decide +kernel⟩

/-- Epochs E, E + 1 and E + 2, and wait.bar for the latest complete one. -/
theorem witness_TwoEpochsAreTracked :
    Canon sWaitBar ∧ (∀ e ∈ [7, 8, 9], canonB (sArrive e) = true ∧ ((sArrive e).coll 3).used = true
        ∧ ((sArrive e).coll 3).epoch = 7
        ∧ begins { barArriveRow with hold := fun _ _ => none } 0x0C (sArrive e) .s = true
        ∧ fld (headCtx (sArrive e) .s).w 96 32 = e)
      ∧ goesOn (((sArrive 7).onColl 3 (fun g => { g with arrived := g.arrived ||| 1 })).collPump 3) 0 .s = true
      ∧ begins (plainRow [(64, 20), (96, 32), (128, 20)]) 0x0A sWaitBar .v = true ∧ (sWaitBar.coll 3).used = true :=
  ⟨canonB_sound _ (by decide +kernel), by decide +kernel⟩

theorem witness_QueueCommandsAct :
    Canon sQCfg ∧ begins qCfgRow 0x10 sQCfg .s = true ∧ canonB sQPush = true ∧ begins qPushRow 0x11 sQPush .s = true :=
  ⟨canonB_sound _ (by decide +kernel), by decide +kernel⟩

/-- Each command of a group in each state the statement names, DETACH included. -/
theorem witness_GroupCommandsAct :
    Canon sDetach ∧ begins grpOpenRow 0x14 sDetach .s = true
      ∧ (∀ g ∈ [({} : Group), { st := .opened }], canonB (sGrp 0x14 g) = true ∧ begins grpOpenRow 0x14 (sGrp 0x14 g) .s = true)
      ∧ (∀ g ∈ [({} : Group), { st := .resolved }, { st := .resolved, aborted := true }, { st := .committing }, { st := .opened }],
          canonB (sGrp 0x15 g) = true ∧ begins grpCommitRow 0x15 (sGrp 0x15 g) .s = true
            ∧ ((sGrp 0x15 g).core 0).seq.grp 5 = g)
      ∧ (let s := sGrp 0x15 { st := .opened }
        commitReady ((s.onEng 0 .s (fun x => { x with curGrp := none })).waitOn (headCtx s .s) 0) 0 5
          (.loc 0 5) = true)
      ∧ (let s := (sGrp 0x15 { st := .opened }).onEng 0 .v (fun e => { e with curGrp := some 5 })
        canonB s = true ∧ begins grpCommitRow 0x15 s .s = true
          ∧ commitReady ((s.onEng 0 .s (fun x => { x with curGrp := none })).waitOn (headCtx s .s) 0) 0 5
            (.loc 0 5) = false)
      ∧ (∀ g ∈ [({} : Group), { st := .opened }, { st := .committing }],
          canonB (sGrp 0x16 g) = true ∧ begins (plainRow [(64, 12)]) 0x16 (sGrp 0x16 g) .s = true
            ∧ goesOn ((sGrp 0x16 g).abortGroup 0 5 eGroupAborted) 0 .s = true) :=
  ⟨canonB_sound _ (by decide +kernel), by decide +kernel⟩

theorem witness_WindowsOpenAndClose :
    Canon sWinOpen ∧ begins winOpenRow 0x18 sWinOpen .s = true ∧ canonB sWinClose = true
      ∧ begins winCloseRow 0x19 sWinClose .s = true ∧ ((sWinClose.core 0).seq.win 3).isOpen = true :=
  ⟨canonB_sound _ (by decide +kernel), by decide +kernel⟩

theorem witness_ArrayCommandsTakeEffect :
    Canon sMm ∧ beginsB (mmRow false) 0x20 sMm .f = true ∧ canonB sWin3d = true ∧ beginsB (mmRow true) 0x21 sWin3d .f = true
      ∧ canonB (sTongs true 7) = true ∧ ((sTongs true 7).core 0).seq.pairStarted = true
      ∧ beginsB tongsRow 0x22 (sTongs true 7) .g0 = true :=
  ⟨canonB_sound _ (by decide +kernel), by decide +kernel⟩

/-- Equal tags, tags that differ, and each half alone; a list of one entry. -/
theorem witness_PairsStartAndGathersPush :
    (∀ tag ∈ [7, 8], let s := sTongs false tag
      (s.core 0).seq.pairStarted = false ∧ beginsB tongsRow 0x22 s .g0 = true ∧ beginsB tongsHalfRow 0x22 s .g1 = true)
      ∧ (let s := (sTongs false 7).onEng 0 .g1 (fun g => { g with fetched := [] })
        beginsB tongsRow 0x22 s .g0 = true ∧ tongsHalf s 0 .g1 = none)
      ∧ (let s := (sTongs false 7).onEng 0 .g0 (fun g => { g with fetched := [] })
        beginsB tongsHalfRow 0x22 s .g1 = true ∧ tongsHalf s 0 .g0 = none)
      ∧ Canon sGather ∧ begins gatherRow 0x23 sGather .f = true ∧ ((sGather.core 0).seq.queue 3).entries = []
      ∧ (sGather.core 0).scp.flips = [] ∧ (sGather.core 0).scp.wbPend = [] :=
  ⟨by decide +kernel, by decide +kernel, by decide +kernel, canonB_sound _ (by decide +kernel), by decide +kernel⟩

/-- Nothing stands against a command of one output: what it reads is sound and not poisoned, and its slot lies clear of
the code. -/
def readyB (s : State) (e : Eng) (fmt rows cols : Nat) : Bool :=
  let c := headCtx s e
  canonB s && (s.core 0).scp.flips == [] && (s.core 0).scp.wbPend == [] && !(readInputs s c).1.any (·.poison)
    && !(s.core c.lc).codeHit (outRuns s c 0 fmt rows cols) && c.grp == none

theorem clear_one {s : State} {e : Eng} {y : Tile} (h : readyB s e y.fmt y.rows y.cols = true) :
    outsClear s (headCtx s e) [y] := by
  simp only [readyB, Bool.and_eq_true, Bool.not_eq_true', beq_iff_eq] at h
  refine ⟨fun i x hx => ?_, fun i j x z hij hx hz => ?_, .inl h.2⟩
  · cases i with
    | zero => cases hx; exact h.1.2
    | succ i => simp at hx
  · cases i <;> cases j <;> simp at hx hz hij

theorem toLE_length (k n : Nat) : (toLE k n).length = k := by
  induction k generalizing n with
  | zero => rfl
  | succ k ih => simp [toLE, ih]

/-- The bytes of a tile of plain codes. -/
theorem grid_bytes (fmt rows cols : Nat) (f : Nat → Nat → Nat) :
    ({ fmt := fmt, rows := rows, cols := cols, codes := grid rows cols f } : Tile).bytes.length
      = rows * (4 * packedWords fmt cols) := by
  simp [Tile.bytes, grid, packCodes, toLE_length, List.length_flatMap, Function.comp_def, List.map_const']

/-- Two outputs, their formats and shapes given, in slots of their own. -/
def readyTwoB (s : State) (e : Eng) (f0 r0 c0 f1 r1 c1 : Nat) : Bool :=
  let c := headCtx s e
  readyB s e f0 r0 c0 && !(s.core 0).codeHit (outRuns s c 1 f1 r1 c1)
    && decide (slotStart s c 0 { fmt := f0, rows := r0, cols := c0 } + r0 * (4 * packedWords f0 c0)
        ≤ slotStart s c 1 { fmt := f1, rows := r1, cols := c1 })

theorem clear_two {s : State} {e : Eng} {f0 r0 c0 f1 r1 c1 : Nat} (h : readyTwoB s e f0 r0 c0 f1 r1 c1 = true)
    (f g : Nat → Nat → Nat) :
    outsClear s (headCtx s e)
      [{ fmt := f0, rows := r0, cols := c0, codes := grid r0 c0 f }, { fmt := f1, rows := r1, cols := c1, codes := grid r1 c1 g }] := by
  simp only [readyTwoB, readyB, Bool.and_eq_true, Bool.not_eq_true', beq_iff_eq, decide_eq_true_eq] at h
  obtain ⟨⟨⟨⟨-, h1⟩, hg⟩, h2⟩, h3⟩ := h
  rw [← grid_bytes f0 r0 c0 f] at h3
  refine ⟨fun i z hz => ?_, fun i j z w hij hz hw => ?_, .inl hg⟩
  · match i with
    | 0 => cases hz; exact h1
    | 1 => cases hz; exact h2
    | i + 2 => simp at hz
  · match i, j with
    | 0, 0 => exact absurd rfl hij
    | 0, 1 => cases hz; cases hw; exact .inl h3
    | 1, 0 => cases hz; cases hw; exact .inr h3
    | 1, 1 => exact absurd rfl hij
    | i + 2, _ => simp at hz
    | _, j + 2 => simp at hw

/-- Every command on registers, where no output need lie clear; and on a tile, whose slot lies clear. -/
theorem witness_VectorElementCommandsComplete :
    (∀ op ∈ [0x30, 0x31, 0x33, 0x34], begins (vxRow vxKindAdd) op (sVx op 2) .v = true)
      ∧ begins (vxRow vxKindFma) 0x32 (sVx 0x32 3) .v = true ∧ begins (vxRow vxKindSel) 0x35 (sVx 0x35 4) .v = true
      ∧ (∀ op ∈ [0x38, 0x39], begins (vxRow vxKindTr2) op (sVx op 1) .v = true)
      ∧ (∀ op ∈ [0x3A, 0x3B, 0x3C, 0x3D, 0x3E], begins (vxRow vxKindTr) op (sVx op 1) .v = true)
      ∧ selKind (vxDest (headCtx (sVx 0x30 2) .v).w) ≠ 1 ∧ readyB (sVx 0x30 2) .v 0 0 0 = true
      ∧ (let s := sVxTile 0x30 [0] [(96, 0xC2), (128, 0x40)]
        begins (vxRow vxKindAdd) 0x30 s .v = true ∧ vxShape (headCtx s .v) = (4, 4) ∧ readyB s .v 0 4 4 = true) := by
  decide +kernel

/-- vx.cvt on registers; vx.sincos into two tiles; a step of vx.smx. -/
theorem witness_VectorConversionsAndSoftmaxComplete :
    (begins (vxRow vxKindCvt) 0x36 (sVx 0x36 1) .v = true ∧ selKind (vxDest (headCtx (sVx 0x36 1) .v).w) ≠ 1)
      ∧ (let s := sVxTile 0x3F [0, 1] [(128, 0x40)]
        begins (vxRow vxKindSc) 0x3F s .v = true ∧ vxShape (headCtx s .v) = (4, 4) ∧ readyTwoB s .v 0 4 4 0 4 4 = true
          ∧ vxDestFmt (headCtx s .v) = 0)
      ∧ (let s := sVxTile 0x44 [0] [(72, 1)]
        begins smxRow 0x44 s .v = true ∧ readyB s .v (vxOut (headCtx s .v).w) 4 4 = true ∧ smxFinish (headCtx s .v).w = false) := by
  decide +kernel

theorem witness_VectorRowCommandsComplete :
    (∀ x ∈ [(vxKindRsum, 0x40), (vxKindRmax, 0x41)], let s := sVxTile x.2 [] [(128, 0xC8)]
      begins (vxRow x.1) x.2 s .v = true ∧ readyB s .v 0 0 0 = true ∧ selKind (vxDest (headCtx s .v).w) ≠ 1)
      ∧ (let s := sVxTile 0x42 [0] [(128, 0x40)]
        begins (vxRow vxKindScan) 0x42 s .v = true ∧ readyB s .v 0 4 4 = true ∧ vxDestFmt (headCtx s .v) = 0)
      ∧ begins (vxRow vxKindQuant) 0x43 sQuant .v = true ∧ readyB sQuant .v 5 4 32 = true
      ∧ vxOut (headCtx sQuant .v).w = 5 := by
  decide +kernel

/-- The least and the most candidates: k = 1 and k = 64; a histogram that pushes nothing. -/
theorem witness_ReductionUnitCompletes :
    (∀ op ∈ [0x50, 0x51], let s := sRed op 0 [0, 1] []
      begins (redRow (fun _ => false) (fun w => redSub w ≠ 0 || redK w ≠ 1 || histFieldsSet w)) op s .q = true
        ∧ readyTwoB s .q 0 4 1 0xA 4 1 = true ∧ redAxis (headCtx s .q).w = false)
      ∧ (∀ k ∈ [1, 64], let s := sRed 0x52 0 [0, 1] [(72, k - 1)]
        begins (redRow (fun w => redSub w == 1) (fun w => redSub w ≥ 2 || histFieldsSet w)) 0x52 s .q = true
          ∧ redK (headCtx s .q).w = k ∧ readyTwoB s .q 0 4 k 0xA 4 k = true ∧ redAxis (headCtx s .q).w = false)
      ∧ (let s := sRed 0x53 9 [] [(81, 15)]
        begins histRow 0x53 s .q = true ∧ readyB s .q 0 0 0 = true ∧ redEmit (headCtx s .q).w = false) := by
  decide +kernel

/-- chain.add of a running sum of this core's, and the first member's into this device's own DRAM; a local copy. -/
theorem witness_ChainAddAndCopiesComplete :
    begins (chainRow sChain) 0x54 sChain .q = true ∧ chainDest (headCtx sChain .q).w = 0
      ∧ (∀ i ∈ (headCtx sChain .q).ins, i.ent.prov = none) ∧ (sChain.core 0).scp.pend = [] ∧ (sChain.core 0).scp.away = []
      ∧ readyB sChain .q (chainFmt (headCtx sChain .q).w) 4 4 = true
      ∧ begins (chainRow sDram) 0x54 sDram .q = true ∧ chainDest (headCtx sDram .q).w = 2 ∧ dramHere sDram (headCtx sDram .q).w = true
      ∧ (headCtx sDram .q).ins.length = 1 ∧ readyB sDram .q 0 0 0 = true ∧ sDram.mem = {}
      ∧ begins dmaRow 0x60 sCopy .d0 = true ∧ dmaKind (headCtx sCopy .d0).w = 0 ∧ readyB sCopy .d0 0 4 4 = true
      ∧ (∀ s ∈ [sChain, sDram, sCopy], ((s.core 0).seq.queues.all (fun q => idsB q.2)) = true) := by
  decide +kernel

theorem witness_PushedTileStandsInItsSlot :
    let c := headCtx sCopy .d0
    Canon sCopy ∧ (sCopy.pushTile c 0 0 4 4 (mbMark false (List.replicate 64 7))).isSome = true ∧ c.grp = none
      ∧ (sCopy.core 0).scp.flips = [] ∧ (sCopy.core 0).scp.wbPend = [] :=
  ⟨canonB_sound _ (by decide +kernel), by decide +kernel⟩

/-! ### Events inside a core -/

/-- The state a command leaves. -/
def after (i : Instr) (s : State) : State :=
  match exec i s with
  | .next t => t
  | _ => s

/-- A running stream with nothing fetched. -/
def sFetch : State := (tState .v 0 []).onEng 0 .v (fun g => { g with fetched := [] })
/-- An mm that has begun, its pass issued, its tile draining. -/
def sBegun : State := after (.mm 0 .f) sMm
def sIssued : State := after (.arraySwap 0 .f .issue none) sBegun
def sDraining : State := after (.tileDrainStart 0) sIssued
/-- A task whose stream stopped. -/
def sEnded : State := after (.stop 0 .v) sStop
/-- A wait of wait.bar with a limit of 5 µs that has begun at 0. -/
def sWaiting : State := after (.waitBar 0 .v) (sWaitBar.onColl 3 (fun g => { g with epoch := 6 }))
/-- A command that waits for its queue. -/
def sImplicit : State := after (.mm 0 .f) (sMm.onQueue 0 1 (fun q => { q with entries := [] }))

/-- The array's tile has waited for an entry of its ring since the time 0. -/
def sTileWait : State :=
  sIssued.onCore 0 (fun co => co.onArray .f (fun a => { a with tile0 := { a.tile0 with waitAt := some 0 } }))

theorem witness_FetchAppendsCommands :
    Canon sFetch ∧ canFetch sFetch 0 .v = true ∧ (sFetch.core 0).scp.port = []
      ∧ (let g := sFetch.eng 0 .v
        let rs := [(((sFetch.core 0).seq.seg g.seg).base.toNat + g.fetchPos, 8)]
        (sFetch.core 0).scp.blocked g.curGrp rs = false ∧ (sFetch.core 0).scp.asleep (runSections rs) = []
          ∧ (sFetch.core 0).scp.flips = [] ∧ (sFetch.core 0).scp.wbPend = []) :=
  ⟨canonB_sound _ (by decide +kernel), by decide +kernel⟩

/-- One tile of one pass that enters: what ARRAY_SWAP's clause asks, as a check that can be run. -/
def passesB (s : State) : Bool :=
  let co := s.core 0
  match co.arrF.passes with
  | p :: _ =>
    match co.arrayProd .f p.cmd, co.tongsLead .f p.cmd with
    | some (b, pr), some lead =>
      let m := co.movingOf .f b lead.serial pr p
      let st := (m.2.2.readSpots pr.stat.desc (pr.stat.spots p.k0 p.kLen p.col0 p.cols)).1
      (passTile .f co.arrF b pr p).isSome && Cmd.op b.word != 0x22 && !b.poison && !m.2.1.poison && !st.poison && p.last
        && drains b.word && (accessHold s { lc := 0, e := .f, f := {}, v1 := false, ins := [], outs := [], grp := b.grp }
          (co.passRuns .f b pr p) []).isNone
    | _, _ => false
  | [] => false

/-- One tile that drains: what TILE_DRAIN_START's clause asks. -/
def drainsB (s : State) : Bool :=
  let co := s.core 0
  match co.waiting (0, 0) with
  | some (a, i, b, l, pr) =>
    let sp := drainSpec a l pr
    let ent := (co.seq.queue (drainQueue l sp)).slotDesc sp.fmt sp.rows sp.cols none
    let rs := co.seq.absRuns ent.seg ent.runs
    l.grp.isNone && (l.outs.find? (fun o => o.1 == drainQueue l sp)).isNone && b.serial == l.serial && !i
      && (accessHold s { lc := 0, e := a.eng, f := {}, v1 := false, ins := [], outs := [], grp := none } [] rs).isNone
      && !co.codeHit rs
      && [0, 1, 2].all (fun a => [0, 1].all (fun k => (co.tileAt (a, k)).st != .ready || (arrOfCode a == .f && k == 0)))
  | none => false

/-- One tile whose drain ends, its command's last: what TILE_DRAIN_END's clauses ask. -/
def endsB (s : State) : Bool :=
  let t := (s.core 0).arrF.tile0
  match (s.eng 0 .f).begunBy t.cmd with
  | some b =>
    !b.poison && Cmd.op b.word != 0x22 && b.tilesLeft == 1 && t.contrib == [t.cmd] && b.grp.isNone
      && b.outs.all (fun o => b.ins.all (fun x => x.1 != o.1 && ((s.core 0).entry x.1 x.2.1).gather.isNone))
      && ((List.range t.rows).map (rowVerdict t)).all (fun v => v != some false)
  | none => false

/-- One tile of one pass: issued, draining, and its checks passed. -/
theorem witness_ArrayPassesAndDrains :
    Canon sBegun ∧ (sBegun.mgmt.faultActive = false ∧ (sBegun.core 0).seq.task ≠ none
        ∧ (sBegun.core 0).scp.flips = [] ∧ (sBegun.core 0).scp.wbPend = []
        ∧ ((sBegun.core 0).arrF.noticeDue && sBegun.noticeHeld 0) = false ∧ passesB sBegun = true)
      ∧ canonB sIssued = true ∧ (sIssued.core 0).draining = none ∧ (sIssued.core 0).seq.drainOrder = [(0, 0)]
      ∧ drainsB sIssued = true
      ∧ canonB sDraining = true ∧ (sDraining.core 0).draining = some (.f, false) ∧ endsB sDraining = true
      ∧ (sDraining.core 0).seq.stopEnable = false
      ∧ ((sDraining.onEng 0 .f (fun g => { g with fetched := [{}] })).eng 0 .f).fetched ≠ [] :=
  ⟨canonB_sound _ (by decide +kernel), by decide +kernel⟩

/-- A stream between commands, one that replays, an array's with a command begun, a read begun by a DMA engine, and a frame
in a port's receive buffer. -/
theorem witness_CoreFailuresAndEnds :
    (Canon sNop ∧ sNop.mgmt.faultActive = false ∧ (sNop.eng 0 .v).status = .running ∧ (sNop.eng 0 .v).begun = []
        ∧ (sNop.eng 0 .v).fetched ≠ [] ∧ (sNop.eng 0 .v).replaying = false)
      ∧ ((sNop.onEng 0 .v (fun g => { g with replaying := true })).eng 0 .v).replaying = true
      ∧ ((sBegun.eng 0 .f).begun.length = 1 ∧ (sBegun.eng 0 .f).status ≠ .noStream)
      ∧ (((sNop.onEng 0 .d3 (fun g => { g with begun := [{}] })).eng 0 .d3).begun = [{}] ∧ ({} : Begun).replayed = false)
      ∧ ({ sNop with pins := { sNop.pins with pwrGood := true } } : State).pins.pwrGood = true
      ∧ (((sNop.onPort 95 (fun q => { q with rxq := [{ prio := 4, bytes := 64 }] })).port 95).rxq.length = 1) :=
  ⟨⟨canonB_sound _ (by decide +kernel), by decide +kernel⟩, by decide +kernel⟩

/-- A stopped stream, and waits at the end of their limit: of a command, of a tile, and of a grp.commit. -/
theorem witness_CoreFailuresAndEnds_waits :
    ((sEnded.core 0).seq.task).any (fun k => (sEnded.at_ 0).taskOver 0 k) = true ∧ (sEnded.core 0).scp.port = []
      ∧ sEnded.mgmt.faultActive = false ∧ waitOver (sImplicit.at_ 1000000000) 0 .f false = true
      ∧ waitOver (sTileWait.at_ 1000000000) 0 .f false = false ∧ tileWaitOver (sTileWait.at_ 1000000000) 0 .f = some (.f, 0)
      ∧ (sWaiting.eng 0 .v).fetched.length = 1 ∧ waitOver (sWaiting.at_ 5000) 0 .v true = true
      ∧ waitOver (sWaiting.at_ 4999) 0 .v true = false
      ∧ (let s := after (.grpCommit 0) ((sGrp 0x15 { st := .opened }).onEng 0 .v (fun e => { e with curGrp := some 5 }))
        (s.eng 0 .s).fetched.map (fun f => (Cmd.op f.word, fld f.word 64 12)) = [(0x15, 5)]
          ∧ waitOver (s.at_ 1000000000) 0 .s true = true ∧ ((s.core 0).seq.grp 5).st = .opened) := by
  decide +kernel

/-- A window of 16 words at word 0x40, open to node 0's core 0. -/
def sWin : State :=
  (tState .s 0 []).onSeq 0 (fun q => q.onWin 3 (fun _ =>
    { isOpen := true, ever := true, gen := 1, off := 0x40, len := 0x10, base := 0x40, src := { nodeHi := 5, coreHi := 5, valid := true } }))
/-- A write of four bytes at a word of that window. -/
def tWinHdr (woff : BitVec 23) : WinHdr :=
  { core := 0, window := 3, gen := 1, woff := woff, fmt := 0, rowsM1 := 0, colsM1 := 0, tmseq := 0, grp := 0, gv := false, xferLen := 4 }
/-- A win.open that waits for a window closed at 0. -/
def sQuiet : State :=
  after (.winOpen 0) (sWinOpen.onSeq 0 (fun q => q.onWin 3 (fun _ => { ever := true, reuse := 65535 })))

/-- Q's running sum, begun and confirmed by nothing but its chain. -/
def sSum : State := (tState .q 0 []).onEng 0 .q (fun g => { g with begun := [{ passed := true }] })

/-- The window's last word, and the word after it; a write that an extent holds back; the quiet second at its end; a
running sum to confirm. -/
theorem witness_WindowsTakeWrites :
    Canon sWin ∧ sWin.mgmt.faultActive = false ∧ (sWin.core 0).scp.port = []
      ∧ windowErr sWin 0 0 0 (tWinHdr 16) 4 = some eWindowRange
      ∧ windowErr sWin 0 0 0 (tWinHdr 15) 4 = none ∧ slotErr sWin 0 (tWinHdr 15) true 4 = false
      ∧ (sWin.core 0).scp.blocked none [(0x4F, 1)] = false ∧ (sWin.core 0).scp.asleep (runSections [(0x4F, 1)]) = []
      ∧ (sWin.core 0).codeHit [(0x4F, 1)] = false ∧ (sWin.core 0).scp.flips = [] ∧ (sWin.core 0).scp.wbPend = []
      ∧ (let s := sWin.onScp 0 (fun m => { m with pend := [{ grp := 5, words := [(0x4F, 1)] }] })
        (s.core 0).scp.blocked none [(0x4F, 1)] = true ∧ windowErr s 0 0 0 (tWinHdr 15) 4 = none)
      ∧ canonB sQuiet = true ∧ (sQuiet.eng 0 .s).wait ≠ none ∧ ((sQuiet.eng 0 .s).fetched.map (fun f => Cmd.op f.word)) = [0x18]
      ∧ ((sQuiet.core 0).seq.win 3).quiet 1000000000 = true ∧ ((sQuiet.core 0).seq.win 3).quiet 999999999 = false
      ∧ goesOn sQuiet 0 .s = true ∧ beginsB winOpenRow 0x18 (sQuiet.at_ 1000000000) .s = true
      ∧ (sSum.eng 0 .q).begun = [{ passed := true }] ∧ incomingOk (sSum.core 0) { passed := true } = true
      ∧ (sSum.eng 0 .q).fetched ≠ [] ∧ (sSum.core 0).seq.stopEnable = false :=
  ⟨canonB_sound _ (by decide +kernel), by decide +kernel⟩

/-- A committing group one of whose slices, the last, still owes its acknowledgement; and one with none. -/
def sCommit (await : List Nat) : State := sGrp 0x15 { st := .committing, await := await }
/-- The same of a remote group on flow 9, from core 2. -/
def sRemote (await : List Nat) : State :=
  { sNop with fab := { sNop.fab with handles := [{ flow := 9, core := 2, grp := 5, committing := true, await := await }] } }

theorem witness_GroupCommitProtocol :
    Canon (sCommit [127]) ∧ ((sCommit [127]).core 0).seq.grp 5 = { st := .committing, await := [127] }
      ∧ canonB (sRemote [127]) = true ∧ (sRemote [127]).fab.handles.length = 1
      ∧ canonB (sCommit []) = true ∧ (sCommit []).mgmt.faultActive = false ∧ (sCommit []).fab.loc = []
      ∧ ((sCommit []).core 0).scp.port = [] ∧ goesOn (sCommit []) 0 .s = true ∧ engineRuns (sCommit []) 0 .s = true
      ∧ ((sRemote []).handle? 9 2 5).any (fun h => h.committing && h.await.isEmpty) = true ∧ ((sRemote []).flow 9).rx = []
      ∧ (let s := sNop.onSlice 127 (fun x =>
          { x with prepared := [.loc 0 5], shadows := [{ line := 3, key := .loc 0 5, committed := true }], snoops := [{ unit := 8 }] })
        (s.slice 127).prepared = [.loc 0 5] ∧ (s.slice 127).shadows.map (·.committed) = [true]
          ∧ (s.slice 127).snoops.map (fun y => y.unit / 2) = [4]) :=
  ⟨canonB_sound _ (by decide +kernel), by decide +kernel⟩

/-- A section in a given state. -/
def sSection (st : Nat) (req : Option Nat) (waking : Bool) (pend : List (Nat × BitVec 256)) : State :=
  (tState .v 0 []).onScp 0 (fun m =>
    { m with
      sect := Tbl.set 0 [] 5 st
      sectReq := Tbl.set none [] 5 req
      waking := Tbl.set false [] 5 waking
      wbPend := pend })

/-- The last section: asked for Retention and for Off, asleep, and waking from either. -/
theorem witness_SectionsSleepAndWake :
    Canon (sSection 0 none false [(786431, 7)]) ∧ (786431, 7) ∈ ((sSection 0 none false [(786431, 7)]).core 0).scp.wbPend
      ∧ (∀ r ∈ [1, 2], let s := sSection 0 (some r) false []
        canonB s = true ∧ Tbl.get none (s.core 0).scp.sectReq 5 = some r ∧ s.sectionInFlight 0 5 = false
          ∧ (s.dom (s.core 0).phys.toNat).st ≠ .retention)
      ∧ (∀ st ∈ [1, 2], let m := ((sSection st none true []).core 0).scp
        canonB (sSection st none true []) = true ∧ Tbl.get 0 m.sect 5 ≠ 0 ∧ Tbl.get false m.waking 5 = true ∧ m.port = []) :=
  ⟨canonB_sound _ (by decide +kernel), by decide +kernel⟩

/-! ### Memory and the host's accesses -/

/-- A part that runs, its host attached, with nothing on its cores. -/
def sRun : State :=
  { mgmt := { tier := 1, stage := 6, up := 15, partCode := 0x6425 }
    pins := { pwrGood := true, perstN := true, coolantOk := true }
    pwr := { alwaysOn := true }
    host := { linkUp := true, flit256 := true, memActive := true, cacheEn := true, dec0 := { committed := true, size := 2 ^ 30 } } }

/-- A slice with a miss of unit 0, a shadow served and parked, and a line owed by the host. -/
def sSlice : State :=
  sRun.onSlice 0 (fun x =>
    { x with
      misses := [{}]
      shadows := [{ line := 0, slot := some 0, committed := true, served := true }]
      bisnp := [(5, true)] })
/-- Line 0 held whole by its slice. -/
def sLine : State := (sRun.putLine { addr := 0, valid := -1 }).putLine { addr := 1, valid := -1 }
/-- Core 5 with a request for unit 0 that waits at its port. -/
def sPortWait : State := { sRun with mem := { waiting := [.read { port := .core 5 }] } }

/-- The first unit and the last a task may reach; a hit, a miss, and a port with an earlier request to the unit. -/
theorem witness_CrossbarRequestsAreServed :
    (∀ a ∈ [(0 : Nat), 0xBFE3FFFF00], sliceServes sRun (.core 5) a = true ∧ (sRun.slice (sliceOf a)).held = []
        ∧ sRun.portFull (.core 5) (a / 256) = false ∧ sRun.sliceEcc a 1 .clean = sRun
        ∧ sRun.memWait a 256 none (.core 5) false = none ∧ sRun.memWait a 256 none (.core 5) true = none
        ∧ sRun.unitHit a 1 none = false)
      ∧ sliceServes sRun (.core 5) 0xBFE8000000 = false ∧ sliceServes sRun (.te 0) 0xBFE8000000 = true
      ∧ (sLine.portFull (.core 5) 0 = false ∧ sLine.memWait 0 256 none (.core 5) false = none ∧ sLine.unitHit 0 (2 ^ 256 - 1) none = true)
      ∧ (sPortWait.portFull (.core 5) 0 = true ∧ canonB sPortWait = true)
      ∧ (sSlice.slice 0).misses = [{}] ∧ (sSlice.slice 0).held = [] ∧ sSlice.mem.waiting = []
      ∧ (sSlice.slice 0).shadows.map (fun x => (x.served, sliceOf (128 * x.line))) = [(true, 0)] := by
  decide +kernel

/-- The last unit of DRAM, with good bits, a mark, bits beyond correction and bits that pass for corrected. -/
theorem witness_DemandReadsDeliverTheUnit :
    Canon sRun ∧ apertureBase = 0xC000000000 ∧ (sRun.stk (stackOf 0xBFFFFFFFC0)).railFailed = false
      ∧ Tbl.get false sRun.mem.poison 0x2FFFFFFFF = false ∧ Tbl.get .good sRun.mem.cond 0x2FFFFFFFF = .good
      ∧ (let m := Tbl.set false [] 0x2FFFFFFFF true
        canonB { sRun with mem := { poison := m } } = true ∧ Tbl.get false m 0x2FFFFFFFF = true)
      ∧ (let m := Tbl.set Stored.good [] 0x2FFFFFFFF .uncorrectable
        canonB { sRun with mem := { cond := m } } = true ∧ Tbl.get .good m 0x2FFFFFFFF = .uncorrectable)
      ∧ (let m := Tbl.set Stored.good [] 0x2FFFFFFFF (.wrong [1])
        canonB { sRun with mem := { cond := m } } = true ∧ Tbl.get .good m 0x2FFFFFFFF = .wrong [1]) :=
  ⟨canonB_sound _ (by decide +kernel), by decide +kernel⟩

theorem witness_StackWritesStoreTheMaskedBytes :
    Canon sRun ∧ 0xBFFFFFFFC0 < apertureBase ∧ (sRun.stk (stackOf 0xBFFFFFFFC0)).railFailed = false
      ∧ (0x8000000000000001#64).getLsbD 63 = true ∧ (0x8000000000000001#64 : BitVec 64) ≠ -1 :=
  ⟨canonB_sound _ (by decide +kernel), by decide +kernel⟩

theorem witness_InPlaceAddsAccumulate :
    Canon sRun ∧ 0xBFE3FFFFC0 % 64 = 0 ∧ 0xBFE3FFFFC0 < userTop ∧ (List.replicate 64 (0 : Byte)).length = 64
      ∧ (sRun.stk (stackOf 0xBFE3FFFFC0)).railFailed = false ∧ (sRun.slice (sliceOf 0xBFE3FFFFC0)).shadows = []
      ∧ (sRun.slice (sliceOf 0xBFE3FFFFC0)).line? (0xBFE3FFFFC0 / 128) = none
      ∧ Tbl.get .good sRun.mem.cond 0x2FF8FFFFF = .good ∧ Tbl.get false sRun.mem.poison 0x2FF8FFFFF = false :=
  ⟨canonB_sound _ (by decide +kernel), by decide +kernel⟩

/-- A unit at its third visit. -/
theorem witness_StacksRefreshAndScrub :
    let s := sRun.onStk 15 (fun k => { k with due := [(9, 0)], visits := Tbl.set 0 [] 9 2 })
    (s.stk 15).runs = true ∧ (s.stk 15).due = [(9, 0)] ∧ Tbl.get 0 (s.stk 15).visits 9 + 1 = 3 := by
  decide +kernel

/-- An aperture transfer of 64 bytes by a DMA engine of core 0, and the host's answer to it awaited. -/
def sApt (write : Bool) : State :=
  let b : Begun :=
    { word := tWord 0x60 [(0, 1)] ((64, 1) :: if write then [] else [(66, 1), (192, 3), (224, 3)])
      outs := if write then [] else [(3, 0)]
      xfer := some { kind := if write then .apertureWrite else .apertureRead, bytes := 64 } }
  let s := (sCopy.onEng 0 .d0 (fun g => { g with begun := [b] })).onQueue 0 3 (fun q =>
    { q with entries := [{ st := .reserved, desc := { (tDesc 0x1000 0) with rows := 4, cols := 4 } }], made := 1 })
  { s.adoptReg 0x04070000 1 with host := { linkUp := true, apts := [{ eng := 5, bytes := 64, write := write }] } }

/-- The last unit the decoder maps and the one after it; with a device-level fault and without; an aperture's write and its
read. -/
theorem witness_HostAccessesAreServed :
    (sRun.host.memActive = true ∧ sRun.host.linkUp = true ∧ sRun.hdmMaps 0x3FFFFFC0 = true ∧ sRun.hdmMaps 0x40000000 = false
        ∧ sRun.mgmt.faultActive = false ∧ ({ sRun with mgmt := { faultActive := true } } : State).hdmMaps 0 = true
        ∧ (sRun.slice (sliceOf 0x3FFFFFC0)).held = []
        ∧ ∀ w : Bool, (sRun.track (0x3FFFFFC0 / 64) w).any (fun v => (v.lineWait (0x3FFFFFC0 / 128) none .cxl w).isNone) = true)
      ∧ sRun.cacheServes = true ∧ (sSlice.slice 0).bisnp = [(5, true)] ∧ (sSlice.slice 0).commits = []
      ∧ ∀ write : Bool, ((sApt write).host.apts.map (·.write) = [write] ∧ ((sApt write).aptEntry apertureBase).valid = true
          ∧ engOf 5 = .d0 ∧ ((sApt write).eng 0 .d0).begun.length = 1
          ∧ (((sApt write).eng 0 .d0).begun.all (fun b => b.xfer.isSome)) = true) := by
  decide +kernel

/-! ### Ports -/

/-- Port 0 in a state, enabled. -/
def sPort (st : PortSt) : State := sRun.onPort 0 (fun q => { q with st := st, laser := true })

/-- A frame of a length, to the port's own address. -/
def tFrame (n : Nat) (body : FrameBody) : Frame := { fcsOk := true, len := n, tags := [], dst := 0, body := body }

/-- A port with the addresses 0x0A000001 and 1, a pause on class 7, and a node with a gateway. -/
def sAddr : State :=
  let s := (((sPort .up).adoptReg (portBase 0 + 0x60) 0x0A000001).adoptReg (portBase 0 + 0x70) 1).adoptReg 0x03041000 1
  (s.adoptReg 0x03000004 0x77FF0005).onPort 0 (fun q => { q with pause := Tbl.set 0 [] 7 500 })

/-- The least and the greatest length, and those beyond; a buffer that just takes the frame and one that does not. -/
theorem witness_PortsAcceptOrDropFrames :
    let oft : FrameBody := .oft false 0x0A000001 1 1 true true 8 0
    let ok (n : Nat) (fr : Frame) : Bool :=
      let s := sAddr.onPort 0 (fun q => { q with rxq := [{ bytes := n }] })
      decide (64 ≤ fr.len) && decide (fr.len ≤ 9216) && s.tagsOk 0 fr.tags && s.frameTo 0 fr && s.bodyOk 0 fr.body
        && decide ((s.port 0).buffered + fr.len ≤ 524288)
    Canon sAddr ∧ (sAddr.port 0).st = .up ∧ ok 0 (tFrame 64 .arp) = true ∧ ok 515072 (tFrame 9216 oft) = true
      ∧ ok 0 (tFrame 63 .arp) = false ∧ ok 0 (tFrame 9217 .arp) = false ∧ ok 515073 (tFrame 9216 oft) = false :=
  ⟨canonB_sound _ (by decide +kernel), by decide +kernel⟩

/-- Answers sent at once, of a class with room; a class that pauses for the most quanta and for none. -/
theorem witness_PortsAnswerAndPause :
    canonB sAddr = true ∧ (sAddr.port 0).st = .up ∧ sAddr.answers4 0 0x0A000001 = true ∧ sAddr.answers6 0 1 = true
      ∧ (let c := sAddr.hkClass 0
        (sAddr.port 0).room c (sAddr.hkBytes 0 9216) = true ∧ Tbl.get 0 (sAddr.port 0).pause c = 0
          ∧ Tbl.get [] (sAddr.port 0).egress c = [])
      ∧ (sAddr.port 0).lastLldp + 30000000000 ≤ max sAddr.clk.now 30000000000 ∧ bit (sAddr.portCtl 0) 30 = true
      ∧ sAddr.pfcOn 0 7 = true
      ∧ Tbl.get 0 (sAddr.port 0).pause 7 = 500 ∧ ip6Words (fun i => sAddr.applied (0x03041000 + 4 * i) 0) ≠ 0 := by
  decide +kernel

/-- A port that trains, that is Down with and without light and after a fault, that is on the spare, and that has trained
once. -/
theorem witness_PortsRiseAndFall :
    Canon (sPort .training) ∧ (sPort .training).canRise 0 = true ∧ (sPort .training).portOn 0 = true
      ∧ ((sPort .training).port 0).laser = true ∧ canonB (sPort .up) = true ∧ canonB (sPort .down) = true
      ∧ ((sPort .down).onPort 0 (fun q => { q with los := 15 })).portOn 0 = true
      ∧ ((sPort .training).port 0).substReason = 0
      ∧ (∀ st ∈ [PortSt.up, .down, .training], ((sPort st).port 0).st = st)
      ∧ ((((sPort .down).onPort 0 (fun q => { q with rxRf := true })).onPort 0 (fun q => { q with rxLf := false, rxRf := false })).canRise
          0 = true)
      ∧ ((((sPort .down).onPort 0 (fun q => { q with los := 5 })).onPort 0 (fun q => { q with los := 0, rxLf := false })).canRise 0
          = true)
      ∧ ((sPort .training).port 0).saved = false ∧ ((sPort .training).port 0).retrains = 0 :=
  ⟨canonB_sound _ (by decide +kernel), by decide +kernel⟩

/-- A port that is Up, its engine's spare position free. -/
def sSpare : State := (sPort .up).onOptic 0 (fun o => { o with spare := 12 })

/-- 85.0 °C, in quarters of a degree. -/
theorem witness_OpticsAreMonitored :
    canonB sSpare = true ∧ (sSpare.port 0).st = .up ∧ bit (sSpare.portCtl 0) 31 = false ∧ sSpare.portOn 0 = true
      ∧ (sSpare.optic 0).spare ≠ 0xF
      ∧ ((sPort .up).onPort 0 (fun q => { q with hiSerAt := some 0, hiSerSecs := 9 })).port 0 =
          { (sPort .up).port 0 with hiSerAt := some 0, hiSerSecs := 9 }
      ∧ 0 + 1000000000 ≤ max (sPort .up).clk.now 1000000000 ∧ (9999 : Nat) < 1 * 10000 ∧ ¬ (10000 : Nat) < 1 * 10000
      ∧ 340 ≤ (340#11 : BitVec 11).toInt ∧ ¬ 340 ≤ (339#11 : BitVec 11).toInt := by
  decide +kernel

/-! ### The transport -/

/-- An Open flow 8 with its context cached, on a port that is Up. -/
def sFlow (f : Flow) : State := (sPort .up).onFlow 8 (fun _ => { f with st := .isOpen, cached := true, node := 1 })
/-- A packet of it. -/
def tPkt (psn : BitVec 32) : PktHdr :=
  { port := 0, flow := 8, psn := psn, poison := false, prov := false, last := true, srcCore := 0, txTs := 0, ce := false }

/-- A packet's flow to a core with a window, and its write to the window. -/
def sPlace : State :=
  { sWin with
    ports := (sPort .up).ports
    mgmt := sRun.mgmt
    fab := { flows := ((sFlow {}).onFlow 8 (fun f => { f with node := 0 })).fab.flows } }
/-- A job's range of 16 MiB, reads and writes. -/
def sRange : State := (sFlow {}).onJob 0 (fun _ => { tasks := [{ dranges := [{ len := 16, valid := true, write := true }] }] })
/-- A read of this side's that the flow answers: its one piece lands and ends the copy. -/
def sAnswered : State :=
  { sPlace with cores := (sApt false).cores }.onFlow 8 (fun f => { f with reqs := Tbl.set none [] 3 (some { lc := 0, eng := 5, len := 64 }) })

/-- The next PSN and the last of the window, at the age limit; a write whose window takes it. -/
theorem witness_DataPacketsArePlaced :
    passesChecks (sFlow {}) (tPkt 0) false ∧ passesChecks (sFlow {}) (tPkt 65535) false
      ∧ passesChecks ({ sFlow {} with clk := { now := 750000000 } } : State) (tPkt 0) true
      ∧ passesChecks sPlace (tPkt 0) true ∧ windowErr sPlace 0 (sPlace.flow 8).node 0 (tWinHdr 15) 4 = none
      ∧ slotErr sPlace 0 (tWinHdr 15) true 4 = false ∧ (sPlace.flow 8).ctl = [] ∧ (sPlace.core 0).scp.port = []
      ∧ (sPlace.core 0).scp.blocked none [(0x4F, 1)] = false ∧ (sPlace.core 0).scp.asleep (runSections [(0x4F, 1)]) = []
      ∧ (sPlace.core 0).codeHit [(0x4F, 1)] = false ∧ (sPlace.core 0).scp.flips = [] ∧ (sPlace.core 0).scp.wbPend = []
      ∧ Tbl.get none ((sFlow {}).flow 8).reqs 3 = none := by
  simp only [passesChecks]
  decide +kernel

/-- Reads of the least and of the most bytes, from a job's range of 16 MiB, and one beyond it; a write of a unit there; an
answer that ends its copy. -/
theorem witness_DataPacketsArePlaced_reads :
    passesChecks sRange (tPkt 0) false ∧ passesChecks sRange (tPkt 0) true ∧ sRange.jobRangeOk 0 0 64 false = true
      ∧ sRange.jobRangeOk 0 0 16777216 false = true ∧ sRange.jobRangeOk 0 64 16777216 false = false
      ∧ sRange.jobRangeOk 0 0 64 true = true ∧ (sRange.flow 8).ctl = [] ∧ (sRange.flow 8).rx = []
      ∧ (sRange.ctxCount 0 true).memWait 0 64 none (teOf 0) false = none
      ∧ (sRange.ctxCount 0 true).memWait 0 64 none (teOf 0) true = none
      ∧ passesChecks sAnswered (tPkt 0) true ∧ (Tbl.get none (sAnswered.flow 8).reqs 3).isSome = true
      ∧ ((sAnswered.eng 0 (engOf 5)).begun.map (fun b => b.xfer.map (·.bytes))) = [some 64]
      ∧ ((sAnswered.eng 0 (engOf 5)).begun.all (fun b =>
          match (sAnswered.ctxCount 0 true).landParts 0 b (landSpots (begunPieces (sAnswered.core 0) b) 0 64)
            (mbMark false (List.replicate 64 7)) with
          | .done _ => true
          | _ => false)) = true := by
  simp only [passesChecks]
  decide +kernel

theorem witness_ControlPacketsWaitTheirTurn : passesChecks (sFlow {}) (tPkt 65535) false := by
  simp only [passesChecks]
  decide +kernel

/-- One beyond the window, one that has arrived, and a flow that is not there. -/
theorem witness_StalePacketsPlaceNothing :
    Canon (sFlow {}) ∧ 65536 ≤ ((sFlow {}).flow 8).ahead 65536 ∧ (4 : BitVec 32) ∈ ((sFlow { sack := [4] }).flow 8).sack
      ∧ canonB (sFlow { sack := [4] }) = true ∧ (sRun.flow 8).st ≠ .isOpen ∧ (sRun.flow 8).st ≠ .closing
      ∧ canonB sRun = true :=
  ⟨canonB_sound _ (by decide +kernel), by decide +kernel⟩

theorem witness_AcknowledgementsFreePackets :
    ((sFlow {}).port 0).st = .up ∧ (sFlow {}).teRuns = true ∧ ((sFlow {}).flow 8).st = .isOpen
      ∧ ((sFlow {}).flow 8).cached = true ∧ (6#8).toNat < 7
      ∧ (sFlow {}).fab.mc3Restarting = false ∧ bit (sFlow {}).mgmt.up 3 = true
      ∧ (after (.mc3Restart false) (sFlow {})).fab.mc3Restarting = true := by
  decide +kernel

/-- A SETUP for job tag 7 from node 1. -/
def tSetup (status : BitVec 8) : SetupBody :=
  { node := 1, tag := 7, senderFlow := 3, receiverFlow := 8, status := status, boot := 2, time := 0 }
/-- A node with a job of tag 7. -/
def sNode : State := ((sPort .up).adoptReg 0x03040000 0x80000003).onJob 4 (fun _ => { loaded := true, tag := 7, mask := 1 })
def sSetup : State := sNode.onFlow 8 (fun _ => { st := .settingUp, node := 1, tag := 7, job := 4, cached := true })

theorem witness_FlowsAreSetUp :
    (sNode.port 0).st = .up ∧ sNode.teRuns = true ∧ sNode.nodeValid = true ∧ sRun.jobByTag 7 = none
      ∧ sNode.jobByTag 7 = some 4 ∧ sNode.findFlow 4 1 = none ∧ sNode.fabricFull 1 = false ∧ sNode.freeFlow.isSome = true
      ∧ (let s := sNode.onFlow 8 (fun _ => { st := .isOpen, node := 1, job := 4, peerBoot := 2 })
        s.findFlow 4 1 = some 8 ∧ (s.flow 8).st = .isOpen)
      ∧ (sSetup.flow 8).st = .settingUp ∧ (sSetup.flow 8).node = 1 ∧ (sSetup.flow 8).tag = 7 := by
  decide +kernel

/-- Each timer at its limit. -/
theorem witness_TransportTimersAct :
    let k : TxPkt := { psn := 0, holeAt := some 0 }
    let s := sFlow { unacked := [k], firstUnacked := some 0, fetching := true }
    (s.flow 8).fetching = true ∧ (s.flow 8).firstUnacked = some 0 ∧ (s.flow 8).st = .isOpen ∧ s.teRuns = true ∧ (s.flow 8).cached = true
      ∧ (s.flow 8).unacked = [k] ∧ (s.flow 8).unacked.find? (fun k => k.psn == 0) = some k
      ∧ max (s.flow 8).lastAdv k.lastSent + (s.flow 8).rto ≤ max s.clk.now 50000
      ∧ k.firstSent + 500000000 < max s.clk.now 500000001 ∧ (sSetup.flow 8).setupAt + 1000000 ≤ max sSetup.clk.now 1000000
      ∧ (let u := sRun.onFlow 8 (fun _ => { st := .closing })
        (u.flow 8).st = .closing ∧ (u.flow 8).closeAt + 1000000000 ≤ max u.clk.now 1000000000) := by
  decide +kernel

/-- A device that takes its time from port 0. -/
def sPtp : State := { (sPort .up).adoptReg 0x03040060 0x30009 with fab := { slavePort := 0 } }

/-- A Sync of the slave's, an Announce, and what an ordinary and a one-step boundary clock send. -/
theorem witness_TimeFollowsPtp :
    let x : PtpRx := { xport := 0, domain := 0, m := .sync, seqId := 1, master := none, offset := 1000 }
    let b : State := (sPort .up).adoptReg 0x03040060 0x30002
    canonB sPtp = true ∧ sPtp.fab.mc3Restarting = false ∧ sPtp.mgmt.faultActive = false ∧ (sPtp.at_ 5).ptpOn 0 = true
      ∧ x.xport.val = sPtp.ptpXport ∧ x.domain.toNat = sPtp.ptpDomain ∧ sPtp.ptpMode ≠ 0 ∧ sPtp.fab.slavePort.toNat = 0
      ∧ sPtp.fab.slavePort ≠ 0x7F ∧ x.offset.natAbs ≤ 1000 ∧ PtpMsg.sync ≠ .general
      ∧ sPtp.ptpSends 0 .delayReq = true ∧ sPtp.ptpTwoStep = true ∧ (sPtp.port 0).clear (sPtp.hkClass 0) = true
      ∧ canonB b = true ∧ b.ptpSends 0 .sync = true ∧ b.ptpTwoStep = false ∧ (b.port 0).clear (b.hkClass 0) = true
      ∧ sPtp.fab.lastSync + 4 * sPtp.syncNs ≤ max sPtp.clk.now 1000000000000 := by
  decide +kernel

/-! ### The host -/

theorem witness_LinkEventsAndResets :
    Canon sRun ∧ sRun.pins.perstN = true ∧ sRun.host.linkUp = true ∧ sRun.host.pcie = false ∧ sRun.mgmt.partCode ≠ 0
      ∧ ({ sRun with mgmt := {} } : State).mgmt.partCode = 0 ∧ sRun.host.flit256 = true ∧ sRun.host.memActive = true
      ∧ 2047 * 2 ^ 28 + 1 * 2 ^ 28 ≤ 2 ^ 39 ∧ sRun.host.dec1.committed = false ∧ sRun.pins.vddio33 = true
      ∧ sRun.pins.pwrGood = true ∧ bit sRun.clk.refLost 3 = false ∧ ({ sRun with host := {} } : State).host.linkUp = false
      ∧ (∀ n < 128, (sRun.slice n).held = [] ∧ (sRun.slice n).commits = []) ∧ (3 : Fin 4) ≠ 0 :=
  ⟨canonB_sound _ (by decide +kernel), by decide +kernel⟩

/-- A message found on a pair that is enabled. -/
def sMsg (s : State) (p type job : Nat) (payload : List Byte) : State :=
  s.onPair p (fun q => { q with enable := true, found := some { bytes := mkMsg 0 type job payload, slots := 1 } })

/-- A pair with room for exactly one slot, and with none; a message held for the last pair; timers at their limits. -/
theorem witness_MailboxCommandsAnswer :
    let room (n : Nat) : State := sRun.onPair 15 (fun q => { q with enable := true, d2hProd := BitVec.ofNat 32 (64 - n) })
    Canon (room 1) ∧ (room 1).ringOpen 15 (slotsOf 64) = true ∧ (room 0).ringOpen 15 (slotsOf 64) = false
      ∧ (sRun.at_ 5).mailboxesServed = true ∧ ((sMsg sRun 15 1 0 []).found? 15 1).isSome = true
      ∧ (((sMsg sRun 0 2 0 []).at_ 5).found? 0 2).isSome = true ∧ ((sMsg sRun 0 3 0 []).found? 0 3).isSome = true
      ∧ sRun.host.hostState = 0 ∧ sRun.mailboxesServed = true ∧ (sRun.pair 0).found = none
      ∧ sRun.host.lastMsg + fld sRun.hostCfg 0 16 * 1000000 ≤ max sRun.clk.now 10000000000
      ∧ (let s := { sRun with host := { sRun.host with hostState := 1 } }
        s.host.hostState = 1 ∧ s.host.absentAt + fld s.hostCfg 16 16 * 1000000000 ≤ max s.clk.now 1000000000000)
      ∧ (let m : Held := { pair := 15, bytes := List.replicate 64 0 }
        let s : State := { room 1 with host := { (room 1).host with held := [m] } }
        s.host.held = [m] ∧ s.host.hostState = 0 ∧ (s.pair 15).enable = true ∧ slotsOf m.bytes.length ≤ (s.pair 15).freeSlots)
      ∧ (sRun.pair 15).enable = false :=
  ⟨canonB_sound _ (by decide +kernel), by decide +kernel⟩

/-- A part whose signature numbers are up to `q`, with its reserve and with a report that waits. -/
def sSign (q : Nat) : State :=
  { sRun with
    sec := { signReady := true, signNext := BitVec.ofNat 32 q, signReserved := BitVec.ofNat 32 (q + 1024),
             flashReserved := BitVec.ofNat 32 (q + 1024), attests := [{ report := List.replicate 256 7 }] } }
/-- An unlock attempt under way, with a password or with a signature. -/
def sUnlock (password : Bool) : State :=
  { sRun.adoptReg 0x07000060 (if password then 2 else 0) with cfg := { (sRun.adoptReg 0x07000060 (if password then 2 else 0)).cfg with
      active := some { unlock := true } } }

theorem witness_LicencesSignaturesAndLocks :
    Canon sRun ∧ ((sMsg sRun 0 0x10 0 (toLE 8 1 ++ toLE 8 0 ++ toLE 4 3796)).found? 0 0x10).any (fun f =>
        leAt f.bytes 32 4 == 3796) = true ∧ sRun.host.hostState = 0 ∧ sRun.mc0Up = true
      ∧ (((sMsg (sSign 0) 15 0x11 0 []).at_ 5).found? 15 0x11).isSome = true ∧ ((sSign 0).at_ 5).attestErr = none
      ∧ (sSign (2 ^ 30 - 1)).attestErr = none ∧ (sSign (2 ^ 30)).attestErr ≠ none ∧ (sSign 0).sec.attests.length = 1
      ∧ (sSign 0).host.linkUp = true ∧ (sSign 0).sec.treeReady = true ∧ (sSign 0).sec.usedMax = none
      ∧ ({ sRun with sec := { sRun.sec with treeReady := false } } : State).sec.treeReady = false
      ∧ (((sUnlock false).at_ 5).unlockData false).isSome = true ∧ (((sUnlock true).at_ 5).unlockData true).isSome = true :=
  ⟨canonB_sound _ (by decide +kernel), by decide +kernel⟩

/-! ### Configuration and registers -/

/-- The last register of the map that is staged, and an offset that is no register. -/
theorem witness_ConfigurationIsStagedAndServed :
    let up (u : Update) : State := { sRun with mgmt := { sRun.mgmt with update := u } }
    Canon sRun ∧ ((sMsg sRun 0 0x20 0 (toLE 4 0x07000060 ++ toLE 4 1)).found? 0 0x20).any (fun f => f.bytes.length == 24) = true
      ∧ 0x07000060 % 4 = 0 ∧ (stgReg 0x07000060).isSome = true ∧ (stgReg 0x2000).isSome = false
      ∧ ((sMsg sRun 0 0x21 0 (toLE 8 1)).found? 0 0x21).isSome = true ∧ sRun.host.hostState = 0
      ∧ (let s := sMsg { sUnlock false with mgmt := { sRun.mgmt with up := 14 } } 0 0x21 0 (toLE 8 1)
        (s.found? 0 0x21).isSome = true ∧ s.cfg.active.isSome = true ∧ s.mc0Up = false)
      ∧ sRun.cfg.active = none ∧ sRun.host.linkUp = true
      ∧ ({ sRun with cfg := { startReq := 3 } } : State).cfg.startReq ≠ 0 ∧ sRun.mc0Up = true ∧ sRun.pins.pwrGood = true
      ∧ ({ sRun with cfg := { goReq := true } } : State).cfg.goReq = true ∧ sRun.mgmt.update.busy = false
      ∧ (up { state := 1 }).mgmt.update.busy = true ∧ sRun.mgmt.recovery = false :=
  ⟨canonB_sound _ (by decide +kernel), by decide +kernel⟩

/-- The log's oldest and newest entry and those beside them. -/
theorem witness_RegistersAnswerAndKeep :
    let log (q : Nat) : State :=
      { sRun with mgmt := { sRun.mgmt with errPend := true, errSel := BitVec.ofNat 32 q }, flash := { logFirst := 4, logNext := 9 } }
    let held (s : State) : Bool := decide (s.flash.logFirst.toNat ≤ s.mgmt.errSel.toNat) && decide (s.mgmt.errSel.toNat < s.flash.logNext.toNat)
    Canon sRun ∧ sRun.host.linkUp = true ∧ (log 4).mgmt.errPend = true ∧ (log 4).mc0Up = true
      ∧ ([3, 4, 8, 9].map (fun q => held (log q))) = [false, true, true, false]
      ∧ (sRun.latch? 0x01000400).isSome = true ∧ (sRun.latch? 0x013F0400).isSome = true ∧ (sRun.latch? 0x2000).isSome = false
      ∧ sRun.mgmt.recovery = false ∧ (0x07000060 : BitVec 28).toNat % 4 = 0
      ∧ ({ sRun with cfg := { dirty := true, lastRecord := some 0 } } : State).cfg.dirty = true
      ∧ 0 + 60000000000 ≤ max sRun.clk.now 60000000000 ∧ sRun.mgmt.corrAt + 3600000000000 ≤ max sRun.clk.now 3600000000000 :=
  ⟨canonB_sound _ (by decide +kernel), by decide +kernel⟩

/-! ### Queues, contexts and jobs -/

/-- Queue `n` of pair 1 with jobs, and job 4 of that pair on core 0. -/
def sJob (n : Nat) (jobs : List Nat) (st : JobSt) (s : State) : State :=
  let j := s.onJob 4 (fun _ => { loaded := true, pair := 1, mask := 1, st := st, queue := n, live := 1 })
  { j with jobs := { j.jobs with queues := Tbl.set {} j.jobs.queues n { live := true, pair := 1, jobs := jobs, mask := 1 } } }
/-- The part with core 0 in service, On, and no task. -/
def sIdle : State := (sRun.onDom 0 (fun x => { x with st := .on })).setCore 0 { mapState := 1 }
/-- An image of one task on core 0 with no segments. -/
def tImage : List Byte :=
  toLE 4 1 ++ toLE 4 7 ++ toLE 8 1 ++ toLE 4 0 ++ toLE 4 1000 ++ toLE 8 0 ++ toLE 4 64 ++ List.replicate 28 0 ++ List.replicate 400 0
/-- A CONTEXT_LOAD of it on the last pair, the image in the host's memory at 0. -/
def sLoad : State :=
  sMsg { sIdle with host := { sIdle.host with mem := (tImage.zipIdx).foldl (fun m (b, i) => Memory.write m i b) [] } }
    15 0x40 0 (toLE 8 1 ++ toLE 8 0 ++ toLE 4 464)

/-- The last queue number free; an idle queue; an image that loads at the last index; an idle job. -/
theorem witness_QueuesAndContexts :
    Canon sLoad ∧ ((sMsg sRun 15 0x30 0 []).found? 15 0x30).isSome = true ∧ sRun.gateErr false true = none
      ∧ (sRun.squeue 63).live = false
      ∧ (let s := sMsg (sJob 5 [] .idle sRun) 1 0x31 0 [5]
        (s.found? 1 0x31).any (fun f => leAt f.bytes 16 1 == 5) = true ∧ s.gateErr false false = none
          ∧ s.queueErr 1 5 = none ∧ (s.squeue 5).jobs = [] ∧ (∀ x ∈ s.jobs.jobs, x.2.st = .idle ∨ x.2.queue ≠ 5))
      ∧ (sLoad.found? 15 0x40).isSome = true ∧ sLoad.gateErr true true = none
      ∧ (let f := (sLoad.found? 15 0x40).getD {}
        let r := sLoad.fetchBytes (leAt f.bytes 16 1 == 1) (leAt f.bytes 24 8) (leAt f.bytes 32 4)
        r.2.1 = none ∧ (match readImage r.1 with
          | .ok im => match r.2.2.checkImage im [] with
            | .ok ts => (maskCores im.mask).all (fun lc => (r.2.2.dom (r.2.2.core lc).phys.toNat).st == .on)
                && (r.2.2.sleepers im ts).all (fun x => x.2 == []) && ts.length == 1
            | .error _ => false
          | .error _ => false) = true ∧ (r.2.2.job 4095).loaded = false)
      ∧ (let s := sMsg (sJob 5 [] .idle sRun) 1 0x41 4 []
        (s.found? 1 0x41).any (fun f => f.job == 4 && (s.jobErr 1 f).isNone) = true ∧ (s.job 4).st = .idle) :=
  ⟨canonB_sound _ (by decide +kernel), by decide +kernel⟩

/-- The last queue's head, to submit, to cancel, to start, to save and to complete; a spare that is usable and one that is not. -/
theorem witness_JobsRunAndEnd :
    Canon sIdle
      ∧ (let s := sMsg (sJob 63 [] .idle sIdle) 1 0x50 4 [63]
        (s.found? 1 0x50).any (fun f => f.job == 4 && leAt f.bytes 16 1 == 63 && (s.jobErr 1 f).isNone) = true
          ∧ s.gateErr true true = none ∧ s.queueErr 1 63 = none ∧ (s.job 4).st = .idle
          ∧ (∀ lc ∈ maskCores (s.job 4).mask, s.coreServes lc = true))
      ∧ (∀ st ∈ [JobSt.queued, .running], let s := sMsg (sJob 63 [4] st sIdle) 1 0x51 4 []
        (s.found? 1 0x51).any (fun f => f.job == 4 && (s.jobErr 1 f).isNone) = true ∧ s.gateErr false false = none
          ∧ (s.job 4).st = st)
      ∧ (let s := sJob 63 [4] .queued sIdle
        (s.at_ 5).jobsReady = true ∧ (s.at_ 5).primaryUp = true ∧ (s.at_ 5).pickQueue = some 63
          ∧ (s.at_ 5).ready? 63 = some 4 ∧ (s.job 4).st = .queued)
      ∧ (let tk : Task := { job := 4, preempting := true }
        let s := (sJob 63 [] .preempting sIdle).onSeq 0 (fun q => { q with task := some tk })
        (s.core 0).seq.task = some tk ∧ tk.preempting = true ∧ tk.stop = none ∧ s.mgmt.faultActive = false
          ∧ (s.core 0).savable = true ∧ s.groupsRest 0 = true)
      ∧ (∀ st ∈ [JobSt.running, .stopping], let s := (sJob 63 [] st sIdle).onJob 4 (fun j => { j with live := 0 })
        (s.job 4).st = st ∧ (s.job 4).live = 0 ∧ s.jobsReady = true ∧ s.primaryUp = true)
      ∧ (let s := (sRun.setCore 63 { mapState := 2, phys := 70 })
        (s.core 63).mapState = 2 ∧ (s.core 63).seq.task = none ∧ s.contexts = []
          ∧ s.spareUsable (s.clusterSpare ((s.core 63).phys.toNat / 9)) = true
          ∧ (let u := { s with flash := { s.flash with fails := [.core (s.clusterSpare 7)] } }
            u.spareUsable (u.clusterSpare ((u.core 63).phys.toNat / 9)) = false)) :=
  ⟨canonB_sound _ (by decide +kernel), by decide +kernel⟩

/-! ### Power, heat, clocks and starts -/

/-- Domain `d` in a state. -/
def sDom (d : Nat) (x : Domain) : State := sRun.onDom d (fun _ => x)

/-- The least times between samples, readings, hours and days. -/
theorem witness_SamplesSteerThePower :
    Canon (sDom 71 { st := .on, readAt := some 0 }) ∧ sRun.pins.pwrGood = true
      ∧ ({ sRun with pwr := { sampledAt := some 0 } } : State).pwr.sampledAt = some 0 ∧ 0 + 1000 ≤ max sRun.clk.now 1000
      ∧ ((sDom 71 { st := .on }).dom 71).st = .on ∧ fld (sRun.domCtl 71) 8 3 ≠ 0
      ∧ ((sDom 71 { st := .on, shunt := true }).dom 71).shunt = true ∧ 0 + 100 ≤ max sRun.clk.now 100
      ∧ ((sDom 71 { st := .on, readAt := some 0 }).dom 71).readAt = some 0
      ∧ 0 + 60000000000 ≤ max sRun.clk.now 60000000000
      ∧ (sRun.dom 71).hourAt + 3600000000000 ≤ max sRun.clk.now 3600000000000 ∧ (sRun.dom 71).oweTrim = 0
      ∧ (sRun.dom 71).oweMargin = 0 ∧ sRun.temperHeld 71 = false
      ∧ sRun.pwr.savedAt + 86400000000000 ≤ max sRun.clk.now 86400000000000 ∧ sRun.mc0Up = true :=
  ⟨canonB_sound _ (by decide +kernel), by decide +kernel⟩

/-- The last phase; the last domain; a resistance just up by three tenths, at a current just enough. -/
theorem witness_PowerFailuresDarken :
    Canon (sDom 71 { st := .retention, phases := 1 }) ∧ ((sDom 71 { st := .retention, phases := 1 }).dom 71).phases ≠ 0
      ∧ ((sDom 88 { st := .on }).dom 88).st ≠ .off ∧ ((sDom 88 { st := .on }).dom 88).st ≠ .dark
      ∧ ((sDom 88 { st := .on, rBase := 10 }).dom 88).rBase ≠ 0 ∧ ((sDom 88 { st := .on }).dom 88).rBase = 0
      ∧ 13 * (10 : Nat) ≤ 10 * 13 ∧ ¬ 13 * (10 : Nat) ≤ 10 * 12 ∧ sRun.pwr.alwaysOn = true :=
  ⟨canonB_sound _ (by decide +kernel), by decide +kernel⟩

/-- No neighbour stands in the way, whichever the neighbours are. -/
theorem witness_DomainsSwitchAndStep_grant : (sDom 71 { st := .retention, askedAt := some 0 }).grantOk 71 = true := by
  simp only [State.grantOk, Bool.and_eq_true, List.all_eq_true, List.mem_range]
  refine ⟨by decide +kernel, fun k hk => ?_⟩
  have h : ∀ k < 72, (!(sDom 71 { st := .retention, askedAt := some 0 }).domNoticed k
      && decide (((sDom 71 { st := .retention, askedAt := some 0 }).dom k).amps.toNat ≤ 96)) = true := by decide +kernel
  rw [h k hk]
  simp

theorem witness_DomainsSwitchAndStep :
    let dom (x : Domain) : Domain := (sDom 71 x).dom 71
    Canon (sDom 71 { st := .on }) ∧ (dom { st := .on }).st = .on ∧ sRun.mc0Up = true
      ∧ (∀ k < 64, sRun.coreOf 71 = some k → (sRun.core k).seq.task = none ∧ sRun.quiet k = true) ∧ sRun.contexts = []
      ∧ (let x := dom { st := .retention, askedAt := some 0 }
        x.askedAt.isSome = true ∧ x.granted = none ∧ x.st = .retention
          ∧ 0 + 50000 ≤ max sRun.clk.now 50000)
      ∧ (dom { st := .retention, granted := some 0 }).granted = some 0 ∧ 0 + 5000 ≤ max sRun.clk.now 5000
      ∧ ({ st := .on, droopAt := some 0 } : Domain).drooped 9999 = true
      ∧ ({ st := .on, droopAt := some 0 } : Domain).drooped 10000 = false
      ∧ (dom { st := .on, pending := true }).pending = true
      ∧ (dom { st := .on, fstep := 5 }).raiseTo = none
      ∧ (let x := dom { st := .on, fstep := 5, raiseTo := some 6, vMv := 700, slewFrom := 690 }
        x.raiseTo = some 6 ∧ x.vMv.toNat ≤ x.output (max sRun.clk.now 500) + 5
          ∧ (x.raised 400 = false))
      ∧ (let x := dom { st := .on, hotSince := some 0, ftarget := 1 }
        x.policyAt + 10000000 ≤ max sRun.clk.now 10000000 ∧ x.coolSince = none ∧ x.hotSince = some 0
          ∧ 0 + 10000000 ≤ max sRun.clk.now 10000000 ∧ x.ftarget ≠ 0)
      ∧ sRun.parkEn = true
      ∧ (dom { st := .on, parkSince := some 0 }).parkSince = some 0
      ∧ (dom { st := .on, parkPending := true }).parkPending = true
      ∧ (dom { parked := true, unparkSince := some 0 }).parked = true ∧ (dom { parked := true }).askedAt = none :=
  ⟨canonB_sound _ (by decide +kernel), by decide +kernel⟩

/-- A sensor just over 85 °C and one just under 83 °C; a trip that releases; coolant back after a Quench. -/
theorem witness_HeatStopsThePart :
    let s : State := { sRun with thm := { trip := true }, mgmt := { sRun.mgmt with waitStart := none } }
    Canon (sDom 71 { st := .on }) ∧ bit ({ sRun with thm := { blind := 0x80 } } : State).thm.blind (71 / 9) = true
      ∧ ((sDom 71 { st := .on }).dom 71).st = .on
      ∧ (let u := after (.stackThermalSample 15 [341, 0, 0, 0] 5) sRun
        u.reading (96 + 4 * 15 + 0) = some 341 ∧ (u.stk 15).hot = true)
      ∧ (let u := after (.stackThermalSample 15 [331, 0, 0, 0] 5) (sRun.onStk 15 (fun k => { k with hot := true }))
        u.reading (96 + 4 * 15 + 0) = some 331 ∧ (u.stk 15).hot = false)
      ∧ (let u := after (.stackThermalSample 15 [0, 0, 0, 380] 5) sRun
        u.reading (96 + 4 * 15 + 3) = some 380 ∧ (u.stk 15).halfBw = true)
      ∧ s.thm.trip = true ∧ (List.replicate 160 (399 : Int)).length = 160 ∧ (∀ x ∈ List.replicate 160 (399 : Int), x < 400)
      ∧ s.mgmt.waitStart = none ∧ sRun.pins.coolantOk = true
      ∧ (let w : State := { sRun with pins := { sRun.pins with coolantOk := false }, thm := { fallAt := some 0 } }
        w.pins.coolantOk = false ∧ w.pins.vddio33 = true ∧ w.thm.fallAt = some 0 ∧ max w.clk.now 9999 < 0 + 10000
          ∧ 0 + 10000 ≤ max w.clk.now 10000)
      ∧ (let w : State :=
          { sRun with thm := { quenchActive := true, riseAt := some 0 }, mgmt := { sRun.mgmt with faultActive := true } }
        w.thm.quenchActive = true ∧ w.pins.coolantOk = true ∧ w.thm.riseAt = some 0 ∧ 0 + 1000000000 ≤ max w.clk.now 1000000000
          ∧ w.mgmt.faultActive = true ∧ w.faultHold = false ∧ w.thm.tripLatched = false) :=
  ⟨canonB_sound _ (by decide +kernel), by decide +kernel⟩

/-- A start that waits for the trip to release. -/
theorem witness_HeatStopsThePart_waits (b : Boot) :
    ({ sRun with thm := { trip := true }, mgmt := { sRun.mgmt with waitStart := some (2, b) } } : State).mgmt.waitStart
      = some (2, b) := rfl

/-- A stage 5 that finds these cores bad, with the last row, column and bank of core 71. -/
def tFive (failed : List (Fin 72)) : Stage5 :=
  { failed := failed, rows := [(71, .f, 129)], cols := [(71, .g1, 515)], banks := [(71, 65)], beyond := false }

/-- The limits of the supply, the faults 1 and 6, and a port that holds off for a fault. -/
theorem witness_ClocksSuppliesAndStarts :
    let low : State := { sRun with pins := { sRun.pins with pwrGood := false } }
    let five : State := { sRun with mgmt := { sRun.mgmt with stage := 5 }, thm := { coolantOk := true } }
    Canon sRun ∧ bit sRun.clk.refLost 3 = false ∧ (({ sRun with clk := { refLost := 2 } } : State).at_ 1000000000).optHoldoverOut = true
      ∧ (({ sRun with clk := { refLost := 2 } } : State).at_ 999999999).optHoldoverOut = false
      ∧ low.pins.pwrGood = false ∧ low.pins.vddio33 = true ∧ low.pins.vddio18 = true ∧ low.pins.vinOk = true
      ∧ low.pwr.alwaysOn = true ∧ sRun.pins.pwrGood = true ∧ ((35999 : Nat) < 36000 ∨ (62000 : Nat) < 35999)
      ∧ ((62001 : Nat) < 36000 ∨ (62000 : Nat) < 62001) ∧ ({ sRun with pins := { vinOk := false } } : State).pins.vinOk = false
      ∧ five.mgmt.stage = 5 ∧ five.mgmt.faultActive = false ∧ five.thm.coolantOk = true ∧ five.pins.pwrGood = true
      ∧ (tFive [71]).beyond = false
      ∧ ({ sRun with mgmt := { bankedDue := true } } : State).mgmt.bankedDue = true ∧ 1 ≤ (6 : BitVec 4).toNat
      ∧ (6 : BitVec 4).toNat ≤ 6 ∧ sRun.mgmt.recovery = false ∧ sRun.mc0Up = true ∧ sRun.starting = false
      ∧ sRun.mgmt.stage = 6 ∧ sRun.primaryUp = true ∧ sRun.mgmt.standby = false
      ∧ ({ sRun with mgmt := { standby := true } } : State).mgmt.standby = true
      ∧ bit ({ sRun with mgmt := { sRun.mgmt with up := 11 } } : State).mgmt.up 2 = false
      ∧ (let s := sRun.onPort 95 (fun q => { q with rxLf := true, st := .training })
        (s.port 95).rxLf = true ∧ (s.port 95).st ≠ .down) :=
  ⟨canonB_sound _ (by decide +kernel), by decide +kernel⟩

theorem witness_ServiceInterfacesAnswer :
    let sel : State := { sRun with pins := { sRun.pins with smbSel := some 0x2000 } }
    Canon sRun ∧ ({ sRun with sec := { level := 1 } } : State).sec.level ≠ 0 ∧ sRun.sec.level = 0 ∧ sRun.mc0Up = true
      ∧ sRun.smbAlive = true ∧ (toLE 4 0x0601014C).length = 4 ∧ smbServed (leAt (toLE 4 0x0601014C) 0 4) = true
      ∧ smbServed (leAt (toLE 4 0x1000) 0 4) = false ∧ sel.pins.smbSel = some 0x2000
      ∧ sRun.pins.smbMirrorAt + 1000000 ≤ max sRun.clk.now 1000000 ∧ sRun.pwr.alwaysOn = true ∧ sRun.pins.vinOk = true :=
  ⟨canonB_sound _ (by decide +kernel), by decide +kernel⟩

/-! ### Rules of the whole part -/

theorem witness_DiscardCopiesTheApplied :
    sRun.host.linkUp = true ∧ bit (1 : BitVec 32) 0 = true ∧ sRun.cfg.active = none
      ∧ ({ sRun with cfg := { active := some {} } } : State).cfg.active = some {} := by
  decide +kernel

/-- At 2³⁰ exactly, with keys and without. -/
theorem witness_ExhaustedIdentityIsAnswered :
    2 ^ 30 ≤ (sSign (2 ^ 30)).sec.signNext.toNat ∧ ¬ 2 ^ 30 ≤ (sSign (2 ^ 30 - 1)).sec.signNext.toNat
      ∧ (((sMsg (sSign (2 ^ 30)) 15 0x11 0 []).at_ 5).found? 15 0x11).isSome = true ∧ (sSign (2 ^ 30)).sec.attests.length = 1
      ∧ (sSign (2 ^ 30)).sec.keysErased = false := by
  decide +kernel

theorem witness_MessagesCarryTheirCrc : 16 ≤ (mkMsg 0 1 0 []).length := by decide

/-- A selection of two from rows of four, and of eight, more than the candidates. -/
theorem witness_ShortSelectionsAreFilled :
    ∀ k ∈ [2, 8], let s := sRed 0x52 0 [0, 1] [(72, k - 1)]
      beginsB (redRow (fun w => redSub w == 1) (fun w => redSub w ≥ 2 || histFieldsSet w)) 0x52 s .q = true
        ∧ readyB s .q 0 4 k = true ∧ redK (headCtx s .q).w = k
        ∧ (newCands (redAxis (headCtx s .q).w) (redBase (headCtx s .q).w) ((readInputs s (headCtx s .q)).1.getD 0 {}) 3).length
          = 4 := by
  decide +kernel

theorem witness_SelectionsAreCutFree :
    (([{ v := .inf true, code := 1, pos := 0 }] ++ [{ v := .nan, code := 1, pos := 7 }] : List Cand).map Cand.pos).Nodup := by
  decide +kernel

/-! ### Ill-formed commands -/

/-- One operand after another that is too short, too long, out of its range or named twice. -/
def tPkt8 : PktHdr := tPkt 0
def tDram : DramHdr := { addr := 0, runFmt := 0, tmseq := 0, grp := 0, gv := false, xferLen := 4 }
def tBoot (digest lanes good : Nat) : Boot :=
  { imgA := true, imgB := true, version := 1, digest := List.replicate digest 0, minorMax := 0, flash0 := true, flash1 := true,
    partOk := true, testsOk := true, fail := 0, digestOk := true, lanes := List.replicate lanes 0, unread := [], good := List.replicate good 0 }

theorem smoke_ill_formed_lengths :
    ([.windowWrite 0 0 0 (tWinHdr 0) false [1, 2, 3], .xbarRead .cxl 0 1 none (.miscorrected [1]), .xbarWrite .cxl 0 1 [1] false none,
      .sliceMissFill 0 (.miscorrected []), .stackRead 0 (.miscorrected [1]), .stackWrite 0 1 [1] false .clean,
      .stackWrite 0 1 (List.replicate 64 0) false (.miscorrected [1]), .inPlaceAdd 1 false (List.replicate 64 0) false .clean,
      .inPlaceAdd 0 false [1] false .clean, .inPlaceAdd 0 false (List.replicate 64 0) false (.miscorrected [1]),
      .patrolScrub 0 (.miscorrected [1]), .bisnpResponse 0 (some ([1], false)), .hostMemRequest 0 (.write 1 [1] false) false,
      .frameReceive 0 (tFrame 17 .arp), .pfcFrameRx 0 [1] 0, .hiSerTimer 0 2 1 0 0 0, .writeWin tPkt8 (tWinHdr 0) [],
      .writeDram tPkt8 tDram (List.replicate 8193 0), .addDram tPkt8 tDram [], .readResp tPkt8 0 0 true [1],
      .readResp tPkt8 0 0 false []] : List Instr).all (fun i => !i.wf) = true := by
  decide +kernel

theorem smoke_ill_formed_events :
    ([.contextLoad 0 0 [(1, 0), (1, 4)], .cfgStart (tBoot 31 16 8) 0, .fwUpdateDone .ok (tBoot 32 15 8) 0, .damperSample 0 0 [1] 0,
      .thermalSample 0 none [none] 0, .stackThermalSample 0 [1] 0, .tripRelease [1], .pwrGoodRise (tBoot 32 16 7) 0 0,
      .startStage5 (tFive [3, 3]) 0, .bankedRestart (tBoot 33 16 8) 0, .mc0WatchdogExpiry true (tBoot 0 0 0) 0,
      .hdmDecoderCommit 0 (2 ^ 64) 0 0 1, .hdmDecoderCommit 0 0 (2 ^ 64) 0 1, .hdmDecoderCommit 0 0 0 (2 ^ 64) 1,
      .hdmDecoderCommit 0 0 0 0 0] : List Instr).all (fun i => !i.wf) = true := by
  decide +kernel

theorem smoke_well_formed :
    ([.windowWrite 0 0 0 (tWinHdr 0) false [1, 2, 3, 4], .stackWrite 0 1 (List.replicate 64 0) false .clean,
      .inPlaceAdd 64 false (List.replicate 64 0) false .clean, .bisnpResponse 0 none, .frameReceive 0 (tFrame 18 .arp),
      .writeDram tPkt8 tDram (List.replicate 8192 0), .readResp tPkt8 0 0 true [], .contextLoad 0 0 [(1, 0), (2, 0)],
      .cfgStart (tBoot 32 16 8) 0, .startStage5 (tFive [3, 71]) 0, .hdmDecoderCommit 1 0 0 0 1,
      .nop 0 .f] : List Instr).all (fun i => i.wf) = true := by
  decide +kernel

/-! ### Single steps and tables of the spec -/

/-- The table gives no row bits, so no word spells a command. -/
theorem test_no_words : decodeTableWord 32 0xFFFFFFFF = none ∧ (State.withFetchWord State.reset 32 7) = State.reset := by
  decide +kernel

/-- Commands are taken first in first out (log 1). -/
theorem test_step_takes_the_front :
    (match step { sNop with pending := [.nop 0 .v, .refRestored 0] } with
      | .next t => t.pending == [.refRestored 0] && (t.eng 0 .v).fetched.isEmpty
      | _ => false) = true := by
  decide +kernel

/-- The worked example of R180: 0x12_3456_7880. -/
theorem test_address_map :
    (let a := 0x1234567880
    (stackOf a, localUnit a, slotOf a, sliceOf a, setOf a, localOf a, deviceOf 8 0x123456780))
      = (8, 0x1234567, 5, 69, 345, 0x123456780, 0x1234567880) := by
  decide +kernel

/-- With CL5 disabled, CL6 carries LC40–LC47 and CL7 LC48–LC55 (R24's text). -/
theorem test_disabled_cluster :
    (let s : State := { mgmt := { defect56 := true, defectCluster := 5 } }
    ((s.carrier 39), (s.carrier 40), (s.carrier 47), (s.carrier 48), (s.carrier 55), (s.carrier 56)))
      = (some 43, some 54, some 61, some 63, some 70, none) := by
  decide +kernel

/-- The largest finite value, the smallest subnormal and the specials of R34's table, by FMT code (R99). -/
theorem test_formats :
    Fp.cmp (decodeFmt 3 0x7E) (.ofInt 448) = some .eq ∧ decodeFmt 3 0xFF = .nan
      ∧ Fp.cmp (decodeFmt 4 0x7B) (.ofInt 57344) = some .eq ∧ decodeFmt 4 0xFC = .inf true ∧ decodeFmt 4 0x7D = .nan
      ∧ Fp.cmp (decodeFmt 3 1) (.fin false 1 (-9)) = some .eq ∧ Fp.cmp (decodeFmt 2 0x7BFF) (.ofInt 65504) = some .eq
      ∧ Fp.cmp (decodeFmt 1 1) (.fin false 1 (-133)) = some .eq := by
  decide +kernel

/-- FP32 rounds to nearest, ties to even, and overflows to infinity (R72): 2²⁴ + 1, and twice the largest. -/
theorem test_fp32_rounds :
    toFp32 (Fp.add (.ofInt 16777216) (.ofInt 1)) = 0x4B800000 ∧ toFp32 (Fp.add (.ofInt 16777218) (.ofInt 1)) = 0x4B800002
      ∧ toFp32 (Fp.mul (.ofInt 2) (fp 0x7F7FFFFF)) = 0x7F800000 := by
  decide +kernel

/-- An element of vx.add of a tile and a register: 1.5 + 2.25 is 3.75 (R72). -/
theorem test_vx_add :
    (let s := (sVxTile 0x30 [0] [(96, 0xC2), (128, 0x40)]).onScp 0 (fun m =>
        { m with bytes := Mem.writeN [] 0 (toLE 4 0x3FC00000), vregs := regPut [] 0 2 [0x40100000] })
    leNat (Mem.readN ((after (.vxAdd 0) s).core 0).scp.bytes (4 * 0x1000) 4)) = 0x40700000 := by
  decide +kernel

/-- dma.copy lays the source's bytes at its destination's slot (R134). -/
theorem test_dma_copy :
    (let s := sCopy.onScp 0 (fun m => { m with bytes := Mem.writeN [] 0 (List.replicate 64 7) })
    Mem.readN ((after (.dmaCopy 0 .d0) s).core 0).scp.bytes (4 * 0x1000) 65) = List.replicate 64 7 ++ [0] := by
  decide +kernel

/-- A unit written to a stack is read back, under the mask (R187, R188). -/
theorem test_stack_write_masked :
    (let s := after (.stackWrite 0x40 1 (List.replicate 64 9) false .clean) sRun
    Mem.readN s.mem.dram 0x40 2) = [9, 0] := by
  decide +kernel
end

section
/-! SUPPORT. Bytes laid out and read back: the lengths of little-endian numbers and of byte ranges, and that a read of
the range just written gives the bytes written. -/

namespace Sys2Proof.Machine

@[simp] theorem length_toLE (k n : Nat) : (toLE k n).length = k := by
  induction k generalizing n with
  | zero => rfl
  | succ k ih => simp [toLE, ih]

@[simp] theorem length_bytesAt (b : List Byte) (off n : Nat) : (bytesAt b off n).length = n := by
  simp only [bytesAt, List.length_append, List.length_take, List.length_drop, List.length_replicate]
  omega

/-- A range as long as the list is the list. -/
theorem bytesAt_zero_of_length {b : List Byte} {n : Nat} (h : b.length = n) : bytesAt b 0 n = b := by
  subst h
  simp [bytesAt]

@[simp] theorem bytesAt_bytesAt (b : List Byte) (off n : Nat) : bytesAt (bytesAt b off n) 0 n = bytesAt b off n :=
  bytesAt_zero_of_length (length_bytesAt b off n)

/-- A read of the range just written gives the bytes written. -/
theorem Mem.readN_writeN_same (m : Memory) (a : Nat) (l : List Byte) (hm : m.wf = true) :
    Mem.readN (Mem.writeN m a l) a l.length = l := by
  induction l generalizing m a with
  | nil => rfl
  | cons b r ih =>
    have first : Memory.read (Mem.writeN m a (b :: r)) a = b :=
      Mem.read_writeN_same m a 0 (b :: r) hm (Nat.succ_pos r.length)
    have rest := ih (Memory.write m a b) (a + 1) (Memory.write_wf m a b hm)
    simp only [List.length_cons, Mem.readN, first]
    exact congrArg (b :: ·) rest

/-- The memory of the host is in its canonical form. -/
theorem Canon.host_mem {s : State} (h : Canon s) : s.host.mem.wf = true := by
  obtain ⟨-, -, -, -, -, ⟨-, hmem, -⟩, -⟩ := h
  exact hmem

end Sys2Proof.Machine
end

section
/-! SUPPORT. Answers to the host: what accepting, refusing and placing a response leave unchanged (R308). -/

namespace Sys2Proof.Machine

variable {s : State}

/-- Refusing a request changes the host interface at most. -/
theorem State.refuse_only_host (s : State) (n : Nat) (f : Found) (code : Nat) : Within [.host] s (s.refuse n f code) :=
  State.refuse_within n f code Within.rfl (by decide)

/-- Accepting a request changes the host interface at most. -/
theorem State.accept_only_host (s : State) (n : Nat) (f : Found) (extra : List Byte) :
    Within [.host] s (s.accept n f extra) :=
  State.accept_within n f extra Within.rfl (by decide)

/-- A request taken for a later answer changes the host interface at most. -/
theorem State.consume_accepted_only_host (s : State) (n : Nat) (f : Found) :
    Within [.host] s ((s.onPair n (fun q => q.consumeMsg f)).accepted n f) :=
  State.accepted_within n f (State.onPair_within n _ Within.rfl (by decide)) (by decide)

/-- A late answer changes the host interface at most. -/
theorem State.answerLate_only_host (s : State) (n type : Nat) (minor : Byte) (reqSeq status detail : Nat)
    (extra : List Byte) : Within [.host] s (s.answerLate n type minor reqSeq status detail extra) :=
  State.answerLate_within n type minor reqSeq status detail extra Within.rfl (by decide)

@[simp] theorem State.accepted_hostState (s : State) (n : Nat) (f : Found) :
    (s.accepted n f).host.hostState = s.host.hostState := by
  unfold State.accepted
  split <;> rfl

@[simp] theorem State.hold_host_mem (s : State) (m : Held) : (s.hold m).host.mem = s.host.mem := rfl

@[simp] theorem State.placeResp_host_mem (s : State) (n : Nat) (m : List Byte) :
    (s.placeResp n m).host.mem = s.host.mem := by
  unfold State.placeResp
  split <;> rfl

@[simp] theorem State.answerLate_host_mem (s : State) (n type : Nat) (minor : Byte) (reqSeq status detail : Nat)
    (extra : List Byte) : (s.answerLate n type minor reqSeq status detail extra).host.mem = s.host.mem :=
  State.placeResp_host_mem s n _

end Sys2Proof.Machine
end

section
/-! SUPPORT. LICENCE_INSTALL (R393): its outcome once the licence's bytes are fetched. -/

namespace Sys2Proof.Machine

section
variable {s u : State} {f : Found} {b : List Byte} {bad : Option Nat}
  (hf : s.found? 0 0x10 = some f) (hh : s.host.hostState = 0) (hm : s.mc0Up = true) (hl : leAt f.bytes 32 4 = 3796)
  (hb : s.fetchBytes (leAt f.bytes 16 1 == 1) (leAt f.bytes 24 8) 3796 = (b, bad, u))
include hf hh hm hl hb

/-- A licence that fails a check is refused with that check's code. -/
theorem exec_licenceInstall_refused {e : Nat} (he : u.licenceErr b bad.isSome = some e) :
    exec .licenceInstall s = .next (u.refuse 0 f e) := by
  show execLicenceInstall s = _
  simp [execLicenceInstall, State.hostAway, hf, hh, hm, hl, hb, he]

/-- A licence that passes every check is written to flash. -/
theorem exec_licenceInstall_written (he : u.licenceErr b bad.isSome = none) :
    exec .licenceInstall s =
      .next (({ u with flash := { u.flash with licence := some (parseLicence b) } } : State).accept 0 f []) := by
  show execLicenceInstall s = _
  simp [execLicenceInstall, State.hostAway, hf, hh, hm, hl, hb, he]

/-- The licence reaches the flash and neither the security state nor the part's management: the level it runs at stays. -/
theorem exec_licenceInstall_flash :
    ∃ t, exec .licenceInstall s = .next t ∧ t.mgmt = u.mgmt ∧ t.sec = u.sec
      ∧ t.flash = match u.licenceErr b bad.isSome with
        | none => { u.flash with licence := some (parseLicence b) }
        | some _ => u.flash := by
  cases he : u.licenceErr b bad.isSome with
  | some e =>
    have w := State.refuse_only_host u 0 f e
    exact ⟨_, exec_licenceInstall_refused hf hh hm hl hb he,
      w .mgmt (by decide), w .sec (by decide), w .flash (by decide)⟩
  | none =>
    have w := State.accept_only_host { u with flash := { u.flash with licence := some (parseLicence b) } } 0 f []
    exact ⟨_, exec_licenceInstall_written hf hh hm hl hb he,
      w .mgmt (by decide), w .sec (by decide), w .flash (by decide)⟩

end

end Sys2Proof.Machine
end

section
/-! SUPPORT. Attestation: the report, the signature numbers and what a signature writes (R387–R390). -/

namespace Sys2Proof.Machine

/-- The report's fields before the nonce (R387). -/
def State.reportHead (s : State) : List Byte :=
  toLE 4 1 ++ toLE 4 s.partId.toNat ++ toLE 8 s.clk.now ++ toLE 4 s.flash.startCount.toNat ++ toLE 1 s.sec.level.toNat
    ++ toLE 1 (b2n s.mgmt.imageB) ++ toLE 10 0

theorem State.length_reportHead (s : State) : s.reportHead.length = 32 := by simp [State.reportHead]

/-- The report is its head, the nonce and the digests. -/
theorem State.report_eq_append (s : State) (nonce : List Byte) :
    ∃ digests, s.report nonce = s.reportHead ++ (bytesAt nonce 0 32 ++ digests) := by
  simp only [State.report, State.reportHead, List.append_assoc]
  exact ⟨_, rfl⟩

/-- The nonce stands in the report after its first 32 bytes (R387). -/
theorem State.report_nonce (s : State) (nonce : List Byte) :
    ((s.report nonce).drop 32).take 32 = bytesAt nonce 0 32 := by
  obtain ⟨digests, h⟩ := s.report_eq_append nonce
  rw [h, List.drop_left' s.length_reportHead, List.take_left' (length_bytesAt nonce 0 32)]

/-- The report an ATTEST_REQUEST found on a pair queues. -/
def State.attestOf (s : State) (p : Nat) (f : Found) : Attest :=
  { pair := p
    reqSeq := BitVec.ofNat 32 f.seq
    minor := f.minor
    addr := leAt f.bytes 48 8
    report := s.report (bytesAt f.bytes 16 32) }

/-- A request that nothing stands against is consumed, and its report joins the queue. -/
theorem exec_attestRequest_queued {s : State} {p : Fin 16} {t : Nat} {f : Found}
    (hf : (s.at_ t).found? p 0x11 = some f) (he : (s.at_ t).attestErr = none) :
    let u := ((s.at_ t).onPair p (fun q => q.consumeMsg f)).accepted p f
    exec (.attestRequest p t) s =
      .next { u with sec := { u.sec with attests := u.sec.attests ++ [u.attestOf p f] } } := by
  show execAttestRequest p t s = _
  simp [execAttestRequest, State.attestOf, hf, he]

/-! ### Signature numbers -/

/-- No number below the next one is taken. -/
theorem Security.signNext_le_reserve (c : Security) : c.signNext.toNat ≤ c.reserve.1 := by
  cases hm : c.usedMax with
  | none => simp [Security.reserve, hm]
  | some m =>
    simp only [Security.reserve, hm]
    split
    · exact Nat.le_max_left _ _
    · exact Nat.le_refl _

/-- The reserve in flash grows by 1,024 once it does not cover the number. -/
theorem Security.reserve_snd (c : Security) :
    c.reserve.2 = if c.flashReserved.toNat ≤ c.reserve.1 then c.reserve.1 + 1024 else c.flashReserved.toNat := rfl

/-- The end of the reserve, once written, lies above the number. -/
theorem Security.reserve_fst_lt_snd (c : Security) : c.reserve.1 < c.reserve.2 := by
  rw [c.reserve_snd]
  split <;> omega

/-- With numbers left, the end of the reserve fits its word. -/
theorem Security.reserve_snd_lt (c : Security) (h : c.reserve.1 < 2 ^ 30) : c.reserve.2 < 2 ^ 32 := by
  rw [c.reserve_snd]
  split
  · omega
  · exact c.flashReserved.isLt

/-- A part that can sign has numbers left (R391). -/
theorem State.reserve_lt_of_attestErr {s : State} (h : s.attestErr = none) : s.sec.reserve.1 < 2 ^ 30 := by
  by_contra hq
  have exhausted : 2 ^ 30 ≤ s.sec.reserve.1 := Nat.le_of_not_lt hq
  simp only [State.attestErr, ge_iff_le, exhausted, if_true] at h
  split at h <;> cases h

/-! ### The signature -/

/-- Report, signature and certificate as the host's buffer receives them (R388). -/
def Attest.signed (a : Attest) (q : Nat) : List Byte :=
  a.report ++ bytesAt (Config.identitySign (BitVec.ofNat 32 q) a.report) 0 3284 ++ bytesAt Config.identityCert 0 3796

theorem Attest.length_signed {a : Attest} (q : Nat) (h : a.report.length = 256) : (a.signed q).length = 7336 := by
  simp [Attest.signed, h]

/-- The state once the oldest report `a` is signed and written, before its answer; `r` is what waits behind it. -/
def State.afterSignature (s : State) (a : Attest) (r : List Attest) (ready : Bool) : State :=
  let q := s.sec.reserve.1
  { s with
    sec := { s.sec with
      attests := r
      signNext := BitVec.ofNat 32 (q + 1)
      signReserved := BitVec.ofNat 32 s.sec.reserve.2
      flashReserved := BitVec.ofNat 32 s.sec.reserve.2
      usedMax := some (BitVec.ofNat 32 q)
      treeReady := if (q + 1) % 32768 = 0 then ready else s.sec.treeReady }
    host := { s.host with mem := Mem.writeN s.host.mem a.addr (a.signed q) } }

section
variable {s : State} {a : Attest} {r : List Attest}
  (ha : s.sec.attests = a :: r) (he : s.attestErr = none) (hm : s.mc0Up = true) (hl : s.host.linkUp = true)
  (ht : s.sec.treeReady = true)
include ha he hm hl ht

/-- With MC0, the link and the tree up, the oldest report is signed and answered. -/
theorem exec_attestSign_signed (ready : Bool) :
    exec (.attestSign ready) s = .next
      ((s.afterSignature a r ready).answerLate a.pair 0x11 a.minor a.reqSeq.toNat 0 0 (toLE 4 7336)) := by
  show execAttestSign ready s = _
  simp [execAttestSign, State.signNext, State.afterSignature, Attest.signed, ha, he, hm, hl, ht]

/-- The signature takes a number at or above the next one and below the reserve flash holds, and the next one lies
above it, so that no number is used twice (R389, R390). -/
theorem exec_attestSign_number (hs : Canon s) (ready : Bool) :
    ∃ (t : State) (q : Word), exec (.attestSign ready) s = .next t ∧ t.sec.attests = r ∧ t.sec.usedMax = some q
      ∧ s.sec.signNext.toNat ≤ q.toNat ∧ t.sec.signNext.toNat = q.toNat + 1
      ∧ q.toNat < t.sec.flashReserved.toNat ∧ t.sec.signReserved = t.sec.flashReserved
      ∧ (a.report.length = 256 → Mem.readN t.host.mem a.addr 7336 =
        a.report ++ bytesAt (Config.identitySign q a.report) 0 3284 ++ bytesAt Config.identityCert 0 3796) := by
  let t := (s.afterSignature a r ready).answerLate a.pair 0x11 a.minor a.reqSeq.toNat 0 0 (toLE 4 7336)
  have sec : t.sec = (s.afterSignature a r ready).sec :=
    State.answerLate_only_host _ _ _ _ _ _ _ _ .sec (by decide)
  have hq : s.sec.reserve.1 < 2 ^ 30 := State.reserve_lt_of_attestErr he
  have qNat : (BitVec.ofNat 32 s.sec.reserve.1).toNat = s.sec.reserve.1 :=
    Nat.mod_eq_of_lt (by omega)
  have nextNat : (BitVec.ofNat 32 (s.sec.reserve.1 + 1)).toNat = s.sec.reserve.1 + 1 :=
    Nat.mod_eq_of_lt (by omega)
  have endNat : (BitVec.ofNat 32 s.sec.reserve.2).toNat = s.sec.reserve.2 :=
    Nat.mod_eq_of_lt (s.sec.reserve_snd_lt hq)
  refine ⟨t, BitVec.ofNat 32 s.sec.reserve.1, exec_attestSign_signed ha he hm hl ht ready, ?_⟩
  rw [sec]
  refine ⟨rfl, rfl, ?_, ?_, ?_, rfl, fun hlen => ?_⟩
  · exact qNat.symm ▸ s.sec.signNext_le_reserve
  · exact nextNat.trans (congrArg (· + 1) qNat.symm)
  · exact qNat.symm ▸ endNat.symm ▸ s.sec.reserve_fst_lt_snd
  · show Mem.readN t.host.mem a.addr 7336 = a.signed s.sec.reserve.1
    have mem : t.host.mem = Mem.writeN s.host.mem a.addr (a.signed s.sec.reserve.1) :=
      State.answerLate_host_mem _ _ _ _ _ _ _ _
    rw [mem, ← Attest.length_signed s.sec.reserve.1 hlen]
    exact Mem.readN_writeN_same _ _ _ hs.host_mem

end

/-- With no report waiting there is nothing to sign. -/
theorem State.signNext_of_no_attests {s : State} (h : s.sec.attests = []) (ready : Bool) : s.signNext ready = s := by
  simp [State.signNext, h]

/-- A tree that becomes ready is noted, and a waiting report is signed (R389). -/
theorem exec_secondLevelTreeReady_noted {s : State} (hm : s.mc0Up = true) (ht : s.sec.treeReady = false) :
    exec .secondLevelTreeReady s = .next (({ s with sec := { s.sec with treeReady := true } } : State).signNext false) := by
  show execSecondLevelTreeReady s = _
  simp [execSecondLevelTreeReady, hm, ht]

end Sys2Proof.Machine
end

section
/-! SUPPORT. Access levels: unlocks with a signature and with a password, and the nonce (R394–R396). -/

namespace Sys2Proof.Machine

/-- An attempt with a signature answers by whether the owner's key answers the challenge. -/
theorem exec_secUnlockSignature_done {s u : State} {t : Nat} {a : Apply} {b : List Byte}
    (h : (s.at_ t).unlockData false = some (a, b, u)) :
    exec (.secUnlockSignature t) s =
      .next ((u.trySignature (fld (u.appliedReg 0x07000060) 2 2) b).2.unlockDone a
        (if u.ownerAnswers (fld (u.appliedReg 0x07000060) 2 2) b = true then 0 else eAccessDenied)) := by
  show execSecUnlockSignature t s = _
  unfold execSecUnlockSignature
  simp only [h]
  rfl

/-- An attempt with a password answers what trying it comes to. -/
theorem exec_secUnlockPassword_done {s u : State} {t : Nat} {a : Apply} {b : List Byte}
    (h : (s.at_ t).unlockData true = some (a, b, u)) :
    exec (.secUnlockPassword t) s =
      .next ((u.tryPassword (fld (u.appliedReg 0x07000060) 2 2) b).2.unlockDone a
        (u.tryPassword (fld (u.appliedReg 0x07000060) 2 2) b).1) := by
  show execSecUnlockPassword t s = _
  unfold execSecUnlockPassword
  simp only [h]

/-! ### Trying a password -/

theorem State.tryPassword_locked {s : State} (level : Nat) (pw : List Byte) (h : s.sec.pwLocked = true) :
    s.tryPassword level pw = (eAccessLocked, s) := by
  simp [State.tryPassword, h]

theorem State.tryPassword_opens {s : State} {level : Nat} {pw : List Byte} (h : s.sec.pwLocked = false)
    (ho : s.passwordOpens level pw = true) : s.tryPassword level pw = (0, s.openLevel 1 1) := by
  simp [State.tryPassword, h, ho]

/-- A wrong password is counted, and the fifth locks the method. -/
theorem State.tryPassword_fails {s : State} {level : Nat} {pw : List Byte} (h : s.sec.pwLocked = false)
    (ho : s.passwordOpens level pw = false) :
    s.tryPassword level pw = (eAccessDenied, { s with sec := { s.sec with
      pwFails := BitVec.ofNat 3 (s.sec.pwFails.toNat + 1), pwLocked := decide (5 ≤ s.sec.pwFails.toNat + 1) } }) := by
  simp [State.tryPassword, h, ho]

/-! ### The nonce -/

/-- A fresh nonce changes the security state and the free values drawn at most. -/
theorem State.newNonce_only_sec_free (s : State) : Within [.sec, .free] s s.newNonce :=
  State.newNonce_within Within.rfl (by decide) (by decide)

/-- Drawing a nonce counts it. -/
theorem State.newNonce_nonceMade (s : State) : s.newNonce.sec.nonceMade = s.sec.nonceMade + 1 :=
  congrArg (· + 1) (foldl_keeps (P := fun u : State => u.sec.nonceMade = s.sec.nonceMade) _ (List.range 8) rfl
    fun _ _ h => h)

/-- A fresh nonce is current from now on. -/
theorem State.newNonce_nonceAt (s : State) : s.newNonce.sec.nonceAt = some s.clk.now := by
  have clk : s.newNonce.clk = s.clk := s.newNonce_only_sec_free .clk (by decide)
  have stamped : s.newNonce.sec.nonceAt = some s.newNonce.clk.now := rfl
  rw [stamped, clk]

/-- NONCE_READ draws a nonce and answers its first word. -/
theorem exec_nonceRead_linked {s : State} (t : Nat) (h : s.host.linkUp = true) :
    exec (.nonceRead t) s =
      .next ((s.at_ t).newNonce.readOut 0x07000020 (Tbl.get 0 (s.at_ t).newNonce.sec.nonce 0)) := by
  have linked : (s.at_ t).host.linkUp = true := h
  show execNonceRead t s = _
  simp only [execNonceRead, linked, if_true]

end Sys2Proof.Machine
end

section
open Sys2Proof Sys2Proof.Machine

/-- Settles O45: each command's outcome is its lemma above; a signature's number comes from `Security.reserve`. -/
theorem licencesSignaturesAndLocks : Obligations.LicencesSignaturesAndLocks := by
  intro s hs
  refine ⟨?licence, ?request, ?sign, ?tree, ?signature, ?password, ?nonce⟩
  case licence =>
    intro f hf hh hm hl b bad u hb
    exact exec_licenceInstall_flash hf hh hm hl hb
  case request =>
    intro p t f hf he
    let u := ((s.at_ t).onPair p (fun q => q.consumeMsg f)).accepted p f
    have w : Within [.host] (s.at_ t) u := State.consume_accepted_only_host _ _ _
    have sec : u.sec = s.sec := w .sec (by decide)
    refine ⟨_, exec_attestRequest_queued hf he, ⟨u.attestOf p f, ?_, rfl, rfl, ?_⟩, ?_, w .cores (by decide)⟩
    · exact congrArg (fun c : Security => c.attests ++ [u.attestOf p f]) sec
    · exact (u.report_nonce _).trans (bytesAt_bytesAt _ _ _)
    · exact State.accepted_hostState _ _ _
  case sign =>
    intro ready a r ha he hm hl ht _
    exact exec_attestSign_number ha he hm hl ht hs ready
  case tree =>
    intro hm ht
    refine ⟨_, exec_secondLevelTreeReady_noted hm ht, fun h => State.signNext_of_no_attests ?_ _⟩
    exact h
  case signature =>
    intro t a b u h
    exact exec_secUnlockSignature_done h
  case password =>
    intro t a b u h
    rw [exec_secUnlockPassword_done h]
    cases hl : u.sec.pwLocked with
    | true => simp [State.tryPassword_locked _ _ hl]
    | false =>
      cases ho : u.passwordOpens (fld (u.appliedReg 0x07000060) 2 2) b with
      | true => simp [State.tryPassword_opens hl ho]
      | false => simp [State.tryPassword_fails hl ho]
  case nonce =>
    intro t hl
    refine ⟨_, exec_nonceRead_linked t hl, (s.at_ t).newNonce_nonceMade, (s.at_ t).newNonce_nonceAt, ?_⟩
    have host : (s.at_ t).newNonce.host = s.host := (s.at_ t).newNonce_only_sec_free .host (by decide)
    exact congrArg (fun x : HostIf => x.out ++ [.regData 0x07000020 (Tbl.get 0 (s.at_ t).newNonce.sec.nonce 0)]) host
end

section
/-! SUPPORT. The drain path's pump: a tile that takes its place there changes its array and the order of the path, and
nothing else of its core or of another (R48). -/

namespace Sys2Proof.Machine

/-- A tile that takes its place on the drain path, or begins to wait for it, changes no sequencer beyond the path's
order. -/
theorem State.queueTile_seq {s : State} (lc : Nat) (x : Nat × Nat) (h : Canon s) :
    ∃ l, ((s.queueTile lc x).core lc).seq = { (s.core lc).seq with drainOrder := l } := by
  unfold State.queueTile
  have array (a : Arr) (f : ArrayU → ArrayU) : ((s.onArray lc a f).core lc).seq = (s.core lc).seq := by
    rw [State.core_onArray_same lc a f h]
    cases a <;> rfl
  dsimp only
  split
  · exact ⟨_, rfl⟩
  · split
    · rw [State.core_onSeq_same lc _ (State.onArray_keeps lc _ _ h), array]
      exact ⟨_, rfl⟩
    · split
      · exact ⟨_, rfl⟩
      · exact ⟨_, array _ _⟩

theorem State.core_queueTile_other (s : State) (lc k : Nat) (x : Nat × Nat) (hk : k ≠ lc) :
    (s.queueTile lc x).core k = s.core k := by
  unfold State.queueTile
  dsimp only
  split
  · rfl
  · split
    · rw [State.core_onSeq_other _ _ _ _ hk, State.core_onArray_other _ _ _ _ _ hk]
    · split
      · rfl
      · exact State.core_onArray_other _ _ _ _ _ hk

/-- The pump changes no sequencer beyond the drain path's order. -/
theorem State.drainPump_seq {s : State} (lc : Nat) (h : Canon s) :
    ∃ l, ((s.drainPump lc).core lc).seq = { (s.core lc).seq with drainOrder := l } := by
  refine (foldl_keeps
    (P := fun u => Canon u ∧ ∃ l, (u.core lc).seq = { (s.core lc).seq with drainOrder := l })
    _ _ ⟨h, _, rfl⟩ fun u x ⟨hu, _, hl⟩ => ⟨State.queueTile_canon lc x hu, ?_⟩).2
  obtain ⟨l', hl'⟩ := State.queueTile_seq lc x hu
  exact ⟨l', by rw [hl', hl]⟩

@[simp] theorem State.core_drainPump_other (s : State) (lc k : Nat) (hk : k ≠ lc) :
    (s.drainPump lc).core k = s.core k :=
  foldl_keeps (P := fun u : State => u.core k = s.core k) _ _ rfl
    fun u x hu => (State.core_queueTile_other u lc k x hk).trans hu

@[simp] theorem State.queue_drainPump {s : State} (lc n : Nat) (h : Canon s) :
    ((s.drainPump lc).core lc).seq.queue n = (s.core lc).seq.queue n := by
  obtain ⟨l, hl⟩ := State.drainPump_seq lc h
  rw [hl]
  rfl

/-- The pump leaves what a retirement meets. -/
theorem goesOn_drainPump {s : State} (lc : Nat) (e : Eng) (h : Canon s) :
    goesOn (s.drainPump lc) lc e = goesOn s lc e := by
  obtain ⟨l, hl⟩ := State.drainPump_seq lc h
  simp only [goesOn, noStopCount, State.eng, hl]
  rfl

end Sys2Proof.Machine
end

section
/-! SUPPORT. q.cfg and q.push: the state each comes to once it may begin (R101, R102, R121). -/

namespace Sys2Proof.Machine

/-- A change of an engine leaves every queue. -/
theorem State.queue_onEng {s : State} (lc n : Nat) (e : Eng) (f : Engine → Engine) (h : Canon s) :
    ((s.onEng lc e f).core lc).seq.queue n = (s.core lc).seq.queue n := by
  simp [h]

/-- A change of a queue leaves what a retirement meets. -/
theorem goesOn_onQueue {s : State} (lc n : Nat) (e : Eng) (f : Queue → Queue) (h : Canon s) :
    goesOn (s.onQueue lc n f) lc e = goesOn s lc e :=
  goesOn_onSeq lc e _ h fun _ => ⟨rfl, rfl⟩

section
variable {s : State} {c : Ctx} {lc : Fin 64} (hs : Canon s) (hg : goesOn s lc .s = true)
include hs hg

/-- q.cfg configures its queue, pumps the drain path and retires (R48, R101). -/
theorem exec_qCfg_begun (hb : Begins qCfgRow 0x10 s lc .s c) :
    exec (.qCfg lc) s = .next (((s.onQueue lc (fld c.w 64 6) (fun _ =>
      { mode := fld c.w 70 2
        depth := fld c.w 72 6 + 1
        prod := fld c.w 78 4
        cons := fld c.w 82 4
        seg := fld c.w 119 3
        off := fld c.w 96 23
        slotWords := fld c.w 128 23 })).drainPump lc).onEng lc .s (Engine.retire c.f.loops)) := by
  have hlc := admit_go_lc hb.go
  have he := admit_go_e hb.go
  show execQCfg lc s = _
  rw [execQCfg, runCmd_go _ hb.go, hlc, State.retireFront_goesOn, hlc, he]
  · exact State.drainPump_canon _ (State.onQueue_keeps _ _ _ hs)
  · rw [hlc, he, goesOn_drainPump _ _ (State.onQueue_keeps _ _ _ hs), goesOn_onQueue _ _ _ _ hs, hg]

/-- q.push appends its descriptor to its queue as a Ready entry and retires (R102, R121). -/
theorem exec_qPush_begun (hb : Begins qPushRow 0x11 s lc .s c) :
    exec (.qPush lc) s = .next ((s.onQueue lc (c.outs.getD 0 0) (fun q => q.add (decodeDesc (pushDesc c.w)) .ready)).onEng lc
      .s (Engine.retire c.f.loops)) := by
  have hlc := admit_go_lc hb.go
  have he := admit_go_e hb.go
  show execQPush lc s = _
  rw [execQPush, runCmd_go _ hb.go, hlc, State.retireFront_goesOn, hlc, he]
  · exact State.onQueue_keeps _ _ _ hs
  · rw [hlc, he, goesOn_onQueue _ _ _ _ hs, hg]

end

end Sys2Proof.Machine
end

section
open Sys2Proof Sys2Proof.Machine

/-- Settles O9: the state each command comes to is its lemma above; the pump of the drain path touches no queue and no other
core. -/
theorem queueCommandsAct : Obligations.QueueCommandsAct := by
  refine ⟨fun lc s c hs hb hg => ?cfg, fun lc s c hs hb hg => ?push⟩
  case cfg =>
    have queue (n : Nat) (f : Queue → Queue) :
        ((((s.onQueue lc (fld c.w 64 6) f).drainPump lc).onEng lc .s (Engine.retire c.f.loops)).core lc).seq.queue n =
          ((s.core lc).seq.onQueue (fld c.w 64 6) f).queue n := by
      have configured : Canon (s.onQueue lc (fld c.w 64 6) f) := State.onQueue_keeps _ _ _ hs
      rw [State.queue_onEng _ _ _ _ (State.drainPump_canon _ configured), State.queue_drainPump _ _ configured,
        State.core_onQueue_same _ _ _ hs]
    refine ⟨_, exec_qCfg_begun hs hg hb, rfl, ?_, fun n hn => ?_, fun k hk => ?_⟩
    · simp [queue, hs]
    · simp [queue, hn]
    · simp [hk]
  case push =>
    intro n q
    have run : exec (.qPush lc) s = .next ((s.onQueue lc n (fun q => q.add (decodeDesc (pushDesc c.w)) .ready)).onEng lc .s
      (Engine.retire c.f.loops)) := exec_qPush_begun hs hg hb
    clear_value n
    refine ⟨_, run, ?_, ?_, fun m hm => ?_, ?_, fun k hk => ?_⟩
    · simp [q, hs, Queue.add, pushDesc]
    · rw [State.eng_onEng _ _ _ (State.onQueue_keeps _ _ _ hs)]
      simp [State.eng, hs]
    · simp [hs, hm]
    · simp [hs]
    · simp [hk]
end

section
/-! SUPPORT. The end of a drain whose command's stationary operand lies in a queue with two entries of one identity. -/

namespace Sys2Proof.Machine

/-- The mm of `sDraining` at its drain's end: its moving operand is gathered and has a hold on the stationary one's entry in
queue 2; behind that entry stands another of its identity, Ready, gathered, with a hold on the output's entry. -/
def sTwinEntries : State :=
  let gathered (st : EntrySt) (l : List (Nat × Nat)) : QEntry := { st := st, holds := 1, gather := some { held := l } }
  (((sDraining.onQueue 0 1 (fun q => { q with entries := [gathered .held [(2, 0)]] })).onQueue 0 2 (fun q =>
    { q with entries := [{ st := .held, holds := 1 }, gathered .ready [(3, 0)]] })).onQueue 0 3 (fun q => q.keep 0)).onEng 0 .f
      (fun g => { g with fetched := [{}] })

/-- The command `sTwinEntries` drains. -/
def bTwinEntries : Begun := ((sTwinEntries.eng 0 .f).begunBy 0).getD {}

theorem sTwinEntries_canon : Canon sTwinEntries := canonB_sound _ (by decide +kernel)

/-- No input's entry, as its queue gives it, holds one of the output's queue. -/
theorem sTwinEntries_holds_no_output (o : Nat × Nat) (ho : o ∈ bTwinEntries.outs) (x : Nat × Nat × Bool)
    (hx : x ∈ bTwinEntries.ins) : x.1 ≠ o.1
      ∧ ∀ y, ((sTwinEntries.core 0).entry x.1 x.2.1).gather = some y → ∀ h ∈ y.held, h.1 ≠ o.1 := by
  have held : bTwinEntries.outs.all (fun o => bTwinEntries.ins.all (fun x => x.1 != o.1
      && (((sTwinEntries.core 0).entry x.1 x.2.1).gather.all (fun y => y.held.all (fun h => h.1 != o.1))))) = true := by
    decide +kernel
  simp only [List.all_eq_true, Bool.and_eq_true, bne_iff_ne, Option.all_eq_true] at held
  exact held o ho x hx

/-- With the first entry of identity 0 released, the second's hold on the output is released in its place, and the output's
entry loses a hold as it turns Ready. -/
theorem sTwinEntries_loses_hold :
    ((after (.tileDrainEnd 0 true) sTwinEntries).core 0).seq.queue 3 =
      ((sTwinEntries.core 0).seq.queue 3).onEntry 0 (fun e => { e with st := .ready, holds := 0 }) := by
  decide +kernel

end Sys2Proof.Machine
end

section
open Sys2Proof Sys2Proof.Machine

/-- Refutes O21 in its clause on a command's last tile: in a queue with two entries of one identity the second takes the
place of the first once that is released, so that TILE_DRAIN_END also releases what the second holds; where that is the
command's own output, the entry stands Ready with a hold fewer, and not as the statement has it. The statement does not ask that a
queue's entries have identities of their own (`Queue.idsOk`), as O18 does. -/
theorem not_arrayPassesAndDrains : ¬ Obligations.ArrayPassesAndDrains := by
  rintro ⟨-, -, drainEnd⟩
  let x := (sTwinEntries.core 0).entry 3 0
  obtain ⟨passed, -⟩ := drainEnd 0 true sTwinEntries .f false bTwinEntries sTwinEntries_canon (by decide +kernel)
    (by decide +kernel) (by decide +kernel) (by decide +kernel)
  obtain ⟨v, hv, -, -, ready⟩ := (passed rfl (by decide +kernel) (by decide +kernel)).2 (by decide +kernel) (by decide +kernel)
    (by decide +kernel) (by decide +kernel) (by decide +kernel) sTwinEntries_holds_no_output
  have after_eq : after (.tileDrainEnd 0 true) sTwinEntries = v := by
    rw [after, hv]
  have mem : { x with st := .ready } ∈ ((v.core 0).seq.queue 3).entries :=
    ready (3, 0) (by decide +kernel) x (by decide +kernel) (by decide +kernel)
  rw [← after_eq, sTwinEntries_loses_hold] at mem
  exact absurd mem (by decide +kernel)
end

section
/-! SUPPORT. An array's command begins: it pops its inputs, each from a queue of its own, and stands last among its
engine's begun ones (R102, R103, R126). -/

namespace Sys2Proof.Machine

theorem nodup_of_hasDup {l : List Nat} (h : hasDup l = false) : l.Nodup := by
  induction l with
  | nil => exact List.nodup_nil
  | cons a r ih =>
    simp only [hasDup, Bool.or_eq_false_iff, List.contains_eq_mem, decide_eq_false_iff_not] at h
    exact List.nodup_cons.2 ⟨h.1, ih h.2⟩

/-- A command that passes its checks uses its slots as its row has them (R96). -/
theorem slotsErr_of_checkErr {r : Row} {s : State} {c : Ctx} (h : checkErr r s c = none) : slotsErr r c.v1 c.w = false := by
  unfold checkErr at h
  dsimp only at h
  split at h
  · cases h
  · split at h
    · cases h
    · next right => exact Bool.eq_false_iff.2 right

/-- No two inputs of a command that may begin come from one queue (R95). -/
theorem Begins.ins_nodup {r : Row} {op lc : Nat} {s : State} {e : Eng} {c : Ctx} (h : Begins r op s lc e c) :
    (c.ins.map (·.qn)).Nodup := by
  have noDup : hasDup c.w.queues = false := by
    have slots := slotsErr_of_checkErr h.checks
    simp only [slotsErr, Bool.or_eq_false_iff] at slots
    obtain ⟨⟨-, distinct⟩, -⟩ := slots
    exact distinct
  obtain ⟨f, l, -, -, rfl⟩ := h.front
  have queues : (frontCtx s lc e f).w.queues =
      (frontCtx s lc e f).ins.map (·.qn) ++ (Cmd.outSlots f.word).map (fun i => slotQueue (Cmd.slot f.word i)) := by
    simp [Cmd.queues, frontCtx, Ctx.w]
  exact (List.nodup_append.1 (queues ▸ nodup_of_hasDup noDup)).1

/-- What an array's command does to the queue of an input: it pops the entry, or under KEEP holds it. -/
def InRef.take (i : InRef) (q : Queue) : Queue := if i.keep then q.keep i.ent.id else q.pop i.ent.id

/-- A sequencer with these inputs taken. -/
def Sequencer.takeAll (q : Sequencer) (ins : List InRef) : Sequencer :=
  { q with queues := ins.foldl (fun t i => Tbl.upd {} t i.qn i.take) q.queues }

theorem Sequencer.takeAll_cons (q : Sequencer) (i : InRef) (ins : List InRef) :
    q.takeAll (i :: ins) = (q.onQueue i.qn i.take).takeAll ins := rfl

theorem Sequencer.queue_takeAll_other {q : Sequencer} {ins : List InRef} {n : Nat} (h : ∀ i ∈ ins, i.qn ≠ n) :
    (q.takeAll ins).queue n = q.queue n := by
  induction ins generalizing q with
  | nil => rfl
  | cons i r ih =>
    obtain ⟨hi, hr⟩ := List.forall_mem_cons.1 h
    rw [takeAll_cons, ih hr, queue_onQueue_other _ _ _ _ hi.symm]

theorem Sequencer.queue_takeAll {q : Sequencer} {ins : List InRef} (hq : q.Canon) (hd : (ins.map (·.qn)).Nodup) {i : InRef}
    (hi : i ∈ ins) : (q.takeAll ins).queue i.qn = i.take (q.queue i.qn) := by
  induction ins generalizing q with
  | nil => cases hi
  | cons j r ih =>
    rw [List.map_cons, List.nodup_cons] at hd
    have apart : ∀ x ∈ r, x.qn ≠ j.qn := fun x hx e => hd.1 (e ▸ List.mem_map_of_mem hx)
    rw [takeAll_cons]
    rcases List.mem_cons.1 hi with rfl | hi
    · rw [queue_takeAll_other apart, queue_onQueue_same _ _ _ hq]
    · rw [ih (onQueue_keeps _ _ _ hq) hd.2 hi, queue_onQueue_other _ _ _ _ (apart i hi)]

/-- An engine whose front command has begun with these tiles to drain (R126). -/
def Engine.withBegun (c : Ctx) (tiles : Nat) (poison : Bool) (g : Engine) : Engine :=
  { g with
    fetched := g.fetched.drop 1
    begunCount := g.begunCount + 1
    loops := c.f.loops
    wait := none
    begun := g.begun ++ [{ word := c.w, pos := c.f.pos, loops := c.f.loops, serial := g.begunCount
                           ins := c.ins.map (fun i => (i.qn, i.ent.id, i.keep)), tilesLeft := tiles
                           poison := poison, grp := c.grp }] }

theorem State.core_takeAll {s : State} (hs : Canon s) (lc : Nat) (ins : List InRef) :
    (ins.foldl (fun s i => s.onQueue lc i.qn i.take) s).core lc =
      { s.core lc with seq := (s.core lc).seq.takeAll ins } := by
  induction ins generalizing s with
  | nil => rfl
  | cons i r ih =>
    rw [List.foldl_cons, ih (State.onQueue_keeps _ _ _ hs), State.core_onQueue_same _ _ _ hs, Sequencer.takeAll_cons]

section
variable {s : State} (hs : Canon s) (c : Ctx) (tiles : Nat) (poison : Bool)

include hs in
theorem State.core_beginArray : (s.beginArray c tiles poison).core c.lc =
    { s.core c.lc with
      seq := ((s.core c.lc).seq.takeAll c.ins).onEng c.e (Engine.withBegun c tiles poison) } := by
  have popped : (s.popInputs c).core c.lc = _ := State.core_takeAll hs c.lc c.ins
  show ((s.popInputs c).onEng c.lc c.e (Engine.withBegun c tiles poison)).core c.lc = _
  rw [State.core_onEng_same _ _ _ (State.popInputs_canon c hs), popped]

theorem State.core_beginArray_other (k : Nat) (hk : k ≠ c.lc) : (s.beginArray c tiles poison).core k = s.core k := by
  have popped : (s.popInputs c).core k = s.core k :=
    foldl_keeps (P := fun u : State => u.core k = s.core k) _ _ rfl
      fun u i hu => (State.core_onQueue_other u _ _ _ _ hk).trans hu
  exact (State.core_onEng_other _ _ _ _ _ hk).trans popped

end

/-- A command has begun once its engine, its inputs' queues and all else of the cores stand so. -/
theorem HasBegun.of_takeAll {s t : State} {c : Ctx} {tiles : Nat} {poison : Bool} (hs : Canon s)
    (hd : (c.ins.map (·.qn)).Nodup) (eng : t.eng c.lc c.e = (s.eng c.lc c.e).withBegun c tiles poison)
    (queues : ∀ n, (t.core c.lc).seq.queue n = ((s.core c.lc).seq.takeAll c.ins).queue n)
    (scp : (t.core c.lc).scp = (s.core c.lc).scp) (cores : ∀ k, k ≠ c.lc → t.core k = s.core k) :
    HasBegun s t c tiles poison where
  eng := eng
  inputs i hi := (queues i.qn).trans (Sequencer.queue_takeAll (seq_canon c.lc hs) hd hi)
  queues n hn := (queues n).trans (Sequencer.queue_takeAll_other hn)
  scp := scp
  cores := cores

end Sys2Proof.Machine
end

section
/-! SUPPORT. An array's passes stand ready and its start is announced: nothing of the core changes but that array's passes
and notices (R108, R325). -/

namespace Sys2Proof.Machine

@[simp] theorem Core.seq_onArray (co : Core) (a : Arr) (f : ArrayU → ArrayU) : (co.onArray a f).seq = co.seq := by
  cases a <;> rfl
@[simp] theorem Core.scp_onArray (co : Core) (a : Arr) (f : ArrayU → ArrayU) : (co.onArray a f).scp = co.scp := by
  cases a <;> rfl
@[simp] theorem Core.array_onArray_same (co : Core) (a : Arr) (f : ArrayU → ArrayU) :
    (co.onArray a f).array a = f (co.array a) := by
  cases a <;> rfl
@[simp] theorem Core.array_withSeq (co : Core) (q : Sequencer) (a : Arr) : { co with seq := q }.array a = co.array a := by
  cases a <;> rfl

/-- An array with these passes to enter, and its notice pending or due. -/
def ArrayU.announced (l : List Pass) (notice due : Bool) (x : ArrayU) : ArrayU :=
  { x with passes := l, notice := notice, noticeDue := due }

/-- The start of an array is announced and these passes of it stand ready. -/
def State.startPasses (s : State) (lc : Nat) (a : Arr) (l : List Pass) : State :=
  (s.bellows lc a).onArray lc a (fun x => { x with passes := l })

theorem State.startPasses_canon {s : State} (lc : Nat) (a : Arr) (l : List Pass) (h : Canon s) :
    Canon (s.startPasses lc a l) :=
  State.onArray_keeps _ _ _ (State.bellows_canon _ _ h)

/-- Of its core only the array changes, and of that only its passes and its notices. -/
theorem State.core_startPasses {s : State} (lc : Nat) (a : Arr) (l : List Pass) (h : Canon s) :
    ∃ notice due, (s.startPasses lc a l).core lc = (s.core lc).onArray a (ArrayU.announced l notice due) := by
  let x := (s.core lc).array a
  rw [startPasses, State.core_onArray_same _ _ _ (State.bellows_canon _ _ h)]
  unfold State.bellows
  split
  · exact ⟨x.notice, x.noticeDue, by cases a <;> rfl⟩
  · split <;> rw [State.core_onArray_same _ _ _ h]
    · exact ⟨x.notice, true, by cases a <;> rfl⟩
    · exact ⟨true, x.noticeDue, by cases a <;> rfl⟩

theorem State.core_startPasses_other (s : State) (lc : Nat) (a : Arr) (l : List Pass) (k : Nat) (hk : k ≠ lc) :
    (s.startPasses lc a l).core k = s.core k := by
  rw [startPasses, State.core_onArray_other _ _ _ _ _ hk]
  unfold State.bellows
  split
  · rfl
  · split <;> exact State.core_onArray_other _ _ _ _ _ hk

end Sys2Proof.Machine
end

section
/-! SUPPORT. The effects of mm and mm.win3d (R107, R108, R110) and of mm.tongs (R63, R111). -/

namespace Sys2Proof.Machine

@[simp] theorem arrOf_eng (a : Arr) : arrOf a.eng = a := by cases a <;> rfl

/-- G1's half of an mm.tongs beside G0's: it has no slots of its own (R111). -/
def Ctx.partner (c : Ctx) (s : State) : Ctx :=
  { lc := c.lc, e := .g1, f := ((s.eng c.lc .g1).fetched.head?).getD {}, v1 := false, ins := [], outs := [], grp := c.grp }

/-- Both halves of an mm.tongs begun, with the tiles each has to drain. -/
def State.beginHalves (s : State) (c : Ctx) (tiles0 tiles1 : Nat) : State :=
  (s.beginArray c tiles0 false).beginArray (c.partner s) tiles1 false

/-- An mm.tongs begun on both arrays, with the passes of each. -/
def State.beginPair (s : State) (c : Ctx) (tiles0 tiles1 : Nat) (l0 l1 : List Pass) : State :=
  (((s.beginHalves c tiles0 tiles1).startPasses c.lc .g0 l0).startPasses c.lc .g1 l1).onSeq c.lc
    (fun q => { q with pairStarted := false })

/-- What a beginning pair makes of its core's sequencer: the inputs are taken, both halves begin, and the pair is no longer
started. -/
def Sequencer.beginPair (q : Sequencer) (c c1 : Ctx) (tiles0 tiles1 : Nat) : Sequencer :=
  { ((q.takeAll c.ins).onEng c.e (Engine.withBegun c tiles0 false)).onEng .g1 (Engine.withBegun c1 tiles1 false) with
    pairStarted := false }

section
variable {s : State} {c : Ctx} (hs : Canon s)
include hs

/-- An array's command begins, and its passes stand ready. -/
theorem beginArray_startPasses (hd : (c.ins.map (·.qn)).Nodup) (a : Arr) (tiles : Nat) (poison : Bool) (l : List Pass) :
    HasBegun s ((s.beginArray c tiles poison).startPasses c.lc a l) c tiles poison
      ∧ passesStand s ((s.beginArray c tiles poison).startPasses c.lc a l) c.lc a l := by
  obtain ⟨notice, due, core⟩ := State.core_startPasses c.lc a l (State.beginArray_canon c tiles poison hs)
  rw [State.core_beginArray hs] at core
  refine ⟨HasBegun.of_takeAll hs hd ?_ (fun n => ?_) ?_ fun k hk => ?_, ?_⟩
  · simp only [State.eng, core, Core.seq_onArray]
    exact Sequencer.eng_onEng _ _ _ (engines_wf hs c.lc)
  · simp [core]
  · simp [core]
  · rw [State.core_startPasses_other _ _ _ _ _ hk, State.core_beginArray_other _ _ _ _ hk]
  · simp [passesStand, core, ArrayU.announced]

/-- Of its core a beginning pair changes the sequencer, and of G0 and G1 the passes and the notices. -/
theorem State.core_beginPair (tiles0 tiles1 : Nat) (l0 l1 : List Pass) :
    ∃ n0 d0 n1 d1, (s.beginPair c tiles0 tiles1 l0 l1).core c.lc =
      { s.core c.lc with
        seq := (s.core c.lc).seq.beginPair c (c.partner s) tiles0 tiles1
        arrG0 := (s.core c.lc).arrG0.announced l0 n0 d0
        arrG1 := (s.core c.lc).arrG1.announced l1 n1 d1 } := by
  have canon0 : Canon (s.beginArray c tiles0 false) := State.beginArray_canon _ _ _ hs
  have canon1 : Canon (s.beginHalves c tiles0 tiles1) := State.beginArray_canon _ _ _ canon0
  have canonP := State.startPasses_canon c.lc .g0 l0 canon1
  obtain ⟨n0, d0, core0⟩ := State.core_startPasses c.lc .g0 l0 canon1
  obtain ⟨n1, d1, core1⟩ := State.core_startPasses c.lc .g1 l1 canonP
  have half1 : (s.beginHalves c tiles0 tiles1).core c.lc = _ := State.core_beginArray canon0 (c.partner s) tiles1 false
  have half0 : (s.beginArray c tiles0 false).core (c.partner s).lc = _ := State.core_beginArray hs c tiles0 false
  refine ⟨n0, d0, n1, d1, ?_⟩
  rw [beginPair, State.core_onSeq_same _ _ (State.startPasses_canon _ _ _ canonP), core1, core0, half1, half0]
  rfl

end

theorem State.core_beginPair_other (s : State) (c : Ctx) (tiles0 tiles1 : Nat) (l0 l1 : List Pass) (k : Nat) (hk : k ≠ c.lc) :
    (s.beginPair c tiles0 tiles1 l0 l1).core k = s.core k := by
  rw [beginPair, State.core_onSeq_other _ _ _ _ hk, State.core_startPasses_other _ _ _ _ _ hk,
    State.core_startPasses_other _ _ _ _ _ hk, beginHalves, State.core_beginArray_other (c.partner s) _ _ _ hk,
    State.core_beginArray_other _ _ _ _ hk]

/-- G0's engine begins the command and G1's its partner. -/
theorem Sequencer.eng_beginPair {q : Sequencer} (hq : q.Canon) {c : Ctx} (c1 : Ctx) (he : c.e = .g0) (tiles0 tiles1 : Nat) :
    (q.beginPair c c1 tiles0 tiles1).eng .g0 = (q.eng .g0).withBegun c tiles0 false
      ∧ (q.beginPair c c1 tiles0 tiles1).eng .g1 = (q.eng .g1).withBegun c1 tiles1 false := by
  have taken : Tbl.wf {} (q.takeAll c.ins).engines = true := hq.1
  have begun : Tbl.wf {} ((q.takeAll c.ins).onEng c.e (Engine.withBegun c tiles0 false)).engines = true :=
    Tbl.upd_wf _ _ _ _ taken
  constructor
  · calc (q.beginPair c c1 tiles0 tiles1).eng .g0
      _ = ((q.takeAll c.ins).onEng c.e (Engine.withBegun c tiles0 false)).eng .g0 :=
        Sequencer.eng_onEng_other _ .g1 .g0 _ (by decide)
      _ = (q.eng .g0).withBegun c tiles0 false := by rw [he, Sequencer.eng_onEng _ _ _ taken]; rfl
  · calc (q.beginPair c c1 tiles0 tiles1).eng .g1
      _ = (((q.takeAll c.ins).onEng c.e (Engine.withBegun c tiles0 false)).eng .g1).withBegun c1 tiles1 false :=
        Sequencer.eng_onEng _ .g1 _ begun
      _ = (q.eng .g1).withBegun c1 tiles1 false := by rw [he, Sequencer.eng_onEng_other _ _ _ _ (by decide)]; rfl

/-- G0's half of a pair has begun. -/
theorem hasBegun_beginPair {s : State} {c : Ctx} (hs : Canon s) (hd : (c.ins.map (·.qn)).Nodup) (he : c.e = .g0)
    (tiles0 tiles1 : Nat) (l0 l1 : List Pass) : HasBegun s (s.beginPair c tiles0 tiles1 l0 l1) c tiles0 false := by
  obtain ⟨n0, d0, n1, d1, core⟩ := State.core_beginPair (c := c) hs tiles0 tiles1 l0 l1
  refine HasBegun.of_takeAll hs hd ?_ (fun n => ?_) ?_ (State.core_beginPair_other s c tiles0 tiles1 l0 l1)
  · rw [he, State.eng, core]
    exact (Sequencer.eng_beginPair (seq_canon c.lc hs) _ he tiles0 tiles1).1
  · rw [core]
    rfl
  · rw [core]

/-- The product of an mm or mm.win3d at the front (R107, R110). -/
def Ctx.mmProd (c : Ctx) : Prod := Machine.mmProd c.w c.v1 (c.ins.getD 0 {}).ent (c.ins.getD 1 {}).ent

/-- Its row blocks fill one tile, which stays with the array or is drained at the end (R108). -/
def Ctx.mmKept (c : Ctx) : Bool := mmAcc c.w || !mmDrain c.w

theorem mmEff_eq (c : Ctx) (s : State) : mmEff c s =
    (s.beginArray c (if mmDrain c.w = true then mmTiles c.mmProd (mmPass c.w) c.mmKept else 0)
      (((c.ins.getD 0 {}).ent.gather.map (·.poison)).getD false)).startPasses c.lc (arrOf c.e)
        (mmPasses (s.eng c.lc c.e).begunCount c.mmProd (mmPass c.w) c.mmKept) := by
  unfold mmEff InRef.gathered
  dsimp only
  cases (c.ins.getD 0 {}).ent.gather <;> rfl

/-- G0's product of an mm.tongs at the front, dX (R59, R60). -/
def Ctx.tongsDx (c : Ctx) : Prod := Machine.tongsDx c.w (c.ins.getD 0 {}).ent.desc (c.ins.getD 1 {}).ent.desc
/-- G1's product of an mm.tongs at the front, dWᵀ (R59, R60). -/
def Ctx.tongsDw (c : Ctx) : Prod := Machine.tongsDw c.w (c.ins.getD 0 {}).ent.desc (c.ins.getD 2 {}).ent.desc

theorem tongsEff_eq (c : Ctx) (s : State) : tongsEff c s =
    s.beginPair c (mmTiles c.tongsDx 256 false) (ceilDiv c.tongsDw.m 256)
      (tongsPasses0 (s.eng c.lc .g0).begunCount c.tongsDx) (tongsPasses1 (s.eng c.lc .g1).begunCount c.tongsDw) := rfl

/-- A started pair whose G0 half may begin runs the effect of both. -/
theorem exec_mmTongs_started {s : State} {lc : Fin 64} {c : Ctx} (hp : (s.core lc).seq.pairStarted = true)
    (hb : Begins tongsRow 0x22 s lc .g0 c) : exec (.mmTongs lc) s = .next (tongsEff c s) := by
  show execMmTongs lc s = _
  rw [execMmTongs, hp]
  exact runCmd_go tongsEff hb.go

end Sys2Proof.Machine
end

section
open Sys2Proof Sys2Proof.Machine

/-- Settles O12: the effects of mm and of mm.tongs begin the command on their arrays and stand the passes ready; the inputs
they take come from queues of their own. -/
theorem arrayCommandsTakeEffect : Obligations.ArrayCommandsTakeEffect := by
  refine fun lc s c hs => ⟨fun a x hx hb => ?mm, fun hp hb => ?tongs⟩
  case mm =>
    have hlc := admit_go_lc hb.go
    have he := admit_go_e hb.go
    have run : exec x.1 s = .next (mmEff c s) := by
      simp only [List.mem_cons, List.not_mem_nil, or_false] at hx
      rcases hx with rfl | rfl <;> exact runCmd_go mmEff hb.go
    rw [mmEff_eq, hlc, he, arrOf_eng] at run
    rw [← hlc] at run ⊢
    exact ⟨_, run, beginArray_startPasses hs hb.ins_nodup a _ _ _⟩
  case tongs =>
    have run := exec_mmTongs_started hp hb
    have hlc := admit_go_lc hb.go
    have he := admit_go_e hb.go
    obtain ⟨n0, d0, n1, d1, core⟩ := State.core_beginPair (c := c) hs (mmTiles c.tongsDx 256 false) (ceilDiv c.tongsDw.m 256)
      (tongsPasses0 (s.eng c.lc .g0).begunCount c.tongsDx) (tongsPasses1 (s.eng c.lc .g1).begunCount c.tongsDw)
    rw [← tongsEff_eq] at core
    have eng1 : (tongsEff c s).eng c.lc .g1 = (s.eng c.lc .g1).withBegun (c.partner s) (ceilDiv c.tongsDw.m 256) false := by
      rw [State.eng, core]
      exact (Sequencer.eng_beginPair (seq_canon c.lc hs) _ he _ _).2
    rw [← hlc]
    refine ⟨_, run, hasBegun_beginPair hs hb.ins_nodup he _ _ _ _, ?_, ?_, ?_, ?_, ?_, ?_⟩
    · rw [passesStand, core]
      exact ⟨rfl, rfl, rfl, rfl, rfl⟩
    · rw [passesStand, core]
      exact ⟨rfl, rfl, rfl, rfl, rfl⟩
    · rw [eng1]
      rfl
    · rw [eng1]
      rfl
    · rw [eng1]
      exact List.map_append
    · rw [core]
      rfl
end

section
/-! SUPPORT. The order of a selection (R78): a candidate comes before another when its key is less. -/

namespace Sys2Proof.Machine

/-- Where a number stands in a selection's order, its sign turned where the largest come first; infinities at the ends. -/
def Fp.place (big : Bool) : Fp → WithBot (WithTop ℚ)
  | .nan => ⊥
  | .inf neg => if neg != big then ⊥ else ⊤
  | .fin neg m e => (((if neg != big then -(m : ℚ) else m) * 2 ^ e : ℚ) : WithTop ℚ)

/-- What a multiple of 2^q counts in that order. -/
def unitAt (big : Bool) (q : Int) : ℚ := if big then -(2 ^ q) else 2 ^ q

/-- A signed multiple of a power of two is the same number at every lower power. -/
theorem scaledTo_mul_unitAt (big neg : Bool) (m : Nat) {e q : Int} (h : q ≤ e) :
    (scaledTo neg m e q : ℚ) * unitAt big q = (if neg != big then -(m : ℚ) else m) * 2 ^ e := by
  have power : (2 : ℚ) ^ e = 2 ^ (e - q).toNat * 2 ^ q := by
    rw [← zpow_natCast, Int.toNat_of_nonneg (by omega), ← zpow_add₀ two_ne_zero, sub_add_cancel]
  cases neg <;> cases big <;> simp [scaledTo, unitAt, power, mul_assoc]

theorem place_fin_lt {x y : ℚ} : ((x : WithTop ℚ) : WithBot (WithTop ℚ)) < (y : WithTop ℚ) ↔ x < y := by
  rw [WithBot.coe_lt_coe, WithTop.coe_lt_coe]

theorem strictMono_mul_unitAt (q : Int) :
    StrictMono fun k : Int => (((k * unitAt false q : ℚ) : WithTop ℚ) : WithBot (WithTop ℚ)) :=
  fun _ _ h => place_fin_lt.2 (mul_lt_mul_of_pos_right (Int.cast_lt.2 h) (zpow_pos two_pos q))

theorem strictAnti_mul_unitAt (q : Int) :
    StrictAnti fun k : Int => (((k * unitAt true q : ℚ) : WithTop ℚ) : WithBot (WithTop ℚ)) :=
  fun _ _ h => place_fin_lt.2 (mul_lt_mul_of_neg_right (Int.cast_lt.2 h) (neg_neg_of_pos (zpow_pos two_pos q)))

/-- Numbers compare as their places do, turned round where the largest come first. -/
theorem fpCmp_eq_place (big : Bool) {a b : Fp} (ha : a.isNan = false) (hb : b.isNan = false) :
    Fp.cmp a b = some (if big then cmp (b.place big) (a.place big) else cmp (a.place big) (b.place big)) := by
  match a, b with
  | .inf n, .inf n' => cases n <;> cases n' <;> cases big <;> rfl
  | .inf n, .fin n' m e => cases n <;> cases big <;> rfl
  | .fin n m e, .inf n' => cases n' <;> cases big <;> rfl
  | .fin n m e, .fin n' m' e' =>
    simp only [Fp.cmp, Fp.place]
    rw [← scaledTo_mul_unitAt big n m (min_le_left e e'), ← scaledTo_mul_unitAt big n' m' (min_le_right e e')]
    cases big
    · exact congrArg some ((cmp_eq_compare _ _).symm.trans ((strictMono_mul_unitAt _).cmp_map_eq _ _).symm)
    · exact congrArg some ((cmp_eq_compare _ _).symm.trans ((strictAnti_mul_unitAt _).cmp_map_eq _ _).symm)

/-- A candidate's key: NaN last, then by value, equal values by index (R78). -/
def Cand.key (big : Bool) (x : Cand) : Bool ×ₗ WithBot (WithTop ℚ) ×ₗ ℕ :=
  toLex (x.v.isNan, toLex (x.v.place big, x.pos))

theorem Fp.eq_nan_of_isNan {x : Fp} (h : x.isNan = true) : x = .nan := by
  cases x with
  | nan => rfl
  | inf n => cases h
  | fin n m e => cases h

theorem Fp.isNan_nan : Fp.nan.isNan = true := rfl

theorem Fp.cmp_nan_left (x : Fp) : Fp.cmp .nan x = none := rfl

theorem Fp.cmp_nan_right (x : Fp) : Fp.cmp x .nan = none := by cases x <;> rfl

/-- One candidate comes before another when its key is less. -/
theorem candBefore_iff (big : Bool) (a b : Cand) : candBefore big a b = true ↔ a.key big < b.key big := by
  simp only [Cand.key, Prod.Lex.toLex_lt_toLex]
  cases ha : a.v.isNan <;> cases hb : b.v.isNan
  case false.false =>
    have order := fpCmp_eq_place big ha hb
    rcases lt_trichotomy (a.v.place big) (b.v.place big) with h | h | h
    · rw [(cmp_eq_lt_iff _ _).2 h, (cmp_eq_gt_iff _ _).2 h] at order
      cases big <;> simp [candBefore, order, h]
    · rw [h] at order ⊢
      cases big <;> simp [candBefore, order]
    · rw [(cmp_eq_gt_iff _ _).2 h, (cmp_eq_lt_iff _ _).2 h] at order
      cases big <;> simp [candBefore, order, h.ne', h.le]
  case false.true => simp [candBefore, Fp.cmp_nan_right, Fp.eq_nan_of_isNan hb, Fp.isNan_nan, ha]
  case true.false => simp [candBefore, Fp.cmp_nan_left, Fp.eq_nan_of_isNan ha, hb]
  case true.true => simp [candBefore, Fp.cmp, Fp.eq_nan_of_isNan ha, Fp.eq_nan_of_isNan hb, Fp.isNan_nan]

/-- Two candidates with indices of their own have keys of their own. -/
theorem Cand.pos_eq_of_key_eq {big : Bool} {a b : Cand} (h : a.key big = b.key big) : a.pos = b.pos :=
  congrArg (fun x => (ofLex (ofLex x).2).2) h

theorem candBefore_asymm {big : Bool} {a b : Cand} (h : candBefore big a b = true) : candBefore big b a = false := by
  rw [candBefore_iff] at h
  rw [Bool.eq_false_iff, Ne, candBefore_iff]
  exact lt_asymm h

theorem candBefore_trans {big : Bool} {a b c : Cand} (hab : candBefore big a b = true) (hbc : candBefore big b c = true) :
    candBefore big a c = true := by
  rw [candBefore_iff] at *
  exact lt_trans hab hbc

/-- Of two candidates with indices of their own, one comes before the other. -/
theorem candBefore_of_not {big : Bool} {a b : Cand} (hp : a.pos ≠ b.pos) (h : candBefore big a b = false) :
    candBefore big b a = true := by
  rw [Bool.eq_false_iff, Ne, candBefore_iff] at h
  rw [candBefore_iff]
  exact lt_of_le_of_ne (le_of_not_gt h) fun e => hp (Cand.pos_eq_of_key_eq e).symm

/-! ### The candidates in order -/

/-- All the candidates of a list in order. -/
def candSort (big : Bool) (l : List Cand) : List Cand := l.foldl (fun a x => candInsert big x a) []

theorem candBest_eq (big : Bool) (k : Nat) (l : List Cand) : candBest big k l = (candSort big l).take k := rfl

theorem candInsert_perm (big : Bool) (x : Cand) (l : List Cand) : (candInsert big x l).Perm (x :: l) := by
  induction l with
  | nil => exact .refl _
  | cons y r ih =>
    rw [candInsert]
    split
    · exact .refl _
    · exact (ih.cons y).trans (.swap x y r)

/-- Candidates in order, each before all after it. -/
abbrev InOrder (big : Bool) (l : List Cand) : Prop := l.Pairwise fun x y => candBefore big x y = true

theorem candInsert_inOrder {big : Bool} {x : Cand} {l : List Cand} (h : InOrder big l) (hx : ∀ y ∈ l, x.pos ≠ y.pos) :
    InOrder big (candInsert big x l) := by
  induction l with
  | nil => exact List.pairwise_singleton _ _
  | cons y r ih =>
    obtain ⟨first, rest⟩ := List.pairwise_cons.1 h
    obtain ⟨hy, hr⟩ := List.forall_mem_cons.1 hx
    rw [candInsert]
    split
    case isTrue before =>
      refine List.pairwise_cons.2 ⟨List.forall_mem_cons.2 ⟨before, fun z hz => ?_⟩, h⟩
      exact candBefore_trans before (first z hz)
    case isFalse after =>
      refine List.pairwise_cons.2 ⟨fun z hz => ?_, ih rest hr⟩
      rcases List.mem_cons.1 ((candInsert_perm big x r).mem_iff.1 hz) with rfl | hz
      · exact candBefore_of_not hy (Bool.eq_false_iff.2 after)
      · exact first z hz

/-- The first k after an insertion do not depend on what stood beyond the first k. -/
theorem take_candInsert (big : Bool) (x : Cand) (k : Nat) (l : List Cand) :
    (candInsert big x (l.take k)).take k = (candInsert big x l).take k := by
  induction l generalizing k with
  | nil => rw [List.take_nil]
  | cons y r ih =>
    cases k with
    | zero => rfl
    | succ k =>
      rw [List.take_succ_cons, candInsert, candInsert]
      split
      · rw [List.take_succ_cons, List.take_succ_cons]
        cases k with
        | zero => rfl
        | succ k => rw [List.take_succ_cons, List.take_succ_cons, List.take_take, Nat.min_eq_left (Nat.le_succ k)]
      · rw [List.take_succ_cons, List.take_succ_cons, ih]

theorem take_foldl_candInsert (big : Bool) (k : Nat) (b l : List Cand) :
    (b.foldl (fun a x => candInsert big x a) (l.take k)).take k = (b.foldl (fun a x => candInsert big x a) l).take k := by
  induction b generalizing l with
  | nil => rw [List.foldl_nil, List.foldl_nil, List.take_take, Nat.min_self]
  | cons x r ih => rw [List.foldl_cons, List.foldl_cons, ← ih, take_candInsert, ih]

theorem candSort_append (big : Bool) (a b : List Cand) :
    candSort big (a ++ b) = b.foldl (fun a x => candInsert big x a) (candSort big a) := List.foldl_append

theorem candSort_perm (big : Bool) (l : List Cand) : (candSort big l).Perm l := by
  induction l using List.reverseRecOn with
  | nil => exact .refl _
  | append_singleton l x ih =>
    rw [candSort_append]
    exact (candInsert_perm big x _).trans ((ih.cons x).trans (List.perm_append_singleton x l).symm)

/-- Candidates with indices of their own. -/
abbrev OwnPos (l : List Cand) : Prop := (l.map Cand.pos).Nodup

theorem candSort_inOrder (big : Bool) {l : List Cand} (h : OwnPos l) : InOrder big (candSort big l) := by
  induction l using List.reverseRecOn with
  | nil => exact .nil
  | append_singleton l x ih =>
    rw [OwnPos, List.map_append, List.nodup_append] at h
    obtain ⟨hl, -, apart⟩ := h
    rw [candSort_append]
    refine candInsert_inOrder (ih hl) fun y hy => ?_
    exact (apart _ (List.mem_map_of_mem ((candSort_perm big l).mem_iff.1 hy)) _ (List.mem_singleton_self _)).symm

/-- Two orders of the same candidates are one. -/
theorem eq_of_perm_of_inOrder {big : Bool} {l l' : List Cand} (p : l.Perm l') (h : InOrder big l) (h' : InOrder big l') :
    l = l' :=
  p.eq_of_pairwise (fun _ _ _ _ hab hba => absurd hba (Bool.eq_false_iff.1 (candBefore_asymm hab))) h h'

theorem candSort_congr {big : Bool} {l l' : List Cand} (p : l.Perm l') (h : OwnPos l) : candSort big l = candSort big l' :=
  eq_of_perm_of_inOrder ((candSort_perm big l).trans (p.trans (candSort_perm big l').symm)) (candSort_inOrder big h)
    (candSort_inOrder big ((p.map Cand.pos).nodup_iff.1 h))

/-- What stands in order already stays as it is. -/
theorem candSort_of_inOrder {big : Bool} {l : List Cand} (h : OwnPos l) (ho : InOrder big l) : candSort big l = l :=
  eq_of_perm_of_inOrder (candSort_perm big l) (candSort_inOrder big h) ho

/-! ### The best of them -/

theorem candBest_congr {big : Bool} {k : Nat} {l l' : List Cand} (p : l.Perm l') (h : OwnPos l) :
    candBest big k l = candBest big k l' := by
  rw [candBest_eq, candBest_eq, candSort_congr p h]

theorem length_candBest (big : Bool) (k : Nat) (l : List Cand) : (candBest big k l).length = min k l.length := by
  rw [candBest_eq, List.length_take, (candSort_perm big l).length_eq]

theorem candBest_subperm (big : Bool) (k : Nat) (l : List Cand) : (candBest big k l).Subperm l :=
  (List.take_sublist _ _).subperm.trans (candSort_perm big l).subperm

theorem OwnPos.of_subperm {l l' : List Cand} (h : OwnPos l') (s : l.Subperm l') : OwnPos l := by
  obtain ⟨m, p, sub⟩ := s
  exact (p.map Cand.pos).nodup_iff.1 (h.sublist (sub.map Cand.pos))

theorem candBest_inOrder (big : Bool) (k : Nat) {l : List Cand} (h : OwnPos l) : InOrder big (candBest big k l) :=
  (candSort_inOrder big h).sublist (List.take_sublist _ _)

/-- No candidate left out comes before one kept. -/
theorem candBest_before {big : Bool} {k : Nat} {l : List Cand} (h : OwnPos l) {x y : Cand} (hx : x ∈ candBest big k l)
    (hy : y ∈ l) (out : y ∉ candBest big k l) : candBefore big x y = true := by
  have split : InOrder big (candBest big k l ++ (candSort big l).drop k) := by
    rw [candBest_eq, List.take_append_drop]
    exact candSort_inOrder big h
  have left : y ∈ (candSort big l).drop k := by
    have all := (candSort_perm big l).mem_iff.2 hy
    rw [← List.take_append_drop k (candSort big l), List.mem_append] at all
    exact all.resolve_left out
  exact (List.pairwise_append.1 split).2.2 x hx y left

/-- The best of a first tile stand for all of it in what a later tile adds. -/
theorem candBest_candBest_append {big : Bool} (k : Nat) {a : List Cand} (b : List Cand) (h : OwnPos a) :
    candBest big k (candBest big k a ++ b) = candBest big k (a ++ b) := by
  have best : OwnPos (candBest big k a) := h.of_subperm (candBest_subperm big k a)
  rw [candBest_eq, candSort_append, candSort_of_inOrder best (candBest_inOrder big k h), candBest_eq,
    take_foldl_candInsert, ← candSort_append]
  rfl

end Sys2Proof.Machine
end

section
open Sys2Proof Sys2Proof.Machine

/-- Settles O60: insertion in a strict order gives one list whatever the order of arrival, and its first k depend on the first
k of each part only. -/
theorem selectionsAreCutFree : Obligations.SelectionsAreCutFree := by
  intro big k a b hd best
  have own : OwnPos (a ++ b) := hd
  have ownA : OwnPos a := own.of_subperm (List.sublist_append_left a b).subperm
  have ownB : OwnPos b := own.of_subperm (List.sublist_append_right a b).subperm
  refine ⟨length_candBest big k _, candBest_inOrder big k own, fun x hx => ⟨?_, fun y hy out => ?_⟩,
    candBest_candBest_append k b ownA, ?_, (candBest_congr List.perm_append_comm own).symm⟩
  · exact (candBest_subperm big k _).subset hx
  · exact candBest_before own hx hy out
  · have swap : OwnPos (candBest big k a ++ b) := own.of_subperm ((candBest_subperm big k a).append (.refl b))
    have both : OwnPos (candBest big k a ++ candBest big k b) :=
      swap.of_subperm (List.Subperm.append (.refl _) (candBest_subperm big k b))
    calc candBest big k (candBest big k a ++ candBest big k b)
      _ = candBest big k (candBest big k b ++ candBest big k a) := candBest_congr List.perm_append_comm both
      _ = candBest big k (b ++ candBest big k a) := candBest_candBest_append k _ ownB
      _ = candBest big k (candBest big k a ++ b) := (candBest_congr List.perm_append_comm swap).symm
      _ = best := candBest_candBest_append k b ownA
end

section
/-! SUPPORT. What the front command's slots give it: as many inputs and outputs as its row has, from queues of their own
(R93, R95). -/

namespace Sys2Proof.Machine

/-- A command that may begin has its slots in use as its row has them. -/
theorem Begins.slots {r : Row} {op lc : Nat} {s : State} {e : Eng} {c : Ctx} (h : Begins r op s lc e c) :
    c.ins.length = (r.slots c.w).1 ∧ c.outs.length ∈ (r.slots c.w).2 ∧ (c.ins.map (·.qn) ++ c.outs).Nodup := by
  have slots := slotsErr_of_checkErr h.checks
  simp only [slotsErr, Bool.or_eq_false_iff, Bool.not_eq_false', decide_eq_false_iff_not, Decidable.not_not,
    List.contains_eq_mem, decide_eq_true_eq] at slots
  obtain ⟨⟨⟨⟨used, outs⟩, -⟩, distinct⟩, -⟩ := slots
  obtain ⟨f, l, -, -, rfl⟩ := h.front
  have queues : (frontCtx s lc e f).w.queues = (frontCtx s lc e f).ins.map (·.qn) ++ (frontCtx s lc e f).outs := by
    simp [Cmd.queues, frontCtx, Ctx.w]
  refine ⟨?_, ?_, queues ▸ nodup_of_hasDup distinct⟩
  · exact (List.length_map _).trans ((congrArg List.length used).trans List.length_range)
  · exact (List.length_map _).symm ▸ outs

theorem Begins.lc_eq {r : Row} {op lc : Nat} {s : State} {e : Eng} {c : Ctx} (h : Begins r op s lc e c) : c.lc = lc :=
  admit_go_lc h.go

theorem Begins.eng_eq {r : Row} {op lc : Nat} {s : State} {e : Eng} {c : Ctx} (h : Begins r op s lc e c) : c.e = e :=
  admit_go_e h.go

end Sys2Proof.Machine
end

section
/-! SUPPORT. Reading a command's inputs: the tiles have the shapes of their descriptors, and of the core only its scratchpad
is touched. -/

namespace Sys2Proof.Machine

/-- A tile's format, rows and columns. -/
def Tile.shape (t : Tile) : Nat × Nat × Nat := (t.fmt, t.rows, t.cols)

/-- The format, rows and columns a descriptor names. -/
def Desc.shape (d : Desc) : Nat × Nat × Nat := (d.fmt, d.rows, d.cols)

/-- One input read after those before it. -/
def readOne (c : Ctx) (acc : List Tile × State) (i : InRef) : List Tile × State :=
  (acc.1 ++ [((acc.2.core c.lc).readTile i.ent.desc).1], acc.2.setCore c.lc ((acc.2.core c.lc).readTile i.ent.desc).2)

theorem readInputs_eq (s : State) (c : Ctx) : readInputs s c = c.ins.foldl (readOne c) ([], s) := rfl

theorem foldl_readOne_shapes (c : Ctx) (ins : List InRef) (acc : List Tile × State) :
    (ins.foldl (readOne c) acc).1.map Tile.shape = acc.1.map Tile.shape ++ ins.map (fun i => i.ent.desc.shape) := by
  induction ins generalizing acc with
  | nil => simp
  | cons i r ih =>
    rw [List.foldl_cons, ih, readOne, List.map_append, List.map_cons, List.append_assoc]
    rfl

theorem readInputs_shapes (s : State) (c : Ctx) :
    (readInputs s c).1.map Tile.shape = c.ins.map (fun i => i.ent.desc.shape) := foldl_readOne_shapes c c.ins ([], s)

@[simp] theorem length_readInputs (s : State) (c : Ctx) : (readInputs s c).1.length = c.ins.length := by
  simpa using congrArg List.length (readInputs_shapes s c)

/-- The tile read for an input has the shape of its descriptor. -/
theorem shape_readInputs (s : State) (c : Ctx) {j : Nat} (h : j < c.ins.length) :
    ((readInputs s c).1.getD j {}).shape = (c.ins.getD j {}).ent.desc.shape := by
  have one := congrArg (fun l : List (Nat × Nat × Nat) => l[j]?) (readInputs_shapes s c)
  simpa [h] using one

/-- Reading leaves the rest of the core as it was. -/
theorem readInputs_core {s : State} (c : Ctx) (h : Canon s) :
    ∃ m, (readInputs s c).2.core c.lc = { s.core c.lc with scp := m } := by
  have step : ∀ (ins : List InRef) (acc : List Tile × State), Canon acc.2 →
      (∃ m, acc.2.core c.lc = { s.core c.lc with scp := m }) →
        ∃ m, (ins.foldl (readOne c) acc).2.core c.lc = { s.core c.lc with scp := m } := by
    intro ins
    induction ins with
    | nil => exact fun _ _ hm => hm
    | cons i r ih =>
      intro acc hc ⟨m, hm⟩
      refine ih _ (State.setCore_canon _ _ hc (Core.readTile_canon _ (hc.1.2 _))) ?_
      rw [readOne, State.core_setCore_same _ _ hc, Core.readTile, hm]
      exact ⟨_, rfl⟩
  exact step c.ins ([], s) h ⟨_, rfl⟩

end Sys2Proof.Machine
end

section
/-! SUPPORT. A selection's effect (R78–R80): its tiles, and the flag of a short one. -/

namespace Sys2Proof.Machine

@[simp] theorem getD_append_replicate {α : Type} (l : List α) (m j : Nat) (x : α) :
    (l ++ List.replicate m x).getD j x = l.getD j x := by
  rcases Nat.lt_or_ge j l.length with h | h
  · simp [List.getElem?_append_left h]
  · rw [List.getD_eq_default _ _ h, List.getD_eq_getElem?_getD, List.getElem?_append_right h, List.getElem?_replicate]
    split <;> rfl

/-- A list of at most `k`, filled up, is its elements by place. -/
theorem append_replicate_eq_map {α : Type} {l : List α} {k : Nat} (x : α) (h : l.length ≤ k) :
    l ++ List.replicate (k - l.length) x = (List.range k).map (fun j => l.getD j x) := by
  refine List.ext_getElem (by simp; omega) fun j hj _ => ?_
  rw [List.getElem_map, List.getElem_range, ← getD_append_replicate l (k - l.length) j x, List.getD_eq_getElem _ _ hj]

/-- The lines a selection takes: rows, or columns under AXIS. -/
def selLines (c : Ctx) (t : Tile) : Nat := if redAxis c.w then t.cols else t.rows

/-- The new tile among those read. -/
def selNew (tiles : List Tile) : Tile := tiles.getD (tiles.length - 1) {}

/-- The candidates of a line: those of the earlier list, and the new tile's. -/
def selCands (c : Ctx) (tiles : List Tile) (i : Nat) : List Cand :=
  (if tiles.length = 3 then oldCands (redAxis c.w) (redK c.w) (tiles.getD 0 {}) (tiles.getD 1 {}) i else [])
    ++ newCands (redAxis c.w) (redBase c.w) (selNew tiles) i

/-- A selection's output: what it keeps of each line, slots left over filled. -/
def selTile (c : Ctx) (t : Tile) (fmt fill : Nat) (l : Nat → List Nat) : Tile :=
  if redAxis c.w = true
    then { fmt := fmt, rows := redK c.w, cols := t.cols, codes := grid (redK c.w) t.cols (fun j i => (l i).getD j fill) }
    else { fmt := fmt, rows := t.rows, cols := redK c.w, codes := grid t.rows (redK c.w) (fun i j => (l i).getD j fill) }

/-- The best candidates of a line. -/
def selBest (big : Bool) (c : Ctx) (tiles : List Tile) (i : Nat) : List Cand := candBest big (redK c.w) (selCands c tiles i)

/-- The values and the indices a selection puts out. -/
def selVals (big : Bool) (c : Ctx) (tiles : List Tile) : Tile :=
  selTile c (selNew tiles) (selNew tiles).fmt (candFill (selNew tiles).fmt) (fun i => (selBest big c tiles i).map (·.code))
def selIdx (big : Bool) (c : Ctx) (tiles : List Tile) : Tile :=
  selTile c (selNew tiles) 0xA 0xFFFFFFFF (fun i => (selBest big c tiles i).map (·.pos))

/-- Is a line left with fewer candidates than the selection keeps. -/
def selShort (big : Bool) (c : Ctx) (tiles : List Tile) : Bool :=
  (List.range (selLines c (selNew tiles))).any (fun i => (selBest big c tiles i).length < redK c.w)

/-- The state a selection completes in: its inputs read, TOPK_SHORT reported where it is short. -/
def selState (big : Bool) (c : Ctx) (s : State) : State :=
  if selShort big c (readInputs s c).1 then (readInputs s c).2.redFlags c.lc 1 else (readInputs s c).2

/-- What a selection keeps of its lines, cut to the tile. -/
theorem selTile_eq {c : Ctx} {t : Tile} (fmt fill : Nat) {l : Nat → List Nat} (h : ∀ i, (l i).length ≤ redK c.w) :
    selTile c t fmt fill l =
      { fmt := fmt
        rows := if redAxis c.w then redK c.w else t.rows
        cols := if redAxis c.w then t.cols else redK c.w
        codes :=
          let ls := (List.range (selLines c t)).map (fun i => l i ++ List.replicate (redK c.w - (l i).length) fill)
          if redAxis c.w then (List.range (redK c.w)).map (fun j => ls.map (fun x => x.getD j fill)) else ls } := by
  cases ha : redAxis c.w with
  | true => simp [selTile, selLines, ha, grid, Function.comp_def, getD_append_replicate, -List.getD_eq_getElem?_getD]
  | false => simp [selTile, selLines, ha, grid, append_replicate_eq_map fill (h _)]

theorem redShape_eq {s : State} {c : Ctx} (h : c.ins ≠ []) :
    redShape c = (if redAxis c.w then redK c.w else (selNew (readInputs s c).1).rows,
      if redAxis c.w then (selNew (readInputs s c).1).cols else redK c.w) := by
  have last : c.ins.length - 1 < c.ins.length := Nat.sub_lt (List.length_pos_iff.2 h) Nat.one_pos
  have shape := shape_readInputs s c last
  have rows : (selNew (readInputs s c).1).rows = (redNew c).rows := by
    rw [selNew, length_readInputs]
    exact congrArg (fun x => x.2.1) shape
  have cols : (selNew (readInputs s c).1).cols = (redNew c).cols := by
    rw [selNew, length_readInputs]
    exact congrArg (fun x => x.2.2) shape
  simp only [redShape, rows, cols]
  split <;> rfl

/-- A selection whose inputs carry no poison completes with its two outputs. -/
theorem redSelect_eq (big : Bool) {c : Ctx} {s : State} (hi : c.ins ≠ [])
    (hp : (readInputs s c).1.any (·.poison) = false) :
    redSelect big c s =
      (selState big c s).complete c [selVals big c (readInputs s c).1, selIdx big c (readInputs s c).1] false := by
  have kept (f : Cand → Nat) (i : Nat) : ((selBest big c (readInputs s c).1 i).map f).length ≤ redK c.w := by
    rw [List.length_map, selBest, length_candBest]
    exact Nat.min_le_left _ _
  rw [selVals, selIdx, selTile_eq _ _ (kept _), selTile_eq _ _ (kept _)]
  simp only [redSelect, hp, redShape_eq (s := s) hi, List.length_map, List.map_map, List.any_map, Function.comp_def]
  rfl

@[simp] theorem getD_grid {rows cols i k : Nat} (f : Nat → Nat → Nat) (hi : i < rows) (hk : k < cols) :
    ((grid rows cols f).getD i []).getD k 0 = f i k := by
  simp [grid, hi, hk]

/-- What a selection's output holds in a slot of a line. -/
theorem selTile_code {c : Ctx} {t : Tile} (fmt fill : Nat) (l : Nat → List Nat) {i j : Nat} (hi : i < selLines c t)
    (hj : j < redK c.w) :
    (if redAxis c.w then (selTile c t fmt fill l).code j i else (selTile c t fmt fill l).code i j) = (l i).getD j fill := by
  unfold selLines at hi
  cases ha : redAxis c.w <;> rw [ha] at hi <;> simp only [selTile, ha, if_true, if_false, Bool.false_eq_true]
  · exact getD_grid (fun i j => (l i).getD j fill) hi hj
  · exact getD_grid (fun j i => (l i).getD j fill) hj hi

theorem length_selBest (big : Bool) (c : Ctx) (tiles : List Tile) (i : Nat) :
    (selBest big c tiles i).length = min (redK c.w) (selCands c tiles i).length := length_candBest _ _ _

/-- A slot beyond a line's candidates holds the fill. -/
theorem getD_map_selBest (big : Bool) (c : Ctx) (tiles : List Tile) {i j : Nat} (f : Cand → Nat) (fill : Nat)
    (h : (selCands c tiles i).length ≤ j) : ((selBest big c tiles i).map f).getD j fill = fill := by
  refine List.getD_eq_default _ _ ?_
  rw [List.length_map, length_selBest]
  omega

theorem selShort_iff (big : Bool) (c : Ctx) (tiles : List Tile) :
    selShort big c tiles = true ↔ ∃ i < selLines c (selNew tiles), (selCands c tiles i).length < redK c.w := by
  simp only [selShort, List.any_eq_true, List.mem_range, decide_eq_true_eq, length_selBest, min_lt_iff, lt_irrefl, false_or]

/-- A short selection sets TOPK_SHORT. -/
theorem selState_short {big : Bool} {c : Ctx} {s : State} (hs : Canon s) (h : selShort big c (readInputs s c).1 = true) :
    bit ((selState big c s).core c.lc).integ.redFlags 0 = true := by
  rw [selState, h, if_pos rfl, State.redFlags, State.core_onInteg_same _ _ (readInputs_canon c hs)]
  simp [bit]

/-- A selection that is not short sets no flag. -/
theorem selState_full {big : Bool} {c : Ctx} {s : State} (hs : Canon s) (h : selShort big c (readInputs s c).1 = false) :
    ((selState big c s).core c.lc).integ = (s.core c.lc).integ := by
  obtain ⟨m, hm⟩ := readInputs_core c hs
  rw [selState, h, if_neg (by decide), hm]

/-- Empty slots of an earlier list are told by their index. -/
theorem oldCands_codes (axis : Bool) (k : Nat) (vals idx : Tile) (i : Nat) : (oldCands axis k vals idx i).map Cand.code =
    ((List.range k).filter (fun j => (if axis then idx.code j i else idx.code i j) != 0xFFFFFFFF)).map
      (fun j => if axis then vals.code j i else vals.code i j) := by
  rw [oldCands, List.map_filterMap, ← List.filterMap_eq_map, ← List.filterMap_eq_filter, List.filterMap_filterMap]
  refine List.filterMap_congr fun j _ => ?_
  cases axis <;> simp only [if_true, if_false, Bool.false_eq_true, Option.guard, bne_iff_ne] <;> split <;> simp_all

end Sys2Proof.Machine
end

section
open Sys2Proof Sys2Proof.Machine

/-- Settles O59: the fill of each format is its lowest value; a selection completes with `selVals` and `selIdx`, whose slots
beyond a line's candidates are filled, and reports TOPK_SHORT where `selShort` says so. -/
theorem shortSelectionsAreFilled : Obligations.ShortSelectionsAreFilled := by
  refine ⟨?lowest, ?lowestE4m3, by decide, by decide, oldCands_codes, ?command⟩
  case lowest => rintro fmt (rfl | rfl | rfl | rfl) <;> decide
  case lowestE4m3 => decide +kernel
  case command =>
    intro lc s c hs hlc hb tiles t k cands lines hp
    have run : exec (.redTopk lc) s = .next (redSelect true c s) := by
      show execRedTopk lc s = _
      exact runCmd_go _ hb.go
    have ins : c.ins ≠ [] := by
      have n := hb.slots.1
      intro none
      rw [none] at n
      revert n
      simp only [redRow, List.length_nil]
      split <;> decide
    refine ⟨selState true c s, selVals true c tiles, selIdx true c tiles, ?_, fun i hi j hj out => ⟨?_, ?_⟩, fun short => ?_,
      fun full => ?_⟩
    · rw [run, redSelect_eq true ins hp]
    · exact (selTile_code _ _ _ hi hj).trans (getD_map_selBest true c tiles _ _ out)
    · exact (selTile_code _ _ _ hi hj).trans (getD_map_selBest true c tiles _ _ out)
    · rw [← hlc]
      exact selState_short hs ((selShort_iff _ _ _).2 short)
    · rw [← hlc]
      refine selState_full hs (Bool.eq_false_iff.2 fun h => ?_)
      obtain ⟨i, hi, less⟩ := (selShort_iff _ _ _).1 h
      exact absurd less (Nat.not_lt.2 (full i hi))
end

section
/-! SUPPORT. Sound banks (R155, R158): with no upset and no correction pending, a read finds what was written and changes
nothing, and a write changes, beside its bytes, the words' tags and marks at most. -/

namespace Sys2Proof.Machine

section
variable {m : Scratch} (h : m.sound)
include h

theorem Scratch.decoded_of_sound (cw : Nat) : m.decoded cw = .clean := by
  obtain ⟨flips, -⟩ := h
  simp [Scratch.decoded, flips]

theorem Scratch.residue_of_sound (cw : Nat) : m.residue cw = 0 := by
  rw [Scratch.residue, h.2, List.find?_nil, Scratch.decoded_of_sound h]

theorem Scratch.touch_of_sound (cw : Nat) : m.touch cw = (m, m.poisoned cw) := by
  rw [Scratch.touch, h.2, List.any_nil, if_neg (by decide), Scratch.decoded_of_sound h]

theorem Scratch.touchAll_of_sound (l : List Nat) : m.touchAll l = m :=
  foldl_keeps (P := fun u => u = m) _ l rfl fun u cw e => by rw [e, Scratch.touch_of_sound h]

/-- A read leaves sound banks as they are. -/
theorem Scratch.read_of_sound (rs : List (Nat × Nat)) : (m.read rs).2 = m := Scratch.touchAll_of_sound h _

end

/-- Banks with other tags and poison marks. -/
def Scratch.remark (m : Scratch) (d p : Tbl Bool) : Scratch := { m with durable := d, poison := p }

@[simp] theorem Scratch.remark_remark (m : Scratch) (d p d' p' : Tbl Bool) : (m.remark d p).remark d' p' = m.remark d' p' := rfl

theorem Scratch.sound_remark {m : Scratch} (h : m.sound) (d p : Tbl Bool) : (m.remark d p).sound := h

theorem Scratch.seal_of_sound {m : Scratch} (h : m.sound) (cw : Nat) (durable poison : Bool) :
    m.seal cw durable poison = m.remark (Tbl.set false m.durable cw durable) (Tbl.set false m.poison cw poison) := by
  obtain ⟨flips, wb⟩ := h
  simp [Scratch.seal, Scratch.remark, flips, wb, Tbl.set]

theorem Scratch.flipBytes_zero (m : Scratch) (cw : Nat) : m.flipBytes cw 0 = m := rfl

theorem Scratch.closeWord_of_sound {m : Scratch} (h : m.sound) (durable : Bool) (a : Nat) (data : List MB) (cw : Nat) :
    ∃ d p, Scratch.closeWord durable a data m cw = m.remark d p := by
  unfold Scratch.closeWord
  dsimp only
  split
  · exact ⟨_, _, Scratch.seal_of_sound h _ _ _⟩
  · rw [Scratch.touch_of_sound h]
    dsimp only
    rw [Scratch.residue_of_sound h, Scratch.flipBytes_zero]
    exact ⟨_, _, Scratch.seal_of_sound h _ _ _⟩

theorem Scratch.foldl_of_remark {α : Type} {m : Scratch} (h : m.sound) (f : Scratch → α → Scratch) (l : List α)
    (hf : ∀ u x, u.sound → ∃ d p, f u x = u.remark d p) : ∃ d p, l.foldl f m = m.remark d p := by
  refine foldl_keeps (P := fun u => ∃ d p, u = m.remark d p) f l ⟨_, _, rfl⟩ fun u x ⟨d, p, e⟩ => ?_
  obtain ⟨d', p', e'⟩ := hf u x (e ▸ Scratch.sound_remark h d p)
  exact ⟨d', p', by rw [e', e, remark_remark]⟩

/-- A write of sound banks. -/
theorem Scratch.writeRun_of_sound {m : Scratch} (h : m.sound) (durable : Bool) (a : Nat) (data : List MB) :
    ∃ d p, Scratch.writeRun durable a data m = { m.remark d p with bytes := Mem.writeN m.bytes a (mbBytes data) } := by
  unfold Scratch.writeRun
  split
  case isTrue empty =>
    rw [List.isEmpty_iff.1 empty]
    exact ⟨_, _, rfl⟩
  case isFalse =>
    obtain ⟨d, p, e⟩ := Scratch.foldl_of_remark h (Scratch.closeWord durable a data)
      ((List.range ((a + data.length - 1) / 32 + 1 - a / 32)).map (· + a / 32))
      fun u cw hu => Scratch.closeWord_of_sound hu durable a data cw
    refine ⟨d, p, ?_⟩
    dsimp only
    rw [e]
    rfl

theorem Scratch.poisonRuns_of_sound {m : Scratch} (h : m.sound) (rs : List (Nat × Nat)) :
    ∃ d p, m.poisonRuns rs = m.remark d p := by
  refine Scratch.foldl_of_remark h _ _ fun u cw hu => ?_
  rw [Scratch.restore, Scratch.residue_of_sound hu, Scratch.flipBytes_zero]
  exact ⟨_, _, Scratch.seal_of_sound hu _ _ _⟩

/-- Reading a tile from sound banks leaves the core as it is. -/
theorem Core.readTile_of_sound {co : Core} (h : co.scp.sound) (d : Desc) : (co.readTile d).2 = co := by
  rw [Core.readTile, ← Prod.eta (co.scp.read _), Scratch.read_of_sound h]

theorem State.bytes_wf {s : State} (lc : Nat) (h : Canon s) : (s.core lc).scp.bytes.wf = true := (scp_canon lc h).1

theorem State.vregs_wf {s : State} (lc : Nat) (h : Canon s) : (s.core lc).scp.vregs.wf = true := (scp_canon lc h).2.1

/-- A core put back as it stands changes no core. -/
theorem State.core_setCore_self {s : State} (hs : Canon s) (lc k : Nat) : (s.setCore lc (s.core lc)).core k = s.core k := by
  by_cases hk : k = lc
  · rw [hk, State.core_setCore_same _ _ hs]
  · rw [State.core_setCore_other _ _ _ _ hk]

/-- Reading a command's inputs from sound banks changes no core. -/
theorem readInputs_core_of_sound {s : State} (c : Ctx) (hs : Canon s) (hm : (s.core c.lc).scp.sound) (k : Nat) :
    (readInputs s c).2.core k = s.core k := by
  have step : ∀ (ins : List InRef) (acc : List Tile × State), Canon acc.2 → (∀ k, acc.2.core k = s.core k) →
      ∀ k, (ins.foldl (readOne c) acc).2.core k = s.core k := by
    intro ins
    induction ins with
    | nil => exact fun _ _ same => same
    | cons i r ih =>
      intro acc hc same
      have back : (readOne c acc i).2 = acc.2.setCore c.lc (acc.2.core c.lc) := by
        rw [readOne, Core.readTile_of_sound (same c.lc ▸ hm)]
      refine ih _ (back ▸ State.setCore_canon _ _ hc (hc.1.2 _)) fun k => ?_
      rw [back, State.core_setCore_self hc, same]
  exact step c.ins ([], s) hs (fun _ => rfl) k

end Sys2Proof.Machine
end

section
/-! SUPPORT. Releasing queue entries (R102, R166): of its core a release changes the queue, the windows, the drain path's order
and the arrays' waits; of another core nothing. -/

namespace Sys2Proof.Machine

/-- `t` differs from `s` on a core in these queues, in windows, the drain path's order and the arrays at most, and on no
other core. -/
structure Releases (s t : State) (lc : Nat) (ns : List Nat) : Prop where
  canon : Canon t
  seq : ∃ qs ws l, (t.core lc).seq = { (s.core lc).seq with queues := qs, windows := ws, drainOrder := l }
  queues : ∀ n, n ∉ ns → (t.core lc).seq.queue n = (s.core lc).seq.queue n
  scp : (t.core lc).scp = (s.core lc).scp
  integ : (t.core lc).integ = (s.core lc).integ
  cores : ∀ k, k ≠ lc → t.core k = s.core k

theorem Releases.refl {s : State} (hs : Canon s) (lc : Nat) (ns : List Nat) : Releases s s lc ns :=
  ⟨hs, ⟨_, _, _, rfl⟩, fun _ _ => rfl, rfl, rfl, fun _ _ => rfl⟩

theorem Releases.trans {s t u : State} {lc : Nat} {ns : List Nat} (h : Releases s t lc ns) (k : Releases t u lc ns) :
    Releases s u lc ns := by
  obtain ⟨-, ⟨qs, ws, l, hq⟩, hqueues, hscp, hinteg, hcores⟩ := h
  obtain ⟨canon, ⟨qs', ws', l', kq⟩, kqueues, kscp, kinteg, kcores⟩ := k
  exact ⟨canon, ⟨qs', ws', l', by rw [kq, hq]⟩, fun n hn => (kqueues n hn).trans (hqueues n hn), kscp.trans hscp,
    kinteg.trans hinteg, fun k hk => (kcores k hk).trans (hcores k hk)⟩

theorem Releases.mono {s t : State} {lc : Nat} {ns ns' : List Nat} (h : Releases s t lc ns) (sub : ns ⊆ ns') :
    Releases s t lc ns' :=
  ⟨h.canon, h.seq, fun n hn => h.queues n fun hm => hn (sub hm), h.scp, h.integ, h.cores⟩

/-- A release leaves a core's engines and what a retirement meets. -/
theorem Releases.eng {s t : State} {lc : Nat} {ns : List Nat} (h : Releases s t lc ns) (e : Eng) : t.eng lc e = s.eng lc e := by
  obtain ⟨qs, ws, l, hq⟩ := h.seq
  rw [State.eng, hq]
  rfl

theorem Releases.goesOn {s t : State} {lc : Nat} {ns : List Nat} (h : Releases s t lc ns) (e : Eng) :
    goesOn t lc e = goesOn s lc e := by
  obtain ⟨qs, ws, l, hq⟩ := h.seq
  simp only [Machine.goesOn, noStopCount, State.eng, hq]
  rfl

/-- A change of a sequencer in queues, windows and the drain path's order. -/
theorem Releases.onSeq {s : State} (hs : Canon s) (lc : Nat) {ns : List Nat} {f : Sequencer → Sequencer}
    (canon : (f (s.core lc).seq).Canon)
    (seq : ∃ qs ws l, f (s.core lc).seq = { (s.core lc).seq with queues := qs, windows := ws, drainOrder := l })
    (queues : ∀ n, n ∉ ns → (f (s.core lc).seq).queue n = (s.core lc).seq.queue n) : Releases s (s.onSeq lc f) lc ns where
  canon := State.setCore_canon _ _ hs ⟨canon, scp_canon lc hs⟩
  seq := by
    rw [State.core_onSeq_same _ _ hs]
    exact seq
  queues n hn := by
    rw [State.core_onSeq_same _ _ hs]
    exact queues n hn
  scp := by rw [State.core_onSeq_same _ _ hs]
  integ := by rw [State.core_onSeq_same _ _ hs]
  cores k hk := State.core_onSeq_other _ _ _ _ hk

theorem Releases.onQueue {s : State} (hs : Canon s) (lc n : Nat) (f : Queue → Queue) : Releases s (s.onQueue lc n f) lc [n] :=
  Releases.onSeq hs lc (Sequencer.onQueue_keeps _ _ _ (seq_canon lc hs)) ⟨_, _, _, rfl⟩ fun _ hm =>
    Sequencer.queue_onQueue_other _ _ _ _ fun e => hm (e ▸ List.mem_singleton_self n)

/-- What leaves the cores as they are releases nothing. -/
theorem Releases.of_cores {s t : State} (ht : Canon t) (h : t.cores = s.cores) (lc : Nat) (ns : List Nat) :
    Releases s t lc ns := by
  have core : t.core = s.core := by
    funext k
    rw [State.core, State.core, h]
  exact ⟨ht, ⟨_, _, _, by rw [core]⟩, fun n _ => by rw [core], by rw [core], by rw [core], fun k _ => by rw [core]⟩

/-! ### The drain path's pump -/

theorem State.queueTile_scp_integ {s : State} (lc : Nat) (x : Nat × Nat) (h : Canon s) :
    ((s.queueTile lc x).core lc).scp = (s.core lc).scp ∧ ((s.queueTile lc x).core lc).integ = (s.core lc).integ := by
  unfold State.queueTile
  have array (a : Arr) (f : ArrayU → ArrayU) : ((s.onArray lc a f).core lc).scp = (s.core lc).scp
      ∧ ((s.onArray lc a f).core lc).integ = (s.core lc).integ := by
    rw [State.core_onArray_same lc a f h]
    cases a <;> exact ⟨rfl, rfl⟩
  dsimp only
  split
  · exact ⟨rfl, rfl⟩
  · split
    · rw [State.core_onSeq_same lc _ (State.onArray_keeps lc _ _ h)]
      exact array _ _
    · split
      · exact ⟨rfl, rfl⟩
      · exact array _ _

theorem Releases.drainPump {s : State} (lc : Nat) (hs : Canon s) : Releases s (s.drainPump lc) lc [] := by
  have kept : Canon (s.drainPump lc) ∧ ((s.drainPump lc).core lc).scp = (s.core lc).scp
      ∧ ((s.drainPump lc).core lc).integ = (s.core lc).integ := by
    refine foldl_keeps (P := fun u : State => Canon u ∧ (u.core lc).scp = (s.core lc).scp
      ∧ (u.core lc).integ = (s.core lc).integ) _ _ ⟨hs, rfl, rfl⟩ fun u x ⟨hu, scp, integ⟩ => ?_
    obtain ⟨scp', integ'⟩ := State.queueTile_scp_integ lc x hu
    exact ⟨State.queueTile_canon lc x hu, scp'.trans scp, integ'.trans integ⟩
  obtain ⟨canon, scp, integ⟩ := kept
  obtain ⟨l, hl⟩ := State.drainPump_seq lc hs
  exact ⟨canon, ⟨_, _, l, hl⟩, fun n _ => State.queue_drainPump lc n hs, scp, integ,
    fun k hk => State.core_drainPump_other s lc k hk⟩

/-! ### A window's queue -/

theorem State.cores_sendCtl (s : State) (fi type : Nat) (op : BitVec 256) (payload : List Byte) (src : Nat) :
    (s.sendCtl fi type op payload src).cores = s.cores :=
  State.sendCtl_within (W := [.ports, .fab]) fi type op payload src Within.rfl (by decide) (by decide) .cores (by decide)

/-- A window that is changed in other fields than its queue keeps its queue. -/
theorem Sequencer.winQueue_onWin {q : Sequencer} (hq : q.Canon) (n : BitVec 12) (f : Window → Window)
    (hf : ∀ w, (f w).queue = w.queue) : (q.onWin n f).winQueue n = q.winQueue n := by
  have win : ((q.onWin n f).win n).queue = (q.win n).queue := by rw [Sequencer.win_onWin_same _ _ _ hq, hf]
  simp only [Sequencer.winQueue, win]
  rfl

/-- A window's pump changes that window and its queue. -/
theorem Sequencer.windowPump_eq {q : Sequencer} (hq : q.Canon) (n : BitVec 12) (fuel : Nat) :
    (∃ qs ws, q.windowPump n fuel = { q with queues := qs, windows := ws })
      ∧ ∀ m, q.winQueue n ≠ some m → (q.windowPump n fuel).queue m = q.queue m := by
  induction fuel generalizing q with
  | zero => exact ⟨⟨_, _, rfl⟩, fun _ _ => rfl⟩
  | succ fuel ih =>
    have again (qn : Nat) (hw : q.winQueue n = some qn) (f : Queue → Queue) (k : Nat) :
        let q' := (q.onQueue qn f).onWin n (fun w => { w with readySlots := k + 1 })
        (∃ qs ws, q'.windowPump n fuel = { q with queues := qs, windows := ws })
          ∧ ∀ m, q.winQueue n ≠ some m → (q'.windowPump n fuel).queue m = q.queue m := by
      have canon : (q.onQueue qn f).Canon := Sequencer.onQueue_keeps _ _ _ hq
      have same : ((q.onQueue qn f).onWin n (fun w => { w with readySlots := k + 1 })).winQueue n = q.winQueue n :=
        Sequencer.winQueue_onWin canon n _ fun _ => rfl
      obtain ⟨⟨qs, ws, e⟩, queues⟩ := ih (Sequencer.onWin_keeps _ _ _ canon)
      refine ⟨⟨qs, ws, e⟩, fun m hm => (queues m (same ▸ hm)).trans ?_⟩
      exact Sequencer.queue_onQueue_other _ _ _ _ fun e => hm (e ▸ hw)
    unfold Sequencer.windowPump
    dsimp only
    split
    · exact ⟨⟨_, _, rfl⟩, fun _ _ => rfl⟩
    · next qn hw =>
      split
      · exact ⟨⟨_, _, rfl⟩, fun _ _ => rfl⟩
      · split
        · exact again qn hw _ _
        · split
          · exact ⟨⟨_, _, rfl⟩, fun _ _ => rfl⟩
          · exact again qn hw _ _

end Sys2Proof.Machine

namespace Sys2Proof

/-- A listed entry of a canonical table is what its key reads as. -/
theorem Tbl.get_of_mem {α : Type} [DecidableEq α] {d : α} {t : Tbl α} (h : Tbl.wf d t = true) {k : Nat} {v : α}
    (hm : (k, v) ∈ t) : Tbl.get d t k = v := by
  suffices ∀ lo, Tbl.wfFrom d lo t = true → lo ≤ k ∧ Tbl.get d t k = v from (this 0 h).2
  clear h
  induction t with
  | nil => cases hm
  | cons x r ih =>
    intro lo h
    simp only [Tbl.wfFrom, Bool.and_eq_true, decide_eq_true_eq] at h
    obtain ⟨⟨hlo, -⟩, hr⟩ := h
    rcases List.mem_cons.1 hm with rfl | hm
    · exact ⟨hlo, if_pos rfl⟩
    · obtain ⟨above, get⟩ := ih hm (x.1 + 1) hr
      exact ⟨by omega, (if_neg (by omega)).trans get⟩

end Sys2Proof

namespace Sys2Proof.Machine

/-- The credit of a released slot changes its window and the window's queue. -/
theorem Releases.creditRelease {s : State} (lc qn : Nat) (hs : Canon s) : Releases s (s.creditRelease lc qn) lc [qn] := by
  unfold State.creditRelease
  dsimp only
  split
  · exact Releases.refl hs _ _
  · next wn w hfind =>
    have windows : Tbl.wf {} (s.core lc).seq.windows = true := by
      obtain ⟨-, -, -, hw, -⟩ := seq_canon lc hs
      exact hw
    have mem := List.mem_of_find?_eq_some hfind
    have queue : (s.core lc).seq.winQueue (BitVec.ofNat 12 wn) = some qn := by
      have found := List.find?_some hfind
      simp only [Bool.and_eq_true, beq_iff_eq] at found
      exact found.2
    let q : Sequencer := { (s.core lc).seq with
      windows := Tbl.set {} (s.core lc).seq.windows wn { w with released := w.released + 1 } }
    have canon : q.Canon := by
      obtain ⟨a, b, c, d, e⟩ := seq_canon lc hs
      exact ⟨a, b, c, Tbl.set_wf _ _ _ _ d, e⟩
    have same : q.winQueue (BitVec.ofNat 12 wn) = (s.core lc).seq.winQueue (BitVec.ofNat 12 wn) := by
      have win : (q.win (BitVec.ofNat 12 wn)).queue = ((s.core lc).seq.win (BitVec.ofNat 12 wn)).queue := by
        by_cases hk : (BitVec.ofNat 12 wn).toNat = wn
        · simp only [Sequencer.win, q, hk, Tbl.get_set_same _ _ _ _ windows, Tbl.get_of_mem windows mem]
        · simp only [Sequencer.win, q, Tbl.get_set_other _ _ _ _ _ hk]
      simp only [Sequencer.winQueue, win]
      rfl
    obtain ⟨⟨qs, ws, pumped⟩, queues⟩ := Sequencer.windowPump_eq canon (BitVec.ofNat 12 wn) 64
    have credited : Releases s (s.onSeq lc (fun q => Sequencer.windowPump
        { q with windows := Tbl.set {} q.windows wn { w with released := w.released + 1 } } (BitVec.ofNat 12 wn) 64))
        lc [qn] := by
      refine Releases.onSeq hs lc (Sequencer.windowPump_canon _ _ canon) ⟨qs, ws, _, pumped⟩ fun m hm => queues m fun e => ?_
      exact hm (List.mem_singleton.2 (Option.some.inj ((same.trans queue).symm.trans e)).symm)
    split
    · exact credited
    · exact credited.trans
        (Releases.of_cores (State.sendCtl_canon _ _ _ _ _ credited.canon) (State.cores_sendCtl _ _ _ _ _ _) _ _)

/-- One hold on an entry clears, and what follows stays within its queue. -/
theorem Releases.releaseEntry {s : State} (lc qn id : Nat) (hs : Canon s) : Releases s (s.releaseEntry lc qn id) lc [qn] := by
  have cleared := Releases.onQueue hs lc qn (fun _ => ((s.core lc).seq.queue qn).release id)
  unfold State.releaseEntry
  dsimp only
  split
  · exact cleared.trans (Releases.creditRelease lc qn cleared.canon)
  · exact cleared.trans ((Releases.drainPump lc cleared.canon).mono (List.nil_subset _))

/-- An entry of a queue that is no window's loses a hold, and that is all that becomes of its queue. -/
theorem State.queue_releaseEntry {s : State} (lc qn id : Nat) (hs : Canon s) (hm : ((s.core lc).seq.queue qn).mode ≠ 2) :
    ((s.releaseEntry lc qn id).core lc).seq.queue qn = ((s.core lc).seq.queue qn).release id := by
  unfold State.releaseEntry
  dsimp only
  rw [if_neg fun h => hm h.1, State.queue_drainPump _ _ (State.onQueue_keeps _ _ _ hs), State.core_onQueue_same _ _ _ hs,
    Sequencer.queue_onQueue_same _ _ _ (seq_canon lc hs)]

/-! ### A completing command's inputs -/

/-- An input popped and released, unless it is a KEEP input (R102, R103). -/
def State.consumeOne (lc : Nat) (s : State) (i : InRef) : State :=
  if i.keep then s else (s.onQueue lc i.qn (fun q => q.pop i.ent.id)).releaseEntry lc i.qn i.ent.id

theorem State.consume_eq (s : State) (c : Ctx) : s.consume c = c.ins.foldl (State.consumeOne c.lc) s := rfl

theorem Releases.consumeOne {s : State} (lc : Nat) (i : InRef) (hs : Canon s) : Releases s (s.consumeOne lc i) lc [i.qn] := by
  unfold State.consumeOne
  split
  · exact Releases.refl hs _ _
  · exact (Releases.onQueue hs _ _ _).trans (Releases.releaseEntry _ _ _ (State.onQueue_keeps _ _ _ hs))

/-- What becomes of an input's queue, if it is no window's. -/
theorem State.queue_consumeOne {s : State} (lc : Nat) (i : InRef) (hs : Canon s)
    (hm : ((s.core lc).seq.queue i.qn).mode ≠ 2) : ((s.consumeOne lc i).core lc).seq.queue i.qn =
      if i.keep then (s.core lc).seq.queue i.qn else (((s.core lc).seq.queue i.qn).pop i.ent.id).release i.ent.id := by
  unfold State.consumeOne
  split
  · rfl
  · have popped : ((s.onQueue lc i.qn (fun q => q.pop i.ent.id)).core lc).seq.queue i.qn =
        ((s.core lc).seq.queue i.qn).pop i.ent.id := by
      rw [State.core_onQueue_same _ _ _ hs, Sequencer.queue_onQueue_same _ _ _ (seq_canon lc hs)]
    rw [State.queue_releaseEntry _ _ _ (State.onQueue_keeps _ _ _ hs) (popped ▸ hm), popped]

theorem Releases.foldl_consumeOne {s : State} (lc : Nat) (ins : List InRef) (hs : Canon s) :
    Releases s (ins.foldl (State.consumeOne lc) s) lc (ins.map (·.qn)) := by
  induction ins generalizing s with
  | nil => exact Releases.refl hs _ _
  | cons i r ih =>
    have first := Releases.consumeOne lc i hs
    exact (first.mono (by simp)).trans ((ih first.canon).mono (by simp))

theorem Releases.consume {s : State} (c : Ctx) (hs : Canon s) : Releases s (s.consume c) c.lc (c.ins.map (·.qn)) :=
  Releases.foldl_consumeOne c.lc c.ins hs

/-- Inputs from queues of their own are each consumed in its queue. -/
theorem State.queue_consume {s : State} (c : Ctx) (hs : Canon s) (hd : (c.ins.map (·.qn)).Nodup) {i : InRef}
    (hi : i ∈ c.ins) (hm : ((s.core c.lc).seq.queue i.qn).mode ≠ 2) : ((s.consume c).core c.lc).seq.queue i.qn =
      if i.keep then (s.core c.lc).seq.queue i.qn else (((s.core c.lc).seq.queue i.qn).pop i.ent.id).release i.ent.id := by
  rw [State.consume_eq]
  generalize c.ins = ins at hd hi
  induction ins generalizing s with
  | nil => cases hi
  | cons j r ih =>
    rw [List.map_cons, List.nodup_cons] at hd
    have first := Releases.consumeOne c.lc j hs
    rw [List.foldl_cons]
    rcases List.mem_cons.1 hi with rfl | hi
    · rw [(Releases.foldl_consumeOne c.lc r first.canon).queues _ hd.1, State.queue_consumeOne _ _ hs hm]
    · have apart : (((s.consumeOne c.lc j).core c.lc).seq.queue i.qn) = (s.core c.lc).seq.queue i.qn :=
        first.queues _ fun e => hd.1 (List.mem_singleton.1 e ▸ List.mem_map_of_mem hi)
      rw [ih first.canon (apart ▸ hm) hd.2 hi, apart]

end Sys2Proof.Machine
end

section
/-! SUPPORT. Pushing output tiles (R102, R104, R168): what one push makes of its core, and what several make of it. -/

namespace Sys2Proof.Machine

/-- A tagged write into sound banks with room for another extent changes marks and pending extents at most (R168). -/
theorem State.core_addExtent {s : State} (hs : Canon s) (lc : Nat) (g : BitVec 12) (words : List (Nat × Nat))
    (entry : Option (Nat × Nat)) (hm : (s.core lc).scp.sound)
    (room : (s.core lc).scp.pend.length + (s.core lc).scp.away.length < 256) :
    (∃ d p pend, (s.addExtent lc g words entry).core lc =
        { s.core lc with scp := { (s.core lc).scp.remark d p with pend := pend } }
          ∧ pend.length ≤ (s.core lc).scp.pend.length + 1)
      ∧ ∀ k, k ≠ lc → (s.addExtent lc g words entry).core k = s.core k := by
  unfold State.addExtent
  dsimp only
  split
  · obtain ⟨d, p, e⟩ := Scratch.poisonRuns_of_sound hm words
    refine ⟨⟨d, p, _, ?_, Nat.le_succ _⟩, fun k hk => State.core_onScp_other _ _ _ _ hk⟩
    rw [State.core_onScp_same _ _ hs, e]
    rfl
  · refine ⟨⟨_, _, _, State.core_onScp_same _ _ hs, ?_⟩, fun k hk => State.core_onScp_other _ _ _ _ hk⟩
    exact Nat.le_of_eq (List.length_append ..)

/-- The core of a command's push of a tile, with these tags, marks and pending extents. -/
def pushedCore (s : State) (c : Ctx) (i : Nat) (x : Tile) (data : List MB) (d p : Tbl Bool) (pend : List Extent) : Core :=
  { s.core c.lc with
    seq := (s.core c.lc).seq.onQueue (c.outs.getD i 0) (fun q =>
      q.add (((s.core c.lc).seq.queue (c.outs.getD i 0)).slotDesc x.fmt x.rows x.cols c.grp) .ready)
    scp := { (s.core c.lc).scp.remark d p with
      pend := pend
      bytes := Mem.writeN (s.core c.lc).scp.bytes (slotStart s c i x) (mbBytes data) } }

/-- A push that lies clear of the code, with room for its extent, writes the tile into its slot and adds its entry. -/
theorem State.pushTile_eq {s : State} {c : Ctx} (hs : Canon s) (hm : (s.core c.lc).scp.sound) (i : Nat) (x : Tile)
    (data : List MB) (clear : (s.core c.lc).codeHit (outRuns s c i x.fmt x.rows x.cols) = false)
    (room : c.grp = none ∨ (s.core c.lc).scp.pend.length + (s.core c.lc).scp.away.length < 256) :
    ∃ t d p pend, s.pushTile c i x.fmt x.rows x.cols data = some t ∧ Canon t
      ∧ t.core c.lc = pushedCore s c i x data d p pend
      ∧ pend.length ≤ (s.core c.lc).scp.pend.length + 1 ∧ ∀ k, k ≠ c.lc → t.core k = s.core k := by
  let qn := c.outs.getD i 0
  let desc := ((s.core c.lc).seq.queue qn).slotDesc x.fmt x.rows x.cols c.grp
  let u := s.onScp c.lc (fun m => m.writeRun ((s.core c.lc).seq.durable desc.seg) (slotStart s c i x) data)
  let v := u.onQueue c.lc qn (fun q => q.add desc .ready)
  obtain ⟨d, p, wrote⟩ := Scratch.writeRun_of_sound hm ((s.core c.lc).seq.durable desc.seg) (slotStart s c i x) data
  have canonU : Canon u := State.onScp_canon _ _ hs fun _ => Scratch.writeRun_canon _ _ _
  have canonV : Canon v := State.onQueue_keeps _ _ _ canonU
  have core : v.core c.lc = pushedCore s c i x data d p (s.core c.lc).scp.pend := by
    rw [State.core_onQueue_same _ _ _ canonU, State.core_onScp_same _ _ hs, wrote]
    rfl
  have others (k : Nat) (hk : k ≠ c.lc) : v.core k = s.core k :=
    (State.core_onQueue_other _ _ _ _ _ hk).trans (State.core_onScp_other _ _ _ _ hk)
  have push : s.pushTile c i x.fmt x.rows x.cols data = match c.grp with
      | none => some v
      | some g => some (v.addExtent c.lc g (outRuns s c i x.fmt x.rows x.cols)
          (some (qn, ((s.core c.lc).seq.queue qn).made))) := by
    unfold State.pushTile
    dsimp only
    exact if_neg (Bool.not_eq_true _ ▸ clear)
  rw [push]
  cases hg : c.grp with
  | none => exact ⟨v, d, p, _, rfl, canonV, core, Nat.le_succ _, others⟩
  | some g =>
    obtain ⟨⟨d', p', pend, core', grown⟩, others'⟩ := State.core_addExtent canonV c.lc g
      (outRuns s c i x.fmt x.rows x.cols) (some (qn, ((s.core c.lc).seq.queue qn).made)) (by rw [core]; exact hm)
      (by rw [core]; exact room.resolve_left (by simp [hg]))
    rw [core] at core' grown
    exact ⟨_, d', p', pend, rfl, State.addExtent_canon _ _ _ _ canonV, core', grown,
      fun k hk => (others' k hk).trans (others k hk)⟩

@[simp] theorem mbBytes_mbMark (p : Bool) (l : List Byte) : mbBytes (mbMark p l) = l := by
  simp [mbBytes, mbMark, Function.comp_def]

/-- Another output's slot is where it was before a push. -/
theorem slotStart_congr {s t : State} {c : Ctx} {k : Nat} (x : Tile)
    (queue : (t.core c.lc).seq.queue (c.outs.getD k 0) = (s.core c.lc).seq.queue (c.outs.getD k 0))
    (segs : (t.core c.lc).seq.segs = (s.core c.lc).seq.segs) : slotStart t c k x = slotStart s c k x := by
  simp only [slotStart, queue, Sequencer.seg, segs]

theorem outRuns_congr {s t : State} {c : Ctx} {k : Nat} (fmt rows cols : Nat)
    (queue : (t.core c.lc).seq.queue (c.outs.getD k 0) = (s.core c.lc).seq.queue (c.outs.getD k 0))
    (segs : (t.core c.lc).seq.segs = (s.core c.lc).seq.segs) :
    outRuns t c k fmt rows cols = outRuns s c k fmt rows cols := by
  simp only [outRuns, queue, Sequencer.absRuns, Sequencer.seg, segs]

/-- Outputs from slot `i` on lie clear of the code and of each other, with room for their extents. -/
structure ClearFrom (s : State) (c : Ctx) (i : Nat) (outs : List Tile) : Prop where
  code : ∀ (j : Nat) (x : Tile), outs[j]? = some x →
    (s.core c.lc).codeHit (outRuns s c (i + j) x.fmt x.rows x.cols) = false
  apart : ∀ (j k : Nat) (x y : Tile), j ≠ k → outs[j]? = some x → outs[k]? = some y →
    slotStart s c (i + j) x + x.bytes.length ≤ slotStart s c (i + k) y
      ∨ slotStart s c (i + k) y + y.bytes.length ≤ slotStart s c (i + j) x
  room : outs = [] ∨ c.grp = none ∨ (s.core c.lc).scp.pend.length + (s.core c.lc).scp.away.length + outs.length ≤ 256

theorem ClearFrom.nil (s : State) (c : Ctx) (i : Nat) : ClearFrom s c i [] :=
  ⟨fun j x hx => by simp at hx, fun j k x y hjk hx => by simp at hx, .inl rfl⟩

theorem ClearFrom.of_outsClear {s : State} {c : Ctx} {outs : List Tile} (h : outsClear s c outs) : ClearFrom s c 0 outs := by
  obtain ⟨code, apart, room⟩ := h
  exact ⟨fun j x hx => by rw [Nat.zero_add]; exact code j x hx,
    fun j k x y hjk hx hy => by rw [Nat.zero_add, Nat.zero_add]; exact apart j k x y hjk hx hy, .inr room⟩

/-- Tiles pushed from output slot `i` on: each stands in its slot with its entry; no other queue, no other byte of the
scratchpad and no other core has changed. -/
structure Pushed (s t : State) (c : Ctx) (i : Nat) (outs : List Tile) : Prop where
  canon : Canon t
  seq : ∃ qs, (t.core c.lc).seq = { (s.core c.lc).seq with queues := qs }
  scp : ∃ d p pend bytes, (t.core c.lc).scp = { (s.core c.lc).scp.remark d p with pend := pend, bytes := bytes }
  integ : (t.core c.lc).integ = (s.core c.lc).integ
  entries : ∀ (j : Nat) (x : Tile), outs[j]? = some x →
    let q := (s.core c.lc).seq.queue (c.outs.getD (i + j) 0)
    ((t.core c.lc).seq.queue (c.outs.getD (i + j) 0)).entries =
      q.entries ++ [{ id := q.made, slot := q.next, desc := q.slotDesc x.fmt x.rows x.cols c.grp, st := .ready }]
  queues : ∀ n, n ∉ c.outs.drop i → (t.core c.lc).seq.queue n = (s.core c.lc).seq.queue n
  bytes : ∀ (j : Nat) (x : Tile), outs[j]? = some x → ∀ b < x.bytes.length,
    Memory.read (t.core c.lc).scp.bytes (slotStart s c (i + j) x + b) = x.bytes.getD b 0
  rest : ∀ a, (∀ (j : Nat) (x : Tile), outs[j]? = some x →
      a < slotStart s c (i + j) x ∨ slotStart s c (i + j) x + x.bytes.length ≤ a) →
    Memory.read (t.core c.lc).scp.bytes a = Memory.read (s.core c.lc).scp.bytes a
  cores : ∀ k, k ≠ c.lc → t.core k = s.core k

/-- Outputs with queues of their own that lie clear are all pushed. -/
theorem State.pushTiles_eq {s : State} {c : Ctx} (hs : Canon s) (hm : (s.core c.lc).scp.sound) (hd : c.outs.Nodup) (i : Nat)
    (outs : List Tile) (hn : i + outs.length ≤ c.outs.length) (clear : ClearFrom s c i outs) :
    ∃ t, s.pushTiles c i outs = some t ∧ Pushed s t c i outs := by
  induction outs generalizing s i with
  | nil =>
    refine ⟨s, rfl, hs, ⟨_, rfl⟩, ⟨_, _, _, _, rfl⟩, rfl, ?_, fun _ _ => rfl, ?_, fun _ _ => rfl, fun _ _ => rfl⟩
    · intro j x hx
      cases hx
    · intro j x hx
      cases hx
  | cons x r ih =>
    rw [List.length_cons] at hn
    have room := clear.room.resolve_left (List.cons_ne_nil x r)
    obtain ⟨t, d, p, pend, push, canon, core, grown, others⟩ := State.pushTile_eq hs hm i x (mbMark x.poison x.bytes)
      (clear.code 0 x rfl) (room.imp_right fun h => by rw [List.length_cons] at h; omega)
    have ownQueue (j : Nat) (hj : j < r.length) : c.outs.getD (i + 1 + j) 0 ≠ c.outs.getD i 0 := by
      rw [List.getD_eq_getElem _ _ (by omega : i + 1 + j < c.outs.length),
        List.getD_eq_getElem _ _ (by omega : i < c.outs.length)]
      exact fun e => absurd ((hd.getElem_inj_iff).1 e) (by omega)
    have queue (n : Nat) (hq : n ≠ c.outs.getD i 0) : (t.core c.lc).seq.queue n = (s.core c.lc).seq.queue n := by
      rw [core]
      exact Sequencer.queue_onQueue_other _ _ _ _ hq
    have segs : (t.core c.lc).seq.segs = (s.core c.lc).seq.segs := by rw [core]; rfl
    have slot (j : Nat) (hj : j < r.length) (y : Tile) : slotStart t c (i + 1 + j) y = slotStart s c (i + (j + 1)) y := by
      rw [slotStart_congr y (queue _ (ownQueue j hj)) segs, Nat.add_right_comm, Nat.add_assoc]
    have inList (j : Nat) (y : Tile) (hy : r[j]? = some y) : j < r.length := by
      rw [List.getElem?_eq_some_iff] at hy
      exact hy.1
    have next : ClearFrom t c (i + 1) r := by
      refine ⟨fun j y hy => ?_, fun j k y z hjk hy hz => ?_, room.elim (fun h => .inr (.inl h)) fun h => .inr (.inr ?_)⟩
      · rw [outRuns_congr _ _ _ (queue _ (ownQueue j (inList j y hy))) segs]
        have code := clear.code (j + 1) y hy
        rw [core]
        rw [← Nat.add_assoc, Nat.add_right_comm] at code
        exact code
      · rw [slot j (inList j y hy), slot k (inList k z hz)]
        exact clear.apart (j + 1) (k + 1) y z (by omega) hy hz
      · rw [core]
        rw [List.length_cons] at h
        show pend.length + (s.core c.lc).scp.away.length + r.length ≤ 256
        omega
    obtain ⟨u, pushed, all⟩ := ih canon (by rw [core]; exact hm) (i + 1) (by omega) next
    refine ⟨u, ?_, ?_⟩
    · rw [State.pushTiles, push]
      exact pushed
    · obtain ⟨d', p', pend', bytes', scp'⟩ := all.scp
      obtain ⟨qs, seq'⟩ := all.seq
      have step (j : Nat) : i + 1 + j = i + (j + 1) := by omega
      have head : c.outs.getD i 0 ∉ c.outs.drop (i + 1) := fun e => by
        rw [List.getD_eq_getElem _ _ (by omega : i < c.outs.length)] at e
        have := (List.drop_eq_getElem_cons (by omega : i < c.outs.length)) ▸ hd.sublist (List.drop_sublist i _)
        exact (List.nodup_cons.1 this).1 e
      have away (a : Nat) (ha : a < slotStart s c i x ∨ slotStart s c i x + x.bytes.length ≤ a) :
          Memory.read (t.core c.lc).scp.bytes a = Memory.read (s.core c.lc).scp.bytes a := by
        rw [core]
        exact Mem.read_writeN_other _ _ _ _ (by simpa using ha)
      refine ⟨all.canon, ⟨qs, by rw [seq', core]; rfl⟩, ⟨d', p', pend', bytes', by rw [scp', core]; rfl⟩,
        by rw [all.integ, core]; rfl, ?_, ?_, ?_, ?_, fun k hk => (all.cores k hk).trans (others k hk)⟩
      · rintro (_ | j) y hy
        · cases hy
          rw [Nat.add_zero, all.queues _ head, core]
          exact congrArg Queue.entries (Sequencer.queue_onQueue_same _ _ _ (seq_canon c.lc hs))
        · have := all.entries j y hy
          rw [step, queue _ (step j ▸ ownQueue j (inList j y hy))] at this
          exact this
      · intro n hn
        rw [List.drop_eq_getElem_cons (by omega : i < c.outs.length), List.mem_cons, not_or,
          ← List.getD_eq_getElem _ 0] at hn
        exact (all.queues n hn.2).trans (queue n hn.1)
      · rintro (_ | j) y hy b hb
        · cases hy
          rw [Nat.add_zero, all.rest _ fun j z hz => ?_, core]
          · exact (Mem.read_writeN_same _ _ _ _ (State.bytes_wf c.lc hs) (by simpa using hb)).trans (by simp)
          · rw [slot j (inList j z hz)]
            have := clear.apart 0 (j + 1) x z (by omega) rfl hz
            rw [Nat.add_zero] at this
            omega
        · rw [← slot j (inList j y hy)]
          exact all.bytes j y hy b hb
      · intro a ha
        refine (all.rest a fun j z hz => ?_).trans (away a (ha 0 x rfl))
        rw [slot j (inList j z hz)]
        exact ha (j + 1) z hz

end Sys2Proof.Machine
end

section
/-! SUPPORT. Completion (R102–R104, R126): a command whose outputs lie clear and whose stream goes on completes. -/

namespace Sys2Proof.Machine

/-- `u` stands as `s` does in all that a completion speaks of: a core's sequencer, its scratchpad's bytes and extents, its
banks' soundness, and every other core. Free are the registers, the bins and the flags. -/
structure Beside (s u : State) (lc : Nat) : Prop where
  canon : Canon u
  seq : (u.core lc).seq = (s.core lc).seq
  bytes : (u.core lc).scp.bytes = (s.core lc).scp.bytes
  extents : (u.core lc).scp.pend = (s.core lc).scp.pend ∧ (u.core lc).scp.away = (s.core lc).scp.away
  sound : (u.core lc).scp.sound
  cores : ∀ k, k ≠ lc → u.core k = s.core k

theorem Beside.of_core_eq {s u : State} {lc : Nat} (hu : Canon u) (hm : (s.core lc).scp.sound)
    (h : ∀ k, u.core k = s.core k) : Beside s u lc :=
  ⟨hu, by rw [h], by rw [h], by rw [h]; exact ⟨rfl, rfl⟩, by rw [h]; exact hm, fun k _ => h k⟩

theorem Beside.trans {s t u : State} {lc : Nat} (h : Beside s t lc) (k : Beside t u lc) : Beside s u lc where
  canon := k.canon
  seq := k.seq.trans h.seq
  bytes := k.bytes.trans h.bytes
  extents := ⟨k.extents.1.trans h.extents.1, k.extents.2.trans h.extents.2⟩
  sound := k.sound
  cores x hx := (k.cores x hx).trans (h.cores x hx)

/-- A change of a core's counters and flags. -/
theorem Beside.onInteg {s u : State} {lc : Nat} (h : Beside s u lc) (f : Integrity → Integrity) :
    Beside s (u.onInteg lc f) lc := by
  have core := State.core_onInteg_same lc f h.canon
  refine h.trans ⟨State.setCore_canon _ _ h.canon (h.canon.1.2 lc), ?_, ?_, ?_, ?_, fun k hk =>
    State.core_setCore_other _ _ _ _ hk⟩
  · rw [core]
  · rw [core]
  · rw [core]; exact ⟨rfl, rfl⟩
  · rw [core]; exact h.sound

theorem Beside.vecFlags {s u : State} {lc : Nat} (h : Beside s u lc) (f : VFlags) : Beside s (u.vecFlags lc f) lc :=
  h.onInteg _

/-- A change of V's registers. -/
theorem Beside.vregs {s u : State} {lc : Nat} (h : Beside s u lc) (f : Memory → Memory)
    (hf : ∀ v : Memory, v.wf = true → (f v).wf = true) :
    Beside s (u.onScp lc (fun m => { m with vregs := f m.vregs })) lc := by
  refine h.trans ⟨State.onScp_canon _ _ h.canon fun _ ⟨bytes, vregs, rest⟩ => ⟨bytes, hf _ vregs, rest⟩, ?_, ?_, ?_, ?_,
    fun k hk => State.core_onScp_other _ _ _ _ hk⟩
  · rw [State.core_onScp_same _ _ h.canon]
  · rw [State.core_onScp_same _ _ h.canon]
  · rw [State.core_onScp_same _ _ h.canon]; exact ⟨rfl, rfl⟩
  · rw [State.core_onScp_same _ _ h.canon]; exact h.sound

/-- A change of Q's bins. -/
theorem Beside.bins {s u : State} {lc : Nat} (h : Beside s u lc) (f : Tbl Word → Tbl Word) :
    Beside s (u.onScp lc (fun m => { m with bins := f m.bins })) lc := by
  refine h.trans ⟨State.onScp_canon _ _ h.canon fun _ hm => hm, ?_, ?_, ?_, ?_, fun k hk => State.core_onScp_other _ _ _ _ hk⟩
  · rw [State.core_onScp_same _ _ h.canon]
  · rw [State.core_onScp_same _ _ h.canon]
  · rw [State.core_onScp_same _ _ h.canon]; exact ⟨rfl, rfl⟩
  · rw [State.core_onScp_same _ _ h.canon]; exact h.sound

/-- Reading inputs from sound banks. -/
theorem Beside.readInputs {s : State} (c : Ctx) (hs : Canon s) (hm : (s.core c.lc).scp.sound) :
    Beside s (readInputs s c).2 c.lc :=
  Beside.of_core_eq (readInputs_canon c hs) hm (readInputs_core_of_sound c hs hm)

theorem slotStart_of_seq {s u : State} {c : Ctx} (h : (u.core c.lc).seq = (s.core c.lc).seq) (i : Nat) (x : Tile) :
    slotStart u c i x = slotStart s c i x := by
  simp only [slotStart, h]

theorem Beside.outsClear {s u : State} {c : Ctx} {outs : List Tile} (h : Beside s u c.lc) (clear : outsClear s c outs) :
    outsClear u c outs := by
  obtain ⟨code, apart, room⟩ := clear
  refine ⟨fun i x hx => ?_, fun i j x y hij hx hy => ?_, room.imp_right fun r => ?_⟩
  · have := code i x hx
    simpa only [Core.codeHit, outRuns, h.seq] using this
  · rw [slotStart_of_seq h.seq, slotStart_of_seq h.seq]
    exact apart i j x y hij hx hy
  · rw [h.extents.1, h.extents.2]
    exact r

/-- What completes one state completes the one it stands beside. -/
theorem Beside.completes {s u t : State} {c : Ctx} {outs : List Tile} (h : Beside s u c.lc) (k : Completes u t c outs) :
    Completes s t c outs where
  eng := by rw [k.eng, State.eng, State.eng, h.seq]
  entries i x hx := by rw [← h.seq]; exact k.entries i x hx
  bytes i x hx := by rw [← slotStart_of_seq h.seq]; exact k.bytes i x hx
  inputs i hi hm := by rw [← h.seq] at hm ⊢; exact k.inputs i hi hm
  queues n hi ho := by rw [← h.seq]; exact k.queues n hi ho
  rest a ha := by
    rw [← h.bytes]
    exact k.rest a fun i x hx => by rw [slotStart_of_seq h.seq]; exact ha i x hx
  cores n hn := (k.cores n hn).trans (h.cores n hn)

theorem Beside.goesOn {s u : State} {lc : Nat} (h : Beside s u lc) (e : Eng) : goesOn u lc e = goesOn s lc e := by
  simp only [Machine.goesOn, noStopCount, State.eng, h.seq]

/-- A push leaves a core's engines and what a retirement meets. -/
theorem Pushed.eng {s t : State} {c : Ctx} {i : Nat} {outs : List Tile} (h : Pushed s t c i outs) (e : Eng) :
    t.eng c.lc e = s.eng c.lc e := by
  obtain ⟨qs, hq⟩ := h.seq
  rw [State.eng, hq]
  rfl

theorem Pushed.goesOn {s t : State} {c : Ctx} {i : Nat} {outs : List Tile} (h : Pushed s t c i outs) (e : Eng) :
    goesOn t c.lc e = goesOn s c.lc e := by
  obtain ⟨qs, hq⟩ := h.seq
  simp only [Machine.goesOn, noStopCount, State.eng, hq]
  rfl

/-- Outputs pushed, inputs consumed and the command retired: it has completed. -/
theorem Pushed.completes {s t : State} {c : Ctx} {outs : List Tile} (h : Pushed s t c 0 outs)
    (distinct : (c.ins.map (·.qn) ++ c.outs).Nodup) (len : outs.length = c.outs.length) :
    Completes s ((t.consume c).onEng c.lc c.e (Engine.retire c.f.loops)) c outs := by
  obtain ⟨ins, -, apart⟩ := List.nodup_append.1 distinct
  have released := Releases.consume c h.canon
  have core : ((t.consume c).onEng c.lc c.e (Engine.retire c.f.loops)).core c.lc =
      { (t.consume c).core c.lc with seq := ((t.consume c).core c.lc).seq.onEng c.e (Engine.retire c.f.loops) } :=
    State.core_onEng_same _ _ _ released.canon
  refine ⟨?_, fun i x hx => ?_, fun i x hx b hb => ?_, fun i hi hm => ?_, fun n hi ho => ?_, fun a ha => ?_, fun k hk => ?_⟩
  · rw [State.eng_onEng _ _ _ released.canon, released.eng, h.eng]
  · obtain ⟨lt, -⟩ := List.getElem?_eq_some_iff.1 hx
    have mem : c.outs.getD i 0 ∈ c.outs := by
      rw [List.getD_eq_getElem _ _ (len ▸ lt)]
      exact List.getElem_mem _
    have entries := h.entries i x hx
    rw [Nat.zero_add] at entries
    dsimp only
    rw [core, Sequencer.queue_onEng, released.queues _ fun e => apart _ e _ mem rfl, entries]
  · have bytes := h.bytes i x hx b hb
    rw [Nat.zero_add] at bytes
    rw [core, released.scp, bytes]
  · have own : (t.core c.lc).seq.queue i.qn = (s.core c.lc).seq.queue i.qn :=
      h.queues _ fun e => apart _ (List.mem_map_of_mem hi) _ e rfl
    rw [core, Sequencer.queue_onEng, State.queue_consume c h.canon ins hi (own ▸ hm), own]
  · rw [core, Sequencer.queue_onEng, released.queues n fun e => ?_, h.queues n ho]
    obtain ⟨i, mem, rfl⟩ := List.mem_map.1 e
    exact hi i mem rfl
  · rw [core, released.scp]
    exact h.rest a fun i x hx => by rw [Nat.zero_add]; exact ha i x hx
  · rw [State.core_onEng_other _ _ _ _ _ hk, released.cores k hk, h.cores k hk]

/-- A completion leaves V's registers, Q's bins, a core's flags and the free values taken as they are. -/
structure KeepsRegs (u t : State) (lc : Nat) : Prop where
  vregs : (t.core lc).scp.vregs = (u.core lc).scp.vregs
  bins : (t.core lc).scp.bins = (u.core lc).scp.bins
  integ : (t.core lc).integ = (u.core lc).integ
  free : t.free = u.free

/-- A command whose outputs lie clear, in queues of their own, and whose stream goes on completes. -/
theorem State.complete_completes {s u : State} {c : Ctx} {outs : List Tile} (b : Beside s u c.lc)
    (distinct : (c.ins.map (·.qn) ++ c.outs).Nodup) (len : outs.length = c.outs.length) (go : goesOn s c.lc c.e = true)
    (clear : outs ≠ [] → Machine.outsClear s c outs) :
    Completes s (u.complete c outs false) c outs ∧ KeepsRegs u (u.complete c outs false) c.lc := by
  have apart : ClearFrom u c 0 outs := by
    by_cases h : outs = []
    · rw [h]
      exact ClearFrom.nil u c 0
    · exact ClearFrom.of_outsClear (b.outsClear (clear h))
  obtain ⟨t, push, pushed⟩ := State.pushTiles_eq b.canon b.sound (List.nodup_append.1 distinct).2.1 0 outs (by omega) apart
  have released := Releases.consume c pushed.canon
  have done : u.complete c outs false = (t.consume c).onEng c.lc c.e (Engine.retire c.f.loops) := by
    rw [State.complete, push]
    exact State.retireFront_goesOn c c.f.loops false released.canon
      (by rw [released.goesOn, pushed.goesOn, b.goesOn, go])
  obtain ⟨d, p, pend, bytes, scp⟩ := pushed.scp
  have core := State.core_onEng_same c.lc c.e (Engine.retire c.f.loops) released.canon
  have free : (u.complete c outs false).free = u.free :=
    State.complete_within (W := [.cores, .mem, .ports, .fab, .jobs]) c outs false Within.rfl (by decide) (by decide)
      (by decide) (by decide) (by decide) .free (by decide)
  rw [done] at free ⊢
  refine ⟨b.completes (pushed.completes distinct len), ?_, ?_, ?_, free⟩
  · rw [core, released.scp, scp]; rfl
  · rw [core, released.scp, scp]; rfl
  · rw [core, released.integ, pushed.integ]

end Sys2Proof.Machine
end

section
/-! SUPPORT. What a command that may begin has passed (step 2 of R96): its operands, its queues' modes and its row's own
checks. -/

namespace Sys2Proof.Machine

/-- A check that finds nothing amiss, one condition after another. -/
theorem none_of_ite_some {α : Type} {p : Prop} [Decidable p] {a : α} {o : Option α} (h : (if p then some a else o) = none) :
    ¬ p ∧ o = none := by
  by_cases hp : p
  · rw [if_pos hp] at h
    cases h
  · exact ⟨hp, (if_neg hp).symm.trans h⟩

theorem checks_of_checkErr {r : Row} {s : State} {c : Ctx} (h : checkErr r s c = none) :
    r.operandErr c = none ∧ (∀ o ∈ c.outs, ((s.core c.lc).seq.queue o).mode = r.outMode) ∧ r.check s c = none := by
  unfold checkErr at h
  dsimp only at h
  split at h
  · cases h
  split at h
  · cases h
  split at h
  · cases h
  next operands =>
    split at h
    · cases h
    split at h
    · cases h
    next modes =>
      split at h
      · cases h
      split at h
      · cases h
      · refine ⟨operands, fun o ho => ?_, h⟩
        simp only [List.any_eq_true, decide_eq_true_eq, not_exists, not_and, Decidable.not_not] at modes
        exact modes o ho

section
variable {r : Row} {op lc : Nat} {s : State} {e : Eng} {c : Ctx} (h : Begins r op s lc e c)
include h

theorem Begins.operandErr : r.operandErr c = none := (checks_of_checkErr h.checks).1

theorem Begins.outMode : ∀ o ∈ c.outs, ((s.core c.lc).seq.queue o).mode = r.outMode := (checks_of_checkErr h.checks).2.1

theorem Begins.check : r.check s c = none := (checks_of_checkErr h.checks).2.2

end

end Sys2Proof.Machine
end

section
/-! SUPPORT. V's registers (R71): what stands in a range of them after elements are written from a register on. -/

namespace Sys2Proof.Machine

theorem Mem.readN_congr {m m' : Memory} {a n : Nat} (h : ∀ i < n, Memory.read m (a + i) = Memory.read m' (a + i)) :
    Mem.readN m a n = Mem.readN m' a n := by
  induction n generalizing a with
  | zero => rfl
  | succ n ih =>
    have tail : Mem.readN m (a + 1) n = Mem.readN m' (a + 1) n := ih fun i hi => by
      have := h (i + 1) (by omega)
      rwa [← Nat.add_assoc, Nat.add_right_comm] at this
    rw [Mem.readN, Mem.readN, tail, ← Nat.add_zero a, h 0 (by omega)]

theorem Mem.writeN_append (m : Memory) (a : Nat) (l l' : List Byte) :
    Mem.writeN m a (l ++ l') = Mem.writeN (Mem.writeN m a l) (a + l.length) l' := by
  induction l generalizing m a with
  | nil => rfl
  | cons b r ih => rw [List.cons_append, Mem.writeN, ih, Mem.writeN, List.length_cons, Nat.add_assoc, Nat.add_comm 1]

/-- Bytes of a list of elements of `z` bytes. -/
theorem length_flatMap_toLE (z : Nat) (codes : List Nat) : (codes.flatMap (toLE z)).length = codes.length * z := by
  simp [List.length_flatMap]

/-- An element of a list written as elements of `z` bytes. -/
theorem Mem.readN_writeN_elem {m : Memory} (hm : m.wf = true) (a z : Nat) (codes : List Nat) (i : Nat)
    (hi : i < codes.length) :
    Mem.readN (Mem.writeN m a (codes.flatMap (toLE z))) (a + i * z) z = toLE z (codes.getD i 0) := by
  have cut : codes.flatMap (toLE z) =
      (codes.take i).flatMap (toLE z) ++ (toLE z (codes.getD i 0) ++ (codes.drop (i + 1)).flatMap (toLE z)) := by
    rw [List.getD_eq_getElem _ _ hi, ← List.flatMap_cons, ← List.flatMap_append, ← List.drop_eq_getElem_cons hi,
      List.take_append_drop]
  have start : a + ((codes.take i).flatMap (toLE z)).length = a + i * z := by
    rw [length_flatMap_toLE, List.length_take, Nat.min_eq_left (Nat.le_of_lt hi)]
  rw [cut, Mem.writeN_append, start, Mem.writeN_append, length_toLE]
  calc _ = Mem.readN (Mem.writeN (Mem.writeN m a ((codes.take i).flatMap (toLE z))) (a + i * z) (toLE z (codes.getD i 0)))
          (a + i * z) z := Mem.readN_congr fun j hj => Mem.read_writeN_other _ _ _ _ (.inl (by omega))
    _ = _ := by
      have := Mem.readN_writeN_same (Mem.writeN m a ((codes.take i).flatMap (toLE z))) (a + i * z) (toLE z (codes.getD i 0))
        (Mem.writeN_wf _ _ _ hm)
      rwa [length_toLE] at this

theorem regPut_wf {m : Memory} (dt reg : Nat) (codes : List Nat) (h : m.wf = true) : (regPut m dt reg codes).wf = true :=
  Mem.writeN_wf _ _ _ h

/-- An element of a register range that was written. -/
theorem readN_regPut {m : Memory} (hm : m.wf = true) (dt reg : Nat) (codes : List Nat) (i : Nat) (hi : i < codes.length) :
    Mem.readN (regPut m dt reg codes) (reg * 4096 + i * regSize dt) (regSize dt) = toLE (regSize dt) (codes.getD i 0) :=
  Mem.readN_writeN_elem hm _ _ codes i hi

/-- A register byte outside the range that was written. -/
theorem read_regPut_other (m : Memory) (dt reg : Nat) (codes : List Nat) (a : Nat)
    (h : a < reg * 4096 ∨ reg * 4096 + codes.length * regSize dt ≤ a) :
    Memory.read (regPut m dt reg codes) a = Memory.read m a :=
  Mem.read_writeN_other _ _ _ _ (by rwa [length_flatMap_toLE])

end Sys2Proof.Machine
end

section
/-! SUPPORT. Completion of V's commands (R71, R113, R432): results as tiles in the output slots, or in registers. -/

namespace Sys2Proof.Machine

/-- A vx command has the outputs its row says where DEST names tiles, and none where it names registers. -/
theorem Begins.vx_outs {k : VxKind} {op lc : Nat} {s : State} {e : Eng} {c : Ctx} (h : Begins (vxRow k) op s lc e c) :
    c.outs.length = if selKind (vxDest c.w) = 1 then k.outs else 0 :=
  List.mem_singleton.1 h.slots.2.1

/-- A result of a vx command as a tile. -/
def vxTile (fmt rows cols : Nat) (scales codes : List (List Nat)) : Tile :=
  { fmt := fmt, rows := rows, cols := cols, codes := codes, scales := scales }

/-- A finished vx command without poison has completed with its results. -/
theorem vxFinish_done {s u : State} {c : Ctx} (b : Beside s u c.lc)
    (regs : (u.core c.lc).scp.vregs = (s.core c.lc).scp.vregs) (distinct : (c.ins.map (·.qn) ++ c.outs).Nodup)
    (go : goesOn s c.lc c.e = true) (fmt rows cols : Nat) (results : List (List (List Nat))) (scales : List (List Nat))
    (flags : VFlags) (len : c.outs.length = if selKind (vxDest c.w) = 1 then results.length else 0)
    (clear : vxClear s c (results.map (vxTile fmt rows cols scales))) :
    vxDone s (vxFinish c u false fmt rows cols results scales flags) c (results.map (vxTile fmt rows cols scales)) := by
  have flagged := b.vecFlags flags
  have flaggedRegs : ((u.vecFlags c.lc flags).core c.lc).scp.vregs = (s.core c.lc).scp.vregs := by
    rw [State.vecFlags, State.core_onInteg_same _ _ b.canon]
    exact regs
  unfold vxDone
  split
  case isTrue tile =>
    rw [if_pos tile] at len
    have finish : vxFinish c u false fmt rows cols results scales flags =
        (u.vecFlags c.lc flags).complete c (results.map (vxTile fmt rows cols scales)) false := if_pos tile
    obtain ⟨completes, kept⟩ := State.complete_completes flagged distinct (by rw [List.length_map, len]) go
      fun _ => clear tile
    rw [finish]
    exact ⟨completes, kept.vregs.trans flaggedRegs⟩
  case isFalse reg =>
    rw [if_neg reg] at len
    let codes := (results.getD 0 []).flatten
    let v := (u.vecFlags c.lc flags).onScp c.lc (fun m =>
      { m with vregs := regPut m.vregs (vxDt c.w) (selReg (vxDest c.w)) codes })
    have finish : vxFinish c u false fmt rows cols results scales flags = v.complete c [] false := if_neg reg
    have first : ((results.map (vxTile fmt rows cols scales)).getD 0 {}).codes.flatten = codes := by
      cases results <;> rfl
    have put : (v.core c.lc).scp.vregs = regPut (s.core c.lc).scp.vregs (vxDt c.w) (selReg (vxDest c.w)) codes := by
      rw [State.core_onScp_same _ _ flagged.canon, flaggedRegs]
    obtain ⟨completes, kept⟩ := State.complete_completes (flagged.vregs _ fun _ => regPut_wf _ _ _) distinct
      (outs := []) (Eq.symm len) go fun h => absurd rfl h
    rw [finish, first]
    refine ⟨completes, fun i hi => ?_, fun a ha => ?_⟩
    · rw [kept.vregs, put, ← regs]
      exact readN_regPut (State.vregs_wf c.lc b.canon) _ _ _ _ hi
    · rw [kept.vregs, put]
      exact read_regPut_other _ _ _ _ _ ha

end Sys2Proof.Machine
end

section
/-! SUPPORT. V's elementwise commands (R72, R73): every element by its operation. -/

namespace Sys2Proof.Machine

/-- What a vx command that has begun and read its inputs comes to, once its effect is known to finish with these results. -/
theorem Begins.vx_done {k : VxKind} {op lc : Nat} {s : State} {c : Ctx} (h : Begins (vxRow k) op s lc .v c) (hs : Canon s)
    (hm : (s.core lc).scp.sound) (go : goesOn s lc .v = true) {fmt rows cols : Nat} {results : List (List (List Nat))}
    {scales : List (List Nat)} (flags : VFlags) (outs : results.length = k.outs)
    (clear : vxClear s c (results.map (vxTile fmt rows cols scales))) :
    vxDone s (vxFinish c (readInputs s c).2 false fmt rows cols results scales flags) c
      (results.map (vxTile fmt rows cols scales)) := by
  obtain rfl := h.lc_eq
  exact vxFinish_done (Beside.readInputs c hs hm) (by rw [readInputs_core_of_sound c hs hm]) h.slots.2.2
    (h.eng_eq.symm ▸ go) fmt rows cols results scales flags (outs ▸ h.vx_outs) clear

/-- An element's code of an elementwise command, of operands among these tiles and registers. -/
def elemCode (m : Memory) (tiles : List Tile) (k : VxKind) (op : Cmd → List Val → Val × Bool) (c : Ctx) (i j : Nat) : Nat :=
  let args := (List.range k.nOps).map (fun x => vxArg m c tiles x i j)
  (vxEmit (vxDt c.w) (vxDestFmt c) (vxSat c.w) args (op c.w args).1 (op c.w args).2).1

/-- An elementwise command of one result completes with every element by its operation. -/
theorem vxElementwise_done {k : VxKind} {code lc : Nat} {s : State} {c : Ctx} (op : Cmd → List Val → Val × Bool)
    (plain : k.red = false ∧ k.cvt = false ∧ k.outs = 1) (h : Begins (vxRow k) code s lc .v c) (hs : Canon s)
    (hm : (s.core lc).scp.sound) (go : goesOn s lc .v = true) (clean : (readInputs s c).1.any (·.poison) = false) :
    let y := vxTile (vxDestFmt c) (vxShape c).1 (vxShape c).2 []
      (grid (vxShape c).1 (vxShape c).2 (elemCode (s.core lc).scp.vregs (readInputs s c).1 k op c))
    vxClear s c [y] → vxDone s (vxElementwise k op c s) c [y] := by
  intro y clear
  obtain ⟨red, cvt, outs⟩ := plain
  obtain rfl := h.lc_eq
  have shape : vxOutShape k c = vxShape c := by simp [vxOutShape, red, cvt]
  have codes : (vxMap c (s.core c.lc).scp.vregs (readInputs s c).1 k.nOps (vxDestFmt c) (op c.w)).1 =
      grid (vxShape c).1 (vxShape c).2 (elemCode (s.core c.lc).scp.vregs (readInputs s c).1 k op c) := by
    simp only [vxMap, List.map_map, grid, Function.comp_def]
    rfl
  have effect : vxElementwise k op c s = vxFinish c (readInputs s c).2 false (vxDestFmt c) (vxShape c).1 (vxShape c).2
      [grid (vxShape c).1 (vxShape c).2 (elemCode (s.core c.lc).scp.vregs (readInputs s c).1 k op c)] []
      (vxMap c (s.core c.lc).scp.vregs (readInputs s c).1 k.nOps (vxDestFmt c) (op c.w)).2 := by
    simp only [vxElementwise, clean, readInputs_core_of_sound c hs hm, shape, cvt, codes, Bool.false_and, Bool.false_eq_true,
      if_false]
  rw [effect]
  exact h.vx_done hs hm go (results := [_]) _ (by rw [outs]; rfl) clear

end Sys2Proof.Machine
end

section
open Sys2Proof Sys2Proof.Machine

/-- Settles O14: each of the commands is `vxElementwise` of a kind of one result, with the operation the statement names. -/
theorem vectorElementCommandsComplete : Obligations.VectorElementCommandsComplete := by
  intro lc s c hs hm go x hx h tiles args y clean apart
  have effect : exec x.1 s = runCmd (vxRow x.2.2.1) x.2.1 (vxElementwise x.2.2.1 x.2.2.2) lc .v s
      ∧ x.2.2.1.red = false ∧ x.2.2.1.cvt = false ∧ x.2.2.1.outs = 1 := by
    clear apart clean y args tiles h
    simp only [List.mem_cons, List.not_mem_nil, or_false] at hx
    rcases hx with rfl | rfl | rfl | rfl | rfl | rfl | rfl | rfl | rfl | rfl | rfl | rfl | rfl <;>
      exact ⟨rfl, rfl, rfl, rfl⟩
  obtain ⟨effect, plain⟩ := effect
  refine ⟨_, effect.trans (runCmd_go _ h.go), ?_⟩
  exact vxElementwise_done x.2.2.2 plain h hs hm go clean apart
end

section
/-! SUPPORT. Conversion, sine and cosine (R72, R73). -/

namespace Sys2Proof.Machine

/-- Rows padded to a length are a grid of codes. -/
theorem grid_pad (rows cols n : Nat) (f : Nat → Nat → Nat) (h : cols ≤ n) :
    (List.range rows).map (fun i => (List.range cols).map (f i) ++ List.replicate (n - cols) 0) =
      grid rows n (fun i k => if k < cols then f i k else 0) := by
  refine List.map_congr_left fun i _ => ?_
  refine List.ext_getElem (by simp; omega) fun k _ hk => ?_
  by_cases lt : k < cols
  · simp [lt]
  · simp [List.getElem_append, lt]

theorem le_mul_ceilDiv (n : Nat) : n ≤ 32 * ceilDiv n 32 := by
  unfold ceilDiv
  omega

/-- The columns of vx.cvt's result. -/
def cvtCols (c : Ctx) : Nat := if vxPad c.w = true then 32 * ceilDiv (vxShape c).2 32 else (vxShape c).2

theorem vxOutShape_cvt (c : Ctx) : vxOutShape vxKindCvt c = ((vxShape c).1, cvtCols c) := by
  unfold vxOutShape cvtCols vxKindCvt
  cases vxPad c.w <;> rfl

theorem le_cvtCols (c : Ctx) : (vxShape c).2 ≤ cvtCols c := by
  unfold cvtCols
  split
  · exact le_mul_ceilDiv _
  · exact Nat.le_refl _

/-- The exact value vx.cvt converts. -/
def cvtSrc (m : Memory) (tiles : List Tile) (c : Ctx) (i k : Nat) : Fp := match tiles with
  | t :: _ => decodeFmt t.fmt (t.code i k)
  | [] => (vxArg m c [] 0 i k).fp

/-- The codes of vx.cvt's result. -/
def cvtCodes (m : Memory) (tiles : List Tile) (c : Ctx) : List (List Nat) :=
  grid (vxShape c).1 (cvtCols c) (fun i k =>
    if k < (vxShape c).2 then (encodeFmt (vxDestFmt c) .rne (vxSat c.w) (cvtSrc m tiles c i k)).code else 0)

/-- vx.cvt without poison finishes with each element converted once. -/
theorem vxCvtEff_eq {s : State} {c : Ctx} (hs : Canon s) (hm : (s.core c.lc).scp.sound)
    (clean : (readInputs s c).1.any (·.poison) = false) : ∃ flags, vxCvtEff c s =
      vxFinish c (readInputs s c).2 false (vxDestFmt c) (vxShape c).1 (cvtCols c)
        [cvtCodes (s.core c.lc).scp.vregs (readInputs s c).1 c] [] flags := by
  rw [cvtCodes, ← grid_pad _ _ _ _ (le_cvtCols c)]
  simp only [vxCvtEff, clean, readInputs_core_of_sound c hs hm, vxOutShape_cvt, List.map_map, Function.comp_def]
  exact ⟨_, rfl⟩

/-- One half of vx.sincos. -/
def sincosCode (m : Memory) (tiles : List Tile) (c : Ctx) (cos : Bool) (i k : Nat) : Nat :=
  let r := trOp (fun _ => sincosRef cos) c.w [vxArg m c tiles 0 i k]
  (vxEmit (vxDt c.w) (vxDestFmt c) (vxSat c.w) [vxArg m c tiles 0 i k] r.1 r.2).1

theorem vxMap_sincos (m : Memory) (tiles : List Tile) (c : Ctx) (cos : Bool) :
    (vxMap c m tiles 1 (vxDestFmt c) (trOp (fun _ => sincosRef cos) c.w)).1 =
      grid (vxShape c).1 (vxShape c).2 (sincosCode m tiles c cos) := by
  simp only [vxMap, List.map_map, grid, Function.comp_def]
  rfl

/-- vx.sincos without poison finishes with the sine's codes and the cosine's. -/
theorem vxSincosEff_eq {s : State} {c : Ctx} (hs : Canon s) (hm : (s.core c.lc).scp.sound)
    (clean : (readInputs s c).1.any (·.poison) = false) : ∃ flags, vxSincosEff c s =
      vxFinish c (readInputs s c).2 false (vxDestFmt c) (vxShape c).1 (vxShape c).2
        ([false, true].map (fun cos => grid (vxShape c).1 (vxShape c).2
          (sincosCode (s.core c.lc).scp.vregs (readInputs s c).1 c cos))) [] flags := by
  rw [List.map_cons, List.map_cons, List.map_nil, ← vxMap_sincos, ← vxMap_sincos]
  simp only [vxSincosEff, clean, readInputs_core_of_sound c hs hm]
  exact ⟨_, rfl⟩

end Sys2Proof.Machine
end

section
/-! SUPPORT. The online softmax (R90, R114): V's staging takes free values, a step puts out p and writes m, l and α, the finish
puts out O by its lines' l. -/

namespace Sys2Proof.Machine

/-! ### Staging -/

/-- Registers of which `n` times 8 bytes from a byte on hold the free values from `k` on. -/
def freeVregs (k base n : Nat) (v : Memory) : Memory :=
  (List.range n).foldl (fun v i => Mem.writeN v (base + 8 * i) (toLE 8 (Config.freeValue (k + i)).toNat)) v

theorem freeVregs_wf {v : Memory} (k base n : Nat) (h : v.wf = true) : (freeVregs k base n v).wf = true :=
  foldl_keeps (P := fun u => Memory.wf u = true) _ _ h fun _ _ hu => Mem.writeN_wf _ _ _ hu

theorem read_freeVregs_below (k base n : Nat) (v : Memory) {a : Nat} (h : a < base) :
    Memory.read (freeVregs k base n v) a = Memory.read v a :=
  foldl_keeps (P := fun u => Memory.read u a = Memory.read v a) _ _ rfl fun u i hu =>
    (Mem.read_writeN_other _ _ _ _ (.inl (by omega))).trans hu

/-- The state with `n` more free values taken. -/
def State.tookFree (u : State) (n : Nat) : State := { u with free := u.free + n }

theorem State.canon_tookFree {u : State} (n : Nat) (h : Canon u) : Canon (u.tookFree n) := ⟨h.1, h.2⟩

theorem State.freeRegs_eq (u : State) (lc base n : Nat) : u.freeRegs lc base n =
    (u.tookFree n).onScp lc (fun m => { m with vregs := freeVregs u.free base n m.vregs }) := rfl

theorem Beside.freeRegs {s u : State} {lc : Nat} (h : Beside s u lc) (base n : Nat) : Beside s (u.freeRegs lc base n) lc := by
  have took : Beside s (u.tookFree n) lc :=
    ⟨State.canon_tookFree n h.canon, h.seq, h.bytes, h.extents, h.sound, h.cores⟩
  exact took.vregs _ fun _ => freeVregs_wf _ _ _

theorem State.vregs_freeRegs {u : State} (lc base n : Nat) (h : Canon u) : ((u.freeRegs lc base n).core lc).scp.vregs =
    freeVregs u.free base n (u.core lc).scp.vregs := by
  rw [State.freeRegs_eq, State.core_onScp_same _ _ (State.canon_tookFree n h)]
  rfl

theorem State.free_freeRegs (u : State) (lc base n : Nat) : (u.freeRegs lc base n).free = u.free + n := rfl

theorem Beside.smxStage {s u : State} {lc : Nat} (h : Beside s u lc) : Beside s (smxStage u lc) lc := h.freeRegs _ _

theorem free_smxStage (u : State) (lc : Nat) : (smxStage u lc).free = u.free + 16384 := State.free_freeRegs u lc _ _

/-- Staging leaves v0–v31 as they are. -/
theorem read_vregs_smxStage {u : State} (lc : Nat) (h : Canon u) {a : Nat} (low : a < 131072) :
    Memory.read ((smxStage u lc).core lc).scp.vregs a = Memory.read (u.core lc).scp.vregs a := by
  rw [Machine.smxStage, State.vregs_freeRegs lc _ _ h]
  exact read_freeVregs_below _ _ _ _ low

theorem State.free_onInteg (u : State) (lc : Nat) (f : Integrity → Integrity) : (u.onInteg lc f).free = u.free := rfl

theorem State.free_onScp (u : State) (lc : Nat) (f : Scratch → Scratch) : (u.onScp lc f).free = u.free := rfl

theorem free_readInputs (s : State) (c : Ctx) : (readInputs s c).2.free = s.free :=
  readInputs_within (W := [.cores]) c Within.rfl (by decide) .free (by decide)

/-! ### Lines -/

section
variable (w : Cmd) (m : Memory) (t : Tile) (i : Nat)

/-- The maximum and the sum a line's step starts from. -/
def smxM0 : Word := if smxFirst w = true then 0xFF800000 else regWord m (vxDt w) (smxM w) i
def smxL0 : Word := if smxFirst w = true then 0 else regWord m (vxDt w) (smxL w) i

/-- A line's elements with their mask. -/
def smxElems : List (Word × Bool) := (smxWords w t).getD i []

/-- A line's step: the new m, l and α, and p. -/
def smxStep : Word × Word × Word × List Word := smxLine w (smxFirst w) (smxM0 w m i) (smxL0 w m i) (smxElems w t i)

/-- The values a step's flags look at. -/
def smxArgs : List Word :=
  [BitVec.ofNat 32 (fld w 128 32), smxM0 w m i] ++ ((smxElems w t i).filter (·.2)).map (·.1)

/-- An element's code in the output tile. -/
def smxCode (x : Word) : Nat :=
  if smxFinish w = true then
    if regWord m (vxDt w) (smxL w) i = 0 then 0
    else (vxEmit 0 (vxOut w) (vxSat w) [.f (fp x), .f (fp (regWord m (vxDt w) (smxL w) i))]
      (.f (fp (canonNan (fmul x (recipRef (regWord m (vxDt w) (smxL w) i))))))).1
  else (vxEmit 0 (vxOut w) (vxSat w) ((smxArgs w m t i).map (fun a => .f (fp a))) (.f (fp x))).1

end

/-- The output tile of vx.smx over `n` lines. -/
def smxTile (w : Cmd) (m : Memory) (t : Tile) (n : Nat) : Tile :=
  { fmt := vxOut w, rows := t.rows, cols := t.cols
    codes := smxBack w t ((List.range n).map (fun i =>
      (if smxFinish w = true then (smxElems w t i).map (·.1) else (smxStep w m t i).2.2.2).map (smxCode w m t i))) }

/-- What a step over `n` lines writes to one of its registers. -/
def smxReg (w : Cmd) (m : Memory) (t : Tile) (n : Nat) (f : Word × Word × Word × List Word → Word)
    (more : Nat → List Word) : List Nat :=
  (List.range n).map (fun i =>
    (vxEmit 0 (vxDt w) false ((smxArgs w m t i ++ more i).map (fun a => .f (fp a))) (.f (fp (f (smxStep w m t i))))).1)

@[simp] theorem length_smxReg (w : Cmd) (m : Memory) (t : Tile) (n : Nat) (f : Word × Word × Word × List Word → Word)
    (more : Nat → List Word) : (smxReg w m t n f more).length = n := by simp [smxReg]

/-- The values the flags look at, one list after the other. -/
theorem smxReg_eq (w : Cmd) (m : Memory) (t : Tile) (n : Nat) (f : Word × Word × Word × List Word → Word)
    (more : Nat → List Word) : smxReg w m t n f more = (List.range n).map (fun i => (vxEmit 0 (vxDt w) false
      ((smxArgs w m t i).map (fun a => .f (fp a)) ++ (more i).map (fun a => .f (fp a))) (.f (fp (f (smxStep w m t i))))).1) := by
  simp only [smxReg, List.map_append]

def smxMs (w : Cmd) (m : Memory) (t : Tile) (n : Nat) : List Nat := smxReg w m t n (·.1) (fun _ => [])
def smxLs (w : Cmd) (m : Memory) (t : Tile) (n : Nat) : List Nat := smxReg w m t n (·.2.1) (fun i => [smxL0 w m i])
def smxAs (w : Cmd) (m : Memory) (t : Tile) (n : Nat) : List Nat := smxReg w m t n (·.2.2.1) (fun _ => [])

/-- The registers with a step's m, l and α written. -/
def smxPut (w : Cmd) (m : Memory) (t : Tile) (n : Nat) (v : Memory) : Memory :=
  regPut (regPut (regPut v (vxDt w) (smxM w) (smxMs w m t n)) (vxDt w) (smxL w) (smxLs w m t n)) (vxDt w) (smxAlpha w)
    (smxAs w m t n)

/-- The finish without poison. -/
theorem smxEff_finish {s : State} {c : Ctx} (hs : Canon s) (hm : (s.core c.lc).scp.sound)
    (clean : ((readInputs s c).1.getD 0 {}).poison = false) (fin : smxFinish c.w = true) : ∃ flags, smxEff c s =
      (smxStage ((readInputs s c).2.vecFlags c.lc flags) c.lc).complete c
        [smxTile c.w (s.core c.lc).scp.vregs ((readInputs s c).1.getD 0 {}) (smxLines c.w c)] false := by
  have line (m : Memory) (t : Tile) (i : Nat) : ((smxElems c.w t i).map (·.1)).map (smxCode c.w m t i) =
      ((smxElems c.w t i).map (fun x => if regWord m (vxDt c.w) (smxL c.w) i = 0 then ((0 : Nat), ({} : VFlags))
        else vxEmit 0 (vxOut c.w) (vxSat c.w) ([x.1, regWord m (vxDt c.w) (smxL c.w) i].map (fun a => .f (fp a)))
          (.f (fp (canonNan (fmul x.1 (recipRef (regWord m (vxDt c.w) (smxL c.w) i)))))))).map (·.1) := by
    rw [List.map_map, List.map_map]
    refine List.map_congr_left fun x _ => ?_
    simp only [Function.comp_apply, smxCode, fin, if_true, apply_ite Prod.fst]
    rfl
  rw [smxTile]
  simp only [line, fin, if_true]
  simp only [smxEff, clean, fin, readInputs_core_of_sound c hs hm, Bool.false_eq_true, if_false, if_true, List.map_map,
    Function.comp_def]
  exact ⟨_, rfl⟩

/-- Results looked up in their own table. -/
theorem map_range_through {α β : Type} (n : Nat) (f : Nat → α) (d : α) (g : Nat → α → β) :
    (List.range n).map (fun i => g i (((List.range n).map f).getD i d)) = (List.range n).map (fun i => g i (f i)) :=
  List.map_congr_left fun i hi => by rw [List.getD_eq_getElem _ _ (by simpa using hi), List.getElem_map, List.getElem_range]

/-- A step without poison. -/
theorem smxEff_step {s : State} {c : Ctx} (hs : Canon s) (hm : (s.core c.lc).scp.sound)
    (clean : ((readInputs s c).1.getD 0 {}).poison = false) (step : smxFinish c.w = false) :
    let m := (s.core c.lc).scp.vregs
    let t := (readInputs s c).1.getD 0 {}
    ∃ flags, smxEff c s =
      (((smxStage (readInputs s c).2 c.lc).onScp c.lc (fun u =>
        { u with vregs := smxPut c.w m t (smxLines c.w c) u.vregs })).vecFlags c.lc flags).complete c
          [smxTile c.w m t (smxLines c.w c)] false := by
  intro m t
  let steps := (List.range (smxLines c.w c)).map (smxStep c.w m t)
  have put (f : Word × Word × Word × List Word → Word) (more : Nat → List Word) :
      smxReg c.w m t (smxLines c.w c) f more = ((List.range (smxLines c.w c)).map (fun i =>
        vxEmit 0 (vxDt c.w) false ((smxArgs c.w m t i ++ more i).map (fun a => .f (fp a)))
          (.f (fp (f (steps.getD i (0, 0, 0, []))))))).map (·.1) := by
    rw [List.map_map]
    exact (map_range_through _ (smxStep c.w m t) _ fun i r =>
      (vxEmit 0 (vxDt c.w) false ((smxArgs c.w m t i ++ more i).map (fun a => .f (fp a))) (.f (fp (f r)))).1).symm
  have tile : (List.range (smxLines c.w c)).map (fun i => (smxStep c.w m t i).2.2.2.map (smxCode c.w m t i)) =
      ((List.range (smxLines c.w c)).map (fun i => (steps.getD i (0, 0, 0, [])).2.2.2.map (fun p =>
        vxEmit 0 (vxOut c.w) (vxSat c.w) ((smxArgs c.w m t i).map (fun a => .f (fp a))) (.f (fp p))))).map
          (fun l => l.map (·.1)) := by
    have code (i : Nat) : smxCode c.w m t i = fun x =>
        (vxEmit 0 (vxOut c.w) (vxSat c.w) ((smxArgs c.w m t i).map (fun a => .f (fp a))) (.f (fp x))).1 :=
      funext fun _ => if_neg (Bool.eq_false_iff.1 step)
    simp only [List.map_map, Function.comp_def, code]
    exact (map_range_through _ (smxStep c.w m t) _ fun i r => r.2.2.2.map fun p =>
      (vxEmit 0 (vxOut c.w) (vxSat c.w) ((smxArgs c.w m t i).map (fun a => .f (fp a))) (.f (fp p))).1).symm
  unfold smxPut smxMs smxLs smxAs smxTile
  simp only [step, Bool.false_eq_true, if_false, tile, put]
  simp only [smxEff, clean, step, readInputs_core_of_sound c hs hm, Bool.false_eq_true, if_false]
  exact ⟨_, rfl⟩

/-- A score tile that passes vx.smx's checks has at most 512 lines. -/
theorem Begins.smxLines_le {lc : Nat} {s : State} {e : Eng} {c : Ctx} (h : Begins smxRow 0x44 s lc e c) :
    smxLines c.w c ≤ 512 := by
  have check : smxCheck s c = none := h.check
  unfold smxCheck at check
  dsimp only at check
  obtain ⟨-, check⟩ := none_of_ite_some check
  obtain ⟨sizes, -⟩ := none_of_ite_some check
  simp only [Bool.or_eq_true, decide_eq_true_eq, not_or, Nat.not_lt] at sizes
  obtain ⟨⟨⟨⟨⟨⟨⟨⟨rows, cols⟩, -⟩, -⟩, -⟩, -⟩, -⟩, -⟩, -⟩ := sizes
  unfold smxLines
  split
  next ins =>
    rw [ins] at rows cols
    simp only [List.getD_cons_zero] at rows cols
    split <;> omega
  · exact Nat.zero_le _

theorem regSize_le (dt : Nat) : regSize dt ≤ 4 := by
  unfold regSize
  split <;> omega

/-- An element of a register is not touched by a write of at most 512 elements from another register. -/
theorem readN_regPut_apart (v : Memory) (dt : Nat) {reg reg' : Nat} (ne : reg ≠ reg') (codes : List Nat) (i : Nat)
    (hi : i < 512) (hn : codes.length ≤ 512) :
    Mem.readN (regPut v dt reg' codes) (reg * 4096 + i * regSize dt) (regSize dt) =
      Mem.readN v (reg * 4096 + i * regSize dt) (regSize dt) := by
  refine Mem.readN_congr fun j hj => read_regPut_other _ _ _ _ _ ?_
  have small := regSize_le dt
  have elem : i * regSize dt ≤ 511 * 4 := Nat.mul_le_mul (by omega) small
  have range : codes.length * regSize dt ≤ 512 * 4 := Nat.mul_le_mul hn small
  omega

/-- After a step α's register holds α, l's l unless it is α's, and m's m unless it is another's. -/
theorem smxPut_holds (w : Cmd) (m : Memory) (t : Tile) {n : Nat} (v : Memory) (hv : v.wf = true) (hn : n ≤ 512) (i : Nat)
    (hi : i < n) :
    let holds (reg : Nat) (codes : List Nat) : Prop :=
      Mem.readN (smxPut w m t n v) (reg * 4096 + i * regSize (vxDt w)) (regSize (vxDt w)) =
        toLE (regSize (vxDt w)) (codes.getD i 0)
    holds (smxAlpha w) (smxAs w m t n) ∧ (smxL w ≠ smxAlpha w → holds (smxL w) (smxLs w m t n))
      ∧ (smxM w ≠ smxL w → smxM w ≠ smxAlpha w → holds (smxM w) (smxMs w m t n)) := by
  have wf (dt reg : Nat) (codes : List Nat) {u : Memory} (hu : u.wf = true) := regPut_wf dt reg codes hu
  have as : (smxAs w m t n).length = n := length_smxReg ..
  have ls : (smxLs w m t n).length = n := length_smxReg ..
  have ms : (smxMs w m t n).length = n := length_smxReg ..
  refine ⟨readN_regPut (wf _ _ _ (wf _ _ _ hv)) _ _ _ _ (by omega), fun la => ?_, fun ml ma => ?_⟩
  · dsimp only
    rw [smxPut, readN_regPut_apart _ _ la _ _ (by omega) (by omega)]
    exact readN_regPut (wf _ _ _ hv) _ _ _ _ (by omega)
  · dsimp only
    rw [smxPut, readN_regPut_apart _ _ ma _ _ (by omega) (by omega), readN_regPut_apart _ _ ml _ _ (by omega) (by omega)]
    exact readN_regPut hv _ _ _ _ (by omega)

/-- What the finish without poison comes to. -/
theorem smxEff_finish_completes {s : State} {c : Ctx} (hs : Canon s) (hm : (s.core c.lc).scp.sound)
    (go : goesOn s c.lc c.e = true) (distinct : (c.ins.map (·.qn) ++ c.outs).Nodup) (len : c.outs.length = 1)
    (fin : smxFinish c.w = true) :
    let t0 := (readInputs s c).1.getD 0 {}
    let m := (s.core c.lc).scp.vregs
    let y := smxTile c.w m t0 (smxLines c.w c)
    let t := smxEff c s
    t0.poison = false → outsClear s c [y] → Completes s t c [y] ∧ t.free = s.free + 16384
      ∧ ∀ a < 131072, Memory.read (t.core c.lc).scp.vregs a = Memory.read m a := by
  intro t0 m y t clean clear
  have read := Beside.readInputs c hs hm
  obtain ⟨flags, effect⟩ := smxEff_finish hs hm clean fin
  have flagged := read.vecFlags flags
  have regs : (((readInputs s c).2.vecFlags c.lc flags).core c.lc).scp.vregs = m := by
    rw [State.vecFlags, State.core_onInteg_same _ _ read.canon, readInputs_core_of_sound c hs hm]
  have staged := flagged.smxStage
  have low (a : Nat) (ha : a < 131072) := read_vregs_smxStage c.lc flagged.canon ha
  have free : (smxStage ((readInputs s c).2.vecFlags c.lc flags) c.lc).free = s.free + 16384 := by
    rw [free_smxStage, State.vecFlags, State.free_onInteg, free_readInputs]
  generalize smxStage ((readInputs s c).2.vecFlags c.lc flags) c.lc = v at effect staged low free
  obtain ⟨completes, kept⟩ := State.complete_completes (outs := [y]) staged distinct len.symm go fun _ => clear
  rw [show t = _ from effect]
  exact ⟨completes, kept.free.trans free, fun a ha => by rw [kept.vregs, low a ha, regs]⟩

/-- What a step without poison comes to. -/
theorem smxEff_step_completes {s : State} {c : Ctx} (hs : Canon s) (hm : (s.core c.lc).scp.sound)
    (go : goesOn s c.lc c.e = true) (distinct : (c.ins.map (·.qn) ++ c.outs).Nodup) (len : c.outs.length = 1)
    (step : smxFinish c.w = false) :
    let t0 := (readInputs s c).1.getD 0 {}
    let m := (s.core c.lc).scp.vregs
    let y := smxTile c.w m t0 (smxLines c.w c)
    let t := smxEff c s
    t0.poison = false → outsClear s c [y] → Completes s t c [y] ∧ t.free = s.free + 16384
      ∧ ∃ v : Memory, v.wf = true ∧ (t.core c.lc).scp.vregs = smxPut c.w m t0 (smxLines c.w c) v := by
  intro t0 m y t clean clear
  obtain ⟨flags, effect⟩ := smxEff_step hs hm clean step
  have staged := (Beside.readInputs c hs hm).smxStage
  have free : (smxStage (readInputs s c).2 c.lc).free = s.free + 16384 := by rw [free_smxStage, free_readInputs]
  generalize smxStage (readInputs s c).2 c.lc = v at effect staged free
  have put := staged.vregs (smxPut c.w m t0 (smxLines c.w c)) fun _ h => regPut_wf _ _ _ (regPut_wf _ _ _ (regPut_wf _ _ _ h))
  have flagged := put.vecFlags flags
  obtain ⟨completes, kept⟩ := State.complete_completes (outs := [y]) flagged distinct len.symm go fun _ => clear
  rw [show t = _ from effect]
  refine ⟨completes, by rw [kept.free, State.vecFlags, State.free_onInteg, State.free_onScp, free],
    (v.core c.lc).scp.vregs, State.vregs_wf c.lc staged.canon, ?_⟩
  refine kept.vregs.trans ?_
  rw [State.vecFlags, State.core_onInteg_same _ _ put.canon, State.core_onScp_same _ _ staged.canon]

end Sys2Proof.Machine
end

section
/-! SUPPORT. vx.cvt and vx.sincos as commands. -/

namespace Sys2Proof.Machine

/-- vx.cvt and vx.sincos complete where they may begin and no operand is poisoned. -/
theorem conversionsComplete (lc : Fin 64) (s : State) (c : Ctx) (hs : Canon s) (hm : (s.core lc).scp.sound)
    (go : goesOn s lc .v = true) (clean : (readInputs s c).1.any (·.poison) = false) :
    (Begins (vxRow vxKindCvt) 0x36 s lc .v c →
      let y := vxTile (vxDestFmt c) (vxShape c).1 (cvtCols c) [] (cvtCodes (s.core lc).scp.vregs (readInputs s c).1 c)
      vxClear s c [y] → ∃ t, exec (.vxCvt lc) s = .next t ∧ vxDone s t c [y])
    ∧ (Begins (vxRow vxKindSc) 0x3F s lc .v c →
      let half (cos : Bool) := vxTile (vxDestFmt c) (vxShape c).1 (vxShape c).2 []
        (grid (vxShape c).1 (vxShape c).2 (sincosCode (s.core lc).scp.vregs (readInputs s c).1 c cos))
      vxClear s c [half false, half true] → ∃ t, exec (.vxSincos lc) s = .next t ∧ vxDone s t c [half false, half true]) := by
  constructor
  · intro h y clear
    have lc_eq := h.lc_eq
    obtain ⟨flags, effect⟩ := vxCvtEff_eq hs (lc_eq ▸ hm) clean
    refine ⟨vxCvtEff c s, runCmd_go vxCvtEff h.go, ?_⟩
    rw [effect, lc_eq]
    exact h.vx_done hs hm go (results := [_]) flags rfl clear
  · intro h half clear
    have lc_eq := h.lc_eq
    obtain ⟨flags, effect⟩ := vxSincosEff_eq hs (lc_eq ▸ hm) clean
    refine ⟨vxSincosEff c s, runCmd_go vxSincosEff h.go, ?_⟩
    rw [effect, lc_eq]
    exact h.vx_done hs hm go (results := [_, _]) flags rfl clear

end Sys2Proof.Machine
end

section
open Sys2Proof Sys2Proof.Machine

/-- Settles O15. -/
theorem vectorConversionsAndSoftmaxComplete : Obligations.VectorConversionsAndSoftmaxComplete := by
  constructor
  · intro lc s c hs hm go tiles m clean
    exact conversionsComplete lc s c hs hm go clean
  intro lc s c hs hm go h t0 w m dt n line m0 l0 r args code y clean clear
  have lc_eq := h.lc_eq
  have sound : (s.core c.lc).scp.sound := lc_eq ▸ hm
  have goes : goesOn s c.lc c.e = true := by rw [lc_eq, h.eng_eq]; exact go
  obtain ⟨-, outs, distinct⟩ := h.slots
  have len := List.mem_singleton.1 outs
  refine ⟨smxEff c s, runCmd_go smxEff h.go, ?_⟩
  cases f : smxFinish w with
  | true =>
    have done := smxEff_finish_completes hs sound goes distinct len f clean
    rw [lc_eq] at done
    obtain ⟨completes, free, low⟩ := done clear
    exact ⟨completes, free, fun _ => low, fun step => absurd step (by decide)⟩
  | false =>
    have done := smxEff_step_completes hs sound goes distinct len f clean
    rw [lc_eq] at done
    obtain ⟨completes, free, v, wf, vregs⟩ := done clear
    refine ⟨completes, free, fun fin => absurd fin (by decide), fun _ => ?_⟩
    have holds (i : Nat) (hi : i < n) := smxPut_holds w m t0 v wf h.smxLines_le i hi
    have held {reg : Nat} {codes codes' : List Nat} (len : codes.length = n) (same : codes = codes')
        (holds : ∀ i < n, Mem.readN (smxPut w m t0 n v) (reg * 4096 + i * regSize dt) (regSize dt) =
          toLE (regSize dt) (codes.getD i 0)) : regsHold (smxEff c s) c reg codes' := by
      subst same
      intro i hi
      rw [lc_eq]
      exact (congrArg (Mem.readN · _ _) vregs).trans (holds i (len ▸ hi))
    exact ⟨held (length_smxReg ..) (smxReg_eq w m t0 n (·.2.2.1) fun _ => []) fun i hi => (holds i hi).1,
      fun la => held (length_smxReg ..) (smxReg_eq w m t0 n (·.2.1) fun i => [l0 i]) fun i hi => (holds i hi).2.1 la,
      fun ml ma => held (length_smxReg ..) (smxReg_eq w m t0 n (·.1) fun _ => []) fun i hi => (holds i hi).2.2 ml ma⟩
end

section
/-! SUPPORT. V's row commands (R73, R75, R76): a line's sum or maximum, a row's prefix sums, a row's blocks. -/

namespace Sys2Proof.Machine

/-- The value a reduction's line starts from under ACC. -/
def redStart (m : Memory) (c : Ctx) (j : Nat) : Option Val :=
  if vxAcc c.w = true then some (valOf (vxDt c.w) (vxDt c.w) (regGet m (vxDt c.w) (selReg (vxDest c.w)) j)) else none

/-- The code a reduction yields for a line. -/
def redCode (f : Nat → Option Val → List Val → Acc) (m : Memory) (c : Ctx) (lines : List (List Val)) (j : Nat) : Nat :=
  (vxEmit (vxDt c.w) (vxDestFmt c) (vxSat c.w) ((redStart m c j).toList ++ lines.getD j [])
    (f (vxDt c.w) (redStart m c j) (lines.getD j [])).1).1

/-- A reduction's result: a row of values under AXIS, a column else. -/
def redTile (f : Nat → Option Val → List Val → Acc) (m : Memory) (c : Ctx) (lines : List (List Val)) : Tile :=
  if vxAxis c.w = true
  then { fmt := vxDestFmt c, rows := 1, cols := lines.length, codes := grid 1 lines.length (fun _ j => redCode f m c lines j) }
  else { fmt := vxDestFmt c, rows := lines.length, cols := 1, codes := grid lines.length 1 (fun j _ => redCode f m c lines j) }

/-- A reduction that may begin has a tile. -/
theorem Begins.red_ins {k : VxKind} (red : k.red = true) {op lc : Nat} {s : State} {e : Eng} {c : Ctx}
    (h : Begins (vxRow k) op s lc e c) : 0 < c.ins.length := by
  have operands : vxOperandErr k c = none := h.operandErr
  rw [h.slots.1]
  show 0 < vxTiles k c.w
  rw [vxOperandErr] at operands
  obtain ⟨bad, -⟩ := none_of_ite_some operands
  simp only [red, if_true, Bool.or_eq_true, not_or, beq_iff_eq] at bad
  obtain ⟨-, -, tiles⟩ := bad
  omega

/-- The lines of a reduction are the rows or columns its output has. -/
theorem vxOutShape_red {k : VxKind} (red : k.red = true) (s : State) {c : Ctx} (ins : 0 < c.ins.length) :
    let n := (redLines c (vxDt c.w) ((readInputs s c).1.getD 0 {})).length
    vxOutShape k c = if vxAxis c.w = true then (1, n) else (n, 1) := by
  have shape := shape_readInputs s c ins
  obtain ⟨i, r, hi⟩ : ∃ i r, c.ins = i :: r := List.exists_cons_of_length_pos ins
  have first : vxShape c = (i.ent.desc.rows, i.ent.desc.cols) := by simp [vxShape, hi]
  rw [hi, List.getD_cons_zero] at shape
  have rows : ((readInputs s c).1.getD 0 {}).rows = i.ent.desc.rows := congrArg (·.2.1) shape
  have cols : ((readInputs s c).1.getD 0 {}).cols = i.ent.desc.cols := congrArg (·.2.2) shape
  simp only [vxOutShape, red, if_true, first, redLines, ← rows, ← cols]
  split <;> rw [List.length_map, List.length_range]

/-- A reduction without poison finishes with each line's code. -/
theorem vxReduce_eq {k : VxKind} (f : Nat → Option Val → List Val → Acc) {s : State} {c : Ctx} (hs : Canon s)
    (hm : (s.core c.lc).scp.sound) (clean : (readInputs s c).1.any (·.poison) = false) :
    let y := redTile f (s.core c.lc).scp.vregs c (redLines c (vxDt c.w) ((readInputs s c).1.getD 0 {}))
    vxOutShape k c = (y.rows, y.cols) →
    ∃ flags, vxReduce k f c s = vxFinish c (readInputs s c).2 false y.fmt y.rows y.cols [y.codes] [] flags := by
  intro y shape
  have fmt : y.fmt = vxDestFmt c := by
    show Tile.fmt (redTile _ _ _ _) = _
    unfold redTile
    split <;> rfl
  have codes : y.codes =
      let codes := (List.range (redLines c (vxDt c.w) ((readInputs s c).1.getD 0 {})).length).map
        (redCode f (s.core c.lc).scp.vregs c (redLines c (vxDt c.w) ((readInputs s c).1.getD 0 {})))
      if vxAxis c.w then [codes] else codes.map (fun x => [x]) := by
    show Tile.codes (redTile _ _ _ _) = _
    unfold redTile
    split
    · rfl
    · simp [grid, Function.comp_def]
  rw [fmt, codes]
  simp only [vxReduce, clean, readInputs_core_of_sound c hs hm, shape, List.map_map, Function.comp_def]
  exact ⟨_, rfl⟩

/-- A reduction without poison has completed with each line's value. -/
theorem vxReduce_done {k : VxKind} (kind : k.red = true ∧ k.outs = 1) (f : Nat → Option Val → List Val → Acc) {op lc : Nat}
    {s : State} {c : Ctx} (h : Begins (vxRow k) op s lc .v c) (hs : Canon s) (hm : (s.core lc).scp.sound)
    (go : goesOn s lc .v = true) (clean : (readInputs s c).1.any (·.poison) = false) :
    let y := redTile f (s.core lc).scp.vregs c (redLines c (vxDt c.w) ((readInputs s c).1.getD 0 {}))
    vxClear s c [y] → vxDone s (vxReduce k f c s) c [y] := by
  obtain ⟨red, outs⟩ := kind
  have lc_eq := h.lc_eq
  rw [← lc_eq]
  intro y clear
  have shape : vxOutShape k c = (y.rows, y.cols) := by
    rw [vxOutShape_red red s (h.red_ins red)]
    show _ = (Tile.rows (redTile _ _ _ _), Tile.cols (redTile _ _ _ _))
    unfold redTile
    split <;> rfl
  have tile : vxTile y.fmt y.rows y.cols [] y.codes = y := by
    show vxTile (Tile.fmt (redTile _ _ _ _)) (Tile.rows (redTile _ _ _ _)) (Tile.cols (redTile _ _ _ _)) []
      (Tile.codes (redTile _ _ _ _)) = redTile _ _ _ _
    unfold redTile
    split <;> rfl
  obtain ⟨flags, effect⟩ := vxReduce_eq f hs (lc_eq ▸ hm) clean shape
  have done := h.vx_done hs hm go (fmt := y.fmt) (rows := y.rows) (cols := y.cols) (results := [y.codes]) (scales := []) flags
    outs.symm (by rw [List.map_singleton, tile]; exact clear)
  rwa [List.map_singleton, tile, ← effect] at done

/-! ### Prefix sums -/

theorem length_scanRow (dt : Nat) (a : Acc) (l : List Val) : (scanRow dt a l).length = l.length := by
  induction l generalizing a with
  | nil => rfl
  | cons v r ih => rw [scanRow, List.length_cons, ih, List.length_cons]

/-- The sum vx.scan starts from. -/
def scanZero (dt : Nat) : Acc := (if dt = 9 then .i 0 else .f (.fin false 0 0), false)

/-- A row's values. -/
def scanLine (c : Ctx) (t : Tile) (i : Nat) : List Val :=
  (List.range t.cols).map (fun k => valOf (if vxDt c.w = 9 then 9 else 0) t.fmt (t.code i k))

/-- The code of an element of vx.scan's result. -/
def scanCode (c : Ctx) (t : Tile) (i k : Nat) : Nat :=
  (vxEmit (vxDt c.w) (vxDestFmt c) (vxSat c.w) ((scanLine c t i).take k)
    ((scanRow (vxDt c.w) (scanZero (vxDt c.w)) (scanLine c t i)).getD k (scanZero (vxDt c.w))).1).1

/-- A list by place. -/
theorem zipIdx_map_eq_range {α β : Type} (l : List α) (d : α) (g : α × Nat → β) :
    l.zipIdx.map g = (List.range l.length).map (fun k => g (l.getD k d, k)) := by
  refine List.ext_getElem (by simp) fun k h _ => ?_
  rw [List.length_map, List.length_zipIdx] at h
  simp [h]

/-- vx.scan without poison finishes with each row's exclusive prefix sums. -/
theorem vxScanEff_eq {s : State} {c : Ctx} (clean : (readInputs s c).1.any (·.poison) = false) :
    let t := (readInputs s c).1.getD 0 {}
    ∃ flags, vxScanEff c s = vxFinish c (readInputs s c).2 false (vxDestFmt c) t.rows t.cols
      [grid t.rows t.cols (scanCode c t)] [] flags := by
  intro t
  have row (i : Nat) : (List.range t.cols).map (scanCode c t i) =
      ((scanRow (vxDt c.w) (scanZero (vxDt c.w)) (scanLine c t i)).zipIdx.map (fun x =>
        (vxEmit (vxDt c.w) (vxDestFmt c) (vxSat c.w) ((scanLine c t i).take x.2) x.1.1).1)) := by
    rw [zipIdx_map_eq_range _ (scanZero (vxDt c.w)), length_scanRow, scanLine, List.length_map, List.length_range]
    rfl
  simp only [grid, row]
  simp only [vxScanEff, clean, List.map_map, Function.comp_def]
  exact ⟨_, rfl⟩

/-! ### Blocks -/

/-- The blocks of a row with their scales. -/
def quantBlocks (c : Ctx) (t : Tile) (i : Nat) : List (List Nat × Nat × Bool) :=
  (chunks 32 ((List.range t.cols).map (fun k => decodeFmt t.fmt (t.code i k)))).map (quantBlock (vxOut c.w))

/-- vx.quant without poison finishes with each row's blocks. -/
theorem vxQuantEff_eq {s : State} {c : Ctx} (clean : (readInputs s c).1.any (·.poison) = false) :
    let t := (readInputs s c).1.getD 0 {}
    ∃ flags, vxQuantEff c s = vxFinish c (readInputs s c).2 false (vxOut c.w) t.rows t.cols
      [(List.range t.rows).map (fun i => (quantBlocks c t i).flatMap (·.1))]
      ((List.range t.rows).map (fun i => (quantBlocks c t i).map (·.2.1))) flags := by
  intro t
  simp only [quantBlocks, vxQuantEff, clean, List.map_map, Function.comp_def]
  exact ⟨_, rfl⟩

end Sys2Proof.Machine
end

section
open Sys2Proof Sys2Proof.Machine

/-- Settles O16. -/
theorem vectorRowCommandsComplete : Obligations.VectorRowCommandsComplete := by
  intro lc s c hs hm go tiles m t0 dt lines clean
  refine ⟨?_, ?_, ?_⟩
  · intro x hx h start code y apart
    have effect : ∃ eff, exec x.1 s = runCmd (vxRow x.2.2.1) x.2.1 eff lc .v s ∧ eff c s = vxReduce x.2.2.1 x.2.2.2 c s
        ∧ x.2.2.1.red = true ∧ x.2.2.1.outs = 1 := by
      clear apart y code start h
      simp only [List.mem_cons, List.not_mem_nil, or_false] at hx
      rcases hx with rfl | rfl <;> exact ⟨_, rfl, rfl, rfl, rfl⟩
    obtain ⟨eff, run, effect, kind⟩ := effect
    refine ⟨_, run.trans (runCmd_go _ h.go), ?_⟩
    rw [effect]
    exact vxReduce_done kind x.2.2.2 h hs hm go clean apart
  · intro h line zero y clear
    obtain ⟨flags, effect⟩ := vxScanEff_eq clean
    refine ⟨vxScanEff c s, runCmd_go vxScanEff h.go, ?_⟩
    rw [effect]
    exact h.vx_done hs hm go (results := [_]) flags rfl clear
  · intro h blocks y clear
    obtain ⟨flags, effect⟩ := vxQuantEff_eq clean
    refine ⟨vxQuantEff c s, runCmd_go vxQuantEff h.go, ?_⟩
    rw [effect]
    exact h.vx_done hs hm go (results := [_]) flags rfl clear
end

section
/-! SUPPORT. red.hist (R81): counting values into bins, and the flags a count sets. -/

namespace Sys2Proof

/-- A value other than the default, set at a key of any table, is read there. -/
theorem Tbl.get_set_of_ne {α : Type} [DecidableEq α] {d v : α} (hv : v ≠ d) (t : Tbl α) (k : Nat) :
    Tbl.get d (Tbl.set d t k v) k = v := by
  induction t with
  | nil => simp [Tbl.set, Tbl.get, hv]
  | cons x r ih =>
    simp only [Tbl.set, hv, if_false]
    split
    · simp [Tbl.get]
    · split
      · simp [Tbl.get]
      · next other => rw [Tbl.get, if_neg fun e => other e.symm, ih]

end Sys2Proof

namespace Sys2Proof.Machine

theorem toNat_satInc_word (w : Word) : (satInc w).toNat = min (w.toNat + 1) (2 ^ 32 - 1) := by
  unfold satInc satAdd
  rw [BitVec.toNat_ofNat]
  omega

theorem satInc_ne_zero (w : Word) : satInc w ≠ 0 := by
  intro e
  have := toNat_satInc_word w
  rw [e, show (0 : Word).toNat = 0 from rfl] at this
  omega

/-- How many values fall in a bin. -/
def histHits (w : Cmd) (fmt : Nat) (l : List Nat) (b : Nat) : Nat := (l.filter (fun x => histBin w fmt x == some b)).length

theorem histHits_cons (w : Cmd) (fmt x : Nat) (l : List Nat) (b : Nat) :
    histHits w fmt (x :: l) b = histHits w fmt l b + if histBin w fmt x = some b then 1 else 0 := by
  unfold histHits
  rw [List.filter_cons]
  split <;> simp_all

/-- A value in a bin adds one there, up to the most a bin holds, and reports a full bin. -/
theorem histCount_some {w : Cmd} {fmt x b : Nat} (h : histBin w fmt x = some b) (t : Tbl Word) (f : Word) :
    (∀ k, (Tbl.get 0 (histCount w fmt (t, f) x).1 k).toNat =
        min ((Tbl.get 0 t k).toNat + if k = b then 1 else 0) (2 ^ 32 - 1))
      ∧ (histCount w fmt (t, f) x).2 = if Tbl.get 0 t b = 0xFFFFFFFF then f ||| 4 else f := by
  simp only [histCount, h]
  refine ⟨fun k => ?_, trivial⟩
  by_cases hk : k = b
  · rw [if_pos hk, hk, Tbl.get_set_of_ne (satInc_ne_zero _), toNat_satInc_word]
  · rw [if_neg hk, Tbl.get_set_other _ _ _ _ _ hk]
    have := (Tbl.get 0 t k).isLt
    omega

/-- A value in no bin is reported and counted nowhere. -/
theorem histCount_none {w : Cmd} {fmt x : Nat} (h : histBin w fmt x = none) (a : Tbl Word × Word) :
    histCount w fmt a x = (a.1, a.2 ||| 2) := by
  simp only [histCount, h]

theorem bit_or_left {f : Word} {i : Nat} (g : Word) (h : bit f i = true) : bit (f ||| g) i = true := by
  simp only [bit, BitVec.getLsbD_or, Bool.or_eq_true] at h ⊢
  exact .inl h

/-- A count keeps the flags that are set. -/
theorem bit_histCount {w : Cmd} {fmt x i : Nat} {a : Tbl Word × Word} (h : bit a.2 i = true) :
    bit (histCount w fmt a x).2 i = true := by
  cases hb : histBin w fmt x with
  | none => rw [histCount_none hb]; exact bit_or_left _ h
  | some b =>
    rw [(histCount_some hb a.1 a.2).2]
    split
    · exact bit_or_left _ h
    · exact h

theorem bit_foldl_histCount {w : Cmd} {fmt i : Nat} (l : List Nat) {a : Tbl Word × Word} (h : bit a.2 i = true) :
    bit (l.foldl (histCount w fmt) a).2 i = true :=
  foldl_keeps (P := fun a : Tbl Word × Word => bit a.2 i = true) _ _ h fun _ _ => bit_histCount

/-- Counted values: each bin holds what it held and its hits, up to the most a bin holds. -/
theorem get_foldl_histCount (w : Cmd) (fmt : Nat) (l : List Nat) (a : Tbl Word × Word) (b : Nat) :
    (Tbl.get 0 (l.foldl (histCount w fmt) a).1 b).toNat =
      min ((Tbl.get 0 a.1 b).toNat + histHits w fmt l b) (2 ^ 32 - 1) := by
  induction l generalizing a with
  | nil =>
    have := (Tbl.get 0 a.1 b).isLt
    show (Tbl.get 0 a.1 b).toNat = min ((Tbl.get 0 a.1 b).toNat + 0) _
    omega
  | cons x r ih =>
    rw [List.foldl_cons, ih, histHits_cons]
    cases hb : histBin w fmt x with
    | none => rw [histCount_none hb, if_neg (by simp)]; rfl
    | some k =>
      rw [(histCount_some hb a.1 a.2).1 b]
      by_cases hk : b = k
      · rw [if_pos hk, if_pos (by rw [hk])]
        omega
      · rw [if_neg hk, if_neg fun e => hk (Option.some.inj e).symm]
        omega

/-- A value in no bin sets HIST_OOR. -/
theorem bit_foldl_histCount_oor (w : Cmd) (fmt : Nat) (l : List Nat) (a : Tbl Word × Word)
    (h : ∃ x ∈ l, histBin w fmt x = none) : bit (l.foldl (histCount w fmt) a).2 1 = true := by
  induction l generalizing a with
  | nil => simp at h
  | cons x r ih =>
    obtain ⟨y, hy, none⟩ := h
    rcases List.mem_cons.1 hy with rfl | hy
    · refine bit_foldl_histCount r ?_
      rw [histCount_none none]
      simp [bit]
    · exact ih _ ⟨y, hy, none⟩

/-- A bin hit when full sets HIST_SAT. -/
theorem bit_foldl_histCount_sat (w : Cmd) (fmt : Nat) (l : List Nat) (a : Tbl Word × Word) (b : Nat)
    (h : 2 ^ 32 - 1 < (Tbl.get 0 a.1 b).toNat + histHits w fmt l b) : bit (l.foldl (histCount w fmt) a).2 2 = true := by
  induction l generalizing a with
  | nil =>
    have lt := (Tbl.get 0 a.1 b).isLt
    have : histHits w fmt [] b = 0 := rfl
    omega
  | cons x r ih =>
    rw [histHits_cons] at h
    rw [List.foldl_cons]
    cases hb : histBin w fmt x with
    | none =>
      rw [histCount_none hb]
      rw [if_neg (by simp [hb])] at h
      exact ih _ h
    | some k =>
      obtain ⟨count, flags⟩ := histCount_some hb a.1 a.2
      by_cases full : k = b ∧ Tbl.get 0 a.1 k = 0xFFFFFFFF
      · refine bit_foldl_histCount r ?_
        rw [flags, if_pos full.2]
        simp [bit]
      · refine ih _ ?_
        have lt := (Tbl.get 0 a.1 b).isLt
        rw [count b]
        by_cases hk : k = b
        · have notFull : (Tbl.get 0 a.1 b).toNat ≠ 2 ^ 32 - 1 := fun e =>
            full ⟨hk, by rw [hk]; exact BitVec.eq_of_toNat_eq e⟩
          rw [if_pos (by rw [hb, hk])] at h
          rw [if_pos hk.symm]
          omega
        · rw [if_neg (by rw [hb]; exact fun e => hk (Option.some.inj e))] at h
          rw [if_neg fun e => hk e.symm]
          omega

/-- What the bins hold before a count. -/
def histOld (s : State) (c : Ctx) : Tbl Word := if redClear c.w = true then [] else (s.core c.lc).scp.bins

/-- The bins and the flags of a count. -/
def histRun (s : State) (c : Ctx) (t : Tile) : Tbl Word × Word :=
  (t.codes.flatten).foldl (histCount c.w t.fmt) (histOld s c, 0)

/-- The bins as a tile, under EMIT. -/
def histOuts (c : Ctx) (bins : Tbl Word) : List Tile := if redEmit c.w = true then
  [{ fmt := 9, rows := 1, cols := redBins c.w, codes := grid 1 (redBins c.w) (fun _ b => (Tbl.get 0 bins b).toNat) }] else []

/-- red.hist without poison. -/
theorem histEff_eq {s : State} {c : Ctx} (hs : Canon s) (hm : (s.core c.lc).scp.sound)
    (clean : ((readInputs s c).1.getD 0 {}).poison = false) :
    let r := histRun s c ((readInputs s c).1.getD 0 {})
    histEff c s = (((readInputs s c).2.redFlags c.lc r.2).onScp c.lc (fun m => { m with bins := r.1 })).complete c
      (histOuts c r.1) false := by
  intro r
  simp only [histEff, clean, readInputs_core_of_sound c hs hm, Bool.false_eq_true, if_false]
  rfl

/-- What red.hist without poison comes to. -/
theorem histEff_completes {s : State} {c : Ctx} (hs : Canon s) (hm : (s.core c.lc).scp.sound)
    (go : goesOn s c.lc c.e = true) (distinct : (c.ins.map (·.qn) ++ c.outs).Nodup)
    (len : c.outs.length = if redEmit c.w then 1 else 0) :
    let t := (readInputs s c).1.getD 0 {}
    let r := histRun s c t
    let u := histEff c s
    t.poison = false → outsClear s c (histOuts c r.1) → Completes s u c (histOuts c r.1)
      ∧ (u.core c.lc).scp.bins = r.1 ∧ ∃ f, (u.core c.lc).integ.redFlags = f ||| r.2 := by
  intro t r u clean clear
  have read := Beside.readInputs c hs hm
  have flagged : Beside s ((readInputs s c).2.redFlags c.lc r.2) c.lc := read.onInteg _
  have counted := flagged.bins (fun _ => r.1)
  have outs : (histOuts c r.1).length = c.outs.length := by
    rw [len, histOuts]
    split <;> rfl
  obtain ⟨completes, kept⟩ := State.complete_completes counted distinct outs go fun _ => clear
  rw [show u = _ from histEff_eq hs hm clean]
  refine ⟨completes, ?_, ((readInputs s c).2.core c.lc).integ.redFlags, ?_⟩
  · rw [kept.bins, State.core_onScp_same _ _ flagged.canon]
  · rw [kept.integ, State.core_onScp_same _ _ flagged.canon, State.redFlags, State.core_onInteg_same _ _ read.canon]

/-- A selection whose inputs carry no poison has completed with its two outputs. -/
theorem redSelect_completes (big : Bool) {r : Row} {op lc : Nat} {s : State} {c : Ctx} (h : Begins r op s lc .q c)
    (slots : 0 < (r.slots c.w).1 ∧ (r.slots c.w).2 = [2]) (hs : Canon s) (hm : (s.core lc).scp.sound)
    (go : goesOn s lc .q = true) (clean : (readInputs s c).1.any (·.poison) = false) :
    let outs := [selVals big c (readInputs s c).1, selIdx big c (readInputs s c).1]
    outsClear s c outs → Completes s (redSelect big c s) c outs := by
  intro outs clear
  obtain ⟨ins, outCount, distinct⟩ := h.slots
  have lc_eq := h.lc_eq
  have sound : (s.core c.lc).scp.sound := lc_eq ▸ hm
  have read : Beside s (selState big c s) c.lc := by
    unfold selState
    split
    · exact (Beside.readInputs c hs sound).onInteg _
    · exact Beside.readInputs c hs sound
  have some : c.ins ≠ [] := fun e => by rw [e] at ins; simp only [List.length_nil] at ins; omega
  rw [redSelect_eq big some clean]
  rw [slots.2, List.mem_singleton] at outCount
  exact (State.complete_completes (outs := outs) read distinct outCount.symm (by rw [lc_eq, h.eng_eq]; exact go) fun _ => clear).1

end Sys2Proof.Machine
end

section
open Sys2Proof Sys2Proof.Machine

/-- Settles O17. -/
theorem reductionUnitCompletes : Obligations.ReductionUnitCompletes := by
  constructor
  · intro lc s c hs hm go x hx h tiles t k best tile outs clean apart
    have effect : exec x.1 s = runCmd x.2.2.1 x.2.1 (redSelect x.2.2.2) lc .q s
        ∧ 0 < (x.2.2.1.slots c.w).1 ∧ (x.2.2.1.slots c.w).2 = [2] := by
      clear apart clean outs tile best k t tiles h
      simp only [List.mem_cons, List.not_mem_nil, or_false] at hx
      rcases hx with rfl | rfl | rfl
      · exact ⟨rfl, Nat.one_pos, rfl⟩
      · exact ⟨rfl, Nat.one_pos, rfl⟩
      · refine ⟨rfl, ?_, rfl⟩
        show 0 < if _ then 3 else 1
        split <;> omega
    obtain ⟨run, slots⟩ := effect
    exact ⟨_, run.trans (runCmd_go _ h.go), redSelect_completes x.2.2.2 h slots hs hm go clean apart⟩
  · intro lc s c hs hm go h t old hits outs clean apart
    have lc_eq := h.lc_eq
    have sound : (s.core c.lc).scp.sound := lc_eq ▸ hm
    obtain ⟨-, outCount, distinct⟩ := h.slots
    have done := histEff_completes hs sound (by rw [lc_eq, h.eng_eq]; exact go) distinct (List.mem_singleton.1 outCount) clean
    have held (b : Nat) : (Tbl.get 0 (histOld s c) b).toNat = old b := by
      show _ = if _ then _ else _
      rw [histOld, lc_eq]
      split <;> rfl
    have bins (b : Nat) : (Tbl.get 0 (histRun s c t).1 b).toNat = min (old b + hits b) (2 ^ 32 - 1) :=
      (get_foldl_histCount _ _ _ _ b).trans (by rw [← held b]; rfl)
    have outs_eq : histOuts c (histRun s c t).1 = outs := by
      simp only [histOuts, bins]
      rfl
    rw [lc_eq] at done
    obtain ⟨completes, binsEq, f, flags⟩ := done (outs_eq ▸ apart)
    refine ⟨histEff c s, runCmd_go histEff h.go, outs_eq ▸ completes, fun b => by rw [binsEq]; exact bins b, fun oor => ?_,
      fun ⟨b, sat⟩ => ?_⟩
    · rw [flags, BitVec.or_comm]
      exact bit_or_left f (bit_foldl_histCount_oor _ _ _ _ oor)
    · rw [flags, BitVec.or_comm]
      exact bit_or_left f (bit_foldl_histCount_sat _ _ _ _ b (by rw [held b]; exact sat))
end

section
/-! SUPPORT. In-place adds (R88, R89): what a stack makes of one, and when a slice lets one pass. -/

namespace Sys2Proof.Machine

section
variable {s : State} {a : Nat} (rail : (s.stk (stackOf a)).railFailed = false)
  (good : Tbl.get .good s.mem.cond (a / 64) = .good)

theorem State.mergeRead_marked (a : Nat) (marked : Tbl.get false s.mem.poison (a / 64) = true) (u : Upset) :
    s.mergeRead a u = ((s.dramBytes (64 * (a / 64)) 64, true), s) := by
  simp only [State.mergeRead, marked, if_true]

include good in
theorem State.mergeRead_good (clean : Tbl.get false s.mem.poison (a / 64) = false) :
    s.mergeRead a .clean = ((s.dramBytes (64 * (a / 64)) 64, false), s) := by
  simp only [State.mergeRead, State.upset, clean, good, Bool.false_eq_true, if_false]

include rail in
/-- An add onto a marked unit opens its row only. -/
theorem State.stackAdd_marked (marked : Tbl.get false s.mem.poison (a / 64) = true) (bf16 : Bool) (data : List Byte)
    (poison : Bool) (u : Upset) : s.stackAdd a bf16 data poison u = s.openRow a := by
  have merge := State.mergeRead_marked (s := s.openRow a) a marked u
  simp only [State.stackAdd, rail, Bool.false_eq_true, if_false, merge, if_true]

include rail good in
/-- A poisoned add onto a good unit marks it. -/
theorem State.stackAdd_poison (clean : Tbl.get false s.mem.poison (a / 64) = false) (bf16 : Bool) (data : List Byte) :
    s.stackAdd a bf16 data true .clean = (s.openRow a).markUnit a := by
  have merge := State.mergeRead_good (s := s.openRow a) good clean
  simp only [State.stackAdd, rail, Bool.false_eq_true, if_false, merge, if_true]

include rail good in
/-- An add onto a good unit stores the sums. -/
theorem State.stackAdd_good (clean : Tbl.get false s.mem.poison (a / 64) = false) (bf16 : Bool) (data : List Byte) :
    s.stackAdd a bf16 data false .clean =
      (((s.openRow a).setDram (64 * (a / 64)) (addUnit bf16 (s.dramBytes (64 * (a / 64)) 64) data)).setUnitPoison (a / 64)
        false).setUnitCond (a / 64) .good := by
  have merge := State.mergeRead_good (s := s.openRow a) good clean
  simp only [State.stackAdd, rail, Bool.false_eq_true, if_false, merge]
  rfl

end

theorem length_addUnit (bf16 : Bool) (old new : List Byte) : (addUnit bf16 old new).length = 64 := by
  unfold addUnit
  split <;> simp [List.length_flatMap]

theorem State.settle_of_no_shadows {s : State} {ln : Nat} (h : (s.slice (sliceOf (128 * ln))).shadows = []) :
    s.settle ln = s := by
  simp [State.settle, h]

theorem sliceOf_line (a : Nat) : sliceOf (128 * (a / 128)) = sliceOf a := by
  have stack : 128 * (a / 128) / 256 = a / 256 := by omega
  have unit : 128 * (a / 128) / 4096 = a / 4096 := by omega
  simp only [sliceOf, slotOf, stackOf, localUnit, stack, unit]

/-- An ungrouped add of a unit that its slice does not hold reaches the stack. -/
theorem State.addMem_eq {s : State} {a : Nat} (shadows : (s.slice (sliceOf a)).shadows = [])
    (line : (s.slice (sliceOf a)).line? (a / 128) = none) (bf16 : Bool) (data : List Byte) (poison : Bool) (u : Upset) :
    s.addMem a bf16 data poison none u = s.stackAdd (a / 64 * 64) bf16 data poison u := by
  simp only [State.addMem, State.settle_of_no_shadows (s := s) ((sliceOf_line a).symm ▸ shadows), line]

/-- A mark set is read back; no byte of DRAM and no core changes. -/
theorem State.markUnit_marks (s : State) (a : Nat) : Tbl.get false (s.markUnit a).mem.poison (a / 64) = true
    ∧ (s.markUnit a).mem.dram = s.mem.dram := by
  unfold State.markUnit
  split
  · next marked => exact ⟨marked, rfl⟩
  · have mem : ((s.setUnitPoison (a / 64) true).fieldFail (.row (stackOf a) (rowId a)) 2 (stackOf a) 1).mem =
        (s.setUnitPoison (a / 64) true).mem :=
      State.fieldFail_within (W := [.flash]) _ _ _ _ Within.rfl (by decide) .mem (by decide)
    rw [mem]
    exact ⟨Tbl.get_set_of_ne (by decide) _ _, rfl⟩

end Sys2Proof.Machine
end

section
open Sys2Proof Sys2Proof.Machine

/-- Settles O29: the slice lets the add pass, and the stack adds onto a good unit, marks one the contribution poisons, and
leaves a marked one as it is. -/
theorem inPlaceAddsAccumulate : Obligations.InPlaceAddsAccumulate := by
  intro unit bf16 data poison s hs aligned user len a sl rail shadows line good bad
  have at_ : a / 64 * 64 = a := by omega
  have bytes : 64 * (a / 64) = a := by omega
  have run : exec (.inPlaceAdd unit bf16 data poison .clean) s = .next (s.stackAdd a bf16 data poison .clean) := by
    show execInPlaceAdd unit bf16 data poison .clean s = _
    rw [execInPlaceAdd, if_neg (by omega), bytesAt_zero_of_length len, State.addMem_eq shadows line, at_]
  have cores : (s.stackAdd a bf16 data poison .clean).cores = s.cores :=
    State.stackAdd_within (W := [.mem, .flash]) _ _ _ _ _ Within.rfl (by decide) (by decide) .cores (by decide)
  refine ⟨_, run, ?_⟩
  cases marked : Tbl.get false s.mem.poison (a / 64) with
  | true =>
    have isBad : bad = true := by simp [bad, marked]
    rw [State.stackAdd_marked rail marked, isBad]
    exact ⟨marked, fun _ => rfl, fun f => absurd f (by decide), rfl⟩
  | false =>
    cases poison with
    | true =>
      have isBad : bad = true := rfl
      rw [State.stackAdd_poison rail good marked] at cores ⊢
      obtain ⟨mark, dram⟩ := State.markUnit_marks (s.openRow a) a
      rw [isBad]
      exact ⟨mark, fun _ => dram, fun f => absurd f (by decide), cores⟩
    | false =>
      have isBad : bad = false := by simp [bad, marked]
      obtain ⟨-, ⟨dram, poison, -⟩, -⟩ := hs
      rw [State.stackAdd_good rail good marked, isBad, bytes]
      refine ⟨Tbl.get_set_same _ _ _ _ poison, fun f => absurd f (by decide), fun _ => ⟨fun i hi => ?_, fun x hx => ?_⟩, rfl⟩
      · exact Mem.read_writeN_same _ _ _ _ dram (by rw [length_addUnit]; exact hi)
      · exact Mem.read_writeN_other _ _ _ _ (by rw [length_addUnit]; exact hx)
end

section
/-! SUPPORT. A chain.add of a tile of no rows. -/

namespace Sys2Proof.Machine

theorem idsB_sound {q : Queue} (h : idsB q = true) : q.idsOk := by
  simp only [idsB, Bool.and_eq_true, decide_eq_true_eq, List.all_eq_true] at h
  exact h

/-- Core 0 with a chain's first member at the front, which is to push its sum: its contribution is a tile of no rows. -/
def sEmptyTile : State := tState .q (tWord 0x54 [(0, 1), (4, 3)] []) [(1, tIn .q { rows := 0 }), (3, tOut .q 0x1000)]

/-- The member, as its row sees it. -/
def cEmptyTile : Ctx := headCtx sEmptyTile .q

/-- The member's result, a tile without elements. -/
def yEmptyTile : Tile :=
  (chainSum (chainFmt cEmptyTile.w) ((sEmptyTile.core 0).readTile (cEmptyTile.ins.getD 0 {}).ent.desc).1 none).1

theorem sEmptyTile_canon : Canon sEmptyTile := canonB_sound _ (by decide +kernel)

theorem sEmptyTile_begins : Begins (chainRow sEmptyTile) 0x54 sEmptyTile 0 .q cEmptyTile := beginsB_sound (by decide +kernel)

theorem sEmptyTile_idsOk (n : Nat) : ((sEmptyTile.core 0).seq.queue n).idsOk := by
  have ids : (sEmptyTile.core 0).seq.queues.all (fun q => idsB q.2) = true := by decide +kernel
  exact get_of_all Queue.idsOk {} _ n (idsB_sound (by decide)) fun x hx => idsB_sound (List.all_eq_true.1 ids x hx)

theorem sEmptyTile_clear : outsClear sEmptyTile cEmptyTile [yEmptyTile] := by
  have apart : (sEmptyTile.core cEmptyTile.lc).codeHit
      (outRuns sEmptyTile cEmptyTile 0 yEmptyTile.fmt yEmptyTile.rows yEmptyTile.cols) = false := by decide +kernel
  refine ⟨fun i x hx => ?_, fun i j x y hij hx hy => ?_, .inl rfl⟩
  · obtain ⟨hi, rfl⟩ := List.getElem?_eq_some_iff.1 hx
    obtain rfl := Nat.lt_one_iff.1 hi
    exact apart
  · obtain ⟨hi, -⟩ := List.getElem?_eq_some_iff.1 hx
    obtain ⟨hj, -⟩ := List.getElem?_eq_some_iff.1 hy
    rw [List.length_singleton] at hi hj
    omega

/-- The member begins, finds no byte to add, and stays begun: it waits as though its running sum had not come. -/
theorem sEmptyTile_stays_begun : ((after (.chainAdd 0 true) sEmptyTile).eng 0 .q).begun.length = 1 := by decide +kernel

end Sys2Proof.Machine
end

section
open Sys2Proof Sys2Proof.Machine

/-- Refutes O18 in its clause on DEST 0: a contribution of no rows leaves chain.add no byte to add, so that it counts operand
empty and stays begun, where the statement has it completed. A descriptor read from a command's word has a row and a column at
least (`decodeDesc`), but the statement is over every state and does not ask that the tile have an element. -/
theorem not_chainAddAndCopiesComplete : ¬ Obligations.ChainAddAndCopiesComplete := by
  intro h
  obtain ⟨chain, -⟩ := h 0 sEmptyTile cEmptyTile sEmptyTile_canon ⟨rfl, rfl⟩ rfl sEmptyTile_idsOk
  obtain ⟨t, run, completes⟩ := (chain (by decide +kernel) sEmptyTile_begins (by decide +kernel)).1 (by decide +kernel)
    (by decide +kernel) rfl rfl sEmptyTile_clear
  have after_eq : after (.chainAdd 0 true) sEmptyTile = t := by rw [after, run]
  have begun : (t.eng 0 .q).begun = [] := (congrArg Engine.begun completes.eng).trans (by decide +kernel)
  have stays := sEmptyTile_stays_begun
  rw [after_eq, begun] at stays
  cases stays
end

section
/-! SUPPORT. Control commands (R105, R128, R130, R136): a command whose only effect is to retire. -/

namespace Sys2Proof.Machine

/-- A command that does nothing but retire, in a stream that goes on. -/
theorem Begins.runCmd_retire {r : Row} {op lc : Nat} {s : State} {e : Eng} {c : Ctx} (h : Begins r op s lc e c) (hs : Canon s)
    (go : goesOn s lc e = true) :
    runCmd r op (fun c s => s.retireFront c c.f.loops) lc e s = .next (s.onEng lc e (Engine.retire c.f.loops)) := by
  obtain rfl := h.lc_eq
  obtain rfl := h.eng_eq
  rw [runCmd_go _ h.go, State.retireFront_goesOn _ _ _ hs go]

/-- A change of an engine in its status leaves its distance to a stop count. -/
theorem noStopCount_onEng_status {s : State} (lc : Nat) (e : Eng) (st : EngStatus) (hs : Canon s) :
    noStopCount (s.onEng lc e (fun g => { g with status := st })) lc e = noStopCount s lc e := by
  rw [noStopCount, State.eng_onEng _ _ _ hs, State.core_onEng_same _ _ _ hs]
  rfl

/-- stop ends its stream and retires (R128, R130). -/
theorem exec_stop_begun {lc : Fin 64} {s : State} {e : Eng} {c : Ctx} (h : Begins (plainRow []) 0x01 s lc e c) (hs : Canon s)
    (count : noStopCount s lc e = true) : exec (.stop lc e) s =
      .next ((s.onEng lc e (fun g => { g with status := .stopped })).onEng lc e (Engine.retire c.f.loops)) := by
  have hlc := h.lc_eq
  have he := h.eng_eq
  show execStop lc e s = _
  rw [execStop, runCmd_go _ h.go, hlc, he, State.retireFront_eq, hlc, he]
  · exact State.onEng_keeps _ _ _ hs
  · rw [hlc, he, noStopCount_onEng_status _ _ _ hs, count]
  · exact .inl rfl

end Sys2Proof.Machine
end

section
open Sys2Proof Sys2Proof.Machine

/-- Settles O5: nop, loop and endloop do nothing but retire; stop ends its stream first. -/
theorem controlCommandsRetire : Obligations.ControlCommandsRetire := fun _ _ _ _ hs =>
  ⟨fun h go => h.runCmd_retire hs go, fun h go => h.runCmd_retire hs go, fun h go => h.runCmd_retire hs go,
    fun h count => exec_stop_begun h hs count⟩
end

section
/-! SUPPORT. A push that is made was not refused (R131). -/

namespace Sys2Proof.Machine

/-- A push that is made touches no active code region. -/
theorem State.codeHit_of_pushTile {s t : State} {c : Ctx} {i fmt rows cols : Nat} {data : List MB}
    (h : s.pushTile c i fmt rows cols data = some t) : (s.core c.lc).codeHit (outRuns s c i fmt rows cols) = false := by
  by_contra hit
  rw [Bool.not_eq_false] at hit
  have refused : s.pushTile c i fmt rows cols data = none := if_pos hit
  cases refused.symm.trans h

end Sys2Proof.Machine
end

section
open Sys2Proof Sys2Proof.Machine

/-- Settles O19: a push that is made lies clear of the code that runs, and an untagged one needs no room for an extent. -/
theorem pushedTileStandsInItsSlot : Obligations.PushedTileStandsInItsSlot := by
  intro s t c i fmt rows cols data hs hm push untagged n q d base
  obtain ⟨t', dur, poi, pend, push', -, core, -, others⟩ :=
    State.pushTile_eq hs hm i { fmt := fmt, rows := rows, cols := cols } data (State.codeHit_of_pushTile push) (.inl untagged)
  obtain rfl : t = t' := Option.some.inj (push.symm.trans push')
  have start : slotStart s c i { fmt := fmt, rows := rows, cols := cols } = base := by
    rw [slotStart, untagged]
  have length : (mbBytes data).length = data.length := List.length_map _
  have bytes : (t.core c.lc).scp.bytes = Mem.writeN (s.core c.lc).scp.bytes base (mbBytes data) := by
    rw [core, ← start]
    rfl
  refine ⟨?_, fun j hj => ?_, fun a ha => ?_, others⟩
  · rw [core, pushedCore, untagged]
    exact congrArg Queue.entries (Sequencer.queue_onQueue_same _ _ _ (seq_canon c.lc hs))
  · rw [bytes]
    exact Mem.read_writeN_same _ _ _ _ (State.bytes_wf c.lc hs) (length ▸ hj)
  · rw [bytes]
    exact Mem.read_writeN_other _ _ _ _ (length ▸ ha)
end

section
/-! SUPPORT. TONGS_PAIR_START (R111): halves that may begin, together or alone. -/

namespace Sys2Proof.Machine

/-- An engine whose mm.tongs may begin stands before that half. -/
theorem Begins.tongsHalf {r : Row} {lc : Nat} {s : State} {e : Eng} {c : Ctx} (h : Begins r 0x22 s lc e c) :
    tongsHalf s lc e = some c.w := by
  obtain ⟨f, l, front, noFault, rfl⟩ := h.front
  have word : Cmd.op f.word = 0x22 := h.opcode
  rw [Machine.tongsHalf, front]
  exact if_pos ⟨word, noFault⟩

theorem Begins.tongsReady {r : Row} {lc : Nat} {s : State} {e : Eng} {c : Ctx} (h : Begins r 0x22 s lc e c) :
    tongsReady r s lc e = true := by
  rw [Machine.tongsReady, h.go]

/-- A half that may begin, alone, counts a cycle of operand empty. -/
theorem Begins.tongsAlone {r : Row} {lc : Fin 64} {s : State} {e : Eng} {c : Ctx} (h : Begins r 0x22 s lc e c) :
    tongsAlone r lc e s = .next (s.stallNow lc e 0) := by
  rw [Machine.tongsAlone, runCmd_go _ h.go, h.lc_eq, h.eng_eq]

section
variable {s : State} {lc : Fin 64} (stopped : (s.core lc).seq.pairStarted = false)
include stopped

/-- Two halves that may begin start their pair on equal tags; tags that differ stop both streams. -/
theorem exec_tongsPairStart_halves {x y : Ctx} (hx : Begins tongsRow 0x22 s lc .g0 x)
    (hy : Begins tongsHalfRow 0x22 s lc .g1 y) : exec (.tongsPairStart lc) s = .next (
      if fld x.w 240 16 = fld y.w 240 16 then s.onSeq lc (fun q => { q with pairStarted := true })
      else (s.failStream lc .g0 ePair).failStream lc .g1 ePair) := by
  show execTongsPairStart lc s = _
  simp only [execTongsPairStart, stopped, hx.tongsHalf, hy.tongsHalf, hx.tongsReady, hy.tongsReady, tongsTag]
  by_cases tags : fld x.w 240 16 = fld y.w 240 16 <;> simp [tags]

/-- G0's half that may begin waits while none stands before G1. -/
theorem exec_tongsPairStart_alone0 {x : Ctx} (hx : Begins tongsRow 0x22 s lc .g0 x) (none1 : tongsHalf s lc .g1 = none) :
    exec (.tongsPairStart lc) s = .next (s.stallNow lc .g0 0) := by
  show execTongsPairStart lc s = _
  rw [execTongsPairStart, stopped, hx.tongsHalf, none1]
  exact hx.tongsAlone

/-- G1's half that may begin waits while none stands before G0. -/
theorem exec_tongsPairStart_alone1 {y : Ctx} (hy : Begins tongsHalfRow 0x22 s lc .g1 y) (none0 : tongsHalf s lc .g0 = none) :
    exec (.tongsPairStart lc) s = .next (s.stallNow lc .g1 0) := by
  show execTongsPairStart lc s = _
  rw [execTongsPairStart, stopped, hy.tongsHalf, none0]
  exact hy.tongsAlone

end

end Sys2Proof.Machine
end

section
/-! SUPPORT. gather.tile (R82, R112): the inputs are taken, and the operand stands last in its queue. -/

namespace Sys2Proof.Machine

/-- A queue with a gathered operand pushed, its entry the one of this identity. -/
def Queue.addGathered (d : Desc) (g : Gather) (id : Nat) (q : Queue) : Queue :=
  (q.add d .ready).onEntry id (fun e => { e with gather := some g })

/-- Of entries with identities of their own only the one that is pushed is the operand's. -/
theorem Queue.entries_addGathered {q : Queue} (h : q.idsOk) (d : Desc) (g : Gather) :
    (q.addGathered d g q.made).entries =
      q.entries ++ [{ id := q.made, slot := q.next, desc := d, st := .ready, gather := some g }] := by
  obtain ⟨-, made⟩ := h
  have others : q.entries.map (fun e => if e.id = q.made then { e with gather := some g } else e) = q.entries := by
    refine (List.map_congr_left fun e he => ?_).trans (List.map_id _)
    exact if_neg (made e he).ne
  simp [addGathered, onEntry, add, others]

/-- The operand gather.tile makes of its list's entries and its table's descriptor (R82). -/
def gatherOf (s : State) (c : Ctx) : Gather :=
  let r := (s.core c.lc).readTile (c.ins.getD 0 {}).ent.desc
  { idx := r.1.codes.flatten, table := (c.ins.getD 1 {}).ent.desc, r := gatherR c.w, trans := gatherTrans c.w
    poison := r.1.poison, held := c.ins.map (fun i => (i.qn, i.ent.id)) }

/-- The operand's descriptor: the table's, with the gathered shape and the engine's group. -/
def gatherDesc (s : State) (c : Ctx) : Desc :=
  { (c.ins.getD 1 {}).ent.desc with
    rows := (gatherShape (gatherOf s c)).1, cols := (gatherShape (gatherOf s c)).2, grp := c.grp }

/-- The inputs of a command are taken, and an operand is pushed. -/
def State.pushGathered (s : State) (c : Ctx) (d : Desc) (g : Gather) : State :=
  (s.popInputs c).onQueue c.lc (c.outs.getD 0 0)
    (Queue.addGathered d g (((s.popInputs c).core c.lc).seq.queue (c.outs.getD 0 0)).made)

theorem State.core_popInputs_other (s : State) (c : Ctx) (k : Nat) (hk : k ≠ c.lc) : (s.popInputs c).core k = s.core k :=
  foldl_keeps (P := fun u : State => u.core k = s.core k) _ _ rfl
    fun u i hu => (State.core_onQueue_other u _ _ _ _ hk).trans hu

/-- Reading its list from sound banks, gather.tile takes its inputs, pushes its operand and retires. -/
theorem gatherEff_of_sound {s : State} {c : Ctx} (hm : (s.core c.lc).scp.sound) : gatherEff c s =
    ((s.setCore c.lc (s.core c.lc)).pushGathered c (gatherDesc s c) (gatherOf s c)).retireFront c c.f.loops := by
  conv_rhs => rw [← Core.readTile_of_sound hm (c.ins.getD 0 {}).ent.desc]
  rfl

section
variable {s : State} {c : Ctx} (d : Desc) (g : Gather)

/-- The core of that push, the output's queue none of the inputs'. -/
theorem State.core_pushGathered (hs : Canon s) (apart : ∀ i ∈ c.ins, i.qn ≠ c.outs.getD 0 0) :
    (s.pushGathered c d g).core c.lc = { s.core c.lc with
      seq := ((s.core c.lc).seq.takeAll c.ins).onQueue (c.outs.getD 0 0)
        (Queue.addGathered d g ((s.core c.lc).seq.queue (c.outs.getD 0 0)).made) } := by
  have popped : (s.popInputs c).core c.lc = _ := State.core_takeAll hs c.lc c.ins
  rw [pushGathered, State.core_onQueue_same _ _ _ (State.popInputs_canon c hs), popped, Sequencer.queue_takeAll_other apart]

theorem State.core_pushGathered_other (k : Nat) (hk : k ≠ c.lc) : (s.pushGathered c d g).core k = s.core k :=
  (State.core_onQueue_other _ _ _ _ _ hk).trans (State.core_popInputs_other s c k hk)

end

theorem Sequencer.takeAll_keeps {q : Sequencer} (ins : List InRef) (h : q.Canon) : (q.takeAll ins).Canon := by
  induction ins generalizing q with
  | nil => exact h
  | cons i r ih => exact ih (onQueue_keeps q i.qn i.take h)

/-- gather.tile, its output's queue none of its inputs', in a stream that goes on: it retires, its operand stands last in the
output's queue, and its inputs are taken. -/
theorem gatherEff_done {s : State} {c : Ctx} (hs : Canon s) (hm : (s.core c.lc).scp.sound) (go : goesOn s c.lc c.e = true)
    (ins : (c.ins.map (·.qn)).Nodup) (apart : ∀ i ∈ c.ins, i.qn ≠ c.outs.getD 0 0)
    (own : ((s.core c.lc).seq.queue (c.outs.getD 0 0)).idsOk) :
    let t := gatherEff c s
    let q := (s.core c.lc).seq.queue (c.outs.getD 0 0)
    t.eng c.lc c.e = (s.eng c.lc c.e).retire c.f.loops
      ∧ ((t.core c.lc).seq.queue (c.outs.getD 0 0)).entries = q.entries ++
        [{ id := q.made, slot := q.next, desc := gatherDesc s c, st := .ready, gather := some (gatherOf s c) }]
      ∧ (∀ i ∈ c.ins, (t.core c.lc).seq.queue i.qn = i.take ((s.core c.lc).seq.queue i.qn))
      ∧ (t.core c.lc).scp.bytes = (s.core c.lc).scp.bytes ∧ ∀ k, k ≠ c.lc → t.core k = s.core k := by
  let s' := s.setCore c.lc (s.core c.lc)
  let u := s'.pushGathered c (gatherDesc s c) (gatherOf s c)
  have canon' : Canon s' := State.setCore_canon _ _ hs (hs.1.2 _)
  have canon : Canon u := State.onQueue_keeps _ _ _ (State.popInputs_canon c canon')
  have taken := Sequencer.takeAll_keeps c.ins (seq_canon c.lc hs)
  have core : u.core c.lc = _ := State.core_pushGathered (gatherDesc s c) (gatherOf s c) canon' apart
  rw [State.core_setCore_self hs] at core
  have eng : u.eng c.lc c.e = s.eng c.lc c.e := by
    rw [State.eng, core]
    rfl
  have goes : goesOn u c.lc c.e = true := by
    rw [← go]
    simp only [goesOn, noStopCount, eng, core]
    rfl
  have effect : gatherEff c s = u.onEng c.lc c.e (Engine.retire c.f.loops) :=
    (gatherEff_of_sound hm).trans (State.retireFront_goesOn _ _ _ canon goes)
  dsimp only
  rw [effect, State.eng_onEng _ _ _ canon, State.core_onEng_same _ _ _ canon, core, eng]
  refine ⟨rfl, ?_, fun i hi => ?_, rfl, fun k hk => ?_⟩
  · rw [← Queue.entries_addGathered own, Sequencer.queue_onEng, Sequencer.queue_onQueue_same _ _ _ taken,
      Sequencer.queue_takeAll_other apart]
  · rw [Sequencer.queue_onEng, Sequencer.queue_onQueue_other _ _ _ _ (apart i hi),
      Sequencer.queue_takeAll (seq_canon c.lc hs) ins hi]
  · rw [State.core_onEng_other _ _ _ _ _ hk, State.core_pushGathered_other _ _ _ hk, State.core_setCore_self hs]

end Sys2Proof.Machine
end

section
open Sys2Proof Sys2Proof.Machine

/-- Settles O13: a pair's halves are handled as its lemmas above say; gather.tile's operand has a queue and an identity of its
own, and what it reads and takes leaves all else of its core. -/
theorem pairsStartAndGathersPush : Obligations.PairsStartAndGathersPush := by
  refine ⟨fun lc s x y stopped => ⟨?both, ?alone0, ?alone1⟩, fun lc a s c hs h go => ?gather⟩
  case both => exact exec_tongsPairStart_halves stopped
  case alone0 => exact exec_tongsPairStart_alone0 stopped
  case alone1 => exact exec_tongsPairStart_alone1 stopped
  case gather =>
    intro td r g n q own hm
    obtain ⟨-, one, distinct⟩ := h.slots
    obtain ⟨ins, -, disjoint⟩ := List.nodup_append.1 distinct
    have run : exec (.gatherTile lc a) s = .next (gatherEff c s) := runCmd_go gatherEff h.go
    obtain ⟨f, l, -, -, rfl⟩ := h.front
    have mem : n ∈ (frontCtx s lc a.eng f).outs := by
      have length : (frontCtx s lc a.eng f).outs.length = 1 := List.mem_singleton.1 one
      show List.getD _ 0 0 ∈ _
      rw [List.getD_eq_getElem _ _ (length ▸ Nat.zero_lt_one)]
      exact List.getElem_mem _
    exact ⟨_, run, gatherEff_done hs hm go ins (fun i hi => disjoint _ (List.mem_map_of_mem hi) _ mem) own⟩
end

section
/-! SUPPORT. A write that waits in the remote-write port for a pending extent of a group, and that group's grp.abort. -/

namespace Sys2Proof.Machine

/-- A change of an engine leaves the scratchpad. -/
theorem State.scp_onEng {s : State} (hs : Canon s) (lc : Nat) (e : Eng) (f : Engine → Engine) :
    ((s.onEng lc e f).core lc).scp = (s.core lc).scp := by
  rw [State.core_onEng_same _ _ _ hs]

/-- A window write of one code word that waits in core 0's port. -/
def parkedWrite : PortWrite := { addr := 0x4000, data := List.replicate 32 (9, false) }

/-- Core 0 before grp.abort of its open group 5, whose pending extent is what the parked write waits for (R169). -/
def sParkedWrite : State :=
  (sGrp 0x16 { st := .opened }).onScp 0 (fun m =>
    { m with pend := [{ grp := 5, words := [(0x1000, 8)] }], port := [parkedWrite] })

theorem sParkedWrite_canon : Canon sParkedWrite := canonB_sound _ (by decide +kernel)

theorem sParkedWrite_begins : Begins (plainRow [(64, 12)]) 0x16 sParkedWrite 0 .s (headCtx sParkedWrite .s) :=
  beginsB_sound (by decide +kernel)

/-- The abort of the group leaves the write in the port. -/
theorem sParkedWrite_abort_port :
    ((sParkedWrite.abortGroup (0 : Fin 64) (BitVec.ofNat 12 (fld (headCtx sParkedWrite .s).w 64 12)) eGroupAborted).core
      (0 : Fin 64)).scp.port = [parkedWrite] := by
  decide +kernel

/-- grp.abort has the write placed. -/
theorem sParkedWrite_grpAbort_port : ((after (.grpAbort 0) sParkedWrite).core (0 : Fin 64)).scp.port = [] := by decide +kernel

end Sys2Proof.Machine
end

section
open Sys2Proof Sys2Proof.Machine

/-- Refutes O10 in its clause on grp.abort of an open group: writes that waited in the core's remote-write port for the
group's pending extents go on once those are released (R169, R271), so that grp.abort also places them, where the statement
has it do no more than abort the group and retire. -/
theorem not_groupCommandsAct : ¬ Obligations.GroupCommandsAct := by
  rintro ⟨-, -, abort⟩
  obtain ⟨opened, -⟩ := abort 0 sParkedWrite (headCtx sParkedWrite .s) sParkedWrite_canon sParkedWrite_begins
  obtain ⟨t, run, retires, -⟩ := opened (.inl (by decide +kernel)) (by decide +kernel)
  have after_eq : after (.grpAbort 0) sParkedWrite = t := by rw [after, run]
  have port : (t.core (0 : Fin 64)).scp.port = [parkedWrite] := by
    rw [retires, State.scp_onEng (State.abortGroup_canon _ _ _ sParkedWrite_canon), sParkedWrite_abort_port]
  rw [← after_eq, sParkedWrite_grpAbort_port] at port
  cases port
end

section
/-! SUPPORT. code.swap (R125, R132): a region that passes its checks becomes the active one as the command retires. -/

namespace Sys2Proof.Machine

section
variable {r : Row} {op lc : Nat} {s : State} {e : Eng} {c : Ctx} (h : Begins r op s lc e c)
include h

/-- A command that may begin was fetched without fault (R129). -/
theorem Begins.noFault : c.f.fault = none := by
  obtain ⟨f, l, -, noFault, rfl⟩ := h.front
  exact noFault

/-- The retirement of a command that may begin, in a stream that goes on. -/
theorem Begins.retireFront_eq (hs : Canon s) (go : goesOn s lc e = true) :
    s.retireFront c c.f.loops = s.onEng lc e (Engine.retire c.f.loops) := by
  obtain rfl := h.lc_eq
  obtain rfl := h.eng_eq
  exact State.retireFront_goesOn _ _ _ hs go

end

/-- A code.swap that may begin finds every earlier command of its engine retired (R132). -/
theorem Begins.swap_begun {lc : Nat} {s : State} {e : Eng} {c : Ctx} (h : Begins codeSwapRow 0x04 s lc e c) :
    (s.eng lc e).begun = [] := by
  obtain rfl := h.lc_eq
  obtain rfl := h.eng_eq
  have noWait : (if (s.eng c.lc c.e).begun = [] then none else some (7, s)) = none := h.noWait
  by_contra begun
  rw [if_neg begun] at noWait
  cases noWait

/-- A region aligned, of 8 words at least and within its segment's extent and permission, is not refused (R125). -/
theorem regionErr_eq_none {q : Sequencer} {seg off bound : Nat} (aligned : off % 8 = 0 ∧ bound % 8 = 0) (size : 8 ≤ bound)
    (extent : q.extentErr seg (off + bound) permExec = none) : regionErr q seg off bound = none := by
  rw [regionErr, if_neg (by omega), extent]

/-- An engine whose active code is a region, fetch starting at its OFFSET. -/
def Engine.inRegion (seg off bound : Nat) (g : Engine) : Engine :=
  { g with seg := seg, off := off, bound := bound, fetchPos := off, fetchDone := false, fetchLoops := [] }

/-- code.swap to a region that passes its checks retires and makes it the active one (R132). -/
theorem exec_codeSwap_begun {lc : Fin 64} {s : State} {e : Eng} {c : Ctx} (h : Begins codeSwapRow 0x04 s lc e c)
    (hs : Canon s) (count : noStopCount s lc e = true)
    (region : regionErr (s.core lc).seq (fld c.w 64 3) (fld c.w 96 23) (fld c.w 128 23) = none) :
    exec (.codeSwap lc e) s = .next ((s.onEng lc e (Engine.retire [])).onEng lc e
      (Engine.inRegion (fld c.w 64 3) (fld c.w 96 23) (fld c.w 128 23))) := by
  have hlc := h.lc_eq
  have he := h.eng_eq
  have passes : swapErr s c (fld c.w 64 3) (fld c.w 96 23) (fld c.w 128 23) = none := by
    rw [swapErr, h.noFault, if_neg (by decide), hlc, region]
  have retires : s.retireFront c [] true = s.onEng lc e (Engine.retire []) := by
    rw [State.retireFront_eq c [] true hs (by rw [hlc, he, count]) (.inl rfl), hlc, he]
  show execCodeSwap lc e s = _
  rw [execCodeSwap, runCmd_go _ h.go]
  simp only [passes, retires, hlc, he]
  rfl

end Sys2Proof.Machine
end

section
open Sys2Proof Sys2Proof.Machine

/-- Settles O6: the row has code.swap wait until its engine has no command begun, and a region that passes the checks of R125
becomes the active one. -/
theorem codeSwapMovesTheStream : Obligations.CodeSwapMovesTheStream := fun _ _ _ _ hs h count off bound size extent =>
  ⟨h.swap_begun, exec_codeSwap_begun h hs count (regionErr_eq_none ⟨off, bound⟩ size extent)⟩
end

section
/-! SUPPORT. The explicit waits (R137, R138, R165, R246): what each does once it may begin. -/

namespace Sys2Proof.Machine

section
variable {s : State} {lc : Fin 64} {e : Eng} {c : Ctx} (hs : Canon s) (go : goesOn s lc e = true)

/-- The Ready entries of a queue that the command at the front may see (R138, R167). -/
def readyCount (s : State) (c : Ctx) (lc qn : Nat) : Nat :=
  (((s.core lc).seq.queue qn).entries.filter (fun x => x.st == .ready && !(s.core lc).hidden qn x c.grp)).length

include hs go

/-- wait.q waits for as many Ready entries as it names or, under its other condition, for a queue that is off or empty. -/
theorem exec_waitQ_begun (h : Begins waitQRow 0x08 s lc e c) :
    let q := (s.core lc).seq.queue (fld c.w 64 6)
    exec (.waitQ lc e) s = .next (
      if (fld c.w 70 2 = 0 ∧ q.off? = false ∧ fld c.w 72 6 + 1 ≤ readyCount s c lc (fld c.w 64 6))
          ∨ (fld c.w 70 2 ≠ 0 ∧ (q.off? = true ∨ q.entries = [])) then
        s.onEng lc e (Engine.retire c.f.loops)
      else s.waitOn c (fld c.w 96 20)) := by
  show execWaitQ lc e s = _
  rw [execWaitQ, runCmd_go _ h.go]
  simp only [h.retireFront_eq hs go, h.lc_eq]
  congr 2
  by_cases cond : fld c.w 70 2 = 0 <;> simp [cond, readyCount]

/-- wait.grp completes at a group never opened or committed, stops its stream at an aborted one with the group's reason, and
waits for one that is open or being committed. -/
theorem exec_waitGrp_begun (h : Begins (plainRow [(64, 12), (96, 20)]) 0x09 s lc e c) :
    let g := (s.core lc).seq.grp (BitVec.ofNat 12 (fld c.w 64 12))
    (g.st = .never ∨ (g.st = .resolved ∧ g.aborted = false) →
      exec (.waitGrp lc e) s = .next (s.onEng lc e (Engine.retire c.f.loops)))
    ∧ (g.st = .resolved → g.aborted = true → exec (.waitGrp lc e) s = .next (s.failStream lc e g.reason))
    ∧ (g.st = .opened ∨ g.st = .committing → exec (.waitGrp lc e) s = .next (s.waitOn c (fld c.w 96 20))) := by
  have run : exec (.waitGrp lc e) s = execWaitGrp lc e s := rfl
  rw [execWaitGrp, runCmd_go _ h.go] at run
  simp only [h.retireFront_eq hs go, h.lc_eq, h.eng_eq] at run
  simp only [run]
  generalize (s.core lc).seq.grp (BitVec.ofNat 12 (fld c.w 64 12)) = g
  refine ⟨?completes, fun resolved aborted => ?fails, ?waits⟩
  case completes =>
    rintro (never | ⟨resolved, committed⟩)
    · simp only [never]
    · simp only [resolved, committed, Bool.false_eq_true, if_false]
  case fails => simp only [resolved, aborted, if_true]
  case waits =>
    rintro (opened | committing)
    · simp only [opened]
    · simp only [committing]

/-- wait.bar waits for its epoch or a later one of a group that was used. -/
theorem exec_waitBar_begun (h : Begins (plainRow [(64, 20), (96, 32), (128, 20)]) 0x0A s lc e c) :
    exec (.waitBar lc e) s = .next (
      if (s.coll (barColl c.w)).used = true ∧ (s.coll (barColl c.w)).completed (barEpoch c.w) = true then
        s.onEng lc e (Engine.retire c.f.loops)
      else s.waitOn c (fld c.w 128 20)) := by
  show execWaitBar lc e s = _
  rw [execWaitBar, runCmd_go _ h.go]
  simp only [h.retireFront_eq hs go, Bool.and_eq_true]

/-- wait.win waits for an open window's watermark, and stops its stream at a closed window. -/
theorem exec_waitWin_begun (h : Begins (plainRow [(64, 12), (96, 32), (128, 20)]) 0x0B s lc e c) :
    let w := (s.core lc).seq.win (BitVec.ofNat 12 (fld c.w 64 12))
    exec (.waitWin lc e) s = .next (
      if w.isOpen = false then s.failStream lc e eWindowClosed
      else if (w.watermark - BitVec.ofNat 32 (fld c.w 96 32)).toNat < 2 ^ 31 then s.onEng lc e (Engine.retire c.f.loops)
      else s.waitOn c (fld c.w 128 20)) := by
  show execWaitWin lc e s = _
  rw [execWaitWin, runCmd_go _ h.go]
  simp only [h.retireFront_eq hs go, h.lc_eq, h.eng_eq, Bool.not_eq_true']

end

theorem Coll.completed_iff (g : Coll) (e : BitVec 32) : g.completed e = true ↔ (g.epoch - 1 - e).toNat < 2 ^ 31 :=
  decide_eq_true_iff

end Sys2Proof.Machine
end

section
open Sys2Proof Sys2Proof.Machine

/-- Settles O7: what each wait does once it may begin is its lemma above. -/
theorem explicitWaitsCompleteOrWait : Obligations.ExplicitWaitsCompleteOrWait := by
  refine fun lc e s c hs go => ⟨fun h => exec_waitQ_begun hs go h, fun h => exec_waitGrp_begun hs go h, fun h => ?bar,
    fun h => exec_waitWin_begun hs go h⟩
  case bar =>
    intro g
    simp only [exec_waitBar_begun hs go h, Coll.completed_iff]
    rfl
end

section
/-! SUPPORT. Fetch (R126–R129, R133–R135): what one fetched command makes of its core, and what a request makes of it. -/

namespace Sys2Proof.Machine

/-- An engine with a command appended to those fetched, and its fetch at another position. -/
def Engine.append (f : Fetched) (loops : List Loop) (next : Nat) (done : Bool) (g : Engine) : Engine :=
  { g with fetched := g.fetched ++ [f], fetchLoops := loops, fetchPos := next, fetchDone := done }

/-- `co'` is `co` after a fetch of engine `e`, which appends one command to those it has fetched: the one read at the fetch
position, or one recorded as poisoned. Sound banks stay as they are. -/
structure Fetches (co co' : Core) (e : Eng) (f : Fetched) : Prop where
  core : ∃ scp loops next done, co' = { co with scp := scp, seq := co.seq.onEng e (Engine.append f loops next done) }
    ∧ (co.scp.sound → scp = co.scp)
  pos : f.pos = (co.seq.eng e).fetchPos
  word : f.word = (readCommand co (co.seq.eng e) (co.seq.eng e).fetchPos).1 ∨ f.fault = some .poison

/-- A read of a command leaves sound banks as they are. -/
theorem readCommand_of_sound {co : Core} (h : co.scp.sound) (g : Engine) (pos : Nat) : (readCommand co g pos).2.2 = co.scp :=
  Scratch.read_of_sound h _

/-- A core after a fetch of engine `e`, whichever command it appends. -/
def Core.FetchedBy (co : Core) (e : Eng) (co' : Core) : Prop := ∃ f, Fetches co co' e f

theorem Core.FetchedBy.ite {p : Prop} [Decidable p] {co a b : Core} {e : Eng} (h : co.FetchedBy e a) (k : co.FetchedBy e b) :
    co.FetchedBy e (if p then a else b) := by
  split <;> assumption

/-- A fetch appends one command, after one read or, at a loop, after a second of its endloop. -/
theorem fetchOne_fetches (co : Core) (e : Eng) : co.FetchedBy e (fetchOne co e) := by
  unfold fetchOne
  extract_lets g pos stop put loops
  have first (h : co.scp.sound) : (readCommand co g pos).2.2 = co.scp := readCommand_of_sound h g pos
  have appends (scp : Scratch) (h : co.scp.sound → scp = co.scp) (f : Fetched) (l : List Loop) (n : Nat) (halt : Bool)
      (at_ : f.pos = pos) (word : f.word = (readCommand co g pos).1 ∨ f.fault = some .poison) :
      co.FetchedBy e (put { co with scp := scp } f l n halt) := ⟨f, ⟨_, _, _, _, rfl, h⟩, at_, word⟩
  generalize readCommand co g pos = r at first appends ⊢
  obtain ⟨w, bad, scp⟩ := r
  have second (fin : Nat) (h : co.scp.sound) : (readCommand { co with scp := scp } g fin).2.2 = co.scp := by
    have same : scp = co.scp := first h
    rw [same]
    exact readCommand_of_sound h g fin
  have one (k : Option FetchFault) (ls l : List Loop) (n : Nat) (halt : Bool) :=
    appends scp first { word := w, pos := pos, fault := k, loops := ls } l n halt rfl (.inl rfl)
  have two (fin : Nat) (k : Option FetchFault) (ls l : List Loop) (n : Nat) (halt : Bool) :=
    appends _ (second fin) { word := w, pos := pos, fault := k, loops := ls } l n halt rfl (.inl rfl)
  have poisoned := appends scp first { word := 0, pos := pos, fault := some .poison, loops := loops } loops pos true rfl (.inr rfl)
  clear_value put pos loops
  dsimp only at one two poisoned ⊢
  refine .ite poisoned (.ite (one ..) (.ite ?codeSwap (.ite ?loop (.ite ?endloop (one ..)))))
  case codeSwap => exact .ite (one ..) (one ..)
  case loop => exact .ite (one ..) (.ite (two ..) (.ite (two ..) (.ite (two ..) (two ..))))
  case endloop =>
    split
    · exact one ..
    · exact .ite (one ..) (.ite (one ..) (one ..))

section
variable {co co' : Core} {e : Eng} {f : Fetched} (h : Fetches co co' e f)
include h

theorem Fetches.eng (hq : co.seq.Canon) : ∃ loops next done, co'.seq.eng e = Engine.append f loops next done (co.seq.eng e) := by
  obtain ⟨scp, loops, next, done, rfl, -⟩ := h.core
  exact ⟨loops, next, done, Sequencer.eng_onEng_same _ _ _ hq⟩

theorem Fetches.scp (sound : co.scp.sound) : co'.scp = co.scp := by
  obtain ⟨scp, loops, next, done, rfl, same⟩ := h.core
  exact same sound

end

/-- What a request of a fetch makes of its core (R127): one command appended, or two. -/
structure FetchesLine (co co' : Core) (e : Eng) (f : Fetched) (l : List Fetched) : Prop where
  fetched : (co'.seq.eng e).fetched = (co.seq.eng e).fetched ++ f :: l
  most : l.length ≤ 1
  pos : f.pos = (co.seq.eng e).fetchPos
  word : f.word = (readCommand co (co.seq.eng e) (co.seq.eng e).fetchPos).1 ∨ f.fault = some .poison
  begun : (co'.seq.eng e).begun = (co.seq.eng e).begun
  retired : (co'.seq.eng e).retired = (co.seq.eng e).retired
  scp : co.scp.sound → co'.scp = co.scp

theorem Fetches.line {co co' : Core} {e : Eng} {f : Fetched} (h : Fetches co co' e f) (hq : co.seq.Canon) :
    FetchesLine co co' e f [] := by
  obtain ⟨loops, next, done, eng⟩ := h.eng hq
  exact ⟨by rw [eng]; rfl, by decide, h.pos, h.word, by rw [eng]; rfl, by rw [eng]; rfl, h.scp⟩

/-- A second command after a first. -/
theorem Fetches.line_two {co co' co2 : Core} {e : Eng} {f f' : Fetched} (h : Fetches co co' e f) (k : Fetches co' co2 e f')
    (hq : co.seq.Canon) (hq' : co'.seq.Canon) : FetchesLine co co2 e f [f'] := by
  obtain ⟨loops, next, done, eng⟩ := h.eng hq
  obtain ⟨loops', next', done', eng'⟩ := k.eng hq'
  rw [eng] at eng'
  refine ⟨?_, Nat.le_refl 1, h.pos, h.word, by rw [eng']; rfl, by rw [eng']; rfl, fun sound => ?_⟩
  · rw [eng']
    exact List.append_assoc _ [f] [f']
  · have same := h.scp sound
    rw [k.scp (same ▸ sound), same]

/-- The words an engine fetches next. -/
def Core.fetchRuns (co : Core) (e : Eng) : List (Nat × Nat) :=
  [((co.seq.seg (co.seq.eng e).seg).base.toNat + (co.seq.eng e).fetchPos, 8)]

/-- A request of an engine that can fetch, its line clear of other groups' extents and awake, fetches. -/
theorem State.fetchLine_fetches {s : State} (hs : Canon s) (lc : Nat) (e : Eng) (can : canFetch s lc e = true)
    (clear : (s.core lc).scp.blocked (s.eng lc e).curGrp ((s.core lc).fetchRuns e) = false)
    (awake : (s.core lc).scp.asleep (runSections ((s.core lc).fetchRuns e)) = []) :
    ∃ co' f l, s.fetchLine lc e = s.setCore lc co' ∧ FetchesLine (s.core lc) co' e f l := by
  obtain ⟨f, one⟩ := fetchOne_fetches (s.core lc) e
  obtain ⟨f', two⟩ := fetchOne_fetches (fetchOne (s.core lc) e) e
  have canon := fetchOne_canon e (hs.1.2 lc)
  have line : ∃ b : Bool, s.fetchLine lc e =
      s.setCore lc (if b then fetchOne (fetchOne (s.core lc) e) e else fetchOne (s.core lc) e) := by
    unfold State.fetchLine
    rw [can]
    simp only [State.eng, Core.fetchRuns] at clear awake
    simp only [clear, awake]
    exact ⟨_, rfl⟩
  obtain ⟨b, line⟩ := line
  rw [line]
  cases b with
  | true => exact ⟨_, f, [f'], rfl, one.line_two two (seq_canon lc hs) canon.1⟩
  | false => exact ⟨_, f, [], rfl, one.line (seq_canon lc hs)⟩

/-! ### An upset before the fetch (R155) -/

/-- An upset in a bank changes the difference of stored bits on its core, and no other core. -/
theorem State.core_bankHit {s : State} (hs : Canon s) (lc : Nat) (h : BankHit) :
    (∃ flips, (s.bankHit lc h).core lc = { s.core lc with scp := { (s.core lc).scp with flips := flips } })
      ∧ ∀ k, k ≠ lc → (s.bankHit lc h).core k = s.core k := by
  unfold State.bankHit
  split
  · exact ⟨⟨_, State.core_onScp_same _ _ hs⟩, fun k hk => State.core_onScp_other _ _ _ _ hk⟩
  · exact ⟨⟨_, rfl⟩, fun _ _ => rfl⟩

theorem canFetch_bankHit {s : State} (hs : Canon s) (lc : Nat) (e : Eng) (h : BankHit) :
    canFetch (s.bankHit lc h) lc e = canFetch s lc e := by
  unfold State.bankHit
  split
  · simp only [canFetch, engineRuns, State.core_onScp_same _ _ hs]
    rfl
  · rfl

/-- A port without writes has none to retry. -/
theorem State.pumpPort_of_empty {s : State} {lc : Nat} (h : (s.core lc).scp.port = []) : s.pumpPort lc = s := by
  rw [State.pumpPort, h]
  rfl

end Sys2Proof.Machine
end

section
open Sys2Proof Sys2Proof.Machine

/-- Settles O20: an upset leaves all that decides on a request, and the request appends its line's commands. -/
theorem fetchAppendsCommands : Obligations.FetchAppendsCommands := by
  intro lc e hit s hs can port g rs u clear awake
  have same : (∃ flips, u.core lc = { s.core lc with scp := { (s.core lc).scp with flips := flips } })
      ∧ (∀ k, k ≠ lc.val → u.core k = s.core k) ∧ canFetch u lc e = true ∧ Canon u := by
    cases hit with
    | none => exact ⟨⟨_, rfl⟩, fun _ _ => rfl, can, hs⟩
    | some h =>
      obtain ⟨core, cores⟩ := State.core_bankHit hs lc h
      exact ⟨core, cores, (canFetch_bankHit hs lc e h).trans can, State.bankHit_canon _ _ hs⟩
  obtain ⟨⟨flips, core⟩, cores, canU, canon⟩ := same
  have run : exec (.commandFetch lc e hit) s = .next (u.fetchLine lc e) := by
    have pumped : u.pumpPort lc = u := State.pumpPort_of_empty (by rw [core]; exact port)
    show Host.Outcome.next ((if u.mgmt.faultActive then u else u.pumpPort lc).fetchLine lc e) = _
    rw [pumped, ite_self]
  have front : (u.core lc).seq.eng e = g := by
    rw [core]
    rfl
  have runs : (u.core lc).fetchRuns e = rs := by
    rw [core]
    rfl
  obtain ⟨co', f, l, line, h⟩ := State.fetchLine_fetches canon lc e canU (by rw [runs, State.eng, front, core]; exact clear)
    (by rw [runs, core]; exact awake)
  have after : (u.setCore lc co').core lc = co' := State.core_setCore_same _ _ canon
  have eng : (u.setCore lc co').eng lc e = co'.seq.eng e := congrArg (fun co : Core => co.seq.eng e) after
  obtain ⟨fetched, most, pos, word, begun, retired, scp⟩ := h
  rw [front] at fetched pos word begun retired
  refine ⟨_, f, l, run.trans (congrArg _ line), eng ▸ fetched, most, pos, word, eng ▸ begun, eng ▸ retired, fun sound => ?_,
    fun k hk => ?_⟩
  · rw [after, scp sound, core]
  · rw [State.core_setCore_other _ _ _ _ hk, cores k hk]
end

section
/-! SUPPORT. win.open and win.close (R161–R163, R167): the window register each leaves, and what neither touches. -/

namespace Sys2Proof.Machine

/-- The window a win.open opens under a reuse count, as the sequencer's registers have it. -/
def Sequencer.openedWindow (q : Sequencer) (c : Ctx) (reuse : Nat) : Window :=
  { isOpen := true
    seg := fld c.w 76 3
    off := fld c.w 96 23
    len := fld c.w 128 23
    srcset := fld c.w 160 8
    gen := winGen c
    reuse := reuse
    ever := true
    base := (q.seg (fld c.w 76 3)).base.toNat + fld c.w 96 23
    durable := q.durable (fld c.w 76 3)
    src := Tbl.get {} q.srcsets (fld c.w 160 8)
    slotWords := (c.outs[0]?.map (fun n => (q.queue n).slotWords)).getD 0
    queue := c.outs[0]? }

/-- The sequencer once a win.open has opened its window and attached its queue. -/
def Sequencer.openWin (c : Ctx) (reuse : Nat) (q : Sequencer) : Sequencer :=
  let opened := q.onWin (grpOf c.w) (fun _ => q.openedWindow c reuse)
  match c.outs[0]? with
  | none => opened
  | some qn => opened.onQueue qn (fun x => { x with win := some (grpOf c.w) })

theorem openWindow_eq (c : Ctx) (s : State) :
    openWindow c s = (s.onSeq c.lc (Sequencer.openWin c ((reuseFor s c).getD 0))).retireFront c c.f.loops := rfl

theorem Sequencer.openWin_canon {q : Sequencer} (c : Ctx) (reuse : Nat) (h : q.Canon) : (q.openWin c reuse).Canon := by
  unfold Sequencer.openWin
  split
  · exact Sequencer.onWin_keeps _ _ _ h
  · exact Sequencer.onQueue_keeps _ _ _ (Sequencer.onWin_keeps _ _ _ h)

theorem Sequencer.win_openWin {q : Sequencer} (c : Ctx) (reuse : Nat) (h : q.Canon) :
    (q.openWin c reuse).win (grpOf c.w) = q.openedWindow c reuse := by
  unfold Sequencer.openWin
  split <;> simp [h]

/-- Opening a window leaves what a retirement meets of an engine. -/
theorem Sequencer.openWin_stop (q : Sequencer) (c : Ctx) (reuse : Nat) (e : Eng) :
    (q.openWin c reuse).eng e = q.eng e ∧ ∀ g, (q.openWin c reuse).noStop e g = q.noStop e g := by
  unfold Sequencer.openWin
  split <;> exact ⟨rfl, fun _ => rfl⟩

theorem Sequencer.win_closeWindow {q : Sequencer} {n : BitVec 12} (now : Nat) (h : q.Canon) (isOpen : (q.win n).isOpen = true) :
    (q.closeWindow n now).win n =
      { q.win n with isOpen := false, closedAt := now, queue := none, sender := none, shapes := [] } := by
  simp only [Sequencer.closeWindow, isOpen, Bool.not_true, Bool.false_eq_true, if_false]
  split <;> simp [h]

/-- Closing a window leaves what a retirement meets of an engine. -/
theorem Sequencer.closeWindow_stop (q : Sequencer) (n : BitVec 12) (now : Nat) (e : Eng) :
    (q.closeWindow n now).eng e = q.eng e ∧ ∀ g, (q.closeWindow n now).noStop e g = q.noStop e g := by
  unfold Sequencer.closeWindow
  dsimp only
  split
  · exact ⟨rfl, fun _ => rfl⟩
  · split <;> exact ⟨rfl, fun _ => rfl⟩

/-! ### A command whose effect is a change of its core's sequencer and its retirement -/

section
variable {s : State} {lc : Nat} {e : Eng} {c : Ctx} {f : Sequencer → Sequencer} (hs : Canon s)
  (keeps : ∀ q : Sequencer, q.Canon → (f q).Canon)
  (stop : ∀ q : Sequencer, (f q).eng e = q.eng e ∧ ∀ g, (f q).noStop e g = q.noStop e g)
include hs keeps stop

/-- Where such a change leaves what a retirement meets, the retirement changes the engine only. -/
theorem State.retireFront_onSeq {r : Row} {op : Nat} (h : Begins r op s lc e c) (go : goesOn s lc e = true) :
    (s.onSeq lc f).retireFront c c.f.loops = (s.onSeq lc f).onEng lc e (Engine.retire c.f.loops) := by
  obtain rfl := h.lc_eq
  obtain rfl := h.eng_eq
  refine State.retireFront_goesOn _ _ _ (State.onSeq_canon _ _ hs keeps) ?_
  rw [goesOn_onSeq _ _ _ hs fun q => ⟨by rw [(stop q).1, (stop q).2], by rw [(stop q).1]⟩, go]

theorem State.eng_onSeq_retire (loops : List Loop) :
    ((s.onSeq lc f).onEng lc e (Engine.retire loops)).eng lc e = (s.eng lc e).retire loops := by
  rw [State.eng_onEng _ _ _ (State.onSeq_canon _ _ hs keeps), State.eng, State.core_onSeq_same _ _ hs, (stop _).1]
  rfl

end

section
variable {s : State} (hs : Canon s) {f : Sequencer → Sequencer} (keeps : ∀ q : Sequencer, q.Canon → (f q).Canon) (lc : Nat)
  (e : Eng) (g : Engine → Engine)
include hs keeps

theorem State.core_onSeq_onEng :
    ((s.onSeq lc f).onEng lc e g).core lc = { s.core lc with seq := (f (s.core lc).seq).onEng e g } := by
  rw [State.core_onEng_same _ _ _ (State.onSeq_canon _ _ hs keeps), State.core_onSeq_same _ _ hs]

theorem State.win_onSeq_onEng (n : BitVec 12) :
    (((s.onSeq lc f).onEng lc e g).core lc).seq.win n = (f (s.core lc).seq).win n := by
  rw [State.core_onSeq_onEng hs keeps]
  rfl

end

theorem State.core_onSeq_onEng_other (s : State) (f : Sequencer → Sequencer) (lc k : Nat) (e : Eng) (g : Engine → Engine)
    (hk : k ≠ lc) : ((s.onSeq lc f).onEng lc e g).core k = s.core k := by
  rw [State.core_onEng_other _ _ _ _ _ hk, State.core_onSeq_other _ _ _ _ hk]

section
variable {s : State} {lc : Fin 64} {c : Ctx} (hs : Canon s) (go : goesOn s lc .s = true)
include hs go

/-- A win.open that may begin opens its window and retires. -/
theorem runCmd_winOpen_begun (h : Begins winOpenRow 0x18 s lc .s c) : runCmd winOpenRow 0x18 openWindow lc .s s =
    .next ((s.onSeq lc (Sequencer.openWin c ((reuseFor s c).getD 0))).onEng lc .s (Engine.retire c.f.loops)) := by
  rw [runCmd_go _ h.go, openWindow_eq, h.lc_eq, State.retireFront_onSeq hs (fun _ k => Sequencer.openWin_canon c _ k)
    (fun q => q.openWin_stop c _ _) h go]

/-- A win.close that may begin closes its window and retires. -/
theorem exec_winClose_begun (h : Begins winCloseRow 0x19 s lc .s c) : exec (.winClose lc) s =
    .next ((s.onSeq lc (fun q => q.closeWindow (grpOf c.w) s.clk.now)).onEng lc .s (Engine.retire c.f.loops)) := by
  show execWinClose lc s = _
  rw [execWinClose, runCmd_go _ h.go, h.lc_eq, State.retireFront_onSeq hs
    (fun q k => Sequencer.closeWindow_canon _ _ k) (fun q => q.closeWindow_stop _ _ _) h go]

end

end Sys2Proof.Machine
end

section
open Sys2Proof Sys2Proof.Machine

/-- Settles O11: the state each command comes to is its lemma above, of which the window register and the engine are read. -/
theorem windowsOpenAndClose : Obligations.WindowsOpenAndClose := by
  intro lc s c hs go n
  refine ⟨fun h => ?opens, fun h isOpen => ?closes⟩
  case opens =>
    have keeps (q : Sequencer) (k : q.Canon) := Sequencer.openWin_canon c ((reuseFor s c).getD 0) k
    refine ⟨_, runCmd_winOpen_begun hs go h, ?_, ?_, ?_, fun k hk => State.core_onSeq_onEng_other _ _ _ _ _ _ hk⟩
    · rw [(State.win_onSeq_onEng hs keeps lc .s _ n).trans (Sequencer.win_openWin c _ (seq_canon _ hs))]
      exact ⟨rfl, rfl, rfl, rfl, rfl, rfl, rfl, rfl⟩
    · rw [State.eng_onSeq_retire hs keeps fun q => q.openWin_stop c _ _]
      rfl
    · rw [State.core_onSeq_onEng hs keeps]
  case closes =>
    have keeps (q : Sequencer) (k : q.Canon) := Sequencer.closeWindow_canon (grpOf c.w) s.clk.now k
    refine ⟨_, exec_winClose_begun hs go h, ?_, ?_, ?_, fun k hk => State.core_onSeq_onEng_other _ _ _ _ _ _ hk⟩
    · rw [(State.win_onSeq_onEng hs keeps lc .s _ n).trans (Sequencer.win_closeWindow _ (seq_canon _ hs) isOpen)]
      exact ⟨rfl, rfl, rfl, rfl, rfl⟩
    · rw [State.eng_onSeq_retire hs keeps fun q => q.closeWindow_stop _ _ _]
      rfl
    · rw [State.core_onSeq_onEng hs keeps]
end

section
/-! SUPPORT. Folds that write a range of a table or of a memory, and a table cut by its keys. -/

namespace Sys2Proof

/-- A table cut by its keys reads as it did at those kept, and as the default elsewhere. -/
theorem Tbl.get_filter_key {α : Type} (d : α) (p : Nat → Bool) (t : Tbl α) (k : Nat) :
    Tbl.get d (t.filter (fun x => p x.1)) k = if p k then Tbl.get d t k else d := by
  induction t with
  | nil => simp
  | cons x r ih =>
    by_cases hx : x.1 = k
    · subst hx
      cases hp : p x.1 <;> simp [Tbl.get, hp, ih]
    · cases hp : p x.1 <;> simp [Tbl.get, hp, ih, hx]

namespace Machine

theorem upto_succ {α : Type} (f : α → Nat → α) (a : α) (n : Nat) : upto f a (n + 1) = f (upto f a n) n := by
  simp [upto, List.range_succ]

section
variable {α : Type} [DecidableEq α] {d : α} {t : Tbl α} (h : Tbl.wf d t = true) (a n : Nat) (f : α → Nat → α)
include h

theorem upto_upd_wf : Tbl.wf d (upto (fun t i => Tbl.upd d t (a + i) (fun v => f v i)) t n) = true := by
  induction n with
  | zero => exact h
  | succ n ih =>
    rw [upto_succ]
    exact Tbl.upd_wf _ _ _ _ ih

/-- A fold that changes each entry of a range once changes those entries and no other. -/
theorem get_upto_upd (k : Nat) : Tbl.get d (upto (fun t i => Tbl.upd d t (a + i) (fun v => f v i)) t n) k =
    if a ≤ k ∧ k < a + n then f (Tbl.get d t k) (k - a) else Tbl.get d t k := by
  induction n with
  | zero => rw [if_neg (by omega)]; rfl
  | succ n ih =>
    rw [upto_succ]
    by_cases last : k = a + n
    · subst last
      rw [Tbl.get_upd_same _ _ _ _ (upto_upd_wf h a n f), ih, if_neg (by omega), if_pos (by omega), Nat.add_sub_cancel_left]
    · rw [Tbl.get_upd_other _ _ _ _ _ last, ih]
      exact if_congr (by omega) rfl rfl

end

end Machine

end Sys2Proof
end

section
/-! SUPPORT. The banks on their own (R155, R158, R170–R172): a correction written back, and a section's change of state. -/

namespace Sys2Proof.Machine

theorem fld_zero {n : Nat} (lo len : Nat) : fld (0 : BitVec n) lo len = 0 := by
  simp [fld]

/-- Byte `i` of a code word changed by its part of a difference. -/
def flipByte (r : BitVec 256) (v : Byte) (i : Nat) : Byte := v ^^^ BitVec.ofNat 8 (fld r (8 * i) 8)

section
variable {m : Scratch} (h : m.Canon)
include h

/-- The bytes of a code word change by a difference, and no others. -/
theorem Scratch.read_flipBytes (cw : Nat) (r : BitVec 256) (a : Nat) : Memory.read (m.flipBytes cw r).bytes a =
    if a / 32 = cw then flipByte r (Memory.read m.bytes a) (a % 32) else Memory.read m.bytes a := by
  obtain ⟨hbytes, -⟩ := h
  by_cases zero : r = 0
  · rw [Scratch.flipBytes, if_pos zero, zero, flipByte, fld_zero, BitVec.xor_zero, ite_self]
  · have step : (fun (t : Memory) i => Memory.write t (32 * cw + i) (flipByte r (Memory.read t (32 * cw + i)) i)) =
        fun t i => Tbl.upd Memory.unlisted t (32 * cw + i) (fun v => flipByte r v i) := rfl
    have read := get_upto_upd (d := Memory.unlisted) hbytes (32 * cw) 32 (flipByte r) a
    simp only [flipByte] at step read ⊢
    rw [Scratch.flipBytes, if_neg zero, step, Memory.read, read]
    by_cases here : a / 32 = cw
    · rw [if_pos here, if_pos (by omega), show a - 32 * cw = a % 32 by omega]
      rfl
    · rw [if_neg here, if_neg (by omega)]
      rfl

omit h in
/-- A change of bytes changes nothing else. -/
theorem Scratch.flipBytes_eq (cw : Nat) (r : BitVec 256) : m.flipBytes cw r = { m with bytes := (m.flipBytes cw r).bytes } := by
  by_cases zero : r = 0
  · rw [Scratch.flipBytes, if_pos zero]
  · rw [Scratch.flipBytes, if_neg zero]

omit h in
/-- A read of a code word with one pending correction delivers the word corrected. -/
theorem Scratch.residue_of_pending {cw : Nat} {r : BitVec 256} (pending : (cw, r) ∈ m.wbPend)
    (one : ∀ r', (cw, r') ∈ m.wbPend → r' = r) : m.residue cw = r := by
  obtain ⟨x, hx⟩ : ∃ x, m.wbPend.find? (fun x => x.1 == cw) = some x :=
    Option.isSome_iff_exists.1 (List.find?_isSome.2 ⟨_, pending, beq_self_eq_true cw⟩)
  have key : x.1 = cw := by simpa using List.find?_some hx
  rw [Scratch.residue, hx]
  exact one x.2 (key ▸ List.mem_of_find?_eq_some hx)

/-- A correction written back: the code word good again under its tag and mark, its bytes corrected. -/
theorem Scratch.restore_word (cw : Nat) (poison : Bool) : let n := m.restore cw poison
    Tbl.get 0 n.flips cw = 0 ∧ n.wbPend = m.wbPend.filter (fun x => x.1 != cw)
      ∧ Tbl.get false n.poison cw = poison ∧ Tbl.get false n.durable cw = m.tag cw := by
  obtain ⟨-, -, hpoison, hdurable, hflips, -⟩ := h
  rw [Scratch.restore, Scratch.flipBytes_eq]
  exact ⟨Tbl.get_set_same _ _ _ _ hflips, rfl, Tbl.get_set_same _ _ _ _ hpoison, Tbl.get_set_same _ _ _ _ hdurable⟩

omit h in
/-- A section that loses its contents reads 0. -/
theorem Scratch.read_lose (sec a : Nat) : Memory.read (m.lose sec).bytes a =
    if a / 4194304 = sec then 0 else Memory.read m.bytes a := by
  have cut : Memory.read (m.lose sec).bytes a = if !cwIn sec (a / 32) then Memory.read m.bytes a else 0 :=
    Tbl.get_filter_key Memory.unlisted (fun a => !cwIn sec (a / 32)) m.bytes a
  rw [cut, cwIn, Nat.div_div_eq_div_mul]
  by_cases here : a / 4194304 = sec <;> simp [here]

/-- Every code word of a section that wakes from Off is poisoned. -/
theorem Scratch.poison_woken (sec : Nat) (off : Tbl.get 0 m.sect sec = 2) {cw : Nat} (lo : 131072 * sec ≤ cw)
    (hi : cw < 131072 * (sec + 1)) : Tbl.get false (m.woken sec).poison cw = true := by
  obtain ⟨-, -, hpoison, -⟩ := h
  simp only [Scratch.woken, off, beq_self_eq_true, if_true]
  refine (get_upto_upd hpoison (131072 * sec) 131072 (fun _ _ => true) cw).trans (if_pos ⟨lo, ?_⟩)
  omega

/-- A section's wake begins. -/
theorem Scratch.waking_wake (sec : Nat) : Tbl.get false (m.wake [sec]).waking sec = true := by
  obtain ⟨-, -, -, -, -, -, -, hwaking⟩ := h
  exact Tbl.get_set_same _ _ _ _ hwaking

/-- A woken section is On. -/
theorem Scratch.woken_on (sec : Nat) :
    Tbl.get 0 (m.woken sec).sect sec = 0 ∧ Tbl.get false (m.woken sec).waking sec = false := by
  obtain ⟨-, -, -, -, -, hsect, -, hwaking⟩ := h
  unfold Scratch.woken
  dsimp only
  split <;> exact ⟨Tbl.get_set_same _ _ _ _ hsect, Tbl.get_set_same _ _ _ _ hwaking⟩

end

/-- A section that wakes changes no byte; from Retention no mark either. -/
theorem Scratch.woken_keeps (m : Scratch) (sec : Nat) : (m.woken sec).bytes = m.bytes ∧ (m.woken sec).port = m.port
    ∧ (Tbl.get 0 m.sect sec ≠ 2 → (m.woken sec).poison = m.poison) := by
  unfold Scratch.woken
  dsimp only
  split
  case isTrue off => exact ⟨rfl, rfl, fun on => absurd (eq_of_beq off) on⟩
  case isFalse => exact ⟨rfl, rfl, fun _ => rfl⟩

/-- A section enters a state; entering Off it loses its contents (R170, R171). -/
def Scratch.enter (sec t : Nat) (m : Scratch) : Scratch :=
  let m := { m with sect := Tbl.set 0 m.sect sec t, sectReq := Tbl.set none m.sectReq sec none }
  if t = 2 then m.lose sec else m

theorem Scratch.enter_sect {m : Scratch} (h : m.Canon) (sec t : Nat) :
    Tbl.get 0 (m.enter sec t).sect sec = t ∧ Tbl.get none (m.enter sec t).sectReq sec = none := by
  obtain ⟨-, -, -, -, -, hsect, hreq, -⟩ := h
  unfold Scratch.enter
  dsimp only
  split <;> exact ⟨Tbl.get_set_same _ _ _ _ hsect, Tbl.get_set_same _ _ _ _ hreq⟩

/-- Only the bytes of a section that goes Off are lost. -/
theorem Scratch.read_enter (m : Scratch) (sec t a : Nat) : Memory.read (m.enter sec t).bytes a =
    if t = 2 ∧ a / 4194304 = sec then 0 else Memory.read m.bytes a := by
  unfold Scratch.enter
  by_cases off : t = 2
  · simp [off, Scratch.read_lose]
  · simp [off]

section
variable {s : State} (lc : Fin 64)

/-- ECC_WRITEBACK of a pending correction restores its code word. -/
theorem exec_eccWriteback_pending (cw : Fin 786432) {r : BitVec 256} (pending : (cw.val, r) ∈ (s.core lc).scp.wbPend) :
    exec (.eccWriteback lc cw) s = .next (s.onScp lc (fun m => m.restore cw (m.poisoned cw))) := by
  have waits : (s.core lc).scp.wbPend.any (fun x => x.1 == cw.val) = true :=
    List.any_eq_true.2 ⟨_, pending, beq_self_eq_true cw.val⟩
  exact if_pos waits

/-- SECTION_POWER_ENTRY with nothing in flight, out of Retention. -/
theorem exec_sectionPowerEntry_enters (sec : Fin 6) {r : Nat} (req : Tbl.get none (s.core lc).scp.sectReq sec = some r)
    (quiet : s.sectionInFlight lc sec = false) (awake : (s.dom (s.core lc).phys.toNat).st ≠ .retention) :
    exec (.sectionPowerEntry lc sec) s = .next (s.onScp lc (Scratch.enter sec r)) := by
  show execSectionPowerEntry lc sec s = _
  rw [execSectionPowerEntry, req]
  exact if_neg (by simp [quiet, awake])

/-- SECTION_WAKE_DONE with nothing in the port. -/
theorem exec_sectionWakeDone_wakes (hs : Canon s) (sec : Fin 6) (waking : Tbl.get false (s.core lc).scp.waking sec = true)
    (port : (s.core lc).scp.port = []) :
    exec (.sectionWakeDone lc sec) s = .next (s.onScp lc (fun m => m.woken sec)) := by
  have empty : ((s.onScp lc (fun m => m.woken sec)).core lc).scp.port = [] := by
    rw [State.core_onScp_same _ _ hs]
    exact (Scratch.woken_keeps _ _).2.1.trans port
  show execSectionWakeDone lc sec s = _
  rw [execSectionWakeDone, waking, State.pumpPort_of_empty empty]
  rfl

end

end Sys2Proof.Machine
end

section
open Sys2Proof Sys2Proof.Machine

/-- Settles O25: each event is a change of its core's scratchpad, of which the lemmas above say what it leaves. -/
theorem sectionsSleepAndWake : Obligations.SectionsSleepAndWake := by
  intro lc s hs
  have canon := scp_canon lc hs
  have core (f : Scratch → Scratch) : (s.onScp lc f).core lc = { s.core lc with scp := f (s.core lc).scp } :=
    State.core_onScp_same _ _ hs
  refine ⟨fun cw r pending one => ?writeback, fun sec => ⟨fun r req quiet awake => ?entry, fun asleep => ?wake,
    fun waking port => ?done⟩⟩
  case writeback =>
    have bytes (a : Nat) := Scratch.read_flipBytes canon cw r a
    obtain ⟨flips, pend, poison, tag⟩ := Scratch.restore_word canon cw ((s.core lc).scp.poisoned cw)
    refine ⟨_, exec_eccWriteback_pending lc cw pending, ?_⟩
    rw [core]
    refine ⟨flips, pend, poison, tag, fun i hi => ?_, fun a ha => ?_, rfl⟩
    · show Memory.read (Scratch.flipBytes _ _ (Scratch.residue _ _)).bytes _ = _
      rw [Scratch.residue_of_pending pending one, bytes, if_pos (by omega), show (32 * cw.val + i) % 32 = i by omega]
      rfl
    · show Memory.read (Scratch.flipBytes _ _ (Scratch.residue _ _)).bytes _ = _
      rw [Scratch.residue_of_pending pending one, bytes, if_neg ha]
  case entry =>
    obtain ⟨sect, request⟩ := Scratch.enter_sect canon sec r
    refine ⟨_, exec_sectionPowerEntry_enters lc sec req quiet awake, ?_⟩
    rw [core]
    refine ⟨sect, request, fun a other => ?_, fun a off lo hi => ?_, rfl⟩
    · exact (Scratch.read_enter _ _ _ _).trans (if_neg (by omega))
    · exact (Scratch.read_enter _ _ _ _).trans (if_pos (by omega))
  case wake =>
    refine ⟨_, if_neg asleep, ?_⟩
    rw [core]
    exact ⟨Scratch.waking_wake canon sec, rfl, rfl⟩
  case done =>
    obtain ⟨on, wakingOver⟩ := Scratch.woken_on canon sec
    obtain ⟨bytes, -, poison⟩ := Scratch.woken_keeps (s.core lc).scp sec
    refine ⟨_, exec_sectionWakeDone_wakes lc hs sec waking port, ?_⟩
    rw [core]
    exact ⟨on, wakingOver, fun cw off lo hi => Scratch.poison_woken canon sec off lo hi, poison, bytes, rfl⟩
end

section
/-! SUPPORT. CHAIN_CONFIRM of a running sum whose inputs lie in a queue with two entries of one identity. -/

namespace Sys2Proof.Machine

/-- A running sum to confirm: both its inputs named by one identity of queue 2, its output in queue 3. -/
def bTwinSum : Begun := { passed := true, ins := [(2, 0, false), (2, 0, false)], outs := [(3, 0)] }

/-- `sSum` with that sum begun. Queue 2 holds the inputs' entry, and behind it another of its identity, gathered, with a hold on
the output's entry. -/
def sTwinSum : State :=
  ((sSum.onQueue 0 2 (fun _ => { entries :=
      [{ st := .held, holds := 1 }, { st := .ready, holds := 1, gather := some { held := [(3, 0)] } }] })).onQueue 0 3
    (fun _ => { entries := [{ st := .reserved, holds := 1 }], made := 1 })).onEng 0 .q (fun g => { g with begun := [bTwinSum] })

theorem sTwinSum_canon : Canon sTwinSum := canonB_sound _ (by decide +kernel)

/-- No input's entry, as its queue gives it, is gathered, and none lies in the output's queue. -/
theorem sTwinSum_ins_apart (o : Nat × Nat) (ho : o ∈ bTwinSum.outs) (x : Nat × Nat × Bool) (hx : x ∈ bTwinSum.ins) :
    x.1 ≠ o.1 ∧ ((sTwinSum.core 0).entry x.1 x.2.1).gather = none := by
  have apart : bTwinSum.outs.all (fun o => bTwinSum.ins.all (fun x => x.1 != o.1
      && ((sTwinSum.core 0).entry x.1 x.2.1).gather == none)) = true := by decide +kernel
  simp only [List.all_eq_true, Bool.and_eq_true, bne_iff_ne, beq_iff_eq] at apart
  exact apart o ho x hx

/-- With the first entry of identity 0 released, the second's hold on the output is released in its place, and the output's
entry loses a hold as it turns Ready. -/
theorem sTwinSum_loses_hold :
    (((after (.chainConfirm 0) sTwinSum).core 0).seq.queue 3).entries = [{ st := .ready, holds := 0 }] := by decide +kernel

end Sys2Proof.Machine
end

section
open Sys2Proof Sys2Proof.Machine

/-- Refutes O23 in its clause on CHAIN_CONFIRM: where both inputs of the running sum are named by one identity that two entries
of a queue carry, the second entry takes the place of the first once that is released, so that its own hold, here on the sum's
output, is released too; the output's entry stands Ready with a hold fewer, and not as the statement has it. The statement does
not ask that a queue's entries have identities of their own (`Queue.idsOk`), as O18 does. -/
theorem not_windowsTakeWrites : ¬ Obligations.WindowsTakeWrites := by
  intro h
  obtain ⟨-, -, confirm⟩ := h 0 sTwinSum sTwinSum_canon
  obtain ⟨t, run, -, ready⟩ := confirm bTwinSum (by decide +kernel) (by decide +kernel) rfl (by decide +kernel) rfl rfl rfl
    (by decide +kernel) (by decide +kernel) sTwinSum_ins_apart
  have after_eq : after (.chainConfirm 0) sTwinSum = t := by
    rw [after, run]
  have mem : ({ st := .ready, holds := 1 } : QEntry) ∈ ((t.core 0).seq.queue 3).entries :=
    ready (3, 0) (by decide +kernel) { st := .reserved, holds := 1 } (by decide +kernel) rfl
  rw [← after_eq, sTwinSum_loses_hold] at mem
  exact absurd mem (by decide)
end

section
/-! SUPPORT. A packet's arrival (R237, R238, R242): what recording it, and settling what it completes, leave unchanged. -/

namespace Sys2Proof.Machine

section
variable {s : State} (hs : Canon s)
include hs

/-- A change of a flow that leaves its waiting control packets leaves every flow's. -/
theorem State.ctl_onFlow {g : Flow → Flow} (keeps : ∀ f, (g f).ctl = f.ctl) (n i : Nat) :
    ((s.onFlow n g).flow i).ctl = (s.flow i).ctl := by
  by_cases here : i = n
  · rw [here, State.flow_onFlow_same _ _ hs, keeps]
  · rw [State.flow_onFlow_other _ _ _ _ here]

theorem State.ctl_wire (fi : Nat) (psn : BitVec 32) (bytes : Nat → List Byte) (i : Nat) :
    ((s.wire fi psn bytes).flow i).ctl = (s.flow i).ctl := by
  unfold State.wire
  dsimp only
  split
  · rfl
  · split
    · rfl
    · refine State.ctl_onFlow (State.onPort_canon _ _ hs) ?_ _ _
      exact fun _ => rfl

theorem State.ctl_sendAck (fi : Nat) (nak : Option (BitVec 8 × BitVec 32)) (i : Nat) :
    ((s.sendAck fi nak).flow i).ctl = (s.flow i).ctl := by
  unfold State.sendAck
  dsimp only
  split
  · rfl
  · refine (State.ctl_onFlow (State.sendPlain_canon _ _ _ _ _ hs) ?_ _ _).trans (State.ctl_wire hs _ _ _ _)
    exact fun _ => rfl

theorem State.ctl_ackNote (h : PktHdr) (atOnce : Bool) (nak : Option (BitVec 8 × BitVec 32)) (i : Nat) :
    ((s.ackNote h atOnce nak).flow i).ctl = (s.flow i).ctl := by
  unfold State.ackNote
  dsimp only
  split
  · refine (State.ctl_sendAck (State.onFlow_keeps _ _ hs) _ _ _).trans (State.ctl_onFlow hs ?_ _ _)
    exact fun _ => rfl
  · refine State.ctl_onFlow hs ?_ _ _
    exact fun _ => rfl

/-- An arrival recorded leaves every flow's waiting control packets. -/
theorem State.ctl_recordArrival (h : PktHdr) (nak : Option (BitVec 8)) (i : Nat) :
    ((s.recordArrival h nak).flow i).ctl = (s.flow i).ctl := by
  obtain ⟨cum, sack, hole, n, recorded⟩ : ∃ cum sack hole, ∃ n : Option (BitVec 8 × BitVec 32), s.recordArrival h nak =
      (s.onFlow h.flow.toNat (fun f => { f with cum := cum, sack := sack, nak := if n.isSome then n else f.nak })).ackNote h hole
        n := ⟨_, _, _, _, rfl⟩
  rw [recorded, State.ctl_ackNote (State.onFlow_keeps _ _ hs)]
  refine State.ctl_onFlow hs ?_ _ _
  exact fun _ => rfl

/-- A change of a core's sequencer leaves every scratchpad. -/
theorem State.scp_onSeq (lc : Nat) (f : Sequencer → Sequencer) (k : Nat) :
    ((s.onSeq lc f).core k).scp = (s.core k).scp := by
  by_cases here : k = lc
  · rw [here, State.core_onSeq_same _ _ hs]
  · rw [State.core_onSeq_other _ _ _ _ here]

/-- Raising watermarks leaves every scratchpad and every flow. -/
theorem State.raiseAll_keeps (xs : List RxXfer) :
    (s.raiseAll xs).fab = s.fab ∧ ∀ k, ((s.raiseAll xs).core k).scp = (s.core k).scp := by
  refine (foldl_keeps (P := fun u => Canon u ∧ u.fab = s.fab ∧ ∀ k, (u.core k).scp = (s.core k).scp) _ xs
    ⟨hs, rfl, fun _ => rfl⟩ fun u x ⟨hu, fab, scp⟩ => ?_).2
  exact ⟨State.raiseMark_canon _ _ _ _ hu, fab, fun k => (State.scp_onSeq hu _ _ k).trans (scp k)⟩

/-- Settling a flow's transfers leaves every scratchpad and every flow's waiting control packets. -/
theorem State.settleFlow_keeps (fi : Nat) :
    (∀ i, ((s.settleFlow fi).flow i).ctl = (s.flow i).ctl) ∧ ∀ k, ((s.settleFlow fi).core k).scp = (s.core k).scp := by
  obtain ⟨up, stay, settled⟩ : ∃ up stay, s.settleFlow fi = (s.onFlow fi (fun f => { f with rx := stay })).raiseAll up :=
    ⟨_, _, rfl⟩
  obtain ⟨fab, scp⟩ := State.raiseAll_keeps (State.onFlow_keeps fi (fun f => { f with rx := stay }) hs) up
  rw [settled]
  refine ⟨fun i => ?_, scp⟩
  rw [State.flow, fab]
  exact State.ctl_onFlow hs (g := fun f => { f with rx := stay }) (fun _ => rfl) fi i

omit hs in
theorem State.runCtl_of_no_ctl {fi : Nat} (noCtl : (s.flow fi).ctl = []) (n : Nat) : s.runCtl fi n = s := by
  cases n with
  | zero => rfl
  | succ n => rw [State.runCtl, noCtl]

/-- With no control packet waiting, what follows an arrival is the settling of its flow and the release of its frame. -/
theorem State.afterArrival_of_no_ctl {h : PktHdr} (noCtl : (s.flow h.flow.toNat).ctl = []) : s.afterArrival h =
    ((s.settleFlow h.flow.toNat).settleFlow h.flow.toNat).bufRelease h := by
  rw [State.afterArrival, State.runCtl_of_no_ctl (((State.settleFlow_keeps hs _).1 _).trans noCtl)]

/-- A packet of a flow with no control packet waiting, placed and recorded: memory and every scratchpad stand as its placement
left them. -/
theorem State.arrival_keeps {h : PktHdr} (noCtl : (s.flow h.flow.toNat).ctl = []) (nak : Option (BitVec 8)) :
    ((s.recordArrival h nak).afterArrival h).mem = s.mem
      ∧ ∀ k, (((s.recordArrival h nak).afterArrival h).core k).scp = (s.core k).scp := by
  let u := s.recordArrival h nak
  let v := (u.settleFlow h.flow.toNat).settleFlow h.flow.toNat
  have canon : Canon u := State.recordArrival_canon _ _ hs
  have recorded : Within [.ports, .fab] s u := State.recordArrival_within _ _ Within.rfl (by decide) (by decide)
  have settled : Within [.cores, .fab] u v :=
    State.settleFlow_within _ (State.settleFlow_within _ Within.rfl (by decide) (by decide)) (by decide) (by decide)
  have released : Within [.ports] v (v.bufRelease h) := State.bufRelease_within _ Within.rfl (by decide)
  have arrived : u.afterArrival h = v.bufRelease h :=
    State.afterArrival_of_no_ctl canon ((State.ctl_recordArrival hs _ _ _).trans noCtl)
  have mem : (v.bufRelease h).mem = s.mem :=
    (released .mem (by decide)).trans ((settled .mem (by decide)).trans (recorded .mem (by decide)))
  have scp (k : Nat) : (v.core k).scp = (s.core k).scp := by
    rw [(State.settleFlow_keeps (State.settleFlow_canon _ canon) _).2, (State.settleFlow_keeps canon _).2, State.core, State.core,
      recorded .cores (by decide)]
  refine arrived ▸ ⟨mem, fun k => ?_⟩
  rw [State.core, released .cores (by decide)]
  exact scp k

end

end Sys2Proof.Machine
end

section
/-! SUPPORT. Ungrouped writes and in-place adds through the slices (R88, R181, R197): what they can change. -/

namespace Sys2Proof.Machine

theorem State.writeLine_ungrouped_within (s : State) (a : Nat) (mbs : List MB) :
    Within [.mem, .flash] s (s.writeLine a mbs none) :=
  State.putLine_within _ (State.allocLine_within _ (State.settle_within _ Within.rfl (by decide) (by decide)) (by decide)
    (by decide)) (by decide)

/-- An ungrouped write changes the device's memory, and the log in flash, at most. -/
theorem State.writeMem_ungrouped_within (s : State) (a : Nat) (mbs : List MB) : Within [.mem, .flash] s (s.writeMem a mbs none) :=
  within_foldl _ _ Within.rfl fun u _ h => h.trans (u.writeLine_ungrouped_within _ _)

/-- An ungrouped in-place add changes the device's memory, and the log in flash, at most. -/
theorem State.addMem_ungrouped_within (s : State) (a : Nat) (bf16 : Bool) (data : List Byte) (poison : Bool) (u : Upset) :
    Within [.mem, .flash] s (s.addMem a bf16 data poison none u) := by
  have settled : Within [.mem, .flash] s (s.settle (a / 128)) := State.settle_within _ Within.rfl (by decide) (by decide)
  refine State.stackAdd_within _ _ _ _ _ ?_ (by decide) (by decide)
  split
  · exact State.dropLine_within _ (State.writeBack_within _ settled (by decide) (by decide)) (by decide)
  · exact settled

end Sys2Proof.Machine
end

section
/-! SUPPORT. A write at its window (R164): the words it covers, and its placement where nothing holds it. -/

namespace Sys2Proof.Machine

theorem PortWrite.run_at (durable : Bool) (a : Nat) (data : List MB) (src : PortSrc) :
    PortWrite.run { durable := durable, addr := 4 * a, data := data, src := src } = (a, ceilDiv data.length 4) :=
  congrArg (·, _) (Nat.mul_div_cancel_left a (by decide))

/-- Nothing holds a write at an empty port that meets no pending extent and no section that is not On (R169, R172). -/
theorem Core.portHolds_of_free {co : Core} {r : Nat × Nat} (port : co.scp.port = []) (free : co.scp.blocked none [r] = false)
    (awake : co.scp.asleep (runSections [r]) = []) : co.portHolds co.scp.port r = false := by
  simp [Core.portHolds, port, free, awake]

/-- The first word a window write covers. -/
def State.windowWord (s : State) (lc : Nat) (w : WinHdr) : Nat := ((s.core lc).seq.win w.window).base + w.woff.toNat

/-- The words a window write of some bytes covers. -/
def State.windowRun (s : State) (lc : Nat) (w : WinHdr) (len : Nat) : Nat × Nat := (s.windowWord lc w, ceilDiv len 4)

/-- Nothing stands in the way of a window write: the port is empty, its words meet no pending extent, no section that is not On
and no active code. -/
structure State.WindowFree (s : State) (lc : Nat) (w : WinHdr) (len : Nat) : Prop where
  port : (s.core lc).scp.port = []
  free : (s.core lc).scp.blocked none [s.windowRun lc w len] = false
  awake : (s.core lc).scp.asleep (runSections [s.windowRun lc w len]) = []
  clear : (s.core lc).codeHit [s.windowRun lc w len] = false

/-- A window write that nothing stands in the way of is stored at its address. -/
theorem State.placeWindow_stores {s : State} {lc : Nat} {w : WinHdr} {data : List MB} (h : s.WindowFree lc w data.length)
    (src : PortSrc) : s.placeWindow lc w data src = .done (s.onScp lc (fun m =>
      m.writeRun ((s.core lc).seq.win w.window).durable (4 * s.windowWord lc w) data)) := by
  obtain ⟨port, free, awake, clear⟩ := h
  unfold State.placeWindow State.portWrite State.portStore
  dsimp only
  rw [PortWrite.run_at]
  simp only [State.windowRun, State.windowWord] at free awake clear
  rw [Core.portHolds_of_free port free awake, clear]
  rfl

/-- Keeping the shape a sender gives leaves the rest of the core, its code and where the window lies (R166). -/
theorem State.core_noteShape {s : State} (hs : Canon s) (lc : Nat) (w : WinHdr) :
    ∃ q, (s.noteShape lc w).core lc = { s.core lc with seq := q } ∧ q.activeCode = (s.core lc).seq.activeCode
      ∧ (q.win w.window).base = ((s.core lc).seq.win w.window).base := by
  refine ⟨_, State.core_onSeq_same _ _ hs, ?_⟩
  dsimp only
  split
  · exact ⟨rfl, rfl⟩
  · exact ⟨rfl, by rw [Sequencer.win_onWin_same _ _ _ (seq_canon lc hs)]⟩

theorem State.windowFree_noteShape {s : State} (hs : Canon s) {lc : Nat} {w : WinHdr} {len : Nat} (h : s.WindowFree lc w len) :
    (s.noteShape lc w).WindowFree lc w len ∧ (s.noteShape lc w).windowWord lc w = s.windowWord lc w := by
  obtain ⟨port, free, awake, clear⟩ := h
  obtain ⟨q, core, code, base⟩ := State.core_noteShape hs lc w
  have word : (s.noteShape lc w).windowWord lc w = s.windowWord lc w := by
    rw [State.windowWord, core, base, State.windowWord]
  have run : (s.noteShape lc w).windowRun lc w len = s.windowRun lc w len := by
    rw [State.windowRun, word, State.windowRun]
  refine ⟨⟨?_, ?_, ?_, ?_⟩, word⟩
  · rw [core, port]
  · rw [run, core, free]
  · rw [run, core, awake]
  · rw [run, core, Core.codeHit, code]
    exact clear

/-- The bytes a write of sound banks leaves in its range. -/
theorem Scratch.read_writeRun {m : Scratch} (sound : m.sound) (canon : m.Canon) (durable : Bool) (a : Nat) (data : List MB)
    {j : Nat} (hj : j < data.length) : Memory.read (m.writeRun durable a data).bytes (a + j) = (mbBytes data).getD j 0 := by
  obtain ⟨hbytes, -⟩ := canon
  obtain ⟨d, p, wrote⟩ := Scratch.writeRun_of_sound sound durable a data
  rw [wrote]
  exact Mem.read_writeN_same _ _ _ _ hbytes (by simpa [mbBytes] using hj)

/-- A placed packet that is not provisional leaves every flow's waiting control packets. -/
theorem State.ctl_noteXfer {s : State} (hs : Canon s) {h : PktHdr} (prov : h.prov = false) (w : WinHdr) (n i : Nat) :
    ((s.noteXfer h w n).flow i).ctl = (s.flow i).ctl := by
  unfold State.noteXfer
  simp only [prov, Bool.false_eq_true, if_false]
  have either (p : Prop) [Decidable p] {g : Flow → Flow} (keeps : ∀ f, (g f).ctl = f.ctl) (n : Nat) :
      ((if p then s else s.onFlow n g).flow i).ctl = (s.flow i).ctl := by
    split
    · rfl
    · exact State.ctl_onFlow hs keeps n i
  by_cases last : h.last = true
  · simp only [last, Bool.not_true, Bool.false_eq_true, if_false, if_true]
    refine either _ ?_ _
    exact fun _ => rfl
  · simp [last]

/-- An ungrouped window write that passes its checks and that nothing stands in the way of is placed at its window's base plus its
word offset. -/
theorem State.placeWin_places {s : State} (hs : Canon s) {h : PktHdr} {w : WinHdr} {data : List Byte}
    (checked : windowErr s w.core.toNat (s.flow h.flow.toNat).node h.srcCore.toNat w data.length = none)
    (slot : slotErr s w.core.toNat w h.last data.length = false) (gv : w.gv = false) (prov : h.prov = false)
    (free : s.WindowFree w.core.toNat w data.length) (sound : (s.core w.core.toNat).scp.sound) :
    ∃ v, s.placeWin h w data = (some 0, v) ∧ Canon v ∧ (∀ i, (v.flow i).ctl = (s.flow i).ctl)
      ∧ ∀ j < data.length,
        Memory.read (v.core w.core.toNat).scp.bytes (4 * s.windowWord w.core.toNat w + j) = data.getD j 0 := by
  let lc := w.core.toNat
  let data' := mbMark h.poison data
  have length : data'.length = data.length := List.length_map ..
  let u := s.noteShape lc w
  obtain ⟨freeU, word⟩ := State.windowFree_noteShape hs free
  obtain ⟨q, core, -⟩ := State.core_noteShape hs lc w
  have canonU : Canon u := State.noteShape_canon _ _ hs
  let v := u.onScp lc (fun m => m.writeRun ((u.core lc).seq.win w.window).durable (4 * u.windowWord lc w) data')
  have canonV : Canon v := State.onScp_canon _ _ canonU fun _ => Scratch.writeRun_canon _ _ _
  have stored : u.placeWindow lc w data' (.packet h w) = .done v := State.placeWindow_stores (length ▸ freeU) _
  have took : (s.core lc).portTook h = false := by
    rw [Core.portTook, free.port]
    rfl
  refine ⟨v.noteXfer h w data.length, ?_, State.noteXfer_canon _ _ _ canonV, fun i => State.ctl_noteXfer canonV prov _ _ _,
    fun j hj => ?_⟩
  · unfold State.placeWin
    dsimp only
    rw [took, checked, slot, gv]
    simp only [Bool.false_eq_true, if_false, Bool.false_and]
    rw [stored]
    simp only [prov, Bool.false_eq_true, if_false]
  · have noted : Within [.fab] v (v.noteXfer h w data.length) := State.noteXfer_within _ _ _ Within.rfl (by decide)
    rw [State.core, noted .cores (by decide)]
    show Memory.read (v.core lc).scp.bytes _ = _
    rw [State.core_onScp_same _ _ canonU, word]
    have soundU : (u.core lc).scp.sound := by
      rw [core]
      exact sound
    rw [Scratch.read_writeRun soundU (scp_canon lc canonU) _ _ _ (length ▸ hj), mbBytes_mbMark]

end Sys2Proof.Machine
end

section
/-! SUPPORT. Packets that pass the checks of their home engine (R231, R233, R237, R240): what becomes of data and of read
requests. -/

namespace Sys2Proof.Machine

/-! ### Counting a context's hit changes no more than the count -/

@[simp] theorem State.flow_ctxCount (s : State) (te : Nat) (hit : Bool) (i : Nat) : (s.ctxCount te hit).flow i = s.flow i := by
  cases hit <;> rfl

@[simp] theorem State.core_ctxCount (s : State) (te : Nat) (hit : Bool) (lc : Nat) : (s.ctxCount te hit).core lc = s.core lc := by
  cases hit <;> rfl

@[simp] theorem State.eng_ctxCount (s : State) (te : Nat) (hit : Bool) (lc : Nat) (e : Eng) :
    (s.ctxCount te hit).eng lc e = s.eng lc e := by
  cases hit <;> rfl

@[simp] theorem State.jobRangeOk_ctxCount (s : State) (te : Nat) (hit : Bool) (j a n : Nat) (write : Bool) :
    (s.ctxCount te hit).jobRangeOk j a n write = s.jobRangeOk j a n write := by
  cases hit <;> rfl

/-! ### The checks -/

/-- A packet that passes its home engine's checks is fresh, its context counted a hit. -/
theorem State.verdict_fresh {s : State} {h : PktHdr} {data : Bool} (p : passesChecks s h data) :
    s.verdict h data = .fresh (s.ctxCount (h.flow.toNat % 8) true) := by
  obtain ⟨up, runs, st, cached, window, unseen, age⟩ := p
  have lives : ¬ ((!s.teRuns) = true ∨ ((s.flow h.flow.toNat).st ≠ .isOpen ∧ (s.flow h.flow.toNat).st ≠ .closing)) := by
    rcases st with st | st <;> simp [runs, st]
  have fresh : ¬ ((s.flow h.flow.toNat).ahead h.psn ≥ 2 ^ 31 ∨ (s.flow h.flow.toNat).sack.contains h.psn = true) := by
    rintro (far | seen)
    · omega
    · exact Bool.false_ne_true (unseen.symm.trans seen)
  have young : ¬ ((data && decide (s.ageOf h.port h.flow.toNat h.txTs > 750000000)) = true) := by
    cases data with
    | false => exact Bool.false_ne_true
    | true => simpa using age rfl
  have used : s.ctxUse h.flow.toNat = (true, s.ctxCount (h.flow.toNat % 8) true) := if_pos cached
  unfold State.verdict
  dsimp only
  rw [if_neg (not_not.2 up), if_neg lives, used]
  dsimp only
  rw [if_neg fresh, if_neg (Nat.not_le.2 window)]
  exact if_neg young

section
variable {s : State} {h : PktHdr} (p : passesChecks s h true)
include p

/-- A data packet that passes the checks comes to what its placement answers. -/
theorem State.receiveData_placed (place : State → Option (BitVec 8) × State) : placedBy s (s.receiveData h place) h place := by
  unfold placedBy State.receiveData
  rw [State.verdict_fresh p]
  dsimp only
  rcases place (s.ctxCount (h.flow.toNat % 8) true) with ⟨_ | code, v⟩ <;> rfl

/-- One that is placed without refusal is recorded, and what waited for it follows. -/
theorem State.receiveData_done {place : State → Option (BitVec 8) × State} {v : State}
    (done : place (s.ctxCount (h.flow.toNat % 8) true) = (some 0, v)) :
    s.receiveData h place = (v.recordArrival h none).afterArrival h := by
  unfold State.receiveData
  rw [State.verdict_fresh p]
  dsimp only
  rw [done]
  rfl

end

/-! ### DRAM (R194, R237, R267) -/

section
variable {s : State} {h : PktHdr} {d : DramHdr} {data : List Byte}
  (range : s.jobRangeOk (s.flow h.flow.toNat).job d.addr.toNat data.length true = true) (gv : d.gv = false)
  (free : s.memWait d.addr.toNat data.length none (teOf h.port) true = none)
include range gv free

/-- An ungrouped write to a range of its job that nothing holds is written through the slices. -/
theorem State.placeDram_writes :
    s.placeDram h d data false = (some 0, s.writeMem d.addr.toNat (mbMark h.poison data) none) := by
  unfold State.placeDram
  dsimp only
  rw [range, gv]
  simp only [Bool.not_true, Bool.false_and, Bool.or_self, Bool.false_eq_true, if_false]
  rw [free]

/-- The units of an ungrouped in-place add, in order. -/
def State.addAll (s : State) (h : PktHdr) (d : DramHdr) (data : List Byte) : State :=
  (List.range (data.length / 64)).foldl (fun s i =>
    s.addMem (d.addr.toNat + 64 * i) (d.runFmt == 1) (bytesAt data (64 * i) 64) h.poison none .clean) s

/-- An ungrouped add of whole units to a range of its job that nothing holds is added unit by unit. -/
theorem State.placeDram_adds (aligned : d.addr.toNat % 64 = 0) (whole : data.length % 64 = 0) :
    s.placeDram h d data true = (some 0, s.addAll h d data) := by
  unfold State.placeDram
  dsimp only
  rw [range, gv, aligned, whole]
  simp only [Bool.not_true, Bool.and_false, bne_self_eq_false, Bool.or_self, Bool.false_and, Bool.false_eq_true, if_false,
    if_true]
  rw [free]
  simp only [State.placeDram.unitsOf64, List.foldl_map, Nat.add_sub_cancel_left]
  rfl

end

theorem State.addAll_within (s : State) (h : PktHdr) (d : DramHdr) (data : List Byte) :
    Within [.mem, .flash] s (s.addAll h d data) :=
  within_foldl _ _ Within.rfl fun u _ k => k.trans (u.addMem_ungrouped_within _ _ _ _ _)

/-- The memory that a DRAM packet leaves, once placed, where its flow has no control packet waiting. -/
theorem State.mem_of_placed {s v : State} {h : PktHdr} {place : State → Option (BitVec 8) × State} (p : passesChecks s h true)
    (canon : Canon v) (within : Within [.mem, .flash] (s.ctxCount (h.flow.toNat % 8) true) v)
    (done : place (s.ctxCount (h.flow.toNat % 8) true) = (some 0, v)) (noCtl : (s.flow h.flow.toNat).ctl = []) :
    (s.receiveData h place).mem = v.mem := by
  rw [State.receiveData_done p done]
  refine (State.arrival_keeps canon ?_ _).1
  rw [State.flow, within .fab (by decide)]
  exact noCtl

/-! ### Reads (R244) -/

/-- The bytes of an answer that its request still asks for. -/
def ReadReq.answered (r : ReadReq) (roff : BitVec 32) (data : List Byte) : Nat := min data.length (r.len - roff.toNat)

section
variable {s : State} {h : PktHdr} (p : passesChecks s h true) {reqId : BitVec 16}
include p

/-- An answer to no request of the flow's is recorded and does nothing else. -/
theorem exec_readResp_unknown (roff : BitVec 32) (data : List Byte)
    (unknown : Tbl.get none (s.flow h.flow.toNat).reqs reqId.toNat = none) : exec (.readResp h reqId roff false data) s =
      .next (((s.ctxCount (h.flow.toNat % 8) true).recordArrival h none).afterArrival h) := by
  show execReadResp h reqId roff false data s = _
  rw [execReadResp]
  refine congrArg Host.Outcome.next (State.receiveData_done p ?_)
  dsimp only
  rw [State.flow_ctxCount, unknown]

/-- The last of the answers to a request, and of its command's transfer, lands and ends both. -/
theorem exec_readResp_ends {roff : BitVec 32} {data : List Byte} {r : ReadReq} {b : Begun} {l : List Begun} {x : Xfer}
    {v : State} (known : Tbl.get none (s.flow h.flow.toNat).reqs reqId.toNat = some r)
    (begun : (s.eng r.lc (engOf r.eng)).begun = b :: l) (xfer : b.xfer = some x)
    (lands : (s.ctxCount (h.flow.toNat % 8) true).landParts r.lc b
      (landSpots (begunPieces (s.core r.lc) b) (r.off + roff.toNat) (r.answered roff data))
      (mbMark h.poison (data.take (r.answered roff data))) = .done v)
    (last : r.len ≤ r.got + r.answered roff data) (whole : x.bytes ≤ x.done + r.answered roff data) :
    exec (.readResp h reqId roff false data) s =
      .next (((((v.onFlow h.flow.toNat (fun f => { f with reqs := Tbl.set none f.reqs reqId.toNat none })).onBegun r.lc
        (engOf r.eng) b.serial (fun b => { b with xfer := b.xfer.map (fun x =>
          { x with done := x.done + r.answered roff data }) })).endXfer r.lc (engOf r.eng)).recordArrival h
            none).afterArrival h) := by
  unfold ReadReq.answered at *
  show execReadResp h reqId roff false data s = _
  rw [execReadResp]
  refine congrArg Host.Outcome.next (State.receiveData_done p ?_)
  dsimp only
  rw [State.flow_ctxCount, known]
  simp only [Bool.false_eq_true, if_false]
  rw [State.eng_ctxCount, begun]
  dsimp only
  rw [State.core_ctxCount, lands]
  dsimp only
  rw [xfer]
  dsimp only
  rw [if_pos last, if_pos whole]

end

/-- May a flow's job read this range (R244): a range of the job's covers it, in whole units, at most 16 MiB. -/
def State.mayRead (s : State) (j a n : Nat) : Prop :=
  s.jobRangeOk j a n false = true ∧ n % 64 = 0 ∧ 64 ≤ n ∧ n ≤ 2 ^ 24

theorem State.mayRead_iff (s : State) (j a n : Nat) :
    (s.jobRangeOk j a n false && n % 64 == 0 && decide (64 ≤ n) && decide (n ≤ 2 ^ 24)) = true ↔ s.mayRead j a n := by
  simp [State.mayRead, and_assoc]

section
variable {s : State} {h : PktHdr} (p : passesChecks s h false) {addr : BitVec 40} (reqId : BitVec 16) {rlen : BitVec 32}
include p

/-- A read request that its job may make joins the flow's answers, and the flow goes on. -/
theorem exec_readReq_answers (ok : s.mayRead (s.flow h.flow.toNat).job addr.toNat rlen.toNat)
    (free : (s.ctxCount (h.flow.toNat % 8) true).memWait addr.toNat rlen.toNat none (teOf h.port) false = none) :
    exec (.readReq h addr reqId rlen) s =
      .next (((((s.ctxCount (h.flow.toNat % 8) true).recordArrival h none).onFlow h.flow.toNat (fun f =>
        { f with answers := f.answers ++ [{ id := reqId.toNat, addr := addr.toNat, len := rlen.toNat }] })).afterArrival
          h).pumpFlow h.flow.toNat) := by
  show execReadReq h addr reqId rlen s = _
  unfold execReadReq
  rw [State.verdict_fresh p]
  dsimp only
  rw [State.jobRangeOk_ctxCount, State.flow_ctxCount, if_pos ((State.mayRead_iff _ _ _ _).2 ok), free]

/-- Any other is answered with ERR. -/
theorem exec_readReq_refuses (bad : ¬ s.mayRead (s.flow h.flow.toNat).job addr.toNat rlen.toNat) :
    exec (.readReq h addr reqId rlen) s =
      .next ((((s.ctxCount (h.flow.toNat % 8) true).recordArrival h none).sendSeq h.flow.toNat
        { type := 5, op := opReadResp reqId.toNat 0 true, last := true }).afterArrival h) := by
  show execReadReq h addr reqId rlen s = _
  unfold execReadReq
  rw [State.verdict_fresh p]
  dsimp only
  rw [State.jobRangeOk_ctxCount, State.flow_ctxCount, if_neg fun ok => bad ((State.mayRead_iff _ _ _ _).1 ok)]

end

end Sys2Proof.Machine
end

section
open Sys2Proof Sys2Proof.Machine

/-- Settles O36: a packet that passes its checks is fresh; what its placement stores, its arrival and what follows it leave. -/
theorem dataPacketsArePlaced : Obligations.DataPacketsArePlaced := by
  intro h s hs fi u
  have canonU : Canon u := State.ctxCount_canon _ _ hs
  refine ⟨fun p => ⟨fun w data => ?window, fun d data => ?write, fun d data => ?add, fun reqId roff data => ?answer⟩,
    fun p addr reqId rlen => ⟨fun may free => ?read, fun bad => ?refuse⟩⟩
  case window =>
    refine ⟨_, rfl, State.receiveData_placed p _, fun checked slot gv prov noCtl => ?_⟩
    intro lc base rs port free awake clear sound j hj
    obtain ⟨v, done, canon, ctl, bytes⟩ := State.placeWin_places canonU (w := w) (data := data) checked slot gv prov
      ⟨port, free, awake, clear⟩ sound
    rw [State.receiveData_done p done, (State.arrival_keeps canon ((ctl _).trans noCtl) _).2]
    exact bytes j hj
  case write =>
    refine ⟨_, rfl, State.receiveData_placed p _, fun range gv free noCtl _ => ?_⟩
    exact State.mem_of_placed p (State.writeMem_canon _ _ _ canonU) (State.writeMem_ungrouped_within _ _ _)
      (State.placeDram_writes range gv free) noCtl
  case add =>
    refine ⟨_, rfl, State.receiveData_placed p _, fun range gv aligned whole free noCtl _ => ?_⟩
    exact State.mem_of_placed p (canon_foldl _ _ canonU fun _ _ k => State.addMem_canon _ _ _ _ _ _ k)
      (State.addAll_within _ h d data) (State.placeDram_adds range gv free aligned whole) noCtl
  case answer =>
    refine ⟨exec_readResp_unknown p roff data, fun r b l x v known begun xfer lands last whole => ?_⟩
    exact exec_readResp_ends p known begun xfer lands last whole
  case read => exact exec_readReq_answers p reqId may free
  case refuse => exact exec_readReq_refuses p reqId bad
end

section
open Sys2Proof Sys2Proof.Machine

/-- Settles O30: each of the stacks' own commands is its meaning's one branch, a stack that runs and a unit that is due being
given. -/
theorem stacksRefreshAndScrub : Obligations.StacksRefreshAndScrub := by
  refine fun st s => ⟨fun ch pc bank => rfl, fun runs u => ?patrol, fun t un at_ r due runs => ?targeted⟩
  case patrol =>
    show execPatrolScrub st u s = _
    simp only [execPatrolScrub, runs, Bool.not_true, Bool.false_eq_true, if_false]
  case targeted =>
    have dueThen : ((s.at_ t).stk st).due = (un, at_) :: r := due
    have runsThen : ((s.at_ t).stk st).runs = true := runs
    show execTargetedScrub st t s = _
    simp only [execTargetedScrub, dueThen, runsThen, Bool.not_true, Bool.false_eq_true, if_false]
    rfl
end

section
/-! SUPPORT. Demand reads (R187–R189): what a read delivers of a unit by its mark, its stored bits and what strikes them, what
it marks, and what it leaves of the memory. -/

namespace Sys2Proof.Machine

/-! ### What reads of a stack leave -/

/-- The memory without its marks, its codes and its stacks' registers: what a read of a stack leaves as it is. -/
def Mem.contents (m : Mem) : Mem := { m with poison := [], cond := [], stks := [] }

section
variable (s : State) (a : Nat)

theorem State.contents_markUnit : (s.markUnit a).mem.contents = s.mem.contents := by
  unfold State.markUnit
  split
  · rfl
  · have listed : ((s.setUnitPoison (a / 64) true).fieldFail (.row (stackOf a) (rowId a)) 2 (stackOf a) 1).mem =
        (s.setUnitPoison (a / 64) true).mem :=
      State.fieldFail_within (W := [.flash]) _ _ _ _ Within.rfl (by decide) .mem (by decide)
    exact (congrArg Mem.contents listed :)

theorem State.contents_upset (un : Nat) (u : Upset) : (s.upset un u).mem.contents = s.mem.contents := by
  unfold State.upset
  split
  · rfl
  · split <;> rfl

theorem State.contents_foundBad : (s.foundBad a).mem.contents = s.mem.contents := State.contents_markUnit _ a

theorem State.contents_demandRead (u : Upset) : (s.demandRead a u).2.mem.contents = s.mem.contents := by
  have struck := State.contents_upset (s.openRow a) (a / 64) u
  unfold State.demandRead
  dsimp only
  split
  · rfl
  · split
    · rfl
    · split
      · exact (State.contents_foundBad _ a).trans struck
      · exact struck
      · exact struck
      · exact struck

theorem State.contents_mergeRead (u : Upset) : (s.mergeRead a u).2.mem.contents = s.mem.contents := by
  have struck := State.contents_upset s (a / 64) u
  unfold State.mergeRead
  dsimp only
  split
  · rfl
  · split
    · exact (State.contents_foundBad _ a).trans struck
    · exact struck
    · exact struck
    · exact struck

end

/-! ### What a demand read delivers -/

/-- What an upset leaves of a unit's stored bits. -/
def Stored.struckBy : Upset → Stored → Stored
  | .clean, c => c
  | .correctable, .good => .correctable
  | .correctable, c => c
  | .miscorrected _, .uncorrectable => .uncorrectable
  | .miscorrected w, _ => .wrong (bytesAt w 0 64)
  | .uncorrectable, _ => .uncorrectable

/-- What a read finds where bits in this condition stand for these bytes, and whether it is poison (R187–R189). -/
def Stored.reads (b : List Byte) : Stored → List Byte × Bool
  | .good => (b, false)
  | .correctable => (b, false)
  | .wrong w => (w, false)
  | .uncorrectable => (b, true)

theorem State.cond_upset {s : State} {un : Nat} (clean : Tbl.get false s.mem.poison un = false) (u : Upset) :
    Tbl.get .good (s.upset un u).mem.cond un = (Tbl.get .good s.mem.cond un).struckBy u := by
  have set {c : Stored} (bad : c ≠ .good) : Tbl.get .good (s.setUnitCond un c).mem.cond un = c := Tbl.get_set_of_ne bad _ _
  simp only [State.upset, clean, Bool.false_eq_true, if_false]
  cases u <;> cases stored : Tbl.get .good s.mem.cond un <;> simp [Stored.struckBy, stored, set]

section
variable {s : State} {a : Nat} (rail : (s.stk (stackOf a)).railFailed = false) (u : Upset)
include rail

/-- A marked unit is delivered poisoned. -/
theorem State.demandRead_marked (marked : Tbl.get false s.mem.poison (a / 64) = true) :
    s.demandRead a u = ((s.dramBytes (64 * (a / 64)) 64, true), s.openRow a) := by
  have marked' : Tbl.get false (s.openRow a).mem.poison (a / 64) = true := marked
  simp only [State.demandRead, rail, Bool.false_eq_true, if_false, marked', if_true]

/-- Any other is delivered as its bits read once the upset has struck them. -/
theorem State.demandRead_unmarked (clean : Tbl.get false s.mem.poison (a / 64) = false) :
    (s.demandRead a u).1 = ((Tbl.get .good s.mem.cond (a / 64)).struckBy u).reads (s.dramBytes (64 * (a / 64)) 64) := by
  have clean' : Tbl.get false (s.openRow a).mem.poison (a / 64) = false := clean
  have cond : Tbl.get .good ((s.openRow a).upset (a / 64) u).mem.cond (a / 64) =
      (Tbl.get .good s.mem.cond (a / 64)).struckBy u := State.cond_upset clean' u
  simp only [State.demandRead, rail, Bool.false_eq_true, if_false, clean', cond]
  cases (Tbl.get .good s.mem.cond (a / 64)).struckBy u <;> rfl

/-- A unit delivered poisoned is marked. -/
theorem State.demandRead_marks (bad : (s.demandRead a u).1.2 = true) :
    Tbl.get false (s.demandRead a u).2.mem.poison (a / 64) = true := by
  unfold State.demandRead at bad ⊢
  simp only [rail, Bool.false_eq_true, if_false] at bad ⊢
  split
  · assumption
  · next clean =>
    simp only [clean, Bool.false_eq_true, if_false] at bad
    split
    · exact (State.markUnit_marks _ a).1
    all_goals
      next cond => rw [cond] at bad; cases bad

end

/-- STACK_READ delivers what its demand read finds. -/
theorem exec_stackRead_delivers {unit : BitVec 40} (below : unit.toNat < apertureBase) (u : Upset) (s : State) :
    let r := s.demandRead (unit.toNat / 64 * 64) u
    exec (.stackRead unit u) s = .next { r.2 with
      mem := { r.2.mem with delivered := s.mem.delivered ++ [(.mgmt, unit.toNat / 64 * 64, r.1.1, r.1.2)] } } := by
  intro r
  have delivered : r.2.mem.delivered = s.mem.delivered := (congrArg Mem.delivered (State.contents_demandRead s _ u) :)
  rw [← delivered]
  show execStackRead unit u s = _
  rw [execStackRead, if_neg (by omega)]

end Sys2Proof.Machine
end

section
open Sys2Proof Sys2Proof.Machine

/-- Settles O27: what is delivered is what the struck bits read as, and what is delivered poisoned is marked. -/
theorem demandReadsDeliverTheUnit : Obligations.DemandReadsDeliverTheUnit := by
  intro unit s hs below a rail marked cond u
  have unit_eq : 64 * (a / 64) = a := by omega
  refine ⟨_, _, _, exec_stackRead_delivers below u s, rfl, (congrArg Mem.dram (State.contents_demandRead s a u) :), ?cores,
    fun bad => ?poison, fun clean sound => ?bytes⟩
  case cores => exact State.demandRead_within (W := [.mem, .flash]) _ _ Within.rfl (by decide) (by decide) .cores (by decide)
  case poison =>
    have poisoned : (s.demandRead a u).1.2 = true := by
      cases mark : marked with
      | true => rw [State.demandRead_marked rail u mark]
      | false =>
        rw [State.demandRead_unmarked rail u mark]
        show (Stored.reads _ (cond.struckBy u)).2 = true
        obtain marked | stored | struck := bad
        · exact absurd (mark.symm.trans marked) (by decide)
        · rw [stored]
          cases u <;> rfl
        · rw [struck]
          rfl
    exact ⟨poisoned, State.demandRead_marks rail u poisoned⟩
  case bytes =>
    rw [show s.demandRead (unit.toNat / 64 * 64) u = s.demandRead a u from rfl, State.demandRead_unmarked rail u clean, unit_eq,
      show Tbl.get .good s.mem.cond (a / 64) = cond from rfl]
    clear_value cond
    refine ⟨fun mild => ⟨fun right => ?_, fun w stored => ?_⟩, fun w struck => ?_⟩
    · obtain rfl | rfl := mild <;> obtain rfl | rfl := right <;> exact ⟨rfl, rfl⟩
    · obtain rfl | rfl := mild <;> exact stored ▸ ⟨rfl, rfl⟩
    · subst struck
      cases cond with
      | uncorrectable => exact absurd rfl sound
      | good | correctable | wrong => exact ⟨rfl, rfl⟩
end

section
/-! SUPPORT. A partial write over stored bits that the code takes for other bytes (R187, R191). -/

namespace Sys2Proof.Machine

/-- Unit 0's stored bits pass for a pattern of no bytes: no upset leaves such a pattern, for `State.upset` cuts its contents to
64 bytes, but `Canon` does not say how long it is. -/
def sShortPattern : State := { sRun with mem := { cond := Tbl.set .good [] 0 (.wrong []) } }

theorem sShortPattern_canon : Canon sShortPattern := canonB_sound _ (by decide +kernel)

/-- The write of byte 0 merges with the pattern, and so stores as many bytes as the pattern has. -/
theorem sShortPattern_drops_byte :
    Memory.read (after (.stackWrite 0 1 [9] false .clean) sShortPattern).mem.dram 0 = 0 := by decide +kernel

end Sys2Proof.Machine
end

section
open Sys2Proof Sys2Proof.Machine

/-- Refutes O28 in its clause on the bytes a mask names: a partial write merges with the unit read first, whose wrong contents
(R187) may in a state of canonical form be of fewer than 64 bytes, and then the masked bytes past their end are not stored. Of
contents of more than 64 bytes the rest would be stored beyond the unit. -/
theorem not_stackWritesStoreTheMaskedBytes : ¬ Obligations.StackWritesStoreTheMaskedBytes := by
  intro h
  obtain ⟨t, run, -, stored, -⟩ := h 0 1 [9] false .clean sShortPattern sShortPattern_canon (by decide) (by decide +kernel)
  have after_eq : after (.stackWrite 0 1 [9] false .clean) sShortPattern = t := by rw [after, run]
  have byte : Memory.read t.mem.dram 0 = 9 := stored 0 (by decide) (by decide) (by decide)
  rw [← after_eq, sShortPattern_drops_byte] at byte
  exact absurd byte (by decide)
end

section
/-! SUPPORT. What reads, fills and write-backs of the slices leave of them (R181): everything but the lines, their count of
corrected errors, and what the stacks store. -/

namespace Sys2Proof.Machine

/-- The slices' table is in its canonical form. -/
theorem Canon.slices {s : State} (h : Canon s) : Tbl.wf {} s.mem.slices = true := by
  obtain ⟨-, ⟨-, -, wf, -⟩, -⟩ := h
  exact wf

/-- What of the memory lies above the stacks: the slices, what waits and what has been delivered. -/
def Mem.aboveStacks (m : Mem) : Mem := { m.contents with dram := [], since := [] }

theorem Mem.aboveStacks_of_contents {m m' : Mem} (h : m.contents = m'.contents) : m.aboveStacks = m'.aboveStacks :=
  congrArg (fun x : Mem => { x with dram := [], since := [] }) h

theorem State.aboveStacks_stackPut (s : State) (a mask : Nat) (data : List Byte) (poison : Bool) (u : Upset) :
    (s.stackPut a mask data poison u).mem.aboveStacks = s.mem.aboveStacks := by
  have merged := Mem.aboveStacks_of_contents (State.contents_mergeRead (s.openRow a) a u)
  have marked (v : State) := Mem.aboveStacks_of_contents (State.contents_markUnit v a)
  unfold State.stackPut
  dsimp only
  split
  · rfl
  · split <;> split
    · exact marked _
    · rfl
    · exact (marked _).trans merged
    · exact merged

/-- A slice without its lines and their count of corrected errors. -/
def Slice.besideLines (x : Slice) : Slice := { x with sets := [], corr := 0 }

/-- No slice has changed but in its lines; nothing has been delivered, and nothing has begun or ceased to wait. -/
structure LinesOnly (s t : State) : Prop where
  canon : Canon t
  slices : ∀ n, (t.slice n).besideLines = (s.slice n).besideLines
  waiting : t.mem.waiting = s.mem.waiting
  delivered : t.mem.delivered = s.mem.delivered

section
variable {s t u : State}

theorem LinesOnly.refl (hs : Canon s) : LinesOnly s s := ⟨hs, fun _ => rfl, rfl, rfl⟩

theorem LinesOnly.trans (h : LinesOnly s t) (k : LinesOnly t u) : LinesOnly s u where
  canon := k.canon
  slices n := (k.slices n).trans (h.slices n)
  waiting := k.waiting.trans h.waiting
  delivered := k.delivered.trans h.delivered

/-- A change of the stacks changes no slice. -/
theorem LinesOnly.of_stacks (ht : Canon t) (h : t.mem.aboveStacks = s.mem.aboveStacks) : LinesOnly s t where
  canon := ht
  slices n := (congrArg (fun m : Mem => (Tbl.get ({} : Slice) m.slices n).besideLines) h :)
  waiting := (congrArg Mem.waiting h :)
  delivered := (congrArg Mem.delivered h :)

theorem LinesOnly.onSlice (hs : Canon s) (n : Nat) {f : Slice → Slice} (keeps : ∀ x, (f x).besideLines = x.besideLines) :
    LinesOnly s (s.onSlice n f) where
  canon := State.onSlice_keeps n f hs
  slices m := by
    by_cases here : m = n
    · rw [here, State.slice_onSlice_same _ _ hs, keeps]
    · rw [State.slice_onSlice_other _ _ _ _ here]
  waiting := rfl
  delivered := rfl

theorem LinesOnly.misses (h : LinesOnly s t) (n : Nat) : (t.slice n).misses = (s.slice n).misses :=
  (congrArg Slice.misses (h.slices n) :)
theorem LinesOnly.held (h : LinesOnly s t) (n : Nat) : (t.slice n).held = (s.slice n).held :=
  (congrArg Slice.held (h.slices n) :)
theorem LinesOnly.hits (h : LinesOnly s t) (n : Nat) : (t.slice n).hits = (s.slice n).hits :=
  (congrArg Slice.hits (h.slices n) :)
theorem LinesOnly.missCount (h : LinesOnly s t) (n : Nat) : (t.slice n).missCount = (s.slice n).missCount :=
  (congrArg Slice.missCount (h.slices n) :)
theorem LinesOnly.shadows (h : LinesOnly s t) (n : Nat) : (t.slice n).shadows = (s.slice n).shadows :=
  (congrArg Slice.shadows (h.slices n) :)

theorem LinesOnly.foldl {α : Type} {f : State → α → State} (l : List α) (hs : Canon s)
    (step : ∀ v x, Canon v → LinesOnly v (f v x)) : LinesOnly s (l.foldl f s) :=
  foldl_keeps (P := LinesOnly s) f l (.refl hs) fun v x h => h.trans (step v x h.canon)

/-! ### Reads, fills and write-backs -/

theorem LinesOnly.stackPut (hs : Canon s) (a mask : Nat) (data : List Byte) (poison : Bool) (e : Upset) :
    LinesOnly s (s.stackPut a mask data poison e) :=
  .of_stacks (State.stackPut_canon _ _ _ _ _ hs) (State.aboveStacks_stackPut _ _ _ _ _ _)

theorem LinesOnly.demandRead (hs : Canon s) (a : Nat) (e : Upset) : LinesOnly s (s.demandRead a e).2 :=
  .of_stacks (State.demandRead_canon _ _ hs) (Mem.aboveStacks_of_contents (State.contents_demandRead s a e))

theorem LinesOnly.putLine (hs : Canon s) (l : Line) : LinesOnly s (s.putLine l) := .onSlice hs _ fun _ => rfl

theorem LinesOnly.dropLine (hs : Canon s) (ln : Nat) : LinesOnly s (s.dropLine ln) := .onSlice hs _ fun _ => rfl

theorem LinesOnly.writeBack (hs : Canon s) (l : Line) : LinesOnly s (s.writeBack l) := by
  refine .foldl _ hs fun v h hv => ?_
  dsimp only
  split
  · exact .refl hv
  · exact .stackPut hv _ _ _ _ _

theorem LinesOnly.trim (hs : Canon s) (n set keep fuel : Nat) : LinesOnly s (s.trim n set keep fuel) := by
  induction fuel generalizing s with
  | zero => exact .refl hs
  | succ k ih =>
    unfold State.trim
    dsimp only
    split
    · exact .refl hs
    · split
      · exact .refl hs
      · next l _ =>
        have evicted := (LinesOnly.writeBack hs l).trans (.dropLine (State.writeBack_canon l hs) l.addr)
        exact evicted.trans (ih evicted.canon)

theorem LinesOnly.allocLine (hs : Canon s) (ln : Nat) : LinesOnly s (s.allocLine ln).2 := by
  unfold State.allocLine
  dsimp only
  split
  · exact .refl hs
  · exact .trim hs _ _ _ _

theorem LinesOnly.fetchUnit (hs : Canon s) (a : Nat) (e : Upset) : LinesOnly s (s.fetchUnit a e) := by
  refine .foldl _ hs fun v i hv => ?_
  have read := LinesOnly.demandRead hv (a / 256 * 256 + 64 * i) (if i = 0 then e else .clean)
  have alloc := read.trans (.allocLine read.canon ((a / 256 * 256 + 64 * i) / 128))
  exact alloc.trans (.putLine alloc.canon _)

theorem LinesOnly.useLine (hs : Canon s) (ln : Nat) : LinesOnly s (s.useLine ln) := by
  unfold State.useLine
  split
  · exact .putLine hs _
  · exact .refl hs

theorem LinesOnly.copyHome (hs : Canon s) (x : Shadow) : LinesOnly s (s.copyHome x) := by
  refine .foldl _ hs fun v op hv => ?_
  cases op with
  | add => exact .refl hv
  | write mask data poison =>
    have put := LinesOnly.foldl
      (f := fun w h => w.stackPut (128 * x.line + 64 * h) (halfOf mask h) (bytesAt data (64 * h) 64) (bit poison h) .clean)
      (List.range 2) hv fun w h hw => .stackPut hw _ _ _ _ _
    dsimp only
    split
    · exact put
    · exact put.trans (.putLine put.canon _)

theorem LinesOnly.sliceEcc (hs : Canon s) (a mask : Nat) (e : Upset) : LinesOnly s (s.sliceEcc a mask e) := by
  unfold State.sliceEcc
  dsimp only
  split
  · exact .onSlice hs _ fun _ => rfl
  · split
    · exact .dropLine hs _
    · exact .putLine hs _
  · exact .refl hs

end

end Sys2Proof.Machine
end

section
/-! SUPPORT. Requests at their slices (R176–R179): what is read of a unit does not hang on the order of use of its set's lines,
and what a check of a line leaves of a port's limits. -/

namespace Sys2Proof

/-- What a table's entries come to, once one has changed. -/
theorem Tbl.sum_set {α : Type} [DecidableEq α] {d : α} {g : α → Nat} (unlisted : g d = 0) {t : Tbl α} {lo : Nat}
    (wf : Tbl.wfFrom d lo t = true) (k : Nat) (v : α) :
    ((Tbl.set d t k v).map (fun x => g x.2)).sum + g (Tbl.get d t k) = (t.map (fun x => g x.2)).sum + g v := by
  induction t generalizing lo with
  | nil => by_cases hv : v = d <;> simp [Tbl.set, hv, unlisted]
  | cons x r ih =>
    have fresh : k < x.1 → Tbl.get d (x :: r) k = d := fun below =>
      Tbl.get_below d _ x.1 k (by simp_all [Tbl.wfFrom]) below
    simp only [Tbl.wfFrom, Bool.and_eq_true, decide_eq_true_eq] at wf
    simp only [Tbl.set]
    split
    · next below =>
      rw [fresh below, unlisted]
      split <;> simp_all; omega
    · split
      · next here => split <;> simp_all [Tbl.get] <;> omega
      · next other =>
        have rest := ih wf.2
        simp only [Tbl.get, Ne.symm other, if_false, List.map_cons, List.sum_cons]
        omega

end Sys2Proof

namespace Sys2Proof.Machine

/-- The state without its slices. -/
def State.besideSlices (s : State) : State := { s with mem := { s.mem with slices := [] } }

section
variable {s t : State}

theorem State.besideSlices_useLine (s : State) (ln : Nat) : (s.useLine ln).besideSlices = s.besideSlices := by
  unfold State.useLine
  split <;> rfl

theorem State.besideSlices_sliceEcc (s : State) (a mask : Nat) (e : Upset) :
    (s.sliceEcc a mask e).besideSlices = s.besideSlices := by
  unfold State.sliceEcc
  dsimp only
  split
  · rfl
  · split <;> rfl
  · rfl

/-! ### What a unit reads as -/

/-- A line found in its set stands first there once it has been used; what is found of any line is what was. -/
theorem State.line?_useLine (hs : Canon s) (ln n ln' : Nat) : ((s.useLine ln).slice n).line? ln' = (s.slice n).line? ln' := by
  unfold State.useLine
  split
  · next l found =>
    obtain rfl : l.addr = ln := by simpa using List.find?_some found
    unfold State.putLine
    by_cases here : n = sliceOf (128 * l.addr)
    · subst here
      rw [State.slice_onSlice_same _ _ hs]
      by_cases sameSet : setOf (128 * ln') = setOf (128 * l.addr)
      · simp only [Slice.line?, Slice.lines] at found ⊢
        rw [sameSet, Tbl.get_set_of_ne (by simp)]
        by_cases sameLine : ln' = l.addr
        · rw [sameLine, found]
          simp
        · rw [List.find?_cons_of_neg (by simpa using Ne.symm sameLine), List.find?_filter]
          congr 1
          funext x
          by_cases hx : x.addr = ln' <;> simp [hx, sameLine]
      · simp only [Slice.line?, Slice.lines]
        rw [Tbl.get_set_other _ _ _ _ _ sameSet]
    · rw [State.slice_onSlice_other _ _ _ _ here]
  · rfl

/-- A unit's bytes are those of its lines and of the shadows of its slice. -/
theorem State.unitBytes_congr (line : ∀ n ln, (t.slice n).line? ln = (s.slice n).line? ln)
    (shadows : ∀ n, (t.slice n).shadows = (s.slice n).shadows) (a : Nat) (k : Option GrpKey) :
    t.unitBytes a k = s.unitBytes a k := by
  simp only [State.unitBytes, line, Slice.view, shadows]

theorem State.unitBytes_useLine (hs : Canon s) (ln a : Nat) (k : Option GrpKey) :
    (s.useLine ln).unitBytes a k = s.unitBytes a k :=
  State.unitBytes_congr (State.line?_useLine hs ln) (LinesOnly.useLine hs ln).shadows a k

theorem State.unitBytes_onSlice (hs : Canon s) (n : Nat) {f : Slice → Slice}
    (keeps : ∀ x, (f x).sets = x.sets ∧ (f x).shadows = x.shadows) (a : Nat) (k : Option GrpKey) :
    (s.onSlice n f).unitBytes a k = s.unitBytes a k := by
  have same (m : Nat) : ((s.onSlice n f).slice m).sets = (s.slice m).sets ∧
      ((s.onSlice n f).slice m).shadows = (s.slice m).shadows := by
    by_cases here : m = n
    · rw [here, State.slice_onSlice_same _ _ hs]
      exact keeps _
    · rw [State.slice_onSlice_other _ _ _ _ here]
      exact ⟨rfl, rfl⟩
  refine State.unitBytes_congr (fun m ln => ?_) (fun m => (same m).2) a k
  simp only [Slice.line?, Slice.lines, (same m).1]

/-- The lines of a unit, the lower last used. -/
def State.useUnit (s : State) (a : Nat) : State := (s.useLine (a / 256 * 256 / 128 + 1)).useLine (a / 256 * 256 / 128)

theorem LinesOnly.useUnit (hs : Canon s) (a : Nat) : LinesOnly s (s.useUnit a) :=
  have used := LinesOnly.useLine hs _
  used.trans (.useLine used.canon _)

theorem State.besideSlices_useUnit (s : State) (a : Nat) : (s.useUnit a).besideSlices = s.besideSlices :=
  (State.besideSlices_useLine _ _).trans (State.besideSlices_useLine _ _)

theorem State.unitBytes_countRead (hs : Canon s) (a : Nat) (hit : Bool) (k : Option GrpKey) :
    (s.countRead a hit).unitBytes a k = s.unitBytes a k := by
  refine State.unitBytes_onSlice hs _ (fun x => ?_) a k
  cases hit <;> exact ⟨rfl, rfl⟩

/-- A hit gives the unit's bytes as they stand, and is counted; its lines are the last used. -/
theorem State.readUnit_hit (hs : Canon s) {a mask : Nat} {k : Option GrpKey} (hit : s.unitHit a mask k = true) (e : Upset) :
    s.readUnit a mask k e = (s.unitBytes a k, (s.countRead a true).useUnit a) := by
  have counted : Canon (s.countRead a true) := State.countRead_canon _ _ hs
  have bytes : ((s.countRead a true).useUnit a).unitBytes a k = s.unitBytes a k := by
    rw [State.useUnit, State.unitBytes_useLine (State.useLine_canon _ counted), State.unitBytes_useLine counted,
      State.unitBytes_countRead hs]
  rw [← bytes, State.readUnit, hit]
  rfl

/-! ### A port's limits -/

theorem sumNat_eq_sum (l : List Nat) : sumNat l = l.sum := List.sum_eq_foldl.symm

/-- A change of a slice that leaves what a port has outstanding there leaves it in all. -/
theorem State.outstanding_onSlice (hs : Canon s) (n : Nat) {f : Slice → Slice} (keeps : ∀ x p, (f x).owed p = x.owed p)
    (lc : Nat) : (s.onSlice n f).outstanding lc = s.outstanding lc := by
  have total := Tbl.sum_set (g := fun sl : Slice => sl.owed (.core (coreFin lc))) rfl hs.slices n (f (s.slice n))
  simp only [State.outstanding, State.onSlice, sumNat_eq_sum, Tbl.upd]
  rw [keeps] at total
  exact congrArg (· + _) (Nat.add_right_cancel total)

/-- A check of a line leaves what a port has outstanding. -/
theorem State.outstanding_sliceEcc (hs : Canon s) (a mask : Nat) (e : Upset) (lc : Nat) :
    (s.sliceEcc a mask e).outstanding lc = s.outstanding lc := by
  unfold State.sliceEcc
  dsimp only
  split
  · refine State.outstanding_onSlice hs _ ?_ lc
    exact fun _ _ => rfl
  · split
    all_goals
      refine State.outstanding_onSlice hs _ ?_ lc
      exact fun _ _ => rfl
  · rfl

theorem LinesOnly.owed (h : LinesOnly s t) (n : Nat) (p : XPort) : (t.slice n).owed p = (s.slice n).owed p := by
  simp only [Slice.owed, h.misses, h.held]

/-- So a request that may leave its port may do so after the check. -/
theorem State.portFull_sliceEcc (hs : Canon s) (a mask : Nat) (e : Upset) (p : XPort) (unit : Nat) :
    (s.sliceEcc a mask e).portFull p unit = s.portFull p unit := by
  have checked := LinesOnly.sliceEcc hs a mask e
  cases p with
  | core lc => simp only [State.portFull, State.sliceFull, checked.waiting, checked.owed, State.outstanding_sliceEcc hs]
  | te | cxl | mgmt => rfl

/-! ### Requests -/

/-- The bytes of a unit that a mask names. -/
def maskedBytes (mask : Nat) (b : List MB) : List MB :=
  (List.range 256).filterMap (fun i => if mask / 2 ^ i % 2 = 1 then b[i]? else none)

theorem State.slice_deliver (s : State) (p : XPort) (a mask : Nat) (b : List MB) (n : Nat) :
    (s.deliver p a mask b).slice n = s.slice n := rfl

theorem State.besideSlices_deliver (s : State) (p : XPort) (a mask : Nat) (b : List MB) :
    (s.deliver p a mask b).besideSlices = s.besideSlices.deliver p a mask b := rfl

/-- A port is given the masked bytes of a unit. -/
theorem State.delivered_deliver {a : Nat} (unit : a / 256 * 256 = a) (s : State) (p : XPort) (mask : Nat) (b : List MB) :
    (s.deliver p a mask b).mem.delivered =
      s.mem.delivered ++ [(p, a, mbBytes (maskedBytes mask b), mbPoison (maskedBytes mask b))] := by
  show s.mem.delivered ++ [(p, a / 256 * 256, _, _)] = _
  rw [unit]
  rfl

theorem State.retryHeld_of_none {n : Nat} (none : (s.slice n).held = []) : s.retryHeld n = s := by
  simp only [State.retryHeld, none, if_true]

theorem State.pumpWaiting_of_none (none : s.mem.waiting = []) : s.pumpWaiting = s := by
  simp only [State.pumpWaiting, none, if_true]

/-- A request that finds room at its port is at its slice. -/
theorem State.request_of_room {h : HeldReq} (room : s.portFull h.at_.1 h.at_.2 = false) : s.request h = s.access h := by
  have uncapped : ∀ lc, h.at_.1 = .core lc → s.sliceFull lc (256 * h.at_.2) = false := fun lc from_ => by
    rw [from_] at room
    simp only [State.portFull, Bool.or_eq_false_iff] at room
    exact room.1.2
  unfold State.request
  split
  · next lc from_ => rw [uncapped lc from_, if_neg (by decide), State.submit, room, if_neg (by decide)]
  · rw [State.submit, room, if_neg (by decide)]

/-- One that does not waits there. -/
theorem State.mem_request_of_full {h : HeldReq} (full : s.portFull h.at_.1 h.at_.2 = true) :
    (s.request h).mem = { s.mem with waiting := s.mem.waiting ++ [h] } := by
  have capped (lc : Nat) (a : Nat) : (s.capHit lc a).portFull h.at_.1 h.at_.2 = true := full
  unfold State.request
  dsimp only
  split
  · split
    · rw [State.submit, if_pos (capped _ _)]
      rfl
    · rw [State.submit, if_pos full]
  · rw [State.submit, if_pos full]

section
variable {m : Miss} {a : Nat} (at_ : m.unit * 256 = a) (noWait : s.memWait a 256 m.key m.port false = none)
include at_ noWait

/-- A read that hits is counted, and delivers its unit's bytes. -/
theorem State.doRead_hit (hs : Canon s) (hit : s.unitHit a m.mask.toNat m.key = true) :
    (s.doRead m).besideSlices = (s.besideSlices.deliver m.port a m.mask.toNat (s.unitBytes a m.key))
      ∧ ((s.doRead m).slice (sliceOf a)).hits = satInc (s.slice (sliceOf a)).hits
      ∧ ((s.doRead m).slice (sliceOf a)).misses = (s.slice (sliceOf a)).misses := by
  subst at_
  let a := m.unit * 256
  have served : s.doRead m = ((s.countRead a true).useUnit a).deliver m.port a m.mask.toNat (s.unitBytes a m.key) := by
    simp only [State.doRead, noWait, hit, if_true, State.readUnit_hit hs hit, a]
  have used : LinesOnly (s.countRead a true) ((s.countRead a true).useUnit a) := .useUnit (State.countRead_canon a true hs) a
  have counted : (s.countRead a true).slice (sliceOf a) =
      { s.slice (sliceOf a) with hits := satInc (s.slice (sliceOf a)).hits } := State.slice_onSlice_same _ _ hs
  have hits := used.hits (sliceOf a)
  have misses := used.misses (sliceOf a)
  rw [counted] at hits misses
  rw [served, State.slice_deliver, State.besideSlices_deliver, State.besideSlices_useUnit]
  exact ⟨rfl, hits, misses⟩

/-- One that misses is counted, and waits for its unit. -/
theorem State.doRead_miss (hs : Canon s) (miss : s.unitHit a m.mask.toNat m.key = false) :
    (s.doRead m).besideSlices = s.besideSlices
      ∧ ((s.doRead m).slice (sliceOf a)).missCount = satInc (s.slice (sliceOf a)).missCount
      ∧ ((s.doRead m).slice (sliceOf a)).misses = (s.slice (sliceOf a)).misses ++ [m] := by
  subst at_
  let a := m.unit * 256
  have served : s.doRead m =
      (s.countRead a false).onSlice (sliceOf a) (fun sl => { sl with misses := sl.misses ++ [m] }) := by
    simp only [State.doRead, noWait, miss, Bool.false_eq_true, if_false, a]
  have counted : (s.countRead a false).slice (sliceOf a) =
      { s.slice (sliceOf a) with missCount := satInc (s.slice (sliceOf a)).missCount } := State.slice_onSlice_same _ _ hs
  rw [served, State.slice_onSlice_same _ _ (State.countRead_canon _ _ hs), counted]
  exact ⟨rfl, rfl, rfl⟩

end

section
variable {p : XPort} {addr : BitVec 40} {mask : BitVec 256} {k : Option GrpKey} (e : Upset)
  (serves : sliceServes s p (addr.toNat / 256 * 256) = true) (held : (s.slice (sliceOf (addr.toNat / 256 * 256))).held = [])
include serves held

/-- XBAR_READ of a port that has no room. -/
theorem exec_xbarRead_full (full : s.portFull p (addr.toNat / 256 * 256 / 256) = true) : exec (.xbarRead p addr mask k e) s =
    .next (s.request (.read { port := p, unit := addr.toNat / 256 * 256 / 256, mask := mask, key := k })) := by
  show execXbarRead p addr mask k e s = _
  simp only [execXbarRead, State.retryHeld_of_none held]
  rw [serves, Bool.not_true, if_neg (by decide), if_pos full]

/-- XBAR_READ of a port that has: the line is checked, and the request is at its slice. -/
theorem exec_xbarRead_room (hs : Canon s) (room : s.portFull p (addr.toNat / 256 * 256 / 256) = false) :
    exec (.xbarRead p addr mask k e) s = .next ((s.sliceEcc (addr.toNat / 256 * 256) mask.toNat e).doRead
      { port := p, unit := addr.toNat / 256 * 256 / 256, mask := mask, key := k }) := by
  have roomThen := (State.portFull_sliceEcc hs (addr.toNat / 256 * 256) mask.toNat e p _).trans room
  show execXbarRead p addr mask k e s = _
  simp only [execXbarRead, State.retryHeld_of_none held]
  rw [serves, Bool.not_true, if_neg (by decide), room, if_neg (by decide), State.request_of_room (h := .read _) roomThen]
  rfl

end

/-- SLICE_MISS_FILL: the unit of the oldest miss is merged and delivered; where no access is held and none waits, that is
all. -/
theorem exec_sliceMissFill_delivers (hs : Canon s) {sl : Fin 128} {e : Upset} {m : Miss} {r : List Miss}
    (held : (s.slice sl).held = []) (misses : (s.slice sl).misses = m :: r) (waiting : s.mem.waiting = []) {v : State}
    (fill : (s.onSlice sl (fun x => { x with misses := r })).fetchUnit (m.unit * 256) e = v) :
    let bytes := maskedBytes m.mask.toNat (v.unitBytes (m.unit * 256) m.key)
    ∃ t, exec (.sliceMissFill sl e) s = .next t ∧ (t.slice sl).misses = r
      ∧ t.mem.delivered = s.mem.delivered ++ [(m.port, m.unit * 256, mbBytes bytes, mbPoison bytes)] := by
  have filled := LinesOnly.fetchUnit (State.onSlice_keeps sl (fun x => { x with misses := r }) hs) (m.unit * 256) e
  have slice := State.slice_onSlice_same sl (fun x => { x with misses := r }) hs
  rw [fill] at filled
  have heldThen : (v.slice sl).held = [] := by rw [filled.held, slice, held]
  have missesThen : (v.slice sl).misses = r := by rw [filled.misses, slice]
  have waitingThen : v.mem.waiting = [] := filled.waiting.trans waiting
  have run : exec (.sliceMissFill sl e) s =
      .next (v.deliver m.port (m.unit * 256) m.mask.toNat (v.unitBytes (m.unit * 256) m.key)) := by
    show execSliceMissFill sl e s = _
    rw [execSliceMissFill, State.retryHeld_of_none held]
    simp only [misses]
    rw [fill, State.retryHeld_of_none (s := v.deliver _ _ _ _) heldThen,
      State.pumpWaiting_of_none (s := v.deliver _ _ _ _) waitingThen]
  refine ⟨_, run, missesThen, ?_⟩
  rw [State.delivered_deliver (by omega), filled.delivered]
  rfl

/-! ### Parks -/

/-- Settling a line takes its served parks, and no other shadow, out of its slice. -/
theorem State.settle_takes (hs : Canon s) {ln : Nat}
    (served : (s.slice (sliceOf (128 * ln))).shadows.filter (fun x => x.line == ln && x.served) ≠ []) :
    ((s.settle ln).slice (sliceOf (128 * ln))).held = (s.slice (sliceOf (128 * ln))).held
      ∧ ((s.settle ln).slice (sliceOf (128 * ln))).shadows =
          (s.slice (sliceOf (128 * ln))).shadows.filter (fun x => !(x.line == ln && x.served)) := by
  have home := LinesOnly.foldl (f := State.copyHome)
    ((s.slice (sliceOf (128 * ln))).shadows.filter (fun x => x.line == ln && x.served)) hs fun v x hv => .copyHome hv x
  simp only [State.settle, if_neg served, State.slice_onSlice_same _ _ home.canon, home.held, home.shadows, and_self]

end

end Sys2Proof.Machine
end

section
open Sys2Proof Sys2Proof.Machine

/-- Settles O26: a request that nothing stands before is at its slice, where a read hits or misses; a fill and a copy home
change no slice but in its lines. -/
theorem crossbarRequestsAreServed : Obligations.CrossbarRequestsAreServed := by
  intro s hs masked
  refine ⟨?reads, ?writes, ?fills, ?copies⟩
  case reads =>
    intro p addr mask k e a n serves held
    refine ⟨fun full => ?waits, fun room => ?served⟩
    case waits =>
      have mem := State.mem_request_of_full (h := .read { port := p, unit := a / 256, mask := mask, key := k }) full
      exact ⟨_, exec_xbarRead_full e serves held full, by rw [mem], by rw [mem], by rw [mem], by rw [mem]⟩
    case served =>
      intro v noWait
      have at_ : a / 256 * 256 = a := by omega
      have checked : LinesOnly s v := .sliceEcc hs a mask.toNat e
      have beside : v.besideSlices = s.besideSlices := State.besideSlices_sliceEcc s a mask.toNat e
      refine ⟨_, exec_xbarRead_room e serves held hs room, ?_⟩
      cases hit : v.unitHit a mask.toNat k with
      | true =>
        obtain ⟨elsewhere, hits, misses⟩ := State.doRead_hit (m := { port := p, mask := mask, key := k, unit := a / 256 }) at_
          noWait checked.canon hit
        rw [beside] at elsewhere
        refine ⟨(congrArg (·.mem.dram) elsewhere :), (congrArg (·.cores) elsewhere :), fun _ => ⟨?_, ?_, ?_⟩, nofun⟩
        · exact hits.trans (congrArg satInc (checked.hits n))
        · exact misses.trans (checked.misses n)
        · exact (congrArg (·.mem.delivered) elsewhere : _).trans (State.delivered_deliver at_ s.besideSlices p mask.toNat _)
      | false =>
        obtain ⟨elsewhere, missed, misses⟩ := State.doRead_miss (m := { port := p, mask := mask, key := k, unit := a / 256 })
          at_ noWait checked.canon hit
        have same := elsewhere.trans beside
        refine ⟨(congrArg (·.mem.dram) same :), (congrArg (·.cores) same :), nofun, fun _ => ⟨?_, ?_, ?_⟩⟩
        · exact missed.trans (congrArg satInc (checked.missCount n))
        · exact (congrArg (·.mem.delivered) same :)
        · exact misses.trans (congrArg (· ++ _) (checked.misses n))
  case writes =>
    intro p addr mask data poison k a serves held room noWait
    show execXbarWrite p addr mask data poison k s = _
    simp only [execXbarWrite]
    rw [serves, Bool.not_true, if_neg (by decide), State.retryHeld_of_none held,
      State.request_of_room (h := .write p a mask data poison k) room]
    simp only [State.access, State.doWrite]
    rw [noWait]
  case fills =>
    intro sl e m r held misses waiting
    exact exec_sliceMissFill_delivers hs held misses waiting rfl
  case copies =>
    intro sl x served here held
    have taken : x ∈ (s.slice sl).shadows.filter (fun y => y.line == x.line && y.served) :=
      List.mem_filter.2 ⟨List.mem_of_find?_eq_some served, by simpa using List.find?_some served⟩
    obtain ⟨heldThen, shadows⟩ := State.settle_takes (ln := x.line) hs (here ▸ List.ne_nil_of_mem taken)
    rw [here] at heldThen shadows
    constructor
    · show execParkCopyHome sl s = _
      simp only [execParkCopyHome, served, State.retryHeld_of_none (heldThen.trans held)]
    · rw [← shadows]
end

section
/-! SUPPORT. Commit groups (R183, R269–R275): what the commit point leaves of the slices, the group and its core, and what a
slice makes of COMMIT. -/

namespace Sys2Proof

/-- A read after changing every entry by what fixes the default. -/
theorem Tbl.get_mapv_of_fixed {α : Type} [DecidableEq α] {d : α} {f : α → α} (fixed : f d = d) {t : Tbl α} {lo : Nat}
    (wf : Tbl.wfFrom d lo t = true) (k : Nat) : Tbl.get d (Tbl.mapv d f t) k = f (Tbl.get d t k) := by
  induction t generalizing lo with
  | nil => exact fixed.symm
  | cons x r ih =>
    simp only [Tbl.wfFrom, Bool.and_eq_true, decide_eq_true_eq] at wf
    have rest : Tbl.get d (Tbl.mapv d f r) k = f (Tbl.get d r k) := ih wf.2
    by_cases gone : f x.2 = d
    · have drop : Tbl.mapv d f (x :: r) = Tbl.mapv d f r := by simp [Tbl.mapv, gone]
      rw [drop, rest, Tbl.get]
      split
      · next here => rw [Tbl.get_below d r (x.1 + 1) k wf.2 (by omega), fixed, gone]
      · rfl
    · have keep : Tbl.mapv d f (x :: r) = (x.1, f x.2) :: Tbl.mapv d f r := by simp [Tbl.mapv, gone]
      rw [keep, Tbl.get, Tbl.get]
      split
      · rfl
      · exact rest

namespace Machine

section
variable {s : State}

/-! ### PREPARE -/

/-- SLICE_PREPARE of a group that commits and awaits the slice. -/
theorem exec_slicePrepare_loc {sl : Fin 128} {lc : Fin 64} {g : BitVec 12}
    (committing : ((s.core lc).seq.grp g).st = .committing) (awaited : sl.val ∈ ((s.core lc).seq.grp g).await) :
    exec (.slicePrepare sl (.loc lc g)) s =
      .next ((s.onSlice sl (fun x => { x with prepared := x.prepared ++ [.loc lc g] })).onSeq lc
        (fun q => q.onGrp g (fun x => { x with await := x.await.filter (· != sl.val) }))) := by
  show execSlicePrepare sl (.loc lc g) s = _
  rw [execSlicePrepare]
  exact if_pos ⟨committing, List.contains_iff_mem.2 awaited⟩

/-- SLICE_PREPARE of a remote group whose handle commits and awaits the slice. -/
theorem exec_slicePrepare_rem {sl : Fin 128} {h : Handle} (listed : h ∈ s.fab.handles) (c : Fin 64)
    (core : h.core.toNat = c.val) (committing : h.committing = true) (awaited : sl.val ∈ h.await) :
    exec (.slicePrepare sl (.rem h.flow c h.grp)) s = .next (State.onSlice { s with fab := { s.fab with
      handles := s.fab.handles.map (fun y => if y.flow == h.flow && y.core.toNat == c.val && y.grp == h.grp
        then { y with await := y.await.filter (· != sl.val) } else y) } } sl
      (fun x => { x with prepared := x.prepared ++ [.rem h.flow c h.grp] })) := by
  show execSlicePrepare sl (.rem h.flow c h.grp) s = _
  rw [execSlicePrepare]
  exact if_pos (List.any_eq_true.2 ⟨h, listed, by simp [core, committing, awaited]⟩)

/-! ### The commit point -/

/-- A slice once a group is past its commit point: the group's shadows are committed. -/
def Slice.commitShadows (k : GrpKey) (x : Slice) : Slice :=
  { x with shadows := x.shadows.map (fun y => if y.key = k then { y with committed := true } else y) }

theorem State.shadows_of_commitShadows {t : State} (hs : Canon s) {k : GrpKey} (mem : t.mem = (s.commitShadows k).mem)
    (n : Nat) : (t.slice n).shadows =
      (s.slice n).shadows.map (fun x => if x.key = k then { x with committed := true } else x) := by
  have slice : t.slice n = (s.slice n).commitShadows k := by
    rw [State.slice, mem]
    exact Tbl.get_mapv_of_fixed (f := Slice.commitShadows k) rfl hs.slices n
  rw [slice]
  rfl

/-- Of a group that carried no transfer into a window of this device, nothing is to be settled. -/
theorem State.resolveLoc_of_none (none : s.fab.loc = []) (lc : Nat) (g : BitVec 12) : s.resolveLoc lc g false = s := by
  have fab : { s.fab with loc := [] } = s.fab := by rw [← none]
  simp only [State.resolveLoc, State.resolveRx, none, Bool.false_eq_true, if_false, List.map_nil, State.settleLoc, splitReady,
    State.raiseAll, List.foldl_nil, fab]

/-- Of one that carried none on a flow, no GROUP is sent. -/
theorem State.sendGroup_of_none {lc : Nat} {g : BitVec 12} (none : ((s.core lc).seq.grp g).flows = []) (abort : Bool) :
    s.sendGroup lc g abort = s := by
  rw [State.sendGroup, none, List.foldl_nil]

/-- A grp.commit that waits for its group retires. -/
theorem State.retireCommit_front (hs : Canon s) {lc : Nat} {g : BitVec 12} {f : Fetched} {l : List Fetched}
    (front : (s.eng lc .s).fetched = f :: l) (mine : Cmd.op f.word = 0x15 ∧ BitVec.ofNat 12 (fld f.word 64 12) = g)
    (runs : engineRuns s lc .s = true) (go : goesOn s lc .s = true) :
    s.retireCommit lc g = s.onEng lc .s (Engine.retire f.loops) := by
  simp only [State.retireCommit, front]
  rw [if_pos ⟨mine.1, mine.2, runs⟩]
  exact State.retireFront_goesOn (frontCtx s lc .s f) f.loops false hs go

/-- The retirement changes S's stream at most. -/
theorem State.retireCommit_eq (hs : Canon s) {lc : Nat} (g : BitVec 12) (go : goesOn s lc .s = true) :
    s.retireCommit lc g = s ∨ ∃ loops, s.retireCommit lc g = s.onEng lc .s (Engine.retire loops) := by
  cases front : (s.eng lc .s).fetched with
  | nil => exact .inl (by simp only [State.retireCommit, front])
  | cons f l =>
    by_cases mine : Cmd.op f.word = 0x15 ∧ BitVec.ofNat 12 (fld f.word 64 12) = g ∧ engineRuns s lc .s = true
    · exact .inr ⟨_, State.retireCommit_front hs front ⟨mine.1, mine.2.1⟩ mine.2.2 go⟩
    · exact .inl (by simp only [State.retireCommit, front, if_neg mine])

/-- A group is committed at its core: its shadows are past the commit point, its extents are released and it is resolved. -/
def State.commitGroup (s : State) (lc : Fin 64) (g : BitVec 12) : State :=
  ((s.commitShadows (.loc lc g)).onCore lc (fun c => c.releaseExtents g false)).onSeq lc
    (fun q => q.onGrp g (fun _ => { st := .resolved }))

section
variable (hs : Canon s) (lc : Fin 64) (g : BitVec 12)
include hs

theorem State.canon_releaseExtents (k : GrpKey) :
    Canon ((s.commitShadows k).onCore lc (fun c => c.releaseExtents g false)) :=
  State.onCore_canon _ _ (State.commitShadows_canon _ hs) fun _ h => Core.releaseExtents_canon _ _ h

theorem State.commitGroup_canon : Canon (s.commitGroup lc g) :=
  State.onSeq_canon _ _ (State.canon_releaseExtents hs lc g _) fun _ h => Sequencer.onGrp_canon _ _ h

theorem State.core_commitGroup : (s.commitGroup lc g).core lc =
    { s.core lc with
      seq := (s.core lc).seq.onGrp g (fun _ => { st := .resolved })
      scp := { (s.core lc).scp with pend := (s.core lc).scp.pend.filter (fun x => x.grp != g) } } := by
  rw [State.commitGroup, State.core_onSeq_same _ _ (State.canon_releaseExtents hs lc g _),
    State.core_onCore_same _ _ (State.commitShadows_canon _ hs)]
  rfl

theorem State.eng_commitGroup (e : Eng) : (s.commitGroup lc g).eng lc e = s.eng lc e := by
  rw [State.eng, State.core_commitGroup hs]
  rfl

theorem goesOn_commitGroup (e : Eng) : goesOn (s.commitGroup lc g) lc e = goesOn s lc e := by
  rw [goesOn, noStopCount, State.eng_commitGroup hs, State.core_commitGroup hs]
  rfl

theorem engineRuns_commitGroup (e : Eng) : engineRuns (s.commitGroup lc g) lc e = engineRuns s lc e := by
  rw [engineRuns, State.core_commitGroup hs]
  rfl

/-- The retirement of S's grp.commit leaves of the commit all but S's stream. -/
theorem State.retireCommit_commitGroup (go : goesOn s lc .s = true) :
    let t := (s.commitGroup lc g).retireCommit lc g
    (t.core lc).seq.grp g = { st := .resolved }
      ∧ (t.core lc).scp = { (s.core lc).scp with pend := (s.core lc).scp.pend.filter (fun x => x.grp != g) }
      ∧ t.mem = (s.commitShadows (.loc lc g)).mem := by
  have canon := State.commitGroup_canon hs lc g
  have resolved : ((s.commitGroup lc g).core lc).seq.grp g = { st := .resolved } := by
    rw [State.core_commitGroup hs]
    exact Sequencer.grp_onGrp_same _ _ _ (seq_canon _ hs)
  have released : ((s.commitGroup lc g).core lc).scp =
      { (s.core lc).scp with pend := (s.core lc).scp.pend.filter (fun x => x.grp != g) } := by
    rw [State.core_commitGroup hs]
  intro t
  obtain stays | ⟨loops, retires⟩ := State.retireCommit_eq canon g ((goesOn_commitGroup hs lc g .s).trans go)
  · rw [show t = _ from stays]
    exact ⟨resolved, released, rfl⟩
  · rw [show t = _ from retires, State.core_onEng_same _ _ _ canon]
    exact ⟨resolved, released, rfl⟩

/-- GROUP_COMMIT_POINT of a group that sent nothing and holds no write back. -/
theorem exec_groupCommitPoint_loc (noFault : s.mgmt.faultActive = false)
    (committing : ((s.core lc).seq.grp g).st = .committing) (await : ((s.core lc).seq.grp g).await = [])
    (flows : ((s.core lc).seq.grp g).flows = []) (loc : s.fab.loc = []) (port : (s.core lc).scp.port = [])
    (go : goesOn s lc .s = true) :
    exec (.groupCommitPoint (.loc lc g)) s = .next ((s.commitGroup lc g).retireCommit lc g) := by
  have noFlows : ((((s.commitShadows (.loc lc g)).onCore lc (fun c => c.releaseExtents g false)).core lc).seq.grp g).flows =
      [] := by
    rw [State.core_onCore_same _ _ (State.commitShadows_canon _ hs)]
    exact flows
  obtain ⟨-, released, -⟩ := State.retireCommit_commitGroup hs lc g go
  have noWrites : (((s.commitGroup lc g).retireCommit lc g).core lc).scp.port = [] := by rw [released, port]
  show execGroupCommitPoint (.loc lc g) s = _
  simp only [execGroupCommitPoint, noFault, Bool.false_eq_true, if_false, committing, await, and_self, if_true]
  rw [State.resolveLoc_of_none (by exact loc), State.sendGroup_of_none noFlows]
  exact congrArg Host.Outcome.next (State.pumpPort_of_empty noWrites)

end

/-! ### A remote group's handle -/

/-- A handle's end frees it and, of a flow with no transfer into a window, changes no other part but the slices' shadows. -/
theorem State.endHandle_commits (hs : Canon s) {h : Handle} (none : (s.flow h.flow.toNat).rx = []) :
    h ∉ (s.endHandle h false).fab.handles ∧ (s.endHandle h false).mem = (s.commitShadows h.key).mem := by
  have committed : Canon (s.commitShadows h.key) := State.commitShadows_canon _ hs
  have none' : ((s.commitShadows h.key).flow h.flow.toNat).rx = [] := none
  let u : State := (s.commitShadows h.key).onFlow h.flow.toNat (fun f => { f with rx := [] })
  let v : State := { u with fab := { u.fab with handles := u.fab.handles.filter (fun y => y != h) } }
  have rx : (v.flow h.flow.toNat).rx = [] :=
    congrArg Flow.rx (State.flow_onFlow_same h.flow.toNat (fun f => { f with rx := [] }) committed)
  have settled : v.settleFlow h.flow.toNat = v.onFlow h.flow.toNat (fun f => { f with rx := [] }) := by
    simp only [State.settleFlow, rx, splitReady, State.raiseAll, List.foldl_nil]
  have ended : s.endHandle h false = v.settleFlow h.flow.toNat := by
    simp only [State.endHandle, Bool.false_eq_true, if_false, State.resolveRx, none', List.map_nil]
    rfl
  rw [ended, settled]
  exact ⟨fun listed => by simpa using (List.mem_filter.1 listed).2, rfl⟩

/-- The handle found is of the flow that was asked for. -/
theorem State.flow_of_handle? {fi : Nat} {core : BitVec 6} {g : BitVec 12} {h : Handle}
    (found : s.handle? fi core g = some h) : h.flow.toNat = fi := by
  have mine := List.find?_some found
  simp only [Bool.and_eq_true, beq_iff_eq] at mine
  exact mine.1.1

/-! ### COMMIT at a slice -/

theorem State.onSlice_congr {n : Nat} {f f' : Slice → Slice} (same : f (s.slice n) = f' (s.slice n)) :
    s.onSlice n f = s.onSlice n f' := by
  rw [State.onSlice, State.onSlice, Tbl.upd, Tbl.upd]
  exact congrArg (fun x => { s with mem := { s.mem with slices := Tbl.set {} s.mem.slices n x } }) same

/-- What of a slice's shadows COMMIT of a group applies: those past its commit point that are not yet data. -/
def Shadow.dueFor (k : GrpKey) (x : Shadow) : Bool := x.key == k && x.committed && !x.served

/-- What of them stays in the park: a parked shadow that holds no add. -/
def Shadow.stays (x : Shadow) : Bool := x.parked && !x.adds

/-- A slice once it has COMMIT of a group. -/
def Slice.afterCommit (k : GrpKey) (y : Slice) : Slice :=
  { y with
    prepared := y.prepared.filter (· != k)
    commits := y.commits.filter (· != k)
    shadows := (y.shadows.filter (fun x => !x.dueFor k || x.stays)).map
      (fun x => if x.dueFor k then { x with served := true } else x) }

section
variable {n : Nat} {k : GrpKey}
  (free : ∀ x ∈ (s.slice n).shadows, x.key = k → ∀ y ∈ (s.slice n).snoops, y.unit / 2 ≠ x.line)
include free

/-- COMMIT at a slice where the host may hold no line of the group's shadows (R183, R292). -/
theorem State.sliceCommit_free : s.sliceCommit n k =
    ((s.slice n).shadows.filter (fun x => x.dueFor k && !x.stays)).foldl State.applyShadow
      (s.onSlice n (Slice.afterCommit k)) := by
  have due : (s.slice n).due k = (s.slice n).shadows.filter (Shadow.dueFor k) := rfl
  have untold : (s.slice n).snoops.filter (fun x => ((s.slice n).due k).any (fun y => y.line == x.unit / 2)) = [] := by
    simp only [List.filter_eq_nil_iff, List.any_eq_true, beq_iff_eq, not_exists, not_and, due, List.mem_filter]
    rintro y hy x ⟨hx, isDue⟩ same
    simp only [Shadow.dueFor, Bool.and_eq_true, beq_iff_eq] at isDue
    exact free x hx isDue.1.1 y hy same.symm
  have mine {x : Shadow} (hx : x ∈ (s.slice n).shadows) : ((s.slice n).due k).contains x = x.dueFor k := by
    rw [due, Bool.eq_iff_iff, List.contains_iff_mem, List.mem_filter]
    exact and_iff_right hx
  have shadows : ((s.slice n).shadows.filter (fun x => !((s.slice n).due k).contains x || x.stays)).map
      (fun x => if ((s.slice n).due k).contains x then { x with served := true } else x) =
        ((s.slice n).afterCommit k).shadows := by
    rw [List.filter_congr fun x hx => by rw [mine hx]]
    exact List.map_congr_left fun x hx => by rw [mine (List.mem_of_mem_filter hx)]
  have applied : ((s.slice n).due k).filter (fun x => !x.stays) =
      (s.slice n).shadows.filter (fun x => x.dueFor k && !x.stays) := by
    rw [due, List.filter_filter]
    exact List.filter_congr fun x _ => Bool.and_comm _ _
  rw [State.sliceCommit]
  dsimp only
  rw [if_neg (not_not_intro untold), ← applied]
  refine congrArg (List.foldl State.applyShadow · _) (State.onSlice_congr ?_)
  exact congrArg (fun l => { (s.slice n).afterCommit k with shadows := l }) shadows

end

/-- SLICE_COMMIT of a group the slice is prepared for, all its shadows past the commit point. -/
theorem exec_sliceCommit_prepared {sl : Fin 128} {k : GrpKey} (prepared : k ∈ (s.slice sl).prepared)
    (committed : ∀ x ∈ (s.slice sl).shadows, x.key = k → x.committed = true) :
    exec (.sliceCommit sl k) s = .next ((s.sliceCommit sl k).retryHeld sl) := by
  have past : (s.slice sl).shadows.any (fun x => x.key == k && !x.committed) = false := by
    simpa [List.any_eq_false] using committed
  have ready : (s.slice sl).prepared.contains k = true := List.contains_iff_mem.2 prepared
  show execSliceCommit sl k s = _
  simp only [execSliceCommit, past, ready, Bool.not_true, Bool.false_eq_true, and_false, if_false, Bool.false_and]

end

end Machine

end Sys2Proof
end

section
open Sys2Proof Sys2Proof.Machine

/-- Settles O24: PREPARE takes the slice off the group's list; the commit point is reached by its lemmas above, of which the
group, the extents and the slices' shadows are read; COMMIT finds every shadow of the group due or served. -/
theorem groupCommitProtocol : Obligations.GroupCommitProtocol := by
  intro s hs
  refine ⟨fun sl lc g committing awaited => ?own, fun sl f c g h listed flow core grp committing awaited => ?remote,
    fun lc g noFault committing await flows loc port go runs => ?commits,
    fun f c g h noFault found committing await none => ?ends, fun sl k prepared committed free => ?applies⟩
  case own =>
    have took : Canon (s.onSlice sl (fun x => { x with prepared := x.prepared ++ [.loc lc g] })) := State.onSlice_keeps _ _ hs
    refine ⟨_, exec_slicePrepare_loc committing awaited, ?_, ?_, ?_, rfl⟩
    · rw [State.core_onSeq_same _ _ took, Sequencer.grp_onGrp_same _ _ _ (seq_canon _ took)]
      rfl
    · exact congrArg Slice.prepared (State.slice_onSlice_same _ _ hs)
    · rw [State.core_onSeq_same _ _ took]
      rfl
  case remote =>
    subst flow grp
    refine ⟨_, exec_slicePrepare_rem listed c core committing awaited, ?_, ?_, rfl⟩
    · exact List.mem_map.2 ⟨h, listed, if_pos (by simp [core])⟩
    · exact congrArg Slice.prepared (State.slice_onSlice _ sl _ hs.slices)
  case commits =>
    obtain ⟨resolved, released, mem⟩ := State.retireCommit_commitGroup hs lc g go
    refine ⟨_, exec_groupCommitPoint_loc hs lc g noFault committing await flows loc port go, resolved, ?_, ?_, fun sl => ?_,
      fun f l front op mine => ?_⟩
    · rw [released]
    · rw [released]
    · exact State.shadows_of_commitShadows hs mem sl
    · have canon := State.commitGroup_canon hs lc g
      rw [State.retireCommit_front canon ((State.eng_commitGroup hs lc g .s).symm ▸ front) ⟨op, mine⟩
        ((engineRuns_commitGroup hs lc g .s).trans runs) ((goesOn_commitGroup hs lc g .s).trans go), State.eng_onEng _ _ _ canon,
        State.eng_commitGroup hs]
  case ends =>
    rw [← State.flow_of_handle? found] at none
    obtain ⟨freed, mem⟩ := State.endHandle_commits hs none
    refine ⟨s.endHandle h false, ?_, freed, fun sl => ?_⟩
    · show execGroupCommitPoint (.rem f c g) s = _
      simp only [execGroupCommitPoint, noFault, Bool.false_eq_true, if_false, found, committing, await, and_self, if_true]
    · exact State.shadows_of_commitShadows hs mem sl
  case applies =>
    intro due stay u
    rw [exec_sliceCommit_prepared prepared committed, State.sliceCommit_free free]
    rfl
end

section
/-! SUPPORT. Frames at a port (R205, R210): what PFC's thresholds leave of a port, and what becomes of a frame that the port
accepts. -/

namespace Sys2Proof.Machine

variable {s : State}

/-- Sending XOFF or XON changes of the port its PFC state, what it has sent and their counters. -/
theorem State.port_pfcCheck (h : Canon s) (p n : Nat) :
    ∃ (xoff : Tbl Bool) (sent : List TxFrame) (pfcTx : Word) (txBytes : DWord), (s.pfcCheck p n).port p =
      { s.port p with xoff := xoff, sent := sent, pfcTx := pfcTx, txBytes := txBytes } := by
  unfold State.pfcCheck
  dsimp only
  split_ifs
  case neg => exact ⟨_, _, _, _, rfl⟩
  case pos => exact ⟨_, _, _, _, rfl⟩
  all_goals
    rw [State.port_onPort_same _ _ h]
    exact ⟨_, _, _, _, rfl⟩

theorem State.port_pfcCheck_other (s : State) (p n : Nat) {m : Nat} (hm : m ≠ p) : (s.pfcCheck p n).port m = s.port m := by
  unfold State.pfcCheck
  dsimp only
  split_ifs <;> simp [hm]

section
variable {p : Fin 96} {fr : Frame} (h : Canon s) (up : (s.port p).st = .up) (fcs : fr.fcsOk = true)

/-- What R205 asks of a frame besides its FCS, and room for it in the receive buffer (R210). -/
def State.takes (s : State) (p : Nat) (fr : Frame) : Bool :=
  64 ≤ fr.len && fr.len ≤ 9216 && s.tagsOk p fr.tags && s.frameTo p fr && s.bodyOk p fr.body
    && decide ((s.port p).buffered + fr.len ≤ 524288)

/-- What an accepted frame puts into the receive buffer: OFT frames wait there, no other does. -/
def rxQueued (fr : Frame) : List RxFrame :=
  match fr.body with
  | .oft _ _ _ _ _ _ flow psn => [{ prio := framePrio fr, bytes := fr.len, flow := flow, psn := psn }]
  | _ => []

theorem State.takes_eq_false_iff (s : State) (p : Nat) (fr : Frame) : s.takes p fr = false ↔
    (fr.len < 64 ∨ fr.len > 9216 ∨ !s.tagsOk p fr.tags ∨ !s.frameTo p fr ∨ !s.bodyOk p fr.body
      ∨ (s.port p).buffered + fr.len > 524288) := by
  simp only [State.takes, Bool.and_eq_false_iff, decide_eq_false_iff_not, not_le, Bool.not_eq_true', or_assoc, gt_iff_lt]

include up

theorem exec_frameReceive_badFcs (bad : fr.fcsOk = false) :
    exec (.frameReceive p fr) s = .next (s.onPort p (fun q => { q with fcsErr := satInc q.fcsErr })) := by
  show execFrameReceive p fr s = _
  simp [execFrameReceive, up, bad]

include fcs

theorem exec_frameReceive_dropped (no : s.takes p fr = false) :
    exec (.frameReceive p fr) s = .next (s.onPort p (fun q => { q with rxDrop := satInc q.rxDrop })) := by
  show execFrameReceive p fr s = _
  unfold execFrameReceive
  rw [if_neg (by simp [up]), if_neg (by simp [fcs]), if_pos ((s.takes_eq_false_iff p fr).1 no)]

include h

/-- An accepted frame is counted and joins the receive buffer, which may call for XOFF. -/
theorem exec_frameReceive_accepted (yes : s.takes p fr = true) : ∃ t, exec (.frameReceive p fr) s = .next t
    ∧ (∃ xoff sent pfcTx txBytes, t.port p =
        { s.port p with
          rxBytes := satAdd (s.port p).rxBytes fr.len, rxq := (s.port p).rxq ++ rxQueued fr
          xoff := xoff, sent := sent, pfcTx := pfcTx, txBytes := txBytes })
    ∧ ∀ n, n ≠ p.val → t.port n = s.port n := by
  have ok : ¬ _ := fun no => Bool.eq_false_iff.1 ((s.takes_eq_false_iff p fr).2 no) yes
  have counted := State.onPort_keeps p (fun q => { q with rxBytes := satAdd q.rxBytes fr.len }) h
  show ∃ t, execFrameReceive p fr s = _ ∧ _
  unfold execFrameReceive rxQueued
  rw [if_neg (by simp [up]), if_neg (by simp [fcs]), if_neg ok]
  cases fr.body
  case oft flow psn =>
    refine ⟨_, rfl, ?_, fun n hn => ?_⟩
    · obtain ⟨xoff, sent, pfcTx, txBytes, e⟩ := State.port_pfcCheck (State.onPort_keeps p _ counted) p (framePrio fr)
      exact ⟨xoff, sent, pfcTx, txBytes, by rw [e]; simp [h, counted]⟩
    · rw [State.port_pfcCheck_other _ _ _ hn]
      simp [hn]
  all_goals
    refine ⟨_, rfl, ⟨(s.port p).xoff, (s.port p).sent, (s.port p).pfcTx, (s.port p).txBytes, ?_⟩, fun n hn => ?_⟩
    · simp [h]
    · simp [hn]

end

end Sys2Proof.Machine
end

section
open Sys2Proof Sys2Proof.Machine

/-- Settles O32: a frame with a good FCS is accepted or dropped as `State.takes` says. -/
theorem portsAcceptOrDropFrames : Obligations.PortsAcceptOrDropFrames := by
  intro p fr s hs up ok
  refine ⟨fun bad => exec_frameReceive_badFcs up bad, fun good no => exec_frameReceive_dropped up good no, fun good yes => ?_⟩
  obtain ⟨t, run, ⟨xoff, sent, pfcTx, txBytes, port⟩, others⟩ := exec_frameReceive_accepted hs up good yes
  refine ⟨t, run, ?_, ?_, ?_, others⟩
  · rw [port]
    unfold rxQueued
    cases fr.body <;> rfl
  · rw [port]
  · rw [port]
end

section
/-! SUPPORT. Ports that change state (R211–R218): what leaving a state makes of a port, and a fold that visits each port, or
each domain, once. -/

namespace Sys2Proof.Machine

variable {s : State}

/-- A fold whose steps each change what is read at their own key, and nothing at any other, changes each key it visits once. -/
theorem read_foldl {α : Type} {read : State → Nat → α} {step : State → Nat → State} {f : α → α}
    (keeps : ∀ {s} k, Canon s → Canon (step s k)) (same : ∀ {s} k, Canon s → read (step s k) k = f (read s k))
    (other : ∀ s {k m}, m ≠ k → read (step s k) m = read s m) {l : List Nat} (once : l.Nodup) (hs : Canon s) (m : Nat) :
    read (l.foldl step s) m = if m ∈ l then f (read s m) else read s m := by
  induction l generalizing s with
  | nil => simp
  | cons k l ih =>
    obtain ⟨fresh, once⟩ := List.nodup_cons.1 once
    rw [List.foldl_cons, ih once (keeps k hs)]
    by_cases hm : m = k
    · subst hm
      rw [if_neg fresh, if_pos List.mem_cons_self, same m hs]
    · simp only [List.mem_cons, hm, false_or, other s hm]

/-- A port that leaves the state it is in for another (R215). -/
def Port.moved (st : PortSt) (q : Port) : Port :=
  let left : Bool := q.st == .up && st != .up
  let rests : Bool := st == .disabled || st == .quenched || st == .noPosition
  { q with
    st := st
    linkDowns := if left then satInc q.linkDowns else q.linkDowns
    egress := if left then [] else q.egress
    held := if left then [] else q.held
    hiSer := q.hiSer && !rests
    hiSerSecs := if rests then 0 else q.hiSerSecs
    hiSerAt := if rests then none else q.hiSerAt }

@[simp] theorem State.electSlave_ports (s : State) : s.electSlave.ports = s.ports := by
  unfold State.electSlave
  dsimp only
  split <;> rfl

theorem State.portTo_ports (s : State) (p : Nat) (st : PortSt) : (s.portTo p st).ports = (s.onPort p (Port.moved st)).ports := by
  unfold State.portTo
  extract_lets left rests t
  rw [apply_ite State.ports, State.electSlave_ports]
  exact ite_self t.ports

theorem State.port_portTo (h : Canon s) (p : Nat) (st : PortSt) : (s.portTo p st).port p = (s.port p).moved st := by
  rw [State.port, State.portTo_ports]
  exact State.port_onPort_same p _ h

theorem State.port_portTo_other (s : State) (p : Nat) (st : PortSt) {m : Nat} (hm : m ≠ p) :
    (s.portTo p st).port m = s.port m := by
  rw [State.port, State.portTo_ports]
  exact State.port_onPort_other s p m _ hm

theorem State.portTo_only (s : State) (p : Nat) (st : PortSt) : Within [.ports, .fab] s (s.portTo p st) :=
  State.portTo_within p st Within.rfl (by decide) (by decide)

end Sys2Proof.Machine
end

section
/-! SUPPORT. Optical engines (R213, R214, R217, R334, R347): an engine that goes dark, and a port's move to the spare. -/

namespace Sys2Proof.Machine

variable {s : State}

/-- A port of an engine that goes dark. -/
def Port.dark (q : Port) : Port :=
  let q := if q.st = .up ∨ q.st = .training then q.moved .down else q
  { q with laser := false, txLf := false, los := if q.st = .down then 15 else q.los }

/-- A port goes dark, with its laser off. -/
def State.darkPort (s : State) (p : Nat) : State :=
  let t := if (s.port p).st = .up ∨ (s.port p).st = .training then s.portTo p .down else s
  t.onPort p (fun q => { q with laser := false, txLf := false, los := if q.st = .down then 15 else q.los })

theorem State.opticDown_eq (s : State) (n : Nat) :
    s.opticDown n = ((List.range 12).map (12 * n + ·)).foldl State.darkPort s := by
  rw [List.foldl_map]
  rfl

theorem State.darkPort_keeps (p : Nat) (h : Canon s) : Canon (s.darkPort p) := by
  unfold State.darkPort
  dsimp only
  split
  · exact State.onPort_keeps p _ (State.portTo_canon p .down h)
  · exact State.onPort_keeps p _ h

theorem State.port_darkPort (p : Nat) (h : Canon s) : (s.darkPort p).port p = (s.port p).dark := by
  unfold State.darkPort Port.dark
  dsimp only
  split
  · rw [State.port_onPort_same _ _ (State.portTo_canon p .down h), State.port_portTo h]
  · rw [State.port_onPort_same _ _ h]

theorem State.port_darkPort_other (s : State) {p m : Nat} (hm : m ≠ p) : (s.darkPort p).port m = s.port m := by
  unfold State.darkPort
  dsimp only
  rw [State.port_onPort_other _ _ _ _ hm]
  split
  · exact State.port_portTo_other s p _ hm
  · rfl

/-- Every port of an engine that goes dark goes dark. -/
theorem State.port_opticDown (h : Canon s) (n : Nat) {k : Nat} (hk : k < 12) :
    (s.opticDown n).port (12 * n + k) = (s.port (12 * n + k)).dark := by
  rw [State.opticDown_eq, read_foldl (read := State.port) State.darkPort_keeps State.port_darkPort State.port_darkPort_other
    (List.nodup_range.map (add_right_injective _)) h]
  exact if_pos (List.mem_map_of_mem (List.mem_range.2 hk))

theorem State.opticDown_only (s : State) (n : Nat) : Within [.ports, .fab] s (s.opticDown n) :=
  State.opticDown_within n Within.rfl (by decide) (by decide)

theorem State.optic_opticDown (s : State) (n m : Nat) : (s.opticDown n).optic m = s.optic m :=
  congrArg (Tbl.get ({} : Optic) · m) (s.opticDown_only n .optics (by decide))

theorem Port.dark_laser (q : Port) : q.dark.laser = false := rfl

theorem Port.dark_down {q : Port} (h : q.st = .up ∨ q.st = .training) : q.dark.st = .down ∧ q.dark.los = 15 := by
  unfold Port.dark
  rw [if_pos h]
  exact ⟨rfl, rfl⟩

/-- The port trains on its engine's spare position, for a reason (R214, steps 1 to 4). -/
def MovesToSpare (s t : State) (p reason : Nat) : Prop :=
  (t.port p).st = .training ∧ (t.port p).subst = true ∧ (t.port p).substReason = reason
    ∧ (t.port p).substFrom = (s.port p).pos ∧ (t.port p).pos = (s.optic (p / 12)).spare
    ∧ (t.optic (p / 12)).spare = 0xF ∧ t.cores = s.cores

/-- A port may take its engine's spare (R213). -/
def SpareStands (s : State) (p : Nat) : Prop :=
  bit (s.portCtl p) 31 = false ∧ s.portOn p = true ∧ (s.optic (p / 12)).spare ≠ 0xF

theorem State.train_port (h : Canon s) (p : Nat) : ∃ ok, (s.train p).port p = { s.port p with saved := ok } :=
  ⟨_, State.port_onPort_same p _ h⟩

theorem State.optic_train (s : State) (p n : Nat) : (s.train p).optic n = s.optic n := rfl

theorem State.substitute_moves (h : Canon s) {p : Nat} (reason : Nat) (stands : SpareStands s p)
    (st : (s.port p).st = .up ∨ (s.port p).st = .down ∨ (s.port p).st = .training) :
    MovesToSpare s (s.substitute p reason) p reason := by
  obtain ⟨allowed, on, spare⟩ := stands
  have free : ¬ (bit (s.portCtl p) 31 = true ∨ (!s.portOn p) = true ∨ (s.port p).st = .quenched
      ∨ (s.port p).st = .noPosition) := by
    rcases st with st | st | st <;> simp [allowed, on, st]
  have moved := State.portTo_canon p .training h
  unfold State.substitute
  extract_lets n o q fresh u
  rw [if_neg free, if_neg spare]
  have hu : Canon u := State.onPort_keeps p _ moved
  have optic : (u.optic n).spare = o.spare :=
    congrArg (fun x => (Tbl.get ({} : Optic) x n).spare) (s.portTo_only p .training .optics (by decide))
  obtain ⟨ok, port⟩ :=
    State.train_port (State.onOptic_keeps n (fun o => { o with spare := 0xF, substAt := some u.clk.now }) hu) p
  have at_u : u.port p = _ := State.port_onPort_same p _ moved
  rw [State.port_portTo h] at at_u
  replace port := port.trans (congrArg (fun x : Port => { x with saved := ok }) at_u)
  rw [MovesToSpare, port]
  refine ⟨rfl, rfl, rfl, rfl, rfl, ?_, s.portTo_only p .training .cores (by decide)⟩
  rw [State.optic_train]
  exact congrArg Optic.spare (State.optic_onOptic_same n _ hu)

/-- A port whose FEC's symbols and codewords of the last second have been counted (R217, R221). -/
def Port.counted (corrected received corr uncorr now : Nat) (q : Port) : Port :=
  { q with
    hiSer := decide (received < corrected * 10000)
    hiSerSecs := if received < corrected * 10000 then q.hiSerSecs + 1 else 0
    hiSerAt := some now
    fecCorr := satAdd q.fecCorr corr
    fecUncorr := satAdd q.fecUncorr uncorr }

theorem exec_hiSerTimer_due {p : Fin 96} {t t0 : Nat} (since : (s.port p).hiSerAt = some t0)
    (due : t0 + 1000000000 ≤ max s.clk.now t) (corrected received corr uncorr : Nat) :
    exec (.hiSerTimer p corrected received corr uncorr t) s =
      let u := (s.at_ t).onPort p (Port.counted corrected received corr uncorr (max s.clk.now t))
      .next (if (if received < corrected * 10000 then (s.port p).hiSerSecs + 1 else 0) ≥ 10 then u.substitute p 2 else u) := by
  have since' : ((s.at_ t).port p).hiSerAt = some t0 := since
  have due' : ¬ (s.at_ t).clk.now < t0 + 1000000000 := Nat.not_lt.2 due
  show execHiSerTimer p corrected received corr uncorr t s = _
  simp only [execHiSerTimer, since', if_neg due', gt_iff_lt, decide_eq_true_eq]
  rfl

theorem exec_laserEol {p : Fin 96} (lane : Fin 4)
    (st : (s.port p).st = .up ∨ (s.port p).st = .down ∨ (s.port p).st = .training) :
    exec (.laserEol p lane) s = .next (s.substitute p 3) := by
  show execLaserEol p lane s = _
  exact if_pos st

/-- An engine that is dark: its lasers are off, and what was Up or trained is Down without signal. -/
def Darkened (s t : State) (n : Nat) : Prop :=
  t.cores = s.cores ∧ ∀ k < 12, (t.port (12 * n + k)).laser = false
    ∧ ((s.port (12 * n + k)).st = .up ∨ (s.port (12 * n + k)).st = .training →
        (t.port (12 * n + k)).st = .down ∧ (t.port (12 * n + k)).los = 15)

theorem State.opticDown_darkens (h : Canon s) (n : Nat) : Darkened s (s.opticDown n) n :=
  ⟨s.opticDown_only n .cores (by decide), fun k hk => by
    rw [State.port_opticDown h n hk]
    exact ⟨Port.dark_laser _, Port.dark_down⟩⟩

/-- A sensor of an optical engine is sampled, and the hottest of them shown (R347). -/
def State.oeSampled (s : State) (i : Nat) (temp : BitVec 11) : State :=
  { s with thm :=
      { s.thm with
        sense := (s.sample i (some temp.toInt)).thm.sense
        oeMax := (s.sample i (some temp.toInt)).hottest 160 16 } }

theorem exec_oeOvertemp_hot (n : Fin 8) (k : Fin 2) {temp : BitVec 11} (hot : 340 ≤ temp.toInt) :
    exec (.oeOvertemp n k temp) s =
      .next (((s.oeSampled (160 + 2 * n + k) temp).onOptic n (fun o => { o with lasersOff := true })).opticDown n) := by
  show execOeOvertemp n k temp s = _
  exact if_pos hot

end Sys2Proof.Machine
end

section
open Sys2Proof Sys2Proof.Machine

/-- Settles O35: a lane's end of life and ten bad seconds call for the spare; a hot sensor and a failed rail darken an engine. -/
theorem opticsAreMonitored : Obligations.OpticsAreMonitored := by
  intro p n s hs moves spareStands darkens
  refine ⟨fun lane st stands => ?laser, fun corrected received corr uncorr t t0 since due => ?second,
    fun k temp hot => ?hot, ?rail⟩
  case laser => exact ⟨_, exec_laserEol lane st, State.substitute_moves hs 3 stands st⟩
  case second =>
    intro k
    have keeps := State.onPort_keeps p (Port.counted corrected received corr uncorr (max s.clk.now t)) (s := s.at_ t) hs
    have port := State.port_onPort_same p (Port.counted corrected received corr uncorr (max s.clk.now t)) (s := s.at_ t) hs
    have run := exec_hiSerTimer_due since due corrected received corr uncorr
    constructor
    · intro few
      exact ⟨_, run.trans (congrArg _ (if_neg (Nat.not_le.2 few))), port⟩
    · intro ten up stands
      have st := congrArg Port.st port
      obtain ⟨h1, h2, h3, h4, h5, h6, h7⟩ := State.substitute_moves keeps 2 stands (.inl (st.trans up))
      refine ⟨_, run.trans (congrArg _ (if_pos ten)), h1, h2, h3, h4.trans (by rw [port]; rfl), h5, h6, h7⟩
  case hot =>
    have run := exec_oeOvertemp_hot (s := s) n k hot
    have sampled : Canon (s.oeSampled (160 + 2 * n + k) temp) := hs
    have off := State.optic_onOptic_same n (fun o => { o with lasersOff := true }) sampled
    obtain ⟨cores, ports⟩ := State.opticDown_darkens (State.onOptic_keeps n (fun o => { o with lasersOff := true }) sampled) n
    refine ⟨⟨_, run, cores, ports⟩, _, run, ?_, State.opticDown_only _ n .thm (by decide)⟩
    rw [State.optic_opticDown, off]
  case rail =>
    have failed := State.optic_onOptic_same n (fun o => { o with railFailed := true }) hs
    obtain ⟨cores, ports⟩ := State.opticDown_darkens (State.onOptic_keeps n (fun o => { o with railFailed := true }) hs) n
    refine ⟨⟨_, rfl, cores, ports⟩, _, rfl, ?_⟩
    rw [State.optic_opticDown, failed]
end

section
/-! SUPPORT. PTP received (R219, R220, R250): the stamp of an event message, the choice of the slave port, the servo. -/

namespace Sys2Proof.Machine

variable {s : State}

theorem State.servo_fab (s : State) (d : Int) : (s.servo d).fab =
    { s.fab with
      ptpOffset := BitVec.ofInt 32 d
      ptpGood := if d.natAbs ≤ 100 then s.fab.ptpGood + 1 else 0
      ptpLocked := s.fab.ptpLocked || decide (16 ≤ if d.natAbs ≤ 100 then s.fab.ptpGood + 1 else 0)
      holdover := false
      lastSync := (s.servo d).clk.now } := by
  by_cases near : d.natAbs ≤ 1000 <;> simp only [State.servo, near, if_true, if_false]
  all_goals rfl

theorem State.servo_now (s : State) (d : Int) :
    (s.servo d).clk.now = if d.natAbs ≤ 1000 then s.clk.now else ((s.clk.now : Int) - d).toNat := by
  by_cases near : d.natAbs ≤ 1000 <;> simp only [State.servo, near, if_true, if_false]
  rfl

theorem State.servo_only (s : State) (d : Int) : Within [.fab, .clk] s (s.servo d) :=
  State.servo_within d Within.rfl (by decide) (by decide)

theorem State.electSlave_slavePort (s : State) : s.electSlave.fab.slavePort = s.bestMaster := by
  unfold State.electSlave
  dsimp only
  split
  · next same => exact same.symm
  · rfl

theorem State.electSlave_masters (s : State) : s.electSlave.fab.masters = s.fab.masters := by
  unfold State.electSlave
  dsimp only
  split <;> rfl

theorem State.electSlave_unlocks (change : s.bestMaster ≠ s.fab.slavePort) : s.electSlave.fab.ptpLocked = false := by
  unfold State.electSlave
  rw [if_neg change]

/-- A PTP message that arrives while MC3 runs. -/
structure PtpHeard (s : State) (p : Nat) (x : PtpRx) : Prop where
  runs : s.fab.mc3Restarting = false
  noFault : s.mgmt.faultActive = false
  on : s.ptpOn p = true
  xport : x.xport.val = s.ptpXport
  domain : x.domain.toNat = s.ptpDomain

theorem PtpHeard.up {p : Nat} {x : PtpRx} (h : PtpHeard s p x) : (s.port p).st = .up := by
  have on := h.on
  simp only [State.ptpOn, Bool.and_eq_true, beq_iff_eq] at on
  exact on.2

theorem PtpHeard.giveStamp {p : Nat} {x : PtpRx} (h : PtpHeard s p x) (k : PtpStamp) : PtpHeard (s.giveStamp k) p x :=
  ⟨h.runs, h.noFault, h.on, h.xport, h.domain⟩

theorem PtpHeard.listens {p : Nat} {x : PtpRx} (h : PtpHeard s p x) :
    ¬ ((s.port p).st ≠ .up ∨ s.fab.mc3Restarting = true ∨ s.mgmt.faultActive = true) := by
  simp [h.up, h.runs, h.noFault]

theorem PtpHeard.takes {p : Nat} {x : PtpRx} (h : PtpHeard s p x) :
    ¬ ((!s.ptpOn p) = true ∨ x.xport.val ≠ s.ptpXport ∨ x.domain.toNat ≠ s.ptpDomain) := by
  simp [h.on, h.xport, h.domain]

section
variable {p : Fin 96} {x : PtpRx} {t : Nat} (h : PtpHeard (s.at_ t) p x)
include h

/-- An event message is stamped; a Sync on the slave port feeds the servo. -/
theorem exec_ptpMessageRx_event (event : x.m ≠ .general) :
    exec (.ptpMessageRx p x t) s =
      let u := (s.at_ t).giveStamp ((s.at_ t).ptpStamp p false x.m x.seqId)
      .next (if x.m = .sync ∧ s.fab.slavePort.toNat = p.val then u.servo x.offset else u) := by
  show execPtpMessageRx p x t s = _
  unfold execPtpMessageRx
  rw [if_neg h.listens]
  dsimp only
  rw [if_neg event, if_neg (h.giveStamp _).takes]
  cases hm : x.m
  case general => exact absurd hm event
  case sync =>
    simp only [true_and]
    rfl
  all_goals rfl

/-- An Announce joins what the masters have said, by which the slave port is chosen. -/
theorem exec_ptpMessageRx_announce {a : List Byte} (general : x.m = .general) (master : x.master = some a) :
    exec (.ptpMessageRx p x t) s =
      .next ({ s.at_ t with fab := { (s.at_ t).fab with masters := Tbl.set [] s.fab.masters p a } } : State).electSlave := by
  show execPtpMessageRx p x t s = _
  unfold execPtpMessageRx
  rw [if_neg h.listens]
  dsimp only
  rw [if_pos general, if_neg h.takes, general, master]
  rfl

end

end Sys2Proof.Machine
end

section
/-! SUPPORT. PTP sent (R219, R220): the message's bytes, and its stamp as it meets the wire. -/

namespace Sys2Proof.Machine

variable {s : State}

@[simp] theorem length_toBE (k n : Nat) : (toBE k n).length = k := by simp [toBE]

theorem length_putBytes {l x : List Byte} {i : Nat} (h : i + x.length ≤ l.length) : (putBytes l i x).length = l.length := by
  simp [putBytes]
  omega

/-- What stands where bytes were put. -/
theorem take_drop_putBytes {l x : List Byte} {i : Nat} (h : i ≤ l.length) : ((putBytes l i x).drop i).take x.length = x := by
  have len : (l.take i).length = i := List.length_take_of_le h
  rw [putBytes, List.append_assoc, List.drop_left' len, List.take_left' rfl]

theorem getD_putBytes {l x : List Byte} {i j : Nat} (h : i ≤ l.length) (hj : j < x.length) :
    (putBytes l i x).getD (i + j) 0 = x.getD j 0 := by
  have put := congrArg (List.getD · j 0) (take_drop_putBytes (x := x) h)
  simpa [List.getD_eq_getElem?_getD, List.getElem?_take, hj] using put

/-- A PTP event message's bytes with its type and domain (R220). -/
def State.ptpHead (s : State) (m : PtpMsg) (body : List Byte) : List Byte :=
  let head := body ++ List.replicate (44 - body.length) 0
  putBytes (putBytes head 0 [BitVec.ofNat 8 (16 * ((head.getD 0 0).toNat / 16) + ptpType m)]) 4 [BitVec.ofNat 8 s.ptpDomain]

theorem length_ptpHead (s : State) (m : PtpMsg) (body : List Byte) : 44 ≤ (s.ptpHead m body).length := by
  unfold State.ptpHead
  extract_lets head
  have long : 44 ≤ head.length := by
    simp only [head, List.length_append, List.length_replicate]
    omega
  have typed : ∀ b : Byte, (putBytes head 0 [b]).length = head.length := fun b =>
    length_putBytes (by simp only [List.length_singleton]; omega)
  rw [length_putBytes, typed]
  · exact long
  · simp only [typed, List.length_singleton]
    omega

/-- The message with its sequence number, as MC3 hands it to the port. -/
def State.ptpBytes (s : State) (m : PtpMsg) (seqId : BitVec 16) (body : List Byte) : List Byte :=
  putBytes (s.ptpHead m body) 30 (toBE 2 seqId.toNat)

theorem length_ptpBytes (s : State) (m : PtpMsg) (seqId : BitVec 16) (body : List Byte) :
    44 ≤ (s.ptpBytes m seqId body).length := by
  have long := length_ptpHead s m body
  rw [State.ptpBytes, length_putBytes (by simp only [length_toBE]; omega)]
  exact long

/-- The sequence number a frame carries is the one the message was given. -/
theorem ptpBytes_seqId (s : State) (m : PtpMsg) (seqId : BitVec 16) (body : List Byte) :
    BitVec.ofNat 16 (256 * ((s.ptpBytes m seqId body).getD 30 0).toNat + ((s.ptpBytes m seqId body).getD 31 0).toNat) = seqId := by
  have long : 30 ≤ (s.ptpHead m body).length := Nat.le_trans (by decide) (length_ptpHead s m body)
  have high : (s.ptpBytes m seqId body).getD 30 0 = BitVec.ofNat 8 (seqId.toNat / 256) := getD_putBytes (j := 0) long (by simp)
  have low : (s.ptpBytes m seqId body).getD 31 0 = BitVec.ofNat 8 seqId.toNat := getD_putBytes (j := 1) long (by simp)
  rw [high, low]
  apply BitVec.eq_of_toNat_eq
  have lt := seqId.isLt
  simp only [BitVec.toNat_ofNat]
  omega

/-- A Sync's bytes with its originTimestamp. -/
def stampedSync (bytes : List Byte) (ns : Nat) : List Byte :=
  putBytes bytes 34 (toBE 6 (ns / 1000000000) ++ toBE 4 (ns % 1000000000))

theorem originTimestamp_stampedSync {bytes : List Byte} (h : 44 ≤ bytes.length) (ns : Nat) :
    ((stampedSync bytes ns).drop 34).take 10 = toBE 6 (ns / 1000000000) ++ toBE 4 (ns % 1000000000) := by
  have put := take_drop_putBytes (l := bytes) (x := toBE 6 (ns / 1000000000) ++ toBE 4 (ns % 1000000000)) (i := 34) (by omega)
  rwa [List.length_append, length_toBE, length_toBE] at put

theorem State.ptpFrame_what (s : State) (p : Nat) (m : PtpMsg) (bytes : List Byte) :
    (s.ptpFrame p m bytes).1.what = .ptp m bytes := by
  unfold State.ptpFrame
  dsimp only
  split <;> rfl

/-- What a class sends at once joins what the port has sent. -/
theorem Port.send_clear {q : Port} {cls : Nat} (h : q.clear cls = true) (x : TxFrame) (bytes : Nat) :
    q.send cls x bytes = { q with sent := q.sent ++ [x], txBytes := satAdd q.txBytes bytes } := by
  simp only [Port.clear, Bool.and_eq_true, beq_iff_eq] at h
  obtain ⟨⟨pause, egress⟩, held⟩ := h
  simp [Port.send, Port.room, pause, egress, held]

/-- A message stamped for MC3 leaves as it is. -/
theorem State.atWire_stamps (p : Nat) (x : TxFrame) {m : PtpMsg} {seqId : BitVec 16} {body : List Byte}
    (what : x.what = .ptp m (s.ptpBytes m seqId body)) (two : s.ptpTwoStep = true ∨ m ≠ .sync) :
    s.atWire p x = (x, s.giveStamp (s.ptpStamp p true m seqId)) := by
  unfold State.atWire
  rw [what]
  dsimp only
  rw [if_pos (by simpa using two), ptpBytes_seqId]

/-- A Sync of one-step operation is stamped in its originTimestamp. -/
theorem State.atWire_oneStep (p : Nat) (x : TxFrame) {seqId : BitVec 16} {body : List Byte}
    (what : x.what = .ptp .sync (s.ptpBytes .sync seqId body)) (one : s.ptpTwoStep = false) :
    ∃ eth, s.atWire p x =
      ({ eth := eth, what := .ptp .sync (stampedSync (s.ptpBytes .sync seqId body) (s.ptpStamp p true .sync seqId).ns) }, s) := by
  unfold State.atWire
  rw [what]
  dsimp only
  rw [if_neg (by simp [one]), ptpBytes_seqId]
  exact ⟨_, rfl⟩

/-- An event message that MC3 sends into a class that is clear meets the wire at once. -/
theorem exec_ptpEventTx_clear {p : Fin 96} {m : PtpMsg} (sends : s.ptpSends p m = true)
    (clear : (s.port p).clear (s.hkClass p) = true) (seqId : BitVec 16) (body : List Byte) :
    let x := s.ptpFrame p m (s.ptpBytes m seqId body)
    let y := s.atWire p x.1
    exec (.ptpEventTx p m seqId body) s = .next (y.2.onPort p (fun q => q.send (s.hkClass p) y.1 (y.2.hkBytes p x.2))) := by
  show execPtpEventTx p m seqId body s = _
  unfold execPtpEventTx
  rw [if_neg (by simp [sends])]
  dsimp only
  rw [if_pos clear]
  rfl

/-- Two steps, or no Sync: the frame's stamp goes to MC3. -/
theorem exec_ptpEventTx_stamps {p : Fin 96} {m : PtpMsg} (sends : s.ptpSends p m = true)
    (clear : (s.port p).clear (s.hkClass p) = true) (two : s.ptpTwoStep = true ∨ m ≠ .sync)
    (seqId : BitVec 16) (body : List Byte) :
    ∃ t, exec (.ptpEventTx p m seqId body) s = .next t
      ∧ t.fab.ptpStamps = s.fab.ptpStamps ++ [s.ptpStamp p true m seqId] := by
  refine ⟨_, exec_ptpEventTx_clear sends clear seqId body, ?_⟩
  rw [State.atWire_stamps p _ (State.ptpFrame_what ..) two]
  rfl

/-- One step: the Sync leaves with its timestamp. -/
theorem exec_ptpEventTx_oneStep (h : Canon s) {p : Fin 96} (sends : s.ptpSends p .sync = true)
    (clear : (s.port p).clear (s.hkClass p) = true) (one : s.ptpTwoStep = false) (seqId : BitVec 16) (body : List Byte) :
    ∃ t eth, exec (.ptpEventTx p .sync seqId body) s = .next t
      ∧ (t.port p).sent = (s.port p).sent ++
        [{ eth := eth, what := .ptp .sync (stampedSync (s.ptpBytes .sync seqId body) (s.ptpStamp p true .sync seqId).ns) }]
      ∧ t.fab.ptpStamps = s.fab.ptpStamps := by
  obtain ⟨eth, wire⟩ := State.atWire_oneStep p _ (State.ptpFrame_what s p .sync (s.ptpBytes .sync seqId body)) one
  refine ⟨_, eth, exec_ptpEventTx_clear sends clear seqId body, ?_, ?_⟩
  · rw [wire, State.port_onPort_same _ _ h, Port.send_clear clear]
  · rw [wire]
    rfl

end Sys2Proof.Machine
end

section
open Sys2Proof Sys2Proof.Machine

/-- Settles O42: a message heard is stamped, chosen by or served; one that meets the wire at once is stamped there. -/
theorem timeFollowsPtp : Obligations.TimeFollowsPtp := by
  intro p s hs runs noFault
  refine ⟨fun x t on xport domain => ?heard, fun m seqId body sends clear => ⟨fun two => ?stamped, fun one sync => ?oneStep⟩,
    fun t mode slave late => ?lost⟩
  case heard =>
    have heard : PtpHeard (s.at_ t) p x := ⟨runs, noFault, on, xport, domain⟩
    refine ⟨fun event => ?event, fun sync slave => ?sync, fun a general master => ?announce⟩
    case event =>
      refine ⟨_, exec_ptpMessageRx_event heard event, ?_⟩
      split
      · rw [State.servo_fab]
        rfl
      · rfl
    case sync =>
      have run := exec_ptpMessageRx_event heard (by simp [sync])
      extract_lets u at run
      rw [if_pos ⟨sync, slave⟩] at run
      have fab := State.servo_fab u x.offset
      refine ⟨_, run, ?_, ?_, ?_, ?_, ?_, u.servo_only x.offset .cores (by decide), u.servo_now x.offset⟩ <;> rw [fab] <;> rfl
    case announce =>
      exact ⟨_, exec_ptpMessageRx_announce heard general master, State.electSlave_slavePort _, State.electSlave_masters _,
        State.electSlave_unlocks⟩
  case stamped => exact exec_ptpEventTx_stamps sends clear two seqId body
  case oneStep =>
    subst sync
    obtain ⟨t, eth, run, sent, stamps⟩ := exec_ptpEventTx_oneStep hs sends clear one seqId body
    exact ⟨t, _, eth, run, sent, originTimestamp_stampedSync (length_ptpBytes s .sync seqId body) _, stamps⟩
  case lost =>
    show execPtpSyncLoss t s = _
    have due : ¬ ((s.at_ t).ptpMode = 0 ∨ (s.at_ t).fab.slavePort = 0x7F
        ∨ (s.at_ t).clk.now < (s.at_ t).fab.lastSync + 4 * (s.at_ t).syncNs) := by
      rintro (off | none | early)
      · exact mode off
      · exact slave none
      · exact absurd late (Nat.not_le.2 early)
    exact if_neg due
end

section
/-! SUPPORT. A port whose table of pauses lists one class twice, which the canonical form of a state does not exclude: it does
not look into a port's own tables. -/

namespace Sys2Proof.Machine

/-- Port 0 is Up, with PFC on for priority 0, and lists a pause of class 0 twice. -/
def sTwicePaused : State :=
  { ports := [(0, { st := .up, pause := [(0, 5), (0, 7)] })], cfg := { applied := [(0x03000004, some 0x77010005)] } }

theorem sTwicePaused_canon : Canon sTwicePaused := canonB_sound _ (by decide +kernel)

/-- Zero quanta for class 0 end the pause listed first, and the one listed second stands. -/
theorem sTwicePaused_keeps_pause : ∃ u, exec (.pfcFrameRx 0 [] 1) sTwicePaused = .next u ∧ Tbl.get 0 (u.port 0).pause 0 = 7 :=
  ⟨_, rfl, by decide +kernel⟩

end Sys2Proof.Machine
end

section
open Sys2Proof Sys2Proof.Machine

/-- Refutes O33 in its clause on PFC frames: in a port that lists a class's pause twice, a frame with zero quanta for the class
ends the first and leaves the second in force. The statement's premise `Canon` does not ask that a port's own tables, the
pauses among them, are in canonical form. -/
theorem not_portsAnswerAndPause : ¬ Obligations.PortsAnswerAndPause := by
  intro claim
  obtain ⟨-, -, -, -, pfc, -⟩ := claim 0 sTwicePaused sTwicePaused_canon (by decide +kernel)
  obtain ⟨t, run, -, -, pause⟩ := pfc [] 1 ⟨0, by decide, by decide +kernel, by decide +kernel⟩
  obtain ⟨u, run', stands⟩ := sTwicePaused_keeps_pause
  obtain rfl : t = u := Host.Outcome.next.inj (run.symm.trans run')
  have ends : Tbl.get 0 (t.port 0).pause 0 = 0 := (pause 0 (by decide)).trans (by decide +kernel)
  exact absurd (stands.symm.trans ends) (by decide)
end

section
/-! SUPPORT. The host's link when it is reset (R288): what the reset leaves alone, and a link whose slices hold nothing. -/

namespace Sys2Proof.Machine

variable {s : State}

theorem State.hostReset_only (s : State) : Within [.cores, .mem, .ports, .fab, .host, .cfg, .flash] s s.hostReset :=
  State.hostReset_within Within.rfl (by decide) (by decide) (by decide) (by decide) (by decide) (by decide) (by decide)

theorem State.enterAbsent_linkUp (s : State) : s.enterAbsent.host.linkUp = s.host.linkUp := by
  unfold State.enterAbsent
  split <;> rfl

theorem State.hostReset_linkUp (s : State) : s.hostReset.host.linkUp = false := by
  unfold State.hostReset
  exact State.enterAbsent_linkUp _

theorem State.sliceGo_of_idle {n : Nat} (held : (s.slice n).held = []) (commits : (s.slice n).commits = []) : s.sliceGo n = s := by
  rw [State.sliceGo, commits]
  exact State.retryHeld_of_none held

/-- Where no slice holds anything, nothing goes on as the link is reset, and nothing is logged. -/
theorem State.hostReset_flash (h : Canon s) (idle : ∀ n, (s.slice n).held = [] ∧ (s.slice n).commits = []) :
    s.hostReset.flash = s.flash := by
  have aperture : Within [.cfg] s s.dropAperture := State.dropAperture_within Within.rfl (by decide)
  unfold State.hostReset
  extract_lets s1 f _ s2 s3 _ s4
  have quiet : ∀ n, (s2.slice n).held = [] ∧ (s2.slice n).commits = [] := by
    intro n
    have slices : s1.mem.slices = s.mem.slices := congrArg Mem.slices (aperture .mem (by decide))
    obtain ⟨held, commits⟩ := idle n
    have wf : Tbl.wf {} s1.mem.slices = true := slices ▸ h.slices
    have same : Tbl.get {} s1.mem.slices n = s.slice n := congrArg (Tbl.get ({} : Slice) · n) slices
    have found : s2.slice n = f (Tbl.get {} s1.mem.slices n) ∨ s2.slice n = {} := Tbl.get_mapv ({} : Slice) f s1.mem.slices n wf
    rcases found with e | e <;> rw [e]
    · rw [same]
      simp [f, held, commits]
    · exact ⟨rfl, rfl⟩
  have still : s3 = s2 := List.foldl_fixed' (f := fun (s : State) (x : Nat × Slice) => s.sliceGo x.1)
    (fun x => State.sliceGo_of_idle (quiet x.1).1 (quiet x.1).2) s2.mem.slices
  have absent : s4.enterAbsent.flash = s4.flash :=
    State.enterAbsent_within (W := [.host]) Within.rfl (by decide) .flash (by decide)
  rw [absent]
  show s3.flash = _
  rw [still]
  exact aperture .flash (by decide)

end Sys2Proof.Machine
end

section
/-! SUPPORT. References and shared time (R338, R346): a lost reference, ports without a clock, a beacon. -/

namespace Sys2Proof.Machine

variable {s : State}

theorem bit_setBit_same {n i : Nat} (w : BitVec n) (h : i < n) : bit (setBit w i) i = true := by
  rw [bit, setBit, BitVec.getLsbD_or, BitVec.getLsbD_ofNat, Nat.testBit_two_pow_self, decide_eq_true h, Bool.true_and,
    Bool.or_true]

/-- A reference is lost: recorded, and logged while MC0 runs (R338). -/
def State.noteLost (s : State) (i : Nat) : State :=
  let u := { s with clk :=
    { s.clk with
      refLost := setBit s.clk.refLost i
      everLost := setBit s.clk.everLost i
      optLostAt := if i = 1 then s.clk.now else s.clk.optLostAt } }
  if u.mc0Up then u.logErr 8 0 0 0 (toLE 4 (u.readClk 0x06000000).toNat) else u

theorem State.noteLost_only (s : State) (i : Nat) : Within [.flash, .clk] s (s.noteLost i) :=
  within_ite (State.logErr_within _ _ _ _ _ (within_clk _ Within.rfl (by decide)) (by decide))
    (within_clk _ Within.rfl (by decide))

theorem State.noteLost_clk (s : State) (i : Nat) :
    (s.noteLost i).clk.refLost = setBit s.clk.refLost i ∧ (s.noteLost i).clk.everLost = setBit s.clk.everLost i := by
  unfold State.noteLost
  extract_lets _ u
  split <;> exact ⟨rfl, rfl⟩

theorem exec_refLost_new {i : Fin 4} (new : bit s.clk.refLost i = false) (t : Nat) :
    exec (.refLost i t) s = .next (if i.val = 3 then ((s.at_ t).noteLost i).hostReset else (s.at_ t).noteLost i) := by
  show execRefLost i t s = _
  unfold execRefLost
  extract_lets u v
  rw [if_neg (by rw [show u.clk.refLost = s.clk.refLost from rfl, new]; exact Bool.false_ne_true)]
  rfl

/-- A port whose transport has no clock: Down if it was Up or trained. -/
def State.unclockPort (s : State) (p : Nat) : State :=
  if (s.port p).st = .up ∨ (s.port p).st = .training then s.portTo p .down else s

theorem State.unclockPort_keeps (p : Nat) (h : Canon s) : Canon (s.unclockPort p) := by
  unfold State.unclockPort
  split
  · exact State.portTo_canon p .down h
  · exact h

theorem State.port_unclockPort (p : Nat) (h : Canon s) : (s.unclockPort p).port p =
    if (s.port p).st = .up ∨ (s.port p).st = .training then (s.port p).moved .down else s.port p := by
  unfold State.unclockPort
  split
  · exact State.port_portTo h p .down
  · rfl

theorem State.port_unclockPort_other (s : State) {p m : Nat} (hm : m ≠ p) : (s.unclockPort p).port m = s.port m := by
  unfold State.unclockPort
  split
  · exact State.port_portTo_other s p .down hm
  · rfl

theorem exec_optHoldoverExpiry_out {t : Nat} (out : (s.at_ t).optHoldoverOut = true) :
    exec (.optHoldoverExpiry t) s = .next ((List.range 96).foldl State.unclockPort (s.at_ t)) := by
  show execOptHoldoverExpiry t s = _
  unfold execOptHoldoverExpiry
  rw [if_neg (by simp [out])]
  rfl

theorem State.port_unclocked (h : Canon s) {p : Nat} (hp : p < 96) (st : (s.port p).st = .up ∨ (s.port p).st = .training) :
    (((List.range 96).foldl State.unclockPort s).port p).st = .down := by
  rw [read_foldl (read := State.port)
    (f := fun q => if q.st = .up ∨ q.st = .training then q.moved .down else q) State.unclockPort_keeps State.port_unclockPort
    State.port_unclockPort_other List.nodup_range h p, if_pos (List.mem_range.2 hp), if_pos st]
  rfl

theorem State.unclocked_only (s : State) : Within [.ports, .fab] s ((List.range 96).foldl State.unclockPort s) :=
  within_foldl _ _ Within.rfl fun _ p h => within_ite (State.portTo_within p .down h (by decide) (by decide)) h

/-- The greatest of some numbers and a bound is no less than the bound. -/
theorem le_foldl_max {α : Type} (f : α → Nat) (l : List α) (m : Nat) : m ≤ l.foldl (fun m x => max m (f x)) m := by
  induction l generalizing m with
  | nil => exact Nat.le_refl m
  | cons x l ih => exact Nat.le_trans (Nat.le_max_left m (f x)) (ih _)

theorem exec_timeBeacon_maxErr (s : State) (t : Nat) : ∃ u, exec (.timeBeacon t) s = .next u
    ∧ u.clk.skew = Tbl.mapv 0 beaconNext s.clk.skew ∧ s.clk.maxErr.toNat ≤ u.clk.maxErr.toNat ∧ Within [.clk] s u := by
  refine ⟨_, rfl, rfl, ?_, within_clk _ (State.at_within t Within.rfl (by decide)) (by decide)⟩
  have worst := le_foldl_max (fun x : Nat × Int => x.2.natAbs / 65536) s.clk.skew s.clk.maxErr.toNat
  have small := s.clk.maxErr.isLt
  show _ ≤ (BitVec.ofNat 8 (min 255 (s.clk.skew.foldl (fun m x => max m (x.2.natAbs / 65536)) s.clk.maxErr.toNat))).toNat
  rw [BitVec.toNat_ofNat]
  omega

end Sys2Proof.Machine
end

section
/-! SUPPORT. Supplies (R321, R334, R424): what a loss of power leaves. -/

namespace Sys2Proof.Machine

variable {s : State}

/-- A domain whose supply is gone. -/
def Domain.unpowered (x : Domain) : Domain :=
  { x.setV 0 with st := .off, amps := 0, askedAt := none, granted := none, withheld := false }

theorem State.dom_unpowered (h : Canon s) {d : Nat} (hd : d < 88) :
    (((List.range 88).foldl (fun s d => s.onDom d Domain.unpowered) s).dom d).st = .off := by
  rw [read_foldl (read := State.dom) (f := Domain.unpowered) (fun d => State.onDom_keeps d Domain.unpowered)
    (fun d => State.dom_onDom_same d Domain.unpowered) (fun s _ _ hm => State.dom_onDom_other s _ _ Domain.unpowered hm)
    List.nodup_range h d, if_pos (List.mem_range.2 hd)]
  rfl

/-- A loss of power resets the link and turns every domain off but the always-on one; of the parts that the reset leaves, the
flash stands, and the pins but PWR_GOOD. -/
theorem State.powerOff_loses (h : Canon s) : (∀ d < 88, (s.powerOff.dom d).st = .off) ∧ s.powerOff.host.linkUp = false
    ∧ s.powerOff.flash = s.hostReset.flash ∧ s.powerOff.pins = { s.pins with pwrGood := false } ∧ s.powerOff.cores = []
    ∧ s.powerOff.jobs = {} ∧ s.powerOff.mgmt.stage = 0 := by
  unfold State.powerOff
  extract_lets r off u
  have domains : ∀ d < 88, (u.dom d).st = .off := fun d => State.dom_unpowered (State.hostReset_canon h)
  have only : Within [.pwr] r u := within_foldl _ _ Within.rfl fun _ d k => State.onDom_within d off k (by decide)
  clear_value u
  refine ⟨domains, ?_, only .flash (by decide), ?_, rfl, rfl, rfl⟩
  · exact (congrArg HostIf.linkUp (only .host (by decide))).trans s.hostReset_linkUp
  · exact congrArg (fun x : Pins => { x with pwrGood := false })
      ((only .pins (by decide)).trans (s.hostReset_only .pins (by decide)))

/-- The input is out of its range (R425). -/
def State.vinLost (s : State) (mv : Nat) : State :=
  { s with pwr := { s.pwr with inputMv := BitVec.ofNat 16 (min mv 65535) }, pins := { s.pins with vinOk := false } }

theorem exec_vinOutOfRange_off {mv : Nat} (out : mv < 36000 ∨ 62000 < mv) :
    exec (.vinOutOfRange mv) s = .next (s.vinLost mv).allOff := by
  have off : ¬ (36000 ≤ mv ∧ mv ≤ 62000) := by omega
  show execVinOutOfRange mv s = _
  unfold execVinOutOfRange
  exact if_neg off

theorem exec_vin48Restored_runs {mv : Nat} (lost : s.pins.vinOk = false) (low : 40000 ≤ mv) (high : mv ≤ 60000) :
    ∃ u, exec (.vin48Restored mv) s = .next u ∧ u.pins.vinOk = true ∧ u.mgmt.up = if s.pwr.alwaysOn then 1 else 0 := by
  have runs : ¬ (s.pins.vinOk = true ∨ mv < 40000 ∨ 60000 < mv) := by
    simp only [lost, Bool.false_eq_true, false_or]
    omega
  exact ⟨_, if_neg runs, rfl, rfl⟩

/-- Power is good: the tiles that work are counted and SMB_ADDR is sampled (R424). -/
def State.powered (s : State) (strap : BitVec 2) : State :=
  { s with
    pins := { s.pins with pwrGood := true, smbAddr := strap }
    pwr := { s.pwr with tiles := BitVec.ofNat 5 (16 - popCount16 s.pwr.tilesBad) } }

theorem exec_pwrGoodRise_starts (b : Boot) (strap : BitVec 2) (t : Nat) (off : s.pins.pwrGood = false)
    (io33 : s.pins.vddio33 = true) (io18 : s.pins.vddio18 = true) (vin : s.pins.vinOk = true) (on : s.pwr.alwaysOn = true) :
    let u := (s.at_ t).powered strap
    exec (.pwrGoodRise b strap t) s = .next (u.beginStart (if u.fullTests b then 1 else 2) b) := by
  have good : ¬ (s.pins.pwrGood || !s.pins.vddio33 || !s.pins.vddio18 || !s.pins.vinOk || !s.pwr.alwaysOn) = true := by
    simp [off, io33, io18, vin, on]
  show execPwrGoodRise b strap t s = _
  unfold execPwrGoodRise
  exact if_neg good

end Sys2Proof.Machine
end

section
/-! SUPPORT. Stage 5 of a start (R366, R368–R370): the cores that join the field-failure list, and the steering. -/

namespace Sys2Proof

/-- A table into which a list of keys is written reads as what was written at those, and as it did elsewhere. -/
theorem Tbl.get_foldl_set {α : Type} [DecidableEq α] (d : α) (f : Nat → α) (l : List Nat) {t : Tbl α}
    (h : Tbl.wf d t = true) (k : Nat) :
    Tbl.get d (l.foldl (fun t i => Tbl.set d t i (f i)) t) k = if k ∈ l then f k else Tbl.get d t k := by
  induction l generalizing t with
  | nil => simp
  | cons i l ih =>
    rw [List.foldl_cons, ih (Tbl.set_wf d t i (f i) h)]
    by_cases hk : k = i
    · subst hk
      simp [h]
    · simp [hk]

namespace Machine

variable {s : State}

theorem State.fieldFail_fails (s : State) (f : FieldFail) (unit idx reason : Nat) :
    (s.fieldFail f unit idx reason).flash.fails = if f ∈ s.flash.fails then s.flash.fails else s.flash.fails ++ [f] := by
  unfold State.fieldFail
  simp only [List.contains_iff_mem]
  split <;> rfl

theorem State.mem_fieldFail (s : State) (f : FieldFail) (unit idx reason : Nat) :
    f ∈ (s.fieldFail f unit idx reason).flash.fails := by
  rw [State.fieldFail_fails]
  split
  · assumption
  · simp

theorem State.fails_subset_fieldFail (s : State) (f : FieldFail) (unit idx reason : Nat) :
    s.flash.fails ⊆ (s.fieldFail f unit idx reason).flash.fails := by
  rw [State.fieldFail_fails]
  split
  · exact List.Subset.refl _
  · exact List.subset_append_left _ _

/-- Cores that fail at stage 5 join the list. -/
def State.failCores (s : State) (l : List (Fin 72)) : State := l.foldl (fun s (pc : Fin 72) => s.fieldFail (.core pc) 1 pc 0) s

theorem State.failCores_only (s : State) (l : List (Fin 72)) : Within [.flash] s (s.failCores l) :=
  within_foldl _ _ Within.rfl fun _ _ h => State.fieldFail_within _ _ _ _ h (by decide)

theorem State.fails_subset_failCores (s : State) (l : List (Fin 72)) : s.flash.fails ⊆ (s.failCores l).flash.fails :=
  foldl_keeps (P := fun u : State => s.flash.fails ⊆ u.flash.fails) _ l (List.Subset.refl _)
    fun (u : State) pc k => List.Subset.trans k (u.fails_subset_fieldFail (.core pc) 1 pc 0)

theorem State.mem_failCores (s : State) {l : List (Fin 72)} {pc : Fin 72} (h : pc ∈ l) :
    FieldFail.core pc ∈ (s.failCores l).flash.fails := by
  induction l generalizing s with
  | nil => exact absurd h List.not_mem_nil
  | cons x l ih =>
    rcases List.mem_cons.1 h with rfl | h
    · exact State.fails_subset_failCores _ l (s.mem_fieldFail (.core pc) 1 pc 0)
    · exact ih _ h

/-- The physical cores of the enabled clusters. -/
def State.clusterCores (s : State) : List Nat := s.clusters.flatMap (fun cl => (List.range 9).map (fun k => 9 * cl + k))

theorem State.mem_clusterCores {cl k : Nat} (h : cl ∈ s.clusters) (hk : k < 9) : 9 * cl + k ∈ s.clusterCores :=
  List.mem_flatMap.2 ⟨cl, h, List.mem_map_of_mem (List.mem_range.2 hk)⟩

theorem State.applySteer_mgmt (cold : s.mgmt.kind ≠ 3) (r : Stage5) : (s.applySteer r).mgmt =
    { s.mgmt with steer := s.clusterCores.foldl (fun t pc => Tbl.set {} t pc (steerOf r pc)) [] } := by
  unfold State.applySteer
  rw [if_neg cold]
  extract_lets pcs u
  exact (within_foldl (W := [.flash]) _ _ Within.rfl
    fun _ _ h => State.fieldFail_within _ _ _ _ h (by decide)) .mgmt (by decide)

theorem State.steer_applySteer (cold : s.mgmt.kind ≠ 3) (r : Stage5) {cl k : Nat} (h : cl ∈ s.clusters) (hk : k < 9) :
    Tbl.get {} (s.applySteer r).mgmt.steer (9 * cl + k) = steerOf r (9 * cl + k) := by
  rw [State.applySteer_mgmt cold]
  exact (Tbl.get_foldl_set {} (steerOf r) s.clusterCores (Tbl.wf_nil _) _).trans (if_pos (State.mem_clusterCores h hk))

theorem State.noteSpare_fails (s : State) (lc : Nat) : (s.noteSpare lc).flash.fails = s.flash.fails := by
  unfold State.noteSpare
  split
  · extract_lets own
    split <;> rfl
  · rfl

theorem State.loadMap_flash (s : State) (lc : Nat) : (s.loadMap lc).flash = s.flash :=
  State.loadMap_within (W := [.cores]) lc Within.rfl (by decide) .flash (by decide)

/-- Loading the core map leaves the field-failure list. -/
theorem State.fails_mapped (s : State) (l : List Nat) :
    (l.foldl (fun s lc => (s.noteSpare lc).loadMap lc) s).flash.fails = s.flash.fails := by
  induction l generalizing s with
  | nil => rfl
  | cons lc l ih => rw [List.foldl_cons, ih, State.loadMap_flash, State.noteSpare_fails]

section
variable {t : Nat} {r : Stage5} (stage : s.mgmt.stage = 5) (noFault : s.mgmt.faultActive = false)
  (coolant : s.thm.coolantOk = true) (power : s.pins.pwrGood = true)
include stage noFault coolant power

theorem stageFive_runs : ¬ ((s.at_ t).mgmt.stage ≠ 5 ∨ (s.at_ t).mgmt.faultActive = true ∨ (!(s.at_ t).thm.coolantOk) = true
    ∨ (!(s.at_ t).pins.pwrGood) = true) := by
  show ¬ (s.mgmt.stage ≠ 5 ∨ s.mgmt.faultActive = true ∨ (!s.thm.coolantOk) = true ∨ (!s.pins.pwrGood) = true)
  simp [stage, noFault, coolant, power]

theorem exec_startStage5_fails (beyond : r.beyond = true) : exec (.startStage5 r t) s = .next ((s.at_ t).failStart 7 5) := by
  show execStartStage5 r t s = _
  unfold execStartStage5
  rw [if_neg (stageFive_runs stage noFault coolant power), if_pos beyond]

/-- The device runs: what failed is listed and steered as `applySteer` has it, and the schedulers stand. -/
theorem exec_startStage5_done (within : r.beyond = false) : ∃ u, exec (.startStage5 r t) s = .next u
    ∧ (u.mgmt.stage = 6 ∧ u.mgmt.up = 15 ∧ u.mgmt.primary2 = false ∧ u.mgmt.standby = true ∧ u.flash.lastStartFailed = false)
    ∧ u.flash.fails = (((s.at_ t).applySteer r).failCores r.failed).flash.fails
    ∧ u.mgmt.steer = ((s.at_ t).applySteer r).mgmt.steer := by
  show ∃ u, execStartStage5 r t s = _ ∧ _
  unfold execStartStage5
  rw [if_neg (stageFive_runs stage noFault coolant power), if_neg (by simp [within])]
  extract_lets v bad x y
  have listed : Within [.flash] ((s.at_ t).applySteer r) v := State.failCores_only _ r.failed
  have switched : Within [.pwr] v x := within_foldl _ _ Within.rfl fun _ cl h => within_foldl _ _ h fun _ k h =>
    within_ite (State.goDark_within _ h (by decide)) (State.switchOn_within _ h (by decide))
  have mapped : Within [.flash, .cores] x y := within_foldl _ _ Within.rfl fun _ lc h =>
    State.loadMap_within lc (State.noteSpare_within lc h (by decide)) (by decide)
  have map : y = (List.range 64).foldl (fun s lc => (s.noteSpare lc).loadMap lc) x := rfl
  have fails := map ▸ State.fails_mapped x (List.range 64)
  clear_value x y
  have flash : x.flash = v.flash := switched .flash (by decide)
  have mgmt : y.mgmt = ((s.at_ t).applySteer r).mgmt :=
    (mapped .mgmt (by decide)).trans ((switched .mgmt (by decide)).trans (listed .mgmt (by decide)))
  refine ⟨_, rfl, ⟨rfl, rfl, rfl, rfl, rfl⟩, ?_, ?_⟩
  · exact fails.trans (congrArg Flash.fails flash)
  · show y.mgmt.steer = _
    rw [mgmt]

end

end Machine
end Sys2Proof
end

section
/-! SUPPORT. The management cores (R372, R373), and a port whose line fault clears (R215). -/

namespace Sys2Proof.Machine

variable {s : State}

/-- MC0 restarts: what it logs, and what its restart sets. -/
def State.mc0Restarted (s : State) : State :=
  { s.logErr 0xA 0 6 0 (toLE 4 0 ++ toLE 4 (s.mgmt.wdFails + 1)) with
    mgmt := { s.mgmt with mc0Restarts := satInc s.mgmt.mc0Restarts, up := setBit s.mgmt.up 0, wdFails := 0 } }

theorem exec_mc0WatchdogExpiry_restarts (b : Boot) (t : Nat) (power : s.pins.pwrGood = true) (recovery : s.mgmt.recovery = false)
    (up : s.mc0Up = true) (starting : s.starting = false) :
    exec (.mc0WatchdogExpiry true b t) s = .next (s.at_ t).mc0Restarted.serve := by
  have runs : ¬ (!(s.at_ t).pins.pwrGood || (s.at_ t).mgmt.recovery ||
      (!(s.at_ t).mc0Up && (s.at_ t).mgmt.wdFails == 0)) = true := by
    show ¬ (!s.pins.pwrGood || s.mgmt.recovery || (!s.mc0Up && s.mgmt.wdFails == 0)) = true
    simp [power, recovery, up]
  have running : ¬ (s.starting && !s.mgmt.faultActive) = true := by simp [starting]
  show execMc0WatchdogExpiry true b t s = _
  unfold execMc0WatchdogExpiry
  rw [if_neg runs]
  exact if_neg running

section
variable (t : Nat) (stage : s.mgmt.stage = 6) (primary : s.primaryUp = true)
include stage primary

theorem heartbeat_heeded : ¬ ((s.at_ t).mgmt.stage ≠ 6 ∨ (!(s.at_ t).primaryUp) = true) := by
  show ¬ (s.mgmt.stage ≠ 6 ∨ (!s.primaryUp) = true)
  simp [stage, primary]

/-- The standby scheduler takes over. -/
theorem exec_mcHeartbeatMiss_takeover (standby : s.mgmt.standby = true) : ∃ u, exec (.mcHeartbeatMiss t) s = .next u
    ∧ u.mgmt.primary2 = !s.mgmt.primary2 ∧ u.mgmt.standby = false ∧ u.mgmt.takeovers = satInc s.mgmt.takeovers
    ∧ u.cores = s.cores ∧ u.jobs = s.jobs := by
  show ∃ u, execMcHeartbeatMiss t s = _ ∧ _
  unfold execMcHeartbeatMiss
  rw [if_neg (heartbeat_heeded t stage primary)]
  exact ⟨_, if_pos standby, rfl, rfl, rfl, rfl, rfl⟩

/-- With no scheduler ready, firmware has failed. -/
theorem exec_mcHeartbeatMiss_fatal (alone : s.mgmt.standby = false) :
    ∃ u : State, exec (.mcHeartbeatMiss t) s = .next (u.deviceFault 3) ∧ u.cores = s.cores := by
  show ∃ u : State, execMcHeartbeatMiss t s = _ ∧ _
  unfold execMcHeartbeatMiss
  rw [if_neg (heartbeat_heeded t stage primary)]
  exact ⟨_, if_neg (Bool.eq_false_iff.1 alone), rfl⟩

end

/-- A line fault of a port that is not Down clears, and nothing else changes. -/
theorem exec_faultCleared_notDown {p : Fin 96} (fault : (s.port p).rxLf = true ∨ (s.port p).rxRf = true)
    (st : (s.port p).st ≠ .down) :
    exec (.faultCleared p) s = .next (s.onPort p (fun q => { q with rxLf := false, rxRf := false })) := by
  have present : ¬ (!(s.port p).rxLf && !(s.port p).rxRf) = true := by
    rcases fault with e | e <;> simp [e]
  show execFaultCleared p s = _
  unfold execFaultCleared
  rw [if_neg present]
  exact congrArg _ (if_neg (by simp [st]))

end Sys2Proof.Machine
end

section
open Sys2Proof Sys2Proof.Machine

/-- Settles O54: each command comes to the state its lemma above gives; what a start, a fault or an apply makes of that state the
statement names by the model's own operation. -/
theorem clocksSuppliesAndStarts : Obligations.ClocksSuppliesAndStarts := by
  intro s hs
  refine ⟨fun i t new => ?refLost, fun i => rfl, fun t out => ?holdover, fun t => ?beacon, fun b strap t off io33 io18 vin on => ?rise,
    fun good => ?fall, rfl, ⟨_, rfl, rfl, rfl, rfl⟩, fun io18 => rfl, fun mv out => ?vin, fun mv => exec_vin48Restored_runs,
    fun r t stage noFault coolant power => ⟨fun within => ?done, fun beyond => ?fails⟩, fun b t due power => ?banked,
    fun c t least most => if_pos ⟨least, most⟩, fun b t power recovery up starting => ?mc0,
    fun t stage primary => ⟨exec_mcHeartbeatMiss_takeover t stage primary, exec_mcHeartbeatMiss_fatal t stage primary⟩,
    fun stage up alone noFault => ?standby, fun p fault st => ?cleared⟩
  case refLost =>
    obtain ⟨lost, ever⟩ := (s.at_ t).noteLost_clk i
    have noted := (s.at_ t).noteLost_only i
    refine ⟨_, exec_refLost_new new t, ?_⟩
    by_cases cxl : i.val = 3
    · rw [if_pos cxl, show State.clk _ = _ from State.hostReset_only _ .clk (by decide), lost, ever]
      exact ⟨bit_setBit_same _ i.isLt, bit_setBit_same _ i.isLt, fun _ => State.hostReset_linkUp _, fun no => absurd cxl no⟩
    · rw [if_neg cxl, lost, ever]
      exact ⟨bit_setBit_same _ i.isLt, bit_setBit_same _ i.isLt, fun is => absurd is cxl,
        fun _ => ⟨noted .host (by decide), noted .cores (by decide)⟩⟩
  case holdover =>
    exact ⟨_, exec_optHoldoverExpiry_out out, fun p hp st => State.port_unclocked (s := s.at_ t) hs hp st,
      (s.at_ t).unclocked_only .cores (by decide)⟩
  case beacon =>
    obtain ⟨u, run, skew, maxErr, only⟩ := exec_timeBeacon_maxErr s t
    exact ⟨u, run, skew, maxErr, only .cores (by decide), only .mgmt (by decide)⟩
  case rise => exact ⟨(s.at_ t).powered strap, rfl, rfl, exec_pwrGoodRise_starts b strap t off io33 io18 vin on⟩
  case fall =>
    obtain ⟨domains, link, flash, pins, cores, jobs, stage⟩ := State.powerOff_loses hs
    exact ⟨s.powerOff, if_pos good, congrArg Pins.pwrGood pins, cores, jobs, link, stage, domains,
      fun idle => flash.trans (State.hostReset_flash hs idle)⟩
  case vin =>
    obtain ⟨-, -, -, pins, cores, -⟩ := State.powerOff_loses (s := s.vinLost mv) hs
    exact ⟨(s.vinLost mv).allOff, exec_vinOutOfRange_off out, congrArg Pins.vinOk pins, congrArg Pins.pwrGood pins, rfl, cores⟩
  case done =>
    obtain ⟨u, run, ⟨running, up, primary, standby, good⟩, fails, steer⟩ :=
      exec_startStage5_done stage noFault coolant power within
    refine ⟨u, run, running, up, primary, standby, good, fun pc listed => ?_, fun cold cl enabled k hk => ?_⟩
    · rw [fails]
      exact State.mem_failCores _ listed
    · rw [steer]
      exact State.steer_applySteer (s := s.at_ t) cold r enabled hk
  case fails => exact ⟨_, exec_startStage5_fails stage noFault coolant power beyond, rfl, rfl, rfl⟩
  case banked => exact if_pos (by simp [due, power] : (s.mgmt.bankedDue && s.pins.pwrGood) = true)
  case mc0 => exact ⟨(s.at_ t).mc0Restarted, rfl, rfl, exec_mc0WatchdogExpiry_restarts b t power recovery up starting⟩
  case standby =>
    intro n down
    have ready : ¬ (s.mgmt.stage ≠ 6 ∨ (!s.mc0Up) = true ∨ s.mgmt.standby = true ∨ bit s.mgmt.up n = true
        ∨ s.mgmt.faultActive = true) := by
      simp [stage, up, alone, down, noFault]
    exact if_neg ready
  case cleared =>
    refine ⟨_, exec_faultCleared_notDown fault st, State.port_onPort_same p _ hs, fun k hk => State.port_onPort_other s p k _ hk⟩
end

section
/-! SUPPORT. What the home engine asks of a flow and of the transport (R231, R233, R235). -/

namespace Sys2Proof.Machine

/-- A flow that the transport still serves. -/
theorem Flow.not_gone {f : Flow} (lives : f.st = .isOpen ∨ f.st = .closing) : ¬ (f.st ≠ .isOpen ∧ f.st ≠ .closing) :=
  fun ⟨notOpen, notClosing⟩ => lives.elim notOpen notClosing

theorem State.not_halted {s : State} (runs : s.teRuns = true) : ¬ (!s.teRuns) = true := by
  rw [runs]
  decide

/-- A packet that finds its flow's context on the die counts a hit (R233). -/
theorem State.ctxUse_cached {s : State} {fi : Nat} (cached : (s.flow fi).cached = true) :
    s.ctxUse fi = (true, s.ctxCount (fi % 8) true) := if_pos cached

end Sys2Proof.Machine
end

section
/-! SUPPORT. bar.arrive (R245, R246): arrivals for the oldest incomplete epoch, for the next one and for later ones. -/

namespace Sys2Proof.Machine

/-- A row without the wait of its own. -/
def Row.unheld (r : Row) : Row := { r with hold := fun _ _ => none }

theorem checkErr_unheld (r : Row) (s : State) (c : Ctx) : checkErr r.unheld s c = checkErr r s c := rfl

/-- A command that may begin has been let past each obstacle. -/
theorem Adm.past_of_go {p : Prop} [Decidable p] {a b : Adm} {c : Ctx} (go : (if p then a else b) = .go c) (no : a ≠ .go c) :
    ¬ p ∧ b = .go c := by
  split at go
  · exact absurd go no
  · next past => exact ⟨past, go⟩

/-- A row's own wait is looked at last, when everything else lets the command begin. -/
theorem admission_of_held {r : Row} {op lc : Nat} {s u : State} {e : Eng} {c : Ctx} {cause : Nat}
    (go : admission r.unheld op s lc e = .go c) (held : r.hold s c = some (cause, u)) :
    admission r op s lc e = .stall cause u := by
  obtain ⟨f, l, front, rfl⟩ := admit_go go
  have front' : ((s.core lc).seq.eng e).fetched = f :: l := front
  have checks := (checkErr_unheld r s _).symm.trans (admit_check go)
  unfold admission at go ⊢
  simp only [front', checkErr_unheld, checks, held] at go ⊢
  -- the waits and checks before step 1 of R96, and those of step 2 before the row's own
  iterate 8
    obtain ⟨past, go⟩ := Adm.past_of_go go nofun
    rw [if_neg past]
  split at go
  · cases go
  · iterate 2
      obtain ⟨past, go⟩ := Adm.past_of_go go nofun
      rw [if_neg past]

section
variable {s : State} {n : BitVec 20} {lc : Nat} {e : BitVec 32} (used : (s.coll n).used = true)
include used

theorem State.collArrive_oldest (oldest : e = (s.coll n).epoch) : s.collArrive n lc e =
    some ((s.onColl n (fun g => { g with arrived := g.arrived ||| BitVec.ofNat 64 (2 ^ lc) })).collPump n) := by
  unfold State.collArrive
  simp only [used, Bool.not_true, Bool.false_eq_true, if_false]
  exact if_pos oldest

theorem State.collArrive_next (next : e = (s.coll n).epoch + 1) : s.collArrive n lc e =
    some (s.onColl n (fun g => { g with arrivedNext := g.arrivedNext ||| BitVec.ofNat 64 (2 ^ lc) })) := by
  have later : e ≠ (s.coll n).epoch := by bv_omega
  unfold State.collArrive
  simp only [used, Bool.not_true, Bool.false_eq_true, if_false]
  rw [if_neg later, if_pos next]

/-- An epoch less than 2³¹ ahead of the oldest incomplete one is not complete. -/
theorem State.collArrive_later (ahead : (e - (s.coll n).epoch).toNat < 2 ^ 31) (notOldest : e ≠ (s.coll n).epoch)
    (notNext : e ≠ (s.coll n).epoch + 1) : s.collArrive n lc e = none := by
  have incomplete : ¬ (s.coll n).completed e = true := by
    rw [Coll.completed_iff]
    bv_omega
  unfold State.collArrive
  simp only [used, Bool.not_true, Bool.false_eq_true, if_false]
  rw [if_neg notOldest, if_neg notNext, if_neg incomplete]

end

section
variable {s : State} {lc : Fin 64} {c : Ctx} (h : Begins barArriveRow.unheld 0x0C s lc .s c)
include h

/-- An arrival that need not wait is marked, and bar.arrive retires. -/
theorem exec_barArrive_marked {u : State} (arrives : s.collArrive (barColl c.w) lc (barEpoch c.w) = some u) (hu : Canon u)
    (go : goesOn u lc .s = true) : exec (.barArrive lc) s = .next (u.onEng lc .s (Engine.retire c.f.loops)) := by
  have hlc := h.lc_eq
  have he := h.eng_eq
  rw [← hlc] at arrives
  have begins : Begins barArriveRow 0x0C s lc .s c :=
    { h with checks := h.checks, noWait := by simp [barArriveRow, arrives] }
  show execBarArrive lc s = _
  rw [execBarArrive, runCmd_go _ begins.go, arrives, Option.getD_some,
    State.retireFront_goesOn _ _ _ hu (by rw [hlc, he, go]), hlc, he]

/-- One that must wait counts a cycle of operand empty. -/
theorem exec_barArrive_waits (waits : s.collArrive (barColl c.w) lc (barEpoch c.w) = none) :
    exec (.barArrive lc) s = .next (s.stallNow lc .s 0) := by
  have held : barArriveRow.hold s c = some (0, s) := by simp [barArriveRow, h.lc_eq, waits]
  show execBarArrive lc s = _
  exact runCmd_stall _ (admission_of_held h.go held)

end

end Sys2Proof.Machine
end

section
open Sys2Proof Sys2Proof.Machine

/-- Settles O8: the row's one wait is for an epoch that the group does not track. -/
theorem twoEpochsAreTracked : Obligations.TwoEpochsAreTracked := by
  refine fun lc s c hs => ⟨fun h => ?arrive, fun e go h => ?wait⟩
  case arrive =>
    intro n e used
    have marked (f : Coll → Coll) : Canon (s.onColl n f) := State.onColl_canon n f hs
    refine ⟨fun oldest => ?_, fun next go => ?_, fun ahead notOldest notNext => ?_⟩
    · exact exec_barArrive_marked h (State.collArrive_oldest used oldest) (State.collPump_canon _ (marked _))
    · exact exec_barArrive_marked h (State.collArrive_next used next) (marked _) go
    · exact exec_barArrive_waits h (State.collArrive_later used ahead notOldest notNext)
  case wait =>
    intro g latest used
    have run := exec_waitBar_begun hs go h
    simp only [show (s.coll (barColl c.w)).used = true from used, true_and, Coll.completed_iff] at run
    exact run
end

section
/-! SUPPORT. Packets that their flow takes nothing from (R231, R233, R237). -/

namespace Sys2Proof.Machine

/-- A flow has nothing to take from a packet: the flow is neither Open nor Closing, its context is not on the die, or the
packet's PSN lies beyond the window or has arrived. -/
def Flow.Refuses (f : Flow) (psn : BitVec 32) : Prop :=
  (f.st ≠ .isOpen ∧ f.st ≠ .closing) ∨ f.cached = false ∨ 65536 ≤ f.ahead psn ∨ psn ∈ f.sack

/-- A packet that does not find its flow's context on the die leaves it to be fetched (R233). -/
theorem State.ctxUse_away {s : State} {fi : Nat} (away : (s.flow fi).cached = false) : ∃ t, s.ctxUse fi = (false, t) := by
  unfold State.ctxUse
  rw [away, if_neg Bool.false_ne_true]
  split
  · exact ⟨_, rfl⟩
  · exact ⟨_, rfl⟩

section
variable {s : State} {h : PktHdr} (stale : (s.flow h.flow.toNat).Refuses h.psn) (data : Bool)
include stale

/-- The checks of its home engine let no such packet through. -/
theorem State.verdict_settled : ∃ t, s.verdict h data = .settled t := by
  unfold State.verdict
  extract_lets fi f gone
  split
  · exact ⟨_, rfl⟩
  split
  · exact ⟨_, rfl⟩
  next live =>
    have lives : ¬ (f.st ≠ .isOpen ∧ f.st ≠ .closing) := (not_or.1 live).2
    cases cached : f.cached with
    | false =>
      obtain ⟨t, used⟩ := State.ctxUse_away cached
      rw [used]
      exact ⟨_, rfl⟩
    | true =>
      rw [State.ctxUse_cached cached]
      dsimp only
      split
      · exact ⟨_, rfl⟩
      next unseen =>
        split
        · exact ⟨_, rfl⟩
        next window =>
          rcases stale with dead | away | far | seen
          · exact absurd dead lives
          · cases cached.symm.trans away
          · exact absurd far window
          · exact absurd (Or.inr (List.contains_iff_mem.2 seen)) unseen

/-- What they leave has at most its ports and its fabric changed. -/
theorem State.verdict_settled_only : ∃ t, s.verdict h data = .settled t ∧ Within [.ports, .fab] s t := by
  obtain ⟨t, settled⟩ := State.verdict_settled stale data
  exact ⟨t, settled, (State.verdict_within h data Within.rfl (by decide) (by decide)).settledOut settled⟩

end

/-- A change of ports and fabric alone is none of the cores, the memory or the jobs. -/
theorem Within.placesNothing {s t : State} (only : Within [.ports, .fab] s t) :
    t.cores = s.cores ∧ t.mem = s.mem ∧ t.jobs = s.jobs :=
  ⟨only .cores (by decide), only .mem (by decide), only .jobs (by decide)⟩

section
variable {s t : State} {h : PktHdr}

theorem State.receiveData_settled (settled : s.verdict h true = .settled t) (place : State → Option (BitVec 8) × State) :
    s.receiveData h place = t := by
  unfold State.receiveData
  rw [settled]

theorem State.receiveCtl_settled (settled : s.verdict h false = .settled t) (c : Ctl) : s.receiveCtl h c = t := by
  unfold State.receiveCtl
  rw [settled]

theorem exec_readReq_settled (settled : s.verdict h false = .settled t) (addr : BitVec 40) (reqId : BitVec 16)
    (rlen : BitVec 32) : exec (.readReq h addr reqId rlen) s = .next t := by
  show execReadReq h addr reqId rlen s = _
  unfold execReadReq
  rw [settled]

end

end Sys2Proof.Machine
end

section
open Sys2Proof Sys2Proof.Machine

/-- Settles O38: the home engine lets no such packet through, and its checks change ports and fabric at most. -/
theorem stalePacketsPlaceNothing : Obligations.StalePacketsPlaceNothing := by
  intro h s _ f stale i packet
  obtain ⟨t, dataSettled, dataOnly⟩ := State.verdict_settled_only stale true
  obtain ⟨u, ctlSettled, ctlOnly⟩ := State.verdict_settled_only stale false
  have data (place : State → Option (BitVec 8) × State) : (.next (s.receiveData h place) : Res) = .next t :=
    congrArg _ (State.receiveData_settled dataSettled place)
  have ctl (c : Ctl) : (.next (s.receiveCtl h c) : Res) = .next u := congrArg _ (State.receiveCtl_settled ctlSettled c)
  rcases packet with ⟨w, d, rfl⟩ | ⟨d, b, rfl | rfl⟩ | ⟨addr, reqId, rlen, rfl⟩ | ⟨reqId, roff, err, d, rfl⟩ | ⟨tm, rfl | rfl⟩
    | ⟨core, g, abort, rfl⟩ | rfl
  · exact ⟨t, data _, dataOnly.placesNothing⟩
  · exact ⟨t, data _, dataOnly.placesNothing⟩
  · exact ⟨t, data _, dataOnly.placesNothing⟩
  · exact ⟨u, exec_readReq_settled ctlSettled addr reqId rlen, ctlOnly.placesNothing⟩
  · exact ⟨t, data _, dataOnly.placesNothing⟩
  · exact ⟨u, ctl _, ctlOnly.placesNothing⟩
  · exact ⟨u, ctl _, ctlOnly.placesNothing⟩
  · exact ⟨u, ctl _, ctlOnly.placesNothing⟩
  · exact ⟨u, ctl _, ctlOnly.placesNothing⟩
end

section
/-! SUPPORT. MC3's restart and ACK (R235, R238–R240). -/

namespace Sys2Proof.Machine

/-- Dropped from the die, with no fetch under way (R235). -/
def Flow.dropped (f : Flow) : Flow := { f with cached := false, fetching := false }

theorem State.flow_mapv_dropped {s : State} (hs : Canon s) {t : State}
    (flows : t.fab.flows = Tbl.mapv {} Flow.dropped s.fab.flows) (n : Nat) : t.flow n = (s.flow n).dropped := by
  obtain ⟨-, -, -, -, ⟨wf, -⟩, -⟩ := hs
  rw [State.flow, flows]
  exact Tbl.get_mapv_of_fixed rfl wf n

theorem bit_clrBit_same {n i : Nat} (w : BitVec n) (h : i < n) : bit (clrBit w i) i = false := by
  rw [bit, clrBit, BitVec.getLsbD_and, BitVec.getLsbD_not, BitVec.getLsbD_ofNat, Nat.testBit_two_pow_self, decide_eq_true h,
    Bool.true_and, Bool.true_and, Bool.not_true, Bool.and_false]

/-- MC3's restart begins: the contexts on the die are dropped, and nothing of the cores or the memory changes (R235, R372). -/
theorem exec_mc3Restart_begins {s : State} (runs : s.fab.mc3Restarting = false) (up : bit s.mgmt.up 3 = true) :
    ∃ t, exec (.mc3Restart false) s = .next t ∧ t.fab.mc3Restarting = true ∧ bit t.mgmt.up 3 = false
      ∧ t.mgmt.mc3Restarts = satInc s.mgmt.mc3Restarts ∧ t.cores = s.cores ∧ t.mem = s.mem
      ∧ t.fab.flows = Tbl.mapv {} Flow.dropped s.fab.flows := by
  have goes : ¬ (s.fab.mc3Restarting = true ∨ (!bit s.mgmt.up 3) = true) := by simp [runs, up]
  have run : exec (.mc3Restart false) s = execMc3Restart false s := rfl
  unfold execMc3Restart at run
  rw [if_neg Bool.false_ne_true, if_neg goes] at run
  extract_lets u at run
  have logged : Within [.flash] s u := State.logErr_within _ _ _ _ _ Within.rfl (by decide)
  refine ⟨_, run, rfl, bit_clrBit_same _ (by decide), ?_, logged .cores (by decide), logged .mem (by decide), ?_⟩
  · exact congrArg (fun m : Mgmt => satInc m.mc3Restarts) (logged .mgmt (by decide))
  · exact congrArg (fun f : Fabric => Tbl.mapv {} Flow.dropped f.flows) (logged .fab (by decide))

section
variable {s : State} {h : PktHdr} {a : AckHdr}

/-- The state an ACK finds once what it refuses has ended (R238). -/
def State.ackFound (s : State) (h : PktHdr) (a : AckHdr) : State :=
  let c := s.ctxCount (h.flow.toNat % 8) true
  if a.nakCode = 0 then c else c.refusedBy h.flow.toNat a.nakCode a.nakPsn

theorem State.ackFound_canon (hs : Canon s) : Canon (s.ackFound h a) := by
  have counted := State.ctxCount_canon (h.flow.toNat % 8) true hs
  unfold State.ackFound
  dsimp only
  split
  · exact counted
  · exact State.refusedBy_canon _ _ _ counted

/-- A round trip sampled and congestion answered leave what is unacknowledged (R241). -/
theorem Flow.unacked_congest (f : Flow) (now rtt bytes : Nat) (ece : Bool) (ai qd : Nat) :
    ((f.sample now rtt).congest now rtt bytes ece ai qd).unacked = f.unacked := by
  unfold Flow.congest
  extract_lets target
  split
  · rfl
  · split
    · rfl
    · rfl

/-- What stays unacknowledged is what the ACK does not cover, holes noted (R239). -/
theorem State.unacked_ackFlow (hs : Canon s) (p fi : Nat) (a : AckHdr) :
    ∃ g : TxPkt → TxPkt, (∀ k, (g k).psn = k.psn) ∧ ((s.ackFlow p fi a).flow fi).unacked =
      ((s.flow fi).unacked.filter (fun k => !acks a k.psn)).map g := by
  unfold State.ackFlow
  extract_lets now rtt ai qd
  rw [State.flow_onFlow_same _ _ hs]
  extract_lets got stay below bytes f f'
  refine ⟨fun k => if below k then { k with holeAt := some (k.holeAt.getD now) } else k, fun k => ?_, ?_⟩
  · dsimp only
    split
    · rfl
    · rfl
  · split
    · rfl
    · rfl

/-- No packet that an ACK covers stays unacknowledged (R239). -/
theorem State.not_acks_ackFlow (hs : Canon s) (p fi : Nat) (a : AckHdr) :
    ∀ k ∈ ((s.ackFlow p fi a).flow fi).unacked, acks a k.psn = false := by
  obtain ⟨g, psn, unacked⟩ := State.unacked_ackFlow hs p fi a
  rw [unacked]
  intro k hk
  obtain ⟨x, hx, rfl⟩ := List.mem_map.1 hk
  have uncovered := (List.mem_filter.1 hx).2
  rwa [psn, ← Bool.not_eq_true']

/-- An ACK of a flow that lives frees what it covers; the commands that own that go on, and the flow sends more or, with nothing
left on a Closing one, is Free (R231, R239). -/
theorem exec_ack_frees (up : (s.port h.port).st = .up) (runs : s.teRuns = true)
    (lives : (s.flow h.flow.toNat).st = .isOpen ∨ (s.flow h.flow.toNat).st = .closing) (known : a.nakCode.toNat < 7)
    (cached : (s.flow h.flow.toNat).cached = true) :
    let fi := h.flow.toNat
    let u := s.ackFound h a
    let v := ((u.flow fi).unacked.filter (fun k => acks a k.psn)).foldl (fun s k => s.ackOwner k) (u.ackFlow h.port fi a)
    exec (.ack h a) s = .next ((if (v.flow fi).st = .closing ∧ (v.flow fi).unacked = [] ∧ (v.flow fi).outq = [] then
      v.freeFlowAt fi else v.pumpFlow fi).bufRelease h) := by
  intro fi u v
  have live : ¬ ((!s.teRuns) = true ∨ ((s.flow fi).st ≠ .isOpen ∧ (s.flow fi).st ≠ .closing)) :=
    not_or.2 ⟨State.not_halted runs, Flow.not_gone lives⟩
  show execAck h a s = _
  unfold execAck
  dsimp only
  rw [if_neg (not_not.2 up), if_neg live, State.ctxUse_cached cached]
  exact if_neg (Nat.not_le.2 known)

end

end Sys2Proof.Machine
end

section
open Sys2Proof Sys2Proof.Machine

/-- Settles O39: an ACK frees what it covers as `ackFlow` has it; MC3's restart changes of every flow no more than that its context
is not on the die. -/
theorem acknowledgementsFreePackets : Obligations.AcknowledgementsFreePackets := by
  refine fun s => ⟨fun h a up runs lives known cached => ?ack, fun idle up => ?begins, fun restarting => if_pos restarting⟩
  case ack =>
    exact ⟨exec_ack_frees up runs lives known cached,
      fun hs => State.not_acks_ackFlow (State.ackFound_canon hs) h.port h.flow.toNat a⟩
  case begins =>
    obtain ⟨t, run, restarting, down, count, cores, mem, flows⟩ := exec_mc3Restart_begins idle up
    refine ⟨t, run, restarting, down, count, cores, mem, fun hs n => ?_⟩
    rw [State.flow_mapv_dropped hs flows]
    exact ⟨rfl, rfl, rfl⟩
end

section
/-! SUPPORT. The transport's timers (R231–R233, R238–R240): what each does once it is due. -/

namespace Sys2Proof.Machine

section
variable {s : State} {flow : BitVec 20} {t : Nat}

/-- The ACK goes 2 µs after the first arrival it has not covered (R238). -/
theorem exec_ackTimer_due {t0 : Nat} (first : (s.flow flow.toNat).firstUnacked = some t0)
    (lives : (s.flow flow.toNat).st = .isOpen ∨ (s.flow flow.toNat).st = .closing)
    (due : t0 + 2000 ≤ (s.at_ t).clk.now) (runs : s.teRuns = true) (cached : (s.flow flow.toNat).cached = true) :
    exec (.ackTimer flow t) s = .next (((s.at_ t).ctxCount (flow.toNat % 8) true).sendAck flow.toNat none) := by
  have used : (s.at_ t).ctxUse flow.toNat = (true, (s.at_ t).ctxCount (flow.toNat % 8) true) := State.ctxUse_cached cached
  show execAckTimer flow t s = _
  unfold execAckTimer
  extract_lets u f
  have first' : f.firstUnacked = some t0 := first
  rw [first']
  dsimp only
  rw [if_pos ⟨lives, due, runs⟩, used]

/-- A hole below an acknowledged packet is sent again once the reorder time is over (R239). -/
theorem exec_reorderTimeout_due {psn : BitVec 32} {k : TxPkt} {hole : Nat}
    (lives : (s.flow flow.toNat).st = .isOpen ∨ (s.flow flow.toNat).st = .closing) (runs : s.teRuns = true)
    (found : (s.flow flow.toNat).unacked.find? (fun k => k.psn == psn) = some k)
    (isHole : k.holeAt = some hole) (due : hole + s.reorderNs ≤ (s.at_ t).clk.now) :
    exec (.reorderTimeout flow psn t) s = .next ((s.at_ t).retransmit flow.toNat k) := by
  show execReorderTimeout flow psn t s = _
  unfold execReorderTimeout
  extract_lets u f
  have live : ¬ ((f.st ≠ .isOpen ∧ f.st ≠ .closing) ∨ (!u.teRuns) = true) :=
    not_or.2 ⟨Flow.not_gone lives, State.not_halted (s := u) runs⟩
  have found' : f.unacked.find? (fun k => k.psn == psn) = some k := found
  rw [if_neg live, found']
  dsimp only
  rw [isHole]
  exact if_pos due

section
variable {k : TxPkt} {r : List TxPkt} (oldest : (s.flow flow.toNat).unacked = k :: r)
include oldest

/-- The oldest packet is sent again once nothing has been acknowledged for the RTO, which doubles (R239). -/
theorem exec_rtoExpiry_due
    (lives : (s.flow flow.toNat).st = .isOpen ∨ (s.flow flow.toNat).st = .closing) (runs : s.teRuns = true)
    (due : max (s.flow flow.toNat).lastAdv k.lastSent + (s.flow flow.toNat).rto ≤ (s.at_ t).clk.now) :
    exec (.rtoExpiry flow t) s = .next ((({ s.at_ t with
      fab := { (s.at_ t).fab with rtos := Tbl.upd 0 (s.at_ t).fab.rtos (flow.toNat % 8) satInc } } : State).onFlow flow.toNat
        (fun f => { f with rto := min 12800000 (2 * f.rto) })).retransmit flow.toNat k) := by
  show execRtoExpiry flow t s = _
  unfold execRtoExpiry
  extract_lets u fi f
  have oldest' : f.unacked = k :: r := oldest
  have live : ¬ ((f.st ≠ .isOpen ∧ f.st ≠ .closing) ∨ (!u.teRuns) = true
      ∨ u.clk.now < max f.lastAdv k.lastSent + f.rto) :=
    not_or.2 ⟨Flow.not_gone lives, not_or.2 ⟨State.not_halted (s := u) runs, Nat.not_lt.2 due⟩⟩
  rw [oldest']
  exact if_neg live

/-- A flow whose oldest packet was first sent more than 500 ms ago fails (R240). -/
theorem exec_retxLimit_due (isOpen : (s.flow flow.toNat).st = .isOpen) (due : k.firstSent + 500000000 < (s.at_ t).clk.now) :
    exec (.retxLimit flow t) s = .next ((s.at_ t).failFlow flow.toNat) := by
  show execRetxLimit flow t s = _
  unfold execRetxLimit
  extract_lets u f
  have oldest' : f.unacked = k :: r := oldest
  rw [oldest']
  exact if_pos ⟨isOpen, due⟩

end

/-- A setup not answered for 1 ms is tried again, eight times in all (R232). -/
theorem exec_setupRetry_due (st : (s.flow flow.toNat).st = .settingUp) (runs : s.teRuns = true)
    (due : (s.flow flow.toNat).setupAt + 1000000 ≤ (s.at_ t).clk.now) :
    exec (.setupRetry flow t) s = .next (if (s.flow flow.toNat).tries < 8 then (s.at_ t).sendSetup flow.toNat
      else (s.at_ t).failSetup flow.toNat ePeerUnreachable) := by
  show execSetupRetry flow t s = _
  unfold execSetupRetry
  extract_lets u fi f
  have live : ¬ (f.st ≠ .settingUp ∨ u.clk.now < f.setupAt + 1000000 ∨ (!u.teRuns) = true) :=
    not_or.2 ⟨not_not.2 st, not_or.2 ⟨Nat.not_lt.2 due, State.not_halted (s := u) runs⟩⟩
  rw [if_neg live, ← apply_ite Host.Outcome.next]
  rfl

end

end Sys2Proof.Machine
end

section
open Sys2Proof Sys2Proof.Machine

/-- Settles O41: an event's time is the only change before its timer is looked at, so that flow and transport are those of the
state it finds. -/
theorem transportTimersAct : Obligations.TransportTimersAct := by
  intro flow t s fi f u
  refine ⟨⟨fun fetching => if_pos fetching, fun t0 => exec_ackTimer_due⟩,
    fun psn k hole => exec_reorderTimeout_due,
    fun k r oldest => ⟨exec_rtoExpiry_due oldest, exec_retxLimit_due oldest⟩,
    exec_setupRetry_due,
    fun st due => if_pos ⟨st, due⟩⟩
end

section
/-! SUPPORT. A flow that opens (R231, R232): what a group still owes its peer goes out on it, and the flow stays Open. -/

namespace Sys2Proof.Machine

/-- What a setup settles of a flow: its state, the peer's end of it, and that its context is on the die. -/
def Flow.link (f : Flow) : FlowSt × BitVec 20 × Word × Bool := (f.st, f.peerFlow, f.peerBoot, f.cached)

section
variable {s : State} (hs : Canon s) (fi i : Nat)

/-- A change of a flow that leaves its link leaves every flow's. -/
theorem State.link_onFlow (hs : Canon s) {g : Flow → Flow} (keeps : ∀ f, (g f).link = f.link) :
    ((s.onFlow fi g).flow i).link = (s.flow i).link := by
  by_cases here : i = fi
  · rw [here, State.flow_onFlow_same _ _ hs, keeps]
  · rw [State.flow_onFlow_other _ _ _ _ here]

include hs

theorem State.link_wire (psn : BitVec 32) (bytes : Nat → List Byte) :
    ((s.wire fi psn bytes).flow i).link = (s.flow i).link := by
  unfold State.wire
  dsimp only
  split
  · rfl
  · split
    · rfl
    · exact State.link_onFlow fi i (State.onPort_canon _ _ hs) fun _ => rfl

theorem State.link_ctxUse : ((s.ctxUse fi).2.flow i).link = (s.flow i).link := by
  unfold State.ctxUse
  split
  · rfl
  · split
    · rfl
    · exact State.link_onFlow fi i (State.ctxCount_canon _ _ hs) fun _ => rfl

theorem State.link_emit (k : TxPkt) : ((s.emit fi k).flow i).link = (s.flow i).link := by
  unfold State.emit
  extract_lets now k' u
  exact (State.link_wire (State.onFlow_keeps _ _ hs) fi i _ _).trans (State.link_onFlow fi i hs fun _ => rfl)

theorem State.link_drainOut (n : Nat) : ((s.drainOut fi n).flow i).link = (s.flow i).link := by
  induction n generalizing s with
  | zero => rfl
  | succ n ih =>
    unfold State.drainOut
    dsimp only
    split
    · rfl
    · next k r _ =>
      split
      · rfl
      · have used := State.link_ctxUse hs fi i
        have canon : Canon (s.ctxUse fi).2 := State.ctxUse_canon fi hs
        generalize s.ctxUse fi = x at used canon ⊢
        obtain ⟨_ | _, u⟩ := x
        · exact used
        · have taken : ((u.onFlow fi (fun f => { f with outq := r })).flow i).link = (u.flow i).link :=
            State.link_onFlow fi i canon fun _ => rfl
          have canonT : Canon (u.onFlow fi (fun f => { f with outq := r })) := State.onFlow_keeps _ _ canon
          exact (ih (State.emit_canon _ _ canonT)).trans ((State.link_emit canonT fi i k).trans (taken.trans used))

theorem State.link_sendCtl (type : Nat) (op : BitVec 256) (payload : List Byte) (src : Nat) :
    ((s.sendCtl fi type op payload src).flow i).link = (s.flow i).link :=
  (State.link_drainOut (State.onFlow_keeps _ _ hs) fi i _).trans (State.link_onFlow fi i hs fun _ => rfl)

/-- What the groups owe goes out and leaves every flow's link. -/
theorem State.link_collFlush : ((s.collFlush fi).flow i).link = (s.flow i).link := by
  unfold State.collFlush
  dsimp only
  refine (foldl_keeps (P := fun u => Canon u ∧ (u.flow i).link = (s.flow i).link) _ _ ⟨hs, rfl⟩ ?_).2
  rintro u ⟨n, c⟩ ⟨hu, same⟩
  dsimp only
  split
  · obtain ⟨canon, sent⟩ := foldl_keeps (P := fun u => Canon u ∧ (u.flow i).link = (s.flow i).link)
      (fun (s : State) o => s.sendCtl fi 0xB 0 (barrierBody (BitVec.ofNat 20 n) o.2.1 o.2.2))
      (c.owed.filter (fun o => o.1 == (s.flow fi).node)) ⟨hu, same⟩ fun v _ ⟨hv, sameV⟩ =>
        ⟨State.sendCtl_canon _ _ _ _ _ hv, (State.link_sendCtl hv fi i _ _ _ _).trans sameV⟩
    split
    · exact ⟨canon, sent⟩
    · exact ⟨State.onColl_canon _ _ canon, sent⟩
  · exact ⟨hu, same⟩

omit hs in
/-- A context comes on the die behind at most one other, which leaves it (R233). -/
theorem State.cacheIn_eq (s : State) (fi : Nat) : ∃ u,
    s.cacheIn fi = u.onFlow fi (fun f => { f with cached := true, fetching := false })
    ∧ (u = s ∨ ∃ j, u = s.onFlow j (fun f => { f with cached := false })) := by
  refine ⟨_, rfl, ?_⟩
  split
  · exact .inl rfl
  · split
    · exact .inr ⟨_, rfl⟩
    · exact .inl rfl

/-- A flow whose context comes on the die keeps its state and its peer. -/
theorem State.link_cacheIn : ((s.cacheIn fi).flow fi).link =
    ((s.flow fi).st, (s.flow fi).peerFlow, (s.flow fi).peerBoot, true) := by
  obtain ⟨u, cached, rfl | ⟨j, rfl⟩⟩ := s.cacheIn_eq fi
  · rw [cached, State.flow_onFlow_same _ _ hs]
    rfl
  · rw [cached, State.flow_onFlow_same _ _ (State.onFlow_keeps _ _ hs)]
    by_cases here : fi = j
    · rw [here, State.flow_onFlow_same _ _ hs]
      rfl
    · rw [State.flow_onFlow_other _ _ _ _ here]
      rfl

end

/-- An opened flow is Open to its peer, its context on the die. -/
theorem State.link_openFlow {s : State} (hs : Canon s) (fi : Nat) (b : SetupBody) :
    ((s.openFlow fi b).flow fi).link = (.isOpen, b.senderFlow, b.boot, true) := by
  unfold State.openFlow
  rw [State.link_collFlush (State.cacheIn_canon _ (State.onFlow_keeps _ _ hs)), State.link_cacheIn (State.onFlow_keeps _ _ hs),
    State.flow_onFlow_same _ _ hs]

end Sys2Proof.Machine
end

section
/-! SUPPORT. SETUP and SETUP_ACK (R231, R232, R234): their answers. -/

namespace Sys2Proof.Machine

/-- The release of a packet's frame leaves whether the transport runs. -/
theorem State.teRuns_bufRelease (s : State) (h : PktHdr) : (s.bufRelease h).teRuns = s.teRuns := by
  have released : Within [.ports] s (s.bufRelease h) := State.bufRelease_within h Within.rfl (by decide)
  unfold State.teRuns
  rw [released .fab (by decide), released .mgmt (by decide)]

/-- The Open flows to a peer that has restarted since they were set up have failed (R232). -/
def State.dropRestarted (s : State) (b : SetupBody) : State :=
  (s.fab.flows.filter (fun (_, f) => f.st == .isOpen && f.node == b.node && f.peerBoot != b.boot)).foldl
    (fun s (i, _) => s.failFlow i) s

section
variable {s : State} {h : PktHdr} {b : SetupBody} (up : (s.port h.port).st = .up) (runs : s.teRuns = true)
include up runs

/-- SETUP is answered as the job tag, the flow it may have already, the fabric's limit and the table of flows have it. -/
theorem exec_setup_answered (valid : s.nodeValid = true) :
    let u := (s.bufRelease h).dropRestarted b
    (u.jobByTag b.tag = none → exec (.setup h b) s = .next (u.sendSetupAck b 0xFFFFF 1))
    ∧ ∀ j, u.jobByTag b.tag = some j →
      (∀ i, u.findFlow j b.node = some i → (u.flow i).st = .isOpen → exec (.setup h b) s = .next (u.sendSetupAck b i 0))
      ∧ (u.findFlow j b.node = none → u.fabricFull b.node = true → exec (.setup h b) s = .next (u.sendSetupAck b 0xFFFFF 3))
      ∧ (u.findFlow j b.node = none → u.fabricFull b.node = false →
          (u.takeFlow = .full → exec (.setup h b) s = .next (u.sendSetupAck b 0xFFFFF 2))
          ∧ (∀ x, u.takeFlow = .wait x → exec (.setup h b) s = .next x)
          ∧ ∀ i, u.takeFlow = .got i →
            exec (.setup h b) s = .next ((((u.onFlow i (fun _ => { node := b.node, job := j, tag := b.tag })).openFlow i
              b).recountPeers).sendSetupAck b i 0)) := by
  intro u
  have live : ¬ ((!s.teRuns) = true ∨ (!s.nodeValid) = true) := by simp [runs, valid]
  have run : exec (.setup h b) s = execSetup h b s := rfl
  unfold execSetup at run
  rw [if_neg (not_not.2 up), if_neg live] at run
  extract_lets v old w at run
  rw [show w = u from rfl] at run
  clear_value u
  rw [run]
  refine ⟨fun unknown => ?_, fun j known => ?_⟩
  · rw [unknown]
  · rw [known]
    dsimp only
    refine ⟨fun i found isOpen => ?_, fun fresh full => ?_, fun fresh room => ?_⟩
    · rw [found]
      dsimp only
      rw [isOpen]
    · rw [fresh]
      exact if_pos full
    · rw [fresh]
      dsimp only
      rw [if_neg (by simp [room])]
      refine ⟨fun full => ?_, fun x waits => ?_, fun i got => ?_⟩
      · rw [full]
      · rw [waits]
      · rw [got]

section
variable (st : (s.flow h.flow.toNat).st = .settingUp) (node : (s.flow h.flow.toNat).node = b.node)
  (tag : (s.flow h.flow.toNat).tag = b.tag)
include st node tag

/-- SETUP_ACK of the setup under way opens its flow, or stops the commands that wait for it with the error its status names. -/
theorem exec_setupAck_answered :
    let u := s.bufRelease h
    let fi := h.flow.toNat
    (b.status = 0 → exec (.setupAck h b) s = .next (u.openFlow fi b))
    ∧ (b.status = 1 → exec (.setupAck h b) s = .next (u.setupRefused.failSetup fi ePeerNoJob))
    ∧ (b.status = 2 → exec (.setupAck h b) s = .next (u.setupRefused.failSetup fi eFlowTableFull))
    ∧ (b.status = 3 → exec (.setupAck h b) s = .next (u.setupRefused.failSetup fi eFabricLimit)) := by
  intro u fi
  have live : ¬ ((!u.teRuns) = true ∨ (s.flow fi).st ≠ .settingUp ∨ (s.flow fi).node ≠ b.node ∨ (s.flow fi).tag ≠ b.tag) := by
    simp [u, fi, State.teRuns_bufRelease, runs, st, node, tag]
  have run : exec (.setupAck h b) s = execSetupAck h b s := rfl
  unfold execSetupAck at run
  dsimp only at run
  rw [if_neg (not_not.2 up), if_neg live] at run
  rw [run]
  refine ⟨fun status => ?_, fun status => ?_, fun status => ?_, fun status => ?_⟩ <;> (rw [status]; rfl)

end
end

end Sys2Proof.Machine
end

section
open Sys2Proof Sys2Proof.Machine

/-- Settles O40: SETUP and SETUP_ACK have the answers of their lemmas above; what the groups owe the peer goes out on the opened
flow and leaves it Open. -/
theorem flowsAreSetUp : Obligations.FlowsAreSetUp := by
  refine fun h b s up runs => ⟨fun valid => exec_setup_answered up runs valid, fun st node tag => ?_⟩
  intro u
  obtain ⟨opens, refused⟩ := exec_setupAck_answered up runs st node tag
  refine ⟨fun status => ⟨opens status, fun hs => ?_⟩, refused⟩
  intro f
  have link : f.link = (.isOpen, b.senderFlow, b.boot, true) := State.link_openFlow (State.bufRelease_canon h hs) _ b
  simpa only [Flow.link, Prod.mk.injEq] using link
end

section
/-! SUPPORT. What the leaving of begun commands and the abort of a group let stand of every core: its task, its engines' counts,
whether it is suspect, and a remote-write port without writes; no engine has begun what it had not. -/

namespace Sys2Proof.Machine

/-- The serial numbers of the commands an engine has begun. -/
def Engine.serials (g : Engine) : List Nat := g.begun.map (·.serial)

/-- An engine counts as many commands begun as before, and holds none that it did not hold. -/
structure Engine.Undisturbed (g h : Engine) : Prop where
  serials : h.serials ⊆ g.serials
  begunCount : h.begunCount = g.begunCount

/-- A core has the task it had, is suspect if it was, has no write in its port if it had none, and its engines are
undisturbed. -/
structure Core.Undisturbed (c d : Core) : Prop where
  task : d.seq.task = c.seq.task
  suspect : d.integ.suspect = c.integ.suspect
  port : c.scp.port = [] → d.scp.port = []
  eng : ∀ e, (c.seq.eng e).Undisturbed (d.seq.eng e)

/-- Every core is undisturbed. -/
structure State.Undisturbed (s t : State) : Prop where
  canon : Canon t
  core : ∀ lc, (s.core lc).Undisturbed (t.core lc)

theorem Engine.Undisturbed.refl (g : Engine) : g.Undisturbed g := ⟨List.Subset.refl _, rfl⟩

theorem Core.Undisturbed.refl (c : Core) : c.Undisturbed c := ⟨rfl, rfl, id, fun _ => .refl _⟩

theorem Core.Undisturbed.trans {c d e : Core} (h : c.Undisturbed d) (k : d.Undisturbed e) : c.Undisturbed e where
  task := k.task.trans h.task
  suspect := k.suspect.trans h.suspect
  port := k.port ∘ h.port
  eng x := ⟨List.Subset.trans (k.eng x).serials (h.eng x).serials, (k.eng x).begunCount.trans (h.eng x).begunCount⟩

/-- A change of a sequencer that leaves the task and the engines. -/
theorem Core.Undisturbed.of_seq {c : Core} {q : Sequencer} (task : q.task = c.seq.task) (engines : q.engines = c.seq.engines) :
    c.Undisturbed { c with seq := q } :=
  by
  refine ⟨task, rfl, id, fun e => ?_⟩
  have same : q.eng e = c.seq.eng e := by rw [Sequencer.eng, Sequencer.eng, engines]
  exact same ▸ .refl _

/-- The writes in a core's port that meet a condition stay. -/
def Core.filterPort (p : PortWrite → Bool) (c : Core) : Core := { c with scp := { c.scp with port := c.scp.port.filter p } }

namespace State.Undisturbed

variable {s t u : State}

theorem refl (hs : Canon s) : s.Undisturbed s := ⟨hs, fun _ => .refl _⟩

theorem trans (h : s.Undisturbed t) (k : t.Undisturbed u) : s.Undisturbed u := ⟨k.canon, fun lc => (h.core lc).trans (k.core lc)⟩

theorem of_cores (ht : Canon t) (h : t.cores = s.cores) : s.Undisturbed t :=
  ⟨ht, fun lc => by rw [State.core, State.core, h]; exact .refl _⟩

/-- A fold of steps each of which leaves every core undisturbed. -/
theorem foldl {α : Type} {f : State → α → State} (l : List α) (h : s.Undisturbed t)
    (step : ∀ u x, Canon u → u.Undisturbed (f u x)) : s.Undisturbed (l.foldl f t) :=
  foldl_keeps (P := fun u => s.Undisturbed u) f l h fun _ x h => h.trans (step _ x h.canon)

section
variable (hs : Canon s) (lc : Nat)
include hs

theorem onCore {f : Core → Core} (canon : ∀ c, c.Canon → (f c).Canon) (keeps : (s.core lc).Undisturbed (f (s.core lc))) :
    s.Undisturbed (s.onCore lc f) := by
  refine ⟨State.onCore_canon lc f hs canon, fun k => ?_⟩
  by_cases here : k = lc
  · rw [here, State.core_onCore_same lc f hs]
    exact keeps
  · rw [State.core_onCore_other s lc k f here]
    exact .refl _

theorem onSeq {f : Sequencer → Sequencer} (canon : ∀ q, q.Canon → (f q).Canon)
    (task : (f (s.core lc).seq).task = (s.core lc).seq.task) (engines : (f (s.core lc).seq).engines = (s.core lc).seq.engines) :
    s.Undisturbed (s.onSeq lc f) :=
  onCore hs lc (fun _ h => ⟨canon _ h.1, h.2⟩) (.of_seq task engines)

theorem onScp {f : Scratch → Scratch} (canon : ∀ m, m.Canon → (f m).Canon)
    (port : (s.core lc).scp.port = [] → (f (s.core lc).scp).port = []) : s.Undisturbed (s.onScp lc f) :=
  onCore hs lc (fun _ h => ⟨h.1, canon _ h.2⟩) ⟨rfl, rfl, port, fun _ => .refl _⟩

theorem onInteg {f : Integrity → Integrity} (suspect : ∀ g, (f g).suspect = g.suspect) : s.Undisturbed (s.onInteg lc f) :=
  onCore hs lc (fun _ h => h) ⟨rfl, suspect _, id, fun _ => .refl _⟩

theorem onArray (a : Arr) (f : ArrayU → ArrayU) : s.Undisturbed (s.onArray lc a f) :=
  onCore hs lc (fun _ h => Core.onArray_canon a f h) (by cases a <;> exact ⟨rfl, rfl, id, fun _ => .refl _⟩)

theorem onEng (e : Eng) {f : Engine → Engine} (keeps : (s.eng lc e).Undisturbed (f (s.eng lc e))) :
    s.Undisturbed (s.onEng lc e f) := by
  refine onCore hs lc (f := fun c => { c with seq := c.seq.onEng e f })
    (fun _ h => ⟨Sequencer.onEng_keeps _ e f h.1, h.2⟩) ⟨rfl, rfl, id, fun x => ?_⟩
  by_cases here : x = e
  · subst here
    show Engine.Undisturbed _ (Sequencer.eng (Sequencer.onEng _ x f) x)
    rw [Sequencer.eng_onEng_same _ x f (seq_canon lc hs)]
    exact keeps
  · show Engine.Undisturbed _ (Sequencer.eng (Sequencer.onEng _ e f) x)
    rw [Sequencer.eng_onEng_other _ e x f fun same => here (Eng.code_inj x e same)]
    exact .refl _

/-- A change of a begun command that leaves it its serial number. -/
theorem onBegun (e : Eng) (serial : Nat) {f : Begun → Begun} (same : ∀ b, (f b).serial = b.serial) :
    s.Undisturbed (s.onBegun lc e serial f) := by
  refine onEng hs lc e ⟨?_, rfl⟩
  have serials : ((s.eng lc e).begun.map (fun b => if b.serial = serial then f b else b)).map (·.serial) =
      (s.eng lc e).serials := by
    rw [List.map_map]
    refine List.map_congr_left fun b _ => ?_
    show Begun.serial (if b.serial = serial then f b else b) = b.serial
    split
    · exact same b
    · rfl
  exact serials ▸ List.Subset.refl _

/-- Begun commands leave an engine. -/
theorem filterBegun (e : Eng) (p : Begun → Bool) :
    s.Undisturbed (s.onEng lc e (fun g => { g with begun := g.begun.filter p })) :=
  onEng hs lc e ⟨List.map_subset _ (List.filter_subset_self _), rfl⟩

end

/-! ### Queue entries, packets and ports -/

theorem of_releases {lc : Nat} {ns : List Nat} (h : Releases s t lc ns) : s.Undisturbed t := by
  refine ⟨h.canon, fun k => ?_⟩
  by_cases here : k = lc
  · obtain ⟨qs, ws, l, seq⟩ := h.seq
    rw [here]
    refine ⟨by rw [seq], by rw [h.integ], by rw [h.scp]; exact id, fun e => ?_⟩
    rw [← State.eng, ← State.eng, h.eng e]
    exact .refl _
  · rw [h.cores k here]
    exact .refl _

theorem drainPump (hs : Canon s) (lc : Nat) : s.Undisturbed (s.drainPump lc) := of_releases (.drainPump lc hs)

theorem onQueue (hs : Canon s) (lc n : Nat) (f : Queue → Queue) : s.Undisturbed (s.onQueue lc n f) :=
  of_releases (.onQueue hs lc n f)

theorem unreserve (hs : Canon s) (lc qn id : Nat) : s.Undisturbed (s.unreserve lc qn id) :=
  (onQueue hs lc qn _).trans (drainPump (State.onQueue_keeps _ _ _ hs) lc)

theorem returnOuts (hs : Canon s) (lc : Nat) (outs : List (Nat × Nat)) : s.Undisturbed (s.returnOuts lc outs) := by
  have cleared := onScp hs lc (f := fun m => { m with pend := m.pend.filter (fun x => !outs.any (fun o => x.entry == some o)) })
    (fun _ h => h) id
  exact foldl outs cleared fun u x hu => unreserve hu lc x.1 x.2

theorem sendCtl (hs : Canon s) (fi type : Nat) (op : BitVec 256) (payload : List Byte) (src : Nat) :
    s.Undisturbed (s.sendCtl fi type op payload src) :=
  of_cores (State.sendCtl_canon _ _ _ _ _ hs) (State.cores_sendCtl s fi type op payload src)

theorem disown (hs : Canon s) (lc : Nat) (e : Eng) : s.Undisturbed (s.disown lc e) :=
  of_cores (State.disown_canon _ _ hs)
    (State.disown_within (W := [.ports, .fab]) lc e Within.rfl (by decide) (by decide) .cores (by decide))

theorem dropPort (hs : Canon s) (lc eng serial : Nat) : s.Undisturbed (s.dropPort lc eng serial) := by
  obtain ⟨p, dropped⟩ : ∃ p, s.dropPort lc eng serial = { s with cores := Tbl.mapv {} (Core.filterPort p) s.cores } := ⟨_, rfl⟩
  refine ⟨State.dropPort_canon _ _ _ hs, fun k => ?_⟩
  have core : (s.dropPort lc eng serial).core k = (s.core k).filterPort p := by
    rw [dropped]
    exact Tbl.get_mapv_of_fixed (f := Core.filterPort p) rfl hs.1.1 k
  rw [core]
  exact ⟨rfl, rfl, fun h => by rw [Core.filterPort, h]; rfl, fun _ => .refl _⟩

/-! ### Chains -/

theorem entryStruck (hs : Canon s) (r : RxXfer) (fi : Option (BitVec 20)) : s.Undisturbed (s.entryStruck r fi).2 := by
  have counted := onInteg hs r.core.toNat (f := fun g => { g with strikesRx := satInc g.strikesRx }) fun _ => rfl
  unfold State.entryStruck
  dsimp only
  split
  · exact counted
  · split
    · exact counted
    · exact counted.trans (onQueue counted.canon _ _ _)

/-- A member's result struck, and those of the members it reaches. -/
theorem strikeWith (n : Nat) {s : State} (hs : Canon s) (lc : Nat) (b : Begun) : s.Undisturbed (State.strikeWith n s lc b) := by
  induction n generalizing s lc b with
  | zero => exact refl hs
  | succ n ih =>
    have next (u : State) (r : RxXfer) (hu : Canon u) : u.Undisturbed (match u.entryStruck r none with
        | (some (lc, b), u) => State.strikeWith n u lc b
        | (none, u) => u) := by
      have struck := entryStruck hu r none
      split
      · next eq =>
        rw [eq] at struck
        exact struck.trans (ih struck.canon _ _)
      · next eq =>
        rw [eq] at struck
        exact struck
    have rest (u : State) (left : s.Undisturbed u) : s.Undisturbed (((u.disown lc .q).returnOuts lc b.outs).onBegun lc .q
        b.serial (fun b =>
          { b with
            outs := []
            passed := false
            poison := false
            added := 0
            xfer := b.xfer.map (fun x => { x with sent := 0, done := 0, touched := false }) })) := by
      have disowned := left.trans (disown left.canon lc .q)
      have returned := disowned.trans (returnOuts disowned.canon lc b.outs)
      exact returned.trans (onBegun returned.canon lc .q b.serial fun _ => rfl)
    have counted := onInteg hs lc (f := fun g => { g with strikesTx := satInc g.strikesTx }) fun _ => rfl
    have disowned := counted.trans (disown counted.canon lc .q)
    have dropped := disowned.trans (dropPort disowned.canon lc 4 b.serial)
    unfold State.strikeWith
    refine rest _ ?_
    split
    · exact refl hs
    · split
      · exact refl hs
      · split_ifs
        · exact refl hs
        · refine foldl _ (dropped.trans (of_cores (canon_fab _ dropped.canon fun _ h => ?_) rfl)) next
          exact ⟨h.1, h.2⟩
        · exact disowned.trans (sendCtl disowned.canon _ _ _ _ _)

theorem strikeChain (hs : Canon s) (lc : Nat) (b : Begun) : s.Undisturbed (s.strikeChain lc b) := strikeWith 65 hs lc b

/-! ### Commands that leave -/

theorem dropCommand (hs : Canon s) (lc : Nat) (e : Eng) (b : Begun) : s.Undisturbed (s.dropCommand lc e b) := by
  have disowned := disown hs lc e
  have dropped := disowned.trans (dropPort disowned.canon lc e.code b.serial)
  have returned := dropped.trans (returnOuts dropped.canon lc b.outs)
  exact returned.trans (filterBegun returned.canon lc e _)

theorem clearArray (hs : Canon s) (lc : Nat) (a : Arr) (gone : Nat → Bool) : s.Undisturbed (s.clearArray lc a gone) := by
  unfold State.clearArray
  dsimp only
  refine (onArray hs lc a _).trans (onSeq (State.onArray_keeps _ _ _ hs) lc (fun _ h => ?_) ?_ ?_)
  · exact h
  · rfl
  · rfl

theorem dropArray (hs : Canon s) (lc : Nat) (a : Arr) (serial : Nat) : s.Undisturbed (s.dropArray lc a serial) := by
  unfold State.dropArray
  dsimp only
  split
  · exact refl hs
  · next b _ =>
    have left := filterBegun hs lc a.eng (fun x => x.serial != serial)
    have cleared := left.trans (clearArray left.canon lc a (fun n => n == serial))
    exact cleared.trans (returnOuts cleared.canon lc b.outs)

theorem dropBegun (hs : Canon s) (lc : Nat) (a : Arr) (serial : Nat) : s.Undisturbed (s.dropBegun lc a serial) := by
  have dropped := dropArray hs lc a serial
  unfold State.dropBegun
  split
  · exact refl hs
  · split_ifs
    · split
      · exact dropped.trans (dropArray dropped.canon lc _ _)
      · exact dropped
    · exact dropped

/-- What an engine had not begun it has not begun afterwards. -/
theorem not_begun (h : s.Undisturbed t) {lc : Nat} {e : Eng} {n : Nat} (gone : n ∉ (s.eng lc e).serials) :
    n ∉ (t.eng lc e).serials := fun mem => gone (((h.core lc).eng e).serials mem)

end State.Undisturbed

/-! ### The command that leaves is gone -/

section
variable {s : State} (hs : Canon s) (lc : Nat)
include hs

theorem State.serials_filterBegun (e : Eng) (n : Nat) :
    n ∉ ((s.onEng lc e (fun g => { g with begun := g.begun.filter (fun x => x.serial != n) })).eng lc e).serials := by
  rw [State.eng_onEng _ _ _ hs]
  simp [Engine.serials]

theorem State.serials_dropCommand (e : Eng) (b : Begun) : b.serial ∉ ((s.dropCommand lc e b).eng lc e).serials :=
  State.serials_filterBegun (State.returnOuts_canon _ _ (State.dropPort_canon _ _ _ (State.disown_canon _ _ hs))) lc e b.serial

theorem State.serials_dropArray (a : Arr) (n : Nat) : n ∉ ((s.dropArray lc a n).eng lc a.eng).serials := by
  unfold State.dropArray
  split
  · next none =>
    simpa [Engine.serials, Engine.begunBy] using none
  · next b _ =>
    have left := Undisturbed.filterBegun hs lc a.eng (fun x => x.serial != n)
    have cleared := Undisturbed.clearArray left.canon lc a (fun k => k == n)
    exact (cleared.trans (.returnOuts cleared.canon lc b.outs)).not_begun (State.serials_filterBegun hs lc a.eng n)

theorem State.serials_dropBegun (a : Arr) (n : Nat) : n ∉ ((s.dropBegun lc a n).eng lc a.eng).serials := by
  have gone := State.serials_dropArray hs lc a n
  unfold State.dropBegun
  split
  · next none =>
    simpa [Engine.serials, Engine.begunBy] using none
  · split_ifs
    · split
      · exact (Undisturbed.dropArray (State.dropArray_canon _ _ _ hs) lc _ _).not_begun gone
      · exact gone
    · exact gone

omit hs in
/-- A fold over commands each of which leaves its engine. -/
theorem State.serials_foldl {e : Eng} {f : State → Begun → State} (step : ∀ u b, Canon u → u.Undisturbed (f u b))
    (gone : ∀ u b, Canon u → b.serial ∉ ((f u b).eng lc e).serials) (l : List Begun) {u : State} (hu : Canon u) :
    ∀ b ∈ l, b.serial ∉ ((l.foldl f u).eng lc e).serials := by
  induction l generalizing u with
  | nil => simp
  | cons b l ih =>
    have stepped := step u b hu
    intro x mem
    obtain rfl | mem := List.mem_cons.1 mem
    · exact (Undisturbed.foldl l (.refl stepped.canon) step).not_begun (gone u x hu)
    · exact ih stepped.canon x mem

omit hs in
/-- Every begun command of an engine is dropped by a step that leaves every core undisturbed, the command gone. -/
theorem State.dropAllBegun_steps (e : Eng) : ∃ f : State → Begun → State, s.dropAllBegun lc e = (s.eng lc e).begun.foldl f s
    ∧ ∀ u b, Canon u → u.Undisturbed (f u b) ∧ b.serial ∉ ((f u b).eng lc e).serials := by
  have array (a : Arr) (u : State) (b : Begun) (hu : Canon u) : u.Undisturbed (u.dropBegun lc a b.serial)
      ∧ b.serial ∉ ((u.dropBegun lc a b.serial).eng lc a.eng).serials :=
    ⟨.dropBegun hu lc a b.serial, State.serials_dropBegun hu lc a b.serial⟩
  have command (e : Eng) (u : State) (b : Begun) (hu : Canon u) : u.Undisturbed (u.dropCommand lc e b)
      ∧ b.serial ∉ ((u.dropCommand lc e b).eng lc e).serials :=
    ⟨.dropCommand hu lc e b, State.serials_dropCommand hu lc e b⟩
  refine ⟨_, rfl, fun u b hu => ?_⟩
  cases e
  case f => exact array .f u b hu
  case g0 => exact array .g0 u b hu
  case g1 => exact array .g1 u b hu
  case q =>
    dsimp only
    split_ifs
    · exact command .q u b hu
    · have struck := Undisturbed.strikeChain hu lc b
      obtain ⟨left, gone⟩ := command .q _ b struck.canon
      exact ⟨struck.trans left, gone⟩
  all_goals exact command _ u b hu

/-- Every begun command of an engine leaves. -/
theorem State.dropAllBegun_empties (e : Eng) :
    s.Undisturbed (s.dropAllBegun lc e) ∧ ((s.dropAllBegun lc e).eng lc e).begun = [] := by
  obtain ⟨f, dropped, step⟩ := State.dropAllBegun_steps (s := s) lc e
  have kept : s.Undisturbed (s.dropAllBegun lc e) :=
    dropped ▸ Undisturbed.foldl _ (.refl hs) fun u b hu => (step u b hu).1
  refine ⟨kept, List.eq_nil_iff_forall_not_mem.2 fun x mem => ?_⟩
  have left : x.serial ∈ ((s.dropAllBegun lc e).eng lc e).serials := List.mem_map_of_mem mem
  obtain ⟨b, begun, same⟩ := List.mem_map.1 (((kept.core lc).eng e).serials left)
  rw [dropped, ← same] at left
  exact State.serials_foldl lc (fun u b hu => (step u b hu).1) (fun u b hu => (step u b hu).2) _ hs b begun left

end

end Sys2Proof.Machine
end

section
/-! SUPPORT. The abort of a group and the close of windows (R161, R167, R271): every core is left undisturbed, and the group is
resolved with its reason. -/

namespace Sys2Proof.Machine

/-- Poisoning code words puts no write in the port. -/
theorem Scratch.port_poisonRuns (m : Scratch) (rs : List (Nat × Nat)) : (m.poisonRuns rs).port = m.port := by
  refine foldl_keeps (P := fun x : Scratch => x.port = m.port) _ _ rfl fun x cw h => ?_
  have flipped : (x.flipBytes cw (x.residue cw)).port = x.port := by
    unfold Scratch.flipBytes
    split <;> rfl
  exact flipped.trans h

/-- The release of a group's extents changes of a sequencer its queues at most. -/
theorem Core.seq_releaseExtents (c : Core) (g : BitVec 12) (abort : Bool) :
    ∃ qs, (c.releaseExtents g abort).seq = { c.seq with queues := qs } := by
  unfold Core.releaseExtents
  dsimp only
  split
  · refine foldl_keeps (P := fun q : Sequencer => ∃ qs, q = { c.seq with queues := qs }) _ _ ⟨_, rfl⟩ fun q x ⟨qs, h⟩ => ?_
    split
    · exact ⟨qs, h⟩
    · exact ⟨_, by rw [h]; rfl⟩
  · exact ⟨_, rfl⟩

theorem Core.port_releaseExtents (c : Core) (g : BitVec 12) (abort : Bool) :
    (c.releaseExtents g abort).scp.port = c.scp.port := by
  unfold Core.releaseExtents
  dsimp only
  split
  · exact foldl_keeps (P := fun m : Scratch => m.port = c.scp.port) _ _ rfl fun m x h => (Scratch.port_poisonRuns m _).trans h
  · rfl

theorem Core.Undisturbed.releaseExtents (c : Core) (g : BitVec 12) (abort : Bool) : c.Undisturbed (c.releaseExtents g abort) := by
  obtain ⟨qs, seq⟩ := c.seq_releaseExtents g abort
  have integ : (c.releaseExtents g abort).integ = c.integ := by
    unfold Core.releaseExtents
    dsimp only
    split <;> rfl
  refine ⟨by rw [seq], by rw [integ], fun h => (c.port_releaseExtents g abort).trans h, fun e => ?_⟩
  rw [seq]
  exact .refl _

namespace State.Undisturbed

variable {s : State}

theorem raiseMark (hs : Canon s) (lc : Nat) (n : BitVec 12) (gen : BitVec 16) (len : Nat) :
    s.Undisturbed (s.raiseMark lc n gen len) := by
  have pumped (f : Window → Window) : ∃ qs ws, (((s.core lc).seq.onWin n f).windowPump n 64) =
      { (s.core lc).seq with queues := qs, windows := ws } :=
    (Sequencer.windowPump_eq (Sequencer.onWin_keeps _ n f (seq_canon lc hs)) n 64).1
  unfold State.raiseMark
  refine onSeq hs lc (fun q hq => ?canon) ?task ?engines
  case canon =>
    dsimp only
    split
    · exact Sequencer.windowPump_canon _ _ (Sequencer.onWin_keeps _ _ _ hq)
    · exact hq
  all_goals
    dsimp only
    split
    · obtain ⟨qs, ws, eq⟩ := pumped _
      rw [eq]
    · rfl

theorem raiseAll (hs : Canon s) (xs : List RxXfer) : s.Undisturbed (s.raiseAll xs) :=
  foldl xs (refl hs) fun _ x hu => raiseMark hu x.core.toNat x.window x.gen x.len

theorem settleLoc (hs : Canon s) : s.Undisturbed s.settleLoc := by
  have settled (l : List RxXfer) : s.Undisturbed { s with fab := { s.fab with loc := l } } :=
    of_cores (canon_fab _ hs fun _ h => ⟨h.1, h.2⟩) rfl
  exact (settled _).trans (raiseAll (settled _).canon _)

theorem resolveRx (hs : Canon s) (xs : List RxXfer) (mine : RxXfer → Bool) (abort : Bool) :
    s.Undisturbed (s.resolveRx xs mine abort).1 := by
  unfold State.resolveRx
  dsimp only
  split
  · exact foldl _ (refl hs) fun u x hu => onScp hu _ (fun m hm => Scratch.poisonRuns_canon _ hm) fun h =>
      (Scratch.port_poisonRuns _ _).trans h
  · exact refl hs

theorem resolveLoc (hs : Canon s) (lc : Nat) (g : BitVec 12) (abort : Bool) : s.Undisturbed (s.resolveLoc lc g abort) := by
  unfold State.resolveLoc
  have resolved := resolveRx hs s.fab.loc (fun x => x.grp == some (BitVec.ofNat 6 lc, g) && x.away.isNone) abort
  have settled (l : List RxXfer) := resolved.trans (of_cores (canon_fab { State.fab _ with loc := l } resolved.canon fun _ h =>
    ⟨h.1, h.2⟩) rfl)
  exact (settled _).trans (settleLoc (settled _).canon)

theorem dropShadows (hs : Canon s) (k : GrpKey) : s.Undisturbed (s.dropShadows k) :=
  of_cores (State.dropShadows_canon k hs) rfl

theorem sendGroup (hs : Canon s) (lc : Nat) (g : BitVec 12) (abort : Bool) : s.Undisturbed (s.sendGroup lc g abort) :=
  foldl _ (refl hs) fun _ _ hu => sendCtl hu _ _ _ _ _

end State.Undisturbed

/-- A group that has aborted for a reason. -/
def Group.abort (reason : Nat) (x : Group) : Group :=
  { x with st := .resolved, aborted := true, reason := reason, flows := [], await := [] }

section
variable {s : State} (hs : Canon s) (lc : Nat)
include hs

/-- The last of an abort is that the group stands resolved, with its reason. -/
theorem State.abortGroup_eq (g : BitVec 12) (reason : Nat)
    (live : ((s.core lc).seq.grp g).st = .opened ∨ ((s.core lc).seq.grp g).st = .committing) :
    ∃ u, s.Undisturbed u ∧ s.abortGroup lc g reason = 
      (u.onSeq lc (fun q => q.onGrp g (Group.abort reason))).drainPump lc := by
  have sent := Undisturbed.sendGroup hs lc g true
  have released := sent.trans (.onCore sent.canon lc (fun _ h => Core.releaseExtents_canon g true h)
    (.releaseExtents _ g true))
  have dropped := released.trans (.dropShadows released.canon (.loc (BitVec.ofNat 6 lc).toFin g))
  have resolved := dropped.trans (.resolveLoc dropped.canon lc g true)
  refine ⟨_, resolved, ?_⟩
  unfold State.abortGroup
  exact if_pos live

theorem State.Undisturbed.abortGroup (g : BitVec 12) (reason : Nat) : s.Undisturbed (s.abortGroup lc g reason) := by
  by_cases live : ((s.core lc).seq.grp g).st = .opened ∨ ((s.core lc).seq.grp g).st = .committing
  · obtain ⟨u, kept, aborts⟩ := State.abortGroup_eq hs lc g reason live
    rw [aborts]
    have marked := kept.trans (.onSeq kept.canon lc (f := fun q => q.onGrp g (Group.abort reason))
      (fun q hq => Sequencer.onGrp_keeps q g _ hq) rfl rfl)
    exact marked.trans (.drainPump marked.canon lc)
  · rw [State.abortGroup]
    exact if_neg live ▸ .refl hs

/-- An open group that is aborted is resolved, and waits for no slice. -/
theorem State.grp_abortGroup (g : BitVec 12) (reason : Nat) (opened : ((s.core lc).seq.grp g).st = .opened) :
    let x := ((s.abortGroup lc g reason).core lc).seq.grp g
    x.st = .resolved ∧ x.aborted = true ∧ x.reason = reason ∧ x.await = [] := by
  obtain ⟨u, kept, aborts⟩ := State.abortGroup_eq hs lc g reason (.inl opened)
  obtain ⟨l, pumped⟩ := State.drainPump_seq lc (State.onSeq_canon lc (fun q => q.onGrp g (Group.abort reason)) kept.canon
    fun q hq => Sequencer.onGrp_keeps q g _ hq)
  intro x
  have now : x = ((u.core lc).seq.grp g).abort reason := by
    unfold x
    rw [aborts, pumped, State.core_onSeq_same _ _ kept.canon]
    exact Sequencer.grp_onGrp_same _ g _ (seq_canon lc kept.canon)
  rw [now]
  exact ⟨rfl, rfl, rfl, rfl⟩

/-- Closing a window changes of a sequencer its windows and its queues at most. -/
theorem State.Undisturbed.closeWindow (n : BitVec 12) (now : Nat) :
    s.Undisturbed (s.onSeq lc (fun q => q.closeWindow n now)) := by
  have kept (q : Sequencer) : (q.closeWindow n now).task = q.task ∧ (q.closeWindow n now).engines = q.engines := by
    unfold Sequencer.closeWindow
    dsimp only
    split
    · exact ⟨rfl, rfl⟩
    · split <;> exact ⟨rfl, rfl⟩
  exact .onSeq hs lc (fun q hq => Sequencer.closeWindow_canon n now hq) (kept _).1 (kept _).2

end

end Sys2Proof.Machine
end

section
/-! SUPPORT. A stream that stops with an error (R97, R140), and what is recorded of a failure and its replay (R259–R261). -/

namespace Sys2Proof.Machine

/-! ### The stop -/

/-- A sequencer whose task stops: every engine keeps what it has begun, and one that has stopped with an error its status. -/
structure Sequencer.Stopped (q r : Sequencer) : Prop where
  groups : r.groups = q.groups
  begun : ∀ x, (r.eng x).begun = (q.eng x).begun
  error : ∀ x, (q.eng x).status = .error → (r.eng x).status = .error

theorem Sequencer.Stopped.refl (q : Sequencer) : q.Stopped q := ⟨rfl, fun _ => rfl, fun _ => id⟩

/-- The other engines abandon their waits. -/
theorem Sequencer.abandonWaits_stopped {q : Sequencer} (hq : q.Canon) (now : Nat) :
    (q.abandonWaits now).task = q.task ∧ q.Stopped (q.abandonWaits now) := by
  refine (foldl_keeps (P := fun r : Sequencer => r.Canon ∧ r.task = q.task ∧ q.Stopped r) _ _ ⟨hq, rfl, .refl q⟩
    fun r n ⟨hr, task, kept⟩ => ?_).2
  dsimp only
  split
  · next running =>
    have eng (x : Eng) : ({ r with engines := Tbl.set {} r.engines n { Tbl.get {} r.engines n with
          status := .waitAbandoned, wait := (Tbl.get {} r.engines n).wait.map (Wait.left now) } } : Sequencer).eng x =
        if x.code = n then { r.eng x with status := .waitAbandoned, wait := (r.eng x).wait.map (Wait.left now) }
        else r.eng x := by
      split
      · next here =>
        subst here
        exact Tbl.get_set_same _ _ _ _ hr.1
      · next elsewhere => exact Tbl.get_set_other _ _ _ _ _ elsewhere
    refine ⟨⟨Tbl.set_wf _ _ _ _ hr.1, hr.2⟩, task, kept.groups, fun x => ?_, fun x error => ?_⟩
    · rw [eng, ← kept.begun x]
      split <;> rfl
    · rw [eng, if_neg fun here => ?_]
      · exact kept.error x error
      · subst here
        exact absurd ((kept.error x error).symm.trans running.1) (by decide)
  · exact ⟨hr, task, kept⟩

/-- A task with its stop: the first cause stands. -/
def Task.stopped (c : StopCause) (t : Task) : Task := { t with stop := some (t.stop.getD c) }

theorem Sequencer.stopTask_stopped {q : Sequencer} (hq : q.Canon) (now : Nat) (c : StopCause) :
    (q.stopTask now c).task = q.task.map (Task.stopped c) ∧ q.Stopped (q.stopTask now c) := by
  unfold Sequencer.stopTask
  split
  · next none => exact ⟨by rw [none]; rfl, .refl q⟩
  · next t runs =>
    have stopped : Sequencer.Canon { q with task := some (t.stopped c) } := ⟨hq.1, hq.2⟩
    obtain ⟨task, kept⟩ := Sequencer.abandonWaits_stopped stopped now
    exact ⟨task.trans (by rw [runs]; rfl), kept.groups, kept.begun, kept.error⟩

theorem Sequencer.failStream_stopped {q : Sequencer} (hq : q.Canon) (now : Nat) (e : Eng) (code : Nat) (index : Word) :
    let r := q.failStream now e code index
    (r.eng e).status = .error ∧ r.task = q.task.map (Task.stopped (.error code e.code index)) ∧ r.groups = q.groups
      ∧ ∀ x, (r.eng x).begun = (q.eng x).begun := by
  let p := q.onEng e (fun g => { g with status := .error, wait := none })
  have hp : p.Canon := Sequencer.onEng_keeps q e _ hq
  have status : (p.eng e).status = .error := by rw [Sequencer.eng_onEng_same _ _ _ hq]
  have begun (x : Eng) : (p.eng x).begun = (q.eng x).begun := by
    by_cases here : x = e
    · rw [here, Sequencer.eng_onEng_same _ _ _ hq]
    · rw [Sequencer.eng_onEng_other _ _ _ _ fun same => here (Eng.code_inj x e same)]
  obtain ⟨info, cmd, fails⟩ : ∃ info cmd, q.failStream now e code index =
      Sequencer.stopTask { p with errInfo := info, errCmd := cmd } now (.error code e.code index) := by
    unfold Sequencer.failStream
    dsimp only
    split <;> exact ⟨_, _, rfl⟩
  obtain ⟨task, kept⟩ := Sequencer.stopTask_stopped (q := { p with errInfo := info, errCmd := cmd }) ⟨hp.1, hp.2⟩ now
    (.error code e.code index)
  intro r
  rw [show r = _ from fails]
  exact ⟨kept.error e status, task, kept.groups, fun x => (kept.begun x).trans (begun x)⟩

section
variable {s t u : State} (hs : Canon s) (lc : Nat)

theorem State.core_noteStop (s : State) (lc k : Nat) : (s.noteStop lc).core k = s.core k := by
  have kept : Within [.jobs] s (s.noteStop lc) := State.noteStop_within lc Within.rfl (by decide)
  rw [State.core, State.core, kept .cores (by decide)]

include hs in
/-- A stream stops with an error: its task's stop and its engine's status are recorded, and of its core nothing begun, no group
and none of the integrity registers changes. -/
theorem State.failAt_stops (e : Eng) (code : Nat) (index : Word) :
    let t := s.failAt lc e code index
    stopsWith s t lc e code index ∧ (t.core lc).integ = (s.core lc).integ ∧ (t.core lc).seq.groups = (s.core lc).seq.groups
      ∧ ∀ x, (t.eng lc x).begun = (s.eng lc x).begun := by
  intro t
  have core : t.core lc = { s.core lc with seq := (s.core lc).seq.failStream (s.coreNs lc) e code index } := by
    exact (State.core_noteStop _ lc lc).trans (State.core_onSeq_same lc _ hs)
  obtain ⟨status, task, groups, begun⟩ := Sequencer.failStream_stopped (seq_canon lc hs) (s.coreNs lc) e code index
  unfold stopsWith State.eng
  rw [core]
  refine ⟨⟨status, fun k runs => ?_⟩, rfl, groups, begun⟩
  rw [runs] at task
  exact task

/-- What left every core undisturbed before the stop leaves the stop as it is. -/
theorem stopsWith.of_undisturbed {lc : Nat} {e : Eng} {code : Nat} {index : Word} (kept : s.Undisturbed u)
    (h : stopsWith u t lc e code index) : stopsWith s t lc e code index :=
  ⟨h.1, fun k runs => h.2 k ((kept.core lc).task.trans runs)⟩

/-! ### Suspect cores -/

include hs in
/-- MC0 marks a core suspect: the first cause stands. -/
theorem State.markSuspect_core (cause : Nat) :
    let c := (s.markSuspect lc cause).core lc
    c.seq = (s.core lc).seq ∧ ∃ k, c.integ = { (s.core lc).integ with suspect := true, cause := k }
      ∧ ((s.core lc).integ.suspect = false → k = BitVec.ofNat 2 cause) := by
  unfold State.markSuspect
  dsimp only
  split
  · next already =>
    refine ⟨rfl, (s.core lc).integ.cause, ?_, fun clear => ?_⟩
    · rw [← already]
    · rw [clear] at already
      cases already
  · have logged (u : State) (f : FieldFail) (unit idx reason kind code unit' idx' : Nat) (detail : List Byte) :
        ((u.fieldFail f unit idx reason).logErr kind code unit' idx' detail).core lc = u.core lc := by
      have kept : Within [.flash] u ((u.fieldFail f unit idx reason).logErr kind code unit' idx' detail) :=
        State.logErr_within _ _ _ _ _ (State.fieldFail_within _ _ _ _ Within.rfl (by decide)) (by decide)
      rw [State.core, State.core, kept .cores (by decide)]
    rw [logged, State.core_onCore_same _ _ hs]
    exact ⟨rfl, _, rfl, fun _ => rfl⟩

include hs in
/-- A second failure: the core is suspect, and the stream stops with E_CHECK_FAIL at the command. -/
theorem State.secondFailure_stops (e : Eng) (detector cause : Nat) (index : Word) :
    let t := s.secondFailure lc e detector cause index
    (t.core lc).integ.suspect = true ∧ (t.core lc).integ.lastSecond = true
      ∧ ((s.core lc).integ.suspect = false → (t.core lc).integ.cause = BitVec.ofNat 2 cause)
      ∧ stopsWith s t lc e eCheckFail index ∧ ∀ x, (t.eng lc x).begun = (s.eng lc x).begun := by
  let recorded := s.onInteg lc (fun g =>
    { g with
      lastEngine := BitVec.ofNat 4 e.code
      lastDetector := BitVec.ofNat 3 detector
      lastSecond := true
      replayCmd := index })
  have canon : Canon recorded := State.onInteg_canon lc _ hs
  have core : recorded.core lc = _ := State.core_onInteg_same lc _ hs
  obtain ⟨seq, k, integ, first⟩ := State.markSuspect_core canon lc cause
  obtain ⟨stops, kept, -, begun⟩ := State.failAt_stops (State.markSuspect_canon lc cause canon) lc e eCheckFail index
  rw [core] at seq integ first
  intro t
  rw [show t = (recorded.markSuspect lc cause).failAt lc e eCheckFail index from rfl, kept, integ]
  refine ⟨rfl, rfl, first, ⟨stops.1, fun x runs => stops.2 x ?_⟩, fun x => (begun x).trans ?_⟩
  · rw [seq]
    exact runs
  · rw [State.eng, seq]
    rfl

/-! ### Replays -/

include hs in
/-- A replay is counted: of the core's sequencer nothing changes. -/
theorem State.countReplay_core (e : Eng) (detector : Nat) (index : Word) :
    let c := (s.countReplay lc e detector index).core lc
    c.seq = (s.core lc).seq ∧ c.integ.replays = satInc (s.core lc).integ.replays ∧ c.integ.lastEngine = BitVec.ofNat 4 e.code
      ∧ c.integ.lastDetector = BitVec.ofNat 3 detector ∧ c.integ.lastSecond = false ∧ c.integ.replayCmd = index := by
  unfold State.countReplay
  extract_lets now u n c
  have canon : Canon u := State.onInteg_canon lc _ hs
  have core : u.core lc = _ := State.core_onInteg_same lc _ hs
  unfold c
  split
  · obtain ⟨seq, k, integ, -⟩ := State.markSuspect_core canon lc 2
    rw [seq, integ, core]
    exact ⟨rfl, rfl, rfl, rfl, rfl, rfl⟩
  · rw [core]
    exact ⟨rfl, rfl, rfl, rfl, rfl, rfl⟩

include hs in
/-- A replay that is counted at the oldest unretired command, its engine changed in what the replay is to see. -/
theorem State.countReplay_onEng (e : Eng) (detector : Nat) (f : Engine → Engine) :
    let t := (s.countReplay lc e detector (s.eng lc e).retired).onEng lc e f
    replayCounted s t lc e detector ∧ t.eng lc e = f (s.eng lc e) := by
  have canon := State.countReplay_canon lc e detector (s.eng lc e).retired hs
  obtain ⟨seq, replays, engine, lastDetector, second, cmd⟩ := State.countReplay_core hs lc e detector (s.eng lc e).retired
  intro t
  refine ⟨?_, ?_⟩
  · unfold replayCounted
    rw [show t = _ from rfl, State.core_onEng_same _ _ _ canon]
    exact ⟨replays, engine, lastDetector, second, cmd⟩
  · rw [show t = _ from rfl, State.eng_onEng _ _ _ canon, State.eng, seq]
    rfl

end

end Sys2Proof.Machine
end

section
/-! SUPPORT. The end of a task (R140, R161, R276): its core is left without task, streams and begun commands, and its port without
writes if it had none. -/

namespace Sys2Proof.Machine

/-- A core that has become free runs nothing. -/
theorem Core.vacate_idle {c : Core} (hc : c.Canon) (e : Eng) :
    c.vacate.seq.task = none ∧ (c.vacate.seq.eng e).status = .noStream ∧ (c.vacate.seq.eng e).begun = [] := by
  have eng : c.vacate.seq.eng e = { retired := (c.seq.eng e).retired } :=
    Tbl.get_mapv_of_fixed (f := fun g : Engine => { retired := g.retired }) rfl hc.1.1 e.code
  rw [eng]
  exact ⟨rfl, rfl, rfl⟩

section
variable {s : State}

/-- A core without a task is no core of a job that stops. -/
theorem State.core_stopJob_of_no_task {lc : Nat} (free : (s.core lc).seq.task = none) (j : Nat) (c : StopCause) :
    (s.stopJob j c).core lc = s.core lc := by
  unfold State.stopJob
  dsimp only
  split
  · rfl
  · refine foldl_keeps (P := fun u : State => u.core lc = s.core lc) _ _ rfl fun u k kept => ?_
    split
    · next runs =>
      have other : lc ≠ k := by
        rintro rfl
        simp [State.runsJob, kept, free] at runs
      exact (State.core_onSeq_other u k lc _ other).trans kept
    · exact kept

theorem State.core_settlePreempt (j k : Nat) : (s.settlePreempt j).core k = s.core k := by
  have kept : Within [.jobs] s (s.settlePreempt j) := State.settlePreempt_within j Within.rfl (by decide)
  rw [State.core, State.core, kept .cores (by decide)]

namespace State.Undisturbed

variable (hs : Canon s) (lc : Nat)
include hs

theorem endChains : s.Undisturbed (s.endChains lc) := by
  unfold State.endChains
  split
  · exact refl hs
  · next b _ _ =>
    have struck := strikeChain hs lc b
    exact struck.trans (onEng struck.canon lc .q ⟨List.nil_subset _, rfl⟩)

theorem endGroups : s.Undisturbed (s.endGroups lc) :=
  foldl _ (refl hs) fun _ _ hu => .abortGroup hu lc _ _

theorem endWindows (t : TaskRec) : s.Undisturbed (s.endWindows lc t) :=
  foldl _ (refl hs) fun _ _ hu => .closeWindow hu lc _ _

theorem writeMem (a : Nat) (mbs : List MB) : s.Undisturbed (s.writeMem a mbs none) :=
  of_cores (State.writeMem_canon _ _ _ hs) (s.writeMem_ungrouped_within a mbs .cores (by decide))

end State.Undisturbed

/-- The end of a task leaves its core undisturbed until the core becomes free. -/
theorem State.endTask_core (hs : Canon s) (lc : Nat) (k : Task) :
    ∃ c : Core, c.Canon ∧ (s.core lc).Undisturbed c ∧ (s.endTask lc k).core lc = c.vacate := by
  unfold State.endTask
  extract_lets co dump dumped grouped windowed freed left
  have kept : s.Undisturbed dumped := by
    unfold dumped
    split
    · exact .writeMem hs _ _
    · exact .refl hs
  have chains := kept.trans (.endChains kept.canon lc)
  have groups := chains.trans (.endGroups chains.canon lc)
  have windows := groups.trans (.endWindows groups.canon lc ((grouped.job k.job).task? lc))
  change s.Undisturbed windowed at windows
  refine ⟨windowed.core lc, windows.canon.1.2 lc, windows.core lc, ?_⟩
  clear_value windowed
  have vacated : left.core lc = (windowed.core lc).vacate := State.core_onCore_same lc Core.vacate windows.canon
  have idle := Core.vacate_idle (windows.canon.1.2 lc) .s
  split
  · exact (State.core_stopJob_of_no_task (vacated ▸ idle.1) _ _).trans vacated
  · exact (State.core_settlePreempt _ _).trans vacated

/-- A task that has come to its end leaves its core. -/
theorem exec_taskStop_ends (hs : Canon s) {lc : Fin 64} {n : Nat} {k : Task} (runs : (s.core lc).seq.task = some k)
    (noFault : s.mgmt.faultActive = false) (ended : (s.at_ n).taskOver lc k = true) (port : (s.core lc).scp.port = []) :
    exec (.taskStop lc n) s = .next ((s.at_ n).endTask lc k) := by
  obtain ⟨c, -, kept, core⟩ := State.endTask_core (State.at_canon n hs) lc k
  have empty : (((s.at_ n).endTask lc k).core lc).scp.port = [] := by
    rw [core]
    exact kept.port port
  show execTaskStop lc n s = _
  have task : ((s.at_ n).core lc).seq.task = some k := runs
  have clear : (s.at_ n).mgmt.faultActive = false := noFault
  simp only [execTaskStop, task, clear, ended, Bool.not_false, Bool.and_true, if_true, State.pumpPort_of_empty empty]

end

end Sys2Proof.Machine
end

section
/-! SUPPORT. Failures of a core and of what it reads through (R254, R255, R259, R260), and waits that have lasted their limit
(R106, R137, R269). -/

namespace Sys2Proof.Machine

section
variable {s : State} {lc : Fin 64} {e : Eng}

/-! ### Failures -/

/-- A mismatch whose state can be reloaded, and a parity error, are failures of what the engine has not retired. -/
theorem exec_failure (noFault : s.mgmt.faultActive = false) (stream : (s.eng lc e).status ≠ .noStream) :
    exec (.sequencerMismatch lc e true) s = .next (s.failEngine lc e 3)
      ∧ exec (.parityError (.core lc e)) s = .next (s.failEngine lc e 2) := by
  constructor
  · show execSequencerMismatch lc e true s = _
    simp [execSequencerMismatch, noFault, stream]
  · show execParityError (.core lc e) s = _
    simp [execParityError, noFault]

theorem State.failEngine_front (running : (s.eng lc e).status = .running) (idle : (s.eng lc e).begun = [])
    (front : (s.eng lc e).fetched ≠ []) (detector : Nat) : s.failEngine lc e detector = s.failFront lc e detector := by
  simp only [State.failEngine, idle, running, front, ne_eq, not_false_eq_true, and_self, if_true]

theorem State.failEngine_array {a : Arr} {b : Begun} {l : List Begun} (begun : (s.eng lc a.eng).begun = b :: l)
    (detector : Nat) : s.failEngine lc a.eng detector = s.failArray lc a b.serial detector := by
  simp only [State.failEngine, begun]
  cases a <;> rfl

theorem State.failEngine_dma {d : Dma} {b : Begun} {l : List Begun} (begun : (s.eng lc d.eng).begun = b :: l)
    (detector : Nat) : s.failEngine lc d.eng detector = s.failRequest lc d.eng b detector := by
  simp only [State.failEngine, begun]
  cases d <;> rfl

/-- The first failure of a request of the one command an engine has begun: the command is replayed. -/
theorem State.failRequest_replays (hs : Canon s) {b : Begun} (begun : (s.eng lc e).begun = [b]) (first : b.replayed = false)
    (detector : Nat) :
    replayCounted s (s.failRequest lc e b detector) lc e detector
      ∧ (s.failRequest lc e b detector).eng lc e = { s.eng lc e with begun := [{ b with replayed := true }] } := by
  unfold State.failRequest
  simp only [first, Bool.false_eq_true, if_false]
  obtain ⟨counted, eng⟩ := State.countReplay_onEng hs lc e detector (fun g => { g with
    begun := g.begun.map (fun x => if x.serial = b.serial then { x with replayed := true } else x) })
  refine ⟨counted, eng.trans ?_⟩
  rw [begun]
  simp

/-- Saved state that proves uncorrectable: whatever the engine has begun leaves, and the failure is final. -/
theorem exec_sequencerMismatch_lost (noFault : s.mgmt.faultActive = false) (stream : (s.eng lc e).status ≠ .noStream) :
    exec (.sequencerMismatch lc e false) s =
      .next ((s.dropAllBegun lc e).secondFailure lc e 3 3 (s.eng lc e).retired) := by
  show execSequencerMismatch lc e false s = _
  simp [execSequencerMismatch, noFault, stream]

/-- The report of a fault leaves the fault as it is latched. -/
theorem State.fault_reportFault (s : State) : s.reportFault.mgmt.faultActive = s.mgmt.faultActive
    ∧ s.reportFault.mgmt.faultCause = s.mgmt.faultCause := by
  unfold State.reportFault
  extract_lets all first owners told mgmt closed
  have informed : Within [.host] s told := within_foldl _ _ (State.reportTo_within _ _ Within.rfl (by decide)) fun u p h =>
    State.reportTo_within _ _ h (by decide)
  have same : told.mgmt = s.mgmt := informed .mgmt (by decide)
  have signalled : Within [.host] closed ((List.range 16).foldl State.vectorOf closed) :=
    within_foldl _ _ Within.rfl fun u n h => State.vectorOf_within n h (by decide)
  rw [signalled .mgmt (by decide)]
  exact ⟨show told.mgmt.faultActive = _ by rw [same], show told.mgmt.faultCause = _ by rw [same]⟩

/-- A fault that is the first, other than failed firmware, is latched with its cause. -/
theorem State.deviceFault_latches (power : s.pins.pwrGood = true) (noFault : s.mgmt.faultActive = false) :
    (s.deviceFault 2).mgmt.faultActive = true ∧ (s.deviceFault 2).mgmt.faultCause = 2 := by
  unfold State.deviceFault
  rw [if_neg (by simp [power])]
  extract_lets flash counted logged quiet mgmt both started lost fab latch halted stopped
  have quietly : quiet = logged := if_neg (by decide)
  have recorded : Within [.flash] s logged :=
    State.logErr_within _ _ _ _ _ (within_flash _ Within.rfl (by decide)) (by decide)
  have clear : ¬ quiet.mgmt.faultActive = true := by
    rw [quietly, recorded .mgmt (by decide), noFault]
    decide
  rw [if_neg clear, if_neg (by decide)]
  have latched : stopped.mgmt.faultActive = true ∧ stopped.mgmt.faultCause = 2 := by
    unfold stopped halted
    clear_value lost
    exact ⟨rfl, rfl⟩
  obtain ⟨active, cause⟩ := State.fault_reportFault stopped
  rw [active, cause]
  exact latched

/-- A damaged frame leaves its receive buffer, and nothing changes beyond its port. -/
theorem State.bufDrop_frame (hs : Canon s) {p k : Nat} {x : RxFrame} (listed : (s.port p).rxq[k]? = some x) :
    ((s.bufDrop p k).port p).rxq = (s.port p).rxq.erase x ∧ (s.bufDrop p k).cores = s.cores ∧ (s.bufDrop p k).mem = s.mem := by
  have kept : Within [.ports] s (s.bufDrop p k) := State.bufDrop_within p k Within.rfl (by decide)
  refine ⟨?_, kept .cores (by decide), kept .mem (by decide)⟩
  obtain ⟨xoff, sent, pfcTx, txBytes, port⟩ := State.port_pfcCheck
    (State.onPort_keeps p (fun q => { q with rxq := q.rxq.erase x }) hs) p x.prio
  simp only [State.bufDrop, listed, State.bufTake]
  rw [port, State.port_onPort_same _ _ hs]

/-! ### Waits -/

/-- A tile that waits is one of the engine's array. -/
theorem eng_of_tileWaitOver {a : Arr} {m : Nat} (late : tileWaitOver s lc e = some (a, m)) : a.eng = e := by
  unfold tileWaitOver at late
  dsimp only at late
  split at late
  · obtain ⟨x, -, found⟩ := List.exists_of_findSome?_eq_some late
    split at found
    · next mine =>
      obtain ⟨i, -, eq⟩ := Option.map_eq_some_iff.1 found
      cases eq
      exact mine
    · cases found
  · cases late

theorem exec_implicitWaitTimeout_command {n : Nat} (ended : waitOver (s.at_ n) lc e false = true) :
    exec (.implicitWaitTimeout lc e n) s = .next ((s.at_ n).failStream lc e eWaitTimeout) := by
  show execImplicitWaitTimeout lc e n s = _
  simp only [execImplicitWaitTimeout, ended, if_true]

theorem exec_implicitWaitTimeout_tile {n m : Nat} {a : Arr} (runs : waitOver (s.at_ n) lc e false = false)
    (late : tileWaitOver (s.at_ n) lc e = some (a, m)) : exec (.implicitWaitTimeout lc e n) s =
      .next (((s.at_ n).dropBegun lc a m).failBegun lc e eWaitTimeout (some m)) := by
  show execImplicitWaitTimeout lc e n s = _
  simp only [execImplicitWaitTimeout, runs, late, Bool.false_eq_true, if_false]

/-- An explicit wait that has lasted its limit stops its stream; a grp.commit's group is aborted before. -/
theorem exec_explicitWaitTimeout_front {n : Nat} {f : Fetched} {l : List Fetched} (front : (s.eng lc e).fetched = f :: l)
    (ended : waitOver (s.at_ n) lc e true = true) : exec (.explicitWaitTimeout lc e n) s =
      .next (State.failStream (if Cmd.op f.word = 0x15 then
        (s.at_ n).abortGroup lc (BitVec.ofNat 12 (fld f.word 64 12)) eWaitTimeout else s.at_ n) lc e eWaitTimeout) := by
  have front' : ((s.at_ n).eng lc e).fetched = f :: l := front
  show execExplicitWaitTimeout lc e n s = _
  simp only [execExplicitWaitTimeout, ended, front', if_true]

/-- A stream that stops at the command it has come to, whatever was done before that left every core undisturbed. -/
theorem State.failStream_stops {u : State} (kept : s.Undisturbed u) (code : Nat) :
    stopsWith s (u.failStream lc e code) lc e code (satAdd 0 (s.eng lc e).begunCount) := by
  obtain ⟨stops, -⟩ := State.failAt_stops kept.canon lc e code (satAdd 0 (u.eng lc e).begunCount)
  have same : (u.eng lc e).begunCount = (s.eng lc e).begunCount := ((kept.core lc).eng e).begunCount
  exact same ▸ stops.of_undisturbed kept

theorem State.grp_failStream (hs : Canon s) (code : Nat) (g : BitVec 12) :
    ((s.failStream lc e code).core lc).seq.grp g = (s.core lc).seq.grp g := by
  obtain ⟨-, -, groups, -⟩ := State.failAt_stops hs lc e code (satAdd 0 (s.eng lc e).begunCount)
  exact congrArg (fun t => Tbl.get ({} : Group) t g.toNat) groups

end

end Sys2Proof.Machine
end

section
open Sys2Proof Sys2Proof.Machine

/-- Settles O22: a failure is counted and replayed, or is final, as `State.failEngine` says of what its engine has begun; what
leaves with it, with the end of a task or with the abort of a group leaves every core undisturbed. -/
theorem coreFailuresAndEnds : Obligations.CoreFailuresAndEnds := by
  refine ⟨fun lc e s hs noFault => ?failures, fun lc e n s hs => ?ends⟩
  case failures =>
    intro g suspectFrom
    have suspects (u : State) (kept : s.Undisturbed u) (detector cause : Nat) :
        suspectFrom (u.secondFailure lc e detector cause g.retired) cause := by
      obtain ⟨suspect, second, first, stops, -⟩ := State.secondFailure_stops kept.canon lc e detector cause g.retired
      exact ⟨suspect, second, fun clear => first ((kept.core lc).suspect.trans clear), stops.of_undisturbed kept⟩
    refine ⟨fun running idle front first x mem => ?replays, fun running idle front again i mem => ?final,
      fun stream _ => ?lost, fun d b begun first => ?dma, fun a b l mine begun stream => ?array, fun power => ?crossbar,
      fun p k x listed => ?frame⟩
    case replays =>
      have stream : g.status ≠ .noStream := by simp [running]
      obtain ⟨mismatch, parity⟩ := exec_failure noFault stream
      have replays (detector : Nat) : s.failEngine lc e detector =
          (s.countReplay lc e detector g.retired).onEng lc e (fun g => { g with replaying := true }) := by
        rw [State.failEngine_front running idle front, State.failFront]
        exact if_neg (by simpa using first)
      have run : exec x.1 s = .next (s.failEngine lc e x.2) := by
        simp only [List.mem_cons, List.not_mem_nil, or_false] at mem
        obtain rfl | rfl := mem
        · exact mismatch
        · exact parity
      exact ⟨_, run, replays x.2 ▸ State.countReplay_onEng hs lc e x.2 _⟩
    case final =>
      have stream : g.status ≠ .noStream := by simp [running]
      obtain ⟨mismatch, parity⟩ := exec_failure noFault stream
      have fails (detector : Nat) : s.failEngine lc e detector = s.secondFailure lc e detector 1 g.retired := by
        rw [State.failEngine_front running idle front, State.failFront]
        exact if_pos again
      rw [fails] at mismatch parity
      simp only [List.mem_cons, List.not_mem_nil, or_false] at mem
      obtain rfl | rfl := mem
      · exact ⟨_, mismatch, suspects s (.refl hs) 3 1⟩
      · exact ⟨_, parity, suspects s (.refl hs) 2 1⟩
    case lost =>
      obtain ⟨kept, emptied⟩ := State.dropAllBegun_empties hs lc e
      obtain ⟨-, -, -, -, begun⟩ := State.secondFailure_stops kept.canon lc e 3 3 g.retired
      exact ⟨_, exec_sequencerMismatch_lost noFault stream, suspects _ kept 3 3, (begun e).trans emptied⟩
    case dma =>
      have run : exec (.parityError (.dmaRead lc d)) s = .next (s.failEngine lc d.eng 5) := by
        show execParityError (.dmaRead lc d) s = _
        simp [execParityError, noFault]
      rw [State.failEngine_dma begun] at run
      exact ⟨_, run, State.failRequest_replays hs begun first 5⟩
    case array =>
      subst mine
      obtain ⟨mismatch, parity⟩ := exec_failure noFault stream
      exact ⟨mismatch.trans (by rw [State.failEngine_array begun]), parity.trans (by rw [State.failEngine_array begun])⟩
    case crossbar => exact ⟨_, rfl, State.deviceFault_latches power noFault⟩
    case frame => exact ⟨_, rfl, State.bufDrop_frame hs listed⟩
  case ends =>
    have timed : s.Undisturbed (s.at_ n) := .of_cores (State.at_canon n hs) rfl
    refine ⟨fun k runs noFault ended port => ?task, fun ended => ?command, fun a m runs late => ?tile,
      fun f l front ended => ?explicit⟩
    case task =>
      obtain ⟨c, canon, -, core⟩ := State.endTask_core timed.canon lc k
      refine ⟨_, exec_taskStop_ends hs runs noFault ended port, rfl, ?_, fun x => ?_⟩
      · rw [core]
        exact (Core.vacate_idle canon e).1
      · rw [State.eng, core]
        exact (Core.vacate_idle canon x).2
    case command => exact ⟨_, exec_implicitWaitTimeout_command ended, State.failStream_stops timed _⟩
    case tile =>
      have mine := eng_of_tileWaitOver late
      have kept := timed.trans (.dropBegun timed.canon lc a m)
      obtain ⟨stops, -, -, begun⟩ := State.failAt_stops kept.canon lc e eWaitTimeout (satAdd 0 m)
      refine ⟨_, exec_implicitWaitTimeout_tile runs late, stops.of_undisturbed kept, fun b mem same => ?_⟩
      have gone := State.serials_dropBegun timed.canon lc a m
      rw [mine] at gone
      exact gone (List.mem_map.2 ⟨b, begun e ▸ mem, same⟩)
    case explicit =>
      have run := exec_explicitWaitTimeout_front front ended
      refine ⟨⟨_, run, State.failStream_stops ?_ _⟩, fun g commit named opened => ?_⟩
      · split
        · exact timed.trans (.abortGroup timed.canon lc _ _)
        · exact timed
      · rw [if_pos commit, ← named] at run
        have aborted := State.Undisturbed.abortGroup timed.canon lc g eWaitTimeout
        refine ⟨_, run, ?_⟩
        rw [State.grp_failStream aborted.canon]
        exact State.grp_abortGroup timed.canon lc g eWaitTimeout opened
end

section
/-! SUPPORT. Every command comes to a next state, keeps the canonical form and changes only the parts `touches` lists: one
lemma over all commands each, assembled from the lemmas on the meanings (log 172). -/

namespace Sys2Proof.Machine

/-- An outcome is a next state: neither a fault nor a refusal. -/
def Advances (r : Res) : Prop := ∃ t, r = .next t

theorem advances_next (t : State) : Advances (.next t) := ⟨t, rfl⟩

theorem advances_ite {p : Prop} [Decidable p] {a b : Res} (h : Advances a) (k : Advances b) :
    Advances (if p then a else b) := by
  split <;> assumption

theorem runCmd_advances (r : Row) (op : Nat) (eff : Ctx → State → State) (lc : Nat) (e : Eng) (s : State) :
    Advances (runCmd r op eff lc e s) := by
  unfold runCmd
  split <;> exact advances_next _

theorem tongsAlone_advances (r : Row) (lc : Nat) (e : Eng) (s : State) : Advances (tongsAlone r lc e s) :=
  runCmd_advances ..

/-- Every meaning is a tree of conditions and case splits whose leaves are next states or run a stream's front command. -/
theorem exec_advances (i : Instr) (s : State) : Advances (exec i s) := by
  cases i
  all_goals
    simp only [exec, execNop, execStop, execLoop, execEndloop, execCodeSwap, execWaitQ, execWaitGrp, execWaitBar,
      execWaitWin, execBarArrive, execQCfg, execQPush, execGrpOpen, execGrpCommit, execGrpAbort, execWinOpen,
      execWinClose, execMm, execMmWin3d, execMmTongs, execTongsPairStart, execGatherTile, execVxAdd, execVxMul,
      execVxFma, execVxMax, execVxMin, execVxSel, execVxCvt, execVxExp, execVxLog, execVxRecip, execVxRsqrt,
      execVxSqrt, execVxTanh, execVxSigm, execVxSincos, execVxRsum, execVxRmax, execVxScan, execVxQuant,
      execVxSmx, execRedMax, execRedMin, execRedTopk, execRedHist, execChainAdd, execDmaCopy, execCommandFetch,
      execArraySwap, execTileDrainStart, execTileDrainEnd, execSequencerMismatch, execParityError,
      execTaskStop, execImplicitWaitTimeout, execExplicitWaitTimeout, execWinOpenQuiet, execChainConfirm,
      execSlicePrepare, execGroupCommitPoint, execSliceCommit, execEccWriteback, execSectionPowerEntry,
      execSectionWake, execSectionWakeDone, execWindowWrite, execXbarRead, execXbarWrite, execSliceMissFill,
      execParkCopyHome, execStackRead, execStackWrite, execInPlaceAdd, execStackRefresh, execPatrolScrub,
      execTargetedScrub, execBisnpResponse, execHostMemRequest, execHostSnoop, execApertureCompletion,
      execFrameReceive, execArpRequest, execNeighbourSolicitation, execIcmpEchoRequest, execPfcFrameRx,
      execPauseQuantaExpiry, execLldpTimer, execPortUp, execTrainingRetry, execLossOfSignal, execFaultReceived,
      execPortRetrain, execHiSerTimer, execLaserEol, execOeOvertemp, execOpticsRailFail, execWriteWin,
      execWriteDram, execAddDram, execReadReq, execReadResp, execAck, execCredit, execTouch, execStrike,
      execGroup, execBarrier, execSetup, execSetupAck, execTeardown, execContextFetchDone, execAckTimer,
      execReorderTimeout, execRtoExpiry, execRetxLimit, execSetupRetry, execClosingTimeout, execMc3Restart,
      execPtpMessageRx, execPtpEventTx, execPtpSyncLoss, execCxlPerstAssert, execCxlPerstRelease, execHotReset,
      execFunctionLevelReset, execCxlLinkDown, execCxlLinkUp, execMbxScan, execFwInfo, execHeartbeat,
      execHostReturn, execLicenceInstall, execAttestRequest, execAttestSign, execConfigStage, execConfigApply,
      execApplyAdopt, execQueueCreate, execQueueDestroy, execContextLoad, execContextUnload, execJobSubmit,
      execJobCancel, execJobStart, execPreemptSaveDone, execJobComplete, execCoreHandover, execHostTimeout,
      execHostDrain, execHeldMessageDelivery, execMbxReset, execStageDiscard, execCfgStart, execFwUpdateGo,
      execFwUpdateDone, execSecUnlockSignature, execSecUnlockPassword, execNonceRead, execErrlogSelect,
      execErrlogFetchDone, execLoReadLatch, execW1cWrite, execRegisterWrite, execBoardConfigRecord,
      execScpCorrLogHourly, execDamperSample, execThermalSample, execStackThermalSample, execStepPolicy,
      execParkTimer, execCorePark, execUnparkTimer, execThermalTrip, execTripRelease, execCoolantOkFall,
      execCoolantOkRise, execQuench, execCoolantRestart, execShunt, execClamp, execClockStretch,
      execTemperReading, execTemperHourly, execTemperSave, execPhaseFailure, execDomainShort, execCrackCheck,
      execTileFailure, execStackRailFail, execAlwaysOnFail, execRetentionEntry, execSwitchOnGrant,
      execGrantTimeout, execSwitchOnDone, execStepChange, execDeferredStepSwitch, execRefLost,
      execOptHoldoverExpiry, execTimeBeacon, execPwrGoodRise, execPwrGoodFall, execVddioLow, execVinOutOfRange,
      execStartStage5, execBankedRestart, execDeviceLevelFault, execMc0WatchdogExpiry, execMcHeartbeatMiss,
      execJtagBypass, execJtagIdcode, execJtagSamplePreload, execJtagExtest, execJtagUnlock,
      execSmbusOffsetWrite, execSmbusRead, execSmbusAlertResponse, execSmbusClockTimeout,
      execSmbusMirrorRefresh, execHdmDecoderCommit, execCacheEnable, execConfigurationRequest,
      execFaultCleared, execRefRestored, execVddioRestored, execVin48Restored, execStandbyRestartDone,
      execGatewayResolved, execSecondLevelTreeReady]
    repeat' first
      | with_reducible exact advances_next _
      | with_reducible exact runCmd_advances ..
      | with_reducible exact tongsAlone_advances ..
      | with_reducible apply advances_ite
      | split

theorem exec_canon {s : State} (i : Instr) (h : Canon s) : CanonR (exec i s) := by
  cases i with (simp only [exec])
  | nop => exact execNop_canon _ _ h
  | stop => exact execStop_canon _ _ h
  | loop => exact execLoop_canon _ _ h
  | endloop => exact execEndloop_canon _ _ h
  | codeSwap => exact execCodeSwap_canon _ _ h
  | waitQ => exact execWaitQ_canon _ _ h
  | waitGrp => exact execWaitGrp_canon _ _ h
  | waitBar => exact execWaitBar_canon _ _ h
  | waitWin => exact execWaitWin_canon _ _ h
  | barArrive => exact execBarArrive_canon _ h
  | qCfg => exact execQCfg_canon _ h
  | qPush => exact execQPush_canon _ h
  | grpOpen => exact execGrpOpen_canon _ _ h
  | grpCommit => exact execGrpCommit_canon _ h
  | grpAbort => exact execGrpAbort_canon _ h
  | winOpen => exact execWinOpen_canon _ h
  | winClose => exact execWinClose_canon _ h
  | mm => exact execMm_canon _ _ h
  | mmWin3d => exact execMmWin3d_canon _ _ h
  | mmTongs => exact execMmTongs_canon _ h
  | tongsPairStart => exact execTongsPairStart_canon _ h
  | gatherTile => exact execGatherTile_canon _ _ h
  | vxAdd => exact execVxAdd_canon _ h
  | vxMul => exact execVxMul_canon _ h
  | vxFma => exact execVxFma_canon _ h
  | vxMax => exact execVxMax_canon _ h
  | vxMin => exact execVxMin_canon _ h
  | vxSel => exact execVxSel_canon _ h
  | vxCvt => exact execVxCvt_canon _ h
  | vxExp => exact execVxExp_canon _ h
  | vxLog => exact execVxLog_canon _ h
  | vxRecip => exact execVxRecip_canon _ h
  | vxRsqrt => exact execVxRsqrt_canon _ h
  | vxSqrt => exact execVxSqrt_canon _ h
  | vxTanh => exact execVxTanh_canon _ h
  | vxSigm => exact execVxSigm_canon _ h
  | vxSincos => exact execVxSincos_canon _ h
  | vxRsum => exact execVxRsum_canon _ h
  | vxRmax => exact execVxRmax_canon _ h
  | vxScan => exact execVxScan_canon _ h
  | vxQuant => exact execVxQuant_canon _ h
  | vxSmx => exact execVxSmx_canon _ h
  | redMax => exact execRedMax_canon _ h
  | redMin => exact execRedMin_canon _ h
  | redTopk => exact execRedTopk_canon _ h
  | redHist => exact execRedHist_canon _ h
  | chainAdd => exact execChainAdd_canon _ _ h
  | dmaCopy => exact execDmaCopy_canon _ _ h
  | commandFetch => exact execCommandFetch_canon _ _ _ h
  | arraySwap => exact execArraySwap_canon _ _ _ _ h
  | tileDrainStart => exact execTileDrainStart_canon _ h
  | tileDrainEnd => exact execTileDrainEnd_canon _ _ h
  | sequencerMismatch => exact execSequencerMismatch_canon _ _ _ h
  | parityError => exact execParityError_canon _ h
  | taskStop => exact execTaskStop_canon _ _ h
  | implicitWaitTimeout => exact execImplicitWaitTimeout_canon _ _ _ h
  | explicitWaitTimeout => exact execExplicitWaitTimeout_canon _ _ _ h
  | winOpenQuiet => exact execWinOpenQuiet_canon _ _ h
  | chainConfirm => exact execChainConfirm_canon _ h
  | slicePrepare => exact execSlicePrepare_canon _ _ h
  | groupCommitPoint => exact execGroupCommitPoint_canon _ h
  | sliceCommit => exact execSliceCommit_canon _ _ h
  | eccWriteback => exact execEccWriteback_canon _ _ h
  | sectionPowerEntry => exact execSectionPowerEntry_canon _ _ h
  | sectionWake => exact execSectionWake_canon _ _ h
  | sectionWakeDone => exact execSectionWakeDone_canon _ _ h
  | windowWrite => exact execWindowWrite_canon _ _ _ _ _ _ h
  | xbarRead => exact execXbarRead_canon _ _ _ _ _ h
  | xbarWrite => exact execXbarWrite_canon _ _ _ _ _ _ h
  | sliceMissFill => exact execSliceMissFill_canon _ _ h
  | parkCopyHome => exact execParkCopyHome_canon _ h
  | stackRead => exact execStackRead_canon _ _ h
  | stackWrite => exact execStackWrite_canon _ _ _ _ _ h
  | inPlaceAdd => exact execInPlaceAdd_canon _ _ _ _ _ h
  | stackRefresh => exact execStackRefresh_canon _ _ _ _ h
  | patrolScrub => exact execPatrolScrub_canon _ _ h
  | targetedScrub => exact execTargetedScrub_canon _ _ h
  | bisnpResponse => exact execBisnpResponse_canon _ _ h
  | hostMemRequest => exact execHostMemRequest_canon _ _ _ h
  | hostSnoop => exact execHostSnoop_canon _ h
  | apertureCompletion => exact execApertureCompletion_canon _ h
  | frameReceive => exact execFrameReceive_canon _ _ h
  | arpRequest => exact execArpRequest_canon _ _ _ _ h
  | neighbourSolicitation => exact execNeighbourSolicitation_canon _ _ _ _ h
  | icmpEchoRequest => exact execIcmpEchoRequest_canon _ _ _ _ _ _ h
  | pfcFrameRx => exact execPfcFrameRx_canon _ _ _ h
  | pauseQuantaExpiry => exact execPauseQuantaExpiry_canon _ _ _ h
  | lldpTimer => exact execLldpTimer_canon _ _ h
  | portUp => exact execPortUp_canon _ h
  | trainingRetry => exact execTrainingRetry_canon _ _ _ h
  | lossOfSignal => exact execLossOfSignal_canon _ _ h
  | faultReceived => exact execFaultReceived_canon _ _ h
  | portRetrain => exact execPortRetrain_canon _ _ h
  | hiSerTimer => exact execHiSerTimer_canon _ _ _ _ _ _ h
  | laserEol => exact execLaserEol_canon _ _ h
  | oeOvertemp => exact execOeOvertemp_canon _ _ _ h
  | opticsRailFail => exact execOpticsRailFail_canon _ h
  | writeWin => exact execWriteWin_canon _ _ _ h
  | writeDram => exact execWriteDram_canon _ _ _ h
  | addDram => exact execAddDram_canon _ _ _ h
  | readReq => exact execReadReq_canon _ _ _ _ h
  | readResp => exact execReadResp_canon _ _ _ _ _ h
  | ack => exact execAck_canon _ _ h
  | credit => exact execCredit_canon _ _ _ _ _ _ h
  | touch => exact execTouch_canon _ _ h
  | strike => exact execStrike_canon _ _ h
  | group => exact execGroup_canon _ _ _ _ h
  | barrier => exact execBarrier_canon _ _ _ _ h
  | setup => exact execSetup_canon _ _ h
  | setupAck => exact execSetupAck_canon _ _ h
  | teardown => exact execTeardown_canon _ h
  | contextFetchDone => exact execContextFetchDone_canon _ h
  | ackTimer => exact execAckTimer_canon _ _ h
  | reorderTimeout => exact execReorderTimeout_canon _ _ _ h
  | rtoExpiry => exact execRtoExpiry_canon _ _ h
  | retxLimit => exact execRetxLimit_canon _ _ h
  | setupRetry => exact execSetupRetry_canon _ _ h
  | closingTimeout => exact execClosingTimeout_canon _ _ h
  | mc3Restart => exact execMc3Restart_canon _ h
  | ptpMessageRx => exact execPtpMessageRx_canon _ _ _ h
  | ptpEventTx => exact execPtpEventTx_canon _ _ _ _ h
  | ptpSyncLoss => exact execPtpSyncLoss_canon _ h
  | cxlPerstAssert => exact execCxlPerstAssert_canon h
  | cxlPerstRelease => exact execCxlPerstRelease_canon h
  | hotReset => exact execHotReset_canon h
  | functionLevelReset => exact execFunctionLevelReset_canon h
  | cxlLinkDown => exact execCxlLinkDown_canon h
  | cxlLinkUp => exact execCxlLinkUp_canon _ _ _ _ h
  | mbxScan => exact execMbxScan_canon _ h
  | fwInfo => exact execFwInfo_canon _ h
  | heartbeat => exact execHeartbeat_canon _ h
  | hostReturn => exact execHostReturn_canon h
  | licenceInstall => exact execLicenceInstall_canon h
  | attestRequest => exact execAttestRequest_canon _ _ h
  | attestSign => exact execAttestSign_canon _ h
  | configStage => exact execConfigStage_canon h
  | configApply => exact execConfigApply_canon h
  | applyAdopt => exact execApplyAdopt_canon h
  | queueCreate => exact execQueueCreate_canon _ _ h
  | queueDestroy => exact execQueueDestroy_canon _ h
  | contextLoad => exact execContextLoad_canon _ _ _ h
  | contextUnload => exact execContextUnload_canon _ h
  | jobSubmit => exact execJobSubmit_canon _ h
  | jobCancel => exact execJobCancel_canon _ h
  | jobStart => exact execJobStart_canon _ _ h
  | preemptSaveDone => exact execPreemptSaveDone_canon _ h
  | jobComplete => exact execJobComplete_canon _ _ h
  | coreHandover => exact execCoreHandover_canon _ h
  | hostTimeout => exact execHostTimeout_canon _ h
  | hostDrain => exact execHostDrain_canon _ h
  | heldMessageDelivery => exact execHeldMessageDelivery_canon _ h
  | mbxReset => exact execMbxReset_canon _ h
  | stageDiscard => exact execStageDiscard_canon h
  | cfgStart => exact execCfgStart_canon _ _ h
  | fwUpdateGo => exact execFwUpdateGo_canon h
  | fwUpdateDone => exact execFwUpdateDone_canon _ _ _ h
  | secUnlockSignature => exact execSecUnlockSignature_canon _ h
  | secUnlockPassword => exact execSecUnlockPassword_canon _ h
  | nonceRead => exact execNonceRead_canon _ h
  | errlogSelect => exact execErrlogSelect_canon _ h
  | errlogFetchDone => exact execErrlogFetchDone_canon h
  | loReadLatch => exact execLoReadLatch_canon _ h
  | w1cWrite => exact execW1cWrite_canon _ _ h
  | registerWrite => exact execRegisterWrite_canon _ _ h
  | boardConfigRecord => exact execBoardConfigRecord_canon _ h
  | scpCorrLogHourly => exact execScpCorrLogHourly_canon _ h
  | damperSample => exact execDamperSample_canon _ _ _ _ h
  | thermalSample => exact execThermalSample_canon _ _ _ _ h
  | stackThermalSample => exact execStackThermalSample_canon _ _ _ h
  | stepPolicy => exact execStepPolicy_canon _ _ h
  | parkTimer => exact execParkTimer_canon _ _ h
  | corePark => exact execCorePark_canon _ h
  | unparkTimer => exact execUnparkTimer_canon _ _ h
  | thermalTrip => exact execThermalTrip_canon _ _ h
  | tripRelease => exact execTripRelease_canon _ h
  | coolantOkFall => exact execCoolantOkFall_canon _ h
  | coolantOkRise => exact execCoolantOkRise_canon _ h
  | quench => exact execQuench_canon _ h
  | coolantRestart => exact execCoolantRestart_canon _ h
  | shunt => exact execShunt_canon _ _ _ h
  | clamp => exact execClamp_canon _ _ h
  | clockStretch => exact execClockStretch_canon _ _ _ h
  | temperReading => exact execTemperReading_canon _ _ _ _ h
  | temperHourly => exact execTemperHourly_canon _ _ h
  | temperSave => exact execTemperSave_canon _ h
  | phaseFailure => exact execPhaseFailure_canon _ _ h
  | domainShort => exact execDomainShort_canon _ _ h
  | crackCheck => exact execCrackCheck_canon _ _ _ h
  | tileFailure => exact execTileFailure_canon _ h
  | stackRailFail => exact execStackRailFail_canon _ h
  | alwaysOnFail => exact execAlwaysOnFail_canon h
  | retentionEntry => exact execRetentionEntry_canon _ h
  | switchOnGrant => exact execSwitchOnGrant_canon _ _ h
  | grantTimeout => exact execGrantTimeout_canon _ _ h
  | switchOnDone => exact execSwitchOnDone_canon _ _ h
  | stepChange => exact execStepChange_canon _ _ _ h
  | deferredStepSwitch => exact execDeferredStepSwitch_canon _ _ h
  | refLost => exact execRefLost_canon _ _ h
  | optHoldoverExpiry => exact execOptHoldoverExpiry_canon _ h
  | timeBeacon => exact execTimeBeacon_canon _ h
  | pwrGoodRise => exact execPwrGoodRise_canon _ _ _ h
  | pwrGoodFall => exact execPwrGoodFall_canon h
  | vddioLow => exact execVddioLow_canon _ h
  | vinOutOfRange => exact execVinOutOfRange_canon _ h
  | startStage5 => exact execStartStage5_canon _ _ h
  | bankedRestart => exact execBankedRestart_canon _ _ h
  | deviceLevelFault => exact execDeviceLevelFault_canon _ _ h
  | mc0WatchdogExpiry => exact execMc0WatchdogExpiry_canon _ _ _ h
  | mcHeartbeatMiss => exact execMcHeartbeatMiss_canon _ h
  | jtagBypass => exact execJtagBypass_canon _ h
  | jtagIdcode => exact execJtagIdcode_canon h
  | jtagSamplePreload => exact execJtagSamplePreload_canon _ h
  | jtagExtest => exact execJtagExtest_canon h
  | jtagUnlock => exact execJtagUnlock_canon _ _ h
  | smbusOffsetWrite => exact execSmbusOffsetWrite_canon _ h
  | smbusRead => exact execSmbusRead_canon h
  | smbusAlertResponse => exact execSmbusAlertResponse_canon h
  | smbusClockTimeout => exact execSmbusClockTimeout_canon h
  | smbusMirrorRefresh => exact execSmbusMirrorRefresh_canon _ h
  | hdmDecoderCommit => exact execHdmDecoderCommit_canon _ _ _ _ _ h
  | cacheEnable => exact execCacheEnable_canon h
  | configurationRequest => exact execConfigurationRequest_canon _ h
  | faultCleared => exact execFaultCleared_canon _ h
  | refRestored => exact execRefRestored_canon _ h
  | vddioRestored => exact execVddioRestored_canon _ h
  | vin48Restored => exact execVin48Restored_canon _ h
  | standbyRestartDone => exact execStandbyRestartDone_canon h
  | gatewayResolved => exact execGatewayResolved_canon _ _ h
  | secondLevelTreeReady => exact execSecondLevelTreeReady_canon h

theorem exec_within (i : Instr) (s : State) : WithinR (touches i) s (exec i s) := by
  cases i
  all_goals simp only [exec, touches]
  case' nop => apply execNop_within
  case' stop => apply execStop_within
  case' loop => apply execLoop_within
  case' endloop => apply execEndloop_within
  case' codeSwap => apply execCodeSwap_within
  case' waitQ => apply execWaitQ_within
  case' waitGrp => apply execWaitGrp_within
  case' waitBar => apply execWaitBar_within
  case' waitWin => apply execWaitWin_within
  case' barArrive => apply execBarArrive_within
  case' qCfg => apply execQCfg_within
  case' qPush => apply execQPush_within
  case' grpOpen => apply execGrpOpen_within
  case' grpCommit => apply execGrpCommit_within
  case' grpAbort => apply execGrpAbort_within
  case' winOpen => apply execWinOpen_within
  case' winClose => apply execWinClose_within
  case' mm => apply execMm_within
  case' mmWin3d => apply execMmWin3d_within
  case' mmTongs => apply execMmTongs_within
  case' tongsPairStart => apply execTongsPairStart_within
  case' gatherTile => apply execGatherTile_within
  case' vxAdd => apply execVxAdd_within
  case' vxMul => apply execVxMul_within
  case' vxFma => apply execVxFma_within
  case' vxMax => apply execVxMax_within
  case' vxMin => apply execVxMin_within
  case' vxSel => apply execVxSel_within
  case' vxCvt => apply execVxCvt_within
  case' vxExp => apply execVxExp_within
  case' vxLog => apply execVxLog_within
  case' vxRecip => apply execVxRecip_within
  case' vxRsqrt => apply execVxRsqrt_within
  case' vxSqrt => apply execVxSqrt_within
  case' vxTanh => apply execVxTanh_within
  case' vxSigm => apply execVxSigm_within
  case' vxSincos => apply execVxSincos_within
  case' vxRsum => apply execVxRsum_within
  case' vxRmax => apply execVxRmax_within
  case' vxScan => apply execVxScan_within
  case' vxQuant => apply execVxQuant_within
  case' vxSmx => apply execVxSmx_within
  case' redMax => apply execRedMax_within
  case' redMin => apply execRedMin_within
  case' redTopk => apply execRedTopk_within
  case' redHist => apply execRedHist_within
  case' chainAdd => apply execChainAdd_within
  case' dmaCopy => apply execDmaCopy_within
  case' commandFetch => apply execCommandFetch_within
  case' arraySwap => apply execArraySwap_within
  case' tileDrainStart => apply execTileDrainStart_within
  case' tileDrainEnd => apply execTileDrainEnd_within
  case' sequencerMismatch => apply execSequencerMismatch_within
  case' parityError => apply execParityError_within
  case' taskStop => apply execTaskStop_within
  case' implicitWaitTimeout => apply execImplicitWaitTimeout_within
  case' explicitWaitTimeout => apply execExplicitWaitTimeout_within
  case' winOpenQuiet => apply execWinOpenQuiet_within
  case' chainConfirm => apply execChainConfirm_within
  case' slicePrepare => apply execSlicePrepare_within
  case' groupCommitPoint => apply execGroupCommitPoint_within
  case' sliceCommit => apply execSliceCommit_within
  case' eccWriteback => apply execEccWriteback_within
  case' sectionPowerEntry => apply execSectionPowerEntry_within
  case' sectionWake => apply execSectionWake_within
  case' sectionWakeDone => apply execSectionWakeDone_within
  case' windowWrite => apply execWindowWrite_within
  case' xbarRead => apply execXbarRead_within
  case' xbarWrite => apply execXbarWrite_within
  case' sliceMissFill => apply execSliceMissFill_within
  case' parkCopyHome => apply execParkCopyHome_within
  case' stackRead => apply execStackRead_within
  case' stackWrite => apply execStackWrite_within
  case' inPlaceAdd => apply execInPlaceAdd_within
  case' stackRefresh => apply execStackRefresh_within
  case' patrolScrub => apply execPatrolScrub_within
  case' targetedScrub => apply execTargetedScrub_within
  case' bisnpResponse => apply execBisnpResponse_within
  case' hostMemRequest => apply execHostMemRequest_within
  case' hostSnoop => apply execHostSnoop_within
  case' apertureCompletion => apply execApertureCompletion_within
  case' frameReceive => apply execFrameReceive_within
  case' arpRequest => apply execArpRequest_within
  case' neighbourSolicitation => apply execNeighbourSolicitation_within
  case' icmpEchoRequest => apply execIcmpEchoRequest_within
  case' pfcFrameRx => apply execPfcFrameRx_within
  case' pauseQuantaExpiry => apply execPauseQuantaExpiry_within
  case' lldpTimer => apply execLldpTimer_within
  case' portUp => apply execPortUp_within
  case' trainingRetry => apply execTrainingRetry_within
  case' lossOfSignal => apply execLossOfSignal_within
  case' faultReceived => apply execFaultReceived_within
  case' portRetrain => apply execPortRetrain_within
  case' hiSerTimer => apply execHiSerTimer_within
  case' laserEol => apply execLaserEol_within
  case' oeOvertemp => apply execOeOvertemp_within
  case' opticsRailFail => apply execOpticsRailFail_within
  case' writeWin => apply execWriteWin_within
  case' writeDram => apply execWriteDram_within
  case' addDram => apply execAddDram_within
  case' readReq => apply execReadReq_within
  case' readResp => apply execReadResp_within
  case' ack => apply execAck_within
  case' credit => apply execCredit_within
  case' touch => apply execTouch_within
  case' strike => apply execStrike_within
  case' group => apply execGroup_within
  case' barrier => apply execBarrier_within
  case' setup => apply execSetup_within
  case' setupAck => apply execSetupAck_within
  case' teardown => apply execTeardown_within
  case' contextFetchDone => apply execContextFetchDone_within
  case' ackTimer => apply execAckTimer_within
  case' reorderTimeout => apply execReorderTimeout_within
  case' rtoExpiry => apply execRtoExpiry_within
  case' retxLimit => apply execRetxLimit_within
  case' setupRetry => apply execSetupRetry_within
  case' closingTimeout => apply execClosingTimeout_within
  case' mc3Restart => apply execMc3Restart_within
  case' ptpMessageRx => apply execPtpMessageRx_within
  case' ptpEventTx => apply execPtpEventTx_within
  case' ptpSyncLoss => apply execPtpSyncLoss_within
  case' cxlPerstAssert => apply execCxlPerstAssert_within
  case' cxlPerstRelease => apply execCxlPerstRelease_within
  case' hotReset => apply execHotReset_within
  case' functionLevelReset => apply execFunctionLevelReset_within
  case' cxlLinkDown => apply execCxlLinkDown_within
  case' cxlLinkUp => apply execCxlLinkUp_within
  case' mbxScan => apply execMbxScan_within
  case' fwInfo => apply execFwInfo_within
  case' heartbeat => apply execHeartbeat_within
  case' hostReturn => apply execHostReturn_within
  case' licenceInstall => apply execLicenceInstall_within
  case' attestRequest => apply execAttestRequest_within
  case' attestSign => apply execAttestSign_within
  case' configStage => apply execConfigStage_within
  case' configApply => apply execConfigApply_within
  case' applyAdopt => apply execApplyAdopt_within
  case' queueCreate => apply execQueueCreate_within
  case' queueDestroy => apply execQueueDestroy_within
  case' contextLoad => apply execContextLoad_within
  case' contextUnload => apply execContextUnload_within
  case' jobSubmit => apply execJobSubmit_within
  case' jobCancel => apply execJobCancel_within
  case' jobStart => apply execJobStart_within
  case' preemptSaveDone => apply execPreemptSaveDone_within
  case' jobComplete => apply execJobComplete_within
  case' coreHandover => apply execCoreHandover_within
  case' hostTimeout => apply execHostTimeout_within
  case' hostDrain => apply execHostDrain_within
  case' heldMessageDelivery => apply execHeldMessageDelivery_within
  case' mbxReset => apply execMbxReset_within
  case' stageDiscard => apply execStageDiscard_within
  case' cfgStart => apply execCfgStart_within
  case' fwUpdateGo => apply execFwUpdateGo_within
  case' fwUpdateDone => apply execFwUpdateDone_within
  case' secUnlockSignature => apply execSecUnlockSignature_within
  case' secUnlockPassword => apply execSecUnlockPassword_within
  case' nonceRead => apply execNonceRead_within
  case' errlogSelect => apply execErrlogSelect_within
  case' errlogFetchDone => apply execErrlogFetchDone_within
  case' loReadLatch => apply execLoReadLatch_within
  case' w1cWrite => apply execW1cWrite_within
  case' registerWrite => apply execRegisterWrite_within
  case' boardConfigRecord => apply execBoardConfigRecord_within
  case' scpCorrLogHourly => apply execScpCorrLogHourly_within
  case' damperSample => apply execDamperSample_within
  case' thermalSample => apply execThermalSample_within
  case' stackThermalSample => apply execStackThermalSample_within
  case' stepPolicy => apply execStepPolicy_within
  case' parkTimer => apply execParkTimer_within
  case' corePark => apply execCorePark_within
  case' unparkTimer => apply execUnparkTimer_within
  case' thermalTrip => apply execThermalTrip_within
  case' tripRelease => apply execTripRelease_within
  case' coolantOkFall => apply execCoolantOkFall_within
  case' coolantOkRise => apply execCoolantOkRise_within
  case' quench => apply execQuench_within
  case' coolantRestart => apply execCoolantRestart_within
  case' shunt => apply execShunt_within
  case' clamp => apply execClamp_within
  case' clockStretch => apply execClockStretch_within
  case' temperReading => apply execTemperReading_within
  case' temperHourly => apply execTemperHourly_within
  case' temperSave => apply execTemperSave_within
  case' phaseFailure => apply execPhaseFailure_within
  case' domainShort => apply execDomainShort_within
  case' crackCheck => apply execCrackCheck_within
  case' tileFailure => apply execTileFailure_within
  case' stackRailFail => apply execStackRailFail_within
  case' alwaysOnFail => apply execAlwaysOnFail_within
  case' retentionEntry => apply execRetentionEntry_within
  case' switchOnGrant => apply execSwitchOnGrant_within
  case' grantTimeout => apply execGrantTimeout_within
  case' switchOnDone => apply execSwitchOnDone_within
  case' stepChange => apply execStepChange_within
  case' deferredStepSwitch => apply execDeferredStepSwitch_within
  case' refLost => apply execRefLost_within
  case' optHoldoverExpiry => apply execOptHoldoverExpiry_within
  case' timeBeacon => apply execTimeBeacon_within
  case' pwrGoodRise => apply execPwrGoodRise_within
  case' pwrGoodFall => apply execPwrGoodFall_within
  case' vddioLow => apply execVddioLow_within
  case' vinOutOfRange => apply execVinOutOfRange_within
  case' startStage5 => apply execStartStage5_within
  case' bankedRestart => apply execBankedRestart_within
  case' deviceLevelFault => apply execDeviceLevelFault_within
  case' mc0WatchdogExpiry => apply execMc0WatchdogExpiry_within
  case' mcHeartbeatMiss => apply execMcHeartbeatMiss_within
  case' jtagBypass => apply execJtagBypass_within
  case' jtagIdcode => apply execJtagIdcode_within
  case' jtagSamplePreload => apply execJtagSamplePreload_within
  case' jtagExtest => apply execJtagExtest_within
  case' jtagUnlock => apply execJtagUnlock_within
  case' smbusOffsetWrite => apply execSmbusOffsetWrite_within
  case' smbusRead => apply execSmbusRead_within
  case' smbusAlertResponse => apply execSmbusAlertResponse_within
  case' smbusClockTimeout => apply execSmbusClockTimeout_within
  case' smbusMirrorRefresh => apply execSmbusMirrorRefresh_within
  case' hdmDecoderCommit => apply execHdmDecoderCommit_within
  case' cacheEnable => apply execCacheEnable_within
  case' configurationRequest => apply execConfigurationRequest_within
  case' faultCleared => apply execFaultCleared_within
  case' refRestored => apply execRefRestored_within
  case' vddioRestored => apply execVddioRestored_within
  case' vin48Restored => apply execVin48Restored_within
  case' standbyRestartDone => apply execStandbyRestartDone_within
  case' gatewayResolved => apply execGatewayResolved_within
  case' secondLevelTreeReady => apply execSecondLevelTreeReady_within
  all_goals first | exact .rfl | decide

/-- No command acts on the queue of waiting commands (log 1). -/
theorem pending_not_mem_touches (i : Instr) : Part.pending ∉ touches i := by
  cases i <;> simp [touches]

end Sys2Proof.Machine
end

section
open Sys2Proof Sys2Proof.Machine

/-- Settles O3: the command a step takes keeps the canonical form, and taking it from the queue changes no table. -/
theorem stepKeepsCanonicalForm : Obligations.StepKeepsCanonicalForm := by
  intro s t hs run
  unfold step at run
  split at run
  next => exact canonR_next hs t run
  next c rest _ => exact exec_canon (s := { s with pending := rest }) c hs t run

/-- Settles O2: the outcome is a next state, within the listed parts, and the queue is none of these. -/
theorem everyCommandRunsWithinItsParts : Obligations.EveryCommandRunsWithinItsParts := by
  intro i s
  obtain ⟨t, run⟩ := exec_advances i s
  have within := exec_within i s t run
  exact ⟨t, run, within, within .pending (pending_not_mem_touches i)⟩

/-- Settles O1: the two cases of `step`. -/
theorem stepRunsTheFrontCommand : Obligations.StepRunsTheFrontCommand := by
  refine ⟨fun c rest s queued => ?_, fun s empty => ?_⟩
  · simp only [step, queued]
  · simp only [step, empty]
end

section
/-! SUPPORT. The registers after reset (R403). -/

namespace Sys2Proof.Machine

variable {off : Nat} {g : Stg}

theorem State.reset_appliedReg (h : stgReg off = some g) : State.reset.appliedReg off = g.reset := by
  simp only [State.appliedReg, h]
  rfl

theorem State.reset_stagedReg (h : stgReg off = some g) : State.reset.stagedReg off = g.reset :=
  State.reset_appliedReg h

end Sys2Proof.Machine
end

section
open Sys2Proof Sys2Proof.Machine

/-- Settles O4: the tables of the reset state are empty, and what no table lists reads as its default. -/
theorem resetIsCanonical : Obligations.ResetIsCanonical :=
  ⟨reset_canon, rfl, fun _ _ h => ⟨State.reset_appliedReg h, State.reset_stagedReg h⟩, fun _ => ⟨rfl, rfl, rfl⟩,
    fun _ => ⟨rfl, rfl⟩, fun _ => rfl, rfl, rfl⟩
end

section
/-! SUPPORT. Little-endian numbers read back, and messages with their CRC (R304, R305). -/

namespace Sys2Proof.Machine

theorem leNat_toLE (k n : Nat) : leNat (toLE k n) = n % 256 ^ k := by
  induction k generalizing n with
  | zero => simp [toLE, leNat, Nat.mod_one]
  | succ k ih =>
    have digit : (BitVec.ofNat 8 n).toNat = n % 256 := BitVec.toNat_ofNat n 8
    rw [toLE, leNat, ih, digit, Nat.pow_succ, Nat.mul_comm (256 ^ k), Nat.mod_mul]

/-- Bytes in the middle of a list are read at their offset. -/
theorem bytesAt_append_middle (a x b : List Byte) : bytesAt (a ++ x ++ b) a.length x.length = x := by
  simp [bytesAt]

theorem leAt_toLE_append (a b : List Byte) (k n : Nat) : leAt (a ++ toLE k n ++ b) a.length k = n % 256 ^ k := by
  have read := bytesAt_append_middle a (toLE k n) b
  rw [length_toLE] at read
  rw [leAt, read, leNat_toLE]

theorem crcStep_lt {c : Nat} (h : c < 2 ^ 32) : crcStep c < 2 ^ 32 := by
  have half : c / 2 < 2 ^ 32 := by omega
  unfold crcStep
  split
  · exact Nat.xor_lt_two_pow half (by decide)
  · exact half

/-- A CRC fits its field. -/
theorem crc32c_lt (l : List Byte) : crc32c l < 2 ^ 32 := by
  refine Nat.xor_lt_two_pow (foldl_keeps (P := (· < 2 ^ 32)) _ l (by decide) fun c b hc => ?_) (by decide)
  have byte : b.toNat < 2 ^ 32 := Nat.lt_trans b.isLt (by decide)
  iterate 8 refine crcStep_lt ?_
  exact Nat.xor_lt_two_pow hc byte

/-- The check value of CRC-32C: that of the digits 1 to 9. -/
theorem crc32c_check : crc32c [0x31, 0x32, 0x33, 0x34, 0x35, 0x36, 0x37, 0x38, 0x39] = 0xE3069283 := by decide +kernel

section
variable (seq : Word) {m : List Byte} (h : 16 ≤ m.length)
include h

/-- A sealed message is the message's first 8 bytes, its count, its CRC, and its payload; the CRC is that of the message
with a CRC of zero. -/
theorem sealMsg_eq : ∃ head crc, head.length = 12 ∧ head = m.take 8 ++ toLE 4 seq.toNat
    ∧ crc = crc32c (head ++ [0, 0, 0, 0] ++ m.drop 16) ∧ sealMsg seq m = head ++ toLE 4 crc ++ m.drop 16 := by
  have length : (m.take 8 ++ toLE 4 seq.toNat).length = 12 := by
    simp
    omega
  refine ⟨_, _, length, rfl, rfl, ?_⟩
  have start : (m.take 8 ++ toLE 4 seq.toNat ++ toLE 4 0 ++ m.drop 16).take 12 = m.take 8 ++ toLE 4 seq.toNat := by
    rw [List.append_assoc _ (toLE 4 0), List.take_left' length]
  have rest : (m.take 8 ++ toLE 4 seq.toNat ++ toLE 4 0 ++ m.drop 16).drop 16 = m.drop 16 :=
    List.drop_left' (by rw [List.length_append, length, length_toLE])
  rw [sealMsg, start, rest]
  rfl

theorem sealMsg_length : (sealMsg seq m).length = m.length := by
  obtain ⟨head, crc, length, -, -, eq⟩ := sealMsg_eq seq h
  simp [eq, length]
  omega

theorem sealMsg_crc : leAt (sealMsg seq m) 12 4
    = crc32c ((sealMsg seq m).take 12 ++ [0, 0, 0, 0] ++ (sealMsg seq m).drop 16) := by
  obtain ⟨head, crc, length, -, value, eq⟩ := sealMsg_eq seq h
  have start : (head ++ toLE 4 crc ++ m.drop 16).take 12 = head := by
    rw [List.append_assoc, List.take_left' length]
  have rest : (head ++ toLE 4 crc ++ m.drop 16).drop 16 = m.drop 16 := List.drop_left' (by simp [length])
  have field := leAt_toLE_append head (m.drop 16) 4 crc
  rw [length, Nat.mod_eq_of_lt (value ▸ crc32c_lt _)] at field
  rw [eq, start, rest, field, value]

theorem sealMsg_seq : leAt (sealMsg seq m) 8 4 = seq.toNat := by
  obtain ⟨head, crc, -, split, -, eq⟩ := sealMsg_eq seq h
  have field := leAt_toLE_append (m.take 8) (toLE 4 crc ++ m.drop 16) 4 seq.toNat
  rw [List.length_take_of_le (by omega), Nat.mod_eq_of_lt (show seq.toNat < 256 ^ 4 from seq.isLt)] at field
  rw [eq, split, List.append_assoc, field]

end

end Sys2Proof.Machine
end

section
open Sys2Proof Sys2Proof.Machine

/-- Settles O58: eight steps of the model's CRC take in a byte with the reflected polynomial 0x82F6_3B78. -/
theorem messagesCarryTheirCrc : Obligations.MessagesCarryTheirCrc := by
  refine ⟨fun l => ?_, fun seq m h => ⟨sealMsg_length seq h, sealMsg_crc seq h, sealMsg_seq seq h⟩, crc32c_check⟩
  have reflected : (BitVec.reverse (0x1EDC6F41#32)).toNat = 0x82F63B78 := by decide +kernel
  intro poly shift
  simp only [shift, poly, reflected]
  rfl
end

section
/-! SUPPORT. A part whose signature numbers are used up (R391, R397). -/

namespace Sys2Proof.Machine

/-- Past the last number nothing is signed: erased keys are told first. -/
theorem State.attestErr_exhausted {s : State} (h : 2 ^ 30 ≤ s.sec.signNext.toNat) :
    s.attestErr = some (if s.sec.keysErased = true then eAccessOpen else eIdentityExhausted) := by
  have used : s.sec.reserve.1 ≥ 2 ^ 30 := le_trans h s.sec.signNext_le_reserve
  simp only [State.attestErr, used, if_true]
  split <;> rfl

/-- A request that a check stands against is refused with that check's code. -/
theorem exec_attestRequest_refused {s : State} {p : Fin 16} {t : Nat} {f : Found} {e : Nat}
    (hf : (s.at_ t).found? p 0x11 = some f) (he : (s.at_ t).attestErr = some e) :
    exec (.attestRequest p t) s = .next ((s.at_ t).refuse p f e) := by
  show execAttestRequest p t s = _
  simp [execAttestRequest, hf, he]

/-- A report that waits for its signature is answered with the check that stands against it. -/
theorem exec_attestSign_refused {s : State} {a : Attest} {r : List Attest} {e : Nat} (ha : s.sec.attests = a :: r)
    (he : s.attestErr = some e) (ready : Bool) :
    exec (.attestSign ready) s =
      .next (({ s with sec := { s.sec with attests := r } } : State).answerLate a.pair 0x11 a.minor a.reqSeq.toNat
        e 0 []) := by
  show execAttestSign ready s = _
  simp [execAttestSign, State.signNext, ha, he]

end Sys2Proof.Machine
end

section
open Sys2Proof Sys2Proof.Machine

/-- Settles O57: the number a signature would take is at or past 2³⁰. -/
theorem exhaustedIdentityIsAnswered : Obligations.ExhaustedIdentityIsAnswered := by
  intro s p used
  refine ⟨fun t f found => exec_attestRequest_refused found (State.attestErr_exhausted (s := s.at_ t) used),
    fun ready a r waiting keys => ?_⟩
  have exhausted := State.attestErr_exhausted used
  rw [if_neg (by simp [keys])] at exhausted
  exact exec_attestSign_refused waiting exhausted ready
end

section
/-! SUPPORT. A DISCARD, at once and after the response of an apply under way (R405). -/

namespace Sys2Proof.Machine

variable {s : State}

theorem exec_stageDiscard_linked (h : s.host.linkUp = true) : exec .stageDiscard s = .next s.discardNow := if_pos h

theorem State.discardNow_idle (h : s.cfg.active = none) : s.discardNow = s.discard := by simp [State.discardNow, h]

theorem State.discardNow_active (h : s.cfg.active.isSome = true) :
    s.discardNow = { s with cfg := { s.cfg with discardLater := true } } := if_pos h

theorem State.discard_stagedReg (s : State) (off : Nat) : s.discard.stagedReg off = s.appliedReg off := rfl

/-- Writing 1 to CFG_STAGE_CTL.DISCARD is a discard. -/
theorem exec_registerWrite_discard {v : BitVec 32} (link : s.host.linkUp = true) (one : bit v 0 = true) :
    exec (.registerWrite 0x4010 v) s = exec .stageDiscard s := by
  have write : s.writeReg 0x4010 v = if bit v 0 then s.discardNow else s := rfl
  show (if s.host.linkUp then _ else _) = _
  rw [if_pos link, exec_stageDiscard_linked link]
  exact congrArg _ (write.trans (if_pos one))

/-- The registers' copies change with no late answer. -/
theorem State.answerLate_cfg (s : State) (n type : Nat) (minor : Byte) (reqSeq status detail : Nat) (extra : List Byte) :
    (s.answerLate n type minor reqSeq status detail extra).cfg = s.cfg :=
  State.answerLate_only_host s n type minor reqSeq status detail extra .cfg (by decide)

/-- The response of an apply is written, and then a DISCARD that waited takes effect. -/
theorem State.endApply_discards (a : Apply) (h : s.cfg.discardLater = true) :
    (∀ off, (s.endApply a).stagedReg off = s.appliedReg off)
      ∧ (s.endApply a).host = (s.answerLate 0 0x21 a.minor a.reqSeq.toNat a.status 0 []).host := by
  have cfg := s.answerLate_cfg 0 0x21 a.minor a.reqSeq.toNat a.status 0 []
  unfold State.endApply
  dsimp only
  rw [if_pos (cfg ▸ h)]
  refine ⟨fun off => ?_, rfl⟩
  show State.appliedReg _ off = _
  simp only [State.appliedReg, State.discard, cfg]

end Sys2Proof.Machine
end

section
open Sys2Proof Sys2Proof.Machine

/-- Settles O56: without an apply the staged differences go at once; with one, its end drops them after the response. -/
theorem discardCopiesTheApplied : Obligations.DiscardCopiesTheApplied := by
  intro s v link one
  refine ⟨exec_registerWrite_discard link one, fun idle => ?idle, fun a active => ?active⟩
  case idle =>
    refine ⟨s.discard, ?_, rfl, s.discard_stagedReg⟩
    rw [exec_stageDiscard_linked link, State.discardNow_idle idle]
  case active =>
    let t : State := { s with cfg := { s.cfg with discardLater := true } }
    obtain ⟨staged, host⟩ := State.endApply_discards (s := t) a rfl
    refine ⟨t, ?_, rfl, rfl, rfl, staged, congrArg HostIf.pairs host⟩
    rw [exec_stageDiscard_linked link, State.discardNow_active (by simp [active])]
end

section
/-! SUPPORT. Staging, requesting and adopting configuration (R404, R408, R409). -/

namespace Sys2Proof.Machine

variable {s : State}

/-- Staging a register leaves the staged copy of every other. -/
theorem State.stagedReg_stage_other (s : State) {off k : Nat} (v : Word) (h : off ≠ k) :
    (s.stage off v).stagedReg k = s.stagedReg k := by
  have get : Tbl.get none (s.stage off v).cfg.staged k = Tbl.get none s.cfg.staged k := Tbl.get_set_other _ _ _ _ _ h.symm
  unfold State.stagedReg
  rw [get]
  rfl

/-- What CONFIG_STAGE's pairs stage, in order (R404). -/
def State.stageAll (s : State) (pairs : List (Nat × Word)) : State := pairs.foldl (fun s x => s.stage x.1 x.2) s

/-- Pairs that all name STG registers are all staged. -/
theorem State.stagePairs_all (pairs : List (Nat × Word)) (s : State) (n : Nat)
    (h : ∀ x ∈ pairs, x.1 % 4 = 0 ∧ (stgReg x.1).isSome = true) :
    s.stagePairs n pairs = (n + pairs.length, true, s.stageAll pairs) := by
  induction pairs generalizing s n with
  | nil => rfl
  | cons x r ih =>
    obtain ⟨first, rest⟩ := List.forall_mem_cons.1 h
    simp only [State.stagePairs, first, and_self, if_true, ih _ _ rest, List.length_cons, Nat.add_assoc, Nat.add_comm 1]
    rfl

theorem State.stageAll_applied (pairs : List (Nat × Word)) (s : State) : (s.stageAll pairs).cfg.applied = s.cfg.applied :=
  foldl_keeps (P := fun u : State => u.cfg.applied = s.cfg.applied) _ pairs rfl fun _ _ h => h

/-- A register that no pair names keeps its staged copy. -/
theorem State.stagedReg_stageAll_other (pairs : List (Nat × Word)) (s : State) {off : Nat} (h : ∀ x ∈ pairs, x.1 ≠ off) :
    (s.stageAll pairs).stagedReg off = s.stagedReg off := by
  induction pairs generalizing s with
  | nil => rfl
  | cons x r ih =>
    obtain ⟨first, rest⟩ := List.forall_mem_cons.1 h
    exact (ih (s.stage x.1 x.2) rest).trans (s.stagedReg_stage_other x.2 first)

/-- The pairs of offset and value a CONFIG_STAGE message carries (R309). -/
def Found.pairs (f : Found) : List (Nat × Word) :=
  (List.range ((f.bytes.length - 16) / 8)).map (fun i =>
    (leAt f.bytes (16 + 8 * i) 4, BitVec.ofNat 32 (leAt f.bytes (20 + 8 * i) 4)))

theorem exec_configStage_all {f : Found} (found : s.found? 0 0x20 = some f) (present : s.host.hostState = 0)
    (named : ∀ x ∈ f.pairs, x.1 % 4 = 0 ∧ (stgReg x.1).isSome = true) :
    exec .configStage s = .next ((s.stageAll f.pairs).answerWith 0 f 0 0 f.job (toLE 4 f.pairs.length)) := by
  have staged := State.stagePairs_all f.pairs s 0 named
  rw [Nat.zero_add] at staged
  unfold Found.pairs at staged ⊢
  show execConfigStage s = _
  simp [execConfigStage, State.hostAway, found, present, staged]

/-! ### CONFIG_APPLY -/

/-- A request that is taken leaves its pair's slots: nothing stands found there. -/
theorem State.found_consume_accepted (hs : Canon s) (n : Nat) (f : Found) :
    (((s.onPair n (fun p => p.consumeMsg f)).accepted n f).pair n).found = none := by
  have consumed : Canon (s.onPair n (fun p => p.consumeMsg f)) := State.onPair_canon n _ hs fun h => h
  have taken :
      (((s.onPair n (fun p => p.consumeMsg f)).onPair n (fun p => { p with minor := f.minor })).pair n).found = none := by
    rw [State.pair_onPair _ _ _ consumed.2.2.2.2.2.1.1, State.pair_onPair _ _ _ hs.2.2.2.2.2.1.1]
    rfl
  unfold State.accepted
  split <;> exact taken

/-- The state in which CONFIG_APPLY's request has joined the requests (R409). -/
def State.requestApply (s : State) (f : Found) : State :=
  let u := (s.onPair 0 (fun p => p.consumeMsg f)).accepted 0 f
  { u with cfg := { u.cfg with
      queue := u.cfg.queue ++ [(BitVec.ofNat 64 (leAt f.bytes 16 8), BitVec.ofNat 32 f.seq, f.minor)] } }

theorem exec_configApply_requested {f : Found} (found : s.found? 0 0x21 = some f) (present : s.host.hostState = 0) :
    exec .configApply s = .next (s.requestApply f).serve := by
  show execConfigApply s = _
  simp [execConfigApply, State.requestApply, State.hostAway, found, present]

/-- The request stands last among the requests, and applies nothing yet. -/
theorem State.requestApply_queue (hs : Canon s) (f : Found) :
    (s.requestApply f).cfg.queue =
        s.cfg.queue ++ [(BitVec.ofNat 64 (leAt f.bytes 16 8), BitVec.ofNat 32 f.seq, f.minor)]
      ∧ ((s.requestApply f).pair 0).found = none ∧ (s.requestApply f).cfg.applied = s.cfg.applied :=
  ⟨rfl, State.found_consume_accepted hs 0 f, rfl⟩

/-- With MC0 down no apply is served (log 113). -/
theorem State.serve_down (h : s.mc0Up = false) : s.serve = s := by
  simp [State.serve, State.serveApplies, h]

/-! ### Adoption, starts and updates -/

theorem State.adoptAll_idle (h : s.cfg.active = none) : s.adoptAll = s := by simp [State.adoptAll, h]

/-- A requested start begins, the margins saved first where the part runs (R363, R327). -/
theorem exec_cfgStart_begins (asked : s.cfg.startReq ≠ 0) (up : s.mc0Up = true) (power : s.pins.pwrGood = true) (b : Boot)
    (t : Nat) :
    let u := if s.mgmt.stage = 6 then (s.at_ t).saveTemper else s.at_ t
    exec (.cfgStart b t) s =
      .next (if s.cfg.startReq = 3 then u.beginBanked b else u.beginStart s.cfg.startReq.toNat b) := by
  intro u
  have kind : s.cfg.startReq.toNat = 3 ↔ s.cfg.startReq = 3 := by bv_omega
  have refused : ¬((s.at_ t).cfg.startReq = 0 ∨ (!(s.at_ t).mc0Up) = true ∨ (!(s.at_ t).pins.pwrGood) = true) := by
    rintro (h | h | h)
    · exact asked h
    · exact absurd (up.symm.trans (Bool.not_eq_true' _ ▸ h)) (by decide)
    · exact absurd (power.symm.trans (Bool.not_eq_true' _ ▸ h)) (by decide)
  show execCfgStart b t s = _
  unfold execCfgStart
  dsimp only
  rw [if_neg refused]
  exact congrArg _ (if_congr kind rfl rfl)

/-- An update that is asked for begins with its image fetched (R378). -/
theorem exec_fwUpdateGo_begins (asked : s.cfg.goReq = true) (up : s.mc0Up = true) (idle : s.mgmt.update.busy = false) :
    ∃ t, exec .fwUpdateGo s = .next t ∧ t.cfg.goReq = false ∧ t.mgmt.update.state = 1
      ∧ t.mgmt.update.bundle = bit (s.appliedReg 0x3020) 1 := by
  have noWait : (!s.cfg.goReq || !s.mc0Up || s.mgmt.update.busy) = false := by simp [asked, up, idle]
  refine ⟨_, (if_neg (by simp [noWait])), ?_, rfl, rfl⟩
  exact congrArg Config.goReq
    (State.fetchBytes_within (W := [.mem, .flash]) _ _ _ .rfl (by decide) (by decide) .cfg (by decide))

/-- The state once an update has succeeded: the other slot is selected for the next start (R378). -/
def State.updated (s : State) : State :=
  { s with
    flash := { s.flash with
      bootB := !s.mgmt.imageB
      version := Tbl.set 0 s.flash.version (b2n !s.mgmt.imageB) s.mgmt.update.version
      digest := Tbl.set [] s.flash.digest (b2n !s.mgmt.imageB) s.mgmt.update.digest }
    mgmt := { s.mgmt with update := { s.mgmt.update with state := 6 } } }

section
variable (busy : s.mgmt.update.busy = true) (up : s.mc0Up = true) (b : Boot) (t : Nat)
include busy up

/-- An update that fails says why, and changes nothing else. -/
theorem exec_fwUpdateDone_failed {r : FwResult} (h : r ≠ .ok) : exec (.fwUpdateDone r b t) s = .next { s.at_ t with
    mgmt := { s.mgmt with update := { s.mgmt.update with state := 7, err := BitVec.ofNat 8 (fwErr r) } } } := by
  have upThen : (s.at_ t).mc0Up = true := up
  show execFwUpdateDone r b t s = _
  unfold execFwUpdateDone
  dsimp only
  rw [if_neg (by simp [busy, upThen]), if_pos h]
  rfl

/-- An update that succeeds outside recovery selects the other slot, and the part runs on. -/
theorem exec_fwUpdateDone_updated (normal : s.mgmt.recovery = false) :
    exec (.fwUpdateDone .ok b t) s = .next (s.at_ t).updated := by
  have upThen : (s.at_ t).mc0Up = true := up
  show execFwUpdateDone .ok b t s = _
  unfold execFwUpdateDone
  dsimp only
  rw [if_neg (by simp [busy, upThen]), if_neg (by simp)]
  exact congrArg _ (if_neg (by simp [normal]))

end

end Sys2Proof.Machine
end

section
open Sys2Proof Sys2Proof.Machine

/-- Settles O46: each command's outcome is its lemma above. -/
theorem configurationIsStagedAndServed : Obligations.ConfigurationIsStagedAndServed := by
  intro s hs
  refine ⟨?stage, ?waits, ?served, ⟨rfl, ?idle⟩, ?discard, ?start, exec_fwUpdateGo_begins, ?done⟩
  case stage =>
    intro f found present pairs named
    exact ⟨s.stageAll pairs, exec_configStage_all found present named, rfl, State.stageAll_applied pairs s,
      fun off others => State.stagedReg_stageAll_other pairs s others⟩
  case waits =>
    intro f found present _ down
    refine ⟨s.requestApply f, ?_, State.requestApply_queue hs f⟩
    rw [exec_configApply_requested found present, State.serve_down]
    exact down
  case served =>
    intro f found present
    obtain ⟨queue, taken, -⟩ := State.requestApply_queue hs f
    exact ⟨s.requestApply f, exec_configApply_requested found present, queue, taken⟩
  case idle =>
    intro idle
    exact congrArg (fun u : State => (.next u.serve : Res)) (State.adoptAll_idle idle)
  case discard =>
    intro link
    rw [exec_stageDiscard_linked link]
    exact ⟨fun idle => congrArg _ (State.discardNow_idle idle), fun active => congrArg _ (State.discardNow_active active)⟩
  case start =>
    intro asked up power b t
    exact exec_cfgStart_begins asked up power b t
  case done =>
    intro busy up b t
    have slot : b2n (!s.mgmt.imageB) = if s.mgmt.imageB then 0 else 1 := by cases s.mgmt.imageB <;> rfl
    exact ⟨fun r h => exec_fwUpdateDone_failed busy up b t h, fun normal =>
      ⟨_, exec_fwUpdateDone_updated busy up b t normal, rfl, rfl,
        congrArg (Tbl.set 0 s.flash.version · s.mgmt.update.version) slot⟩⟩
end

section
/-! SUPPORT. Scheduling queues and job contexts (R310–R314, R317). -/

namespace Sys2Proof.Machine

/-- The table of jobs is in its canonical form. -/
theorem Canon.jobs_wf {s : State} (h : Canon s) : Tbl.wf {} s.jobs.jobs = true := by
  obtain ⟨-, -, -, -, -, -, ⟨wf, -⟩, -⟩ := h
  exact wf

/-- The table of collective groups is in its canonical form. -/
theorem Canon.colls_wf {s : State} (h : Canon s) : Tbl.wf {} s.fab.colls = true := by
  obtain ⟨-, -, -, -, ⟨-, wf⟩, -⟩ := h
  exact wf

section
variable {s : State} {p : Fin 16} {f : Found}

/-- The queue a QUEUE_CREATE asks for (R314). -/
def Found.newQueue (f : Found) (p : Fin 16) : SQueue :=
  { live := true
    pair := p
    prio := leAt f.bytes 16 1
    preempt := leAt f.bytes 17 1 % 2 == 1
    mask := BitVec.ofNat 64 (leAt f.bytes 24 8) }

theorem exec_queueCreate_free {num : Fin 64} (found : s.found? p 0x30 = some f) (gate : s.gateErr (p == 0) true = none)
    (free : (s.squeue num).live = false) :
    exec (.queueCreate p num) s =
      .next ((s.onSQueue num (fun _ => f.newQueue p)).accept p f [BitVec.ofNat 8 num.val]) := by
  have room : ¬((List.range 64).all (fun n => (s.squeue n).live)) = true := fun all =>
    absurd (free.symm.trans (List.all_eq_true.1 all num (List.mem_range.2 num.isLt))) (by decide)
  show execQueueCreate p num s = _
  simp only [execQueueCreate, found, gate, if_neg room, free]
  rfl

/-- A queue that no job waits in or runs from is freed. -/
theorem exec_queueDestroy_idle (found : s.found? p 0x31 = some f) (gate : s.gateErr (p == 0) false = none)
    (own : s.queueErr p (leAt f.bytes 16 1) = none) (empty : (s.squeue (leAt f.bytes 16 1)).jobs = [])
    (idle : ∀ x ∈ s.jobs.jobs, x.2.st = .idle ∨ x.2.queue ≠ leAt f.bytes 16 1) :
    exec (.queueDestroy p) s = .next ((s.onSQueue (leAt f.bytes 16 1) (fun _ => {})).accept p f []) := by
  have none : s.jobs.jobs.any (fun (_, x) => x.st != .idle && x.queue == leAt f.bytes 16 1) = false := by
    simp only [List.any_eq_false, Bool.and_eq_true, bne_iff_ne, beq_iff_eq, not_and]
    exact fun x mem busy => (idle x mem).resolve_left busy
  show execQueueDestroy p s = _
  simp [execQueueDestroy, found, gate, own, empty, none]

/-! ### Loading a context -/

section
variable {idx : Fin 4096} {place : List (Fin 64 × Nat)} {b : List Byte} {u : State} {im : Image} {ts : List TaskRec}

/-- An image that passes its checks is placed once its cores and the sections it writes are On. -/
theorem exec_contextLoad_places (found : s.found? p 0x40 = some f) (gate : s.gateErr true true = none)
    (fetched : s.fetchBytes (leAt f.bytes 16 1 == 1) (leAt f.bytes 24 8) (leAt f.bytes 32 4) = (b, none, u))
    (read : readImage b = .ok im) (checked : u.checkImage im place = .ok ts) (free : (u.job idx).loaded = false)
    (cores : ∀ lc ∈ maskCores im.mask, (u.dom (u.core lc).phys.toNat).st = .on) (awake : ∀ x ∈ u.sleepers im ts, x.2 = []) :
    exec (.contextLoad p idx place) s = .next ((u.loadContext p idx im ts).answerWith p f 0 0 idx (toLE 4 0)) := by
  have on : (maskCores im.mask).all (fun lc => (u.dom (u.core lc).phys.toNat).st == .on) = true := by
    simpa only [List.all_eq_true, beq_iff_eq] using cores
  have none : (u.sleepers im ts).any (fun x => x.2 ≠ []) = false := by
    simpa only [List.any_eq_false, decide_eq_true_eq, not_not] using awake
  show execContextLoad p idx place s = _
  simp only [execContextLoad, found, gate, fetched, read, checked, free, on, none, Bool.not_true]
  rfl

/-- A context as its image gives it (R313). -/
def Image.context (im : Image) (p : Fin 16) (ts : List TaskRec) : Job :=
  { loaded := true
    pair := p
    tag := im.tag
    mask := im.mask
    duncen := im.duncen
    waitUs := im.waitUs
    dump := im.dump
    dumpValid := im.dumpValid
    tasks := ts }

/-- Setting up groups and peers leaves the table of jobs. -/
theorem State.loadContext_job (hu : Canon u) (idx : Nat) : (u.loadContext p idx im ts).job idx = im.context p ts := by
  have loads : Canon (im.loads.foldl (fun s l => s.runLoad ts l) u) :=
    canon_foldl _ _ hu fun _ _ h => State.runLoad_canon _ _ h
  have placed := State.job_onJob_same idx (fun _ => im.context p ts) loads
  have rest : Within [.cores, .mem, .ports, .fab] _ (u.loadContext p idx im ts) :=
    within_foldl _ im.peers (within_foldl _ im.colls .rfl fun _ _ h => State.onColl_within _ _ h (by decide))
      fun _ _ h => State.preSetup_within _ _ h (by decide) (by decide) (by decide) (by decide)
  exact (congrArg (fun j : Jobs => (Tbl.get {} j.jobs idx : Job)) (rest .jobs (by decide))).trans placed

end

/-! ### Unloading a context -/

/-- A collective group once a job is unloaded: one of the job's is free. -/
def Coll.without (j : Nat) (c : Coll) : Coll := if c.used ∧ c.job = j then {} else c

/-- The state with a job's flows closed, its groups freed and its context free (R317). -/
def State.unload (s : State) (j : Nat) : State :=
  let u := s.closeFlows j
  let v : State :=
    { u with fab := { u.fab with colls := Tbl.mapv {} (Coll.without j) u.fab.colls } }
  v.onJob j (fun _ => {})

theorem exec_contextUnload_idle (found : s.found? p 0x41 = some f) (gate : s.gateErr (p == 0) false = none)
    (own : s.jobErr p f = none) (idle : (s.job f.job).st = .idle) :
    exec (.contextUnload p) s = .next ((s.unload f.job).accept p f []) := by
  show execContextUnload p s = _
  simp only [execContextUnload, found, gate, own, idle]
  rfl

theorem State.unload_job (hs : Canon s) (j : Nat) : (s.unload j).job j = {} :=
  State.job_onJob _ j _ (State.closeFlows_canon j hs).jobs_wf

theorem Coll.job_without {j : Nat} {c : Coll} (used : (c.without j).used = true) : (c.without j).job ≠ j := by
  unfold Coll.without at used ⊢
  split at used
  next => cases used
  next other =>
    rw [if_neg other]
    exact fun same => other ⟨used, same⟩

/-- No group in use is the unloaded job's. -/
theorem State.unload_coll (hs : Canon s) (j : Nat) (n : BitVec 20) (used : ((s.unload j).coll n).used = true) :
    ((s.unload j).coll n).job ≠ j := by
  have read : (s.unload j).coll n = ((s.closeFlows j).coll n).without j :=
    Tbl.get_mapv_of_fixed (f := Coll.without j) (if_neg (by simp)) (State.closeFlows_canon j hs).colls_wf n.toNat
  rw [read] at used ⊢
  exact Coll.job_without used

end

end Sys2Proof.Machine
end

section
open Sys2Proof Sys2Proof.Machine

/-- Settles O48: each command's outcome is its lemma above, and a canonical table reads as what was written. -/
theorem queuesAndContexts : Obligations.QueuesAndContexts := by
  intro s p f hs
  refine ⟨fun num found gate free => ?create, ?destroy, ?load, fun found gate own idle => ?unload⟩
  case create =>
    exact ⟨_, exec_queueCreate_free found gate free, State.squeue_onSQueue_same _ _ hs,
      fun k other => State.squeue_onSQueue_other s _ _ _ other⟩
  case destroy =>
    intro n found gate own empty idle
    exact ⟨_, exec_queueDestroy_idle found gate own empty idle, State.squeue_onSQueue_same _ _ hs,
      fun k other => State.squeue_onSQueue_other s _ _ _ other⟩
  case load =>
    intro idx place b u im ts found gate fetched read checked free cores awake
    have hu : Canon u := by
      have kept := State.fetchBytes_canon (leAt f.bytes 16 1 == 1) (leAt f.bytes 24 8) (leAt f.bytes 32 4) hs
      rwa [fetched] at kept
    refine ⟨_, exec_contextLoad_places found gate fetched read checked free cores awake, ?_⟩
    rw [State.loadContext_job hu]
    exact ⟨rfl, rfl, rfl, rfl, rfl⟩
  case unload =>
    exact ⟨_, exec_contextUnload_idle found gate own idle, State.unload_job hs _, State.unload_coll hs _⟩
end

section
/-! SUPPORT. Failures of the supplies: phases, shorts, cracks, tiles, stack rails and the always-on rail (R331–R334). -/

namespace Sys2Proof.Machine

variable {s : State}

theorem State.dom_fieldFail (s : State) (f : FieldFail) (unit idx reason d : Nat) :
    (s.fieldFail f unit idx reason).dom d = s.dom d :=
  congrArg (fun p : Power => (Tbl.get {} p.domains d : Domain))
    (State.fieldFail_within (W := [.flash]) f unit idx reason .rfl (by decide) .pwr (by decide))

/-! ### Phases and shorts -/

/-- A domain has one phase fewer, and the phase joins the field-failure list (R331). -/
def State.phaseLost (s : State) (d : Nat) : State :=
  (s.onDom d (fun x => { x with phases := x.phases - 1 })).fieldFail (.phase d (16 - (s.dom d).phases.toNat)) 4 d 0

theorem exec_phaseFailure_live {d : Fin 72} (t : Nat) (live : (s.dom d).st = .on ∨ (s.dom d).st = .retention)
    (left : (s.dom d).phases ≠ 0) : exec (.phaseFailure d t) s =
      .next (if (s.dom d).phases.toNat ≤ 14 then ((s.at_ t).phaseLost d).darken d else (s.at_ t).phaseLost d) := by
  have count : (s.dom d).phases.toNat ≠ 0 := fun zero => left (BitVec.eq_of_toNat_eq zero)
  have runs : ¬((((s.at_ t).dom d).st ≠ .on ∧ ((s.at_ t).dom d).st ≠ .retention) ∨ ((s.at_ t).dom d).phases.toNat = 0) := by
    rintro (⟨off, gone⟩ | zero)
    · exact live.elim off gone
    · exact count zero
  show execPhaseFailure d t s = _
  unfold execPhaseFailure
  refine (if_neg runs).trans (congrArg _ (if_congr ?_ rfl rfl))
  show (s.dom d).phases.toNat - 1 < 14 ↔ _
  omega

theorem State.phaseLost_dom (hs : Canon s) (d : Nat) : ((s.phaseLost d).dom d).phases = (s.dom d).phases - 1 := by
  rw [State.phaseLost, State.dom_fieldFail, State.dom_onDom_same _ _ hs]

theorem State.phaseLost_cores (s : State) (d : Nat) : (s.phaseLost d).cores = s.cores :=
  State.fieldFail_within (W := [.flash]) _ _ _ _ .rfl (by decide) .cores (by decide)

/-- A domain is shorted (R332). -/
def State.shorted (s : State) (d : Nat) : State := s.onDom d (fun x => { x with short := true })

/-- A shorted domain outside the cores is dark, its output gone. -/
def State.shortedDark (s : State) (d : Nat) : State := (s.shorted d).onDom d (fun x => { x.setV 0 with st := .dark })

theorem State.shorted_dom (hs : Canon s) (d : Nat) : (s.shorted d).dom d = { s.dom d with short := true } :=
  State.dom_onDom_same d _ hs

theorem State.shortedDark_dom (hs : Canon s) (d : Nat) : ((s.shortedDark d).dom d).short = true
    ∧ ((s.shortedDark d).dom d).st = .dark ∧ ((s.shortedDark d).dom d).vMv = 0 := by
  have kept : Canon (s.shorted d) := State.onDom_canon _ _ hs
  have read : (s.shortedDark d).dom d = _ := State.dom_onDom_same d _ kept
  rw [read, State.shorted_dom hs]
  exact ⟨rfl, rfl, rfl⟩

/-- A short of a core's domain darkens it. -/
theorem exec_domainShort_core {d : Fin 89} (t : Nat) (live : (s.dom d).st ≠ .off) (lit : (s.dom d).st ≠ .dark)
    (core : d.val < 72) :
    exec (.domainShort d t) s = .next (((s.at_ t).shorted d).darken d) := by
  have runs : ¬(((s.at_ t).dom d).st = .off ∨ ((s.at_ t).dom d).st = .dark) := not_or.2 ⟨live, lit⟩
  show execDomainShort d t s = _
  unfold execDomainShort
  exact (if_neg runs).trans (if_pos core)

/-- A short outside the cores stops the part. -/
theorem exec_domainShort_part {d : Fin 89} (t : Nat) (live : (s.dom d).st ≠ .off) (lit : (s.dom d).st ≠ .dark)
    (other : ¬d.val < 72) : exec (.domainShort d t) s = .next (((s.at_ t).shortedDark d).deviceFault 5) := by
  have runs : ¬(((s.at_ t).dom d).st = .off ∨ ((s.at_ t).dom d).st = .dark) := not_or.2 ⟨live, lit⟩
  show execDomainShort d t s = _
  unfold execDomainShort
  exact (if_neg runs).trans (if_neg other)

/-! ### Solder joints -/

/-- A domain On has its output's current noted (R333). -/
def Domain.noteAmps (x : Domain) (amps : Nat) : Domain := { x with amps := BitVec.ofNat 8 (min 255 amps) }

theorem Domain.noteAmps_amps (x : Domain) (amps : Nat) : (x.noteAmps amps).amps.toNat = min 255 amps :=
  Nat.mod_eq_of_lt (by omega)

section
variable {d : Fin 89} (hs : Canon s) (on : (s.dom d).st = .on) (res : BitVec 16) (amps : Nat)
include hs on

theorem exec_crackCheck_low (low : amps ≤ 20) :
    ∃ u, exec (.crackCheck d res amps) s = .next u ∧ u.cores = s.cores ∧ u.dom d = (s.dom d).noteAmps amps := by
  show ∃ u, execCrackCheck d res amps s = _ ∧ _
  unfold execCrackCheck
  rw [if_neg (not_not.2 on), if_pos low]
  exact ⟨_, rfl, rfl, State.dom_onDom_same d _ hs⟩

/-- The first reading above 20 A is the joint's base. -/
theorem exec_crackCheck_base (high : 20 < amps) (first : (s.dom d).rBase = 0) :
    ∃ u, exec (.crackCheck d res amps) s = .next u ∧ u.cores = s.cores
      ∧ u.dom d = { (s.dom d).noteAmps amps with rBase := res, rNow := res } := by
  have noted := State.dom_onDom_same d (Domain.noteAmps · amps) hs
  have based := State.dom_onDom_same d (fun x => { x with rBase := res, rNow := res })
    (State.onDom_canon d (Domain.noteAmps · amps) hs)
  rw [noted] at based
  show ∃ u, execCrackCheck d res amps s = _ ∧ _
  unfold execCrackCheck
  rw [if_neg (not_not.2 on), if_neg (Nat.not_le.2 high), if_pos first]
  exact ⟨_, rfl, rfl, based⟩

/-- A later one is held against it; what is logged changes no domain. -/
theorem exec_crackCheck_later (high : 20 < amps) (later : (s.dom d).rBase ≠ 0) :
    ∃ u, exec (.crackCheck d res amps) s = .next u ∧ u.cores = s.cores
      ∧ u.dom d = { (s.dom d).noteAmps amps with
          rNow := res, crack := (s.dom d).crack || decide (13 * (s.dom d).rBase.toNat ≤ 10 * res.toNat) } := by
  let f (x : Domain) : Domain :=
    { x with rNow := res, crack := x.crack || decide (13 * (s.dom d).rBase.toNat ≤ 10 * res.toNat) }
  let v := (s.onDom d (Domain.noteAmps · amps)).onDom d f
  have noted := State.dom_onDom_same d (Domain.noteAmps · amps) hs
  have held : v.dom d = f ((s.onDom d (Domain.noteAmps · amps)).dom d) :=
    State.dom_onDom_same d f (State.onDom_canon d (Domain.noteAmps · amps) hs)
  rw [noted] at held
  show ∃ u, execCrackCheck d res amps s = _ ∧ _
  unfold execCrackCheck
  rw [if_neg (not_not.2 on), if_neg (Nat.not_le.2 high), if_neg later]
  refine ⟨_, rfl, ?_⟩
  have keeps (u : State) (logged : Within [.flash] v u) : u.cores = s.cores ∧ u.dom d = _ :=
    ⟨logged .cores (by decide),
      (congrArg (fun p : Power => (Tbl.get {} p.domains d : Domain)) (logged .pwr (by decide))).trans held⟩
  exact keeps _ (within_ite (State.logErr_within _ _ _ _ _ .rfl (by decide)) .rfl)

end

/-! ### Tiles and the always-on rail -/

theorem bit_setBit_other {n i k : Nat} (w : BitVec n) (h : k ≠ i) : bit (setBit w i) k = bit w k := by
  rw [bit, setBit, BitVec.getLsbD_or, BitVec.getLsbD_ofNat, Nat.testBit_two_pow_of_ne h.symm, Bool.and_false, Bool.or_false]
  rfl

/-- Of domains that are changed one after the other, each is changed once. -/
theorem State.dom_foldl_onDom (f : Domain → Domain) {l : List Nat} (hs : Canon s) (once : l.Nodup) (d : Nat) :
    (l.foldl (fun s d => s.onDom d f) s).dom d = if d ∈ l then f (s.dom d) else s.dom d := by
  induction l generalizing s with
  | nil => rfl
  | cons i l ih =>
    obtain ⟨fresh, rest⟩ := List.nodup_cons.1 once
    rw [List.foldl_cons, ih (State.onDom_canon i f hs) rest]
    by_cases here : d = i
    · subst here
      simp [fresh, State.dom_onDom_same _ _ hs]
    · simp [here]

/-- With the power gone every domain but the always-on rail's is Off, and that rail stands as it did (R334). -/
theorem State.powerOff_pwr (hs : Canon s) :
    s.powerOff.pwr.alwaysOn = s.pwr.alwaysOn ∧ ∀ d < 88, (s.powerOff.dom d).st = .off := by
  unfold State.powerOff
  extract_lets u off v
  have link : u.pwr = s.pwr := s.hostReset_only .pwr (by decide)
  have rail : v.pwr.alwaysOn = u.pwr.alwaysOn :=
    foldl_keeps (P := fun t : State => t.pwr.alwaysOn = u.pwr.alwaysOn) _ (List.range 88) (.refl _) fun _ _ h => h
  have dom (d : Nat) : v.dom d = if d ∈ List.range 88 then off (u.dom d) else u.dom d :=
    State.dom_foldl_onDom off (State.hostReset_canon hs) List.nodup_range d
  clear_value v
  refine ⟨rail.trans (congrArg _ link), fun d h => ?_⟩
  show (v.dom d).st = .off
  rw [dom, if_pos (List.mem_range.2 h)]

theorem State.powerOff_rest (s : State) :
    s.powerOff.cores = [] ∧ s.powerOff.jobs = {} ∧ s.powerOff.pins.pwrGood = false := by
  unfold State.powerOff
  extract_lets u off v
  clear_value v
  exact ⟨rfl, rfl, rfl⟩

/-- With the always-on rail everything is Off, the management cores too (R334). -/
theorem State.allOff_off (hs : Canon s) : s.allOff.pwr.alwaysOn = s.pwr.alwaysOn ∧ s.allOff.mgmt.up = 0
    ∧ s.allOff.pins.pwrGood = false ∧ s.allOff.cores = [] ∧ s.allOff.jobs = {} ∧ ∀ d < 88, (s.allOff.dom d).st = .off := by
  obtain ⟨rail, off⟩ := State.powerOff_pwr hs
  obtain ⟨cores, jobs, power⟩ := s.powerOff_rest
  unfold State.allOff
  generalize s.powerOff = u at *
  exact ⟨rail, rfl, power, cores, jobs, off⟩

theorem exec_alwaysOnFail_on (h : s.pwr.alwaysOn = true) :
    exec .alwaysOnFail s = .next ({ s with pwr := { s.pwr with alwaysOn := false } } : State).allOff := if_pos h

end Sys2Proof.Machine
end

section
open Sys2Proof Sys2Proof.Machine

/-- Settles O51: each command's outcome is its lemma above, and a canonical table reads as what was written. -/
theorem powerFailuresDarken : Obligations.PowerFailuresDarken := by
  intro s hs
  refine ⟨fun d t live left => ?phase, fun d t live lit => ?short, fun d res amps on => ?crack, fun tile => ?tile,
    fun st => ?rail, fun on => ?always⟩
  case phase =>
    exact ⟨_, exec_phaseFailure_live t live left, State.phaseLost_dom (State.at_canon t hs) d, State.mem_fieldFail _ _ _ _ _,
      (s.at_ t).phaseLost_cores d⟩
  case short =>
    have timed := State.at_canon t hs
    by_cases core : d.val < 72
    · refine ⟨(s.at_ t).shorted d, ?_, rfl, rfl, ?_, fun other => absurd core (Nat.not_lt.2 other)⟩
      · rw [State.shorted_dom timed]
      · rw [exec_domainShort_core t live lit core, if_pos core]
    · obtain ⟨short, dark, out⟩ := State.shortedDark_dom timed d
      refine ⟨(s.at_ t).shortedDark d, short, rfl, rfl, ?_, fun _ => ⟨dark, out⟩⟩
      rw [exec_domainShort_part t live lit core, if_neg core]
  case crack =>
    rcases Nat.lt_or_ge 20 amps with high | low
    · have notLow : ¬amps ≤ 20 := Nat.not_le.2 high
      by_cases first : (s.dom d).rBase = 0
      · obtain ⟨u, run, cores, dom⟩ := exec_crackCheck_base hs on res amps high first
        refine ⟨u, run, ?_⟩
        rw [dom]
        exact ⟨(s.dom d).noteAmps_amps amps, cores, fun low => absurd low notLow, fun _ _ => ⟨rfl, rfl⟩,
          fun _ later => absurd first later⟩
      · obtain ⟨u, run, cores, dom⟩ := exec_crackCheck_later hs on res amps high first
        refine ⟨u, run, ?_⟩
        rw [dom]
        exact ⟨(s.dom d).noteAmps_amps amps, cores, fun low => absurd low notLow, fun _ zero => absurd zero first,
          fun _ _ => ⟨rfl, rfl, by simp⟩⟩
    · have notHigh : ¬20 < amps := Nat.not_lt.2 low
      obtain ⟨u, run, cores, dom⟩ := exec_crackCheck_low hs on res amps low
      refine ⟨u, run, ?_⟩
      rw [dom]
      exact ⟨(s.dom d).noteAmps_amps amps, cores, fun _ => ⟨rfl, rfl⟩, fun high => absurd high notHigh,
        fun high => absurd high notHigh⟩
  case tile =>
    exact ⟨_, rfl, bit_setBit_same _ tile.isLt, fun k _ other => bit_setBit_other _ other, rfl, rfl, rfl⟩
  case rail =>
    let v : State := s.onStk st (fun k => { k with railFailed := true })
    have flash : Within [.flash] v (v.fieldFail (.stack st) 2 st 0) := State.fieldFail_within _ _ _ _ .rfl (by decide)
    have mem : (v.fieldFail (.stack st) 2 st 0).mem = v.mem := flash .mem (by decide)
    have failed : ((v.fieldFail (.stack st) 2 st 0).stk st).railFailed = true := by
      rw [State.stk, mem]
      exact congrArg Stack.railFailed (State.stk_onStk_same st _ hs)
    exact ⟨_, rfl, failed, State.mem_fieldFail _ _ _ _ _, flash .cores (by decide),
      (congrArg Mem.dram mem).trans rfl⟩
  case always =>
    exact ⟨_, exec_alwaysOnFail_on on, State.allOff_off (canon_pwr _ hs fun _ k => k)⟩
end

section
/-! SUPPORT. The service interfaces: JTAG and SMBus (R394, R395, R428). -/

namespace Sys2Proof.Machine

variable {s : State}

/-! ### JTAG -/

/-- The 32-bit identification: bit 0, the manufacturer, the part and the version (log 136). -/
def State.idcode (s : State) : Nat :=
  1 + 2 * Config.jep106.toNat + 2 ^ 12 * s.mgmt.partCode.toNat + 2 ^ 28 * Config.idcodeVersion.toNat

theorem exec_jtagIdcode (s : State) : exec .jtagIdcode s = .next (s.shiftOut 2 (bitsLsb 32 s.idcode)) := rfl

theorem State.idcode_odd (s : State) : s.idcode % 2 = 1 := by
  unfold State.idcode
  omega

theorem State.idcode_part (s : State) : s.idcode / 2 ^ 12 % 2 ^ 16 = s.mgmt.partCode.toNat := by
  have maker := Config.jep106.isLt
  have part := s.mgmt.partCode.isLt
  unfold State.idcode
  omega

/-- Pins and boundary cells answer above the locked level. -/
theorem exec_jtagSamplePreload_open (h : s.sec.level ≠ 0) (pre : List Bool) : ∃ u, exec (.jtagSamplePreload pre) s = .next u
    ∧ u.sec.preload = pre ∧ u.sec.tdo = s.sec.tdo ++ [s.pins.perstN, s.pins.pwrGood, s.pins.coolantOk] ∧ u.pins = s.pins :=
  ⟨_, if_neg h, rfl, rfl, rfl⟩

theorem exec_jtagExtest_open (h : s.sec.level ≠ 0) : ∃ u, exec .jtagExtest s = .next u ∧ u.sec.pins = s.sec.preload :=
  ⟨_, if_neg h, rfl⟩

/-- A fresh nonce leaves the shift register and the level. -/
theorem State.newNonce_keeps (s : State) : s.newNonce.sec.tdo = s.sec.tdo ∧ s.newNonce.sec.level = s.sec.level :=
  foldl_keeps (P := fun u : State => u.sec.tdo = s.sec.tdo ∧ u.sec.level = s.sec.level) _ (List.range 8) ⟨rfl, rfl⟩
    fun _ _ h => h

theorem State.shiftOut_nonceBytes (s : State) (instr : Nat) (l : List Bool) :
    (s.shiftOut instr l).sec.nonceBytes = s.sec.nonceBytes := rfl

/-- The challenge shifts out, current from now on. -/
theorem exec_jtagUnlock_challenge (s : State) (t : Nat) : ∃ u, exec (.jtagUnlock none t) s = .next u
    ∧ u.sec.tdo = s.sec.tdo ++ bitsLsb 256 (leNat u.sec.nonceBytes) ∧ u.sec.nonceAt = some (max s.clk.now t)
    ∧ u.sec.level = s.sec.level := by
  obtain ⟨tdo, level⟩ := (s.at_ t).newNonce_keeps
  have stamped := (s.at_ t).newNonce_nonceAt
  have run : exec (.jtagUnlock none t) s =
      .next ((s.at_ t).newNonce.shiftOut 5 (bitsLsb 256 (leNat (s.at_ t).newNonce.sec.nonceBytes))) := by
    show execJtagUnlock none t s = _
    simp only [execJtagUnlock]
  generalize (s.at_ t).newNonce = v at *
  refine ⟨_, run, ?_, stamped, level⟩
  rw [State.shiftOut_nonceBytes]
  exact congrArg (· ++ bitsLsb 256 (leNat v.sec.nonceBytes)) tdo

/-- An attempt uses the nonce up, and opens a level with the owner's signature alone. -/
theorem State.trySignature_sec (s : State) (level : Nat) (resp : List Byte) :
    (s.trySignature level resp).2.sec.nonceAt = none
    ∧ ((s.trySignature level resp).2.sec.level ≠ s.sec.level → s.ownerAnswers level resp = true) := by
  simp only [State.trySignature]
  cases answers : s.ownerAnswers level resp with
  | true => exact ⟨rfl, fun _ => rfl⟩
  | false => exact ⟨rfl, fun changed => absurd rfl changed⟩

theorem exec_jtagUnlock_response (up : s.mc0Up = true) (resp : List Byte) (t : Nat) :
    exec (.jtagUnlock (some resp) t) s = .next (((s.at_ t).shiftOut 5 []).trySignature (leAt resp 0 1) resp).2 := by
  have upThen : ((s.at_ t).shiftOut 5 []).mc0Up = true := up
  exact if_pos upThen

/-! ### SMBus -/

section
variable (alive : s.smbAlive = true)
include alive

/-- An offset without PEC selects what it names. -/
theorem exec_smbusOffsetWrite_selects {bytes : List Byte} (len : bytes.length = 4)
    (served : smbServed (leAt bytes 0 4) = true) :
    exec (.smbusOffsetWrite bytes) s = .next { s with pins := { s.pins with
      smbSel := some (BitVec.ofNat 32 (leAt bytes 0 4)), smbPec := false, smbNak := false, smbOut := [] } } := by
  show execSmbusOffsetWrite bytes s = _
  simp [execSmbusOffsetWrite, alive, len, served]

/-- An offset that is not listed is answered with NACK. -/
theorem exec_smbusOffsetWrite_refused {bytes : List Byte} (other : smbServed (leAt bytes 0 4) = false) :
    exec (.smbusOffsetWrite bytes) s = .next { s with pins := { s.pins with smbNak := true, smbOut := [] } } := by
  show execSmbusOffsetWrite bytes s = _
  simp [execSmbusOffsetWrite, alive, other]

/-- A read gives the mirror's word at the selected offset, and its PEC where the offset came with one. -/
theorem exec_smbusRead_selected {off : Word} (sel : s.pins.smbSel = some off) :
    let b := toLE 4 (Tbl.get 0 s.pins.smbMirror off.toNat : Word).toNat
    exec .smbusRead s = .next { s with pins := { s.pins with
      smbNak := false, smbOut := if s.pins.smbPec then b ++ [pec (s.smbByte true :: b)] else b } } := by
  show execSmbusRead s = _
  simp [execSmbusRead, alive, sel]

end

/-- The offsets the mirror holds. -/
def mirrored : List Nat := [0, 0x2000, 0x3000, 0x04040000, 0x05000008, 0x0500000C, 0x06010004] ++ offs 0x06010100 4 176

theorem get_mirrored (f : Nat → Word) {o : Nat} (h : o ∈ mirrored) :
    Tbl.get 0 (mirrored.foldl (fun m o => Tbl.set 0 m o (f o)) []) o = f o :=
  (Tbl.get_foldl_set 0 f mirrored (Tbl.wf_nil 0) o).trans (if_pos h)

/-- Once a millisecond every mirrored register is read. -/
theorem exec_smbusMirrorRefresh_due {t : Nat} (due : s.pins.smbMirrorAt + 1000000 ≤ max s.clk.now t)
    (rail : s.pwr.alwaysOn = true) (supply : s.pins.vinOk = true) :
    exec (.smbusMirrorRefresh t) s = .next { s.at_ t with pins := { s.pins with
      smbMirror := mirrored.foldl (fun m o => Tbl.set 0 m o ((s.at_ t).readReg o)) []
      smbMirrorAt := max s.clk.now t } } := by
  have runs : ¬((s.at_ t).pins.smbMirrorAt + 1000000 > (s.at_ t).clk.now ∨ (!(s.at_ t).pwr.alwaysOn) = true
      ∨ (!(s.at_ t).pins.vinOk) = true) := by
    rintro (late | off | off)
    · exact absurd due (Nat.not_le.2 late)
    · exact absurd (off.symm.trans (congrArg not rail)) (by decide)
    · exact absurd (off.symm.trans (congrArg not supply)) (by decide)
  exact if_neg runs

end Sys2Proof.Machine
end

section
open Sys2Proof Sys2Proof.Machine

/-- Settles O55: each command's outcome is its lemma above. -/
theorem serviceInterfacesAnswer : Obligations.ServiceInterfacesAnswer := by
  intro s _
  refine ⟨fun tdi => ⟨_, rfl, rfl, rfl, rfl⟩, ⟨_, _, exec_jtagIdcode s, rfl, s.idcode_odd, s.idcode_part⟩,
    fun pre above => exec_jtagSamplePreload_open above pre, exec_jtagExtest_open,
    fun locked => ⟨fun pre => if_pos locked, if_pos locked, rfl, rfl⟩, exec_jtagUnlock_challenge s,
    fun resp t up => ?response,
    fun alive => ⟨fun bytes => exec_smbusOffsetWrite_selects alive, fun bytes => exec_smbusOffsetWrite_refused alive,
      fun off sel => ?read, if_pos alive⟩, rfl, fun t due rail supply => ?mirror⟩
  case response =>
    obtain ⟨used, opened⟩ := ((s.at_ t).shiftOut 5 []).trySignature_sec (leAt resp 0 1) resp
    exact ⟨_, exec_jtagUnlock_response up resp t, used, opened⟩
  case read =>
    refine ⟨_, exec_smbusRead_selected alive sel, rfl, ?_, ?_, rfl⟩
    · dsimp only
      split
      · exact List.take_left' (length_toLE 4 _)
      · exact List.take_of_length_le (length_toLE 4 _).le
    · dsimp only
      split <;> simp
  case mirror =>
    refine ⟨_, exec_smbusMirrorRefresh_due due rail supply, rfl, ?_, ?_, rfl⟩
    · dsimp only
      exact get_mirrored _ (List.mem_append_left _ (by decide))
    · dsimp only
      exact get_mirrored _ (List.mem_append_left _ (by decide))
end

section
/-! SUPPORT. What the slices do of the host interface as held requests go on: messages go out on the link, and nothing else
changes there (R178, R292). -/

namespace Sys2Proof.Machine

variable {r s t : State}

/-- Of the host interface, two states differ in what has gone out on the link at most. -/
def SendsOnly (s t : State) : Prop := ∃ count out, t.host = { s.host with bisnpCount := count, out := out }

theorem SendsOnly.rfl : SendsOnly s s := ⟨_, _, Eq.refl _⟩

theorem SendsOnly.trans (h : SendsOnly r s) (k : SendsOnly s t) : SendsOnly r t := by
  obtain ⟨_, _, first⟩ := h
  obtain ⟨count, out, second⟩ := k
  exact ⟨count, out, by rw [second, first]⟩

/-- A change within other parts sends nothing. -/
theorem SendsOnly.within {w : List Part} (h : SendsOnly r s) (k : Within w s t) (other : Part.host ∉ w) : SendsOnly r t :=
  h.trans ⟨_, _, k .host other⟩

theorem SendsOnly.out (h : SendsOnly r s) (o : List CxlOut) :
    SendsOnly r { s with host := { s.host with out := o } } := h.trans ⟨_, o, Eq.refl _⟩

theorem SendsOnly.onSlice (h : SendsOnly r s) (n : Nat) (f : Slice → Slice) : SendsOnly r (s.onSlice n f) :=
  h.within (w := [.mem]) (State.onSlice_within n f .rfl (by decide)) (by decide)

theorem SendsOnly.foldl {α : Type} {f : State → α → State} (l : List α) (h : SendsOnly r s)
    (step : ∀ u x, SendsOnly r u → SendsOnly r (f u x)) : SendsOnly r (l.foldl f s) := foldl_keeps f l h step

theorem SendsOnly.writeMem (h : SendsOnly r s) (a : Nat) (l : List MB) (k : Option GrpKey) :
    SendsOnly r (s.writeMem a l k) :=
  h.within (w := [.cores, .mem, .ports, .fab, .flash])
    (State.writeMem_within a l k .rfl (by decide) (by decide) (by decide) (by decide) (by decide)) (by decide)

theorem SendsOnly.sendBisnp (h : SendsOnly r s) (n unit : Nat) (withData : Bool) :
    SendsOnly r (s.sendBisnp n unit withData) := by
  unfold State.sendBisnp
  split
  · exact h
  · exact (h.onSlice n _).trans ⟨_, _, Eq.refl _⟩

/-- What a line waits for. -/
theorem SendsOnly.lineWait (h : SendsOnly r s) {ln : Nat} {k : Option GrpKey} {p : XPort} {write : Bool}
    (e : s.lineWait ln k p write = some t) : SendsOnly r t := by
  unfold State.lineWait at e
  extract_lets n sl at e
  split at e
  · cases e
    exact h
  split at e
  · cases e
    exact h
  split at e
  · cases e
    exact h
  split at e
  · cases e
  split at e
  · cases e
  · cases e
    exact h.foldl _ fun u x hu => hu.sendBisnp n x.unit _

theorem SendsOnly.memWait (h : SendsOnly r s) {a n : Nat} {k : Option GrpKey} {p : XPort} {write : Bool}
    (e : s.memWait a n k p write = some t) : SendsOnly r t := by
  have start : ∀ u, (none : Option State) = some u → SendsOnly r u := fun _ none => nomatch none
  refine foldl_keeps (P := fun w : Option State => ∀ u, w = some u → SendsOnly r u) _ (lineCuts a n) start
    (fun w x hw u hu => ?_) t e
  have now : SendsOnly r (w.getD s) := by
    cases w with
    | none => exact h
    | some v => exact hw v (Eq.refl _)
  dsimp only at hu
  split at hu
  next wait => exact (Option.some.inj hu) ▸ now.lineWait wait
  next => exact hw u hu

theorem SendsOnly.doRead (h : SendsOnly r s) (m : Miss) : SendsOnly r (s.doRead m) := by
  unfold State.doRead
  extract_lets a
  split
  next wait => exact (h.memWait wait).onSlice _ _
  next =>
    split
    · exact h.within (w := [.mem, .flash])
        (State.deliver_within _ _ _ _ (State.readUnit_within _ _ _ _ .rfl (by decide) (by decide)) (by decide)) (by decide)
    · exact (h.within (w := [.mem]) (State.countRead_within _ _ .rfl (by decide)) (by decide)).onSlice _ _

theorem SendsOnly.doWrite (h : SendsOnly r s) (p : XPort) (a : Nat) (mask : BitVec 256) (data : List Byte) (poison : Bool)
    (k : Option GrpKey) : SendsOnly r (s.doWrite p a mask data poison k) := by
  unfold State.doWrite
  split
  next wait => exact (h.memWait wait).onSlice _ _
  next => exact h.foldl _ fun u x hu => hu.writeMem _ _ _

theorem SendsOnly.track (h : SendsOnly r s) {unit : Nat} {modified : Bool} (e : s.track unit modified = some t) :
    SendsOnly r t :=
  h.within (w := [.mem]) (State.track_within unit modified .rfl (by decide) t e) (by decide)

theorem SendsOnly.doHost (h : SendsOnly r s) (a : Nat) (q : HostMem) (caches : Bool) :
    SendsOnly r (s.doHost a q caches) := by
  unfold State.doHost
  extract_lets n unit hold say
  have waits (u : State) (hu : SendsOnly r u) : SendsOnly r (hold u) := hu.onSlice _ _
  have sent (u : State) (o : CxlOut) (hu : SendsOnly r u) : SendsOnly r (say u o) := hu.out _
  split
  next wait => exact waits _ (h.lineWait wait)
  next =>
    split
    next =>
      split
      · exact waits _ (h.sendBisnp _ _ _)
      · exact waits _ h
    next v track =>
      have tracked : SendsOnly r v := by
        split at track
        · exact h.track track
        · exact Option.some.inj track ▸ h
      split
      · have read := State.readMem_within (W := [.mem, .flash]) (s := v) (64 * unit) 64 none .rfl (by decide) (by decide)
        exact sent _ _ (tracked.within read (by decide))
      · exact sent _ _ (tracked.foldl _ fun u x hu => hu.writeMem _ _ _)

theorem SendsOnly.access (h : SendsOnly r s) (q : HeldReq) : SendsOnly r (s.access q) := by
  cases q with
  | read m => exact h.doRead m
  | write p a mask data poison k => exact h.doWrite p a mask data poison k
  | host a q caches => exact h.doHost a q caches

theorem SendsOnly.mem (h : SendsOnly r s) (x : Mem) : SendsOnly r { s with mem := x } := h.trans ⟨_, _, Eq.refl _⟩

theorem SendsOnly.submit (h : SendsOnly r s) (q : HeldReq) : SendsOnly r (s.submit q) := by
  unfold State.submit
  split
  · exact h.mem _
  · exact h.access q

theorem SendsOnly.pumpWaiting (h : SendsOnly r s) : SendsOnly r s.pumpWaiting := by
  unfold State.pumpWaiting
  split
  · exact h
  · exact (h.mem _).foldl _ fun u q hu => hu.submit q

theorem SendsOnly.retryHeld (h : SendsOnly r s) (n : Nat) : SendsOnly r (s.retryHeld n) := by
  unfold State.retryHeld
  extract_lets hs
  split
  · exact h
  · exact ((h.onSlice n _).foldl _ fun u q hu => hu.access q).pumpWaiting

theorem SendsOnly.sliceCommit (h : SendsOnly r s) (n : Nat) (k : GrpKey) : SendsOnly r (s.sliceCommit n k) := by
  unfold State.sliceCommit
  extract_lets mine told stay u
  split
  · exact (h.foldl _ fun v x hv => hv.sendBisnp n x.unit false).onSlice n _
  · refine SendsOnly.foldl _ (h.onSlice n _) fun v x hv => ?_
    exact hv.within (w := [.cores, .mem, .ports, .fab, .flash])
      (State.applyShadow_within x .rfl (by decide) (by decide) (by decide) (by decide) (by decide)) (by decide)

/-- A slice on which something may go on sends, and changes nothing else of the host interface. -/
theorem SendsOnly.sliceGo (h : SendsOnly r s) (n : Nat) : SendsOnly r (s.sliceGo n) :=
  (h.foldl _ fun _ k hu => hu.sliceCommit n k).retryHeld n

end Sys2Proof.Machine
end

section
/-! SUPPORT. The host's link: what its resets lose and keep (R288), how it comes up (R284, R285), and what its decoders, its
cache and its configuration answer (R287, R289, R291). -/

namespace Sys2Proof.Machine

variable {s : State}

/-! ### What a reset of the link does -/

/-- A slice that holds nothing for the host any more (R288). -/
def Slice.unlinked (x : Slice) : Slice :=
  { x with snoops := [], bisnp := [], held := x.held.filter (fun h => h.at_.1 != .cxl) }

/-- No slice holds anything for the host. -/
def State.unlinkSlices (s : State) : State :=
  { s with mem := { s.mem with slices := Tbl.mapv {} Slice.unlinked s.mem.slices } }

/-- What the slices held goes on. -/
def State.goSlices (s : State) : State := s.mem.slices.foldl (fun s x => s.sliceGo x.1) s

/-- The host interface once its link is reset (R288). -/
def HostIf.unlinked (h : HostIf) : HostIf :=
  { h with
    linkUp := false
    rate := 0
    x8 := false
    flit256 := false
    pcie := false
    cacheEn := false
    dec0 := {}
    dec1 := {}
    msixTable := []
    msixPend := 0
    pairs := Tbl.mapv {} Pair.resetBy h.pairs }

/-- The state before the link goes: the aperture, the slices' lines and what waited for them are dealt with. -/
def State.quitHost (s : State) : State := s.dropAperture.unlinkSlices.goSlices

theorem State.hostReset_eq (s : State) :
    s.hostReset = ({ s.quitHost with host := s.quitHost.host.unlinked } : State).enterAbsent := by
  unfold State.hostReset
  rfl

theorem State.quitHost_only (s : State) : Within [.cores, .mem, .ports, .fab, .host, .flash] s.dropAperture s.quitHost :=
  within_foldl _ _ (within_mem _ .rfl (by decide)) fun _ x h =>
    State.sliceGo_within x.1 h (by decide) (by decide) (by decide) (by decide) (by decide) (by decide)

theorem State.quitHost_sendsOnly (s : State) : SendsOnly s s.quitHost :=
  (((SendsOnly.rfl).within (w := [.cfg]) (State.dropAperture_within .rfl (by decide)) (by decide)).mem _).foldl _
    fun _ x h => h.sliceGo x.1

/-- The configuration keeps its applied and staged copies but for the aperture's VALID bits. -/
theorem State.hostReset_cfg (s : State) : s.hostReset.cfg = s.dropAperture.cfg := by
  have absent (t : State) : t.enterAbsent.cfg = t.cfg :=
    State.enterAbsent_within (W := [.host]) .rfl (by decide) .cfg (by decide)
  rw [State.hostReset_eq, absent]
  exact s.quitHost_only .cfg (by decide)

/-- The host interface after a reset of its link: HOST_ABSENT begins where the host was present. -/
theorem State.hostReset_host (s : State) : ∃ count out,
    let h := ({ s.host with bisnpCount := count, out := out } : HostIf).unlinked
    s.hostReset.host = if s.host.hostState = 0 then { h with hostState := 1, absentAt := s.clk.now } else h := by
  obtain ⟨count, out, host⟩ := s.quitHost_sendsOnly
  have aperture : s.dropAperture.clk = s.clk := State.dropAperture_within (W := [.cfg]) .rfl (by decide) .clk (by decide)
  have clk : s.quitHost.clk = s.clk := (s.quitHost_only .clk (by decide)).trans aperture
  have state : s.quitHost.host.unlinked.hostState = s.host.hostState := by rw [host]; rfl
  refine ⟨count, out, ?_⟩
  rw [State.hostReset_eq, State.enterAbsent]
  simp only [state, clk]
  rw [host]
  split <;> rfl

/-- Where no slice holds anything, nothing goes on. -/
theorem State.quitHost_idle (hs : Canon s) (idle : ∀ n, (s.slice n).held = [] ∧ (s.slice n).commits = []) :
    s.quitHost = s.dropAperture.unlinkSlices := by
  have mem : s.dropAperture.mem = s.mem := State.dropAperture_within (W := [.cfg]) .rfl (by decide) .mem (by decide)
  have slice (n : Nat) : s.dropAperture.unlinkSlices.slice n = (s.slice n).unlinked := by
    rw [State.slice, State.unlinkSlices, mem]
    exact Tbl.get_mapv_of_fixed (f := Slice.unlinked) rfl hs.slices n
  refine List.foldl_fixed' (f := fun (s : State) (x : Nat × Slice) => s.sliceGo x.1) (fun x => State.sliceGo_of_idle ?_ ?_) _
  · rw [slice, Slice.unlinked, (idle x.1).1]
    rfl
  · rw [slice]
    exact (idle x.1).2

theorem State.hostReset_idle (hs : Canon s) (idle : ∀ n, (s.slice n).held = [] ∧ (s.slice n).commits = []) :
    Within [.cfg, .mem, .host] s s.hostReset ∧ s.hostReset.mem.dram = s.mem.dram := by
  have aperture : Within [.cfg, .mem, .host] s s.dropAperture := State.dropAperture_within .rfl (by decide)
  have dram : s.dropAperture.mem.dram = s.mem.dram :=
    congrArg Mem.dram (State.dropAperture_within (W := [.cfg]) Within.rfl (by decide) .mem (by decide))
  have absent (t : State) : Within [.cfg, .mem, .host] t t.enterAbsent ∧ t.enterAbsent.mem = t.mem :=
    ⟨State.enterAbsent_within .rfl (by decide), State.enterAbsent_within (W := [.host]) .rfl (by decide) .mem (by decide)⟩
  rw [State.hostReset_eq, State.quitHost_idle hs idle]
  generalize s.dropAperture = u at *
  obtain ⟨within, mem⟩ := absent { u.unlinkSlices with host := u.unlinkSlices.host.unlinked }
  refine ⟨?_, (congrArg Mem.dram mem).trans dram⟩
  exact (within_host _ (within_mem _ aperture (by decide)) (by decide)).trans within

/-- The aperture's entries are dropped whatever the pins say. -/
theorem State.dropAperture_pins (s : State) (p : Pins) :
    ({ s with pins := p } : State).dropAperture = { s.dropAperture with pins := p } := by
  refine List.foldl_hom (fun u : State => { u with pins := p }) fun u i => ?_
  dsimp only
  have same : ({ u with pins := p } : State).appliedReg (0x04070000 + 8 * i) = u.appliedReg (0x04070000 + 8 * i) := rfl
  rw [same]
  split <;> rfl

/-- What a reset of the host's link comes to (R288). -/
def State.LinkLost (s t : State) : Prop :=
  t.host.linkUp = false ∧ t.host.dec0 = {} ∧ t.host.dec1 = {} ∧ t.host.msixTable = [] ∧ t.host.cacheEn = false
    ∧ (∀ n, t.pair n = (s.pair n).resetBy) ∧ t.cfg = s.dropAperture.cfg
    ∧ (s.host.hostState = 0 → t.host.hostState = 1 ∧ t.host.absentAt = s.clk.now)
    ∧ t.jobs = s.jobs
    ∧ ((∀ n, (s.slice n).held = [] ∧ (s.slice n).commits = []) →
        t.cores = s.cores ∧ t.mem.dram = s.mem.dram ∧ t.ports = s.ports ∧ t.fab = s.fab)

theorem State.hostReset_lost (hs : Canon s) : s.LinkLost s.hostReset := by
  obtain ⟨count, out, host⟩ := s.hostReset_host
  have pair (n : Nat) : s.hostReset.pair n = (s.pair n).resetBy := by
    have pairs : s.hostReset.host.pairs = Tbl.mapv {} Pair.resetBy s.host.pairs := by
      rw [host]
      split <;> rfl
    rw [State.pair, pairs]
    exact Tbl.get_mapv_of_fixed (f := Pair.resetBy) rfl hs.2.2.2.2.2.1.1 n
  have cfg := s.hostReset_cfg
  have jobs : s.hostReset.jobs = s.jobs := s.hostReset_only .jobs (by decide)
  have idle := State.hostReset_idle hs
  generalize s.hostReset = t at *
  have state : t.host.linkUp = false ∧ t.host.dec0 = {} ∧ t.host.dec1 = {} ∧ t.host.msixTable = []
      ∧ t.host.cacheEn = false := by
    rw [host]
    split <;> exact ⟨rfl, rfl, rfl, rfl, rfl⟩
  obtain ⟨link, dec0, dec1, table, cache⟩ := state
  refine ⟨link, dec0, dec1, table, cache, pair, cfg, fun present => ?_, jobs, fun quiet => ?_⟩
  · rw [host, if_pos present]
    exact ⟨rfl, rfl⟩
  · obtain ⟨within, dram⟩ := idle quiet
    exact ⟨within .cores (by decide), dram, within .ports (by decide), within .fab (by decide)⟩

/-- The pin of the reset changes nothing of that. -/
theorem State.hostReset_lost_pins (hs : Canon s) (p : Pins) : s.LinkLost ({ s with pins := p } : State).hostReset := by
  have reset := State.hostReset_lost (s := { s with pins := p }) hs
  generalize ({ s with pins := p } : State).hostReset = t at *
  obtain ⟨link, dec0, dec1, table, cache, pair, cfg, rest⟩ := reset
  rw [State.dropAperture_pins] at cfg
  exact ⟨link, dec0, dec1, table, cache, pair, cfg, rest⟩

theorem exec_cxlPerstAssert_high (high : s.pins.perstN = true) : exec .cxlPerstAssert s =
    .next ({ s with pins := { s.pins with perstN := false } } : State).hostReset := if_pos high

/-! ### The link comes up -/

/-- A rate of 16 GT/s and above brings up CXL, 64 GT/s in 256 B flits. -/
theorem exec_cxlLinkUp_cxl (perst : s.pins.perstN = true) (power : s.pins.pwrGood = true) (down : s.host.linkUp = false)
    (ref : bit s.clk.refLost 3 = false) {r : Fin 4} (fast : r ≠ 0) (x8 f : Bool) :
    exec (.cxlLinkUp r x8 f true) s = .next { s with host := { s.host with
      linkUp := true, rate := BitVec.ofNat 2 r.val, x8 := x8, flit256 := r == 3 || f, pcie := false } } := by
  have rate : (BitVec.ofNat 64 r.val).setWidth 2 = BitVec.ofNat 2 r.val := by
    revert r
    decide
  have slow : (r == 0) = false := by simpa using fast
  show execCxlLinkUp r x8 f true s = _
  simp [execCxlLinkUp, perst, power, down, ref, fast, slow, rate]

/-! ### What the link answers -/

section
variable (link : s.host.linkUp = true)
include link

theorem exec_configurationRequest_retried (none : s.mgmt.partCode = 0) (off : BitVec 12) :
    exec (.configurationRequest off) s = .next { s with host := { s.host with out := s.host.out ++ [.cfgCrs off] } } := by
  show execConfigurationRequest off s = _
  simp [execConfigurationRequest, link, none]

/-- Once written, PART_CODE is the Device ID. -/
theorem exec_configurationRequest_device (written : s.mgmt.partCode ≠ 0) : ∃ v, exec (.configurationRequest 0) s =
      .next { s with host := { s.host with out := s.host.out ++ [.cfgData 0 v] } }
    ∧ fld v 16 16 = s.mgmt.partCode.toNat := by
  have vendor : fld (Config.pciConfig 0) 0 16 < 2 ^ 16 := Nat.mod_lt _ (by decide)
  have part := s.mgmt.partCode.isLt
  refine ⟨BitVec.ofNat 32 (fld (Config.pciConfig 0) 0 16 + s.mgmt.partCode.toNat * 65536), ?_, ?_⟩
  · show execConfigurationRequest 0 s = _
    simpa [execConfigurationRequest, link] using written
  · simp only [fld, BitVec.toNat_ofNat] at vendor ⊢
    omega

/-- A decoder takes a range of whole 256 MiB within DRAM that no committed one of the other's meets (R291). -/
theorem exec_hdmDecoderCommit_maps (flit : s.host.flit256 = true) (active : s.host.memActive = true) (n : Fin 2)
    (h d z : Nat) (fits : d * 2 ^ 28 + z * 2 ^ 28 ≤ 2 ^ 39)
    (other : (if n = 0 then s.host.dec1 else s.host.dec0).committed = false) :
    let dec : Decoder := { committed := true, hpa := h * 2 ^ 28, dpa := d * 2 ^ 28, size := z * 2 ^ 28 }
    exec (.hdmDecoderCommit n (h * 2 ^ 28) (d * 2 ^ 28) (z * 2 ^ 28) 1) s = .next { s with
      host := if n = 0 then { s.host with dec0 := dec } else { s.host with dec1 := dec } } := by
  have whole (v : Nat) : v * 2 ^ 28 / 2 ^ 28 * 2 ^ 28 = v * 2 ^ 28 := by
    rw [Nat.mul_div_cancel _ (by decide)]
  have inside : ¬d * 2 ^ 28 + z * 2 ^ 28 > 2 ^ 39 := Nat.not_lt.2 fits
  show execHdmDecoderCommit n _ _ _ 1 s = _
  unfold execHdmDecoderCommit
  simp only [whole, link, flit, active, other, inside]
  simp

end

end Sys2Proof.Machine
end

section
open Sys2Proof Sys2Proof.Machine

/-- Settles O43: the four resets come to `hostReset`, whose host interface is that of `hostReset_host`. -/
theorem linkEventsAndResets : Obligations.LinkEventsAndResets := by
  intro s hs lost
  have reset : lost s.hostReset := State.hostReset_lost hs
  refine ⟨fun high => ⟨_, exec_cxlPerstAssert_high high, State.hostReset_lost_pins hs _, ?pins⟩,
    fun link => ⟨⟨_, if_pos link, reset⟩, ⟨_, if_pos link, reset⟩, ⟨_, if_pos link, reset⟩, fun cxl => ?cache,
      exec_configurationRequest_retried link, exec_configurationRequest_device link,
      ?decoder⟩,
    fun high => if_pos high,
    fun perst power down ref r x8 f fast => exec_cxlLinkUp_cxl perst power down ref fast x8 f⟩
  case pins => exact congrArg Pins.perstN (State.hostReset_only _ .pins (by decide))
  case cache => exact if_pos (by simp [link, cxl])
  case decoder =>
    intro flit active n h d z o fits other
    refine ⟨_, exec_hdmDecoderCommit_maps link flit active n h d z fits other, ?_⟩
    by_cases zero : n = 0 <;> simp [zero, o]
end

section
/-! SUPPORT. A table of slices that lists one twice (log 3). -/

namespace Sys2Proof.Machine

/-- Slice 0 is listed twice: first with a back-invalidate out, then with a write of no bytes that waits. -/
def sTwinSlice : State := { mem := { slices :=
  [(0, { bisnp := [(0, false)] }), (0, { held := [.write .cxl 0 0 [] false none] })] } }

/-- The answer leaves the first listing nothing, which drops it, and the write that the second holds goes on. -/
theorem sTwinSlice_goes_on : (after (.bisnpResponse 0 none) sTwinSlice).mem.slices = [] := by decide +kernel

theorem after_of_next {i : Instr} {s t : State} (run : exec i s = .next t) : after i s = t := by
  rw [after, run]

end Sys2Proof.Machine
end

section
open Sys2Proof Sys2Proof.Machine

/-- Refutes O31 in its clause on a back-invalidate's answer at a slice that holds nothing. The statement does not ask for
the canonical form: where the table of slices lists a slice twice, the answer can drop the first listing, and what the second
holds goes on, so that more has changed than the back-invalidate and the snoop filter. -/
theorem not_hostAccessesAreServed : ¬ Obligations.HostAccessesAreServed := by
  intro h
  obtain ⟨-, -, response, -⟩ := h sTwinSlice
  obtain ⟨-, idle⟩ := response 0 0 false [] none (by decide +kernel)
  have slices := congrArg (fun t : State => t.mem.slices)
    (after_of_next (idle (by decide +kernel) (by decide +kernel)))
  rw [sTwinSlice_goes_on] at slices
  exact absurd slices (by decide +kernel)
end
